-- ==== Sys2Proof/Word.lean ====
section
/-!
DEFINITION. Words, bytes, saturating counts, and association lists: the plain data shapes the model is built from.
-/
namespace Sys2Proof

abbrev Byte := BitVec 8
abbrev Word := BitVec 64

/-- Addition that saturates at a bound (R43, R44: an event count stays at its highest value). -/
def satAdd (hi a b : Nat) : Nat := min hi (a + b)

/-- Serial comparison modulo 2^32: `a` is newer than `b` (R95, R320). -/
def newer32 (a b : BitVec 32) : Bool :=
  let d := (a - b).toNat
  1 ≤ d && d < 2 ^ 31

/-- Serial comparison modulo 2^16 (R398). -/
def newer16 (a b : BitVec 16) : Bool :=
  let d := (a - b).toNat
  1 ≤ d && d < 2 ^ 15

/-- Ceiling division. -/
def ceilDiv (a b : Nat) : Nat := (a + b - 1) / b

/-- ceil(log2 n), with 0 for n = 0 and n = 1. -/
def ceilLog2 (n : Nat) : Nat := if n ≤ 1 then 0 else Nat.log2 (n - 1) + 1

/-- A finite map held as plain data: a list of keys and values, one entry a key. -/
abbrev AMap (α β : Type) := List (α × β)

namespace AMap

/-- The value at a key, or the default of the keys that are not listed. -/
def get {α β : Type} [DecidableEq α] (d : β) (k : α) : AMap α β → β
  | [] => d
  | (k', v) :: m => if k' = k then v else get d k m

/-- Write one key; every other key keeps its value. -/
def set {α β : Type} [DecidableEq α] (k : α) (v : β) : AMap α β → AMap α β
  | [] => [(k, v)]
  | (k', v') :: m => if k' = k then (k, v) :: m else (k', v') :: set k v m

/-- Remove one key. -/
def del {α β : Type} [DecidableEq α] (k : α) (m : AMap α β) : AMap α β :=
  m.filter fun e => e.1 ≠ k

end AMap

/-- Little-endian bytes of a number, `n` bytes (R6). -/
def toBytes : Nat → Nat → List Byte
  | 0, _ => []
  | n + 1, v => BitVec.ofNat 8 v :: toBytes n (v / 256)

/-- The number that little-endian bytes spell (R6). -/
def ofBytes : List Byte → Nat
  | [] => 0
  | b :: bs => b.toNat + 256 * ofBytes bs

/-- Bytes `off` to `off + n - 1` of a list, with 0 past its end. -/
def bytesAt (l : List Byte) (off n : Nat) : List Byte :=
  (List.range n).map fun i => l.getD (off + i) 0

/-- The little-endian number at a byte offset of a list. -/
def natAt (l : List Byte) (off n : Nat) : Nat := ofBytes (bytesAt l off n)

/-- Bits `[lo + w - 1 : lo]` of a number. -/
def bitsOf (v lo w : Nat) : Nat := v / 2 ^ lo % 2 ^ w

/-- Bit `i` of a number. -/
def bitOf (v i : Nat) : Bool := v / 2 ^ i % 2 = 1

/-- A number read as a two's complement value of `w` bits. -/
def signed (w v : Nat) : Int :=
  let x := v % 2 ^ w
  if x < 2 ^ (w - 1) then (x : Int) else (x : Int) - 2 ^ w

/-- The `w`-bit two's complement code of an integer. -/
def unsigned (w : Nat) (i : Int) : Nat := (i % (2 ^ w : Int)).toNat

end Sys2Proof
end

