-- ==== Sys2Proof/Machine/Num.lean ====
section
/-!
DEFINITION. Number formats, conversion and rounding (R28 to R59): exact values, the one rounding rule, stochastic
rounding and its generator, and the block-scale recipe.
-/
namespace Sys2Proof

/-- The formats of R28, in the order of their codes 0x0 to 0xA. -/
inductive Fmt where
  | bf16 | f16 | e4m3 | e5m2 | i8 | mxe4m3 | mxe5m2 | mxi8 | f32 | i32 | u16
  deriving DecidableEq, Repr

/-- A tensor kind (R54), coded as in the KIND fields. -/
inductive Kind where
  | w | act | agr | wgr
  deriving DecidableEq, Repr

namespace Machine

/-- The format of a code; 0xB to 0xF are reserved (R28). -/
def fmtOf : Nat → Option Fmt
  | 0 => some .bf16 | 1 => some .f16 | 2 => some .e4m3 | 3 => some .e5m2 | 4 => some .i8
  | 5 => some .mxe4m3 | 6 => some .mxe5m2 | 7 => some .mxi8 | 8 => some .f32 | 9 => some .i32
  | 10 => some .u16 | _ => none

/-- The code of a format (R28). -/
def fmtCode : Fmt → Nat
  | .bf16 => 0 | .f16 => 1 | .e4m3 => 2 | .e5m2 => 3 | .i8 => 4 | .mxe4m3 => 5 | .mxe5m2 => 6
  | .mxi8 => 7 | .f32 => 8 | .i32 => 9 | .u16 => 10

/-- Element width in bits (R28). -/
def fmtWidth : Fmt → Nat
  | .bf16 | .f16 | .u16 => 16
  | .f32 | .i32 => 32
  | _ => 8

/-- The formats with shared block scales. -/
def isMx : Fmt → Bool
  | .mxe4m3 | .mxe5m2 | .mxi8 => true
  | _ => false

/-- The integer formats. -/
def isInt : Fmt → Bool
  | .i8 | .i32 | .u16 => true
  | _ => false

/-- An exact value: NaN, an infinity, or (-1)^neg × m × 2^e, where m = 0 is a signed zero. -/
inductive FVal where
  | nan
  | inf (neg : Bool)
  | fin (neg : Bool) (m : Nat) (e : Int)
  deriving DecidableEq, Repr

/-- Parameters of a floating-point encoding (R30). -/
structure FloatSpec where
  eb : Nat          -- exponent bits
  mb : Nat          -- mantissa bits
  bias : Nat
  hasInf : Bool
  maxBits : Nat     -- encoding of the largest finite magnitude
  canon : Nat       -- canonical NaN
  deriving DecidableEq, Repr

/-- The table of R30; the MX floating elements are encoded as E4M3 and E5M2 (R33). -/
def floatSpec : Fmt → Option FloatSpec
  | .f32 => some ⟨8, 23, 127, true, 0x7F7FFFFF, 0x7FC00000⟩
  | .bf16 => some ⟨8, 7, 127, true, 0x7F7F, 0x7FC0⟩
  | .f16 => some ⟨5, 10, 15, true, 0x7BFF, 0x7E00⟩
  | .e4m3 | .mxe4m3 => some ⟨4, 3, 7, false, 0x7E, 0x7F⟩
  | .e5m2 | .mxe5m2 => some ⟨5, 2, 15, true, 0x7B, 0x7E⟩
  | _ => none

/-- Exponent of the smallest subnormal. -/
def FloatSpec.qmin (f : FloatSpec) : Int := 1 - (f.bias : Int) - f.mb

/-- The sign bit's weight. -/
def FloatSpec.signBit (f : FloatSpec) (neg : Bool) : Nat := if neg then 2 ^ (f.eb + f.mb) else 0

/-- Encoding of an infinity's magnitude. -/
def FloatSpec.infBits (f : FloatSpec) : Nat := (2 ^ f.eb - 1) * 2 ^ f.mb

/-- The value a floating encoding stands for (R30). -/
def decodeFloat (f : FloatSpec) (x : Nat) : FVal :=
  let neg := bitOf x (f.eb + f.mb)
  let ex := bitsOf x f.mb f.eb
  let m := x % 2 ^ f.mb
  if ex = 2 ^ f.eb - 1 ∧ f.hasInf then (if m = 0 then .inf neg else .nan)
  else if ex = 2 ^ f.eb - 1 ∧ m = 2 ^ f.mb - 1 then .nan
  else if ex = 0 then .fin neg m f.qmin
  else .fin neg (m + 2 ^ f.mb) (f.qmin + ex - 1)

/-- The exact value of an integer. -/
def ofInt (i : Int) : FVal := .fin (i < 0) i.natAbs 0

/-- The value of an element of a plain format (R30, R33). An MX element reads as its element value, without scale;
the element 0x80 of MXINT8 is -2.0 (R34). -/
def decodeElem (f : Fmt) (x : Nat) : FVal :=
  match f with
  | .i8 => ofInt (signed 8 x)
  | .i32 => ofInt (signed 32 x)
  | .u16 => ofInt ((x % 2 ^ 16 : Nat) : Int)
  | .mxi8 => let i := signed 8 x; .fin (i < 0) i.natAbs (-6)
  | f => match floatSpec f with
    | some s => decodeFloat s x
    | none => .nan

/-- The exact product with 2^k. -/
def FVal.scale (k : Int) : FVal → FVal
  | .fin n m e => .fin n m (e + k)
  | v => v

/-- floor(log2 |v|) of a finite nonzero value. -/
def FVal.exp2 : FVal → Option Int
  | .fin _ m e => if m = 0 then none else some (Nat.log2 m + e)
  | _ => none

/-- Is the value zero? -/
def FVal.isZero : FVal → Bool
  | .fin _ 0 _ => true
  | _ => false

/-- The sign of a value. -/
def FVal.neg : FVal → Bool
  | .nan => false
  | .inf n => n
  | .fin n _ _ => n

/-- A signed integer times 2^e as a value; an exact zero takes the given sign. -/
def ofScaled (zneg : Bool) (i : Int) (e : Int) : FVal :=
  if i = 0 then .fin zneg 0 e else .fin (i < 0) i.natAbs e

/-- The signed integer of a finite value in units of 2^q, exact when q ≤ e. -/
def alignTo (neg : Bool) (m : Nat) (e q : Int) : Int :=
  let a : Int := (m * 2 ^ (e - q).toNat : Nat)
  if neg then -a else a

/-- The exact sum (R136, R274): a zero sum is +0 unless both operands are -0. -/
def FVal.add : FVal → FVal → FVal
  | .nan, _ => .nan
  | _, .nan => .nan
  | .inf a, .inf b => if a = b then .inf a else .nan
  | .inf a, _ => .inf a
  | _, .inf b => .inf b
  | .fin n1 m1 e1, .fin n2 m2 e2 =>
    let q := min e1 e2
    ofScaled (n1 && n2 && m1 = 0 && m2 = 0) (alignTo n1 m1 e1 q + alignTo n2 m2 e2 q) q

/-- Sign inversion. -/
def FVal.negate : FVal → FVal
  | .nan => .nan
  | .inf n => .inf !n
  | .fin n m e => .fin (!n) m e

/-- The exact product. A zero product takes the sign of its operands' signs, of integers too: 0 times a negative integer is
-0 (R74; DESIGN CHOICE, log entry 88). -/
def FVal.mul : FVal → FVal → FVal
  | .nan, _ => .nan
  | _, .nan => .nan
  | .inf a, .inf b => .inf (a != b)
  | .inf a, .fin b m _ => if m = 0 then .nan else .inf (a != b)
  | .fin a m _, .inf b => if m = 0 then .nan else .inf (a != b)
  | .fin a m e, .fin b k f => .fin (a != b) (m * k) (e + f)

/-- The quotient, exact or with one sticky bit below every rounding position (R136, IEEE 754). -/
def FVal.div : FVal → FVal → FVal
  | .nan, _ => .nan
  | _, .nan => .nan
  | .inf _, .inf _ => .nan
  | .inf a, .fin b _ _ => .inf (a != b)
  | .fin a _ _, .inf b => .fin (a != b) 0 0
  | .fin a m e, .fin b k f =>
    if k = 0 then (if m = 0 then .nan else .inf (a != b))
    else
      let s := 64 + Nat.log2 k
      let q := m * 2 ^ s / k
      let st := if m * 2 ^ s % k = 0 then 0 else 1
      .fin (a != b) (2 * q + st) (e - f - s - 1)

/-- Integer square root, bit by bit from bit `b - 1`. -/
def isqrtBits : Nat → Nat → Nat → Nat
  | 0, _, r => r
  | b + 1, n, r => let c := r + 2 ^ b; isqrtBits b n (if c * c ≤ n then c else r)

/-- Integer square root. -/
def isqrt (n : Nat) : Nat := isqrtBits (Nat.log2 n / 2 + 1) n 0

/-- The square root, exact or with one sticky bit below every rounding position (R136, IEEE 754). -/
def FVal.sqrt : FVal → FVal
  | .nan => .nan
  | .inf n => if n then .nan else .inf false
  | .fin n m e =>
    if m = 0 then .fin n 0 e
    else if n then .nan
    else
      let (m', e') := if e % 2 = 0 then (m, e) else (2 * m, e - 1)
      let a := m' * 2 ^ 96
      let r := isqrt a
      .fin false (2 * r + (if r * r = a then 0 else 1)) (e' / 2 - 48 - 1)

/-- Order of two finite or infinite values: the sign of a - b, zeros of either sign equal. -/
def FVal.cmp : FVal → FVal → Int
  | .inf a, .inf b => if a = b then 0 else if a then -1 else 1
  | .inf a, _ => if a then -1 else 1
  | _, .inf b => if b then 1 else -1
  | .fin n1 m1 e1, .fin n2 m2 e2 =>
    let q := min e1 e2
    (alignTo n1 m1 e1 q - alignTo n2 m2 e2 q).sign
  | _, _ => 0

/-- Is the value NaN? -/
def FVal.isNan : FVal → Bool
  | .nan => true
  | _ => false

/-- m / 2^d rounded to nearest, ties to even (R36). -/
def rneShift (m d : Nat) : Nat :=
  let f := m / 2 ^ d
  let r := m % 2 ^ d
  if 2 * r > 2 ^ d then f + 1 else if 2 * r = 2 ^ d then f + f % 2 else f

/-- Magnitude encoding of m × 2^e rounded to nearest even, with an unbounded exponent range: the encoding overflows
exactly when it exceeds the format's largest finite encoding (R36, R38, R41). -/
def roundMag (f : FloatSpec) (m : Nat) (e : Int) : Nat :=
  if m = 0 then 0
  else
    let q := max f.qmin (Nat.log2 m + e - f.mb)
    let k := if q ≤ e then m * 2 ^ (e - q).toNat else rneShift m (q - e).toNat
    k + (q - f.qmin).toNat * 2 ^ f.mb

/-- Overflow mode of a conversion or readout (R38). -/
inductive OvMode where
  | sat | ieee
  deriving DecidableEq, Repr

/-- A converted element and the events it counts. -/
structure Conv where
  bits : Nat
  ovf : Bool := false
  unf : Bool := false
  nanInt : Bool := false
  clamp : Bool := false
  deriving DecidableEq, Repr

/-- Conversion of an exact value to a floating target (R31, R38, R39, R41). -/
def toFloat (f : FloatSpec) (mode : OvMode) : FVal → Conv
  | .nan => { bits := f.canon }
  | .inf n =>
    if f.hasInf then { bits := f.signBit n + f.infBits }
    else match mode with
      | .sat => { bits := f.signBit n + f.maxBits, ovf := true }
      | .ieee => { bits := f.canon, ovf := true }
  | .fin n m e =>
    let k := roundMag f m e
    if k ≤ f.maxBits then { bits := f.signBit n + k, unf := m ≠ 0 && k = 0 }
    else match mode with
      | .sat => { bits := f.signBit n + f.maxBits, ovf := true }
      | .ieee => { bits := if f.hasInf then f.signBit n + f.infBits else f.canon, ovf := true }

/-- A finite magnitude rounded to an integer, to nearest even. -/
def roundInt (m : Nat) (e : Int) : Nat := if 0 ≤ e then m * 2 ^ e.toNat else rneShift m (-e).toNat

/-- Conversion of an exact value to an integer target of range [lo, hi] in `w` bits (R40). -/
def toIntFmt (w : Nat) (lo hi : Int) : FVal → Conv
  | .nan => { bits := 0, nanInt := true }
  | .inf n => { bits := unsigned w (if n then lo else hi), ovf := true }
  | .fin n m e =>
    let i : Int := if n then -(roundInt m e : Int) else roundInt m e
    if i < lo then { bits := unsigned w lo, ovf := true }
    else if hi < i then { bits := unsigned w hi, ovf := true }
    else { bits := unsigned w i }

/-- Conversion of an exact value to a plain format (R36 to R41). -/
def encodeElem (t : Fmt) (mode : OvMode) (v : FVal) : Conv :=
  match t with
  | .i8 => toIntFmt 8 (-128) 127 v
  | .i32 => toIntFmt 32 (-2 ^ 31) (2 ^ 31 - 1) v
  | .u16 => toIntFmt 16 0 65535 v
  | t => match floatSpec t with
    | some s => toFloat s mode v
    | none => { bits := 0 }

/-- The canonical NaN of a floating format, 0 for an integer one (R31). -/
def canonNan (f : Fmt) : Nat := match floatSpec f with | some s => s.canon | none => 0

/-! ### FP32 lanes (R109, R112): each operation rounded to nearest even, overflow to an infinity -/

def f32 : FloatSpec := ⟨8, 23, 127, true, 0x7F7FFFFF, 0x7FC00000⟩

def rne32 (v : FVal) : Nat := (toFloat f32 .ieee v).bits
def f32Add (a b : Nat) : Nat := rne32 ((decodeFloat f32 a).add (decodeFloat f32 b))
def f32Sub (a b : Nat) : Nat := rne32 ((decodeFloat f32 a).add (decodeFloat f32 b).negate)
def f32Mul (a b : Nat) : Nat := rne32 ((decodeFloat f32 a).mul (decodeFloat f32 b))
def f32Div (a b : Nat) : Nat := rne32 ((decodeFloat f32 a).div (decodeFloat f32 b))
def f32Sqrt (a : Nat) : Nat := rne32 (decodeFloat f32 a).sqrt
def f32OfNat (n : Nat) : Nat := rne32 (ofInt n)

/-- The greater operand under R45, in bits of format `f`: NaN if either is NaN; of two zeros, +0 if either is. -/
def maxBitsOf (f : Fmt) (a b : Nat) : Nat :=
  let x := decodeElem f a
  let y := decodeElem f b
  if x.isNan || y.isNan then canonNan f
  else if x.isZero && y.isZero then (if x.neg then b else a)
  else if 0 ≤ x.cmp y then a else b

/-- The lesser operand under R45: of two zeros, -0 if either is. -/
def minBitsOf (f : Fmt) (a b : Nat) : Nat :=
  let x := decodeElem f a
  let y := decodeElem f b
  if x.isNan || y.isNan then canonNan f
  else if x.isZero && y.isZero then (if x.neg then a else b)
  else if x.cmp y ≤ 0 then a else b

def f32Max (a b : Nat) : Nat := maxBitsOf .f32 a b

/-! ### Stochastic rounding (R48, R49) -/

/-- One mixing round of the generator (R49), modulo 2^64. -/
def stir (z0 : Nat) : Nat :=
  let m := 2 ^ 64
  let z := z0 % m
  let z := z ^^^ (z / 2 ^ 31)
  let z := z * 0xA3C59B17E24D6F8B % m
  let z := z ^^^ (z / 2 ^ 29)
  let z := z * 0xC8E15F3A90B72D45 % m
  let z := z ^^^ (z / 2 ^ 32)
  let z := z * 0xB4F26D813A9CE567 % m
  z ^^^ (z / 2 ^ 30)

/-- The key of a job seed, step and parameter group (R49). -/
def srKey (seed step group : Nat) : Nat :=
  let k := stir (seed ^^^ 0x2F71C4D80B639E1D)
  stir (k ^^^ (step * 2 ^ 12 % 2 ^ 64) ^^^ (group % 4096))

/-- The 24 random bits of one stored element (R49). -/
def srBits (key stream index : Nat) : Nat :=
  let ctr := (stream % 4) * 2 ^ 40 + index % 2 ^ 40
  stir ((ctr * 0xE6A13C9758D2B40F % 2 ^ 64) ^^^ key) / 2 ^ 40

/-- The stochastic store of an FP32 value into a 16-bit format, with generator bits `r` (R48). -/
def storeSr (t : FloatSpec) (x r : Nat) : Conv :=
  match decodeFloat f32 x with
  | .nan => { bits := t.canon }
  | .inf n => { bits := t.signBit n + t.maxBits, ovf := true }
  | .fin n m e =>
    if m = 0 then { bits := t.signBit n }
    else
      let q := max t.qmin (Nat.log2 m + e - t.mb)
      let d := (q - e).toNat
      let k0 := if q ≤ e then m * 2 ^ (e - q).toNat else m / 2 ^ d
      let dd := if q ≤ e then 0 else m % 2 ^ d * 2 ^ 24 / 2 ^ d
      let k := if 2 ^ 24 ≤ dd + r then k0 + 1 else k0
      let b := k + (q - t.qmin).toNat * 2 ^ t.mb
      if b ≤ t.maxBits then { bits := t.signBit n + b } else { bits := t.signBit n + t.maxBits, ovf := true }

/-! ### Block scales (R52 to R59) -/

/-- Largest element exponent of an MX format (R33). -/
def emaxElem : Fmt → Int
  | .mxe4m3 => 8
  | .mxe5m2 => 15
  | _ => 0

/-- The value of an MX element under the scale code `c` (R33, R34). -/
def mxValue (f : Fmt) (c x : Nat) : FVal :=
  if c = 0xFF then .nan else (decodeElem f x).scale ((c : Int) - 127)

/-- floor(log2 amax) over the finite nonzero elements of a block; none when there is no such element (R53, R55). -/
def blockExp (vs : List FVal) : Option Int :=
  vs.foldl (fun acc v => match acc, v.exp2 with
    | none, x => x
    | some a, some b => some (max a b)
    | some a, none => some a) none

/-- One element already divided by its block scale, encoded under R55 to R58. `sat127` tells that the scale exponent
was clamped at 127, so that an element out of range is a SAT overflow in both modes (R56). -/
def encodeMxElem (f : Fmt) (mode : OvMode) (sat127 : Bool) (v : FVal) : Conv :=
  match f, v with
  | .mxi8, .nan => { bits := 0, nanInt := true }
  | .mxi8, .inf n => { bits := unsigned 8 (if n then -127 else 127), ovf := true }
  | .mxi8, .fin n m e =>
    let k := roundInt m (e + 6)
    let k' := min k 127
    let b := unsigned 8 (if n then -(k' : Int) else k')
    { bits := b, ovf := decide (127 < k) && sat127, clamp := decide (127 < k) && !sat127, unf := m ≠ 0 && k = 0 }
  | f, v =>
    match floatSpec f with
    | none => { bits := 0 }
    | some s =>
      match v with
      | .nan => { bits := s.canon }
      | .inf n =>
        if s.hasInf then { bits := s.signBit n + s.infBits }
        else match mode with
          | .sat => { bits := s.signBit n + s.maxBits, ovf := true }
          | .ieee => { bits := s.canon, ovf := true }
      | .fin n m e =>
        let k := roundMag s m e
        if k ≤ s.maxBits then { bits := s.signBit n + k, unf := m ≠ 0 && k = 0 }
        else { bits := s.signBit n + s.maxBits, ovf := sat127, clamp := !sat127 }

/-- The scale exponent of a block before clamping (R53). -/
def blockX (f : Fmt) (headroom : Int) (ex : Int) : Int := ex - emaxElem f + headroom

/-- Clamp to [-127, 127] (R53). -/
def clampX (x : Int) : Int := max (-127) (min 127 x)

/-- The scale code and encoded elements of a block (R53 to R58). -/
def encodeBlock (f : Fmt) (mode : OvMode) (headroom : Int) (vs : List FVal) : Nat × List Conv :=
  match blockExp vs with
  | none => (0, vs.map fun v => encodeMxElem f mode false (v.scale 127))
  | some ex =>
    let x0 := blockX f headroom ex
    let x := clampX x0
    ((x + 127).toNat, vs.map fun v => encodeMxElem f mode (decide (127 < x0)) (v.scale (-x)))

/-- Headroom of a tensor kind, in bits (R54). -/
def headroom : Kind → Int
  | .w | .act => 0
  | .agr | .wgr => 1

/-- The kind of a KIND field. -/
def kindOf : Nat → Kind
  | 0 => .w | 1 => .act | 2 => .agr | _ => .wgr

end Machine
end Sys2Proof
end

