-- ==== Sys2Proof/Machine/Types.lean ====
section
/-!
DEFINITION. The small data types that commands and state share: the header of a stall instruction, spaces, scopes,
status codes, letters, and consignment entries.
-/
namespace Sys2Proof

/-- Register numbers of a stall (R121). -/
abbrev SReg := Fin 32
abbrev VReg := Fin 32
abbrev PReg := Fin 8
abbrev TReg := Fin 16
abbrev CReg := Fin 64

/-- The stall an instruction is issued on, and the header of R124: guard predicate, its inversion, and the tally. -/
structure Hdr where
  stall : Fin 128
  pred : PReg := 0
  pneg : Bool := false
  ten : Bool := false
  tc : CReg := 0
  deriving DecidableEq, Repr

/-- Address spaces of MOVE and SLOT operands (R140). -/
inductive Space where
  | g | st | sb
  deriving DecidableEq, Repr

/-- Units of a stall that an issued instruction belongs to (R156). The sequencer and the sync unit retire within the
command and hold no queue. -/
inductive StallUnit where
  | vector | matrix | mover
  deriving DecidableEq, Repr

/-- Fence kinds (R163). -/
inductive FenceKind where
  | acq | rel | full
  deriving DecidableEq, Repr

/-- Fence scopes (R164). -/
inductive FenceScope where
  | stall | stable | chip | group | sys
  deriving DecidableEq, Repr

/-- The codes of a fence's kind and scope in its instruction and in STL_SYNC_STATE (R175). -/
def FenceKind.code : FenceKind → Nat
  | .acq => 0 | .rel => 1 | .full => 2
def FenceScope.code : FenceScope → Nat
  | .stall => 0 | .stable => 1 | .chip => 2 | .group => 3 | .sys => 4

/-- The status codes of R11. -/
inductive Status where
  | ok | refusedFit | formatMismatch | staleSchedule | peerLost | deliveryFailed | partialCircular | fenced
  | aborted | alreadyDone | contextReset | returnedUnstarted | uncorrectable | timeout
  deriving DecidableEq, Repr

/-- The 8-bit value of a status code (R11). -/
def Status.code : Status → Nat
  | .ok => 0x00 | .refusedFit => 0x10 | .formatMismatch => 0x11 | .staleSchedule => 0x20 | .peerLost => 0x30
  | .deliveryFailed => 0x31 | .partialCircular => 0x32 | .fenced => 0x33 | .aborted => 0x40 | .alreadyDone => 0x41
  | .contextReset => 0x42 | .returnedUnstarted => 0x43 | .uncorrectable => 0x50 | .timeout => 0x60

/-- Message classes (R236). -/
inductive LClass where
  | mgmt | diag | request | response | receipt | bulk | slot | coll
  deriving DecidableEq, Repr

/-- The CLASS field of a message class (R236). -/
def LClass.code : LClass → Nat
  | .mgmt => 0 | .diag => 1 | .request => 2 | .response => 3 | .receipt => 4 | .bulk => 5 | .slot => 6 | .coll => 7

/-- The message class of a CLASS field (R236). -/
def LClass.ofCode : Nat → LClass
  | 0 => .mgmt | 1 => .diag | 2 => .request | 3 => .response | 4 => .receipt | 5 => .bulk | 6 => .slot | _ => .coll

/-- A letter: the fields of its head flit (R235) and its payload. `circVa` is the model's own field, not one of the head
flit: the virtual address at which a circular is delivered, which the head of R235 has no place for (DESIGN CHOICE, log entry 33). -/
structure Letter where
  dest : BitVec 14
  src : BitVec 14
  vc : Fin 16 := 0
  cls : LClass
  epoch : Bool := false
  jobTag : BitVec 16 := 0
  op : BitVec 6 := 0
  hops : BitVec 6 := 0
  length : Nat := 0
  status : BitVec 8 := 0
  postmark : BitVec 32 := 0
  target : BitVec 64 := 0
  frankNs : BitVec 64 := 0
  frankFrac : BitVec 8 := 0
  refPostmark : BitVec 32 := 0
  poison : BitVec 64 := 0
  body : List Byte := []
  circVa : BitVec 48 := 0
  deriving DecidableEq, Repr

/-- A stream of registered letters (R316): the other chip, the class and the job tag. -/
structure StreamKey where
  chip : BitVec 14
  cls : LClass
  tag : BitVec 16
  deriving DecidableEq, Repr

/-- What the porter's sensors show at one evaluation (R431, R433, R444): the 48 V input in 10 mV, the input power of the last
1 ms and its mean over 10 ms in W, aux power in 10 mW, the energy drawn since the last evaluation in J, the hottest HBM stack,
loft package and optical engine, the coolant's inlet and outlet in °C and its flow in 10 mL/min, the leak sensor, the input current in A,
and whether a regulated rail lies outside its window. -/
structure PowerSample where
  vin : Nat
  pin : Nat
  mean : Nat
  auxPower : Nat
  joules : Nat
  hbm : Nat
  loft : Nat
  optical : Nat
  inlet : Nat
  outlet : Nat
  flow : Nat
  wet : Bool
  amps : Nat
  rail : Bool
  deriving DecidableEq, Repr

/-- A byte with its poison mark. -/
abbrev MByte := Byte × Bool

/-- How a management access reaches the chip (R2, R178, R297, R298): the host's, through BAR0 or in configuration space, or the
porter's, over Redfish or over MCTP. -/
inductive MgmtPath where
  | bar0 | config | porter | mctp
  deriving DecidableEq, Repr

/-- Where a management access goes: a chip physical address, or an offset in configuration space. -/
structure MgmtAddr where
  path : MgmtPath
  addr : Nat
  deriving DecidableEq, Repr

/-- What a hang's detection tells of the blocking engine: that it has retired nothing for that time, the contexts whose requests a
blocking controller holds, and the RUN consignments for which the command processor is loading an image: queue pair, index, and the franking
stamp at which that one started, in units of 1/256 ns (R375; log entry 56). -/
structure Hang where
  idle : Bool
  held : List (Fin 64)
  loading : List (Fin 256 × BitVec 16 × Nat) := []
  deriving DecidableEq, Repr

/-- The rails of main power, in the order in which the porter brings them up (R428). -/
inductive Rail where
  | input48 | v33 | v18 | v12 | memory | mail | core
  deriving DecidableEq, Repr

/-- A PCIe access of the module to host memory: whether it succeeds (R306). -/
abbrev PcieOk := Bool

end Sys2Proof
end

