-- ==== Sys2Proof/Syntax.lean ====
section
/-!
DEFINITION. The commands of the block: one constructor of `Instr` per row of the operation table. A stall instruction
carries the stall it is issued on and the fields of its encoding (R124 to R132); a register command carries the value
written; an event carries what the world outside the module decides about it.
-/
namespace Sys2Proof

open Machine

inductive Instr where
  -- CTRL (R130)
  | nop (h : Hdr)
  | br (h : Hdr) (off : BitVec 32)
  | loop (h : Hdr) (sa : SReg) (off : BitVec 32)
  | halt (h : Hdr)
  -- SALU (R130)
  | sadd (h : Hdr) (sd sa sb : SReg)
  | ssub (h : Hdr) (sd sa sb : SReg)
  | smul (h : Hdr) (sd sa sb : SReg)
  | sand (h : Hdr) (sd sa sb : SReg)
  | sor (h : Hdr) (sd sa sb : SReg)
  | sxor (h : Hdr) (sd sa sb : SReg)
  | sshl (h : Hdr) (sd sa sb : SReg)
  | sshr (h : Hdr) (sd sa sb : SReg)
  | ssra (h : Hdr) (sd sa sb : SReg)
  | smin (h : Hdr) (sd sa sb : SReg)
  | smax (h : Hdr) (sd sa sb : SReg)
  | sminu (h : Hdr) (sd sa sb : SReg)
  | smaxu (h : Hdr) (sd sa sb : SReg)
  | scmpEq (h : Hdr) (pd : PReg) (sa sb : SReg)
  | scmpLt (h : Hdr) (pd : PReg) (sa sb : SReg)
  | scmpLtu (h : Hdr) (pd : PReg) (sa sb : SReg)
  | pand (h : Hdr) (pd pa pb : PReg)
  | por (h : Hdr) (pd pa pb : PReg)
  | pxor (h : Hdr) (pd pa pb : PReg)
  | pnot (h : Hdr) (pd pa : PReg)
  -- SIMM (R130)
  | saddi (h : Hdr) (sd sa : SReg) (imm : BitVec 33)
  | sandi (h : Hdr) (sd sa : SReg) (imm : BitVec 33)
  | sori (h : Hdr) (sd sa : SReg) (imm : BitVec 33)
  | sxori (h : Hdr) (sd sa : SReg) (imm : BitVec 33)
  | sshli (h : Hdr) (sd sa : SReg) (imm : BitVec 33)
  | sshri (h : Hdr) (sd sa : SReg) (imm : BitVec 33)
  | ssrai (h : Hdr) (sd sa : SReg) (imm : BitVec 33)
  | scmpiLt (h : Hdr) (pd : PReg) (sa : SReg) (imm : BitVec 33)
  | li (h : Hdr) (sd : SReg) (imm : BitVec 33)
  | lih (h : Hdr) (sd : SReg) (imm : BitVec 33)
  | sget (h : Hdr) (sd : SReg) (item : BitVec 33)
  -- SMEM (R130); `stable`: false the stall store, true the stable store
  | sld (h : Hdr) (stable : Bool) (sd sa : SReg) (imm : BitVec 32)
  | sst (h : Hdr) (stable : Bool) (sd sa : SReg) (imm : BitVec 32)
  -- VALU (R135)
  | add (h : Hdr) (fmt : Fmt) (vd va vb : VReg)
  | sub (h : Hdr) (fmt : Fmt) (vd va vb : VReg)
  | mul (h : Hdr) (fmt : Fmt) (vd va vb : VReg)
  | fma (h : Hdr) (fmt : Fmt) (vd va vb vc : VReg)
  | min (h : Hdr) (fmt : Fmt) (vd va vb : VReg)
  | max (h : Hdr) (fmt : Fmt) (vd va vb : VReg)
  | abs (h : Hdr) (fmt : Fmt) (vd va : VReg)
  | neg (h : Hdr) (fmt : Fmt) (vd va : VReg)
  | div (h : Hdr) (fmt : Fmt) (vd va vb : VReg)
  | sqrt (h : Hdr) (fmt : Fmt) (vd va : VReg)
  | cmpEq (h : Hdr) (fmt : Fmt) (pd : PReg) (va vb : VReg)
  | cmpNe (h : Hdr) (fmt : Fmt) (pd : PReg) (va vb : VReg)
  | cmpLt (h : Hdr) (fmt : Fmt) (pd : PReg) (va vb : VReg)
  | cmpLe (h : Hdr) (fmt : Fmt) (pd : PReg) (va vb : VReg)
  | sel (h : Hdr) (fmt : Fmt) (vd va vb : VReg) (pc : PReg)
  | and (h : Hdr) (fmt : Fmt) (vd va vb : VReg)
  | or (h : Hdr) (fmt : Fmt) (vd va vb : VReg)
  | xor (h : Hdr) (fmt : Fmt) (vd va vb : VReg)
  | shl (h : Hdr) (fmt : Fmt) (vd va vb : VReg)
  | shr (h : Hdr) (fmt : Fmt) (vd va vb : VReg)
  | sra (h : Hdr) (fmt : Fmt) (vd va vb : VReg)
  | sum (h : Hdr) (fmt : Fmt) (vd va : VReg)
  | maxr (h : Hdr) (fmt : Fmt) (vd va : VReg)
  | bcast (h : Hdr) (fmt : Fmt) (vd : VReg) (sa : SReg)
  | iota (h : Hdr) (fmt : Fmt) (vd : VReg)
  -- VCVT (R138) and VMEM (R139)
  | cvt (h : Hdr) (vd va : VReg) (ss : SReg) (tfmt sfmt : Fmt) (part : Fin 4) (mode : OvMode) (kind : Kind)
  | vld (h : Hdr) (stable : Bool) (vd : VReg) (sa : SReg) (imm : BitVec 32)
  | vst (h : Hdr) (stable : Bool) (vd : VReg) (sa : SReg) (imm : BitVec 32)
  -- MMA and MMR (R75, R79, R84, R85)
  | mma (h : Hdr) (acc : Fin 2) (ta tb : TReg) (fmt : Fmt) (z tra trb : Bool) (m1 n1 : Fin 128) (k1 : Fin 512)
  | mmaTka (h : Hdr) (acc : Fin 2) (ta tb : TReg) (fmt : Fmt) (z tra trb : Bool) (m1 n1 : Fin 128) (k1 : Fin 512)
  | mmr (h : Hdr) (acc : Fin 2) (td : TReg) (fmt : Fmt) (mode : OvMode) (kind : Option Kind) (clr : Bool)
      (ss : Option SReg) (m1 n1 : Fin 128)
  | mmxSt (h : Hdr) (acc : Fin 2) (td : TReg)
  | mmxLd (h : Hdr) (acc : Fin 2) (td : TReg)
  -- UPD (R109, R112)
  | upd (h : Hdr) (sa sb : SReg) (tg : TReg) (gfmt : Fmt)
  | updf (h : Hdr) (sa : SReg)
  -- MOVE (R141)
  | dmCopy (h : Hdr) (dsp ssp : Space) (sd ss sn : SReg)
  | dmLd2 (h : Hdr) (ssp : Space) (td : TReg) (ss sn : SReg)
  | dmSt2 (h : Hdr) (dsp : Space) (sd : SReg) (ts : TReg) (sn : SReg)
  | dmTt (h : Hdr) (td ts : TReg) (sn : SReg)
  | dmFill (h : Hdr) (dsp : Space) (sd ss sn : SReg)
  -- SLOT (R144)
  | slotBind (h : Hdr) (sa sb sc sd : SReg) (nctr : CReg) (nen : Bool)
  | slotFree (h : Hdr) (sa : SReg)
  | slotSend (h : Hdr) (ssp : Space) (sa sb sc sd se : SReg)
  | slotStat (h : Hdr) (sd sa : SReg)
  -- SYNC (R158, R162, R163, R167)
  | twait (h : Hdr) (cn : CReg) (target : BitVec 32)
  | twaits (h : Hdr) (cn : CReg) (sa : SReg)
  | tadd (h : Hdr) (cn : CReg) (v : BitVec 32)
  | tset (h : Hdr) (cn : CReg) (v : BitVec 32)
  | fenceAcq (h : Hdr) (scope : FenceScope) (grp : Fin 4)
  | fenceRel (h : Hdr) (scope : FenceScope) (grp : Fin 4)
  | fenceFull (h : Hdr) (scope : FenceScope) (grp : Fin 4)
  | ewait (h : Hdr) (evt : Fin 64)
  -- COLL (R268)
  | collReduce (h : Hdr) (grp : Fin 4) (sa sb sc : SReg)
  | collRscat (h : Hdr) (grp : Fin 4) (sa sb sc : SReg)
  | collAgath (h : Hdr) (grp : Fin 4) (sa sb sc : SReg)
  | collA2a (h : Hdr) (grp : Fin 4) (sa sb sc : SReg)
  | collCirc (h : Hdr) (grp : Fin 4) (sa sb sc : SReg)
  | collTree (h : Hdr) (grp : Fin 4) (sa sb sc : SReg)
  | collWgtile (h : Hdr) (grp : Fin 4) (sa sb sc : SReg) (td : TReg)
  -- TDESC (R132)
  | tdl (h : Hdr) (td : TReg) (sa sb : SReg)
  | tds (h : Hdr) (sd : SReg) (td : TReg) (word : Bool)
  | tdadd (h : Hdr) (td : TReg) (sa : SReg)
  /-- INSTRUCTION_RETIRE (R128). -/
  | instructionRetire (n : Fin 128) (u : StallUnit) (idx : Nat)
  /-- INSTRUCTION_FAULT (R128). -/
  | instructionFault (n : Fin 128) (u : StallUnit) (idx : Nat)
  /-- TALLY_WAIT_SATISFIED (R158). -/
  | tallyWaitSatisfied (n : Fin 128)
  /-- FENCE_RETIRE (R163). -/
  | fenceRetire (n : Fin 128)
  /-- BARRIER_GENERATION_COMPLETE (R167). -/
  | barrierGenerationComplete (n : Fin 128)
  /-- UPD_SEAL_WAIT_END (R104). -/
  | updSealWaitEnd (n : Fin 128)
  /-- UPDF_TILES_COMPLETE (R112). -/
  | updfTilesComplete (n : Fin 128)
  /-- TILE_COMPLETE (R110). -/
  | tileComplete (n : Fin 128) (seq : Nat)
  /-- NW_SAMPLE_COMPLETE (R64). -/
  | nwSampleComplete (t : Fin 16)
  /-- REGISTER_WRITE (R8): a management access, which writes `v`, or reads where there is none. -/
  | registerWrite (target : MgmtAddr) (size : Nat) (v : Option (BitVec 64))
  /-- BAR2_ACCESS (R298). -/
  | bar2Access (off : BitVec 36) (write : Bool) (len : Nat) (data : List MByte)
  /-- SQ_TAIL_WRITE (R308). -/
  | sqTailWrite (q : Fin 256) (i : BitVec 16) (ok : PcieOk)
  /-- SQ_ENTRY_ACCEPT (R308). -/
  | sqEntryAccept (q : Fin 256) (e : BitVec 512) (ok : PcieOk)
  /-- FETCH_ERR_CLEAR (R306). -/
  | fetchErrClear (q : Fin 256)
  /-- CQ_HEAD_WRITE (R312). -/
  | cqHeadWrite (q : Fin 256) (i : BitVec 16)
  /-- COMPLETION_POST (R312). -/
  | completionPost (q : Fin 256) (ok : PcieOk)
  /-- IRQ_DELAY_EXPIRY (R306). -/
  | irqDelayExpiry (q : Fin 256)
  /-- QP_ENABLE (R306). -/
  | qpEnable (q : Fin 256) (v : BitVec 64)
  /-- QP_DISABLE (R306). -/
  | qpDisable (q : Fin 256) (v : BitVec 64)
  /-- STOPPED_CLEAR (R313). -/
  | stoppedClear (q : Fin 256)
  /-- ABORT (R314). -/
  | abort (q : Fin 256) (i : BitVec 16)
  /-- RUN (R310). -/
  | run (q : Fin 256) (i : BitVec 16)
  /-- COPY_IN (R310). -/
  | copyIn (q : Fin 256) (i : BitVec 16) (data : List MByte)
  /-- COPY_OUT (R310). -/
  | copyOut (q : Fin 256) (i : BitVec 16)
  /-- COPY_COMPLETE (R310). -/
  | copyComplete (q : Fin 256) (i : BitVec 16)
  /-- NOP_CONSIGNMENT (R309). -/
  | nopConsignment (q : Fin 256) (i : BitVec 16)
  /-- CONSIGNMENT_COMPLETE (R174). -/
  | consignmentComplete (q : Fin 256) (i : BitVec 16)
  /-- CREATE (R303). -/
  | create (c : Fin 64) (tag : BitVec 16)
  /-- DESTROY (R304). -/
  | destroy (c : Fin 64) (tag : BitVec 16)
  /-- DESTROY_COMPLETE (R304). -/
  | destroyComplete (c : Fin 64)
  /-- RESET (R378). -/
  | reset (c : Fin 64) (tag : BitVec 16)
  /-- CONTEXT_RESET_COMPLETE (R378). -/
  | contextResetComplete (c : Fin 64)
  /-- HANG_DETECT (R374). -/
  | hangDetect (c : Fin 64) (e : Fin 256) (stuck : Hang)
  /-- QUIESCE_WATCHDOG_EXPIRY (R369). -/
  | quiesceWatchdogExpiry (c : Fin 64) (e : Fin 256)
  /-- ENGINE_RESET_WATCHDOG_EXPIRY (R369). -/
  | engineResetWatchdogExpiry (e : Fin 256) (yard : Bool)
  /-- STABLE_RESET_WATCHDOG_EXPIRY (R369). -/
  | stableResetWatchdogExpiry (t : Fin 16)
  /-- DIE_RESET_WATCHDOG_EXPIRY (R369). -/
  | dieResetWatchdogExpiry
  /-- POWER_CYCLE_WATCHDOG_EXPIRY (R369). -/
  | powerCycleWatchdogExpiry
  /-- CLEAR_OOS (R405). -/
  | clearOos
  /-- CLEAR_FENCES (R405). -/
  | clearFences
  /-- CLEAR_HISTORY (R405). -/
  | clearHistory
  /-- START (R185). -/
  | start (c : Fin 64)
  /-- XLAT_INVAL_DONE (R185). -/
  | xlatInvalDone (c : Fin 64)
  /-- PERST_ASSERT (R438). -/
  | perstAssert
  /-- REVERT (R398). -/
  | revert (c : Fin 64) (tr : BitVec 16)
  /-- REMIRROR (R396). -/
  | remirror (c : Fin 64)
  /-- SEAL_LETTER_RECEIVE (R390). -/
  | sealLetterReceive (lt : Letter)
  /-- SEAL_RESEND_TIMER (R390). -/
  | sealResendTimer (c : Fin 64)
  /-- MIRROR_COMPLETE (R395). -/
  | mirrorComplete (c : Fin 64)
  /-- STEP_TIMER_EXPIRY (R392). -/
  | stepTimerExpiry (c : Fin 64)
  /-- SIGNAL_DETECT (R215). -/
  | signalDetect (p : Fin 8)
  /-- TRAINING_STEP_TIMEOUT (R215): of one of steps 2 to 4, with the strands that it excludes, or of step 5. -/
  | trainingStepTimeout (p : Fin 8) (bad : Option (BitVec 4))
  /-- PORT_UP (R215). -/
  | portUp (p : Fin 8) (peer : BitVec 4) (peerHalf plain : Bool) (m : Vector (Fin 64 × Bool) 48)
  /-- TRAINING_RETRY (R215). -/
  | trainingRetry (p : Fin 8)
  /-- LANE_FRAME_RECEIVE (R214). -/
  | laneFrameReceive (p : Fin 8) (l : Fin 48) (fseq : BitVec 8) (frame : Option (List Byte))
  /-- RESYNC_LIMIT (R240). -/
  | resyncLimit (p : Fin 8)
  /-- LANE_ERROR_WINDOW (R217). -/
  | laneErrorWindow (p : Fin 8)
  /-- DROP (R219). -/
  | drop (p : Fin 8) (strands : BitVec 4) (fseq : BitVec 8)
  /-- DROP_ACK (R219). -/
  | dropAck (p : Fin 8) (strands : BitVec 4) (fseq : BitVec 8)
  /-- DROP_ACK_TIMEOUT (R219). -/
  | dropAckTimeout (p : Fin 8)
  /-- STRAND_DROP_AT_FSEQ (R219). -/
  | strandDropAtFseq (p : Fin 8)
  /-- RESTORE (R220). -/
  | restore (p : Fin 8) (m : BitVec 4)
  /-- RESTORE_LINK_COMMAND (R220). -/
  | restoreLinkCommand (p : Fin 8) (m : BitVec 4) (fseq : BitVec 8)
  /-- RESTORE_ACK (R220). -/
  | restoreAck (p : Fin 8) (m : BitVec 4) (fseq : BitVec 8)
  /-- RESTORE_TIMEOUT (R220). -/
  | restoreTimeout (p : Fin 8)
  /-- DOWN (R221). -/
  | down (p : Fin 8)
  /-- DISABLE (R232). -/
  | disable (p : Fin 8) (on : Bool)
  /-- RETRAIN (R232). -/
  | retrain (p : Fin 8)
  /-- LIGHT_LOSS (R231). -/
  | lightLoss (p : Fin 8)
  /-- LIGHT_STEADY (R231). -/
  | lightSteady (p : Fin 8)
  /-- ABSENT_TIMEOUT (R231). -/
  | absentTimeout (p : Fin 8)
  /-- LETTER_HEAD_RECEIVE (R247). -/
  | letterHeadReceive (p : Fin 8)
  /-- LETTER_START (R246). -/
  | letterStart (p : Option (Fin 8)) (bad : Option (Option Nat))
  /-- IDENTITY_SEND (R336). -/
  | identitySend (p : Fin 8)
  /-- IDENTITY_RECEIVE (R338). -/
  | identityReceive (p : Fin 8) (lt : Letter)
  /-- DISCOVERY_SILENT (R336). -/
  | discoverySilent (p : Fin 8)
  /-- DISCOVERY_MISSING (R338). -/
  | discoveryMissing (p : Fin 8)
  /-- PLAN_PEER_WRITE (R339). -/
  | planPeerWrite (p : Fin 8) (v : BitVec 64)
  /-- PLAN_CHIP_WRITE (R334). -/
  | planChipWrite (v : BitVec 64)
  /-- GRANT (R334). -/
  | grant (a : Fin 4)
  /-- HANDOVER_LOOP_TRAINED (R226). -/
  | handoverLoopTrained (a : Fin 4) (plus minus : BitVec 4)
  /-- PORTER_HOLD_POLL (R223). -/
  | porterHoldPoll
  /-- HANDOVER_TIMEOUT (R227). -/
  | handoverTimeout (a : Fin 4)
  /-- FORCE (R233). -/
  | force (a : Fin 4) (on : Bool)
  /-- BYPASS_POSITION_CHECK (R224). -/
  | bypassPositionCheck (a : Fin 4) (ok : Bool)
  /-- ADVANCE (R335). -/
  | advance
  /-- HARNESS (R344). -/
  | harness
  /-- QUARANTINE (R344). -/
  | quarantine
  /-- MAIN_ON (R428). -/
  | mainOn
  /-- MAIN_OFF (R429). -/
  | mainOff
  /-- AUX_POWER_GOOD (R329). -/
  | auxPowerGood
  /-- FIRMWARE_VERIFIED (R331). -/
  | firmwareVerified
  /-- FIRMWARE_BUNDLE_UPLOAD (R331). -/
  | firmwareBundleUpload (slot : Fin 2) (bundle : List Byte)
  /-- SPDM_REQUEST (R331). -/
  | spdmRequest
  /-- MAIN_POWER_GOOD (R428). -/
  | mainPowerGood
  /-- POWER_GOOD_TIMEOUT (R428). -/
  | powerGoodTimeout
  /-- DIE_LEAVES_RESET (R333). -/
  | dieLeavesReset
  /-- MEM_TEST_DONE (R341). -/
  | memTestDone (hbmFail : BitVec 8) (loftFail stableOff : BitVec 16) (ues : List Nat)
  /-- AUX_LOSS (R430). -/
  | auxLoss
  /-- PROTECTION_TRIP (R434). -/
  | protectionTrip (cause : Fin 11)
  /-- EXTRACTION (R441). -/
  | extraction (missed : Bool)
  /-- REG_READ (R343). -/
  | regRead (lt : Letter)
  /-- REG_WRITE (R343). -/
  | regWrite (lt : Letter)
  /-- REG_REPLY (R343). -/
  | regReply (lt : Letter)
  /-- REG_REQUEST_RETRY (R343). -/
  | regRequestRetry (dest : BitVec 14) (pm : BitVec 32)
  /-- SRC_EPOCH_WRITE (R254). -/
  | srcEpochWrite (v : BitVec 64)
  /-- RT_AXIS_WRITE (R254). -/
  | rtAxisWrite (ver : Fin 2) (a : Fin 4) (v : BitVec 64)
  /-- CIRCULAR_RECEIVE (R259). -/
  | circularReceive (lt : Letter)
  /-- CIRCULAR_RECEIPT_SEND (R260). -/
  | circularReceiptSend (id : Nat)
  /-- REGISTERED_LETTER_RECEIVE (R320). -/
  | registeredLetterReceive (lt : Letter)
  /-- DUPLICATE_RECEIPT (R321). -/
  | duplicateReceipt (lt : Letter)
  /-- REQUEST_RECEIVE (R172). -/
  | requestReceive (lt : Letter)
  /-- RESPONSE_RECEIVE (R172). -/
  | responseReceive (lt : Letter)
  /-- RECEIPT_RECEIVE (R317). -/
  | receiptReceive (lt : Letter)
  /-- DELIVERY_TIMER_EXPIRY (R318). -/
  | deliveryTimerExpiry (k : StreamKey) (pm : BitVec 32)
  /-- CLEARANCE_SEND (R322). -/
  | clearanceSend (k : StreamKey)
  /-- CLEARANCE_RECEIVE (R322). -/
  | clearanceReceive (lt : Letter)
  /-- COLL_LETTER_RECEIVE (R280). -/
  | collLetterReceive (lt : Letter)
  /-- COLL_WATCHDOG_EXPIRY (R293). -/
  | collWatchdogExpiry (op : Nat) (waitOn : Fin 8)
  /-- GROUP_VALID_SET (R266). -/
  | groupValidSet (c : Fin 64) (g : Fin 4) (v : BitVec 64)
  /-- GROUP_VALID_CLEAR (R266). -/
  | groupValidClear (c : Fin 64) (g : Fin 4) (v : BitVec 64)
  /-- AXIS_PLAN_WRITE (R23). -/
  | axisPlanWrite (c : Fin 64) (v : BitVec 64)
  /-- FRANKING_EXCHANGE_START (R359). -/
  | frankingExchangeStart (p : Fin 8) (ago : Nat)
  /-- FR_SYNC (R359). -/
  | frSync (p : Fin 8) (lt : Letter) (ago sent : Nat)
  /-- FR_REPLY (R361). -/
  | frReply (p : Fin 8) (lt : Letter) (ago : Nat)
  /-- EXCHANGE_TIMEOUT (R361). -/
  | exchangeTimeout (p : Fin 8)
  /-- STEERING_INTERVAL (R362). -/
  | steeringInterval
  /-- CLK_FR_NOW_READ (R366). -/
  | clkFrNowRead
  /-- FRANKING_STATE_COPY (R367). -/
  | frankingStateCopy
  /-- YARD_NEIGHBOUR_CHECK (R354). -/
  | yardNeighbourCheck (mv tc : Vector Nat 4)
  /-- FREQUENCY_STEP (R352). -/
  | frequencyStep (y : Fin 4)
  /-- DROOP_STRETCH (R355). -/
  | droopStretch (y : Fin 4) (pct : Fin 13)
  /-- IDLE_GATE_STOP (R356). -/
  | idleGateStop (y : Fin 4)
  /-- IDLE_GATE_RESUME (R356). -/
  | idleGateResume (y : Fin 4)
  /-- HALT_WRITE (R356). -/
  | haltWrite (y : Fin 4) (on : Bool)
  /-- POWER_CONTROL_EVAL (R431). -/
  | powerControlEval (m : PowerSample)
  /-- YARD_THERMAL_CHECK (R432). -/
  | yardThermalCheck (tc : Vector Nat 4)
  /-- REFRESH_TEMP_SAMPLE (R197). -/
  | refreshTempSample (k : Fin 8) (t cyc : Nat)
  /-- SCRUB_PASS_START (R199). -/
  | scrubPassStart (m : Option (Fin 8))
  /-- PASS_NOW (R199). -/
  | passNow (m : Option (Fin 8))
  /-- SCRUB_PASS_END (R199). -/
  | scrubPassEnd (m : Option (Fin 8))
  /-- AON_COLLECTION (R407). -/
  | aonCollection
  /-- CLEAR (R409). -/
  | clear
  /-- RETIRED_DATA_WRITE (R348). -/
  | retiredDataWrite (v : BitVec 64)
  /-- RETIRED_IDX_WRITE (R348). -/
  | retiredIdxWrite (v : BitVec 64)
  /-- RETIRED_COMMIT_DONE (R348). -/
  | retiredCommitDone
  /-- ENABLE (R423). -/
  | enable
  /-- ARM (R420). -/
  | arm
  /-- TRIG_NOW (R420). -/
  | trigNow
  /-- TRACE_MARK (R423). -/
  | traceMark (x : BitVec 32)
  /-- TRACE_FREEZE (R420). -/
  | traceFreeze
  /-- REMOTE_TRIGGER (R421). -/
  | remoteTrigger (p : Fin 8) (lt : Letter)
  /-- HOST_LINK_TRAINING (R297). -/
  | hostLinkTraining (link : Option (BitVec 5 × BitVec 3 × Bool))
  /-- PCIE_HOT_RESET (R405). -/
  | pcieHotReset
  /-- OPERATOR_DIE_RESET (R369). -/
  | operatorDieReset
  /-- POWER_CYCLE_REAPPLY (R372). -/
  | powerCycleReapply
  /-- STABLE_RESET_END (R371). -/
  | stableResetEnd (t : Fin 16)
  /-- BYPASS_ELEMENT_SETTLES (R222). -/
  | bypassElementSettles (a : Fin 4)
  /-- LOFT_THERMAL_THROTTLE (R433). -/
  | loftThermalThrottle (k : Fin 16) (t : Nat)
  /-- DROOP_RECOVERY (R355). -/
  | droopRecovery (y : Fin 4)
  deriving DecidableEq, Repr

end Sys2Proof
end

