-- ==== Sys2Proof/Decode.lean ====
section
/-!
DEFINITION. Reading a command from a word. The operation table of this block gives bits to none of its rows, so no word of the
table spells a command. The instruction word of R124 to R132 does spell one: `decodeStall` reads it.
-/
namespace Sys2Proof

open Machine

def decodeTableWord (_nbits _w : Nat) : Option Instr := none

/-- A field of an instruction word. -/
def wordFin (n : Nat) [NeZero n] (w lo len : Nat) : Fin n := Fin.ofNat n (bitsOf w lo len)
def wordBv (len w lo : Nat) : BitVec len := BitVec.ofNat len (bitsOf w lo len)

/-- The header of an instruction word, for a stall (R124). -/
def Hdr.ofWord (n : Fin 128) (w : Nat) : Hdr :=
  { stall := n, pred := wordFin 8 w 10 3, pneg := bitOf w 13, ten := bitOf w 14, tc := wordFin 64 w 15 6 }

/-- The space of a code (R140). -/
def spaceOf : Nat → Option Space
  | 0 => some .g | 1 => some .st | 2 => some .sb | _ => none

/-- The scope of a code (R131, R164). -/
def scopeOf : Nat → Option FenceScope
  | 0 => some .stall | 1 => some .stable | 2 => some .chip | 3 => some .group | 4 => some .sys | _ => none

/-- CTRL, SALU, SIMM and SMEM (R130). -/
def decodeScalar (h : Hdr) (cls op w : Nat) : Option Instr :=
  let sd : SReg := wordFin 32 w 21 5
  let sa : SReg := wordFin 32 w 26 5
  let sb : SReg := wordFin 32 w 31 5
  let pd : PReg := wordFin 8 w 21 3
  let pa : PReg := wordFin 8 w 26 3
  let pb : PReg := wordFin 8 w 31 3
  let i33 := wordBv 33 w 31
  let i32 := wordBv 32 w 32
  match cls, op with
  | 0, 0x00 => some (.nop h)
  | 0, 0x01 => some (.br h i32)
  | 0, 0x02 => some (.loop h sd i32)
  | 0, 0x03 => some (.halt h)
  | 1, 0x00 => some (.sadd h sd sa sb)
  | 1, 0x01 => some (.ssub h sd sa sb)
  | 1, 0x02 => some (.smul h sd sa sb)
  | 1, 0x03 => some (.sand h sd sa sb)
  | 1, 0x04 => some (.sor h sd sa sb)
  | 1, 0x05 => some (.sxor h sd sa sb)
  | 1, 0x06 => some (.sshl h sd sa sb)
  | 1, 0x07 => some (.sshr h sd sa sb)
  | 1, 0x08 => some (.ssra h sd sa sb)
  | 1, 0x09 => some (.smin h sd sa sb)
  | 1, 0x0A => some (.smax h sd sa sb)
  | 1, 0x0B => some (.sminu h sd sa sb)
  | 1, 0x0C => some (.smaxu h sd sa sb)
  | 1, 0x10 => some (.scmpEq h pd sa sb)
  | 1, 0x11 => some (.scmpLt h pd sa sb)
  | 1, 0x12 => some (.scmpLtu h pd sa sb)
  | 1, 0x18 => some (.pand h pd pa pb)
  | 1, 0x19 => some (.por h pd pa pb)
  | 1, 0x1A => some (.pxor h pd pa pb)
  | 1, 0x1B => some (.pnot h pd pa)
  | 2, 0x00 => some (.saddi h sd sa i33)
  | 2, 0x01 => some (.sandi h sd sa i33)
  | 2, 0x02 => some (.sori h sd sa i33)
  | 2, 0x03 => some (.sxori h sd sa i33)
  | 2, 0x04 => some (.sshli h sd sa i33)
  | 2, 0x05 => some (.sshri h sd sa i33)
  | 2, 0x06 => some (.ssrai h sd sa i33)
  | 2, 0x07 => some (.scmpiLt h pd sa i33)
  | 2, 0x08 => some (.li h sd i33)
  | 2, 0x09 => some (.lih h sd i33)
  | 2, 0x0A => some (.sget h sd i33)
  | 3, 0x00 => some (.sld h (bitOf w 31) sd sa i32)
  | 3, 0x01 => some (.sst h (bitOf w 31) sd sa i32)
  | _, _ => none

/-- VALU, VCVT and VMEM (R131, R135). -/
def decodeVector (h : Hdr) (cls op w : Nat) : Option Instr :=
  let vd : VReg := wordFin 32 w 21 5
  let va : VReg := wordFin 32 w 26 5
  let vb : VReg := wordFin 32 w 31 5
  let pd : PReg := wordFin 8 w 21 3
  match cls, op, fmtOf (bitsOf w 41 4) with
  | 4, 0x00, some f => some (.add h f vd va vb)
  | 4, 0x01, some f => some (.sub h f vd va vb)
  | 4, 0x02, some f => some (.mul h f vd va vb)
  | 4, 0x03, some f => some (.fma h f vd va vb (wordFin 32 w 36 5))
  | 4, 0x04, some f => some (.min h f vd va vb)
  | 4, 0x05, some f => some (.max h f vd va vb)
  | 4, 0x06, some f => some (.abs h f vd va)
  | 4, 0x07, some f => some (.neg h f vd va)
  | 4, 0x08, some f => some (.div h f vd va vb)
  | 4, 0x09, some f => some (.sqrt h f vd va)
  | 4, 0x0A, some f => some (.cmpEq h f pd va vb)
  | 4, 0x0B, some f => some (.cmpNe h f pd va vb)
  | 4, 0x0C, some f => some (.cmpLt h f pd va vb)
  | 4, 0x0D, some f => some (.cmpLe h f pd va vb)
  | 4, 0x0E, some f => some (.sel h f vd va vb (wordFin 8 w 36 3))
  | 4, 0x0F, some f => some (.and h f vd va vb)
  | 4, 0x10, some f => some (.or h f vd va vb)
  | 4, 0x11, some f => some (.xor h f vd va vb)
  | 4, 0x12, some f => some (.shl h f vd va vb)
  | 4, 0x13, some f => some (.shr h f vd va vb)
  | 4, 0x14, some f => some (.sra h f vd va vb)
  | 4, 0x15, some f => some (.sum h f vd va)
  | 4, 0x16, some f => some (.maxr h f vd va)
  | 4, 0x17, some f => some (.bcast h f vd (wordFin 32 w 26 5))
  | 4, 0x18, some f => some (.iota h f vd)
  | 5, 0x00, _ =>
    match fmtOf (bitsOf w 36 4), fmtOf (bitsOf w 40 4) with
    | some t, some s =>
      some (.cvt h vd va (wordFin 32 w 31 5) t s (wordFin 4 w 44 2) (if bitOf w 46 then .ieee else .sat) (kindOf (bitsOf w 47 2)))
    | _, _ => none
  | 6, 0x00, _ => some (.vld h (bitOf w 31) vd (wordFin 32 w 26 5) (wordBv 32 w 32))
  | 6, 0x01, _ => some (.vst h (bitOf w 31) vd (wordFin 32 w 26 5) (wordBv 32 w 32))
  | _, _, _ => none

/-- MMA, MMR and UPD (R131). -/
def decodeMatrix (h : Hdr) (cls op w : Nat) : Option Instr :=
  let acc : Fin 2 := wordFin 2 w 21 1
  let td : TReg := wordFin 16 w 22 4
  match cls, op with
  | 7, 0x00 => (fmtOf (bitsOf w 30 4)).map fun f =>
    let tb : TReg := wordFin 16 w 26 4
    let m : Fin 128 := wordFin 128 w 38 7
    let n : Fin 128 := wordFin 128 w 45 7
    let k : Fin 512 := wordFin 512 w 52 9
    if bitOf w 37 then .mmaTka h acc td tb f (bitOf w 34) (bitOf w 35) (bitOf w 36) m n k
    else .mma h acc td tb f (bitOf w 34) (bitOf w 35) (bitOf w 36) m n k
  | 8, 0x00 => (fmtOf (bitsOf w 26 4)).map fun f =>
    .mmr h acc td f (if bitOf w 30 then .ieee else .sat) (if bitOf w 33 then some (kindOf (bitsOf w 31 2)) else none) (bitOf w 34)
      (if bitOf w 40 then some (wordFin 32 w 35 5) else none) (wordFin 128 w 41 7) (wordFin 128 w 48 7)
  | 8, 0x01 => some (.mmxSt h acc td)
  | 8, 0x02 => some (.mmxLd h acc td)
  | 9, 0x00 => (fmtOf (bitsOf w 35 4)).map fun f => .upd h (wordFin 32 w 21 5) (wordFin 32 w 26 5) (wordFin 16 w 31 4) f
  | 9, 0x01 => some (.updf h (wordFin 32 w 21 5))
  | _, _ => none

/-- MOVE, SLOT and COLL (R131). -/
def decodeMover (h : Hdr) (cls op w : Nat) : Option Instr :=
  let r : Nat → SReg := fun lo => wordFin 32 w lo 5
  let g : Fin 4 := wordFin 4 w 21 2
  match cls, op with
  | 10, 0x00 => match spaceOf (bitsOf w 36 2), spaceOf (bitsOf w 38 2) with
    | some d, some s => some (.dmCopy h d s (r 21) (r 26) (r 31))
    | _, _ => none
  | 10, 0x01 => (spaceOf (bitsOf w 38 2)).map fun s => .dmLd2 h s (wordFin 16 w 40 4) (r 26) (r 31)
  | 10, 0x02 => (spaceOf (bitsOf w 36 2)).map fun d => .dmSt2 h d (r 21) (wordFin 16 w 44 4) (r 31)
  | 10, 0x03 => some (.dmTt h (wordFin 16 w 40 4) (wordFin 16 w 44 4) (r 31))
  | 10, 0x04 => (spaceOf (bitsOf w 36 2)).map fun d => .dmFill h d (r 21) (r 26) (r 31)
  | 11, 0x00 => some (.slotBind h (r 21) (r 26) (r 31) (r 36) (wordFin 64 w 48 6) (bitOf w 54))
  | 11, 0x01 => some (.slotFree h (r 21))
  | 11, 0x02 => (spaceOf (bitsOf w 46 2)).map fun s => .slotSend h s (r 21) (r 26) (r 31) (r 36) (r 41)
  | 11, 0x03 => some (.slotStat h (r 36) (r 21))
  | 13, 0x00 => some (.collReduce h g (r 23) (r 28) (r 33))
  | 13, 0x01 => some (.collRscat h g (r 23) (r 28) (r 33))
  | 13, 0x02 => some (.collAgath h g (r 23) (r 28) (r 33))
  | 13, 0x03 => some (.collA2a h g (r 23) (r 28) (r 33))
  | 13, 0x04 => some (.collCirc h g (r 23) (r 28) (r 33))
  | 13, 0x05 => some (.collTree h g (r 23) (r 28) (r 33))
  | 13, 0x06 => some (.collWgtile h g (r 23) (r 28) (r 33) (wordFin 16 w 38 4))
  | _, _ => none

/-- SYNC and TDESC (R131, R132). -/
def decodeSync (h : Hdr) (cls op w : Nat) : Option Instr :=
  let cn : CReg := wordFin 64 w 21 6
  let td : TReg := wordFin 16 w 21 4
  match cls, op with
  | 12, 0x00 => some (.twait h cn (wordBv 32 w 32))
  | 12, 0x01 => some (.twaits h cn (wordFin 32 w 27 5))
  | 12, 0x02 => some (.tadd h cn (wordBv 32 w 32))
  | 12, 0x03 => some (.tset h cn (wordBv 32 w 32))
  | 12, 0x04 => (scopeOf (bitsOf w 23 3)).bind fun sc =>
    let g : Fin 4 := wordFin 4 w 26 2
    match bitsOf w 21 2 with
    | 0 => some (.fenceAcq h sc g)
    | 1 => some (.fenceRel h sc g)
    | 2 => some (.fenceFull h sc g)
    | _ => none
  | 12, 0x05 => some (.ewait h (wordFin 64 w 21 6))
  | 14, 0x00 => some (.tdl h td (wordFin 32 w 25 5) (wordFin 32 w 30 5))
  | 14, 0x01 => some (.tds h (wordFin 32 w 25 5) td (bitOf w 35))
  | 14, 0x02 => some (.tdadd h td (wordFin 32 w 25 5))
  | _, _ => none

/-- The command that an instruction word spells on a stall (R124, R130, R131); none where the loader refuses its class, its OP, or a
format, space or scope in it. What else the loader checks is in Loader. -/
def decodeStall (n : Fin 128) (w : Nat) : Option Instr :=
  let h := Hdr.ofWord n w
  let cls := bitsOf w 0 4
  let op := bitsOf w 4 6
  if cls ≤ 3 then decodeScalar h cls op w
  else if cls ≤ 6 then decodeVector h cls op w
  else if cls ≤ 9 then decodeMatrix h cls op w
  else if cls = 12 ∨ cls = 14 then decodeSync h cls op w
  else decodeMover h cls op w

end Sys2Proof
end

