-- ==== Sys2Proof/Machine/StallState.lean ====
section
/-!
DEFINITION. The state of one stall: its architectural registers (R121), its accumulators (R73), the instructions it
has issued and not yet retired, the wait that holds it, and the sample of a stable's numerics watch.
-/
namespace Sys2Proof.Machine

/-- One element of an accumulator (R73). In compatibility mode `window` bits [31:0] hold the FP32 or INT32 value. -/
structure Elem where
  window : BitVec 112 := 0
  eseen : Int := -1024
  spill : Nat := 0
  nan : Bool := false
  pinf : Bool := false
  ninf : Bool := false
  poison : Bool := false
  negz : Bool := true
  deriving DecidableEq, Repr

/-- An accumulator (R73): rows of elements, an element that is not listed being in the cleared state. -/
structure Acc where
  kcount : Nat := 0
  compat : Bool := false
  int32 : Bool := false
  ploc : Option (Nat × Bool) := none
  rows : List (List Elem) := []
  deriving DecidableEq, Repr

/-- Element (i, j) of an accumulator. -/
def Acc.get (a : Acc) (i j : Nat) : Elem := (a.rows.getD i []).getD j {}

/-- Where an access has its home, for fences (R164). -/
inductive Home where
  | stall | stable | chip
  | remote (chip : BitVec 14)
  deriving DecidableEq, Repr

/-- What an exact `mma` leaves for the numerics watch (R60, R61, R90): its shape, the descriptors of its operands and of
their shadow tiles, and its own contribution as the array formed it, summed in an empty window. -/
structure MmaInfo where
  acc : Fin 2
  fmt : Fmt
  tra : Bool
  trb : Bool
  m : Nat
  n : Nat
  k : Nat
  ta : BitVec 128
  tb : BitVec 128
  sa : BitVec 128
  sb : BitVec 128
  array : List (List Elem)
  deriving DecidableEq, Repr

/-- A record for STL_MM_FAULT (R92): accumulator, instruction code, row, column, and the poison location. -/
structure MmFault where
  acc : Fin 2
  instr : Nat
  row : Nat := 0
  col : Nat := 0
  loc : Option (Nat × Bool) := none
  deriving DecidableEq, Repr

/-- One entry of the group table, and what its fields give (R99, R100). -/
structure GroupEntry where
  flags : Nat
  start : Nat
  rows : Nat
  cols : Nat
  eta : Nat
  lambda : Nat
  beta1 : Nat
  beta2 : Nat
  eps : Nat
  clipD : Nat
  gMul : Nat
  w : Nat × Nat
  m : Nat × Nat
  st : Nat × Nat
  scratch : Nat
  deriving DecidableEq, Repr

/-- The shard that a chip owns of a group (R100): L, p, bands, tile columns, owned bands, owned rows. -/
structure Shard where
  L : Nat
  p : Nat
  nB : Nat
  nJ : Nat
  nb : Nat
  rows : Nat
  deriving DecidableEq, Repr

/-- What a waiting update instruction waits for (R104, R112). -/
inductive UpdWait where
  | seal (sa sb : BitVec 64) (desc : BitVec 128) (gfmt : Fmt)
  | foldSeal (sa : BitVec 64)
  | tiles (sa : BitVec 64) (step g expected : Nat) (e : GroupEntry) (h : Shard)
  deriving DecidableEq, Repr

/-- How a matrix instruction uses its engine (R89): its accumulator; whether it works on the readout path, and not in the array;
the addresses that a readout or a save writes; and the earlier ones of these that an `mma` stays behind. -/
structure MxUse where
  acc : Fin 2
  out : Bool
  dst : List Nat := []
  behind : List Nat := []
  deriving DecidableEq, Repr

/-- What an issued instruction is, where its retirement or its fault needs to know. -/
inductive FlightKind where
  | plain
  | mma (watch : Option MmaInfo)
  | matrix (f : MmFault)
  | update (wait : Option UpdWait)
  | coll (grp : Fin 4)
  deriving DecidableEq, Repr

/-- An event that a matrix or vector instruction counts as it ends: in a tally of conversions or of the matrix engine (R43, R92), or as an
access to the reserved region or to the running program's code (R148, R190). -/
inductive StallEvent where
  | cvtOverflow | cvtUnderflow | cvtNanInt | mxUnderflow | mxClamp
  | mmOverflow | mmUnderflow | mmSpill | mmWrap
  | reserved | codewrite
  deriving DecidableEq, Repr

/-- A register that an instruction of a unit changes, for the case that its result is undefined in value (R16): a vector register; the
first M rows and N columns of an accumulator; or an accumulator that it empties. -/
inductive Landing where
  | vreg (r : VReg)
  | acc (a : Fin 2) (m n : Nat)
  | clear (a : Fin 2)
  deriving DecidableEq, Repr

/-- An instruction issued to a unit and not yet retired. Its effect on registers and stores has been applied at issue
but for the writes of R127, which land at its retire point, and the events that a matrix or vector instruction counts, which are counted
as it ends; it leaves the list at its retire point or with its fault. `dest` is the format that the instruction settles for a
sample of the accumulator it names (R90); `failAt` is the franking stamp at which its first failed letter failed, in units of
1/256 ns, with that letter's postmark (R140); `refused` the pages refused to an update instruction before its wait (R183); `wrote` tells an `upd` that wrote a tile (R120). -/
structure Flight where
  unit : StallUnit
  seq : Nat
  pc : BitVec 17
  issuedAt : Nat := 0      -- the franking stamp of its issue, in units of 1/256 ns (R375)
  cls : Nat
  op : Nat
  ten : Bool
  tc : CReg
  guardOff : Bool := false
  status : Status := .ok
  failAt : Nat × BitVec 32 := (0, 0)
  refused : List (Fin 64 × Nat × Nat) := []
  kind : FlightKind := .plain
  dest : Option (Fin 2 × Fmt × OvMode × Option Kind) := none
  sWrites : List (SReg × BitVec 64 × BitVec 64) := []
  pWrite : Option (PReg × BitVec 256) := none
  tallies : List CReg := []
  reads : List Home := []
  writes : List Home := []
  collOp : Option Nat := none
  wrote : Bool := false
  loc : Nat := 0
  mx : Option MxUse := none
  counts : List (StallEvent × Nat) := []
  lands : Option Landing := none
  deriving DecidableEq, Repr

/-- What holds issue at the sequencer (R129, R163, R167). -/
inductive Wait where
  | tally (h : Hdr) (cn : CReg) (target : BitVec 32)
  | fence (h : Hdr) (kind : FenceKind) (scope : FenceScope) (grp : Fin 4) (upTo : Nat)
  | barrier (h : Hdr) (evt : Fin 64) (gen : Nat)
  deriving DecidableEq, Repr

/-- One stall (R121, R122, R147, R175). `p[0]` is never consulted: p0 reads as all ones. `vp` is the predicate file in
program order, which vector guards and `sel` read; a vector compare reaches `p` only at its retire point (R127). `waitPc` is the
code index of the instruction that waits, `waitSince` the franking stamp of its issue, in units of 1/256 ns (R375), and `waitCycles`
the cycles of its yard since (R27, R175); `updCycles` are those for which an update instruction of its vector engine has waited (R104,
R112). -/
structure Stall where
  s : Vector (BitVec 64) 32 := .replicate 32 0
  v : Vector (BitVec 2048) 32 := .replicate 32 0
  p : Vector (BitVec 256) 8 := .replicate 8 0
  vp : Vector (BitVec 256) 8 := .replicate 8 0
  t : Vector (BitVec 128) 16 := .replicate 16 0
  acc : Vector Acc 2 := .replicate 2 {}
  c : Vector (BitVec 32) 64 := .replicate 64 0
  pc : BitVec 17 := 0
  running : Bool := false
  context : Fin 64 := 0
  rank : Fin 128 := 0
  nStalls : Nat := 0
  team : List (Fin 128) := []
  consignment : Nat := 0
  codeBase : Nat := 0
  codeBytes : Nat := 0
  wait : Option Wait := none
  waitPc : BitVec 17 := 0
  waitSince : Nat := 0
  waitCycles : Nat := 0
  updCycles : Nat := 0
  halting : Option Hdr := none
  flights : List Flight := []
  nextSeq : Nat := 0
  arrivals : AMap (Fin 64) Nat := []
  lastRetire : BitVec 64 := 0
  deriving DecidableEq, Repr

/-- The sample that a stable's numerics watch is recomputing (R61, R64, R90), with the settings it started with. -/
structure WatchSample where
  stall : Fin 128
  acc : Fin 2
  m : Nat
  n : Nat
  own : List (List Elem)
  array : List (List Elem)
  shadow : Option (List (List Elem))
  kcount : Nat
  histA : List FVal
  histB : List FVal
  bases : Int × Int × Int
  overThresh : Nat
  dest : Option (Fmt × OvMode × Option Kind) := none
  deriving DecidableEq, Repr

/-- The numerics watch of one stable (R60, R64). -/
structure Watch where
  count : Nat := 0
  sample : Option WatchSample := none
  deriving DecidableEq, Repr

end Sys2Proof.Machine
end

