-- ==== Sys2Proof/Machine/EngineState.lean ====
section
/-!
DEFINITION. What the collective engine and the update path hold beside registers: operations outstanding, staged letters,
letters passed on and awaiting receipts (R264 to R295), and updated tiles not yet marked complete (R110).
-/
namespace Sys2Proof.Machine

/-- Kinds of collective operation (R268), and the all-gather that `upd` starts (R288). -/
inductive CollKind where
  | reduce | rscat | agath | a2a | circ | tree | wgtile | gather
  deriving DecidableEq, Repr

/-- The key of a keyed letter (R279): step, parameter group, band, tile column. -/
structure TileKey where
  step : Nat
  group : Nat
  band : Nat
  col : Nat
  deriving DecidableEq, Repr

/-- One letter's place in an operation (R278, R279): PHASE, HALF, CHUNK and the index of the letter in its half. -/
structure CollItem where
  phase : Nat
  half : Nat
  chunk : Nat
  k : Nat
  deriving DecidableEq, Repr

/-- A buffer of an operation, translated: the physical addresses of its bytes (none: refused or absent, reads zero and
discards writes), those of its block scales, and the index of its first element among the operation's elements. -/
structure CollBuf where
  els : List (Option Nat) := []
  scales : List (Option Nat) := []
  base : Nat := 0
  deriving DecidableEq, Repr

/-- A place of one letter in the collective engine's staging (R190, R282, R283): its stable; its area there, of a group and a
dateline half; and its number in the area (log entry 99). -/
structure Frame where
  stable : Fin 16
  area : Fin 8
  no : Fin 128
  deriving DecidableEq, Repr

/-- A partial received from a child of a tree, which stays in staging (R276). -/
structure Partial where
  item : CollItem
  child : Nat
  letter : Letter
  frame : Frame
  deriving DecidableEq, Repr

/-- An operation outstanding on this member (R268 to R288). `pages` are those that its instruction has been refused so far (R183). -/
structure CollOp where
  id : Nat
  ctx : Fin 64
  grp : Fin 4
  kind : CollKind
  stall : Fin 128
  seq : Nat
  tag : Nat := 0
  key : Option TileKey := none
  fmt : Fmt := .bf16
  opk : Nat := 0
  count : Nat := 0
  owner : Nat := 0
  agreed : Bool := false
  isTree : Bool := false
  len : Nat := 1
  pos : Nat := 0
  axis : Fin 4 := 0
  plus : Bool := true
  members : List (BitVec 14) := []
  parent : Option (Fin 8) := none
  children : List (Fin 8) := []
  src : CollBuf := {}
  dst : CollBuf := {}
  target : Nat := 0
  rowStride : Nat := 0
  tileM : Nat := 0
  tileN : Nat := 0
  sReg : SReg := 0
  boxN : Nat := 0
  circ : Option Letter := none
  pages : List (Fin 64 × Nat × Nat) := []
  delivered : Nat := 0
  refused : Nat := 0
  started : Bool := false
  done : List CollItem := []
  blockMax : AMap Nat Nat := []
  partials : List Partial := []
  received : Nat := 0
  deriving DecidableEq, Repr

/-- A COLL letter in staging (R280, R281), whether its receipt has been sent, and its place. -/
structure Staged where
  ctx : Fin 64
  letter : Letter
  receipted : Bool
  frame : Frame
  deriving DecidableEq, Repr

/-- A circular taken in from another chip (R258 to R260): its letter, the children's copies not yet receipted, the sums over
this chip and its descendants, whether it has been receipted, and its place in staging, which is free once the last copy has
left (R259). -/
structure Circ where
  id : Nat
  ctx : Fin 64
  up : Letter
  children : Nat
  delivered : Nat
  refused : Nat
  sent : Bool := false
  frame : Option Frame := none
  deriving DecidableEq, Repr

/-- A gathered tile letter that this replica has written and passed on; its receipt waits for the next replica's
(R288). -/
structure Relay where
  id : Nat
  ctx : Fin 64
  up : Letter
  deriving DecidableEq, Repr

/-- The operation that a group's record of NaN results is of (R290): one of this member's, or an all-gather of another owner's tile. -/
inductive NanOp where
  | op (id : Nat)
  | gather (key : TileKey)
  deriving DecidableEq, Repr

/-- A tile written by `upd` that is not complete yet (R110): the instruction, the tile, its all-gather, and the virtual
addresses of the group's scratch region and of the tile's mark; and the pages that the instruction has been refused so far (R183). -/
structure TileRec where
  stall : Fin 128
  seq : Nat
  ctx : Fin 64
  key : TileKey
  gather : Option Nat
  scratch : Nat
  mark : Nat
  pages : List (Fin 64 × Nat × Nat) := []
  deriving DecidableEq, Repr

/-- The states of an IEEE 1149.1 port's controller (R439; PRESUMED, that standard's, log entry 124). -/
inductive TapPhase where
  | reset | idle
  | selectDr | captureDr | shiftDr | exit1Dr | pauseDr | exit2Dr | updateDr
  | selectIr | captureIr | shiftIr | exit1Ir | pauseIr | exit2Ir | updateIr
  deriving DecidableEq, Repr

/-- The instructions that the porter's port implements (R439). -/
inductive TapInstr where
  | bypass | sample | extest
  deriving DecidableEq, Repr

/-- The debug header's IEEE 1149.1 port (R439): its controller, its instruction, the bits being shifted (the next one out first), what the
boundary cells hold for the pins, and the captures made of the pins. -/
structure Tap where
  phase : TapPhase := .reset
  instr : TapInstr := .bypass
  shift : List Bool := []
  cells : List Bool := []
  captures : Nat := 0
  deriving DecidableEq, Repr

/-- What the mirror needs of a group's fold (R394, R395): the step, and the geometry and banks of its entry. -/
structure FoldRec where
  step : Nat
  flags : Nat
  rows : Nat
  cols : Nat
  w : Nat × Nat
  m : Nat × Nat
  st : Nat × Nat
  deriving DecidableEq, Repr

/-- One part of a mirror (R395): where it goes in the receiver's context, and its bytes, as literal bytes followed by ranges
(address, length) of this context. -/
structure MirrorPart where
  dest : Nat
  lit : List Byte
  ranges : List (Nat × Nat)
  deriving DecidableEq, Repr

/-- A mirror under way (R395): its step, its receiver, every part, and those still to send. -/
structure Mirror where
  step : Nat
  chip : BitVec 14
  all : List MirrorPart
  todo : List MirrorPart
  deriving DecidableEq, Repr

/-- A context's seal state (R388 to R396): the runs received for the written and the mirror tally by axis, the runs last sent
to each neighbour (true: the + side), the step of the first mirror made, the latest fold of each group, and the mirror. -/
structure SealRec where
  fromMinus : AMap (Fin 4) Nat := []
  fromPlus : AMap (Fin 4) Nat := []
  mMinus : AMap (Fin 4) Nat := []
  mPlus : AMap (Fin 4) Nat := []
  sent : AMap (Fin 4 × Bool) (Nat × Nat) := []
  mirrored : Option Nat := none
  folds : AMap Nat FoldRec := []
  mirror : Option Mirror := none
  deriving DecidableEq, Repr

end Sys2Proof.Machine
end

