-- ==== Sys2Proof/Machine/Memory.lean ====
section
/-!
DEFINITION. Memory as a list of (chip physical address, byte) cells in one canonical form: addresses strictly rising,
and no cell equal to what an unlisted address reads as. It covers the HBM, the loft, and the stall and stable stores of
R177.
-/
namespace Sys2Proof.Machine

/-- What an address that is not listed reads as.
DESIGN CHOICE (assumption 1, unsafe): the spec gives no contents for memory that nothing has written. -/
def Memory.fill : Byte := 0

/-- The byte at an address. -/
def Memory.read : List Host.Cell → Nat → Byte
  | [], _ => Memory.fill
  | (b, v) :: m, a => if b = a then v else Memory.read m a

/-- Put a byte in front of a memory, unless it is the fill. -/
def Memory.cons (a : Nat) (x : Byte) (m : List Host.Cell) : List Host.Cell :=
  if x = Memory.fill then m else (a, x) :: m

/-- Write one byte, keeping the canonical form. -/
def Memory.write : List Host.Cell → Nat → Byte → List Host.Cell
  | [], a, x => Memory.cons a x []
  | (b, v) :: m, a, x =>
    if a < b then Memory.cons a x ((b, v) :: m)
    else if a = b then Memory.cons a x m
    else (b, v) :: Memory.write m a x

/-- The canonical form, read from an address below which nothing may be listed. -/
def Memory.wfFrom : Nat → List Host.Cell → Bool
  | _, [] => true
  | lo, (a, x) :: m => decide (lo ≤ a) && decide (x ≠ Memory.fill) && Memory.wfFrom (a + 1) m

/-- The canonical form of a memory. -/
def Memory.wf (m : List Host.Cell) : Bool := Memory.wfFrom 0 m

/-- Clear every address of a range to the fill. -/
def Memory.clear (lo hi : Nat) (m : List Host.Cell) : List Host.Cell :=
  m.filter fun c => decide (c.1 < lo) || decide (hi ≤ c.1)

end Sys2Proof.Machine
end

