-- ==== Sys2Proof/Config.lean ====
section
/-!
DEFINITION. What one module fixes and the spec leaves open: free values. None has a body, so a claim holds whatever
they are.
-/
namespace Sys2Proof

/-- Low 32 bits of the module serial (PTR_PART_ID, "per module", R2; log entry 22). -/
opaque Config.serialLow : BitVec 32

/-- High 32 bits of the module serial, carried in identity letters (R336; log entry 22). -/
opaque Config.serialHigh : BitVec 32

/-- Which byte an overlapping data-mover instruction copies (R142): the source byte as it stood before the instruction
(true), or as this instruction has rewritten it. The spec does not say; one choice for each byte moved (log entry 18). -/
opaque Config.overlapOld : Nat → Bool

/-- The place of each byte in the order in which an overlapping data-mover instruction moves them (R142; log entry 18). -/
opaque Config.overlapRank : Nat → Nat

/-- How many of the writes under way on a word have been performed when an access that is not ordered behind them reads it (R16,
R154, R155): one choice for each access and 8-byte word (log entry 7). -/
opaque Config.raceRead : Nat → Nat → Nat

/-- How many of the writes under way on a word take effect before a write that is not ordered behind them (R155, R171): one choice
for each access and 8-byte word (log entry 7). -/
opaque Config.raceWrite : Nat → Nat → Nat

/-- A result that is undefined in value, because a write that is not ordered behind an instruction has overlapped what that instruction
reads (R16): one choice for each such time and place (log entry 6). -/
opaque Config.raced : Nat → Nat → Nat

/-- How many further 64-byte units a copy of the host DMA engine has moved by the time another command runs, or when it is stopped
(R310, R379): one choice for each such time (log entry 104). -/
opaque Config.dmaUnits : Nat → Nat

/-- How many instructions of a stall's matrix or vector engine have started when a reset of their context discards the rest (R379):
one choice for each queue (log entry 105). -/
opaque Config.begun : Nat → Nat

/-- Whether a 64-byte unit of a local transfer that a reset stops had been written (R379): one choice for each reset and unit (log
entry 105). -/
opaque Config.unitStands : Nat → Nat → Bool

/-- How many records the trace network takes from a source's queue by the time of a transfer (R415, R419; log entry 16). -/
opaque Config.traceTaken : Nat → Nat

/-- Which entry a full translation cache gives up for a new one (R184): one choice for each replacement (log entry 94). -/
opaque Config.xlatVictim : Nat → Nat

/-- Which of its neighbours a collective operation had waited on longest, by the operation (R293; log entry 46). -/
opaque Config.waitOn : Nat → Nat

/-- The payload bytes that a `coll.circ` sends whose LENGTH lies above 4,096 (R268). The spec gives the field the values
0 to 4,096 and no effect of a greater one; the value is taken modulo 4,097 (log entry 19). -/
opaque Config.circLength : Nat → Nat

/-- Whether the numerics watch records a disagreement that is no whole number of 1/16 ulp (R61) one unit above its floor.
The spec does not say how it rounds; one choice for each element compared (log entry 20). -/
opaque Config.nwRound : Nat → Bool

/-- The disagreement that the watch records where the output or the shadow value is an infinity or a NaN (R61), in units of
1/16 ulp. The spec gives no number there; one choice for each element compared (log entry 20). -/
opaque Config.nwNonfinite : Nat → Nat

/-- Whether the die answers the porter's read of its accumulators within 1 ms (R407), by porter time (log entry 95). -/
opaque Config.dieAnswers : Nat → Bool

/-- Whether a rail of main power, by its place in the sequence, lies within its window at a porter time in ms (R428); and whether one that
is switched off has fallen below 10 % of its nominal value (R429): the electrical course is not the model's (log entry 107). -/
opaque Config.railIn : Nat → Nat → Bool
opaque Config.railFell : Nat → Nat → Bool

/-- The core voltage, in mV, of yard `y` at a frequency in MHz: its own fused curve (R352; log entry 22). -/
opaque Config.yardMv : Nat → Nat → Nat

/-- Whether the signature of a release bundle verifies, and its key has the digest of the fuses (R331). The spec names the
algorithms, and gives neither a bundle's layout nor the fuses (log entry 23). -/
opaque Config.bundleVerifies : List Byte → Bool

/-- The debug header's IEEE 1149.1 port (R439): the length of its instruction register, the codes of SAMPLE/PRELOAD and EXTEST, the number
of boundary cells, and what a cell captures from the porter's pin, by the number of the capture (log entry 124). -/
opaque Config.tapLength : Nat
opaque Config.tapSample : List Bool
opaque Config.tapExtest : List Bool
opaque Config.tapCells : Nat
opaque Config.tapPin : Nat → Nat → Bool

/-- The security version of a release bundle, and the fused rollback counter (R331; log entry 23). -/
opaque Config.bundleSecurity : List Byte → Nat
opaque Config.rollback : Nat

/-- MAJOR, MINOR and BUILD of a release bundle, as PTR_FW_VERSION [31:0] shows them (R347; log entry 23). -/
opaque Config.bundleVersion : List Byte → BitVec 32

/-- The digest of a release bundle that attestation reports as its measurement (R331; log entry 23). -/
opaque Config.bundleDigest : List Byte → BitVec 384

end Sys2Proof
end

