-- ==== Sys2Proof/Machine/Regs.lean ====
section
/-!
DEFINITION. The management registers: one constructor of `Reg` per register of the spec (with its index), its
fields with access code and reset value as the register tables give them, its chip physical address, the address
decode, and the always-on counter that mirrors it (R408).
-/
namespace Sys2Proof.Machine

/-- Access codes of a register field (R8). -/
inductive Access where
  | ro | rw | rw1c | wo | rwl
  deriving DecidableEq, Repr

/-- One field of a register: its lowest bit, its width, its access code, the value of its Reset column, and, where
the spec lists valid values, the range and step outside which a write leaves the field unchanged. -/
structure Fld where
  lo : Nat
  w : Nat
  acc : Access
  rst : Nat
  valid : Option (Nat × Nat × Nat) := none
  deriving DecidableEq, Repr

/-- The management registers. -/
inductive Reg where
  /-- PTR_PART_ID (R2). -/
  | ptrPartId
  /-- PTR_STAGE (R347). -/
  | ptrStage
  /-- PTR_STAGE_CMD (R347). -/
  | ptrStageCmd
  /-- PTR_START_CTRL (R347). -/
  | ptrStartCtrl
  /-- PTR_FW_VERSION (R347). -/
  | ptrFwVersion
  /-- PTR_START_TIMES (R347). -/
  | ptrStartTimes
  /-- PTR_LOCK_VIOLATIONS (R347). -/
  | ptrLockViolations
  /-- PTR_PLAN_CHIP (R347). -/
  | ptrPlanChip
  /-- PTR_DISC (R347). -/
  | ptrDisc
  /-- PTR_PLAN_PEER (R347). -/
  | ptrPlanPeer (p : Fin 8)
  /-- PTR_MEM_RESULT (R347). -/
  | ptrMemResult
  /-- PTR_RETIRED_IDX (R348). -/
  | ptrRetiredIdx
  /-- PTR_RETIRED_DATA (R348). -/
  | ptrRetiredData
  /-- PTR_BYPASS (R233). -/
  | ptrBypass
  /-- PTR_BYPASS_COUNT (R233). -/
  | ptrBypassCount
  /-- PTR_RESET_REC (R405). -/
  | ptrResetRec
  /-- PTR_ESC_STATUS (R405). -/
  | ptrEscStatus
  /-- PTR_STALL_FENCE_LO (R405). -/
  | ptrStallFenceLo
  /-- PTR_STALL_FENCE_HI (R405). -/
  | ptrStallFenceHi
  /-- PTR_ESC_CTRL (R405). -/
  | ptrEscCtrl
  /-- PTR_AON_CTRL (R409). -/
  | ptrAonCtrl
  /-- PTR_PWR_STATUS (R444). -/
  | ptrPwrStatus
  /-- PTR_PWR_LIMIT (R444). -/
  | ptrPwrLimit
  /-- PTR_THERM_CTRL (R444). -/
  | ptrThermCtrl
  /-- PTR_THERM_STATUS (R444). -/
  | ptrThermStatus
  /-- PTR_PROT_STATUS (R444). -/
  | ptrProtStatus
  /-- PTR_AON (R406). -/
  | ptrAon (i : Fin 512)
  /-- CE_AXIS_PLAN (R22). -/
  | ceAxisPlan (c : Fin 64)
  /-- STL_SR_SEED (R51). -/
  | stlSrSeed (c : Fin 64)
  /-- STL_UPD_TABLE (R119). -/
  | stlUpdTable (c : Fin 64)
  /-- STL_UPD_SEALED (R119). -/
  | stlUpdSealed (c : Fin 64)
  /-- STL_UPD_PROGRESS (R119). -/
  | stlUpdProgress (c : Fin 64)
  /-- HST_LINK_STATUS (R301). -/
  | hstLinkStatus
  /-- HST_BAR2_WIN (R301). -/
  | hstBar2Win
  /-- HST_BAR_ERR (R301). -/
  | hstBarErr
  /-- HST_LOAD_REC (bits [63:0]) (R152). -/
  | hstLoadRec0 (c : Fin 64)
  /-- HST_LOAD_REC (bits [127:64]) (R152). -/
  | hstLoadRec1 (c : Fin 64)
  /-- HST_XLAT_ROOT (R187). -/
  | hstXlatRoot (c : Fin 64)
  /-- HST_XLAT_INVAL (R187). -/
  | hstXlatInval (c : Fin 64)
  /-- HST_XLAT_FAULT (R187). -/
  | hstXlatFault (c : Fin 64)
  /-- HST_XLAT_REFUSED (R187). -/
  | hstXlatRefused (c : Fin 64)
  /-- HST_CTX_CTRL (R302). -/
  | hstCtxCtrl (c : Fin 64)
  /-- HST_CTX_STATUS (R302). -/
  | hstCtxStatus (c : Fin 64)
  /-- HST_CTX_POST (R302). -/
  | hstCtxPost (c : Fin 64)
  /-- HST_CTX_HANG (R403). -/
  | hstCtxHang (c : Fin 64)
  /-- HST_CTX_CAPT (R403). -/
  | hstCtxCapt (c : Fin 64)
  /-- HST_CTX_RESETREC (R403). -/
  | hstCtxResetRec (c : Fin 64)
  /-- HST_CTX_SUSPECTS (R403). -/
  | hstCtxSuspects (c : Fin 64)
  /-- HST_CTX_SEAL (R403). -/
  | hstCtxSeal (c : Fin 64)
  /-- HST_CTX_SEAL_STATE (R403). -/
  | hstCtxSealState (c : Fin 64)
  /-- HST_CTX_MIRROR (R403). -/
  | hstCtxMirror (c : Fin 64)
  /-- HST_CTX_SEAL_CMD (R403). -/
  | hstCtxSealCmd (c : Fin 64)
  /-- HST_SOLO (R404). -/
  | hstSolo
  /-- STB_NW_CTRL (R63). -/
  | stbNwCtrl (t : Fin 16)
  /-- STB_NW_SAMPLES (R63). -/
  | stbNwSamples (t : Fin 16)
  /-- STB_NW_SKIPPED (R63). -/
  | stbNwSkipped (t : Fin 16)
  /-- STB_NW_MISMATCH (R63). -/
  | stbNwMismatch (t : Fin 16)
  /-- STB_NW_ULP_MAX (R63). -/
  | stbNwUlpMax (t : Fin 16)
  /-- STB_NW_ULP_SUM (R63). -/
  | stbNwUlpSum (t : Fin 16)
  /-- STB_NW_ULP_ELEMS (R63). -/
  | stbNwUlpElems (t : Fin 16)
  /-- STB_NW_ULP_OVER (R63). -/
  | stbNwUlpOver (t : Fin 16)
  /-- STB_NW_HIST_A (R63). -/
  | stbNwHistA (t : Fin 16) (i : Fin 32)
  /-- STB_NW_HIST_B (R63). -/
  | stbNwHistB (t : Fin 16) (i : Fin 32)
  /-- STB_NW_HIST_C (R63). -/
  | stbNwHistC (t : Fin 16) (i : Fin 32)
  /-- STB_SRAM_CE (R193). -/
  | stbSramCe (t : Fin 16)
  /-- STB_SRAM_UE (R193). -/
  | stbSramUe (t : Fin 16)
  /-- STB_SRAM_UEREC (R193). -/
  | stbSramUeRec (t : Fin 16)
  /-- STB_SRAM_RSVD (R193). -/
  | stbSramRsvd (t : Fin 16)
  /-- SO_SLOT_UNBOUND (R146). -/
  | soSlotUnbound
  /-- SO_SLOT_OVERRUN (R146). -/
  | soSlotOverrun
  /-- SO_SLOT_BADBIND (R146). -/
  | soSlotBadbind
  /-- SO_SLOT (the four 64-bit words of a slot entry) (R146). -/
  | soSlot (j : Fin 4096) (w : Fin 4)
  /-- STL_SEQ_STATE (R147). -/
  | stlSeqState (n : Fin 128)
  /-- STL_SEQ_RETIRED (R147). -/
  | stlSeqRetired (n : Fin 128)
  /-- STL_SEQ_CODEWRITE (R147). -/
  | stlSeqCodewrite (n : Fin 128)
  /-- STL_CVT_OVERFLOW (R43). -/
  | stlCvtOverflow (n : Fin 128)
  /-- STL_CVT_UNDERFLOW (R43). -/
  | stlCvtUnderflow (n : Fin 128)
  /-- STL_CVT_NAN_INT (R43). -/
  | stlCvtNanInt (n : Fin 128)
  /-- STL_MX_UNDERFLOW (R43). -/
  | stlMxUnderflow (n : Fin 128)
  /-- STL_MX_CLAMP (R43). -/
  | stlMxClamp (n : Fin 128)
  /-- STL_MM_OVERFLOW (R92). -/
  | stlMmOverflow (n : Fin 128)
  /-- STL_MM_UNDERFLOW (R92). -/
  | stlMmUnderflow (n : Fin 128)
  /-- STL_MM_SPILL (R92). -/
  | stlMmSpill (n : Fin 128)
  /-- STL_MM_WRAP (R92). -/
  | stlMmWrap (n : Fin 128)
  /-- STL_MM_RETIRED (R92). -/
  | stlMmRetired (n : Fin 128)
  /-- STL_MM_FAULT (R92). -/
  | stlMmFault (n : Fin 128)
  /-- STL_UPD_TILES (R120). -/
  | stlUpdTiles (n : Fin 128)
  /-- STL_UPD_STALE (R120). -/
  | stlUpdStale (n : Fin 128)
  /-- STL_UPD_CLIPPED (R120). -/
  | stlUpdClipped (n : Fin 128)
  /-- STL_UPD_NONFINITE (R120). -/
  | stlUpdNonfinite (n : Fin 128)
  /-- STL_UPD_OUTSIDE (R120). -/
  | stlUpdOutside (n : Fin 128)
  /-- STL_UPD_REPEAT (R120). -/
  | stlUpdRepeat (n : Fin 128)
  /-- STL_UPD_SKIPPED (R120). -/
  | stlUpdSkipped (n : Fin 128)
  /-- STL_SYNC_STATE (R175). -/
  | stlSyncState (n : Fin 128)
  /-- STL_SYNC_WAITCYC (R175). -/
  | stlSyncWaitcyc (n : Fin 128)
  /-- STL_SYNC_FENCES (R175). -/
  | stlSyncFences (n : Fin 128)
  /-- STL_SYNC_ARRIVALS (R175). -/
  | stlSyncArrivals (n : Fin 128)
  /-- STL_SRAM_CE (R193). -/
  | stlSramCe (n : Fin 128)
  /-- STL_SRAM_UE (R193). -/
  | stlSramUe (n : Fin 128)
  /-- STL_SRAM_UEREC (R193). -/
  | stlSramUeRec (n : Fin 128)
  /-- STL_TALLY (R175). -/
  | stlTally (n : Fin 128) (i : Fin 32)
  /-- HBA_STATUS (R206). -/
  | hbaStatus (k : Fin 8)
  /-- HBA_ECC_CE (R206). -/
  | hbaEccCe (k : Fin 8)
  /-- HBA_ECC_UE (R206). -/
  | hbaEccUe (k : Fin 8)
  /-- HBA_THROTTLE_CYC (R206). -/
  | hbaThrottleCyc (k : Fin 8)
  /-- HBA_SCRUB (R206). -/
  | hbaScrub (k : Fin 8)
  /-- HBA_POISON_HEAD (R206). -/
  | hbaPoisonHead
  /-- HBA_POISON_TAIL (R206). -/
  | hbaPoisonTail
  /-- HBA_POISON_LOST (R206). -/
  | hbaPoisonLost
  /-- HBA_POISON_REC (bits [63:0]) (R206). -/
  | hbaPoisonRec0 (i : Fin 64)
  /-- HBA_POISON_REC (bits [127:64]) (R206). -/
  | hbaPoisonRec1 (i : Fin 64)
  /-- LFT_ECC_CE (R206). -/
  | lftEccCe
  /-- LFT_ECC_UE (R206). -/
  | lftEccUe
  /-- LFT_SCRUB (R206). -/
  | lftScrub
  /-- SO_PORT_CTRL (R232). -/
  | soPortCtrl (p : Fin 8)
  /-- SO_PORT_STATUS (R232). -/
  | soPortStatus (p : Fin 8)
  /-- SO_PORT_PEER (R232). -/
  | soPortPeer (p : Fin 8)
  /-- SO_PORT_EVENTS (R232). -/
  | soPortEvents (p : Fin 8)
  /-- SO_PORT_LIMITS (R232). -/
  | soPortLimits (p : Fin 8)
  /-- SO_PORT_DISC (R349). -/
  | soPortDisc (p : Fin 8)
  /-- SO_PORT_FEC_CORR (R232). -/
  | soPortFecCorr (p : Fin 8)
  /-- SO_PORT_FEC_UNCORR (R232). -/
  | soPortFecUncorr (p : Fin 8)
  /-- SO_PORT_DOWNS (R232). -/
  | soPortDowns (p : Fin 8)
  /-- SO_PORT_DROPS (R232). -/
  | soPortDrops (p : Fin 8)
  /-- SO_PORT_SKIPPED (R232). -/
  | soPortSkipped (p : Fin 8)
  /-- SO_PORT_ARB (R263). -/
  | soPortArb (p : Fin 8)
  /-- SO_PORT_CREDIT_ERR (R263). -/
  | soPortCreditErr (p : Fin 8)
  /-- SO_PORT_FLITS_THROUGH (R263). -/
  | soPortFlitsThrough (p : Fin 8)
  /-- SO_PORT_FLITS_INJECTED (R263). -/
  | soPortFlitsInjected (p : Fin 8)
  /-- SO_PORT_DOWNDROP (R263). -/
  | soPortDowndrop (p : Fin 8)
  /-- SO_LANE_STAT (R232). -/
  | soLaneStat (p : Fin 8) (l : Fin 48)
  /-- SO_RT_CTRL (R262). -/
  | soRtCtrl
  /-- SO_EPOCH_DRAIN (R262). -/
  | soEpochDrain
  /-- SO_RT_AXIS (R262). -/
  | soRtAxis (v : Fin 2) (a : Fin 4)
  /-- SO_NOCONTEXT (R262). -/
  | soNocontext
  /-- SO_NOROUTE (R262). -/
  | soNoroute
  /-- SO_EPOCH_STALE (R262). -/
  | soEpochStale
  /-- SO_DEAD_HCRC (R262). -/
  | soDeadHcrc
  /-- SO_DEAD_BODY (R262). -/
  | soDeadBody
  /-- SO_REFUSED_FENCED (R262). -/
  | soRefusedFenced
  /-- SO_CTX_FENCE (R262). -/
  | soCtxFence
  /-- SO_CTX_RESETTING (R262). -/
  | soCtxResetting
  /-- SO_POST_CTRL (R324). -/
  | soPostCtrl
  /-- SO_POST_RETRANS (R324). -/
  | soPostRetrans
  /-- SO_POST_DUPS (R324). -/
  | soPostDups
  /-- SO_POST_STALE (R324). -/
  | soPostStale
  /-- SO_POST_FAILED (R324). -/
  | soPostFailed
  /-- SO_POST_CLEARS (R324). -/
  | soPostClears
  /-- SO_POST_LATE (R324). -/
  | soPostLate
  /-- SO_POST_BROKEN (R324). -/
  | soPostBroken
  /-- SO_POST_WAITCYC (R324). -/
  | soPostWaitcyc
  /-- CE_GRP_CTRL (R296). -/
  | ceGrpCtrl (c : Fin 64) (g : Fin 4)
  /-- CE_GRP_TREE (R296). -/
  | ceGrpTree (c : Fin 64) (g : Fin 4)
  /-- CE_GRP_STATUS (R296). -/
  | ceGrpStatus (c : Fin 64) (g : Fin 4)
  /-- CE_GRP_PM0 (R296). -/
  | ceGrpPm0 (c : Fin 64) (g : Fin 4)
  /-- CE_GRP_PM1 (R296). -/
  | ceGrpPm1 (c : Fin 64) (g : Fin 4)
  /-- CE_GRP_NANREC (R296). -/
  | ceGrpNanrec (c : Fin 64) (g : Fin 4)
  /-- CE_GRP_NANELEM (R296). -/
  | ceGrpNanelem (c : Fin 64) (g : Fin 4)
  /-- CE_GRP_ESCAL (R296). -/
  | ceGrpEscal (c : Fin 64) (g : Fin 4)
  /-- CE_GRP_BLKUF (R296). -/
  | ceGrpBlkuf (c : Fin 64) (g : Fin 4)
  /-- CE_GRP_CLAMP (R296). -/
  | ceGrpClamp (c : Fin 64) (g : Fin 4)
  /-- CE_GRP_OVERFLOW (R296). -/
  | ceGrpOverflow (c : Fin 64) (g : Fin 4)
  /-- CE_GRP_MISMATCH (R296). -/
  | ceGrpMismatch (c : Fin 64) (g : Fin 4)
  /-- CE_GRP_OPS (R296). -/
  | ceGrpOps (c : Fin 64) (g : Fin 4)
  /-- CE_GRP_MEMBER (R296). -/
  | ceGrpMember (c : Fin 64) (g : Fin 4) (r : Fin 4)
  /-- CE_NOGROUP (R296). -/
  | ceNogroup
  /-- CE_POISON (R296). -/
  | cePoison
  /-- CE_PEER_LOST (R296). -/
  | cePeerLost
  /-- HST_QP_CTRL (R306). -/
  | hstQpCtrl (q : Fin 256)
  /-- HST_QP_SQ_BASE (R306). -/
  | hstQpSqBase (q : Fin 256)
  /-- HST_QP_CQ_BASE (R306). -/
  | hstQpCqBase (q : Fin 256)
  /-- HST_QP_ACC_ADDR (R306). -/
  | hstQpAccAddr (q : Fin 256)
  /-- HST_QP_SQ_TAIL (R306). -/
  | hstQpSqTail (q : Fin 256)
  /-- HST_QP_CQ_HEAD (R306). -/
  | hstQpCqHead (q : Fin 256)
  /-- HST_QP_STATUS (R306). -/
  | hstQpStatus (q : Fin 256)
  /-- HST_QP_ABORT (R306). -/
  | hstQpAbort (q : Fin 256)
  /-- CLK_YARD_CTRL (R366). -/
  | clkYardCtrl (y : Fin 4)
  /-- CLK_YARD_STATUS (R366). -/
  | clkYardStatus (y : Fin 4)
  /-- CLK_YARD_STRETCH (R366). -/
  | clkYardStretch (y : Fin 4)
  /-- CLK_YARD_THROTTLE (R366). -/
  | clkYardThrottle (y : Fin 4)
  /-- CLK_FR_NOW (R366). -/
  | clkFrNow
  /-- CLK_FR_FRAC (R366). -/
  | clkFrFrac
  /-- CLK_FR_STATUS (R366). -/
  | clkFrStatus
  /-- CLK_FR_BADX (R366). -/
  | clkFrBadx
  /-- CLK_FR_STEPS (R366). -/
  | clkFrSteps
  /-- CLK_FR_PORT (R366). -/
  | clkFrPort (p : Fin 8)
  /-- CLK_FR_ASYM (R366). -/
  | clkFrAsym (p : Fin 8)
  /-- DBG_LOG (the four 64-bit words of record i of logbook u) (R414). -/
  | dbgLog (u : Fin 1024) (i : Fin 256) (w : Fin 4)
  /-- DBG_LOG_NEXT (R414). -/
  | dbgLogNext (u : Fin 1024)
  /-- DBG_TRACE_CTRL (R423). -/
  | dbgTraceCtrl
  /-- DBG_TRACE_STATUS (R423). -/
  | dbgTraceStatus
  /-- DBG_TRACE_SPILL (R423). -/
  | dbgTraceSpill
  /-- DBG_TRACE_MARK (R423). -/
  | dbgTraceMark
  /-- DBG_TRIG_NET (R423). -/
  | dbgTrigNet
  /-- DBG_TRIG (R423). -/
  | dbgTrig (m : Fin 4)
  /-- DBG_TRACE_SRC (R423). -/
  | dbgTraceSrc (u : Fin 1024)
  /-- DBG_TRACE_BUF (the four 64-bit words of on-die trace record i) (R423). -/
  | dbgTraceBuf (i : Fin 2097152) (w : Fin 4)
  deriving DecidableEq, Repr

namespace F
/-- The 48-bit event count of every counter register (R43, R92, R120, R147, R175, R188). -/
def COUNT : Fld := { lo := 0, w := 48, acc := .rw, rst := 0 }
def ptrPartId_PART_CODE : Fld := { lo := 0, w := 16, acc := .ro, rst := 0x8a00 }
def ptrPartId_STEP_MAJOR : Fld := { lo := 16, w := 4, acc := .ro, rst := 0x1 }
def ptrPartId_STEP_MINOR : Fld := { lo := 20, w := 4, acc := .ro, rst := 0x1 }
def ptrPartId_SERIAL_LOW : Fld := { lo := 32, w := 32, acc := .ro, rst := 0 }
def ptrStage_STAGE : Fld := { lo := 0, w := 3, acc := .ro, rst := 0 }
def ptrStage_QUARANTINE : Fld := { lo := 3, w := 1, acc := .ro, rst := 0 }
def ptrStage_OUT_OF_SERVICE : Fld := { lo := 4, w := 1, acc := .ro, rst := 0 }
def ptrStage_MAIN_ON : Fld := { lo := 5, w := 1, acc := .ro, rst := 0 }
def ptrStage_FW_OK : Fld := { lo := 6, w := 1, acc := .ro, rst := 0 }
def ptrStage_PROTECT : Fld := { lo := 7, w := 1, acc := .ro, rst := 0 }
def ptrStage_GRANTED : Fld := { lo := 8, w := 4, acc := .ro, rst := 0 }
def ptrStage_BUSY_AXIS : Fld := { lo := 12, w := 2, acc := .ro, rst := 0 }
def ptrStage_BUSY : Fld := { lo := 14, w := 1, acc := .ro, rst := 0 }
def ptrStage_LAST_CMD : Fld := { lo := 16, w := 4, acc := .ro, rst := 0 }
def ptrStage_CMD_RESULT : Fld := { lo := 20, w := 4, acc := .ro, rst := 0 }
def ptrStageCmd_CMD : Fld := { lo := 0, w := 4, acc := .wo, rst := 0 }
def ptrStageCmd_AXIS : Fld := { lo := 4, w := 2, acc := .wo, rst := 0 }
def ptrStartCtrl_AUTO_MAIN : Fld := { lo := 0, w := 1, acc := .rw, rst := 0x1 }
def ptrStartCtrl_AUTO_ADVANCE : Fld := { lo := 1, w := 1, acc := .rw, rst := 0x1 }
def ptrStartCtrl_MEM_TEST : Fld := { lo := 2, w := 1, acc := .rw, rst := 0 }
def ptrStartCtrl_MGMT_REMOTE : Fld := { lo := 3, w := 1, acc := .rw, rst := 0 }
def ptrFwVersion_MAJOR : Fld := { lo := 0, w := 8, acc := .ro, rst := 0 }
def ptrFwVersion_MINOR : Fld := { lo := 8, w := 8, acc := .ro, rst := 0 }
def ptrFwVersion_BUILD : Fld := { lo := 16, w := 16, acc := .ro, rst := 0 }
def ptrFwVersion_SLOT : Fld := { lo := 32, w := 1, acc := .ro, rst := 0 }
def ptrFwVersion_FALLBACK : Fld := { lo := 33, w := 1, acc := .ro, rst := 0 }
def ptrFwVersion_OTHER_VALID : Fld := { lo := 34, w := 1, acc := .ro, rst := 0 }
def ptrStartTimes_FW_MS : Fld := { lo := 0, w := 16, acc := .ro, rst := 0xffff }
def ptrStartTimes_SORTING_MS : Fld := { lo := 16, w := 16, acc := .ro, rst := 0xffff }
def ptrStartTimes_STABLED_MS : Fld := { lo := 32, w := 16, acc := .ro, rst := 0xffff }
def ptrStartTimes_HARNESSED_MS : Fld := { lo := 48, w := 16, acc := .ro, rst := 0xffff }
def ptrLockViolations_COUNT : Fld := { lo := 0, w := 48, acc := .rw, rst := 0 }
def ptrPlanChip_CHIP_NUM : Fld := { lo := 0, w := 14, acc := .rwl, rst := 0 }
def ptrPlanChip_X_LEN_M1 : Fld := { lo := 16, w := 4, acc := .rwl, rst := 0 }
def ptrPlanChip_Y_LEN_M1 : Fld := { lo := 20, w := 4, acc := .rwl, rst := 0 }
def ptrPlanChip_Z_LEN_M1 : Fld := { lo := 24, w := 4, acc := .rwl, rst := 0 }
def ptrPlanChip_W_LEN_M1 : Fld := { lo := 28, w := 4, acc := .rwl, rst := 0 }
def ptrPlanChip_PLAN_VALID : Fld := { lo := 32, w := 1, acc := .rwl, rst := 0 }
def ptrPlanChip_PLAN_GEN : Fld := { lo := 48, w := 16, acc := .rw, rst := 0 }
def ptrDisc_OUTCOME_0 : Fld := { lo := 0, w := 2, acc := .ro, rst := 0 }
def ptrDisc_OUTCOME_1 : Fld := { lo := 6, w := 2, acc := .ro, rst := 0 }
def ptrDisc_OUTCOME_2 : Fld := { lo := 12, w := 2, acc := .ro, rst := 0 }
def ptrDisc_OUTCOME_3 : Fld := { lo := 18, w := 2, acc := .ro, rst := 0 }
def ptrDisc_OUTCOME_4 : Fld := { lo := 24, w := 2, acc := .ro, rst := 0 }
def ptrDisc_OUTCOME_5 : Fld := { lo := 30, w := 2, acc := .ro, rst := 0 }
def ptrDisc_OUTCOME_6 : Fld := { lo := 36, w := 2, acc := .ro, rst := 0 }
def ptrDisc_OUTCOME_7 : Fld := { lo := 42, w := 2, acc := .ro, rst := 0 }
def ptrDisc_CAUSE_0 : Fld := { lo := 2, w := 4, acc := .ro, rst := 0 }
def ptrDisc_CAUSE_1 : Fld := { lo := 8, w := 4, acc := .ro, rst := 0 }
def ptrDisc_CAUSE_2 : Fld := { lo := 14, w := 4, acc := .ro, rst := 0 }
def ptrDisc_CAUSE_3 : Fld := { lo := 20, w := 4, acc := .ro, rst := 0 }
def ptrDisc_CAUSE_4 : Fld := { lo := 26, w := 4, acc := .ro, rst := 0 }
def ptrDisc_CAUSE_5 : Fld := { lo := 32, w := 4, acc := .ro, rst := 0 }
def ptrDisc_CAUSE_6 : Fld := { lo := 38, w := 4, acc := .ro, rst := 0 }
def ptrDisc_CAUSE_7 : Fld := { lo := 44, w := 4, acc := .ro, rst := 0 }
def ptrPlanPeer_PEER_CHIP : Fld := { lo := 0, w := 14, acc := .rw, rst := 0 }
def ptrPlanPeer_EXPECT : Fld := { lo := 14, w := 1, acc := .rw, rst := 0 }
def ptrPlanPeer_SERIAL_CHECK : Fld := { lo := 15, w := 1, acc := .rw, rst := 0 }
def ptrPlanPeer_PEER_SERIAL_LOW : Fld := { lo := 32, w := 32, acc := .rw, rst := 0 }
def ptrMemResult_HBM_FAIL : Fld := { lo := 0, w := 8, acc := .ro, rst := 0 }
def ptrMemResult_LOFT_FAIL : Fld := { lo := 8, w := 16, acc := .ro, rst := 0 }
def ptrMemResult_STABLE_OFF : Fld := { lo := 24, w := 16, acc := .ro, rst := 0 }
def ptrMemResult_DONE : Fld := { lo := 40, w := 1, acc := .ro, rst := 0 }
def ptrMemResult_MEM_FAIL : Fld := { lo := 41, w := 1, acc := .ro, rst := 0 }
def ptrMemResult_TEST_UE : Fld := { lo := 48, w := 16, acc := .ro, rst := 0 }
def ptrRetiredIdx_INDEX : Fld := { lo := 0, w := 12, acc := .rw, rst := 0 }
def ptrRetiredIdx_COUNT : Fld := { lo := 16, w := 13, acc := .rw, rst := 0 }
def ptrRetiredIdx_BUSY : Fld := { lo := 31, w := 1, acc := .ro, rst := 0 }
def ptrRetiredData_PAGE : Fld := { lo := 0, w := 27, acc := .rw, rst := 0 }
def ptrRetiredData_TIER : Fld := { lo := 27, w := 1, acc := .rw, rst := 0 }
def ptrBypass_ENGAGED : Fld := { lo := 0, w := 4, acc := .ro, rst := 0xf }
def ptrBypass_HOLD : Fld := { lo := 4, w := 4, acc := .ro, rst := 0 }
def ptrBypass_FORCE : Fld := { lo := 8, w := 4, acc := .rw, rst := 0 }
def ptrBypass_FAULT : Fld := { lo := 12, w := 4, acc := .ro, rst := 0 }
def ptrBypassCount_X_ENGAGES : Fld := { lo := 0, w := 16, acc := .rw, rst := 0 }
def ptrBypassCount_Y_ENGAGES : Fld := { lo := 16, w := 16, acc := .rw, rst := 0 }
def ptrBypassCount_Z_ENGAGES : Fld := { lo := 32, w := 16, acc := .rw, rst := 0 }
def ptrBypassCount_W_ENGAGES : Fld := { lo := 48, w := 16, acc := .rw, rst := 0 }
def ptrResetRec_CAUSE : Fld := { lo := 0, w := 4, acc := .ro, rst := 0 }
def ptrResetRec_ENGINE : Fld := { lo := 4, w := 8, acc := .ro, rst := 0 }
def ptrResetRec_TIME_MS : Fld := { lo := 16, w := 48, acc := .ro, rst := 0 }
def ptrEscStatus_DIE_RESETS_1H : Fld := { lo := 0, w := 3, acc := .ro, rst := 0 }
def ptrEscStatus_FENCES : Fld := { lo := 3, w := 8, acc := .ro, rst := 0 }
def ptrEscStatus_LAST_FENCE : Fld := { lo := 11, w := 8, acc := .ro, rst := 0xff }
def ptrEscStatus_OOS_CAUSE : Fld := { lo := 19, w := 2, acc := .ro, rst := 0 }
def ptrStallFenceLo_FENCE : Fld := { lo := 0, w := 64, acc := .ro, rst := 0 }
def ptrStallFenceHi_FENCE : Fld := { lo := 0, w := 64, acc := .ro, rst := 0 }
def ptrEscCtrl_CLEAR_OOS : Fld := { lo := 0, w := 1, acc := .wo, rst := 0 }
def ptrEscCtrl_CLEAR_FENCES : Fld := { lo := 1, w := 1, acc := .wo, rst := 0 }
def ptrEscCtrl_CLEAR_HISTORY : Fld := { lo := 2, w := 1, acc := .wo, rst := 0 }
def ptrAonCtrl_CLEAR : Fld := { lo := 0, w := 1, acc := .wo, rst := 0 }
def ptrPwrStatus_VIN_10MV : Fld := { lo := 0, w := 16, acc := .ro, rst := 0 }
def ptrPwrStatus_PIN_W : Fld := { lo := 16, w := 16, acc := .ro, rst := 0 }
def ptrPwrStatus_AUX_10MW : Fld := { lo := 32, w := 12, acc := .ro, rst := 0 }
def ptrPwrStatus_MAIN_GOOD : Fld := { lo := 44, w := 1, acc := .ro, rst := 0 }
def ptrPwrLimit_LIMIT_W : Fld := { lo := 0, w := 12, acc := .rw, rst := 0xaf0, valid := some (1600, 2800, 1) }
def ptrPwrLimit_LIMITING : Fld := { lo := 12, w := 1, acc := .ro, rst := 0 }
def ptrPwrLimit_FLOOR : Fld := { lo := 13, w := 1, acc := .ro, rst := 0 }
def ptrPwrLimit_EFFECTIVE_W : Fld := { lo := 16, w := 12, acc := .ro, rst := 0xaf0 }
def ptrThermCtrl_YARD_THROTTLE_C : Fld := { lo := 0, w := 8, acc := .rw, rst := 0x5f, valid := some (70, 100, 1) }
def ptrThermStatus_YARD_MAX_C : Fld := { lo := 0, w := 8, acc := .ro, rst := 0 }
def ptrThermStatus_HBM_MAX_C : Fld := { lo := 8, w := 8, acc := .ro, rst := 0 }
def ptrThermStatus_LOFT_MAX_C : Fld := { lo := 16, w := 8, acc := .ro, rst := 0 }
def ptrThermStatus_OPT_MAX_C : Fld := { lo := 24, w := 8, acc := .ro, rst := 0 }
def ptrThermStatus_INLET_C : Fld := { lo := 32, w := 8, acc := .ro, rst := 0 }
def ptrThermStatus_OUTLET_C : Fld := { lo := 40, w := 8, acc := .ro, rst := 0 }
def ptrThermStatus_FLOW_10ML : Fld := { lo := 48, w := 12, acc := .ro, rst := 0 }
def ptrThermStatus_THROTTLING : Fld := { lo := 60, w := 1, acc := .ro, rst := 0 }
def ptrThermStatus_WET : Fld := { lo := 61, w := 1, acc := .ro, rst := 0 }
def ptrProtStatus_CAUSE : Fld := { lo := 0, w := 4, acc := .ro, rst := 0 }
def ptrProtStatus_VALID : Fld := { lo := 4, w := 1, acc := .rw1c, rst := 0 }
def ptrProtStatus_ACTIVE : Fld := { lo := 5, w := 1, acc := .ro, rst := 0 }
def ptrProtStatus_TIME_MS : Fld := { lo := 16, w := 48, acc := .ro, rst := 0 }
def ptrAon_COUNT : Fld := { lo := 0, w := 64, acc := .ro, rst := 0 }
def ceAxisPlan_X_ROLE : Fld := { lo := 0, w := 3, acc := .rw, rst := 0 }
def ceAxisPlan_X_GROUP : Fld := { lo := 3, w := 2, acc := .rw, rst := 0 }
def ceAxisPlan_X_LEN_M1 : Fld := { lo := 5, w := 4, acc := .rw, rst := 0 }
def ceAxisPlan_Y_ROLE : Fld := { lo := 16, w := 3, acc := .rw, rst := 0 }
def ceAxisPlan_Y_GROUP : Fld := { lo := 19, w := 2, acc := .rw, rst := 0 }
def ceAxisPlan_Y_LEN_M1 : Fld := { lo := 21, w := 4, acc := .rw, rst := 0 }
def ceAxisPlan_Z_ROLE : Fld := { lo := 32, w := 3, acc := .rw, rst := 0 }
def ceAxisPlan_Z_GROUP : Fld := { lo := 35, w := 2, acc := .rw, rst := 0 }
def ceAxisPlan_Z_LEN_M1 : Fld := { lo := 37, w := 4, acc := .rw, rst := 0 }
def ceAxisPlan_W_ROLE : Fld := { lo := 48, w := 3, acc := .rw, rst := 0 }
def ceAxisPlan_W_GROUP : Fld := { lo := 51, w := 2, acc := .rw, rst := 0 }
def ceAxisPlan_W_LEN_M1 : Fld := { lo := 53, w := 4, acc := .rw, rst := 0 }
def stlSrSeed_JOB_SEED : Fld := { lo := 0, w := 64, acc := .rw, rst := 0 }
def stlUpdTable_TABLE_VA : Fld := { lo := 12, w := 36, acc := .rw, rst := 0 }
def stlUpdSealed_SEALED_STEP : Fld := { lo := 0, w := 32, acc := .rw, rst := 0xffffffff }
def stlUpdProgress_ATTEMPT : Fld := { lo := 0, w := 32, acc := .ro, rst := 0x1 }
def stlUpdProgress_FOLDS_DONE : Fld := { lo := 32, w := 13, acc := .ro, rst := 0 }
def hstLinkStatus_WIDTH : Fld := { lo := 0, w := 5, acc := .ro, rst := 0 }
def hstLinkStatus_RATE : Fld := { lo := 5, w := 3, acc := .ro, rst := 0 }
def hstLinkStatus_FLIT : Fld := { lo := 8, w := 1, acc := .ro, rst := 0 }
def hstLinkStatus_DEGRADED : Fld := { lo := 9, w := 1, acc := .ro, rst := 0 }
def hstBar2Win_WIN : Fld := { lo := 0, w := 5, acc := .rw, rst := 0 }
def hstLoadRec0_STATUS : Fld := { lo := 0, w := 8, acc := .ro, rst := 0 }
def hstLoadRec0_REASON : Fld := { lo := 8, w := 8, acc := .ro, rst := 0 }
def hstLoadRec0_PROGRAM : Fld := { lo := 16, w := 4, acc := .ro, rst := 0 }
def hstLoadRec0_INSTR : Fld := { lo := 20, w := 17, acc := .ro, rst := 0 }
def hstLoadRec1_SLOT_COUNT : Fld := { lo := 0, w := 13, acc := .ro, rst := 0 }
def hstLoadRec1_SLOT_BASE : Fld := { lo := 16, w := 12, acc := .ro, rst := 0 }
def hstLoadRec1_GROUPS : Fld := { lo := 32, w := 4, acc := .ro, rst := 0 }
def hstXlatRoot_ROOT_PA : Fld := { lo := 12, w := 36, acc := .rw, rst := 0 }
def hstXlatInval_START : Fld := { lo := 0, w := 1, acc := .wo, rst := 0 }
def hstXlatInval_DONE : Fld := { lo := 1, w := 1, acc := .ro, rst := 0x1 }
def hstXlatFault_VA : Fld := { lo := 0, w := 48, acc := .ro, rst := 0 }
def hstXlatFault_CAUSE : Fld := { lo := 48, w := 3, acc := .ro, rst := 0 }
def hstXlatFault_WRITE : Fld := { lo := 51, w := 1, acc := .ro, rst := 0 }
def hstXlatFault_REMOTE : Fld := { lo := 52, w := 1, acc := .ro, rst := 0 }
def hstXlatFault_SOURCE : Fld := { lo := 53, w := 8, acc := .ro, rst := 0 }
def hstXlatFault_VALID : Fld := { lo := 63, w := 1, acc := .rw1c, rst := 0 }
def hstCtxCtrl_JOB_TAG : Fld := { lo := 0, w := 16, acc := .rw, rst := 0 }
def hstCtxCtrl_CREATE : Fld := { lo := 16, w := 1, acc := .wo, rst := 0 }
def hstCtxCtrl_DESTROY : Fld := { lo := 17, w := 1, acc := .wo, rst := 0 }
def hstCtxCtrl_RESET : Fld := { lo := 18, w := 1, acc := .wo, rst := 0 }
def hstCtxStatus_STATE : Fld := { lo := 0, w := 2, acc := .ro, rst := 0 }
def hstCtxStatus_CLEARING : Fld := { lo := 2, w := 1, acc := .ro, rst := 0 }
def hstCtxStatus_BROKEN : Fld := { lo := 3, w := 1, acc := .ro, rst := 0 }
def hstCtxStatus_REFUSED : Fld := { lo := 8, w := 8, acc := .ro, rst := 0 }
def hstCtxPost_POST_PA : Fld := { lo := 26, w := 13, acc := .rw, rst := 0 }
def hstCtxHang_HANG_MS : Fld := { lo := 0, w := 16, acc := .rw, rst := 0x7d0, valid := some (100, 60000, 1) }
def hstCtxHang_HUNG : Fld := { lo := 16, w := 1, acc := .rw1c, rst := 0 }
def hstCtxCapt_CAPT_PA : Fld := { lo := 12, w := 36, acc := .rw, rst := 0 }
def hstCtxCapt_VALID : Fld := { lo := 63, w := 1, acc := .rw1c, rst := 0 }
def hstCtxResetRec_CAUSE : Fld := { lo := 0, w := 4, acc := .ro, rst := 0 }
def hstCtxResetRec_ENGINE : Fld := { lo := 4, w := 8, acc := .ro, rst := 0 }
def hstCtxResetRec_LEVEL : Fld := { lo := 12, w := 3, acc := .ro, rst := 0 }
def hstCtxResetRec_RESETS : Fld := { lo := 16, w := 16, acc := .ro, rst := 0 }
def hstCtxResetRec_STEP : Fld := { lo := 32, w := 32, acc := .ro, rst := 0 }
def hstCtxSuspects_SUSPECTS : Fld := { lo := 0, w := 64, acc := .ro, rst := 0 }
def hstCtxSeal_X_POS : Fld := { lo := 0, w := 4, acc := .rw, rst := 0 }
def hstCtxSeal_Y_POS : Fld := { lo := 4, w := 4, acc := .rw, rst := 0 }
def hstCtxSeal_Z_POS : Fld := { lo := 8, w := 4, acc := .rw, rst := 0 }
def hstCtxSeal_W_POS : Fld := { lo := 12, w := 4, acc := .rw, rst := 0 }
def hstCtxSeal_WRAP : Fld := { lo := 16, w := 4, acc := .rw, rst := 0 }
def hstCtxSeal_STEP_S : Fld := { lo := 20, w := 12, acc := .rw, rst := 0x1e }
def hstCtxSealState_MIRRORED_STEP : Fld := { lo := 0, w := 32, acc := .ro, rst := 0xffffffff }
def hstCtxSealState_READY : Fld := { lo := 32, w := 1, acc := .ro, rst := 0 }
def hstCtxSealState_MDONE : Fld := { lo := 33, w := 1, acc := .ro, rst := 0 }
def hstCtxSealState_OVERDUE : Fld := { lo := 34, w := 1, acc := .rw1c, rst := 0 }
def hstCtxSealState_FAIL : Fld := { lo := 35, w := 1, acc := .ro, rst := 0 }
def hstCtxSealState_FULL : Fld := { lo := 36, w := 1, acc := .ro, rst := 0 }
def hstCtxSealState_TRY : Fld := { lo := 40, w := 16, acc := .ro, rst := 0 }
def hstCtxMirror_EN : Fld := { lo := 0, w := 1, acc := .rw, rst := 0 }
def hstCtxMirror_AXIS : Fld := { lo := 1, w := 3, acc := .rw, rst := 0x4 }
def hstCtxMirror_DIR : Fld := { lo := 4, w := 1, acc := .rw, rst := 0 }
def hstCtxMirror_SLOT_GIB : Fld := { lo := 5, w := 8, acc := .rw, rst := 0x1 }
def hstCtxMirror_REGION_VA : Fld := { lo := 21, w := 27, acc := .rw, rst := 0 }
def hstCtxSealCmd_REVERT : Fld := { lo := 0, w := 1, acc := .wo, rst := 0 }
def hstCtxSealCmd_REMIRROR : Fld := { lo := 1, w := 1, acc := .wo, rst := 0 }
def hstCtxSealCmd_TRY : Fld := { lo := 16, w := 16, acc := .wo, rst := 0 }
def hstCtxSealCmd_RESULT : Fld := { lo := 32, w := 2, acc := .ro, rst := 0 }
def hstSolo_EN : Fld := { lo := 0, w := 1, acc := .rw, rst := 0 }
def hstSolo_CONTEXT : Fld := { lo := 1, w := 6, acc := .rw, rst := 0 }
def stbNwCtrl_LOG2_N : Fld := { lo := 0, w := 5, acc := .rw, rst := 0xc, valid := some (9, 20, 1) }
def stbNwCtrl_FREEZE : Fld := { lo := 5, w := 1, acc := .rw, rst := 0 }
def stbNwCtrl_BASE_A : Fld := { lo := 8, w := 8, acc := .rw, rst := 0xe2 }
def stbNwCtrl_BASE_B : Fld := { lo := 16, w := 8, acc := .rw, rst := 0xe2 }
def stbNwCtrl_BASE_C : Fld := { lo := 24, w := 8, acc := .rw, rst := 0xe2 }
def stbNwCtrl_OVER_THRESH : Fld := { lo := 32, w := 16, acc := .rw, rst := 0x10 }
def stbNwUlpMax_ULP : Fld := { lo := 0, w := 16, acc := .rw, rst := 0 }
def stbNwUlpMax_STALL : Fld := { lo := 16, w := 7, acc := .rw, rst := 0 }
def stbNwHistA_BIN_EVEN : Fld := { lo := 0, w := 32, acc := .rw, rst := 0 }
def stbNwHistA_BIN_ODD : Fld := { lo := 32, w := 32, acc := .rw, rst := 0 }
def stbNwHistB_BIN_EVEN : Fld := { lo := 0, w := 32, acc := .rw, rst := 0 }
def stbNwHistB_BIN_ODD : Fld := { lo := 32, w := 32, acc := .rw, rst := 0 }
def stbNwHistC_BIN_EVEN : Fld := { lo := 0, w := 32, acc := .rw, rst := 0 }
def stbNwHistC_BIN_ODD : Fld := { lo := 32, w := 32, acc := .rw, rst := 0 }
def stbSramUeRec_OFFSET : Fld := { lo := 0, w := 25, acc := .ro, rst := 0 }
def stbSramUeRec_VALID : Fld := { lo := 63, w := 1, acc := .rw1c, rst := 0 }
def soSlot_WORD : Fld := { lo := 0, w := 64, acc := .ro, rst := 0 }
def stlSeqState_PC : Fld := { lo := 0, w := 17, acc := .ro, rst := 0 }
def stlSeqState_CONTEXT : Fld := { lo := 24, w := 6, acc := .ro, rst := 0 }
def stlSeqState_RUNNING : Fld := { lo := 30, w := 1, acc := .ro, rst := 0 }
def stlSeqState_RANK : Fld := { lo := 32, w := 7, acc := .ro, rst := 0 }
def stlMmFault_CODE : Fld := { lo := 0, w := 8, acc := .ro, rst := 0 }
def stlMmFault_VALID : Fld := { lo := 8, w := 1, acc := .rw1c, rst := 0 }
def stlMmFault_ACC : Fld := { lo := 9, w := 1, acc := .ro, rst := 0 }
def stlMmFault_INSTR : Fld := { lo := 10, w := 2, acc := .ro, rst := 0 }
def stlMmFault_ROW : Fld := { lo := 12, w := 7, acc := .ro, rst := 0 }
def stlMmFault_COL : Fld := { lo := 19, w := 7, acc := .ro, rst := 0 }
def stlMmFault_OFFSET : Fld := { lo := 32, w := 25, acc := .ro, rst := 0 }
def stlMmFault_STORE : Fld := { lo := 57, w := 1, acc := .ro, rst := 0 }
def stlSyncState_WAIT_KIND : Fld := { lo := 0, w := 2, acc := .ro, rst := 0 }
def stlSyncState_WAIT_ID : Fld := { lo := 2, w := 6, acc := .ro, rst := 0 }
def stlSyncState_SCOPE : Fld := { lo := 8, w := 3, acc := .ro, rst := 0 }
def stlSyncState_KIND : Fld := { lo := 11, w := 2, acc := .ro, rst := 0 }
def stlSyncState_GROUP : Fld := { lo := 13, w := 2, acc := .ro, rst := 0 }
def stlSyncState_TARGET : Fld := { lo := 32, w := 32, acc := .ro, rst := 0 }
def stlSramUeRec_OFFSET : Fld := { lo := 0, w := 25, acc := .ro, rst := 0 }
def stlSramUeRec_VALID : Fld := { lo := 63, w := 1, acc := .rw1c, rst := 0 }
def stlTally_TALLY_EVEN : Fld := { lo := 0, w := 32, acc := .ro, rst := 0 }
def stlTally_TALLY_ODD : Fld := { lo := 32, w := 32, acc := .ro, rst := 0 }
def hbaStatus_TEMP : Fld := { lo := 0, w := 8, acc := .ro, rst := 0 }
def hbaStatus_REFRESH : Fld := { lo := 8, w := 2, acc := .ro, rst := 0 }
def hbaStatus_THROTTLE : Fld := { lo := 10, w := 1, acc := .ro, rst := 0 }
def hbaScrub_PERIOD_H : Fld := { lo := 0, w := 16, acc := .rw, rst := 0x18 }
def hbaScrub_PASS_NOW : Fld := { lo := 16, w := 1, acc := .wo, rst := 0 }
def hbaScrub_BUSY : Fld := { lo := 17, w := 1, acc := .ro, rst := 0 }
def hbaPoisonHead_INDEX : Fld := { lo := 0, w := 6, acc := .rw, rst := 0 }
def hbaPoisonTail_INDEX : Fld := { lo := 0, w := 6, acc := .ro, rst := 0 }
def hbaPoisonRec0_PAGE : Fld := { lo := 0, w := 27, acc := .ro, rst := 0 }
def hbaPoisonRec0_TIER : Fld := { lo := 27, w := 1, acc := .ro, rst := 0 }
def hbaPoisonRec0_CHAN : Fld := { lo := 28, w := 9, acc := .ro, rst := 0 }
def hbaPoisonRec0_SCRUB : Fld := { lo := 37, w := 1, acc := .ro, rst := 0 }
def hbaPoisonRec1_FRANK : Fld := { lo := 0, w := 64, acc := .ro, rst := 0 }
def lftScrub_PERIOD_H : Fld := { lo := 0, w := 16, acc := .rw, rst := 0x18 }
def lftScrub_PASS_NOW : Fld := { lo := 16, w := 1, acc := .wo, rst := 0 }
def lftScrub_BUSY : Fld := { lo := 17, w := 1, acc := .ro, rst := 0 }
def soPortCtrl_DISABLE : Fld := { lo := 0, w := 1, acc := .rw, rst := 0 }
def soPortCtrl_MIN_STRANDS_M1 : Fld := { lo := 1, w := 2, acc := .rw, rst := 0 }
def soPortCtrl_HALF_ONLY : Fld := { lo := 3, w := 1, acc := .rw, rst := 0 }
def soPortCtrl_RESTORE : Fld := { lo := 4, w := 4, acc := .wo, rst := 0 }
def soPortCtrl_RETRAIN : Fld := { lo := 8, w := 1, acc := .wo, rst := 0 }
def soPortStatus_STATE : Fld := { lo := 0, w := 3, acc := .ro, rst := 0x6 }
def soPortStatus_STRANDS : Fld := { lo := 3, w := 4, acc := .ro, rst := 0 }
def soPortStatus_HALF : Fld := { lo := 7, w := 1, acc := .ro, rst := 0 }
def soPortStatus_BYPASS_HOP : Fld := { lo := 8, w := 1, acc := .ro, rst := 0 }
def soPortStatus_DARK : Fld := { lo := 9, w := 1, acc := .ro, rst := 0 }
def soPortPeer_PEER_CHIP : Fld := { lo := 0, w := 14, acc := .ro, rst := 0 }
def soPortPeer_PEER_PORT : Fld := { lo := 14, w := 3, acc := .ro, rst := 0 }
def soPortPeer_SKIP_COUNT : Fld := { lo := 18, w := 4, acc := .ro, rst := 0 }
def soPortPeer_VALID : Fld := { lo := 22, w := 1, acc := .ro, rst := 0 }
def soPortPeer_PEER_SERIAL_LOW : Fld := { lo := 32, w := 32, acc := .ro, rst := 0 }
def soPortEvents_LINK_DOWN : Fld := { lo := 0, w := 1, acc := .rw1c, rst := 0 }
def soPortEvents_STRAND_DROP : Fld := { lo := 1, w := 1, acc := .rw1c, rst := 0 }
def soPortEvents_RATE_HALF : Fld := { lo := 2, w := 1, acc := .rw1c, rst := 0 }
def soPortEvents_PEER_CHANGE : Fld := { lo := 3, w := 1, acc := .rw1c, rst := 0 }
def soPortEvents_TRAIN_FAIL : Fld := { lo := 4, w := 1, acc := .rw1c, rst := 0 }
def soPortEvents_RESTORE_FAIL : Fld := { lo := 5, w := 1, acc := .rw1c, rst := 0 }
def soPortLimits_UNCORR_LIMIT : Fld := { lo := 0, w := 16, acc := .rw, rst := 0x10 }
def soPortLimits_CORR_LOG2 : Fld := { lo := 16, w := 5, acc := .rw, rst := 0x10, valid := some (8, 24, 1) }
def soPortDisc_OUTCOME : Fld := { lo := 0, w := 2, acc := .ro, rst := 0 }
def soPortDisc_CAUSE : Fld := { lo := 2, w := 4, acc := .ro, rst := 0 }
def soPortDisc_CHANGED : Fld := { lo := 6, w := 1, acc := .rw1c, rst := 0 }
def soPortDisc_PEER_STAGE : Fld := { lo := 8, w := 4, acc := .ro, rst := 0 }
def soPortDisc_PEER_PLAN_GEN : Fld := { lo := 16, w := 16, acc := .ro, rst := 0 }
def soPortDisc_PEER_FW : Fld := { lo := 32, w := 32, acc := .ro, rst := 0 }
def soPortArb_TRANSIT_SHARE : Fld := { lo := 0, w := 5, acc := .rw, rst := 0x4, valid := some (4, 16, 1) }
def soLaneStat_CORR : Fld := { lo := 0, w := 32, acc := .ro, rst := 0 }
def soLaneStat_UNCORR : Fld := { lo := 32, w := 16, acc := .ro, rst := 0 }
def soLaneStat_LOCK : Fld := { lo := 48, w := 1, acc := .ro, rst := 0 }
def soLaneStat_FAILED : Fld := { lo := 49, w := 1, acc := .ro, rst := 0 }
def soLaneStat_PEER_LANE : Fld := { lo := 50, w := 6, acc := .ro, rst := 0 }
def soLaneStat_POLARITY : Fld := { lo := 56, w := 1, acc := .ro, rst := 0 }
def soRtCtrl_SRC_EPOCH : Fld := { lo := 0, w := 1, acc := .rw, rst := 0 }
def soRtCtrl_VALID0 : Fld := { lo := 1, w := 1, acc := .rw, rst := 0 }
def soRtCtrl_VALID1 : Fld := { lo := 2, w := 1, acc := .rw, rst := 0 }
def soEpochDrain_DRAIN0 : Fld := { lo := 0, w := 32, acc := .ro, rst := 0 }
def soEpochDrain_DRAIN1 : Fld := { lo := 32, w := 32, acc := .ro, rst := 0 }
def soRtAxis_DIR : Fld := { lo := 0, w := 32, acc := .rw, rst := 0 }
def soRtAxis_LEN_M1 : Fld := { lo := 32, w := 4, acc := .rw, rst := 0 }
def soRtAxis_SHAPE : Fld := { lo := 36, w := 2, acc := .rw, rst := 0 }
def soCtxFence_FENCE : Fld := { lo := 0, w := 64, acc := .rw, rst := 0 }
def soCtxResetting_RESETTING : Fld := { lo := 0, w := 64, acc := .ro, rst := 0 }
def soPostCtrl_TIMER_US : Fld := { lo := 0, w := 14, acc := .rw, rst := 0x64, valid := some (10, 10000, 1) }
def soPostCtrl_RETRIES : Fld := { lo := 16, w := 4, acc := .rw, rst := 0x6 }
def ceGrpCtrl_VALID : Fld := { lo := 0, w := 1, acc := .rw, rst := 0 }
def ceGrpCtrl_SHAPE : Fld := { lo := 1, w := 1, acc := .rw, rst := 0 }
def ceGrpCtrl_DIR : Fld := { lo := 2, w := 1, acc := .rw, rst := 0 }
def ceGrpCtrl_POS : Fld := { lo := 4, w := 4, acc := .rw, rst := 0 }
def ceGrpCtrl_AXIS : Fld := { lo := 8, w := 2, acc := .ro, rst := 0 }
def ceGrpCtrl_LEN_M1 : Fld := { lo := 10, w := 4, acc := .ro, rst := 0 }
def ceGrpCtrl_MODE : Fld := { lo := 14, w := 1, acc := .rw, rst := 0 }
def ceGrpCtrl_GFMT : Fld := { lo := 16, w := 3, acc := .rw, rst := 0 }
def ceGrpCtrl_WD : Fld := { lo := 20, w := 12, acc := .rw, rst := 0x32, valid := some (1, 4095, 1) }
def ceGrpTree_PARENT_PORT : Fld := { lo := 0, w := 3, acc := .rw, rst := 0 }
def ceGrpTree_ROOT : Fld := { lo := 3, w := 1, acc := .rw, rst := 0 }
def ceGrpTree_CHILDREN : Fld := { lo := 4, w := 4, acc := .rw, rst := 0 }
def ceGrpStatus_STATE : Fld := { lo := 0, w := 2, acc := .ro, rst := 0 }
def ceGrpStatus_TAG : Fld := { lo := 2, w := 12, acc := .ro, rst := 0 }
def ceGrpStatus_MISMATCH : Fld := { lo := 14, w := 1, acc := .ro, rst := 0 }
def ceGrpStatus_FENCED_PEER : Fld := { lo := 15, w := 1, acc := .ro, rst := 0 }
def ceGrpStatus_WAIT_ON : Fld := { lo := 16, w := 3, acc := .ro, rst := 0 }
def ceGrpStatus_STEP : Fld := { lo := 32, w := 32, acc := .ro, rst := 0 }
def ceGrpPm0_PM_A : Fld := { lo := 0, w := 32, acc := .ro, rst := 0 }
def ceGrpPm0_PM_B : Fld := { lo := 32, w := 32, acc := .ro, rst := 0 }
def ceGrpPm1_PM_A : Fld := { lo := 0, w := 32, acc := .ro, rst := 0 }
def ceGrpPm1_PM_B : Fld := { lo := 32, w := 32, acc := .ro, rst := 0 }
def ceGrpNanrec_POS_MASK : Fld := { lo := 0, w := 16, acc := .ro, rst := 0 }
def ceGrpNanrec_FIRST_POS : Fld := { lo := 16, w := 4, acc := .ro, rst := 0 }
def ceGrpNanrec_TAG : Fld := { lo := 20, w := 12, acc := .ro, rst := 0 }
def ceGrpNanrec_FIRST_ELEM : Fld := { lo := 32, w := 31, acc := .ro, rst := 0 }
def ceGrpNanrec_VALID : Fld := { lo := 63, w := 1, acc := .rw1c, rst := 0 }
def ceGrpMember_CHIP_A : Fld := { lo := 0, w := 14, acc := .rw, rst := 0 }
def ceGrpMember_CHIP_B : Fld := { lo := 16, w := 14, acc := .rw, rst := 0 }
def ceGrpMember_CHIP_C : Fld := { lo := 32, w := 14, acc := .rw, rst := 0 }
def ceGrpMember_CHIP_D : Fld := { lo := 48, w := 14, acc := .rw, rst := 0 }
def hstQpCtrl_ENABLE : Fld := { lo := 0, w := 1, acc := .rw, rst := 0 }
def hstQpCtrl_CONTEXT : Fld := { lo := 1, w := 6, acc := .rw, rst := 0 }
def hstQpCtrl_STOP_ON_FAULT : Fld := { lo := 7, w := 1, acc := .rw, rst := 0x1 }
def hstQpCtrl_SQ_LOG2 : Fld := { lo := 8, w := 4, acc := .rw, rst := 0x4 }
def hstQpCtrl_CQ_LOG2 : Fld := { lo := 12, w := 4, acc := .rw, rst := 0x4 }
def hstQpCtrl_IRQ_COUNT : Fld := { lo := 16, w := 8, acc := .rw, rst := 0x1 }
def hstQpCtrl_IRQ_DELAY_US : Fld := { lo := 24, w := 8, acc := .rw, rst := 0 }
def hstQpSqBase_ADDR : Fld := { lo := 6, w := 58, acc := .rw, rst := 0 }
def hstQpCqBase_ADDR : Fld := { lo := 6, w := 58, acc := .rw, rst := 0 }
def hstQpAccAddr_ADDR : Fld := { lo := 3, w := 61, acc := .rw, rst := 0 }
def hstQpSqTail_INDEX : Fld := { lo := 0, w := 16, acc := .rw, rst := 0 }
def hstQpCqHead_INDEX : Fld := { lo := 0, w := 16, acc := .rw, rst := 0 }
def hstQpStatus_ACCEPTED : Fld := { lo := 0, w := 16, acc := .ro, rst := 0 }
def hstQpStatus_COMPLETED : Fld := { lo := 16, w := 16, acc := .ro, rst := 0 }
def hstQpStatus_STOPPED : Fld := { lo := 32, w := 1, acc := .rw1c, rst := 0 }
def hstQpStatus_FETCH_ERR : Fld := { lo := 33, w := 1, acc := .rw1c, rst := 0 }
def hstQpStatus_DRAINING : Fld := { lo := 34, w := 1, acc := .ro, rst := 0 }
def hstQpAbort_INDEX : Fld := { lo := 0, w := 16, acc := .rw, rst := 0 }
def hstQpAbort_GO : Fld := { lo := 16, w := 1, acc := .wo, rst := 0 }
def hstQpAbort_BUSY : Fld := { lo := 17, w := 1, acc := .ro, rst := 0 }
def hstQpAbort_RESULT : Fld := { lo := 24, w := 8, acc := .ro, rst := 0 }
def clkYardCtrl_TARGET_MHZ : Fld := { lo := 0, w := 11, acc := .rw, rst := 0x578, valid := some (600, 1400, 25) }
def clkYardCtrl_IDLE_GATE : Fld := { lo := 11, w := 1, acc := .rw, rst := 0x1 }
def clkYardCtrl_HALT : Fld := { lo := 12, w := 1, acc := .rw, rst := 0 }
def clkYardStatus_FREQ_MHZ : Fld := { lo := 0, w := 11, acc := .ro, rst := 0 }
def clkYardStatus_VOLT_MV : Fld := { lo := 11, w := 11, acc := .ro, rst := 0 }
def clkYardStatus_TEMP_C : Fld := { lo := 22, w := 8, acc := .ro, rst := 0 }
def clkYardStatus_LIMIT : Fld := { lo := 30, w := 4, acc := .ro, rst := 0 }
def clkYardStatus_GATED : Fld := { lo := 34, w := 1, acc := .ro, rst := 0 }
def clkYardStatus_STOPPED : Fld := { lo := 35, w := 1, acc := .ro, rst := 0 }
def clkYardStatus_STRETCHING : Fld := { lo := 36, w := 1, acc := .ro, rst := 0 }
def clkFrNow_NS : Fld := { lo := 0, w := 64, acc := .ro, rst := 0 }
def clkFrFrac_FRAC : Fld := { lo := 0, w := 8, acc := .ro, rst := 0 }
def clkFrStatus_SYNC_STATE : Fld := { lo := 0, w := 1, acc := .ro, rst := 0 }
def clkFrStatus_PORTS : Fld := { lo := 4, w := 8, acc := .ro, rst := 0 }
def clkFrStatus_RATE_PS : Fld := { lo := 16, w := 16, acc := .ro, rst := 0 }
def clkFrStatus_LOCKED_MS : Fld := { lo := 32, w := 32, acc := .ro, rst := 0 }
def clkFrPort_OFFSET_PS : Fld := { lo := 0, w := 32, acc := .ro, rst := 0 }
def clkFrPort_DELAY_NS : Fld := { lo := 32, w := 16, acc := .ro, rst := 0 }
def clkFrPort_VALID : Fld := { lo := 48, w := 1, acc := .ro, rst := 0 }
def clkFrPort_PEER_LOCKED : Fld := { lo := 49, w := 1, acc := .ro, rst := 0 }
def clkFrAsym_ASYM_PS : Fld := { lo := 0, w := 16, acc := .rw, rst := 0 }
def dbgLog_WORD : Fld := { lo := 0, w := 64, acc := .ro, rst := 0 }
def dbgLogNext_NEXT_SEQ : Fld := { lo := 0, w := 32, acc := .ro, rst := 0 }
def dbgTraceCtrl_ENABLE : Fld := { lo := 0, w := 1, acc := .rw, rst := 0 }
def dbgTraceCtrl_ARM : Fld := { lo := 1, w := 1, acc := .wo, rst := 0 }
def dbgTraceCtrl_TRIG_NOW : Fld := { lo := 2, w := 1, acc := .wo, rst := 0 }
def dbgTraceCtrl_SPILL : Fld := { lo := 3, w := 1, acc := .rw, rst := 0 }
def dbgTraceCtrl_LOSSLESS : Fld := { lo := 4, w := 1, acc := .rw, rst := 0 }
def dbgTraceCtrl_POST_EIGHTHS : Fld := { lo := 5, w := 4, acc := .rw, rst := 0x4, valid := some (0, 8, 1) }
def dbgTraceCtrl_RATE : Fld := { lo := 9, w := 4, acc := .rw, rst := 0xa }
def dbgTraceStatus_WRITE_IDX : Fld := { lo := 0, w := 31, acc := .ro, rst := 0 }
def dbgTraceStatus_ARMED : Fld := { lo := 31, w := 1, acc := .ro, rst := 0 }
def dbgTraceStatus_TRIG_IDX : Fld := { lo := 32, w := 31, acc := .ro, rst := 0 }
def dbgTraceStatus_FROZEN : Fld := { lo := 63, w := 1, acc := .ro, rst := 0 }
def dbgTraceSpill_SIZE_GIB : Fld := { lo := 0, w := 6, acc := .rw, rst := 0 }
def dbgTraceSpill_BASE : Fld := { lo := 30, w := 18, acc := .rw, rst := 0 }
def dbgTraceMark_VALUE : Fld := { lo := 0, w := 32, acc := .wo, rst := 0 }
def dbgTrigNet_SEND : Fld := { lo := 0, w := 8, acc := .rw, rst := 0 }
def dbgTrigNet_ACCEPT : Fld := { lo := 8, w := 8, acc := .rw, rst := 0 }
def dbgTrigNet_RADIUS : Fld := { lo := 16, w := 5, acc := .rw, rst := 0x1 }
def dbgTrig_UNIT : Fld := { lo := 0, w := 10, acc := .rw, rst := 0 }
def dbgTrig_ANY_UNIT : Fld := { lo := 10, w := 1, acc := .rw, rst := 0 }
def dbgTrig_KIND : Fld := { lo := 11, w := 4, acc := .rw, rst := 0 }
def dbgTrig_EN : Fld := { lo := 15, w := 1, acc := .rw, rst := 0 }
def dbgTrig_BYTE_EN : Fld := { lo := 16, w := 4, acc := .rw, rst := 0xf }
def dbgTrig_MATCH : Fld := { lo := 32, w := 32, acc := .rw, rst := 0 }
def dbgTraceSrc_MASK : Fld := { lo := 0, w := 16, acc := .rw, rst := 0 }
def dbgTraceBuf_WORD : Fld := { lo := 0, w := 64, acc := .ro, rst := 0 }
end F

/-- The fields of a register, in ascending bit order; bits of no field are reserved (R9). -/
def Reg.fields : Reg → List Fld
  | .ptrPartId => [F.ptrPartId_PART_CODE, F.ptrPartId_STEP_MAJOR, F.ptrPartId_STEP_MINOR, F.ptrPartId_SERIAL_LOW]
  | .ptrStage => [F.ptrStage_STAGE, F.ptrStage_QUARANTINE, F.ptrStage_OUT_OF_SERVICE, F.ptrStage_MAIN_ON, F.ptrStage_FW_OK, F.ptrStage_PROTECT, F.ptrStage_GRANTED, F.ptrStage_BUSY_AXIS, F.ptrStage_BUSY, F.ptrStage_LAST_CMD, F.ptrStage_CMD_RESULT]
  | .ptrStageCmd => [F.ptrStageCmd_CMD, F.ptrStageCmd_AXIS]
  | .ptrStartCtrl => [F.ptrStartCtrl_AUTO_MAIN, F.ptrStartCtrl_AUTO_ADVANCE, F.ptrStartCtrl_MEM_TEST, F.ptrStartCtrl_MGMT_REMOTE]
  | .ptrFwVersion => [F.ptrFwVersion_MAJOR, F.ptrFwVersion_MINOR, F.ptrFwVersion_BUILD, F.ptrFwVersion_SLOT, F.ptrFwVersion_FALLBACK, F.ptrFwVersion_OTHER_VALID]
  | .ptrStartTimes => [F.ptrStartTimes_FW_MS, F.ptrStartTimes_SORTING_MS, F.ptrStartTimes_STABLED_MS, F.ptrStartTimes_HARNESSED_MS]
  | .ptrLockViolations => [F.ptrLockViolations_COUNT]
  | .ptrPlanChip => [F.ptrPlanChip_CHIP_NUM, F.ptrPlanChip_X_LEN_M1, F.ptrPlanChip_Y_LEN_M1, F.ptrPlanChip_Z_LEN_M1, F.ptrPlanChip_W_LEN_M1, F.ptrPlanChip_PLAN_VALID, F.ptrPlanChip_PLAN_GEN]
  | .ptrDisc => [F.ptrDisc_OUTCOME_0, F.ptrDisc_CAUSE_0, F.ptrDisc_OUTCOME_1, F.ptrDisc_CAUSE_1, F.ptrDisc_OUTCOME_2, F.ptrDisc_CAUSE_2, F.ptrDisc_OUTCOME_3, F.ptrDisc_CAUSE_3, F.ptrDisc_OUTCOME_4, F.ptrDisc_CAUSE_4, F.ptrDisc_OUTCOME_5, F.ptrDisc_CAUSE_5, F.ptrDisc_OUTCOME_6, F.ptrDisc_CAUSE_6, F.ptrDisc_OUTCOME_7, F.ptrDisc_CAUSE_7]
  | .ptrPlanPeer _ => [F.ptrPlanPeer_PEER_CHIP, F.ptrPlanPeer_EXPECT, F.ptrPlanPeer_SERIAL_CHECK, F.ptrPlanPeer_PEER_SERIAL_LOW]
  | .ptrMemResult => [F.ptrMemResult_HBM_FAIL, F.ptrMemResult_LOFT_FAIL, F.ptrMemResult_STABLE_OFF, F.ptrMemResult_DONE, F.ptrMemResult_MEM_FAIL, F.ptrMemResult_TEST_UE]
  | .ptrRetiredIdx => [F.ptrRetiredIdx_INDEX, F.ptrRetiredIdx_COUNT, F.ptrRetiredIdx_BUSY]
  | .ptrRetiredData => [F.ptrRetiredData_PAGE, F.ptrRetiredData_TIER]
  | .ptrBypass => [F.ptrBypass_ENGAGED, F.ptrBypass_HOLD, F.ptrBypass_FORCE, F.ptrBypass_FAULT]
  | .ptrBypassCount => [F.ptrBypassCount_X_ENGAGES, F.ptrBypassCount_Y_ENGAGES, F.ptrBypassCount_Z_ENGAGES, F.ptrBypassCount_W_ENGAGES]
  | .ptrResetRec => [F.ptrResetRec_CAUSE, F.ptrResetRec_ENGINE, F.ptrResetRec_TIME_MS]
  | .ptrEscStatus => [F.ptrEscStatus_DIE_RESETS_1H, F.ptrEscStatus_FENCES, F.ptrEscStatus_LAST_FENCE, F.ptrEscStatus_OOS_CAUSE]
  | .ptrStallFenceLo => [F.ptrStallFenceLo_FENCE]
  | .ptrStallFenceHi => [F.ptrStallFenceHi_FENCE]
  | .ptrEscCtrl => [F.ptrEscCtrl_CLEAR_OOS, F.ptrEscCtrl_CLEAR_FENCES, F.ptrEscCtrl_CLEAR_HISTORY]
  | .ptrAonCtrl => [F.ptrAonCtrl_CLEAR]
  | .ptrPwrStatus => [F.ptrPwrStatus_VIN_10MV, F.ptrPwrStatus_PIN_W, F.ptrPwrStatus_AUX_10MW, F.ptrPwrStatus_MAIN_GOOD]
  | .ptrPwrLimit => [F.ptrPwrLimit_LIMIT_W, F.ptrPwrLimit_LIMITING, F.ptrPwrLimit_FLOOR, F.ptrPwrLimit_EFFECTIVE_W]
  | .ptrThermCtrl => [F.ptrThermCtrl_YARD_THROTTLE_C]
  | .ptrThermStatus => [F.ptrThermStatus_YARD_MAX_C, F.ptrThermStatus_HBM_MAX_C, F.ptrThermStatus_LOFT_MAX_C, F.ptrThermStatus_OPT_MAX_C, F.ptrThermStatus_INLET_C, F.ptrThermStatus_OUTLET_C, F.ptrThermStatus_FLOW_10ML, F.ptrThermStatus_THROTTLING, F.ptrThermStatus_WET]
  | .ptrProtStatus => [F.ptrProtStatus_CAUSE, F.ptrProtStatus_VALID, F.ptrProtStatus_ACTIVE, F.ptrProtStatus_TIME_MS]
  | .ptrAon _ => [F.ptrAon_COUNT]
  | .ceAxisPlan _ => [F.ceAxisPlan_X_ROLE, F.ceAxisPlan_X_GROUP, F.ceAxisPlan_X_LEN_M1, F.ceAxisPlan_Y_ROLE, F.ceAxisPlan_Y_GROUP, F.ceAxisPlan_Y_LEN_M1, F.ceAxisPlan_Z_ROLE, F.ceAxisPlan_Z_GROUP, F.ceAxisPlan_Z_LEN_M1, F.ceAxisPlan_W_ROLE, F.ceAxisPlan_W_GROUP, F.ceAxisPlan_W_LEN_M1]
  | .stlSrSeed _ => [F.stlSrSeed_JOB_SEED]
  | .stlUpdTable _ => [F.stlUpdTable_TABLE_VA]
  | .stlUpdSealed _ => [F.stlUpdSealed_SEALED_STEP]
  | .stlUpdProgress _ => [F.stlUpdProgress_ATTEMPT, F.stlUpdProgress_FOLDS_DONE]
  | .hstLinkStatus => [F.hstLinkStatus_WIDTH, F.hstLinkStatus_RATE, F.hstLinkStatus_FLIT, F.hstLinkStatus_DEGRADED]
  | .hstBar2Win => [F.hstBar2Win_WIN]
  | .hstBarErr => [F.COUNT]
  | .hstLoadRec0 _ => [F.hstLoadRec0_STATUS, F.hstLoadRec0_REASON, F.hstLoadRec0_PROGRAM, F.hstLoadRec0_INSTR]
  | .hstLoadRec1 _ => [F.hstLoadRec1_SLOT_COUNT, F.hstLoadRec1_SLOT_BASE, F.hstLoadRec1_GROUPS]
  | .hstXlatRoot _ => [F.hstXlatRoot_ROOT_PA]
  | .hstXlatInval _ => [F.hstXlatInval_START, F.hstXlatInval_DONE]
  | .hstXlatFault _ => [F.hstXlatFault_VA, F.hstXlatFault_CAUSE, F.hstXlatFault_WRITE, F.hstXlatFault_REMOTE, F.hstXlatFault_SOURCE, F.hstXlatFault_VALID]
  | .hstXlatRefused _ => [F.COUNT]
  | .hstCtxCtrl _ => [F.hstCtxCtrl_JOB_TAG, F.hstCtxCtrl_CREATE, F.hstCtxCtrl_DESTROY, F.hstCtxCtrl_RESET]
  | .hstCtxStatus _ => [F.hstCtxStatus_STATE, F.hstCtxStatus_CLEARING, F.hstCtxStatus_BROKEN, F.hstCtxStatus_REFUSED]
  | .hstCtxPost _ => [F.hstCtxPost_POST_PA]
  | .hstCtxHang _ => [F.hstCtxHang_HANG_MS, F.hstCtxHang_HUNG]
  | .hstCtxCapt _ => [F.hstCtxCapt_CAPT_PA, F.hstCtxCapt_VALID]
  | .hstCtxResetRec _ => [F.hstCtxResetRec_CAUSE, F.hstCtxResetRec_ENGINE, F.hstCtxResetRec_LEVEL, F.hstCtxResetRec_RESETS, F.hstCtxResetRec_STEP]
  | .hstCtxSuspects _ => [F.hstCtxSuspects_SUSPECTS]
  | .hstCtxSeal _ => [F.hstCtxSeal_X_POS, F.hstCtxSeal_Y_POS, F.hstCtxSeal_Z_POS, F.hstCtxSeal_W_POS, F.hstCtxSeal_WRAP, F.hstCtxSeal_STEP_S]
  | .hstCtxSealState _ => [F.hstCtxSealState_MIRRORED_STEP, F.hstCtxSealState_READY, F.hstCtxSealState_MDONE, F.hstCtxSealState_OVERDUE, F.hstCtxSealState_FAIL, F.hstCtxSealState_FULL, F.hstCtxSealState_TRY]
  | .hstCtxMirror _ => [F.hstCtxMirror_EN, F.hstCtxMirror_AXIS, F.hstCtxMirror_DIR, F.hstCtxMirror_SLOT_GIB, F.hstCtxMirror_REGION_VA]
  | .hstCtxSealCmd _ => [F.hstCtxSealCmd_REVERT, F.hstCtxSealCmd_REMIRROR, F.hstCtxSealCmd_TRY, F.hstCtxSealCmd_RESULT]
  | .hstSolo => [F.hstSolo_EN, F.hstSolo_CONTEXT]
  | .stbNwCtrl _ => [F.stbNwCtrl_LOG2_N, F.stbNwCtrl_FREEZE, F.stbNwCtrl_BASE_A, F.stbNwCtrl_BASE_B, F.stbNwCtrl_BASE_C, F.stbNwCtrl_OVER_THRESH]
  | .stbNwSamples _ => [F.COUNT]
  | .stbNwSkipped _ => [F.COUNT]
  | .stbNwMismatch _ => [F.COUNT]
  | .stbNwUlpMax _ => [F.stbNwUlpMax_ULP, F.stbNwUlpMax_STALL]
  | .stbNwUlpSum _ => [F.COUNT]
  | .stbNwUlpElems _ => [F.COUNT]
  | .stbNwUlpOver _ => [F.COUNT]
  | .stbNwHistA _ _ => [F.stbNwHistA_BIN_EVEN, F.stbNwHistA_BIN_ODD]
  | .stbNwHistB _ _ => [F.stbNwHistB_BIN_EVEN, F.stbNwHistB_BIN_ODD]
  | .stbNwHistC _ _ => [F.stbNwHistC_BIN_EVEN, F.stbNwHistC_BIN_ODD]
  | .stbSramCe _ => [F.COUNT]
  | .stbSramUe _ => [F.COUNT]
  | .stbSramUeRec _ => [F.stbSramUeRec_OFFSET, F.stbSramUeRec_VALID]
  | .stbSramRsvd _ => [F.COUNT]
  | .soSlotUnbound => [F.COUNT]
  | .soSlotOverrun => [F.COUNT]
  | .soSlotBadbind => [F.COUNT]
  | .soSlot _ _ => [F.soSlot_WORD]
  | .stlSeqState _ => [F.stlSeqState_PC, F.stlSeqState_CONTEXT, F.stlSeqState_RUNNING, F.stlSeqState_RANK]
  | .stlSeqRetired _ => [F.COUNT]
  | .stlSeqCodewrite _ => [F.COUNT]
  | .stlCvtOverflow _ => [F.COUNT]
  | .stlCvtUnderflow _ => [F.COUNT]
  | .stlCvtNanInt _ => [F.COUNT]
  | .stlMxUnderflow _ => [F.COUNT]
  | .stlMxClamp _ => [F.COUNT]
  | .stlMmOverflow _ => [F.COUNT]
  | .stlMmUnderflow _ => [F.COUNT]
  | .stlMmSpill _ => [F.COUNT]
  | .stlMmWrap _ => [F.COUNT]
  | .stlMmRetired _ => [F.COUNT]
  | .stlMmFault _ => [F.stlMmFault_CODE, F.stlMmFault_VALID, F.stlMmFault_ACC, F.stlMmFault_INSTR, F.stlMmFault_ROW, F.stlMmFault_COL, F.stlMmFault_OFFSET, F.stlMmFault_STORE]
  | .stlUpdTiles _ => [F.COUNT]
  | .stlUpdStale _ => [F.COUNT]
  | .stlUpdClipped _ => [F.COUNT]
  | .stlUpdNonfinite _ => [F.COUNT]
  | .stlUpdOutside _ => [F.COUNT]
  | .stlUpdRepeat _ => [F.COUNT]
  | .stlUpdSkipped _ => [F.COUNT]
  | .stlSyncState _ => [F.stlSyncState_WAIT_KIND, F.stlSyncState_WAIT_ID, F.stlSyncState_SCOPE, F.stlSyncState_KIND, F.stlSyncState_GROUP, F.stlSyncState_TARGET]
  | .stlSyncWaitcyc _ => [F.COUNT]
  | .stlSyncFences _ => [F.COUNT]
  | .stlSyncArrivals _ => [F.COUNT]
  | .stlSramCe _ => [F.COUNT]
  | .stlSramUe _ => [F.COUNT]
  | .stlSramUeRec _ => [F.stlSramUeRec_OFFSET, F.stlSramUeRec_VALID]
  | .stlTally _ _ => [F.stlTally_TALLY_EVEN, F.stlTally_TALLY_ODD]
  | .hbaStatus _ => [F.hbaStatus_TEMP, F.hbaStatus_REFRESH, F.hbaStatus_THROTTLE]
  | .hbaEccCe _ => [F.COUNT]
  | .hbaEccUe _ => [F.COUNT]
  | .hbaThrottleCyc _ => [F.COUNT]
  | .hbaScrub _ => [F.hbaScrub_PERIOD_H, F.hbaScrub_PASS_NOW, F.hbaScrub_BUSY]
  | .hbaPoisonHead => [F.hbaPoisonHead_INDEX]
  | .hbaPoisonTail => [F.hbaPoisonTail_INDEX]
  | .hbaPoisonLost => [F.COUNT]
  | .hbaPoisonRec0 _ => [F.hbaPoisonRec0_PAGE, F.hbaPoisonRec0_TIER, F.hbaPoisonRec0_CHAN, F.hbaPoisonRec0_SCRUB]
  | .hbaPoisonRec1 _ => [F.hbaPoisonRec1_FRANK]
  | .lftEccCe => [F.COUNT]
  | .lftEccUe => [F.COUNT]
  | .lftScrub => [F.lftScrub_PERIOD_H, F.lftScrub_PASS_NOW, F.lftScrub_BUSY]
  | .soPortCtrl _ => [F.soPortCtrl_DISABLE, F.soPortCtrl_MIN_STRANDS_M1, F.soPortCtrl_HALF_ONLY, F.soPortCtrl_RESTORE, F.soPortCtrl_RETRAIN]
  | .soPortStatus _ => [F.soPortStatus_STATE, F.soPortStatus_STRANDS, F.soPortStatus_HALF, F.soPortStatus_BYPASS_HOP, F.soPortStatus_DARK]
  | .soPortPeer _ => [F.soPortPeer_PEER_CHIP, F.soPortPeer_PEER_PORT, F.soPortPeer_SKIP_COUNT, F.soPortPeer_VALID, F.soPortPeer_PEER_SERIAL_LOW]
  | .soPortEvents _ => [F.soPortEvents_LINK_DOWN, F.soPortEvents_STRAND_DROP, F.soPortEvents_RATE_HALF, F.soPortEvents_PEER_CHANGE, F.soPortEvents_TRAIN_FAIL, F.soPortEvents_RESTORE_FAIL]
  | .soPortLimits _ => [F.soPortLimits_UNCORR_LIMIT, F.soPortLimits_CORR_LOG2]
  | .soPortDisc _ => [F.soPortDisc_OUTCOME, F.soPortDisc_CAUSE, F.soPortDisc_CHANGED, F.soPortDisc_PEER_STAGE, F.soPortDisc_PEER_PLAN_GEN, F.soPortDisc_PEER_FW]
  | .soPortFecCorr _ => [F.COUNT]
  | .soPortFecUncorr _ => [F.COUNT]
  | .soPortDowns _ => [F.COUNT]
  | .soPortDrops _ => [F.COUNT]
  | .soPortSkipped _ => [F.COUNT]
  | .soPortArb _ => [F.soPortArb_TRANSIT_SHARE]
  | .soPortCreditErr _ => [F.COUNT]
  | .soPortFlitsThrough _ => [F.COUNT]
  | .soPortFlitsInjected _ => [F.COUNT]
  | .soPortDowndrop _ => [F.COUNT]
  | .soLaneStat _ _ => [F.soLaneStat_CORR, F.soLaneStat_UNCORR, F.soLaneStat_LOCK, F.soLaneStat_FAILED, F.soLaneStat_PEER_LANE, F.soLaneStat_POLARITY]
  | .soRtCtrl => [F.soRtCtrl_SRC_EPOCH, F.soRtCtrl_VALID0, F.soRtCtrl_VALID1]
  | .soEpochDrain => [F.soEpochDrain_DRAIN0, F.soEpochDrain_DRAIN1]
  | .soRtAxis _ _ => [F.soRtAxis_DIR, F.soRtAxis_LEN_M1, F.soRtAxis_SHAPE]
  | .soNocontext => [F.COUNT]
  | .soNoroute => [F.COUNT]
  | .soEpochStale => [F.COUNT]
  | .soDeadHcrc => [F.COUNT]
  | .soDeadBody => [F.COUNT]
  | .soRefusedFenced => [F.COUNT]
  | .soCtxFence => [F.soCtxFence_FENCE]
  | .soCtxResetting => [F.soCtxResetting_RESETTING]
  | .soPostCtrl => [F.soPostCtrl_TIMER_US, F.soPostCtrl_RETRIES]
  | .soPostRetrans => [F.COUNT]
  | .soPostDups => [F.COUNT]
  | .soPostStale => [F.COUNT]
  | .soPostFailed => [F.COUNT]
  | .soPostClears => [F.COUNT]
  | .soPostLate => [F.COUNT]
  | .soPostBroken => [F.COUNT]
  | .soPostWaitcyc => [F.COUNT]
  | .ceGrpCtrl _ _ => [F.ceGrpCtrl_VALID, F.ceGrpCtrl_SHAPE, F.ceGrpCtrl_DIR, F.ceGrpCtrl_POS, F.ceGrpCtrl_AXIS, F.ceGrpCtrl_LEN_M1, F.ceGrpCtrl_MODE, F.ceGrpCtrl_GFMT, F.ceGrpCtrl_WD]
  | .ceGrpTree _ _ => [F.ceGrpTree_PARENT_PORT, F.ceGrpTree_ROOT, F.ceGrpTree_CHILDREN]
  | .ceGrpStatus _ _ => [F.ceGrpStatus_STATE, F.ceGrpStatus_TAG, F.ceGrpStatus_MISMATCH, F.ceGrpStatus_FENCED_PEER, F.ceGrpStatus_WAIT_ON, F.ceGrpStatus_STEP]
  | .ceGrpPm0 _ _ => [F.ceGrpPm0_PM_A, F.ceGrpPm0_PM_B]
  | .ceGrpPm1 _ _ => [F.ceGrpPm1_PM_A, F.ceGrpPm1_PM_B]
  | .ceGrpNanrec _ _ => [F.ceGrpNanrec_POS_MASK, F.ceGrpNanrec_FIRST_POS, F.ceGrpNanrec_TAG, F.ceGrpNanrec_FIRST_ELEM, F.ceGrpNanrec_VALID]
  | .ceGrpNanelem _ _ => [F.COUNT]
  | .ceGrpEscal _ _ => [F.COUNT]
  | .ceGrpBlkuf _ _ => [F.COUNT]
  | .ceGrpClamp _ _ => [F.COUNT]
  | .ceGrpOverflow _ _ => [F.COUNT]
  | .ceGrpMismatch _ _ => [F.COUNT]
  | .ceGrpOps _ _ => [F.COUNT]
  | .ceGrpMember _ _ _ => [F.ceGrpMember_CHIP_A, F.ceGrpMember_CHIP_B, F.ceGrpMember_CHIP_C, F.ceGrpMember_CHIP_D]
  | .ceNogroup => [F.COUNT]
  | .cePoison => [F.COUNT]
  | .cePeerLost => [F.COUNT]
  | .hstQpCtrl _ => [F.hstQpCtrl_ENABLE, F.hstQpCtrl_CONTEXT, F.hstQpCtrl_STOP_ON_FAULT, F.hstQpCtrl_SQ_LOG2, F.hstQpCtrl_CQ_LOG2, F.hstQpCtrl_IRQ_COUNT, F.hstQpCtrl_IRQ_DELAY_US]
  | .hstQpSqBase _ => [F.hstQpSqBase_ADDR]
  | .hstQpCqBase _ => [F.hstQpCqBase_ADDR]
  | .hstQpAccAddr _ => [F.hstQpAccAddr_ADDR]
  | .hstQpSqTail _ => [F.hstQpSqTail_INDEX]
  | .hstQpCqHead _ => [F.hstQpCqHead_INDEX]
  | .hstQpStatus _ => [F.hstQpStatus_ACCEPTED, F.hstQpStatus_COMPLETED, F.hstQpStatus_STOPPED, F.hstQpStatus_FETCH_ERR, F.hstQpStatus_DRAINING]
  | .hstQpAbort _ => [F.hstQpAbort_INDEX, F.hstQpAbort_GO, F.hstQpAbort_BUSY, F.hstQpAbort_RESULT]
  | .clkYardCtrl _ => [F.clkYardCtrl_TARGET_MHZ, F.clkYardCtrl_IDLE_GATE, F.clkYardCtrl_HALT]
  | .clkYardStatus _ => [F.clkYardStatus_FREQ_MHZ, F.clkYardStatus_VOLT_MV, F.clkYardStatus_TEMP_C, F.clkYardStatus_LIMIT, F.clkYardStatus_GATED, F.clkYardStatus_STOPPED, F.clkYardStatus_STRETCHING]
  | .clkYardStretch _ => [F.COUNT]
  | .clkYardThrottle _ => [F.COUNT]
  | .clkFrNow => [F.clkFrNow_NS]
  | .clkFrFrac => [F.clkFrFrac_FRAC]
  | .clkFrStatus => [F.clkFrStatus_SYNC_STATE, F.clkFrStatus_PORTS, F.clkFrStatus_RATE_PS, F.clkFrStatus_LOCKED_MS]
  | .clkFrBadx => [F.COUNT]
  | .clkFrSteps => [F.COUNT]
  | .clkFrPort _ => [F.clkFrPort_OFFSET_PS, F.clkFrPort_DELAY_NS, F.clkFrPort_VALID, F.clkFrPort_PEER_LOCKED]
  | .clkFrAsym _ => [F.clkFrAsym_ASYM_PS]
  | .dbgLog _ _ _ => [F.dbgLog_WORD]
  | .dbgLogNext _ => [F.dbgLogNext_NEXT_SEQ]
  | .dbgTraceCtrl => [F.dbgTraceCtrl_ENABLE, F.dbgTraceCtrl_ARM, F.dbgTraceCtrl_TRIG_NOW, F.dbgTraceCtrl_SPILL, F.dbgTraceCtrl_LOSSLESS, F.dbgTraceCtrl_POST_EIGHTHS, F.dbgTraceCtrl_RATE]
  | .dbgTraceStatus => [F.dbgTraceStatus_WRITE_IDX, F.dbgTraceStatus_ARMED, F.dbgTraceStatus_TRIG_IDX, F.dbgTraceStatus_FROZEN]
  | .dbgTraceSpill => [F.dbgTraceSpill_SIZE_GIB, F.dbgTraceSpill_BASE]
  | .dbgTraceMark => [F.dbgTraceMark_VALUE]
  | .dbgTrigNet => [F.dbgTrigNet_SEND, F.dbgTrigNet_ACCEPT, F.dbgTrigNet_RADIUS]
  | .dbgTrig _ => [F.dbgTrig_UNIT, F.dbgTrig_ANY_UNIT, F.dbgTrig_KIND, F.dbgTrig_EN, F.dbgTrig_BYTE_EN, F.dbgTrig_MATCH]
  | .dbgTraceSrc _ => [F.dbgTraceSrc_MASK]
  | .dbgTraceBuf _ _ => [F.dbgTraceBuf_WORD]

/-- Chip physical address of a register. -/
def Reg.addr : Reg → Nat
  | .ptrPartId => 0xFF0000000010
  | .ptrStage => 0xff0000000100
  | .ptrStageCmd => 0xff0000000108
  | .ptrStartCtrl => 0xff0000000110
  | .ptrFwVersion => 0xff0000000118
  | .ptrStartTimes => 0xff0000000120
  | .ptrLockViolations => 0xff0000000128
  | .ptrPlanChip => 0xff0000000130
  | .ptrDisc => 0xff0000000138
  | .ptrPlanPeer p => 0xFF0000000140 + 8 * p.val
  | .ptrMemResult => 0xFF0000000180
  | .ptrRetiredIdx => 0xFF0000000188
  | .ptrRetiredData => 0xFF0000000190
  | .ptrBypass => 0xFF0000000200
  | .ptrBypassCount => 0xFF0000000208
  | .ptrResetRec => 0xff0000000300
  | .ptrEscStatus => 0xff0000000308
  | .ptrStallFenceLo => 0xff0000000310
  | .ptrStallFenceHi => 0xff0000000318
  | .ptrEscCtrl => 0xff0000000320
  | .ptrAonCtrl => 0xFF0000000400
  | .ptrPwrStatus => 0xff0000000500
  | .ptrPwrLimit => 0xff0000000508
  | .ptrThermCtrl => 0xff0000000510
  | .ptrThermStatus => 0xff0000000518
  | .ptrProtStatus => 0xff0000000520
  | .ptrAon i => 0xFF0000001000 + 8 * i.val
  | .ceAxisPlan c => 0xFF0000040000 + 8 * c.val
  | .stlSrSeed c => 0xFF0000060000 + 8 * c.val
  | .stlUpdTable c => 0xFF0000070000 + 0x20 * c.val + 0x0
  | .stlUpdSealed c => 0xFF0000070000 + 0x20 * c.val + 0x8
  | .stlUpdProgress c => 0xFF0000070000 + 0x20 * c.val + 0x10
  | .hstLinkStatus => 0xff0000080000
  | .hstBar2Win => 0xff0000080008
  | .hstBarErr => 0xff0000080010
  | .hstLoadRec0 c => 0xFF0000090000 + 0x10 * c.val
  | .hstLoadRec1 c => 0xFF0000090000 + 0x10 * c.val + 8
  | .hstXlatRoot c => 0xFF00000A0000 + 0x20 * c.val + 0x0
  | .hstXlatInval c => 0xFF00000A0000 + 0x20 * c.val + 0x8
  | .hstXlatFault c => 0xFF00000A0000 + 0x20 * c.val + 0x10
  | .hstXlatRefused c => 0xFF00000A0000 + 0x20 * c.val + 0x18
  | .hstCtxCtrl c => 0xFF00000C0000 + 0x20 * c.val + 0x0
  | .hstCtxStatus c => 0xFF00000C0000 + 0x20 * c.val + 0x8
  | .hstCtxPost c => 0xFF00000C0000 + 0x20 * c.val + 0x10
  | .hstCtxHang c => 0xFF00000E0000 + 0x40 * c.val + 0x0
  | .hstCtxCapt c => 0xFF00000E0000 + 0x40 * c.val + 0x8
  | .hstCtxResetRec c => 0xFF00000E0000 + 0x40 * c.val + 0x10
  | .hstCtxSuspects c => 0xFF00000E0000 + 0x40 * c.val + 0x18
  | .hstCtxSeal c => 0xFF00000E0000 + 0x40 * c.val + 0x20
  | .hstCtxSealState c => 0xFF00000E0000 + 0x40 * c.val + 0x28
  | .hstCtxMirror c => 0xFF00000E0000 + 0x40 * c.val + 0x30
  | .hstCtxSealCmd c => 0xFF00000E0000 + 0x40 * c.val + 0x38
  | .hstSolo => 0xFF00000E1000
  | .stbNwCtrl t => 0xFF0000200000 + 0x1000 * t.val + 0x0
  | .stbNwSamples t => 0xFF0000200000 + 0x1000 * t.val + 0x8
  | .stbNwSkipped t => 0xFF0000200000 + 0x1000 * t.val + 0x10
  | .stbNwMismatch t => 0xFF0000200000 + 0x1000 * t.val + 0x18
  | .stbNwUlpMax t => 0xFF0000200000 + 0x1000 * t.val + 0x20
  | .stbNwUlpSum t => 0xFF0000200000 + 0x1000 * t.val + 0x28
  | .stbNwUlpElems t => 0xFF0000200000 + 0x1000 * t.val + 0x30
  | .stbNwUlpOver t => 0xFF0000200000 + 0x1000 * t.val + 0x38
  | .stbNwHistA t i => 0xFF0000200000 + 0x1000 * t.val + 0x100 + 8 * i.val
  | .stbNwHistB t i => 0xFF0000200000 + 0x1000 * t.val + 0x200 + 8 * i.val
  | .stbNwHistC t i => 0xFF0000200000 + 0x1000 * t.val + 0x300 + 8 * i.val
  | .stbSramCe t => 0xFF0000200000 + 0x1000 * t.val + 0x800
  | .stbSramUe t => 0xFF0000200000 + 0x1000 * t.val + 0x808
  | .stbSramUeRec t => 0xFF0000200000 + 0x1000 * t.val + 0x810
  | .stbSramRsvd t => 0xFF0000200000 + 0x1000 * t.val + 0x818
  | .soSlotUnbound => 0xff0000420000
  | .soSlotOverrun => 0xff0000420008
  | .soSlotBadbind => 0xff0000420010
  | .soSlot j w => 0xFF0000400000 + 0x20 * j.val + 8 * w.val
  | .stlSeqState n => 0xFF0001000000 + 0x1000 * n.val + 0x0
  | .stlSeqRetired n => 0xFF0001000000 + 0x1000 * n.val + 0x8
  | .stlSeqCodewrite n => 0xFF0001000000 + 0x1000 * n.val + 0x10
  | .stlCvtOverflow n => 0xFF0001000000 + 0x1000 * n.val + 0x200
  | .stlCvtUnderflow n => 0xFF0001000000 + 0x1000 * n.val + 0x208
  | .stlCvtNanInt n => 0xFF0001000000 + 0x1000 * n.val + 0x210
  | .stlMxUnderflow n => 0xFF0001000000 + 0x1000 * n.val + 0x218
  | .stlMxClamp n => 0xFF0001000000 + 0x1000 * n.val + 0x220
  | .stlMmOverflow n => 0xFF0001000000 + 0x1000 * n.val + 0x300
  | .stlMmUnderflow n => 0xFF0001000000 + 0x1000 * n.val + 0x308
  | .stlMmSpill n => 0xFF0001000000 + 0x1000 * n.val + 0x310
  | .stlMmWrap n => 0xFF0001000000 + 0x1000 * n.val + 0x318
  | .stlMmRetired n => 0xFF0001000000 + 0x1000 * n.val + 0x320
  | .stlMmFault n => 0xFF0001000000 + 0x1000 * n.val + 0x328
  | .stlUpdTiles n => 0xFF0001000000 + 0x1000 * n.val + 0x400
  | .stlUpdStale n => 0xFF0001000000 + 0x1000 * n.val + 0x408
  | .stlUpdClipped n => 0xFF0001000000 + 0x1000 * n.val + 0x410
  | .stlUpdNonfinite n => 0xFF0001000000 + 0x1000 * n.val + 0x418
  | .stlUpdOutside n => 0xFF0001000000 + 0x1000 * n.val + 0x420
  | .stlUpdRepeat n => 0xFF0001000000 + 0x1000 * n.val + 0x428
  | .stlUpdSkipped n => 0xFF0001000000 + 0x1000 * n.val + 0x430
  | .stlSyncState n => 0xFF0001000000 + 0x1000 * n.val + 0x500
  | .stlSyncWaitcyc n => 0xFF0001000000 + 0x1000 * n.val + 0x508
  | .stlSyncFences n => 0xFF0001000000 + 0x1000 * n.val + 0x510
  | .stlSyncArrivals n => 0xFF0001000000 + 0x1000 * n.val + 0x518
  | .stlSramCe n => 0xFF0001000000 + 0x1000 * n.val + 0x700
  | .stlSramUe n => 0xFF0001000000 + 0x1000 * n.val + 0x708
  | .stlSramUeRec n => 0xFF0001000000 + 0x1000 * n.val + 0x710
  | .stlTally n i => 0xFF0001000000 + 0x1000 * n.val + 0x600 + 8 * i.val
  | .hbaStatus k => 0xFF0002000000 + 0x10000 * k.val + 0x0
  | .hbaEccCe k => 0xFF0002000000 + 0x10000 * k.val + 0x8
  | .hbaEccUe k => 0xFF0002000000 + 0x10000 * k.val + 0x10
  | .hbaThrottleCyc k => 0xFF0002000000 + 0x10000 * k.val + 0x18
  | .hbaScrub k => 0xFF0002000000 + 0x10000 * k.val + 0x20
  | .hbaPoisonHead => 0xFF0002100000
  | .hbaPoisonTail => 0xFF0002100008
  | .hbaPoisonLost => 0xFF0002100010
  | .hbaPoisonRec0 i => 0xFF0002100100 + 0x10 * i.val
  | .hbaPoisonRec1 i => 0xFF0002100100 + 0x10 * i.val + 8
  | .lftEccCe => 0xFF0003000008
  | .lftEccUe => 0xFF0003000010
  | .lftScrub => 0xFF0003000020
  | .soPortCtrl p => 0xFF0004000000 + 0x1000 * p.val + 0x0
  | .soPortStatus p => 0xFF0004000000 + 0x1000 * p.val + 0x8
  | .soPortPeer p => 0xFF0004000000 + 0x1000 * p.val + 0x10
  | .soPortEvents p => 0xFF0004000000 + 0x1000 * p.val + 0x18
  | .soPortLimits p => 0xFF0004000000 + 0x1000 * p.val + 0x20
  | .soPortDisc p => 0xFF0004000000 + 0x1000 * p.val + 0x28
  | .soPortFecCorr p => 0xFF0004000000 + 0x1000 * p.val + 0x40
  | .soPortFecUncorr p => 0xFF0004000000 + 0x1000 * p.val + 0x48
  | .soPortDowns p => 0xFF0004000000 + 0x1000 * p.val + 0x50
  | .soPortDrops p => 0xFF0004000000 + 0x1000 * p.val + 0x58
  | .soPortSkipped p => 0xFF0004000000 + 0x1000 * p.val + 0x60
  | .soPortArb p => 0xFF0004000000 + 0x1000 * p.val + 0x100
  | .soPortCreditErr p => 0xFF0004000000 + 0x1000 * p.val + 0x108
  | .soPortFlitsThrough p => 0xFF0004000000 + 0x1000 * p.val + 0x110
  | .soPortFlitsInjected p => 0xFF0004000000 + 0x1000 * p.val + 0x118
  | .soPortDowndrop p => 0xFF0004000000 + 0x1000 * p.val + 0x120
  | .soLaneStat p l => 0xFF0004000000 + 0x1000 * p.val + 0x800 + 8 * l.val
  | .soRtCtrl => 0xff0004100000
  | .soEpochDrain => 0xff0004100008
  | .soRtAxis v a => 0xff0004100100 + 0x20 * v.val + 8 * a.val
  | .soNocontext => 0xff0004100200
  | .soNoroute => 0xff0004100208
  | .soEpochStale => 0xff0004100210
  | .soDeadHcrc => 0xff0004100218
  | .soDeadBody => 0xff0004100220
  | .soRefusedFenced => 0xff0004100228
  | .soCtxFence => 0xff0004100300
  | .soCtxResetting => 0xff0004100308
  | .soPostCtrl => 0xff0004200000
  | .soPostRetrans => 0xff0004200008
  | .soPostDups => 0xff0004200010
  | .soPostStale => 0xff0004200018
  | .soPostFailed => 0xff0004200020
  | .soPostClears => 0xff0004200028
  | .soPostLate => 0xff0004200030
  | .soPostBroken => 0xff0004200038
  | .soPostWaitcyc => 0xff0004200040
  | .ceGrpCtrl c g => 0xFF0005000000 + 0x100 * (4 * c.val + g.val) + 0x0
  | .ceGrpTree c g => 0xFF0005000000 + 0x100 * (4 * c.val + g.val) + 0x8
  | .ceGrpStatus c g => 0xFF0005000000 + 0x100 * (4 * c.val + g.val) + 0x30
  | .ceGrpPm0 c g => 0xFF0005000000 + 0x100 * (4 * c.val + g.val) + 0x38
  | .ceGrpPm1 c g => 0xFF0005000000 + 0x100 * (4 * c.val + g.val) + 0x40
  | .ceGrpNanrec c g => 0xFF0005000000 + 0x100 * (4 * c.val + g.val) + 0x48
  | .ceGrpNanelem c g => 0xFF0005000000 + 0x100 * (4 * c.val + g.val) + 0x50
  | .ceGrpEscal c g => 0xFF0005000000 + 0x100 * (4 * c.val + g.val) + 0x58
  | .ceGrpBlkuf c g => 0xFF0005000000 + 0x100 * (4 * c.val + g.val) + 0x60
  | .ceGrpClamp c g => 0xFF0005000000 + 0x100 * (4 * c.val + g.val) + 0x68
  | .ceGrpOverflow c g => 0xFF0005000000 + 0x100 * (4 * c.val + g.val) + 0x70
  | .ceGrpMismatch c g => 0xFF0005000000 + 0x100 * (4 * c.val + g.val) + 0x78
  | .ceGrpOps c g => 0xFF0005000000 + 0x100 * (4 * c.val + g.val) + 0x80
  | .ceGrpMember c g r => 0xFF0005000000 + 0x100 * (4 * c.val + g.val) + 0x10 + 8 * r.val
  | .ceNogroup => 0xff0005010000
  | .cePoison => 0xff0005010008
  | .cePeerLost => 0xff0005010010
  | .hstQpCtrl q => 0xFF0006000000 + 0x100 * q.val + 0x0
  | .hstQpSqBase q => 0xFF0006000000 + 0x100 * q.val + 0x8
  | .hstQpCqBase q => 0xFF0006000000 + 0x100 * q.val + 0x10
  | .hstQpAccAddr q => 0xFF0006000000 + 0x100 * q.val + 0x18
  | .hstQpSqTail q => 0xFF0006000000 + 0x100 * q.val + 0x20
  | .hstQpCqHead q => 0xFF0006000000 + 0x100 * q.val + 0x28
  | .hstQpStatus q => 0xFF0006000000 + 0x100 * q.val + 0x30
  | .hstQpAbort q => 0xFF0006000000 + 0x100 * q.val + 0x38
  | .clkYardCtrl y => 0xFF0007000000 + 0x100 * y.val + 0x0
  | .clkYardStatus y => 0xFF0007000000 + 0x100 * y.val + 0x8
  | .clkYardStretch y => 0xFF0007000000 + 0x100 * y.val + 0x10
  | .clkYardThrottle y => 0xFF0007000000 + 0x100 * y.val + 0x18
  | .clkFrNow => 0xff0007001000
  | .clkFrFrac => 0xff0007001008
  | .clkFrStatus => 0xff0007001010
  | .clkFrBadx => 0xff0007001018
  | .clkFrSteps => 0xff0007001020
  | .clkFrPort p => 0xFF0007001100 + 0x10 * p.val
  | .clkFrAsym p => 0xFF0007001108 + 0x10 * p.val
  | .dbgLog u i w => 0xFF0008000000 + 0x2000 * u.val + 32 * i.val + 8 * w.val
  | .dbgLogNext u => 0xFF0008800000 + 8 * u.val
  | .dbgTraceCtrl => 0xff0009000000
  | .dbgTraceStatus => 0xff0009000008
  | .dbgTraceSpill => 0xff0009000010
  | .dbgTraceMark => 0xff0009000018
  | .dbgTrigNet => 0xff0009000040
  | .dbgTrig m => 0xFF0009000020 + 8 * m.val
  | .dbgTraceSrc u => 0xFF0009001000 + 8 * u.val
  | .dbgTraceBuf i w => 0xFF000A000000 + 32 * i.val + 8 * w.val

/-- Which reset governs a register (R10): the porter's registers keep their values across a die reset; the
logbook registers are reset only when main power is removed (R414). -/
inductive Domain where
  | porter | die | log
  deriving DecidableEq, Repr

def Reg.domain : Reg → Domain
  | .ptrPartId => .porter
  | .ptrStage => .porter
  | .ptrStageCmd => .porter
  | .ptrStartCtrl => .porter
  | .ptrFwVersion => .porter
  | .ptrStartTimes => .porter
  | .ptrLockViolations => .porter
  | .ptrPlanChip => .porter
  | .ptrDisc => .porter
  | .ptrPlanPeer _ => .porter
  | .ptrMemResult => .porter
  | .ptrRetiredIdx => .porter
  | .ptrRetiredData => .porter
  | .ptrBypass => .porter
  | .ptrBypassCount => .porter
  | .ptrResetRec => .porter
  | .ptrEscStatus => .porter
  | .ptrStallFenceLo => .porter
  | .ptrStallFenceHi => .porter
  | .ptrEscCtrl => .porter
  | .ptrAonCtrl => .porter
  | .ptrPwrStatus => .porter
  | .ptrPwrLimit => .porter
  | .ptrThermCtrl => .porter
  | .ptrThermStatus => .porter
  | .ptrProtStatus => .porter
  | .ptrAon _ => .porter
  | .dbgLog _ _ _ => .log
  | .dbgLogNext _ => .log
  | _ => .die

/-- The always-on counter that mirrors a counter register (R408). -/
def Reg.aon : Reg → Option Nat
  | .ptrLockViolations => some (371)
  | .hstXlatRefused _ => some (161)
  | .stbNwSamples _ => some (105)
  | .stbNwSkipped _ => some (106)
  | .stbNwMismatch _ => some (107)
  | .stbNwUlpOver _ => some (108)
  | .stbSramCe _ => some (156)
  | .stbSramUe _ => some (157)
  | .stbSramRsvd _ => some (158)
  | .soSlotUnbound => some (326)
  | .soSlotOverrun => some (327)
  | .soSlotBadbind => some (328)
  | .stlSeqRetired _ => some (82)
  | .stlCvtOverflow _ => some (96)
  | .stlCvtUnderflow _ => some (97)
  | .stlCvtNanInt _ => some (98)
  | .stlMxUnderflow _ => some (99)
  | .stlMxClamp _ => some (100)
  | .stlMmOverflow _ => some (101)
  | .stlMmUnderflow _ => some (102)
  | .stlMmSpill _ => some (103)
  | .stlMmWrap _ => some (104)
  | .stlUpdTiles _ => some (83)
  | .stlUpdStale _ => some (109)
  | .stlUpdClipped _ => some (110)
  | .stlUpdNonfinite _ => some (111)
  | .stlUpdOutside _ => some (112)
  | .stlUpdRepeat _ => some (113)
  | .stlUpdSkipped _ => some (114)
  | .stlSyncWaitcyc _ => some (121)
  | .stlSramCe _ => some (154)
  | .stlSramUe _ => some (155)
  | .hbaEccCe k => some (128 + k.val)
  | .hbaEccUe k => some (136 + k.val)
  | .hbaThrottleCyc k => some (144 + k.val)
  | .hbaPoisonLost => some (159)
  | .lftEccCe => some (152)
  | .lftEccUe => some (153)
  | .soPortFecCorr p => some (192 + 16 * p.val)
  | .soPortFecUncorr p => some (193 + 16 * p.val)
  | .soPortDowns p => some (194 + 16 * p.val)
  | .soPortDrops p => some (195 + 16 * p.val)
  | .soPortSkipped p => some (196 + 16 * p.val)
  | .soPortCreditErr p => some (198 + 16 * p.val)
  | .soPortFlitsThrough p => some (199 + 16 * p.val)
  | .soPortFlitsInjected p => some (200 + 16 * p.val)
  | .soPortDowndrop p => some (197 + 16 * p.val)
  | .soNocontext => some (325)
  | .soNoroute => some (320)
  | .soEpochStale => some (321)
  | .soDeadHcrc => some (322)
  | .soDeadBody => some (323)
  | .soRefusedFenced => some (324)
  | .soPostRetrans => some (329)
  | .soPostDups => some (330)
  | .soPostStale => some (331)
  | .soPostFailed => some (332)
  | .soPostClears => some (333)
  | .soPostLate => some (334)
  | .soPostBroken => some (335)
  | .soPostWaitcyc => some (336)
  | .ceGrpNanelem _ _ => some (119)
  | .ceGrpEscal _ _ => some (115)
  | .ceGrpBlkuf _ _ => some (116)
  | .ceGrpClamp _ _ => some (117)
  | .ceGrpOverflow _ _ => some (118)
  | .ceGrpMismatch _ _ => some (338)
  | .ceGrpOps _ _ => some (84)
  | .ceNogroup => some (337)
  | .cePoison => some (120)
  | .cePeerLost => some (339)
  | .clkYardStretch y => some (384 + 4 * y.val)
  | .clkYardThrottle y => some (385 + 4 * y.val)
  | .clkFrSteps => some (401)
  | _ => none

/-- The value of a register's Reset column. SERIAL_LOW of PTR_PART_ID is per module (R2): a free constant. -/
def Reg.reset (r : Reg) : BitVec 64 :=
  let v := BitVec.ofNat 64 ((r.fields.map fun f => f.rst * 2 ^ f.lo).foldl (· + ·) 0)
  match r with
  | .ptrPartId => v ||| (Config.serialLow.setWidth 64 <<< 32)
  | _ => v

/-- Address decode of the block at 0xff0000000000. -/
def Reg.ofAddrPorter (a : Nat) : Option Reg :=
  let r := a - 0xff0000000000
  if r = 0x10 then some (.ptrPartId) else
  if r = 0x100 then some (.ptrStage) else
  if r = 0x108 then some (.ptrStageCmd) else
  if r = 0x110 then some (.ptrStartCtrl) else
  if r = 0x118 then some (.ptrFwVersion) else
  if r = 0x120 then some (.ptrStartTimes) else
  if r = 0x128 then some (.ptrLockViolations) else
  if r = 0x130 then some (.ptrPlanChip) else
  if r = 0x138 then some (.ptrDisc) else
  if r = 0x180 then some (.ptrMemResult) else
  if r = 0x188 then some (.ptrRetiredIdx) else
  if r = 0x190 then some (.ptrRetiredData) else
  if r = 0x200 then some (.ptrBypass) else
  if r = 0x208 then some (.ptrBypassCount) else
  if r = 0x300 then some (.ptrResetRec) else
  if r = 0x308 then some (.ptrEscStatus) else
  if r = 0x310 then some (.ptrStallFenceLo) else
  if r = 0x318 then some (.ptrStallFenceHi) else
  if r = 0x320 then some (.ptrEscCtrl) else
  if r = 0x400 then some (.ptrAonCtrl) else
  if r = 0x500 then some (.ptrPwrStatus) else
  if r = 0x508 then some (.ptrPwrLimit) else
  if r = 0x510 then some (.ptrThermCtrl) else
  if r = 0x518 then some (.ptrThermStatus) else
  if r = 0x520 then some (.ptrProtStatus) else
  if h : 0x140 ≤ r ∧ (r - 0x140) % 0x8 = 0 ∧ (r - 0x140) / 0x8 < 8 then
    some (.ptrPlanPeer ⟨(r - 0x140) / 0x8, h.2.2⟩) else
  if h : 0x1000 ≤ r ∧ (r - 0x1000) % 0x8 = 0 ∧ (r - 0x1000) / 0x8 < 512 then
    some (.ptrAon ⟨(r - 0x1000) / 0x8, h.2.2⟩) else
  none

/-- Address decode of the block at 0xff0000040000. -/
def Reg.ofAddrAxisPlan (a : Nat) : Option Reg :=
  let o := a - 0xff0000040000
  if hc : o / 0x8 < 64 then
    let c : Fin 64 := ⟨o / 0x8, hc⟩
    let r := o % 0x8
    if r = 0x0 then some (.ceAxisPlan c) else
    none
  else none

/-- Address decode of the block at 0xff0000060000. -/
def Reg.ofAddrSeed (a : Nat) : Option Reg :=
  let o := a - 0xff0000060000
  if hc : o / 0x8 < 64 then
    let c : Fin 64 := ⟨o / 0x8, hc⟩
    let r := o % 0x8
    if r = 0x0 then some (.stlSrSeed c) else
    none
  else none

/-- Address decode of the block at 0xff0000070000. -/
def Reg.ofAddrUpd (a : Nat) : Option Reg :=
  let o := a - 0xff0000070000
  if hc : o / 0x20 < 64 then
    let c : Fin 64 := ⟨o / 0x20, hc⟩
    let r := o % 0x20
    if r = 0x0 then some (.stlUpdTable c) else
    if r = 0x8 then some (.stlUpdSealed c) else
    if r = 0x10 then some (.stlUpdProgress c) else
    none
  else none

/-- Address decode of the block at 0xff0000080000. -/
def Reg.ofAddrLink (a : Nat) : Option Reg :=
  let r := a - 0xff0000080000
  if r = 0x0 then some (.hstLinkStatus) else
  if r = 0x8 then some (.hstBar2Win) else
  if r = 0x10 then some (.hstBarErr) else
  none

/-- Address decode of the block at 0xff0000090000. -/
def Reg.ofAddrLoad (a : Nat) : Option Reg :=
  let o := a - 0xff0000090000
  if hc : o / 0x10 < 64 then
    let c : Fin 64 := ⟨o / 0x10, hc⟩
    let r := o % 0x10
    if r = 0x0 then some (.hstLoadRec0 c) else
    if r = 0x8 then some (.hstLoadRec1 c) else
    none
  else none

/-- Address decode of the block at 0xff00000a0000. -/
def Reg.ofAddrXlat (a : Nat) : Option Reg :=
  let o := a - 0xff00000a0000
  if hc : o / 0x20 < 64 then
    let c : Fin 64 := ⟨o / 0x20, hc⟩
    let r := o % 0x20
    if r = 0x0 then some (.hstXlatRoot c) else
    if r = 0x8 then some (.hstXlatInval c) else
    if r = 0x10 then some (.hstXlatFault c) else
    if r = 0x18 then some (.hstXlatRefused c) else
    none
  else none

/-- Address decode of the block at 0xff00000c0000. -/
def Reg.ofAddrCtx (a : Nat) : Option Reg :=
  let o := a - 0xff00000c0000
  if hc : o / 0x20 < 64 then
    let c : Fin 64 := ⟨o / 0x20, hc⟩
    let r := o % 0x20
    if r = 0x0 then some (.hstCtxCtrl c) else
    if r = 0x8 then some (.hstCtxStatus c) else
    if r = 0x10 then some (.hstCtxPost c) else
    none
  else none

/-- Address decode of the block at 0xff00000e0000. -/
def Reg.ofAddrRecov (a : Nat) : Option Reg :=
  let o := a - 0xff00000e0000
  if hc : o / 0x40 < 64 then
    let c : Fin 64 := ⟨o / 0x40, hc⟩
    let r := o % 0x40
    if r = 0x0 then some (.hstCtxHang c) else
    if r = 0x8 then some (.hstCtxCapt c) else
    if r = 0x10 then some (.hstCtxResetRec c) else
    if r = 0x18 then some (.hstCtxSuspects c) else
    if r = 0x20 then some (.hstCtxSeal c) else
    if r = 0x28 then some (.hstCtxSealState c) else
    if r = 0x30 then some (.hstCtxMirror c) else
    if r = 0x38 then some (.hstCtxSealCmd c) else
    none
  else none

/-- Address decode of the block at 0xff00000e1000. -/
def Reg.ofAddrSolo (a : Nat) : Option Reg :=
  let r := a - 0xff00000e1000
  if r = 0x0 then some (.hstSolo) else
  none

/-- Address decode of the block at 0xff0000200000. -/
def Reg.ofAddrStable (a : Nat) : Option Reg :=
  let o := a - 0xff0000200000
  if ht : o / 0x1000 < 16 then
    let t : Fin 16 := ⟨o / 0x1000, ht⟩
    let r := o % 0x1000
    if r = 0x0 then some (.stbNwCtrl t) else
    if r = 0x8 then some (.stbNwSamples t) else
    if r = 0x10 then some (.stbNwSkipped t) else
    if r = 0x18 then some (.stbNwMismatch t) else
    if r = 0x20 then some (.stbNwUlpMax t) else
    if r = 0x28 then some (.stbNwUlpSum t) else
    if r = 0x30 then some (.stbNwUlpElems t) else
    if r = 0x38 then some (.stbNwUlpOver t) else
    if r = 0x800 then some (.stbSramCe t) else
    if r = 0x808 then some (.stbSramUe t) else
    if r = 0x810 then some (.stbSramUeRec t) else
    if r = 0x818 then some (.stbSramRsvd t) else
    if h : 0x100 ≤ r ∧ (r - 0x100) % 0x8 = 0 ∧ (r - 0x100) / 0x8 < 32 then
      some (.stbNwHistA t ⟨(r - 0x100) / 0x8, h.2.2⟩) else
    if h : 0x200 ≤ r ∧ (r - 0x200) % 0x8 = 0 ∧ (r - 0x200) / 0x8 < 32 then
      some (.stbNwHistB t ⟨(r - 0x200) / 0x8, h.2.2⟩) else
    if h : 0x300 ≤ r ∧ (r - 0x300) % 0x8 = 0 ∧ (r - 0x300) / 0x8 < 32 then
      some (.stbNwHistC t ⟨(r - 0x300) / 0x8, h.2.2⟩) else
    none
  else none

/-- Address decode of the block at 0xff0000400000. -/
def Reg.ofAddrSlot (a : Nat) : Option Reg :=
  let o := a - 0xff0000400000
  if hj : o / 0x20 < 4096 then
    let j : Fin 4096 := ⟨o / 0x20, hj⟩
    let r := o % 0x20
    if h : 0x0 ≤ r ∧ (r - 0x0) % 0x8 = 0 ∧ (r - 0x0) / 0x8 < 4 then
      some (.soSlot j ⟨(r - 0x0) / 0x8, h.2.2⟩) else
    none
  else none

/-- Address decode of the block at 0xff0000420000. -/
def Reg.ofAddrSlotCnt (a : Nat) : Option Reg :=
  let r := a - 0xff0000420000
  if r = 0x0 then some (.soSlotUnbound) else
  if r = 0x8 then some (.soSlotOverrun) else
  if r = 0x10 then some (.soSlotBadbind) else
  none

/-- Address decode of the block at 0xff0001000000. -/
def Reg.ofAddrStall (a : Nat) : Option Reg :=
  let o := a - 0xff0001000000
  if hn : o / 0x1000 < 128 then
    let n : Fin 128 := ⟨o / 0x1000, hn⟩
    let r := o % 0x1000
    if r = 0x0 then some (.stlSeqState n) else
    if r = 0x8 then some (.stlSeqRetired n) else
    if r = 0x10 then some (.stlSeqCodewrite n) else
    if r = 0x200 then some (.stlCvtOverflow n) else
    if r = 0x208 then some (.stlCvtUnderflow n) else
    if r = 0x210 then some (.stlCvtNanInt n) else
    if r = 0x218 then some (.stlMxUnderflow n) else
    if r = 0x220 then some (.stlMxClamp n) else
    if r = 0x300 then some (.stlMmOverflow n) else
    if r = 0x308 then some (.stlMmUnderflow n) else
    if r = 0x310 then some (.stlMmSpill n) else
    if r = 0x318 then some (.stlMmWrap n) else
    if r = 0x320 then some (.stlMmRetired n) else
    if r = 0x328 then some (.stlMmFault n) else
    if r = 0x400 then some (.stlUpdTiles n) else
    if r = 0x408 then some (.stlUpdStale n) else
    if r = 0x410 then some (.stlUpdClipped n) else
    if r = 0x418 then some (.stlUpdNonfinite n) else
    if r = 0x420 then some (.stlUpdOutside n) else
    if r = 0x428 then some (.stlUpdRepeat n) else
    if r = 0x430 then some (.stlUpdSkipped n) else
    if r = 0x500 then some (.stlSyncState n) else
    if r = 0x508 then some (.stlSyncWaitcyc n) else
    if r = 0x510 then some (.stlSyncFences n) else
    if r = 0x518 then some (.stlSyncArrivals n) else
    if r = 0x700 then some (.stlSramCe n) else
    if r = 0x708 then some (.stlSramUe n) else
    if r = 0x710 then some (.stlSramUeRec n) else
    if h : 0x600 ≤ r ∧ (r - 0x600) % 0x8 = 0 ∧ (r - 0x600) / 0x8 < 32 then
      some (.stlTally n ⟨(r - 0x600) / 0x8, h.2.2⟩) else
    none
  else none

/-- Address decode of the block at 0xff0002000000. -/
def Reg.ofAddrHbm (a : Nat) : Option Reg :=
  let o := a - 0xff0002000000
  if hk : o / 0x10000 < 8 then
    let k : Fin 8 := ⟨o / 0x10000, hk⟩
    let r := o % 0x10000
    if r = 0x0 then some (.hbaStatus k) else
    if r = 0x8 then some (.hbaEccCe k) else
    if r = 0x10 then some (.hbaEccUe k) else
    if r = 0x18 then some (.hbaThrottleCyc k) else
    if r = 0x20 then some (.hbaScrub k) else
    none
  else none

/-- Address decode of the block at 0xff0002100000. -/
def Reg.ofAddrPoison (a : Nat) : Option Reg :=
  let r := a - 0xff0002100000
  if r = 0x0 then some (.hbaPoisonHead) else
  if r = 0x8 then some (.hbaPoisonTail) else
  if r = 0x10 then some (.hbaPoisonLost) else
  if h : 0x100 ≤ r ∧ (r - 0x100) % 0x10 = 0 ∧ (r - 0x100) / 0x10 < 64 then
    some (.hbaPoisonRec0 ⟨(r - 0x100) / 0x10, h.2.2⟩) else
  if h : 0x108 ≤ r ∧ (r - 0x108) % 0x10 = 0 ∧ (r - 0x108) / 0x10 < 64 then
    some (.hbaPoisonRec1 ⟨(r - 0x108) / 0x10, h.2.2⟩) else
  none

/-- Address decode of the block at 0xff0003000000. -/
def Reg.ofAddrLoft (a : Nat) : Option Reg :=
  let r := a - 0xff0003000000
  if r = 0x8 then some (.lftEccCe) else
  if r = 0x10 then some (.lftEccUe) else
  if r = 0x20 then some (.lftScrub) else
  none

/-- Address decode of the block at 0xff0004000000. -/
def Reg.ofAddrPort (a : Nat) : Option Reg :=
  let o := a - 0xff0004000000
  if hp : o / 0x1000 < 8 then
    let p : Fin 8 := ⟨o / 0x1000, hp⟩
    let r := o % 0x1000
    if r = 0x0 then some (.soPortCtrl p) else
    if r = 0x8 then some (.soPortStatus p) else
    if r = 0x10 then some (.soPortPeer p) else
    if r = 0x18 then some (.soPortEvents p) else
    if r = 0x20 then some (.soPortLimits p) else
    if r = 0x28 then some (.soPortDisc p) else
    if r = 0x40 then some (.soPortFecCorr p) else
    if r = 0x48 then some (.soPortFecUncorr p) else
    if r = 0x50 then some (.soPortDowns p) else
    if r = 0x58 then some (.soPortDrops p) else
    if r = 0x60 then some (.soPortSkipped p) else
    if r = 0x100 then some (.soPortArb p) else
    if r = 0x108 then some (.soPortCreditErr p) else
    if r = 0x110 then some (.soPortFlitsThrough p) else
    if r = 0x118 then some (.soPortFlitsInjected p) else
    if r = 0x120 then some (.soPortDowndrop p) else
    if h : 0x800 ≤ r ∧ (r - 0x800) % 0x8 = 0 ∧ (r - 0x800) / 0x8 < 48 then
      some (.soLaneStat p ⟨(r - 0x800) / 0x8, h.2.2⟩) else
    none
  else none

/-- Address decode of the block at 0xff0004100000. -/
def Reg.ofAddrRoute (a : Nat) : Option Reg :=
  let r := a - 0xff0004100000
  if r = 0x0 then some (.soRtCtrl) else
  if r = 0x8 then some (.soEpochDrain) else
  if r = 0x200 then some (.soNocontext) else
  if r = 0x208 then some (.soNoroute) else
  if r = 0x210 then some (.soEpochStale) else
  if r = 0x218 then some (.soDeadHcrc) else
  if r = 0x220 then some (.soDeadBody) else
  if r = 0x228 then some (.soRefusedFenced) else
  if r = 0x300 then some (.soCtxFence) else
  if r = 0x308 then some (.soCtxResetting) else
  if h : 0x100 ≤ r ∧ (r - 0x100) / 0x20 < 2 ∧ (r - 0x100) % 0x20 / 0x8 < 4 ∧ (r - 0x100) % 0x8 = 0 then
    some (.soRtAxis ⟨(r - 0x100) / 0x20, h.2.1⟩ ⟨(r - 0x100) % 0x20 / 0x8, h.2.2.1⟩) else
  none

/-- Address decode of the block at 0xff0004200000. -/
def Reg.ofAddrPost (a : Nat) : Option Reg :=
  let r := a - 0xff0004200000
  if r = 0x0 then some (.soPostCtrl) else
  if r = 0x8 then some (.soPostRetrans) else
  if r = 0x10 then some (.soPostDups) else
  if r = 0x18 then some (.soPostStale) else
  if r = 0x20 then some (.soPostFailed) else
  if r = 0x28 then some (.soPostClears) else
  if r = 0x30 then some (.soPostLate) else
  if r = 0x38 then some (.soPostBroken) else
  if r = 0x40 then some (.soPostWaitcyc) else
  none

/-- Address decode of the block at 0xff0005000000. -/
def Reg.ofAddrGroup (a : Nat) : Option Reg :=
  let o := a - 0xff0005000000
  if hc : o / 0x400 < 64 then
    let c : Fin 64 := ⟨o / 0x400, hc⟩
    let r := o % 0x400
    if h : 0x0 ≤ r ∧ (r - 0x0) % 0x100 = 0 ∧ (r - 0x0) / 0x100 < 4 then
      some (.ceGrpCtrl c ⟨(r - 0x0) / 0x100, h.2.2⟩) else
    if h : 0x8 ≤ r ∧ (r - 0x8) % 0x100 = 0 ∧ (r - 0x8) / 0x100 < 4 then
      some (.ceGrpTree c ⟨(r - 0x8) / 0x100, h.2.2⟩) else
    if h : 0x10 ≤ r ∧ (r - 0x10) / 0x100 < 4 ∧ (r - 0x10) % 0x100 / 0x8 < 4 ∧ (r - 0x10) % 0x8 = 0 then
      some (.ceGrpMember c ⟨(r - 0x10) / 0x100, h.2.1⟩ ⟨(r - 0x10) % 0x100 / 0x8, h.2.2.1⟩) else
    if h : 0x30 ≤ r ∧ (r - 0x30) % 0x100 = 0 ∧ (r - 0x30) / 0x100 < 4 then
      some (.ceGrpStatus c ⟨(r - 0x30) / 0x100, h.2.2⟩) else
    if h : 0x38 ≤ r ∧ (r - 0x38) % 0x100 = 0 ∧ (r - 0x38) / 0x100 < 4 then
      some (.ceGrpPm0 c ⟨(r - 0x38) / 0x100, h.2.2⟩) else
    if h : 0x40 ≤ r ∧ (r - 0x40) % 0x100 = 0 ∧ (r - 0x40) / 0x100 < 4 then
      some (.ceGrpPm1 c ⟨(r - 0x40) / 0x100, h.2.2⟩) else
    if h : 0x48 ≤ r ∧ (r - 0x48) % 0x100 = 0 ∧ (r - 0x48) / 0x100 < 4 then
      some (.ceGrpNanrec c ⟨(r - 0x48) / 0x100, h.2.2⟩) else
    if h : 0x50 ≤ r ∧ (r - 0x50) % 0x100 = 0 ∧ (r - 0x50) / 0x100 < 4 then
      some (.ceGrpNanelem c ⟨(r - 0x50) / 0x100, h.2.2⟩) else
    if h : 0x58 ≤ r ∧ (r - 0x58) % 0x100 = 0 ∧ (r - 0x58) / 0x100 < 4 then
      some (.ceGrpEscal c ⟨(r - 0x58) / 0x100, h.2.2⟩) else
    if h : 0x60 ≤ r ∧ (r - 0x60) % 0x100 = 0 ∧ (r - 0x60) / 0x100 < 4 then
      some (.ceGrpBlkuf c ⟨(r - 0x60) / 0x100, h.2.2⟩) else
    if h : 0x68 ≤ r ∧ (r - 0x68) % 0x100 = 0 ∧ (r - 0x68) / 0x100 < 4 then
      some (.ceGrpClamp c ⟨(r - 0x68) / 0x100, h.2.2⟩) else
    if h : 0x70 ≤ r ∧ (r - 0x70) % 0x100 = 0 ∧ (r - 0x70) / 0x100 < 4 then
      some (.ceGrpOverflow c ⟨(r - 0x70) / 0x100, h.2.2⟩) else
    if h : 0x78 ≤ r ∧ (r - 0x78) % 0x100 = 0 ∧ (r - 0x78) / 0x100 < 4 then
      some (.ceGrpMismatch c ⟨(r - 0x78) / 0x100, h.2.2⟩) else
    if h : 0x80 ≤ r ∧ (r - 0x80) % 0x100 = 0 ∧ (r - 0x80) / 0x100 < 4 then
      some (.ceGrpOps c ⟨(r - 0x80) / 0x100, h.2.2⟩) else
    none
  else none

/-- Address decode of the block at 0xff0005010000. -/
def Reg.ofAddrCeChip (a : Nat) : Option Reg :=
  let r := a - 0xff0005010000
  if r = 0x0 then some (.ceNogroup) else
  if r = 0x8 then some (.cePoison) else
  if r = 0x10 then some (.cePeerLost) else
  none

/-- Address decode of the block at 0xff0006000000. -/
def Reg.ofAddrQp (a : Nat) : Option Reg :=
  let o := a - 0xff0006000000
  if hq : o / 0x100 < 256 then
    let q : Fin 256 := ⟨o / 0x100, hq⟩
    let r := o % 0x100
    if r = 0x0 then some (.hstQpCtrl q) else
    if r = 0x8 then some (.hstQpSqBase q) else
    if r = 0x10 then some (.hstQpCqBase q) else
    if r = 0x18 then some (.hstQpAccAddr q) else
    if r = 0x20 then some (.hstQpSqTail q) else
    if r = 0x28 then some (.hstQpCqHead q) else
    if r = 0x30 then some (.hstQpStatus q) else
    if r = 0x38 then some (.hstQpAbort q) else
    none
  else none

/-- Address decode of the block at 0xff0007000000. -/
def Reg.ofAddrYard (a : Nat) : Option Reg :=
  let o := a - 0xff0007000000
  if hy : o / 0x100 < 4 then
    let y : Fin 4 := ⟨o / 0x100, hy⟩
    let r := o % 0x100
    if r = 0x0 then some (.clkYardCtrl y) else
    if r = 0x8 then some (.clkYardStatus y) else
    if r = 0x10 then some (.clkYardStretch y) else
    if r = 0x18 then some (.clkYardThrottle y) else
    none
  else none

/-- Address decode of the block at 0xff0007001000. -/
def Reg.ofAddrFrank (a : Nat) : Option Reg :=
  let r := a - 0xff0007001000
  if r = 0x0 then some (.clkFrNow) else
  if r = 0x8 then some (.clkFrFrac) else
  if r = 0x10 then some (.clkFrStatus) else
  if r = 0x18 then some (.clkFrBadx) else
  if r = 0x20 then some (.clkFrSteps) else
  if h : 0x100 ≤ r ∧ (r - 0x100) % 0x10 = 0 ∧ (r - 0x100) / 0x10 < 8 then
    some (.clkFrPort ⟨(r - 0x100) / 0x10, h.2.2⟩) else
  if h : 0x108 ≤ r ∧ (r - 0x108) % 0x10 = 0 ∧ (r - 0x108) / 0x10 < 8 then
    some (.clkFrAsym ⟨(r - 0x108) / 0x10, h.2.2⟩) else
  none

/-- Address decode of the block at 0xff0008000000. -/
def Reg.ofAddrLog (a : Nat) : Option Reg :=
  let o := a - 0xff0008000000
  if hu : o / 0x2000 < 1024 then
    let u : Fin 1024 := ⟨o / 0x2000, hu⟩
    let r := o % 0x2000
    if h : 0x0 ≤ r ∧ (r - 0x0) / 0x20 < 256 ∧ (r - 0x0) % 0x20 / 0x8 < 4 ∧ (r - 0x0) % 0x8 = 0 then
      some (.dbgLog u ⟨(r - 0x0) / 0x20, h.2.1⟩ ⟨(r - 0x0) % 0x20 / 0x8, h.2.2.1⟩) else
    none
  else none

/-- Address decode of the block at 0xff0008800000. -/
def Reg.ofAddrLogNext (a : Nat) : Option Reg :=
  let o := a - 0xff0008800000
  if hu : o / 0x8 < 1024 then
    let u : Fin 1024 := ⟨o / 0x8, hu⟩
    let r := o % 0x8
    if r = 0x0 then some (.dbgLogNext u) else
    none
  else none

/-- Address decode of the block at 0xff0009000000. -/
def Reg.ofAddrTrace (a : Nat) : Option Reg :=
  let r := a - 0xff0009000000
  if r = 0x0 then some (.dbgTraceCtrl) else
  if r = 0x8 then some (.dbgTraceStatus) else
  if r = 0x10 then some (.dbgTraceSpill) else
  if r = 0x18 then some (.dbgTraceMark) else
  if r = 0x40 then some (.dbgTrigNet) else
  if h : 0x20 ≤ r ∧ (r - 0x20) % 0x8 = 0 ∧ (r - 0x20) / 0x8 < 4 then
    some (.dbgTrig ⟨(r - 0x20) / 0x8, h.2.2⟩) else
  none

/-- Address decode of the block at 0xff0009001000. -/
def Reg.ofAddrTraceSrc (a : Nat) : Option Reg :=
  let o := a - 0xff0009001000
  if hu : o / 0x8 < 1024 then
    let u : Fin 1024 := ⟨o / 0x8, hu⟩
    let r := o % 0x8
    if r = 0x0 then some (.dbgTraceSrc u) else
    none
  else none

/-- Address decode of the block at 0xff000a000000. -/
def Reg.ofAddrTraceBuf (a : Nat) : Option Reg :=
  let o := a - 0xff000a000000
  if hi : o / 0x20 < 2097152 then
    let i : Fin 2097152 := ⟨o / 0x20, hi⟩
    let r := o % 0x20
    if h : 0x0 ≤ r ∧ (r - 0x0) % 0x8 = 0 ∧ (r - 0x0) / 0x8 < 4 then
      some (.dbgTraceBuf i ⟨(r - 0x0) / 0x8, h.2.2⟩) else
    none
  else none

/-- The register at a chip physical address, or none: an address of no register reads zeros and discards writes
(R177). -/
def Reg.ofAddr (a : Nat) : Option Reg :=
  if a < 0xff0000000000 then none else
  if a < 0xff0000040000 then Reg.ofAddrPorter a else
  if a < 0xff0000060000 then Reg.ofAddrAxisPlan a else
  if a < 0xff0000070000 then Reg.ofAddrSeed a else
  if a < 0xff0000080000 then Reg.ofAddrUpd a else
  if a < 0xff0000090000 then Reg.ofAddrLink a else
  if a < 0xff00000a0000 then Reg.ofAddrLoad a else
  if a < 0xff00000c0000 then Reg.ofAddrXlat a else
  if a < 0xff00000e0000 then Reg.ofAddrCtx a else
  if a < 0xff00000e1000 then Reg.ofAddrRecov a else
  if a < 0xff0000200000 then Reg.ofAddrSolo a else
  if a < 0xff0000400000 then Reg.ofAddrStable a else
  if a < 0xff0000420000 then Reg.ofAddrSlot a else
  if a < 0xff0001000000 then Reg.ofAddrSlotCnt a else
  if a < 0xff0002000000 then Reg.ofAddrStall a else
  if a < 0xff0002100000 then Reg.ofAddrHbm a else
  if a < 0xff0003000000 then Reg.ofAddrPoison a else
  if a < 0xff0004000000 then Reg.ofAddrLoft a else
  if a < 0xff0004100000 then Reg.ofAddrPort a else
  if a < 0xff0004200000 then Reg.ofAddrRoute a else
  if a < 0xff0005000000 then Reg.ofAddrPost a else
  if a < 0xff0005010000 then Reg.ofAddrGroup a else
  if a < 0xff0006000000 then Reg.ofAddrCeChip a else
  if a < 0xff0007000000 then Reg.ofAddrQp a else
  if a < 0xff0007001000 then Reg.ofAddrYard a else
  if a < 0xff0008000000 then Reg.ofAddrFrank a else
  if a < 0xff0008800000 then Reg.ofAddrLog a else
  if a < 0xff0009000000 then Reg.ofAddrLogNext a else
  if a < 0xff0009001000 then Reg.ofAddrTrace a else
  if a < 0xff000a000000 then Reg.ofAddrTraceSrc a else
  if a < 0xff000e000000 then Reg.ofAddrTraceBuf a else
  none

end Sys2Proof.Machine
end

