-- ==== Sys2Proof/Machine/State.lean ====
section
/-!
DEFINITION. The state of the module as plain data, the reasons a command can stop, and the state after reset: no
power has come up, and every register is at the value of its Reset column.
-/
namespace Sys2Proof.Machine

/-- A cached translation, of one page (R184, R185): the context, the number of the page in pages of its own size, whether that is
1 GiB (`big`) or 2 MiB, and what its leaf gave. -/
structure XlatEntry where
  ctx : Fin 64
  page : Nat
  big : Bool
  pa : Nat
  w : Bool
  rmt : Bool
  deriving DecidableEq, Repr

/-- Whose access to memory is being performed (R16): an instruction of a stall, issued to a unit or executed by the sequencer
(none), and whether it is of the UPD class; the collective engine reading an operation's source, and the update instruction that
started that operation, if one did (R110); or the engine writing. -/
inductive Actor where
  | unit (stall : Fin 128) (unit : Option StallUnit) (seq : Nat) (upd : Bool)
  | source (op : Nat) (upd : Option (Fin 128 × Nat))
  | engine
  deriving DecidableEq, Repr

/-- A write under way, as one word takes it: its instruction, the bytes it writes by their place in the word, with their poison, and
whether it covers the whole of the word's unit of protection (R191, R198). -/
structure RaceWrite where
  actor : Actor
  bytes : List (Nat × MByte)
  whole : Bool := false
  deriving DecidableEq, Repr

/-- An aligned 8-byte word of a unit of protection that instructions in flight have written and whose writes may not all have been
performed at their home (R16, R154, R155): what the home holds without them, whether the unit is poisoned without them, and the
writes in the order in which they take effect (log entry 7). -/
structure Racing where
  word : Nat
  base : List Byte
  mark : Bool := false
  writes : List RaceWrite
  deriving DecidableEq, Repr

/-- What the model keeps of the instructions in flight beside their writes: the words that each has read; those of which an access has
found a write performed, which have therefore started (R379); and those whose operands a later write that is not ordered behind them
has overlapped, or that work on what such an instruction leaves: their results are undefined in value (R16; log entry 6). -/
structure Underway where
  reads : List (Actor × List Nat) := []
  begun : List Actor := []
  undef : List Actor := []
  deriving DecidableEq, Repr

/-- An 8-byte word in the source of a collective operation under way, as it stood before a write of it: the engine may have read it
then (R286; log entry 7). -/
structure SourceWord where
  op : Nat
  word : Nat
  old : List MByte
  deriving DecidableEq, Repr

/-- Who sent a registered letter, so that its end can be reported (R140, R294): an instruction in flight; a collective operation, or one
that has retired before its letters are receipted, of a stall (R174, R284); a letter passed on; a circular; a mirror; or the module. -/
inductive Owner where
  | flight (stall : Fin 128) (seq : Nat)
  | coll (op : Nat)
  | ended (stall : Fin 128)
  | relay (id : Nat)
  | circ (id : Nat)
  | mirror (ctx : Fin 64)
  | other
  deriving DecidableEq, Repr

/-- Where the data of a remote read goes: local addresses, one a byte (none: a refused byte, discarded), or on to another
chip, in letters of a class whose TARGET starts at the one given. -/
inductive Sink where
  | local (as : List (Option Nat))
  | remote (chip : BitVec 14) (cls : LClass) (target : Nat)
  deriving DecidableEq, Repr

/-- A registered letter that waits to be sent, or that is neither receipted nor given up (R318, R319), with the place in staging
or in the copy store where its sender keeps it. -/
structure Outstanding where
  key : StreamKey
  letter : Letter
  owner : Owner
  ctx : Fin 64
  tries : Nat := 0
  limit : Nat := 0                -- RETRIES as its present timer took it (R324)
  sink : Option Sink := none      -- a REQUEST: where its response goes
  port : Option (Fin 8) := none   -- a ring or tree letter: the port its engine chose (R273)
  frame : Option Frame := none    -- a COLL letter: its place in staging
  copy : Option Nat := none       -- a BULK or SLOT letter that has started: its place in the copy store
  deriving DecidableEq, Repr

/-- The sending end of a stream (R316, R322, R323). -/
structure SendStream where
  next : BitVec 32 := 0
  givenUp : Option (BitVec 32) := none
  clearing : Option Nat := none      -- the clearance outstanding, with its retransmissions so far
  clearPm : BitVec 32 := 0
  clearLimit : Nat := 0              -- RETRIES as the clearance's present timer took it (R324)
  clearEpoch : Bool := false
  broken : Bool := false
  deriving DecidableEq, Repr

/-- The receiving end of a stream (R320). Bit `b` of `window` is the postmark `h - b`. -/
structure RecvStream where
  h : BitVec 32 := 0xFFFFFFFF
  window : BitVec 4096 := BitVec.allOnes 4096
  deriving DecidableEq, Repr

/-- Where an accepted consignment stands (R309 to R313). -/
inductive ConsignPhase where
  | waiting | started | final
  deriving DecidableEq, Repr

/-- What a stall that stopped on a fault reports (R311, R313): stall, code index, status, collective group, LOC; and the franking
stamp at which it stopped, in units of 1/256 ns. -/
structure FaultInfo where
  stall : Fin 128
  pc : BitVec 17
  status : Status
  group : Option (Fin 4) := none
  loc : Nat := 0
  stamp : Nat := 0
  deriving DecidableEq, Repr

/-- An accepted consignment (R307 to R314). `faulted` lists the stalls that stopped on a fault; `startedAt` is the franking stamp of
its start, in units of 1/256 ns. -/
structure Consign where
  qp : Fin 256
  ctx : Fin 64
  index : BitVec 16
  opcode : Nat
  flags : Nat
  cid : Nat
  addrA : Nat
  addrB : Nat
  length : Nat
  malformed : Bool := false
  phase : ConsignPhase := .waiting
  status : Status := .ok
  detail : Nat := 0
  faulted : List (Fin 128) := []
  startedAt : Nat := 0
  loc : Nat := 0
  frankEnd : BitVec 64 := 0
  retiredAt : Option (BitVec 64) := none
  stalls : List (Fin 128) := []
  fault : Option FaultInfo := none
  ended : Option Status := none
  posted : Bool := false
  streams : List StreamKey := []
  unresolved : Bool := false
  deriving DecidableEq, Repr

/-- A copy of the host DMA engine (R310): its consignment, whether it goes to the host, the host bus address and the context address
of its first byte, each byte's place in memory (none: refused) with the value of one that comes from the host, and how many bytes
have been moved. -/
structure DmaCopy where
  id : Nat
  out : Bool
  host : Nat
  start : Nat
  bytes : List (Option Nat × MByte)
  done : Nat := 0
  deriving DecidableEq, Repr

/-- What the module sends to the host: a memory write, with its Relaxed Ordering attribute (R300), a memory read, or the bytes that
answer a read of the host. A marked byte is poisoned (EP, R192). -/
inductive HostMsg where
  | write (addr : Nat) (bytes : List MByte) (relaxed : Bool)
  | read (addr len : Nat)
  | reply (bytes : List MByte)
  deriving DecidableEq, Repr

/-- What identifies an image to the command processor (R310): its context, its address, and the CRC of its header. -/
structure ImageId where
  ctx : Fin 64
  addr : Nat
  crc : Nat
  deriving DecidableEq, Repr

/-- One program of an image as the loader wrote it (R149): where its code lies in the stall store, its length in bytes, and
its descriptors. -/
structure Program where
  base : Nat := 0
  bytes : Nat := 0
  descs : List (BitVec 128) := []
  deriving DecidableEq, Repr

/-- An image as the loader wrote it: its stables, the number of its stalls, the program of each rank, and the programs. -/
structure ImageRec where
  id : ImageId
  stables : List (Fin 16)
  nStalls : Nat
  map : List Nat
  programs : List Program
  deriving DecidableEq, Repr

/-- The franking counter (R357, R362): whole nanoseconds, and the part below one nanosecond in units of 2^-32 ns. -/
structure Franking where
  ns : BitVec 64 := 0
  sub : Nat := 0
  deriving DecidableEq, Repr

/-- The trace unit's working state (R415, R419 to R421): records still accepted after a trigger, the triggers taken, the source of the
last, and the origin and number pairs of the last remote ones; the records in each source's queue, oldest first; what each source has
dropped since its last DROP marker, as the count and the stamps of the first and the last; the number of the next transfer from a
queue; and when the last trigger was taken, and for which unit. -/
structure Trace where
  post : Option Nat := none
  taken : Nat := 0
  source : Nat := 0
  recent : List (Nat × Nat) := []
  queues : AMap (Fin 1024) (List (List Byte)) := []
  lost : AMap (Fin 1024) (Nat × List Byte × List Byte) := []
  no : Nat := 0
  trigAt : Option Nat := none
  trigUnit : Fin 1024 := 0
  deriving DecidableEq, Repr

/-- Events the porter reports over Redfish: a posted poison record (R200), a stall fence (R386), a bypass fault (R224), a
port's discovery outcome (R338), the records of its logbook with their EVENT and cause (R387, R434), and the warning of a hot
optical engine (R433); and its boot, of which only the UART tells (R439). -/
inductive Redfish where
  | boot
  | poison
  | fence (stall : Fin 128)
  | bypass (axis : Fin 4)
  | discovery (port : Fin 8) (outcome cause : Nat)
  | port (port : Fin 8) (event : Nat)
  | porter (event : Nat) (data : Nat)
  | optical (temp : Nat)
  deriving DecidableEq, Repr

/-- A context reset under way (R378, R381): its CAUSE, blocking ENGINE and highest level so far, whether a DESTROY waits for
its end, and whether it is itself the end of a DESTROY's work (R304). -/
structure CtxReset where
  cause : Nat
  engine : Nat
  level : Nat := 0
  destroy : Bool := false
  deriving DecidableEq, Repr

/-- A yard's clock (R352 to R356): the frequency it runs at, the porter's power-control frequency and what thermal
throttling takes from it, in MHz; for each neighbouring pair that throttles it, by its place in R351's list, the cap in MHz and which
limits set it (R353: 1 ratio, 2 voltage, 4 temperature); by how many percent its period is stretched, and how many cycles of the
recovery are left; the reasons that hold it stopped; its cycles, in thousandths; and the ns for which it has been stopped, and
capped. -/
structure Yard where
  freq : Nat := 600
  power : Nat := 1400
  thermal : Nat := 0
  caps : AMap Nat (Nat × Nat) := []
  stretch : Nat := 0
  recover : Nat := 0
  stops : List Nat := []
  milli : Nat := 0
  stopNs : Nat := 0
  heldNs : Nat := 0
  deriving DecidableEq, Repr

/-- Where a port's training stands (R215): not training; waiting 1 ms to try again; waiting for signal or light; or in
steps 2 to 5 at full or half rate, with the strands that take part still. -/
inductive Training where
  | idle | retry | signal
  | steps (half : Bool) (strands : BitVec 4)
  deriving DecidableEq, Repr

/-- One lane frame as the receiver took it (R210, R214): its SLOTS and, where FEC corrected it, its 15 slots. -/
structure RxFrame where
  fseq : BitVec 8
  lane : Fin 48
  slots : BitVec 15
  data : Option (List (List Byte))
  raw : Option (Nat × Nat)      -- CTL_TYPE and CTL as they stood before FEC
  ctl : Option (Nat × Nat)      -- the same, corrected
  began : Nat := 0              -- when it started to arrive, in units of 1/256 ns of franking time (R360)
  deriving DecidableEq, Repr

/-- The working state of a port (R215 to R221, R231, R240, R336). -/
structure Port where
  training : Training := .idle
  excluded : BitVec 4 := 0                       -- strands that failed on the loop (R226)
  failing : BitVec 4 := 0                        -- strands whose slots are FEC-failed until they are dropped (R219)
  failedAt : AMap (Fin 4) (BitVec 8) := []       -- from which frame on, of those that lost MARK
  drop : List (BitVec 4 × BitVec 8 × Nat) := []  -- each DROP sent and not answered: strands, AT_FSEQ, attempts
  dropAt : AMap (Fin 4) (BitVec 8) := []         -- the strands whose drop is agreed, and from which frame
  restoring : BitVec 4 := 0                      -- dropped strands that train again (R220)
  addAt : AMap (Fin 4) (BitVec 8) := []          -- the strands to be added again, and from which frame
  turns : AMap (Fin 4) (BitVec 8 × Bool) := []   -- strands dropped or added in the receive direction, and from which frame received
  fseq : BitVec 8 := 0                           -- FSEQ of the frame being sent
  sent : Nat := 0                                -- bits of it sent so far on each lane (R208)
  frames : List RxFrame := []
  flits : List (Option (List Byte)) := []        -- flits received, in order; none: FEC-failed
  starts : List Nat := []                        -- of the last flits received, when the frame of each started to arrive (R360)
  stamps : List (Letter × Nat) := []             -- the same of each franking letter that waits for the port
  hunting : Option Nat := none                   -- R240: flits discarded since the head was lost
  winCorr : AMap (Fin 48) Nat := []
  winUnc : AMap (Fin 48) Nat := []
  noMark : AMap (Fin 48) Nat := []
  identity : Option (List Byte) := none          -- body of the last identity letter received
  gotSeen : Bool := false
  sentSeen : Bool := false
  evaluated : Bool := false
  lastPeer : Option (Nat × Nat) := none          -- the peer accepted last: chip and serial
  upNs : Nat := 0                                -- time UP so far in the present millisecond (R408)
  deriving DecidableEq, Repr

/-- A letter that waits for an output port, with where it came from: a torus port and its VC there, or port 8. -/
structure OutLetter where
  port : Fin 8
  src : Option (Fin 8)
  inVc : Fin 16
  lt : Letter
  deriving DecidableEq, Repr

/-- A letter that a port's input buffer holds: the granules it occupies on its VC (R241). -/
structure RxHeld where
  port : Fin 8
  vc : Fin 16
  granules : Nat
  lt : Letter
  deriving DecidableEq, Repr

/-- What a sender knows of one VC of the next input buffer (R242 to R244): the letters that occupy it, oldest first, as
granules and whether injected, and the last FREED applied. -/
structure TxVc where
  held : List (Nat × Bool) := []
  freed : Nat := 0
  deriving DecidableEq, Repr

/-- The kinds of letter between which an output's arbiter chooses (R246): MGMT or DIAG, through, injected. -/
inductive ArbKind where
  | manage | through | injected
  deriving DecidableEq, Repr

/-- An output's arbiter (R246): the balance, the VC that last started within each kind, the flit slots since a MGMT or DIAG letter last
started, of the slots that started letters take how many are still to pass, and what has passed of the next slot, in parts of 8,192. -/
structure Arbiter where
  balance : Int := 0
  lastVc : AMap ArbKind (Fin 16) := []
  sinceMgmt : Nat := 32
  busy : Nat := 0
  part : Nat := 0
  deriving DecidableEq, Repr

/-- An axis handover in progress (R226): the axis, and whether the die has asserted the hold. -/
structure Handover where
  axis : Fin 4
  held : Bool := false
  deriving DecidableEq, Repr

/-- Where main power stands (R428, R429). -/
inductive Power where
  | off | rising | good | falling
  deriving DecidableEq, Repr

/-- A power cycle (R372): waiting with main power removed, or waiting for Stage 1 after it was applied again. -/
inductive Cycle where
  | none | removed | applied
  deriving DecidableEq, Repr

/-- An exchange of franking time outstanding on a port (R360, R366): SEQ, the ASYM_PS that it uses, the phase of its start, and, once
FR_SYNC has started on the line, t1 in units of 1/256 ns. -/
structure FrExchange where
  seq : BitVec 32
  asym : Int := 0
  phase : Nat := 0
  t1 : Option Nat := none
  deriving DecidableEq, Repr

/-- A port's valid exchange of the present interval (R361, R362): theta in units of 1/256 ps, and the peer's state. -/
structure FrValid where
  theta : Int
  locked : Bool
  deriving DecidableEq, Repr

/-- The steering state of franking time (R362). `silent` counts the intervals since the last valid exchange: 125,000 cycles each, which
no step moves (R358). -/
structure Steer where
  rate : Int := 0
  adj : Int := 0
  calm : Nat := 0
  silent : Nat := 0
  lockedNs : Nat := 0
  nextSeq : BitVec 32 := 0
  deriving DecidableEq, Repr

/-- A management register request outstanding (R343). -/
structure MgmtReq where
  dest : BitVec 14
  postmark : BitVec 32
  write : Bool
  addr : Nat
  value : BitVec 64
  tries : Nat := 0
  deriving DecidableEq, Repr

/-- What the die reports to the porter that asked for a remote access (R343): the value, or failure. -/
structure MgmtResult where
  dest : BitVec 14
  postmark : BitVec 32
  value : Option (BitVec 64)
  deriving DecidableEq, Repr

/-- The state of the module. -/
structure State where
  pending : List Instr := []
  regs : AMap Reg (BitVec 64) := []
  mem : List Host.Cell := []
  poison : List Nat := []
  latentUe : List Nat := []
  latentCe : List Nat := []
  actor : Option Actor := none
  racing : List Racing := []
  underway : Underway := {}
  sourceWords : List SourceWord := []
  raceNo : Nat := 0
  aonDie : AMap Nat Nat := []
  stalls : AMap (Fin 128) Stall := []
  watches : AMap (Fin 16) Watch := []
  xlat : List XlatEntry := []
  xlatUnits : AMap (Fin 129) (List XlatEntry) := []
  xlatNo : Nat := 0
  refusing : Option (List (Fin 64 × Nat × Nat)) := none
  xlatRoot : AMap (Fin 64) (BitVec 64) := []
  xlatPend : List (Fin 64) := []
  sampled : List (Fin 64) := []
  ctxStables : AMap (Fin 64) (List (Fin 16)) := []
  consigns : AMap Nat Consign := []
  nextConsign : Nat := 1
  unsignalled : AMap (Fin 256) Nat := []
  dma : List DmaCopy := []
  images : List ImageRec := []
  stableImg : AMap (Fin 16) (Option ImageId) := []
  hostOut : List HostMsg := []
  linkRx : Nat := 0
  linkTx : Nat := 0
  porterOut : List (List MByte) := []
  msix : AMap (Fin 260) (BitVec 128) := []
  msixPend : List Nat := []
  aer : BitVec 32 := 0
  postQ : List Outstanding := []
  outstanding : List Outstanding := []
  sendStreams : AMap StreamKey SendStream := []
  recvStreams : AMap StreamKey RecvStream := []
  heldDups : List Letter := []
  unplaced : List (StreamKey × BitVec 32) := []
  collOps : List CollOp := []
  collStage : List Staged := []
  circs : List Circ := []
  relays : List Relay := []
  nanOps : AMap (Fin 64 × Fin 4) NanOp := []
  tiles : List TileRec := []
  seals : AMap (Fin 64) SealRec := []
  nextId : Nat := 1
  inbox : List Letter := []
  portIn : List (Fin 8 × Letter) := []
  outQ : List OutLetter := []
  rxHeld : List RxHeld := []
  freed : AMap (Fin 8 × Fin 16) Nat := []
  tx : AMap (Fin 8 × Fin 16) TxVc := []
  arbs : AMap (Fin 8) Arbiter := []
  wire : List (Fin 8 × List Byte × Bool) := []
  linkCmds : List (Fin 8 × BitVec 16) := []
  ports : AMap (Fin 8) Port := []
  resets : AMap (Fin 64) CtxReset := []
  engResets : List (Fin 64 × Nat) := []
  stableResets : List (Fin 16 × Nat) := []
  attribs : List (Nat × Nat) := []
  dieHist : List Nat := []
  yards : AMap (Fin 4) Yard := []
  loftHot : List (Fin 16) := []
  memReqs : AMap (Fin 1024) Nat := []
  patrols : AMap (Option (Fin 8)) (List Nat) := []
  frEx : AMap (Fin 8) (Option FrExchange) := []
  frValid : AMap (Fin 8) (Option FrValid) := []
  steer : Steer := {}
  mgmtNext : BitVec 32 := 0
  mgmtOut : List MgmtReq := []
  mgmtDone : List MgmtResult := []
  mgmtSeen : List (BitVec 14 × BitVec 32 × Letter) := []
  aux : Bool := false
  power : Power := .off
  rails : List (Rail × Nat) := []
  railMs : Nat := 0
  tripMs : AMap Nat Nat := []
  cycle : Cycle := .none
  dieResetting : Bool := false
  autoUsed : Bool := false
  released : BitVec 4 := 0
  handover : Option Handover := none
  handed : BitVec 4 := 0
  advance : Bool := false
  memTestFull : Bool := false
  fwSlots : AMap (Fin 2) (Option (List Byte)) := []
  fwBoot : Option (Fin 2) := none
  spdmOut : List (BitVec 384) := []
  retiredPages : AMap (Fin 4096) (BitVec 64) := []
  franking : Franking := {}
  porterMs : Nat := 0
  dieUp : Bool := false
  chip : BitVec 14 := 0
  trace : Trace := {}
  irqs : List Nat := []
  redfish : List Redfish := []   -- what the porter has reported, in order
  tap : Tap := {}
  deriving DecidableEq, Repr

/-- A stop of the machine. Raised where the sender of a command breaks a bound that the spec sets on its operands, so
that no such command exists on the module: safe (the model stops where the module is never asked). -/
inductive Fault where
  | illFormed (mnemonic : String)
  deriving DecidableEq, Repr

/-- A command without a meaning. `notModelled` is raised by Dispatch only. `loaderRefused` is raised by a stall
instruction whose fields the loader refuses (R130, R135, R67, R138): no running program holds one. Both are safe. -/
inductive Refusal where
  | notModelled (mnemonic : String)
  | loaderRefused (mnemonic : String)
  deriving DecidableEq, Repr

/-- The module right after reset: no power has come up, and nothing is configured (R10, R329). -/
def State.reset : State := {}

end Sys2Proof.Machine
end

