-- ==== Sys2Proof/Machine/Ops.lean ====
section
/-!
DEFINITION. The named operations over registers, counters, logbooks, the trace and the stalls that every meaning is
written with.
-/
namespace Sys2Proof.Machine

/-! ### Registers -/

/-- A register as the module holds it. -/
def State.rd (s : State) (r : Reg) : BitVec 64 := AMap.get r.reset r s.regs

/-- Give a register a value, whatever its access codes. -/
def State.wr (s : State) (r : Reg) (v : BitVec 64) : State := { s with regs := AMap.set r v s.regs }

/-- A field of a 64-bit value. -/
def Fld.get (f : Fld) (v : BitVec 64) : Nat := bitsOf v.toNat f.lo f.w

/-- A 64-bit value with one field replaced. -/
def Fld.put (f : Fld) (v : BitVec 64) (x : Nat) : BitVec 64 :=
  BitVec.ofNat 64 (v.toNat - f.get v * 2 ^ f.lo + x % 2 ^ f.w * 2 ^ f.lo)

/-- A field of a register. -/
def State.fld (s : State) (r : Reg) (f : Fld) : Nat := f.get (s.rd r)

/-- Whether a one-bit field is set. -/
def State.flag (s : State) (r : Reg) (f : Fld) : Bool := s.fld r f ≠ 0

/-- Set a field of a register. -/
def State.setFld (s : State) (r : Reg) (f : Fld) (x : Nat) : State := s.wr r (f.put (s.rd r) x)

/-- Set several fields of a register. -/
def State.setFlds (s : State) (r : Reg) (fs : List (Fld × Nat)) : State :=
  s.wr r (fs.foldl (fun v e => e.1.put v e.2) (s.rd r))

/-- One field of a register after a write of `v` under its access code (R8): an RW1C field clears the bits written 1, an RW
field takes the value if it is valid; a WO field stores nothing. `open'` opens the RWL fields. -/
def Fld.write (open' : Bool) (f : Fld) (old v : BitVec 64) : BitVec 64 :=
  let x := f.get v
  let ok := match f.valid with
    | some (lo, hi, step) => decide (lo ≤ x) && decide (x ≤ hi) && decide ((x - lo) % step = 0)
    | none => true
  match f.acc with
  | .rw => if ok then f.put old x else old
  | .rwl => if open' && ok then f.put old x else old
  | .rw1c => f.put old (f.get old - (f.get old &&& x))
  | .ro => old
  | .wo => old

/-- A register's value after a write (R8). -/
def writeFields (open' : Bool) (fs : List Fld) (old v : BitVec 64) : BitVec 64 :=
  fs.foldl (fun x f => f.write open' x v) old

/-- Write a register under the access codes of its fields, its RWL fields open. -/
def State.regWrite (s : State) (r : Reg) (v : BitVec 64) : State := s.wr r (writeFields true r.fields (s.rd r) v)

/-- A register made of the given fields, every other bit 0. -/
def pack (fs : List (Fld × Nat)) : BitVec 64 := fs.foldl (fun v e => e.1.put v e.2) 0

/-- Add to one of the die's accumulators, which the porter collects into PTR_AON (R407, R408). -/
def State.aonAdd (s : State) (i n : Nat) : State :=
  if n = 0 then s
  else { s with aonDie := AMap.set i (satAdd (2 ^ 64 - 1) (AMap.get 0 i s.aonDie) n) s.aonDie }

/-- Add to an always-on counter that the porter itself keeps (R406). -/
def State.aonPorter (s : State) (i : Fin 512) (n : Nat) : State :=
  s.wr (.ptrAon i) (BitVec.ofNat 64 (satAdd (2 ^ 64 - 1) (s.rd (.ptrAon i)).toNat n))

/-- Count `n` events in a 48-bit counter register, and in the always-on counter that mirrors it (R44, R408). -/
def State.bump (s : State) (r : Reg) (n : Nat) : State :=
  let s := s.setFld r F.COUNT (satAdd (2 ^ 48 - 1) (s.fld r F.COUNT) n)
  match r.aon with
  | some i => s.aonAdd i n
  | none => s

/-! ### Host events, logbooks (R410 to R414) and trace (R415 to R421) -/

/-- The entry of the MSI-X table for a vector, which is masked until the host sets it up; and whether it is masked (R298; log
entry 50). -/
def State.msixEntry (s : State) (v : Nat) : BitVec 128 := AMap.get (2 ^ 96) (Fin.ofNat 260 v) s.msix
def State.msixMasked (s : State) (v : Nat) : Bool := (s.msixEntry v).getLsbD 96

/-- Raise an MSI-X vector (R301); a masked one is pending. -/
def State.raise (s : State) (v : Nat) : State :=
  { s with irqs := s.irqs ++ [v], msixPend := if s.msixMasked v && v ∉ s.msixPend then v :: s.msixPend else s.msixPend }

/-- Franking time in whole nanoseconds, and its fraction in units of 1/256 ns. -/
def State.frankNs (s : State) : BitVec 64 := s.franking.ns
def State.frankFrac (s : State) : Nat := s.franking.sub / 2 ^ 24 % 256

/-- The franking stamp, in units of 1/256 ns. -/
def State.stampNow (s : State) : Nat := s.frankNs.toNat * 256 + s.frankFrac

/-- Whether the franking counter is in the state FREE (R364): SYNC_STATE of CLK_FR_STATUS. -/
def State.frFree (s : State) : Bool := s.fld .clkFrStatus F.clkFrStatus_SYNC_STATE = 0

/-- Word `i` of the logbook record of a SEQ. -/
def State.logWord (s : State) (unit : Fin 1024) (seq : Nat) (i : Fin 4) : Nat := (s.rd (.dbgLog unit (Fin.ofNat 256 seq) i)).toNat

/-- Write the four words of a logbook record. -/
def State.logPut (s : State) (unit : Fin 1024) (seq w0 w1 data w3 : Nat) : State :=
  let slot := Fin.ofNat 256 seq
  let s := s.wr (.dbgLog unit slot 0) (BitVec.ofNat 64 w0)
  let s := s.wr (.dbgLog unit slot 1) (BitVec.ofNat 64 w1)
  let s := s.wr (.dbgLog unit slot 2) (BitVec.ofNat 64 (seq + data * 2 ^ 32))
  s.wr (.dbgLog unit slot 3) (BitVec.ofNat 64 w3)

/-- Where a record of an event stands, with SEQ `seq` free: behind the records of other cycles and of lower events. Those of the same
cycle, which their equal stamps tell, with a higher event take the next SEQ (R412). -/
def State.logOpen (s : State) (unit : Fin 1024) (w0 w1 : Nat) : Nat → Nat → State × Nat
  | 0, seq => (s, seq)
  | k + 1, seq =>
    let q := (seq + 2 ^ 32 - 1) % 2 ^ 32
    let x := s.logWord unit q 1
    if s.logWord unit q 0 = w0 && x % 2 ^ 32 = w1 % 2 ^ 32 && decide (bitsOf w1 32 16 < bitsOf x 32 16) then
      (s.logPut unit seq w0 x (s.logWord unit q 2 / 2 ^ 32) (s.logWord unit q 3)).logOpen unit w0 w1 k q
    else (s, seq)

/-- Write one record to a unit's logbook (R411, R412). `data` holds the record's DATA bytes. Porter time tells milliseconds, and no
cycle. -/
def State.log (s : State) (unit : Fin 1024) (event ctx : Nat) (data : List Byte) : State :=
  let seq := (s.rd (.dbgLogNext unit)).toNat % 2 ^ 32
  let porterTime := unit = 0x3FF && !s.dieUp
  let stamp := if porterTime then s.porterMs else s.frankNs.toNat
  let frac := if porterTime then 0 else s.frankFrac
  let flags := (if porterTime then 1 else 0) + (if !porterTime && s.frFree then 2 else 0)
  let w1 := frac + flags * 2 ^ 8 + unit.val * 2 ^ 16 + event % 2 ^ 16 * 2 ^ 32 + ctx % 256 * 2 ^ 48
  let (s, q) := s.logOpen unit stamp w1 (if porterTime then 0 else min 255 seq) seq
  let s := s.logPut unit q stamp w1 (natAt data 0 4) (natAt data 4 8)
  let s := s.wr (.dbgLogNext unit) (BitVec.ofNat 64 ((seq + 1) % 2 ^ 32))
  if unit = 0x3FF then s.aonPorter 416 1 else s.aonAdd 416 1

/-- Ring capacity of the trace in records (R418). -/
def State.traceCap (s : State) : Nat :=
  if s.flag .dbgTraceCtrl F.dbgTraceCtrl_SPILL then s.fld .dbgTraceSpill F.dbgTraceSpill_SIZE_GIB * 2 ^ 25
  else 2097152

/-- Put a 32-byte record in the ring and advance the write index (R416, R418). -/
def State.tracePut (s : State) (rec : List Byte) : State :=
  let i := s.fld .dbgTraceStatus F.dbgTraceStatus_WRITE_IDX
  let s :=
    if s.flag .dbgTraceCtrl F.dbgTraceCtrl_SPILL then
      let base := s.fld .dbgTraceSpill F.dbgTraceSpill_BASE * 2 ^ 30 + 32 * i
      { s with mem := (List.range 32).foldl (fun m k => Memory.write m (base + k) (rec.getD k 0)) s.mem }.aonAdd 92 1
    else
      let j := Fin.ofNat 2097152 i
      let s := s.wr (.dbgTraceBuf j 0) (BitVec.ofNat 64 (natAt rec 0 8))
      let s := s.wr (.dbgTraceBuf j 1) (BitVec.ofNat 64 (natAt rec 8 8))
      let s := s.wr (.dbgTraceBuf j 2) (BitVec.ofNat 64 (natAt rec 16 8))
      s.wr (.dbgTraceBuf j 3) (BitVec.ofNat 64 (natAt rec 24 8))
  let s := s.setFld .dbgTraceStatus F.dbgTraceStatus_WRITE_IDX (if s.traceCap ≤ i + 1 then 0 else i + 1)
  s.aonAdd 417 1

/-- The stamp of a trace record made now, and the bytes of one (R416). -/
def State.traceStamp (s : State) : List Byte := toBytes 8 (s.frankFrac + s.frankNs.toNat % 2 ^ 56 * 256)
def State.traceRec (s : State) (unit kind ctx data0 : Nat) (data1 : List Byte) : List Byte :=
  s.traceStamp ++ toBytes 2 unit ++ toBytes 1 kind ++ toBytes 1 ctx ++
    toBytes 4 data0 ++ bytesAt data1 0 16

/-- The state of a port; and whether it has trained to a peer: UP, or quarantined by its discovery (R215, R338, R339). -/
def State.portState (s : State) (p : Fin 8) : Nat := s.fld (.soPortStatus p) F.soPortStatus_STATE
def State.linkUp (s : State) (p : Fin 8) : Bool := s.portState p = 3 || s.portState p = 4

/-- Whether a port carries a letter of a class, in transit where `through` says so: one whose discovery outcome is not ACCEPTED carries
MGMT letters only (R337), and a quarantined one no transit (R339). -/
def State.carries (s : State) (p : Fin 8) (c : LClass) (through : Bool) : Bool :=
  let o := s.fld (.soPortDisc p) F.soPortDisc_OUTCOME
  s.linkUp p && (o = 1 || (c == .mgmt && !(through && o = 2)))

/-- The epoch that this chip's letters carry (R254). -/
def State.srcEpoch (s : State) : Bool := s.flag .soRtCtrl F.soRtCtrl_SRC_EPOCH

/-- The origin of a trigger (R421): chip, number, and stamp; how many further hops it is forwarded; and the port it
arrived on. -/
structure TrigOrigin where
  chip : Nat
  number : Nat
  ns : Nat
  frac : Nat
  remain : Nat
  from' : Option (Fin 8)

/-- The source of the KIND 8 record of the last trigger, DATA0 of the record at TRIG_IDX, is written anew. -/
def State.trigData (s : State) (source : Nat) : State :=
  let i := s.fld .dbgTraceStatus F.dbgTraceStatus_TRIG_IDX
  if s.traceCap ≤ i then s
  else if s.flag .dbgTraceCtrl F.dbgTraceCtrl_SPILL then
    let a := s.fld .dbgTraceSpill F.dbgTraceSpill_BASE * 2 ^ 30 + 32 * i + 12
    { s with mem := (List.range 4).foldl (fun m k => Memory.write m (a + k) ((toBytes 4 source).getD k 0)) s.mem }
  else
    let r := Reg.dbgTraceBuf (Fin.ofNat 2097152 i) 1
    s.wr r (BitVec.ofNat 64 ((s.rd r).toNat % 2 ^ 32 + source * 2 ^ 32))

/-- The same for its logbook record, the last one of EVENT 0x0060 of its unit. -/
def State.trigLog (s : State) (source : Nat) : State :=
  let unit := s.trace.trigUnit
  let next := (s.rd (.dbgLogNext unit)).toNat + 2 ^ 32
  match ((List.range 256).map fun k => next - 1 - k).find? fun q => bitsOf (s.logWord unit q 1) 32 16 = 0x0060 with
  | none => s
  | some q =>
    let x := s.logWord unit q 2
    s.wr (.dbgLog unit (Fin.ofNat 256 q) 2) (BitVec.ofNat 64 (x - bitsOf x 32 8 * 2 ^ 32 + source % 256 * 2 ^ 32))

/-- A trigger of the same mail cycle as the one just taken counts as one with it, and the lower source is the one recorded (R420). -/
def State.trigMerge (s : State) (source : Nat) : State :=
  if s.trace.source ≤ source then s
  else ({ s with trace := { s.trace with source := source } }.trigData source).trigLog source

/-- Take a trigger, if ARMED is 1 and FROZEN is 0 (R420): the KIND 8 record, TRIG_IDX, the post-trigger count, and the
DIAG letters of R421. `source` is 0 to 3 a comparator, 4 host, 5 remote; a trigger that is not remote has its origin
here. `unit` is the unit that triggers, and `stamp` the record's: of a comparator that of the record it matched, so that the records of
that source stay in the order of their stamps (R415; log entry 16). Triggers of equal stamps fall in one mail cycle. -/
def State.traceTrigger (s : State) (unit : Fin 1024) (source : Nat) (stamp : List Byte) (remote : Option TrigOrigin) : State :=
  if !s.flag .dbgTraceStatus F.dbgTraceStatus_ARMED then
    if s.trace.trigAt = some s.stampNow then s.trigMerge source else s.aonAdd 422 1
  else if s.flag .dbgTraceStatus F.dbgTraceStatus_FROZEN then s
  else
    let i := s.fld .dbgTraceStatus F.dbgTraceStatus_WRITE_IDX
    let o := remote.getD ⟨s.chip.toNat, s.trace.taken, s.frankNs.toNat, s.frankFrac,
      s.fld .dbgTrigNet F.dbgTrigNet_RADIUS + 1, none⟩
    let s := s.tracePut (stamp ++ (s.traceRec unit.val 8 0xFF source
      (toBytes 2 o.chip ++ toBytes 4 o.number ++ toBytes 8 (o.frac + o.ns % 2 ^ 56 * 256))).drop 8)
    let s := s.setFlds .dbgTraceStatus [(F.dbgTraceStatus_ARMED, 0), (F.dbgTraceStatus_TRIG_IDX, i)]
    let n := s.fld .dbgTraceCtrl F.dbgTraceCtrl_POST_EIGHTHS * s.traceCap / 8
    let tr : Trace :=
      { s.trace with post := some n, taken := s.trace.taken + 1, source := source, trigAt := some s.stampNow, trigUnit := unit }
    let s := { s with trace := tr }.aonAdd 419 1
    let ports := (List.finRange 8).filter fun p =>
      bitOf (s.fld .dbgTrigNet F.dbgTrigNet_SEND) p.val && decide (0 < o.remain) && decide (o.from' ≠ some p)
    let s := (ports.filter fun p => !s.carries p .diag false).foldl (fun s p => s.bump (.soPortDowndrop p) 1) s
    let ports := ports.filter fun p => s.carries p .diag false
    let body := toBytes 2 o.chip ++ toBytes 4 o.number ++ toBytes 8 o.ns ++ toBytes 1 o.frac ++ toBytes 1 (o.remain - 1)
    let lt : Letter := { dest := 0, src := s.chip, vc := 1, cls := .diag, epoch := s.srcEpoch, op := 1, length := 64,
                         frankNs := s.frankNs, frankFrac := BitVec.ofNat 8 s.frankFrac, body := bytesAt body 0 64 }
    let os : List OutLetter := ports.map fun p => { port := p, src := none, inVc := 1, lt := lt }
    let s := { s with outQ := s.outQ ++ os }
    s.log unit 0x0060 0xFF (toBytes 1 source ++ toBytes 4 i)

/-- Whether comparator `m` matches a record (DBG_TRIGm, R423). -/
def State.traceMatch (s : State) (m : Fin 4) (unit kind data0 : Nat) (data1 : List Byte) : Bool :=
  let r := Reg.dbgTrig m
  let en := s.fld r F.dbgTrig_BYTE_EN
  let mt := s.fld r F.dbgTrig_MATCH
  s.flag r F.dbgTrig_EN && s.fld r F.dbgTrig_KIND = kind &&
    (s.flag r F.dbgTrig_ANY_UNIT || s.fld r F.dbgTrig_UNIT = unit) &&
    ([0, 1, 2].all fun b => !bitOf en b || bitsOf data0 (8 * b) 8 = bitsOf mt (8 * b) 8) &&
    (!bitOf en 3 || natAt data1 0 1 = bitsOf mt 24 8)

/-- A record enters the ring, and a matching comparator triggers (R416, R420). A frozen ring, or one that has taken its post-trigger
records, discards it. -/
def State.ringIn (s : State) (unit : Fin 1024) (rec : List Byte) : State :=
  if s.flag .dbgTraceStatus F.dbgTraceStatus_FROZEN || s.trace.post = some 0 then s
  else
    let s := s.tracePut rec
    let s := match s.trace.post with
      | some (n + 1) => { s with trace := { s.trace with post := some n } }
      | _ => s
    let hit := fun m => s.traceMatch m unit.val (natAt rec 10 1) (natAt rec 12 4) (rec.drop 16)
    match ([0, 1, 2, 3] : List (Fin 4)).find? hit with
    | some m => s.traceTrigger unit m.val (rec.take 8) none
    | none => s

/-- The records in a source's queue. -/
def State.traceQ (s : State) (unit : Fin 1024) : List (List Byte) := AMap.get [] unit s.trace.queues
def State.setTraceQ (s : State) (unit : Fin 1024) (q : List (List Byte)) : State :=
  { s with trace := { s.trace with queues := AMap.set unit q s.trace.queues } }

/-- The trace network takes the oldest `n` records of a source's queue into the buffer, in order (R415). -/
def State.traceTake (s : State) (unit : Fin 1024) : Nat → State
  | 0 => s
  | n + 1 =>
    match s.traceQ unit with
    | [] => s
    | rec :: q => ((s.setTraceQ unit q).ringIn unit rec).traceTake unit n

/-- A source whose queue has room again emits a DROP marker for what it has dropped (R417, R419). -/
def State.traceMarkDrops (s : State) (unit : Fin 1024) : State :=
  match s.trace.lost.find? fun e => e.1 = unit with
  | none => s
  | some (_, n, first, last) =>
    if 64 ≤ (s.traceQ unit).length then s
    else
      let s := s.setTraceQ unit (s.traceQ unit ++ [s.traceRec unit.val 0 0xFF n (first ++ last)])
      { s with trace := { s.trace with lost := AMap.del unit s.trace.lost } }

/-- The trace network takes all that a source's queue holds, and the marker of what the source has dropped. -/
def State.traceEmpty (s : State) (unit : Fin 1024) : State :=
  let s := (s.traceTake unit (s.traceQ unit).length).traceMarkDrops unit
  s.traceTake unit (s.traceQ unit).length

/-- A host or a remote trigger, of a unit: what the unit's queue holds, of earlier stamps, enters the ring before its KIND 8 record
(R415, R420; log entry 16). -/
def State.trigger (s : State) (unit : Fin 1024) (source : Nat) (remote : Option TrigOrigin) : State :=
  let s :=
    if s.flag .dbgTraceCtrl F.dbgTraceCtrl_ENABLE && s.flag .dbgTraceStatus F.dbgTraceStatus_ARMED &&
        !s.flag .dbgTraceStatus F.dbgTraceStatus_FROZEN then s.traceEmpty unit
    else s
  s.traceTrigger unit source s.traceStamp remote

/-- The trace network serves a source: how many records it takes by now is not fixed, since its rate is (R415, R419; log entry 16). -/
def State.traceServe (s : State) (unit : Fin 1024) : State :=
  let n := Config.traceTaken s.trace.no
  (({ s with trace := { s.trace with no := s.trace.no + 1 } }).traceTake unit n).traceMarkDrops unit

/-- Whether a source lies in a yard: a stall unit or a stable (R419). -/
def traceYard (unit : Fin 1024) : Bool := decide (unit.val < 0x210)

/-- A record goes into its source's queue. A full queue drops it, or, of a source in a yard under LOSSLESS, holds the unit until the
network has taken one (R419). -/
def State.traceQueue (s : State) (unit : Fin 1024) (rec : List Byte) : State :=
  if (s.traceQ unit).length < 64 then s.setTraceQ unit (s.traceQ unit ++ [rec])
  else if s.flag .dbgTraceCtrl F.dbgTraceCtrl_LOSSLESS && traceYard unit then
    let s := (s.traceTake unit 1).traceMarkDrops unit
    let s := s.traceTake unit ((s.traceQ unit).length - 63)
    s.setTraceQ unit (s.traceQ unit ++ [rec])
  else
    let stamp := rec.take 8
    let l := AMap.get (0, stamp, stamp) unit s.trace.lost
    { s with trace := { s.trace with lost := AMap.set unit (l.1 + 1, l.2.1, stamp) s.trace.lost } }.aonAdd 418 1

/-- A source emits a trace record if its mask selects the kind (R415, R417). A frozen trace, or one that has taken its post-trigger
records, discards it without a marker. -/
def State.emit (s : State) (unit : Fin 1024) (kind ctx data0 : Nat) (data1 : List Byte) : State :=
  if !s.flag .dbgTraceCtrl F.dbgTraceCtrl_ENABLE || s.flag .dbgTraceStatus F.dbgTraceStatus_FROZEN ||
      s.trace.post = some 0 || !bitOf (s.fld (.dbgTraceSrc unit) F.dbgTraceSrc_MASK) kind then s
  else (s.traceQueue unit (s.traceRec unit.val kind ctx data0 data1)).traceServe unit

/-! ### Stalls -/

def State.stall (s : State) (n : Fin 128) : Stall := AMap.get {} n s.stalls
def State.setStall (s : State) (n : Fin 128) (t : Stall) : State := { s with stalls := AMap.set n t s.stalls }
def State.modStall (s : State) (n : Fin 128) (f : Stall → Stall) : State := s.setStall n (f (s.stall n))

/-- The stable and the yard of a stall (R14). -/
def stableOf (n : Fin 128) : Fin 16 := ⟨n.val / 8, by omega⟩
def yardOf (n : Fin 128) : Fin 4 := ⟨n.val / 32, by omega⟩

/-- UNIT numbers of a stall's logbooks (R410): 0 sequencer with sync unit, 1 matrix engine, 2 vector engine, 3 data
mover. -/
def stallUnit (n : Fin 128) (k : Fin 4) : Fin 1024 := ⟨4 * n.val + k.val, by omega⟩

/-- A predicate's bits: p0 reads as all ones (R121). -/
def Stall.pred (t : Stall) (p : PReg) : BitVec 256 := if p = 0 then BitVec.allOnes 256 else t.p[p]

/-- The same in program order, as a vector guard or `sel` sees it (R127). -/
def Stall.vpred (t : Stall) (p : PReg) : BitVec 256 := if p = 0 then BitVec.allOnes 256 else t.vp[p]

/-- Write a scalar register, a vector register, a predicate (p0 ignores writes, R121), a descriptor, a counter. -/
def Stall.setS (t : Stall) (r : SReg) (x : BitVec 64) : Stall := { t with s := t.s.set r x }
def Stall.setV (t : Stall) (r : VReg) (x : BitVec 2048) : Stall := { t with v := t.v.set r x }
def Stall.setP (t : Stall) (r : PReg) (x : BitVec 256) : Stall :=
  if r = 0 then t else { t with p := t.p.set r x, vp := t.vp.set r x }
def Stall.setVP (t : Stall) (r : PReg) (x : BitVec 256) : Stall := if r = 0 then t else { t with vp := t.vp.set r x }
def Stall.setT (t : Stall) (r : TReg) (x : BitVec 128) : Stall := { t with t := t.t.set r x }
def Stall.setC (t : Stall) (r : CReg) (x : BitVec 32) : Stall := { t with c := t.c.set r x }
def Stall.setAcc (t : Stall) (a : Fin 2) (x : Acc) : Stall := { t with acc := t.acc.set a x }

/-- Advance a tally counter, modulo 2^32 (R128). -/
def Stall.advance (t : Stall) (r : CReg) (n : BitVec 32) : Stall := t.setC r (t.c[r] + n)

/-- Advance the tally that a header or record names, if TEN is 1 (R128). -/
def Stall.tally (t : Stall) (ten : Bool) (tc : CReg) : Stall := if ten then t.advance tc 1 else t

/-- The guard of every class but VALU and VCVT: bit 0 of the guard predicate, after PNEG (R125). -/
def Stall.guard (t : Stall) (h : Hdr) : Bool := (t.pred h.pred).getLsbD 0 != h.pneg

/-- Whether a yard's clock runs (R356). -/
def State.yardRuns (s : State) (y : Fin 4) : Bool :=
  !s.flag (.clkYardStatus y) F.clkYardStatus_STOPPED && !s.flag (.clkYardStatus y) F.clkYardStatus_GATED

/-- The counter of an event on a stall. -/
def StallEvent.reg (n : Fin 128) : StallEvent → Reg
  | .cvtOverflow => .stlCvtOverflow n
  | .cvtUnderflow => .stlCvtUnderflow n
  | .cvtNanInt => .stlCvtNanInt n
  | .mxUnderflow => .stlMxUnderflow n
  | .mxClamp => .stlMxClamp n
  | .mmOverflow => .stlMmOverflow n
  | .mmUnderflow => .stlMmUnderflow n
  | .mmSpill => .stlMmSpill n
  | .mmWrap => .stlMmWrap n
  | .reserved => .stbSramRsvd (stableOf n)
  | .codewrite => .stlSeqCodewrite n

/-- Count what an instruction of a stall counts as it ends. -/
def State.count (s : State) (n : Fin 128) (cs : List (StallEvent × Nat)) : State := cs.foldl (fun s c => s.bump (c.1.reg n) c.2) s

/-- What an instruction does that a pending fence holds (R163, R165): nothing, reads only, writes or sends (with or
without reads), or it is one of the sync unit's, which start only after the earlier one has retired (R156). -/
inductive Uses where
  | none | reads | writes | sync
  deriving DecidableEq, Repr

/-- Whether the sequencer issues a next instruction now: a program runs, its yard's clock runs, no `halt` is pending,
and no wait or fence holds this instruction (R129, R163, R167). -/
def State.canIssue (s : State) (n : Fin 128) (u : Uses) : Bool :=
  let t := s.stall n
  s.dieUp && t.running && s.yardRuns (yardOf n) && t.halting.isNone &&
    match t.wait with
    | none => true
    | some (.tally _ _ _) => false
    | some (.barrier _ _ _) => false
    | some (.fence _ k _ _ _) =>
      match u, k with
      | .none, _ => true
      | .reads, .rel => true
      | _, _ => false

/-- The instruction word at a stall's program counter, as the loader wrote it (R148), for trace records of KIND 1. -/
def State.codeWord (s : State) (n : Fin 128) : List Byte :=
  let t := s.stall n
  let a := 0xF00040000000 + 0x800000 * n.val + t.codeBase + 8 * t.pc.toNat
  (List.range 8).map fun k => Memory.read s.mem (a + k)

/-- The part of issue that every instruction shares: the KIND 1 record, and the program counter past it. -/
def State.issued (s : State) (n : Fin 128) (k : Fin 4) : State :=
  let t := s.stall n
  let s := s.emit (stallUnit n k) 1 t.context t.pc.toNat (s.codeWord n)
  s.modStall n fun t => { t with pc := t.pc + 1 }

/-- The retire point (R128) of the instruction at a code index, with its status: the tally advances if TEN is 1, the instruction is
counted, and a KIND 2 record made. -/
def State.retire (s : State) (n : Fin 128) (k : Fin 4) (ten : Bool) (tc : CReg) (pc : BitVec 17) (st : Status := .ok) : State :=
  let s := s.modStall n fun t => { t.tally ten tc with lastRetire := s.frankNs }
  let s := s.bump (.stlSeqRetired n) 1
  let t := s.stall n
  s.emit (stallUnit n k) 2 t.context pc.toNat
    (toBytes 4 st.code ++ (if ten then toBytes 1 tc.val ++ toBytes 3 t.c[tc].toNat else []))

/-- Run an instruction's effect as its own access to memory (R16), and count what it is refused once a page (R183). -/
def State.acting {α : Type} (s : State) (x : Actor) (u : Uses) (f : State → State × α) : State × α :=
  if u = .none then f s
  else
    let p := f { s with actor := some x, refusing := some [] }
    ({ p.1 with actor := s.actor, refusing := s.refusing }, p.2)

/-- Run what counts as one instruction where accesses are refused: one event for each page, for all of it (R183). -/
def State.scope {α : Type} (s : State) (f : State → State × α) : State × α :=
  if s.refusing.isSome then f s
  else
    let p := f { s with refusing := some [] }
    ({ p.1 with refusing := none }, p.2)

/-- Run the rest of an instruction that has been refused some pages before (R183). -/
def State.rescoped (s : State) (pages : List (Fin 64 × Nat × Nat)) (f : State → State) : State :=
  { f { s with refusing := some pages } with refusing := s.refusing }

/-- The same for a change of the state that answers nothing. -/
def State.scoped (s : State) (f : State → State) : State := (s.scope fun s => (f s, ())).1

/-- The actor of an update instruction. -/
def updActor (n : Fin 128) (seq : Nat) : Actor := .unit n (some .vector) seq true

/-- An instruction of the sequencer's classes (R127): under its guard it has its effect, and it retires at once. -/
def State.sequencer (s : State) (h : Hdr) (u : Uses) (f : State → State) : Host.Outcome State Fault Refusal :=
  if s.canIssue h.stall u then
    let go := (s.stall h.stall).guard h
    let pc := (s.stall h.stall).pc
    let s := s.issued h.stall 0
    let s := if go then (s.acting (.unit h.stall none 0 false) u fun s => (f s, ())).1 else s
    .next (s.retire h.stall 0 h.ten h.tc pc)
  else .next s

/-- An instruction of the sequencer that changes only the stall's own registers. -/
def State.seqRegs (s : State) (h : Hdr) (f : Stall → Stall) : Host.Outcome State Fault Refusal :=
  s.sequencer h .none fun s => s.modStall h.stall f

/-- The unit's number within its stall (R410). -/
def unitCode : StallUnit → Fin 4
  | .matrix => 1 | .vector => 2 | .mover => 3

/-- A unit's record for an issued instruction, before its effect fills it in. `co` is its class and operation. -/
def State.newFlight (s : State) (unit : StallUnit) (h : Hdr) (co : Nat × Nat) : Flight :=
  let t := s.stall h.stall
  { unit := unit, seq := t.nextSeq, pc := t.pc, issuedAt := s.stampNow, cls := co.1, op := co.2, ten := h.ten, tc := h.tc }

/-- Put a record behind the stall's other instructions in flight. -/
def State.fly (s : State) (n : Fin 128) (f : Flight) : State :=
  s.modStall n fun t => { t with flights := t.flights ++ [f], nextSeq := t.nextSeq + 1 }

/-- The update instruction of a stall that waits, if any. -/
def Stall.updWaiting (t : Stall) : Option (Flight × UpdWait) :=
  t.flights.findSome? fun f => match f.kind with
    | .update (some w) => some (f, w)
    | _ => none

/-- The cause that a wait charges to the sequencer: TALLY_WAIT of a barrier too (R27, R167). -/
def Wait.cause : Wait → Nat
  | .fence _ _ _ _ _ => 4
  | _ => 3

/-- A run of cycles of one cause ends on a unit of a stall: its KIND 3 record (R27, R417). -/
def State.runEnds (s : State) (n : Fin 128) (unit : Fin 4) (cause cycles : Nat) : State :=
  if cycles = 0 then s else s.emit (stallUnit n unit) 3 (s.stall n).context cause (toBytes 4 cycles)

/-- The run that a stall's sequencer has spent in its wait ends. -/
def State.endRun (s : State) (n : Fin 128) : State :=
  match (s.stall n).wait with
  | some w => s.runEnds n 0 w.cause (s.stall n).waitCycles
  | none => s

/-- The run that a stall's vector engine has spent in the wait of an update instruction ends (R104, R112). -/
def State.endUpdRun (s : State) (n : Fin 128) : State :=
  (s.runEnds n 2 3 (s.stall n).updCycles).modStall n fun t => { t with updCycles := 0 }

/-- Whether a stall has an update instruction that has not retired; no later vector instruction starts (R156). -/
def Stall.updBusy (t : Stall) : Bool := t.flights.any fun x => match x.kind with | .update _ => true | _ => false

/-- Whether a stall's data mover holds a collective operation that cannot start yet; no later instruction of the mover
starts (R156, R269). -/
def State.moverHeld (s : State) (n : Fin 128) : Bool :=
  (s.stall n).flights.any fun f => s.collOps.any fun o => f.collOp = some o.id && !o.started

/-- Whether a unit starts an instruction now, of the UPD class where `upd` says so: a UPD starts only after every earlier instruction
of the vector engine has retired, and nothing there before it has (R156); nothing in the data mover while it holds a collective
operation that has not started (R269). -/
def State.unitFree (s : State) (n : Fin 128) (unit : StallUnit) (upd : Bool) : Bool :=
  match unit with
  | .vector => !(s.stall n).updBusy && !(upd && (s.stall n).flights.any fun f => f.unit = .vector)
  | .matrix => true
  | .mover => !s.moverHeld n

/-- Whether a matrix instruction may end before an earlier one: they use different accumulators, one works in the array and the
other on the readout path, and neither reads what the other writes (R89); one that ended with ST_FORMAT_MISMATCH works on neither, and
keeps its place (log entry 115). -/
def Flight.overtakes (f g : Flight) : Bool :=
  match f.mx, g.mx with
  | some a, some b => decide (a.acc ≠ b.acc) && a.out != b.out && !a.behind.contains g.seq
  | _, _ => false

/-- The actor of an instruction in flight. -/
def Flight.actor (f : Flight) (n : Fin 128) : Actor := .unit n (some f.unit) f.seq (f.cls = 9)

/-- Whether an instruction works on what an earlier one of its unit leaves in registers: every later one of the vector engine, and of
the matrix engine one of the same accumulator, or one that stays behind that readout (R89). -/
def Flight.follows (g f : Flight) : Bool :=
  decide (f.seq < g.seq) &&
    match g.unit, f.unit, g.mx, f.mx with
    | .vector, .vector, _, _ => true
    | .matrix, .matrix, some a, some b => decide (a.acc = b.acc) || a.behind.contains f.seq
    | _, _, _, _ => false

/-- The results of an instruction in flight are undefined in value: what it has written, and no access has found performed, holds free
values. -/
def State.undefine (s : State) (x : Actor) : State :=
  { s with underway := { s.underway with undef := x :: s.underway.undef }
           raceNo := s.raceNo + 1
           racing := s.racing.map fun c => { c with writes := c.writes.map fun w =>
             if w.actor = x then
               { w with bytes := w.bytes.map fun b => (b.1, (BitVec.ofNat 8 (Config.raced s.raceNo (c.word + b.1)), b.2.2)) }
             else w } }

/-- So are those of the instructions of a stall that work on them. -/
def State.spread (s : State) (n : Fin 128) : State :=
  if s.underway.undef.isEmpty then s
  else (s.stall n).flights.foldl (fun s g =>
    if !s.underway.undef.contains (g.actor n) &&
        (s.stall n).flights.any (fun f => s.underway.undef.contains (f.actor n) && g.follows f) then
      s.undefine (g.actor n)
    else s) s

/-- An instruction of the vector engine, matrix engine or data mover (R124): under its guard, `f` gives its effect and
completes its record; guarded off, it has no effect and still retires in its turn (R125). -/
def State.issueWith (s : State) (h : Hdr) (unit : StallUnit) (co : Nat × Nat) (u : Uses) (go : Bool)
    (f : State → Flight → State × Flight) : Host.Outcome State Fault Refusal :=
  if s.canIssue h.stall u && s.unitFree h.stall unit (co.1 = 9) then
    let r := s.newFlight unit h co
    let s := s.issued h.stall (unitCode unit)
    let (s, r) :=
      if go then s.acting (.unit h.stall (some unit) r.seq (co.1 = 9)) u fun s => f s r else (s, { r with guardOff := true })
    .next ((s.fly h.stall r).spread h.stall)
  else .next s

/-- `issueWith` under the guard of bit 0 (R125). -/
def State.issue (s : State) (h : Hdr) (unit : StallUnit) (co : Nat × Nat) (u : Uses)
    (f : State → Flight → State × Flight) : Host.Outcome State Fault Refusal :=
  s.issueWith h unit co u ((s.stall h.stall).guard h) f

/-! ### Faults (R128, R313) -/

/-- Stop a program's issue on a stall; its registers, its counters and its wait keep their values (R176). The run of cycles that it
spent in a wait ends. -/
def State.stopStall (s : State) (n : Fin 128) : State :=
  (if (s.stall n).running then s.endRun n else s).modStall n fun t => { t with running := false }

/-- Put a consignment's record back. -/
def State.setConsign (s : State) (id : Nat) (c : Consign) : State := { s with consigns := AMap.set id c s.consigns }

/-- A consignment's outcome becomes final; FRANK_END is when it passed its retire point, or else now (R311, R312, R408). -/
def State.finalise (s : State) (id : Nat) (c : Consign) : State :=
  let s := s.setConsign id { c with phase := .final, frankEnd := c.retiredAt.getD s.frankNs }
  let s := s.aonAdd (if c.status == .ok then 85 else 86) 1
  if c.status == .uncorrectable then s.aonAdd 370 1 else s

/-- Return a consignment that has not started, with its cause (R309). -/
def State.returnUnstarted (s : State) (id : Nat) (c : Consign) (cause : Nat) : State :=
  s.finalise id { c with status := .returnedUnstarted, detail := cause }

/-- Return every waiting consignment that satisfies `p` (R309). -/
def State.returnWaiting (s : State) (p : Consign → Bool) (cause : Nat) : State :=
  s.consigns.foldl (fun s e => if e.2.phase == .waiting && p e.2 then s.returnUnstarted e.1 e.2 cause else s) s

/-- A consignment has faulted: where STOP_ON_FAULT is 1 its queue pair stops, and returns what has not started (R313). -/
def State.stopQueue (s : State) (q : Fin 256) : State :=
  if s.flag (.hstQpCtrl q) F.hstQpCtrl_STOP_ON_FAULT then
    (s.setFld (.hstQpStatus q) F.hstQpStatus_STOPPED 1).returnWaiting (fun c => c.qp = q) 4
  else s

/-- Whether a fault comes before the one that its consignment reports so far: it stopped its stall first by franking time, ties
going to the lower stall number (R313). -/
def FaultInfo.before (i : FaultInfo) (f : Option FaultInfo) : Bool :=
  f.all fun f => decide (i.stamp < f.stamp) || (i.stamp = f.stamp && decide (i.stall < f.stall))

/-- A stall stops on a fault (R128, R313): the record of EVENT 0x0010, the consignment's first fault, its faulted stalls, and
issue stopped on every other stall of the consignment. A consignment that an abort or a reset ended first keeps that status
(R383). -/
def State.faultStall (s : State) (n : Fin 128) (k : Fin 4) (i : FaultInfo) (cls op : Nat) : State :=
  let t := s.stall n
  let i := { i with stamp := s.stampNow }
  let s := s.stopStall n
  let s := s.log (stallUnit n k) 0x0010 t.context
    (toBytes 1 i.status.code ++ toBytes 4 i.pc.toNat ++ toBytes 1 cls ++ toBytes 1 op)
  match s.consigns.find? fun e => e.1 = t.consignment with
  | none => s
  | some (id, c) =>
    let first := c.fault.isNone && c.ended.isNone
    let best := c.ended.isNone && n ∉ c.faulted && i.before c.fault
    let s := s.setConsign id { c with faulted := if n ∈ c.faulted then c.faulted else c.faulted ++ [n]
                                      fault := if best then some i else c.fault }
    let s := c.stalls.foldl (fun s m => s.stopStall m) s
    if first then s.stopQueue c.qp else s

end Sys2Proof.Machine
end

