-- ==== Sys2Proof/Machine/MemOps.lean ====
section
/-!
DEFINITION. Accesses to the memories: the address map (R177), poison and error correction (R191, R192, R198), the
poison log (R200), the guarded regions of the stores (R148, R190), and context translation (R180 to R185).
-/
namespace Sys2Proof.Machine

/-! ### Address map (R177) -/

def stallBase (n : Fin 128) : Nat := 0xF00040000000 + 0x800000 * n.val
def stableBase (t : Fin 16) : Nat := 0xF00000000000 + 0x2000000 * t.val
def isHbm (a : Nat) : Bool := decide (a < 2 ^ 39)
def isLoft (a : Nat) : Bool := decide (0x10000000000 ≤ a) && decide (a < 0x20000000000)
def isStable (a : Nat) : Bool := decide (0xF00000000000 ≤ a) && decide (a < 0xF00020000000)
def isStall (a : Nat) : Bool := decide (0xF00040000000 ≤ a) && decide (a < 0xF00080000000)

/-- Addresses that memory backs; reserved ranges read zeros and discard writes (R177). -/
def backed (a : Nat) : Bool := isHbm a || isLoft a || isStable a || isStall a

/-- Size of a stall store, or of a stable store. -/
def storeSize (stable : Bool) : Nat := if stable then 0x2000000 else 0x800000

/-- The chip physical address of an offset in a stall's own store, or its stable's, modulo the store size (R72, R139,
R140). -/
def storeAddr (n : Fin 128) (stable : Bool) (off : Nat) : Nat :=
  if stable then stableBase (stableOf n) + off % 0x2000000 else stallBase n + off % 0x800000

/-- The unit of error protection that holds an address: an 8-byte word of a store, a 64-byte unit of HBM or the loft
(R191, R198, R205). -/
def unitLen (a : Nat) : Nat := if isStable a || isStall a then 8 else 64
def unitOf (a : Nat) : Nat := a / unitLen a * unitLen a

/-- The units that a list of addresses touches, each once. -/
def unitsOf (as : List Nat) : List Nat := (as.map unitOf).eraseDups

/-- Pseudo-channel of an HBM address, and the byte offset within it (R194). -/
def pseudoChannel (a : Nat) : Nat := (a / 2 ^ 8 ^^^ a / 2 ^ 17 ^^^ a / 2 ^ 26) % 512
def channelOffset (a : Nat) : Nat := a / 2 ^ 17 * 2 ^ 8 + a % 256

/-- Stack and channel of an HBM address, and the yard beside a stack (R194). -/
def stackOf (a : Nat) : Fin 8 := Fin.ofNat 8 (pseudoChannel a / 64)
def channelOf (a : Nat) : Fin 64 := Fin.ofNat 64 (pseudoChannel a)
def yardBeside (k : Fin 8) : Fin 4 := ⟨k.val / 2, by omega⟩

/-- Package of a loft address (R205). -/
def loftPackage (a : Nat) : Nat :=
  let b := a - 0x10000000000
  (b / 2 ^ 8 ^^^ b / 2 ^ 12) % 16

/-! ### Writes under way (R16, R153 to R156, R171, R191, R286) -/

/-- Whether an access of `w` is not ordered before an access of `x` (R16, R89, R156): other units, two instructions of the data
mover, the collective engine, and what is no instruction of a stall. Instructions of the UPD class are ordered by the seals and
the tile marks (R96, R110), and one of them before the all-gather that it starts. -/
def Actor.unordered (w : Actor) : Option Actor → Bool
  | some (.unit m v r p') =>
    match w with
    | .unit n u q p => !(n = m && u = v && (q = r || u ≠ some .mover)) && !(p && p')
    | _ => true
  | some (.source _ who) => match w with | .unit n _ q p => !(p && decide (who = some (n, q))) | _ => true
  | _ => true

/-- The word that holds an address, and the address's place in it. -/
def wordOf (a : Nat) : Nat := a / 8 * 8

/-- The words of a unit of protection. -/
def wordsIn (u : Nat) : List Nat := (List.range (unitLen u / 8)).map fun k => u + 8 * k

/-- What one write makes of a word and of its unit's mark: the bytes it writes; poison where one of them is poisoned, none where it
covers the whole unit, and else the mark as it was (R191, R192, R198). -/
def RaceWrite.apply (w : RaceWrite) (c : List Byte × Bool) : List Byte × Bool :=
  (w.bytes.foldl (fun b x => b.set x.1 x.2.1) c.1, (w.bytes.any fun x => x.2.2) || (!w.whole && c.2))

/-- What a word holds once its first `k` writes have been performed, and whether its unit is poisoned on its account. -/
def Racing.content (c : Racing) (k : Nat) : List Byte × Bool := (c.writes.take k).foldl (fun x w => w.apply x) (c.base, c.mark)

/-- A word once all its writes have been performed. -/
def Racing.final (c : Racing) : List Byte × Bool := c.content c.writes.length

/-- The first `k` writes of a word have been performed. -/
def Racing.perform (c : Racing) (k : Nat) : Racing :=
  { c with base := (c.content k).1, mark := (c.content k).2, writes := c.writes.drop k }

/-- Records are kept of the words of a unit as long as a write of one of them is under way. -/
def racesLeft (cs : List Racing) : List Racing :=
  cs.filter fun c => cs.any fun d => unitOf d.word = unitOf c.word && !d.writes.isEmpty

/-- Whether a unit is poisoned, by what each of its words holds. -/
def unitMark (cs : List Racing) (u : Nat) (x : Racing → List Byte × Bool) : Bool := cs.any fun c => unitOf c.word = u && (x c).2

/-- A unit's place among the poisoned ones, as its mark says. -/
def markUnit (b : Bool) (p : List Nat) (u : Nat) : List Nat :=
  if b then (if u ∈ p then p else u :: p) else p.filter (· ≠ u)

/-- Whether a write of `w` becomes visible before one of `x`: both are vector stores of one stall, in program order (R156). -/
def Actor.storedBefore (w x : Actor) : Bool :=
  match w, x with
  | .unit n (some .vector) q false, .unit m (some .vector) r false => n = m && decide (q < r)
  | _, _ => false

/-- How many writes of a word stand at its head up to the last that satisfies `p`. -/
def Racing.upTo (c : Racing) (p : Actor → Bool) : Nat :=
  c.writes.length - (c.writes.reverse.takeWhile fun w => !p w.actor).length

/-- How many writes of a word have taken effect when an access of `x` comes: all up to the last that it is ordered behind, and of
the others as many as `free` says. -/
def Racing.seen (c : Racing) (x : Option Actor) (free : Nat) : Nat :=
  let k := c.upTo fun w => !w.unordered x
  if c.writes.length ≤ k then k else k + free % (c.writes.length - k + 1)

/-- How many writes of each word have been performed, where those of `cs` have, and with them all that becomes visible before them
(R156). A round of it reaches the words that the last one has not, so that as many rounds as there are writes reach them all. -/
def raceClose : Nat → List (Racing × Nat) → List (Racing × Nat)
  | 0, cs => cs
  | i + 1, cs =>
    let seen := cs.flatMap fun e => (e.1.writes.take e.2).map (·.actor)
    let cs' := cs.map fun e => (e.1, max e.2 (e.1.upTo fun w => seen.any fun x => w.storedBefore x))
    if cs'.map (·.2) = cs.map (·.2) then cs else raceClose i cs'

/-- On each word, as many of the writes under way have been performed as `k` says, and all that becomes visible before these. The
instructions that issued them have started. -/
def State.racesPerform (s : State) (k : Racing → Nat) : State :=
  if s.racing.isEmpty then s
  else
    let n := (s.racing.map fun c => c.writes.length).foldl (· + ·) 0
    let cs := raceClose n (s.racing.map fun c => (c, k c))
    let begun := cs.flatMap fun e => (e.1.writes.take e.2).map (·.actor)
    { s with racing := racesLeft (cs.map fun e => e.1.perform e.2)
             underway := { s.underway with begun := (begun ++ s.underway.begun).eraseDups } }

/-- The record of a word's writes under way, if any. -/
def State.raceAt (s : State) (w : Nat) : Option Racing := s.racing.find? fun c => c.word = w

/-- The byte at an address with its poison mark, as memory holds it. -/
def State.held (s : State) (a : Nat) : MByte :=
  if backed a then (Memory.read s.mem a, decide (unitOf a ∈ s.poison)) else (0, false)

/-- What the present access finds a word of a record to hold: the writes performed, and those it is ordered behind. -/
def State.finds (s : State) (c : Racing) : List Byte × Bool := c.content (c.upTo fun w => !w.unordered s.actor)

/-- The byte that the present access finds at an address, with its poison mark: that of the writes performed, and of those it is
ordered behind; of a collective's source, as it stands or as it stood before a write of it (R286). -/
def State.peek (s : State) (a : Nat) : MByte :=
  if s.racing.isEmpty && s.sourceWords.isEmpty then s.held a
  else
    let now := match s.raceAt (wordOf a) with
      | some c => ((s.finds c).1.getD (a % 8) (s.held a).1, unitMark s.racing (unitOf a) s.finds)
      | none => s.held a
    match s.actor with
    | some (.source i _) =>
      let olds := (s.sourceWords.filter fun x => x.op = i && x.word = wordOf a).map fun x => x.old.getD (a % 8) now
      (now :: olds).getD (Config.raceRead s.raceNo (wordOf a) % (olds.length + 1)) now
    | _ => now

/-- A further access, where choices may have to be made for it. -/
def State.nextAccess (s : State) : State :=
  if s.racing.isEmpty && s.sourceWords.isEmpty then s else { s with raceNo := s.raceNo + 1 }

/-- Before an access reads some addresses: of the writes under way on their words, those that it is ordered behind have been
performed, and as many more as Config says. What one access has found performed stays so for every other (R153, R155). -/
def State.racesRead (s : State) (as : List Nat) : State :=
  s.racesPerform fun c => if (as.map wordOf).contains c.word then c.seen s.actor (Config.raceRead s.raceNo c.word) else 0

/-- Whether an instruction in flight, or the present one, has issued an access. -/
def State.underWay (s : State) (w : Actor) : Bool :=
  decide (s.actor = some w) || match w with
    | .unit n _ q _ => (s.stall n).flights.any fun f => f.seq = q
    | _ => false

/-- The writes of instructions that have ended have been performed, and every write that took effect before them (R155, R160); and
what instructions and operations that have ended may have read is forgotten. -/
def State.racesEnd (s : State) : State :=
  let s := s.racesPerform fun c => c.upTo fun w => !s.underWay w
  { s with sourceWords := s.sourceWords.filter fun x => s.collOps.any fun o => o.id = x.op
           underway := { reads := s.underway.reads.filter fun x => s.underWay x.1, begun := s.underway.begun.filter s.underWay,
                         undef := s.underway.undef.filter s.underWay } }

/-- Memory and marks after a change of some words' writes under way: what they all leave. -/
def State.racesSettle (s : State) (cs : List Racing) (hit : Racing → Bool) : State :=
  let xs := cs.filter hit
  { s with mem := xs.foldl (fun m c => (List.range 8).foldl (fun m k => Memory.write m (c.word + k) (c.final.1.getD k 0)) m) s.mem
           poison := (xs.map fun c => unitOf c.word).eraseDups.foldl (fun p u => markUnit (unitMark cs u Racing.final) p u) s.poison
           racing := racesLeft cs }

/-- Some writes under way never happen (R379): their words hold what the others leave, with its marks. -/
def State.racesUndo (s : State) (gone : Actor → Nat → Bool) : State :=
  let hit := (s.racing.filter fun c => c.writes.any fun w => gone w.actor c.word).map (·.word)
  s.racesSettle (s.racing.map fun c => { c with writes := c.writes.filter fun w => !gone w.actor c.word })
    fun c => hit.contains c.word

/-- The bytes of a write that fall into one word, by their place in it. -/
def inWord (ws : List (Nat × MByte)) (w : Nat) : List (Nat × MByte) :=
  (ws.filter fun x => wordOf x.1 = w).map fun x => (x.1 % 8, x.2)

/-- The words that a write touches. -/
def wordsOf (ws : List (Nat × MByte)) : List Nat := (ws.map fun w => wordOf w.1).eraseDups

/-- The units that a write covers whole. -/
def wholeUnits (ws : List (Nat × MByte)) : List Nat :=
  (unitsOf (ws.map (·.1))).filter fun u => unitLen u ≤ ((ws.filter fun w => unitOf w.1 = u).map (·.1)).eraseDups.length

/-- The record of a word as a write of its unit finds it. -/
def State.raceRec (s : State) (w : Nat) : Racing :=
  (s.raceAt w).getD
    { word := w, base := (List.range 8).map fun k => Memory.read s.mem (w + k), mark := decide (unitOf w ∈ s.poison), writes := [] }

/-- Whether the present access is one of an instruction of a unit, whose writes are performed at some time up to its end. -/
def State.defers (s : State) : Bool := match s.actor with | some (.unit _ (some _) _ _) => true | _ => false

/-- Before an access that is performed at once writes some bytes: of the writes under way on their words, those that it is ordered
behind have been performed, and as many more as Config says; the others come after it (R171). -/
def State.racesPass (s : State) (ws : List (Nat × MByte)) : State :=
  if s.defers then s
  else s.racesPerform fun c =>
    if (wordsOf ws).contains c.word then c.seen s.actor (Config.raceWrite s.raceNo c.word) else 0

/-- The record of a word after the present access has written bytes of it, and of its unit, the whole where `whole` says so; and the
places in the word that later writes keep. -/
def State.raceWrite (s : State) (w : Nat) (bs : List (Nat × MByte)) (whole : Bool) : Racing × List Nat :=
  let c := s.raceRec w
  if bs.isEmpty then (c, [])
  else
    match s.actor with
    | some (.unit n (some u) q p) =>
      let k := c.seen s.actor (Config.raceWrite s.raceNo w)
      ({ c with writes := c.writes.take k ++ ⟨.unit n (some u) q p, bs, whole⟩ :: c.writes.drop k },
        (c.writes.drop k).flatMap fun x => x.bytes.map (·.1))
    | _ =>
      let x := RaceWrite.apply ⟨.engine, bs, whole⟩ (c.base, c.mark)
      ({ c with base := x.1, mark := x.2 }, c.writes.flatMap fun x => x.bytes.map (·.1))

/-- What a write leaves in memory, where it does not come before a write under way (R171). -/
def State.racesKeep (s : State) (ws : List (Nat × MByte)) : List (Nat × MByte) :=
  if s.racing.isEmpty then ws
  else ws.filter fun x => !((s.raceWrite (wordOf x.1) [(x.1 % 8, x.2)] false).2.contains (x.1 % 8))

/-- The records of the units that a write touches, and of the collective sources that it changes (R286). -/
def State.racesWrite (s : State) (ws : List (Nat × MByte)) : State :=
  let us := (unitsOf (ws.map (·.1))).filter fun u => s.defers || s.racing.any fun c => unitOf c.word = u
  let full := wholeUnits ws
  let recs := us.flatMap fun u => (wordsIn u).map fun w => (s.raceWrite w (inWord ws w) (full.contains u)).1
  let srcs := if s.actor = some .engine then []
    else s.collOps.flatMap fun o =>
      (wordsOf (ws.filter fun x => some x.1 ∈ o.src.els ++ o.src.scales)).map fun w =>
        ({ op := o.id, word := w, old := (List.range 8).map fun k => s.held (w + k) } : SourceWord)
  { s with racing := recs ++ s.racing.filter fun c => !us.contains (unitOf c.word)
           sourceWords := s.sourceWords ++ srcs }

/-! ### Results that are undefined in value (R16) -/

/-- A write that is not ordered behind an earlier instruction in flight overlaps what that instruction reads: it may have read the bytes
before or after the write, and its results are undefined in value (R16). -/
def State.racesHit (s : State) (ws : List (Nat × MByte)) : State :=
  if s.underway.reads.isEmpty then s
  else
    let words := wordsOf ws
    let hit := (s.underway.reads.filter fun r =>
      r.1.unordered s.actor && !s.underway.undef.contains r.1 && r.2.any words.contains).map (·.1)
    hit.eraseDups.foldl (fun s x =>
      let s := s.undefine x
      match x with | .unit n _ _ _ => s.spread n | _ => s) s

/-- What an instruction of a unit reads is remembered until its end. -/
def State.noteReads (s : State) (as : List Nat) : State :=
  match s.actor with
  | some (.unit n (some u) q p) =>
    if as.isEmpty then s
    else { s with underway := { s.underway with reads := (.unit n (some u) q p, as.map wordOf) :: s.underway.reads } }
  | _ => s

/-! ### Errors found (R191, R198 to R200, R205) -/

/-- A unit has lost its data: it is poisoned, whatever of it is under way, until a later write covers it (log entry 7). -/
def State.poisonUnit (s : State) (u : Nat) : State :=
  { s with poison := if u ∈ s.poison then s.poison else u :: s.poison
           racing := s.racing.map fun c =>
             if unitOf c.word = u then { c with mark := true, writes := c.writes.map fun w => { w with whole := false } } else c }

/-- Post one record of a unit's 2 MiB page to the poison log, or count it as lost; raise vector 256 and the porter's
event (R200, R301). -/
def State.postPoison (s : State) (a : Nat) (scrub : Bool) : State :=
  let head := s.fld .hbaPoisonHead F.hbaPoisonHead_INDEX
  let tail := s.fld .hbaPoisonTail F.hbaPoisonTail_INDEX
  if (tail + 1) % 64 = head then s.bump .hbaPoisonLost 1
  else
    let i := Fin.ofNat 64 tail
    let s := s.wr (.hbaPoisonRec0 i) (pack [(F.hbaPoisonRec0_PAGE, a / 2 ^ 21),
      (F.hbaPoisonRec0_TIER, if isLoft a then 1 else 0),
      (F.hbaPoisonRec0_CHAN, if isLoft a then loftPackage a else pseudoChannel a),
      (F.hbaPoisonRec0_SCRUB, if scrub then 1 else 0)])
    let s := s.wr (.hbaPoisonRec1 i) s.frankNs
    let s := s.setFld .hbaPoisonTail F.hbaPoisonTail_INDEX ((tail + 1) % 64)
    let s := s.aonAdd 160 1
    let s := s.raise 256
    { s with redfish := s.redfish ++ [.poison] }

/-- A fault is not recorded, because a VALID record stands in its register: the unit's logbook tells its status and the register's
number, which is its place in the list of its registers (R413; log entry 64). -/
def State.logUnrecorded (s : State) (unit : Fin 1024) (ctx : Nat) (st : Status) (reg : Nat) : State :=
  s.log unit 0x0012 ctx (toBytes 1 st.code ++ toBytes 1 reg)

/-- The first uncorrectable error of a store goes into its record; a later one while VALID stands, to the logbook (R193, R413). -/
def State.recordUe (s : State) (unit : Fin 1024) (r : Reg) (off : Nat) : State :=
  if s.flag r F.stlSramUeRec_VALID then s.logUnrecorded unit 0xFF .uncorrectable 2
  else s.wr r (pack [(F.stlSramUeRec_OFFSET, off), (F.stlSramUeRec_VALID, 1)])

/-- The record of a unit in which poison has been detected (R413). -/
def State.logPoison (s : State) (unit : Fin 1024) (u : Nat) : State :=
  s.log unit 0x0040 0xFF (toBytes 7 u ++ toBytes 1 (if isLoft u then 1 else 0))

/-- The memory or store unit that holds an address (R410). -/
def homeUnit (a : Nat) : Fin 1024 :=
  if isHbm a then ⟨0x218 + (stackOf a).val, by omega⟩
  else if isLoft a then 0x220
  else if isStall a then stallUnit (Fin.ofNat 128 ((a - 0xF00040000000) / 0x800000)) 0
  else ⟨0x200 + (Fin.ofNat 16 ((a - 0xF00000000000) / 0x2000000)).val, by omega⟩

/-- A new uncorrectable error at a unit: it is poisoned, counted and recorded; HBM and loft units also post to the
poison log. -/
def State.newUe (s : State) (u : Nat) (scrub : Bool) : State :=
  let s := { s with latentUe := s.latentUe.filter (· ≠ u) }.poisonUnit u
  let h := homeUnit u
  if isHbm u then ((s.bump (.hbaEccUe (stackOf u)) 1).logPoison h u).postPoison u scrub
  else if isLoft u then ((s.bump .lftEccUe 1).logPoison h u).postPoison u scrub
  else if isStall u then
    let n := Fin.ofNat 128 ((u - 0xF00040000000) / 0x800000)
    ((s.bump (.stlSramUe n) 1).recordUe h (.stlSramUeRec n) ((u - 0xF00040000000) % 0x800000)).logPoison h u
  else
    let t := Fin.ofNat 16 ((u - 0xF00000000000) / 0x2000000)
    ((s.bump (.stbSramUe t) 1).recordUe h (.stbSramUeRec t) ((u - 0xF00000000000) % 0x2000000)).logPoison h u

/-- A correctable error at a unit: corrected in the data, counted, and written back. -/
def State.newCe (s : State) (u : Nat) : State :=
  let s := { s with latentCe := s.latentCe.filter (· ≠ u) }
  if isHbm u then s.bump (.hbaEccCe (stackOf u)) 1
  else if isLoft u then s.bump .lftEccCe 1
  else if isStall u then s.bump (.stlSramCe (Fin.ofNat 128 ((u - 0xF00040000000) / 0x800000))) 1
  else s.bump (.stbSramCe (Fin.ofNat 16 ((u - 0xF00000000000) / 0x2000000))) 1

/-- Reading a unit finds the errors that are in it (R191, R198). -/
def State.touch (s : State) (u : Nat) (scrub : Bool := false) : State :=
  let s := if u ∈ s.latentUe then s.newUe u scrub else s
  if u ∈ s.latentCe then s.newCe u else s

/-! ### Reads and writes by chip physical address -/

/-- A request for one 64-byte unit reaches its HBM or loft controller: one in 2^RATE is traced, as KIND 6 (R417). -/
def State.request (s : State) (write : Bool) (u : Nat) : State :=
  if !(isHbm u || isLoft u) then s
  else
    let n := AMap.get 0 (homeUnit u) s.memReqs + 1
    let s := { s with memReqs := AMap.set (homeUnit u) n s.memReqs }
    if n % 2 ^ s.fld .dbgTraceCtrl F.dbgTraceCtrl_RATE ≠ 0 then s
    else s.emit (homeUnit u) 6 0xFF (u % 2 ^ 32) (toBytes 2 (u / 2 ^ 32) ++ toBytes 1 (if write then 1 else 0) ++ toBytes 1 1)

/-- Read a list of addresses: the errors found, the units read counted (R408), and the bytes with their marks. -/
def State.readMem (s : State) (as : List Nat) : State × List MByte :=
  let s := (s.nextAccess.racesRead as).noteReads as
  let us := unitsOf (as.filter backed)
  let s := us.foldl (fun s u => (s.request false u).touch u) s
  let s := (s.aonAdd 89 (us.filter isHbm).length).aonAdd 91 (us.filter isLoft).length
  (s, as.map s.peek)

/-- The mark of a unit after a write: poisoned where a byte of it is, clean where the write covers the unit, else as it was; stated where
no write of the unit is under way
(R191, R192, R198). -/
def poisonAfter (ws : List (Nat × MByte)) (full : List Nat) (p : List Nat) (u : Nat) : List Nat :=
  if ws.any fun w => unitOf w.1 = u && w.2.2 then markUnit true p u
  else if u ∈ full then markUnit false p u
  else p

/-- Write bytes at chip physical addresses, in order. A unit that is written in part is read first; of HBM, that read is a request of
its own (R191, R195, R198). -/
def State.writeMem (s : State) (ws : List (Nat × MByte)) : State :=
  let ws := ws.filter fun w => backed w.1
  let s := (s.nextAccess.racesPass ws).racesHit ws
  let keep := s.racesKeep ws
  let s := s.racesWrite ws
  let us := unitsOf (ws.map (·.1))
  let full := wholeUnits ws
  let part := us.filter fun u => isHbm u && u ∉ full
  let s := { s with latentUe := s.latentUe.filter (· ∉ full), latentCe := s.latentCe.filter (· ∉ full) }
  let s := us.foldl (fun s u => ((if u ∈ part then s.request false u else s).request true u).touch u) s
  let s := s.aonAdd 89 part.length
  let s := (s.aonAdd 90 (us.filter isHbm).length).aonAdd 92 (us.filter isLoft).length
  let mark := fun p u =>
    if s.racing.any fun c => unitOf c.word = u then markUnit (unitMark s.racing u Racing.final) p u else poisonAfter ws full p u
  { s with mem := keep.foldl (fun m w => Memory.write m w.1 w.2.1) s.mem
           poison := us.foldl mark s.poison }

/-- Clear a range of memory to zero with valid check bits: poison and latent errors in it are gone (R191, R371). -/
def State.clearRange (s : State) (lo hi : Nat) : State :=
  let out := fun u => decide (u < lo) || decide (hi ≤ u)
  { s with mem := Memory.clear lo hi s.mem, poison := s.poison.filter out,
           latentUe := s.latentUe.filter out, latentCe := s.latentCe.filter out, racing := s.racing.filter fun c => out c.word }

/-- Clear a stable's store and its eight stall stores (R371, R380). -/
def State.clearStores (s : State) (t : Fin 16) : State :=
  let s := s.clearRange (stableBase t) (stableBase t + 0x2000000)
  s.clearRange (0xF00040000000 + 0x4000000 * t.val) (0xF00040000000 + 0x4000000 * (t.val + 1))

/-! ### Guarded regions of the stores -/

/-- The stall whose running program's code region holds an address (R148). -/
def State.codeOwner (s : State) (a : Nat) : Option (Fin 128) :=
  if isStall a then
    let n := Fin.ofNat 128 ((a - 0xF00040000000) / 0x800000)
    let off := (a - 0xF00040000000) % 0x800000
    let t := s.stall n
    if t.running && decide (t.codeBase ≤ off) && decide (off < t.codeBase + t.codeBytes) then some n else none
  else none

/-- The stable whose reserved region, its top 4 MiB, holds an address (R190). -/
def rsvdOwner (a : Nat) : Option (Fin 16) :=
  if isStable a && decide (0x1C00000 ≤ (a - 0xF00000000000) % 0x2000000) then
    some (Fin.ofNat 16 ((a - 0xF00000000000) / 0x2000000))
  else none

/-- Count an instruction that reached the reserved region of a stable store, once for the stable (R190). -/
def State.countRsvd (s : State) (as : List Nat) : State :=
  (as.filterMap rsvdOwner).eraseDups.foldl (fun s t => s.bump (.stbSramRsvd t) 1) s

/-- The same event of an instruction that reaches its stall's own stores alone. -/
def rsvdEvent (as : List Nat) : List (StallEvent × Nat) := if as.any fun a => (rsvdOwner a).isSome then [(.reserved, 1)] else []

/-- The event of an instruction that would write to the code of the program that its stall runs (R148). -/
def State.codeEvent (s : State) (as : List Nat) : List (StallEvent × Nat) :=
  if as.any fun a => (s.codeOwner a).isSome then [(.codewrite, 1)] else []

/-- A write by a program, by a letter or by the host: bytes that would fall into a running program's code region or into a reserved
region are discarded (R148, R190). -/
def State.writeOpen (s : State) (ws : List (Nat × MByte)) : State :=
  s.writeMem (ws.filter fun w => (s.codeOwner w.1).isNone && (rsvdOwner w.1).isNone)

/-- The same, with the discards of the first kind counted, once a write and stall. The caller counts the second kind, once an
instruction. -/
def State.writeGuarded (s : State) (ws : List (Nat × MByte)) : State :=
  (ws.filterMap fun w => s.codeOwner w.1).eraseDups.foldl (fun s n => s.bump (.stlSeqCodewrite n) 1) (s.writeOpen ws)

/-- A byte as a program reads it: the reserved region reads zeros (R190). -/
def State.peekG (s : State) (a : Nat) : MByte := if (rsvdOwner a).isSome then (0, false) else s.peek a

/-- A read by a program. -/
def State.readGuarded (s : State) (as : List Nat) : State × List MByte :=
  let (s, _) := s.readMem (as.filter fun a => (rsvdOwner a).isNone)
  (s, as.map s.peekG)

/-- `n` consecutive offsets of a store from `off`, as addresses, wrapping at the store's end. -/
def storeRange (n : Fin 128) (stable : Bool) (off len : Nat) : List Nat :=
  (List.range len).map fun k => storeAddr n stable (off + k)

/-! ### Context translation (R180 to R185) -/

/-- What a walk gives: the base of the page, whether that is 1 GiB (`big`) or 2 MiB, and its permissions (R180, R181). -/
structure Leaf where
  pa : Nat
  big : Bool
  w : Bool
  rmt : Bool
  deriving DecidableEq, Repr

/-- Size of a page, as the number of its offset's bits. -/
def pageBits (big : Bool) : Nat := if big then 30 else 21

/-- One page-table entry: 8 bytes in HBM, and whether the unit is poisoned. -/
def State.pte (s : State) (a : Nat) : State × Nat × Bool :=
  let (s, bs) := s.readMem ((List.range 8).map (a + ·))
  (s, ofBytes (bs.map (·.1)), bs.any (·.2))

/-- The three-level walk of R180 to R182 from a root table. The error is the CAUSE of HST_XLAT_FAULT. -/
def State.walk (s : State) (root va : Nat) : State × Except Nat Leaf :=
  let pa := fun e => bitsOf e 12 36 * 2 ^ 12
  let s := s.aonAdd 162 1
  if !isHbm root then (s, .error 2) else
  let (s, e1, p1) := s.pte (root + 8 * bitsOf va 39 9)
  if p1 then (s, .error 6) else
  if !bitOf e1 0 then (s, .error 1) else
  if bitOf e1 1 || !isHbm (pa e1) then (s, .error 2) else
  let (s, e2, p2) := s.pte (pa e1 + 8 * bitsOf va 30 9)
  if p2 then (s, .error 6) else
  if !bitOf e2 0 then (s, .error 1) else
  if bitOf e2 1 then
    if pa e2 % 2 ^ 30 ≠ 0 || !(isHbm (pa e2) || isLoft (pa e2)) then (s, .error 2)
    else (s, .ok ⟨pa e2, true, bitOf e2 2, bitOf e2 3⟩)
  else if !isHbm (pa e2) then (s, .error 2) else
  let (s, e3, p3) := s.pte (pa e2 + 8 * bitsOf va 21 9)
  if p3 then (s, .error 6) else
  if !bitOf e3 0 then (s, .error 1) else
  if !bitOf e3 1 || pa e3 % 2 ^ 21 ≠ 0 || !(isHbm (pa e3) || isLoft (pa e3)) then (s, .error 2)
  else (s, .ok ⟨pa e3, false, bitOf e3 2, bitOf e3 3⟩)

/-- Whether a cached translation is that of an address of a context. -/
def XlatEntry.hits (e : XlatEntry) (c : Fin 64) (va : Nat) : Bool := e.ctx = c && e.page = va / 2 ^ pageBits e.big

/-- What a cached translation gives. -/
def XlatEntry.leaf (e : XlatEntry) : Leaf := ⟨e.pa, e.big, e.w, e.rmt⟩

/-- The translation cache that the accesses of a SOURCE code go through, and its entries: a stall's data mover has 32, the collective
engine 256; every other access uses the chip-wide one alone (R184; log entry 94). -/
def unitCache (source : Nat) : Option (Fin 129 × Nat) :=
  if h : source < 128 then some (⟨source, by omega⟩, 32) else if source = 0x80 then some (128, 256) else none

/-- A cache of `cap` entries takes one more; a full one gives up the entry that Config names. -/
def cacheIn (cap no : Nat) (es : List XlatEntry) (e : XlatEntry) : List XlatEntry :=
  if es.length < cap then e :: es else e :: es.eraseIdx (Config.xlatVictim no % es.length)

/-- A unit's cache takes a translation (R184). -/
def State.unitTakes (s : State) (source : Nat) (e : XlatEntry) : State :=
  match unitCache source with
  | some (u, cap) =>
    { s with xlatUnits := AMap.set u (cacheIn cap s.xlatNo (AMap.get [] u s.xlatUnits) e) s.xlatUnits, xlatNo := s.xlatNo + 1 }
  | none => s

/-- The chip-wide cache takes a translation (R184). -/
def State.chipTakes (s : State) (e : XlatEntry) : State :=
  { s with xlat := cacheIn 8192 s.xlatNo s.xlat e, xlatNo := s.xlatNo + 1 }

/-- The translations that the unit of a SOURCE code has cached. -/
def State.unitEntries (s : State) (source : Nat) : List XlatEntry :=
  match unitCache source with | some (u, _) => AMap.get [] u s.xlatUnits | none => []

/-- Discard every cached translation of a context, in every cache (R185, R186). -/
def State.xlatDiscard (s : State) (c : Fin 64) : State :=
  { s with xlat := s.xlat.filter fun e => e.ctx ≠ c
           xlatUnits := s.xlatUnits.map fun u => (u.1, u.2.filter fun e => e.ctx ≠ c) }

/-- Translate an address of a context: from the unit's cache, from the chip-wide one, or by a walk, whose success is cached in both
(R184, R185). -/
def State.page (s : State) (c : Fin 64) (va source : Nat) : State × Except Nat Leaf :=
  match (s.unitEntries source).find? fun e => e.hits c va with
  | some e => (s, .ok e.leaf)
  | none =>
    match s.xlat.find? fun e => e.hits c va with
    | some e => (s.unitTakes source e, .ok e.leaf)
    | none =>
      let root := (AMap.get (s.rd (.hstXlatRoot c)) c s.xlatRoot).toNat
      match s.walk root va with
      | (s, .ok l) =>
        let e : XlatEntry := ⟨c, va / 2 ^ pageBits l.big, l.big, l.pa, l.w, l.rmt⟩
        ((s.chipTakes e).unitTakes source e, .ok l)
      | (s, .error e) => (s, .error e)

/-- Count a refused page in HST_XLAT_REFUSED, once for an instruction, and record the first refusal in HST_XLAT_FAULT, a later one
in the logbook (R183, R187, R413). The page is told by the number of its offset's bits and its number; where an address has none,
its 2 MiB count as one (log entry 94). -/
def State.refuse (s : State) (c : Fin 64) (va cause : Nat) (write remote : Bool) (source : Nat)
    (page : Nat × Nat := (21, va / 2 ^ 21)) : State :=
  if (s.refusing.getD []).contains (c, page) then s
  else
    let s := { s with refusing := s.refusing.map fun ks => (c, page) :: ks }
    let s := s.bump (.hstXlatRefused c) 1
    let rec' := pack [(F.hstXlatFault_VA, va), (F.hstXlatFault_CAUSE, cause),
      (F.hstXlatFault_WRITE, if write then 1 else 0), (F.hstXlatFault_REMOTE, if remote then 1 else 0),
      (F.hstXlatFault_SOURCE, source), (F.hstXlatFault_VALID, 1)]
    if s.flag (.hstXlatFault c) F.hstXlatFault_VALID then s.logUnrecorded 0x232 c.val .ok 2 else s.wr (.hstXlatFault c) rec'

/-- The 64-bit addresses at which the 2 MiB pages of a range begin, or the range itself. -/
def pageStarts (x len : Nat) : List Nat :=
  (List.range ((x + len - 1) / 2 ^ 21 - x / 2 ^ 21 + 1)).map fun i => if i = 0 then x else (x / 2 ^ 21 + i) * 2 ^ 21

/-- Refuse a range of addresses that R179 or R268 excludes, with cause 5: one event for each 2 MiB of the 64-bit address. -/
def State.refuseRange (s : State) (c : Fin 64) (x len : Nat) (write : Bool) (source : Nat) : State :=
  (pageStarts x len).foldl (fun s y => s.refuse c (y % 2 ^ 48) 5 write false source (64, y / 2 ^ 21)) s

/-- Translate the page of an address for an access, counting and recording a refusal there (R183): the physical base of the page
and its size, as its offset's bits. -/
def State.grantPage (s : State) (c : Fin 64) (va : Nat) (write remote : Bool) (source : Nat) : State × Option Nat × Nat :=
  match s.page c va source with
  | (s, .error e) => (s.refuse c va e write remote source, none, 21)
  | (s, .ok l) =>
    let k := pageBits l.big
    if write && !l.w then (s.refuse c va 3 write remote source (k, va / 2 ^ k), none, k)
    else if remote && !l.rmt then (s.refuse c va 4 write remote source (k, va / 2 ^ k), none, k)
    else (s, some l.pa, k)

/-- Translate every page that a list of virtual addresses touches, each once, and answer the physical address of each, or none where
its page is refused (R182, R183). -/
def State.xlatAll (s : State) (c : Fin 64) (vas : List Nat) (write remote : Bool) (source : Nat) :
    State × List (Option Nat) :=
  s.scope fun s =>
    let vas := vas.map (· % 2 ^ 48)
    let pages := (vas.map (· / 2 ^ 21)).eraseDups
    let (s, m) := pages.foldl (fun (s, m) p =>
      let va := (vas.find? fun v => v / 2 ^ 21 = p).getD 0
      let (s, b) := s.grantPage c va write remote source
      (s, (p, b) :: m)) ((s, []) : State × AMap Nat (Option Nat × Nat))
    (s, vas.map fun v =>
      let b := AMap.get (none, 21) (v / 2 ^ 21) m
      b.1.map (· + v % 2 ^ b.2))

/-- Read a context's virtual addresses; a refused byte reads zero (R183). -/
def State.readCtx (s : State) (c : Fin 64) (vas : List Nat) (source : Nat) : State × List MByte :=
  let (s, ps) := s.xlatAll c vas false false source
  let (s, _) := s.readMem (ps.filterMap id)
  (s, ps.map fun p => match p with | some a => s.peek a | none => (0, false))

/-- Write a context's virtual addresses; a refused byte is discarded (R183). -/
def State.writeCtx (s : State) (c : Fin 64) (ws : List (Nat × MByte)) (source : Nat) : State :=
  let (s, ps) := s.xlatAll c (ws.map (·.1)) true false source
  s.writeMem ((ps.zip (ws.map (·.2))).filterMap fun e => e.1.map fun a => (a, e.2))

end Sys2Proof.Machine
end

