-- ==== Sys2Proof/Machine/Operands.lean ====
section
/-!
DEFINITION. Operand forms: immediates, store offsets, shape registers, tile descriptors and tile addressing (R71, R72,
R130, R132, R133, R139, R141).
-/
namespace Sys2Proof.Machine

/-- An immediate of 33 or 32 bits, sign-extended to 64 (R129, R130). -/
def imm33 (i : BitVec 33) : BitVec 64 := i.signExtend 64
def imm32 (i : BitVec 32) : BitVec 64 := i.signExtend 64

/-- A shift amount: bits [5:0] of an operand (R130). -/
def shamt (x : BitVec 64) : Nat := x.toNat % 64

/-- The store offset of an `sld` or `sst`: (sA + IMM32) modulo the store size, bits [2:0] ignored (R130). -/
def smemOff (stable : Bool) (base : BitVec 64) (i : BitVec 32) : Nat :=
  (base + imm32 i).toNat % storeSize stable / 8 * 8

/-- The store offset of a `vld` or `vst`: bits [5:0] ignored (R139). -/
def vmemOff (stable : Bool) (base : BitVec 64) (i : BitVec 32) : Nat :=
  (base + imm32 i).toNat % storeSize stable / 64 * 64

/-- The 8 addresses of an `sld` or `sst`, and the 256 of a `vld` or `vst`. -/
def smemAddrs (n : Fin 128) (stable : Bool) (base : BitVec 64) (i : BitVec 32) : List Nat :=
  storeRange n stable (smemOff stable base i) 8
def vmemAddrs (n : Fin 128) (stable : Bool) (base : BitVec 64) (i : BitVec 32) : List Nat :=
  storeRange n stable (vmemOff stable base i) 256

/-- The location of a poisoned store word in a completion (R311): type 2 a stall store, 3 a stable store. -/
def storeLoc (stable : Bool) (off : Nat) : Nat := (if stable then 3 else 2) * 2 ^ 62 + off / 8 * 8 % 2 ^ 25

/-- The location of a poisoned HBM or loft unit: its 2 MiB page (R311). -/
def pageLoc (a : Nat) : Nat := 2 ^ 62 + a / 2 ^ 21 * 2 ^ 21

/-! ### Tile descriptors (R132) -/

structure Desc where
  base : Nat
  stable : Bool
  linear : Bool
  pitch : Nat
  fmt : Nat
  scaleBase : Nat
  scalePitch : Nat
  shadowTd : TReg
  shadowEn : Bool
  deriving DecidableEq, Repr

/-- The fields of a descriptor, offsets and pitches in bytes. -/
def Desc.of (d : BitVec 128) : Desc :=
  let v := d.toNat
  { base := 128 * bitsOf v 0 18, stable := bitOf v 18, linear := bitOf v 19, pitch := 128 * (bitsOf v 20 12 + 1),
    fmt := bitsOf v 32 4, scaleBase := 16 * bitsOf v 36 21, scalePitch := 16 * (bitsOf v 64 8 + 1),
    shadowTd := Fin.ofNat 16 (bitsOf v 72 4), shadowEn := bitOf v 76 }

/-- The two words of a descriptor, and a descriptor from its words. -/
def descWord (d : BitVec 128) (hi : Bool) : BitVec 64 := if hi then d.extractLsb' 64 64 else d.extractLsb' 0 64
def descOf (w0 w1 : BitVec 64) : BitVec 128 := w1 ++ w0

/-- `tdadd`: sA[17:0] added to BASE_128 and sA[38:18] to SCALE_BASE_16, each modulo its width (R132). -/
def descAdd (d : BitVec 128) (x : BitVec 64) : BitVec 128 :=
  let v := d.toNat
  let b := (bitsOf v 0 18 + bitsOf x.toNat 0 18) % 2 ^ 18
  let sc := (bitsOf v 36 21 + bitsOf x.toNat 18 21) % 2 ^ 21
  BitVec.ofNat 128 (v - bitsOf v 0 18 - bitsOf v 36 21 * 2 ^ 36 + b + sc * 2 ^ 36)

/-- The store offset, before wrapping, of byte `j` of stored row `i` of a tile (R71). -/
def Desc.byteOff (d : Desc) (i j : Nat) : Nat :=
  let c := j / 16
  let c' := if d.linear then c else (c + i) % (d.pitch / 16)
  d.base + i * d.pitch + 16 * c' + j % 16

/-- The store offset, before wrapping, of the block scale of the stored element at row `i` and column `c` (R133):
`alongRows` when blocks run along stored rows. -/
def Desc.scaleOff (d : Desc) (alongRows : Bool) (i c : Nat) : Nat :=
  if alongRows then d.scaleBase + i * d.scalePitch + c / 32 else d.scaleBase + i / 32 * d.scalePitch + c

/-- Whether an offset wraps past the end of the descriptor's store (R72). -/
def Desc.wraps (d : Desc) (off : Nat) : Bool := decide (storeSize d.stable ≤ off)

/-- The chip physical address of an offset of the descriptor's store, wrapped (R72). -/
def Desc.addr (d : Desc) (n : Fin 128) (off : Nat) : Nat := storeAddr n d.stable off

/-! ### Shapes of the data mover (R141) -/

structure Shape where
  rowBytes : Nat
  rows : Nat
  gpitch : Nat

/-- A shape register: ROW_BYTES in [15:0], whose bits [3:0] are ignored, ROWS in [31:16], GPITCH in [63:32]. -/
def Shape.of (x : BitVec 64) : Shape :=
  { rowBytes := bitsOf x.toNat 0 16 / 16 * 16, rows := bitsOf x.toNat 16 16, gpitch := bitsOf x.toNat 32 32 }

/-- A copy length: sN[39:0]. -/
def moveLen (x : BitVec 64) : Nat := bitsOf x.toNat 0 40

/-! ### Vector elements (R35) -/

/-- Elements of a register in a format: 64, 128 or 256. -/
def elemCount (f : Fmt) : Nat := 2048 / fmtWidth f

/-- Element `e` of a register in a format. -/
def vElem (f : Fmt) (v : BitVec 2048) (e : Nat) : Nat := (v.extractLsb' (e * fmtWidth f) (fmtWidth f)).toNat

/-- A register from its elements, each `w` bits wide, element 0 lowest. -/
def vPack (w : Nat) (xs : List Nat) : BitVec 2048 :=
  BitVec.ofNat 2048 (xs.foldr (fun x acc => x % 2 ^ w + 2 ^ w * acc) 0)

/-- All elements of a register in a format. -/
def vElems (f : Fmt) (v : BitVec 2048) : List Nat := (List.range (elemCount f)).map (vElem f v)

/-- Whether element `e` of `count` elements is governed by a true bit of a predicate, after PNEG (R126). -/
def elemOn (p : BitVec 256) (neg : Bool) (count e : Nat) : Bool := p.getLsbD (e * (256 / count)) != neg

end Sys2Proof.Machine
end

