-- ==== Sys2Proof/Machine/Routing.lean ====
section
/-!
DEFINITION. Routing and virtual channels (R247, R248), the discards of the sorting office (R249), the sending of
letters, and the sending end of registered post (R316 to R319, R322).
-/
namespace Sys2Proof.Machine

/-! ### Chips and ports -/

/-- Coordinate of a chip number on axis `a`: 0 X, 1 Y, 2 Z, 3 W (R21). -/
def coord (chip : BitVec 14) (a : Fin 4) : Nat :=
  let v := chip.toNat
  match a with
  | 0 => bitsOf v 0 3 | 1 => bitsOf v 3 3 | 2 => bitsOf v 6 4 | 3 => bitsOf v 10 4

/-- The same chip with another coordinate on one axis (R21). -/
def withCoord (chip : BitVec 14) (a : Fin 4) (x : Nat) : BitVec 14 :=
  let c := fun b => if b = a then x else coord chip b
  BitVec.ofNat 14 (c 0 + c 1 * 8 + c 2 * 64 + c 3 * 1024)

/-- The axis and direction of a port (R207). -/
def portAxis (p : Fin 8) : Fin 4 := ⟨p.val / 2, by omega⟩
def portPlus (p : Fin 8) : Bool := p.val % 2 = 0
def axisPort (a : Fin 4) (plus : Bool) : Fin 8 := if plus then ⟨2 * a.val, by omega⟩ else ⟨2 * a.val + 1, by omega⟩

def State.portUp (s : State) (p : Fin 8) : Bool := s.portState p = 3

/-- Routing table fields of a version (R253, R262). -/
def State.rtLen (s : State) (v : Fin 2) (a : Fin 4) : Nat := s.fld (.soRtAxis v a) F.soRtAxis_LEN_M1 + 1
def State.rtShape (s : State) (v : Fin 2) (a : Fin 4) : Nat := s.fld (.soRtAxis v a) F.soRtAxis_SHAPE
def State.rtDir (s : State) (v : Fin 2) (a : Fin 4) (c : Nat) : Nat :=
  bitsOf (s.fld (.soRtAxis v a) F.soRtAxis_DIR) (2 * c) 2
def State.rtValid (s : State) (v : Fin 2) : Bool :=
  s.flag .soRtCtrl (if v = 0 then F.soRtCtrl_VALID0 else F.soRtCtrl_VALID1)
def epochVer (e : Bool) : Fin 2 := if e then 1 else 0

/-- One axis of the routing decision: none where this axis has arrived; otherwise a port, or no route, as the code of R247 has it, whose
integers are C's. -/
def State.routeAxis (s : State) (v : Fin 2) (dest : BitVec 14) (a : Fin 4) : Option (Option (Fin 8)) :=
  let d := coord dest a
  let me := coord s.chip a
  if d = me then none
  else if s.rtLen v a ≤ d || 2 ≤ s.rtShape v a then some none
  else
    let e := s.rtDir v a d
    if e = 3 then some none
    else
      let plus :=
        if e = 1 then true
        else if e = 2 then false
        else if s.rtShape v a = 1 then decide (me < d)
        else
          let n : Int := s.rtLen v a
          let f := Int.tmod (d + n - me) n % 256
          decide (f ≤ n - f)
      some (some (axisPort a plus))

/-- The routing decision of R247: a port, port 8 (arrived), or no route. -/
inductive Route where
  | port (p : Fin 8) | arrived | noRoute
  deriving DecidableEq, Repr

def State.route (s : State) (v : Fin 2) (dest : BitVec 14) : Route :=
  match [3, 2, 1, 0].findSome? (fun a => s.routeAxis v dest a) with
  | none => .arrived
  | some none => .noRoute
  | some (some p) => .port p

/-- Coordinate of the next chip on a port: the accepted peer beyond skipped chips, or the direct neighbour (R228). -/
def State.nextCoord (s : State) (v : Fin 2) (p : Fin 8) : Nat :=
  let a := portAxis p
  let n := s.rtLen v a
  let k := if s.flag (.soPortStatus p) F.soPortStatus_BYPASS_HOP then s.fld (.soPortPeer p) F.soPortPeer_SKIP_COUNT + 1 else 1
  let me := coord s.chip a
  if portPlus p then (me + k) % n else (me + n * k - k) % n

/-- Whether the hop over a port crosses the dateline of its ring; no hop on a line does (R248). -/
def State.crosses (s : State) (v : Fin 2) (p : Fin 8) : Bool :=
  s.rtShape v (portAxis p) = 0 &&
    if portPlus p then decide (s.nextCoord v p < coord s.chip (portAxis p))
    else decide (coord s.chip (portAxis p) < s.nextCoord v p)

/-- Low VC of a class, for COLL of the group that TARGET names (R236), and whether the class has a pair. -/
def lowVc (lt : Letter) : Nat :=
  match lt.cls with
  | .mgmt => 0 | .diag => 1 | .request => 2 | .response => 4 | .receipt => 4 | .bulk => 6 | .slot => 6
  | .coll => 8 + 2 * bitsOf lt.target.toNat 0 2
def hasPair (c : LClass) : Bool := !(c == .mgmt || c == .diag)

/-- The VC of a hop (R248): low on entering an axis, high from the hop that crosses the dateline on. -/
def State.hopVc (s : State) (v : Fin 2) (lt : Letter) (arrived : Option (Fin 8)) (p : Fin 8) : Fin 16 :=
  let onAxis := match arrived with | some q => portAxis q = portAxis p | none => False
  let high := s.crosses v p || (onAxis && decide (lt.vc.val = lowVc lt + 1))
  Fin.ofNat 16 (if high && hasPair lt.cls then lowVc lt + 1 else lowVc lt)

/-- The axis length of the installed torus (R228, R347). -/
def State.planTorus (s : State) (a : Fin 4) : Nat := bitsOf (s.rd .ptrPlanChip).toNat (16 + 4 * a.val) 4 + 1

/-- The chip `j` steps beyond the direct neighbour of a port. -/
def State.chipBeyond (s : State) (p : Fin 8) (j : Nat) : BitVec 14 :=
  let a := portAxis p
  let n := s.planTorus a
  let me := coord s.chip a
  withCoord s.chip a (if portPlus p then (me + j + 1) % n else (me + n * (j + 1) - (j + 1)) % n)

/-- Whether a destination is among the skipped chips of a bypass-hop port (R228, R229). -/
def State.skips (s : State) (p : Fin 8) (dest : BitVec 14) : Bool :=
  s.flag (.soPortStatus p) F.soPortStatus_BYPASS_HOP &&
    (List.range (s.fld (.soPortPeer p) F.soPortPeer_SKIP_COUNT)).any fun j => dest = s.chipBeyond p j

/-- Put a letter behind an output port, one hop further; or discard it where the port does not carry it, or its
destination is skipped (R249). `src` is the port that a through letter arrived on (R244). -/
def State.toPort (s : State) (lt : Letter) (p : Fin 8) (vc : Fin 16) (src : Option (Fin 8)) : State :=
  if !s.carries p lt.cls src.isSome then s.bump (.soPortDowndrop p) 1
  else if s.skips p lt.dest then s.bump (.soPortSkipped p) 1
  else { s with outQ := s.outQ ++ [{ port := p, src := src, inVc := if src.isSome then lt.vc else vc, lt := { lt with vc := vc, hops := lt.hops + 1 } }] }

/-- Route a letter on the version its EPOCH names: to an output port, to this chip's inbox, or into a counted discard
(R247, R249). `arrived` is the port of a through letter. -/
def State.forward (s : State) (lt : Letter) (arrived : Option (Fin 8)) : State :=
  let v := epochVer lt.epoch
  if !s.rtValid v then s.bump .soEpochStale 1
  else match s.route v lt.dest with
    | .noRoute => s.bump .soNoroute 1
    | .arrived => { s with inbox := s.inbox ++ [lt] }
    | .port p => s.toPort lt p (s.hopVc v lt arrived p) arrived

/-- The stamps that a source puts on a letter as it leaves (R235, R254). -/
def State.stamp (s : State) (lt : Letter) : Letter :=
  { lt with src := s.chip, epoch := s.srcEpoch, hops := 0, frankNs := s.frankNs, frankFrac := BitVec.ofNat 8 s.frankFrac }

/-- The KIND 4 record of a letter head at a port, or at port 8, whose unit is the sorting office (R417). -/
def State.traceHead (s : State) (unit : Fin 1024) (lt : Letter) (sent : Bool) : State :=
  s.emit unit 4 0xFF lt.postmark.toNat (toBytes 2 lt.dest.toNat ++ toBytes 2 lt.src.toNat ++ toBytes 1 lt.cls.code ++
    toBytes 1 lt.vc.val ++ toBytes 1 lt.op.toNat ++ toBytes 2 lt.length ++ toBytes 1 (if sent then 1 else 0))

/-- Send a letter of this chip through port 8 (R254). -/
def State.send (s : State) (lt : Letter) : State :=
  let lt := s.stamp lt
  (s.traceHead 0x230 lt true).forward lt none

/-- Send a letter over a port that its engine chose, without the routing tables (R273). -/
def State.sendOn (s : State) (lt : Letter) (p : Fin 8) : State :=
  let lt := s.stamp lt
  (s.traceHead 0x230 lt true).toPort lt p (s.hopVc (epochVer lt.epoch) lt (some p) p) none

/-! ### Contexts of letters -/

def State.ctxState (s : State) (c : Fin 64) : Nat := s.fld (.hstCtxStatus c) F.hstCtxStatus_STATE
def State.jobTag (s : State) (c : Fin 64) : BitVec 16 := BitVec.ofNat 16 (s.fld (.hstCtxCtrl c) F.hstCtxCtrl_JOB_TAG)

/-- The start stage, and whether global addressing is on: Stage 3, and not in quarantine mode (R344, R345). -/
def State.stage (s : State) : Nat := s.fld .ptrStage F.ptrStage_STAGE
def State.quarantined (s : State) : Bool := s.flag .ptrStage F.ptrStage_QUARANTINE
def State.globalOn (s : State) : Bool := s.stage = 3 && !s.quarantined

/-- The context that a job tag selects (R235, R303). -/
def State.ctxOfTag (s : State) (tag : BitVec 16) : Option (Fin 64) :=
  (List.finRange 64).find? fun c => s.ctxState c ≠ 0 && s.jobTag c = tag && tag ≠ 0

/-- Whether a context is fenced (R261). -/
def State.fenced (s : State) (c : Fin 64) : Bool :=
  bitOf (s.rd .soCtxFence).toNat c.val || bitOf (s.rd .soCtxResetting).toNat c.val

/-! ### Registered post, sending end (R316 to R319, R322) -/

def State.sendStream (s : State) (k : StreamKey) : SendStream := AMap.get {} k s.sendStreams
def State.setSend (s : State) (k : StreamKey) (x : SendStream) : State :=
  { s with sendStreams := AMap.set k x s.sendStreams }

/-- How far a postmark is ahead of the oldest postmark of its stream that is neither receipted nor cleared (R319). -/
def State.oldestGap (s : State) (k : StreamKey) (p : BitVec 32) : Nat :=
  ((s.outstanding.filter fun o => o.key = k).map fun o => (p - o.letter.postmark).toNat).foldl max 0

/-- Whether the window of its stream, and the copy store of its context, have room for a new letter (R319). -/
def State.postRoom (s : State) (o : Outstanding) : Bool :=
  decide (s.oldestGap o.key (s.sendStream o.key).next < 4096) &&
    (!(o.key.cls == .bulk || o.key.cls == .slot) ||
      decide ((s.outstanding.filter fun x => x.ctx = o.ctx && (x.key.cls == .bulk || x.key.cls == .slot)).length < 8192))

/-- Whether a new letter of a stream may start (R319, R322, R323). -/
def State.mayStart (s : State) (o : Outstanding) : Bool :=
  let st := s.sendStream o.key
  !st.broken && st.givenUp.isNone && st.clearing.isNone && s.postRoom o

/-- Put a transmission of a registered letter on its way, by the routing tables or over the port its engine chose. -/
def State.transmit (s : State) (o : Outstanding) : State :=
  match o.port with
  | some p => s.sendOn o.letter p
  | none => s.send o.letter

/-! ### Payloads -/

/-- The POISON_MASK of a marked payload: bit k for body flit k (R235, R238). -/
def poisonMask (bs : List MByte) : BitVec 64 :=
  BitVec.ofNat 64 ((List.range 64).foldr (fun k acc =>
    (if ((bs.drop (64 * k)).take 64).any (·.2) then 1 else 0) + 2 * acc) 0)

/-- A payload with the marks that a letter's POISON_MASK gives it. -/
def markedBody (lt : Letter) : List MByte :=
  (List.range lt.length).map fun i => (lt.body.getD i 0, lt.poison.getLsbD (i / 64))

/-! ### Where the sender keeps its letters (R190, R282, R283, R319) -/

/-- The stables that take part in collective work (R283). -/
def State.enabledStables (s : State) : List (Fin 16) :=
  (List.finRange 16).filter fun t => !bitOf (s.fld .ptrMemResult F.ptrMemResult_STABLE_OFF) t.val

/-- 2 × CHUNK + HALF + LETTER of a letter, or I + J + LETTER of a keyed one (R282). A circular is the only letter of its pass. -/
def collShare (lt : Letter) : Nat :=
  let t := lt.target.toNat
  let b := fun off n => natAt lt.body (4032 + off) n
  if lt.op = 4 then 0
  else if bitsOf t 14 2 = 3 then 2 * bitsOf t 17 4 + bitsOf t 16 1 + bitsOf t 32 32 / 4096
  else if bitOf t 21 then b 0x1A 3 + b 0x1D 3 + b 0 4
  else 2 * bitsOf t 17 4 + bitsOf t 16 1 + b 0 4

/-- The stable that a COLL letter goes to (R283). -/
def State.collStable (s : State) (lt : Letter) : Option (Fin 16) :=
  let on := s.enabledStables
  on[collShare lt % on.length]?

/-- The staging area of a COLL letter: its group's, for the dateline half of its VC (R282). -/
def collArea (lt : Letter) : Fin 8 :=
  Fin.ofNat 8 (2 * bitsOf lt.target.toNat 0 2 + if lt.vc.val = lowVc lt + 1 then 1 else 0)

/-- The address of a place in staging (log entry 99). -/
def Frame.addr (f : Frame) : Nat := stableBase f.stable + 0x1C00000 + 0x80000 * f.area.val + 4096 * f.no.val

/-- Whether a registered letter is a copy of a circular that this chip passes on. -/
def Outstanding.passed (o : Outstanding) : Bool := match o.owner with | .circ _ => true | _ => false

/-- Whether a letter that waits for an output is this chip's own letter of a stream with a postmark. -/
def OutLetter.isOf (q : OutLetter) (k : StreamKey) (pm : BitVec 32) : Bool :=
  q.src.isNone && q.lt.cls == k.cls && q.lt.dest = k.chip && q.lt.jobTag = k.tag && q.lt.postmark = pm

/-- Whether a transmission of a letter of this chip still waits for its output. -/
def State.leaving (s : State) (k : StreamKey) (pm : BitVec 32) : Bool := s.outQ.any fun q => q.isOf k pm

/-- Whether a copy of a circular that this chip passes on has not left it yet: its first transmission waits for its output (R259). -/
def State.unsent (s : State) (id : Nat) (o : Outstanding) : Bool :=
  o.owner = .circ id && o.tries = 0 && s.leaving o.key o.letter.postmark

/-- Whether staging holds a circular: while a copy of it has not left the chip (R259). -/
def State.circHeld (s : State) (x : Circ) : Bool :=
  s.postQ.any (fun o => o.owner = .circ x.id) || s.outstanding.any (s.unsent x.id)

/-- The copies of a circular that have not left the chip are taken back. -/
def State.circRecall (s : State) (x : Circ) : State :=
  let gone := s.outstanding.filter (s.unsent x.id)
  { s with postQ := s.postQ.filter fun o => o.owner ≠ .circ x.id
           outQ := s.outQ.filter fun q => !gone.any fun o => q.isOf o.key o.letter.postmark }

/-- The places in staging that are taken, each with the context whose letter it holds: by letters received, by partials, by letters
sent, and by a circular while a copy of it has not left (R259). -/
def State.frames (s : State) : List (Fin 64 × Frame) :=
  (s.collStage.map fun g => (g.ctx, g.frame)) ++
    (s.collOps.flatMap fun o => o.partials.map fun p => (o.ctx, p.frame)) ++
    ((s.postQ ++ s.outstanding).filterMap fun o => o.frame.map fun f => (o.ctx, f)) ++
    ((s.circs.filter fun x => s.circHeld x).filterMap fun x => x.frame.map fun f => (x.ctx, f))

/-- The free places for a COLL letter in its area of its stable. -/
def State.freeFrames (s : State) (lt : Letter) : List Frame :=
  match s.collStable lt with
  | none => []
  | some t =>
    let taken := s.frames.map (·.2)
    ((List.finRange 128).map fun k => (⟨t, collArea lt, k⟩ : Frame)).filter fun f => !taken.contains f

/-- The module writes bytes for itself: they are no access of an instruction. -/
def State.engineWrite (s : State) (a : Nat) (bs : List MByte) : State :=
  (s.acting .engine .writes fun s => (s.writeMem (bs.zipIdx.map fun e => (a + e.2, e.1)), ())).1

/-- Put a letter in its place in staging. -/
def State.stageIn (s : State) (f : Frame) (lt : Letter) : State := s.engineWrite f.addr (markedBody lt)

/-- Whether the sender keeps a letter in its context's copy store (R319). -/
def Outstanding.copied (o : Outstanding) : Bool := o.key.cls == .bulk || o.key.cls == .slot

/-- The lowest free place in a context's copy store. -/
def State.copyPlace (s : State) (c : Fin 64) : Nat :=
  let taken := (s.outstanding.filter fun x => x.ctx = c).filterMap (·.copy)
  ((List.range 8192).find? fun i => !taken.contains i).getD 0

/-- The address of a place in a context's copy store: the second 32 MiB of its post region (R302; log entry 100). -/
def State.copyAddr (s : State) (c : Fin 64) (i : Nat) : Nat :=
  s.fld (.hstCtxPost c) F.hstCtxPost_POST_PA * 2 ^ 26 + 2 ^ 25 + 4096 * i

/-- The place in staging of a COLL letter that is to start: that of the letter it was made from; none for a circular that is passed
on; or a free one of its area, where another stays free for letters that arrive (log entry 99). -/
def State.placed (s : State) (o : Outstanding) : Option Outstanding :=
  if o.key.cls != .coll || o.frame.isSome || o.passed then some o
  else match s.freeFrames o.letter with
    | f :: _ :: _ => some { o with frame := some f }
    | _ => none

/-- Keep a letter that starts: a COLL letter in staging, a BULK or SLOT letter in the copy store (R319). -/
def State.keep (s : State) (o : Outstanding) : State × Outstanding :=
  if o.copied then
    let i := s.copyPlace o.ctx
    (s.engineWrite (s.copyAddr o.ctx i) (markedBody o.letter), { o with copy := some i })
  else match o.frame with
    | some f => (s.stageIn f o.letter, o)
    | none => (s, o)

/-- Retransmissions before a postmark is given up. A timer takes the number as it starts (R318, R324). -/
def State.retries (s : State) : Nat := s.fld .soPostCtrl F.soPostCtrl_RETRIES

/-- The payload of a letter as it starts: undefined in value where the results of its instruction are (R16; log entry 6). -/
def State.payload (s : State) (o : Outstanding) (postmark : BitVec 32) : List Byte :=
  match o.owner with
  | .flight n seq =>
    if s.underway.undef.any fun x => match x with | .unit m _ q _ => m = n && q = seq | _ => false then
      let place := 2 ^ 80 + ((o.key.chip.toNat * 64 + o.key.cls.code) * 2 ^ 32 + postmark.toNat) * 4096
      o.letter.body.zipIdx.map fun b => BitVec.ofNat 8 (Config.raced s.raceNo (place + b.2))
    else o.letter.body
  | _ => o.letter.body

/-- Start a letter: it takes the next postmark of its stream, is kept, and goes on its way (R316, R319). -/
def State.startPost (s : State) (o : Outstanding) : State :=
  let st := s.sendStream o.key
  let o := { o with letter := { o.letter with postmark := st.next, epoch := s.srcEpoch, body := s.payload o st.next }, limit := s.retries }
  let (s, o) := (s.setSend o.key { st with next := st.next + 1 }).keep o
  { s with outstanding := s.outstanding ++ [o] }.transmit o

/-- Start every queued letter that may start, in order; the others keep waiting (R319). -/
def State.pumpPost (s : State) : State :=
  s.postQ.foldl (fun s o =>
    match s.placed o with
    | some o' => if s.mayStart o then { s with postQ := s.postQ.erase o }.startPost o' else s
    | none => s) s

/-- Hand registered letters to the post. -/
def State.post (s : State) (os : List Outstanding) : State :=
  if os.isEmpty then s else { s with postQ := s.postQ ++ os }.pumpPost

/-- Cut `len` bytes into pieces of at most 4,096: offset and length of each (R140, R144, R172). -/
def pieces (len : Nat) : List (Nat × Nat) :=
  (List.range (ceilDiv len 4096)).map fun k => (4096 * k, min 4096 (len - 4096 * k))

end Sys2Proof.Machine
end

