-- ==== Sys2Proof/Machine/Carrier.lean ====
section
/-!
DEFINITION. Carriers of a collective: the body of a ring or tree letter (R279), and the arithmetic of a reduction (R274 to
R276, R290, R291).
-/
namespace Sys2Proof.Machine

/-! ### The letter body (R279) -/

/-- A ring or tree letter's body, taken apart. `xs` are element bits, `scales` block scale codes, `esc` the escalation
bits by block. -/
structure Carrier where
  k : Nat := 0
  elems : Nat := 0
  nanElems : Nat := 0
  nanIdx : Nat := 0xFFFF
  nanPos : Nat := 0xFF
  fmt : Nat := 0
  posMask : Nat := 0
  escBlocks : Nat := 0
  ufElems : Nat := 0
  key : TileKey := ⟨0, 0, 0, 0⟩
  opk : Nat := 0
  destVa : Nat := 0
  rowStride : Nat := 0
  tileM : Nat := 0
  tileN : Nat := 0
  xs : List Nat := []
  scales : List Nat := []
  esc : Nat := 0
  poison : BitVec 64 := 0
  deriving DecidableEq, Repr

/-- Elements of a letter: for a scale round, block bytes. -/
def perLetter (f : Fmt) (phase : Nat) : Nat :=
  if phase = 2 then 4032 else if isMx f then 3840 else if fmtWidth f = 16 then 2016 else 4032

/-- Bytes of an element of a letter's carrier. -/
def carrierBytes (f : Fmt) (phase : Nat) : Nat := if phase = 2 then 1 else fmtWidth f / 8

def padTo (n : Nat) (bs : List Byte) : List Byte := bytesAt bs 0 n

/-- The 4,096 bytes of a body. -/
def Carrier.encode (c : Carrier) (f : Fmt) (phase : Nat) : List Byte :=
  let els := (c.xs.map fun x => toBytes (carrierBytes f phase) x).flatten
  let data :=
    if phase ≠ 2 && isMx f then
      padTo 3840 els ++ padTo 128 (c.scales.map fun x => BitVec.ofNat 8 x) ++ toBytes 64 (c.esc % 2 ^ 120)
    else padTo 4032 els
  data ++ toBytes 4 c.k ++ toBytes 4 c.elems ++ toBytes 2 c.nanElems ++ toBytes 2 c.nanIdx ++ toBytes 1 c.nanPos ++
    toBytes 1 c.fmt ++ toBytes 2 c.posMask ++ toBytes 2 c.escBlocks ++ toBytes 2 c.ufElems ++ toBytes 4 c.key.step ++
    toBytes 2 (c.key.group % 4096) ++ toBytes 3 c.key.band ++ toBytes 3 c.key.col ++ toBytes 1 c.opk ++ toBytes 7 0 ++
    toBytes 8 c.destVa ++ toBytes 4 c.rowStride ++ toBytes 2 c.tileM ++ toBytes 2 c.tileN ++ toBytes 8 0

/-- A body taken apart; a poisoned trailer poisons every flit (R291). -/
def Carrier.decode (lt : Letter) (f : Fmt) (phase : Nat) : Carrier :=
  let t := fun off n => natAt lt.body (4032 + off) n
  let elems := t 0x04 4
  let n := Nat.min elems (perLetter f phase)
  let w := carrierBytes f phase
  let mx := phase ≠ 2 && isMx f
  { k := t 0 4, elems := elems, nanElems := t 8 2, nanIdx := t 0xA 2, nanPos := t 0xC 1, fmt := t 0xD 1, posMask := t 0xE 2,
    escBlocks := t 0x10 2, ufElems := t 0x12 2, key := ⟨t 0x14 4, t 0x18 2 % 4096, t 0x1A 3, t 0x1D 3⟩, opk := t 0x20 1,
    destVa := t 0x28 8, rowStride := t 0x30 4, tileM := t 0x34 2, tileN := t 0x36 2,
    xs := (List.range n).map fun i => natAt lt.body (w * i) w,
    scales := if mx then (List.range (n / 32)).map fun b => natAt lt.body (3840 + b) 1 else [],
    esc := if mx then natAt lt.body 3968 15 else 0,
    poison := if lt.poison.getLsbD 63 then BitVec.allOnes 64 else lt.poison }

/-- The flits that hold an element, and a block's scale. -/
def elFlit (f : Fmt) (phase i : Nat) : Nat := carrierBytes f phase * i / 64
def scaleFlit (b : Nat) : Nat := 60 + b / 64

/-- A flit mask from the flits of a list. -/
def flitMask (fs : List Nat) : BitVec 64 := fs.foldl (fun m i => m ||| BitVec.ofNat 64 (2 ^ i)) 0

/-- The number of the flits `0` to `n - 1` and of the flits in `more` that a mask marks. -/
def markedFlits (m : BitVec 64) (fs : List Nat) : Nat := (fs.eraseDups.filter fun i => m.getLsbD i).length

/-- The flits that a carrier's data lie in. -/
def Carrier.flits (c : Carrier) (f : Fmt) (phase : Nat) : List Nat :=
  ((List.range c.xs.length).map (elFlit f phase)).eraseDups ++ ((List.range c.scales.length).map scaleFlit).eraseDups

/-! ### A member's own contribution -/

/-- A contribution to one letter: element bits, block scale codes, and the flits that a poisoned word of it marks. -/
structure Contrib where
  xs : List Nat
  scales : List Nat
  poison : BitVec 64

/-- Events of one step of a reduction: overflows, underflows of blocks, clamps, escalations. -/
structure CollCount where
  ovf : Nat := 0
  uf : Nat := 0
  clamp : Nat := 0
  esc : Nat := 0

def CollCount.add (a b : CollCount) : CollCount := ⟨a.ovf + b.ovf, a.uf + b.uf, a.clamp + b.clamp, a.esc + b.esc⟩

/-- Whether an element's bits are a NaN. -/
def nanBits (f : Fmt) (x : Nat) : Bool := (decodeElem f x).isNan

/-- Carriers whose elements hold no NaN (R274). -/
def intCarrier (f : Fmt) : Bool := isInt f || f == .mxi8

/-- Enter the elements that became NaN at a position, given by index, in the trailer (R290). A carrier of an integer kind
adds each to its count; another counts the NaN elements it now holds. -/
def Carrier.nans (c : Carrier) (f : Fmt) (pos : Nat) (new : List Nat) : Carrier :=
  let first := new.foldl Nat.min 0xFFFF
  let total :=
    if intCarrier f then c.nanElems + new.length else (c.xs.filter (nanBits f)).length
  let c := { c with nanElems := total }
  if new.isEmpty then c
  else
    let c := { c with posMask := c.posMask ||| 2 ^ pos }
    if c.nanIdx = 0xFFFF || first < c.nanIdx then { c with nanIdx := first, nanPos := pos } else c

/-! ### Blocks (R275) -/

/-- The blocks of a list. -/
def blocksOf {α : Type} (xs : List α) : List (List α) := (List.range (xs.length / 32)).map fun b => (xs.drop (32 * b)).take 32

/-- The exact values of a block under its scale code. -/
def blockVals (f : Fmt) (code : Nat) (xs : List Nat) : List FVal := xs.map (mxValue f code)

/-- Encode exact values at a scale exponent. `sat127` makes an element out of range an overflow, as where the exponent
could not rise (R56); otherwise it is a clamp. -/
def encodeAt (f : Fmt) (x : Int) (sat127 : Bool) (vs : List FVal) : List Conv :=
  vs.map fun v => encodeMxElem f .sat sat127 (v.scale (-x))

/-- Whether every finite value rounds within the largest finite element at a scale exponent (R59, R275). -/
def fitsAt (f : Fmt) (x : Int) (vs : List FVal) : Bool := (encodeAt f x false vs).all fun c => !c.clamp

/-- The scale exponent that an escalation from `x` chooses, and whether it stopped at 127 (R59, R275). -/
def escalate (f : Fmt) (x : Int) (vs : List FVal) : Int × Bool :=
  match (List.range 256).find? fun k => decide (x + (k + 1 : Nat) ≤ 127) && fitsAt f (x + (k + 1 : Nat)) vs with
  | some k => (x + (k + 1 : Nat), false)
  | none => (127, true)

/-- One block after a combination: scale code, elements, whether it escalated, and the events. -/
structure Block where
  code : Nat
  els : List Conv
  esc : Bool := false

/-- The scale code of an exponent. -/
def codeOf (x : Int) : Nat := (x + 127).toNat

/-- The carrier scale that an AGREED round fixes for a block (R275). -/
def agreedX (f : Fmt) (len a : Nat) : Int := if a = 0 then -127 else clampX ((a : Int) - 128 - emaxElem f + ceilLog2 len)

/-- The byte that a contribution's block enters in an AGREED round (R275). -/
def agreedByte (vs : List FVal) : Nat :=
  match blockExp vs with
  | none => 0
  | some e => (min 255 (max 1 (e + 128))).toNat

/-- An element that the scale recipe set to the largest finite element (R57), counted as a saturation: the group's clamp
count is for AGREED rounds alone (R296). -/
def Conv.saturated (c : Conv) : Conv := { c with ovf := c.ovf || c.clamp, clamp := false }

/-- The first block of a pass, from a contribution's exact values (R275). `agreed` is the block's agreed maximum. -/
def startBlock (f : Fmt) (len : Nat) (agreed : Option Nat) (vs : List FVal) : Block :=
  match agreed with
  | some a => let x := agreedX f len a; ⟨codeOf x, encodeAt f x false vs, false⟩
  | none => let (code, cs) := encodeBlock f .sat (ceilLog2 len) vs; ⟨code, cs.map Conv.saturated, false⟩

/-- A later block of a pass from the exact sums, at the carrier's scale exponent, which escalates unless it was agreed
(R275). -/
def sumBlock (f : Fmt) (agreed : Bool) (x : Int) (vs : List FVal) : Block :=
  if agreed || fitsAt f x vs then ⟨codeOf x, encodeAt f x false vs, false⟩
  else
    let (x', stop) := escalate f x vs
    ⟨codeOf x', encodeAt f x' stop vs, true⟩

/-- Events of a block. -/
def Block.count (b : Block) : CollCount :=
  let n := fun p => (b.els.filter p).length
  { ovf := n (·.ovf), uf := n (·.unf), clamp := n (·.clamp), esc := if b.esc then 1 else 0 }

/-! ### Steps of a pass -/

/-- The carrier of a gather pass as its owner forms it from its source: the elements that are NaN there, those of a block with the scale
code 0xFF among them, are entered in the trailer, and counted whatever the format (R290). -/
def Carrier.gathered (c : Carrier) (f : Fmt) (pos : Nat) : Carrier :=
  let nan : List Bool :=
    if isMx f then ((blocksOf c.xs).zipIdx.map fun (b, i) => (blockVals f (c.scales.getD i 0) b).map (·.isNan)).flatten
    else c.xs.map (nanBits f)
  let at' := (nan.zipIdx.filter fun p => p.1).map (·.2)
  { c.nans f pos at' with nanElems := at'.length }

/-- The carrier's blocks put in place, with the events entered in the trailer. -/
def Carrier.withBlocks (c : Carrier) (bs : List Block) : Carrier × CollCount :=
  let n := bs.foldl (fun a b => a.add b.count) {}
  let esc := (List.range bs.length).foldl (fun m b =>
    if (bs.getD b ⟨0, [], false⟩).esc && !bitOf m b then m + 2 ^ b else m) c.esc
  ({ c with xs := (bs.map fun b => b.els.map (·.bits)).flatten, scales := bs.map (·.code), esc := esc,
            escBlocks := c.escBlocks + n.esc, ufElems := c.ufElems + n.uf }, n)

/-- The carrier that the first position of an order starts from its own contribution (R271, R275, R290). `agreed` gives a
block's agreed maximum. -/
def Carrier.start (c : Carrier) (f : Fmt) (len pos : Nat) (agreed : Option (List Nat)) (own : Contrib) :
    Carrier × CollCount :=
  let c := { c with poison := own.poison }
  if isMx f then
    let vals := (blocksOf own.xs).zipIdx.map fun (b, i) => blockVals f (own.scales.getD i 0) b
    let bs := vals.zipIdx.map fun (v, i) => startBlock f len (agreed.map fun a => a.getD i 0) v
    let (c, n) := c.withBlocks bs
    (c.nans f pos ((vals.flatten.zipIdx.filter fun p => p.1.isNan).map (·.2)), n)
  else
    let c := { c with xs := own.xs }
    (c.nans f pos ((own.xs.zipIdx.filter fun p => nanBits f p.1).map (·.2)), {})

/-- One plain element: the carrier received, then the member's own (R274). -/
def combineEl (f : Fmt) (opk a b : Nat) : Conv :=
  if opk = 1 then { bits := maxBitsOf f a b }
  else if opk = 2 then { bits := minBitsOf f a b }
  else match (decodeElem f a).add (decodeElem f b) with
    | .nan => { bits := canonNan f }
    | v => encodeElem f .sat v

/-- A later position adds its own contribution to the carrier it receives (R274, R275, R290, R291). -/
def Carrier.combine (c : Carrier) (f : Fmt) (opk pos : Nat) (agreed : Bool) (own : Contrib) : Carrier × CollCount :=
  let c := { c with poison := c.poison ||| own.poison }
  if isMx f then
    let vals := (blocksOf c.xs).zipIdx.map fun (b, i) =>
      let r : List FVal := blockVals f (c.scales.getD i 0) b
      let o := blockVals f (own.scales.getD i 0) ((own.xs.drop (32 * i)).take 32)
      (List.zip r o).map fun p => (p.1.isNan, p.1.add p.2)
    let bs := vals.zipIdx.map fun (v, i) =>
      sumBlock f agreed ((c.scales.getD i 0 : Int) - 127) (v.map (·.2))
    let (c, n) := c.withBlocks bs
    (c.nans f pos ((vals.flatten.zipIdx.filter fun p => p.1.2.isNan && !p.1.1).map (·.2)), n)
  else
    let cs : List (Bool × Conv) := (List.zip c.xs own.xs).map fun p => (nanBits f p.1, combineEl f opk p.1 p.2)
    let c := { c with xs := cs.map fun (p : Bool × Conv) => p.2.bits }
    (c.nans f pos ((cs.zipIdx.filter fun (p : (Bool × Conv) × Nat) => nanBits f p.1.2.bits && !p.1.1).map (·.2)),
      { ovf := (cs.filter fun (p : Bool × Conv) => p.2.ovf).length })

/-- A tree member adds a child's partial to what it has accumulated; for MX carriers at the greater of the two scales
(R276). -/
def Carrier.join (c d : Carrier) (f : Fmt) (opk pos : Nat) (agreed : Bool) : Carrier × CollCount :=
  let c := { c with poison := c.poison ||| d.poison, posMask := c.posMask ||| d.posMask,
                    escBlocks := c.escBlocks + d.escBlocks, ufElems := c.ufElems + d.ufElems, esc := c.esc ||| d.esc,
                    nanElems := if intCarrier f then c.nanElems + d.nanElems else c.nanElems,
                    nanIdx := Nat.min c.nanIdx d.nanIdx, nanPos := if d.nanIdx < c.nanIdx then d.nanPos else c.nanPos }
  if isMx f then
    let vals := (blocksOf c.xs).zipIdx.map fun (b, i) =>
      let r : List FVal := blockVals f (c.scales.getD i 0) b
      let o := blockVals f (d.scales.getD i 0) ((d.xs.drop (32 * i)).take 32)
      (List.zip r o).map fun p => (p.1.isNan || p.2.isNan, p.1.add p.2)
    let bs := vals.zipIdx.map fun (v, i) =>
      sumBlock f agreed ((Nat.max (c.scales.getD i 0) (d.scales.getD i 0) : Nat) - 127 : Int) (v.map (·.2))
    let (c, n) := c.withBlocks bs
    (c.nans f pos ((vals.flatten.zipIdx.filter fun p => p.1.2.isNan && !p.1.1).map (·.2)), n)
  else
    let cs : List (Bool × Conv) := (List.zip c.xs d.xs).map fun p => (nanBits f p.1 || nanBits f p.2, combineEl f opk p.1 p.2)
    let c := { c with xs := cs.map fun (p : Bool × Conv) => p.2.bits }
    (c.nans f pos ((cs.zipIdx.filter fun (p : (Bool × Conv) × Nat) => nanBits f p.1.2.bits && !p.1.1).map (·.2)),
      { ovf := (cs.filter fun (p : Bool × Conv) => p.2.ovf).length })

end Sys2Proof.Machine
end

