-- ==== Sys2Proof/Machine/Scalar.lean ====
section
/-!
DEFINITION. The sequencer's instructions: CTRL, SALU, SIMM, SMEM (R130) and TDESC (R132).
-/
namespace Sys2Proof.Machine

abbrev Out := Host.Outcome State Fault Refusal

/-! ### CTRL -/

def execNop (h : Hdr) (s : State) : Out := s.seqRegs h id

/-- The branch target: the offset counts instructions from the branch itself. -/
def Stall.branch (t : Stall) (off : BitVec 32) : Stall := { t with pc := t.pc - 1 + off.setWidth 17 }

def execBr (h : Hdr) (off : BitVec 32) (s : State) : Out := s.seqRegs h fun t => t.branch off

def execLoop (h : Hdr) (sa : SReg) (off : BitVec 32) (s : State) : Out :=
  s.seqRegs h fun t =>
    let x := t.s[sa] - 1
    let t := t.setS sa x
    if x = 0 then t else t.branch off

/-- The retirement of a `halt`: it retires, and the stall then stops (R130, R174). -/
def State.halted (s : State) (h : Hdr) : State :=
  (s.retire h.stall 0 h.ten h.tc ((s.stall h.stall).pc - 1)).modStall h.stall fun t => { t with running := false, halting := none }

/-- A pending `halt` retires once every earlier instruction has, those of the sync unit included (R174). -/
def State.finishHalt (s : State) (n : Fin 128) : State :=
  let t := s.stall n
  match t.halting with
  | some h => if t.running && t.flights.isEmpty && t.wait.isNone then s.halted h else s
  | none => s

def execHalt (h : Hdr) (s : State) : Out :=
  if s.canIssue h.stall .none then
    let t := s.stall h.stall
    let s := s.issued h.stall 0
    if !t.guard h then .next (s.retire h.stall 0 h.ten h.tc t.pc)
    else .next ((s.modStall h.stall fun t => { t with halting := some h }).finishHalt h.stall)
  else .next s

/-! ### SALU -/

/-- sD ← op sA sB. -/
def State.salu (s : State) (h : Hdr) (sd sa sb : SReg) (op : BitVec 64 → BitVec 64 → BitVec 64) : Out :=
  s.seqRegs h fun t => t.setS sd (op t.s[sa] t.s[sb])

/-- All 256 bits of a predicate, from a scalar comparison (R126). -/
def predFill (b : Bool) : BitVec 256 := if b then BitVec.allOnes 256 else 0

/-- pD ← the comparison of sA and sB. -/
def State.scmp (s : State) (h : Hdr) (pd : PReg) (sa sb : SReg) (op : BitVec 64 → BitVec 64 → Bool) : Out :=
  s.seqRegs h fun t => t.setP pd (predFill (op t.s[sa] t.s[sb]))

/-- pD ← op pA pB, bit by bit. -/
def State.plogic (s : State) (h : Hdr) (pd pa pb : PReg) (op : BitVec 256 → BitVec 256 → BitVec 256) : Out :=
  s.seqRegs h fun t => t.setP pd (op (t.pred pa) (t.pred pb))

def opShl (x y : BitVec 64) : BitVec 64 := x <<< shamt y
def opShr (x y : BitVec 64) : BitVec 64 := x >>> shamt y
def opSra (x y : BitVec 64) : BitVec 64 := x.sshiftRight (shamt y)
def opMin (x y : BitVec 64) : BitVec 64 := if x.slt y then x else y
def opMax (x y : BitVec 64) : BitVec 64 := if x.slt y then y else x
def opMinu (x y : BitVec 64) : BitVec 64 := if x.ult y then x else y
def opMaxu (x y : BitVec 64) : BitVec 64 := if x.ult y then y else x

def execSadd (h : Hdr) (sd sa sb : SReg) (s : State) : Out := s.salu h sd sa sb (· + ·)
def execSsub (h : Hdr) (sd sa sb : SReg) (s : State) : Out := s.salu h sd sa sb (· - ·)
def execSmul (h : Hdr) (sd sa sb : SReg) (s : State) : Out := s.salu h sd sa sb (· * ·)
def execSand (h : Hdr) (sd sa sb : SReg) (s : State) : Out := s.salu h sd sa sb (· &&& ·)
def execSor (h : Hdr) (sd sa sb : SReg) (s : State) : Out := s.salu h sd sa sb (· ||| ·)
def execSxor (h : Hdr) (sd sa sb : SReg) (s : State) : Out := s.salu h sd sa sb (· ^^^ ·)
def execSshl (h : Hdr) (sd sa sb : SReg) (s : State) : Out := s.salu h sd sa sb opShl
def execSshr (h : Hdr) (sd sa sb : SReg) (s : State) : Out := s.salu h sd sa sb opShr
def execSsra (h : Hdr) (sd sa sb : SReg) (s : State) : Out := s.salu h sd sa sb opSra
def execSmin (h : Hdr) (sd sa sb : SReg) (s : State) : Out := s.salu h sd sa sb opMin
def execSmax (h : Hdr) (sd sa sb : SReg) (s : State) : Out := s.salu h sd sa sb opMax
def execSminu (h : Hdr) (sd sa sb : SReg) (s : State) : Out := s.salu h sd sa sb opMinu
def execSmaxu (h : Hdr) (sd sa sb : SReg) (s : State) : Out := s.salu h sd sa sb opMaxu
def execScmpEq (h : Hdr) (pd : PReg) (sa sb : SReg) (s : State) : Out := s.scmp h pd sa sb fun x y => x == y
def execScmpLt (h : Hdr) (pd : PReg) (sa sb : SReg) (s : State) : Out := s.scmp h pd sa sb BitVec.slt
def execScmpLtu (h : Hdr) (pd : PReg) (sa sb : SReg) (s : State) : Out := s.scmp h pd sa sb BitVec.ult
def execPand (h : Hdr) (pd pa pb : PReg) (s : State) : Out := s.plogic h pd pa pb (· &&& ·)
def execPor (h : Hdr) (pd pa pb : PReg) (s : State) : Out := s.plogic h pd pa pb (· ||| ·)
def execPxor (h : Hdr) (pd pa pb : PReg) (s : State) : Out := s.plogic h pd pa pb (· ^^^ ·)
def execPnot (h : Hdr) (pd pa : PReg) (s : State) : Out := s.plogic h pd pa pa fun x _ => ~~~x

/-! ### SIMM: as SALU with the immediate as sB -/

def State.simm (s : State) (h : Hdr) (sd sa : SReg) (imm : BitVec 33) (op : BitVec 64 → BitVec 64 → BitVec 64) : Out :=
  s.seqRegs h fun t => t.setS sd (op t.s[sa] (imm33 imm))

def execSaddi (h : Hdr) (sd sa : SReg) (imm : BitVec 33) (s : State) : Out := s.simm h sd sa imm (· + ·)
def execSandi (h : Hdr) (sd sa : SReg) (imm : BitVec 33) (s : State) : Out := s.simm h sd sa imm (· &&& ·)
def execSori (h : Hdr) (sd sa : SReg) (imm : BitVec 33) (s : State) : Out := s.simm h sd sa imm (· ||| ·)
def execSxori (h : Hdr) (sd sa : SReg) (imm : BitVec 33) (s : State) : Out := s.simm h sd sa imm (· ^^^ ·)
def execSshli (h : Hdr) (sd sa : SReg) (imm : BitVec 33) (s : State) : Out := s.simm h sd sa imm opShl
def execSshri (h : Hdr) (sd sa : SReg) (imm : BitVec 33) (s : State) : Out := s.simm h sd sa imm opShr
def execSsrai (h : Hdr) (sd sa : SReg) (imm : BitVec 33) (s : State) : Out := s.simm h sd sa imm opSra
def execScmpiLt (h : Hdr) (pd : PReg) (sa : SReg) (imm : BitVec 33) (s : State) : Out :=
  s.seqRegs h fun t => t.setP pd (predFill (t.s[sa].slt (imm33 imm)))
def execLi (h : Hdr) (sd : SReg) (imm : BitVec 33) (s : State) : Out := s.seqRegs h fun t => t.setS sd (imm33 imm)
def execLih (h : Hdr) (sd : SReg) (imm : BitVec 33) (s : State) : Out :=
  s.seqRegs h fun t => t.setS sd (imm.setWidth 32 ++ t.s[sd].setWidth 32)

/-- The items of `sget` (R130). -/
def State.sgetItem (s : State) (n : Fin 128) (item : BitVec 33) : Option (BitVec 64) :=
  match item.toNat with
  | 0 => some (BitVec.ofNat 64 n.val)
  | 1 => some (BitVec.ofNat 64 (s.stall n).rank.val)
  | 2 => some (s.chip.setWidth 64)
  | 3 => some (BitVec.ofNat 64 (s.stall n).context.val)
  | 4 => some s.frankNs
  | _ => none

def execSget (h : Hdr) (sd : SReg) (item : BitVec 33) (s : State) : Out :=
  match s.sgetItem h.stall item with
  | some x => s.seqRegs h fun t => t.setS sd x
  | none => .refused (.loaderRefused "SGET")

/-! ### SMEM -/

/-- `sld`: a poisoned word writes nothing, and the instruction ends with ST_UNCORRECTABLE (R192). -/
def execSld (h : Hdr) (stable : Bool) (sd sa : SReg) (imm : BitVec 32) (s : State) : Out :=
  if s.canIssue h.stall .reads then
    let t := s.stall h.stall
    let s := s.issued h.stall 0
    if !t.guard h then .next (s.retire h.stall 0 h.ten h.tc t.pc)
    else
      let as := smemAddrs h.stall stable t.s[sa] imm
      let (s, bs) := (s.countRsvd as).readGuarded as
      if bs.any (·.2) then
        let loc := storeLoc stable (smemOff stable t.s[sa] imm)
        .next (s.faultStall h.stall 0 { stall := h.stall, pc := t.pc, status := .uncorrectable, loc := loc } 3 0)
      else
        let s := s.modStall h.stall fun t => t.setS sd (BitVec.ofNat 64 (ofBytes (bs.map (·.1))))
        .next (s.retire h.stall 0 h.ten h.tc t.pc)
  else .next s

def execSst (h : Hdr) (stable : Bool) (sd sa : SReg) (imm : BitVec 32) (s : State) : Out :=
  s.sequencer h .writes fun s =>
    let t := s.stall h.stall
    let as := smemAddrs h.stall stable t.s[sa] imm
    (s.countRsvd as).writeGuarded (as.zip ((toBytes 8 t.s[sd].toNat).map fun b => (b, false)))

/-! ### TDESC -/

def execTdl (h : Hdr) (td : TReg) (sa sb : SReg) (s : State) : Out :=
  s.seqRegs h fun t => t.setT td (descOf t.s[sa] t.s[sb])
def execTds (h : Hdr) (sd : SReg) (td : TReg) (word : Bool) (s : State) : Out :=
  s.seqRegs h fun t => t.setS sd (descWord t.t[td] word)
def execTdadd (h : Hdr) (td : TReg) (sa : SReg) (s : State) : Out :=
  s.seqRegs h fun t => t.setT td (descAdd t.t[td] t.s[sa])

end Sys2Proof.Machine
end

