-- ==== Sys2Proof/Machine/Vector.lean ====
section
/-!
DEFINITION. The vector engine's arithmetic (R126, R135, R136), and its loads and stores (R139).
-/
namespace Sys2Proof.Machine

/-! ### The formats each operation accepts (R135) -/

def isPlainFloat (f : Fmt) : Bool := !isMx f && !isInt f
def isPlain (f : Fmt) : Bool := !isMx f
def isSignedInt (f : Fmt) : Bool := f == .i8 || f == .i32

/-! ### Element operations -/

/-- A floating result rounded once into the instruction's format: overflow to an infinity, or the canonical NaN in
E4M3 (R136). -/
def roundTo (f : Fmt) (v : FVal) : Nat := (encodeElem f .ieee v).bits

/-- Floating arithmetic through exact values, integer arithmetic modulo 2^w. -/
def arith (f : Fmt) (fl : FVal → FVal → FVal) (ints : Nat → Nat → Nat) (a b : Nat) : Nat :=
  if isInt f then ints a b % 2 ^ fmtWidth f else roundTo f (fl (decodeElem f a) (decodeElem f b))

def elAdd (f : Fmt) : Nat → Nat → Nat := arith f FVal.add (· + ·)
def elSub (f : Fmt) : Nat → Nat → Nat :=
  arith f (fun x y => x.add y.negate) fun a b => a + (2 ^ fmtWidth f - b % 2 ^ fmtWidth f)
def elMul (f : Fmt) : Nat → Nat → Nat := arith f FVal.mul (· * ·)
def elDiv (f : Fmt) (a b : Nat) : Nat := roundTo f ((decodeElem f a).div (decodeElem f b))
def elSqrt (f : Fmt) (a : Nat) : Nat := roundTo f (decodeElem f a).sqrt
def elFma (f : Fmt) (a b c : Nat) : Nat :=
  roundTo f (((decodeElem f a).mul (decodeElem f b)).add (decodeElem f c))

/-- Sign cleared or inverted; a NaN becomes the canonical NaN (R31); integers wrap. -/
def elSign (f : Fmt) (g : FVal → FVal) (a : Nat) : Nat :=
  if isInt f then unsigned (fmtWidth f) (match g (decodeElem f a) with
    | .fin n m _ => if n then -(m : Int) else m
    | _ => 0)
  else roundTo f (g (decodeElem f a))

def FVal.mag : FVal → FVal
  | .nan => .nan
  | .inf _ => .inf false
  | .fin _ m e => .fin false m e

def elAbs (f : Fmt) : Nat → Nat := elSign f FVal.mag
def elNeg (f : Fmt) : Nat → Nat := elSign f Sys2Proof.Machine.FVal.negate

/-- An element as a result: a NaN becomes the canonical NaN (R31). -/
def elMove (f : Fmt) (a : Nat) : Nat := if (decodeElem f a).isNan then canonNan f else a

/-- Ordered comparisons: false with a NaN operand; zeros of either sign are equal (R46). -/
def elEq (f : Fmt) (a b : Nat) : Bool :=
  let x := decodeElem f a
  let y := decodeElem f b
  !x.isNan && !y.isNan && x.cmp y == 0
def elLt (f : Fmt) (a b : Nat) : Bool :=
  let x := decodeElem f a
  let y := decodeElem f b
  !x.isNan && !y.isNan && decide (x.cmp y < 0)
def elLe (f : Fmt) (a b : Nat) : Bool :=
  let x := decodeElem f a
  let y := decodeElem f b
  !x.isNan && !y.isNan && decide (x.cmp y ≤ 0)
def elNe (f : Fmt) (a b : Nat) : Bool := !elEq f a b

def elShl (f : Fmt) (a b : Nat) : Nat := a * 2 ^ (b % fmtWidth f) % 2 ^ fmtWidth f
def elShr (f : Fmt) (a b : Nat) : Nat := a / 2 ^ (b % fmtWidth f)
def elSra (f : Fmt) (a b : Nat) : Nat :=
  unsigned (fmtWidth f) (signed (fmtWidth f) a / (2 ^ (b % fmtWidth f) : Nat))

/-! ### Instruction forms -/

/-- Write the elements of a destination whose guard bits are true; the others keep their value (R126). -/
def vWrite (f : Fmt) (guard : BitVec 256) (neg : Bool) (old : BitVec 2048) (el : Nat → Nat) : BitVec 2048 :=
  vPack (fmtWidth f) ((List.range (elemCount f)).map fun e =>
    if elemOn guard neg (elemCount f) e then el e else vElem f old e)

/-- A VALU instruction: its whole effect is a new vector register. It is governed element by element, never as a whole
(R125, R126). -/
def State.valu (s : State) (h : Hdr) (op : Nat) (mn : String) (ok : Bool) (vd : VReg)
    (f : Stall → BitVec 2048) : Out :=
  if !ok then .refused (.loaderRefused mn)
  else s.issueWith h .vector (4, op) .none true fun s r =>
    (s.modStall h.stall fun t => t.setV vd (f t), { r with lands := some (.vreg vd) })

/-- An elementwise operation on two registers. -/
def State.valu2 (s : State) (h : Hdr) (op : Nat) (mn : String) (ok : Fmt → Bool) (fmt : Fmt) (vd va vb : VReg)
    (el : Fmt → Nat → Nat → Nat) : Out :=
  s.valu h op mn (ok fmt) vd fun t =>
    vWrite fmt (t.vpred h.pred) h.pneg t.v[vd] fun e => el fmt (vElem fmt t.v[va] e) (vElem fmt t.v[vb] e)

/-- A comparison: pD takes the element's result in all bits of the element's group, at the retire point (R126, R127). -/
def State.vcmp (s : State) (h : Hdr) (op : Nat) (mn : String) (fmt : Fmt) (pd : PReg) (va vb : VReg)
    (el : Fmt → Nat → Nat → Bool) : Out :=
  if !isPlain fmt then .refused (.loaderRefused mn)
  else s.issueWith h .vector (4, op) .none true fun s r =>
    let t := s.stall h.stall
    let old := t.vpred pd
    let g := 256 / elemCount fmt
    let p := BitVec.ofNat 256 ((List.range 256).foldr (fun i acc =>
      let e := i / g
      let b := if elemOn (t.vpred h.pred) h.pneg (elemCount fmt) e then el fmt (vElem fmt t.v[va] e) (vElem fmt t.v[vb] e)
        else old.getLsbD i
      (if b then 1 else 0) + 2 * acc) 0)
    (s.modStall h.stall fun t => t.setVP pd p, { r with pWrite := some (pd, p) })

def execAdd (h : Hdr) (fmt : Fmt) (vd va vb : VReg) (s : State) : Out := s.valu2 h 0x00 "ADD" isPlain fmt vd va vb elAdd
def execSub (h : Hdr) (fmt : Fmt) (vd va vb : VReg) (s : State) : Out := s.valu2 h 0x01 "SUB" isPlain fmt vd va vb elSub
def execMul (h : Hdr) (fmt : Fmt) (vd va vb : VReg) (s : State) : Out := s.valu2 h 0x02 "MUL" isPlain fmt vd va vb elMul
def execFma (h : Hdr) (fmt : Fmt) (vd va vb vc : VReg) (s : State) : Out :=
  s.valu h 0x03 "FMA" (isPlainFloat fmt) vd fun t =>
    vWrite fmt (t.vpred h.pred) h.pneg t.v[vd] fun e =>
      elFma fmt (vElem fmt t.v[va] e) (vElem fmt t.v[vb] e) (vElem fmt t.v[vc] e)
def execMin (h : Hdr) (fmt : Fmt) (vd va vb : VReg) (s : State) : Out := s.valu2 h 0x04 "MIN" isPlain fmt vd va vb minBitsOf
def execMax (h : Hdr) (fmt : Fmt) (vd va vb : VReg) (s : State) : Out := s.valu2 h 0x05 "MAX" isPlain fmt vd va vb maxBitsOf
def execAbs (h : Hdr) (fmt : Fmt) (vd va : VReg) (s : State) : Out :=
  s.valu2 h 0x06 "ABS" (fun f => isPlainFloat f || isSignedInt f) fmt vd va va fun f a _ => elAbs f a
def execNeg (h : Hdr) (fmt : Fmt) (vd va : VReg) (s : State) : Out :=
  s.valu2 h 0x07 "NEG" (fun f => isPlainFloat f || isSignedInt f) fmt vd va va fun f a _ => elNeg f a
def execDiv (h : Hdr) (fmt : Fmt) (vd va vb : VReg) (s : State) : Out := s.valu2 h 0x08 "DIV" isPlainFloat fmt vd va vb elDiv
def execSqrt (h : Hdr) (fmt : Fmt) (vd va : VReg) (s : State) : Out :=
  s.valu2 h 0x09 "SQRT" isPlainFloat fmt vd va va fun f a _ => elSqrt f a
def execCmpEq (h : Hdr) (fmt : Fmt) (pd : PReg) (va vb : VReg) (s : State) : Out := s.vcmp h 0x0A "CMP_EQ" fmt pd va vb elEq
def execCmpNe (h : Hdr) (fmt : Fmt) (pd : PReg) (va vb : VReg) (s : State) : Out := s.vcmp h 0x0B "CMP_NE" fmt pd va vb elNe
def execCmpLt (h : Hdr) (fmt : Fmt) (pd : PReg) (va vb : VReg) (s : State) : Out := s.vcmp h 0x0C "CMP_LT" fmt pd va vb elLt
def execCmpLe (h : Hdr) (fmt : Fmt) (pd : PReg) (va vb : VReg) (s : State) : Out := s.vcmp h 0x0D "CMP_LE" fmt pd va vb elLe
/-- `sel`: the selected element; a NaN becomes the canonical NaN (R31). -/
def execSel (h : Hdr) (fmt : Fmt) (vd va vb : VReg) (pc : PReg) (s : State) : Out :=
  s.valu h 0x0E "SEL" (isPlain fmt) vd fun t =>
    vWrite fmt (t.vpred h.pred) h.pneg t.v[vd] fun e =>
      elMove fmt (if elemOn (t.vpred pc) false (elemCount fmt) e then vElem fmt t.v[va] e else vElem fmt t.v[vb] e)
def execAnd (h : Hdr) (fmt : Fmt) (vd va vb : VReg) (s : State) : Out :=
  s.valu2 h 0x0F "AND" isInt fmt vd va vb fun _ a b => a &&& b
def execOr (h : Hdr) (fmt : Fmt) (vd va vb : VReg) (s : State) : Out :=
  s.valu2 h 0x10 "OR" isInt fmt vd va vb fun _ a b => a ||| b
def execXor (h : Hdr) (fmt : Fmt) (vd va vb : VReg) (s : State) : Out :=
  s.valu2 h 0x11 "XOR" isInt fmt vd va vb fun _ a b => a ^^^ b
def execShl (h : Hdr) (fmt : Fmt) (vd va vb : VReg) (s : State) : Out := s.valu2 h 0x12 "SHL" isInt fmt vd va vb elShl
def execShr (h : Hdr) (fmt : Fmt) (vd va vb : VReg) (s : State) : Out := s.valu2 h 0x13 "SHR" isInt fmt vd va vb elShr
def execSra (h : Hdr) (fmt : Fmt) (vd va vb : VReg) (s : State) : Out := s.valu2 h 0x14 "SRA" isSignedInt fmt vd va vb elSra

/-- The participating elements of a reduction, in ascending order (R135). -/
def participants (fmt : Fmt) (t : Stall) (h : Hdr) (va : VReg) : List Nat :=
  ((List.range (elemCount fmt)).filter fun e => elemOn (t.vpred h.pred) h.pneg (elemCount fmt) e).map
    fun e => vElem fmt t.v[va] e

/-- Element 0 replaced, every other element kept, whatever the predicate (R135). -/
def setElem0 (fmt : Fmt) (old : BitVec 2048) (x : Nat) : BitVec 2048 :=
  vPack (fmtWidth fmt) ((List.range (elemCount fmt)).map fun e => if e = 0 then x else vElem fmt old e)

def execSum (h : Hdr) (fmt : Fmt) (vd va : VReg) (s : State) : Out :=
  s.valu h 0x15 "SUM" (isPlainFloat fmt || fmt == .i32) vd fun t =>
    setElem0 fmt t.v[vd] ((participants fmt t h va).foldl (elAdd fmt) 0)

def execMaxr (h : Hdr) (fmt : Fmt) (vd va : VReg) (s : State) : Out :=
  s.valu h 0x16 "MAXR" (isPlain fmt) vd fun t =>
    match participants fmt t h va with
    | [] => t.v[vd]
    | x :: xs => setElem0 fmt t.v[vd] (xs.foldl (maxBitsOf fmt) (maxBitsOf fmt x x))

/-- `bcast`: the low bits of sA in every element; a NaN among them becomes the canonical NaN (R31; DEDUCED, log entry 87). -/
def execBcast (h : Hdr) (fmt : Fmt) (vd : VReg) (sa : SReg) (s : State) : Out :=
  s.valu h 0x17 "BCAST" (isPlain fmt) vd fun t =>
    vWrite fmt (t.vpred h.pred) h.pneg t.v[vd] fun _ => elMove fmt (t.s[sa].toNat % 2 ^ fmtWidth fmt)

def execIota (h : Hdr) (fmt : Fmt) (vd : VReg) (s : State) : Out :=
  s.valu h 0x18 "IOTA" (fmt == .i32 || fmt == .u16) vd fun t =>
    vWrite fmt (t.vpred h.pred) h.pneg t.v[vd] fun e => e

/-! ### VMEM (R139) -/

/-- The homes that an access of a store has, for fences (R164). -/
def storeHome (stable : Bool) : Home := if stable then .stable else .stall

/-- `vld`: a poisoned word writes nothing, and the instruction ends with ST_UNCORRECTABLE (R192). -/
def execVld (h : Hdr) (stable : Bool) (vd : VReg) (sa : SReg) (imm : BitVec 32) (s : State) : Out :=
  s.issue h .vector (6, 0) .reads fun s r =>
    let base := (s.stall h.stall).s[sa]
    let as := vmemAddrs h.stall stable base imm
    let (s, bs) := s.readGuarded as
    let r := { r with reads := [storeHome stable], counts := rsvdEvent as }
    match (List.range 256).find? fun k => (bs.getD k (0, false)).2 with
    | some k => (s, { r with status := .uncorrectable, loc := storeLoc stable ((vmemOff stable base imm + k) % storeSize stable) })
    | none => (s.modStall h.stall fun t => t.setV vd (BitVec.ofNat 2048 (ofBytes (bs.map (·.1)))),
        { r with lands := some (.vreg vd) })

def execVst (h : Hdr) (stable : Bool) (vd : VReg) (sa : SReg) (imm : BitVec 32) (s : State) : Out :=
  s.issue h .vector (6, 1) .writes fun s r =>
    let t := s.stall h.stall
    let as := vmemAddrs h.stall stable t.s[sa] imm
    (s.writeOpen (as.zip ((toBytes 256 t.v[vd].toNat).map fun b => (b, false))),
      { r with writes := [storeHome stable], counts := rsvdEvent as ++ s.codeEvent as })

end Sys2Proof.Machine
end

