-- ==== Sys2Proof/Machine/Mover.lean ====
section
/-!
DEFINITION. The data mover's MOVE instructions (R140 to R142, R172, R179).
-/
namespace Sys2Proof.Machine

/-- One side of a contiguous row of a transfer, before translation: store addresses, virtual addresses of the context,
another chip's virtual addresses, or an address that R179 refuses. -/
inductive Sym where
  | store (stable : Bool) (as : List Nat)
  | ctx (vas : List Nat)
  | remote (chip : BitVec 14) (va : Nat)
  | bad (x len : Nat)
  deriving DecidableEq, Repr

/-- The same side after translation: a local address or none for each byte, or another chip. -/
inductive Side where
  | mem (as : List (Option Nat))
  | remote (chip : BitVec 14) (va : Nat)
  deriving DecidableEq, Repr

/-- Whether a chip number lies in the torus that the installed tables describe (R179). -/
def State.inTorus (s : State) (chip : BitVec 14) : Bool :=
  (List.finRange 4).all fun a => decide (coord chip a < s.rtLen (epochVer s.srcEpoch) a)

/-- The side that a register names in a space, for `len` bytes (R140, R179). -/
def State.side (s : State) (n : Fin 128) (sp : Space) (x : BitVec 64) (len : Nat) : Sym :=
  match sp with
  | .st => .store false (storeRange n false x.toNat len)
  | .sb => .store true (storeRange n true x.toNat len)
  | .g =>
    let va := bitsOf x.toNat 0 48
    let vas := (List.range len).map fun k => (va + k) % 2 ^ 48
    match bitsOf x.toNat 62 2 with
    | 0 => .ctx vas
    | 1 =>
      let chip := BitVec.ofNat 14 (bitsOf x.toNat 48 14)
      if chip = s.chip then .ctx vas else if s.globalOn && s.inTorus chip then .remote chip va else .bad x.toNat len
    | _ => .bad x.toNat len

/-- Row `i` of a tile, its first `len` bytes, where the descriptor's layout puts them (R71, R141). -/
def tileRow (n : Fin 128) (d : Desc) (i len : Nat) : Sym :=
  .store d.stable ((List.range len).map fun j => d.addr n (d.byteOff i j))

def Sym.home : Sym → List Home
  | .store st _ => [storeHome st]
  | .ctx _ => [.chip]
  | .remote c _ => [.remote c]
  | .bad _ _ => []

def Sym.storeAddrs : Sym → List Nat
  | .store _ as => as
  | _ => []

/-- Translate the sides of one direction of an instruction; what R179 refuses is counted as a page of its own for each 2 MiB of the
64-bit address (R183; log entry 94). -/
def State.resolve (s : State) (c : Fin 64) (n : Fin 128) (write : Bool) (xs : List Sym) : State × List Side :=
  let vas := (xs.map fun x => match x with | .ctx vs => vs | _ => []).flatten
  let bad := xs.filterMap fun x => match x with | .bad x len => some (x, len) | _ => none
  let (s, ps) := s.scope fun s =>
    let (s, ps) := s.xlatAll c vas write false n.val
    (bad.foldl (fun s x => s.refuseRange c x.1 x.2 write n.val) s, ps)
  let m := (vas.map (· % 2 ^ 48)).zip ps
  (s, xs.map fun x => match x with
    | .store _ as => .mem (as.map some)
    | .ctx vs => .mem (vs.map fun v => AMap.get none v m)
    | .remote chip va => .remote chip va
    | .bad _ len => .mem (List.replicate len none))

/-- The bytes that each destination of a local transfer receives, in the order of the transfer. Where source and destination overlap,
a byte is read from its source as it stood, or as the bytes moved before it have rewritten it, which R142 leaves open: Config says
in which order the bytes are moved, and which of the two each of them is (log entry 18). -/
def overlapped (pairs : List (Option Nat × Option Nat × MByte)) : List (Nat × MByte) :=
  let ranked := pairs.zipIdx.mergeSort fun x y => decide (Config.overlapRank x.2 ≤ Config.overlapRank y.2)
  let step := fun (acc : AMap Nat MByte × AMap Nat MByte) (e : (Option Nat × Option Nat × MByte) × Nat) =>
    let old := e.1.2.2
    let now := match e.1.1 with
      | some a => AMap.get old a acc.1
      | none => old
    let b := if Config.overlapOld e.2 then old else now
    (match e.1.2.1 with | some d => AMap.set d b acc.1 | none => acc.1, AMap.set e.2 b acc.2)
  let vals := (ranked.foldl step ([], [])).2
  pairs.zipIdx.filterMap fun e => e.1.2.1.map fun d => (d, AMap.get e.1.2.2 e.2 vals)

/-- The letters that carry bytes to another chip: BULK to a virtual address, or SLOT to a slot and stash offset, in
pieces of at most 4,096 bytes (R140, R144). -/
def State.bulk (s : State) (c : Fin 64) (own : Owner) (chip : BitVec 14) (cls : LClass) (target : Nat)
    (bs : List MByte) : List Outstanding :=
  (pieces bs.length).map fun (off, len) =>
    let part := (bs.drop off).take len
    let tgt := if cls = .slot then target % 4096 + (target / 4096 + off) % 2 ^ 32 * 4096 else (target + off) % 2 ^ 48
    { key := ⟨chip, cls, s.jobTag c⟩, owner := own, ctx := c,
      letter := { dest := chip, src := s.chip, cls := cls, jobTag := s.jobTag c, length := len,
                  target := BitVec.ofNat 64 tgt, poison := poisonMask part, body := part.map (·.1) } }

/-- The requests that read a range of another chip (R172), and where each part of the response goes. -/
def State.requests (s : State) (c : Fin 64) (own : Owner) (chip : BitVec 14) (va len : Nat) (sink : Nat → Nat → Sink) :
    List Outstanding :=
  (pieces len).map fun (off, k) =>
    { key := ⟨chip, .request, s.jobTag c⟩, owner := own, ctx := c, sink := some (sink off k),
      letter := { dest := chip, src := s.chip, cls := .request, jobTag := s.jobTag c, length := k,
                  target := BitVec.ofNat 64 ((va + off) % 2 ^ 48) } }

/-- The rows of a transfer, each side translated (R141, R183): sources first. -/
def State.moveSides (s : State) (h : Hdr) (rows : List (Sym × Sym × Nat)) : State × List ((Side × Side) × Nat) :=
  let n := h.stall
  let c := (s.stall n).context
  let srcs := rows.map (·.1)
  let dsts := rows.map (·.2.1)
  let s := s.countRsvd ((srcs ++ dsts).map Sym.storeAddrs).flatten
  let (s, srcs) := s.resolve c n false srcs
  let (s, dsts) := s.resolve c n true dsts
  (s, (srcs.zip dsts).zip (rows.map (·.2.2)))

/-- Move rows of bytes from sources to destinations (R141): local bytes are read, then written, or sent as letters;
remote sources are asked for their bytes. -/
def State.move (s : State) (h : Hdr) (r : Flight) (rows : List (Sym × Sym × Nat)) : State × Flight :=
  let n := h.stall
  let c := (s.stall n).context
  let own := Owner.flight n r.seq
  let r := { r with reads := (rows.map (·.1.home)).flatten.eraseDups, writes := (rows.map (·.2.1.home)).flatten.eraseDups }
  let (s, all) := s.moveSides h rows
  let srcAddrs := (all.map fun x => match x.1.1 with | .mem as => as.filterMap id | _ => []).flatten
  let (s, _) := s.readGuarded srcAddrs
  let byteAt := fun (a : Option Nat) => match a with
    | some a => s.peekG a
    | none => (0, false)
  let locals := (all.map fun e => match e.1 with
    | (.mem as, .mem ds) => as.zip (ds.zip (as.map byteAt))
    | _ => []).flatten
  let dstAddrs := locals.filterMap fun e => e.2.1
  let clash := locals.any fun e => match e.1 with | some a => decide (a ∈ dstAddrs) | none => false
  let ws := if clash then overlapped locals else locals.filterMap fun e => e.2.1.map fun d => (d, e.2.2)
  let letters := (all.map fun e => match e.1 with
    | (.mem as, .remote chip va) => s.bulk c own chip .bulk va (as.map byteAt)
    | (.remote chip va, .mem ds) => s.requests c own chip va e.2 fun off k => .local ((ds.drop off).take k)
    | (.remote chip va, .remote chip' va') => s.requests c own chip va e.2 fun off _ => .remote chip' .bulk (va' + off)
    | _ => []).flatten
  let s := s.writeGuarded ws
  (s.post letters, r)

def execDmCopy (h : Hdr) (dsp ssp : Space) (sd ss sn : SReg) (s : State) : Out :=
  s.issue h .mover (10, 0) .writes fun s r =>
    let t := s.stall h.stall
    let len := moveLen t.s[sn]
    if len = 0 then (s, r)
    else s.move h r [(s.side h.stall ssp t.s[ss] len, s.side h.stall dsp t.s[sd] len, len)]

/-- The rows of a strided transfer: row `i` on the global side lies at x + i × GPITCH (R141). -/
def rowAt (x : BitVec 64) (g i : Nat) : BitVec 64 := x + BitVec.ofNat 64 (i * g)

def execDmLd2 (h : Hdr) (ssp : Space) (td : TReg) (ss sn : SReg) (s : State) : Out :=
  s.issue h .mover (10, 1) .writes fun s r =>
    let t := s.stall h.stall
    let sh := Shape.of t.s[sn]
    if sh.rowBytes = 0 || sh.rows = 0 then (s, r)
    else s.move h r ((List.range sh.rows).map fun i =>
      (s.side h.stall ssp (rowAt t.s[ss] sh.gpitch i) sh.rowBytes, tileRow h.stall (Desc.of t.t[td]) i sh.rowBytes,
        sh.rowBytes))

def execDmSt2 (h : Hdr) (dsp : Space) (sd : SReg) (ts : TReg) (sn : SReg) (s : State) : Out :=
  s.issue h .mover (10, 2) .writes fun s r =>
    let t := s.stall h.stall
    let sh := Shape.of t.s[sn]
    if sh.rowBytes = 0 || sh.rows = 0 then (s, r)
    else s.move h r ((List.range sh.rows).map fun i =>
      (tileRow h.stall (Desc.of t.t[ts]) i sh.rowBytes, s.side h.stall dsp (rowAt t.s[sd] sh.gpitch i) sh.rowBytes,
        sh.rowBytes))

def execDmTt (h : Hdr) (td ts : TReg) (sn : SReg) (s : State) : Out :=
  s.issue h .mover (10, 3) .writes fun s r =>
    let t := s.stall h.stall
    let sh := Shape.of t.s[sn]
    if sh.rowBytes = 0 || sh.rows = 0 then (s, r)
    else s.move h r ((List.range sh.rows).map fun i =>
      (tileRow h.stall (Desc.of t.t[ts]) i sh.rowBytes, tileRow h.stall (Desc.of t.t[td]) i sh.rowBytes, sh.rowBytes))

def execDmFill (h : Hdr) (dsp : Space) (sd ss sn : SReg) (s : State) : Out :=
  s.issue h .mover (10, 4) .writes fun s r =>
    let t := s.stall h.stall
    let n := h.stall
    let len := moveLen t.s[sn]
    if len = 0 then (s, r)
    else
      let pat := toBytes 8 t.s[ss].toNat
      let bs := (List.range len).map fun k => ((pat.getD (k % 8) 0, false) : MByte)
      let x := s.side n dsp t.s[sd] len
      let r := { r with writes := x.home }
      let s := s.countRsvd x.storeAddrs
      let (s, ds) := s.resolve t.context n true [x]
      match ds with
      | [.remote chip va] => (s.post (s.bulk t.context (.flight n r.seq) chip .bulk va bs), r)
      | [.mem as] => (s.writeGuarded ((as.zip bs).filterMap fun e => e.1.map fun a => (a, e.2)), r)
      | _ => (s, r)

end Sys2Proof.Machine
end

