-- ==== Sys2Proof/Machine/Slots.lean ====
section
/-!
DEFINITION. Sequence slots: the table, the SLOT instructions, and the placement of a slot's bytes (R143 to R146).
-/
namespace Sys2Proof.Machine

/-! ### The slot table's entries (R146): four 64-bit words a slot -/

namespace SlotF
def base : Fld := { lo := 0, w := 48, acc := .ro, rst := 0 }
def space : Fld := { lo := 48, w := 2, acc := .ro, rst := 0 }
def unit : Fld := { lo := 50, w := 7, acc := .ro, rst := 0 }
def bound : Fld := { lo := 57, w := 1, acc := .ro, rst := 0 }
def full : Fld := { lo := 58, w := 1, acc := .ro, rst := 0 }
def size : Fld := { lo := 0, w := 32, acc := .ro, rst := 0 }
def expect : Fld := { lo := 32, w := 32, acc := .ro, rst := 0 }
def arrived : Fld := { lo := 0, w := 32, acc := .ro, rst := 0 }
def bstall : Fld := { lo := 32, w := 7, acc := .ro, rst := 0 }
def nctr : Fld := { lo := 39, w := 6, acc := .ro, rst := 0 }
def nen : Fld := { lo := 45, w := 1, acc := .ro, rst := 0 }
def context : Fld := { lo := 46, w := 6, acc := .ro, rst := 0 }
end SlotF

/-- The global slot that a relative number names in a context's range; none where the range is empty (R143). -/
def State.slotOf (s : State) (c : Fin 64) (k : Nat) : Option (Fin 4096) :=
  let count := s.fld (.hstLoadRec1 c) F.hstLoadRec1_SLOT_COUNT
  if count = 0 then none
  else some (Fin.ofNat 4096 (s.fld (.hstLoadRec1 c) F.hstLoadRec1_SLOT_BASE + k % count))

def State.slotBound (s : State) (j : Fin 4096) : Bool := s.flag (.soSlot j 0) SlotF.bound

/-- Whether a slot's stash may lie in a space and unit: SPACE is not 3, and UNIT names a stall or a stable assigned to
the context (R144). -/
def State.slotUnitOk (s : State) (c : Fin 64) (space unit : Nat) : Bool :=
  let mine := AMap.get [] c s.ctxStables
  match space with
  | 0 => true
  | 1 => mine.any fun t => t.val = unit / 8
  | 2 => mine.any fun t => t.val = unit
  | _ => false

/-- Unbind a slot: BOUND, FULL and ARRIVED clear (R144), and the other fields keep what the binding had, after a reset of its context too
(R146; DESIGN CHOICE, log entry 130). -/
def State.slotUnbind (s : State) (j : Fin 4096) : State :=
  (s.setFlds (.soSlot j 0) [(SlotF.bound, 0), (SlotF.full, 0)]).setFld (.soSlot j 2) SlotF.arrived 0

def execSlotBind (h : Hdr) (sa sb sc sd : SReg) (nctr : CReg) (nen : Bool) (s : State) : Out :=
  s.issue h .mover (11, 0) .none fun s r =>
    let t := s.stall h.stall
    match s.slotOf t.context t.s[sa].toNat with
    | none => (s, r)
    | some j =>
      let cw := t.s[sc].toNat
      let space := bitsOf cw 32 2
      let unit := bitsOf cw 34 7
      let expect := bitsOf t.s[sd].toNat 0 32
      if !s.slotUnitOk t.context space unit then ((s.slotUnbind j).bump .soSlotBadbind 1, r)
      else
        let s := s.wr (.soSlot j 0) (pack [(SlotF.base, bitsOf t.s[sb].toNat 0 48), (SlotF.space, space),
          (SlotF.unit, unit), (SlotF.bound, 1), (SlotF.full, if expect = 0 then 1 else 0)])
        let s := s.wr (.soSlot j 1) (pack [(SlotF.size, bitsOf cw 0 32), (SlotF.expect, expect)])
        let s := s.wr (.soSlot j 2) (pack [(SlotF.arrived, 0), (SlotF.bstall, h.stall.val), (SlotF.nctr, nctr.val),
          (SlotF.nen, if nen then 1 else 0), (SlotF.context, t.context.val)])
        (s, if expect = 0 && nen then { r with tallies := [nctr] } else r)

def execSlotFree (h : Hdr) (sa : SReg) (s : State) : Out :=
  s.issue h .mover (11, 1) .none fun s r =>
    let t := s.stall h.stall
    match s.slotOf t.context t.s[sa].toNat with
    | none => (s, r)
    | some j => (s.slotUnbind j, r)

/-- Where the stash of a slot on a chip has its home, for fences (R164, R165): another chip; this one; or the sending stall's own store
or stable, where the slot is bound to it. -/
def State.stashHome (s : State) (n : Fin 128) (chip : BitVec 14) (slot : Nat) : List Home :=
  if chip ≠ s.chip then [.remote chip]
  else match s.slotOf (s.stall n).context slot with
    | none => [.chip]
    | some j =>
      let unit := s.fld (.soSlot j 0) SlotF.unit
      match s.fld (.soSlot j 0) SlotF.space with
      | 1 => [if unit = n.val then .stall else .chip]
      | 2 => [if unit = (stableOf n).val then .stable else .chip]
      | _ => [.chip]

/-- `slot.send`. Its letter names the receiver's slot with sA[11:0] as it stands: the receiver reduces it (R143; log entry 114). -/
def execSlotSend (h : Hdr) (ssp : Space) (sa sb sc sd se : SReg) (s : State) : Out :=
  s.issue h .mover (11, 2) .writes fun s r =>
    let t := s.stall h.stall
    let n := h.stall
    let len := bitsOf t.s[sd].toNat 0 32
    if s.fld (.hstLoadRec1 t.context) F.hstLoadRec1_SLOT_COUNT = 0 || len = 0 then (s, r)
    else
      let chip := BitVec.ofNat 14 t.s[sb].toNat
      let target := bitsOf t.s[sa].toNat 0 12 + bitsOf t.s[se].toNat 0 32 * 4096
      let x := s.side n ssp t.s[sc] len
      let own := Owner.flight n r.seq
      let r := { r with reads := x.home, writes := s.stashHome n chip (bitsOf t.s[sa].toNat 0 12) }
      let s := s.countRsvd x.storeAddrs
      let (s, xs) := s.resolve t.context n false [x]
      match xs with
      | [.mem as] =>
        let (s, _) := s.readGuarded (as.filterMap id)
        let bs := as.map fun a => match a with
          | some a => s.peekG a
          | none => (0, false)
        (s.post (s.bulk t.context own chip .slot target bs), r)
      | [.remote chip' va] =>
        (s.post (s.requests t.context own chip' va len fun off _ => .remote chip .slot (target + off * 4096)), r)
      | _ => (s, r)

def execSlotStat (h : Hdr) (sd sa : SReg) (s : State) : Out :=
  s.issue h .mover (11, 3) .none fun s r =>
    let t := s.stall h.stall
    match s.slotOf t.context t.s[sa].toNat with
    | none => (s, r)
    | some j =>
      let x := s.fld (.soSlot j 0) SlotF.bound + s.fld (.soSlot j 0) SlotF.full * 2 +
        s.fld (.soSlot j 2) SlotF.arrived * 2 ^ 32
      (s, { r with sWrites := [(sd, BitVec.allOnes 64, BitVec.ofNat 64 x)] })

/-! ### Placement of a slot letter (R145) -/

/-- The first conditions of R145: a bound slot, and room in its stash. The error tells the counter. -/
def State.slotCheck (s : State) (c : Fin 64) (slot off len : Nat) : Except Reg (Fin 4096) :=
  match s.slotOf c slot with
  | none => .error .soSlotUnbound
  | some j =>
    if !s.slotBound j then .error .soSlotUnbound
    else if s.fld (.soSlot j 1) SlotF.size < off + len then .error .soSlotOverrun
    else .ok j

/-- Write a slot letter's payload at BASE + offset in the stash's space; count ARRIVED; at the first reach of EXPECT set
FULL and advance the binding stall's counter (R145). A stopped program's counters keep their values (R176). A letter that reaches the
reserved region of a stable store counts once there, like an instruction (R190; DESIGN CHOICE, log entry 132). -/
def State.slotPlace (s : State) (c : Fin 64) (j : Fin 4096) (off : Nat) (bs : List MByte) : State :=
  let base := s.fld (.soSlot j 0) SlotF.base + off
  let unit := s.fld (.soSlot j 0) SlotF.unit
  let idx := List.range bs.length
  let s := match s.fld (.soSlot j 0) SlotF.space with
    | 0 =>
      let (s, ps) := s.xlatAll c (idx.map (base + ·)) true false 0x82
      s.writeMem ((ps.zip bs).filterMap fun (e : Option Nat × MByte) => e.1.map fun a => (a, e.2))
    | 1 => s.writeGuarded ((idx.map fun k => stallBase (Fin.ofNat 128 unit) + (base + k) % 0x800000).zip bs)
    | _ =>
      let as := idx.map fun k => stableBase (Fin.ofNat 16 unit) + (base + k) % 0x2000000
      (s.countRsvd as).writeGuarded (as.zip bs)
  let arrived := satAdd (2 ^ 32 - 1) (s.fld (.soSlot j 2) SlotF.arrived) bs.length
  let s := s.setFld (.soSlot j 2) SlotF.arrived arrived
  if s.fld (.soSlot j 1) SlotF.expect ≤ arrived && !s.flag (.soSlot j 0) SlotF.full then
    let s := s.setFld (.soSlot j 0) SlotF.full 1
    let n : Fin 128 := Fin.ofNat 128 (s.fld (.soSlot j 2) SlotF.bstall)
    if s.flag (.soSlot j 2) SlotF.nen && (s.stall n).running then
      s.modStall n fun t =>
        t.advance (Fin.ofNat 64 (s.fld (.soSlot j 2) SlotF.nctr)) 1
    else s
  else s

end Sys2Proof.Machine
end

