-- ==== Sys2Proof/Machine/Matrix.lean ====
section
/-!
DEFINITION. The matrix engine: exact-window and compatibility accumulation, readout, saving and restoring (R66 to R92).
-/
namespace Sys2Proof.Machine

/-! ### Accumulators (R73, R77) -/

/-- gap(n) = max(0, ceil(log2 n) - 16). -/
def gap (n : Nat) : Nat := ceilLog2 n - 16

/-- KCOUNT's highest value. -/
def kMax : Nat := 2 ^ 48 - 1

/-- ESEEN of an element that has seen no finite nonzero product. -/
def eEmpty : Int := -1024

/-- An accumulator is empty when every element is in the cleared state and KCOUNT is 0 (R77). -/
def Acc.empty (a : Acc) : Bool := a.kcount == 0 && a.rows.all fun r => r.all fun e => e == {}

/-- Every element of an accumulator through a function of its row and column. -/
def Acc.mapAll (a : Acc) (f : Nat → Nat → Elem → Elem) : List (List Elem) :=
  (List.range 128).map fun i => (List.range 128).map fun j => f i j (a.get i j)

/-! ### Operands (R70, R71, R74, R133) -/

/-- One operand element: its value with its block scale, its bits, and the poisoned word it read, if any. -/
structure OpEl where
  v : FVal
  bits : Nat
  bad : Option (Nat × Bool)

/-- Where an operand lies: its descriptor, its format, whether its K-slice lies along stored rows, so that K runs along a
stored column and MX blocks along stored columns (R70, R133). -/
structure Operand where
  d : Desc
  fmt : Fmt
  kRows : Bool

/-- The stored row and column of the operand's element `o` (output row or column) at depth `k`. -/
def Operand.at (x : Operand) (o k : Nat) : Nat × Nat := if x.kRows then (k, o) else (o, k)

/-- The store offsets, before wrapping, of an element's bytes. -/
def Operand.elOffs (x : Operand) (o k : Nat) : List Nat :=
  let (i, c) := x.at o k
  let w := fmtWidth x.fmt / 8
  (List.range w).map fun b => x.d.byteOff i (c * w + b)

/-- The same of its block scale. -/
def Operand.scaleOffs (x : Operand) (o k : Nat) : List Nat :=
  if isMx x.fmt then let (i, c) := x.at o k; [x.d.scaleOff (!x.kRows) i c] else []

/-- All store offsets that an operand of `len` outputs and depth `K` computes. -/
def Operand.offs (x : Operand) (len K : Nat) : List Nat :=
  ((List.range len).map fun o =>
    ((List.range K).map fun k => x.elOffs o k ++ x.scaleOffs o k).flatten).flatten

/-- The operand element at output `o` and depth `k`. -/
def State.opEl (s : State) (n : Fin 128) (x : Operand) (o k : Nat) : OpEl :=
  let get := fun off => s.peekG (x.d.addr n off)
  let es := x.elOffs o k
  let ss := x.scaleOffs o k
  let b := ofBytes (es.map fun off => (get off).1)
  let v := match ss with
    | sc :: _ => mxValue x.fmt (get sc).1.toNat b
    | [] => decodeElem x.fmt b
  { v := v, bits := b,
    bad := ((es ++ ss).find? fun off => (get off).2).map fun off => (off % storeSize x.d.stable / 8 * 8, x.d.stable) }

/-- An operand's elements, by output and then by depth. -/
def State.opTable (s : State) (n : Fin 128) (x : Operand) (len K : Nat) : List (List OpEl) :=
  (List.range len).map fun o => (List.range K).map fun k => s.opEl n x o k

/-- The operands of an `mma`: B lies the other way about from A (R70). -/
def operandA (d : BitVec 128) (f : Fmt) (tra : Bool) : Operand := ⟨Desc.of d, f, tra⟩
def operandB (d : BitVec 128) (f : Fmt) (trb : Bool) : Operand := ⟨Desc.of d, f, !trb⟩

/-- The exact product of two elements; none where either read a poisoned word (R74). -/
def opProd (a b : OpEl) : Option FVal := if a.bad.isSome || b.bad.isSome then none else some (a.v.mul b.v)

/-! ### Exact accumulation (R74, R75) -/

/-- Add one exact product at window bottom `L`. -/
def Elem.addProd (L : Int) (e : Elem) : Option FVal → Elem
  | none => { e with poison := true, negz := false }
  | some .nan => { e with nan := true, negz := false }
  | some (.inf false) => { e with pinf := true, negz := false }
  | some (.inf true) => { e with ninf := true, negz := false }
  | some (.fin n m x) =>
    if m = 0 then (if n then e else { e with negz := false })
    else
      let v : Int := if n then -(m : Int) else m
      let q : Int := if L ≤ x then v * (2 ^ (x - L).toNat : Nat) else v / (2 ^ (L - x).toNat : Nat)
      let lost := decide (x < L) && decide (v % (2 ^ (L - x).toNat : Nat) ≠ 0)
      { e with window := e.window + BitVec.ofInt 112 q, negz := false,
               spill := if lost then satAdd (2 ^ 20 - 1) e.spill 1 else e.spill }

/-- Shift the window right by `d` bits, counting a spill where nonzero bits are lost. -/
def Elem.raise (d : Nat) (e : Elem) : Elem :=
  { e with window := e.window.sshiftRight d,
           spill := if e.window.toNat % 2 ^ d ≠ 0 then satAdd (2 ^ 20 - 1) e.spill 1 else e.spill }

/-- The pre-pass: the largest exponent of the element and of the finite nonzero products. -/
def prePass (e : Int) (ps : List (Option FVal)) : Int :=
  ps.foldl (fun m p => match p.bind FVal.exp2 with
    | some x => max m x
    | none => m) e

/-- One exact `mma` at one element inside its region, which `.z` has cleared already where it applies. -/
def mmaElem (kOld kNew : Nat) (e : Elem) (ps : List (Option FVal)) : Elem :=
  let g : Int := gap kNew
  let emax := prePass e.eseen ps
  let d := (emax + g) - (e.eseen + gap kOld)
  let e1 := if e.eseen ≠ eEmpty && decide (0 < d) then e.raise d.toNat else e
  let e2 := { e1 with eseen := emax }
  ps.foldl (Elem.addProd (emax + g - 94)) e2

/-- The same at an element outside the region: it keeps its value when the gap rises. -/
def mmaOutside (kOld kNew : Nat) (e : Elem) : Elem :=
  if e.eseen ≠ eEmpty && decide (gap kOld < gap kNew) then e.raise (gap kNew - gap kOld) else e

/-! ### Values of elements (R73, R79, R80, R86) -/

/-- The value of an element, its flags as an infinity or a NaN; POISON aside. -/
def Acc.value (a : Acc) (e : Elem) : FVal :=
  if a.compat then decodeElem (if a.int32 then .i32 else .f32) (e.window.toNat % 2 ^ 32)
  else if e.nan || (e.pinf && e.ninf) then .nan
  else if e.pinf then .inf false
  else if e.ninf then .inf true
  else if e.eseen = eEmpty then .fin e.negz 0 0
  else ofScaled e.negz e.window.toInt (e.eseen + (gap a.kcount : Int) - 94)

/-! ### Compatibility accumulation (R85, R87) -/

/-- One product of the TKA order, in FP32 or INT32. A poisoned one is not added: +0 stands in its pair (R85; DESIGN CHOICE, log
entry 90). -/
def tkaProd (int : Bool) (a b : OpEl) : Nat :=
  if a.bad.isSome || b.bad.isSome then 0
  else if int then unsigned 32 (signed 8 a.bits * signed 8 b.bits)
  else rne32 (a.v.mul b.v)

/-- One sum of the TKA order: FP32, or INT32 modulo 2^32. -/
def tkaAdd (int : Bool) (a b : Nat) : Nat := if int then (a + b) % 2 ^ 32 else f32Add a b

/-- The loop of R85 over the products of one element. -/
def tkaLoop (int : Bool) : Nat → List Nat → Nat
  | acc, [] => acc
  | acc, [p] => tkaAdd int acc (tkaAdd int p 0)
  | acc, p :: q :: ps => tkaLoop int (tkaAdd int acc (tkaAdd int p q)) ps

/-- An element in compatibility mode. -/
def Elem.compat (bits : Nat) (poison : Bool) : Elem := { window := BitVec.ofNat 112 bits, poison := poison }

/-- The conversion of every element to FP32 or INT32, from the exact mode (R87) or from the other kind (R85). -/
def Acc.toCompat (a : Acc) (int : Bool) : Acc :=
  let f : Fmt := if int then .i32 else .f32
  let one := fun (_ _ : Nat) (e : Elem) =>
    if e.poison && !a.compat then Elem.compat (canonNan f) true
    else Elem.compat (encodeElem f .ieee (a.value e)).bits e.poison
  { a with compat := true, int32 := int, rows := a.mapAll one }

/-- The entry of every element's value into the window as one exact product (R87). A poisoned element, which enters no value,
has NEGZ clear, as after a poisoned product (DESIGN CHOICE, log entry 91). -/
def Acc.toExact (a : Acc) : Acc :=
  let k := satAdd kMax a.kcount 1
  { a with compat := false, int32 := false, kcount := k,
           rows := a.mapAll fun _ _ e => mmaElem a.kcount k {} [if e.poison then none else some (a.value e)] }

/-- The accumulator as an `mma` finds it: afresh under `.z` or where it was empty, and in the instruction's mode (R77,
R85, R87). -/
def Acc.prepare (a : Acc) (z compat int : Bool) : Acc :=
  if z || a.empty then { compat := compat, int32 := compat && int }
  else if compat then (if a.compat && a.int32 == int then a else a.toCompat int)
  else if a.compat then a.toExact
  else a

/-- One `mma` on a prepared accumulator (R75, R85). -/
def Acc.mma (a : Acc) (as bs : List (List OpEl)) (K : Nat) : Acc :=
  let k := satAdd kMax a.kcount K
  let one := fun i j e =>
    match as[i]?, bs[j]? with
    | some ra, some rb =>
      let ps := List.zip ra rb
      if a.compat then
        Elem.compat (tkaLoop a.int32 (e.window.toNat % 2 ^ 32) (ps.map fun p => tkaProd a.int32 p.1 p.2))
          (e.poison || ps.any fun p => p.1.bad.isSome || p.2.bad.isSome)
      else mmaElem a.kcount k e (ps.map fun p => opProd p.1 p.2)
    | _, _ => if a.compat then e else mmaOutside a.kcount k e
  { a with kcount := k, rows := a.mapAll one }

/-- The first poisoned operand word of an `mma`, K-slice by K-slice, A before B (R91). -/
def firstBad (as bs : List (List OpEl)) (K : Nat) : Option (Nat × Bool) :=
  (List.range K).findSome? fun k => (as ++ bs).findSome? fun r => (r[k]?).bind (·.bad)

/-- The instruction's own contribution, summed in an empty window: its top-left M×N elements (R90). -/
def ownSum (as bs : List (List OpEl)) (K : Nat) : List (List Elem) :=
  as.map fun ra => bs.map fun rb => mmaElem 0 K {} ((List.zip ra rb).map fun p => opProd p.1 p.2)

/-! ### Instructions -/

/-- What an instruction with a wrapping address counts (R72). -/
def wrapEvent (wraps : Bool) : List (StallEvent × Nat) := if wraps then [(.mmWrap, 1)] else []

/-- The record of a matrix instruction that ends with ST_FORMAT_MISMATCH (R68). -/
def Flight.mismatch (r : Flight) (acc : Fin 2) (instr : Nat) : Flight :=
  { r with status := .formatMismatch, kind := .matrix { acc := acc, instr := instr } }

/-- The earlier readouts and saves in flight whose destination overlaps these addresses: the array reads them only once those
have retired (R89). -/
def Stall.readouts (t : Stall) (addrs : List Nat) : List Nat :=
  (t.flights.filter fun f => f.mx.any fun u => u.dst.any fun a => addrs.contains a).map (·.seq)

/-- The effect of `mma` and `mma.tka`. BF16 in the IEEE mode is what the watch rounds a sample into where no `mmr` follows (R90;
DESIGN CHOICE, log entry 92). -/
def State.mma (s : State) (n : Fin 128) (r : Flight) (compat : Bool) (acc : Fin 2) (ta tb : TReg) (fmt : Fmt)
    (z tra trb : Bool) (M N K : Nat) : State × Flight :=
  let t := s.stall n
  let x := operandA t.t[ta] fmt tra
  let y := operandB t.t[tb] fmt trb
  if x.d.fmt ≠ fmtCode fmt || y.d.fmt ≠ fmtCode fmt then (s, r.mismatch acc 0)
  else
    let xo := x.offs M K
    let yo := y.offs N K
    let addrs := xo.map (x.d.addr n) ++ yo.map (y.d.addr n)
    let (s, _) := s.readGuarded addrs
    let as := s.opTable n x M K
    let bs := s.opTable n y N K
    let a := t.acc[acc].prepare z compat (fmt == .i8)
    let a := { a with ploc := a.ploc.orElse fun _ => firstBad as bs K }
    let s := s.modStall n fun t => t.setAcc acc (a.mma as bs K)
    let shadow := fun (d : Desc) => if d.shadowEn then t.t[d.shadowTd] else 0
    let info : MmaInfo :=
      { acc := acc, fmt := fmt, tra := tra, trb := trb, m := M, n := N, k := K, ta := t.t[ta], tb := t.t[tb],
        sa := shadow x.d, sb := shadow y.d, array := ownSum as bs K }
    let shadows := ([(x.d, info.sa), (y.d, info.sb)].filter fun e => e.1.shadowEn).map fun e => storeHome (Desc.of e.2).stable
    (s, { r with kind := .mma (if compat then none else some info),
                 reads := (storeHome x.d.stable :: storeHome y.d.stable :: shadows).eraseDups,
                 dest := if z then some (acc, .bf16, .ieee, none) else none,
                 counts := rsvdEvent addrs ++ wrapEvent (xo.any x.d.wraps || yo.any y.d.wraps),
                 lands := some (.acc acc M N),
                 mx := some { acc := acc, out := false, behind := t.readouts addrs } })

/-- The fields of `mma` that the loader takes (R67, R130): a format of the matrix engine, and K in whole blocks of an MX format. -/
def mmaOk (fmt : Fmt) (k1 : Fin 512) : Bool := decide (fmtCode fmt ≤ 7) && (!isMx fmt || (k1.val + 1) % 32 = 0)

/-- The formats of `mma.tka`. -/
def tkaOk (fmt : Fmt) : Bool := fmt == .bf16 || fmt == .f16 || fmt == .i8

def execMma (h : Hdr) (acc : Fin 2) (ta tb : TReg) (fmt : Fmt) (z tra trb : Bool) (m1 n1 : Fin 128) (k1 : Fin 512)
    (s : State) : Out :=
  if !mmaOk fmt k1 then .refused (.loaderRefused "MMA")
  else s.issue h .matrix (7, 0) .reads fun s r =>
    s.mma h.stall r false acc ta tb fmt z tra trb (m1.val + 1) (n1.val + 1) (k1.val + 1)

def execMmaTka (h : Hdr) (acc : Fin 2) (ta tb : TReg) (fmt : Fmt) (z tra trb : Bool) (m1 n1 : Fin 128) (k1 : Fin 512)
    (s : State) : Out :=
  if !tkaOk fmt then .refused (.loaderRefused "MMA_TKA")
  else s.issue h .matrix (7, 0) .reads fun s r =>
    s.mma h.stall r true acc ta tb fmt z tra trb (m1.val + 1) (n1.val + 1) (k1.val + 1)

/-! ### Readout (R79 to R82, R86) -/

/-- One element read out into a plain format. A poisoned element counts nothing (R79). A nonzero value that an integer
destination rounds to zero is an underflow too (R92). -/
def mmrElem (f : Fmt) (mode : OvMode) (sc : Int) (poison : Bool) (v : FVal) : Conv :=
  if poison then { bits := canonNan f }
  else
    let c := encodeElem f mode (v.scale sc)
    let nz := match v with | .fin _ m _ => m ≠ 0 | _ => false
    { c with unf := c.unf || (isInt f && nz && c.bits = 0) }

/-- One block of 32 elements read out into an MX format: its scale and elements (R81). -/
def mmrBlock (f : Fmt) (mode : OvMode) (k : Kind) (sc : Int) (vs : List (Bool × FVal)) : Nat × List Conv :=
  let (x, cs) := encodeBlock f mode (headroom k) (vs.map fun p => if p.1 then .nan else p.2.scale sc)
  (x, (vs.zip cs).map fun p => if p.1.1 then { p.2 with nanInt := false } else p.2)

/-- The elements of an M×N readout, row by row, and for an MX format the scales of each row's blocks. -/
def Acc.readout (a : Acc) (f : Fmt) (mode : OvMode) (kind : Option Kind) (sc : Int) (M N : Nat) :
    List (List Conv × List Nat) :=
  (List.range M).map fun i =>
    let vs := (List.range N).map fun j => let e := a.get i j; (e.poison, a.value e)
    if isMx f then
      let bs := (List.range (N / 32)).map fun b => mmrBlock f mode (kind.getD .w) sc ((vs.drop (32 * b)).take 32)
      ((bs.map (·.2)).flatten, bs.map (·.1))
    else (vs.map fun p => mmrElem f mode sc p.1 p.2, [])

/-- A readout's events, by the tallies that count them (R79, R81, R86, R92): an overflow of an MX readout of an exact accumulator also
in STL_CVT_OVERFLOW, as R56 says (log entry 26). -/
def mmrEvents (mx compat : Bool) (cs : List Conv) : List (StallEvent × Nat) :=
  let k := fun p => (cs.filter p).length
  [(.mmOverflow, k (·.ovf)), (.cvtOverflow, if mx && !compat then k (·.ovf) else 0), (.cvtNanInt, k (·.nanInt)),
    (.mxClamp, k (·.clamp)), (if mx then .mxUnderflow else .mmUnderflow, k (·.unf))]

/-- The first poisoned element of a region, row by row. -/
def Acc.firstPoison (a : Acc) (M N : Nat) : Option (Nat × Nat) :=
  ((List.range M).map fun i => (List.range N).map fun j => (i, j)).flatten.find? fun p => (a.get p.1 p.2).poison

/-- The offsets and bytes that a readout writes: each row's elements where the layout puts them, and its scales. Where a row
is wider than the pitch, so that two elements name one byte, the later column, and then the later row, stays (R79; DESIGN
CHOICE, log entry 89). -/
def readoutBytes (d : Desc) (f : Fmt) (rows : List (List Conv × List Nat)) : List (Nat × MByte) :=
  (rows.zipIdx.map fun (r, i) =>
    let bs := (r.1.map fun c => toBytes (fmtWidth f / 8) c.bits).flatten
    (bs.zipIdx.map fun (b, j) => (d.byteOff i j, (b, false))) ++
      r.2.zipIdx.map fun (x, b) => (d.scaleOff true i (32 * b), (BitVec.ofNat 8 x, false))).flatten

/-- Write bytes at offsets of a descriptor's store, and what the instruction counts for it (R72, R148, R190). -/
def State.writeTile (s : State) (n : Fin 128) (d : Desc) (ws : List (Nat × MByte)) : State × List (StallEvent × Nat) :=
  let ws' := ws.map fun w => (d.addr n w.1, w.2)
  (s.writeOpen ws', rsvdEvent (ws'.map (·.1)) ++ s.codeEvent (ws'.map (·.1)) ++ wrapEvent (ws.any fun w => d.wraps w.1))

/-- The fields of `mmr` that the loader takes: N in whole blocks of an MX format, which alone has a kind. -/
def mmrOk (fmt : Fmt) (kind : Option Kind) (n1 : Fin 128) : Bool :=
  decide (fmtCode fmt ≤ 7) && (!isMx fmt || (n1.val + 1) % 32 = 0) && isMx fmt == kind.isSome

def execMmr (h : Hdr) (acc : Fin 2) (td : TReg) (fmt : Fmt) (mode : OvMode) (kind : Option Kind) (clr : Bool)
    (ss : Option SReg) (m1 n1 : Fin 128) (s : State) : Out :=
  if !mmrOk fmt kind n1 then .refused (.loaderRefused "MMR")
  else s.issue h .matrix (8, 0) .writes fun s r =>
    let n := h.stall
    let t := s.stall n
    let d := Desc.of t.t[td]
    let M := m1.val + 1
    let N := n1.val + 1
    if d.fmt ≠ fmtCode fmt then (s, r.mismatch acc 1)
    else
      let sc := match ss with | some x => signed 8 t.s[x].toNat | none => 0
      let a := t.acc[acc]
      let rows := a.readout fmt mode kind sc M N
      let spills := if a.compat then 0 else
        ((List.range M).map fun i => ((List.range N).filter fun j => (a.get i j).spill ≠ 0).length).sum
      let ws := readoutBytes d fmt rows
      let (s, cs) := s.writeTile n d ws
      let s := if clr then s.modStall n fun t => t.setAcc acc {} else s
      let r := { r with writes := [storeHome d.stable], dest := some (acc, fmt, mode, kind),
                        counts := mmrEvents (isMx fmt) a.compat (rows.map (·.1)).flatten ++ (.mmSpill, spills) :: cs,
                        lands := if clr then some (.clear acc) else none,
                        mx := some { acc := acc, out := true, dst := ws.map fun w => d.addr n w.1 } }
      match a.firstPoison M N with
      | none => (s, r)
      | some (i, j) =>
        (s, { r with status := .uncorrectable, kind := .matrix { acc := acc, instr := 1, row := i, col := j, loc := a.ploc },
                     loc := match a.ploc with | some (o, st) => storeLoc st o | none => 0 })

/-! ### Save and restore (R84) -/

/-- The 20-byte record of an element. -/
def Elem.image (e : Elem) : List Byte :=
  let b := fun (x : Bool) (k : Nat) => if x then 2 ^ k else 0
  toBytes 20 (e.window.toNat + unsigned 11 e.eseen * 2 ^ 112 + e.spill % 2 ^ 20 * 2 ^ 123 + b e.nan 143 + b e.pinf 144 +
    b e.ninf 145 + b e.poison 146 + b e.negz 147)

/-- An element from its record. In compatibility mode only the value and POISON mean anything. -/
def Elem.ofImage (compat : Bool) (x : Nat) : Elem :=
  if compat then Elem.compat (bitsOf x 0 32) (bitOf x 146)
  else { window := BitVec.ofNat 112 x, eseen := signed 11 (bitsOf x 112 11), spill := bitsOf x 123 20, nan := bitOf x 143,
         pinf := bitOf x 144, ninf := bitOf x 145, poison := bitOf x 146, negz := bitOf x 147 }

/-- The 64-byte header of an image. -/
def Acc.header (a : Acc) : List Byte :=
  let p := match a.ploc with
    | some (o, st) => o % 2 ^ 25 * 2 ^ 50 + (if st then 2 ^ 75 else 0) + 2 ^ 76
    | none => 0
  toBytes 64 (a.kcount + (if a.compat then 2 ^ 48 else 0) + (if a.compat && a.int32 then 2 ^ 49 else 0) + p)

/-- The 327,744 bytes of an accumulator's image. -/
def Acc.image (a : Acc) : List Byte :=
  a.header ++ ((List.range 128).map fun i => ((List.range 128).map fun j => (a.get i j).image).flatten).flatten

/-- Length of an image. -/
def imageLen : Nat := 64 + 20 * 16384

/-- An accumulator from its image: `bs` its bytes with their poison, `loc` the location of byte `k`'s word. A poisoned
header reads as an empty accumulator's header and poisons every element (R84, R91); the fields of a poisoned record are its bits as they
are stored (log entry 116). Of several poisoned words of an image without a location it records the one of the lowest offset (DESIGN
CHOICE, log entry 126). -/
def Acc.ofImage (bs : List MByte) (loc : Nat → Nat × Bool) : Acc :=
  let head := bs.take 64
  let hp := head.any (·.2)
  let hv := if hp then 0 else ofBytes (head.map (·.1))
  let compat := bitOf hv 48
  let own := (bs.zipIdx.find? fun p => p.1.2).map fun p => loc p.2
  let ploc := if bitOf hv 76 then some (bitsOf hv 50 25, bitOf hv 75) else own
  { kcount := bitsOf hv 0 48, compat := compat, int32 := compat && bitOf hv 49, ploc := ploc,
    rows := (List.range 128).map fun i => (List.range 128).map fun j =>
      let rec' := (bs.drop (64 + 20 * (128 * i + j))).take 20
      let e := Elem.ofImage compat (ofBytes (rec'.map (·.1)))
      { e with poison := e.poison || hp || rec'.any (·.2) } }

def execMmxSt (h : Hdr) (acc : Fin 2) (td : TReg) (s : State) : Out :=
  s.issue h .matrix (8, 1) .writes fun s r =>
    let t := s.stall h.stall
    let d := Desc.of t.t[td]
    let ws := t.acc[acc].image.zipIdx.map fun (b, k) => (d.base + k, ((b, false) : MByte))
    let (s, cs) := s.writeTile h.stall d ws
    (s, { r with writes := [storeHome d.stable], counts := cs, dest := some (acc, .bf16, .ieee, none),
                 mx := some { acc := acc, out := true, dst := ws.map fun w => d.addr h.stall w.1 } })

def execMmxLd (h : Hdr) (acc : Fin 2) (td : TReg) (s : State) : Out :=
  s.issue h .matrix (8, 2) .reads fun s r =>
    let n := h.stall
    let d := Desc.of (s.stall n).t[td]
    let offs := (List.range imageLen).map (d.base + ·)
    let as := offs.map (d.addr n)
    let (s, bs) := s.readGuarded as
    let a := Acc.ofImage bs fun k => ((d.base + k) % storeSize d.stable / 8 * 8, d.stable)
    (s.modStall n fun t => t.setAcc acc a,
      { r with reads := [storeHome d.stable], counts := rsvdEvent as ++ wrapEvent (offs.any d.wraps),
               lands := some (.acc acc 128 128), dest := if a.empty then some (acc, .bf16, .ieee, none) else none,
               mx := some { acc := acc, out := true } })

end Sys2Proof.Machine
end

