-- ==== Sys2Proof/Machine/Post.lean ====
section
/-!
DEFINITION. Registered post: receipts, the receiving window, giving up, and clearance (R316 to R323).
-/
namespace Sys2Proof.Machine

/-! ### Receiving (R317, R320) -/

/-- Send the receipt that answers a letter (R317); a circular's carries its sums in TARGET (R260). -/
def State.receipt (s : State) (lt : Letter) (st : Status) (target : BitVec 64 := 0) : State :=
  s.send { dest := lt.src, src := s.chip, cls := .receipt, jobTag := lt.jobTag, op := BitVec.ofNat 6 lt.cls.code,
           status := BitVec.ofNat 8 st.code, refPostmark := lt.postmark, target := target }

/-- The stream a letter arrives on. -/
def streamOf (lt : Letter) : StreamKey := ⟨lt.src, lt.cls, lt.jobTag⟩

def State.recvStream (s : State) (k : StreamKey) : RecvStream := AMap.get {} k s.recvStreams

/-- What the window says of a postmark (R320). -/
inductive PostIn where
  | new | dup | stale
  deriving DecidableEq, Repr

def RecvStream.judge (r : RecvStream) (p : BitVec 32) : PostIn :=
  if newer32 p r.h then .new
  else
    let back := (r.h - p).toNat
    if back < 4096 then (if r.window.getLsbD back then .dup else .new) else .stale

/-- Record a placed postmark in the window. -/
def RecvStream.record (r : RecvStream) (p : BitVec 32) : RecvStream :=
  if newer32 p r.h then ⟨p, (r.window <<< (p - r.h).toNat) ||| 1#4096⟩
  else { r with window := r.window ||| (1#4096 <<< (r.h - p).toNat) }

def State.record (s : State) (lt : Letter) : State :=
  { s with recvStreams := AMap.set (streamOf lt) ((s.recvStream (streamOf lt)).record lt.postmark) s.recvStreams }

/-- Count one event in each of several counters. -/
def State.bumpAll (s : State) (rs : List Reg) : State := rs.foldl (fun s r => s.bump r 1) s

/-- The counters of a registered letter whose job tag names no context here (R183, R249, R280; log entry 86). -/
def lostCounters : LClass → List Reg
  | .slot => [.soSlotUnbound]
  | .coll => [.soNocontext, .ceNogroup]
  | _ => [.soNocontext]

/-- A registered letter at its destination (R249, R261, R320, R345): the context its job tag selects, the fence, the window;
`place` answers false where the letter is not placeable. `lost` are the counters of a letter whose job tag names no context, `held`
tells that the original of a duplicate is still being placed (R321). -/
def State.postIn (s : State) (lt : Letter) (lost : List Reg) (held : Bool) (place : State → Fin 64 → State × Bool) : State :=
  if !s.globalOn then s.bump .soNocontext 1
  else match s.ctxOfTag lt.jobTag with
  | none => s.bumpAll lost
  | some c =>
    if s.fenced c then (s.bump .soRefusedFenced 1).receipt lt .fenced
    else match (s.recvStream (streamOf lt)).judge lt.postmark with
      | .stale => s.bump .soPostStale 1
      | .dup =>
        let s := s.bump .soPostDups 1
        if held then { s with heldDups := s.heldDups ++ [lt] } else s.receipt lt .ok
      | .new =>
        let r := place (s.record lt) c
        if r.2 then r.1 else { r.1 with recvStreams := s.recvStreams }

/-- Granules of a VC of an input buffer are free again (R242). -/
def State.freedMore (s : State) (k : Fin 8 × Fin 16) (n : Nat) : State :=
  { s with freed := AMap.set k ((AMap.get 0 k s.freed + n) % 4096) s.freed }

/-- A letter leaves the input buffer that holds it, if any: its granules are free (R241, R242). -/
def State.release (s : State) (lt : Letter) : State :=
  match s.rxHeld.find? fun x => { x.lt with circVa := lt.circVa } = lt with
  | some x => { s with rxHeld := s.rxHeld.erase x }.freedMore (x.port, x.vc) x.granules
  | none => s

/-- A letter leaves the inbox, through port 8, as it is processed. -/
def State.taken (s : State) (lt : Letter) : State :=
  let xs : List Letter := s.inbox.eraseP fun x => { x with circVa := lt.circVa } = lt
  ({ s with inbox := xs }.release lt).traceHead 0x230 lt false

/-! ### Giving up (R318, R322) -/

/-- The consignment that a stall runs. -/
def State.consignOf (s : State) (n : Fin 128) : Nat := (s.stall n).consignment

/-- The stall whose program an owner's letters belong to. -/
def State.ownerStall (s : State) : Owner → Option (Fin 128)
  | .flight n _ => some n
  | .ended n => some n
  | .coll id => (s.collOps.find? fun o => o.id = id).map (·.stall)
  | _ => none

/-- Give up an outstanding letter: its postmark waits for clearance, unless it is a REQUEST's, and the consignment that
sent it remembers the stream (R323). -/
def State.giveUp (s : State) (o : Outstanding) : State :=
  let s := { s with outstanding := s.outstanding.erase o }
  if o.key.cls == .request then s
  else
    let st := s.sendStream o.key
    let newest := match st.givenUp with
      | some a => if newer32 o.letter.postmark a then o.letter.postmark else a
      | none => o.letter.postmark
    let s := s.setSend o.key { st with givenUp := some newest }
    match s.ownerStall o.owner with
    | none => s
    | some n =>
      let id := s.consignOf n
      { s with consigns := s.consigns.map fun e =>
          if e.1 = id && !(e.2.streams.contains o.key) then (e.1, { e.2 with streams := o.key :: e.2.streams }) else e }

/-- Take back every letter of an owner that waits to be sent (R140). -/
def State.unqueue (s : State) (w : Owner) : State := { s with postQ := s.postQ.filter fun o => o.owner ≠ w }

/-- Give up every outstanding letter of an owner, and take back those that wait. -/
def State.giveUpOwner (s : State) (w : Owner) : State :=
  ((s.outstanding.filter fun o => o.owner = w).foldl (fun s o => s.giveUp o) s).unqueue w

/-- Whether an owner still has letters to send or not yet ended. -/
def State.owes (s : State) (w : Owner) : Bool := s.postQ.any (fun o => o.owner = w) || s.outstanding.any fun o => o.owner = w

/-- Whether an instruction takes the status of a letter that fails at a stamp: it is the first of its letters to fail, or as early as
the first with a lower postmark (R140). -/
def Flight.failsBy (f : Flight) (stamp : Nat) (pm : BitVec 32) : Bool :=
  f.status == .ok || (f.failAt.1 = stamp && decide (pm < f.failAt.2))

/-- An instruction in flight takes the status of the first of its letters to fail, by franking stamp and then by postmark, and sends no
further letter (R140). -/
def State.failFlight (s : State) (n : Fin 128) (seq : Nat) (st : Status) (pm : BitVec 32 := 0) : State :=
  (s.unqueue (.flight n seq)).modStall n fun t =>
    { t with flights := t.flights.map fun f =>
        if f.seq = seq && f.failsBy s.stampNow pm then { f with status := st, failAt := (s.stampNow, pm) } else f }

/-! ### Clearance (R322, R323) -/

/-- Whether a stream's clearance may be sent: postmarks given up, none other outstanding, none under way. -/
def State.clearable (s : State) (k : StreamKey) : Bool :=
  let st := s.sendStream k
  st.givenUp.isSome && st.clearing.isNone && !st.broken && !(s.outstanding.any fun o => o.key = k)

/-- The clearance letter of a stream: OP 0x3F, LENGTH 0, postmark C (R322). -/
def clearLetter (chip : BitVec 14) (k : StreamKey) (pm : BitVec 32) : Letter :=
  { dest := k.chip, src := chip, cls := k.cls, jobTag := k.tag, op := 0x3F, postmark := pm }

/-- CLEARING and BROKEN of HST_CTX_STATUS are those of a context's streams. -/
def State.ctxStreams (s : State) (c : Fin 64) : List SendStream :=
  let tag := s.jobTag c
  (s.sendStreams.filter fun e => e.1.tag = tag).map (·.2)

def State.ctxClearing (s : State) (c : Fin 64) : Bool := (s.ctxStreams c).any fun x => x.clearing.isSome || x.givenUp.isSome
def State.ctxBroken (s : State) (c : Fin 64) : Bool := (s.ctxStreams c).any fun x => x.broken

end Sys2Proof.Machine
end

