-- ==== Sys2Proof/Machine/Coll.lean ====
section
/-!
DEFINITION. The collective engine: groups, operations and their letters (R264 to R291), and the ends of an operation (R284,
R293, R294).
-/
namespace Sys2Proof.Machine

/-! ### The axis plan and the group table (R22, R264 to R266) -/

def State.planRole (s : State) (c : Fin 64) (a : Fin 4) : Nat := bitsOf (s.rd (.ceAxisPlan c)).toNat (16 * a.val) 3
def State.planGroup (s : State) (c : Fin 64) (a : Fin 4) : Nat := bitsOf (s.rd (.ceAxisPlan c)).toNat (16 * a.val + 3) 2
def State.planLen (s : State) (c : Fin 64) (a : Fin 4) : Nat := bitsOf (s.rd (.ceAxisPlan c)).toNat (16 * a.val + 5) 4 + 1

/-- The roles that have a collective group: data, tensor, expert, sequence. -/
def groupRole (r : Nat) : Bool := r == 1 || r == 3 || r == 4 || r == 5

/-- The axis of a context's group, if the group exists (R264). -/
def State.grpAxis (s : State) (c : Fin 64) (g : Fin 4) : Option (Fin 4) :=
  (List.finRange 4).find? fun a => groupRole (s.planRole c a) && s.planGroup c a = g.val

/-- L of a group. -/
def State.grpLen (s : State) (c : Fin 64) (g : Fin 4) : Nat :=
  match s.grpAxis c g with | some a => s.planLen c a | none => 1

/-- The job's data axis, and its group (R24). -/
def State.dataAxis (s : State) (c : Fin 64) : Option (Fin 4) := (List.finRange 4).find? fun a => s.planRole c a = 1
def State.dataGroup (s : State) (c : Fin 64) : Option (Fin 4) := (s.dataAxis c).map fun a => Fin.ofNat 4 (s.planGroup c a)

/-- Member `q` of a group, as its table records it. -/
def State.member (s : State) (c : Fin 64) (g : Fin 4) (q : Nat) : BitVec 14 :=
  BitVec.ofNat 14 (bitsOf (s.rd (.ceGrpMember c g (Fin.ofNat 4 (q / 4)))).toNat (16 * (q % 4)) 14)

def State.grpPos (s : State) (c : Fin 64) (g : Fin 4) : Nat := s.fld (.ceGrpCtrl c g) F.ceGrpCtrl_POS
def State.grpValid (s : State) (c : Fin 64) (g : Fin 4) : Bool := s.flag (.ceGrpCtrl c g) F.ceGrpCtrl_VALID
def State.grpState (s : State) (c : Fin 64) (g : Fin 4) : Nat := s.fld (.ceGrpStatus c g) F.ceGrpStatus_STATE

/-- Whether an operation may be issued on a group (R264). -/
def State.grpUsable (s : State) (c : Fin 64) (g : Fin 4) : Bool :=
  (s.grpAxis c g).isSome && s.grpValid c g && decide (s.grpState c g ≠ 2)

/-- Whether the group's direction is + . -/
def State.grpPlus (s : State) (c : Fin 64) (g : Fin 4) : Bool := !s.flag (.ceGrpCtrl c g) F.ceGrpCtrl_DIR

/-- The child ports of a tree member, ascending, and its parent port. -/
def State.grpChildren (s : State) (c : Fin 64) (g : Fin 4) : List (Fin 8) :=
  [4, 5, 6, 7].filter fun p => bitOf (s.fld (.ceGrpTree c g) F.ceGrpTree_CHILDREN) (p.val - 4)
def State.grpParent (s : State) (c : Fin 64) (g : Fin 4) : Option (Fin 8) :=
  if s.flag (.ceGrpTree c g) F.ceGrpTree_ROOT then none
  else some (Fin.ofNat 8 (s.fld (.ceGrpTree c g) F.ceGrpTree_PARENT_PORT))

/-- The chip at the other end of a port. -/
def State.peerOf (s : State) (p : Fin 8) : BitVec 14 := BitVec.ofNat 14 (s.fld (.soPortPeer p) F.soPortPeer_PEER_CHIP)

/-- The member of a tree at a port: the chip next to it, also where a bypass hop skips that (R265, R273). -/
def State.treePeer (s : State) (p : Fin 8) : BitVec 14 :=
  if s.flag (.soPortStatus p) F.soPortStatus_BYPASS_HOP && s.fld (.soPortPeer p) F.soPortPeer_SKIP_COUNT ≠ 0 then s.chipBeyond p 0
  else s.peerOf p

/-- SEALED_STEP of a context (R94). -/
def State.sealed (s : State) (c : Fin 64) : BitVec 32 := BitVec.ofNat 32 (s.fld (.stlUpdSealed c) F.stlUpdSealed_SEALED_STEP)

/-! ### Geometry of an operation (R271, R272, R278) -/

/-- Elements per chunk. -/
def chunkSize (E L : Nat) : Nat := 32 * ceilDiv E (32 * L)

/-- First element and number of elements of chunk `p`. -/
def chunkOf (E L p : Nat) : Nat × Nat :=
  let C := chunkSize E L
  (min (p * C) E, min ((p + 1) * C) E - min (p * C) E)

/-- First element and number of elements of a half of `n` elements at `lo`. -/
def halfOf (lo n h : Nat) : Nat × Nat :=
  let H := min n (32 * ceilDiv n 64)
  if h = 0 then (lo, H) else (lo + H, n - H)

def CollOp.keyed (o : CollOp) : Bool := o.key.isSome

/-- The chunks of an operation. -/
def CollOp.chunks (o : CollOp) : List Nat := if o.keyed then [o.owner] else if o.isTree then [0] else List.range o.len

/-- First element and number of elements of a half of a chunk. A tree letter's half 0 holds every element. -/
def CollOp.half (o : CollOp) (chunk h : Nat) : Nat × Nat :=
  if o.isTree then (if h = 0 then (0, o.count) else (o.count, 0))
  else
    let (lo, n) := if o.keyed then (0, o.count) else chunkOf o.count o.len chunk
    halfOf lo n h

/-- First element or block, and number, of an item. Phase 4 stands for the gather pass of a scale round, whose letters
carry PHASE 2. -/
def CollOp.range (o : CollOp) (it : CollItem) : Nat × Nat :=
  let (lo, n) := o.half it.chunk it.half
  let scale := it.phase = 2 || it.phase = 4
  let (lo, n) := if scale then (lo / 32, ceilDiv n 32) else (lo, n)
  let per := perLetter o.fmt (if scale then 2 else it.phase)
  (lo + per * it.k, min per (n - per * it.k))

/-- Whether the operation runs a scale round (R275). -/
def CollOp.rounds (o : CollOp) : Bool := o.agreed && isMx o.fmt

/-- The phases of a ring or tree operation on a member (R272). -/
def CollOp.phases (o : CollOp) : List Nat :=
  let sc := if o.rounds then [2, 4] else []
  match o.kind with
  | .reduce => sc ++ [0, 1]
  | .rscat | .tree | .wgtile => sc ++ [0]
  | .agath | .gather => [1]
  | .a2a | .circ => []

/-- The items of a phase; the letters of each, keyed ones too, are counted within their half (R279; log entry 113). -/
def CollOp.items (o : CollOp) (phase : Nat) : List CollItem :=
  (o.chunks.map fun p => ([0, 1].map fun h =>
    let (_, n) := o.half p h
    let scale := phase = 2 || phase = 4
    let n := if scale then ceilDiv n 32 else n
    (List.range (ceilDiv n (perLetter o.fmt (if scale then 2 else phase)))).map fun k => ⟨phase, h, p, k⟩).flatten).flatten

/-- Bytes of an `a2a` block are cut into letters. -/
def CollOp.a2aItems (o : CollOp) : List CollItem :=
  (((List.range o.len).filter (· ≠ o.pos)).map fun q =>
    (List.range (ceilDiv o.count 4096)).map fun k => ⟨3, 0, q, k⟩).flatten

/-- Everything that this member does for an operation. -/
def CollOp.allItems (o : CollOp) : List CollItem :=
  match o.kind with
  | .a2a => o.a2aItems
  | _ => (o.phases.map o.items).flatten

/-- The position at which the order of a chunk's elements ends. -/
def CollOp.last (o : CollOp) (chunk : Nat) : Nat := if o.kind == .tree then o.owner else chunk

/-- This member's place in the order of a half (R271): 0 starts the carrier, len - 1 adds last. -/
def CollOp.place (o : CollOp) (it : CollItem) : Nat :=
  let p := o.last it.chunk
  if it.half = 0 then (o.pos + 2 * o.len - p - 1) % o.len else (p + 2 * o.len - 1 - o.pos) % o.len

/-- Hops that a gather pass takes from its owner to this member. -/
def CollOp.dist (o : CollOp) (it : CollItem) : Nat :=
  let p := o.last it.chunk
  if it.half = 0 then (o.pos + o.len - p % o.len) % o.len else (p + o.len - o.pos) % o.len

/-- The member, and the port, that a half's letters go on to (R273). -/
def CollOp.next (o : CollOp) (h : Nat) : BitVec 14 :=
  o.members.getD (if h = 0 then (o.pos + 1) % o.len else (o.pos + o.len - 1) % o.len) 0
def CollOp.port (o : CollOp) (h : Nat) : Fin 8 := axisPort o.axis (if h = 0 then o.plus else !o.plus)

/-- TARGET of a COLL letter (R236, R278). -/
def collTarget (g : Fin 4) (tag phase half chunk : Nat) (keyed : Bool) : Nat :=
  g.val + tag % 4096 * 4 + phase % 4 * 2 ^ 14 + half % 2 * 2 ^ 16 + chunk % 16 * 2 ^ 17 + (if keyed then 2 ^ 21 else 0)

/-- The COLL instruction's OP (R236); a gather that `upd` starts is an all-gather. -/
def CollKind.op : CollKind → Nat
  | .reduce => 0 | .rscat => 1 | .agath => 2 | .a2a => 3 | .circ => 4 | .tree => 5 | .wgtile => 6 | .gather => 2

/-! ### Operations in the state -/

def State.findOp (s : State) (id : Nat) : Option CollOp := s.collOps.find? fun o => o.id = id
def State.setOp (s : State) (o : CollOp) : State := { s with collOps := s.collOps.map fun x => if x.id = o.id then o else x }

/-- Mark items as done. -/
def CollOp.mark (o : CollOp) (is : List CollItem) : CollOp := { o with done := o.done ++ is }
def CollOp.has (o : CollOp) (it : CollItem) : Bool := o.done.contains it

/-- Count the events of a step of a reduction (R274, R275). -/
def State.collCount (s : State) (o : CollOp) (n : CollCount) : State :=
  let s := s.bump (.ceGrpOverflow o.ctx o.grp) n.ovf
  let s := s.bump (.ceGrpBlkuf o.ctx o.grp) n.uf
  let s := s.bump (.ceGrpClamp o.ctx o.grp) n.clamp
  s.bump (.ceGrpEscal o.ctx o.grp) n.esc

/-! ### Buffers (R268, R285) -/

/-- The physical addresses of `len` bytes at an operand (R268): a virtual address of the context, or a store. SPACE 3 is
refused with cause 5. -/
def State.collAddrs (s : State) (c : Fin 64) (n : Fin 128) (x : BitVec 64) (len : Nat) (write : Bool) :
    State × List (Option Nat) :=
  let a := bitsOf x.toNat 0 48
  if len = 0 then (s, [])
  else match bitsOf x.toNat 48 2 with
    | 0 => s.xlatAll c ((List.range len).map (a + ·)) write false 0x80
    | 1 => (s, (storeRange n false a len).map some)
    | 2 => (s, (storeRange n true a len).map some)
    | _ => (s.scoped fun s => s.refuseRange c (a + 3 * 2 ^ 48) len write 0x80, List.replicate len none)

/-- A buffer of `cnt` elements, the first of them element `base` of the operation, with its block scales behind it. -/
def State.collBuf (s : State) (c : Fin 64) (n : Fin 128) (x : BitVec 64) (f : Fmt) (base cnt : Nat) (write : Bool) :
    State × CollBuf :=
  let w := fmtWidth f / 8
  let sc := if isMx f then cnt / 32 else 0
  let (s, as) := s.collAddrs c n x (cnt * w + sc) write
  (s, { els := as.take (cnt * w), scales := as.drop (cnt * w), base := base })

/-- Read translated bytes; refused ones read zero. -/
def State.collRead (s : State) (as : List (Option Nat)) : State × List MByte :=
  let (s, _) := s.readGuarded (as.filterMap id)
  (s, as.map fun a => match a with | some a => s.peekG a | none => (0, false))

/-- Read bytes of an operation's source, which the engine does over its whole life (R285, R286). -/
def State.sourceRead (s : State) (id : Nat) (as : List (Option Nat)) : State × List MByte :=
  let upd := (s.tiles.find? fun x => x.gather = some id).map fun x => (x.stall, x.seq)
  s.acting (.source id upd) .reads fun s => s.collRead as

/-- Write translated bytes for the engine; refused ones are discarded. -/
def State.collWrite (s : State) (as : List (Option Nat)) (bs : List MByte) : State :=
  (s.acting .engine .writes fun s =>
    (s.writeGuarded ((List.zip as bs).filterMap fun e => match e.1 with | some a => some (a, e.2) | none => none), ())).1

/-- `n` elements from element `start` of a buffer, and their block scales, as addresses. -/
def CollBuf.slice (b : CollBuf) (f : Fmt) (start n : Nat) : List (Option Nat) × List (Option Nat) :=
  let w := fmtWidth f / 8
  ((b.els.drop ((start - b.base) * w)).take (n * w),
    if isMx f then (b.scales.drop ((start - b.base) / 32)).take (n / 32) else [])

/-- The bytes of `n` elements of this member's source from element `start`, and of their block scales, with their marks. -/
def State.ownBytes (s : State) (o : CollOp) (start n : Nat) : State × List MByte × List MByte :=
  let (ea, sa) := o.src.slice o.fmt start n
  let (s, bs) := s.sourceRead o.id (ea ++ sa)
  (s, bs.take ea.length, bs.drop ea.length)

/-- Whole numbers of `w` bytes each. -/
def elemsOf (w n : Nat) (bs : List MByte) : List Nat :=
  (List.range n).map fun i => ofBytes (((bs.drop (w * i)).take w).map (·.1))

/-- The contribution of this member to an item of phase 0 or 1. -/
def State.contrib (s : State) (o : CollOp) (start n : Nat) : State × Contrib :=
  let (s, es, ss) := s.ownBytes o start n
  let pe := (es.zipIdx.filter fun p => p.1.2).map fun p => p.2 / 64
  let ps := (ss.zipIdx.filter fun p => p.1.2).map fun p => scaleFlit p.2
  (s, { xs := elemsOf (fmtWidth o.fmt / 8) n es, scales := ss.map fun b => b.1.toNat, poison := flitMask (pe ++ ps) })

/-- Its bytes for a scale round, one a block, and the marks of their flits: that of a byte whose block holds a poisoned word
(R291). -/
def State.scaleContrib (s : State) (o : CollOp) (start n : Nat) : State × List Nat × BitVec 64 :=
  let (s, es, ss) := s.ownBytes o (32 * start) (32 * n)
  let w := fmtWidth o.fmt / 8
  let bad := (List.range n).filter fun i => ((es.drop (32 * w * i)).take (32 * w)).any (·.2) || (ss[i]?).any (·.2)
  (s, (blocksOf (elemsOf w (32 * n) es)).zipIdx.map fun (b, i) =>
      agreedByte (blockVals o.fmt ((ss[i]?).elim 0 (·.1.toNat)) b),
    flitMask ((bad.map fun i => elFlit o.fmt 2 i).eraseDups))

/-! ### Letters of an operation -/

/-- Put a letter of an operation in the post. `dest` and `port` are those that the engine chose; `vc` is the VC on which
the pass arrived, 0 where it starts here; `fr` the place in staging of the letter that it passes on, which it keeps. -/
def State.collPost (s : State) (o : CollOp) (it : CollItem) (c : Carrier) (dest : BitVec 14) (port : Fin 8) (vc : Fin 16)
    (fr : Option Frame) : State :=
  let phase := if it.phase = 4 then 2 else it.phase
  let (_, n) := o.range it
  let c := { c with k := it.k, elems := n, fmt := fmtCode o.fmt, opk := o.opk, key := o.key.getD ⟨0, 0, 0, 0⟩,
                    destVa := o.target, rowStride := o.rowStride, tileM := o.tileM, tileN := o.tileN }
  s.post [{ key := ⟨dest, .coll, s.jobTag o.ctx⟩, owner := .coll o.id, ctx := o.ctx, port := some port, frame := fr,
            letter := { dest := dest, src := s.chip, vc := vc, cls := .coll, jobTag := s.jobTag o.ctx,
                        op := BitVec.ofNat 6 o.kind.op, length := 4096, poison := c.poison,
                        target := BitVec.ofNat 64 (collTarget o.grp o.tag phase it.half it.chunk o.keyed),
                        body := c.encode o.fmt phase } }]

/-- The next hop of a ring pass. -/
def State.ringPost (s : State) (o : CollOp) (it : CollItem) (c : Carrier) (vc : Fin 16) (fr : Option Frame) : State :=
  s.collPost o it c (o.next it.half) (o.port it.half) vc fr

/-- A tree letter to the parent climbs on the low VC; to the children it descends on the high VC; over a bypass hop it is discarded
(R249, R273). -/
def State.treeUp (s : State) (o : CollOp) (it : CollItem) (c : Carrier) (fr : Option Frame) : State :=
  match o.parent with
  | some p => s.collPost o it c (s.treePeer p) p 0 fr
  | none => s
def State.treeDown (s : State) (o : CollOp) (it : CollItem) (c : Carrier) (fr : Option Frame) : State :=
  o.children.foldl (fun s p => s.collPost o it c (s.treePeer p) p (Fin.ofNat 16 (9 + 2 * o.grp.val)) fr) s

/-! ### Results (R284, R290, R291) -/

/-- The index among a tile's M×N elements of an element of its carrier, whose rows a block format pads. -/
def CollOp.elemIndex (o : CollOp) (e : Nat) : Nat :=
  if o.kind == .wgtile && isMx o.fmt then
    let w := 32 * ceilDiv o.tileN 32
    e / w * o.tileN + e % w
  else e

/-- Take the latest record of an operation, change it, and put it back. -/
def State.modOp (s : State) (id : Nat) (f : CollOp → CollOp) : State :=
  match s.findOp id with
  | some o => s.setOp (f o)
  | none => s

/-- Count the NaN elements of a letter that is written for an operation on a group, and record the first, element `e` (R290): the record
is that of the first operation with a NaN result, which its later letters complete. -/
def State.nanWritten (s : State) (cg : Fin 64 × Fin 4) (op : NanOp) (tag e : Nat) (c : Carrier) : State :=
  if c.nanElems = 0 then s
  else
    let s := s.bump (.ceGrpNanelem cg.1 cg.2) c.nanElems
    let r := Reg.ceGrpNanrec cg.1 cg.2
    let e := e % 2 ^ 31
    if !s.flag r F.ceGrpNanrec_VALID then
      { s.wr r (pack [(F.ceGrpNanrec_POS_MASK, c.posMask), (F.ceGrpNanrec_FIRST_POS, c.nanPos), (F.ceGrpNanrec_TAG, tag),
          (F.ceGrpNanrec_FIRST_ELEM, e), (F.ceGrpNanrec_VALID, 1)]) with nanOps := AMap.set cg op s.nanOps }
    else if s.nanOps.contains (cg, op) then
      let mask := s.fld r F.ceGrpNanrec_POS_MASK ||| c.posMask
      let s := s.setFld r F.ceGrpNanrec_POS_MASK mask
      if e < s.fld r F.ceGrpNanrec_FIRST_ELEM then
        s.setFlds r [(F.ceGrpNanrec_FIRST_ELEM, e), (F.ceGrpNanrec_FIRST_POS, c.nanPos)]
      else s
    else s

/-- The bytes of a carrier's elements and scales, each with the mark of its flit. -/
def Carrier.bytes (c : Carrier) (f : Fmt) : List MByte × List MByte :=
  let w := fmtWidth f / 8
  ((c.xs.zipIdx.map fun (x, i) =>
      (toBytes w x).map fun b => (b, c.poison.getLsbD (w * i / 64))).flatten,
    c.scales.zipIdx.map fun (x, b) => (BitVec.ofNat 8 x, c.poison.getLsbD (scaleFlit b)))

/-- Write a result letter at the destination. -/
def State.collResult (s : State) (o : CollOp) (it : CollItem) (c : Carrier) : State :=
  let (start, n) := o.range it
  let (ea, sa) := o.dst.slice o.fmt start n
  let (eb, sb) := c.bytes o.fmt
  let s := s.collWrite (ea ++ sa) (eb ++ sb)
  let s := s.bump .cePoison (markedFlits c.poison (c.flits o.fmt 0))
  s.nanWritten (o.ctx, o.grp) (.op o.id) o.tag (o.elemIndex (start + c.nanIdx)) c

/-! ### Ring passes (R271 to R275) -/

/-- The agreed maxima of an item's blocks, where every one is known. -/
def CollOp.agreedOf (o : CollOp) (it : CollItem) : Option (List Nat) :=
  let (lo, n) := o.range it
  ((List.range (ceilDiv n 32)).mapM fun b => (o.blockMax.find? fun e => e.1 = lo / 32 + b).map (·.2))

/-- Whether an item of the reduce pass may start here: its scales are agreed where the operation needs them. -/
def CollOp.mayReduce (o : CollOp) (it : CollItem) : Bool := !o.rounds || (o.agreedOf it).isSome

/-- The carrier that this member starts for an item of phase 0. -/
def State.startCarrier (s : State) (o : CollOp) (it : CollItem) : State × Carrier :=
  let (lo, n) := o.range it
  let (s, own) := s.contrib o lo n
  let (c, cnt) := Carrier.start {} o.fmt o.len o.pos (if o.rounds then o.agreedOf it else none) own
  (s.collCount o cnt, c)

/-- Start the items of the reduce pass whose first position is here and whose scales are known (R271, R275). -/
def State.startReduce (s : State) (id : Nat) : State :=
  match s.findOp id with
  | none => s
  | some o =>
    ((o.items 0).filter fun it => o.place it = 0 && !o.has it && o.mayReduce it).foldl (fun s it =>
      let (s, c) := s.startCarrier o it
      (s.modOp id fun o => o.mark [it]).ringPost o it c 0 none) s

/-- An item of a scale round, with its bytes. -/
def scaleCarrier (xs : List Nat) (p : BitVec 64) : Carrier := { xs := xs, poison := p }

/-- Note the agreed maxima of an item's blocks. -/
def CollOp.agree (o : CollOp) (it : CollItem) (xs : List Nat) : CollOp :=
  let (lo, _) := o.range it
  { o with blockMax := o.blockMax ++ xs.zipIdx.map fun (x, i) => (lo + i, x) }

/-- What a ring member starts when the operation starts. -/
def State.ringStart (s : State) (o : CollOp) : State :=
  let s := if o.rounds then
      ((o.items 2).filter fun it => o.place it = 0).foldl (fun s it =>
        let (lo, n) := o.range it
        let (s, xs, p) := s.scaleContrib o lo n
        (s.modOp o.id fun o => o.mark [it]).ringPost o it (scaleCarrier xs p) 0 none) s
    else s
  let s := if o.kind == .agath || o.kind == .gather then
      ((o.items 1).filter fun it => o.dist it = 0).foldl (fun s it =>
        let (lo, n) := o.range it
        let (s, own) := s.contrib o lo n
        let c : Carrier := { xs := own.xs, scales := own.scales, poison := own.poison }
        let c := c.gathered o.fmt o.pos
        let s := if o.kind == .agath then s.collResult o it c else s
        (s.modOp o.id fun o => o.mark [it]).ringPost o it c 0 none) s
    else s
  if o.phases.contains 0 then s.startReduce o.id else s

/-- A letter of the reduce pass at this member (R272). -/
def State.ringReduce (s : State) (o : CollOp) (it : CollItem) (lt : Letter) (fr : Frame) : State :=
  let (lo, n) := o.range it
  let (s, own) := s.contrib o lo n
  let (c, cnt) := (Carrier.decode lt o.fmt 0).combine o.fmt o.opk o.pos o.rounds own
  let s := s.collCount o cnt
  if o.place it + 1 = o.len then
    let s := s.collResult o it c
    if o.kind == .reduce then
      let g := { it with phase := 1 }
      (s.modOp o.id fun o => o.mark [it, g]).ringPost o g c 0 fr
    else s.modOp o.id fun o => o.mark [it]
  else (s.modOp o.id fun o => o.mark [it]).ringPost o it c lt.vc fr

/-- A letter of the gather pass at this member. -/
def State.ringGather (s : State) (o : CollOp) (it : CollItem) (lt : Letter) (fr : Frame) : State :=
  let c := Carrier.decode lt o.fmt 1
  let s := (s.collResult o it c).modOp o.id fun o => o.mark [it]
  if o.dist it + 1 < o.len then s.ringPost o it c lt.vc fr else s

/-- A letter of a scale round at this member: of its reduce pass, or of its gather pass (R275). -/
def State.ringScale (s : State) (o : CollOp) (it : CollItem) (lt : Letter) (fr : Frame) : State :=
  let c := Carrier.decode lt o.fmt 2
  let g := { it with phase := 4 }
  if o.place it ≠ 0 && !o.has it then
    let (lo, n) := o.range it
    let (s, xs, p) := s.scaleContrib o lo n
    let m := (List.zip c.xs xs).map fun e => max e.1 e.2
    let c := scaleCarrier m (c.poison ||| p)
    if o.place it + 1 = o.len then
      ((s.modOp o.id fun o => (o.agree it m).mark [it, g]).ringPost o g c 0 fr).startReduce o.id
    else (s.modOp o.id fun o => o.mark [it]).ringPost o it c lt.vc fr
  else
    let s := s.modOp o.id fun o => (o.agree it c.xs).mark [g]
    let s := if o.dist it + 1 < o.len then s.ringPost o g c lt.vc fr else s
    s.startReduce o.id

/-! ### Trees (R276) -/

/-- The partials of an item that every child has sent, in ascending child port, or none while one is missing. -/
def CollOp.allPartials (o : CollOp) (it : CollItem) : Option (List Partial) :=
  (List.range o.children.length).mapM fun i => o.partials.find? fun p => p.item = it && p.child = i

/-- An item of a tree has been combined: it is done, and its partials leave staging. -/
def CollOp.combined (o : CollOp) (it : CollItem) (also : List CollItem) : CollOp :=
  { o.mark (it :: also) with partials := o.partials.filter fun p => p.item ≠ it }

/-- Combine and pass up the items whose children have all sent, from the scale round and the reduce pass. -/
def State.treeStep (s : State) (id : Nat) : State :=
  match s.findOp id with
  | none => s
  | some o =>
    let s := (if o.rounds then o.items 2 else []).foldl (fun s it =>
      match o.allPartials it with
      | some ps =>
        if o.has it then s
        else
          let (lo, n) := o.range it
          let (s, xs, p) := s.scaleContrib o lo n
          let (m, p) := ps.foldl (fun (m, p) x =>
            let c := Carrier.decode x.letter o.fmt 2
            ((List.zip m c.xs).map fun e => max e.1 e.2, p ||| c.poison)) (xs, p)
          let c := scaleCarrier m p
          let g := { it with phase := 4 }
          let fr := (ps.getLast?).map (·.frame)
          if o.parent.isNone then
            (s.modOp id fun o => (o.agree it m).combined it [g]).treeDown o g c fr
          else (s.modOp id fun o => o.combined it []).treeUp o it c fr
      | none => s) s
    match s.findOp id with
    | none => s
    | some o =>
      (o.items 0).foldl (fun s it =>
        match o.allPartials it with
        | some ps =>
          if o.has it || !o.mayReduce it then s
          else
            let (s, c) := s.startCarrier o it
            let (c, cnt) := ps.foldl (fun (c, n) x =>
              let (c, m) := c.join (Carrier.decode x.letter o.fmt 0) o.fmt o.opk o.pos o.rounds
              (c, n.add m)) (c, ({} : CollCount))
            let s := s.collCount o cnt
            let fr := (ps.getLast?).map (·.frame)
            if o.parent.isNone then
              let s := s.collResult o it c
              if o.kind == .reduce then
                let g := { it with phase := 1 }
                (s.modOp id fun o => o.combined it [g]).treeDown o g c fr
              else s.modOp id fun o => o.combined it []
            else (s.modOp id fun o => o.combined it []).treeUp o it c fr
        | none => s) s

/-- A letter that climbs to this member: kept until every child has sent. -/
def State.treePartial (s : State) (o : CollOp) (it : CollItem) (child : Nat) (lt : Letter) (fr : Frame) : State :=
  (s.modOp o.id fun o => { o with partials := o.partials ++ [⟨it, child, lt, fr⟩] }).treeStep o.id

/-- A letter that descends to this member. -/
def State.treeDescend (s : State) (o : CollOp) (it : CollItem) (lt : Letter) (fr : Frame) : State :=
  if it.phase = 2 then
    let c := Carrier.decode lt o.fmt 2
    let g := { it with phase := 4 }
    ((s.modOp o.id fun o => (o.agree it c.xs).mark [g]).treeDown o g c fr).treeStep o.id
  else
    let c := Carrier.decode lt o.fmt 1
    ((s.collResult o it c).modOp o.id fun o => o.mark [it]).treeDown o it c fr

/-! ### Direct exchange (`coll.a2a`) -/

/-- The letters of one outgoing block. The offset of a piece within its block travels in TARGET[63:32]. -/
def State.a2aBlock (s : State) (o : CollOp) (q : Nat) : State :=
  let (s, bs) := s.sourceRead o.id ((o.src.els.drop (q * o.count)).take o.count)
  let dest := o.members.getD q 0
  s.post ((pieces o.count).map fun (off, len) =>
    let part := (bs.drop off).take len
    { key := ⟨dest, .coll, s.jobTag o.ctx⟩, owner := .coll o.id, ctx := o.ctx,
      letter := { dest := dest, src := s.chip, cls := .coll, jobTag := s.jobTag o.ctx, op := 3, length := len,
                  poison := poisonMask part,
                  target := BitVec.ofNat 64 (collTarget o.grp o.tag 3 0 o.pos false + off * 2 ^ 32),
                  body := part.map (·.1) } })

/-- Start an exchange: this member's own block is copied, and every other sent. -/
def State.a2aStart (s : State) (o : CollOp) : State :=
  let (s, bs) := s.sourceRead o.id ((o.src.els.drop (o.pos * o.count)).take o.count)
  let s := s.collWrite ((o.dst.els.drop (o.pos * o.count)).take o.count) bs
  ((List.range o.len).filter (· ≠ o.pos)).foldl (fun s q => s.a2aBlock o q) s

/-- An incoming piece of a block. -/
def State.a2aIn (s : State) (o : CollOp) (it : CollItem) (lt : Letter) : State :=
  let off := bitsOf lt.target.toNat 32 32
  let bs := markedBody lt
  let s := s.collWrite ((o.dst.els.drop (it.chunk * o.count + off)).take lt.length) bs
  let s := s.bump .cePoison (markedFlits lt.poison (List.range (ceilDiv lt.length 64)))
  s.modOp o.id fun o => o.mark [it]

/-! ### Matching and staging (R280, R281, R288, R397) -/

/-- The fields of TARGET of a COLL letter. -/
structure CollTgt where
  grp : Fin 4
  tag : Nat
  phase : Nat
  half : Nat
  chunk : Nat
  keyed : Bool

def collTgt (lt : Letter) : CollTgt :=
  let t := lt.target.toNat
  ⟨Fin.ofNat 4 (bitsOf t 0 2), bitsOf t 2 12, bitsOf t 14 2, bitsOf t 16 1, bitsOf t 17 4, bitOf t 21⟩

/-- The item that a letter is. -/
def collItem (lt : Letter) : CollItem :=
  let t := collTgt lt
  ⟨t.phase, t.half, t.chunk, if t.phase = 3 then bitsOf lt.target.toNat 32 32 / 4096 else natAt lt.body 4032 4⟩

/-- The key in a keyed letter's trailer. -/
def letterKey (lt : Letter) : TileKey := (Carrier.decode lt .bf16 1).key

/-- Whether a letter is one of an `upd` all-gather (R278, R288). -/
def isGather (lt : Letter) : Bool := (collTgt lt).keyed && (collTgt lt).phase = 1

/-- Who sent a letter, to a member of a tree: its parent (none), or the child of a number. -/
def State.treeSender (s : State) (o : CollOp) (lt : Letter) : Option (Option Nat) :=
  if o.parent.any fun p => s.treePeer p = lt.src then some none
  else (o.children.findIdx? fun p => s.treePeer p = lt.src).map some

/-- The items that a letter may be, of an operation: those of its PHASE. -/
def CollOp.itemsLike (o : CollOp) (it : CollItem) : List CollItem :=
  if o.kind == .a2a then (if it.phase = 3 then o.a2aItems else [])
  else if o.phases.contains it.phase then o.items it.phase else []

/-- Whether an operation has the PHASE, HALF and CHUNK of an item, also where it has no element there (R280). -/
def CollOp.names (o : CollOp) (it : CollItem) : Bool :=
  if o.kind == .a2a then it.phase = 3 && it.half = 0 && it.chunk ≠ o.pos && decide (it.chunk < o.len)
  else o.phases.contains it.phase && o.chunks.contains it.chunk && (it.half = 0 || !o.isTree)

/-- Whether an operation has taken the letter that an item is already: a letter of PHASE 2 is one of the scale round's reduce pass
and then one of its gather pass; a tree takes one from each child, and one from its parent. -/
def State.itemTaken (s : State) (o : CollOp) (it : CollItem) (lt : Letter) : Bool :=
  match (if o.isTree then s.treeSender o lt else none) with
  | some none => o.has (if it.phase = 2 then { it with phase := 4 } else it)
  | some (some i) => o.has it || o.partials.any fun p => p.item = it && p.child = i
  | none => o.has it && (it.phase ≠ 2 || o.has { it with phase := 4 })

/-- The operation that a letter belongs to (R280): of its group, with its TAG or key, its PHASE, HALF and CHUNK.
One that has taken the letter already is not the one that the letter waits for. -/
def State.opFor (s : State) (c : Fin 64) (lt : Letter) : Option CollOp :=
  let t := collTgt lt
  let it := collItem lt
  s.collOps.find? fun o => o.ctx = c && o.grp = t.grp && o.started &&
    (if t.keyed then o.kind == .wgtile && o.key = some (letterKey lt) else !o.keyed && o.kind != .circ && o.tag = t.tag) &&
    o.names it && !s.itemTaken o it lt

/-- Whether a letter's FMT, OPK or ELEMS, its LETTER, or its sender in a tree, disagrees with the operation (R280; log entry 101). -/
def State.mismatch (s : State) (o : CollOp) (lt : Letter) : Bool :=
  let it := collItem lt
  let c := Carrier.decode lt o.fmt it.phase
  !(o.itemsLike it).contains it || (o.kind != .a2a &&
    (decide (c.fmt ≠ fmtCode o.fmt) || decide (c.opk ≠ o.opk) || decide (c.elems ≠ (o.range it).2) ||
      (o.isTree && match s.treeSender o lt with
        | none => true
        | some none => it.phase = 0
        | some (some _) => it.phase = 1)))

/-- Discard a mismatched letter. -/
def State.collMismatch (s : State) (c : Fin 64) (g : Fin 4) : State :=
  (s.bump (.ceGrpMismatch c g) 1).setFld (.ceGrpStatus c g) F.ceGrpStatus_MISMATCH 1

/-- A letter whose postmark is recorded is discarded without a receipt: none is ever sent for it (R280, R321). -/
def State.neverPlaced (s : State) (g : Staged) : State :=
  if g.receipted then s else { s with unplaced := (streamOf g.letter, g.letter.postmark) :: s.unplaced }

/-- MIRRORED_STEP is older than S - 1 while the context mirrors (R397). -/
def State.mirrorHolds (s : State) (c : Fin 64) (step : Nat) : Bool :=
  s.flag (.hstCtxMirror c) F.hstCtxMirror_EN &&
    newer32 (BitVec.ofNat 32 step - 1) (BitVec.ofNat 32 (s.fld (.hstCtxSealState c) F.hstCtxSealState_MIRRORED_STEP))

/-- Take a letter into the operation it belongs to. -/
def State.collProcess (s : State) (o : CollOp) (lt : Letter) (fr : Frame) : State :=
  let it := collItem lt
  if o.kind == .a2a then s.a2aIn o it lt
  else if o.isTree then
    match s.treeSender o lt with
    | some (some i) => s.treePartial o it i lt fr
    | _ => s.treeDescend o it lt fr
  else match it.phase with
    | 0 => s.ringReduce o it lt fr
    | 1 => s.ringGather o it lt fr
    | _ => s.ringScale o it lt fr

/-- The virtual addresses of a gathered letter's bytes in the tile (R279, R288). -/
def gatherVas (lt : Letter) : List Nat × List MByte :=
  let t := collTgt lt
  let c := Carrier.decode lt .bf16 1
  let (lo, _) := halfOf 0 (c.tileM * c.tileN) t.half
  let (bs, _) := c.bytes .bf16
  (((List.range c.xs.length).map fun i =>
      let e := lo + 2016 * c.k + i
      let a := c.destVa + e / max 1 c.tileN * c.rowStride + 2 * (e % max 1 c.tileN)
      [a, a + 1]).flatten, bs)

/-- Distance of this member from the owner of a gathered letter. -/
def State.gatherDist (s : State) (c : Fin 64) (lt : Letter) : Nat :=
  let t := collTgt lt
  let L := s.grpLen c t.grp
  let pos := s.grpPos c t.grp
  if t.half = 0 then (pos + L - t.chunk % L) % L else (t.chunk + L - pos % L) % L

/-- A letter of another owner's all-gather: held until the seal of the step before (R96), then written, and passed on
(R288). One whose pages are refused by then is discarded (R183). -/
def State.gatherIn (s : State) (g : Staged) : Option State :=
  let c := g.ctx
  let lt := g.letter
  let t := collTgt lt
  let step := BitVec.ofNat 32 (letterKey lt).step
  if newer32 (step - 1) (s.sealed c) then none
  else
    let (vas, bs) := gatherVas lt
    let (s, ps) := s.xlatAll c vas true true 0x81
    if ps.any Option.isNone then some (s.neverPlaced g)
    else
      let s := s.collWrite ps bs
      let c' := Carrier.decode lt .bf16 1
      let s := s.bump .cePoison (markedFlits c'.poison (c'.flits .bf16 1))
      let first := (halfOf 0 (c'.tileM * c'.tileN) t.half).1 + 2016 * c'.k + c'.nanIdx
      let s := s.nanWritten (c, t.grp) (.gather c'.key) 0 first c'
      let L := s.grpLen c t.grp
      if s.gatherDist c lt + 1 < L then
        let id := s.nextId
        let x : Relay := { id := id, ctx := c, up := lt }
        let s := { s with nextId := id + 1, relays := s.relays ++ [x] }
        let pos := s.grpPos c t.grp
        let dest := s.member c t.grp (if t.half = 0 then (pos + 1) % L else (pos + L - 1) % L)
        let axis := (s.grpAxis c t.grp).getD 0
        let port := axisPort axis (if t.half = 0 then s.grpPlus c t.grp else !s.grpPlus c t.grp)
        some (s.post [{ key := ⟨dest, .coll, lt.jobTag⟩, owner := .relay id, ctx := c, port := some port, frame := some g.frame,
                        letter := { lt with dest := dest, src := s.chip } }])
      else some (s.receipt lt .ok)

/-- Take one staged letter, if it can be taken now. -/
def State.collTry (s : State) (g : Staged) : Option State :=
  if isGather g.letter then s.gatherIn g
  else match s.opFor g.ctx g.letter with
    | none => none
    | some o =>
      if s.mismatch o g.letter then some ((s.collMismatch g.ctx o.grp).neverPlaced g)
      else if o.kind == .wgtile && s.mirrorHolds o.ctx ((o.key.map (·.step)).getD 0) &&
          o.place (collItem g.letter) + 1 = o.len then none
      else
        let s := s.collProcess o g.letter g.frame
        some (if g.receipted then s else s.receipt g.letter .ok)

/-- Take every staged letter that can be taken, in order of arrival; letters that wait for a place in staging may start then. -/
def State.pumpColl (s : State) : State :=
  (s.collStage.foldl (fun s g =>
    match s.collTry g with
    | some s => { s with collStage := s.collStage.erase g }
    | none => s) s).pumpPost

/-- Whether a letter is receipted only once it is written: the last hop of a gather pass, `coll.a2a`, and the all-gather
that `upd` starts (R281, R288). -/
def State.lateReceipt (s : State) (c : Fin 64) (lt : Letter) : Bool :=
  let t := collTgt lt
  t.phase = 3 || isGather lt ||
    (t.phase = 1 && !s.flag (.ceGrpCtrl c t.grp) F.ceGrpCtrl_SHAPE && decide (s.gatherDist c lt + 1 = s.grpLen c t.grp)) ||
    (t.phase = 1 && s.flag (.ceGrpCtrl c t.grp) F.ceGrpCtrl_SHAPE && (s.grpChildren c t.grp).isEmpty)

/-- The codes of the neighbours of a member that a chip is (R296): 0 the previous position or the parent, 1 the next position or the
first child, 2 and 3 the further children. On a ring of two the one neighbour is both. -/
def State.grpCodes (s : State) (c : Fin 64) (g : Fin 4) (chip : BitVec 14) : List Nat :=
  let L := s.grpLen c g
  let pos := s.grpPos c g
  if s.flag (.ceGrpCtrl c g) F.ceGrpCtrl_SHAPE then
    (if (s.grpParent c g).any fun p => s.treePeer p = chip then [0] else []) ++
      (((s.grpChildren c g).findIdx? fun p => s.treePeer p = chip).map (· + 1)).toList
  else (if s.member c g ((pos + L - 1) % L) = chip then [0] else []) ++
    if s.member c g ((pos + 1) % L) = chip then [1] else []

/-- A member's neighbour as WAIT_ON codes it (R296). -/
def State.grpWho (s : State) (c : Fin 64) (g : Fin 4) (chip : BitVec 14) : Nat := (s.grpCodes c g chip).headD 7

/-- The neighbour that an operation had waited on longest where it ends without its watchdog (R293, R382): the spec gives no account of
the waits, so it is any of them (log entry 46). -/
def CollOp.waitedOn (o : CollOp) : Nat :=
  let codes :=
    if o.isTree then (if o.parent.isSome then [0] else []) ++ (List.range o.children.length).map (· + 1) else [0, 1]
  codes.getD (Config.waitOn o.id % codes.length) 7

/-- Keep the last postmark received from each neighbour (R293, R296). -/
def State.notePm (s : State) (c : Fin 64) (g : Fin 4) (lt : Letter) : State :=
  let pm := lt.postmark.toNat
  (s.grpCodes c g lt.src).foldl (fun s w => match w with
    | 0 => s.setFld (.ceGrpPm0 c g) F.ceGrpPm0_PM_A pm
    | 1 => s.setFld (.ceGrpPm0 c g) F.ceGrpPm0_PM_B pm
    | 2 => s.setFld (.ceGrpPm1 c g) F.ceGrpPm1_PM_A pm
    | _ => s.setFld (.ceGrpPm1 c g) F.ceGrpPm1_PM_B pm) s

/-- Whether a letter's operation has been issued here and disagrees with it (R280). -/
def State.disagrees (s : State) (c : Fin 64) (lt : Letter) : Bool :=
  !isGather lt && (s.opFor c lt).any fun o => s.mismatch o lt

/-- A COLL letter at its member (R280, R281): discarded, or taken into staging, where a place is free, and, where its operation waits
for it, into the operation. Answers whether it counts as placed. -/
def State.collArrive (s : State) (lt : Letter) (c : Fin 64) : State × Bool :=
  let t := collTgt lt
  if !s.grpValid c t.grp then (s.bump .ceNogroup 1, false)
  else
    let s := s.notePm c t.grp lt
    let (s, refused) := if isGather lt then
        let (s, ps) := s.xlatAll c (gatherVas lt).1 true true 0x81
        (s, ps.any Option.isNone)
      else (s, false)
    if refused then (s, false)
    else if s.disagrees c lt then (s.collMismatch c t.grp, false)
    else match (s.freeFrames lt).head? with
      | none => (s, false)
      | some fr =>
        let late := s.lateReceipt c lt
        let s := if late then s else s.receipt lt .ok
        let s := match s.opFor c lt with
          | some o => s.modOp o.id fun o => { o with received := o.received + 1 }
          | none => s
        let g : Staged := ⟨c, lt, !late, fr⟩
        ({ s.stageIn fr lt with collStage := s.collStage ++ [g] }.pumpColl, true)

/-- Whether a COLL letter must wait in its buffer, under credit backpressure, for a place in staging (R26, R96, R280). -/
def State.stageFull (s : State) (lt : Letter) (c : Fin 64) : Bool :=
  s.grpValid c (collTgt lt).grp && (s.freeFrames lt).isEmpty && !s.fenced c &&
    (s.recvStream (streamOf lt)).judge lt.postmark == .new && !s.disagrees c lt

/-! ### Boxes (R257, R258) -/

/-- Steps that a box takes on an axis: in the - direction and in the + direction. -/
def boxM (box : Nat) (a : Fin 4) : Nat := bitsOf box (8 * a.val) 4
def boxP (box : Nat) (a : Fin 4) : Nat := bitsOf box (8 * a.val + 4) 4

/-- Whether a box keeps to R257 around this chip. -/
def State.boxOk (s : State) (box : Nat) : Bool :=
  let v := epochVer s.srcEpoch
  (List.finRange 4).all fun a =>
    let m := boxM box a
    let p := boxP box a
    let n := s.rtLen v a
    let me := coord s.chip a
    match s.rtShape v a with
    | 0 => decide (m + p ≤ n - 1)
    | 1 => decide (m ≤ me) && decide (me + p ≤ n - 1)
    | _ => m = 0 && p = 0

/-- Chips of a box, the issuer included. -/
def boxCount (box : Nat) : Nat := ((List.finRange 4).map fun a => boxM box a + boxP box a + 1).foldl (· * ·) 1

/-- The part of a box that a child covers: nothing on the axes already spread, one step less in its own direction, and the
same on the axes still to spread. -/
def boxChild (box : Nat) (a : Fin 4) (plus : Bool) : Nat :=
  box % 2 ^ (8 * a.val) + (if plus then (boxP box a - 1) * 16 else boxM box a - 1) * 2 ^ (8 * a.val)

/-- The next chip on an axis (R258). -/
def State.neighbour (s : State) (a : Fin 4) (plus : Bool) : BitVec 14 :=
  let n := s.rtLen (epochVer s.srcEpoch) a
  let me := coord s.chip a
  withCoord s.chip a (if plus then (me + 1) % n else (me + n - 1) % n)

/-- The copies that a chip sends of a circular: W first, then Z, Y and X, each with its own part of the box (R258). `vc` is
the VC on which it arrived, if it arrived on `axis`. -/
def State.circCopies (s : State) (w : Owner) (c : Fin 64) (lt : Letter) (axis : Option (Fin 4)) : List Outstanding :=
  let box := bitsOf lt.target.toNat 32 32
  (([3, 2, 1, 0] : List (Fin 4)).map fun a => ([true, false].filterMap fun plus =>
    if (if plus then boxP box a else boxM box a) = 0 then none
    else
      let dest := s.neighbour a plus
      some { key := ⟨dest, .coll, lt.jobTag⟩, owner := w, ctx := c, port := some (axisPort a plus),
             letter := { lt with dest := dest, src := s.chip, vc := if axis = some a then lt.vc else 0,
                                 target := BitVec.ofNat 64 (lt.target.toNat % 2 ^ 32 + boxChild box a plus * 2 ^ 32) } })).flatten

/-- Local delivery of a circular, through port 8. -/
def State.circDeliver (s : State) (c : Fin 64) (lt : Letter) (remote : Bool) : State × Bool :=
  let bs := markedBody lt
  let (s, ps) := s.xlatAll c ((List.range lt.length).map (lt.circVa.toNat + ·)) true remote (if remote then 0x81 else 0x80)
  if remote && ps.any Option.isNone then (s, false)
  else ((s.collWrite ps bs).bump .cePoison (markedFlits lt.poison (List.range (ceilDiv lt.length 64))), true)

/-- The outcome that `coll.circ` writes (R284). -/
def circWord (delivered refused : Nat) (st : Status) : BitVec 64 :=
  BitVec.ofNat 64 (delivered % 2 ^ 15 + refused % 2 ^ 15 * 2 ^ 15 + st.code * 2 ^ 32)

/-- Begin a circular at its issuer: its own delivery or refusal, and the copies to its children. -/
def State.circBegin (s : State) (o : CollOp) : State :=
  match o.circ with
  | none => s
  | some lt =>
    let s := if s.fenced o.ctx then (s.bump .soRefusedFenced 1).modOp o.id fun o => { o with refused := o.refused + 1 }
      else (s.rescoped (s.refusing.getD o.pages) fun s => (s.circDeliver o.ctx lt false).1).modOp o.id fun o => { o with delivered := o.delivered + 1 }
    s.post (s.circCopies (.coll o.id) o.ctx lt none)

/-! ### Operations start and end (R269, R284, R293, R294) -/

/-- STATE, MISMATCH, FENCED_PEER and WAIT_ON of CE_GRP_STATUS return to their reset values (R296). -/
def State.grpQuiet (s : State) (c : Fin 64) (g : Fin 4) : State :=
  s.setFlds (.ceGrpStatus c g) [(F.ceGrpStatus_STATE, 0), (F.ceGrpStatus_MISMATCH, 0), (F.ceGrpStatus_FENCED_PEER, 0),
    (F.ceGrpStatus_WAIT_ON, 0)]

/-- STATE of CE_GRP_STATUS while the group is not LOST. -/
def State.grpRefresh (s : State) (c : Fin 64) (g : Fin 4) : State :=
  if s.grpState c g = 2 then s
  else s.setFld (.ceGrpStatus c g) F.ceGrpStatus_STATE
    (if s.collOps.any fun o => o.ctx = c && o.grp = g && o.started then 1 else 0)

/-- Whether an operation can start: an untagged one at once; another when no started one of its group has its tag and
fewer than 16 are outstanding (R269). -/
def State.opMayStart (s : State) (o : CollOp) : Bool :=
  let same := s.collOps.filter fun x => x.ctx = o.ctx && x.grp = o.grp && x.started && !x.keyed
  o.keyed || (decide (same.length < 16) && !(same.any fun x => x.tag = o.tag))

/-- The number of elements that a record of an operation tells: those of its tile, without padding (R287, R417). -/
def CollOp.elems (o : CollOp) : Nat := if o.kind == .wgtile then o.tileM * o.tileN else o.count

/-- The KIND 5 record of an operation's start (status 0xFF) or end (R417). -/
def State.traceColl (s : State) (o : CollOp) (st : Nat) : State :=
  s.emit 0x231 5 o.ctx.val o.tag (toBytes 1 st ++ toBytes 1 o.grp.val ++ toBytes 1 o.kind.op ++ toBytes 4 o.elems)

/-- End an operation with a status other than success: its letters are given up, its instruction takes the status, and its
tile stays incomplete. -/
def State.collDrop (s : State) (o : CollOp) (st : Status) : State :=
  let s := (s.giveUpOwner (.coll o.id)).traceColl o st.code
  let s := { s with collOps := s.collOps.filter fun x => x.id ≠ o.id, tiles := s.tiles.filter fun x => x.gather ≠ some o.id }
  (s.failFlight o.stall o.seq st).bump .cePeerLost (if st == .peerLost || st == .fenced then 1 else 0)

/-- TAG of CE_GRP_STATUS is that of the operation issued last (R296). -/
def State.collIssued (s : State) (c : Fin 64) (g : Fin 4) (tag : Nat) : State :=
  s.setFld (.ceGrpStatus c g) F.ceGrpStatus_TAG tag

/-- An operation that ends where it is issued, by itself (R270, R284). -/
def State.collAlone (s : State) (o : CollOp) (st : Status) : State :=
  ((s.collIssued o.ctx o.grp o.tag).traceColl o 0xFF).traceColl o st.code

/-- Run an operation's start. -/
def State.opBegin (s : State) (o : CollOp) : State :=
  let o := { o with started := true }
  let s := ((s.setOp o).grpRefresh o.ctx o.grp).traceColl o 0xFF
  let s := match o.kind with
    | .a2a => if o.isTree then s else s.a2aStart o
    | .circ => s.circBegin o
    | .reduce | .tree => if o.isTree then s.treeStep o.id else s.ringStart o
    | _ => if o.isTree then s else s.ringStart o
  s.pumpColl

/-- Start the operations that waited and may start now; on a group that can no longer be used they end (R264). -/
def State.startWaiting (s : State) : State :=
  (s.collOps.filter fun o => !o.started).foldl (fun s o =>
    if !s.grpUsable o.ctx o.grp then s.collDrop o .peerLost
    else if s.opMayStart o then s.opBegin o
    else s) s |>.pumpPost

/-- Whether an operation ends with the writing of its result, whatever letters of a scale round it has sent: at the root of a
`coll.tree`, and at the owner of a tile (R284; log entry 102). -/
def CollOp.writesLast (o : CollOp) : Bool :=
  (o.kind == .tree && if o.isTree then o.parent.isNone else o.pos = o.owner) || (o.kind == .wgtile && o.pos = o.owner)

/-- Whether an operation has reached its retire point (R284). -/
def State.opDone (s : State) (o : CollOp) : Bool :=
  o.started && (o.writesLast || !s.owes (.coll o.id)) &&
    (match o.kind with
      | .circ => o.delivered + o.refused = o.boxN
      | k => !(o.isTree && !(k == .reduce || k == .tree)) && o.allItems.all fun it => o.has it)

/-- An operation ends by the watchdog, or because a peer is fenced: the group is LOST (R293, R294). -/
def State.collLost (s : State) (o : CollOp) (st : Status) (waitOn : Nat) : State :=
  let s := s.collDrop o st
  let s := s.setFlds (.ceGrpStatus o.ctx o.grp) [(F.ceGrpStatus_STATE, 2), (F.ceGrpStatus_TAG, o.tag),
    (F.ceGrpStatus_WAIT_ON, waitOn), (F.ceGrpStatus_STEP, (s.sealed o.ctx + 1).toNat)]
  let s := if st == .fenced then s.setFld (.ceGrpStatus o.ctx o.grp) F.ceGrpStatus_FENCED_PEER 1 else s
  s.startWaiting

/-- An operation that is done leaves the engine (R284, R296). What it has sent and is not receipted yet stays outstanding (log entry
102). -/
def State.collFinish (s : State) (id : Nat) : State :=
  match s.findOp id with
  | none => s
  | some o =>
    let own := fun (x : Outstanding) => if x.owner = .coll id then { x with owner := .ended o.stall } else x
    let s := { s with collOps := s.collOps.filter fun x => x.id ≠ id, postQ := s.postQ.map own, outstanding := s.outstanding.map own }
    let st : Status := if o.kind == .circ && o.refused ≠ 0 then .partialCircular else .ok
    (((s.bump (.ceGrpOps o.ctx o.grp) 1).traceColl o st.code).grpRefresh o.ctx o.grp).startWaiting

/-- Put a new operation behind the others, and start it if it may start. -/
def State.opAdd (s : State) (o : CollOp) : State :=
  let s := { s with collOps := s.collOps ++ [o], nextId := s.nextId + 1 }.collIssued o.ctx o.grp o.tag
  if s.opMayStart o then s.opBegin o else s

/-- A record of an operation on a group, with the group's table in it. -/
def State.opOf (s : State) (n : Fin 128) (seq : Nat) (c : Fin 64) (g : Fin 4) (k : CollKind) : CollOp :=
  let L := s.grpLen c g
  { id := s.nextId, ctx := c, grp := g, kind := k, stall := n, seq := seq,
    agreed := !s.flag (.ceGrpCtrl c g) F.ceGrpCtrl_MODE, isTree := s.flag (.ceGrpCtrl c g) F.ceGrpCtrl_SHAPE,
    len := L, pos := s.grpPos c g, axis := (s.grpAxis c g).getD 0, plus := s.grpPlus c g,
    members := (List.range L).map (s.member c g), parent := s.grpParent c g, children := s.grpChildren c g }

/-! ### Instructions (R268, R270, R287) -/

/-- An operation of a tag and a size on a group that cannot be used ends with ST_PEER_LOST where it is issued: its end is recorded (R264,
R417). -/
def State.collUnusable (s : State) (r : Flight) (o : CollOp) : State × Flight :=
  ((s.traceColl o Status.peerLost.code).bump .cePeerLost 1, { r with status := .peerLost })

/-- A COLL instruction of the data mover: on a group that cannot be used it ends at issue with ST_PEER_LOST (R264). `x` gives the
operation its TAG and its size, for that record. -/
def State.coll (s : State) (h : Hdr) (k : CollKind) (g : Fin 4) (x : State → Stall → CollOp → CollOp)
    (f : State → Flight → Fin 64 → State × Flight) : Out :=
  s.issue h .mover (13, k.op) .writes fun s r =>
    let t := s.stall h.stall
    let r := { r with kind := .coll g }
    if !s.grpUsable t.context g then
      s.collUnusable r (x s t (s.opOf h.stall r.seq t.context g k))
    else f s r t.context

/-- The reduction layout of SC (R268). -/
structure Layout where
  count : Nat
  tag : Nat
  fmt : Fmt
  opk : Nat
  root : Nat

def Layout.of (x : BitVec 64) (L : Nat) : Layout :=
  let v := x.toNat
  let f := (fmtOf (bitsOf v 44 3)).getD .bf16
  let k := bitsOf v 48 2
  { count := if isMx f then bitsOf v 0 32 / 32 * 32 else bitsOf v 0 32, tag := bitsOf v 32 12, fmt := f,
    opk := if isMx f || k = 3 then 0 else k, root := bitsOf v 50 4 % L }

/-- Copy bytes within the chip, with their marks (R270); and what has been copied. -/
def State.copyBuf (s : State) (a b : CollBuf) : State × List MByte :=
  let (s, bs) := s.collRead (a.els ++ a.scales)
  (s.collWrite (b.els ++ b.scales) bs, bs)

/-- Count and record the NaN elements of a result that this member alone has written, letter by letter of as many elements as a gather
pass would send (R290). -/
def State.nanCopied (s : State) (o : CollOp) (bs : List MByte) : State :=
  let w := fmtWidth o.fmt / 8
  let scales := (bs.drop o.src.els.length).map fun b => b.1.toNat
  { (o.items 1).foldl (fun s it =>
      let (lo, n) := o.range it
      let c : Carrier := { xs := elemsOf w n (bs.drop (w * lo)), scales := if isMx o.fmt then (scales.drop (lo / 32)).take (n / 32) else [] }
      let c := c.gathered o.fmt o.pos
      s.nanWritten (o.ctx, o.grp) (.op o.id) o.tag (lo + c.nanIdx) c) s with nextId := s.nextId + 1 }

/-- An operation of a reduction layout on a group of one member: the source is copied to the destination (R270). -/
def State.collCopy (s : State) (o : CollOp) : State :=
  let (s, bs) := (s.collAlone o .ok).copyBuf o.src o.dst
  s.nanCopied o bs

/-- The addresses that two buffers name in stores, for STB_SRAM_RSVD. -/
def bufAddrs (a b : CollBuf) : List Nat := (a.els ++ a.scales ++ b.els ++ b.scales).filterMap id

/-- `coll.reduce`, `coll.rscat`, `coll.agath`, `coll.tree`. -/
def State.collLayout (s : State) (h : Hdr) (k : CollKind) (g : Fin 4) (sa sb sc : SReg) : Out :=
  s.coll h k g (fun _ t o => let y := Layout.of t.s[sc] 1; { o with tag := y.tag, count := y.count }) fun s r c =>
    let n := h.stall
    let t := s.stall n
    let L := s.grpLen c g
    let y := Layout.of t.s[sc] L
    let o := s.opOf n r.seq c g k
    let (lo, cnt) := if o.isTree then (0, y.count) else chunkOf y.count L o.pos
    let own := (k == .agath, k == .rscat)
    let root := if o.isTree then o.parent.isNone else o.pos = y.root
    let (s, src) := if own.1 then s.collBuf c n t.s[sa] y.fmt lo cnt false else s.collBuf c n t.s[sa] y.fmt 0 y.count false
    let (s, dst) :=
      if own.2 then s.collBuf c n t.s[sb] y.fmt lo cnt true
      else if k == .tree && !root && L ≠ 1 then (s, {})
      else s.collBuf c n t.s[sb] y.fmt 0 y.count true
    let s := s.countRsvd (bufAddrs src dst)
    let o := { o with tag := y.tag, fmt := y.fmt, opk := if k == .agath then 0 else y.opk, count := y.count,
                      owner := y.root, src := src, dst := dst }
    if L = 1 then (s.collCopy o, r)
    else
      (s.opAdd o, { r with collOp := some o.id })

def execCollReduce (h : Hdr) (grp : Fin 4) (sa sb sc : SReg) (s : State) : Out := s.collLayout h .reduce grp sa sb sc
def execCollRscat (h : Hdr) (grp : Fin 4) (sa sb sc : SReg) (s : State) : Out := s.collLayout h .rscat grp sa sb sc
def execCollAgath (h : Hdr) (grp : Fin 4) (sa sb sc : SReg) (s : State) : Out := s.collLayout h .agath grp sa sb sc
def execCollTree (h : Hdr) (grp : Fin 4) (sa sb sc : SReg) (s : State) : Out := s.collLayout h .tree grp sa sb sc

/-- `coll.a2a`. The size of a block is rounded down to a multiple of 64 bytes (R268; log entry 120). -/
def execCollA2a (h : Hdr) (grp : Fin 4) (sa sb sc : SReg) (s : State) : Out :=
  s.coll h .a2a grp (fun _ t o => { o with tag := bitsOf t.s[sc].toNat 32 12, count := bitsOf t.s[sc].toNat 0 32 / 64 * 64 }) fun s r c =>
    let n := h.stall
    let t := s.stall n
    let L := s.grpLen c grp
    let B := bitsOf t.s[sc].toNat 0 32 / 64 * 64
    let (s, src) := s.collBuf c n t.s[sa] .i8 0 (L * B) false
    let (s, dst) := s.collBuf c n t.s[sb] .i8 0 (L * B) true
    let s := s.countRsvd (bufAddrs src dst)
    let o := { s.opOf n r.seq c grp .a2a with tag := bitsOf t.s[sc].toNat 32 12, count := B, src := src, dst := dst }
    if L = 1 then (((s.collAlone o .ok).copyBuf src dst).1, r)
    else
      (s.opAdd o, { r with collOp := some o.id })

end Sys2Proof.Machine
end

