-- ==== Sys2Proof/Machine/Sync.lean ====
section
/-!
DEFINITION. The sync unit: tally waits and counter writes (R157 to R162), fences (R163 to R166) and barriers (R167 to
R169).
-/
namespace Sys2Proof.Machine

/-- A SYNC instruction under its guard; guarded off it waits for nothing and retires (R125, R166, R169). -/
def State.syncUnit (s : State) (h : Hdr) (f : State → State) : Out :=
  if s.canIssue h.stall .sync then
    let go := (s.stall h.stall).guard h
    let pc := (s.stall h.stall).pc
    let s := s.issued h.stall 0
    .next (if go then f s else s.retire h.stall 0 h.ten h.tc pc)
  else .next s

/-- A wait ends: the instruction that waited retires. -/
def State.endWait (s : State) (n : Fin 128) (h : Hdr) : State :=
  let pc := (s.stall n).waitPc
  (((s.endRun n).modStall n fun t => { t with wait := none, waitCycles := 0 }).retire n 0 h.ten h.tc pc).finishHalt n

/-- A SYNC instruction that waits for nothing retires. -/
def State.retireSync (s : State) (h : Hdr) : State := s.retire h.stall 0 h.ten h.tc ((s.stall h.stall).pc - 1)

/-- A SYNC instruction begins to wait (R375, R377). -/
def State.beginWait (s : State) (n : Fin 128) (w : Wait) : State :=
  s.modStall n fun t => { t with wait := some w, waitPc := t.pc - 1, waitSince := s.stampNow, waitCycles := 0 }

/-! ### Tally counters -/

def execTadd (h : Hdr) (cn : CReg) (v : BitVec 32) (s : State) : Out :=
  s.syncUnit h fun s => (s.modStall h.stall fun t => t.advance cn v).retireSync h

def execTset (h : Hdr) (cn : CReg) (v : BitVec 32) (s : State) : Out :=
  s.syncUnit h fun s => (s.modStall h.stall fun t => t.setC cn v).retireSync h

/-- The test of R158. -/
def tallyMet (c target : BitVec 32) : Bool := decide ((c - target).toNat < 2 ^ 31)

/-- A tally wait: satisfied at once, or pending (R158). -/
def State.tallyWait (s : State) (h : Hdr) (cn : CReg) (target : BitVec 32) : State :=
  if tallyMet (s.stall h.stall).c[cn] target then s.retireSync h else s.beginWait h.stall (.tally h cn target)

def execTwait (h : Hdr) (cn : CReg) (target : BitVec 32) (s : State) : Out :=
  s.syncUnit h fun s => s.tallyWait h cn target

def execTwaits (h : Hdr) (cn : CReg) (sa : SReg) (s : State) : Out :=
  s.syncUnit h fun s => s.tallyWait h cn ((s.stall h.stall).s[sa].setWidth 32)

/-- A pending tally wait whose counter meets its target retires (R158). -/
def execTallyWaitSatisfied (n : Fin 128) (s : State) : Out :=
  .next (
    if !s.dieUp || !(s.stall n).running || !s.yardRuns (yardOf n) then s
    else match (s.stall n).wait with
      | some (.tally h cn target) => if tallyMet (s.stall n).c[cn] target then s.endWait n h else s
      | _ => s)

/-! ### Fences -/

/-- The chips of a collective group, as its table records them. -/
def State.grpChips (s : State) (c : Fin 64) (g : Fin 4) : List (BitVec 14) :=
  if (s.grpAxis c g).isSome && s.grpValid c g then (List.range (s.grpLen c g)).map (s.member c g) else []

/-- Whether a fence of a scope waits for accesses to a home (R164). -/
def Home.within (chips : List (BitVec 14)) (scope : FenceScope) : Home → Bool
  | .stall => true
  | .stable => scope != .stall
  | .chip => scope == .chip || scope == .group || scope == .sys
  | .remote c => scope == .sys || (scope == .group && chips.contains c)

def Home.isRemote : Home → Bool
  | .remote _ => true
  | _ => false

/-- The reads of an instruction in flight that have not performed: those of one that writes to another chip have
performed once its letters have left. -/
def Flight.pendingReads (f : Flight) : List Home := if f.writes.any Home.isRemote then f.reads.filter Home.isRemote else f.reads

/-- Whether a fence waits for an instruction in flight (R163, R164). -/
def Flight.heldBy (chips : List (BitVec 14)) (kind : FenceKind) (scope : FenceScope) (grp : Fin 4) (f : Flight) : Bool :=
  match f.kind with
  | .coll g => !f.guardOff && (scope == .sys || (scope == .group && g = grp))
  | _ =>
    !f.guardOff && (f.pendingReads.any (Home.within chips scope) || (kind != .acq && f.writes.any (Home.within chips scope)))

/-- Whether anything that a fence waits for is outstanding: instructions issued before it, but for those whose access has ended with
ST_DELIVERY_FAILED (R166), and all-gathers that earlier `upd` instructions started (R164). -/
def State.fenceHeld (s : State) (n : Fin 128) (kind : FenceKind) (scope : FenceScope) (grp : Fin 4) (upTo : Nat) : Bool :=
  let t := s.stall n
  let chips := s.grpChips t.context grp
  (t.flights.any fun f => decide (f.seq < upTo) && f.heldBy chips kind scope grp &&
      !(f.status == .deliveryFailed && !s.owes (.flight n f.seq))) ||
    s.collOps.any fun o => o.kind == .gather && o.stall = n && decide (o.seq < upTo) && !s.opDone o &&
      (scope == .sys || (scope == .group && o.grp = grp))

/-- The retirement of a fence (R163, R175). -/
def State.endFence (s : State) (n : Fin 128) (h : Hdr) : State := (s.bump (.stlSyncFences n) 1).endWait n h

/-- The same of one that waits for nothing. -/
def State.fenceDone (s : State) (h : Hdr) : State := ((s.bump (.stlSyncFences h.stall) 1).retireSync h).finishHalt h.stall

/-- A fence: with nothing outstanding in its scope it retires at once; else it is pending (R163). -/
def State.fence (s : State) (h : Hdr) (kind : FenceKind) (scope : FenceScope) (grp : Fin 4) : Out :=
  s.syncUnit h fun s =>
    let upTo := (s.stall h.stall).nextSeq
    if s.fenceHeld h.stall kind scope grp upTo then s.beginWait h.stall (.fence h kind scope grp upTo)
    else s.fenceDone h

def execFenceAcq (h : Hdr) (scope : FenceScope) (grp : Fin 4) (s : State) : Out := s.fence h .acq scope grp
def execFenceRel (h : Hdr) (scope : FenceScope) (grp : Fin 4) (s : State) : Out := s.fence h .rel scope grp
def execFenceFull (h : Hdr) (scope : FenceScope) (grp : Fin 4) (s : State) : Out := s.fence h .full scope grp

/-- A pending fence with nothing outstanding in its scope retires (R163). -/
def execFenceRetire (n : Fin 128) (s : State) : Out :=
  .next (
    if !s.dieUp || !(s.stall n).running || !s.yardRuns (yardOf n) then s
    else match (s.stall n).wait with
      | some (.fence h kind scope grp upTo) => if s.fenceHeld n kind scope grp upTo then s else s.endFence n h
      | _ => s)

/-! ### Barriers -/

/-- Participants of a barrier (R167). -/
def State.barrierTeam (s : State) (n : Fin 128) (evt : Fin 64) : List (Fin 128) :=
  if evt.val < 32 then (List.range 8).map fun k => Fin.ofNat 128 (n.val / 8 * 8 + k) else (s.stall n).team

/-- Arrivals that a stall has made at a barrier. -/
def State.arrived (s : State) (n : Fin 128) (evt : Fin 64) : Nat := AMap.get 0 evt (s.stall n).arrivals

/-- `ewait` (R167): an arrival, which holds issue until the generation of this arrival completes. -/
def execEwait (h : Hdr) (evt : Fin 64) (s : State) : Out :=
  s.syncUnit h fun s =>
    let k := s.arrived h.stall evt + 1
    (s.modStall h.stall fun t => { t with arrivals := AMap.set evt k t.arrivals }).beginWait h.stall (.barrier h evt k)

/-- A stall's wait at a barrier ends, if its generation is at most `k`. -/
def State.endBarrier (s : State) (evt : Fin 64) (k : Nat) (m : Fin 128) : State :=
  match (s.stall m).wait with
  | some (.barrier h e g) =>
    if e = evt && decide (g ≤ k) && (s.stall m).running then (s.bump (.stlSyncArrivals m) 1).endWait m h else s
  | _ => s

/-- A barrier's generation completes: every participant has made its arrival, and the waits of that generation retire
(R167). -/
def execBarrierGenerationComplete (n : Fin 128) (s : State) : Out :=
  .next (
    if !s.dieUp || !s.yardRuns (yardOf n) then s
    else match (s.stall n).wait with
      | some (.barrier _ evt k) =>
        let team := s.barrierTeam n evt
        if team.all fun m => decide (k ≤ s.arrived m evt) then team.foldl (fun s m => s.endBarrier evt k m) s else s
      | _ => s)

end Sys2Proof.Machine
end

