-- ==== Sys2Proof/Machine/Views.lean ====
section
/-!
DEFINITION. What a register reads as: the value it holds, with the fields that show other state of the module
(R2, R147, R175, R255, R302, R366, R405, R410, R423).
-/
namespace Sys2Proof.Machine

/-- STL_SEQ_STATE (R147): after a program has stopped PC, CONTEXT and RANK are those of that program (DESIGN CHOICE, log entry 131). -/
def Stall.seqState (t : Stall) : BitVec 64 :=
  pack [(F.stlSeqState_PC, t.pc.toNat), (F.stlSeqState_CONTEXT, t.context.val),
    (F.stlSeqState_RUNNING, if t.running then 1 else 0), (F.stlSeqState_RANK, t.rank.val)]

/-- STL_SYNC_STATE (R175). -/
def Stall.syncState (t : Stall) : BitVec 64 :=
  match t.wait with
  | none => 0
  | some (.tally _ cn target) => pack [(F.stlSyncState_WAIT_KIND, 1), (F.stlSyncState_WAIT_ID, cn.val),
      (F.stlSyncState_TARGET, target.toNat)]
  | some (.fence _ k sc g _) => pack [(F.stlSyncState_WAIT_KIND, 2), (F.stlSyncState_SCOPE, sc.code),
      (F.stlSyncState_KIND, k.code), (F.stlSyncState_GROUP, if sc == .group then g.val else 0)]
  | some (.barrier _ e gen) => pack [(F.stlSyncState_WAIT_KIND, 3), (F.stlSyncState_WAIT_ID, e.val),
      (F.stlSyncState_TARGET, gen)]

/-- STL_TALLY, register `i` (R175). -/
def Stall.tallyReg (t : Stall) (i : Fin 32) : BitVec 64 :=
  pack [(F.stlTally_TALLY_EVEN, t.c[2 * i.val].toNat), (F.stlTally_TALLY_ODD, t.c[2 * i.val + 1].toNat)]

/-- CE_GRP_CTRL with AXIS and LEN_M1 as the plan gives them (R265). -/
def State.grpCtrl (s : State) (c : Fin 64) (g : Fin 4) : BitVec 64 :=
  let v := s.rd (.ceGrpCtrl c g)
  match s.grpAxis c g with
  | some a => F.ceGrpCtrl_LEN_M1.put (F.ceGrpCtrl_AXIS.put v a.val) (s.grpLen c g - 1)
  | none => v

/-- Every letter in the buffers of the chip (R255): behind its outputs, before port 8, at its ports, in staging, circulars among them,
and held copies. -/
def State.buffered (s : State) : List Letter :=
  s.outQ.map (·.lt) ++ s.inbox ++ s.portIn.map (·.2) ++ s.collStage.map (·.letter) ++
    s.collOps.flatMap (fun o => o.partials.map (·.letter)) ++
    (s.circs.filter fun x => x.frame.isSome && s.circHeld x).map (·.up) ++ s.heldDups

/-- Whether a letter is one that this chip sent and that is neither answered nor given up, or its clearance: it is counted as such. -/
def State.awaited (s : State) (lt : Letter) : Bool :=
  lt.src = s.chip && (s.outstanding.any (fun o => o.key = ⟨lt.dest, lt.cls, lt.jobTag⟩ && o.letter.postmark = lt.postmark &&
      o.letter.epoch = lt.epoch) ||
    let x := s.sendStream ⟨lt.dest, lt.cls, lt.jobTag⟩
    lt.op = 0x3F && x.clearing.isSome && x.clearPm = lt.postmark && x.clearEpoch = lt.epoch)

/-- The letters of an epoch on this chip (R255): in its buffers, and sent and neither answered nor given up, each counted once. -/
def State.drain (s : State) (e : Bool) : Nat :=
  (s.buffered.filter fun lt => lt.epoch = e && !s.awaited lt).length +
    (s.outstanding.filter fun o => o.letter.epoch = e).length +
    (s.sendStreams.filter fun x => x.2.clearing.isSome && x.2.clearEpoch = e).length

/-- Counted die resets of the last hour of porter time (R387). -/
def State.dieResets1h (s : State) : Nat := (s.dieHist.filter fun t => decide (s.porterMs < t + 3600000)).length

/-- UNIT numbers listed in R410. -/
def unitListed (u : Fin 1024) : Bool :=
  decide (u.val < 0x220) && (decide (u.val < 0x214) || decide (0x218 ≤ u.val)) || u.val = 0x220 ||
    (decide (0x228 ≤ u.val) && decide (u.val ≤ 0x235)) || u.val = 0x3FF

/-- The value that a read of a register returns. -/
def State.view (s : State) (r : Reg) : BitVec 64 :=
  let v := s.rd r
  match r with
  | .ptrEscStatus => F.ptrEscStatus_DIE_RESETS_1H.put v (min 7 s.dieResets1h)
  | .ptrRetiredData => AMap.get 0 (Fin.ofNat 4096 (s.fld .ptrRetiredIdx F.ptrRetiredIdx_INDEX)) s.retiredPages
  | .stlSeqState n => (s.stall n).seqState
  | .stlSyncState n => (s.stall n).syncState
  | .stlTally n i => (s.stall n).tallyReg i
  | .ceGrpCtrl c g => s.grpCtrl c g
  | .soEpochDrain => pack [(F.soEpochDrain_DRAIN0, s.drain false), (F.soEpochDrain_DRAIN1, s.drain true)]
  | .hstCtxStatus c => if s.ctxState c = 0 then v else F.hstCtxStatus_BROKEN.put (F.hstCtxStatus_CLEARING.put v (if s.ctxClearing c then 1 else 0))
      (if s.ctxBroken c then 1 else 0)
  | .clkFrNow => if s.dieUp then s.frankNs else 0
  | .clkFrStatus => F.clkFrStatus_LOCKED_MS.put v
      (if s.frFree then 0 else (s.frankNs.toNat - s.steer.lockedNs) / 1000000)
  | .dbgLog u _ _ => if unitListed u then v else 0
  | .dbgLogNext u => if unitListed u then v else 0
  | .dbgTraceBuf _ _ =>
    if s.flag .dbgTraceCtrl F.dbgTraceCtrl_ENABLE && !s.flag .dbgTraceStatus F.dbgTraceStatus_FROZEN then 0 else v
  | _ => v

/-- A read of a register: that of CLK_FR_NOW latches the fraction (R366). -/
def State.readReg (s : State) (r : Reg) : State × BitVec 64 :=
  let s := if r = .clkFrNow && s.dieUp then s.setFld .clkFrFrac F.clkFrFrac_FRAC s.frankFrac else s
  (s, s.view r)

end Sys2Proof.Machine
end

