-- ==== Sys2Proof/Machine/Yards.lean ====
section
/-!
DEFINITION. The yard clocks (R350 to R356) and their throttling by the porter (R353, R354, R431, R432).
-/
namespace Sys2Proof.Machine

def State.yard (s : State) (y : Fin 4) : Yard := AMap.get {} y s.yards
def State.setYard (s : State) (y : Fin 4) (x : Yard) : State := { s with yards := AMap.set y x s.yards }

/-- The cap of the neighbour limits on a yard, and which of them set it (R353, R354). -/
def Yard.cap (x : Yard) : Nat := (x.caps.map fun e => e.2.1).foldl min 1400
def Yard.why (x : Yard) : Nat := (x.caps.filter fun e => e.2.1 = x.cap).foldl (fun w e => w ||| e.2.2) 0

def yardUnit (y : Fin 4) : Fin 1024 := ⟨0x210 + y.val, by omega⟩

/-! ### Stops (R356) -/

/-- A clock-stop or clock-resume record, in the logbook and in the trace (R413, R417). -/
def State.yardRecord (s : State) (y : Fin 4) (event reason : Nat) (data : List Byte) : State :=
  let d := toBytes 1 y.val ++ toBytes 1 reason ++ data
  (s.log (yardUnit y) event 0xFF d).emit (yardUnit y) 7 0xFF reason d

/-- Stop a yard's clock for a reason; a record is written where it ran (R356). -/
def State.yardStop (s : State) (y : Fin 4) (reason : Nat) : State :=
  let x := s.yard y
  if reason ∈ x.stops then s
  else
    let s := if x.stops.isEmpty then s.yardRecord y 1 reason (toBytes 6 (x.milli / 1000)) else s
    let s := s.setYard y { x with stops := reason :: x.stops }
    let s := s.setFlds (.clkYardStatus y) [(F.clkYardStatus_STOPPED, 1), (F.clkYardStatus_FREQ_MHZ, 0)]
    if reason = 1 then s.setFld (.clkYardStatus y) F.clkYardStatus_GATED 1 else s

/-- A reason ends; the clock runs again once none is left, with the reason that ended last in its record (R356). -/
def State.yardResume (s : State) (y : Fin 4) (reason : Nat) : State :=
  let x := s.yard y
  if reason ∉ x.stops then s
  else
    let stops := x.stops.erase reason
    let s := s.setYard y { x with stops := stops }
    let s := if reason = 1 then s.setFld (.clkYardStatus y) F.clkYardStatus_GATED 0 else s
    if stops.isEmpty then
      (s.setFlds (.clkYardStatus y) [(F.clkYardStatus_STOPPED, 0), (F.clkYardStatus_FREQ_MHZ, x.freq)]).yardRecord y 2 reason []
    else s

/-- 2 × CHUNK + HALF + LETTER of an item of an operation, or I + J + LETTER of a keyed one (R282). -/
def CollOp.share (o : CollOp) (it : CollItem) : Nat :=
  match o.key with
  | some k => k.band + k.col + it.k
  | none => 2 * it.chunk + it.half + it.k

/-- The stables that have a share of an operation (R283). A circular is one letter. -/
def State.opStables (s : State) (o : CollOp) : List (Fin 16) :=
  let on := s.enabledStables
  (if o.kind == .circ then [0] else o.allItems.map o.share).filterMap fun v => on[v % on.length]?

/-- Whether a yard is idle: no stall of it runs a program or holds an instruction, and the collective engine has no operation with a
share in its stables, no letter in their staging, and no tile of its stalls (R282, R283, R356). -/
def State.yardIdle (s : State) (y : Fin 4) : Bool :=
  let here := fun t : Fin 16 => t.val / 4 = y.val
  (s.stalls.all fun e => yardOf e.1 ≠ y || (!e.2.running && e.2.flights.isEmpty)) &&
    (s.collOps.all fun o => !(s.opStables o).any here) && (s.frames.all fun f => !here f.2.stable) &&
    s.tiles.all fun t => yardOf t.stall ≠ y

def execIdleGateStop (y : Fin 4) (s : State) : Host.Outcome State Fault Refusal :=
  .next (if s.dieUp && s.flag (.clkYardCtrl y) F.clkYardCtrl_IDLE_GATE && s.yardIdle y then s.yardStop y 1 else s)

def execIdleGateResume (y : Fin 4) (s : State) : Host.Outcome State Fault Refusal :=
  .next (if s.dieUp && !s.yardIdle y then s.yardResume y 1 else s)

/-- HALT is written (R356). -/
def State.haltWrite (s : State) (y : Fin 4) (on : Bool) : State :=
  let s := s.setFld (.clkYardCtrl y) F.clkYardCtrl_HALT (if on then 1 else 0)
  if on then s.yardStop y 3 else s.yardResume y 3

def execHaltWrite (y : Fin 4) (on : Bool) (s : State) : Host.Outcome State Fault Refusal :=
  .next (if s.dieUp then s.haltWrite y on else s)

/-! ### Frequency (R352 to R354, R431, R432) -/

def State.yardTarget (s : State) (y : Fin 4) : Nat := s.fld (.clkYardCtrl y) F.clkYardCtrl_TARGET_MHZ

/-- The frequency that the porter's power control and thermal throttle allow. -/
def Yard.porter (x : Yard) : Nat := max 600 (x.power - x.thermal)

/-- The frequency a yard runs toward: the lowest of R352. -/
def State.yardGoal (s : State) (y : Fin 4) : Nat := min (s.yardTarget y) (min (s.yard y).porter (s.yard y).cap)

/-- LIMIT: what holds the yard below TARGET_MHZ (R352, R432). -/
def State.yardLimit (s : State) (y : Fin 4) : Nat :=
  let x := s.yard y
  let m := s.yardGoal y
  let t := s.yardTarget y
  let b := fun (c : Bool) (i : Nat) => if c && decide (m < t) then 2 ^ i else 0
  let cap := x.cap = m
  b (decide (x.power < t) && x.porter = m) 0 + b (cap && bitOf x.why 0) 1 + b (cap && bitOf x.why 1) 2 +
    b ((x.thermal ≠ 0 && x.porter = m) || (cap && bitOf x.why 2)) 3

/-- Show a yard's frequency, voltage and limits. -/
def State.yardShow (s : State) (y : Fin 4) : State :=
  let x := s.yard y
  s.setFlds (.clkYardStatus y) [(F.clkYardStatus_FREQ_MHZ, if x.stops.isEmpty then x.freq else 0),
    (F.clkYardStatus_VOLT_MV, Config.yardMv y.val x.freq), (F.clkYardStatus_LIMIT, s.yardLimit y)]

/-- One step of 25 MHz toward the frequency of R352. -/
def execFrequencyStep (y : Fin 4) (s : State) : Host.Outcome State Fault Refusal :=
  .next (
    if !s.dieUp then s
    else
      let x := s.yard y
      let g := s.yardGoal y
      let f := if x.freq < g then min g (x.freq + 25) else if g < x.freq then max g (x.freq - 25) else x.freq
      (s.setYard y { x with freq := f }).yardShow y)

/-- The neighbouring pairs (R351). -/
def yardPairs : List (Fin 4 × Fin 4) := [(0, 1), (0, 2), (1, 3), (2, 3)]

/-- How a pair stands against a share of the limits of R353, in percent: bit 0 frequency ratio, bit 1 voltage, bit 2
temperature beyond it. -/
def beyond (pct : Nat) (fa fb va vb ta tb : Nat) : Nat :=
  (if decide (175 * pct * min fa fb < 100 * 100 * max fa fb) then 1 else 0) +
    (if decide (50 * pct < 100 * (max va vb - min va vb)) then 2 else 0) +
    (if decide (25 * pct < 100 * (max ta tb - min ta tb)) then 4 else 0)

/-- The yard of a pair that the porter lowers (R354). -/
def lowered (a b : Fin 4) (bad fa fb va vb ta tb : Nat) : Fin 4 :=
  if fa ≠ fb then (if fb < fa then a else b)
  else
    let (x, y) := if bitOf bad 1 then (va, vb) else (ta, tb)
    if y < x then a else if x < y then b else min a b

/-- A pair that throttles a yard releases it by one step. -/
def Yard.release (x : Yard) (pair : Nat) : Yard :=
  match x.caps.find? fun e => e.1 = pair with
  | none => x
  | some (_, cap, why) => { x with caps := if 1400 ≤ cap + 25 then AMap.del pair x.caps else AMap.set pair (cap + 25, why) x.caps }

/-- What one check makes of a yard (R354): each pair beyond a limit lowers the yard that it chooses, and a pair within 80 % of every
limit releases what it throttles. `judge` is how a pair stands. -/
def State.yardChecked (s : State) (judge : Nat → Fin 4 × Fin 4 → Nat) (pick : Fin 4 × Fin 4 → Nat → Fin 4) (y : Fin 4) : Yard :=
  let x0 := s.yard y
  yardPairs.zipIdx.foldl (fun x e =>
    let bad := judge 100 e.1
    if bad ≠ 0 then (if pick e.1 bad = y then { x with caps := AMap.set e.2 ((max 600 (min x0.cap x0.freq - 25)), bad) x.caps } else x)
    else if judge 80 e.1 = 0 then x.release e.2
    else x) x0

/-- One check of every neighbouring pair (R354): `mv` and `tc` are the voltages and temperatures measured. -/
def State.neighbourCheck (s : State) (mv tc : Vector Nat 4) : State :=
  let s := (List.finRange 4).foldl (fun s y =>
    s.setFlds (.clkYardStatus y) [(F.clkYardStatus_VOLT_MV, mv[y]), (F.clkYardStatus_TEMP_C, tc[y])]) s
  let judge := fun pct (e : Fin 4 × Fin 4) =>
    beyond pct (s.yard e.1).freq (s.yard e.2).freq mv[e.1] mv[e.2] tc[e.1] tc[e.2]
  let pick := fun (e : Fin 4 × Fin 4) bad =>
    lowered e.1 e.2 bad (s.yard e.1).freq (s.yard e.2).freq mv[e.1] mv[e.2] tc[e.1] tc[e.2]
  let xs := (List.finRange 4).map fun y => (y, s.yardChecked judge pick y)
  xs.foldl (fun s e => if s.yard e.1 = e.2 then s else (s.setYard e.1 e.2).yardShow e.1) s

def execYardNeighbourCheck (mv tc : Vector Nat 4) (s : State) : Host.Outcome State Fault Refusal :=
  .next (if s.dieUp then s.neighbourCheck mv tc else s)

/-! ### Stretch (R355) -/

/-- A supply droop: the period is stretched by up to 12 %. -/
def execDroopStretch (y : Fin 4) (pct : Fin 13) (s : State) : Host.Outcome State Fault Refusal :=
  .next (
    if s.dieUp && pct ≠ 0 then
      (s.setYard y { s.yard y with stretch := pct.val, recover := 0 }).setFld (.clkYardStatus y) F.clkYardStatus_STRETCHING 1
    else s)

/-- The supply has recovered: the period returns to normal over the next 64 cycles. -/
def execDroopRecovery (y : Fin 4) (s : State) : Host.Outcome State Fault Refusal :=
  .next (
    if s.dieUp && s.flag (.clkYardStatus y) F.clkYardStatus_STRETCHING && (s.yard y).recover = 0 then
      s.setYard y { s.yard y with recover := 64 }
    else s)

/-- By how much the period is stretched now, in percent: over the 64 cycles of a recovery it returns to normal (log entry 108). -/
def Yard.stretched (x : Yard) : Nat := if x.recover = 0 then x.stretch else x.stretch * x.recover / 64

/-- A yard after `n` cycles of a stretch: the recovery ends with its last cycle. -/
def State.stretchTick (s : State) (y : Fin 4) (n : Nat) : State :=
  let x := s.yard y
  if n = 0 || !s.flag (.clkYardStatus y) F.clkYardStatus_STRETCHING then s
  else if x.recover = 0 then s.bump (.clkYardStretch y) n
  else
    let s := (s.setYard y { x with recover := x.recover - n, stretch := if x.recover ≤ n then 0 else x.stretch }).bump
      (.clkYardStretch y) (min n x.recover)
    if x.recover ≤ n then s.setFld (.clkYardStatus y) F.clkYardStatus_STRETCHING 0 else s

/-! ### One franking cycle of a yard -/

/-- The cycles for which a wait has held issue on a stall: STL_SYNC_WAITCYC, and the cause that its sequencer charges (R27, R175,
R408). -/
def State.syncTick (s : State) (m : Fin 128) (n : Nat) : State :=
  let t := s.stall m
  match t.wait with
  | some w =>
    if t.running then ((s.setStall m { t with waitCycles := t.waitCycles + n }).bump (.stlSyncWaitcyc m) n).aonAdd w.cause n else s
  | none => s

/-- The cycles for which an update instruction has waited on a stall: its vector engine charges TALLY_WAIT (R27, R104, R112, R408). -/
def State.updTick (s : State) (m : Fin 128) (n : Nat) : State :=
  let t := s.stall m
  if t.updWaiting.isSome then (s.setStall m { t with updCycles := t.updCycles + n }).aonAdd 35 n else s

/-- The cycles that the stalls of a yard have spent in waits. -/
def State.waitTick (s : State) (y : Fin 4) (n : Nat) : State :=
  if n = 0 then s
  else ((s.stalls.map (·.1)).filter fun m => yardOf m = y).foldl (fun s m => (s.syncTick m n).updTick m n) s

/-- A yard over one franking cycle: the cycles it ran, and the time it was stopped, or capped below its other limits, in
whole microseconds (R354, R355, R408). -/
def State.yardTick (s : State) (y : Fin 4) : State :=
  let x := s.yard y
  let ran := x.stops.isEmpty
  let m := if ran then x.milli + x.freq * 100 / (100 + x.stretched) else x.milli
  let stop := if ran then x.stopNs else x.stopNs + 1
  let held := if x.cap < min (s.yardTarget y) x.porter then x.heldNs + 1 else x.heldNs
  let s := (s.setYard y { x with milli := m, stopNs := stop, heldNs := held }).stretchTick y (m / 1000 - x.milli / 1000)
  let s := s.waitTick y (m / 1000 - x.milli / 1000)
  let s := (s.aonAdd (387 + 4 * y.val) (m / 1000 - x.milli / 1000)).aonAdd (386 + 4 * y.val) (stop / 1000 - x.stopNs / 1000)
  if held / 1000 = x.heldNs / 1000 then s else s.bump (.clkYardThrottle y) 1

end Sys2Proof.Machine
end

