-- ==== Sys2Proof/Machine/Die.lean ====
section
/-!
DEFINITION. The porter's part in resets: the collection of the always-on counters (R407), die reset (R330, R372), the removal
of main power (R329, R330, R414), power cycles and the ways out of service (R372, R387), and the watchdogs and commands
beside them.
-/
namespace Sys2Proof.Machine

/-! ### Collection (R407) -/

/-- The porter adds the die's accumulators to PTR_AON. -/
def State.aonCollect (s : State) : State :=
  { s.aonDie.foldl (fun s e => s.aonPorter (Fin.ofNat 512 e.1) e.2) s with aonDie := [] }

/-- The porter reads the die's accumulators and the die answers, or does not within 1 ms: the events since the previous read are
then lost, which index 421 counts. -/
def State.aonReadIf (s : State) (answered : Bool) : State :=
  if answered then s.aonCollect else { s.aonPorter 421 1 with aonDie := [] }

/-- The porter reads the die's accumulators; whether the die answers is open. -/
def State.aonRead (s : State) : State := s.aonReadIf (Config.dieAnswers s.porterMs)

/-! ### What survives (R10, R414) -/

/-- Whether a register keeps its value across a die reset. -/
def Reg.outlivesDie (r : Reg) : Bool := r.domain != .die

/-- Whether a register keeps its value when main power is removed: the die's logbooks do not. -/
def Reg.outlivesMain (r : Reg) : Bool :=
  match r with
  | .dbgLog u _ _ => u = 0x3FF
  | .dbgLogNext u => u = 0x3FF
  | r => r.domain == .porter

/-- Everything that the die holds returns to reset; the porter, the memories and what has left the module stay. -/
def State.dieDown (s : State) : State :=
  { pending := s.pending, regs := s.regs.filter fun e => e.1.outlivesDie, mem := s.mem, poison := s.poison,
    latentUe := s.latentUe, latentCe := s.latentCe, hostOut := s.hostOut, porterOut := s.porterOut, wire := s.wire, linkCmds := s.linkCmds,
    attribs := s.attribs, dieHist := s.dieHist, mgmtDone := s.mgmtDone, aux := s.aux, power := s.power, rails := s.rails, railMs := s.railMs,
    tripMs := s.tripMs, cycle := s.cycle,
    dieResetting := true, autoUsed := s.autoUsed, released := s.released, fwSlots := s.fwSlots, fwBoot := s.fwBoot,
    spdmOut := s.spdmOut, retiredPages := s.retiredPages, porterMs := s.porterMs, irqs := s.irqs, redfish := s.redfish,
    tap := s.tap }

/-- A record of the porter's logbook: cause and engine (R413). -/
def State.porterLog (s : State) (event cause engine : Nat) : State :=
  s.log 0x3FF event 0xFF (toBytes 1 cause ++ toBytes 1 engine)

/-- What the debug header's UART has sent: the porter's boot and event messages (R439; log entry 85). -/
def State.uart (s : State) : List Redfish := s.redfish

/-- The events that Redfish serves. -/
def State.events (s : State) : List Redfish := s.redfish.filter fun e => e ≠ .boot

/-- An event that the porter reports over Redfish. -/
def State.tell (s : State) (event data : Nat) : State := { s with redfish := s.redfish ++ [Redfish.porter event data] }

/-! ### Main power and service (R330, R387, R428) -/

/-- The rails, in the order in which the porter brings them up (R428). -/
def railOrder : List Rail := [.input48, .v33, .v18, .v12, .memory, .mail, .core]

/-- The porter starts the rail sequence. -/
def State.mainStart (s : State) : State := { s with power := .rising, rails := [], railMs := 0 }

/-- A millisecond of the rails that have been started, in their order: for how long each has stayed within its window; the next one starts
once the last has done so for 2 ms (R428). -/
def State.railsRise (s : State) : State :=
  let rails := s.rails.zipIdx.map fun e => (e.1.1, if Config.railIn e.2 s.porterMs then e.1.2 + 1 else 0)
  let next := (railOrder[rails.length]?).toList.map fun r => (r, 0)
  { s with railMs := s.railMs + 1, rails := if rails.getLast?.all fun e => decide (2 ≤ e.2) then rails ++ next else rails }

/-- A millisecond of the rails being switched off: the last one started goes first, and the next once it has fallen; within 20 ms all
are off, the 48 V switch last (R429). -/
def State.railsFall (s : State) : State :=
  let ms := s.railMs + 1
  let rails := if 20 ≤ ms then [] else if Config.railFell (s.rails.length - 1) s.porterMs then s.rails.dropLast else s.rails
  { s with railMs := ms, rails := rails, power := if rails.isEmpty then .off else .falling }

/-- A millisecond of the rails. -/
def State.railStep (s : State) : State :=
  match s.power with
  | .rising => s.railsRise
  | .falling => s.railsFall
  | .good | .off => s

/-- Main power is good once every rail has stayed within its window for 5 ms (R428). -/
def State.railsGood (s : State) : Bool := s.rails.map (·.1) = railOrder && s.rails.all fun e => decide (5 ≤ e.2)

/-- Main power is removed: Stage 0, and the memories and the die's logbooks lose what they held. The rails begin to fall (R429). -/
def State.mainRemove (s : State) : State :=
  let d := s.dieDown
  let d := { d with regs := d.regs.filter fun e => e.1.outlivesMain, mem := [], poison := [], latentUe := [], latentCe := [],
                    power := if s.rails.isEmpty then .off else .falling,
                    railMs := if s.power = Power.falling then s.railMs else 0, dieResetting := false }
  let d := d.setFlds .ptrStage [(F.ptrStage_STAGE, 0), (F.ptrStage_QUARANTINE, 0), (F.ptrStage_MAIN_ON, 0)]
  d.setFld .ptrPwrStatus F.ptrPwrStatus_MAIN_GOOD 0

/-- The part of a die reset that acts on the die and on the porter's view of it, the counters read. -/
def State.dieLost (s : State) : State :=
  let s := s.dieDown
  let s := s.setFlds .ptrStage [(F.ptrStage_GRANTED, 0), (F.ptrStage_BUSY, 0), (F.ptrStage_BUSY_AXIS, 0)]
  let s := s.setFld .ptrBypass F.ptrBypass_HOLD 0
  s.setFlds .ptrStartTimes [(F.ptrStartTimes_SORTING_MS, 0xFFFF), (F.ptrStartTimes_STABLED_MS, 0xFFFF),
    (F.ptrStartTimes_HARNESSED_MS, 0xFFFF)]

/-- The part of a die reset that acts on the die and on the porter's view of it: a final read of the counters comes first. -/
def State.dieClear (s : State) : State := (if s.dieUp then s.aonRead else s).dieLost

/-- The porter takes the module out of service, for a cause of OOS_CAUSE: it holds the die in reset, where that is up,
and removes main power; the bypass is engaged (R387). -/
def State.outOfService (s : State) (cause : Nat) : State :=
  let s : State := { (if s.dieUp then s.dieClear else s).mainRemove with cycle := .none }
  let s := s.setFld .ptrStage F.ptrStage_OUT_OF_SERVICE 1
  let s := s.setFld .ptrEscStatus F.ptrEscStatus_OOS_CAUSE cause
  (s.porterLog 0x0082 cause 255).tell 0x0082 cause

/-! ### Die reset (R315, R330, R372, R405) -/

/-- PTR_RESET_REC, and the count of die resets by cause (R405, R408). -/
def State.resetRecord (s : State) (cause engine : Nat) : State :=
  let s := s.wr .ptrResetRec (pack [(F.ptrResetRec_CAUSE, cause), (F.ptrResetRec_ENGINE, engine),
    (F.ptrResetRec_TIME_MS, s.porterMs)])
  s.aonPorter (Fin.ofNat 512 (359 + cause)) 1

/-- Whether a die reset counts toward taking the module out of service (R387). -/
def countedCause (cause : Nat) : Bool := cause = 1 || cause = 2 || cause = 6

/-- A die reset or a failed power cycle enters the history that the porter counts (R387). -/
def State.countReset (s : State) : State := { s with dieHist := s.porterMs :: s.dieHist }

/-- A die reset, and the way out of service where it is the second counted within an hour. -/
def State.dieReset (s : State) (cause engine : Nat) : State :=
  let s := (s.dieClear.resetRecord cause engine).porterLog 0x0080 cause engine
  if countedCause cause then
    let s := s.countReset
    if 2 ≤ s.dieResets1h then s.outOfService 2 else s
  else s

/-- A power cycle: the porter removes main power and waits 2 s (R372). -/
def State.powerCycle (s : State) : State :=
  let engine := s.fld .ptrResetRec F.ptrResetRec_ENGINE
  let s : State := { s.mainRemove with cycle := .removed }
  let s := (s.resetRecord 6 engine).porterLog 0x0081 6 engine
  let s := s.countReset
  if 2 ≤ s.dieResets1h then s.outOfService 2 else s

/-! ### Commands -/

/-- Stage 1 was not reached within 250 ms of a die reset (R369). -/
def execDieResetWatchdogExpiry (s : State) : Host.Outcome State Fault Refusal :=
  .next (if s.dieResetting then s.powerCycle else s)

/-- Two seconds after removing main power the porter applies it itself (R372). -/
def execPowerCycleReapply (s : State) : Host.Outcome State Fault Refusal :=
  .next (if s.cycle = .removed then { s.mainStart with cycle := .applied } else s)

/-- Stage 1 was not reached within 3 s of a power cycle (R369, R387). -/
def execPowerCycleWatchdogExpiry (s : State) : Host.Outcome State Fault Refusal :=
  .next (if s.cycle = .none then s else (s.countReset.aonPorter 366 1).outOfService 3)

def execOperatorDieReset (s : State) : Host.Outcome State Fault Refusal :=
  .next (if s.dieUp then s.dieReset 4 255 else s)

def execPcieHotReset (s : State) : Host.Outcome State Fault Refusal :=
  .next (if s.dieUp then s.dieReset 3 255 else s)

def execPerstAssert (s : State) : Host.Outcome State Fault Refusal :=
  .next (if s.dieUp then s.dieReset 3 255 else s)

/-- CLEAR_OOS, which the porter accepts in Stage 0 only (R387, R405). -/
def State.clearOos (s : State) : State :=
  if s.fld .ptrStage F.ptrStage_STAGE ≠ 0 then s
  else (s.setFld .ptrStage F.ptrStage_OUT_OF_SERVICE 0).setFld .ptrEscStatus F.ptrEscStatus_OOS_CAUSE 0

/-- CLEAR_FENCES (R405). -/
def State.clearFences (s : State) : State :=
  ((s.wr .ptrStallFenceLo 0).wr .ptrStallFenceHi 0).setFld .ptrEscStatus F.ptrEscStatus_FENCES 0

/-- CLEAR_HISTORY: the die-reset history and every engine's attributions (R405). -/
def State.clearHistory (s : State) : State := { s with dieHist := [], attribs := [] }

/-- A write of PTR_ESC_CTRL. -/
def State.escCtrlWrite (s : State) (v : BitVec 64) : State :=
  let s := if F.ptrEscCtrl_CLEAR_OOS.get v ≠ 0 then s.clearOos else s
  let s := if F.ptrEscCtrl_CLEAR_FENCES.get v ≠ 0 then s.clearFences else s
  if F.ptrEscCtrl_CLEAR_HISTORY.get v ≠ 0 then s.clearHistory else s

def execClearOos (s : State) : Host.Outcome State Fault Refusal := .next (if s.aux then s.clearOos else s)
def execClearFences (s : State) : Host.Outcome State Fault Refusal := .next (if s.aux then s.clearFences else s)
def execClearHistory (s : State) : Host.Outcome State Fault Refusal := .next (if s.aux then s.clearHistory else s)

end Sys2Proof.Machine
end

