-- ==== Sys2Proof/Machine/Convert.lean ====
section
/-!
DEFINITION. `cvt`: conversion between formats, parts, block scales and tallies (R38 to R43, R52 to R58, R138).
-/
namespace Sys2Proof.Machine

/-- The pairs of formats that `cvt` converts: any two plain formats, and FP32, BF16 or FP16 to or from an MX format
(R42, R52). -/
def cvtPair (t f : Fmt) : Bool :=
  let wide := fun x => x == .f32 || x == .bf16 || x == .f16
  (isPlain t && isPlain f) || (isMx t && wide f) || (isMx f && wide t)

/-- PART lies in the range that the widths give; KIND is 0 unless the target is an MX format (R52, R138). -/
def cvtPartOk (t f : Fmt) (part : Nat) (kind : Kind) : Bool :=
  let sw := fmtWidth f
  let tw := fmtWidth t
  decide (part < max (sw / tw) (tw / sw)) && (isMx t || kind == .w)

/-- The elements' events, by the stall's tallies that count them (R43); `mx` inside an MX block of the target. -/
def cvtEvents (mx : Bool) (cs : List Conv) : List (StallEvent × Nat) :=
  let k := fun p => (cs.filter p).length
  [(.cvtOverflow, k (·.ovf)), (.cvtNanInt, k (·.nanInt)), (.mxClamp, k (·.clamp)),
    (if mx then .mxUnderflow else .cvtUnderflow, k (·.unf))]

/-- Source element of destination element `e`, if the part fills it (R138). -/
def cvtSource (t f : Fmt) (part e : Nat) : Option Nat :=
  let es := elemCount f
  let ed := elemCount t
  if es = ed then some e
  else if es < ed then (if part * es ≤ e ∧ e < part * es + es then some (e - part * es) else none)
  else some (part * ed + e)

/-- The exact value of a source element; an MX element is scaled by its block's byte of sS. -/
def cvtValue (f : Fmt) (v : BitVec 2048) (scales : BitVec 64) (i : Nat) : FVal :=
  if isMx f then mxValue f (bitsOf scales.toNat (8 * (i / 32)) 8) (vElem f v i) else decodeElem f (vElem f v i)

/-- The converted elements by source index, and for an MX target the scale codes of its blocks in order. -/
def cvtAll (t f : Fmt) (mode : OvMode) (kind : Kind) (v : BitVec 2048) (scales : BitVec 64) : List Conv × List Nat :=
  let vals := (List.range (elemCount f)).map (cvtValue f v scales)
  if isMx t then
    let blocks := (List.range (elemCount f / 32)).map fun b =>
      encodeBlock t mode (headroom kind) ((vals.drop (32 * b)).take 32)
    ((blocks.map (·.2)).flatten, blocks.map (·.1))
  else (vals.map (encodeElem t mode), [])

def execCvt (h : Hdr) (vd va : VReg) (ss : SReg) (tfmt sfmt : Fmt) (part : Fin 4) (mode : OvMode) (kind : Kind)
    (s : State) : Out :=
  if !cvtPair tfmt sfmt || !cvtPartOk tfmt sfmt part.val kind then .refused (.loaderRefused "CVT")
  else s.issueWith h .vector (5, 0) .none true fun s r =>
    let t := s.stall h.stall
    let (cs, xs) := cvtAll tfmt sfmt mode kind t.v[va] t.s[ss]
    let on := fun e => elemOn (t.vpred h.pred) h.pneg (elemCount tfmt) e
    let written := (List.range (elemCount tfmt)).filterMap fun e =>
      if on e then (cvtSource tfmt sfmt part.val e).map fun i => (e, cs.getD i { bits := 0 }) else none
    let out := vPack (fmtWidth tfmt) ((List.range (elemCount tfmt)).map fun e =>
      match written.find? fun w => w.1 = e with
      | some w => w.2.bits
      | none => vElem tfmt t.v[vd] e)
    let b0 := part.val * elemCount sfmt / 32
    let mask := (List.range xs.length).foldl (fun m i => m + 0xFF * 2 ^ (8 * (b0 + i))) 0
    let val := (List.range xs.length).foldl (fun m i => m + xs.getD i 0 * 2 ^ (8 * (b0 + i))) 0
    (s.modStall h.stall fun t => t.setV vd out,
      { r with counts := cvtEvents (isMx tfmt) (written.map (·.2)), lands := some (.vreg vd)
               sWrites := if isMx tfmt then [(ss, BitVec.ofNat 64 mask, BitVec.ofNat 64 val)] else [] })

end Sys2Proof.Machine
end

