-- ==== Sys2Proof/Machine/CollTile.lean ====
section
/-!
DEFINITION. Circulars (R257 to R260, R284), and the weight-gradient path's `coll.wgtile` (R287) and all-gather (R288).
-/
namespace Sys2Proof.Machine

/-! ### `coll.circ` (R268, R284) -/

/-- The body bytes that SC gives a circular; above 4,096 they are not fixed. -/
def circLen (sc : BitVec 64) : Nat :=
  let x := bitsOf sc.toNat 44 13
  if x ≤ 4096 then x else Config.circLength x % 4097

def execCollCirc (h : Hdr) (grp : Fin 4) (sa sb sc : SReg) (s : State) : Out :=
  s.coll h .circ grp (fun _ t o => { o with tag := bitsOf t.s[sc].toNat 32 12, count := circLen t.s[sc] }) fun s r c =>
    let n := h.stall
    let t := s.stall n
    let x := t.s[sc].toNat
    let box := bitsOf x 0 32
    let len := circLen t.s[sc]
    let o := { s.opOf n r.seq c grp .circ with tag := bitsOf x 32 12, count := len, sReg := sc, boxN := boxCount box }
    if !s.boxOk box then
      (s.collAlone o .deliveryFailed, { r with status := .deliveryFailed, sWrites := [(sc, BitVec.allOnes 64, circWord 0 0 .deliveryFailed)] })
    else
      let (s, src) := s.collBuf c n t.s[sa] .i8 0 len false
      let s := s.countRsvd (bufAddrs src {})
      let (s, bs) := s.collRead src.els
      let lt : Letter :=
        { dest := s.chip, src := s.chip, cls := .coll, jobTag := s.jobTag c, op := 4, length := len, poison := poisonMask bs,
          target := BitVec.ofNat 64 (collTarget grp (bitsOf x 32 12) 3 0 0 false + box * 2 ^ 32), body := bs.map (·.1),
          circVa := BitVec.ofNat 48 t.s[sb].toNat }
      let o := { o with src := src, circ := some lt, pages := s.refusing.getD [] }
      (s.opAdd o, { r with collOp := some o.id })

/-! ### Circulars at the other chips of the box -/

/-- The record of a circular that this chip has taken in. -/
def State.circOf (s : State) (lt : Letter) : Option Circ :=
  s.circs.find? fun x => streamOf x.up = streamOf lt && x.up.postmark = lt.postmark

/-- Receipt a circular with its sums (R260). -/
def State.circReceipt (s : State) (x : Circ) : State :=
  s.receipt x.up (if x.refused ≠ 0 then .fenced else .ok)
    (BitVec.ofNat 64 (x.delivered % 2 ^ 15 + x.refused % 2 ^ 15 * 2 ^ 15))

/-- The axis on which a one-hop letter arrived: that on which its sender differs from this chip. -/
def State.arrivalAxis (s : State) (lt : Letter) : Option (Fin 4) :=
  (List.finRange 4).find? fun a => coord lt.src a ≠ coord s.chip a

/-- Take a circular in: delivered here or refused, and passed on to its children from its place in staging (R258 to R261). -/
def State.circTake (s : State) (lt : Letter) (c : Fin 64) (refuse : Bool) : State :=
  let fr := (s.freeFrames lt).head?
  let (s, ok) := if refuse then (s.bump .soRefusedFenced 1, true) else s.circDeliver c lt true
  if !ok then s
  else
    let s := if refuse then s else s.record lt
    let id := s.nextId
    let kids := s.circCopies (.circ id) c lt (s.arrivalAxis lt)
    let fr := if kids.isEmpty then none else fr
    let x : Circ := { id := id, ctx := c, up := lt, children := kids.length, delivered := if refuse then 0 else 1,
                      refused := if refuse then 1 else 0, frame := fr }
    let s := match fr with | some f => s.stageIn f lt | none => s
    { s with nextId := id + 1, circs := s.circs ++ [x] }.post kids

/-- Whether a circular must wait in its buffer for a place in staging (R26, R259): it is new here and is passed on. -/
def State.circFull (s : State) (lt : Letter) (c : Fin 64) : Bool :=
  let judged := (s.recvStream (streamOf lt)).judge lt.postmark
  (s.circOf lt).isNone && (s.freeFrames lt).isEmpty && !(s.circCopies .other c lt (s.arrivalAxis lt)).isEmpty &&
    (if s.fenced c then judged != .dup else s.grpValid c (collTgt lt).grp && judged == .new)

/-- Whether a letter's original is still unreceipted here: staged without a receipt, or passed on and not yet receipted by the
next replica, or discarded without one (R280, R281, R288, R321). -/
def State.stillPlacing (s : State) (lt : Letter) : Bool :=
  s.unplaced.contains (streamOf lt, lt.postmark) ||
  (s.collStage.any fun g => decide (streamOf g.letter = streamOf lt) && g.letter.postmark = lt.postmark && !g.receipted) ||
    (s.relays.any fun x => decide (streamOf x.up = streamOf lt) && x.up.postmark = lt.postmark) ||
    s.circs.any fun x => decide (streamOf x.up = streamOf lt) && x.up.postmark = lt.postmark && !x.sent

/-- The receipt of a further copy of a circular: at once where the circular has been receipted, else after that (R260, R321). -/
def State.circAgain (s : State) (x : Circ) (lt : Letter) : State :=
  if x.sent then s.circReceipt x else { s with heldDups := s.heldDups ++ [lt] }

/-- The same where this chip has no record of it left. -/
def State.circPast (s : State) (lt : Letter) : State :=
  if s.stillPlacing lt then { s with heldDups := s.heldDups ++ [lt] } else s.receipt lt .ok 1

/-- A further copy of a circular that this chip refused, now that no fence refuses it: it is delivered (R260). -/
def State.circLate (s : State) (x : Circ) (lt : Letter) : State :=
  match s.circDeliver x.ctx lt true with
  | (s, false) => s
  | (s, true) =>
    let x' := { x with delivered := x.delivered + 1, refused := x.refused - 1 }
    let cs : List Circ := s.circs.map fun y => if y.id = x.id then x' else y
    let s : State := { s.record lt with circs := cs }
    if x.sent then s.circReceipt x' else s

/-- A further copy of a circular at a fenced chip: it is refused, and its receipt counts this chip as one that refused, whatever became
of the earlier copy (R260, R261; log entry 111). Before the first receipt has gone, that one answers for both. -/
def State.circRefuse (s : State) (lt : Letter) (placed : Bool) : Option Circ → State
  | some x =>
    let x' := if placed then { x with delivered := x.delivered - 1, refused := x.refused + 1 } else x
    if x.sent then (s.bump .soRefusedFenced 1).circReceipt x' else s.bump .soRefusedFenced 1
  | none => (s.bump .soRefusedFenced 1).receipt lt .fenced (2 ^ 15)

/-- A circular copy at a chip that has the context (R259 to R261, R320): the fence comes first. -/
def State.circIn (s : State) (lt : Letter) (c : Fin 64) : State :=
  let judged := (s.recvStream (streamOf lt)).judge lt.postmark
  let dup := judged == .dup
  if s.fenced c then
    let x := s.circOf lt
    if x.isSome || dup then s.circRefuse lt dup x else s.circTake lt c true
  else if !s.grpValid c (collTgt lt).grp then s.bump .ceNogroup 1
  else match s.circOf lt with
    | some x =>
      match judged with
      | .new => s.circLate x lt
      | .dup => (s.bump .soPostDups 1).circAgain x lt
      | .stale => s.bump .soPostStale 1
    | none =>
      match judged with
      | .new => s.circTake lt c false
      | .dup => (s.bump .soPostDups 1).circPast lt
      | .stale => s.bump .soPostStale 1

/-- A circular copy arrives. -/
def execCircularReceive (lt : Letter) (s : State) : Out :=
  .next (
    if !s.dieUp || !(lt.cls == .coll && decide (lt.op = 4)) then s
    else if !s.globalOn then (s.taken lt).bump .soNocontext 1
    else match s.ctxOfTag lt.jobTag with
    | none => (s.taken lt).bumpAll [.soNocontext, .ceNogroup]
    | some c => if s.circFull lt c then s else (s.taken lt).circIn lt c)

/-- With its own outcome and every child's receipt, a chip receipts the circular (R260). -/
def execCircularReceiptSend (id : Nat) (s : State) : Out :=
  .next (
    match s.circs.find? fun x => x.id = id with
    | some x =>
      if s.dieUp && x.children = 0 && !x.sent then
        let cs : List Circ := s.circs.map fun y => if y.id = id then { y with sent := true } else y
        { s with circs := cs }.circReceipt x
      else s
    | none => s)

/-! ### The group table (R97 to R99) -/

/-- The virtual addresses of a half's header and of a group's entry (R97). -/
def State.tableVa (s : State) (c : Fin 64) : Nat := s.fld (.stlUpdTable c) F.stlUpdTable_TABLE_VA * 4096
def headerVa (base step : Nat) : Nat := base + 64 * (step % 2)
def entryVa (base step g : Nat) : Nat := base + (if step % 2 = 0 then 0x1000 else 0x81000) + 128 * g

def vaRange (a n : Nat) : List Nat := (List.range n).map (a + ·)

/-- An entry from its 128 bytes; of an address field, bits [5:0] and [63:48] have no effect (R99; log entry 117). -/
def GroupEntry.of (b : List Byte) : GroupEntry :=
  let n := fun o => natAt b o 4
  let a := fun o => natAt b o 8 / 64 * 64 % 2 ^ 48
  { flags := n 0, start := n 4, rows := n 8, cols := n 12, eta := n 16, lambda := n 20, beta1 := n 24, beta2 := n 28,
    eps := n 32, clipD := n 36, gMul := n 40, w := (a 0x38, a 0x40), m := (a 0x48, a 0x50), st := (a 0x58, a 0x60),
    scratch := a 0x68 }

/-- What an instruction latches of a step's group (R104): SCHED_GEN, FOLDS_EXPECTED, the entry, and the first poisoned
address among the words read. -/
structure Latched where
  gen : Nat
  expected : Nat
  e : GroupEntry
  bad : Option Nat

def State.latch (s : State) (c : Fin 64) (step g source : Nat) : State × Latched :=
  let base := s.tableVa c
  let hv := vaRange (headerVa base step) 64
  let ev := vaRange (entryVa base step g) 128
  let (s, h) := s.readCtx c hv source
  let (s, e) := s.readCtx c ev source
  let hb := h.map (·.1)
  let bad := ((hv ++ ev).zip (h ++ e)).find? fun p => p.2.2
  (s, ⟨natAt hb 0 4, natAt hb 4 2, GroupEntry.of (e.map (·.1)), bad.map (·.1)⟩)

/-! ### `coll.wgtile` (R287) -/

/-- The addresses of a tile's elements through a descriptor, row by row, each row padded with absent elements to a whole
number of blocks for a block format; and of its block scales. -/
def tileBuf (n : Fin 128) (d : Desc) (f : Fmt) (M N : Nat) : CollBuf :=
  let w := fmtWidth f / 8
  let W := if isMx f then 32 * ceilDiv N 32 else N
  { els := ((List.range M).map fun r => ((List.range W).map fun c => (List.range w).map fun b =>
      if c < N then some (d.addr n (d.byteOff r (w * c + b))) else none).flatten).flatten,
    scales := if isMx f then ((List.range M).map fun r => (List.range (W / 32)).map fun b =>
      some (d.addr n (d.scaleOff true r (32 * b)))).flatten else [] }

/-- The rows and columns of tile (I, J) of a group; 0 where that is none (R287). -/
def GroupEntry.tile (e : GroupEntry) (I J : Nat) : Nat × Nat :=
  if e.rows ≤ 128 * I || e.cols ≤ 128 * J then (0, 0) else (min 128 (e.rows - 128 * I), min 128 (e.cols - 128 * J))

/-- The entry of a parameter group as the engine reads it (R287). -/
def State.tileEntry (s : State) (c : Fin 64) (step g : Nat) : State × GroupEntry :=
  let (s, b) := s.readCtx c (vaRange (entryVa (s.tableVa c) step g) 128) 0x80
  (s, GroupEntry.of (b.map (·.1)))

/-- `coll.wgtile`. The halves of an MX tile are taken over its rows as they are padded (R271, R287; DESIGN CHOICE, log
entry 128). -/
def execCollWgtile (h : Hdr) (grp : Fin 4) (sa sb _sc : SReg) (td : TReg) (s : State) : Out :=
  let g := ((s.dataGroup (s.stall h.stall).context).getD grp)
  let key := fun (t : Stall) => (⟨bitsOf t.s[sa].toNat 0 32, bitsOf t.s[sa].toNat 32 12, bitsOf t.s[sb].toNat 0 24,
    bitsOf t.s[sb].toNat 24 24⟩ : TileKey)
  let sized := fun (s : State) (t : Stall) (o : CollOp) =>
    let k := key t
    let d := ((s.tileEntry t.context k.step k.group).2).tile k.band k.col
    { o with tileM := d.1, tileN := d.2 }
  s.coll h .wgtile g sized fun s r c =>
    let n := h.stall
    let t := s.stall n
    let k := key t
    let o := s.opOf n r.seq c g .wgtile
    if (s.dataGroup c).isNone then s.collUnusable r (sized s t o)
    else
      let (s, e) := s.tileEntry c k.step k.group
      let (M, N) := e.tile k.band k.col
      let o := { o with tileM := M, tileN := N }
      if M = 0 || s.grpLen c g = 1 then (s.collAlone o .ok, r)
      else
        let f := (fmtOf (s.fld (.ceGrpCtrl c g) F.ceGrpCtrl_GFMT)).getD .bf16
        let buf := tileBuf n (Desc.of t.t[td]) f M N
        let s := s.countRsvd (bufAddrs buf {})
        let W := if isMx f then 32 * ceilDiv N 32 else N
        let o := { o with key := some k, fmt := f, count := M * W, owner := (k.band + k.group) % s.grpLen c g, src := buf, dst := buf }
        (s.opAdd o, { r with collOp := some o.id })

/-! ### The all-gather that `upd` starts (R288) -/

/-- Start the all-gather of an updated tile: its weights at `va`, rows `2 × cols` bytes apart. Answers the operation. -/
def State.gatherStart (s : State) (n : Fin 128) (seq : Nat) (c : Fin 64) (g : Fin 4) (key : TileKey) (f : Fmt)
    (va cols M N : Nat) : State × Nat :=
  let vas := ((List.range M).map fun r => vaRange (va + 2 * cols * r) (2 * N)).flatten
  let (s, ps) := s.xlatAll c vas false false 0x80
  let L := s.grpLen c g
  let o := { s.opOf n seq c g .gather with
    key := some key, fmt := f, count := M * N, owner := (key.band + key.group) % L, src := { els := ps },
    target := va, rowStride := 2 * cols, tileM := M, tileN := N }
  (s.opAdd o, o.id)

end Sys2Proof.Machine
end

