-- ==== Sys2Proof/Machine/Seal.lean ====
section
/-!
DEFINITION. The attempt number (R106), READY (R388), the seal and mirror tallies (R389 to R392), the mirrors (R393 to R396)
and revert (R398). The operations take a context; the commands are at the end.
-/
namespace Sys2Proof.Machine

/-! ### Attempt and shard geometry (R100, R106) -/

/-- Advance a context's attempt number, which returns FOLDS_DONE to 0. -/
def State.advanceAttempt (s : State) (c : Fin 64) : State :=
  let a := s.fld (.stlUpdProgress c) F.stlUpdProgress_ATTEMPT
  s.setFlds (.stlUpdProgress c) [(F.stlUpdProgress_ATTEMPT, a + 1), (F.stlUpdProgress_FOLDS_DONE, 0)]

/-- Bits of FLAGS (R99). -/
def flagFrozen (f : Nat) : Bool := bitOf f 0
def flagAdapter (f : Nat) : Bool := bitOf f 1
def flagNoDecay (f : Nat) : Bool := bitOf f 2
def flagMoment (f : Nat) : Bool := bitOf f 3
def flagClip (f : Nat) : Bool := bitOf f 4
def flagFp16 (f : Nat) : Bool := bitOf f 5

/-- The shard of position `p` of `L`, for group number `g` (R100). -/
def Shard.of (L p g ROWS COLS : Nat) : Shard :=
  let nB := ceilDiv ROWS 128
  let mine := (List.range nB).filter fun I => (I + g) % L = p
  let nb := mine.length
  let rows := match mine.getLast? with
    | none => 0
    | some I => 128 * (nb - 1) + (if I = nB - 1 && ROWS % 128 ≠ 0 then ROWS % 128 else 128)
  ⟨L, p, nB, ceilDiv COLS 128, nb, rows⟩

/-- The shard of a group with the given flags on this chip. -/
def State.shard (s : State) (c : Fin 64) (g flags ROWS COLS : Nat) : Shard :=
  match s.dataGroup c with
  | some d => if flagAdapter flags then Shard.of 1 0 g ROWS COLS else Shard.of (s.grpLen c d) (s.grpPos c d) g ROWS COLS
  | none => Shard.of 1 0 g ROWS COLS

def Shard.owns (h : Shard) (g I : Nat) : Bool := decide (I < h.nB) && decide ((I + g) % h.L = h.p)
def Shard.hasTiles (h : Shard) : Bool := h.nb ≠ 0 && h.nJ ≠ 0

/-- The tensor row of local row `k`: its owned band is the `k / 128`-th whose owner is this chip. -/
def Shard.rowOf (h : Shard) (g k : Nat) : Nat :=
  let first := (h.p + h.L - g % h.L) % h.L
  128 * (first + h.L * (k / 128)) + k % 128

/-! ### Neighbours (R390) -/

def State.sealRec (s : State) (c : Fin 64) : SealRec := AMap.get {} c s.seals
def State.setSeal (s : State) (c : Fin 64) (x : SealRec) : State := { s with seals := AMap.set c x s.seals }

/-- This chip's position on an axis of the job's slice, and whether the slice closes into a ring there. -/
def State.slicePos (s : State) (c : Fin 64) (a : Fin 4) : Nat := bitsOf (s.rd (.hstCtxSeal c)).toNat (4 * a.val) 4
def State.sliceWrap (s : State) (c : Fin 64) (a : Fin 4) : Bool := bitOf (s.rd (.hstCtxSeal c)).toNat (16 + a.val)
def State.hasPlus (s : State) (c : Fin 64) (a : Fin 4) : Bool := s.slicePos c a ≠ s.planLen c a - 1 || s.sliceWrap c a
def State.hasMinus (s : State) (c : Fin 64) (a : Fin 4) : Bool := s.slicePos c a ≠ 0 || s.sliceWrap c a

/-- The job's axes for the seal, in order: X, Y, Z, W, the data axis last. -/
def State.sealAxes (s : State) (c : Fin 64) : List (Fin 4) :=
  let as := (List.finRange 4).filter fun a => 1 < s.planLen c a
  as.filter (fun a => s.planRole c a ≠ 1) ++ as.filter fun a => s.planRole c a = 1

/-! ### Tallies (R390, R391) -/

/-- One tally: for each axis the runs sent to the + and to the − neighbour; and whether it is complete. -/
def State.tally (s : State) (c : Fin 64) (fromMinus fromPlus : AMap (Fin 4) Nat) (mine : Bool) :
    List (Fin 4 × Nat × Nat) × Bool :=
  (s.sealAxes c).foldl (fun (rs, v) a =>
    let L := s.planLen c a
    let lin := if s.hasMinus c a then AMap.get 0 a fromMinus else 0
    let rin := if s.hasPlus c a then AMap.get 0 a fromPlus else 0
    let left := if v then min L (1 + lin) else 0
    let right := if v then min L (1 + rin) else 0
    (rs ++ [(a, left, right)], v && decide (L ≤ left + right - 1))) ([], mine)

/-- The steps of the pending written tally and of the pending mirror tally. -/
def State.sealStep (s : State) (c : Fin 64) : BitVec 32 := s.sealed c + 1
def State.mirrorStep (s : State) (c : Fin 64) : BitVec 32 :=
  BitVec.ofNat 32 (s.fld (.hstCtxSealState c) F.hstCtxSealState_MIRRORED_STEP) + 1

/-- This chip's own value in each tally: READY; MDONE, whose mirror holds every step up to SEALED_STEP. -/
def State.mineWritten (s : State) (c : Fin 64) : Bool := s.flag (.hstCtxSealState c) F.hstCtxSealState_READY
def State.mineMirror (s : State) (c : Fin 64) : Bool :=
  s.flag (.hstCtxSealState c) F.hstCtxSealState_MDONE && !newer32 (s.mirrorStep c) (s.sealed c)

def State.writtenTally (s : State) (c : Fin 64) : List (Fin 4 × Nat × Nat) × Bool :=
  let r := s.sealRec c
  s.tally c r.fromMinus r.fromPlus (s.mineWritten c)
def State.mirrorTally (s : State) (c : Fin 64) : List (Fin 4 × Nat × Nat) × Bool :=
  let r := s.sealRec c
  s.tally c r.mMinus r.mPlus (s.mineMirror c)

def State.sealTry (s : State) (c : Fin 64) : Nat := s.fld (.hstCtxSealState c) F.hstCtxSealState_TRY

/-- A seal letter to a neighbour (R389). -/
def State.sealLetter (s : State) (c : Fin 64) (a : Fin 4) (plus : Bool) (w m : Nat) : Outstanding :=
  let dest := s.neighbour a plus
  let body := toBytes 4 (s.sealStep c).toNat ++ toBytes 2 (s.sealTry c) ++ toBytes 1 (a.val + if plus then 0 else 4) ++
    toBytes 1 (s.slicePos c a) ++ toBytes 4 (s.mirrorStep c).toNat ++ toBytes 1 w ++ toBytes 1 m
  { key := ⟨dest, .bulk, s.jobTag c⟩, owner := .other, ctx := c,
    letter := { dest := dest, src := s.chip, cls := .bulk, jobTag := s.jobTag c, op := 1, length := 64,
                body := bytesAt body 0 64 } }

/-- Send the runs of both tallies to one neighbour, if they changed or are sent again (R390). -/
def State.sealSend (s : State) (c : Fin 64) (resend : Bool) (a : Fin 4) (plus : Bool) (w m : Nat) : State :=
  let r := s.sealRec c
  if !(if plus then s.hasPlus c a else s.hasMinus c a) then s
  else if resend || AMap.get (0, 0) (a, plus) r.sent ≠ (w, m) then
    (s.setSeal c { r with sent := AMap.set (a, plus) (w, m) r.sent }).post [s.sealLetter c a plus w m]
  else s

/-- Send the runs of both tallies to every neighbour. -/
def State.sealSendAll (s : State) (c : Fin 64) (resend : Bool) : State :=
  ((s.writtenTally c).1.zip (s.mirrorTally c).1).foldl (fun s e =>
    (s.sealSend c resend e.1.1 true e.1.2.1 e.2.2.1).sealSend c resend e.1.1 false e.1.2.2 e.2.2.2) s

/-! ### Mirrors (R393 to R396) -/

/-- Bytes of a group in a mirror slot (R394). -/
def mirrorSize (rows cols flags : Nat) : Nat :=
  2 * rows * cols * (if flagMoment flags then 2 else 1) + 2 * (rows + 1 + cols)

/-- The mirror axis: that which AXIS names, or by AUTO the first of length 2 or more in the order pipeline, data, sequence,
expert, tensor (R393). -/
def State.mirrorAxis (s : State) (c : Fin 64) : Option (Fin 4) :=
  match s.fld (.hstCtxMirror c) F.hstCtxMirror_AXIS with
  | 4 => ([2, 1, 5, 4, 3] : List Nat).findSome? fun r =>
      (List.finRange 4).find? fun a => s.planRole c a = r && decide (1 < s.planLen c a)
  | k => some (Fin.ofNat 4 k)

/-- The direction of the mirror neighbour: that of DIR, or the other where there is none (R393). -/
def State.mirrorPlus (s : State) (c : Fin 64) (a : Fin 4) : Option Bool :=
  let d := !s.flag (.hstCtxMirror c) F.hstCtxMirror_DIR
  let has := fun p => if p then s.hasPlus c a else s.hasMinus c a
  if s.planLen c a ≤ 1 then none else if has d then some d else if has (!d) then some (!d) else none

/-- A directory entry of a mirror slot (R394). -/
def mirrorEntry (step g flags rows cols off : Nat) (valid : Bool) : List Byte :=
  let f := (if valid then 1 else 0) + (if flagMoment flags then 2 else 0) + (if flagFp16 flags then 4 else 0)
  bytesAt (toBytes 4 step ++ toBytes 2 g ++ toBytes 1 f ++ toBytes 1 0 ++ toBytes 8 off ++ toBytes 4 rows ++
    toBytes 4 cols) 0 32

/-- The ranges of a group's state in the bank of step `r` (R394): owned rows of weights, first moment, statistics. -/
def groupRanges (h : Shard) (g r : Nat) (f : FoldRec) : List (Nat × Nat) :=
  let pick := fun (b : Nat × Nat) => if r % 2 = 0 then b.1 else b.2
  let line := 2 * f.cols
  ((List.range h.rows).map fun k => (pick f.w + line * h.rowOf g k, line)) ++
    (if flagMoment f.flags then [(pick f.m, line * h.rows)] else []) ++ [(pick f.st, 2 * (h.rows + 1 + f.cols))]

/-- The groups of a context that have a shard with tiles, with their entries in the half of a step, in ascending number. -/
def State.shardGroups (s : State) (c : Fin 64) (step : Nat) : State × List (Nat × FoldRec × Shard) :=
  let base := entryVa (s.tableVa c) step 0
  let (s, b) := s.readCtx c (vaRange base (4096 * 128)) 0x83
  let b := b.map (·.1)
  (s, (List.range 4096).filterMap fun g =>
    let e := GroupEntry.of ((b.drop (128 * g)).take 128)
    let h := s.shard c g e.flags e.rows e.cols
    if h.hasTiles then some (g, ⟨step, e.flags, e.rows, e.cols, e.w, e.m, e.st⟩, h) else none)

/-- The parts of a mirror of step `n`, or none where the state does not fit a slot (R394, R395). -/
def mirrorParts (n slot : Nat) (cap : Nat) (first : Bool) (folds : AMap Nat FoldRec) (gs : List (Nat × FoldRec × Shard)) :
    Option (List MirrorPart) :=
  let near := fun r => r % 2 ^ 32 = n || r % 2 ^ 32 = (n + 2 ^ 32 - 1) % 2 ^ 32
  let r := gs.foldl (fun (off, ps) e =>
    let (g, f, h) := e
    let size := ceilDiv (mirrorSize h.rows f.cols f.flags) 4096 * 4096
    let last := (folds.find? fun x => x.1 = g).map (·.2)
    let part := fun v => ({ dest := slot + 32 * g, lit := mirrorEntry n g f.flags h.rows f.cols off v, ranges := [] } : MirrorPart)
    let ps := if first || last.any fun l => near l.step then
        let src := last.getD f
        ps ++ [part false, { dest := slot + off, lit := [], ranges := groupRanges h g (last.map (·.step) |>.getD n) src },
          part true]
      else ps
    (off + size, ps)) ((131072, []) : Nat × List MirrorPart)
  if cap < r.1 then none else some r.2

/-- The bytes of a mirror part. -/
def State.partBytes (s : State) (c : Fin 64) (p : MirrorPart) : State × List MByte :=
  if p.ranges.isEmpty then (s, p.lit.map fun b => (b, false))
  else s.readCtx c ((p.ranges.map fun r => vaRange r.1 r.2).flatten) 0x83

/-- Send the next part of a mirror, once every letter of the one before has been receipted (R395). -/
def State.mirrorPump (s : State) (c : Fin 64) : State :=
  let r := s.sealRec c
  match r.mirror with
  | none => s
  | some m =>
    if s.owes (.mirror c) || s.ctxState c ≠ 1 then s
    else match m.todo with
      | [] => s
      | p :: ps =>
        let (s, bs) := s.partBytes c p
        let s := s.setSeal c { r with mirror := some { m with todo := ps } }
        s.post ((pieces bs.length).map fun (off, len) =>
          let part := (bs.drop off).take len
          { key := ⟨m.chip, .bulk, s.jobTag c⟩, owner := .mirror c, ctx := c,
            letter := { dest := m.chip, src := s.chip, cls := .bulk, jobTag := s.jobTag c, length := len,
                        target := BitVec.ofNat 64 (p.dest + off), poison := poisonMask part, body := part.map (·.1) } })

/-- A mirror fails (R394, R396). -/
def State.mirrorFail (s : State) (c : Fin 64) (full : Bool) : State :=
  let r := s.sealRec c
  let step := match r.mirror with | some m => m.step | none => (s.sealed c).toNat
  let s := s.unqueue (.mirror c)
  let s := s.setFld (.hstCtxSealState c) F.hstCtxSealState_FAIL 1
  let s := if full then s.setFld (.hstCtxSealState c) F.hstCtxSealState_FULL 1 else s
  (((s.setSeal c { r with mirror := none }).raise 257).aonAdd 369 1).log 0x232 0x0051 c.val (toBytes 4 step)

/-- Start the mirror of the sealed step `n`, where EN is set and there is a neighbour to hold it (R393 to R395). The first mirror after
creation writes every group, and so does one that restarts it (R396). -/
def State.mirrorStart (s : State) (c : Fin 64) (n : Nat) : State :=
  if !s.flag (.hstCtxMirror c) F.hstCtxMirror_EN then s
  else match (s.mirrorAxis c).bind fun a => (s.mirrorPlus c a).map fun p => (a, p) with
    | none => s
    | some (a, plus) =>
      let gib := s.fld (.hstCtxMirror c) F.hstCtxMirror_SLOT_GIB * 2 ^ 30
      let base := s.fld (.hstCtxMirror c) F.hstCtxMirror_REGION_VA * 2 ^ 21
      let slot := base + (2 * (if plus then 0 else 1) + n % 2) * gib
      let (s, gs) := s.shardGroups c n
      let r := s.sealRec c
      match mirrorParts n slot gib (r.mirrored.all fun k => k = n) r.folds gs with
      | none => s.mirrorFail c true
      | some ps =>
        let m : Mirror := { step := n, chip := s.neighbour a plus, all := ps, todo := ps }
        (s.setSeal c { r with mirrored := some (r.mirrored.getD n), mirror := some m }).mirrorPump c

/-! ### Completion of the tallies (R94, R391) -/

/-- The seal of the pending step completes on this chip: half S & 1 is invalidated, SEALED_STEP is S, the attempt advances,
READY clears, and the mirror of S starts; letters that waited for the seal proceed. -/
def State.sealDo (s : State) (c : Fin 64) : State :=
  let S := (s.sealStep c).toNat
  let s := s.writeCtx c ((vaRange (headerVa (s.tableVa c) S) 4).map fun a => (a, ((0xFF : Byte), false))) 0x83
  let s := s.setFld (.stlUpdSealed c) F.stlUpdSealed_SEALED_STEP S
  let s := (s.advanceAttempt c).aonAdd 87 1
  let s := s.setFlds (.hstCtxSealState c) [(F.hstCtxSealState_READY, 0), (F.hstCtxSealState_MDONE, 0)]
  let s := s.setSeal c { s.sealRec c with fromMinus := [], fromPlus := [] }
  (s.mirrorStart c S).pumpColl

/-- The mirror tally completes: MIRRORED_STEP advances, and held tiles proceed (R391, R397). -/
def State.mirrorTallyDo (s : State) (c : Fin 64) : State :=
  let s := s.setFld (.hstCtxSealState c) F.hstCtxSealState_MIRRORED_STEP (s.mirrorStep c).toNat
  (s.setSeal c { s.sealRec c with mMinus := [], mPlus := [] }).pumpColl

/-- Evaluate both tallies of a context, send what changed, and complete what is complete; a context that is being reset
evaluates nothing (R390 to R392). -/
def State.sealEval (s : State) (c : Fin 64) (resend : Bool) : State :=
  if s.ctxState c ≠ 1 then s
  else
    let s := s.sealSendAll c resend
    let s := if (s.writtenTally c).2 then (s.sealDo c).sealSendAll c false else s
    if (s.mirrorTally c).2 then (s.mirrorTallyDo c).sealSendAll c false else s

/-- Latch READY for the pending step (R388). -/
def State.latchReady (s : State) (c : Fin 64) : State :=
  if s.mineWritten c then s else (s.setFld (.hstCtxSealState c) F.hstCtxSealState_READY 1).sealEval c false

/-- The second case of R388: a consignment completes while the pending step's half holds its generation and expects no
folds. -/
def State.readyIfNone (s : State) (c : Fin 64) : State :=
  let S := (s.sealStep c).toNat
  if s.mineWritten c then s
  else
    let (s, h) := s.readCtx c (vaRange (headerVa (s.tableVa c) S) 64) 0x83
    let hb := h.map (·.1)
    if natAt hb 0 4 = S && natAt hb 4 2 = 0 then s.latchReady c else s

/-! ### Seal letters (R389 to R391) -/

/-- The body of an accepted seal letter enters the tallies. -/
def State.sealTake (s : State) (c : Fin 64) (lt : Letter) : State :=
  let b := lt.body
  let step := BitVec.ofNat 32 (natAt b 0 4)
  let tr := natAt b 4 2
  let ax := natAt b 6 1
  let a := Fin.ofNat 4 (bitsOf ax 0 2)
  let fromMinus := !bitOf ax 2
  let L := s.planLen c a
  let p := s.slicePos c a
  let spos := if fromMinus then (p + L - 1) % L else (p + 1) % L
  let has := if fromMinus then s.hasMinus c a else s.hasPlus c a
  let known := a ∈ s.sealAxes c && has && decide (natAt b 7 1 = spos) && decide (lt.src = s.neighbour a (!fromMinus))
  let now := step = s.sealStep c && decide (tr = s.sealTry c)
  if !known || !(now || newer32 step (s.sealStep c)) then s
  else
    let s := if newer32 step (s.sealStep c) then s.sealDo c else s
    let mstep := BitVec.ofNat 32 (natAt b 8 4)
    let s := if newer32 mstep (s.mirrorStep c) then s.mirrorTallyDo c else s
    let up := fun (m : AMap (Fin 4) Nat) (x : Nat) => AMap.set a (max x (AMap.get 0 a m)) m
    let r := s.sealRec c
    let r := if step = s.sealStep c && decide (tr = s.sealTry c) then
        (if fromMinus then { r with fromMinus := up r.fromMinus (natAt b 12 1) }
         else { r with fromPlus := up r.fromPlus (natAt b 12 1) })
      else r
    let r := if mstep = s.mirrorStep c then
        (if fromMinus then { r with mMinus := up r.mMinus (natAt b 13 1) } else { r with mPlus := up r.mPlus (natAt b 13 1) })
      else r
    (s.setSeal c r).sealEval c false

/-- A seal letter at its destination: windowed and receipted like every registered letter, its body taken (R389, R390). -/
def State.sealIn (s : State) (lt : Letter) : State :=
  s.postIn lt [.soNocontext] false fun s c => ((s.receipt lt .ok).sealTake c lt, true)

def execSealLetterReceive (lt : Letter) (s : State) : Out :=
  .next (if s.dieUp && lt.cls == .bulk && decide (lt.op = 1) then (s.taken lt).sealIn lt else s)

/-- Every 50 µs the tallies are evaluated and sent again (R390). -/
def execSealResendTimer (c : Fin 64) (s : State) : Out := .next (if s.dieUp then s.sealEval c true else s)

/-- Every letter of the mirror has been receipted (R395). -/
def execMirrorComplete (c : Fin 64) (s : State) : Out :=
  .next (
    let r := s.sealRec c
    match r.mirror with
    | some m =>
      if s.dieUp && m.todo.isEmpty && !s.owes (.mirror c) && s.ctxState c = 1 then
        let s := s.setSeal c { r with mirror := none }
        ((s.setFld (.hstCtxSealState c) F.hstCtxSealState_MDONE 1).aonAdd 88 1).sealEval c false
      else s
    | none => s)

/-- READY has stood for STEP_S seconds without a seal (R392). -/
def execStepTimerExpiry (c : Fin 64) (s : State) : Out :=
  .next (
    if s.dieUp && s.mineWritten c && s.fld (.hstCtxSeal c) F.hstCtxSeal_STEP_S ≠ 0 then
      (((s.setFld (.hstCtxSealState c) F.hstCtxSealState_OVERDUE 1).raise 257).aonAdd 368 1).log 0x232 0x0050 c.val
        (toBytes 4 (s.sealStep c).toNat)
    else s)

/-- Whether a consignment of a context has started and not completed. -/
def State.ctxRunning (s : State) (c : Fin 64) : Bool :=
  s.consigns.any fun e => e.2.ctx = c && e.2.phase == .started

/-- A write of REVERT with TRY (R398). -/
def State.revert (s : State) (c : Fin 64) (tr : BitVec 16) : State :=
  let res := if s.ctxState c ≠ 1 then 2 else if s.ctxRunning c then 1
    else if !newer16 tr (BitVec.ofNat 16 (s.sealTry c)) then 3 else 0
  let s := s.setFld (.hstCtxSealCmd c) F.hstCtxSealCmd_RESULT res
  if res ≠ 0 then s
  else
    let s := s.setFlds (.hstCtxSealState c) [(F.hstCtxSealState_READY, 0), (F.hstCtxSealState_TRY, tr.toNat)]
    let s := s.advanceAttempt c
    s.setSeal c { s.sealRec c with fromMinus := [], fromPlus := [] }

/-- A write of REMIRROR restarts a failed mirror from its first group (R396). -/
def State.remirror (s : State) (c : Fin 64) : State :=
  if s.flag (.hstCtxSealState c) F.hstCtxSealState_FAIL then
    let s := s.setFlds (.hstCtxSealState c) [(F.hstCtxSealState_FAIL, 0), (F.hstCtxSealState_FULL, 0)]
    s.mirrorStart c (s.sealed c).toNat
  else s

/-- A write of HST_CTX_SEAL_CMD. -/
def State.sealCmd (s : State) (c : Fin 64) (v : BitVec 64) : State :=
  let s := if F.hstCtxSealCmd_REVERT.get v ≠ 0 then s.revert c (BitVec.ofNat 16 (F.hstCtxSealCmd_TRY.get v)) else s
  if F.hstCtxSealCmd_REMIRROR.get v ≠ 0 then s.remirror c else s

def execRevert (c : Fin 64) (tr : BitVec 16) (s : State) : Out := .next (if s.dieUp then s.revert c tr else s)
def execRemirror (c : Fin 64) (s : State) : Out := .next (if s.dieUp then s.remirror c else s)

end Sys2Proof.Machine
end

