-- ==== Sys2Proof/Machine/HostQueue.lean ====
section
/-!
DEFINITION. Queue pairs and consignments of the host (R298 to R314, R382, R383): acceptance, completion, abort, and the
copies of the host DMA engine.
-/
namespace Sys2Proof.Machine

/-! ### The host link (R298 to R301, R408) -/

/-- Bytes received from, or sent to, the host, counted in units of 64 B. -/
def State.hostRecv (s : State) (n : Nat) : State :=
  { s with linkRx := s.linkRx + n }.aonAdd 93 ((s.linkRx + n) / 64 - s.linkRx / 64)
def State.hostSent (s : State) (n : Nat) : State :=
  { s with linkTx := s.linkTx + n }.aonAdd 94 ((s.linkTx + n) / 64 - s.linkTx / 64)

/-- The transfers that move `len` bytes from address `a`: offset and length of each, none across a multiple of `size` bytes (R297;
log entry 110). -/
def spans (size a len : Nat) : List (Nat × Nat) :=
  (List.range (len / size + 2)).filterMap fun k =>
    let lo := size * k - a % size
    let hi := min len (size * (k + 1) - a % size)
    if lo < hi then some (lo, hi - lo) else none

/-- Write host memory, at most 512 bytes in a transfer (R297, R300). -/
def State.hostWrite (s : State) (a : Nat) (bs : List MByte) (relaxed : Bool) : State :=
  let ws := (spans 512 a bs.length).map fun p => HostMsg.write (a + p.1) ((bs.drop p.1).take p.2) relaxed
  { s with hostOut := s.hostOut ++ ws }.hostSent bs.length

/-- Read host memory, at most 4,096 bytes in a request (R297). -/
def State.hostRead (s : State) (a len : Nat) : State :=
  let rs := (spans 4096 a len).map fun p => HostMsg.read (a + p.1) p.2
  { s with hostOut := s.hostOut ++ rs }

/-- Bytes without a poison mark. -/
def plain (bs : List Byte) : List MByte := bs.map fun b => (b, false)

/-- Data from the host arrives: it is counted, and poison in it shows in the function's Advanced Error Reporting, as a Poisoned TLP
(R192, R297, R408; log entry 50). -/
def State.hostData (s : State) (bs : List MByte) : State :=
  let s := s.hostRecv bs.length
  if bs.any (·.2) then { s with aer := s.aer ||| 0x1000 } else s

/-- The answers to a read of the host, at most 512 bytes in each (R297). -/
def replies (bs : List MByte) : List HostMsg :=
  if bs.isEmpty then [HostMsg.reply []] else (spans 512 0 bs.length).map fun p => HostMsg.reply ((bs.drop p.1).take p.2)

/-- The answer to a read of the host. -/
def State.hostReply (s : State) (bs : List MByte) : State := { s with hostOut := s.hostOut ++ replies bs }.hostSent bs.length

/-- A register command of the host: 8 bytes that it sends (R408). -/
def State.hostReg (s : State) (f : State → State) : State := if s.dieUp then f (s.hostRecv 8) else s

/-- A host access through BAR2, at an offset of the window that WIN names (R298, R178, R190, R192). A read is answered with as
many bytes as it asks for. -/
def execBar2Access (off : BitVec 36) (write : Bool) (len : Nat) (data : List MByte) (s : State) : Out :=
  .next (
    if !s.dieUp then s
    else
      let base := s.fld .hstBar2Win F.hstBar2Win_WIN * 2 ^ 36
      let as := (List.range len).map fun k => base + (off.toNat + k) % 2 ^ 36
      if write then
        let bs := (List.range len).map fun i => data.getD i (0, false)
        ((s.hostData bs).writeGuarded (as.zip bs)).countRsvd as
      else
        let (s, bs) := s.readMem as
        s.hostReply bs)

/-! ### Queue pairs (R306 to R309) -/

def State.qpEnabled (s : State) (q : Fin 256) : Bool := s.flag (.hstQpCtrl q) F.hstQpCtrl_ENABLE
def State.qpDraining (s : State) (q : Fin 256) : Bool := s.flag (.hstQpStatus q) F.hstQpStatus_DRAINING
def State.qpCtx (s : State) (q : Fin 256) : Fin 64 := Fin.ofNat 64 (s.fld (.hstQpCtrl q) F.hstQpCtrl_CONTEXT)
def State.qpAccepted (s : State) (q : Fin 256) : Nat := s.fld (.hstQpStatus q) F.hstQpStatus_ACCEPTED
def State.qpCompleted (s : State) (q : Fin 256) : Nat := s.fld (.hstQpStatus q) F.hstQpStatus_COMPLETED
def State.qpFetchErr (s : State) (q : Fin 256) : Bool := s.flag (.hstQpStatus q) F.hstQpStatus_FETCH_ERR
def State.qpStopped (s : State) (q : Fin 256) : Bool := s.flag (.hstQpStatus q) F.hstQpStatus_STOPPED

/-- The accepted consignments of a queue pair whose completions have not been posted, in acceptance order. -/
def State.qpConsigns (s : State) (q : Fin 256) : List (Nat × Consign) := s.consigns.filter fun e => e.2.qp = q

/-- The accepted consignment of a queue pair at an SQ index. -/
def State.findConsign (s : State) (q : Fin 256) (i : BitVec 16) : Option (Nat × Consign) :=
  s.consigns.find? fun e => e.2.qp = q && e.2.index = i

/-- A failed PCIe access of a queue pair (R301, R306). -/
def State.fetchErr (s : State) (q : Fin 256) : State := (s.setFld (.hstQpStatus q) F.hstQpStatus_FETCH_ERR 1).raise 259

/-- A write of HST_QP_CTRL that turns ENABLE on (R306). It begins the count and the age of unsignalled completions anew (DESIGN CHOICE, log
entry 136). -/
def State.qpEnable (s : State) (q : Fin 256) (v : BitVec 64) : State :=
  let lg := fun f : Fld => decide (4 ≤ f.get v) && decide (f.get v ≤ 12)
  let c := Fin.ofNat 64 (F.hstQpCtrl_CONTEXT.get v)
  if s.qpEnabled q || s.qpDraining q || s.ctxState c ≠ 1 || !lg F.hstQpCtrl_SQ_LOG2 || !lg F.hstQpCtrl_CQ_LOG2 then s
  else
    let s := s.regWrite (.hstQpCtrl q) (v ||| 1)
    let s := s.setFlds (.hstQpStatus q) [(F.hstQpStatus_ACCEPTED, 0), (F.hstQpStatus_COMPLETED, 0)]
    let s := { s with unsignalled := AMap.set q 0 s.unsignalled }
    (s.setFld (.hstQpSqTail q) F.hstQpSqTail_INDEX 0).setFld (.hstQpCqHead q) F.hstQpCqHead_INDEX 0

/-- ENABLE is cleared: what has not started is returned, and DRAINING reads 1 until the last completion is posted (R306). -/
def State.qpClose (s : State) (q : Fin 256) : State :=
  let s := s.setFld (.hstQpCtrl q) F.hstQpCtrl_ENABLE 0
  let s := s.returnWaiting (fun c => c.qp = q) 3
  s.setFld (.hstQpStatus q) F.hstQpStatus_DRAINING (if (s.qpConsigns q).isEmpty then 0 else 1)

/-- A write of HST_QP_CTRL with ENABLE = 0. While the queue pair is neither enabled nor draining it sets the other fields. -/
def State.qpDisable (s : State) (q : Fin 256) (v : BitVec 64) : State :=
  if s.qpEnabled q then s.qpClose q
  else if s.qpDraining q then s
  else s.regWrite (.hstQpCtrl q) (v &&& ~~~(1 : BitVec 64))

/-- A write of HST_QP_CTRL. -/
def State.qpCtrlWrite (s : State) (q : Fin 256) (v : BitVec 64) : State :=
  if F.hstQpCtrl_ENABLE.get v ≠ 0 then s.qpEnable q v else s.qpDisable q v

/-- A write of a ring's or the accept word's address, which stands only while ENABLE and DRAINING are both 0 (R306). -/
def State.qpBaseWrite (s : State) (q : Fin 256) (r : Reg) (v : BitVec 64) : State :=
  if s.qpEnabled q || s.qpDraining q then s else s.regWrite r v

/-- A write of SQ_TAIL; the command processor fetches the new entries, and `ok` tells whether its read succeeds (R306,
R308). -/
def State.sqTailWrite (s : State) (q : Fin 256) (i : Nat) (ok : PcieOk) : State :=
  if !s.qpEnabled q then s
  else
    let s := s.setFld (.hstQpSqTail q) F.hstQpSqTail_INDEX i
    if ok || s.qpAccepted q = s.fld (.hstQpSqTail q) F.hstQpSqTail_INDEX then s else s.fetchErr q

/-- A write of CQ_HEAD (R306, R312). -/
def State.cqHeadWrite (s : State) (q : Fin 256) (i : Nat) : State :=
  if s.qpEnabled q || s.qpDraining q then s.setFld (.hstQpCqHead q) F.hstQpCqHead_INDEX i else s

def execQpEnable (q : Fin 256) (v : BitVec 64) (s : State) : Out := .next (s.hostReg fun s => s.qpEnable q v)
def execQpDisable (q : Fin 256) (v : BitVec 64) (s : State) : Out := .next (s.hostReg fun s => s.qpDisable q v)
def execSqTailWrite (q : Fin 256) (i : BitVec 16) (ok : PcieOk) (s : State) : Out :=
  .next (s.hostReg fun s => s.sqTailWrite q i.toNat ok)
def execCqHeadWrite (q : Fin 256) (i : BitVec 16) (s : State) : Out :=
  .next (s.hostReg fun s => s.cqHeadWrite q i.toNat)
def execStoppedClear (q : Fin 256) (s : State) : Out :=
  .next (s.hostReg fun s => s.setFld (.hstQpStatus q) F.hstQpStatus_STOPPED 0)
def execFetchErrClear (q : Fin 256) (s : State) : Out :=
  .next (s.hostReg fun s => s.setFld (.hstQpStatus q) F.hstQpStatus_FETCH_ERR 0)

/-- Whether the command processor may accept the next entry of a queue pair (R308, R313). -/
def State.mayAccept (s : State) (q : Fin 256) : Bool :=
  s.qpEnabled q && !s.qpStopped q && !s.qpFetchErr q &&
    s.qpAccepted q ≠ s.fld (.hstQpSqTail q) F.hstQpSqTail_INDEX && decide ((s.qpConsigns q).length < 64)

/-- Bytes `off` to `off + n - 1` of an SQ entry. -/
def entryNat (e : BitVec 512) (off n : Nat) : Nat := bitsOf e.toNat (8 * off) (8 * n)

/-- The first case of R309: an SQ entry that is returned for its form. -/
def badEntry (e : BitVec 512) : Bool :=
  let op := entryNat e 0 1
  let len := entryNat e 0x18 8
  decide (3 < op) || decide (entryNat e 1 1 / 4 ≠ 0) || decide (entryNat e 2 2 ≠ 0) || decide (entryNat e 0x20 32 ≠ 0) ||
    (if op ≤ 1 then decide (len ≠ 0) else decide (len = 0) || decide (2 ^ 40 < len))

/-- A consignment as its SQ entry gives it (R307). -/
def Consign.ofEntry (q : Fin 256) (c : Fin 64) (i : Nat) (e : BitVec 512) : Consign :=
  { qp := q, ctx := c, index := BitVec.ofNat 16 i, opcode := entryNat e 0 1, flags := entryNat e 1 1, cid := entryNat e 4 4,
    addrA := entryNat e 8 8, addrB := entryNat e 0x10 8, length := entryNat e 0x18 8 }

/-- The registers of a context that are sampled at its first accepted consignment (R24, R51, R119, R393). -/
def State.firstSample (s : State) (c : Fin 64) : State :=
  if c ∈ s.sampled then s
  else
    let s := s.setFld (.hstCtxSealState c) F.hstCtxSealState_MIRRORED_STEP (s.fld (.stlUpdSealed c) F.stlUpdSealed_SEALED_STEP)
    { s with sampled := c :: s.sampled }

/-- The host bus address of the SQ entry of index `i` (R306). -/
def State.sqSlot (s : State) (q : Fin 256) (i : Nat) : Nat :=
  s.fld (.hstQpSqBase q) F.hstQpSqBase_ADDR * 64 + 64 * (i % 2 ^ s.fld (.hstQpCtrl q) F.hstQpCtrl_SQ_LOG2)

/-- The SQ entry is read and accepted, and the accept word written (R306, R308, R309). `ok` tells whether the accesses succeed. -/
def execSqEntryAccept (q : Fin 256) (e : BitVec 512) (ok : PcieOk) (s : State) : Out :=
  .next (
    if !s.dieUp || !s.mayAccept q then s
    else if !ok then s.fetchErr q
    else
      let i := s.qpAccepted q
      let c := s.qpCtx q
      let s := s.setFld (.hstQpStatus q) F.hstQpStatus_ACCEPTED ((i + 1) % 2 ^ 16)
      let s := s.hostRead (s.sqSlot q i) 64
      let s := (s.hostRecv 64).hostWrite (s.fld (.hstQpAccAddr q) F.hstQpAccAddr_ADDR * 8)
        (plain (toBytes 8 ((i + 1) % 2 ^ 16))) false
      let id := s.nextConsign
      let x := Consign.ofEntry q c i e
      let s := ({ s with nextConsign := id + 1 }.firstSample c).setConsign id x
      if badEntry e then s.returnUnstarted id { x with malformed := true } 1 else s)

/-! ### Starting and ending (R309, R310, R312, R384) -/

/-- Whether a consignment may start: its context is ACTIVE and allowed by HST_SOLO, no earlier one of its queue pair still
waits, and, where it must come after them, all of them are final. -/
def State.mayStartConsign (s : State) (id : Nat) (c : Consign) : Bool :=
  let earlier := (s.qpConsigns c.qp).filter fun e => e.1 < id
  s.dieUp && c.phase == .waiting && s.ctxState c.ctx = 1 &&
    (!s.flag .hstSolo F.hstSolo_EN || s.fld .hstSolo F.hstSolo_CONTEXT = c.ctx.val) &&
    (earlier.all fun e => e.2.phase != .waiting) &&
    (!(bitOf c.flags 0 || c.opcode = 0) || earlier.all fun e => e.2.phase == .final)

/-- A NOP completes (R309). -/
def execNopConsignment (q : Fin 256) (i : BitVec 16) (s : State) : Out :=
  .next (
    match s.findConsign q i with
    | some (id, c) =>
      if c.opcode = 0 && s.mayStartConsign id c then (s.finalise id c).readyIfNone c.ctx else s
    | none => s)

/-- Context virtual addresses of a copy. -/
def Consign.range (c : Consign) : List Nat := (List.range c.length).map fun k => (c.addrB + k) % 2 ^ 48

/-- The bytes of a copy that lie before its boundary number `k` of 64 bytes, and how many such units it touches. -/
def DmaCopy.upTo (d : DmaCopy) (k : Nat) : Nat := min d.bytes.length (64 * k - d.start % 64)
def DmaCopy.units (d : DmaCopy) : Nat := (d.start % 64 + d.bytes.length + 63) / 64

/-- Whether a copy has written its last byte, which is its consignment's retire point (R314). -/
def DmaCopy.moved (d : DmaCopy) : Bool := decide (d.bytes.length ≤ d.done)

/-- Move the bytes of a copy up to the first `n` (R192, R300, R310). -/
def State.dmaMove (s : State) (d : DmaCopy) (n : Nat) : State × DmaCopy :=
  let part := (d.bytes.take n).drop d.done
  let d' := { d with done := max d.done n }
  if part.isEmpty then (s, d')
  else if d.out then
    let (s, _) := s.readMem (part.filterMap (·.1))
    (s.hostWrite (d.host + d.done) (part.map fun b => match b.1 with | some a => s.peek a | none => (0, false)) true, d')
  else ((s.hostData (part.map (·.2))).writeMem (part.filterMap fun b => b.1.map fun a => (a, b.2)), d')

/-- A copy goes on to one of its 64-byte boundaries, which Config names (R379; log entry 104); where that is its end, its consignment has
passed its retire point (R314). -/
def State.dmaSome (s : State) (d : DmaCopy) : State × DmaCopy :=
  let k := (d.start % 64 + d.done) / 64
  let (t, d') := { s with raceNo := s.raceNo + 1 }.dmaMove d (d.upTo (k + Config.dmaUnits s.raceNo % (d.units - k + 1)))
  let cs : AMap Nat Consign := t.consigns.map fun e =>
    if e.1 = d.id && d'.moved && e.2.retiredAt.isNone then (e.1, { e.2 with retiredAt := some t.frankNs }) else e
  ({ t with consigns := cs }, d')

/-- A copy of the host DMA engine starts: its pages are translated, and it moves as far as Config says (R183, R310). -/
def State.dmaStart (s : State) (id : Nat) (c : Consign) (data : List MByte) : State :=
  let out := c.opcode = 3
  let s := s.setConsign id { c with phase := .started, startedAt := s.stampNow }
  let (s, ps) := s.xlatAll c.ctx c.range (!out) false 0x84
  let s := if out then s else s.hostRead c.addrA c.length
  let (s, d) := s.dmaSome { id := id, out := out, host := c.addrA, start := c.addrB,
                            bytes := ps.zipIdx.map fun (p, k) => (p, data.getD k (0, false)) }
  { s with dma := s.dma ++ [d] }

/-- The copy of a consignment on the host DMA engine, and the engine without it. -/
def State.dmaOf (s : State) (id : Nat) : Option DmaCopy := s.dma.find? fun d => d.id = id
def State.dmaDrop (s : State) (id : Nat) : State := { s with dma := s.dma.filter fun d => d.id ≠ id }

/-- The copy of a consignment stops at a 64-byte boundary (R379). -/
def State.dmaStop (s : State) (id : Nat) : State :=
  match s.dmaOf id with
  | some d => (s.dmaSome d).1.dmaDrop id
  | none => s

/-- A COPY_IN starts: the bytes `data` of host memory go to the context (R183, R192, R310). -/
def execCopyIn (q : Fin 256) (i : BitVec 16) (data : List MByte) (s : State) : Out :=
  .next (
    match s.findConsign q i with
    | some (id, c) => if c.opcode = 2 && s.mayStartConsign id c then s.dmaStart id c data else s
    | none => s)

/-- A COPY_OUT starts: the context's bytes go to host memory (R183, R192, R300, R310). -/
def execCopyOut (q : Fin 256) (i : BitVec 16) (s : State) : Out :=
  .next (
    match s.findConsign q i with
    | some (id, c) => if c.opcode = 3 && s.mayStartConsign id c then s.dmaStart id c [] else s
    | none => s)

/-- A COPY writes its last byte (R310, R314). -/
def execCopyComplete (q : Fin 256) (i : BitVec 16) (s : State) : Out :=
  .next (
    match s.findConsign q i with
    | some (id, c) =>
      match s.dmaOf id with
      | some d =>
        if s.dieUp && c.phase == .started then (((s.dmaMove d d.bytes.length).1.dmaDrop id).finalise id c).readyIfNone c.ctx else s
      | none => s
    | none => s)

/-- Whether a stall has stopped: nothing issued is left in its units. -/
def State.stallDone (s : State) (n : Fin 128) : Bool := let t := s.stall n; !t.running && t.flights.isEmpty

/-- Whether every stall of a consignment has stopped. -/
def State.stallsDone (s : State) (c : Consign) : Bool := c.stalls.all s.stallDone

/-- Whether a consignment has passed its retire point (R314): its stalls have all retired `halt`, or its copy has written its last byte. -/
def State.retired (s : State) (id : Nat) (c : Consign) : Bool :=
  c.phase == .started && c.fault.isNone && c.ended.isNone &&
    ((!c.stalls.isEmpty && (s.stallsDone c || c.retiredAt.isSome)) || (s.dmaOf id).any (·.moved))

/-- When the last `halt` of a consignment's stalls retired, where these still tell (R311, R314). -/
def State.lastHalt (s : State) (c : Consign) : BitVec 64 :=
  c.stalls.foldl (fun x n => let y := (s.stall n).lastRetire; if x ≤ y then y else x) 0

/-- Consignments that have passed their retire point note when, before their stalls are used anew. -/
def State.noteRetired (s : State) : State :=
  { s with consigns := s.consigns.map fun e =>
      if !e.2.stalls.isEmpty && s.retired e.1 e.2 && e.2.retiredAt.isNone then (e.1, { e.2 with retiredAt := some (s.lastHalt e.2) })
      else e }

/-- DETAIL of a status that a stall reports (R311). -/
def FaultInfo.detail (i : FaultInfo) : Nat :=
  i.stall.val + i.pc.toNat * 2 ^ 7 + 2 ^ 24 +
    match i.group with | some g => g.val * 2 ^ 25 + 2 ^ 27 | none => 0

/-- The status, DETAIL and LOC with which a started consignment ends (R311, R383). -/
def Consign.outcome (c : Consign) : Consign :=
  match c.ended, c.fault with
  | some st, _ => { c with status := st, detail := 0, loc := 0 }
  | none, some i => { c with status := i.status, detail := i.detail, loc := if i.status == .uncorrectable then i.loc else 0 }
  | none, none => c

/-- Whether no letter of a consignment can still be placed: each stream it gave a postmark up on is cleared or broken
(R313, R323). -/
def State.settled (s : State) (c : Consign) : Bool := c.streams.all fun k => (s.sendStream k).broken

/-- The all-gathers that the updates of a consignment started (R288). -/
def State.gathersOf (s : State) (c : Consign) : List CollOp :=
  s.collOps.filter fun o => o.kind == .gather && o.stall ∈ c.stalls

/-- Whether every write and letter of a consignment's updates has been performed (R110, R174): its tiles are marked, and its
all-gathers done. -/
def State.updatesDone (s : State) (c : Consign) : Bool :=
  (s.tiles.all fun t => t.stall ∉ c.stalls) && (s.gathersOf c).all s.opDone

/-- The stables reserved for a context, and every stall of them. -/
def State.reserved (s : State) (c : Fin 64) : List (Fin 16) := AMap.get [] c s.ctxStables
def State.ctxAllStalls (s : State) (c : Fin 64) : List (Fin 128) :=
  (List.finRange 128).filter fun n => stableOf n ∈ s.reserved c

/-- Whether every engine has quiesced: nothing of the context is left in its stalls, and no stable reset of its stables is
under way (R379, R381). -/
def State.quiesced (s : State) (c : Fin 64) : Bool :=
  ((s.ctxAllStalls c).all fun n => (s.stall n).flights.isEmpty) && s.stableResets.all fun e => e.1 ∉ s.reserved c

/-- Whether a reset of the context, if one is under way, lets its consignments become final: every engine has quiesced (R378 steps 3
and 5). -/
def State.mayFinish (s : State) (c : Fin 64) : Bool := !(s.resets.any fun e => e.1 = c) || s.quiesced c

/-- Whether every letter that the consignment's operations sent before they retired has its receipt (R174). -/
def State.receiptsIn (s : State) (c : Consign) : Bool := c.stalls.all fun n => !s.owes (.ended n)

/-- A RUN consignment, or one that was ended, becomes final once its stalls have stopped, its letters are settled and its context's
reset lets it (R123, R174, R312, R313, R378, R388). -/
def execConsignmentComplete (q : Fin 256) (i : BitVec 16) (s : State) : Out :=
  .next (
    match s.findConsign q i with
    | some (id, c) =>
      if s.dieUp && c.phase == .started && (s.dmaOf id).isNone && s.stallsDone c && s.settled c && s.updatesDone c && s.receiptsIn c &&
          s.mayFinish c.ctx then
        let at' := if s.retired id c then some (c.retiredAt.getD (s.lastHalt c)) else none
        let s := (s.gathersOf c).foldl (fun s o => s.collFinish o.id) s
        (s.finalise id { c.outcome with unresolved := !c.streams.isEmpty, retiredAt := at' }).readyIfNone c.ctx
      else s
    | none => s)

/-! ### Completions (R301, R306, R311, R312) -/

/-- The completion entry of a consignment at completion index `i`. -/
def Consign.entry (c : Consign) (i lg : Nat) : List Byte :=
  let phase := (i / 2 ^ lg + 1) % 2
  toBytes 2 c.index.toNat ++ toBytes 1 c.status.code ++ toBytes 1 (phase + if c.unresolved then 2 else 0) ++ toBytes 4 c.cid ++
    toBytes 4 c.detail ++ toBytes 2 c.faulted.length ++ toBytes 2 0 ++ toBytes 8 c.loc ++ toBytes 8 c.frankEnd.toNat

/-- Raise a queue pair's vector. -/
def State.signal (s : State) (q : Fin 256) : State := { s with unsignalled := AMap.set q 0 s.unsignalled }.raise q.val

/-- A completion enters the coalescing of its vector (R306, R307). -/
def State.coalesce (s : State) (q : Fin 256) (irq : Bool) : State :=
  let n := AMap.get 0 q s.unsignalled + 1
  let k := s.fld (.hstQpCtrl q) F.hstQpCtrl_IRQ_COUNT
  if irq || (k ≠ 0 && decide (k ≤ n)) then s.signal q else { s with unsignalled := AMap.set q n s.unsignalled }

/-- The oldest completion of a queue pair is written to its CQ, if it is final and there is room (R312). -/
def execCompletionPost (q : Fin 256) (ok : PcieOk) (s : State) : Out :=
  .next (
    match (s.qpConsigns q).head? with
    | none => s
    | some (id, c) =>
      let i := s.qpCompleted q
      let lg := s.fld (.hstQpCtrl q) F.hstQpCtrl_CQ_LOG2
      let used := (i + 2 ^ 16 - s.fld (.hstQpCqHead q) F.hstQpCqHead_INDEX) % 2 ^ 16
      if !s.dieUp || c.phase != .final || s.qpFetchErr q || decide (2 ^ lg ≤ used) then s
      else if !ok then s.fetchErr q
      else
        let s := s.hostWrite (s.fld (.hstQpCqBase q) F.hstQpCqBase_ADDR * 64 + 32 * (i % 2 ^ lg)) (plain (c.entry i lg)) false
        let s := s.setFld (.hstQpStatus q) F.hstQpStatus_COMPLETED ((i + 1) % 2 ^ 16)
        let s := { s with consigns := AMap.del id s.consigns }
        let s := if s.qpEnabled q || !(s.qpConsigns q).isEmpty then s
          else s.setFld (.hstQpStatus q) F.hstQpStatus_DRAINING 0
        s.coalesce q (bitOf c.flags 1))

/-- The oldest unsignalled completion of a queue pair reaches IRQ_DELAY_US (R306). -/
def execIrqDelayExpiry (q : Fin 256) (s : State) : Out :=
  .next (
    if s.dieUp && s.fld (.hstQpCtrl q) F.hstQpCtrl_IRQ_DELAY_US ≠ 0 && AMap.get 0 q s.unsignalled ≠ 0 then s.signal q else s)

/-! ### Abort (R314, R382, R383) -/

/-- The collective operations of some stalls end as by a watchdog (R382, R293). -/
def State.endColls (s : State) (ns : List (Fin 128)) : State :=
  (s.collOps.filter fun o => o.stall ∈ ns).foldl (fun s o =>
    match s.findOp o.id with
    | some o => s.collLost o .peerLost o.waitedOn
    | none => s) s

/-- Abort a consignment that is accepted and whose completion is not posted; the result is that of the abort (of one that
the loader has refused, ST_ALREADY_DONE, and of one returned unstarted, ST_OK: log entry 46). -/
def State.abortConsign (s : State) (id : Nat) (c : Consign) : State × Status :=
  match c.phase with
  | .waiting => (s.returnUnstarted id c 5, .ok)
  | .final => (s, if c.status == .ok || c.status == .refusedFit then .alreadyDone else .ok)
  | .started =>
    if c.ended.isSome || c.fault.isSome then (s, .ok)
    else if s.retired id c then (s, .alreadyDone)
    else
      let c := { c with ended := some .aborted }
      let s := s.setConsign id c
      if (s.dmaOf id).isSome then (((s.dmaStop id).finalise id c.outcome).readyIfNone c.ctx, .ok)
      else ((c.stalls.foldl (fun s n => s.stopStall n) s).endColls c.stalls, .ok)

/-- A write of HST_QP_ABORT: INDEX, and the abort that GO starts. -/
def State.abortWrite (s : State) (q : Fin 256) (v : BitVec 64) : State :=
  let s := s.regWrite (.hstQpAbort q) v
  if F.hstQpAbort_GO.get v = 0 then s
  else match s.findConsign q (BitVec.ofNat 16 (F.hstQpAbort_INDEX.get v)) with
    | none => s
    | some (id, c) =>
      let (s, st) := s.abortConsign id c
      s.setFld (.hstQpAbort q) F.hstQpAbort_RESULT st.code

def execAbort (q : Fin 256) (i : BitVec 16) (s : State) : Out :=
  .next (s.hostReg fun s => s.abortWrite q (pack [(F.hstQpAbort_INDEX, i.toNat), (F.hstQpAbort_GO, 1)]))

end Sys2Proof.Machine
end

