-- ==== Sys2Proof/Machine/Update.lean ====
section
/-!
DEFINITION. The parameter update: `upd`, `updf`, their waits, and tile completion (R93 to R117).
-/
namespace Sys2Proof.Machine

/-! ### Addresses of a group (R99, R102, R103) -/

/-- The bank of a step. -/
def bankOf (b : Nat × Nat) (step : Nat) : Nat := if step % 2 = 0 then b.1 else b.2

def align64 (n : Nat) : Nat := ceilDiv n 64 * 64

/-- Where a group's partials and marks lie. -/
structure Scratch where
  base : Nat
  h : Shard
  cols : Nat

def Scratch.mark (x : Scratch) (b J : Nat) : Nat := x.base + 0x40 + 4 * (b * x.h.nJ + J)
def Scratch.p (x : Scratch) : Nat := x.base + 0x40 + align64 (4 * x.h.nb * x.h.nJ)
def Scratch.rowPart (x : Scratch) (J k : Nat) : Nat := x.p + 4 * (J * x.h.rows + k)
def Scratch.colPart (x : Scratch) (b j : Nat) : Nat := x.p + 4 * x.h.nJ * x.h.rows + 4 * (b * x.cols + j)

/-! ### FP32 lines (R109) -/

def fOne : Nat := 0x3F800000
/-- 2^-126. -/
def fFloor : Nat := 0x00800000

/-- A sum from +0 in the order given. -/
def f32Sum (xs : List Nat) : Nat := xs.foldl f32Add 0

/-- A BF16 or FP16 code widened to FP32; the widening is exact. -/
def widen (f : Fmt) (x : Nat) : Nat := rne32 (decodeElem f x)

/-- Element `i` of a list of 16-bit or 32-bit values read from memory, with its poison. -/
def memEl (w : Nat) (bs : List MByte) (i : Nat) : Nat × Bool :=
  let b := (bs.drop (w * i)).take w
  (ofBytes (b.map (·.1)), b.any (·.2))

/-- The group's format of weights and first moment. -/
def GroupEntry.fmt (e : GroupEntry) : Fmt := if flagFp16 e.flags then .f16 else .bf16

/-- A stochastic store (R48 to R50): the canonical NaN where a poisoned word enters. -/
def srStore (f : Fmt) (key stream index : Nat) (x : Nat) (bad : Bool) : Conv :=
  if bad then { bits := canonNan f }
  else match floatSpec f with
    | some t => storeSr t x (srBits key stream index)
    | none => { bits := 0 }

/-! ### The checks of R104 -/

/-- What the checks give: a stale schedule, a wait for the seal, or the step to be run. -/
inductive UpdCheck where
  | stale | wait | go
  deriving DecidableEq, Repr

/-- The checks of R104, in their order, and no other: an S of 0xFFFF_FFFF, which no step carries (R95, R98), is judged by them alone
(DESIGN CHOICE, log entry 127). -/
def updCheck (gen : Nat) (step sealed : BitVec 32) : UpdCheck :=
  if gen ≠ step.toNat || !newer32 step sealed || newer32 step (sealed + 2) then .stale
  else if step = sealed + 2 then .wait
  else .go

/-- Whether a group is frozen or not yet started in a step (R115, R117). -/
def GroupEntry.idle (e : GroupEntry) (step : BitVec 32) : Bool := flagFrozen e.flags || newer32 (BitVec.ofNat 32 e.start) step

/-- The first poisoned address among marked reads. -/
def firstPoison (as : List (Option Nat)) (bs : List MByte) : Option Nat :=
  ((as.zip bs).find? fun p => p.2.2).bind (·.1)

/-- The location of the first poisoned unit read (R311). -/
def State.ctxLoc (s : State) (c : Fin 64) (va : Nat) (source : Nat) : Nat :=
  match (s.xlatAll c [va] false false source).2 with
  | [some a] => pageLoc a
  | _ => 0

/-- A poisoned word among the table words that an instruction latches ends it without a write. -/
def Flight.poisoned (r : Flight) (loc : Nat) : Flight := { r with status := .uncorrectable, loc := loc }

/-! ### `upd` (R108, R109, R111) -/

/-- One gradient element as a value, with its poison. -/
structure Grad where
  v : FVal
  bad : Option (Nat × Bool)

/-- The arithmetic of one tile (R109): its inputs. -/
structure TileIn where
  e : GroupEntry
  M : Nat
  N : Nat
  first : Bool
  key : Nat
  i0 : Nat
  j0 : Nat
  grad : List (List Grad)
  rowStat : List (Nat × Bool)
  colStat : List (Nat × Bool)
  rmean : Nat × Bool
  w0 : List (List (Nat × Bool))
  m0 : List (List (Nat × Bool))

/-- The results: new weights, new moments, row and column partials, and whether the tile was clipped. -/
structure TileOut where
  w : List (List Conv)
  m : List (List Conv)
  rp : List Nat
  cp : List Nat
  clipped : Bool

def TileIn.run (x : TileIn) : TileOut :=
  let e := x.e
  let fM := f32OfNat x.M
  let fN := f32OfNat x.N
  let fl := f32Max (f32Mul e.eps e.eps) fFloor
  let om1 := f32Sub fOne e.beta1
  let gm := decodeFloat f32 e.gMul
  let g := x.grad.map fun r => r.map fun q => rne32 (gm.mul q.v)
  let bad := x.grad.map fun r => r.map fun q => q.bad.isSome
  let sq := g.map fun r => r.map fun a => f32Mul a a
  let rowBad := bad.map fun r => r.any id
  let colBad := (List.range x.N).map fun s => bad.any fun r => r.getD s false
  let rp := sq.map f32Sum
  let cp := (List.range x.N).map fun s => f32Sum (sq.map fun r => r.getD s 0)
  let any := rowBad.any id
  let rt := if x.first then (rp.map fun a => f32Div a fN).zip rowBad else x.rowStat.map fun p => (widen .bf16 p.1, p.2)
  let ct := if x.first then (cp.map fun a => f32Div a fM).zip colBad else x.colStat.map fun p => (widen .bf16 p.1, p.2)
  let rm := if x.first then (f32Div (f32Sum (rt.map (·.1))) fM, any) else (widen .bf16 x.rmean.1, x.rmean.2)
  let rt := rt.map fun p => (f32Max p.1 fl, p.2)
  let ct := ct.map fun p => (f32Max p.1 fl, p.2)
  let rmv := f32Max rm.1 fl
  let u : List (List (Nat × Bool)) := (g.zip (bad.zip rt)).map fun (gr, br, t) =>
    (gr.zip (br.zip ct)).map fun (x : Nat × Bool × Nat × Bool) =>
      let v := f32Div (f32Mul t.1 x.2.2.1) rmv
      (f32Div x.1 (f32Add (f32Sqrt v) e.eps), x.2.1 || t.2 || x.2.2.2 || rm.2)
  let ss := f32Sum ((u.map fun r => r.map fun p => f32Mul p.1 p.1).flatten)
  let rms := f32Sqrt (f32Div ss (f32OfNat (x.M * x.N)))
  let rv := decodeFloat f32 rms
  let cd := decodeFloat f32 e.clipD
  let clip := flagClip e.flags
  let clipped := clip && !rv.isNan && !cd.isNan && decide (0 < rv.cmp cd)
  let f := f32Div e.clipD rms
  let all := clip && u.any fun r => r.any (·.2)
  let u : List (List (Nat × Bool)) := u.map fun r => r.map fun p => (if clipped then f32Mul p.1 f else p.1, p.2 || all)
  let fmt := e.fmt
  let mom := flagMoment e.flags
  let dir : List (List (Nat × Bool)) := (u.zip (if mom && !x.first then x.m0 else u)).map fun (ur, mr) => (ur.zip mr).map fun (p, q) =>
    if mom && !x.first then (f32Add (f32Mul e.beta1 (widen fmt q.1)) (f32Mul om1 p.1), p.2 || q.2) else p
  let lam := if flagNoDecay e.flags then 0 else e.lambda
  let index := fun r s => (x.i0 + r) * e.cols + x.j0 + s
  let m := if mom then dir.zipIdx.map fun (dr, r) => dr.zipIdx.map fun (p, s) => srStore fmt x.key 1 (index r s) p.1 p.2
    else []
  let w := (dir.zip x.w0).zipIdx.map fun ((dr, wr), r) => (dr.zip wr).zipIdx.map fun ((p, q), s) =>
    let w0 := widen fmt q.1
    let w1 := f32Sub w0 (f32Mul e.eta (f32Add p.1 (f32Mul lam w0)))
    srStore fmt x.key 0 (index r s) w1 (p.2 || q.2)
  let nan := fun (p : Nat × Bool) => if p.2 then f32.canon else p.1
  { w := w, m := m, rp := (rp.zip rowBad).map nan, cp := (cp.zip colBad).map nan, clipped := clipped }

/-- The rows of 16-bit elements that lie `pitch` bytes apart from a virtual address. -/
def gridVas (va pitch rows cols : Nat) : List Nat :=
  ((List.range rows).map fun r => vaRange (va + pitch * r) (2 * cols)).flatten

/-- A grid of 16-bit elements from its bytes. -/
def gridOf (rows cols : Nat) (bs : List MByte) : List (List (Nat × Bool)) :=
  (List.range rows).map fun r => (List.range cols).map fun s => memEl 2 bs (r * cols + s)

/-- The gradient tile (R108): tG's row r, column s, with block scales along each row. -/
def State.gradTile (s : State) (n : Fin 128) (d : BitVec 128) (f : Fmt) (M N : Nat) : State × List (List Grad) :=
  let x := operandA d f false
  let as := (x.offs M N).map (x.d.addr n)
  let (s, _) := (s.countRsvd as).readGuarded as
  (s, (s.opTable n x M N).map fun r => r.map fun q => ⟨q.v, q.bad⟩)

/-- The writes of 16-bit elements at addresses, in order. -/
def writes16 (vas : List Nat) (cs : List Conv) : List (Nat × MByte) :=
  vas.zip ((cs.map fun c => (toBytes 2 c.bits).map fun b => ((b, false) : MByte)).flatten)
def writes32 (va : Nat) (xs : List Nat) : List (Nat × MByte) :=
  xs.zipIdx.flatMap fun p => (toBytes 4 p.1).zipIdx.map fun b => (va + 4 * p.2 + b.2, (b.1, false))

/-- Count the stochastic stores that saturated (R48). -/
def State.srCount (s : State) (n : Fin 128) (cs : List Conv) : State :=
  s.bump (.stlCvtOverflow n) (cs.filter (·.ovf)).length

/-- What an `upd` reads of its tile: the inputs of its arithmetic, the first poisoned word of the gradient and the first poisoned address
among the others, and the gradient's elements that are not finite. -/
structure TileRead where
  x : TileIn
  bad : Option (Nat × Bool)
  badVa : Option Nat
  nonfinite : Nat

/-- Read a tile: the gradient, then weights, moments and statistics of the last step (R108, R109). Of several poisoned words, LOC names
the first of the gradient, rows, columns, RMEAN, weights and moments (R311; DESIGN CHOICE, log entry 129). -/
def State.tileRead (s : State) (n : Fin 128) (c : Fin 64) (step g : Nat) (e : GroupEntry) (h : Shard) (I J : Nat) (desc : BitVec 128)
    (gfmt : Fmt) : State × TileRead :=
  let M := min 128 (e.rows - 128 * I)
  let N := min 128 (e.cols - 128 * J)
  let old := (step + 1) % 2
  let k0 := 128 * (I / h.L)
  let first := step = e.start
  let st := bankOf e.st old
  let (s, grad) := s.gradTile n desc gfmt M N
  let wOld := gridVas (bankOf e.w old + 2 * (128 * I * e.cols + 128 * J)) (2 * e.cols) M N
  let mOld := if flagMoment e.flags && !first then gridVas (bankOf e.m old + 2 * (k0 * e.cols + 128 * J)) (2 * e.cols) M N else []
  let rows := if first then [] else vaRange (st + 2 * k0) (2 * M)
  let cols := if first then [] else vaRange (st + 2 * (h.rows + 1 + 128 * J)) (2 * N)
  let mean := if first then [] else vaRange (st + 2 * h.rows) 2
  let (s, wb) := s.readCtx c wOld n.val
  let (s, mb) := s.readCtx c mOld n.val
  let (s, rb) := s.readCtx c rows n.val
  let (s, cb) := s.readCtx c cols n.val
  let (s, eb) := s.readCtx c mean n.val
  (s, { x :=
          { e := e, M := M, N := N, first := first, key := srKey (s.rd (.stlSrSeed c)).toNat step g, i0 := 128 * I, j0 := 128 * J,
            grad := grad, rowStat := (List.range M).map (memEl 2 rb), colStat := (List.range N).map (memEl 2 cb),
            rmean := memEl 2 eb 0, w0 := gridOf M N wb, m0 := if mOld.isEmpty then [] else gridOf M N mb }
        bad := grad.flatten.findSome? (·.bad)
        badVa := (((rows ++ cols ++ mean ++ wOld ++ mOld).zip (rb ++ cb ++ eb ++ wb ++ mb)).find? fun p => p.2.2).map (·.1)
        nonfinite := (grad.flatten.filter fun q => q.bad.isNone && (q.v.isNan || q.v == .inf false || q.v == .inf true)).length })

/-- Count a tile's events (R48, R120). -/
def State.tileCount (s : State) (n : Fin 128) (nonfinite : Nat) (o : TileOut) : State :=
  let s := s.bump (.stlUpdNonfinite n) nonfinite
  let s := s.bump (.stlUpdClipped n) (if o.clipped then 1 else 0)
  s.srCount n (o.w.flatten ++ o.m.flatten)

/-- Where the new weights of a tile begin (R102, R108). -/
def tileWeights (e : GroupEntry) (step I J : Nat) : Nat := bankOf e.w step + 2 * (128 * I * e.cols + 128 * J)

/-- What an `upd` stores of its tile, in order: weights, moments, and the partials of its rows and columns (R108, R111). -/
def tileStores (e : GroupEntry) (h : Shard) (step I J : Nat) (o : TileOut) : List (List (Nat × MByte)) :=
  let M := min 128 (e.rows - 128 * I)
  let N := min 128 (e.cols - 128 * J)
  let b := I / h.L
  let x : Scratch := ⟨e.scratch, h, e.cols⟩
  let grid := fun va (cs : List (List Conv)) => writes16 (gridVas va (2 * e.cols) M N) cs.flatten
  [grid (tileWeights e step I J) o.w] ++
    (if flagMoment e.flags then [grid (bankOf e.m step + 2 * (128 * b * e.cols + 128 * J)) o.m] else []) ++
    [writes32 (x.rowPart J (128 * b)) o.rp, writes32 (x.colPart b (128 * J)) o.cp]

/-- Write lists of bytes of a context, one after another. -/
def State.storeAll (s : State) (c : Fin 64) (source : Nat) (wss : List (List (Nat × MByte))) : State :=
  wss.foldl (fun s ws => s.writeCtx c ws source) s

/-- Apply the rule to one tile of this chip's shard (R108 to R111; log entries 97 and 98 where a word is poisoned). -/
def State.updTile (s : State) (n : Fin 128) (r : Flight) (c : Fin 64) (step g : Nat) (e : GroupEntry) (h : Shard)
    (I J : Nat) (desc : BitVec 128) (gfmt : Fmt) : State × Flight :=
  let b := I / h.L
  let x : Scratch := ⟨e.scratch, h, e.cols⟩
  let (s, i) := s.tileRead n c step g e h I J desc gfmt
  let o := i.x.run
  let s := (s.tileCount n i.nonfinite o).storeAll c n.val (tileStores e h step I J o)
  let r := { r with wrote := true, reads := [storeHome (Desc.of desc).stable, .chip], writes := [.chip] }
  let fail := i.bad.isSome || i.badVa.isSome
  let r := match i.bad, i.badVa with
    | some (off, stb), _ => r.poisoned (storeLoc stb off)
    | none, some va => r.poisoned (s.ctxLoc c va n.val)
    | none, none => r
  let key : TileKey := ⟨step, g, I, J⟩
  let tile := fun (gather : Option Nat) =>
    ({ stall := n, seq := r.seq, ctx := c, key := key, gather := gather, scratch := e.scratch, mark := x.mark b J } : TileRec)
  let (s, rec') := match s.dataGroup c with
    | some d =>
      if h.L ≤ 1 then (s, some (tile none))
      else if !s.grpUsable c d then (s.bump .cePeerLost 1, none)
      else
        let t := tile (some s.nextId)
        ((s.gatherStart n r.seq c d key e.fmt (tileWeights e step I J) e.cols i.x.M i.x.N).1, some t)
    | none => (s, some (tile none))
  let s := match rec' with
    | some t => if fail then s else { s with tiles := s.tiles ++ [{ t with pages := s.refusing.getD [] }] }
    | none => s
  (s, r)

/-- The start of an `upd`: latch, checks, and the tile (R104, R108, R117). While it waits, its accesses are those of R165. -/
def State.updStart (s : State) (n : Fin 128) (r : Flight) (sa sb : BitVec 64) (desc : BitVec 128) (gfmt : Fmt) :
    State × Flight :=
  let c := (s.stall n).context
  let step := bitsOf sa.toNat 0 32
  let g := bitsOf sa.toNat 32 12
  let I := bitsOf sb.toNat 0 24
  let J := bitsOf sb.toNat 24 24
  let (s, l) := s.latch c step g n.val
  let st := BitVec.ofNat 32 step
  match l.bad with
  | some va => (s, r.poisoned (s.ctxLoc c va n.val))
  | none =>
    match updCheck l.gen st (s.sealed c) with
    | .stale => (s.bump (.stlUpdStale n) 1, { r with status := .staleSchedule })
    | .wait => (s, { r with kind := .update (some (.seal sa sb desc gfmt)),
                            refused := s.refusing.getD [],
                            reads := [storeHome (Desc.of desc).stable, .chip], writes := [.chip] })
    | .go =>
      let s := if l.expected = 0 then s.latchReady c else s
      if l.e.idle st then (s.bump (.stlUpdSkipped n) 1, r)
      else
        let h := s.shard c g l.e.flags l.e.rows l.e.cols
        if h.owns g I && decide (J < h.nJ) then s.updTile n r c step g l.e h I J desc gfmt
        else (s.bump (.stlUpdOutside n) 1, r)

/-- The formats of a gradient (R108): the loader refuses those outside 0x0 to 0x7, and `i8`. -/
def updOk (gfmt : Fmt) : Bool := gfmt != .i8 && decide (fmtCode gfmt ≤ 7)

def execUpd (h : Hdr) (sa sb : SReg) (tg : TReg) (gfmt : Fmt) (s : State) : Out :=
  if !updOk gfmt then .refused (.loaderRefused "UPD")
  else s.issue h .vector (9, 0) .writes fun s r =>
    let t := s.stall h.stall
    s.updStart h.stall { r with kind := .update none } t.s[sa] t.s[sb] t.t[tg] gfmt

/-! ### `updf` (R112 to R114) -/

/-- Whether every tile of the shard is complete in the current attempt (R112). -/
def State.tilesDone (s : State) (c : Fin 64) (n : Fin 128) (h : Shard) (scratch : Nat) : State × Bool :=
  let (s, b) := s.readCtx c (vaRange scratch 8) n.val
  let a := s.fld (.stlUpdProgress c) F.stlUpdProgress_ATTEMPT
  (s, (memEl 4 b 0).1 = a && (memEl 4 b 1).1 = h.nb * h.nJ)

/-- New statistics from their sums (R112). -/
def foldStat (e : GroupEntry) (key stream : Nat) (first : Bool) (count : Nat) (parts : List (Nat × Bool)) (old : Nat × Bool)
    (index : Nat) : Conv × Bool :=
  let om2 := f32Sub fOne e.beta2
  let mean := f32Div (f32Sum (parts.map (·.1))) (f32OfNat count)
  let x := if first then mean else f32Add (f32Mul e.beta2 (widen .bf16 old.1)) (f32Mul om2 mean)
  let bad := parts.any (·.2) || (!first && old.2)
  (srStore .bf16 key stream index x bad, bad)

/-- What a fold reads and what it makes of it: the new statistics in the order in which they lie, those that the rounding gave, and the
first poisoned address where a poisoned word enters one (R111, R112). -/
structure FoldRead where
  out : List Conv
  stats : List Conv
  bad : Option Nat

/-- Read the partials and the last statistics of a group, and make the new ones (R112). Of several poisoned words, LOC names the first of
the row partials, column partials, row statistics and column statistics (R311; DESIGN CHOICE, log entry 129). -/
def State.foldRead (s : State) (n : Fin 128) (c : Fin 64) (step g : Nat) (e : GroupEntry) (h : Shard) : State × FoldRead :=
  let old := bankOf e.st ((step + 1) % 2)
  let first := step = e.start
  let x : Scratch := ⟨e.scratch, h, e.cols⟩
  let key := srKey (s.rd (.stlSrSeed c)).toNat step g
  let rpVas := vaRange x.p (4 * h.nJ * h.rows)
  let cpVas := vaRange (x.colPart 0 0) (4 * h.nb * e.cols)
  let rsVas := if first then [] else vaRange old (2 * h.rows)
  let csVas := if first then [] else vaRange (old + 2 * (h.rows + 1)) (2 * e.cols)
  let (s, rp) := s.readCtx c rpVas n.val
  let (s, cp) := s.readCtx c cpVas n.val
  let (s, rs) := s.readCtx c rsVas n.val
  let (s, cs) := s.readCtx c csVas n.val
  let rn := (List.range h.rows).map fun k =>
    foldStat e key 2 first e.cols ((List.range h.nJ).map fun J => memEl 4 rp (J * h.rows + k)) (memEl 2 rs k) (h.rowOf g k)
  let cn := (List.range e.cols).map fun j =>
    foldStat e key 3 first h.rows ((List.range h.nb).map fun b => memEl 4 cp (b * e.cols + j)) (memEl 2 cs j) j
  let sum := f32Sum (rn.map fun p => widen .bf16 p.1.bits)
  let rmean := if rn.any (·.2) then canonNan .bf16
    else (encodeElem .bf16 .ieee (decodeFloat f32 (f32Div sum (f32OfNat h.rows)))).bits
  let va := (((rpVas ++ cpVas ++ rsVas ++ csVas).zip (rp ++ cp ++ rs ++ cs)).find? fun p => p.2.2).map (·.1)
  (s, { out := rn.map (·.1) ++ [{ bits := rmean }] ++ cn.map (·.1), stats := rn.map (·.1) ++ cn.map (·.1),
        bad := if rn.any (·.2) || cn.any (·.2) then some (va.getD 0) else none })

/-- The statistics as a fold stores them, in the bank of its step (R111). -/
def foldStores (e : GroupEntry) (step : Nat) (out : List Conv) : List (Nat × MByte) :=
  writes16 (vaRange (bankOf e.st step) (2 * out.length)) out

/-- The fold of a group: statistics, RMEAN, FOLD_ATTEMPT and FOLDS_DONE (R111, R112, R114). -/
def State.foldGroup (s : State) (n : Fin 128) (r : Flight) (c : Fin 64) (step g expected : Nat) (e : GroupEntry) (h : Shard) :
    State × Flight :=
  let (s, i) := s.foldRead n c step g e h
  let s := (s.srCount n i.stats).writeCtx c (foldStores e step i.out) n.val
  let r := { r with kind := .update none, reads := [.chip], writes := [.chip] }
  match i.bad with
  | some va => (s, r.poisoned (s.ctxLoc c va n.val))
  | none =>
    let a := s.fld (.stlUpdProgress c) F.stlUpdProgress_ATTEMPT
    let (s, fa) := s.readCtx c (vaRange (e.scratch + 8) 4) n.val
    let q := s.sealRec c
    let s := s.setSeal c { q with folds := AMap.set g ⟨step, e.flags, e.rows, e.cols, e.w, e.m, e.st⟩ q.folds }
    if (memEl 4 fa 0).1 = a then (s, r)
    else
      let s := s.writeCtx c (writes32 (e.scratch + 8) [a]) n.val
      let done := (s.fld (.stlUpdProgress c) F.stlUpdProgress_FOLDS_DONE + 1) % 2 ^ 13
      let s := s.setFld (.stlUpdProgress c) F.stlUpdProgress_FOLDS_DONE done
      (if done = expected then s.latchReady c else s, r)

/-- The start of an `updf`: latch, checks, the wait for the shard's tiles, and the fold. -/
def State.updfStart (s : State) (n : Fin 128) (r : Flight) (sa : BitVec 64) : State × Flight :=
  let c := (s.stall n).context
  let step := bitsOf sa.toNat 0 32
  let g := bitsOf sa.toNat 32 12
  let (s, l) := s.latch c step g n.val
  let st := BitVec.ofNat 32 step
  match l.bad with
  | some va => (s, r.poisoned (s.ctxLoc c va n.val))
  | none =>
    match updCheck l.gen st (s.sealed c) with
    | .stale => (s.bump (.stlUpdStale n) 1, { r with status := .staleSchedule })
    | .wait => (s, { r with kind := .update (some (.foldSeal sa)), refused := s.refusing.getD [], reads := [.chip], writes := [.chip] })
    | .go =>
      let s := if l.expected = 0 then s.latchReady c else s
      let h := s.shard c g l.e.flags l.e.rows l.e.cols
      if l.e.idle st || !h.hasTiles then (s, r)
      else
        let (s, ok) := s.tilesDone c n h l.e.scratch
        if ok then s.foldGroup n r c step g l.expected l.e h
        else (s, { r with kind := .update (some (.tiles sa step g l.expected l.e h)), refused := s.refusing.getD [], reads := [.chip], writes := [.chip] })

def execUpdf (h : Hdr) (sa : SReg) (s : State) : Out :=
  s.issue h .vector (9, 1) .writes fun s r =>
    s.updfStart h.stall { r with kind := .update none } (s.stall h.stall).s[sa]

/-! ### The ends of the waits -/

/-- Replace a record in flight. -/
def State.setFlight (s : State) (n : Fin 128) (f : Flight) : State :=
  s.modStall n fun t => { t with flights := t.flights.map fun x => if x.seq = f.seq then f else x }

/-- An update instruction's record as it starts, with no wait and no access (R165). -/
def Flight.started (f : Flight) : Flight := { f with kind := .update none, reads := [], writes := [] }

/-- An update instruction that waited has gone on, as `f` says: where it waits no more, the run of cycles of its wait ends. -/
def State.updGoesOn (s : State) (n : Fin 128) (f : Flight) : State :=
  let s := s.setFlight n f
  if (s.stall n).updWaiting.isSome then s else s.endUpdRun n

/-- An update instruction that waited for a seal latches again and repeats its checks (R104). -/
def execUpdSealWaitEnd (n : Fin 128) (s : State) : Out :=
  .next (
    if !s.dieUp || !s.yardRuns (yardOf n) then s
    else match (s.stall n).updWaiting with
      | some (f, .seal sa sb desc gfmt) =>
        if BitVec.ofNat 32 (bitsOf sa.toNat 0 32) = s.sealed (s.stall n).context + 2 then s
        else
          let (s, f) := s.acting (updActor n f.seq) .writes fun s =>
            { s with refusing := some f.refused }.updStart n f.started sa sb desc gfmt
          s.updGoesOn n f
      | some (f, .foldSeal sa) =>
        if BitVec.ofNat 32 (bitsOf sa.toNat 0 32) = s.sealed (s.stall n).context + 2 then s
        else
          let (s, f) := s.acting (updActor n f.seq) .writes fun s =>
            { s with refusing := some f.refused }.updfStart n f.started sa
          s.updGoesOn n f
      | _ => s)

/-- The shard's tiles are complete, and a waiting `updf` folds with what it latched (R112). -/
def execUpdfTilesComplete (n : Fin 128) (s : State) : Out :=
  .next (
    if !s.dieUp || !s.yardRuns (yardOf n) then s
    else match (s.stall n).updWaiting with
      | some (f, .tiles _ step g expected e h) =>
        let c := (s.stall n).context
        let (s', f') := s.acting (updActor n f.seq) .writes fun s =>
          let (s, ok) := { s with refusing := some f.refused }.tilesDone c n h e.scratch
          if ok then
            let (s, f) := s.foldGroup n f.started c step g expected e h
            (s, some f)
          else (s, none)
        match f' with
        | some f => s'.updGoesOn n f
        | none => s
      | _ => s)

/-! ### Tile completion (R110) -/

/-- A complete tile is counted and marked in the group's scratch, unless the present attempt has it already (R110). The scratch words
are read as they stand (log entry 96). -/
def State.markTile (s : State) (t : TileRec) : State :=
  s.rescoped t.pages fun s =>
    let n := t.stall
    let a := s.fld (.stlUpdProgress t.ctx) F.stlUpdProgress_ATTEMPT
    let (s, b) := s.readCtx t.ctx (vaRange t.scratch 8) n.val
    let count := if (memEl 4 b 0).1 = a then (memEl 4 b 1).1 else 0
    let (s, m) := s.readCtx t.ctx (vaRange t.mark 4) n.val
    let again := (memEl 4 m 0).1 = a
    let s := s.writeCtx t.ctx (writes32 t.scratch [a, if again then count else (count + 1) % 2 ^ 32]) n.val
    if again then s.bump (.stlUpdRepeat n) 1 else s.writeCtx t.ctx (writes32 t.mark [a]) n.val

/-- A tile of `upd` number `seq` of stall `n` is complete: the instruction has retired, and the all-gather, if any, has
reached every replica. -/
def execTileComplete (n : Fin 128) (seq : Nat) (s : State) : Out :=
  .next (
    match s.tiles.find? fun t => t.stall = n && t.seq = seq with
    | none => s
    | some t =>
      let gone := match t.gather with
        | none => true
        | some id => (s.findOp id).any fun o => s.opDone o
      if !s.dieUp || !gone || (s.stall n).flights.any (fun f => f.seq = seq) then s
      else
        let ts : List TileRec := s.tiles.erase t
        let s := { s with tiles := ts }
        let s := match t.gather with
          | some id => s.collFinish id
          | none => s
        s.markTile t)

end Sys2Proof.Machine
end

