-- ==== Sys2Proof/Machine/Watch.lean ====
section
/-!
DEFINITION. The numerics watch of a stable (R60 to R65, R90, R134).
-/
namespace Sys2Proof.Machine

def State.watch (s : State) (t : Fin 16) : Watch := AMap.get {} t s.watches
def State.setWatch (s : State) (t : Fin 16) (w : Watch) : State := { s with watches := AMap.set t w s.watches }

/-- Whether the watch's counters, histograms and maximum stand still (R63). -/
def State.watchFrozen (s : State) (t : Fin 16) : Bool := s.flag (.stbNwCtrl t) F.stbNwCtrl_FREEZE

/-- Count in one of the watch's registers, unless FREEZE is set. -/
def State.watchBump (s : State) (t : Fin 16) (r : Reg) (n : Nat) : State := if s.watchFrozen t then s else s.bump r n

/-- An accumulator of own contributions, for its values. -/
def ownAcc (K : Nat) : Acc := { kcount := K }

/-! ### Sampling (R60, R64, R90, R134) -/

/-- The shadow operands of an instruction, if both descriptors enable them and both are BF16 or FP16 (R134). -/
def MmaInfo.shadow (i : MmaInfo) : Option (Operand × Operand) :=
  let a := Desc.of i.sa
  let b := Desc.of i.sb
  match fmtOf a.fmt, fmtOf b.fmt with
  | some fa, some fb =>
    if (Desc.of i.ta).shadowEn && (Desc.of i.tb).shadowEn && (fa == .bf16 || fa == .f16) && (fb == .bf16 || fb == .f16) then
      some (operandA i.sa fa i.tra, operandB i.sb fb i.trb)
    else none
  | _, _ => none

/-- A sample of a retired exact `mma`, under the watch's settings. -/
def State.sample (s : State) (t : Fin 16) (n : Fin 128) (i : MmaInfo) : WatchSample :=
  let as := s.opTable n (operandA i.ta i.fmt i.tra) i.m i.k
  let bs := s.opTable n (operandB i.tb i.fmt i.trb) i.n i.k
  let shadow := i.shadow.map fun (x, y) => ownSum (s.opTable n x i.m i.k) (s.opTable n y i.n i.k) i.k
  let base := fun f => signed 8 (s.fld (.stbNwCtrl t) f)
  { stall := n, acc := i.acc, m := i.m, n := i.n, own := ownSum as bs i.k, array := i.array, shadow := shadow, kcount := i.k,
    histA := as.flatten.map (·.v), histB := bs.flatten.map (·.v),
    bases := (base F.stbNwCtrl_BASE_A, base F.stbNwCtrl_BASE_B, base F.stbNwCtrl_BASE_C),
    overThresh := s.fld (.stbNwCtrl t) F.stbNwCtrl_OVER_THRESH }

/-- The retirement of an exact `mma`: counted, and sampled where the count is a multiple of N; a sample that falls due
while another is being recomputed is skipped (R60, R64). -/
def State.watchCount (s : State) (n : Fin 128) (i : MmaInfo) : State :=
  let t := stableOf n
  let w := s.watch t
  let k := w.count + 1
  if k % 2 ^ s.fld (.stbNwCtrl t) F.stbNwCtrl_LOG2_N ≠ 0 then s.setWatch t { w with count := k }
  else match w.sample with
    | some _ => (s.setWatch t { w with count := k }).watchBump t (.stbNwSkipped t) 1
    | none => s.setWatch t { count := k, sample := some (s.sample t n i) }

/-- The format into which a sample's sums are rounded is settled: that of the next `mmr` of the accumulator, or BF16 where
the accumulator becomes empty or is saved first (R90). -/
def State.watchSettle (s : State) (n : Fin 128) (d : Option (Fin 2 × Fmt × OvMode × Option Kind)) : State :=
  match d with
  | none => s
  | some (acc, f) =>
    let t := stableOf n
    let w := s.watch t
    match w.sample with
    | some x =>
      if x.stall = n && x.acc = acc && x.dest.isNone then s.setWatch t { w with sample := some { x with dest := some f } } else s
    | none => s

/-! ### Recomputing (R61, R62) -/

/-- A list cut into pieces of 32, the last shorter where the length is no multiple. -/
def chunks32 : Nat → List α → List (List α)
  | 0, _ => []
  | _, [] => []
  | k + 1, l => l.take 32 :: chunks32 k (l.drop 32)

/-- One row of sums rounded into a format: each element's code, with its block's scale code. -/
def roundRow (f : Fmt) (mode : OvMode) (kind : Option Kind) (vs : List (Bool × FVal)) : List (Nat × Nat) :=
  if isMx f then
    ((chunks32 vs.length vs).map fun b =>
      let r := mmrBlock f mode (kind.getD .w) 0 b
      r.2.map fun c => (c.bits, r.1)).flatten
  else vs.map fun p => ((mmrElem f mode 0 p.1 p.2).bits, 0)

/-- The rounded elements of M×N sums, row by row. -/
def roundGrid (f : Fmt) (mode : OvMode) (kind : Option Kind) (K : Nat) (rows : List (List Elem)) : List (List (Nat × Nat)) :=
  rows.map fun r => roundRow f mode kind (r.map fun e => (e.poison, (ownAcc K).value e))

/-- The value of a rounded element. -/
def roundedValue (f : Fmt) (p : Nat × Nat) : FVal := if isMx f then mxValue f p.2 p.1 else decodeElem f p.1

/-- The exponent of one ulp of a format at a value's magnitude; for a block format at the block's scale. -/
def ulpExp (f : Fmt) (scale : Nat) (v : FVal) : Int :=
  let x : Int := if isMx f then (scale : Int) - 127 else 0
  match floatSpec f with
  | some sp => (match v.exp2 with
    | some e => max sp.qmin (e - x - sp.mb)
    | none => sp.qmin) + x
  | none => if isMx f then x - 6 else 0

/-- The disagreement of an output and a shadow value, in units of 1/16 ulp. `i` numbers the element compared. -/
def disagreement (f : Fmt) (i : Nat) (out : Nat × Nat) (sh : FVal) : Nat :=
  match (roundedValue f out).add sh.negate, sh with
  | .fin _ m e, .fin _ _ _ =>
    let q := ulpExp f out.2 sh
    let d := e - q + 4
    if 0 ≤ d then m * 2 ^ d.toNat
    else
      let k := 2 ^ (-d).toNat
      m / k + if m % k ≠ 0 && Config.nwRound i then 1 else 0
  | _, _ => Config.nwNonfinite i

/-- The bin of a value in a histogram with a base exponent (R62). -/
def histBin (base : Int) (v : FVal) : Nat :=
  match v with
  | .nan => 63
  | .inf _ => 63
  | v => match v.exp2 with
    | none => 0
    | some e => if e < base then 1 else if base + 59 < e then 62 else (e - base + 2).toNat

/-- Add values to the bins of a histogram, two bins a register, saturating (R63). -/
def State.histAdd (s : State) (r : Fin 32 → Reg) (base : Int) (vs : List FVal) : State :=
  let bins := vs.map (histBin base)
  (List.finRange 32).foldl (fun s i =>
    let a := (bins.filter (· = 2 * i.val)).length
    let b := (bins.filter (· = 2 * i.val + 1)).length
    if a + b = 0 then s
    else
      let v := (s.rd (r i)).toNat
      s.wr (r i) (BitVec.ofNat 64 (satAdd (2 ^ 32 - 1) (v % 2 ^ 32) a + satAdd (2 ^ 32 - 1) (v / 2 ^ 32) b * 2 ^ 32))) s

/-- The own-operand path: each element that differs is a mismatch, and the first is recorded. The record's count of elements is one
byte, and shows more than 255 as 255 (R413; DESIGN CHOICE, log entry 93). -/
def State.watchOwn (s : State) (t : Fin 16) (x : WatchSample) (own out : List (List (Nat × Nat))) : State :=
  let diff := ((List.range x.m).map fun i => (List.range x.n).map fun j => (i, j)).flatten.filter fun p =>
    (own.getD p.1 []).getD p.2 (0, 0) ≠ (out.getD p.1 []).getD p.2 (0, 0)
  match diff with
  | [] => s
  | p :: _ =>
    (s.watchBump t (.stbNwMismatch t) diff.length).log ⟨0x200 + t.val, by omega⟩ 0x0011 (s.stall x.stall).context
      (toBytes 1 x.stall.val ++ toBytes 1 p.1 ++ toBytes 1 p.2 ++ toBytes 1 (min 255 diff.length))

/-- The shadow path: the disagreement of every element is summed, its largest kept, and those over the threshold counted. -/
def State.watchShadow (s : State) (t : Fin 16) (x : WatchSample) (f : Fmt) (out : List (Nat × Nat)) (sh : List FVal) : State :=
  let base := (s.watch t).count * 16384
  let ds := (out.zip sh).zipIdx.map fun (p, i) => disagreement f (base + i) p.1 p.2
  let top := ds.foldl max 0
  if s.watchFrozen t then s
  else
    let s := s.setFld (.stbNwUlpSum t) F.COUNT (satAdd (2 ^ 48 - 1) (s.fld (.stbNwUlpSum t) F.COUNT) ds.sum)
    let s := s.bump (.stbNwUlpElems t) ds.length
    let s := s.bump (.stbNwUlpOver t) (ds.filter fun d => x.overThresh < d).length
    if s.fld (.stbNwUlpMax t) F.stbNwUlpMax_ULP < min 0xFFFF top then
      s.setFlds (.stbNwUlpMax t) [(F.stbNwUlpMax_ULP, min 0xFFFF top), (F.stbNwUlpMax_STALL, x.stall.val)]
    else s

/-- The watch finishes recomputing a sample whose destination format is settled (R61, R62, R64). It rounds in the overflow mode of
the `mmr` that settles the format, and in the IEEE mode into BF16, for the shadow and where no `mmr` follows (DESIGN CHOICE, log
entry 92). -/
def execNwSampleComplete (t : Fin 16) (s : State) : Host.Outcome State Fault Refusal :=
  .next (
    let w := s.watch t
    match w.sample with
    | none => s
    | some x =>
      match x.dest with
      | none => s
      | some (f, mode, kind) =>
        if !s.dieUp then s
        else
          let s := s.setWatch t { w with sample := none }
          let out := roundGrid f mode kind x.kcount x.array
          let s := s.watchBump t (.stbNwSamples t) 1
          let s := match x.shadow with
            | some sh =>
              s.watchShadow t x f out.flatten ((roundGrid .bf16 .ieee none x.kcount sh).flatten.map (roundedValue .bf16))
            | none => s.watchOwn t x (roundGrid f mode kind x.kcount x.own) out
          if s.watchFrozen t then s
          else
            let s := s.histAdd (.stbNwHistA t) x.bases.1 x.histA
            let s := s.histAdd (.stbNwHistB t) x.bases.2.1 x.histB
            s.histAdd (.stbNwHistC t) x.bases.2.2 (out.flatten.map (roundedValue f)))

end Sys2Proof.Machine
end

