-- ==== Sys2Proof/Machine/Loader.lean ====
section
/-!
DEFINITION. The loader and the start of a RUN consignment (R122, R123, R148 to R152, R310, R386).
-/
namespace Sys2Proof.Machine

/-! ### CRC (R149, R237, R238) -/

/-- One bit of a reflected CRC-32 with generator `poly`. -/
def crcBit (poly c : Nat) : Nat := if c % 2 = 1 then c / 2 ^^^ poly else c / 2

/-- One byte of a reflected CRC-32. -/
def crcByte (poly c : Nat) (b : Byte) : Nat :=
  (List.range 8).foldl (fun c _ => crcBit poly c) (c ^^^ b.toNat)

/-- A reflected CRC-32 of a list of bytes, its register starting with all ones and its result inverted. -/
def crc32 (poly : Nat) (bs : List Byte) : Nat := (bs.foldl (crcByte poly) (2 ^ 32 - 1)) ^^^ (2 ^ 32 - 1)

/-- The IEEE 802.3 polynomial, bit-reversed (R149). -/
def crcIeee : Nat := 0xEDB88320

/-! ### The image (R149) -/

/-- Fields of an image header. -/
structure ImgHeader where
  sections : Nat
  imageBytes : Nat
  crc : Nat
  programs : Nat
  stalls : Nat
  tallies : Nat
  groups : Nat
  slotLog2 : Nat
  queuePairs : Nat
  paramGroups : Nat
  stallBytes : Nat
  stableBytes : Nat
  deriving DecidableEq, Repr

def ImgHeader.of (b : List Byte) : ImgHeader :=
  { sections := natAt b 6 2, imageBytes := natAt b 8 4, crc := natAt b 0xC 4, programs := natAt b 0x10 2,
    stalls := natAt b 0x12 2, tallies := natAt b 0x14 1, groups := natAt b 0x15 1, slotLog2 := natAt b 0x16 1,
    queuePairs := natAt b 0x18 2, paramGroups := natAt b 0x1A 2, stallBytes := natAt b 0x1C 4, stableBytes := natAt b 0x20 4 }

/-- One entry of the section table. -/
structure Sect where
  type : Nat
  index : Nat
  file : Nat
  bytes : Nat
  load : Nat
  deriving DecidableEq, Repr

def Sect.of (b : List Byte) (i : Nat) : Sect :=
  let o := 0x100 + 32 * i
  { type := natAt b o 1, index := natAt b (o + 1) 1, file := natAt b (o + 4) 4, bytes := natAt b (o + 8) 4,
    load := natAt b (o + 12) 4 }

/-- Whether a range of an image's bytes is zero. -/
def zeros (b : List Byte) (off n : Nat) : Bool := (bytesAt b off n).all fun x => x = 0

/-- Reason 0x01, the header (R150). -/
def headerOk (b : List Byte) : Bool :=
  let h := ImgHeader.of b
  decide (natAt b 0 4 = 0x4C484346) && decide (natAt b 4 2 = 1) && decide (1 ≤ h.sections) && decide (h.sections ≤ 64) &&
    decide (h.imageBytes % 64 = 0) && decide (0x100 + 32 * h.sections ≤ h.imageBytes) && decide (1 ≤ h.programs) &&
    decide (h.programs ≤ 16) && decide (8 ≤ h.stalls) && decide (h.stalls ≤ 128) && decide (h.stalls % 8 = 0) &&
    decide (h.groups < 16) && (decide (h.slotLog2 ≤ 12) || decide (h.slotLog2 = 0xFF)) && zeros b 0x17 1 &&
    decide (1 ≤ h.queuePairs) && decide (h.queuePairs ≤ 256) && zeros b 0x24 28 && zeros b (0x40 + h.stalls) (128 - h.stalls) &&
    zeros b 0xC0 64

/-- Reason 0x01, one entry of the section table (R150). -/
def sectionOk (b : List Byte) (h : ImgHeader) (i : Nat) : Bool :=
  let x := Sect.of b i
  let o := 0x100 + 32 * i
  decide (1 ≤ x.type) && decide (x.type ≤ 4) && decide (x.index < if x.type = 3 then h.stalls / 8 else h.programs) &&
    zeros b (o + 2) 2 && decide (x.file % 64 = 0) && zeros b (o + 16) 16 &&
    (x.type ≠ 1 || (decide (x.bytes % 8 = 0) && decide (x.bytes ≤ 2 ^ 20))) && (x.type ≠ 4 || decide (x.bytes = 256)) &&
    (x.type = 4 || decide (x.load % 64 = 0))

/-- Whether two sections are for the same store and overlap in it. -/
def Sect.clash (x y : Sect) : Bool :=
  let store := fun z : Sect => z.type = 3
  x.type ≠ 4 && y.type ≠ 4 && store x == store y && x.index = y.index && x.bytes ≠ 0 && y.bytes ≠ 0 &&
    decide (x.load < y.load + y.bytes) && decide (y.load < x.load + x.bytes)

/-- Whether some earlier and later element of a list satisfy a relation. -/
def anyPair {α : Type} (r : α → α → Bool) : List α → Bool
  | [] => false
  | x :: xs => xs.any (r x) || anyPair r xs

/-- Reason 0x03: sections, STALL_MAP, and each program's sections (R150). -/
def sectionsOk (b : List Byte) (h : ImgHeader) (xs : List Sect) : Bool :=
  (xs.all fun x => decide (x.file + x.bytes ≤ h.imageBytes) &&
    (x.type = 4 || decide (x.load + x.bytes ≤ if x.type = 3 then h.stableBytes else h.stallBytes))) &&
    !anyPair Sect.clash xs &&
    ((List.range h.programs).all fun p =>
      decide ((xs.filter fun x => x.type = 1 && x.index = p).length = 1) &&
        decide ((xs.filter fun x => x.type = 4 && x.index = p).length ≤ 1)) &&
    (bytesAt b 0x40 h.stalls).all fun m => decide (m.toNat < h.programs)

/-- The 64-bit words of a section. -/
def Sect.words (x : Sect) (b : List Byte) : List Nat := (List.range (x.bytes / 8)).map fun k => natAt b (x.file + 8 * k) 8

/-- A program's code words, and its sixteen descriptors, all zero without a TDINIT section. -/
def progCode (b : List Byte) (xs : List Sect) (p : Nat) : List Nat :=
  match xs.find? fun x => x.type = 1 && x.index = p with
  | some x => x.words b
  | none => []
def progDescs (b : List Byte) (xs : List Sect) (p : Nat) : List (BitVec 128) :=
  match xs.find? fun x => x.type = 4 && x.index = p with
  | some x => (List.range 16).map fun k => BitVec.ofNat 128 (natAt b (x.file + 16 * k) 16)
  | none => List.replicate 16 0

/-! ### The instruction word (R124, R130, R131) -/

def wCls (w : Nat) : Nat := bitsOf w 0 4
def wOp (w : Nat) : Nat := bitsOf w 4 6

/-- The OP values of a class. -/
def opListed (cls op : Nat) : Bool :=
  match cls with
  | 0 => decide (op ≤ 3)
  | 1 => decide (op ≤ 0x0C) || (decide (0x10 ≤ op) && decide (op ≤ 0x12)) || (decide (0x18 ≤ op) && decide (op ≤ 0x1B))
  | 2 => decide (op ≤ 0x0A)
  | 3 => decide (op ≤ 1)
  | 4 => decide (op ≤ 0x18)
  | 5 => decide (op = 0)
  | 6 => decide (op ≤ 1)
  | 7 => decide (op = 0)
  | 8 => decide (op ≤ 2)
  | 9 => decide (op ≤ 1)
  | 10 => decide (op ≤ 4)
  | 11 => decide (op ≤ 3)
  | 12 => decide (op ≤ 5)
  | 13 => decide (op ≤ 6)
  | 14 => decide (op ≤ 2)
  | _ => false

/-- The number of low bits of a word that hold fields; every bit above is reserved or must be 0 (R130). -/
def fieldTop (cls op : Nat) : Nat :=
  match cls with
  | 1 => 36
  | 4 => 45
  | 5 => 49
  | 7 => 61
  | 8 => if op = 0 then 55 else 26
  | 9 => if op = 0 then 39 else 26
  | 10 => 48
  | 11 => 55
  | 12 => if op = 4 then 28 else if op = 5 then 27 else 64
  | 13 => if op = 6 then 42 else 38
  | 14 => 36
  | _ => 64

/-- Reason 0x04 (R130). -/
def wordOk (w : Nat) : Bool :=
  let cls := wCls w
  let op := wOp w
  opListed cls op && decide (w < 2 ^ fieldTop cls op) && (cls ≠ 0 || decide (bitsOf w 26 6 = 0)) &&
    (!(cls = 2 && op = 10) || decide (bitsOf w 31 33 ≤ 4))

/-- An unguarded instruction. -/
def unguarded (w : Nat) : Bool := decide (bitsOf w 10 4 = 0)
def isBranch (w : Nat) : Bool := wCls w = 0 && (wOp w = 1 || wOp w = 2)

/-- The target of the branch or loop at index `i`. -/
def targetOf (i w : Nat) : Int := (i : Int) + signed 32 (bitsOf w 32 32)

/-- Reason 0x05: a target outside the code section (R131). -/
def targetOk (n i w : Nat) : Bool := !isBranch w || (decide (0 ≤ targetOf i w) && decide (targetOf i w < n))

/-- Reason 0x05: the end of a code section (R131). -/
def lastOk (w : Nat) : Bool := wCls w = 0 && (wOp w = 3 || (wOp w = 1 && unguarded w))

/-! ### Descriptors that the loader can see (R151) -/

/-- What may run after the instruction at index `i`. -/
def succs (n i w : Nat) : List Nat :=
  (if isBranch w && targetOk n i w then [(targetOf i w).toNat] else []) ++
    (if wCls w = 0 && (wOp w = 1 || wOp w = 3) && unguarded w then [] else if i + 1 < n then [i + 1] else [])

/-- The descriptor that an instruction writes. -/
def writesDesc (w : Nat) : Option Nat := if wCls w = 14 && wOp w ≠ 1 then some (bitsOf w 21 4) else none

/-- For each instruction, the descriptors that some path from the entry to it may have written (none: not reached yet). -/
abbrev Flow := List (Option (List Nat))

/-- One pass of the analysis over the code. -/
def flowPass (ws : List Nat) (f : Flow) : Flow :=
  ws.zipIdx.foldl (fun f (w, i) =>
    match f.getD i none with
    | none => f
    | some inn =>
      let out := match writesDesc w with | some d => if d ∈ inn then inn else d :: inn | none => inn
      (succs ws.length i w).foldl (fun f j =>
        let old := (f.getD j none).getD []
        f.set j (some (old ++ out.filter fun d => d ∉ old))) f) f

/-- The analysis, repeated until nothing can change. -/
def flowOf (ws : List Nat) : Flow :=
  (List.range (17 * ws.length)).foldl (fun f _ => flowPass ws f)
    ((List.range ws.length).map fun i => if i = 0 then some [] else none)

/-- The format code of a descriptor at an instruction, where the loader can see it. -/
def seenFmt (f : Flow) (ds : List (BitVec 128)) (i d : Nat) : Option Nat :=
  if d ∈ (f.getD i none).getD [] then none else some (Desc.of (ds.getD d 0)).fmt

/-! ### Formats, shapes, counters, groups and spaces (R29, R42, R52, R67, R68, R108, R135, R138, R140, R150) -/

/-- The formats that a VALU operation accepts (R135). -/
def valuOk (op : Nat) (f : Fmt) : Bool :=
  isPlain f &&
    if op = 3 || op = 8 || op = 9 then isPlainFloat f
    else if op = 6 || op = 7 then isPlainFloat f || isSignedInt f
    else if 0x0F ≤ op && op ≤ 0x13 then isInt f
    else if op = 0x14 then isSignedInt f
    else if op = 0x15 then isPlainFloat f || f == .i32
    else if op = 0x18 then f == .i32 || f == .u16
    else true

/-- Reason 0x06. -/
def formatsOk (f : Flow) (ds : List (BitVec 128)) (i w : Nat) : Bool :=
  let agrees := fun m d => match seenFmt f ds i d with | some x => decide (x = m) | none => true
  match wCls w, wOp w with
  | 4, op => match fmtOf (bitsOf w 41 4) with | some x => valuOk op x | none => false
  | 5, _ => match fmtOf (bitsOf w 36 4), fmtOf (bitsOf w 40 4) with
    | some t, some x => cvtPair t x
    | _, _ => false
  | 7, _ => let m := bitsOf w 30 4; decide (m ≤ 7) && agrees m (bitsOf w 22 4) && agrees m (bitsOf w 26 4)
  | 8, 0 => let m := bitsOf w 26 4; decide (m ≤ 7) && agrees m (bitsOf w 22 4)
  | 9, 0 => let m := bitsOf w 35 4; decide (m ≤ 7) && decide (m ≠ 4)
  | _, _ => true

/-- Reason 0x07. -/
def shapeOk (w : Nat) : Bool :=
  match wCls w, wOp w with
  | 7, _ =>
    let m := bitsOf w 30 4
    if bitOf w 37 then decide (m = 0) || decide (m = 1) || decide (m = 4)
    else decide (m ≤ 4) || decide ((bitsOf w 52 9 + 1) % 32 = 0)
  | 8, 0 =>
    let mx := decide (5 ≤ bitsOf w 26 4)
    (!mx || decide ((bitsOf w 48 7 + 1) % 32 = 0)) && bitOf w 33 == mx
  | _, _ => true

/-- Reason 0x08. -/
def partOk (w : Nat) : Bool :=
  wCls w ≠ 5 ||
    match fmtOf (bitsOf w 36 4), fmtOf (bitsOf w 40 4) with
    | some t, some x => cvtPartOk t x (bitsOf w 44 2) (kindOf (bitsOf w 47 2))
    | _, _ => true

/-- Reason 0x09. -/
def countersOk (tallies w : Nat) : Bool :=
  (!bitOf w 14 || decide (bitsOf w 15 6 < tallies)) && (!(wCls w = 12 && wOp w ≤ 3) || decide (bitsOf w 21 6 < tallies)) &&
    (!(wCls w = 11 && wOp w = 0 && bitOf w 54) || decide (bitsOf w 48 6 < tallies))

/-- Reason 0x0A. -/
def groupsOk (groups w : Nat) : Bool :=
  (wCls w ≠ 13 || bitOf groups (bitsOf w 21 2)) &&
    (!(wCls w = 12 && wOp w = 4 && bitsOf w 23 3 = 3) || bitOf groups (bitsOf w 26 2))

/-- Reason 0x0B. -/
def spacesOk (w : Nat) : Bool :=
  (!(wCls w = 12 && wOp w = 4) || (decide (bitsOf w 21 2 ≠ 3) && decide (bitsOf w 23 3 ≤ 4))) &&
    (wCls w ≠ 10 || (decide (bitsOf w 36 2 ≠ 3) && decide (bitsOf w 38 2 ≠ 3))) &&
    (wCls w ≠ 11 || decide (bitsOf w 46 2 ≠ 3))

/-- A refusal: the reason, and the program and the instruction it names. -/
structure LoadRefusal where
  reason : Nat
  program : Nat := 0
  instr : Nat := 0
  deriving DecidableEq, Repr

/-- The first instruction, by program and index, that fails a check. -/
def firstRefused (reason : Nat) (cs : List (List Nat)) (ok : Nat → Nat → Nat → Bool) : Option LoadRefusal :=
  cs.zipIdx.findSome? fun (ws, p) =>
    (ws.zipIdx.find? fun (w, i) => !ok p i w).map fun (_, i) => ⟨reason, p, i⟩

/-- Reasons 0x01 to 0x0C in their order (R150). -/
def checkImage (b : List Byte) : Option LoadRefusal :=
  let h := ImgHeader.of b
  if !headerOk b || !((List.range h.sections).all (sectionOk b h)) then some ⟨0x01, 0, 0⟩
  else if crc32 crcIeee ((b.take 0xC) ++ List.replicate 4 0 ++ ((b.drop 0x10).take (h.imageBytes - 0x10))) ≠ h.crc then
    some ⟨0x02, 0, 0⟩
  else
    let xs := (List.range h.sections).map (Sect.of b)
    if !sectionsOk b h xs then some ⟨0x03, 0, 0⟩
    else
      let cs := (List.range h.programs).map (progCode b xs)
      let ds := (List.range h.programs).map (progDescs b xs)
      let fs := cs.map flowOf
      ([ firstRefused 0x04 cs fun _ _ w => wordOk w,
         (cs.zipIdx.findSome? fun (ws, p) =>
           match ws.zipIdx.find? fun (w, i) => !targetOk ws.length i w with
           | some (_, i) => some ⟨0x05, p, i⟩
           | none => if lastOk (ws.getLastD 0) then none else some ⟨0x05, p, ws.length - 1⟩),
         firstRefused 0x06 cs fun p i w => formatsOk (fs.getD p []) (ds.getD p []) i w,
         firstRefused 0x07 cs fun _ _ w => shapeOk w,
         firstRefused 0x08 cs fun _ _ w => partOk w,
         firstRefused 0x09 cs fun _ _ w => countersOk h.tallies w,
         firstRefused 0x0A cs fun _ _ w => groupsOk h.groups w,
         firstRefused 0x0B cs fun _ _ w => spacesOk w,
         (if xs.any fun x => x.type = 4 && (progDescs b xs x.index).any fun d => decide (7 < (Desc.of d).fmt) then
           some ⟨0x0C, 0, 0⟩ else none)
       ] : List (Option LoadRefusal)).findSome? id

/-! ### What the chip can supply (R150, R152, R341, R386) -/

/-- Whether a stall is fenced (R386). -/
def State.stallFenced (s : State) (n : Fin 128) : Bool :=
  bitOf (if n.val < 64 then s.rd .ptrStallFenceLo else s.rd .ptrStallFenceHi).toNat (n.val % 64)

/-- Whether a stable holds a fenced stall, so that the loader never gives it to a consignment (R386). -/
def State.stableFenced (s : State) (t : Fin 16) : Bool := (List.finRange 128).any fun n => stableOf n = t && s.stallFenced n

/-- Whether a stable is free, enabled, and without a fenced stall. -/
def State.stableFree (s : State) (t : Fin 16) : Bool :=
  !(s.ctxStables.any fun e => t ∈ e.2) && !bitOf (s.fld .ptrMemResult F.ptrMemResult_STABLE_OFF) t.val && !s.stableFenced t

/-- The stables that a context holds and that the loader may give to an image (R152, R386). -/
def State.usable (s : State) (c : Fin 64) : List (Fin 16) := (s.reserved c).filter fun t => !s.stableFenced t

/-- The stables that an image of `k` stables of a context may be given, once the context has what it needs, in ascending order
(R152). -/
def State.stablesFor (s : State) (c : Fin 64) (k : Nat) : List (Fin 16) :=
  let held := s.usable c
  let free := (List.finRange 16).filter s.stableFree
  let all := held ++ free.take (k - held.length)
  (List.finRange 16).filter fun t => t ∈ all

/-- The collective groups that contexts other than `c` hold, as a mask. -/
def State.groupsTaken (s : State) (c : Fin 64) : Nat :=
  (List.finRange 64).foldl (fun m d =>
    if d ≠ c && s.ctxState d ≠ 0 then m ||| s.fld (.hstLoadRec1 d) F.hstLoadRec1_GROUPS else m) 0

/-- The lowest free aligned range of 2^k slots (R152). -/
def State.freeSlots (s : State) (k : Nat) : Option Nat :=
  let size := 2 ^ k
  let used := (List.finRange 64).filterMap fun c =>
    let n := s.fld (.hstLoadRec1 c) F.hstLoadRec1_SLOT_COUNT
    if n = 0 then none else some (s.fld (.hstLoadRec1 c) F.hstLoadRec1_SLOT_BASE, n)
  ((List.range (4096 / size)).map (· * size)).find? fun b =>
    used.all fun u => decide (b + size ≤ u.1) || decide (u.1 + u.2 ≤ b)

/-- Reasons 0x40 to 0x45 in their order (R150). -/
def State.checkFit (s : State) (c : Fin 64) (h : ImgHeader) : Option Nat :=
  let count := s.fld (.hstLoadRec1 c) F.hstLoadRec1_SLOT_COUNT
  if (s.stablesFor c (h.stalls / 8)).length < h.stalls / 8 || 2 ^ 23 < h.stallBytes || 29360128 < h.stableBytes then some 0x40
  else if 64 < h.tallies then some 0x41
  else if h.groups &&& s.groupsTaken c ≠ 0 then some 0x42
  else if ((List.finRange 256).filter fun q => s.qpEnabled q && s.qpCtx q = c).length < h.queuePairs then some 0x43
  else if h.slotLog2 ≠ 0xFF && (if count = 0 then (s.freeSlots h.slotLog2).isNone else decide (count < 2 ^ h.slotLog2)) then
    some 0x44
  else if 4096 < h.paramGroups then some 0x45
  else none

/-- The slots of a range are owned by a context; 0 where none owns them (R146). -/
def State.ownSlots (s : State) (base n ctx : Nat) : State :=
  (List.range n).foldl (fun s k => s.setFld (.soSlot (Fin.ofNat 4096 (base + k)) 2) SlotF.context ctx) s

/-- Reserve for a context what an image needs, and clear the stores of each stable it gains (R152, R380). -/
def State.reserve (s : State) (c : Fin 64) (h : ImgHeader) : State :=
  let gained := (s.stablesFor c (h.stalls / 8)).filter fun t => t ∉ s.reserved c
  let s := gained.foldl (fun s t => s.clearStores t) s
  let set := (List.finRange 16).filter fun t => t ∈ s.reserved c ++ gained
  let s := { s with ctxStables := AMap.set c set s.ctxStables }
  let r := Reg.hstLoadRec1 c
  let s := s.setFld r F.hstLoadRec1_GROUPS (s.fld r F.hstLoadRec1_GROUPS ||| h.groups)
  if h.slotLog2 = 0xFF || s.fld r F.hstLoadRec1_SLOT_COUNT ≠ 0 then s
  else
    let base := (s.freeSlots h.slotLog2).getD 0
    (s.setFlds r [(F.hstLoadRec1_SLOT_COUNT, 2 ^ h.slotLog2), (F.hstLoadRec1_SLOT_BASE, base)]).ownSlots base (2 ^ h.slotLog2) c.val

/-! ### Loading and starting (R122, R149, R310) -/

/-- The stall of rank `r` on the given stables (R123). -/
def rankStall (ts : List (Fin 16)) (r : Nat) : Fin 128 := Fin.ofNat 128 (8 * (ts.getD (r / 8) 0).val + r % 8)

/-- Write bytes at a store offset. -/
def State.loadBytes (s : State) (base off : Nat) (bs : List Byte) : State :=
  s.writeMem (bs.zipIdx.map fun (b, i) => (base + off + i, (b, false)))

/-- The loader writes an image's sections into the stores (R149). -/
def State.writeSections (s : State) (ts : List (Fin 16)) (h : ImgHeader) (b : List Byte) (xs : List Sect) : State :=
  xs.foldl (fun s x =>
    let data := bytesAt b x.file x.bytes
    if x.type = 3 then s.loadBytes (stableBase (ts.getD x.index 0)) x.load data
    else if x.type = 4 then s
    else (List.range h.stalls).foldl (fun s r =>
      if natAt b (0x40 + r) 1 = x.index then s.loadBytes (stallBase (rankStall ts r)) x.load data else s) s) s

/-- What the loader remembers of an image. -/
def imageRec (id : ImageId) (ts : List (Fin 16)) (h : ImgHeader) (b : List Byte) (xs : List Sect) : ImageRec :=
  { id := id, stables := ts, nStalls := h.stalls, map := (bytesAt b 0x40 h.stalls).map (·.toNat),
    programs := (List.range h.programs).map fun p =>
      match xs.find? fun x => x.type = 1 && x.index = p with
      | some x => { base := x.load, bytes := x.bytes, descs := progDescs b xs p }
      | none => {} }

/-- The load record of a context (R152). -/
def State.loadRecord (s : State) (c : Fin 64) (st : Status) (f : LoadRefusal) : State :=
  s.setFlds (.hstLoadRec0 c) [(F.hstLoadRec0_STATUS, st.code), (F.hstLoadRec0_REASON, f.reason),
    (F.hstLoadRec0_PROGRAM, f.program), (F.hstLoadRec0_INSTR, f.instr)]

/-- Load an image: the checks, the reservations, the sections (R149 to R152). -/
def State.load (s : State) (c : Fin 64) (id : ImageId) (b : List Byte) : State × Option LoadRefusal :=
  let h := ImgHeader.of b
  match checkImage b with
  | some f => (s.loadRecord c .refusedFit f, some f)
  | none =>
    match s.checkFit c h with
    | some r => (s.loadRecord c .refusedFit ⟨r, 0, 0⟩, some ⟨r, 0, 0⟩)
    | none =>
      let s := s.reserve c h
      let ts := (s.usable c).take (h.stalls / 8)
      let xs := (List.range h.sections).map (Sect.of b)
      let s := s.writeSections ts h b xs
      let imgs : List ImageRec := s.images.filter fun x => !(decide (x.id.ctx = c) && decide (x.id.addr = id.addr))
      let held : AMap (Fin 16) (Option ImageId) := ts.foldl (fun m t => AMap.set t (some id) m) s.stableImg
      let s := { s with images := imageRec id ts h b xs :: imgs, stableImg := held }
      (s.loadRecord c .ok ⟨0, 0, 0⟩, none)

/-- A stall starts a program (R122). -/
def State.startProgram (s : State) (n : Fin 128) (c : Fin 64) (id rank count : Nat) (team : List (Fin 128)) (argBlock : Nat)
    (p : Program) : State :=
  let s := (s.watchSettle n (some (0, .bf16, .ieee, none))).watchSettle n (some (1, .bf16, .ieee, none))
  let regs : Vector (BitVec 64) 32 := (((Vector.replicate 32 0).set 0 (BitVec.ofNat 64 argBlock)).set 1
    (BitVec.ofNat 64 rank)).set 2 (BitVec.ofNat 64 count) |>.set 3 (s.chip.setWidth 64)
  State.racesEnd <| s.setStall n
    { s := regs, t := Vector.ofFn fun i => p.descs.getD i.val 0, running := true, context := c, rank := Fin.ofNat 128 rank,
      nStalls := count, team := team, consignment := id, codeBase := p.base, codeBytes := p.bytes,
      nextSeq := (s.stall n).nextSeq }

/-- Start an image's programs on its stables (R122, R123). -/
def State.startImage (s : State) (id : Nat) (x : Consign) (ts : List (Fin 16)) (im : ImageRec) : State :=
  let team := (List.range im.nStalls).map (rankStall ts)
  let s := s.noteRetired.setConsign id { x with phase := .started, stalls := team, startedAt := s.stampNow }
  (List.range im.nStalls).foldl (fun s r =>
    s.startProgram (rankStall ts r) x.ctx id r im.nStalls team x.addrB (im.programs.getD (im.map.getD r 0) {})) s

/-- Whether a stable has work of a started consignment (R310). -/
def State.stableBusy (s : State) (t : Fin 16) : Bool :=
  s.consigns.any fun e => e.2.phase == .started && e.2.stalls.any fun n => stableOf n = t && !s.stallDone n

/-- The image that a RUN names, if the stables it runs on hold its sections as the loader last wrote them (R310). -/
def State.loaded (s : State) (id : ImageId) : Option ImageRec :=
  (s.images.find? fun x => x.id = id).filter fun x => x.stables.all fun t => AMap.get none t s.stableImg = some id

/-- A RUN starts, once its stables are free (R310): the image's header is read, and where the stables do not hold it, the whole image,
which is loaded or refused. The two reads are one instruction's (R183). -/
def State.run (s : State) (id : Nat) (x : Consign) : State :=
  let c := x.ctx
  let at' := fun n => (List.range n).map fun k => (x.addrA + k) % 2 ^ 48
  let (s', hb) := s.readCtx c (at' 256) 0x83
  let h := ImgHeader.of (hb.map (·.1))
  let img : ImageId := ⟨c, x.addrA, h.crc⟩
  match s.loaded img with
  | some im => if im.stables.any s.stableBusy then s else s'.startImage id x im.stables im
  | none =>
    if ((s.usable c).take (h.stalls / 8)).any s.stableBusy then s
    else
      let (s', b) := s'.readCtx c (at' (max 256 h.imageBytes)) 0x83
      match s'.load c img (b.map (·.1)) with
      | (s', some f) => (s'.finalise id { x with status := .refusedFit, detail := f.reason }).readyIfNone c
      | (s', none) =>
        match s'.loaded img with
        | some im => s'.startImage id x im.stables im
        | none => s'

def execRun (q : Fin 256) (i : BitVec 16) (s : State) : Out :=
  .next (
    match s.findConsign q i with
    | none => s
    | some (id, x) => if x.opcode ≠ 1 || !s.mayStartConsign id x then s else s.scoped fun s => s.run id x)

end Sys2Proof.Machine
end

