-- ==== Sys2Proof/Machine/Contexts.lean ====
section
/-!
DEFINITION. Contexts: creation and destruction (R303, R304), context resets with their capture (R376 to R381), hangs (R373 to
R375), engine, stable and yard resets (R369 to R371), escalation by count (R385 to R387), and invalidations of cached
translations (R185).
-/
namespace Sys2Proof.Machine

/-! ### Escalation by count (R385 to R387) -/

/-- Enter one attribution to an engine. -/
def State.attribPush (s : State) (e : Nat) : State := { s with attribs := (e, s.porterMs) :: s.attribs }

/-- The attributions to an engine in the last ten minutes of porter time. -/
def State.attribCount (s : State) (e : Nat) : Nat :=
  (s.attribs.filter fun x => x.1 = e && decide (s.porterMs < x.2 + 600000)).length

/-- Fence a stall; the third fence takes the module out of service. -/
def State.fenceStall (s : State) (n : Fin 128) : State :=
  if s.stallFenced n then s
  else
    let r : Reg := if n.val < 64 then .ptrStallFenceLo else .ptrStallFenceHi
    let s := s.wr r (s.rd r ||| BitVec.ofNat 64 (2 ^ (n.val % 64)))
    let k := s.fld .ptrEscStatus F.ptrEscStatus_FENCES + 1
    let s := s.setFlds .ptrEscStatus [(F.ptrEscStatus_FENCES, k), (F.ptrEscStatus_LAST_FENCE, n.val)]
    let s := s.aonPorter 372 1
    let s : State := { s with redfish := s.redfish ++ [Redfish.fence n] }
    if 3 ≤ k then s.outOfService 1 else s

/-- Attribute an event to an engine; the third within the window fences a stall, or starts a die reset with cause COUNT. -/
def State.attribute (s : State) (e : Nat) : State :=
  let s := s.attribPush e
  if s.attribCount e < 3 then s
  else if h : e < 128 then s.fenceStall ⟨e, h⟩
  else if s.dieUp then s.dieReset 2 e
  else s

/-! ### What a context occupies -/

/-- The stalls of a context's consignments that have started and not completed. -/
def State.ctxStalls (s : State) (c : Fin 64) : List (Fin 128) :=
  let ns := ((s.consigns.filter fun e => e.2.ctx = c && e.2.phase == .started).map fun e => e.2.stalls).flatten
  (List.finRange 128).filter fun n => n ∈ ns

/-- The queue pairs of a context. -/
def State.ctxQps (s : State) (c : Fin 64) : List (Fin 256) :=
  (List.finRange 256).filter fun q => s.qpCtx q = c && (s.qpEnabled q || s.qpDraining q)

/-- The consignments that a reset of the context ends: started, not retired, and not ended before (R381, R383). -/
def State.toEnd (s : State) (c : Fin 64) : List Nat :=
  (s.consigns.filter fun e => e.2.ctx = c && e.2.phase == .started && e.2.ended.isNone && e.2.fault.isNone && !s.retired e.1 e.2).map
    (·.1)

/-! ### Capture (R376, R377) -/

/-- The queue-pair record of the capture. -/
def State.captQp (s : State) (q : Fin 256) : List Byte :=
  let open' := (s.qpConsigns q).filter fun e => e.2.phase == .started
  bytesAt (toBytes 2 q.val ++ toBytes 2 (s.qpAccepted q) ++ toBytes 2 (s.qpCompleted q) ++
    toBytes 2 (s.fld (.hstQpSqTail q) F.hstQpSqTail_INDEX) ++ toBytes 2 (s.fld (.hstQpCqHead q) F.hstQpCqHead_INDEX) ++
    toBytes 2 (match open'.head? with | some e => e.2.index.toNat | none => 0xFFFF) ++ toBytes 2 open'.length ++
    toBytes 1 ((if s.qpStopped q then 1 else 0) + if s.qpFetchErr q then 2 else 0)) 0 32

/-- The code index of the oldest unretired instruction of a unit, and the depth of its queue. -/
def Stall.oldest (t : Stall) (u : StallUnit) : Nat × Nat :=
  let fs := t.flights.filter fun f => f.unit = u
  (match fs.head? with | some f => f.pc.toNat | none => 0xFFFFFFFF, fs.length)

/-- The same of the sync unit. -/
def Stall.oldestSync (t : Stall) : Nat × Nat := if t.wait.isSome then (t.waitPc.toNat, 1) else (0xFFFFFFFF, 0)

/-- The stall record of the capture. -/
def State.captStall (s : State) (n : Fin 128) : List Byte :=
  let t := s.stall n
  let os := [t.oldest .matrix, t.oldest .vector, t.oldest .mover, t.oldestSync]
  let letters := (s.outstanding.filter fun o => match o.owner with | .flight m _ => m = n | _ => false).length
  bytesAt (toBytes 8 t.seqState.toNat ++ toBytes 8 t.syncState.toNat ++ (os.map fun o => toBytes 4 o.1).flatten ++
    (os.map fun o => toBytes 1 o.2).flatten ++ toBytes 4 letters ++ toBytes 8 (s.rd (.stlMmFault n)).toNat ++
    toBytes 8 t.lastRetire.toNat ++ toBytes 8 0 ++ (t.c.toList.map fun x => toBytes 4 x.toNat).flatten) 0 1024

/-- One outstanding operation in the capture. -/
def State.captOp (s : State) (o : CollOp) : List Byte :=
  let sent := (s.outstanding.filter fun x => x.owner = .coll o.id).length
  toBytes 8 (o.tag % 2 ^ 12 + o.kind.op % 8 * 2 ^ 12 + (if o.keyed then 2 ^ 15 else 0) + o.received % 2 ^ 16 * 2 ^ 16 +
    sent % 2 ^ 16 * 2 ^ 32)

/-- The group record of the capture. -/
def State.captGroup (s : State) (c : Fin 64) (g : Fin 4) : List Byte :=
  let ops := (s.collOps.filter fun o => o.ctx = c && o.grp = g).take 16
  bytesAt (toBytes 8 (s.grpCtrl c g).toNat ++ toBytes 8 (s.rd (.ceGrpStatus c g)).toNat ++
    toBytes 8 (s.rd (.ceGrpPm0 c g)).toNat ++ toBytes 8 (s.rd (.ceGrpPm1 c g)).toNat ++
    toBytes 8 (s.rd (.ceGrpNanrec c g)).toNat ++ toBytes 8 0 ++ (ops.map s.captOp).flatten) 0 256

/-- The copies of a context on the host DMA engine, with their consignments. -/
def State.ctxCopies (s : State) (c : Fin 64) : List (DmaCopy × Consign) :=
  s.dma.filterMap fun d => (s.consigns.find? fun e => e.1 = d.id && e.2.ctx = c).map fun e => (d, e.2)

/-- The host-DMA record of the capture. -/
def State.captDma (s : State) (c : Fin 64) : List Byte :=
  bytesAt (match (s.ctxCopies c).head? with
    | some (d, x) => toBytes 2 x.index.toNat ++ toBytes 1 x.qp.val ++ toBytes 1 (if d.out then 1 else 0) ++ toBytes 4 0 ++
        toBytes 8 d.done ++ toBytes 8 x.length
    | none => toBytes 2 0xFFFF) 0 64

/-- The parts of the capture record: each at its offset in the region. -/
def State.capture (s : State) (c : Fin 64) (cause engine : Nat) (mask : BitVec 64) : List (Nat × List Byte) :=
  let qs := s.ctxQps c
  let ns := s.ctxStalls c
  let head := bytesAt (toBytes 2 1 ++ toBytes 1 cause ++ toBytes 1 engine ++ toBytes 4 (s.sealStep c).toNat ++
    toBytes 8 s.frankNs.toNat ++ toBytes 8 mask.toNat ++ toBytes 4 (s.fld (.stlUpdProgress c) F.stlUpdProgress_ATTEMPT) ++
    toBytes 2 qs.length ++ toBytes 2 ns.length) 0 256
  [(0, head)] ++ (qs.zipIdx.map fun (q, i) => (0x100 + 32 * i, s.captQp q)) ++
    (ns.zipIdx.map fun (n, i) => (0x2400 + 1024 * i, s.captStall n)) ++
    ((List.finRange 4).map fun g => (0x22400 + 256 * g.val, s.captGroup c g)) ++ [(0x22800, s.captDma c)]

/-- Write the capture, where CAPT_PA is nonzero and no capture stands. -/
def State.takeCapture (s : State) (c : Fin 64) (cause engine : Nat) (mask : BitVec 64) : State :=
  let pa := s.fld (.hstCtxCapt c) F.hstCtxCapt_CAPT_PA
  if pa = 0 || s.flag (.hstCtxCapt c) F.hstCtxCapt_VALID then s
  else
    let s := (s.capture c cause engine mask).foldl (fun s e => s.loadBytes (pa * 4096) e.1 e.2) s
    s.setFld (.hstCtxCapt c) F.hstCtxCapt_VALID 1

/-! ### Context reset (R378 to R381) -/

/-- The bit of a context. -/
def ctxBit (c : Fin 64) : BitVec 64 := BitVec.ofNat 64 (2 ^ c.val)

/-- Issued instructions that a reset ends without effect (R379): what the data mover holds, collective operations, and update
instructions that wait. -/
def Flight.abandoned (f : Flight) : Bool :=
  f.unit == .mover || match f.kind with
    | .coll _ => true
    | .update (some _) => true
    | _ => false

/-- Whether an instruction has started, because an access has found a write of it performed, or one of a later instruction that starts
after it. -/
def State.hasBegun (s : State) (n : Fin 128) (f : Flight) : Bool :=
  (s.stall n).flights.any fun g =>
    s.underway.begun.contains (g.actor n) && (f.seq = g.seq || f.unit = g.unit && decide (f.seq < g.seq) && !g.overtakes f)

/-- The instructions of a unit of a stall that a reset discards: those that have not started, of which Config says how many of the
queue have, beside those that have begun as accesses have found (R379; log entry 105). An update instruction that waits has started
nothing; one that does not has started, since it does so as it is issued. -/
def State.queued (s : State) (n : Fin 128) (u : StallUnit) : List Nat :=
  let q := (s.stall n).flights.filter fun f => f.unit = u && f.kind != .update none && !f.abandoned
  ((q.drop (Config.begun s.raceNo % (q.length + 1))).filter fun f => !s.hasBegun n f).map (·.seq)

/-- What a reset discards of a stall's instructions in flight: what is abandoned, and what its matrix and vector engines have not
started, which never has an effect on memory; of the transfers of its data mover, each 64-byte unit stands or does not (R379). -/
def State.discard (s : State) (n : Fin 128) : State :=
  let lost := s.queued n .matrix ++ s.queued n .vector
  let moves := ((s.stall n).flights.filter fun f => f.unit = .mover).map (·.seq)
  let s := s.racesUndo fun w a =>
    match w with
    | .unit m _ q _ => m = n && (lost.contains q || moves.contains q && !Config.unitStands s.raceNo (a / 64))
    | _ => false
  let s := if (s.stall n).updWaiting.isSome then s.endUpdRun n else s
  { s with raceNo := s.raceNo + 1 }.modStall n fun t =>
    { t with flights := t.flights.filter fun f => !f.abandoned && !lost.contains f.seq }

/-- Quiesce the engines of a context: what they hold of its work ends (R267, R322, R379). Letters that are discarded unreceipted keep their
postmarks recorded, and no copy of them is ever receipted (R321). -/
def State.quiesce (s : State) (c : Fin 64) : State :=
  let s := (s.outstanding.filter fun o => o.ctx = c).foldl (fun s o => s.giveUp o) s
  let tag := s.jobTag c
  let s := (s.collOps.filter fun o => o.ctx = c && o.started).foldl (fun s o => s.traceColl o Status.contextReset.code) s
  let s := (s.collStage.filter fun g => g.ctx = c).foldl (fun s g => s.neverPlaced g) s
  let lost := ((s.relays.filter fun x => x.ctx = c).map (·.up)) ++ (s.circs.filter fun x => x.ctx = c && !x.sent).map (·.up)
  let s : State :=
    { s with postQ := s.postQ.filter fun o => o.ctx ≠ c, heldDups := s.heldDups.filter fun lt => lt.jobTag ≠ tag,
             unplaced := lost.map (fun lt => (streamOf lt, lt.postmark)) ++ s.unplaced,
             collOps := s.collOps.filter fun o => o.ctx ≠ c, collStage := s.collStage.filter fun g => g.ctx ≠ c,
             circs := s.circs.filter fun x => x.ctx ≠ c, relays := s.relays.filter fun x => x.ctx ≠ c,
             tiles := s.tiles.filter fun x => x.ctx ≠ c }
  let s := (List.finRange 4).foldl (fun s g => s.grpQuiet c g) s
  let s := ((s.ctxAllStalls c).foldl (fun s n => s.discard n) s).racesEnd
  let base := s.fld (.hstLoadRec1 c) F.hstLoadRec1_SLOT_BASE
  (List.range (s.fld (.hstLoadRec1 c) F.hstLoadRec1_SLOT_COUNT)).foldl (fun s k =>
    let j := Fin.ofNat 4096 (base + k)
    if s.slotBound j then s.slotUnbind j else s) s

/-- Start the end of a context's work, with STATE `st` (R378 steps 1 to 4, R304). -/
def State.resetBegin (s : State) (c : Fin 64) (st cause engine : Nat) (mask : BitVec 64) : State :=
  let ends := s.toEnd c
  let s := s.setFld (.hstCtxStatus c) F.hstCtxStatus_STATE st
  let s := s.wr .soCtxResetting (s.rd .soCtxResetting ||| ctxBit c)
  let s := s.log 0x232 0x0030 c.val (toBytes 1 cause ++ toBytes 1 engine ++ toBytes 1 0)
  let s := (s.ctxAllStalls c).foldl (fun s n => s.stopStall n) s
  let s := s.takeCapture c cause engine mask
  let cs : AMap Nat Consign := s.consigns.map fun e => if e.1 ∈ ends then (e.1, { e.2 with ended := some .contextReset }) else e
  let s : State := { s with consigns := cs }
  let s := (ends.foldl (fun s id => s.dmaStop id) s).quiesce c
  { s with resets := AMap.set c { cause := cause, engine := engine } s.resets }

/-- A context reset for a cause: of an ACTIVE context; one in progress takes it over, and a stable reset gives that one its
cause (R381). -/
def State.ctxReset (s : State) (c : Fin 64) (cause engine : Nat) (mask : BitVec 64) : State :=
  match s.ctxState c with
  | 1 => s.resetBegin c 2 cause engine mask
  | _ =>
    if cause ≠ 4 then s
    else
      let rs : AMap (Fin 64) CtxReset := s.resets.map fun e => if e.1 = c then (e.1, { e.2 with cause := 4 }) else e
      { s with resets := rs }

/-- The start of a DESTROY of an ACTIVE context (R304 steps 1 to 3). -/
def State.destroyBegin (s : State) (c : Fin 64) : State :=
  let s := s.resetBegin c 3 3 255 0
  let s := s.setSeal c { s.sealRec c with mirror := none }
  let s := (s.ctxQps c).foldl (fun s q => if s.qpEnabled q then s.qpClose q else s) s
  s.returnWaiting (fun x => x.ctx = c) 3

/-- An ignored command sets REFUSED (R302). -/
def State.refuseCmd (s : State) (c : Fin 64) (cause : Nat) : State := s.setFld (.hstCtxStatus c) F.hstCtxStatus_REFUSED cause

/-- A write of RESET (R302, R304, R381). -/
def State.resetCmd (s : State) (c : Fin 64) : State :=
  match s.ctxState c with
  | 1 => s.ctxReset c 1 255 0
  | 2 => s
  | _ => s.refuseCmd c 2

/-- A write of DESTROY (R304). -/
def State.destroyCmd (s : State) (c : Fin 64) : State :=
  match s.ctxState c with
  | 1 => s.destroyBegin c
  | 2 =>
    let x := AMap.get { cause := 0, engine := 255 } c s.resets
    { s with resets := AMap.set c { x with destroy := true } s.resets }
  | _ => s.refuseCmd c 2

/-- The end of the reset work of a context: accumulators empty, what has not started returned, the attempt advanced, and the
reset record written (R378 steps 5 and 6). -/
def State.resetEnd (s : State) (c : Fin 64) (x : CtxReset) : State :=
  let s := (s.ctxAllStalls c).foldl (fun s n =>
    let s := (s.watchSettle n (some (0, .bf16, .ieee, none))).watchSettle n (some (1, .bf16, .ieee, none))
    s.modStall n fun t => { t with acc := .replicate 2 {} }) s
  let s := s.returnWaiting (fun y => y.ctx = c) 2
  let s := s.advanceAttempt c
  let n := s.fld (.hstCtxResetRec c) F.hstCtxResetRec_RESETS
  let s := s.wr (.hstCtxResetRec c) (pack [(F.hstCtxResetRec_CAUSE, x.cause), (F.hstCtxResetRec_ENGINE, x.engine),
    (F.hstCtxResetRec_LEVEL, x.level), (F.hstCtxResetRec_RESETS, min 0xFFFF (n + 1)),
    (F.hstCtxResetRec_STEP, (s.sealStep c).toNat)])
  let s := s.aonAdd (351 + x.cause) 1
  let s := s.log 0x232 0x0031 c.val (toBytes 1 x.cause ++ toBytes 1 x.engine ++ toBytes 1 x.level)
  { s with resets := AMap.del c s.resets, engResets := s.engResets.filter fun e => e.1 ≠ c }

/-- The context is ACTIVE again: the fence goes, the paused mirror restarts from its first group, and the tallies resume
(R378, R392, R396). -/
def State.ctxResume (s : State) (c : Fin 64) : State :=
  let s := s.setFld (.hstCtxStatus c) F.hstCtxStatus_STATE 1
  let s := (s.wr .soCtxResetting (s.rd .soCtxResetting &&& ~~~ctxBit c)).raise 257
  let r := s.sealRec c
  let s := match r.mirror with
    | some m => (s.setSeal c { r with mirror := some { m with todo := m.all } }).mirrorPump c
    | none => s
  s.sealEval c true

def execContextResetComplete (c : Fin 64) (s : State) : Out :=
  .next (
    match s.resets.find? fun e => e.1 = c with
    | none => s
    | some (_, x) =>
      if !s.dieUp || !s.quiesced c then s
      else
        let s := s.resetEnd c x
        if s.ctxState c ≠ 2 then s
        else
          let s := s.ctxResume c
          if x.destroy then s.destroyBegin c else s)

/-! ### Creation (R303) and the end of a destroy (R304) -/

/-- The registers of a context. -/
def ctxRegs (c : Fin 64) : List Reg :=
  [.ceAxisPlan c, .stlSrSeed c, .stlUpdTable c, .stlUpdSealed c, .stlUpdProgress c, .hstLoadRec0 c, .hstLoadRec1 c, .hstXlatRoot c,
    .hstXlatInval c, .hstXlatFault c, .hstXlatRefused c, .hstCtxHang c, .hstCtxCapt c, .hstCtxResetRec c, .hstCtxSuspects c,
    .hstCtxSeal c, .hstCtxSealState c, .hstCtxMirror c, .hstCtxSealCmd c]

/-- The registers of a context's collective groups (R267). -/
def grpRegs (c : Fin 64) : List Reg :=
  ((List.finRange 4).map fun g =>
    [Reg.ceGrpCtrl c g, .ceGrpTree c g, .ceGrpStatus c g, .ceGrpPm0 c g, .ceGrpPm1 c g, .ceGrpNanrec c g, .ceGrpNanelem c g,
      .ceGrpEscal c g, .ceGrpBlkuf c g, .ceGrpClamp c g, .ceGrpOverflow c g, .ceGrpMismatch c g, .ceGrpOps c g] ++
      (List.finRange 4).map fun r => Reg.ceGrpMember c g r).flatten

/-- Registers return to their reset values. -/
def State.resetRegs (s : State) (rs : List Reg) : State := rs.foldl (fun s r => s.wr r r.reset) s

/-- What the module holds of a context beside registers is gone: its streams, its cached translations, its images and its seal
state. -/
def State.forget (s : State) (c : Fin 64) : State :=
  let tag := s.jobTag c
  let s := s.xlatDiscard c
  { s with sampled := s.sampled.filter fun x => x ≠ c, seals := AMap.del c s.seals,
           xlatRoot := AMap.del c s.xlatRoot, xlatPend := s.xlatPend.filter fun x => x ≠ c,
           images := s.images.filter fun i => i.id.ctx ≠ c,
           stableImg := s.stableImg.filter fun e => match e.2 with | some i => i.ctx ≠ c | none => true,
           sendStreams := s.sendStreams.filter fun e => e.1.tag ≠ tag,
           recvStreams := s.recvStreams.filter fun e => e.1.tag ≠ tag,
           unplaced := s.unplaced.filter fun x => x.1.tag ≠ tag }

/-- The cause for which a CREATE is ignored, of several the lowest, or 0 (R302, R303; log entry 121). -/
def State.createRefusal (s : State) (c : Fin 64) : Nat :=
  let tag := s.jobTag c
  let pa := s.fld (.hstCtxPost c) F.hstCtxPost_POST_PA
  let others := (List.finRange 64).filter fun d => d ≠ c && s.ctxState d ≠ 0
  if s.stage ≠ 3 then 1
  else if s.ctxState c ≠ 0 then 2
  else if tag = 0 || others.any fun d => s.jobTag d = tag then 3
  else if others.any fun d => s.fld (.hstCtxPost d) F.hstCtxPost_POST_PA = pa then 4
  else 0

/-- A write of CREATE. -/
def State.createCmd (s : State) (c : Fin 64) : State :=
  let cause := s.createRefusal c
  if cause ≠ 0 then s.refuseCmd c cause
  else
    let s := (s.forget c).resetRegs (ctxRegs c ++ grpRegs c)
    let s := s.setFld (.stlUpdProgress c) F.stlUpdProgress_ATTEMPT 1
    s.setFld (.hstCtxStatus c) F.hstCtxStatus_STATE 1

/-- A write of HST_CTX_CTRL: JOB_TAG, then the commands. -/
def State.ctxCtrlWrite (s : State) (c : Fin 64) (v : BitVec 64) : State :=
  let s := if s.ctxState c = 0 then s.setFld (.hstCtxCtrl c) F.hstCtxCtrl_JOB_TAG (F.hstCtxCtrl_JOB_TAG.get v) else s
  let s := if F.hstCtxCtrl_CREATE.get v ≠ 0 then s.createCmd c else s
  let s := if F.hstCtxCtrl_DESTROY.get v ≠ 0 then s.destroyCmd c else s
  if F.hstCtxCtrl_RESET.get v ≠ 0 then s.resetCmd c else s

/-- A write of HST_CTX_CTRL with one command bit set and the given JOB_TAG. -/
def ctxCtrl (tag : BitVec 16) (cmd : Fld) : BitVec 64 := pack [(F.hstCtxCtrl_JOB_TAG, tag.toNat), (cmd, 1)]

def execCreate (c : Fin 64) (tag : BitVec 16) (s : State) : Out :=
  .next (if s.dieUp then s.ctxCtrlWrite c (ctxCtrl tag F.hstCtxCtrl_CREATE) else s)
def execDestroy (c : Fin 64) (tag : BitVec 16) (s : State) : Out :=
  .next (if s.dieUp then s.ctxCtrlWrite c (ctxCtrl tag F.hstCtxCtrl_DESTROY) else s)
def execReset (c : Fin 64) (tag : BitVec 16) (s : State) : Out :=
  .next (if s.dieUp then s.ctxCtrlWrite c (ctxCtrl tag F.hstCtxCtrl_RESET) else s)

/-- The destroy releases everything, once its work has ended and CLEARING is 0 (R304 steps 4 and 5). An invalidation that is pending is
done with it, since no cached translation is left (R185). -/
def execDestroyComplete (c : Fin 64) (s : State) : Out :=
  .next (
    if !s.dieUp || s.ctxState c ≠ 3 || s.resets.any (fun e => e.1 = c) || s.ctxClearing c || s.ctxRunning c then s
    else
      let s := s.ownSlots (s.fld (.hstLoadRec1 c) F.hstLoadRec1_SLOT_BASE) (s.fld (.hstLoadRec1 c) F.hstLoadRec1_SLOT_COUNT) 0
      let s := if c ∈ s.xlatPend then s.setFld (.hstXlatInval c) F.hstXlatInval_DONE 1 else s
      let s := (s.forget c).resetRegs ([.hstLoadRec1 c, .ceAxisPlan c, .stlSrSeed c, .stlUpdTable c,
        .stlUpdSealed c, .stlUpdProgress c, .hstCtxSealState c] ++ grpRegs c)
      let s : State := { s with ctxStables := AMap.del c s.ctxStables }
      let s := s.setFld (.hstCtxStatus c) F.hstCtxStatus_STATE 0
      (s.wr .soCtxResetting (s.rd .soCtxResetting &&& ~~~ctxBit c)).raise 257)

/-! ### Hangs (R373 to R375) -/

/-- Whether a letter in the chip's buffers is one that a sender waits for: the letter that it sent, or what answers that (R375). -/
def Outstanding.waitsFor (o : Outstanding) (chip : BitVec 14) (lt : Letter) : Bool :=
  lt.jobTag = o.key.tag &&
    ((lt.src = chip && lt.dest = o.key.chip && lt.cls == o.key.cls && lt.postmark = o.letter.postmark) ||
      (lt.src = o.key.chip && (lt.cls == .receipt || lt.cls == .response) && lt.refPostmark = o.letter.postmark))

/-- The unretired operations of a context: when each was issued, and the engines that may hold it (R375). An instruction that accesses
memory may wait for a controller, and one with letters for the sorting office while that holds one of them. -/
def State.unretired (s : State) (c : Fin 64) : List (Nat × List Nat) :=
  let controllers := (List.range 9).map (131 + ·)
  let posted := fun n seq => s.outstanding.any fun o => o.owner = .flight n seq && s.buffered.any (o.waitsFor s.chip)
  ((s.ctxStalls c).flatMap fun n =>
    let t := s.stall n
    (if t.wait.isSome then [(t.waitSince, [n.val])] else []) ++
      t.flights.map fun f =>
        if f.collOp.isSome then (f.issuedAt, [128])
        else (f.issuedAt, [n.val] ++ (if f.reads.contains .chip || f.writes.contains .chip then controllers else []) ++
          if posted n f.seq then [140] else [])) ++
    (s.ctxCopies c).map fun d => (d.2.startedAt, [129])

/-- The loads that a hang's detection tells of for a context, each with its consignment and when that started: the command processor may be
loading an image for a RUN consignment that may start (R309, R310, R375). -/
def State.loads (s : State) (c : Fin 64) (h : Hang) : List (Nat × Nat) :=
  h.loading.filterMap fun x => match s.findConsign x.1 x.2.1 with
    | some (id, y) => if y.ctx = c && y.opcode = 1 && s.mayStartConsign id y then some (id, x.2.2) else none
    | none => none

/-- The same as operations, which the command processor holds. -/
def State.loadOp (s : State) (c : Fin 64) (h : Hang) : List (Nat × List Nat) := (s.loads c h).map fun x => (x.2, [130])

/-- The consignments of a context whose loads are in progress have started (R310, R375). -/
def State.loadsStarted (s : State) (c : Fin 64) (h : Hang) : State :=
  let xs := s.loads c h
  let cs : AMap Nat Consign := s.consigns.map fun e => match xs.find? fun x => x.1 = e.1 with
    | some (_, t) => (e.1, { e.2 with phase := .started, startedAt := t })
    | none => e
  { s with consigns := cs }

/-- Whether an engine may be the one that blocks a context: it holds its oldest unretired operation (R375); where it has none, no
engine does, which is 255 (R368; log entry 56). -/
def State.blocks (s : State) (c : Fin 64) (e : Nat) (h : Hang) : Bool :=
  let ops := s.unretired c ++ s.loadOp c h
  if ops.isEmpty then e = 255
  else ops.any fun o => o.2.contains e && ops.all fun x => decide (o.1 ≤ x.1)

/-- Whether a context may have an operation outstanding on a shared engine (R375): a collective operation, a copy, a load, a letter in
the buffers of the sorting office; or a request to a memory controller, of an instruction, of one of these, or of a mirror. -/
def State.usesEngine (s : State) (c : Fin 64) (e : Nat) (h : Hang) : Bool :=
  let coll := s.collOps.any fun o => o.ctx = c
  let copies := !(s.ctxCopies c).isEmpty
  let loads := !(s.loads c h).isEmpty
  let letters := s.buffered.any fun lt => lt.jobTag = s.jobTag c && lt.jobTag ≠ 0
  if e = 128 then coll
  else if e = 129 then copies
  else if e = 130 then loads
  else if e = 140 then letters
  else (s.unretired c).any (fun o => o.2.contains e) ||
    (decide (131 ≤ e) && decide (e ≤ 139) && (coll || copies || loads || letters || (s.sealRec c).mirror.isSome))

/-- The contexts with an operation outstanding on an engine, beside a hung one. A controller's requests are not told apart between
commands: `held` says whose they are (log entry 56). -/
def State.suspects (s : State) (c : Fin 64) (e : Nat) (h : Hang) : List (Fin 64) :=
  (List.finRange 64).filter fun d =>
    d = c || (decide (128 ≤ e) && s.ctxState d ≠ 0 && s.usesEngine d e h && (decide (e < 131) || decide (139 < e) || d ∈ h.held))

/-- A running context makes no progress for HANG_MS; `e` is the blocking engine, of which `stuck` tells the rest. -/
def execHangDetect (c : Fin 64) (e : Fin 256) (stuck : Hang) (s : State) : Out :=
  .next (
    if !s.dieUp || s.ctxState c ≠ 1 || !(s.ctxRunning c || (!(s.loadOp c stuck).isEmpty)) || !s.blocks c e.val stuck then s
    else
      let who := s.suspects c e.val stuck
      let mask := who.foldl (fun m d => m ||| ctxBit d) 0
      let s := (s.setFld (.hstCtxHang c) F.hstCtxHang_HUNG 1).raise 257
      let s := s.aonAdd 367 1
      let set : List (Fin 64) := if stuck.idle && decide (128 ≤ e.val) then who.filter fun d => s.ctxState d = 1 else [c]
      let s := set.foldl (fun s d => s.loadsStarted d stuck) s
      let s := set.foldl (fun s d =>
        (s.setFld (.hstCtxSuspects d) F.hstCtxSuspects_SUSPECTS mask.toNat).ctxReset d (if d = c then 2 else 5) e.val mask) s
      if e = 255 then s else set.foldl (fun s _ => s.attribute e.val) s)

/-! ### Engine, stable and yard resets (R369 to R371) -/

/-- The level that a context's reset has reached. -/
def State.reachLevel (s : State) (c : Fin 64) (level : Nat) : State :=
  let rs : AMap (Fin 64) CtxReset := s.resets.map fun e => if e.1 = c then (e.1, { e.2 with level := max level e.2.level }) else e
  { s with resets := rs }

/-- An engine reset of a stall, or of the host DMA engine, whose other copies restart and write the same bytes again (R370). -/
def State.engineReset (s : State) (c : Fin 64) (e : Nat) : State :=
  let data := toBytes 1 (AMap.get { cause := 0, engine := 255 } c s.resets).cause ++ toBytes 1 e ++ toBytes 1 1
  let s :=
    if h : e < 128 then
      let n : Fin 128 := ⟨e, h⟩
      let s := (s.watchSettle n (some (0, .bf16, .ieee, none))).watchSettle n (some (1, .bf16, .ieee, none))
      let s := (s.discard n).modStall n fun t =>
        { t with flights := [], wait := none, waitCycles := 0, halting := none, acc := .replicate 2 {}, c := .replicate 64 0 }
      let s := s.racesEnd
      s.log (stallUnit n 0) 0x0032 c.val data
    else
      let ds : List DmaCopy := s.dma.map fun d => if d.moved then d else { d with done := 0 }
      { s with dma := ds }.log 0x233 0x0032 c.val data
  let s := (s.aonAdd 357 1).reachLevel c 1
  { s with engResets := (c, e) :: s.engResets }

/-- An engine has not quiesced within 5 ms (R369, R385). -/
def execQuiesceWatchdogExpiry (c : Fin 64) (e : Fin 256) (s : State) : Out :=
  .next (
    if !s.dieUp || !s.resets.any (fun x => x.1 = c) || decide (140 < e.val) then s
    else if e.val < 128 && stableOf (Fin.ofNat 128 e.val) ∉ s.reserved c then s
    else if e.val ≤ 127 || e.val = 129 then ((s.engineReset c e.val).attribute e.val).attribute e.val
    else (s.attribPush e.val).dieReset 1 e.val)

/-- The contexts that a stable reset reaches (R371, R381): with a program on the stable, or one that a reset still under way has
ended there, or with staged letters in the stable's reserved region. -/
def State.stableCtxs (s : State) (t : Fin 16) : List (Fin 64) :=
  (List.finRange 64).filter fun c =>
    s.ctxState c ≠ 0 && ((s.ctxStalls c).any (fun n => stableOf n = t) ||
      (s.resets.any (fun x => x.1 = c) && t ∈ s.reserved c) || s.frames.any fun f => f.1 = c && f.2.stable = t)

/-- A stall whose logic is reset: of the program that ran, the tally counters and the wait stay to be read until the next program starts
(R176, R371). -/
def Stall.cleared (t : Stall) : Stall :=
  { nextSeq := t.nextSeq, c := t.c, wait := t.wait, waitPc := t.waitPc, waitSince := t.waitSince }

/-- The logic of a stable is reset: its stalls, its watch, and what the loader knows of its stores (R371). -/
def State.stableReset (s : State) (t : Fin 16) (e : Nat) : State :=
  let cs := s.stableCtxs t
  let s := s.noteRetired.yardStop ⟨t.val / 4, by omega⟩ 2
  let s := cs.foldl (fun s c => s.ctxReset c 4 e 0) s
  let s := ((s.engResets.filter fun x => x.2 = e).map (·.1)).foldl (fun s c => s.reachLevel c 2) s
  let s := ((List.finRange 128).filter fun n => stableOf n = t).foldl (fun s n =>
    s.modStall n Stall.cleared) s
  let s := s.racesEnd.setWatch t {}
  let s := s.log ⟨0x200 + t.val, by omega⟩ 0x0032 0xFF (toBytes 1 4 ++ toBytes 1 e ++ toBytes 1 2)
  { s with stableImg := AMap.del t s.stableImg, stableResets := (t, e) :: s.stableResets.filter fun x => x.1 ≠ t,
           engResets := s.engResets.filter fun x => x.2 ≠ e }

/-- An engine reset has not finished within 20 ms: the stable of the stall is reset, or its yard where the stable cannot be
reached, or, for the host DMA engine, the die. -/
def execEngineResetWatchdogExpiry (e : Fin 256) (yard : Bool) (s : State) : Out :=
  .next (
    if !s.dieUp || !s.engResets.any (fun x => x.2 = e.val) then s
    else if e.val < 128 then
      let n := Fin.ofNat 128 e.val
      if yard then
        (((List.finRange 16).filter fun t => t.val / 4 = (yardOf n).val).foldl (fun s t => s.stableReset t e.val) s).aonAdd 359 1
      else (s.stableReset (stableOf n) e.val).aonAdd 358 1
    else s.dieReset 1 e.val)

/-- A stable reset ends: the clock has run again, and its stores are clear (R371). -/
def execStableResetEnd (t : Fin 16) (s : State) : Out :=
  .next (
    if !s.dieUp || !s.stableResets.any (fun e => e.1 = t) then s
    else
      let y : Fin 4 := ⟨t.val / 4, by omega⟩
      let s : State := { s with stableResets := s.stableResets.filter fun e => e.1 ≠ t }
      let s := if s.stableResets.any fun e => e.1.val / 4 = y.val then s else s.yardResume y 2
      s.clearStores t)

/-- A stable reset has not finished within 50 ms. -/
def execStableResetWatchdogExpiry (t : Fin 16) (s : State) : Out :=
  .next (
    match s.stableResets.find? fun e => e.1 = t with
    | some (_, e) => if s.dieUp then s.dieReset 1 e else s
    | none => s)

/-! ### Invalidation of cached translations (R185) -/

/-- A write of START. -/
def State.xlatStart (s : State) (c : Fin 64) : State :=
  { s.setFld (.hstXlatInval c) F.hstXlatInval_DONE 0 with xlatPend := c :: s.xlatPend.filter fun x => x ≠ c }

/-- Whether a translation of a context is cached anywhere. -/
def State.xlatCached (s : State) (c : Fin 64) : Bool :=
  s.xlat.any (fun e => e.ctx = c) || s.xlatUnits.any fun u => u.2.any fun e => e.ctx = c

/-- A write of HST_XLAT_ROOT (R185, R187): a root that replaces another takes effect with the next invalidation.
Where the register holds 0 and nothing of the context is cached, it counts as the first root (log entry 11). -/
def State.xlatRootWrite (s : State) (c : Fin 64) (v : BitVec 64) : State :=
  let old := s.rd (.hstXlatRoot c)
  let s := s.regWrite (.hstXlatRoot c) v
  if (old = 0 && !s.xlatCached c) || s.xlatRoot.any (fun e => e.1 = c) then s else { s with xlatRoot := AMap.set c old s.xlatRoot }

def execStart (c : Fin 64) (s : State) : Out := .next (if s.dieUp then s.xlatStart c else s)

/-- Whether an instruction in flight may still access addresses that it has translated (R185). -/
def Flight.translated (f : Flight) : Bool :=
  (match f.kind with | .update (some _) => false | _ => true) && (f.reads.contains .chip || f.writes.contains .chip)

/-- Whether an access that has been translated is still to perform. -/
def State.xlatBusy (s : State) (c : Fin 64) : Bool :=
  (s.stalls.any fun e => e.2.context = c && e.2.flights.any Flight.translated) || s.collOps.any (fun o => o.ctx = c) ||
    !(s.ctxCopies c).isEmpty || s.outstanding.any fun o => o.ctx = c && o.key.cls == .request

/-- The invalidation has discarded every cached entry, and the accesses through them have performed. -/
def execXlatInvalDone (c : Fin 64) (s : State) : Out :=
  .next (
    if !s.dieUp || c ∉ s.xlatPend || s.xlatBusy c then s
    else
      let s := s.setFld (.hstXlatInval c) F.hstXlatInval_DONE 1
      { s.xlatDiscard c with xlatRoot := AMap.del c s.xlatRoot, xlatPend := s.xlatPend.filter fun x => x ≠ c })

end Sys2Proof.Machine
end

