-- ==== Sys2Proof/Machine/Stages.lean ====
section
/-!
DEFINITION. Power and the staged start (R329 to R335, R341, R344 to R347, R427 to R430, R434, R441): aux and main power, the
porter's firmware, the stages and the commands between them.
-/
namespace Sys2Proof.Machine

/-- Porter time since aux power good, as PTR_START_TIMES shows it (R347). -/
def State.startMs (s : State) : Nat := min s.porterMs 0xFFFE

/-- The result of a command (R346, R347). -/
def State.cmdResult (s : State) (cmd res : Nat) : State :=
  s.setFlds .ptrStage [(F.ptrStage_LAST_CMD, cmd), (F.ptrStage_CMD_RESULT, res)]

/-- The plan (R347). -/
def State.planValid (s : State) : Bool := s.flag .ptrPlanChip F.ptrPlanChip_PLAN_VALID

/-! ### Aux power (R329, R430) -/

/-- Aux power is good: the porter boots in Stage 0, with protection active. -/
def execAuxPowerGood (s : State) : Out :=
  .next (
    if s.aux then s
    else { s with aux := true, porterMs := 0, redfish := s.redfish ++ [Redfish.boot] }.setFld .ptrStage F.ptrStage_PROTECT 1)

/-- Registers that survive the removal of all power, with their values (R348, R386, R405). -/
def State.nonVolatile (s : State) : AMap Reg (BitVec 64) :=
  [(.ptrStallFenceLo, s.rd .ptrStallFenceLo), (.ptrStallFenceHi, s.rd .ptrStallFenceHi),
    (.ptrEscStatus, F.ptrEscStatus_FENCES.put Reg.ptrEscStatus.reset (s.fld .ptrEscStatus F.ptrEscStatus_FENCES)),
    (.ptrRetiredIdx, F.ptrRetiredIdx_COUNT.put 0 (s.fld .ptrRetiredIdx F.ptrRetiredIdx_COUNT))]

/-- Aux power is lost: main power goes with it, and only non-volatile memory keeps its contents. -/
def execAuxLoss (s : State) : Out :=
  .next (
    if !s.aux then s
    else { pending := s.pending, regs := s.nonVolatile, fwSlots := s.fwSlots, retiredPages := s.retiredPages,
           hostOut := s.hostOut, porterOut := s.porterOut, wire := s.wire, linkCmds := s.linkCmds, mgmtDone := s.mgmtDone, spdmOut := s.spdmOut,
           irqs := s.irqs, redfish := s.redfish })

/-! ### Firmware (R331, R332) -/

/-- A bundle's version, in the order of releases: major, minor, build. -/
def versionKey (v : BitVec 32) : Nat := bitsOf v.toNat 0 8 * 2 ^ 24 + bitsOf v.toNat 8 8 * 2 ^ 16 + bitsOf v.toNat 16 16

/-- The bundle of a slot, and whether it is valid: it verifies, and its security version is not below the fused rollback counter. -/
def State.bundle (s : State) (i : Fin 2) : Option (List Byte) := AMap.get none i s.fwSlots
def State.bundleOk (s : State) (i : Fin 2) : Bool := (s.bundle i).any fun b => Config.bundleVerifies b && decide (Config.rollback ≤ Config.bundleSecurity b)
def State.bundleKey (s : State) (i : Fin 2) : Nat :=
  match s.bundle i with | some b => versionKey (Config.bundleVersion b) + 1 | none => 0

/-- The slot that the porter boots: the valid bundle of higher version. -/
def State.bootSlot (s : State) : Option (Fin 2) :=
  if s.bundleOk 0 && s.bundleOk 1 then some (if s.bundleKey 0 < s.bundleKey 1 then 1 else 0)
  else if s.bundleOk 0 then some 0
  else if s.bundleOk 1 then some 1
  else none

/-- Whether the 48 V rail lies within 44 to 58 V. -/
def State.railOk (s : State) : Bool :=
  let v := s.fld .ptrPwrStatus F.ptrPwrStatus_VIN_10MV
  decide (4400 ≤ v) && decide (v ≤ 5800)


/-- Verification completes. Where a slot boots, AUTO_MAIN may apply main power, once per application of aux power. -/
def execFirmwareVerified (s : State) : Out :=
  .next (
    if !s.aux || s.flag .ptrStage F.ptrStage_FW_OK then s
    else match s.bootSlot with
      | none => s
      | some i =>
        let v := match s.bundle i with | some b => (Config.bundleVersion b).toNat | none => 0
        let s : State := { s with fwBoot := some i }
        let s := s.wr .ptrFwVersion (BitVec.ofNat 64 v)
        let s := s.setFlds .ptrFwVersion [(F.ptrFwVersion_SLOT, i.val),
          (F.ptrFwVersion_FALLBACK, if s.bundleKey i < s.bundleKey (i + 1) then 1 else 0),
          (F.ptrFwVersion_OTHER_VALID, if s.bundleOk (i + 1) then 1 else 0)]
        let s := s.setFld .ptrStartTimes F.ptrStartTimes_FW_MS s.startMs
        let s := s.setFld .ptrStage F.ptrStage_FW_OK 1
        if s.flag .ptrStartCtrl F.ptrStartCtrl_AUTO_MAIN && !s.autoUsed && s.railOk && s.power = .off &&
            !s.flag .ptrStage F.ptrStage_OUT_OF_SERVICE then
          { s with autoUsed := true }.mainStart
        else s)

/-- The ROM loader accepts a bundle while neither slot verifies. -/
def execFirmwareBundleUpload (slot : Fin 2) (bundle : List Byte) (s : State) : Out :=
  .next (
    if s.aux && !s.flag .ptrStage F.ptrStage_FW_OK && s.bootSlot.isNone then
      { s with fwSlots := AMap.set slot (some bundle) s.fwSlots }
    else s)

/-- The porter answers an attestation request with the digest of the running bundle. -/
def execSpdmRequest (s : State) : Out :=
  .next (
    match s.fwBoot.bind s.bundle with
    | some b => { s with spdmOut := s.spdmOut ++ [Config.bundleDigest b] }
    | none => s)

/-! ### Main power (R428, R429, R434, R441) -/

/-- Command MAIN_ON (R346). -/
def State.mainOn (s : State) : State :=
  if s.stage ≠ 0 || s.power ≠ .off then s.cmdResult 1 1
  else if !s.flag .ptrStage F.ptrStage_FW_OK then s.cmdResult 1 8
  else if s.flag .ptrStage F.ptrStage_OUT_OF_SERVICE then s.cmdResult 1 10
  else if !s.railOk || s.flag .ptrProtStatus F.ptrProtStatus_ACTIVE then s.cmdResult 1 7
  else ({ s with cycle := .none }.mainStart).cmdResult 1 0

def execMainOn (s : State) : Out := .next (if s.aux then s.mainOn else s)

/-- Every rail has held its window for 5 ms: main power is good (R428). -/
def execMainPowerGood (s : State) : Out :=
  .next (
    if s.power = .rising && s.railsGood then
      ({ s with power := .good, dieResetting := false }.setFld .ptrStage F.ptrStage_MAIN_ON 1).setFld .ptrPwrStatus
        F.ptrPwrStatus_MAIN_GOOD 1
    else s)

/-- Main power is not good by 100 ms. -/
def execPowerGoodTimeout (s : State) : Out :=
  .next (if s.power = .rising then s.mainRemove.setFld .ptrStage F.ptrStage_CMD_RESULT 7 else s)

/-- Command MAIN_OFF: the effects of die reset, then main power is removed (R346, R429). -/
def State.mainOff (s : State) : State :=
  if s.stage = 0 then s.cmdResult 2 1 else (s.dieClear.mainRemove).cmdResult 2 0

def execMainOff (s : State) : Out := .next (if s.aux then s.mainOff else s)

/-- Whether main power is on, or on its way. -/
def State.mainUp (s : State) : Bool := s.power = .rising || s.power = .good

/-- Whether a trip is recorded: none is yet, or one of the same millisecond with a higher code (R434). -/
def State.tripRecorded (s : State) (cause : Nat) : Bool :=
  !s.flag .ptrProtStatus F.ptrProtStatus_VALID ||
    (s.fld .ptrProtStatus F.ptrProtStatus_TIME_MS = s.porterMs && decide (cause < s.fld .ptrProtStatus F.ptrProtStatus_CAUSE))

/-- A protection trip (R434): the die is reset, its counters read to the end by `read`, also where main power was only coming up or a
power cycle was under way, and main power removed; the first cause is recorded, of two together the lower. -/
def State.tripRead (s : State) (cause : Nat) (read : State → State) : State :=
  let rising := s.power = .rising
  let s := if s.mainUp || s.dieUp || s.dieResetting || s.cycle ≠ .none then
      ((if s.dieUp then read s else s).dieLost.resetRecord 5 255).porterLog 0x0080 5 255
    else s
  let s := if s.mainUp then s.mainRemove else s
  let s := if rising then s.setFld .ptrStage F.ptrStage_CMD_RESULT 7 else s
  let s : State := { s with cycle := .none }
  let s := s.setFld .ptrProtStatus F.ptrProtStatus_ACTIVE 1
  let s := if s.tripRecorded cause then
      s.setFlds .ptrProtStatus [(F.ptrProtStatus_CAUSE, cause), (F.ptrProtStatus_VALID, 1), (F.ptrProtStatus_TIME_MS, s.porterMs)]
    else s
  (s.porterLog 0x0083 cause 255).tell 0x0083 cause

def State.trip (s : State) (cause : Nat) : State := s.tripRead cause State.aonRead

/-- A trip for one of the causes 1 to 10 of R433. -/
def execProtectionTrip (cause : Fin 11) (s : State) : Out :=
  if cause = 0 then .fault (.illFormed "PROTECTION_TRIP") else .next (if s.aux then s.trip cause.val else s)

/-- PRSNT breaks and the hot-swap switch opens, so that every rail loses its input at once; the module acts as by a trip for
undervoltage. `missed` tells that the final counter read found no answer (R407, R430, R441). -/
def execExtraction (missed : Bool) (s : State) : Out :=
  .next (if !s.aux || !s.mainUp then s
    else { s.tripRead 2 fun s => s.aonReadIf !missed with rails := [], power := .off, railMs := 0 })

/-! ### Stage 2 (R335, R341) -/

/-- The module leaves Stage 1 for Stage 2. -/
def State.enterStabled (s : State) : State :=
  let s := (s.setFld .ptrStage F.ptrStage_STAGE 2).setFld .ptrStartTimes F.ptrStartTimes_STABLED_MS s.startMs
  let s := s.wr .ptrMemResult Reg.ptrMemResult.reset
  { s with advance := false, memTestFull := s.flag .ptrStartCtrl F.ptrStartCtrl_MEM_TEST }

/-- Command ADVANCE (R335, R346). -/
def State.advanceCmd (s : State) : State :=
  if s.stage ≠ 1 || !s.dieUp then s.cmdResult 4 1
  else if s.handover.isSome then { s with advance := true }.cmdResult 4 0
  else s.enterStabled.cmdResult 4 0

def execAdvance (s : State) : Out := .next (if s.aux then s.advanceCmd else s)

/-- Stage 1 ends by itself once every axis has been granted and its handover has ended, while AUTO_ADVANCE is set (R329). -/
def State.autoAdvance (s : State) : State :=
  if s.stage = 1 && s.handover.isNone && s.handed = BitVec.allOnes 4 && s.flag .ptrStartCtrl F.ptrStartCtrl_AUTO_ADVANCE then
    s.enterStabled
  else s

/-- A write of PTR_START_CTRL. -/
def State.startCtrlWrite (s : State) (v : BitVec 64) : State := (s.regWrite .ptrStartCtrl v).autoAdvance

/-- A handover of an axis has ended: the porter takes the next one, and Stage 1 ends where ADVANCE waits, or where every axis has
been handed over and AUTO_ADVANCE is set. -/
def State.handoverEnd (s : State) (a : Fin 4) : State :=
  let s := s.setFlds .ptrStage [(F.ptrStage_BUSY, 0), (F.ptrStage_BUSY_AXIS, 0)]
  let s : State := { s with handover := none, handed := s.handed ||| (1#4 <<< a.val) }
  if s.advance then s.enterStabled else s.autoAdvance

/-- Whether a page is on the retired list (R341, R348). -/
def State.retiredPage (s : State) (a : Nat) : Bool :=
  (List.range (s.fld .ptrRetiredIdx F.ptrRetiredIdx_COUNT)).any fun i =>
    let e := AMap.get 0 (Fin.ofNat 4096 i) s.retiredPages
    F.ptrRetiredData_PAGE.get e = a / 2 ^ 21 && (F.ptrRetiredData_TIER.get e ≠ 0) = isLoft a

/-- A unit of HBM or the loft fails the test: it is left poisoned, and posted unless its page is retired. -/
def State.testUe (s : State) (u : Nat) : State :=
  let s := s.poisonUnit u
  let s := s.logPoison (homeUnit u) u
  if s.retiredPage u then s else s.postPoison u false

/-- The work of Stage 2 ends: the stacks and packages that failed training, the stables that self-test could not repair, and
the units that failed the test. The memories hold what the tests left, which is the fill. -/
def execMemTestDone (hbmFail : BitVec 8) (loftFail stableOff : BitVec 16) (ues : List Nat) (s : State) : Out :=
  .next (
    if !s.dieUp || s.stage ≠ 2 || s.flag .ptrMemResult F.ptrMemResult_DONE then s
    else
      let us := ((ues.filter fun a => isHbm a || isLoft a).map unitOf).eraseDups
      let s : State := { s with mem := [], poison := [], latentUe := [], latentCe := [] }
      let s := us.foldl (fun s u => s.testUe u) s
      s.wr .ptrMemResult (pack [(F.ptrMemResult_HBM_FAIL, hbmFail.toNat), (F.ptrMemResult_LOFT_FAIL, loftFail.toNat),
        (F.ptrMemResult_STABLE_OFF, stableOff.toNat), (F.ptrMemResult_DONE, 1),
        (F.ptrMemResult_MEM_FAIL, if hbmFail = 0 && loftFail = 0 then 0 else 1), (F.ptrMemResult_TEST_UE, min 0xFFFF us.length)]))

/-! ### Stage 3 (R344, R345) -/

/-- The checks of HARNESS beside those on contexts, as a CMD_RESULT (R344, R346). -/
def State.harnessCheck (s : State) : Nat :=
  let v := epochVer s.srcEpoch
  if !s.flag .ptrMemResult F.ptrMemResult_DONE || s.flag .ptrMemResult F.ptrMemResult_MEM_FAIL then 5
  else if !s.planValid then 2
  else if !s.rtValid v || !(List.finRange 4).all (fun a => decide (2 ≤ s.rtShape v a) || s.rtLen v a = s.planTorus a) then 4
  else if s.fld .ptrMemResult F.ptrMemResult_STABLE_OFF = 0xFFFF then 5
  else 0

/-- A letter whose head was processed before a switch is handled under the rules in force before it (R344): with every context
FREE, it finds none. -/
def State.flushLetter (s : State) (global : Bool) (lt : Letter) : State :=
  if lt.cls == .request || lt.cls == .bulk || lt.cls == .slot || lt.cls == .coll then
    (s.taken lt).bumpAll (if global then lostCounters lt.cls else [.soNocontext])
  else s

/-- Enter Stage 3, or switch between its modes. -/
def State.enterHarnessed (s : State) (quarantine : Bool) : State :=
  let old := s.stage
  let global := s.globalOn
  let s := s.inbox.foldl (fun s lt => s.flushLetter global lt) s
  let s := s.setFlds .ptrStage [(F.ptrStage_STAGE, 3), (F.ptrStage_QUARANTINE, if quarantine then 1 else 0)]
  if old = 3 then s else s.setFld .ptrStartTimes F.ptrStartTimes_HARNESSED_MS s.startMs

/-- Whether every context is FREE. -/
def State.allFree (s : State) : Bool := (List.finRange 64).all fun c => s.ctxState c = 0

/-- Commands HARNESS and QUARANTINE (R344, R346). -/
def State.harnessCmd (s : State) (quarantine : Bool) : State :=
  let cmd := if quarantine then 6 else 5
  let check := if quarantine then (if s.flag .ptrMemResult F.ptrMemResult_DONE then 0 else 5) else s.harnessCheck
  if !s.dieUp || (s.stage ≠ 2 && s.stage ≠ 3) then s.cmdResult cmd 1
  else if s.stage = 3 && !s.allFree then s.cmdResult cmd 6
  else if check ≠ 0 then s.cmdResult cmd check
  else (s.enterHarnessed quarantine).cmdResult cmd 0

def execHarness (s : State) : Out := .next (if s.aux then s.harnessCmd false else s)
def execQuarantine (s : State) : Out := .next (if s.aux then s.harnessCmd true else s)

end Sys2Proof.Machine
end

