-- ==== Sys2Proof/Machine/Ports.lean ====
section
/-!
DEFINITION. The torus ports: events (R232, R413), discovery outcomes as registers show them (R338, R347, R349), going down
(R221, R339), training (R215, R216, R231), and the loss and restoring of strands (R217 to R220).
-/
namespace Sys2Proof.Machine

def State.port (s : State) (p : Fin 8) : Port := AMap.get {} p s.ports
def State.setPort (s : State) (p : Fin 8) (x : Port) : State := { s with ports := AMap.set p x s.ports }

def portUnit (p : Fin 8) : Fin 1024 := ⟨0x228 + p.val, by omega⟩

/-- Active strands of a port. -/
def State.strands (s : State) (p : Fin 8) : BitVec 4 := BitVec.ofNat 4 (s.fld (.soPortStatus p) F.soPortStatus_STRANDS)
def State.portHalf (s : State) (p : Fin 8) : Bool := s.flag (.soPortStatus p) F.soPortStatus_HALF
def State.setPortState (s : State) (p : Fin 8) (x : Nat) : State := s.setFld (.soPortStatus p) F.soPortStatus_STATE x
def State.portDisabled (s : State) (p : Fin 8) : Bool := s.flag (.soPortCtrl p) F.soPortCtrl_DISABLE

/-- The number of strands in a mask. -/
def strandCount (m : BitVec 4) : Nat := ([0, 1, 2, 3].filter fun k => m.getLsbD k).length

/-- The lanes of a mask of strands, in ascending order (R207). -/
def strandLanes (m : BitVec 4) : List (Fin 48) := (List.finRange 48).filter fun l => m.getLsbD (l.val / 12)

/-- Whether an axis's element is engaged, as its sensors report (R233). -/
def State.axisEngaged (s : State) (a : Fin 4) : Bool := bitOf (s.fld .ptrBypass F.ptrBypass_ENGAGED) a.val

/-- Whether an axis's electrical element is treated as unpowered, its outer connections open: its FAULT bit is set (R222, R224). -/
def State.axisOpen (s : State) (a : Fin 4) : Bool := decide (a.val < 2) && bitOf (s.fld .ptrBypass F.ptrBypass_FAULT) a.val

/-- Whether an axis's element is released. -/
def State.axisReleased (s : State) (a : Fin 4) : Bool := !s.axisEngaged a && !s.axisOpen a

/-- Whether the die holds an axis released (R223). -/
def State.axisHeld (s : State) (a : Fin 4) : Bool := bitOf (s.fld .ptrBypass F.ptrBypass_HOLD) a.val

/-- A port event: the bit of SO_PORT_EVENTS, a logbook record, vector 258 and a porter event (R232, R413). -/
def State.portEvent (s : State) (p : Fin 8) (f : Fld) : State :=
  let s := s.setFld (.soPortEvents p) f 1
  let s := s.log (portUnit p) 0x0020 0xFF (toBytes 1 f.lo ++ toBytes 1 (s.strands p).toNat ++ toBytes 1 (s.portState p))
  let s := s.raise 258
  { s with redfish := s.redfish ++ [Redfish.port p f.lo] }

/-! ### Discovery outcomes (R338, R347, R349) -/

/-- The porter's copy of a port's outcome. -/
def State.copyOutcome (s : State) (p : Fin 8) (o cause : Nat) : State :=
  (s.setFld .ptrDisc { lo := 6 * p.val, w := 2, acc := .ro, rst := 0 } o).setFld .ptrDisc
    { lo := 6 * p.val + 2, w := 4, acc := .ro, rst := 0 } cause

/-- A port's outcome becomes `o` for a cause. A change is shown, recorded and reported, except that one to ABSENT for want of a
planned neighbour raises no event. -/
def State.setOutcome (s : State) (p : Fin 8) (o cause : Nat) : State :=
  let old := s.fld (.soPortDisc p) F.soPortDisc_OUTCOME
  if old = o && s.fld (.soPortDisc p) F.soPortDisc_CAUSE = cause then s
  else
    let s := s.setFlds (.soPortDisc p) [(F.soPortDisc_OUTCOME, o), (F.soPortDisc_CAUSE, cause), (F.soPortDisc_CHANGED, 1)]
    let s := s.copyOutcome p o cause
    if old = o then s
    else
      let s := s.aonAdd (192 + 16 * p.val + 11) 1
      let peer := s.fld (.soPortPeer p) F.soPortPeer_PEER_CHIP
      let s := s.log (portUnit p) 0x0021 0xFF (toBytes 1 o ++ toBytes 1 cause ++ toBytes 2 peer)
      if o = 3 && cause = 11 then s
      else { s.raise 258 with redfish := s.redfish ++ [Redfish.discovery p o cause] }

/-- A port is ABSENT: MISSING where the plan has a neighbour on it, else UNUSED. -/
def State.portAbsent (s : State) (p : Fin 8) : State :=
  (s.setPortState p 5).setOutcome p 3 (if s.flag (.ptrPlanPeer p) F.ptrPlanPeer_EXPECT then 10 else 11)

/-! ### Going down (R221, R245, R339) -/

/-- The letter as an input buffer holds it: with the VC and the HOPS it arrived with. -/
def OutLetter.held (o : OutLetter) : Letter := { o.lt with vc := o.inVc, hops := o.lt.hops - 1 }

/-- A letter that waits for a port leaves its buffer, without being sent. -/
def State.dropOut (s : State) (o : OutLetter) : State :=
  let xs : List OutLetter := s.outQ.erase o
  let s : State := { s with outQ := xs }
  if o.src.isSome then s.release o.held else s

/-- Letters that wait for a port which no longer carries their class are discarded (R249, R337). -/
def State.purgeOut (s : State) (p : Fin 8) : State :=
  (s.outQ.filter fun o => o.port = p && !s.carries p o.lt.cls o.src.isSome).foldl (fun s o => (s.dropOut o).bump (.soPortDowndrop p) 1) s

/-- What a port holds of its link is gone: its buffers' counts, the letters it took for itself, its exchange of franking
time, which is discarded (R361). -/
def State.linkClear (s : State) (p : Fin 8) : State :=
  let s := s.setFld (.clkFrPort p) F.clkFrPort_VALID 0
  let s := if (AMap.get none p s.frEx).isSome then (s.bump .clkFrBadx 1).aonAdd (192 + 16 * p.val + 12) 1 else s
  { s with portIn := s.portIn.filter fun e => e.1 ≠ p, rxHeld := s.rxHeld.filter fun x => x.port ≠ p,
           tx := s.tx.filter fun e => e.1.1 ≠ p, freed := s.freed.filter fun e => e.1.1 ≠ p, arbs := AMap.del p s.arbs,
           frEx := AMap.del p s.frEx, frValid := AMap.del p s.frValid }

/-- A port leaves its present state for `next`, to train as `t` says; a port that was trained to a peer has gone down. It then trains as a
whole, with the strands that a handover excluded (R220, R226; DESIGN CHOICE, log entry 134). -/
def State.portLeave (s : State) (p : Fin 8) (next : Nat) (t : Training) : State :=
  let was := s.linkUp p
  let x := s.port p
  let s := s.setFlds (.soPortStatus p) [(F.soPortStatus_STATE, next), (F.soPortStatus_STRANDS, 0), (F.soPortStatus_HALF, 0),
    (F.soPortStatus_BYPASS_HOP, 0)]
  let s := s.setFld (.soPortPeer p) F.soPortPeer_VALID 0
  let s := (List.finRange 48).foldl (fun s l => s.setFld (.soLaneStat p l) F.soLaneStat_LOCK 0) s
  let s := (s.setPort p { training := t, lastPeer := x.lastPeer, upNs := x.upNs }).linkClear p
  let s := s.purgeOut p
  if was then ((s.bump (.soPortDowns p) 1).portEvent p F.soPortEvents_LINK_DOWN).setOutcome p 0 0 else s

/-- Send a link command (R218). -/
def State.linkCmd (s : State) (p : Fin 8) (cmd : Nat) (strands : BitVec 4) (at' : BitVec 8) : State :=
  { s with linkCmds := s.linkCmds ++ [(p, BitVec.ofNat 16 (cmd + strands.toNat * 2 ^ 4 + at'.toNat * 2 ^ 8))] }

/-- A port goes down and trains again as a whole (R221). -/
def State.portDown (s : State) (p : Fin 8) : State := s.portLeave p 2 .signal

/-- It tells its peer first (R219). -/
def State.portDownSend (s : State) (p : Fin 8) : State := (s.linkCmd p 5 0 0).portDown p

/-! ### Training (R215, R216) -/

/-- Whether a port may train: it is not disabled, and it is in training, or ABSENT and retrying. -/
def State.trains (s : State) (p : Fin 8) : Bool :=
  s.dieUp && !s.portDisabled p && (s.portState p = 2 || s.portState p = 5)

def State.setTraining (s : State) (p : Fin 8) (t : Training) : State := s.setPort p { s.port p with training := t }

/-- Signal or light is detected (step 1): steps 2 to 5 begin, at full rate unless HALF_ONLY is set. -/
def execSignalDetect (p : Fin 8) (s : State) : Out :=
  .next (
    let x := s.port p
    if s.trains p && x.training = .signal && !s.flag (.soPortStatus p) F.soPortStatus_DARK then
      s.setTraining p (.steps (s.flag (.soPortCtrl p) F.soPortCtrl_HALF_ONLY) (~~~x.excluded))
    else s)

/-- Training ends without a strand: TRAIN_FAIL, and the port tries again after 1 ms. -/
def State.trainFail (s : State) (p : Fin 8) : State := (s.setTraining p .retry).portEvent p F.soPortEvents_TRAIN_FAIL

/-- No strand has completed the first four steps: a port at full rate trains again at half rate (R215). -/
def State.noStrand (s : State) (p : Fin 8) (half : Bool) : State :=
  if half then s.trainFail p else s.setTraining p (.steps true (~~~(s.port p).excluded))

/-- A step's time limit passes. Of steps 2 to 4, the strands of `bad` are excluded; with none left at full rate the port trains at half
rate. Of step 5, the strands that are locked have no agreement: training has failed at either rate. -/
def execTrainingStepTimeout (p : Fin 8) (bad : Option (BitVec 4)) (s : State) : Out :=
  .next (
    match s.trains p, (s.port p).training, bad with
    | true, .steps half st, some bad =>
      let st := st &&& ~~~bad
      if st ≠ 0 then s.setTraining p (.steps half st) else s.noStrand p half
    | true, .steps _ _, none => s.trainFail p
    | _, _, _ => s)

/-- The lane number that arrives on each physical lane, as its LANE field gives it, and whether its polarity is inverted (R212,
R216). -/
abbrev LaneMap := Vector (Fin 64 × Bool) 48

/-- The physical lanes on which a lane number arrives. -/
def LaneMap.arrives (m : LaneMap) (l : Fin 48) : List (Fin 48) := (List.finRange 48).filter fun k => m[k].1.val = l.val

/-- The strands each of whose lane numbers arrives once; another fails step 4 of training (R216). -/
def LaneMap.mapped (m : LaneMap) : BitVec 4 :=
  BitVec.ofNat 4 ((([0, 1, 2, 3] : List Nat).filter fun k =>
    (List.finRange 48).all fun l => l.val / 12 ≠ k || (m.arrives l).length = 1).foldl (fun x k => x + 2 ^ k) 0)

/-- PEER_LANE and POLARITY of the lanes of some strands, as training found them (R232). -/
def State.laneMapped (s : State) (p : Fin 8) (st : BitVec 4) (m : LaneMap) : State :=
  (strandLanes st).foldl (fun s l =>
    let k := (m.arrives l).headD l
    s.setFlds (.soLaneStat p l) [(F.soLaneStat_PEER_LANE, k.val), (F.soLaneStat_POLARITY, if m[k].2 then 1 else 0)]) s

/-- LOCK of the lanes of some strands. -/
def State.lanesLock (s : State) (p : Fin 8) (st : BitVec 4) : State :=
  (strandLanes st).foldl (fun s l => s.setFld (.soLaneStat p l) F.soLaneStat_LOCK 1) s

/-- The registers of a port that has just trained as a whole (R232). -/
def State.lanesUp (s : State) (p : Fin 8) (st : BitVec 4) (m : LaneMap) : State :=
  (((List.finRange 48).foldl (fun s l => s.wr (.soLaneStat p l) 0) s).laneMapped p st m).lanesLock p st

/-- The later of two frame numbers, modulo 256. -/
def laterFseq (a b : BitVec 8) : BitVec 8 := if (a - b).toNat < 128 then a else b

/-- The agreement of some strands' drop, or of their adding, at a frame; one agreed twice counts at the later (R219). -/
def agreeAt (st : BitVec 4) (at' : BitVec 8) (xs : AMap (Fin 4) (BitVec 8)) : AMap (Fin 4) (BitVec 8) :=
  ((List.finRange 4).filter fun k : Fin 4 => st.getLsbD k.val).foldl (fun xs k =>
    AMap.set k (match xs.find? fun e => e.1 = k with | some e => laterFseq at' e.2 | none => at') xs) xs

/-- The strands of an agreement. -/
def agreed (xs : AMap (Fin 4) (BitVec 8)) : BitVec 4 := xs.foldl (fun m e => m ||| (1#4 <<< e.1.val)) 0

/-- A port's strands as it receives frame `q`: a strand that an agreement drops or adds is in use, or is not, by whether the frame comes
before the one agreed (R219, R220). -/
def State.rxStrands (s : State) (p : Fin 8) (q : BitVec 8) : BitVec 4 :=
  (s.port p).turns.foldl (fun m e =>
    let on := if q ≠ e.2.1 && laterFseq q e.2.1 = e.2.1 then !e.2.2 else e.2.2
    if on then m ||| (1#4 <<< e.1.val) else m &&& ~~~(1#4 <<< e.1.val)) (s.strands p)

/-- The receive direction turns with an agreement to drop or add strands, at the frame it names. -/
def Port.turn (x : Port) (st : BitVec 4) (add : Bool) (xs : AMap (Fin 4) (BitVec 8)) : Port :=
  { x with turns := (xs.filter fun e => st.getLsbD e.1.val).foldl (fun ts e => AMap.set e.1 (e.2, add) ts) x.turns }

/-- The turns that are past, once the frames up to `q` are delivered: their strands are as STRANDS says. -/
def State.turned (s : State) (p : Fin 8) (q : BitVec 8) : State :=
  let x := s.port p
  s.setPort p { x with turns := x.turns.filter fun e => !(laterFseq q e.2.1 = q && (s.strands p).getLsbD e.1.val = e.2.2) }

/-- The strands whose turn comes at a frame. -/
def dueAt (at' : BitVec 8) (xs : AMap (Fin 4) (BitVec 8)) : BitVec 4 :=
  (xs.filter fun e => e.2 = at').foldl (fun m e => m ||| (1#4 <<< e.1.val)) 0

/-- The frame that a change asked for now takes effect with: 16 ahead of the next one, which carries the command (R219). -/
def Port.askAt (x : Port) : BitVec 8 := x.fseq + 17

/-- Restored strands have trained, or a peer's have: their lanes are placed, and those that this port restores are asked for, at a
frame 16 ahead of the one that asks (R220; log entry 71). -/
def State.restoreTrained (s : State) (p : Fin 8) (st : BitVec 4) (m : LaneMap) : State :=
  let st := st &&& m.mapped &&& ~~~s.strands p
  let s := s.laneMapped p st m
  let ask := st &&& (s.port p).restoring
  if ask = 0 then s else s.linkCmd p 3 ask (s.port p).askAt

/-- Strand agreement: both ends adopt the intersection of their masks and the lower rate. The port is UP where its axis is
released. `plain` tells that no bypass or blank lies across the hop. On a port that is up, strands that are restored have trained. -/
def execPortUp (p : Fin 8) (peer : BitVec 4) (peerHalf plain : Bool) (m : LaneMap) (s : State) : Out :=
  .next (
    if s.dieUp && s.linkUp p then s.restoreTrained p peer m
    else match s.trains p && s.axisReleased (portAxis p), (s.port p).training with
    | true, .steps half st =>
      let locked := st &&& m.mapped
      let st := locked &&& peer
      if locked = 0 then s.noStrand p half
      else if st = 0 then s.trainFail p
      else
        let half := half || peerHalf
        let x := s.port p
        let s := s.setPort p { excluded := x.excluded, lastPeer := x.lastPeer, upNs := x.upNs }
        let s := s.setFlds (.soPortStatus p) [(F.soPortStatus_STATE, 3), (F.soPortStatus_STRANDS, st.toNat),
          (F.soPortStatus_HALF, if half then 1 else 0)]
        let s := s.lanesUp p st m
        let s := if half && plain then s.portEvent p F.soPortEvents_RATE_HALF else s
        s.setOutcome p 0 0
    | _, _ => s)

/-- One millisecond after failing, a port starts again from step 1. -/
def execTrainingRetry (p : Fin 8) (s : State) : Out :=
  .next (if s.trains p && (s.port p).training = .retry then s.setTraining p .signal else s)

/-! ### Control (R221, R231, R232) -/

/-- The state of a port that is not disabled and has no link: it trains where its axis is released, and runs in loopback where its axis
is engaged under FORCE (R230). -/
def State.portStart (s : State) (p : Fin 8) : State :=
  let a := portAxis p
  if s.axisReleased a && s.axisHeld a then s.portDown p
  else s.portLeave p (if bitOf (s.fld .ptrBypass F.ptrBypass_FORCE) a.val && s.axisEngaged a then 1 else 6) .idle

/-- A write of DISABLE. The die stops holding an axis both of whose ports are disabled (R223). -/
def State.disableWrite (s : State) (p : Fin 8) (on : Bool) : State :=
  if s.portDisabled p = on then s
  else
    let s := s.setFld (.soPortCtrl p) F.soPortCtrl_DISABLE (if on then 1 else 0)
    if !on then s.portStart p
    else
      let s := s.portLeave p 0 .idle
      let a := portAxis p
      if s.portDisabled (axisPort a true) && s.portDisabled (axisPort a false) then
        s.setFld .ptrBypass F.ptrBypass_HOLD (s.fld .ptrBypass F.ptrBypass_HOLD &&& (15 - 2 ^ a.val))
      else s

def execDisable (p : Fin 8) (on : Bool) (s : State) : Out := .next (if s.dieUp then s.disableWrite p on else s)

/-- A write of RETRAIN: a port that has, or looks for, a link trains as a whole. -/
def State.retrain (s : State) (p : Fin 8) : State :=
  if !s.portDisabled p && (s.linkUp p || s.portState p = 2 || s.portState p = 5) then s.portDown p else s

def execRetrain (p : Fin 8) (s : State) : Out := .next (if s.dieUp then s.retrain p else s)

/-- A received DOWN (R221). -/
def execDown (p : Fin 8) (s : State) : Out := .next (if s.dieUp && s.linkUp p then s.portDown p else s)

/-- An optical port has no light on any lane for 1 µs (R231). -/
def execLightLoss (p : Fin 8) (s : State) : Out :=
  .next (
    if !s.dieUp || p.val < 4 || s.flag (.soPortStatus p) F.soPortStatus_DARK then s
    else
      let s := if s.linkUp p || s.portState p = 2 || s.portState p = 5 then s.portLeave p 2 .idle else s
      s.setFld (.soPortStatus p) F.soPortStatus_DARK 1)

/-- Light has been present for 1 ms: DARK clears, and the port trains. -/
def execLightSteady (p : Fin 8) (s : State) : Out :=
  .next (
    if s.dieUp && s.flag (.soPortStatus p) F.soPortStatus_DARK then
      let s := s.setFld (.soPortStatus p) F.soPortStatus_DARK 0
      if s.trains p then s.setTraining p .signal else s
    else s)

/-- A port with light has had no answer to its training for 1 s. -/
def execAbsentTimeout (p : Fin 8) (s : State) : Out :=
  .next (
    if s.dieUp && s.portState p = 2 && !s.flag (.soPortStatus p) F.soPortStatus_DARK && s.axisReleased (portAxis p) then
      s.portAbsent p
    else s)

/-! ### Losing and restoring strands (R217 to R220) -/

/-- The fewest strands a port runs on. -/
def State.minStrands (s : State) (p : Fin 8) : Nat := s.fld (.soPortCtrl p) F.soPortCtrl_MIN_STRANDS_M1 + 1

/-- The strands that stay once every drop asked for or agreed has taken effect. -/
def State.staying (s : State) (p : Fin 8) : BitVec 4 := s.strands p &&& ~~~((s.port p).failing ||| agreed (s.port p).dropAt)

/-- A lane fails: its strand's slots count as FEC-failed, from frame `since` on where that is known, and the strand is dropped, or the port
goes down. -/
def State.laneFail (s : State) (p : Fin 8) (l : Fin 48) (since : Option (BitVec 8)) : State :=
  let s := s.setFld (.soLaneStat p l) F.soLaneStat_FAILED 1
  let x := s.port p
  let k : BitVec 4 := 1#4 <<< (l.val / 12)
  if s.strands p &&& k = 0 || x.failing &&& k ≠ 0 then s
  else
    let strand : Fin 4 := ⟨l.val / 12, by omega⟩
    let x : Port := { x with failing := x.failing ||| k
                             failedAt := match since with | some q => AMap.set strand q x.failedAt | none => AMap.del strand x.failedAt }
    let s := s.setPort p x
    if strandCount (s.staying p) < s.minStrands p then s.portDownSend p
    else
      (s.setPort p { x with drop := x.drop ++ [(k, x.askAt, 1)] }).linkCmd p 1 k x.askAt

/-- The end of a 1 ms window: lanes whose counts reached the limits fail. -/
def execLaneErrorWindow (p : Fin 8) (s : State) : Out :=
  .next (
    if !s.dieUp || !s.linkUp p then s
    else
      let x := s.port p
      let unc := s.fld (.soPortLimits p) F.soPortLimits_UNCORR_LIMIT
      let corr := 2 ^ s.fld (.soPortLimits p) F.soPortLimits_CORR_LOG2
      let bad := (strandLanes (s.strands p)).filter fun l =>
        (unc ≠ 0 && decide (unc ≤ AMap.get 0 l x.winUnc)) || decide (corr ≤ AMap.get 0 l x.winCorr)
      let s := s.setPort p { x with winCorr := [], winUnc := [] }
      bad.foldl (fun s l => s.laneFail p l none) s)

/-- A received DROP: the strands' removal is scheduled, with that which this port has asked for, and acknowledged. -/
def State.dropIn (s : State) (p : Fin 8) (strands : BitVec 4) (at' : BitVec 8) : State :=
  if strandCount (s.staying p &&& ~~~strands) < s.minStrands p then s.portDownSend p
  else
    let x := s.port p
    let both := x.drop.foldl (fun xs d => agreeAt (d.1 &&& strands) d.2.1 xs) (agreeAt strands at' x.dropAt)
    (s.setPort p ({ x with dropAt := both }.turn strands false both)).linkCmd p 2 strands at'

def execDrop (p : Fin 8) (strands : BitVec 4) (at' : BitVec 8) (s : State) : Out :=
  .next (if s.dieUp && s.linkUp p then s.dropIn p strands at' else s)

/-- A received DROP_ACK confirms a drop that this port asked for. -/
def State.dropAckIn (s : State) (p : Fin 8) (strands : BitVec 4) (at' : BitVec 8) : State :=
  let x := s.port p
  match x.drop.find? fun d => d.1 = strands && d.2.1 = at' with
  | some d =>
    let both := agreeAt strands at' x.dropAt
    s.setPort p ({ x with drop := x.drop.erase d, dropAt := both }.turn strands false both)
  | none => s

def execDropAck (p : Fin 8) (strands : BitVec 4) (at' : BitVec 8) (s : State) : Out :=
  .next (if s.dieUp && s.linkUp p then s.dropAckIn p strands at' else s)

/-- No DROP_ACK within 64 frames of the oldest DROP: it is sent again, and after eight attempts the port goes down. -/
def execDropAckTimeout (p : Fin 8) (s : State) : Out :=
  .next (
    match s.dieUp && s.linkUp p, (s.port p).drop with
    | true, (m, _, tries) :: ds =>
      if 8 ≤ tries then s.portDown p
      else
        let x := s.port p
        (s.setPort p { x with drop := ds ++ [(m, x.askAt, tries + 1)] }).linkCmd p 1 m x.askAt
    | _, _ => s)

/-- The frame of the drop that comes first, seen from the frame being sent. -/
def Port.nextDrop (x : Port) : Option (BitVec 8) :=
  (x.dropAt.map (·.2)).foldl (fun b a => match b with
    | some c => some (if (a - x.fseq).toNat < (c - x.fseq).toNat then a else c)
    | none => some a) none

/-- Frame AT_FSEQ arrives: both ends run on the remaining strands. -/
def execStrandDropAtFseq (p : Fin 8) (s : State) : Out :=
  .next (
    match s.dieUp && s.linkUp p, (s.port p).nextDrop with
    | true, some at' =>
      let x := s.port p
      let m := dueAt at' x.dropAt
      let left := s.strands p &&& ~~~m
      let n := strandCount (s.strands p &&& m)
      let s := s.setPort p { x with dropAt := x.dropAt.filter fun e => e.2 ≠ at' }
      let s := s.setFld (.soPortStatus p) F.soPortStatus_STRANDS left.toNat
      let s := (s.bump (.soPortDrops p) n).portEvent p F.soPortEvents_STRAND_DROP
      if left = 0 then s.portDown p else s
    | _, _ => s)

/-- A write of RESTORE: the dropped strands named train again, while the others carry traffic. -/
def State.restoreWrite (s : State) (p : Fin 8) (m : BitVec 4) : State :=
  let m := m &&& ~~~s.strands p
  if !s.linkUp p || m = 0 then s
  else s.setPort p { s.port p with restoring := (s.port p).restoring ||| m }

def execRestore (p : Fin 8) (m : BitVec 4) (s : State) : Out := .next (if s.dieUp then s.restoreWrite p m else s)

/-- Strands are back in service: their lanes have not failed any more. -/
def State.addStrands (s : State) (p : Fin 8) (m : BitVec 4) : State :=
  let s := s.setFld (.soPortStatus p) F.soPortStatus_STRANDS (s.strands p ||| m).toNat
  (strandLanes m).foldl (fun s l => s.setFlds (.soLaneStat p l) [(F.soLaneStat_FAILED, 0), (F.soLaneStat_LOCK, 1)]) s

/-- Both ends have agreed to add strands from a frame. -/
def State.addAgreed (s : State) (p : Fin 8) (m : BitVec 4) (at' : BitVec 8) : State :=
  let x := s.port p
  let both := agreeAt (m &&& ~~~s.strands p) at' x.addAt
  s.setPort p ({ x with restoring := x.restoring &&& ~~~m, failing := x.failing &&& ~~~m, addAt := both }.turn m true both)

/-- Frame AT_FSEQ of a restore is the one being sent: the strands agreed for it are added. -/
def State.addDue (s : State) (p : Fin 8) : State :=
  let x := s.port p
  let m := dueAt x.fseq x.addAt
  if m = 0 then s else (s.setPort p { x with addAt := x.addAt.filter fun e => e.2 ≠ x.fseq }).addStrands p m

/-- A received RESTORE is answered, and the strands are added from its frame. -/
def State.restoreIn (s : State) (p : Fin 8) (m : BitVec 4) (at' : BitVec 8) : State := (s.addAgreed p m at').linkCmd p 4 m at'

def execRestoreLinkCommand (p : Fin 8) (m : BitVec 4) (at' : BitVec 8) (s : State) : Out :=
  .next (if s.dieUp && s.linkUp p then s.restoreIn p m at' else s)

/-- A received RESTORE_ACK: the strands that this port restores are added from its frame. -/
def State.restoreAckIn (s : State) (p : Fin 8) (m : BitVec 4) (at' : BitVec 8) : State :=
  s.addAgreed p (m &&& (s.port p).restoring) at'

def execRestoreAck (p : Fin 8) (m : BitVec 4) (at' : BitVec 8) (s : State) : Out :=
  .next (if s.dieUp && s.linkUp p then s.restoreAckIn p m at' else s)

/-- A link command that a frame header carries (R218); a reserved CMD is ignored. -/
def State.linkCmdIn (s : State) (p : Fin 8) (c : Nat) : State :=
  let m := BitVec.ofNat 4 (bitsOf c 4 4)
  let at' := BitVec.ofNat 8 (bitsOf c 8 8)
  match bitsOf c 0 4 with
  | 1 => s.dropIn p m at'
  | 2 => s.dropAckIn p m at'
  | 3 => s.restoreIn p m at'
  | 4 => s.restoreAckIn p m at'
  | 5 => s.portDown p
  | _ => s

/-- A restored strand has not trained within 25 ms. -/
def execRestoreTimeout (p : Fin 8) (s : State) : Out :=
  .next (
    let x := s.port p
    if !s.dieUp || x.restoring = 0 then s
    else (s.setPort p { x with restoring := 0 }).portEvent p F.soPortEvents_RESTORE_FAIL)

/-! ### One franking cycle of a port (R208, R408) -/

/-- A port over one franking cycle: the bits it sends on each lane, the flit slots that pass, and the time it is UP. -/
def State.portTick (s : State) (p : Fin 8) : State :=
  if !s.linkUp p then s
  else
    let x := s.port p
    let rate := if s.portHalf p then 112 else 224
    let sent := x.sent + rate
    let done := decide (8192 ≤ sent)
    let ar := AMap.get {} p s.arbs
    let part := 15 * 12 * strandCount (s.strands p) * rate + ar.part
    let slots := part / 8192
    let idle := slots - ar.busy
    let s : State := { s with arbs := AMap.set p { ar with sinceMgmt := min 32 (ar.sinceMgmt + idle), busy := ar.busy - slots, part := part % 8192 } s.arbs }
    let up := if s.portState p = 3 then x.upNs + 1 else x.upNs
    let s := s.setPort p { x with sent := if done then sent - 8192 else sent, fseq := if done then x.fseq + 1 else x.fseq,
                                  upNs := up % 1000000 }
    let s := if done then s.addDue p else s
    if up < 1000000 then s else s.aonAdd (192 + 16 * p.val + if s.portHalf p then 10 else 9) 1

end Sys2Proof.Machine
end

