-- ==== Sys2Proof/Machine/Frames.lean ====
section
/-!
DEFINITION. Lane frames at the receiver: Reed-Solomon decoding (R211), descrambling (R212), credit words (R242, R245), and the
flits in order (R213, R214).
-/
namespace Sys2Proof.Machine

/-! ### GF(2^8) with x^8 + x^4 + x^3 + x^2 + 1 (R211) -/

/-- Multiplication by x. -/
def gfX (a : BitVec 8) : BitVec 8 := if a.getLsbD 7 then (a <<< 1) ^^^ 0x1D#8 else a <<< 1

def gfMulN : Nat → BitVec 8 → BitVec 8 → BitVec 8
  | 0, _, _ => 0
  | n + 1, a, b => (if b.getLsbD 0 then a else 0) ^^^ gfMulN n (gfX a) (b >>> 1)

def gfMul (a b : BitVec 8) : BitVec 8 := gfMulN 8 a b

def gfPow (a : BitVec 8) : Nat → BitVec 8
  | 0 => 1
  | n + 1 => gfMul a (gfPow a n)

def gfInv (a : BitVec 8) : BitVec 8 := gfPow a 254

/-- α to a power. -/
def gfAlpha (n : Nat) : BitVec 8 := gfPow 2 (n % 255)

/-- The value of a polynomial, its lowest coefficient first. -/
def gfEval (cs : List (BitVec 8)) (x : BitVec 8) : BitVec 8 := cs.foldr (fun c acc => c ^^^ gfMul x acc) 0

/-! ### Decoding a codeword (R211) -/

/-- The seven syndromes of a codeword, whose symbol position 0 is its highest coefficient. -/
def rsSyndromes (w : List (BitVec 8)) : List (BitVec 8) :=
  (List.range 7).map fun j => w.foldl (fun acc c => gfMul acc (gfAlpha j) ^^^ c) 0

/-- The state of the Berlekamp-Massey recurrence: the locator, the previous one, its discrepancy, the length, the shift. -/
structure Bm where
  c : List (BitVec 8) := [1]
  b : List (BitVec 8) := [1]
  d : BitVec 8 := 1
  len : Nat := 0
  shift : Nat := 1

def addPoly (a b : List (BitVec 8)) : List (BitVec 8) :=
  (List.range (max a.length b.length)).map fun i => a.getD i 0 ^^^ b.getD i 0

def bmStep (syn : List (BitVec 8)) (m : Bm) (n : Nat) : Bm :=
  let d := (List.range (m.len + 1)).foldl (fun acc i => acc ^^^ gfMul (m.c.getD i 0) (if i ≤ n then syn.getD (n - i) 0 else 0)) 0
  if d = 0 then { m with shift := m.shift + 1 }
  else
    let k := gfMul d (gfInv m.d)
    let c := addPoly m.c (List.replicate m.shift 0 ++ m.b.map (gfMul k))
    if 2 * m.len ≤ n then { c := c, b := m.c, d := d, len := n + 1 - m.len, shift := 1 }
    else { m with c := c, shift := m.shift + 1 }

/-- The positions that the locator names. -/
def rsLocate (n : Nat) (c : List (BitVec 8)) : List Nat :=
  (List.range n).filter fun j => gfEval c (gfInv (gfAlpha (n - 1 - j))) = 0

/-- The error at one of the positions found: the syndromes filtered by the polynomial that vanishes at the others. -/
def rsError (n : Nat) (syn : List (BitVec 8)) (js : List Nat) (j : Nat) : BitVec 8 :=
  let x := fun k => gfAlpha (n - 1 - k)
  let others := js.filter fun k => k ≠ j
  let p := others.foldl (fun p k => addPoly (0 :: p) (p.map (gfMul (x k)))) [1]
  let num := (List.range p.length).foldl (fun acc i => acc ^^^ gfMul (p.getD i 0) (syn.getD i 0)) 0
  gfMul num (gfInv (gfEval p (x j)))

/-- A codeword corrected, with the number of symbols corrected; none where it is uncorrectable. -/
def rsDecode (w : List (BitVec 8)) : Option (List (BitVec 8) × Nat) :=
  let syn := rsSyndromes w
  if syn.all fun x => x = 0 then some (w, 0)
  else
    let m := (List.range 7).foldl (bmStep syn) {}
    let js := rsLocate w.length m.c
    if 3 < m.len || js.length ≠ m.len then none
    else
      let w' := js.foldl (fun v j => v.set j (v.getD j 0 ^^^ rsError w.length syn js j)) w
      if (rsSyndromes w').all (fun x => x = 0) then some (w', js.length) else none

/-! ### Frames (R210, R212) -/

/-- One step of the additive sequence x^31 + x^28 + 1: bit n + 31 is bit n + 28 xor bit n, and bit 0 goes out first (log entry 118). -/
def lfsrStep (s : BitVec 31) : BitVec 31 :=
  (s >>> 1) ||| (if s.getLsbD 28 != s.getLsbD 0 then 0x40000000#31 else 0)

/-- Eight bits of the sequence, least significant first, and the state after them. -/
def lfsrByte (s : BitVec 31) : BitVec 8 × BitVec 31 :=
  (List.range 8).foldl (fun e i => (e.1 ||| (if e.2.getLsbD 0 then 1#8 <<< i else 0), lfsrStep e.2)) (0, s)

/-- Bytes with the sequence from a state added. -/
def lfsrAdd : BitVec 31 → List Byte → List Byte
  | _, [] => []
  | s, b :: bs => let e := lfsrByte s; (b ^^^ e.1) :: lfsrAdd e.2 bs

/-- The scrambler's state at byte 8 of a frame. -/
def scrambleSeed (lane : Fin 48) (fseq : BitVec 8) : BitVec 31 :=
  0x40000000#31 ||| BitVec.ofNat 31 (lane.val * 2 ^ 8) ||| fseq.setWidth 31

/-- A frame's codewords decoded: its bytes as far as they could be corrected, the symbols corrected, and the codewords that were
uncorrectable. -/
structure Decoded where
  bytes : List Byte
  corr : Nat
  uncorr : Nat

/-- FEC over the eight interleaved codewords of a frame (R211). -/
def fecDecode (frame : List Byte) : Decoded :=
  let ws := (List.range 8).map fun c => (List.range 128).map fun i => frame.getD (8 * i + c) 0
  let ds := ws.map fun w => (w, rsDecode w)
  let cols := ds.map fun e => match e.2 with | some (w, _) => w | none => e.1
  { bytes := (List.range 1024).map fun b => (cols.getD (b % 8) []).getD (b / 8) 0,
    corr := (ds.filterMap fun e => e.2.map (·.2)).foldl (· + ·) 0,
    uncorr := (ds.filter fun e => e.2.isNone).length }

/-- The frame header (R210): MARK, LANE, FSEQ, SLOTS, CTL_TYPE and CTL. -/
def frLane (h : Nat) : Nat := bitsOf h 16 6
def frMark (h : Nat) : Nat := bitsOf h 0 16
def frFseq (h : Nat) : BitVec 8 := BitVec.ofNat 8 (bitsOf h 22 8)
def frSlots (h : Nat) : BitVec 15 := BitVec.ofNat 15 (bitsOf h 30 15)
def frCtl (h : Nat) : Nat × Nat := (bitsOf h 45 3, bitsOf h 48 16)

/-- The 15 slots of a corrected frame, descrambled. -/
def frameSlots (lane : Fin 48) (fseq : BitVec 8) (bytes : List Byte) : List (List Byte) :=
  let body := lfsrAdd (scrambleSeed lane fseq) (bytesAt bytes 8 960)
  (List.range 15).map fun k => bytesAt body (64 * k) 64

/-! ### Credit words (R242, R245) -/

/-- Free granules of the oldest letters. -/
def freeGranules : Nat → List (Nat × Bool) → List (Nat × Bool)
  | _, [] => []
  | 0, h => h
  | n + 1, (g, i) :: h => if g ≤ n + 1 then freeGranules (n + 1 - g) h else (g - (n + 1), i) :: h

def TxVc.granules (t : TxVc) : Nat := (t.held.map (·.1)).foldl (· + ·) 0

def State.txVc (s : State) (p : Fin 8) (vc : Fin 16) : TxVc := AMap.get {} (p, vc) s.tx
def State.setTx (s : State) (p : Fin 8) (vc : Fin 16) (t : TxVc) : State := { s with tx := AMap.set (p, vc) t s.tx }

/-- A credit error: counted, and the port trains again (R245). -/
def State.creditError (s : State) (p : Fin 8) : State := (s.bump (.soPortCreditErr p) 1).portDown p

/-- Apply a credit word: the granules freed since the last one. -/
def State.creditWord (s : State) (p : Fin 8) (ctl : Nat) : State :=
  if !s.linkUp p then s
  else
    let vc := Fin.ofNat 16 ctl
    let freed := bitsOf ctl 4 12
    let t := s.txVc p vc
    let d := (freed + 4096 - t.freed) % 4096
    if t.granules < d then s.creditError p else s.setTx p vc { held := freeGranules d t.held, freed := freed }

/-- The credit words of one frame period: each of which two copies agreed before FEC, and then, as corrected, each other: a wrong agreement
shows in these (R242). -/
def creditWords (fs : List RxFrame) : List Nat :=
  let raw := fs.filterMap fun f => f.raw.bind fun c => if c.1 = 1 then some c.2 else none
  let agreed := (raw.filter fun c => 2 ≤ (raw.filter (· = c)).length).eraseDups
  let fixed := (fs.filterMap fun f => f.ctl.bind fun c => if c.1 = 1 then some c.2 else none).eraseDups
  agreed ++ fixed.filter fun c => !agreed.contains c

/-! ### Flits (R213, R214) -/

/-- The strands whose slots of a frame count as FEC-failed (R219). -/
def Port.failed (x : Port) (q : BitVec 8) : BitVec 4 :=
  x.failedAt.foldl (fun m e => if laterFseq q e.2 = q then m else m &&& ~~~(1#4 <<< e.1.val)) x.failing

/-- Whether a lane of a frame has had no MARK in its last frames, and has not failed: if it fails, its strand's slots count as FEC-failed
from the first of these on, and so these wait (R219). -/
def State.marksWait (s : State) (p : Fin 8) (q : BitVec 8) : Bool :=
  let x := s.port p
  (strandLanes (s.rxStrands p q &&& ~~~x.failing)).any fun l => AMap.get 0 l x.noMark ≠ 0

/-- The flits of one frame period, by slot and then by ascending lane; none for a flit that is FEC-failed. -/
def frameFlits (failing : BitVec 4) (fs : List RxFrame) : List (Option (List Byte)) :=
  let fs := (List.finRange 48).filterMap fun l => fs.find? fun f => f.lane = l
  (List.range 15).flatMap fun k => (fs.filter fun f => f.slots.getLsbD k).map fun f =>
    if failing.getLsbD (f.lane.val / 12) then none else f.data.map fun d => d.getD k []

/-- When a frame period started to arrive, on the lowest-numbered active lane (R360). -/
def frameBegan (lanes : List (Fin 48)) (fs : List RxFrame) : Nat :=
  match fs.find? fun f => lanes.head? = some f.lane with | some f => f.began | none => 0

/-- The time of one lane frame on the line, in units of 1/256 ns: 8,192 bits (R208, R210). -/
def State.frameTime (s : State) (p : Fin 8) : Nat := 8192 * 256 / (if s.portHalf p then 112 else 224)

/-- Deliver a frame period of which every active lane's frame is there, and no lane may prove to have failed in it. -/
def State.deliverFrames (s : State) (p : Fin 8) (fseq : BitVec 8) : State :=
  let x := s.port p
  let fs := x.frames.filter fun f => f.fseq = fseq
  let lanes := strandLanes (s.rxStrands p fseq)
  if s.linkUp p && !s.marksWait p fseq && lanes.all fun l => fs.any fun f => f.lane = l then
    let fs := fs.filter fun f => lanes.contains f.lane
    let new := frameFlits (x.failed fseq) fs
    let s := s.setPort p { x with frames := x.frames.filter fun f => f.fseq ≠ fseq, flits := x.flits ++ new,
                                  starts := x.starts.drop (x.starts.length - x.flits.length) ++ new.map fun _ => frameBegan lanes fs }
    (creditWords fs).foldl (fun s c => s.creditWord p c) (s.turned p fseq)
  else s

/-- Deliver every frame period that can be, in order of arrival. -/
def State.deliverAll (s : State) (p : Fin 8) : State :=
  (((s.port p).frames.map (·.fseq)).eraseDups).foldl (fun s q => s.deliverFrames p q) s

/-- Count a lane's corrected symbols and uncorrectable codewords (R217, R232). -/
def State.countFec (s : State) (p : Fin 8) (l : Fin 48) (corr unc : Nat) : State :=
  let r := Reg.soLaneStat p l
  let s := s.setFlds r [(F.soLaneStat_CORR, satAdd (2 ^ 32 - 1) (s.fld r F.soLaneStat_CORR) corr),
    (F.soLaneStat_UNCORR, satAdd (2 ^ 16 - 1) (s.fld r F.soLaneStat_UNCORR) unc)]
  let s := (s.bump (.soPortFecCorr p) corr).bump (.soPortFecUncorr p) unc
  let x := s.port p
  s.setPort p { x with winCorr := AMap.set l (AMap.get 0 l x.winCorr + corr) x.winCorr,
                       winUnc := AMap.set l (AMap.get 0 l x.winUnc + unc) x.winUnc }

/-- MARK was found, or was absent, where a lane's frame `q` was expected; four absences in a row fail the lane, from the first of these
frames on (R217, R219). -/
def State.markSeen (s : State) (p : Fin 8) (l : Fin 48) (q : BitVec 8) (found : Bool) : State :=
  let x := s.port p
  let n := if found then 0 else AMap.get 0 l x.noMark + 1
  let s := s.setPort p { x with noMark := AMap.set l n x.noMark }
  if n = 4 then (s.setFld (.soLaneStat p l) F.soLaneStat_LOCK 0).laneFail p l (some (q - 3)) else s

/-- The lane that arrives on a physical lane, as training placed the active ones (R216). -/
def State.laneAt (s : State) (p : Fin 8) (k : Fin 48) : Fin 48 :=
  ((strandLanes (s.strands p ||| agreed ((s.port p).turns.map fun e => (e.1, e.2.1)))).find? fun l => s.fld (.soLaneStat p l) F.soLaneStat_PEER_LANE = k.val).getD k

/-- The lane of a frame that arrives on a physical lane: as its LANE field says, where the frame can be read (R216). -/
def State.frameLane (s : State) (p : Fin 8) (k : Fin 48) (frame : Option (List Byte)) : Fin 48 :=
  match frame with
  | none => s.laneAt p k
  | some f =>
    let d := fecDecode f
    let h := natAt d.bytes 0 8
    if h' : frLane h < 48 then (if d.uncorr = 0 && frMark h = 0x3CA5 then ⟨frLane h, h'⟩ else s.laneAt p k) else s.laneAt p k

/-- The frame as the receiver takes it on lane `l`: one that never arrives, or has an uncorrectable codeword, delivers its slots
FEC-failed. -/
def rxFrame (l : Fin 48) (fseq : BitVec 8) (frame : Option (List Byte)) : RxFrame × Nat × Nat × Bool :=
  match frame with
  | none => (⟨fseq, l, BitVec.allOnes 15, none, none, none, 0⟩, 0, 0, false)
  | some f =>
    let d := fecDecode f
    let raw := natAt f 0 8
    let h := natAt d.bytes 0 8
    let found := decide (frMark h = 0x3CA5)
    if d.uncorr = 0 && found then
      (⟨frFseq h, l, frSlots h, some (frameSlots l (frFseq h) d.bytes), some (frCtl raw), some (frCtl h), 0⟩, d.corr, 0, true)
    else (⟨fseq, l, frSlots h, none, some (frCtl raw), none, 0⟩, d.corr, d.uncorr, found)

/-- A lane frame is 1,024 bytes long (R210). -/
def frameOk (frame : Option (List Byte)) : Bool := frame.all fun f => f.length = 1024

/-- The link command of a frame, where it is the first copy decoded of its frame period (R218). -/
def RxFrame.firstCmd (r : RxFrame) (before : List RxFrame) : Option Nat :=
  r.ctl.bind fun c =>
    if c.1 = 2 && before.all (fun f => f.fseq ≠ r.fseq || f.ctl.all fun c => c.1 ≠ 2) then some c.2 else none

/-- A frame, or the want of one, on a physical lane of a port: `fseq` is the frame number expected there. -/
def execLaneFrameReceive (p : Fin 8) (k : Fin 48) (fseq : BitVec 8) (frame : Option (List Byte)) (s : State) : Out :=
  if !frameOk frame then .fault (.illFormed "LANE_FRAME_RECEIVE")
  else .next (
    let l := s.frameLane p k frame
    let r := rxFrame l fseq frame
    if !s.dieUp || !s.linkUp p || !(s.rxStrands p r.1.fseq).getLsbD (l.val / 12) then s
    else
      let x := s.port p
      let s := s.setPort p { x with frames := x.frames ++ [{ r.1 with began := s.stampNow - s.frameTime p }] }
      let s := (s.countFec p l r.2.1 r.2.2.1).markSeen p l r.1.fseq r.2.2.2
      let s := match s.linkUp p, r.1.firstCmd x.frames with
        | true, some c => s.linkCmdIn p c
        | _, _ => s
      s.deliverAll p)

end Sys2Proof.Machine
end

