-- ==== Sys2Proof/Machine/Letters.lean ====
section
/-!
DEFINITION. Letters on a link: head flits and their CRC (R235, R237), letter sync (R240), input buffers and credit (R241 to
R245, R250), the arbiter of an output (R246), and the letters that a port takes for itself (R336, R343, R359, R421).
-/
namespace Sys2Proof.Machine

/-! ### Head flits (R235, R237) -/

/-- CRC-32C, its polynomial bit-reversed (R237). -/
def crcCastagnoli : Nat := 0x82F63B78

/-- The bits of a head flit below HCRC. -/
def headBits (lt : Letter) : Nat :=
  lt.dest.toNat + lt.src.toNat * 2 ^ 14 + lt.vc.val * 2 ^ 28 + lt.cls.code * 2 ^ 32 + (if lt.epoch then 2 ^ 35 else 0) +
    lt.jobTag.toNat * 2 ^ 36 + lt.op.toNat * 2 ^ 52 + lt.hops.toNat * 2 ^ 58 + lt.length % 2 ^ 13 * 2 ^ 64 +
    lt.status.toNat * 2 ^ 80 + lt.postmark.toNat * 2 ^ 96 + lt.target.toNat * 2 ^ 128 + lt.frankNs.toNat * 2 ^ 192 +
    lt.frankFrac.toNat * 2 ^ 256 + lt.refPostmark.toNat * 2 ^ 272 + lt.poison.toNat * 2 ^ 320

/-- HCRC of a head flit: over bytes 0 to 59, VC and HOPS taken as 0. -/
def headCrc (bs : List Byte) : Nat :=
  let w := natAt bs 0 8
  let w0 := w - bitsOf w 28 4 * 2 ^ 28 - bitsOf w 58 6 * 2 ^ 58
  crc32 crcCastagnoli (toBytes 8 w0 ++ bytesAt bs 8 52)

def headFlit (lt : Letter) : List Byte :=
  let bs := toBytes 60 (headBits lt)
  bs ++ toBytes 4 (headCrc bs)

/-- The fields of a head flit. -/
def readHead (bs : List Byte) : Letter :=
  let v := natAt bs 0 64
  { dest := BitVec.ofNat 14 v, src := BitVec.ofNat 14 (bitsOf v 14 14), vc := Fin.ofNat 16 (bitsOf v 28 4),
    cls := LClass.ofCode (bitsOf v 32 3), epoch := bitOf v 35, jobTag := BitVec.ofNat 16 (bitsOf v 36 16),
    op := BitVec.ofNat 6 (bitsOf v 52 6), hops := BitVec.ofNat 6 (bitsOf v 58 6), length := bitsOf v 64 13,
    status := BitVec.ofNat 8 (bitsOf v 80 8), postmark := BitVec.ofNat 32 (bitsOf v 96 32),
    target := BitVec.ofNat 64 (bitsOf v 128 64), frankNs := BitVec.ofNat 64 (bitsOf v 192 64),
    frankFrac := BitVec.ofNat 8 (bitsOf v 256 8), refPostmark := BitVec.ofNat 32 (bitsOf v 272 32),
    poison := BitVec.ofNat 64 (bitsOf v 320 64) }

def headOk (bs : List Byte) : Bool := natAt bs 60 4 = headCrc bs

/-- Every reserved field of a head flit is 0. -/
def headReserved (bs : List Byte) : Bool :=
  let v := natAt bs 0 64
  bitsOf v 77 3 = 0 && bitsOf v 88 8 = 0 && bitsOf v 264 8 = 0 && bitsOf v 304 16 = 0 && bitsOf v 384 96 = 0

/-- A letter's VC is one of its class (R236). -/
def vcOfClass (lt : Letter) : Bool := lt.vc.val = lowVc lt || (hasPair lt.cls && lt.vc.val = lowVc lt + 1)

/-- Body flits of a letter (R234, R235). -/
def flitsOf (lt : Letter) : Nat := if lt.cls == .request then 0 else ceilDiv lt.length 64

/-- Granules of a letter (R241). -/
def granulesOf (lt : Letter) : Nat := ceilDiv (1 + flitsOf lt) 8

/-- Body flit `k` with the keyed pattern added or removed (R239). -/
def patternFlit (hcrc k : Nat) (bs : List Byte) : List Byte :=
  lfsrAdd (BitVec.ofNat 31 (hcrc ^^^ (k * 0x9E3779B9)) ||| 1#31) bs

/-- The flits of a letter as they leave a port. -/
def wireFlits (lt : Letter) : List (List Byte) :=
  let h := headFlit lt
  h :: (List.range (flitsOf lt)).map fun k => patternFlit (natAt h 60 4) k (bytesAt lt.body (64 * k) 64)

/-- The payload of a letter from the body flits received: the keyed pattern removed, and what lies beyond LENGTH ignored (R234). -/
def bodyOf (hcrc len : Nat) (fs : List (List Byte)) : List Byte :=
  (fs.zipIdx.flatMap fun e => patternFlit hcrc e.2 e.1).take len

/-! ### Buffers (R241, R244) -/

/-- Granules of the shared pool of a port's input buffer. -/
def poolOf (p : Fin 8) : Nat := if p.val < 4 then 480 else 4064

/-- Pool granules that a VC's granules take. -/
def poolPart (n : Nat) : Nat := n - 2

/-- Whether `n` more granules on a VC take pool granules, and whether there is room for them, when VC `v` holds `h v`. -/
def takesPool (h : Fin 16 → Nat) (vc : Fin 16) (n : Nat) : Bool := decide (poolPart (h vc) < poolPart (h vc + n))
def roomFor (pool : Nat) (h : Fin 16 → Nat) (vc : Fin 16) (n : Nat) : Bool :=
  let after := (List.finRange 16).map fun v => poolPart (if v = vc then h v + n else h v)
  let idle := ((List.finRange 16).filter fun v => v ≠ vc && poolPart (h v) = 0).length
  !takesPool h vc n || decide (after.foldl (· + ·) 0 + 7 * idle ≤ pool)

/-- What the input buffer of a port holds. -/
def State.rxGranules (s : State) (p : Fin 8) (v : Fin 16) : Nat :=
  ((s.rxHeld.filter fun x => x.port = p && x.vc = v).map (·.granules)).foldl (· + ·) 0

/-! ### Receiving (R237, R240, R245) -/

/-- The three conditions on a flit that is taken as the next head (R240). -/
def nextHead : Option (List Byte) → Bool
  | some f => headOk f && headReserved f && vcOfClass (readHead f)
  | none => false

/-- Hunt for a head after one was lost, with `n` flits discarded so far: more are discarded until one meets the conditions, 4,096 in
all (R240). -/
def huntHead (n : Nat) : List (Option (List Byte)) → List (Option (List Byte)) × Option Nat
  | [] => ([], some n)
  | f :: fs =>
    if 4096 ≤ n then (f :: fs, some n) else if nextHead f then (f :: fs, none) else huntHead (n + 1) fs

/-- The MGMT and DIAG letters that a port takes for itself: identity, franking exchanges, remote triggers. -/
def portLetter (lt : Letter) : Bool :=
  (lt.cls == .mgmt && (lt.op = 1 || lt.op = 0x10 || lt.op = 0x11)) || (lt.cls == .diag && lt.op = 1)

/-- MGMT and DIAG OP values that are reserved (R343, R359, R421). -/
def reservedOp (lt : Letter) : Bool :=
  match lt.cls with
  | .mgmt => !(portLetter lt || lt.op = 2 || lt.op = 3 || lt.op = 4)
  | .diag => !portLetter lt
  | _ => false

def State.accepted (s : State) (p : Fin 8) : Bool := s.linkUp p && s.fld (.soPortDisc p) F.soPortDisc_OUTCOME = 1

/-- FR_SYNC and FR_REPLY (R359). -/
def frankLetter (lt : Letter) : Bool := lt.cls == .mgmt && (lt.op = 0x10 || lt.op = 0x11)

/-- When the frame with the oldest flit of a port started to arrive. -/
def Port.headBegan (x : Port) : Nat := x.starts.getD (x.starts.length - x.flits.length) 0

/-- A franking letter keeps the receive stamp of the frame with its head (R360). -/
def State.stampIn (s : State) (p : Fin 8) (lt : Letter) (began : Nat) : State :=
  if frankLetter lt then s.setPort p { s.port p with stamps := (s.port p).stamps ++ [(lt, began)] } else s

/-- A letter that a port has received whole and buffered: the port takes it, or it is routed (R247), or discarded. -/
def State.letterIn (s : State) (p : Fin 8) (lt : Letter) : State :=
  let s := s.traceHead (portUnit p) lt false
  if !s.carries p lt.cls (!portLetter lt && decide (lt.dest ≠ s.chip)) then (s.bump (.soPortDowndrop p) 1).release lt
  else if reservedOp lt then s.release lt
  else if portLetter lt then
    if lt.op = 1 && lt.cls == .mgmt || s.accepted p then { s with portIn := s.portIn ++ [(p, lt)] } else s.release lt
  else
    let t := s.forward lt (some p)
    if t.inbox.length = s.inbox.length && t.outQ.length = s.outQ.length then t.release lt else t

/-- The next letter among a port's flits, its body arrived: dead letters are counted and dropped. -/
def State.headIn (s : State) (p : Fin 8) : State :=
  let x := s.port p
  match x.flits with
  | [] => s
  | none :: fs => (s.setPort p { x with flits := fs, hunting := some 0 }).bump .soDeadHcrc 1
  | some f :: fs =>
    if !headOk f then (s.setPort p { x with flits := fs, hunting := some 0 }).bump .soDeadHcrc 1
    else
      let h := readHead f
      if fs.length < flitsOf h then s
      else
        let body := fs.take (flitsOf h)
        let s := s.setPort p { x with flits := fs.drop (flitsOf h) }
        if !roomFor (poolOf p) (s.rxGranules p) h.vc (granulesOf h) then s.creditError p
        else if body.any Option.isNone then (s.bump .soDeadBody 1).freedMore (p, h.vc) (granulesOf h)
        else if 48 ≤ h.hops.toNat then (s.bump .soNoroute 1).freedMore (p, h.vc) (granulesOf h)
        else
          let lt := { h with body := if h.cls == .request then [] else bodyOf (natAt f 60 4) h.length (body.map (·.getD [])) }
          let held : RxHeld := { port := p, vc := h.vc, granules := granulesOf h, lt := lt }
          ({ s with rxHeld := s.rxHeld ++ [held] }.stampIn p lt x.headBegan).letterIn p lt

def execLetterHeadReceive (p : Fin 8) (s : State) : Out :=
  .next (
    if !s.dieUp || !s.linkUp p then s
    else
      let x := s.port p
      match x.hunting with
      | none => s.headIn p
      | some n =>
        match huntHead n x.flits with
        | (fs, some k) => s.setPort p { x with flits := fs, hunting := some k }
        | (fs, none) => ((s.setPort p { x with flits := fs, hunting := none }).bump .soDeadHcrc 1).headIn p)

/-- No head within 4,096 flits: the port trains again. -/
def execResyncLimit (p : Fin 8) (s : State) : Out :=
  .next (
    match s.dieUp && s.linkUp p, (s.port p).hunting with
    | true, some n => if 4096 ≤ n then s.portDown p else s
    | _, _ => s)

/-! ### Sending (R239, R243, R244, R246, R250) -/

def OutLetter.through (o : OutLetter) : Bool := o.src.isSome

/-- A through letter that entered the chip on the axis it leaves on. -/
def OutLetter.sameAxis (o : OutLetter) : Bool := o.src.any fun q => decide (portAxis q = portAxis o.port)

/-- Whether the next input buffer, as the sender counts it, has room for a letter (R243, R250). -/
def State.hasRoom (s : State) (o : OutLetter) : Bool :=
  let n := if !hasPair o.lt.cls && !o.sameAxis then 2 else granulesOf o.lt
  roomFor (poolOf o.port) (fun v => (s.txVc o.port v).granules) o.lt.vc n

/-- Pool granules of the next buffer that injected letters hold. -/
def State.injectedPool (s : State) (p : Fin 8) : Nat :=
  ((List.finRange 16).map fun v =>
    let t := s.txVc p v
    min (poolPart t.granules) (((t.held.filter fun e => e.2).map (·.1)).foldl (· + ·) 0)).foldl (· + ·) 0

/-- The letters at the head of their input VCs that are routed to a port. -/
def State.heads (s : State) (p : Fin 8) : List OutLetter :=
  let key := fun o : OutLetter => (o.src, o.inVc, if o.src.isNone then some o.port else none)
  s.outQ.zipIdx.filterMap fun e =>
    if e.1.port = p && (s.outQ.take e.2).all (fun o => key o ≠ key e.1) then some e.1 else none

/-- Whether a letter at the head of its VC holds credit: the buffer's, and for an injected letter its share of the pool. -/
def State.hasCredit (s : State) (o : OutLetter) : Bool :=
  s.hasRoom o &&
    (o.through || !takesPool (fun v => (s.txVc o.port v).granules) o.lt.vc (granulesOf o.lt) ||
      decide (4 * s.injectedPool o.port < 3 * poolOf o.port) ||
      (s.heads o.port).all fun x => !x.through || s.hasRoom x)

/-- The letter whose output VC comes first after `last`, in ascending order, and of those of one VC the oldest (R246; log entry 119). -/
def nextVc (last : Fin 16) (os : List OutLetter) : Option OutLetter :=
  (List.range 16).findSome? fun k => os.find? fun o => o.lt.vc.val = (last.val + 1 + k) % 16

def isManage (o : OutLetter) : Bool := !hasPair o.lt.cls

/-- The kind of a letter for the arbiter. -/
def OutLetter.kind (o : OutLetter) : ArbKind := if isManage o then .manage else if o.through then .through else .injected

/-- The next letter of a kind, its VCs taking turns. -/
def Arbiter.turn (a : Arbiter) (k : ArbKind) (os : List OutLetter) : Option OutLetter :=
  nextVc (AMap.get 15 k a.lastVc) (os.filter fun o => o.kind = k)

/-- The arbiter's choice among the letters that hold credit (R246). -/
def Arbiter.choose (a : Arbiter) (os : List OutLetter) : Option OutLetter :=
  let waits := fun k => os.any fun o => o.kind = k
  if waits .manage && (decide (32 ≤ a.sinceMgmt) || !(waits .through || waits .injected)) then a.turn .manage os
  else if !waits .through then a.turn .injected os
  else if !waits .injected then a.turn .through os
  else a.turn (if 0 ≤ a.balance then .through else .injected) os

/-- The arbiter after a letter has started, its flits in the next slots. -/
def Arbiter.started (a : Arbiter) (share : Nat) (o : OutLetter) : Arbiter :=
  let n := 1 + flitsOf o.lt
  let b := if o.through then a.balance - (16 - share : Nat) * (n : Int) else a.balance + share * (n : Int)
  { a with
    balance := max (-65536) (min 65536 b), lastVc := AMap.set o.kind o.lt.vc a.lastVc,
    sinceMgmt := min 32 (if isManage o then n else a.sinceMgmt + n), busy := a.busy + n }

/-- How a body flit of a letter fails its CRC in a buffer (R238): before the head has left, or as flit `k` after it. -/
def deadEarly : Option (Option Nat) → Bool
  | some none => true
  | _ => false

/-- When the lane frame that takes the next head starts on the line, in units of 1/256 ns: the present one, or, where the flits that
have started fill it, a later one (R210, R213, R360). -/
def State.frameStart (s : State) (p : Fin 8) : Nat :=
  let x := s.port p
  let slots := 15 * 12 * strandCount (s.strands p)
  let ahead := (slots * x.sent / 8192 + (AMap.get {} p s.arbs).busy) / slots
  s.stampNow + ahead * s.frameTime p - x.sent * 256 / (if s.portHalf p then 112 else 224)

/-- A body with `n` bytes from `at'` replaced by a number. -/
def withNat (bs : List Byte) (at' n v : Nat) : List Byte := bs.take at' ++ toBytes n v ++ bs.drop (at' + n)

/-- A franking letter is stamped with the start of the frame that takes its head: the exchange notes t1, and FR_REPLY carries t3 in its own
body; the phase that it waited with is what the interpolator resolves below the counter (R360; log entry 78). -/
def State.stampOut (s : State) (p : Fin 8) (lt : Letter) : State × Letter :=
  if lt.cls == .mgmt && lt.op = 0x10 then
    match AMap.get none p s.frEx with
    | some ex => ({ s with frEx := AMap.set p (some { ex with t1 := some (s.frameStart p - ex.phase) }) s.frEx }, lt)
    | none => (s, lt)
  else if lt.cls == .mgmt && lt.op = 0x11 then
    let t3 := s.frameStart p - natAt lt.body 6 1
    (s, { lt with body := withNat (withNat lt.body 6 1 (t3 % 256)) 0x10 8 (t3 / 256) })
  else (s, lt)

/-- A letter's delivery timer starts as its head leaves, and takes RETRIES then (R318, R324). -/
def State.timerStarts (s : State) (q : OutLetter) : State :=
  { s with outstanding := s.outstanding.map fun o => if q.isOf o.key o.letter.postmark then { o with limit := s.retries } else o
           sendStreams := s.sendStreams.map fun e =>
             if e.2.clearing.isSome && q.isOf e.1 e.2.clearPm then (e.1, { e.2 with clearLimit := s.retries }) else e }

/-- A torus output starts a letter. A letter with a body flit that fails its CRC before the head has left is discarded whole; after it,
the failed flit's lane frame goes out with its parity inverted (R238; log entry 69). -/
def State.startOut (s : State) (p : Fin 8) (bad : Option (Option Nat)) : State :=
  let a := AMap.get {} p s.arbs
  match a.choose ((s.heads p).filter fun o => s.carries p o.lt.cls o.through && s.hasCredit o) with
  | none => s
  | some o =>
    let s := s.dropOut o
    if deadEarly bad && flitsOf o.lt ≠ 0 then s.bump .soDeadBody 1
    else
      let failed := bad.join.filter fun k => decide (k < flitsOf o.lt)
      let (s, lt) := (s.timerStarts o).stampOut p o.lt
      let t := s.txVc p o.lt.vc
      let s := s.setTx p o.lt.vc { t with held := t.held ++ [(granulesOf o.lt, !o.through)] }
      let s : State := { s with arbs := AMap.set p (a.started (s.fld (.soPortArb p) F.soPortArb_TRANSIT_SHARE) o) s.arbs }
      let s := s.bump (if o.through then .soPortFlitsThrough p else .soPortFlitsInjected p) (1 + flitsOf o.lt)
      let s := (s.traceHead (portUnit p) lt true).bump .soDeadBody (if failed.isSome then 1 else 0)
      let s : State :=
        { s with wire := s.wire ++ (wireFlits lt).zipIdx.map fun f => (p, f.1, decide (failed = some (f.2 - 1) ∧ f.2 ≠ 0)) }
      if o.lt.cls == .coll && o.src.isNone then s.pumpPost else s

/-- A letter that a port took for itself leaves the port's buffer as it is processed. -/
def State.takenAt (s : State) (p : Fin 8) (lt : Letter) : State :=
  let xs : List (Fin 8 × Letter) := s.portIn.erase (p, lt)
  let s : State := { s with portIn := xs }
  let x := s.port p
  (if frankLetter lt then s.setPort p { x with stamps := x.stamps.eraseP fun e => e.1 = lt } else s).release lt

/-- The oldest letter released to port 8 whose body fails its CRC in the buffer is discarded whole (R238). -/
def State.deadInbox (s : State) : State :=
  match s.inbox with
  | [] => s
  | lt :: rest => if flitsOf lt ≠ 0 then ({ s with inbox := rest }.release lt).bump .soDeadBody 1 else s

/-- The same for a letter that the collective engine releases from its staging, or a port to itself: letter `k` of those in staging, of the
partials and the circulars there, and of the ports' own. -/
def State.deadAt (s : State) (k : Nat) : State :=
  let ps := s.collOps.flatMap fun o => o.partials.map fun p => (o.id, p)
  let cs := s.circs.filter fun x => x.frame.isSome && s.circHeld x
  let k1 := k - s.collStage.length
  let k2 := k1 - ps.length
  let k3 := k2 - cs.length
  let dead := fun (t : State) (lt : Letter) => if flitsOf lt = 0 then s else (t.bump .soDeadBody 1).pumpPost
  match s.collStage[k]?, ps[k1]?, cs[k2]?, s.portIn[k3]? with
  | some g, _, _, _ => dead ({ s with collStage := s.collStage.erase g }.neverPlaced g) g.letter
  | none, some p, _, _ => dead (s.modOp p.1 fun o => { o with partials := o.partials.erase p.2 }) p.2.letter
  | none, none, some x, _ => dead (s.circRecall x) x.up
  | none, none, none, some (p, lt) => dead (s.takenAt p lt) lt
  | none, none, none, none => s

/-- A letter leaves a buffer of the sorting office for port 8, or one of the collective engine or of a port: it is discarded where a body
flit fails its CRC (R238; log entry 69). -/
def State.startLocal (s : State) : Option (Option Nat) → State
  | none => s
  | some none => s.deadInbox
  | some (some k) => s.deadAt k

/-- An output starts a letter: a torus port, or port 8 (none), where a letter that is good stands until the module takes it. -/
def execLetterStart (p : Option (Fin 8)) (bad : Option (Option Nat)) (s : State) : Out :=
  .next (
    match p with
    | some p => if s.dieUp && s.linkUp p then s.startOut p bad else s
    | none => if s.dieUp then s.startLocal bad else s)

/-- A letter of a port itself: VC 0 or 1, HOPS 0, DEST 0, LENGTH 64, stamped as it is sent. -/
def State.portSend (s : State) (p : Fin 8) (cls : LClass) (op : BitVec 6) (body : List Byte) : State :=
  let lt : Letter := { dest := 0, src := s.chip, vc := if cls == .mgmt then 0 else 1, cls := cls, epoch := s.srcEpoch, op := op,
                       length := 64, frankNs := s.frankNs, frankFrac := BitVec.ofNat 8 s.frankFrac, body := bytesAt body 0 64 }
  let o : OutLetter := { port := p, src := none, inVc := lt.vc, lt := lt }
  { s with outQ := s.outQ ++ [o] }

end Sys2Proof.Machine
end

