-- ==== Sys2Proof/Machine/Discovery.lean ====
section
/-!
DEFINITION. Identity letters (R336), discovery outcomes (R228, R231, R338, R339), and the operator's plan (R333, R334, R347).
-/
namespace Sys2Proof.Machine

/-! ### Identity letters (R336) -/

/-- The torus lengths of the plan, as an identity letter carries them. -/
def State.torusWord (s : State) : Nat := bitsOf (s.rd .ptrPlanChip).toNat 16 16

/-- The body of an identity letter. -/
def State.identityBody (s : State) (p : Fin 8) (seen : Bool) : List Byte :=
  toBytes 4 Config.serialLow.toNat ++ toBytes 4 Config.serialHigh.toNat ++ toBytes 2 0x8A00 ++ toBytes 1 0x11 ++
    toBytes 1 (s.stage + if s.quarantined then 8 else 0) ++ toBytes 2 s.chip.toNat ++ toBytes 1 p.val ++
    toBytes 1 (if seen then 1 else 0) ++ toBytes 4 (bitsOf (s.rd .ptrFwVersion).toNat 0 32) ++
    toBytes 2 (s.fld .ptrPlanChip F.ptrPlanChip_PLAN_GEN) ++ toBytes 2 s.torusWord ++ List.replicate 40 0

/-- The serial that an identity letter carries. -/
def idSerial (b : List Byte) : Nat := natAt b 0 8
def idChip (b : List Byte) : BitVec 14 := BitVec.ofNat 14 (natAt b 0x0C 2)
def idPort (b : List Byte) : Fin 8 := Fin.ofNat 8 (natAt b 0x0E 1)

/-! ### Outcomes (R228, R338) -/

/-- Steps from chip `me` to a peer on an axis of length `n`, in a port's direction. -/
def stepsTo (me peer n : Nat) (plus : Bool) : Nat := if plus then (peer + n - me % n) % n else (me + n - peer % n) % n

/-- The skipped chips of a bypass hop, if the peer is one. -/
def State.bypassSkips (s : State) (p : Fin 8) (b : List Byte) : Option Nat :=
  let a := portAxis p
  let n := s.planTorus a
  let peer := idChip b
  let k := if a.val < 2 then 2 else n - 1
  let d := stepsTo (coord s.chip a) (coord peer a) n (portPlus p)
  if idPort b = (if portPlus p then axisPort a false else axisPort a true) &&
      (List.finRange 4).all (fun c => c = a || coord peer c = coord s.chip c) &&
      decide (coord peer a < n) && decide (2 ≤ d) && decide (d ≤ k) then some (d - 1)
  else none

/-- The outcome and cause of an identity: the first row of R338 that applies. -/
def State.judgePeer (s : State) (p : Fin 8) (b : List Byte) : Nat × Nat :=
  let q := Reg.ptrPlanPeer p
  if natAt b 8 2 ≠ 0x8A00 || natAt b 0x0A 1 ≠ 0x11 then (2, 3)
  else if idSerial b = Config.serialLow.toNat + Config.serialHigh.toNat * 2 ^ 32 then (2, 4)
  else if !s.flag q F.ptrPlanPeer_EXPECT then (2, 2)
  else if natAt b 0x16 2 ≠ s.torusWord then (2, 7)
  else if portAxis (idPort b) ≠ portAxis p then (2, 5)
  else if idPort b = p then (2, 6)
  else if (idChip b).toNat = s.fld q F.ptrPlanPeer_PEER_CHIP &&
      (!s.flag q F.ptrPlanPeer_SERIAL_CHECK || idSerial b % 2 ^ 32 = s.fld q F.ptrPlanPeer_PEER_SERIAL_LOW) then (1, 0)
  else if (s.bypassSkips p b).isSome then (1, 1)
  else (2, 8)

/-- A handover ends when both ports of its axis have an outcome (R226, R335). -/
def State.handoverCheck (s : State) (p : Fin 8) : State :=
  match s.handover with
  | some h =>
    let a := h.axis
    let settled := fun plus => s.fld (.soPortDisc (axisPort a plus)) F.soPortDisc_OUTCOME ≠ 0
    if a = portAxis p && s.axisReleased a && settled true && settled false then s.handoverEnd a else s
  | none => s

/-- Evaluate an identity: SO_PORT_PEER, the port's state, and its outcome. -/
def State.evaluate (s : State) (p : Fin 8) (b : List Byte) : State :=
  let x := s.port p
  let (o, cause) := s.judgePeer p b
  let skips := if cause = 1 then (s.bypassSkips p b).getD 0 else 0
  let s := s.wr (.soPortPeer p) (pack [(F.soPortPeer_PEER_CHIP, (idChip b).toNat), (F.soPortPeer_PEER_PORT, (idPort b).val),
    (F.soPortPeer_SKIP_COUNT, skips), (F.soPortPeer_VALID, 1), (F.soPortPeer_PEER_SERIAL_LOW, idSerial b % 2 ^ 32)])
  let s := s.setFlds (.soPortStatus p) [(F.soPortStatus_STATE, if o = 1 then 3 else 4),
    (F.soPortStatus_BYPASS_HOP, if o = 1 && cause = 1 then 1 else 0)]
  let peer := ((idChip b).toNat, idSerial b)
  let s := if o = 1 && x.lastPeer.any (fun q => q ≠ peer) then s.portEvent p F.soPortEvents_PEER_CHANGE else s
  let s := (s.setOutcome p o cause).purgeOut p
  let s := s.setPort p { x with evaluated := true, lastPeer := if o = 1 then some peer else x.lastPeer }
  s.handoverCheck p

/-- The exchange has run both ways: the last identity received is evaluated. -/
def State.tryEvaluate (s : State) (p : Fin 8) : State :=
  let x := s.port p
  match x.identity with
  | some b => if x.sentSeen && x.gotSeen && !x.evaluated then s.evaluate p b else s
  | none => s

/-- The port's letter of every millisecond, until it has sent one with SEEN set and has received one. -/
def execIdentitySend (p : Fin 8) (s : State) : Out :=
  .next (
    let x := s.port p
    if !s.dieUp || !s.linkUp p || (x.sentSeen && x.gotSeen) then s
    else
      let seen := x.identity.isSome
      let s := s.portSend p .mgmt 1 (s.identityBody p seen)
      (s.setPort p { x with sentSeen := x.sentSeen || seen }).tryEvaluate p)

/-- An identity letter that port `p` has received. -/
def execIdentityReceive (p : Fin 8) (lt : Letter) (s : State) : Out :=
  .next (
    if !s.dieUp || !s.linkUp p || lt.cls != .mgmt || lt.op ≠ 1 then s
    else
      let s := s.takenAt p lt
      let b := bytesAt lt.body 0 64
      if (b.drop 0x18).any (fun x => x ≠ 0) then s
      else
        let x := s.port p
        let s := s.setPort p { x with identity := some b, gotSeen := x.gotSeen || bitOf (natAt b 0x0F 1) 0 }
        let s := s.setFlds (.soPortDisc p) [(F.soPortDisc_PEER_STAGE, natAt b 0x0B 1),
          (F.soPortDisc_PEER_PLAN_GEN, natAt b 0x14 2), (F.soPortDisc_PEER_FW, natAt b 0x10 4)]
        s.tryEvaluate p)

/-- UP for 20 ms without an identity letter. -/
def execDiscoverySilent (p : Fin 8) (s : State) : Out :=
  .next (
    let x := s.port p
    if !s.dieUp || !s.linkUp p || x.identity.isSome || x.evaluated then s
    else ((s.setPortState p 4).setOutcome p 2 9).handoverCheck p)

/-- No training completes within 1 s of release. -/
def execDiscoveryMissing (p : Fin 8) (s : State) : Out :=
  .next (
    if s.dieUp && s.portState p = 2 && s.axisReleased (portAxis p) then (s.portAbsent p).handoverCheck p else s)

/-! ### The plan (R334, R339, R347) -/

/-- A write of a port's plan entry, on which its last identity is evaluated again. -/
def State.planPeerWrite (s : State) (p : Fin 8) (v : BitVec 64) : State :=
  let s := s.regWrite (.ptrPlanPeer p) v
  let x := s.port p
  match x.identity with
  | some b => if s.dieUp && s.linkUp p && x.evaluated then s.evaluate p b else s
  | none => s

def execPlanPeerWrite (p : Fin 8) (v : BitVec 64) (s : State) : Out := .next (if s.aux then s.planPeerWrite p v else s)

/-- Whether a plan places CHIP_NUM within its lengths, X and Y of at most 8. -/
def placeOk (v : BitVec 64) : Bool :=
  let chip := BitVec.ofNat 14 (F.ptrPlanChip_CHIP_NUM.get v)
  let len := fun a : Fin 4 => bitsOf v.toNat (16 + 4 * a.val) 4
  (List.finRange 4).all (fun a => decide (coord chip a ≤ len a)) && decide (len 0 ≤ 7) && decide (len 1 ≤ 7)

/-- The chip number and lengths of a plan, which stay fixed while an axis is held. -/
def planPlace (v : BitVec 64) : Nat × Nat := (F.ptrPlanChip_CHIP_NUM.get v, bitsOf v.toNat 16 16)

/-- A write of PTR_PLAN_CHIP. In Stage 3 its RWL fields are locked: a write that would change one is counted, and PLAN_GEN takes it
(R8). Before, one that is misplaced, or that would change the place while an axis is held, is ignored as a whole (R334, R347; log entry
106). -/
def State.planChipWrite (s : State) (v : BitVec 64) : State :=
  let r := Reg.ptrPlanChip
  let old := s.rd r
  if s.stage = 3 then
    let s := s.wr r (writeFields false r.fields old v)
    if planPlace v = planPlace old && F.ptrPlanChip_PLAN_VALID.get v = F.ptrPlanChip_PLAN_VALID.get old then s
    else (s.setFld .ptrLockViolations F.ptrLockViolations_COUNT
      (satAdd (2 ^ 48 - 1) (s.fld .ptrLockViolations F.ptrLockViolations_COUNT) 1)).aonPorter 371 1
  else if !placeOk v then s
  else if s.fld .ptrBypass F.ptrBypass_HOLD ≠ 0 && planPlace v ≠ planPlace old then s
  else
    let s := s.regWrite r v
    if s.dieUp then { s with chip := BitVec.ofNat 14 (F.ptrPlanChip_CHIP_NUM.get v) } else s

def execPlanChipWrite (v : BitVec 64) (s : State) : Out := .next (if s.aux then s.planChipWrite v else s)

end Sys2Proof.Machine
end

