-- ==== Sys2Proof/Machine/Bypass.lean ====
section
/-!
DEFINITION. The bypass of each axis and its handing over: GRANT, the loops, the hold, the element and its faults (R20, R222 to
R227, R233, R334, R335, R346).
-/
namespace Sys2Proof.Machine

/-- The two ports of an axis. -/
def axisPorts (a : Fin 4) : List (Fin 8) := [axisPort a true, axisPort a false]

/-- A one-bit field of an axis in PTR_BYPASS. -/
def axisBit (f : Fld) (a : Fin 4) : Fld := { f with lo := f.lo + a.val, w := 1 }

def State.axisForced (s : State) (a : Fin 4) : Bool := s.flag .ptrBypass (axisBit F.ptrBypass_FORCE a)
def State.axisFault (s : State) (a : Fin 4) : Bool := s.flag .ptrBypass (axisBit F.ptrBypass_FAULT a)

/-- The handover in progress, if it is of axis `a`. -/
def State.handing (s : State) (a : Fin 4) : Option Handover :=
  match s.handover with
  | some h => if h.axis = a then some h else none
  | none => none

/-- The die stops holding an axis (R223). -/
def State.holdDrop (s : State) (a : Fin 4) : State := s.setFld .ptrBypass (axisBit F.ptrBypass_HOLD a) 0

/-- A port leaves its state to train again, without the strands that failed on the loop. -/
def State.portTrain (s : State) (p : Fin 8) : State :=
  if s.portDisabled p then s
  else
    let ex := (s.port p).excluded
    let s := s.portLeave p 2 .signal
    s.setPort p { s.port p with excluded := ex }

/-! ### Granting (R334, R346) -/

/-- Why GRANT is refused, as a CMD_RESULT; 0 where it is accepted. -/
def State.grantCheck (s : State) (a : Fin 4) : Nat :=
  if !s.dieUp || s.stage = 0 then 1
  else if !s.planValid then 2
  else if s.handover.isSome then 3
  else if s.axisHeld a then 1
  else if s.axisForced a || s.axisFault a then 9
  else 0

/-- Command GRANT: both ports of the axis train on their loops, and their outcomes return to PENDING. -/
def State.grantCmd (s : State) (a : Fin 4) : State :=
  let r := s.grantCheck a
  if r ≠ 0 then s.cmdResult 3 r
  else
    let s : State := { s with handover := some { axis := a } }
    let s := s.setFlds .ptrStage [(F.ptrStage_BUSY, 1), (F.ptrStage_BUSY_AXIS, a.val)]
    let s := (axisPorts a).foldl (fun s p =>
      (((s.setPort p { s.port p with excluded := 0 }).setOutcome p 0 0).copyOutcome p 0 0).portTrain p) s
    s.cmdResult 3 0

def execGrant (a : Fin 4) (s : State) : Out := .next (if s.aux then s.grantCmd a else s)

/-! ### The handover (R226, R227) -/

/-- A handover fails: the die lets the axis go, and the ports that are not UP are ABSENT. -/
def State.handoverFail (s : State) (a : Fin 4) : State :=
  let s := s.holdDrop a
  let s := (axisPorts a).foldl (fun s p =>
    if s.portDisabled p then s.portEvent p F.soPortEvents_TRAIN_FAIL
    else ((s.portLeave p 5 .signal).portEvent p F.soPortEvents_TRAIN_FAIL).portAbsent p) s
  s.handoverEnd a

/-- Loop training ends: the strands of each port that trained at full rate. With one at least, the die asserts the hold. -/
def execHandoverLoopTrained (a : Fin 4) (plus minus : BitVec 4) (s : State) : Out :=
  .next (
    match s.dieUp, s.handing a with
    | true, some h =>
      if h.held then s
      else if plus = 0 && minus = 0 then s.handoverFail a
      else
        let loop := fun (s : State) (p : Fin 8) (m : BitVec 4) =>
          if s.portDisabled p then s
          else
            let s := s.portLeave p 1 .idle
            (s.setPort p { s.port p with excluded := ~~~m }).lanesLock p m
        let s := loop (loop s (axisPort a true) plus) (axisPort a false) minus
        let s := s.setFld .ptrBypass (axisBit F.ptrBypass_HOLD a) 1
        { s with handover := some { h with held := true } }
    | _, _ => s)

/-- 45 ms have passed: a handover with no port UP fails, and one with a port UP completes. -/
def execHandoverTimeout (a : Fin 4) (s : State) : Out :=
  .next (
    match s.dieUp, s.handing a with
    | true, some _ => if (axisPorts a).any fun p => s.linkUp p then s.handoverEnd a else s.handoverFail a
    | _, _ => s)

/-! ### The element (R222, R223, R224, R233) -/

/-- The porter looks at the die's holds, and drives the elements (R223). -/
def execPorterHoldPoll (s : State) : Out :=
  .next (
    if !s.aux then s
    else
      let hold := s.fld .ptrBypass F.ptrBypass_HOLD
      let rel := BitVec.ofNat 4 hold &&& ~~~BitVec.ofNat 4 (s.fld .ptrBypass F.ptrBypass_FORCE)
      { s with released := rel }.setFld .ptrStage F.ptrStage_GRANTED rel.toNat)

/-- The counter of an axis in PTR_BYPASS_COUNT. -/
def engageFld (a : Fin 4) : Fld := { lo := 16 * a.val, w := 16, acc := .rw, rst := 0 }

/-- The ports of an engaged axis run in loopback, where they are not disabled (R230). -/
def State.loopPorts (s : State) (a : Fin 4) : State :=
  (axisPorts a).foldl (fun s p => if s.portState p = 0 then s else s.portLeave p 1 .idle) s

/-- An element has engaged: it is counted, and its ports see their loops. -/
def State.engaged (s : State) (a : Fin 4) : State :=
  let s := s.setFld .ptrBypassCount (engageFld a) (satAdd 0xFFFF (s.fld .ptrBypassCount (engageFld a)) 1)
  let s := s.aonPorter (Fin.ofNat 512 (340 + a.val)) 1
  if s.dieUp then s.loopPorts a else s


/-- An element reaches the state that the porter drives it to. -/
def State.elementReached (s : State) (a : Fin 4) : State :=
  let eng := s.axisEngaged a
  let was := s.axisReleased a
  let rel := s.released.getLsbD a.val
  let s := s.setFlds .ptrBypass [(axisBit F.ptrBypass_ENGAGED a, if rel then 0 else 1), (axisBit F.ptrBypass_FAULT a, 0)]
  if !eng && !rel then s.engaged a
  else if !was && rel && s.dieUp then (axisPorts a).foldl (fun s p => s.portTrain p) s
  else s

def execBypassElementSettles (a : Fin 4) (s : State) : Out := .next (if s.aux then s.elementReached a else s)

/-- The ports of an axis whose element is open have no link, and no loop. -/
def State.openPorts (s : State) (a : Fin 4) : State :=
  (axisPorts a).foldl (fun s p => if s.portState p = 0 then s else s.portLeave p 6 .idle) s

/-- An element is not in its commanded state. An optical one is in the other, as its sensors report; an electrical one is treated as
unpowered, and is neither engaged nor released (R222, R224, R233). -/
def State.elementAstray (s : State) (a : Fin 4) : State :=
  let eng := s.axisEngaged a
  let was := s.axisOpen a
  let now := decide (2 ≤ a.val) && s.released.getLsbD a.val
  let s := s.setFlds .ptrBypass [(axisBit F.ptrBypass_ENGAGED a, if now then 1 else 0), (axisBit F.ptrBypass_FAULT a, 1)]
  if !eng && now then s.engaged a
  else if s.axisOpen a && !was && s.dieUp then s.openPorts a
  else s

/-- The die lets an axis go; a handover of it in progress fails. -/
def State.letGo (s : State) (a : Fin 4) : State :=
  if s.dieUp && (s.handing a).isSome then s.handoverFail a else s.holdDrop a

/-- A check of an element's position: FAULT, while it is not in its commanded state. -/
def execBypassPositionCheck (a : Fin 4) (ok : Bool) (s : State) : Out :=
  .next (
    if !s.aux then s
    else if ok then s.elementReached a
    else
      let s := s.elementAstray a
      let s : State := { s with redfish := s.redfish ++ [Redfish.bypass a] }
      let s := if s.dieUp then s.raise 258 else s
      s.letGo a)

/-- A write of FORCE for an axis. -/
def State.forceWrite (s : State) (a : Fin 4) (on : Bool) : State :=
  let s := s.setFld .ptrBypass (axisBit F.ptrBypass_FORCE a) (if on then 1 else 0)
  if !on then s
  else
    let s := s.letGo a
    if s.dieUp && s.axisEngaged a then s.loopPorts a else s

def execForce (a : Fin 4) (on : Bool) (s : State) : Out := .next (if s.aux then s.forceWrite a on else s)

/-! ### Stage 1 (R329, R330, R333) -/

/-- The die leaves reset with main power good: it latches its plan, and its yards are gated (R427); the ports of an axis under FORCE, whose element
is engaged, run in loopback (R230). -/
def execDieLeavesReset (s : State) : Out :=
  .next (
    if s.power ≠ .good || s.dieUp then s
    else
      let s : State := { s with dieUp := true, dieResetting := false, cycle := .none,
                                chip := BitVec.ofNat 14 (s.fld .ptrPlanChip F.ptrPlanChip_CHIP_NUM) }
      let s := s.setFlds .ptrStage [(F.ptrStage_STAGE, 1), (F.ptrStage_QUARANTINE, 0)]
      let s := s.setFld .ptrStartTimes F.ptrStartTimes_SORTING_MS s.startMs
      let s := (List.finRange 4).foldl (fun s y => s.yardStop y 1) s
      (List.finRange 4).foldl (fun s a => if s.axisForced a && s.axisEngaged a then s.loopPorts a else s) s)

end Sys2Proof.Machine
end

