-- ==== Sys2Proof/Machine/Delivery.lean ====
section
/-!
DEFINITION. Letters at their destination, receipts, retransmission and clearance (R145, R172, R183, R261, R280, R316 to R323).
-/
namespace Sys2Proof.Machine

/-! ### Clearances at the receiver (R322) -/

/-- The circulars among some letters are discarded from staging: copies that have not left the chip never leave, and are given up
(R259, R322; log entry 123). -/
def State.circForget (s : State) (gone : Circ → Bool) : State :=
  (s.circs.filter fun x => x.frame.isSome && gone x && s.circHeld x).foldl (fun s x =>
    let os := s.outstanding.filter (s.unsent x.id)
    let cs : List Circ := s.circs.filter fun y => y.id ≠ x.id
    os.foldl (fun s o => s.giveUp o) { s.circRecall x with circs := cs }) s

/-- A clearance: H moves to C with every bit set, and staged letters of the stream not newer than A are discarded, partials and circulars
among them, with the copies of them that are held; else it is a duplicate. It is never fenced. -/
def State.clearIn (s : State) (lt : Letter) : State :=
  if !s.globalOn then s.bump .soNocontext 1
  else match s.ctxOfTag lt.jobTag with
  | none => s.bumpAll (lostCounters lt.cls)
  | some _ =>
    let k := streamOf lt
    let r := s.recvStream k
    if newer32 lt.postmark r.h then
      let a := lt.postmark - 4096
      let stays := fun (k' : StreamKey) (pm : BitVec 32) => !(decide (k' = k) && !newer32 pm a)
      let kept := fun (x : Letter) => stays (streamOf x) x.postmark
      let recv : RecvStream := { h := lt.postmark }
      let ops : List CollOp := s.collOps.map fun o => { o with partials := o.partials.filter fun p => kept p.letter }
      let s := s.circForget fun x => !kept x.up
      { s with collStage := s.collStage.filter fun g => kept g.letter
               collOps := ops
               heldDups := s.heldDups.filter kept
               unplaced := s.unplaced.filter fun x => stays x.1 x.2
               recvStreams := AMap.set k recv s.recvStreams }.pumpPost.receipt lt .ok
    else (s.bump .soPostDups 1).receipt lt .ok

def isClear (lt : Letter) : Bool := decide (lt.op = 0x3F)

def execClearanceReceive (lt : Letter) (s : State) : Out :=
  .next (if s.dieUp && isClear lt then (s.taken lt).clearIn lt else s)

/-! ### Bulk and slot letters (R145, R170, R183) -/

/-- Place a bulk letter: refused pages leave it unplaced; else it is written, then receipted. -/
def State.bulkPlace (s : State) (lt : Letter) (c : Fin 64) : State × Bool :=
  let va := lt.target.toNat % 2 ^ 48
  let (s, ps) := s.xlatAll c ((List.range lt.length).map (va + ·)) true true 0x81
  if ps.any Option.isNone then (s, false)
  else ((s.writeGuarded ((ps.zip (markedBody lt)).filterMap fun e => e.1.map fun a => (a, e.2))).receipt lt .ok, true)

/-- Place a slot letter: TARGET[11:0] the slot, TARGET[43:12] the offset in its stash (R145). -/
def State.slotIn (s : State) (lt : Letter) (c : Fin 64) : State × Bool :=
  let t := lt.target.toNat
  let off := bitsOf t 12 32
  match s.slotCheck c (bitsOf t 0 12) off lt.length with
  | .error r => (s.bump r 1, false)
  | .ok j => ((s.slotPlace c j off (markedBody lt)).receipt lt .ok, true)

/-- A BULK or SLOT letter at its destination (R320); a seal letter among them (R389). -/
def State.registeredIn (s : State) (lt : Letter) : State :=
  if isClear lt then s.clearIn lt
  else match lt.cls with
    | .bulk => if lt.op = 1 then s.sealIn lt else s.postIn lt (lostCounters .bulk) false fun s c => s.bulkPlace lt c
    | .slot => s.postIn lt (lostCounters .slot) false fun s c => s.slotIn lt c
    | _ => s

def execRegisteredLetterReceive (lt : Letter) (s : State) : Out :=
  .next (if s.dieUp && (lt.cls == .bulk || lt.cls == .slot) then (s.taken lt).registeredIn lt else s)

/-! ### Collective letters (R280, R281) -/

/-- A COLL letter, other than a circular, at its member. -/
def State.collIn (s : State) (lt : Letter) : State :=
  if isClear lt then s.clearIn lt
  else s.postIn lt (lostCounters .coll) (s.stillPlacing lt) fun s c => s.collArrive lt c

/-- Whether a COLL letter must wait in its buffer for a place in staging. -/
def State.collWaits (s : State) (lt : Letter) : Bool :=
  !isClear lt && s.globalOn && (s.ctxOfTag lt.jobTag).any fun c => s.stageFull lt c

def execCollLetterReceive (lt : Letter) (s : State) : Out :=
  .next (if s.dieUp && lt.cls == .coll && lt.op ≠ 4 && !s.collWaits lt then (s.taken lt).collIn lt else s)

/-- A held duplicate is receipted once the original's receipt has been sent (R321). -/
def execDuplicateReceipt (lt : Letter) (s : State) : Out :=
  .next (
    if !s.dieUp || !s.heldDups.contains lt || s.stillPlacing lt then s
    else
      let ds : List Letter := s.heldDups.erase lt
      let s := { s with heldDups := ds }
      match s.circOf lt with
      | some x => s.circReceipt x
      | none => s.receipt lt .ok)

/-! ### Requests and responses (R172) -/

def execRequestReceive (lt : Letter) (s : State) : Out :=
  .next (
    if !s.dieUp || lt.cls != .request then s
    else
      let s := s.taken lt
      match (if s.globalOn then s.ctxOfTag lt.jobTag else none) with
      | none => s.bump .soNocontext 1
      | some c =>
        if s.fenced c then (s.bump .soRefusedFenced 1).receipt lt .fenced
        else
          let va := lt.target.toNat % 2 ^ 48
          let (s, ps) := s.xlatAll c ((List.range lt.length).map (va + ·)) false true 0x81
          if ps.any Option.isNone then s
          else
            let (s, _) := s.readGuarded (ps.filterMap id)
            let bs := (ps.filterMap id).map s.peekG
            s.send { dest := lt.src, src := s.chip, cls := .response, jobTag := lt.jobTag, length := lt.length,
                     refPostmark := lt.postmark, poison := poisonMask bs, body := bs.map (·.1) })

/-- The letter outstanding that a receipt or response answers (R317). -/
def State.answered (s : State) (k : StreamKey) (pm : BitVec 32) : Option Outstanding :=
  s.outstanding.find? fun o => o.key = k && o.letter.postmark = pm

/-- An outstanding letter has its receipt or response. -/
def State.settle (s : State) (o : Outstanding) : State :=
  let xs : List Outstanding := s.outstanding.erase o
  { s with outstanding := xs }

/-- Whether an instruction in flight has failed already. -/
def State.flightOk (s : State) (n : Fin 128) (seq : Nat) : Bool :=
  (s.stall n).flights.any fun f => f.seq = seq && f.status == .ok

def execResponseReceive (lt : Letter) (s : State) : Out :=
  .next (
    if !s.dieUp || lt.cls != .response then s
    else
      let s := s.taken lt
      match s.ctxOfTag lt.jobTag with
      | none => s.bump .soNocontext 1
      | some c =>
        if s.fenced c then s.bump .soRefusedFenced 1
        else match s.answered ⟨lt.src, .request, lt.jobTag⟩ lt.refPostmark with
          | none => s.bump .soPostLate 1
          | some o =>
            let s := s.settle o
            let bs := markedBody lt
            let s := match o.sink with
              | some (.local as) => s.writeGuarded ((List.zip as bs).filterMap fun (e : Option Nat × MByte) => e.1.map fun a => (a, e.2))
              | some (.remote chip cls target) =>
                (match o.owner with
                  | .flight n seq => if s.flightOk n seq then s.post (s.bulk c o.owner chip cls target bs) else s
                  | _ => s)
              | none => s
            s.pumpPost)

/-! ### Receipts (R317, R318, R322) -/

/-- A group becomes LOST because a peer answered ST_FENCED to a letter that no operation of this member sent. -/
def State.grpFenced (s : State) (c : Fin 64) (g : Fin 4) (who : Nat) : State :=
  (s.setFlds (.ceGrpStatus c g) [(F.ceGrpStatus_STATE, 2), (F.ceGrpStatus_WAIT_ON, who), (F.ceGrpStatus_FENCED_PEER, 1),
    (F.ceGrpStatus_STEP, (s.sealed c + 1).toNat)]).startWaiting

/-- A letter fails: its postmark is given up, and its owner ends with the status (R140, R294, R318, R396). A letter of any collective
operation that is answered ST_FENCED ends it as R294 says of ring and tree letters, and WAIT_ON names the peer that answered (DESIGN
CHOICE, log entry 135). -/
def State.letterFailed (s : State) (o : Outstanding) (st : Status) : State :=
  let s := s.giveUp o
  match o.owner with
  | .flight n seq => s.failFlight n seq st o.letter.postmark
  | .coll id => match s.findOp id with
    | some op => s.collLost op st (s.grpWho op.ctx op.grp o.key.chip)
    | none => s
  | .relay id =>
    let xs : List Relay := s.relays.filter fun x => x.id ≠ id
    let g := (collTgt o.letter).grp
    { s with relays := xs }.grpFenced o.ctx g (s.grpWho o.ctx g o.key.chip)
  | .mirror c => s.mirrorFail c false
  | .circ _ | .ended _ | .other => s

/-- Add the sums of a child's receipt to a circular (R260). -/
def State.circChild (s : State) (o : Outstanding) (lt : Letter) : State :=
  let d := bitsOf lt.target.toNat 0 15
  let f := bitsOf lt.target.toNat 15 15
  match o.owner with
  | .coll id => s.modOp id fun x => { x with delivered := x.delivered + d, refused := x.refused + f }
  | .circ id =>
    let xs : List Circ := s.circs.map fun x =>
      if x.id = id then { x with children := x.children - 1, delivered := x.delivered + d, refused := x.refused + f } else x
    { s with circs := xs }
  | _ => s

/-- Whether an owner's letters are copies of a circular. -/
def State.isCircOwner (s : State) : Owner → Bool
  | .coll id => (s.findOp id).any fun o => o.kind == .circ
  | .circ _ => true
  | _ => false

/-- What a letter's end with ST_OK means for its owner. -/
def State.letterDone (s : State) (o : Outstanding) : State :=
  match o.owner with
  | .relay id =>
    match s.relays.find? fun x => x.id = id with
    | some x =>
      let xs : List Relay := s.relays.filter fun y => y.id ≠ id
      { s with relays := xs }.receipt x.up .ok
    | none => s
  | .mirror c => s.mirrorPump c
  | _ => s

/-- A stream's clearance has its receipt: the stream continues from C + 1 (R322, R323). -/
def State.cleared (s : State) (k : StreamKey) : State :=
  let st := s.sendStream k
  let s := s.setSend k { st with givenUp := none, clearing := none, next := st.clearPm + 1 }
  let cs : AMap Nat Consign := s.consigns.map fun e => (e.1, { e.2 with streams := e.2.streams.filter fun x => x ≠ k })
  { s with consigns := cs }.pumpPost

/-- RECEIPT_RECEIVE. The fence of a context, which refuses the letters of the other classes, takes its receipts (R261; log entry 112). -/
def execReceiptReceive (lt : Letter) (s : State) : Out :=
  .next (
    if !s.dieUp || lt.cls != .receipt then s
    else
      let s := s.taken lt
      if (s.ctxOfTag lt.jobTag).isNone then s.bump .soNocontext 1
      else
        let k : StreamKey := ⟨lt.src, LClass.ofCode (bitsOf lt.op.toNat 0 3), lt.jobTag⟩
        match s.answered k lt.refPostmark with
        | some o =>
          let refused := decide (lt.status = BitVec.ofNat 8 Status.fenced.code)
          if s.isCircOwner o.owner then ((if refused then s.giveUp o else s.settle o).circChild o lt).pumpPost
          else if refused then (s.letterFailed o .fenced).pumpPost
          else ((s.settle o).letterDone o).pumpPost
        | none =>
          let st := s.sendStream k
          if st.clearing.isSome && st.clearPm = lt.refPostmark then s.cleared k else s.bump .soPostLate 1)

/-! ### Timers and clearance at the sender (R318, R322, R323) -/

/-- The delivery timer of a registered letter, or of a clearance, expires. It has not started while the head waits for its output. -/
def execDeliveryTimerExpiry (k : StreamKey) (pm : BitVec 32) (s : State) : Out :=
  .next (
    if !s.dieUp then s
    else if s.leaving k pm then s
    else match s.answered k pm with
      | some o =>
        if k.cls == .coll || decide (o.tries < o.limit) then
          let o' := { o with tries := o.tries + 1, limit := s.retries, letter := { o.letter with epoch := s.srcEpoch } }
          let xs : List Outstanding := s.outstanding.map fun x => if x = o then o' else x
          ({ s with outstanding := xs }.bump .soPostRetrans 1).transmit o'
        else ((s.bump .soPostFailed 1).letterFailed o .deliveryFailed).pumpPost
      | none =>
        let st := s.sendStream k
        match st.clearing with
        | none => s
        | some tries =>
          if st.clearPm ≠ pm then s
          else if tries < st.clearLimit then
            ((s.setSend k { st with clearing := some (tries + 1), clearLimit := s.retries, clearEpoch := s.srcEpoch }).bump .soPostRetrans 1).send (clearLetter s.chip k pm)
          else
            ((s.setSend k { st with clearing := none, givenUp := none, broken := true }).bump .soPostBroken 1).raise 257)

/-- A stream that has given-up postmarks and no other outstanding sends its clearance (R322). -/
def execClearanceSend (k : StreamKey) (s : State) : Out :=
  .next (
    if s.dieUp && s.clearable k then
      let st := s.sendStream k
      let c := (st.givenUp.getD 0) + 4096
      ((s.setSend k { st with clearing := some 0, clearPm := c, clearLimit := s.retries, clearEpoch := s.srcEpoch }).bump .soPostClears 1).send (clearLetter s.chip k c)
    else s)

/-! ### Collective watchdog and group table (R23, R24, R264 to R266, R293) -/

/-- An outstanding operation has made no progress for WD; `waitOn` is the neighbour it waited on longest (R293). -/
def execCollWatchdogExpiry (op : Nat) (waitOn : Fin 8) (s : State) : Out :=
  .next (
    match s.findOp op with
    | some o => if s.dieUp then s.collLost o .peerLost waitOn.val else s
    | none => s)

/-- Whether members 0 to L - 1 are distinct. -/
def State.membersDistinct (s : State) (c : Fin 64) (g : Fin 4) (L : Nat) : Bool :=
  let ms := (List.range L).map (s.member c g)
  ms.eraseDups.length = ms.length

/-- The checks of R266 on a write of VALID = 1. -/
def State.groupOk (s : State) (c : Fin 64) (g : Fin 4) (v : BitVec 64) : Bool :=
  match s.grpAxis c g with
  | none => false
  | some a =>
    let L := s.planLen c a
    let ver := epochVer s.srcEpoch
    let pos := F.ceGrpCtrl_POS.get v
    let plus := F.ceGrpCtrl_DIR.get v = 0
    let me := decide (pos < L) && s.member c g pos = s.chip && s.membersDistinct c g L
    if F.ceGrpCtrl_SHAPE.get v = 0 then
      me && s.rtShape ver a = 0 && s.rtLen ver a = L &&
        ((List.range L).all fun q => decide (s.member c g q = withCoord s.chip a (coord (s.member c g q) a))) &&
        (List.range L).all fun q =>
          let x := coord (s.member c g q) a
          let y := coord (s.member c g ((q + 1) % L)) a
          decide (y % L = (if plus then x + 1 else x + L - 1) % L)
    else
      let root := s.flag (.ceGrpTree c g) F.ceGrpTree_ROOT
      let parent := s.fld (.ceGrpTree c g) F.ceGrpTree_PARENT_PORT
      let kids := s.grpChildren c g
      me && s.rtShape ver a = 2 && (root || decide (4 ≤ parent)) && decide (kids.length ≤ 3) &&
        (root || !(kids.any fun p => p.val = parent))

/-- A write of CE_GRP_CTRL with VALID = 1 (R266, R345). -/
def State.groupSet (s : State) (c : Fin 64) (g : Fin 4) (v : BitVec 64) : State :=
  if !s.globalOn || s.grpValid c g || !s.groupOk c g v then s else s.regWrite (.ceGrpCtrl c g) (v ||| 1)

/-- A write of CE_GRP_CTRL with VALID = 0 (R266, R296). -/
def State.groupClear (s : State) (c : Fin 64) (g : Fin 4) (v : BitVec 64) : State :=
  if s.grpValid c g && s.grpState c g ≠ 2 && s.collOps.any (fun o => o.ctx = c && o.grp = g) then s
  else
    let s := s.regWrite (.ceGrpCtrl c g) (v &&& ~~~(1 : BitVec 64))
    let s := s.grpQuiet c g
    let mine := fun x : Staged => decide (x.ctx = c) && decide ((collTgt x.letter).grp = g)
    let s := (s.collStage.filter mine).foldl (fun s x => s.neverPlaced x) s
    { s with collStage := s.collStage.filter fun x => !mine x }.pumpPost

def execGroupValidSet (c : Fin 64) (g : Fin 4) (v : BitVec 64) (s : State) : Out :=
  .next (if s.dieUp then s.groupSet c g v else s)
def execGroupValidClear (c : Fin 64) (g : Fin 4) (v : BitVec 64) (s : State) : Out :=
  .next (if s.dieUp then s.groupClear c g v else s)

/-- The checks of R23 on a plan. -/
def planOk (v : Nat) : Bool :=
  let role := fun a => bitsOf v (16 * a) 3
  let grp := fun a => bitsOf v (16 * a + 3) 2
  let len := fun a => bitsOf v (16 * a + 5) 4
  let axes := [0, 1, 2, 3]
  (axes.all fun a => decide (role a ≤ 5)) &&
    (axes.all fun a => axes.all fun b => a = b || role a = 0 || role a ≠ role b) &&
    (axes.all fun a => role a ≠ 0 || len a = 0) &&
    ([0, 1].all fun a => decide (len a < 8)) &&
    axes.all fun a => axes.all fun b => a = b || !groupRole (role a) || !groupRole (role b) || grp a ≠ grp b

/-- A write of CE_AXIS_PLAN, judged as a whole; ignored once sampled (R23, R24). -/
def State.axisPlanWrite (s : State) (c : Fin 64) (v : BitVec 64) : State :=
  if c ∈ s.sampled || !planOk v.toNat then s else s.regWrite (.ceAxisPlan c) v

def execAxisPlanWrite (c : Fin 64) (v : BitVec 64) (s : State) : Out :=
  .next (if s.dieUp then s.axisPlanWrite c v else s)

end Sys2Proof.Machine
end

