-- ==== Sys2Proof/Machine/Frank.lean ====
section
/-!
DEFINITION. Franking time: the exchange between neighbours, the steering of each interval, steps, and the reads and copies of the
counter (R357 to R367).
-/
namespace Sys2Proof.Machine

/-! ### The counter (R357, R362) -/

/-- The counter in units of 2^-32 ns. -/
def Franking.raw (f : Franking) : Nat := f.ns.toNat * 2 ^ 32 + f.sub
def Franking.ofRaw (n : Nat) : Franking := ⟨BitVec.ofNat 64 (n / 2 ^ 32), n % 2 ^ 32⟩

/-- What a cycle adds to 1 ns under a correction of `adj` 1/256 ps an interval, in units of 2^-32 ns, truncated toward zero. -/
def cycleShare (adj : Int) : Int := Int.tdiv (adj * 2 ^ 24) 125000000

/-- One franking cycle of the counter. -/
def State.frankTick (s : State) : State :=
  { s with franking := Franking.ofRaw (s.franking.raw + (2 ^ 32 + cycleShare s.steer.adj).toNat) }

/-! ### The exchange (R359 to R361) -/

/-- The body of FR_SYNC and FR_REPLY; the stamps are in units of 1/256 ns. -/
def State.frankBody (s : State) (seq : BitVec 32) (t2 t3 : Nat) : List Byte :=
  toBytes 4 seq.toNat ++ toBytes 1 (if s.frFree then 0 else 1) ++ toBytes 1 (t2 % 256) ++ toBytes 1 (t3 % 256) ++ toBytes 1 0 ++
    toBytes 8 (t2 / 256) ++ toBytes 8 (t3 / 256)

/-- An exchange that is not valid is counted, and changes nothing else. -/
def State.badExchange (s : State) (p : Fin 8) : State :=
  { (s.bump .clkFrBadx 1).aonAdd (192 + 16 * p.val + 12) 1 with frEx := AMap.del p s.frEx }

/-- A port starts an exchange. `ago` is the phase that the interpolator resolves, in 1/256 ns before the stamp of the frame; t1 is noted as
FR_SYNC starts on the line (R360; log entry 78). -/
def execFrankingExchangeStart (p : Fin 8) (ago : Nat) (s : State) : Out :=
  .next (
    if !s.dieUp || !s.accepted p || (AMap.get none p s.frEx).isSome then s
    else
      let seq := s.steer.nextSeq
      let s := s.portSend p .mgmt 0x10 (s.frankBody seq 0 0)
      let ex : FrExchange := { seq := seq, phase := ago % 256, asym := signed 16 (s.fld (.clkFrAsym p) F.clkFrAsym_ASYM_PS) }
      { s with frEx := AMap.set p (some ex) s.frEx, steer := { s.steer with nextSeq := seq + 1 } })

/-- When the frame with the head of a franking letter started to arrive: the stamp that the letter keeps, and the phase that the
interpolator resolves, in 1/256 ns before it (R360; log entry 78). -/
def State.recvStamp (s : State) (p : Fin 8) (lt : Letter) (ago : Nat) : Nat :=
  let began := match (s.port p).stamps.find? fun e => e.1 = lt with | some e => e.2 | none => s.stampNow
  began - ago % 256

/-- FR_SYNC is answered: t2 is when the frame with its head started to arrive. The reply waits with the phase `sent` in T3_FRAC, and takes
t3 as it starts on the line (R359, R360; log entry 78). -/
def execFrSync (p : Fin 8) (lt : Letter) (ago sent : Nat) (s : State) : Out :=
  .next (
    if !s.dieUp || !s.accepted p || lt.cls != .mgmt || lt.op ≠ 0x10 then s
    else
      let t2 := s.recvStamp p lt ago
      let s := s.takenAt p lt
      s.portSend p .mgmt 0x11 (s.frankBody (BitVec.ofNat 32 (natAt lt.body 0 4)) t2 (sent % 256)))

/-- θ of R360 in units of 1/256 ps, the stamps in units of 1/256 ns. -/
def frTheta (t1 t2 t3 t4 : Nat) (asym : Int) : Int :=
  (((t2 : Int) - t1) - ((t4 : Int) - t3)) * 500 - asym * 256

/-- Twice δ of R360, in units of 1/256 ns. -/
def frDelta2 (t1 t2 t3 t4 : Nat) : Int := ((t4 : Int) - t1) - ((t3 : Int) - t2)

/-- Whether an exchange is valid (R361): within 20 µs, with a δ of 50 ns to 2 µs. -/
def frValidEx (t1 t2 t3 t4 : Nat) : Bool :=
  let d := frDelta2 t1 t2 t3 t4
  decide ((t4 : Int) - t1 ≤ 20000 * 256) && decide (2 * 50 * 256 ≤ d) && decide (d ≤ 2 * 2000 * 256)

/-- OFFSET_PS: θ in whole ps, saturating. -/
def offsetPs (theta : Int) : Nat := unsigned 32 (max (-(2 ^ 31 - 1)) (min (2 ^ 31 - 1) (Int.tdiv theta 256)))

/-- FR_REPLY has arrived: t4 is when the frame with its head started to arrive. -/
def execFrReply (p : Fin 8) (lt : Letter) (ago : Nat) (s : State) : Out :=
  .next (
    if !s.dieUp || !s.accepted p || lt.cls != .mgmt || lt.op ≠ 0x11 then s
    else
      let t4 := s.recvStamp p lt ago
      let s := s.takenAt p lt
      match AMap.get none p s.frEx with
      | none => s
      | some ex =>
        let b := lt.body
        let t1 := ex.t1.getD 0
        let t2 := natAt b 8 8 * 256 + natAt b 5 1
        let t3 := natAt b 0x10 8 * 256 + natAt b 6 1
        if ex.t1.isNone || decide (ex.seq ≠ BitVec.ofNat 32 (natAt b 0 4)) || !frValidEx t1 t2 t3 t4 then s.badExchange p
        else
          let theta := frTheta t1 t2 t3 t4 ex.asym
          let locked := natAt b 4 1 % 4 = 1
          let v : FrValid := { theta := theta, locked := locked }
          let s : State := { s with frEx := AMap.del p s.frEx, frValid := AMap.set p (some v) s.frValid }
          s.setFlds (.clkFrPort p) [(F.clkFrPort_OFFSET_PS, offsetPs theta),
            (F.clkFrPort_DELAY_NS, (frDelta2 t1 t2 t3 t4).toNat / 512), (F.clkFrPort_PEER_LOCKED, if locked then 1 else 0)])

/-- 20 µs have passed since the exchange started. -/
def execExchangeTimeout (p : Fin 8) (s : State) : Out :=
  .next (if s.dieUp && (AMap.get none p s.frEx).isSome then s.badExchange p else s)

/-! ### Steering (R362, R363) -/

/-- 1 µs and 25 ns, in units of 1/256 ps. -/
def frOneUs : Int := 1000000 * 256
def frMaxAdj : Int := 25000 * 256
def frClamp (x : Int) : Int := max (-frMaxAdj) (min frMaxAdj x)

/-- The valid exchanges of the interval, by port. -/
def State.frExchanges (s : State) : List (Fin 8 × FrValid) :=
  (List.finRange 8).filterMap fun p => (AMap.get none p s.frValid).map fun v => (p, v)

/-- The peer furthest ahead, by more than 1 µs, among those that count. -/
def frAhead (free : Bool) (vs : List (Fin 8 × FrValid)) : Option (Fin 8 × Int) :=
  vs.foldl (fun acc e =>
    let best : Int := match acc with | some b => b.2 | none => 0
    if (e.2.locked || free) && decide (frOneUs < e.2.theta) && decide (best < e.2.theta) then some (e.1, e.2.theta) else acc) none

/-- The exchanges that enter the mean: LOCKED peers within 1 µs. -/
def frMean (vs : List (Fin 8 × FrValid)) : List (Fin 8 × FrValid) :=
  vs.filter fun e => e.2.locked && decide (-frOneUs ≤ e.2.theta) && decide (e.2.theta ≤ frOneUs)

/-- A step forward to a peer (R363): the record carries the time before it. -/
def State.frankStep (s : State) (p : Fin 8) (ahead : Int) : State :=
  let s := s.log 0x235 0x0003 0xFF (toBytes 8 (ahead.toNat / 256000) ++ toBytes 1 p.val)
  let s : State := { s with franking := Franking.ofRaw (s.franking.raw + ahead.toNat * 2 ^ 24 / 1000) }
  let st : Steer := { s.steer with calm := 0, lockedNs := s.frankNs.toNat, adj := frClamp s.steer.rate }
  { s with steer := st }.bump .clkFrSteps 1

/-- SYNC_STATE after the interval, and the count of calm intervals. -/
def State.frankLock (s : State) (vs used : List (Fin 8 × FrValid)) : State :=
  if !s.frFree then s
  else
    let calm := if !used.isEmpty && used.length = vs.length then s.steer.calm + 1 else 0
    let alone := decide (80 ≤ s.steer.silent)
    let st : Steer := { s.steer with calm := calm }
    let s : State := { s with steer := st }
    if decide (16 ≤ calm) || alone then
      let st : Steer := { s.steer with lockedNs := s.frankNs.toNat }
      { s with steer := st }.setFld .clkFrStatus F.clkFrStatus_SYNC_STATE 1
    else s

/-- The correction of the next interval from the mean offset. -/
def Steer.correct (t : Steer) (m : Int) : Steer :=
  let rate := t.rate + Int.tdiv m 64
  { t with rate := rate, adj := frClamp (rate + Int.tdiv m 4) }

/-- The end of a 125 µs interval. -/
def State.steerInterval (s : State) : State :=
  let vs := s.frExchanges
  let used := frMean vs
  let s := (List.finRange 8).foldl (fun s p =>
    s.setFld (.clkFrPort p) F.clkFrPort_VALID (if vs.any (fun e => e.1 = p) then 1 else 0)) s
  let st : Steer := { s.steer with silent := if vs.isEmpty then s.steer.silent + 1 else 0 }
  let s : State := { s with steer := st, frValid := [] }
  let free := s.frFree
  match frAhead free vs with
  | some (p, th) => (s.setFld .clkFrStatus F.clkFrStatus_PORTS 0).frankStep p th
  | none =>
    let s := s.frankLock vs used
    let ports := (used.map fun e => 2 ^ e.1.val).foldl (· + ·) 0
    let s := s.setFld .clkFrStatus F.clkFrStatus_PORTS ports
    if used.isEmpty then
      let st : Steer := { s.steer with adj := frClamp s.steer.rate }
      { s with steer := st }
    else
      let m := Int.tdiv ((used.map fun e => e.2.theta).foldl (· + ·) 0) used.length
      let st := s.steer.correct m
      { s with steer := st }.setFld .clkFrStatus F.clkFrStatus_RATE_PS (unsigned 16 (Int.tdiv st.rate 256))

def execSteeringInterval (s : State) : Out := .next (if s.dieUp then s.steerInterval else s)

/-! ### Reading (R366, R367) -/

/-- The host reads CLK_FR_NOW: the fraction of the same instant is latched. -/
def execClkFrNowRead (s : State) : Out :=
  .next (
    if !s.dieUp then s
    else
      let (s, v) := s.readReg .clkFrNow
      s.hostReply (plain (toBytes 8 v.toNat)))

/-- The porter copies the state of franking into the always-on counters. -/
def execFrankingStateCopy (s : State) : Out :=
  .next (
    if !s.dieUp then s
    else
      let v := s.view .clkFrStatus
      s.wr (.ptrAon 400) (BitVec.ofNat 64 (F.clkFrStatus_SYNC_STATE.get v + F.clkFrStatus_LOCKED_MS.get v * 2 ^ 32)))

end Sys2Proof.Machine
end

