-- ==== Sys2Proof/Machine/Porter.lean ====
section
/-!
DEFINITION. The porter's evaluations: power control (R431), thermal throttling and trips (R432 to R434), the always-on counters (R407, R409),
the retired-page list (R348), and the status indicator (R440).
-/
namespace Sys2Proof.Machine

/-! ### Power control (R431, R444) -/

/-- 300 times the effective limit E, from LIMIT_W, the inlet temperature and the flow in 10 mL/min. -/
def limit300 (limit inlet flow : Nat) : Nat :=
  max (1600 * 300) (min (limit * 300) (min ((2800 - 100 * (inlet - 45)) * 300) (2800 * min 300 flow)))

/-- Whether the power control holds a yard below its other limits. -/
def State.powerHolds (s : State) (y : Fin 4) : Bool :=
  decide ((s.yard y).power < min (s.yardTarget y) (s.yard y).cap)

/-- Whether every yard runs at 0.60 GHz. -/
def State.yardsLow (s : State) : Bool := (List.finRange 4).all fun y => (s.yard y).freq = 600

/-- The power-control frequency of every yard after an evaluation: down where P exceeds E, but for the case that every yard is at 0.60 GHz
already; up where it lies more than 50 W below. -/
def State.powerStep (s : State) (p e : Nat) : State :=
  let low := s.yardsLow
  (List.finRange 4).foldl (fun s y =>
    let x := s.yard y
    if e < p * 300 then if low then s else s.setYard y { x with power := max 600 (x.power - 25) }
    else if (p + 50) * 300 < e then s.setYard y { x with power := min 1400 (x.power + 25) }
    else s) s

/-- The causes of a trip whose limits the readings are beyond, the hottest yard's among them (R433): 1 input current, 2 and 3 its voltage, 4
yard, 5 HBM or loft, 6 optical engine, 7 coolant inlet, 8 coolant flow, 9 leak, 10 a regulated rail. -/
def tripLimits (m : PowerSample) (yard : Nat) : List Nat :=
  ([(1, decide (90 < m.amps)), (2, decide (m.vin < 4200)), (3, decide (6000 < m.vin)), (4, decide (110 ≤ yard)),
    (5, decide (110 ≤ m.hbm) || decide (105 ≤ m.loft)), (6, decide (85 ≤ m.optical)), (7, decide (55 < m.inlet)),
    (8, decide (m.flow < 150)), (9, m.wet), (10, m.rail)].filter fun e => e.2).map (·.1)

/-- For how many evaluations a condition holds before it trips: its time in ms, and 1 where that is shorter than the evaluation's. -/
def tripTime (cause : Nat) : Nat := if cause = 7 || cause = 8 then 1000 else if cause = 9 then 100 else 1

/-- The trip that the porter takes at an evaluation: of the causes whose condition has now held for its time, the lowest. -/
def State.tripDue (s : State) : Option Nat := (List.range 11).find? fun c => s.tripMs.contains (c, tripTime c)

/-- The porter's readings, and for how long each trip condition has held. -/
def State.showPower (s : State) (m : PowerSample) : State :=
  let past := tripLimits m (s.fld .ptrThermStatus F.ptrThermStatus_YARD_MAX_C)
  let s : State := { s with tripMs := past.map fun c => (c, AMap.get 0 c s.tripMs + 1) }
  let s := s.setFlds .ptrPwrStatus [(F.ptrPwrStatus_VIN_10MV, m.vin), (F.ptrPwrStatus_PIN_W, m.pin),
    (F.ptrPwrStatus_AUX_10MW, m.auxPower)]
  let s := s.setFlds .ptrThermStatus [(F.ptrThermStatus_HBM_MAX_C, m.hbm), (F.ptrThermStatus_LOFT_MAX_C, m.loft),
    (F.ptrThermStatus_OPT_MAX_C, m.optical), (F.ptrThermStatus_INLET_C, m.inlet), (F.ptrThermStatus_OUTLET_C, m.outlet),
    (F.ptrThermStatus_FLOW_10ML, m.flow), (F.ptrThermStatus_WET, if m.wet then 1 else 0)]
  let s := s.setFld .ptrProtStatus F.ptrProtStatus_ACTIVE (if past.isEmpty then 0 else 1)
  let s := s.aonPorter 402 m.joules
  let s := if past.isEmpty then s else s.aonPorter 404 1
  if 75 ≤ m.optical then { s with redfish := s.redfish ++ [Redfish.optical m.optical] } else s

/-- The porter's evaluation of every millisecond: a trip condition that has held for its time trips (R433; log entry 107), and the power
control acts on what is left running. -/
def execPowerControlEval (m : PowerSample) (s : State) : Out :=
  .next (
    if !s.aux then s
    else
      let s := s.showPower m
      let s := match s.tripDue with
        | some c => s.trip c
        | none => s
      let e := limit300 (s.fld .ptrPwrLimit F.ptrPwrLimit_LIMIT_W) m.inlet m.flow
      let floor := s.dieUp && decide (e < m.mean * 300) && s.yardsLow
      let s := if s.dieUp then s.powerStep m.mean e else s
      let s := if s.dieUp then (List.finRange 4).foldl (fun s y => s.yardShow y) s else s
      s.setFlds .ptrPwrLimit [(F.ptrPwrLimit_EFFECTIVE_W, e / 300), (F.ptrPwrLimit_FLOOR, if floor then 1 else 0),
        (F.ptrPwrLimit_LIMITING, if s.dieUp && (List.finRange 4).any (fun y => s.powerHolds y) then 1 else 0)])

/-! ### Temperature (R432, R433) -/

/-- Each yard's hottest sensor against YARD_THROTTLE_C. -/
def State.thermalStep (s : State) (tc : Vector Nat 4) : State :=
  let thr := s.fld .ptrThermCtrl F.ptrThermCtrl_YARD_THROTTLE_C
  (List.finRange 4).foldl (fun s y =>
    let x := s.yard y
    let t := tc[y]
    let th := if thr < t then (if 600 < x.porter then x.thermal + 25 else x.thermal)
      else if t + 3 ≤ thr then x.thermal - 25 else x.thermal
    ((s.setYard y { x with thermal := th }).setFld (.clkYardStatus y) F.clkYardStatus_TEMP_C t).yardShow y) s

def execYardThermalCheck (tc : Vector Nat 4) (s : State) : Out :=
  .next (
    if !s.aux then s
    else
      let s := if s.dieUp then s.thermalStep tc else s
      let on := (List.finRange 4).any fun y => decide ((s.yard y).thermal ≠ 0)
      let s := if on then s.aonPorter 403 1 else s
      s.setFlds .ptrThermStatus [(F.ptrThermStatus_YARD_MAX_C, tc.toList.foldl max 0),
        (F.ptrThermStatus_THROTTLING, if on then 1 else 0)])

/-- The loft packages above 95 °C, for which the controller admits requests in at most half of its cycles. -/
def execLoftThermalThrottle (k : Fin 16) (t : Nat) (s : State) : Out :=
  .next (
    if !s.dieUp then s
    else
      let rest : List (Fin 16) := s.loftHot.filter fun x => x ≠ k
      { s with loftHot := if 95 < t then k :: rest else rest })

/-! ### Always-on counters (R407, R409) -/

/-- The porter's collection of every millisecond, and its time. -/
def execAonCollection (s : State) : Out :=
  .next (
    if !s.aux then s
    else
      let s := { s with porterMs := s.porterMs + 1 }.railStep
      let s := if s.dieUp then s.aonRead else s
      s.wr (.ptrAon 405) (BitVec.ofNat 64 s.porterMs))

/-- A write of CLEAR: what the die has counted since the last collection stays. -/
def State.aonClear (s : State) : State :=
  { s with regs := s.regs.filter fun e => match e.1 with | .ptrAon i => i = 400 || i = 405 | _ => true }

def execClear (s : State) : Out := .next (if s.aux then s.aonClear else s)

/-! ### The retired-page list (R348) -/

def State.retiredBusy (s : State) : Bool := s.flag .ptrRetiredIdx F.ptrRetiredIdx_BUSY

/-- A write of the entry that INDEX names starts its commit; what is written is kept also where aux is lost before the commit ends (log
entry 122). -/
def State.retiredDataWrite (s : State) (v : BitVec 64) : State :=
  if s.retiredBusy then s
  else
    let e := pack [(F.ptrRetiredData_PAGE, F.ptrRetiredData_PAGE.get v), (F.ptrRetiredData_TIER, F.ptrRetiredData_TIER.get v)]
    let i := Fin.ofNat 4096 (s.fld .ptrRetiredIdx F.ptrRetiredIdx_INDEX)
    { s with retiredPages := AMap.set i e s.retiredPages }.setFld .ptrRetiredIdx F.ptrRetiredIdx_BUSY 1

/-- A write of INDEX and COUNT, committed like an entry (log entry 122). -/
def State.retiredIdxWrite (s : State) (v : BitVec 64) : State :=
  if s.retiredBusy then s
  else
    (s.regWrite .ptrRetiredIdx v).setFld .ptrRetiredIdx F.ptrRetiredIdx_BUSY 1

def execRetiredDataWrite (v : BitVec 64) (s : State) : Out := .next (if s.aux then s.retiredDataWrite v else s)
def execRetiredIdxWrite (v : BitVec 64) (s : State) : Out := .next (if s.aux then s.retiredIdxWrite v else s)
def execRetiredCommitDone (s : State) : Out :=
  .next (if s.aux then s.setFld .ptrRetiredIdx F.ptrRetiredIdx_BUSY 0 else s)

/-! ### The status indicator (R440) -/

/-- What the indicator on the north edge shows. -/
inductive Indicator where
  | off | amberBlinking | amberSteady | greenBlinking | greenSteady | alternating | red
  deriving DecidableEq, Repr

def State.indicator (s : State) : Indicator :=
  if !s.aux then .off
  else if s.flag .ptrStage F.ptrStage_OUT_OF_SERVICE || s.flag .ptrProtStatus F.ptrProtStatus_VALID then .red
  else if s.stage = 3 then (if s.quarantined then .alternating else .greenSteady)
  else if s.stage ≠ 0 then .greenBlinking
  else if s.flag .ptrStage F.ptrStage_FW_OK then .amberSteady
  else .amberBlinking

end Sys2Proof.Machine
end

