-- ==== Sys2Proof/Machine/Hbm.lean ====
section
/-!
DEFINITION. The memory controllers beside their accesses: refresh and throttling (R197), and patrols (R199).
-/
namespace Sys2Proof.Machine

/-! ### Refresh (R197) -/

/-- The thresholds below a temperature, each lowered by `back`. -/
def refreshLevel (t back : Nat) : Nat := ([85, 95, 105].filter fun h => decide (h < t + back)).length

/-- The refresh level after a sample: up at once, down only once the stack is 2 °C below the threshold. Level 3 is ×4 with the
throttle, which ends with the same hysteresis as a rate (R197; DESIGN CHOICE, log entry 133). -/
def nextLevel (cur t : Nat) : Nat := max (refreshLevel t 0) (min cur (refreshLevel t 2))

/-- An HBM controller samples its stack's temperature; `cyc` is the number of cycles it has throttled since the last sample. -/
def execRefreshTempSample (k : Fin 8) (t cyc : Nat) (s : State) : Out :=
  .next (
    if !s.dieUp then s
    else
      let throttled := s.flag (.hbaStatus k) F.hbaStatus_THROTTLE
      let cur := s.fld (.hbaStatus k) F.hbaStatus_REFRESH + if throttled then 1 else 0
      let l := nextLevel cur t
      let s := if throttled then s.bump (.hbaThrottleCyc k) cyc else s
      s.setFlds (.hbaStatus k) [(F.hbaStatus_TEMP, t), (F.hbaStatus_REFRESH, min l 2),
        (F.hbaStatus_THROTTLE, if l = 3 then 1 else 0)])

/-! ### Patrols (R199, R206) -/

/-- The patrol register of a stack, or of the loft. -/
def scrubReg : Option (Fin 8) → Reg
  | some k => .hbaScrub k
  | none => .lftScrub

/-- Whether a unit belongs to a patrol. -/
def inPatrol (m : Option (Fin 8)) (u : Nat) : Bool :=
  match m with
  | some k => isHbm u && stackOf u = k
  | none => isLoft u

def State.scrubBusy (s : State) (m : Option (Fin 8)) : Bool := s.flag (scrubReg m) F.hbaScrub_BUSY

/-- A pass begins, unless one is running: the units poisoned before it are those that it will post. -/
def State.scrubBegin (s : State) (m : Option (Fin 8)) : State :=
  if s.scrubBusy m then s
  else { s.setFld (scrubReg m) F.hbaScrub_BUSY 1 with patrols := AMap.set m (s.poison.filter (inPatrol m)) s.patrols }

/-- PERIOD_H has elapsed. -/
def execScrubPassStart (m : Option (Fin 8)) (s : State) : Out :=
  .next (if s.dieUp && s.fld (scrubReg m) F.hbaScrub_PERIOD_H ≠ 0 then s.scrubBegin m else s)

/-- A write of PASS_NOW. -/
def execPassNow (m : Option (Fin 8)) (s : State) : Out := .next (if s.dieUp then s.scrubBegin m else s)

/-- One page of units poisoned before a pass is reported once. -/
def State.reportPages (s : State) (us : List Nat) : State :=
  ((us.map fun u => u / 2 ^ 21).eraseDups).foldl (fun s pg =>
    match us.find? fun u => u / 2 ^ 21 = pg with
    | some u => s.postPoison u true
    | none => s) s

/-- A pass has read every unit: errors are corrected, or poisoned and reported. -/
def execScrubPassEnd (m : Option (Fin 8)) (s : State) : Out :=
  .next (
    if !s.dieUp || !s.scrubBusy m then s
    else
      let old := AMap.get [] m s.patrols
      let bad := ((s.latentUe ++ s.latentCe).filter (inPatrol m)).eraseDups
      let s := bad.foldl (fun s u => s.touch u true) s
      let s := (s.reportPages old).setFld (scrubReg m) F.hbaScrub_BUSY 0
      { s with patrols := AMap.del m s.patrols })

end Sys2Proof.Machine
end

