-- ==== Sys2Proof/Machine/Retire.lean ====
section
/-!
DEFINITION. The ends of issued instructions: the retire point and the fault (R91, R92, R125, R127, R128, R284, R313).
-/
namespace Sys2Proof.Machine

/-- The status values with which an instruction retires (R128). -/
def statusRetires (st : Status) : Bool := st == .ok || st == .partialCircular

/-- The records of one unit of a stall, in program order. -/
def Stall.unitFlights (t : Stall) (u : StallUnit) : List Flight := t.flights.filter fun f => f.unit = u

/-- Whether the record at place `idx` of its unit may end now: in order in the vector engine, in the order of R89 in the matrix
engine, and in order everywhere for an instruction guarded off (R125, R156); with no wait pending, and no letter of its own left
to end. -/
def State.mayEnd (s : State) (n : Fin 128) (f : Flight) (idx : Nat) : Bool :=
  s.dieUp && s.yardRuns (yardOf n) &&
    ((f.unit = .mover && !f.guardOff) || (((s.stall n).unitFlights f.unit).take idx).all f.overtakes) &&
    (match f.kind with | .update (some _) => false | _ => true) && !s.owes (.flight n f.seq)

/-- Whether its collective operation, if any, has reached its retire point (R284). -/
def State.collReady (s : State) (f : Flight) : Bool :=
  match f.collOp with
  | none => true
  | some id => (s.findOp id).any fun o => s.opDone o

/-- A collective operation's end, as its instruction's record takes it: the outcome of a circular (R260, R284). -/
def State.collOutcome (s : State) (f : Flight) : Flight :=
  match f.collOp.bind s.findOp with
  | some o =>
    if o.kind == .circ then
      let st : Status := if o.refused = 0 then .ok else .partialCircular
      { f with status := st, sWrites := [(o.sReg, BitVec.allOnes 64, circWord o.delivered o.refused st)] }
    else f
  | none => f

/-- An element of an accumulator that is undefined in value: any, and poisoned as the array left it. -/
def freeElem (compat : Bool) (x : Nat) (e : Elem) : Elem := { Elem.ofImage compat x with poison := e.poison }

/-- An accumulator whose first M rows and N columns are undefined in value. -/
def Acc.undefined (a : Acc) (no M N : Nat) : Acc :=
  { a with rows := a.mapAll fun i j e =>
      if i < M ∧ j < N then freeElem a.compat (Config.raced no (64 + 128 * i + j)) e else e }

/-- The register of a stall that an instruction has changed, its result being undefined in value (R16). -/
def Stall.landFree (t : Stall) (no : Nat) : Option Landing → Stall
  | some (.vreg r) => t.setV r (BitVec.ofNat 2048 (Config.raced no 0))
  | some (.acc a M N) => t.setAcc a (t.acc[a].undefined no M N)
  | some (.clear a) => t.setAcc a {}
  | none => t

/-- An instruction whose results are undefined in value ends: what it has written to memory and to registers, or is about to, holds free
values; the instruction ends as it would have, and raises no fault (R16; log entry 6). -/
def State.endFree (s : State) (n : Fin 128) (f : Flight) : State × Flight :=
  if !s.underway.undef.contains (f.actor n) then (s, f)
  else
    let no := s.raceNo
    let s := s.racesSettle s.racing fun c => c.writes.any fun w => w.actor = f.actor n
    let p := f.pWrite.map fun w => (w.1, BitVec.ofNat 256 (Config.raced no 1))
    let s := { s with raceNo := no + 1 }.modStall n fun t =>
      let t := t.landFree no f.lands
      match p with | some (r, x) => t.setVP r x | none => t
    (s, { f with pWrite := p
                 sWrites := f.sWrites.map fun w => (w.1, w.2.1, BitVec.ofNat 64 (Config.raced no (2 + w.1.val))) })

/-- The register writes that wait for the retire point (R127). -/
def Stall.land (t : Stall) (f : Flight) : Stall :=
  let t := f.sWrites.foldl (fun t w => t.setS w.1 (t.s[w.1] &&& ~~~w.2.1 ||| w.2.2 &&& w.2.1)) t
  match f.pWrite with
  | some (r, x) => if r = 0 then t else { t with p := t.p.set r x }
  | none => t

/-- Remove a record from a stall. -/
def Stall.drop (t : Stall) (seq : Nat) : Stall := { t with flights := t.flights.filter fun x => x.seq ≠ seq }

/-- What a matrix, update or collective instruction counts as it retires (R60, R92, R120, R296, R408). -/
def State.countRetired (s : State) (n : Fin 128) (f : Flight) : State :=
  if f.guardOff then s
  else match f.kind with
    | .mma (some i) => (((s.bump (.stlMmRetired n) 1).aonAdd 80 1).watchCount n i)
    | .mma none => (s.bump (.stlMmRetired n) 1).aonAdd 81 1
    | .update _ => if f.wrote then s.bump (.stlUpdTiles n) 1 else s
    | .coll g =>
      match f.collOp with
      | some id => s.collFinish id
      | none => s.bump (.ceGrpOps (s.stall n).context g) 1
    | _ => s

/-- An issued instruction reaches its retire point (R128). -/
def State.retireFlight (s : State) (n : Fin 128) (f : Flight) : State :=
  let f := s.collOutcome f
  let (s, f) := s.endFree n f
  let s := (s.count n f.counts).modStall n fun t => (t.drop f.seq).land f
  let s := s.modStall n fun t => f.tallies.foldl (fun t c => t.advance c 1) t
  let s := (s.watchSettle n f.dest).countRetired n f
  (s.racesEnd.retire n (unitCode f.unit) f.ten f.tc f.pc f.status).finishHalt n

/-- The `idx`-th outstanding record of a unit retires, if it may. -/
def execInstructionRetire (n : Fin 128) (u : StallUnit) (idx : Nat) (s : State) : Out :=
  .next (
    match ((s.stall n).unitFlights u)[idx]? with
    | none => s
    | some f =>
      if s.mayEnd n f idx && s.collReady f && statusRetires f.status then s.retireFlight n f else s)

/-- The first fault of a stall's matrix engine (R91, R92); a later one while VALID stands goes to the logbook (R413). For
ST_FORMAT_MISMATCH, ROW, COL, OFFSET and STORE take 0 (DESIGN CHOICE, log entry 125). -/
def State.mmFault (s : State) (n : Fin 128) (st : Status) (m : MmFault) : State :=
  let r := Reg.stlMmFault n
  if s.flag r F.stlMmFault_VALID then
    s.logUnrecorded (stallUnit n 1) (s.stall n).context st 5
  else
    let ue := st == .uncorrectable
    s.wr r (pack [(F.stlMmFault_CODE, st.code), (F.stlMmFault_VALID, 1), (F.stlMmFault_ACC, m.acc.val),
      (F.stlMmFault_INSTR, m.instr), (F.stlMmFault_ROW, if ue then m.row else 0), (F.stlMmFault_COL, if ue then m.col else 0),
      (F.stlMmFault_OFFSET, if ue then (m.loc.map (·.1)).getD 0 else 0),
      (F.stlMmFault_STORE, if ue && (m.loc.map (·.2)).getD false then 1 else 0)])

/-- An issued instruction ends with its fault, and the stall stops (R128, R313). A circular that breaks R257 still writes its
outcome (R284). -/
def State.faultFlight (s : State) (n : Fin 128) (f : Flight) : State :=
  let (s, f) := s.endFree n f
  let s := ((s.count n f.counts).modStall n fun t => t.drop f.seq).racesEnd
  let s := match f.kind with
    | .coll _ => s.modStall n fun t => t.land f
    | _ => s
  let grp := match f.kind with | .coll g => some g | _ => none
  let s := (s.watchSettle n f.dest).faultStall n (unitCode f.unit)
    { stall := n, pc := f.pc, status := f.status, group := grp, loc := f.loc } f.cls f.op
  match f.kind with
  | .matrix m => s.mmFault n f.status m
  | _ => s

/-- The `idx`-th outstanding record of a unit ends with its fault, if it may. -/
def execInstructionFault (n : Fin 128) (u : StallUnit) (idx : Nat) (s : State) : Out :=
  .next (
    match ((s.stall n).unitFlights u)[idx]? with
    | none => s
    | some f => if s.mayEnd n f idx && !(statusRetires f.status) then s.faultFlight n f else s)

end Sys2Proof.Machine
end

