-- ==== Sys2Proof/Machine/Traces.lean ====
section
/-!
DEFINITION. Control of the trace: enabling, arming, triggers, markers, freezing, and remote triggers (R415 to R421, R423).
-/
namespace Sys2Proof.Machine

/-- The unit that a host trigger, or a host marker, is written to: the host link (R410, R423). -/
def hostUnit : Fin 1024 := 0x234

/-- ENABLE is written 1: the ring starts anew. It is refused in spill mode without a region. -/
def State.traceEnable (s : State) : State :=
  if s.flag .dbgTraceCtrl F.dbgTraceCtrl_SPILL && s.fld .dbgTraceSpill F.dbgTraceSpill_SIZE_GIB = 0 then s
  else
    let s := s.setFld .dbgTraceCtrl F.dbgTraceCtrl_ENABLE 1
    let s := s.setFlds .dbgTraceStatus [(F.dbgTraceStatus_WRITE_IDX, 0), (F.dbgTraceStatus_FROZEN, 0)]
    let tr : Trace := { s.trace with post := none, queues := [], lost := [], trigAt := none }
    { s with trace := tr }

def execEnable (s : State) : Out := .next (if s.dieUp then s.traceEnable else s)

def State.traceArm (s : State) : State := s.setFld .dbgTraceStatus F.dbgTraceStatus_ARMED 1
def execArm (s : State) : Out := .next (if s.dieUp then s.traceArm else s)

/-- A host trigger. -/
def State.trigNow (s : State) : State := s.trigger hostUnit 4 none
def execTrigNow (s : State) : Out := .next (if s.dieUp then s.trigNow else s)

/-- A write of DBG_TRACE_CTRL: its plain fields, then ENABLE, ARM and TRIG_NOW. SPILL and LOSSLESS stand while ENABLE is 1. -/
def State.traceCtrlWrite (s : State) (v : BitVec 64) : State :=
  let r := Reg.dbgTraceCtrl
  let old := s.rd r
  let w := writeFields true r.fields old v
  let w := F.dbgTraceCtrl_ENABLE.put w (if F.dbgTraceCtrl_ENABLE.get v = 0 then 0 else F.dbgTraceCtrl_ENABLE.get old)
  let w := if F.dbgTraceCtrl_ENABLE.get old = 0 then w
    else F.dbgTraceCtrl_LOSSLESS.put (F.dbgTraceCtrl_SPILL.put w (F.dbgTraceCtrl_SPILL.get old)) (F.dbgTraceCtrl_LOSSLESS.get old)
  let s := s.wr r w
  let s := if F.dbgTraceCtrl_ENABLE.get v ≠ 0 then s.traceEnable else s
  let s := if F.dbgTraceCtrl_ARM.get v ≠ 0 then s.traceArm else s
  if F.dbgTraceCtrl_TRIG_NOW.get v ≠ 0 then s.trigNow else s

/-- A write of DBG_TRACE_MARK. -/
def State.traceMark (s : State) (x : BitVec 32) : State := s.emit hostUnit 9 0xFF x.toNat []
def execTraceMark (x : BitVec 32) (s : State) : Out := .next (if s.dieUp then s.traceMark x else s)

/-- The last post-trigger record is in the ring. -/
def execTraceFreeze (s : State) : Out :=
  .next (
    if s.dieUp && s.trace.post = some 0 && !s.flag .dbgTraceStatus F.dbgTraceStatus_FROZEN then
      let tr : Trace := { s.trace with queues := [], lost := [] }
      ({ s with trace := tr }.setFld .dbgTraceStatus F.dbgTraceStatus_FROZEN 1).log hostUnit 0x0061 0xFF
        (toBytes 1 s.trace.source ++ toBytes 4 (s.fld .dbgTraceStatus F.dbgTraceStatus_WRITE_IDX))
    else s)

/-- A DIAG trigger letter arrives on a port. -/
def execRemoteTrigger (p : Fin 8) (lt : Letter) (s : State) : Out :=
  .next (
    if !s.dieUp || !s.accepted p || lt.cls != .diag || lt.op ≠ 1 then s
    else
      let s := s.takenAt p lt
      let b := lt.body
      let pair := (natAt b 0 2, natAt b 2 4)
      if !bitOf (s.fld .dbgTrigNet F.dbgTrigNet_ACCEPT) p.val || pair ∈ s.trace.recent then s
      else if !s.flag .dbgTraceStatus F.dbgTraceStatus_ARMED || s.flag .dbgTraceStatus F.dbgTraceStatus_FROZEN then
        s.trigger (portUnit p) 5 none
      else
        let tr : Trace := { s.trace with recent := (pair :: s.trace.recent).take 16 }
        let s : State := { s with trace := tr }.aonAdd 420 1
        s.trigger (portUnit p) 5 (some ⟨pair.1, pair.2, natAt b 6 8, natAt b 14 1, natAt b 15 1, some p⟩))

end Sys2Proof.Machine
end

