-- ==== Sys2Proof/Machine/Writes.lean ====
section
/-!
DEFINITION. Register writes and reads from outside: the access codes (R8, R9), BAR0 (R298, R299), the registers whose writes do
more, routing tables (R254), management letters (R343), and the training of the host link (R297).
-/
namespace Sys2Proof.Machine

/-! ### Routing tables (R254, R262) -/

/-- A write of SO_RT_CTRL, judged as a whole: SRC_EPOCH must name a version that is VALID. -/
def State.rtCtrlWrite (s : State) (v : BitVec 64) : State :=
  if F.soRtCtrl_SRC_EPOCH.get v = 0 && F.soRtCtrl_VALID0.get v = 0 then s
  else if F.soRtCtrl_SRC_EPOCH.get v ≠ 0 && F.soRtCtrl_VALID1.get v = 0 then s
  else s.regWrite .soRtCtrl v

def execSrcEpochWrite (v : BitVec 64) (s : State) : Out := .next (if s.dieUp then s.rtCtrlWrite v else s)

/-- A write of an axis of a version, ignored while the version is VALID. -/
def State.rtAxisWrite (s : State) (ver : Fin 2) (a : Fin 4) (v : BitVec 64) : State :=
  if s.rtValid ver then s else s.regWrite (.soRtAxis ver a) v

def execRtAxisWrite (ver : Fin 2) (a : Fin 4) (v : BitVec 64) (s : State) : Out :=
  .next (if s.dieUp then s.rtAxisWrite ver a v else s)

/-! ### Writes that do more than store (R8) -/

/-- A write of PTR_STAGE_CMD (R346). -/
def State.stageCmd (s : State) (v : BitVec 64) : State :=
  match F.ptrStageCmd_CMD.get v with
  | 1 => s.mainOn
  | 2 => s.mainOff
  | 3 => s.grantCmd (Fin.ofNat 4 (F.ptrStageCmd_AXIS.get v))
  | 4 => s.advanceCmd
  | 5 => s.harnessCmd false
  | 6 => s.harnessCmd true
  | _ => s

/-- A write of PTR_BYPASS: FORCE of each axis (R233). -/
def State.bypassWrite (s : State) (v : BitVec 64) : State :=
  (List.finRange 4).foldl (fun s a =>
    let on := bitOf (F.ptrBypass_FORCE.get v) a.val
    if on = s.axisForced a then s else s.forceWrite a on) s

/-- A write of SO_PORT_CTRL (R232). -/
def State.portCtrlWrite (s : State) (p : Fin 8) (v : BitVec 64) : State :=
  let old := s.fld (.soPortCtrl p) F.soPortCtrl_DISABLE
  let s := (s.regWrite (.soPortCtrl p) v).setFld (.soPortCtrl p) F.soPortCtrl_DISABLE old
  let s := s.disableWrite p (F.soPortCtrl_DISABLE.get v ≠ 0)
  let s := s.restoreWrite p (BitVec.ofNat 4 (F.soPortCtrl_RESTORE.get v))
  if F.soPortCtrl_RETRAIN.get v ≠ 0 then s.retrain p else s

/-- A write of HBA_SCRUB or LFT_SCRUB (R206). -/
def State.scrubWrite (s : State) (m : Option (Fin 8)) (v : BitVec 64) : State :=
  let s := s.regWrite (scrubReg m) v
  if F.hbaScrub_PASS_NOW.get v ≠ 0 then s.scrubBegin m else s

/-- A write of CLK_YARD_CTRL (R356, R366). -/
def State.yardCtrlWrite (s : State) (y : Fin 4) (v : BitVec 64) : State :=
  let r := Reg.clkYardCtrl y
  let old := s.fld r F.clkYardCtrl_HALT
  let halt := F.clkYardCtrl_HALT.get v
  let s := (s.regWrite r v).setFld r F.clkYardCtrl_HALT old
  (if halt = old then s else s.haltWrite y (halt ≠ 0)).yardShow y

/-- A write of CE_GRP_CTRL (R266). -/
def State.grpCtrlWrite (s : State) (c : Fin 64) (g : Fin 4) (v : BitVec 64) : State :=
  if F.ceGrpCtrl_VALID.get v ≠ 0 then s.groupSet c g v else s.groupClear c g v

/-- A write that stands only before the context's first consignment is accepted (R24, R51, R119, R393). -/
def State.sampledWrite (s : State) (c : Fin 64) (r : Reg) (v : BitVec 64) : State :=
  if c ∈ s.sampled then s else s.regWrite r v

/-- A write of HST_CTX_MIRROR: one that names no axis, or no slot size, is ignored whole (R403). -/
def State.mirrorWrite (s : State) (c : Fin 64) (v : BitVec 64) : State :=
  if 5 ≤ F.hstCtxMirror_AXIS.get v || F.hstCtxMirror_SLOT_GIB.get v = 0 then s else s.sampledWrite c (.hstCtxMirror c) v

/-- A write of 64 bits to a register, with all that it starts. -/
def State.store (s : State) (r : Reg) (v : BitVec 64) : State :=
  match r with
  | .ptrStageCmd => s.stageCmd v
  | .ptrStartCtrl => s.startCtrlWrite v
  | .ptrPlanChip => s.planChipWrite v
  | .ptrPlanPeer p => s.planPeerWrite p v
  | .ptrRetiredIdx => s.retiredIdxWrite v
  | .ptrRetiredData => s.retiredDataWrite v
  | .ptrBypass => s.bypassWrite v
  | .ptrEscCtrl => s.escCtrlWrite v
  | .ptrAonCtrl => if F.ptrAonCtrl_CLEAR.get v ≠ 0 then s.aonClear else s
  | .ceAxisPlan c => s.axisPlanWrite c v
  | .stlSrSeed c => s.sampledWrite c r v
  | .stlUpdTable c => s.sampledWrite c r v
  | .stlUpdSealed c => s.sampledWrite c r v
  | .hstXlatRoot c => s.xlatRootWrite c v
  | .hstXlatInval c => if F.hstXlatInval_START.get v ≠ 0 then s.xlatStart c else s
  | .hstCtxCtrl c => s.ctxCtrlWrite c v
  | .hstCtxPost c => if s.ctxState c = 0 then s.regWrite r v else s
  | .hstCtxSeal c => s.sampledWrite c r v
  | .hstCtxMirror c => s.mirrorWrite c v
  | .hstCtxSealCmd c => s.sealCmd c v
  | .hbaScrub k => s.scrubWrite (some k) v
  | .lftScrub => s.scrubWrite none v
  | .soPortCtrl p => s.portCtrlWrite p v
  | .soRtCtrl => s.rtCtrlWrite v
  | .soRtAxis ver a => s.rtAxisWrite ver a v
  | .ceGrpCtrl c g => s.grpCtrlWrite c g v
  | .ceGrpTree c g => if s.grpValid c g then s else s.regWrite r v
  | .ceGrpMember c g _ => if s.grpValid c g then s else s.regWrite r v
  | .hstQpCtrl q => s.qpCtrlWrite q v
  | .hstQpSqBase q => s.qpBaseWrite q r v
  | .hstQpCqBase q => s.qpBaseWrite q r v
  | .hstQpAccAddr q => s.qpBaseWrite q r v
  | .hstQpSqTail q => s.sqTailWrite q (F.hstQpSqTail_INDEX.get v) true
  | .hstQpCqHead q => s.cqHeadWrite q (F.hstQpCqHead_INDEX.get v)
  | .hstQpAbort q => s.abortWrite q v
  | .clkYardCtrl y => s.yardCtrlWrite y v
  | .dbgTraceCtrl => s.traceCtrlWrite v
  | .dbgTraceMark => s.traceMark (BitVec.ofNat 32 v.toNat)
  | _ => s.regWrite r v

/-! ### BAR0 (R298, R299) -/

/-- The bits of a register's RW and RWL fields. -/
def Reg.rwMask (r : Reg) : BitVec 64 :=
  r.fields.foldl (fun m f => match f.acc with
    | .rw => f.put m (2 ^ f.w - 1)
    | .rwl => f.put m (2 ^ f.w - 1)
    | _ => m) 0

/-- What an access of 4 bytes leaves in the other half of a register: its RW fields as they stand, and no write of 1. -/
def State.widen (s : State) (r : Reg) (addr size : Nat) (v : BitVec 64) : BitVec 64 :=
  if size = 8 then v
  else
    let half : BitVec 64 := 0xFFFFFFFF
    let m := if addr % 8 = 0 then half else half <<< 32
    ((if addr % 8 = 0 then v else v <<< 32) &&& m) ||| (s.view r &&& r.rwMask &&& ~~~m)

/-- The registers of the porter's logbook, which lives in the porter (R410, R414). -/
def Reg.porterLog : Reg → Bool
  | .dbgLog u _ _ => u = 0x3FF
  | .dbgLogNext u => u = 0x3FF
  | _ => false

/-- Whether the unit that holds a register answers now: the porter with aux power, the die out of reset (R2, R10). -/
def State.answers (s : State) (r : Reg) : Bool := if r.domain == .porter || r.porterLog then s.aux else s.dieUp

/-- Whether the host link is up (R2, R301). -/
def State.hostLink (s : State) : Bool := s.dieUp && s.fld .hstLinkStatus F.hstLinkStatus_WIDTH ≠ 0

/-- The value that the register at an address reads; reserved addresses read 0. -/
def State.readAt (s : State) (a : Nat) : State × BitVec 64 :=
  match Reg.ofAddr a with
  | some r => if s.answers r then s.readReg r else (s, 0)
  | none => (s, 0)

/-- Half of a 64-bit word, or the whole, as an access of 4 or 8 bytes reads it. -/
def wordHalf (addr size : Nat) (v : BitVec 64) : Nat := bitsOf v.toNat (8 * (addr % 8)) (8 * size)

/-- A 64-bit word with the bytes of an access of 4 or 8 bytes replaced. -/
def wordPut (addr size : Nat) (old v : BitVec 64) : BitVec 64 := (⟨8 * (addr % 8), 8 * size, .rw, 0, none⟩ : Fld).put old v.toNat

/-! ### MSI-X (R297, R298, R301): the layout of the table and of the pending bits is that of PCI Express (log entry 50) -/

/-- The entry of the MSI-X table that holds an address, if the table does. -/
def msixAt (a : Nat) : Option (Fin 260) :=
  if 0xFF000FF00000 ≤ a ∧ a < 0xFF000FF00000 + 16 * 260 then some (Fin.ofNat 260 ((a - 0xFF000FF00000) / 16)) else none

/-- The word of the pending-bit array at an address. -/
def State.msixPending (s : State) (a : Nat) : BitVec 64 :=
  s.msixPend.foldl (fun w v => if 0xFF000FF10000 ≤ a ∧ v / 64 = (a - 0xFF000FF10000) / 8 then w ||| BitVec.ofNat 64 (2 ^ (v % 64)) else w) 0

/-- A write to an entry of the MSI-X table; a vector that it unmasks is pending no longer. -/
def State.msixWrite (s : State) (v : Fin 260) (addr size : Nat) (x : BitVec 64) : State :=
  let lo := 64 * (addr / 8 % 2)
  let e := s.msixEntry v.val
  let w := wordPut addr size (BitVec.ofNat 64 (bitsOf e.toNat lo 64)) x
  let e := (e &&& ~~~((BitVec.allOnes 64).setWidth 128 <<< lo)) ||| (w.setWidth 128 <<< lo)
  let s := { s with msix := AMap.set v e s.msix }
  if s.msixMasked v.val then s else { s with msixPend := s.msixPend.filter fun x => x ≠ v.val }

/-! ### Configuration space (R297): the places of its fields are those of PCI Express (log entry 50) -/

/-- A 32-bit word of the function's configuration space: its identity, and the uncorrectable errors of Advanced Error Reporting. -/
def State.configWord (s : State) (a : Nat) : BitVec 32 :=
  match a with
  | 0x00 => 0x8A001F3C
  | 0x08 => 0x12000011
  | 0x2C => 0x00011F3C
  | 0x104 => s.aer
  | _ => 0

/-- A write of configuration space: a 1 clears an error. -/
def State.configWrite (s : State) (a : Nat) (v : BitVec 64) : State :=
  if a = 0x104 then { s with aer := s.aer &&& ~~~v.setWidth 32 } else s

/-! ### Management accesses (R178, R190, R298, R299) -/

/-- A discarded access of BAR0. -/
def State.barErr (s : State) : State := (s.bump .hstBarErr 1).raise 259

/-- A write at a chip physical address from 0xFF00_0000_0000 up, of 4 or 8 aligned bytes. -/
def State.mgmtWrite (s : State) (addr size : Nat) (v : BitVec 64) : State :=
  match msixAt addr, Reg.ofAddr (addr / 8 * 8) with
  | some i, _ => s.msixWrite i addr size v
  | none, some r => if s.answers r then s.store r (s.widen r addr size v) else s
  | none, none => s

/-- A read there. -/
def State.mgmtRead (s : State) (addr size : Nat) : State × List MByte :=
  let a := addr / 8 * 8
  let p : State × BitVec 64 :=
    match msixAt a with
    | some i => (s, BitVec.ofNat 64 (bitsOf (s.msixEntry i.val).toNat (64 * (a / 8 % 2)) 64))
    | none => if 0xFF000FF10000 ≤ a ∧ a < 0xFF000FF10000 + 40 then (s, s.msixPending a) else s.readAt a
  (p.1, plain (toBytes size (wordHalf addr size p.2)))

/-- An access of the host through BAR0 (R298, R299). -/
def State.bar0Access (s : State) (addr size : Nat) (v : Option (BitVec 64)) : State :=
  let ok := (size = 4 || size = 8) && addr % size = 0
  if addr < 0xFF0000000000 || 0xFF0000000000 + 2 ^ 28 ≤ addr then s
  else match v with
    | some v =>
      let s := s.hostRecv size
      if ok then s.mgmtWrite addr size v else s.barErr
    | none =>
      if ok then let (s, bs) := s.mgmtRead addr size; s.hostReply bs
      else s.hostReply (List.replicate size (0xFF, false))

/-- What the porter reads. -/
def State.porterReply (s : State) (bs : List MByte) : State := { s with porterOut := s.porterOut ++ [bs] }

/-- An access of the porter, or of the host through it, by chip physical address (R2, R178): to a register, or to memory or a store
of the die. -/
def State.porterAccess (s : State) (addr size : Nat) (v : Option (BitVec 64)) : State :=
  if (size ≠ 4 && size ≠ 8) || addr % size ≠ 0 then s
  else if 0xFF0000000000 ≤ addr then
    match v with
    | some v => s.mgmtWrite addr size v
    | none => let (s, bs) := s.mgmtRead addr size; s.porterReply bs
  else if !s.dieUp then s
  else
    let as := (List.range size).map (addr + ·)
    match v with
    | some v => (s.writeGuarded (as.zip (plain (toBytes size v.toNat)))).countRsvd as
    | none => let (s, bs) := s.readMem as; s.porterReply bs

/-- A management access by its path, MCTP while the host link is up: a write, or a read where there is no value (R2, R8, R9, R178, R298, R299; log entry 103). -/
def execRegisterWrite (target : MgmtAddr) (size : Nat) (v : Option (BitVec 64)) (s : State) : Out :=
  .next (
    match target.path with
    | .bar0 => if s.dieUp then s.bar0Access target.addr size v else s
    | .porter => if s.aux then s.porterAccess target.addr size v else s
    | .mctp => if s.aux && s.hostLink then s.porterAccess target.addr size v else s
    | .config =>
      if !s.dieUp then s
      else match v with
        | some v => (s.hostRecv 4).configWrite target.addr v
        | none => s.hostReply (plain (toBytes 4 (s.configWord target.addr).toNat)))

/-! ### Management letters (R343) -/

def State.mgmtRemote (s : State) : Bool := decide (2 ≤ s.stage) && s.flag .ptrStartCtrl F.ptrStartCtrl_MGMT_REMOTE

/-- Whether a letter's address names a register, aligned and at or above 0xFF00_0000_0000. -/
def mgmtAddrOk (a : Nat) : Bool := a % 8 = 0 && decide (0xFF0000000000 ≤ a)

/-- The REG_REPLY that answers a request. -/
def mgmtReply (lt : Letter) (bs : List MByte) : Letter :=
  { dest := lt.src, src := lt.dest, cls := .mgmt, op := 4, length := 8, refPostmark := lt.postmark, body := bs.map (·.1) }

/-- The letter of a request of this die. -/
def mgmtLetter (s : State) (m : MgmtReq) : Letter :=
  { dest := m.dest, src := s.chip, cls := .mgmt, op := if m.write then 3 else 2, length := if m.write then 8 else 0,
    postmark := m.postmark, target := BitVec.ofNat 64 m.addr, body := if m.write then toBytes 8 m.value.toNat else [] }

/-- The porter asks for a register of another chip: the die sends a request, numbered by its own counter. -/
def State.mgmtAsk (s : State) (dest : BitVec 14) (write : Bool) (addr : Nat) (v : BitVec 64) : State :=
  let m : MgmtReq := { dest := dest, postmark := s.mgmtNext, write := write, addr := addr, value := v }
  { s with mgmtNext := s.mgmtNext + 1, mgmtOut := s.mgmtOut ++ [m] }.send (mgmtLetter s m)

/-- REG_READ: a letter for this chip is answered; one for another chip is a request of this chip's porter. -/
def execRegRead (lt : Letter) (s : State) : Out :=
  .next (
    if !s.dieUp then s
    else if lt.dest ≠ s.chip then s.mgmtAsk lt.dest false (lt.target.toNat % 2 ^ 48) 0
    else
      let s := s.taken lt
      let a := lt.target.toNat % 2 ^ 48
      if !s.mgmtRemote || !mgmtAddrOk a then s
      else
        let (s, bs) := s.mgmtRead a 8
        s.send (mgmtReply lt bs))

/-- Whether an address is a porter register's, which REG_WRITE may not write. -/
def porterAddr (a : Nat) : Bool := (Reg.ofAddr a).any fun r => r.domain == .porter

/-- REG_WRITE: applied once; a repeat is answered with the stored reply. -/
def execRegWrite (lt : Letter) (s : State) : Out :=
  .next (
    let a := lt.target.toNat % 2 ^ 48
    let v := BitVec.ofNat 64 (natAt lt.body 0 8)
    if !s.dieUp then s
    else if lt.dest ≠ s.chip then s.mgmtAsk lt.dest true a v
    else
      let s := s.taken lt
      if !s.mgmtRemote || !mgmtAddrOk a || porterAddr a then s
      else match s.mgmtSeen.find? fun e => e.1 = lt.src && e.2.1 = lt.postmark with
        | some e => s.send e.2.2
        | none =>
          let (s, bs) := (s.mgmtWrite a 8 v).mgmtRead a 8
          let rep := mgmtReply lt bs
          { s with mgmtSeen := ((lt.src, lt.postmark, rep) :: s.mgmtSeen).take 16 }.send rep)

/-- REG_REPLY: taken, like the requests, from Stage 2 with MGMT_REMOTE set, and matched by SRC and REF_POSTMARK. -/
def execRegReply (lt : Letter) (s : State) : Out :=
  .next (
    if !s.dieUp then s
    else
      let s := s.taken lt
      match s.mgmtRemote, s.mgmtOut.find? fun m => m.dest = lt.src && m.postmark = lt.refPostmark with
      | false, _ => s
      | true, none => s
      | true, some m =>
        let out : List MgmtReq := s.mgmtOut.erase m
        let res : MgmtResult := { dest := m.dest, postmark := m.postmark, value := some (BitVec.ofNat 64 (natAt lt.body 0 8)) }
        { s with mgmtOut := out, mgmtDone := s.mgmtDone ++ [res] })

/-- No reply within 1 ms: the request is sent again, up to three times, and then reported as failed. -/
def execRegRequestRetry (dest : BitVec 14) (pm : BitVec 32) (s : State) : Out :=
  .next (
    match s.dieUp, s.mgmtOut.find? fun m => m.dest = dest && m.postmark = pm with
    | true, some m =>
      let rest : List MgmtReq := s.mgmtOut.erase m
      if 3 ≤ m.tries then
        let res : MgmtResult := { dest := dest, postmark := pm, value := none }
        { s with mgmtOut := rest, mgmtDone := s.mgmtDone ++ [res] }
      else
        let m : MgmtReq := { m with tries := m.tries + 1 }
        { s with mgmtOut := rest ++ [m] }.send (mgmtLetter s m)
    | _, _ => s)

/-! ### The host link (R297, R301) -/

/-- The widths and rates of the link. -/
def linkOk (link : Option (BitVec 5 × BitVec 3 × Bool)) : Bool :=
  link.all fun e => (e.1 = 1 || e.1 = 2 || e.1 = 4 || e.1 = 8 || e.1 = 16) && decide (e.2.1.toNat ≤ 5)

/-- The link completes training at a width, a rate and flit mode, or goes down. -/
def execHostLinkTraining (link : Option (BitVec 5 × BitVec 3 × Bool)) (s : State) : Out :=
  if !linkOk link then .fault (.illFormed "HOST_LINK_TRAINING")
  else .next (
    if !s.dieUp then s
    else s.wr .hstLinkStatus (match link with
      | none => 0
      | some (w, r, f) => pack [(F.hstLinkStatus_WIDTH, w.toNat), (F.hstLinkStatus_RATE, r.toNat),
          (F.hstLinkStatus_FLIT, if f then 1 else 0), (F.hstLinkStatus_DEGRADED, if w = 16 && r = 5 then 0 else 1)]))

end Sys2Proof.Machine
end

