-- ==== Sys2Proof/Machine/Dispatch.lean ====
section
/-!
DEFINITION. The dispatch: one arm per command, each one call of its meaning.
-/
namespace Sys2Proof.Machine

def exec (i : Instr) (s : State) : Host.Outcome State Fault Refusal :=
  match i with
  | .nop h => Sys2Proof.Machine.execNop h s
  | .br h off => Sys2Proof.Machine.execBr h off s
  | .loop h sa off => Sys2Proof.Machine.execLoop h sa off s
  | .halt h => Sys2Proof.Machine.execHalt h s
  | .sadd h sd sa sb => Sys2Proof.Machine.execSadd h sd sa sb s
  | .ssub h sd sa sb => Sys2Proof.Machine.execSsub h sd sa sb s
  | .smul h sd sa sb => Sys2Proof.Machine.execSmul h sd sa sb s
  | .sand h sd sa sb => Sys2Proof.Machine.execSand h sd sa sb s
  | .sor h sd sa sb => Sys2Proof.Machine.execSor h sd sa sb s
  | .sxor h sd sa sb => Sys2Proof.Machine.execSxor h sd sa sb s
  | .sshl h sd sa sb => Sys2Proof.Machine.execSshl h sd sa sb s
  | .sshr h sd sa sb => Sys2Proof.Machine.execSshr h sd sa sb s
  | .ssra h sd sa sb => Sys2Proof.Machine.execSsra h sd sa sb s
  | .smin h sd sa sb => Sys2Proof.Machine.execSmin h sd sa sb s
  | .smax h sd sa sb => Sys2Proof.Machine.execSmax h sd sa sb s
  | .sminu h sd sa sb => Sys2Proof.Machine.execSminu h sd sa sb s
  | .smaxu h sd sa sb => Sys2Proof.Machine.execSmaxu h sd sa sb s
  | .scmpEq h pd sa sb => Sys2Proof.Machine.execScmpEq h pd sa sb s
  | .scmpLt h pd sa sb => Sys2Proof.Machine.execScmpLt h pd sa sb s
  | .scmpLtu h pd sa sb => Sys2Proof.Machine.execScmpLtu h pd sa sb s
  | .pand h pd pa pb => Sys2Proof.Machine.execPand h pd pa pb s
  | .por h pd pa pb => Sys2Proof.Machine.execPor h pd pa pb s
  | .pxor h pd pa pb => Sys2Proof.Machine.execPxor h pd pa pb s
  | .pnot h pd pa => Sys2Proof.Machine.execPnot h pd pa s
  | .saddi h sd sa imm => Sys2Proof.Machine.execSaddi h sd sa imm s
  | .sandi h sd sa imm => Sys2Proof.Machine.execSandi h sd sa imm s
  | .sori h sd sa imm => Sys2Proof.Machine.execSori h sd sa imm s
  | .sxori h sd sa imm => Sys2Proof.Machine.execSxori h sd sa imm s
  | .sshli h sd sa imm => Sys2Proof.Machine.execSshli h sd sa imm s
  | .sshri h sd sa imm => Sys2Proof.Machine.execSshri h sd sa imm s
  | .ssrai h sd sa imm => Sys2Proof.Machine.execSsrai h sd sa imm s
  | .scmpiLt h pd sa imm => Sys2Proof.Machine.execScmpiLt h pd sa imm s
  | .li h sd imm => Sys2Proof.Machine.execLi h sd imm s
  | .lih h sd imm => Sys2Proof.Machine.execLih h sd imm s
  | .sget h sd item => Sys2Proof.Machine.execSget h sd item s
  | .sld h stable sd sa imm => Sys2Proof.Machine.execSld h stable sd sa imm s
  | .sst h stable sd sa imm => Sys2Proof.Machine.execSst h stable sd sa imm s
  | .add h fmt vd va vb => Sys2Proof.Machine.execAdd h fmt vd va vb s
  | .sub h fmt vd va vb => Sys2Proof.Machine.execSub h fmt vd va vb s
  | .mul h fmt vd va vb => Sys2Proof.Machine.execMul h fmt vd va vb s
  | .fma h fmt vd va vb vc => Sys2Proof.Machine.execFma h fmt vd va vb vc s
  | .min h fmt vd va vb => Sys2Proof.Machine.execMin h fmt vd va vb s
  | .max h fmt vd va vb => Sys2Proof.Machine.execMax h fmt vd va vb s
  | .abs h fmt vd va => Sys2Proof.Machine.execAbs h fmt vd va s
  | .neg h fmt vd va => Sys2Proof.Machine.execNeg h fmt vd va s
  | .div h fmt vd va vb => Sys2Proof.Machine.execDiv h fmt vd va vb s
  | .sqrt h fmt vd va => Sys2Proof.Machine.execSqrt h fmt vd va s
  | .cmpEq h fmt pd va vb => Sys2Proof.Machine.execCmpEq h fmt pd va vb s
  | .cmpNe h fmt pd va vb => Sys2Proof.Machine.execCmpNe h fmt pd va vb s
  | .cmpLt h fmt pd va vb => Sys2Proof.Machine.execCmpLt h fmt pd va vb s
  | .cmpLe h fmt pd va vb => Sys2Proof.Machine.execCmpLe h fmt pd va vb s
  | .sel h fmt vd va vb pc => Sys2Proof.Machine.execSel h fmt vd va vb pc s
  | .and h fmt vd va vb => Sys2Proof.Machine.execAnd h fmt vd va vb s
  | .or h fmt vd va vb => Sys2Proof.Machine.execOr h fmt vd va vb s
  | .xor h fmt vd va vb => Sys2Proof.Machine.execXor h fmt vd va vb s
  | .shl h fmt vd va vb => Sys2Proof.Machine.execShl h fmt vd va vb s
  | .shr h fmt vd va vb => Sys2Proof.Machine.execShr h fmt vd va vb s
  | .sra h fmt vd va vb => Sys2Proof.Machine.execSra h fmt vd va vb s
  | .sum h fmt vd va => Sys2Proof.Machine.execSum h fmt vd va s
  | .maxr h fmt vd va => Sys2Proof.Machine.execMaxr h fmt vd va s
  | .bcast h fmt vd sa => Sys2Proof.Machine.execBcast h fmt vd sa s
  | .iota h fmt vd => Sys2Proof.Machine.execIota h fmt vd s
  | .cvt h vd va ss tfmt sfmt part mode kind => Sys2Proof.Machine.execCvt h vd va ss tfmt sfmt part mode kind s
  | .vld h stable vd sa imm => Sys2Proof.Machine.execVld h stable vd sa imm s
  | .vst h stable vd sa imm => Sys2Proof.Machine.execVst h stable vd sa imm s
  | .mma h acc ta tb fmt z tra trb m1 n1 k1 => Sys2Proof.Machine.execMma h acc ta tb fmt z tra trb m1 n1 k1 s
  | .mmaTka h acc ta tb fmt z tra trb m1 n1 k1 => Sys2Proof.Machine.execMmaTka h acc ta tb fmt z tra trb m1 n1 k1 s
  | .mmr h acc td fmt mode kind clr ss m1 n1 => Sys2Proof.Machine.execMmr h acc td fmt mode kind clr ss m1 n1 s
  | .mmxSt h acc td => Sys2Proof.Machine.execMmxSt h acc td s
  | .mmxLd h acc td => Sys2Proof.Machine.execMmxLd h acc td s
  | .upd h sa sb tg gfmt => Sys2Proof.Machine.execUpd h sa sb tg gfmt s
  | .updf h sa => Sys2Proof.Machine.execUpdf h sa s
  | .dmCopy h dsp ssp sd ss sn => Sys2Proof.Machine.execDmCopy h dsp ssp sd ss sn s
  | .dmLd2 h ssp td ss sn => Sys2Proof.Machine.execDmLd2 h ssp td ss sn s
  | .dmSt2 h dsp sd ts sn => Sys2Proof.Machine.execDmSt2 h dsp sd ts sn s
  | .dmTt h td ts sn => Sys2Proof.Machine.execDmTt h td ts sn s
  | .dmFill h dsp sd ss sn => Sys2Proof.Machine.execDmFill h dsp sd ss sn s
  | .slotBind h sa sb sc sd nctr nen => Sys2Proof.Machine.execSlotBind h sa sb sc sd nctr nen s
  | .slotFree h sa => Sys2Proof.Machine.execSlotFree h sa s
  | .slotSend h ssp sa sb sc sd se => Sys2Proof.Machine.execSlotSend h ssp sa sb sc sd se s
  | .slotStat h sd sa => Sys2Proof.Machine.execSlotStat h sd sa s
  | .twait h cn target => Sys2Proof.Machine.execTwait h cn target s
  | .twaits h cn sa => Sys2Proof.Machine.execTwaits h cn sa s
  | .tadd h cn v => Sys2Proof.Machine.execTadd h cn v s
  | .tset h cn v => Sys2Proof.Machine.execTset h cn v s
  | .fenceAcq h scope grp => Sys2Proof.Machine.execFenceAcq h scope grp s
  | .fenceRel h scope grp => Sys2Proof.Machine.execFenceRel h scope grp s
  | .fenceFull h scope grp => Sys2Proof.Machine.execFenceFull h scope grp s
  | .ewait h evt => Sys2Proof.Machine.execEwait h evt s
  | .collReduce h grp sa sb sc => Sys2Proof.Machine.execCollReduce h grp sa sb sc s
  | .collRscat h grp sa sb sc => Sys2Proof.Machine.execCollRscat h grp sa sb sc s
  | .collAgath h grp sa sb sc => Sys2Proof.Machine.execCollAgath h grp sa sb sc s
  | .collA2a h grp sa sb sc => Sys2Proof.Machine.execCollA2a h grp sa sb sc s
  | .collCirc h grp sa sb sc => Sys2Proof.Machine.execCollCirc h grp sa sb sc s
  | .collTree h grp sa sb sc => Sys2Proof.Machine.execCollTree h grp sa sb sc s
  | .collWgtile h grp sa sb sc td => Sys2Proof.Machine.execCollWgtile h grp sa sb sc td s
  | .tdl h td sa sb => Sys2Proof.Machine.execTdl h td sa sb s
  | .tds h sd td word => Sys2Proof.Machine.execTds h sd td word s
  | .tdadd h td sa => Sys2Proof.Machine.execTdadd h td sa s
  | .instructionRetire n u idx => Sys2Proof.Machine.execInstructionRetire n u idx s
  | .instructionFault n u idx => Sys2Proof.Machine.execInstructionFault n u idx s
  | .tallyWaitSatisfied n => Sys2Proof.Machine.execTallyWaitSatisfied n s
  | .fenceRetire n => Sys2Proof.Machine.execFenceRetire n s
  | .barrierGenerationComplete n => Sys2Proof.Machine.execBarrierGenerationComplete n s
  | .updSealWaitEnd n => Sys2Proof.Machine.execUpdSealWaitEnd n s
  | .updfTilesComplete n => Sys2Proof.Machine.execUpdfTilesComplete n s
  | .tileComplete n seq => Sys2Proof.Machine.execTileComplete n seq s
  | .nwSampleComplete t => Sys2Proof.Machine.execNwSampleComplete t s
  | .registerWrite target size v => Sys2Proof.Machine.execRegisterWrite target size v s
  | .bar2Access off write len data => Sys2Proof.Machine.execBar2Access off write len data s
  | .sqTailWrite q idx ok => Sys2Proof.Machine.execSqTailWrite q idx ok s
  | .sqEntryAccept q e ok => Sys2Proof.Machine.execSqEntryAccept q e ok s
  | .fetchErrClear q => Sys2Proof.Machine.execFetchErrClear q s
  | .cqHeadWrite q idx => Sys2Proof.Machine.execCqHeadWrite q idx s
  | .completionPost q ok => Sys2Proof.Machine.execCompletionPost q ok s
  | .irqDelayExpiry q => Sys2Proof.Machine.execIrqDelayExpiry q s
  | .qpEnable q v => Sys2Proof.Machine.execQpEnable q v s
  | .qpDisable q v => Sys2Proof.Machine.execQpDisable q v s
  | .stoppedClear q => Sys2Proof.Machine.execStoppedClear q s
  | .abort q idx => Sys2Proof.Machine.execAbort q idx s
  | .run q idx => Sys2Proof.Machine.execRun q idx s
  | .copyIn q idx data => Sys2Proof.Machine.execCopyIn q idx data s
  | .copyOut q idx => Sys2Proof.Machine.execCopyOut q idx s
  | .copyComplete q idx => Sys2Proof.Machine.execCopyComplete q idx s
  | .nopConsignment q idx => Sys2Proof.Machine.execNopConsignment q idx s
  | .consignmentComplete q idx => Sys2Proof.Machine.execConsignmentComplete q idx s
  | .create c tag => Sys2Proof.Machine.execCreate c tag s
  | .destroy c tag => Sys2Proof.Machine.execDestroy c tag s
  | .destroyComplete c => Sys2Proof.Machine.execDestroyComplete c s
  | .reset c tag => Sys2Proof.Machine.execReset c tag s
  | .contextResetComplete c => Sys2Proof.Machine.execContextResetComplete c s
  | .hangDetect c e stuck => Sys2Proof.Machine.execHangDetect c e stuck s
  | .quiesceWatchdogExpiry c e => Sys2Proof.Machine.execQuiesceWatchdogExpiry c e s
  | .engineResetWatchdogExpiry e yard => Sys2Proof.Machine.execEngineResetWatchdogExpiry e yard s
  | .stableResetWatchdogExpiry t => Sys2Proof.Machine.execStableResetWatchdogExpiry t s
  | .dieResetWatchdogExpiry => Sys2Proof.Machine.execDieResetWatchdogExpiry s
  | .powerCycleWatchdogExpiry => Sys2Proof.Machine.execPowerCycleWatchdogExpiry s
  | .clearOos => Sys2Proof.Machine.execClearOos s
  | .clearFences => Sys2Proof.Machine.execClearFences s
  | .clearHistory => Sys2Proof.Machine.execClearHistory s
  | .start c => Sys2Proof.Machine.execStart c s
  | .xlatInvalDone c => Sys2Proof.Machine.execXlatInvalDone c s
  | .perstAssert => Sys2Proof.Machine.execPerstAssert s
  | .revert c tr => Sys2Proof.Machine.execRevert c tr s
  | .remirror c => Sys2Proof.Machine.execRemirror c s
  | .sealLetterReceive lt => Sys2Proof.Machine.execSealLetterReceive lt s
  | .sealResendTimer c => Sys2Proof.Machine.execSealResendTimer c s
  | .mirrorComplete c => Sys2Proof.Machine.execMirrorComplete c s
  | .stepTimerExpiry c => Sys2Proof.Machine.execStepTimerExpiry c s
  | .signalDetect p => Sys2Proof.Machine.execSignalDetect p s
  | .trainingStepTimeout p bad => Sys2Proof.Machine.execTrainingStepTimeout p bad s
  | .portUp p peer peerHalf plain m => Sys2Proof.Machine.execPortUp p peer peerHalf plain m s
  | .trainingRetry p => Sys2Proof.Machine.execTrainingRetry p s
  | .laneFrameReceive p l fseq frame => Sys2Proof.Machine.execLaneFrameReceive p l fseq frame s
  | .resyncLimit p => Sys2Proof.Machine.execResyncLimit p s
  | .laneErrorWindow p => Sys2Proof.Machine.execLaneErrorWindow p s
  | .drop p strands fseq => Sys2Proof.Machine.execDrop p strands fseq s
  | .dropAck p strands fseq => Sys2Proof.Machine.execDropAck p strands fseq s
  | .dropAckTimeout p => Sys2Proof.Machine.execDropAckTimeout p s
  | .strandDropAtFseq p => Sys2Proof.Machine.execStrandDropAtFseq p s
  | .restore p m => Sys2Proof.Machine.execRestore p m s
  | .restoreLinkCommand p m fseq => Sys2Proof.Machine.execRestoreLinkCommand p m fseq s
  | .restoreAck p m fseq => Sys2Proof.Machine.execRestoreAck p m fseq s
  | .restoreTimeout p => Sys2Proof.Machine.execRestoreTimeout p s
  | .down p => Sys2Proof.Machine.execDown p s
  | .disable p on => Sys2Proof.Machine.execDisable p on s
  | .retrain p => Sys2Proof.Machine.execRetrain p s
  | .lightLoss p => Sys2Proof.Machine.execLightLoss p s
  | .lightSteady p => Sys2Proof.Machine.execLightSteady p s
  | .absentTimeout p => Sys2Proof.Machine.execAbsentTimeout p s
  | .letterHeadReceive p => Sys2Proof.Machine.execLetterHeadReceive p s
  | .letterStart p bad => Sys2Proof.Machine.execLetterStart p bad s
  | .identitySend p => Sys2Proof.Machine.execIdentitySend p s
  | .identityReceive p lt => Sys2Proof.Machine.execIdentityReceive p lt s
  | .discoverySilent p => Sys2Proof.Machine.execDiscoverySilent p s
  | .discoveryMissing p => Sys2Proof.Machine.execDiscoveryMissing p s
  | .planPeerWrite p v => Sys2Proof.Machine.execPlanPeerWrite p v s
  | .planChipWrite v => Sys2Proof.Machine.execPlanChipWrite v s
  | .grant a => Sys2Proof.Machine.execGrant a s
  | .handoverLoopTrained a plus minus => Sys2Proof.Machine.execHandoverLoopTrained a plus minus s
  | .porterHoldPoll => Sys2Proof.Machine.execPorterHoldPoll s
  | .handoverTimeout a => Sys2Proof.Machine.execHandoverTimeout a s
  | .force a on => Sys2Proof.Machine.execForce a on s
  | .bypassPositionCheck a ok => Sys2Proof.Machine.execBypassPositionCheck a ok s
  | .advance => Sys2Proof.Machine.execAdvance s
  | .harness => Sys2Proof.Machine.execHarness s
  | .quarantine => Sys2Proof.Machine.execQuarantine s
  | .mainOn => Sys2Proof.Machine.execMainOn s
  | .mainOff => Sys2Proof.Machine.execMainOff s
  | .auxPowerGood => Sys2Proof.Machine.execAuxPowerGood s
  | .firmwareVerified => Sys2Proof.Machine.execFirmwareVerified s
  | .firmwareBundleUpload slot bundle => Sys2Proof.Machine.execFirmwareBundleUpload slot bundle s
  | .spdmRequest => Sys2Proof.Machine.execSpdmRequest s
  | .mainPowerGood => Sys2Proof.Machine.execMainPowerGood s
  | .powerGoodTimeout => Sys2Proof.Machine.execPowerGoodTimeout s
  | .dieLeavesReset => Sys2Proof.Machine.execDieLeavesReset s
  | .memTestDone hbmFail loftFail stableOff ues => Sys2Proof.Machine.execMemTestDone hbmFail loftFail stableOff ues s
  | .auxLoss => Sys2Proof.Machine.execAuxLoss s
  | .protectionTrip cause => Sys2Proof.Machine.execProtectionTrip cause s
  | .extraction missed => Sys2Proof.Machine.execExtraction missed s
  | .regRead lt => Sys2Proof.Machine.execRegRead lt s
  | .regWrite lt => Sys2Proof.Machine.execRegWrite lt s
  | .regReply lt => Sys2Proof.Machine.execRegReply lt s
  | .regRequestRetry dest pm => Sys2Proof.Machine.execRegRequestRetry dest pm s
  | .srcEpochWrite v => Sys2Proof.Machine.execSrcEpochWrite v s
  | .rtAxisWrite ver a v => Sys2Proof.Machine.execRtAxisWrite ver a v s
  | .circularReceive lt => Sys2Proof.Machine.execCircularReceive lt s
  | .circularReceiptSend id => Sys2Proof.Machine.execCircularReceiptSend id s
  | .registeredLetterReceive lt => Sys2Proof.Machine.execRegisteredLetterReceive lt s
  | .duplicateReceipt lt => Sys2Proof.Machine.execDuplicateReceipt lt s
  | .requestReceive lt => Sys2Proof.Machine.execRequestReceive lt s
  | .responseReceive lt => Sys2Proof.Machine.execResponseReceive lt s
  | .receiptReceive lt => Sys2Proof.Machine.execReceiptReceive lt s
  | .deliveryTimerExpiry k pm => Sys2Proof.Machine.execDeliveryTimerExpiry k pm s
  | .clearanceSend k => Sys2Proof.Machine.execClearanceSend k s
  | .clearanceReceive lt => Sys2Proof.Machine.execClearanceReceive lt s
  | .collLetterReceive lt => Sys2Proof.Machine.execCollLetterReceive lt s
  | .collWatchdogExpiry op waitOn => Sys2Proof.Machine.execCollWatchdogExpiry op waitOn s
  | .groupValidSet c g v => Sys2Proof.Machine.execGroupValidSet c g v s
  | .groupValidClear c g v => Sys2Proof.Machine.execGroupValidClear c g v s
  | .axisPlanWrite c v => Sys2Proof.Machine.execAxisPlanWrite c v s
  | .frankingExchangeStart p ago => Sys2Proof.Machine.execFrankingExchangeStart p ago s
  | .frSync p lt ago sent => Sys2Proof.Machine.execFrSync p lt ago sent s
  | .frReply p lt ago => Sys2Proof.Machine.execFrReply p lt ago s
  | .exchangeTimeout p => Sys2Proof.Machine.execExchangeTimeout p s
  | .steeringInterval => Sys2Proof.Machine.execSteeringInterval s
  | .clkFrNowRead => Sys2Proof.Machine.execClkFrNowRead s
  | .frankingStateCopy => Sys2Proof.Machine.execFrankingStateCopy s
  | .yardNeighbourCheck mv tc => Sys2Proof.Machine.execYardNeighbourCheck mv tc s
  | .frequencyStep y => Sys2Proof.Machine.execFrequencyStep y s
  | .droopStretch y pct => Sys2Proof.Machine.execDroopStretch y pct s
  | .idleGateStop y => Sys2Proof.Machine.execIdleGateStop y s
  | .idleGateResume y => Sys2Proof.Machine.execIdleGateResume y s
  | .haltWrite y on => Sys2Proof.Machine.execHaltWrite y on s
  | .powerControlEval m => Sys2Proof.Machine.execPowerControlEval m s
  | .yardThermalCheck tc => Sys2Proof.Machine.execYardThermalCheck tc s
  | .refreshTempSample k t cyc => Sys2Proof.Machine.execRefreshTempSample k t cyc s
  | .scrubPassStart m => Sys2Proof.Machine.execScrubPassStart m s
  | .passNow m => Sys2Proof.Machine.execPassNow m s
  | .scrubPassEnd m => Sys2Proof.Machine.execScrubPassEnd m s
  | .aonCollection => Sys2Proof.Machine.execAonCollection s
  | .clear => Sys2Proof.Machine.execClear s
  | .retiredDataWrite v => Sys2Proof.Machine.execRetiredDataWrite v s
  | .retiredIdxWrite v => Sys2Proof.Machine.execRetiredIdxWrite v s
  | .retiredCommitDone => Sys2Proof.Machine.execRetiredCommitDone s
  | .enable => Sys2Proof.Machine.execEnable s
  | .arm => Sys2Proof.Machine.execArm s
  | .trigNow => Sys2Proof.Machine.execTrigNow s
  | .traceMark x => Sys2Proof.Machine.execTraceMark x s
  | .traceFreeze => Sys2Proof.Machine.execTraceFreeze s
  | .remoteTrigger p lt => Sys2Proof.Machine.execRemoteTrigger p lt s
  | .hostLinkTraining link => Sys2Proof.Machine.execHostLinkTraining link s
  | .pcieHotReset => Sys2Proof.Machine.execPcieHotReset s
  | .operatorDieReset => Sys2Proof.Machine.execOperatorDieReset s
  | .powerCycleReapply => Sys2Proof.Machine.execPowerCycleReapply s
  | .stableResetEnd t => Sys2Proof.Machine.execStableResetEnd t s
  | .bypassElementSettles a => Sys2Proof.Machine.execBypassElementSettles a s
  | .loftThermalThrottle k t => Sys2Proof.Machine.execLoftThermalThrottle k t s
  | .droopRecovery y => Sys2Proof.Machine.execDroopRecovery y s

end Sys2Proof.Machine
end

