-- ==== Sys2Proof/Machine/Idle.lean ====
section
/-!
DEFINITION. What time does when nothing is commanded: one franking cycle of 1 ns (R208, R352, R357, R408).
-/
namespace Sys2Proof.Machine

/-- The trace network serves every source that has records, while the trace is enabled (R415, R423). -/
def State.traceTick (s : State) : State :=
  if !s.flag .dbgTraceCtrl F.dbgTraceCtrl_ENABLE then s
  else
    let us := ((s.trace.queues.filter fun e => !e.2.isEmpty).map (·.1) ++ s.trace.lost.map (·.1)).eraseDups
    us.foldl (fun s u => s.traceServe u) s

/-- A sender that waits under R319 counts mail cycles, of which 2 pass in 1 ns (R324, R351). -/
def State.postTick (s : State) : State := if s.postQ.any fun o => !s.postRoom o then s.bump .soPostWaitcyc 2 else s

/-- One franking cycle: the franking counter, the yards' cycles, the ports' frames and the senders' waits advance. It passes only while the die is
out of reset. DESIGN CHOICE (log entry 3): it is what a step with no command waiting does. -/
def State.tick (s : State) : State :=
  if !s.dieUp then s
  else
    let s := s.frankTick
    let s := (List.finRange 4).foldl (fun s y => s.yardTick y) s
    let s := (List.finRange 8).foldl (fun s p => s.portTick p) s
    s.postTick.traceTick

end Sys2Proof.Machine
end

