-- ==== Sys2Proof/WellFormed.lean ====
section
/-!
DEFINITION. Well-formed commands: the field values that the loader of stall instructions takes (R67, R130, R135, R138), and the
bounds that the spec sets on what reaches the module from outside.
-/
namespace Sys2Proof

open Machine

/-- A letter as R234 and R235 lay it out: a payload of LENGTH bytes, at most 4,096, and none in a REQUEST. -/
def letterOk (lt : Letter) : Bool :=
  decide (lt.length ≤ 4096) && lt.body.length = (if lt.cls == .request then 0 else lt.length)

/-- The fields that the loader takes, and the bounds of an event's operands. -/
def wellFormed : Instr → Bool
  | .add _ f _ _ _ | .sub _ f _ _ _ | .mul _ f _ _ _ | .min _ f _ _ _ | .max _ f _ _ _ => isPlain f
  | .cmpEq _ f _ _ _ | .cmpNe _ f _ _ _ | .cmpLt _ f _ _ _ | .cmpLe _ f _ _ _ => isPlain f
  | .sel _ f _ _ _ _ => isPlain f
  | .maxr _ f _ _ | .bcast _ f _ _ => isPlain f
  | .fma _ f _ _ _ _ => isPlainFloat f
  | .div _ f _ _ _ => isPlainFloat f
  | .sqrt _ f _ _ => isPlainFloat f
  | .abs _ f _ _ | .neg _ f _ _ => isPlainFloat f || isSignedInt f
  | .and _ f _ _ _ | .or _ f _ _ _ | .xor _ f _ _ _ | .shl _ f _ _ _ | .shr _ f _ _ _ => isInt f
  | .sra _ f _ _ _ => isSignedInt f
  | .sum _ f _ _ => isPlainFloat f || f == .i32
  | .iota _ f _ => f == .i32 || f == .u16
  | .cvt _ _ _ _ t f part _ kind => cvtPair t f && cvtPartOk t f part.val kind
  | .mma _ _ _ _ f _ _ _ _ _ k1 => mmaOk f k1
  | .mmaTka _ _ _ _ f _ _ _ _ _ _ => tkaOk f
  | .mmr _ _ _ f _ kind _ _ _ n1 => mmrOk f kind n1
  | .upd _ _ _ _ f => updOk f
  | .sget _ _ item => decide (item.toNat ≤ 4)
  | .bar2Access _ w len data => !w || data.length = len
  | .laneFrameReceive _ _ _ f => frameOk f
  | .hostLinkTraining l => linkOk l
  | .protectionTrip c => c ≠ 0
  | .sealLetterReceive lt | .circularReceive lt | .registeredLetterReceive lt | .duplicateReceipt lt => letterOk lt
  | .requestReceive lt | .responseReceive lt | .receiptReceive lt | .clearanceReceive lt => letterOk lt
  | .collLetterReceive lt | .regRead lt | .regWrite lt | .regReply lt => letterOk lt
  | .identityReceive _ lt | .remoteTrigger _ lt => letterOk lt
  | .frSync _ lt ago sent => letterOk lt && decide (sent ≤ ago)
  | .frReply _ lt _ => letterOk lt
  | _ => true

end Sys2Proof
end

