-- ==== Sys2Proof/Safety.lean ====
section
/-!
DEFINITION. What statements mean by a sound state and by a safe run, and the frames they use: what the trace unit may change, and
what the retirement or the issue of an instruction leaves as it was.
-/
namespace Sys2Proof

open Machine

/-- A sound state: the memory is in its canonical form, so that equal memories are equal data. -/
def Sound (s : State) : Prop := Memory.wf s.mem = true

/-- A command completes in a state: it answers a next state. -/
def Completes (c : Instr) (s : State) : Prop := ∃ t, exec c s = .next t

/-- A queue of well-formed commands. -/
def QueueOk (s : State) : Prop := ∀ c ∈ s.pending, wellFormed c = true

/-- Power (R427 to R430): the die is out of reset only with main power good; the rails that are on are the first ones of the order in
which the porter starts them, all of them while power is good, none while it is off; and while a power cycle has removed power, the die
is not up. -/
structure PowerSound (s : State) : Prop where
  die : s.dieUp = true → s.power = .good
  good : s.power = .good → s.rails.map (·.1) = railOrder
  off : s.power = .off → s.rails = []
  order : s.rails.map (·.1) <+: railOrder
  falling : s.power = .falling → s.rails ≠ []
  cycle : s.cycle = .removed → s.dieUp = false

/-- Lanes (R215 to R221): a port with a link runs on at least one strand; one without has no strand failing, and no drop and no adding
of strands asked for or agreed. -/
structure LaneSound (s : State) : Prop where
  up : ∀ p, s.linkUp p = true → s.strands p ≠ 0
  down : ∀ p, s.linkUp p = false → (s.port p).failing = 0 ∧ (s.port p).drop = [] ∧ (s.port p).dropAt = [] ∧ (s.port p).addAt = [] ∧
    (s.port p).turns = []

/-- Tables: a slot that is not bound is not full, and no byte has arrived in it (R144); no stable is reserved for two contexts (R152). -/
structure TableSound (s : State) : Prop where
  slots : ∀ j, s.slotBound j = false → s.fld (.soSlot j 0) SlotF.full = 0 ∧ s.fld (.soSlot j 2) SlotF.arrived = 0
  stables : ∀ x ∈ s.ctxStables, ∀ y ∈ s.ctxStables, x.1 ≠ y.1 → ∀ t ∈ x.2, t ∉ y.2

/-- A safe run of `k` steps: no fault and no refusal. -/
def SafeRun (k : Nat) (s : State) : Prop := ∃ t, Host.Core.run core k s = .next t

/-! ### The trace unit -/

/-- The registers that a trace record, a trigger's logbook record, or a trigger's letter for a port that does not carry it writes (R249,
R412, R416, R418, R420). -/
def traceReg : Reg → Bool
  | .dbgTraceStatus | .dbgTraceBuf _ _ | .dbgLog _ _ _ | .dbgLogNext _ | .soPortDowndrop _ => true
  | _ => false

/-- Where the ring of the trace ends, in bytes from its base, wherever the write index stands (R418). -/
def ringTop (s : State) : Nat := 32 * max s.traceCap (s.fld .dbgTraceStatus F.dbgTraceStatus_WRITE_IDX + 1)

/-- The bytes of memory that hold the trace while it spills to HBM (R418). -/
def inRing (s : State) (a : Nat) : Prop :=
  s.flag .dbgTraceCtrl F.dbgTraceCtrl_SPILL = true ∧ s.fld .dbgTraceSpill F.dbgTraceSpill_BASE * 2 ^ 30 ≤ a ∧
    a < s.fld .dbgTraceSpill F.dbgTraceSpill_BASE * 2 ^ 30 + ringTop s

/-- The always-on counters of memory units read and written, logbook records, trace records and triggers, and of a trigger's letters that
no port carries (R408). -/
def sideAon (i : Nat) : Bool :=
  i ∈ [89, 90, 91, 92, 416, 417, 418, 419, 422, 197, 213, 229, 245, 261, 277, 293, 309]

/-- `t` has the letters of `s` that wait for a port, and perhaps DIAG letters of a trigger behind them (R421). -/
def DiagOnly (s t : State) : Prop := ∃ xs, t.outQ = s.outQ ++ xs ∧ ∀ x ∈ xs, x.lt.cls = .diag

/-- From `s` to `t` nothing has changed but what trace records and triggers change, and the counts of memory requests that the
trace samples by (R415 to R421). -/
structure Traced (s t : State) : Prop where
  rest : t =
    { s with regs := t.regs, mem := t.mem, aonDie := t.aonDie, outQ := t.outQ, trace := t.trace, memReqs := t.memReqs }
  regs : ∀ r, traceReg r = false → t.rd r = s.rd r
  aon : ∀ i, sideAon i = false → AMap.get 0 i t.aonDie = AMap.get 0 i s.aonDie
  out : DiagOnly s t
  mem : ∀ a, ¬ inRing s a → Memory.read t.mem a = Memory.read s.mem a
  top : ringTop t ≤ ringTop s

/-- From `s` to `t` nothing has changed but stall `n`, what the trace unit changes, the registers that `R` names and the always-on
counters that mirror them, and the bytes of memory that `W` names; only on the units of those bytes are accesses newly under way. -/
structure OnlyStall (n : Fin 128) (R : Reg → Prop) (W : Nat → Prop) (s t : State) : Prop where
  rest : t =
    { s with stalls := t.stalls, regs := t.regs, mem := t.mem, aonDie := t.aonDie, outQ := t.outQ, trace := t.trace,
             memReqs := t.memReqs, racing := t.racing, underway := t.underway, raceNo := t.raceNo, sourceWords := t.sourceWords }
  stalls : ∀ m, m ≠ n → t.stall m = s.stall m
  regs : ∀ r, traceReg r = false → ¬ R r → t.rd r = s.rd r
  aon : ∀ i, sideAon i = false → (∀ r, R r → r.aon ≠ some i) → AMap.get 0 i t.aonDie = AMap.get 0 i s.aonDie
  out : DiagOnly s t
  mem : ∀ a, ¬ inRing s a → ¬ W a → Memory.read t.mem a = Memory.read s.mem a
  races : ∀ c ∈ t.racing, (∃ d ∈ s.racing, unitOf d.word = unitOf c.word) ∨ ∃ a, unitOf a = unitOf c.word ∧ W a
  top : ringTop t ≤ ringTop s

/-! ### Instructions of the sequencer and of the units -/

/-- The stall of a header. -/
def stallOf (s : State) (h : Hdr) : Stall := s.stall h.stall

/-- The stall after the program counter has passed the instruction (R124). -/
def Passed (t : Stall) : Stall := { t with pc := t.pc + 1 }

/-- A sequencer instruction has retired and left its stall as `st` says: `st` is the stall with its effect, before its tally
advanced; registers of `R` and bytes of `W` are its other effects (R127, R128). -/
structure Retired (s t : State) (h : Hdr) (st : Stall) (R : Reg → Prop) (W : Nat → Prop) : Prop where
  stall : t.stall h.stall = { st.tally h.ten h.tc with lastRetire := s.frankNs }
  count : t.fld (.stlSeqRetired h.stall) F.COUNT = min (2 ^ 48 - 1) (s.fld (.stlSeqRetired h.stall) F.COUNT + 1)
  frame : OnlyStall h.stall (fun r => r = .stlSeqRetired h.stall ∨ R r) W s t

/-- An instruction has been issued to a unit: its stall is `st`, with the instruction's record `r` behind the others in
flight; registers of `R` and bytes of `W` are its other effects (R124, R128). -/
structure Issued (s t : State) (h : Hdr) (st : Stall) (r : Flight) (R : Reg → Prop) (W : Nat → Prop) : Prop where
  stall : t.stall h.stall = { st with flights := st.flights ++ [r], nextSeq := st.nextSeq + 1 }
  frame : OnlyStall h.stall R W s t

/-- No register, and no byte. -/
def noReg (_ : Reg) : Prop := False
def noByte (_ : Nat) : Prop := False

/-- The command answers a next state, of which `P` holds. -/
def Leaves (o : Out) (P : State → Prop) : Prop := ∃ t, o = .next t ∧ P t

/-- The sequencer may issue an instruction of this kind now (R129, R163, R167). -/
def Ready (s : State) (h : Hdr) (u : Uses) : Prop := s.canIssue h.stall u = true

/-- The instruction's guard is true (R125). -/
def GuardOn (s : State) (h : Hdr) : Prop := (stallOf s h).guard h = true

/-- A unit takes an instruction now, of the UPD class where `upd` says so: it may issue, and nothing that must end or start before it
holds the unit (R104, R156, R269). -/
def UnitReady (s : State) (h : Hdr) (unit : StallUnit) (u : Uses) (upd : Bool := false) : Prop :=
  Ready s h u ∧ s.unitFree h.stall unit upd = true

/-- The sequencer instruction retires, has left its stall as `st` says, and has no other effect. -/
def SeqDoes (s : State) (h : Hdr) (o : Out) (st : Stall) : Prop := Leaves o fun t => Retired s t h st noReg noByte

/-- The same with one scalar register written. -/
def SetsS (s : State) (h : Hdr) (o : Out) (sd : SReg) (x : BitVec 64) : Prop :=
  SeqDoes s h o { Passed (stallOf s h) with s := (stallOf s h).s.set sd x }

/-- The same with one predicate written; writes to p0 are ignored (R121). -/
def SetsP (s : State) (h : Hdr) (o : Out) (pd : PReg) (x : BitVec 256) : Prop :=
  SeqDoes s h o (if pd = 0 then Passed (stallOf s h)
    else { Passed (stallOf s h) with p := (stallOf s h).p.set pd x, vp := (stallOf s h).vp.set pd x })

/-- The same with one descriptor written. -/
def SetsT (s : State) (h : Hdr) (o : Out) (td : TReg) (x : BitVec 128) : Prop :=
  SeqDoes s h o { Passed (stallOf s h) with t := (stallOf s h).t.set td x }

/-- Every bit of a predicate, from a comparison's result (R126). -/
def allBits (b : Bool) : BitVec 256 := if b then BitVec.allOnes 256 else 0

/-- A predicate as an instruction reads it: p0 reads as all ones (R121). -/
def predOf (t : Stall) (p : PReg) : BitVec 256 := if p = 0 then BitVec.allOnes 256 else t.p[p]

/-- The record that an instruction leaves in flight: its unit, its place in the stall's issue order, its code index, the franking
stamp of its issue, its class and operation, and its tally (R124, R128, R375). -/
def recordOf (s : State) (h : Hdr) (unit : StallUnit) (cls op : Nat) : Flight :=
  { unit := unit, seq := (stallOf s h).nextSeq, pc := (stallOf s h).pc, issuedAt := s.stampNow, cls := cls, op := op, ten := h.ten,
    tc := h.tc }

/-- The unit takes the instruction, whose guard is false: it passes the program counter and will retire in its turn, and nothing else
changes (R125). -/
def PassedBy (s : State) (h : Hdr) (unit : StallUnit) (u : Uses) (cls op : Nat) (c : Instr) : Prop :=
  UnitReady s h unit u (cls = 9) → Leaves (exec c s) fun t =>
    Issued s t h (Passed (stallOf s h)) { recordOf s h unit cls op with guardOff := true } noReg noByte

/-- A VALU instruction: its vector register takes `v`, and nothing else changes. -/
def SetsV (s : State) (h : Hdr) (o : Out) (op : Nat) (vd : VReg) (v : BitVec 2048) : Prop :=
  Leaves o fun t => Issued s t h { Passed (stallOf s h) with v := (stallOf s h).v.set vd v }
    { recordOf s h .vector 4 op with lands := some (.vreg vd) } noReg noByte

/-- A VALU instruction element by element: under its guard, element `e` takes `el e`; the others keep their value (R126). -/
def SetsElems (s : State) (h : Hdr) (o : Out) (op : Nat) (f : Fmt) (vd : VReg) (el : Nat → Nat) : Prop :=
  SetsV s h o op vd (vWrite f ((stallOf s h).vpred h.pred) h.pneg (stallOf s h).v[vd] el)

/-- How many events of a kind an instruction counts as it ends. -/
def eventsOf (f : Flight) (e : StallEvent) : Nat := ((f.counts.filter fun c => c.1 = e).map (·.2)).sum

/-- The results of an instruction in flight are undefined in value, since a write that is not ordered behind it has overlapped what it, or
an instruction that it works on, reads (R16). -/
def Undefined (s : State) (n : Fin 128) (f : Flight) : Prop := f.actor n ∈ s.underway.undef

/-- The exact value of an element of a vector register. -/
def valOf (s : State) (h : Hdr) (f : Fmt) (v : VReg) (e : Nat) : FVal := decodeElem f (vElem f (stallOf s h).v[v] e)

/-- A floating result, rounded once (R36, R136). -/
def rounded (f : Fmt) (v : FVal) : Nat := (encodeElem f .ieee v).bits

/-- An element as a result of the vector engine: no payload of a NaN is propagated (R31). -/
def canonical (f : Fmt) (x : Nat) : Nat := if (decodeElem f x).isNan then canonNan f else x

/-- The record `r` is that of the instruction just issued: its unit, its place, its class, its operation and its tally. -/
def Heads (s : State) (h : Hdr) (unit : StallUnit) (cls op : Nat) (r : Flight) : Prop :=
  r.unit = unit ∧ r.seq = (stallOf s h).nextSeq ∧ r.pc = (stallOf s h).pc ∧ r.cls = cls ∧ r.op = op ∧ r.ten = h.ten ∧ r.tc = h.tc

/-- The instruction has been issued, and of the stalls only its own has changed, by the program counter and by its record, of
which `P` holds with the state after it. -/
def IssuesWith (s : State) (h : Hdr) (unit : StallUnit) (cls op : Nat) (o : Out) (P : State → Flight → Prop) : Prop :=
  Leaves o fun t => ∃ r, Heads s h unit cls op r ∧ P t r ∧
    t.stall h.stall = { Passed (stallOf s h) with flights := (stallOf s h).flights ++ [r], nextSeq := r.seq + 1 } ∧
    ∀ m, m ≠ h.stall → t.stall m = s.stall m

/-- The floor of a finite value in units of 2^`L`; 0 of another (R75). -/
def floorAt (L : Int) : FVal → Int
  | .fin n m x =>
    let v : Int := if n then -(m : Int) else m
    if L ≤ x then v * (2 ^ (x - L).toNat : Nat) else v / (2 ^ (L - x).toNat : Nat)
  | _ => 0

/-- How far two finite values lie apart, in units of 2^`q`, where `q` is at most their exponents. -/
def apart (q : Int) (a b : FVal) : Nat :=
  match a, b with
  | .fin n1 m1 e1, .fin n2 m2 e2 => (alignTo n1 m1 e1 q - alignTo n2 m2 e2 q).natAbs
  | _, _ => 0

/-- The exponent of a finite value. -/
def expOf : FVal → Int
  | .fin _ _ e => e
  | _ => 0

/-- What lists of a context's bytes store, one list after another: the physical address of each byte that the context grants, and the
byte (R181 to R183). -/
def storedBy (c : Fin 64) (source : Nat) : State → List (List (Nat × MByte)) → List (Nat × Byte)
  | _, [] => []
  | s, ws :: rest =>
    (((s.xlatAll c (ws.map (·.1)) true false source).2.zip ws).filterMap fun e => e.1.map fun a => (a, e.2.2.1)) ++
      storedBy c source (s.writeCtx c ws source) rest

/-- No trace record spills to memory. -/
def NoRing (s : State) : Prop := ∀ a, ¬ inRing s a

/-- A counter register has counted `k` more events, saturating (R43, R44). -/
def Counted (s t : State) (r : Reg) (k : Nat) : Prop := t.fld r F.COUNT = min (2 ^ 48 - 1) (s.fld r F.COUNT + k)

/-- No write is under way that an access could find in part, or that a collective engine could miss (R16, R286). -/
def Still (s : State) : Prop := s.racing = [] ∧ s.sourceWords = []

/-- No unit holds an error that has not been found yet, none is poisoned, and no write is under way. -/
def Clean (s : State) : Prop := s.latentUe = [] ∧ s.latentCe = [] ∧ s.poison = [] ∧ Still s

/-- The bytes of `xs` have been stored, and no other byte has changed: the values are stated where no trace spills to memory, no write is
under way, and no two of them go to one address. -/
def Stored (s t : State) (xs : List (Nat × Byte)) : Prop :=
  (∀ a, ¬ inRing s a → (∀ x ∈ xs, x.1 ≠ a) → Memory.read t.mem a = Memory.read s.mem a) ∧
    (NoRing s → Sound s → Still s → (xs.map (·.1)).Nodup → ∀ x ∈ xs, backed x.1 = true → Memory.read t.mem x.1 = x.2)

/-- A registered letter has been handed to the post: it waits there, or has started, and is as `P` says. -/
def Posted (t : State) (w : Owner) (k : StreamKey) (P : Letter → Prop) : Prop :=
  ∃ x, (x ∈ t.postQ ∨ x ∈ t.outstanding) ∧ x.owner = w ∧ x.key = k ∧ P x.letter

/-- The state in which an instruction just issued to the data mover accesses memory. -/
def moverState (s : State) (h : Hdr) : State :=
  { s.issued h.stall 3 with actor := some (.unit h.stall (some .mover) (stallOf s h).nextSeq false), refusing := some [] }

/-- What an access reads at a translated address: zeros where the page was refused, in a reserved region, and where no memory is
(R183, R190). -/
def readAt (s : State) : Option Nat → Byte
  | some a => if (rsvdOwner a).isSome || !backed a then 0 else Memory.read s.mem a
  | none => 0

/-- The bytes of `pairs`, a source and a destination for each, have been moved, and no other byte has changed: stated where none is both
source and destination, no two have one destination, and no code and no reserved region lies at a destination. -/
def MovedBytes (s t : State) (pairs : List (Option Nat × Option Nat)) : Prop :=
  (∀ p ∈ pairs, ∀ q ∈ pairs, p.1 = none ∨ p.1 ≠ q.2) → (pairs.filterMap (·.2)).Nodup →
    (∀ p ∈ pairs, ∀ d, p.2 = some d → s.codeOwner d = none ∧ rsvdOwner d = none) →
    (∀ p ∈ pairs, ∀ d, p.2 = some d → backed d = true → Memory.read t.mem d = readAt s p.1) ∧
      ∀ a, (∀ p ∈ pairs, p.2 ≠ some a) → Memory.read t.mem a = Memory.read s.mem a

/-- The letters of a class that carry `len` bytes to a chip, in pieces of 4,096: `target` names the place of each, `byte` its bytes
(R140, R144). The bytes are stated where no result is undefined in value (R16). -/
def Letters (s t : State) (h : Hdr) (chip : BitVec 14) (cls : LClass) (len : Nat) (target : Nat → Nat) (byte : Nat → Byte) : Prop :=
  ∀ k, 4096 * k < len → Posted t (.flight h.stall (stallOf s h).nextSeq) ⟨chip, cls, s.jobTag (stallOf s h).context⟩ fun lt =>
    lt.dest = chip ∧ lt.src = s.chip ∧ lt.cls = cls ∧ lt.length = min 4096 (len - 4096 * k) ∧ lt.target.toNat = target (4096 * k) ∧
      (cls ≠ .request → s.underway.undef = [] → ∀ j, j < lt.length → lt.body.getD j 0 = byte (4096 * k + j))

/-! ### Commands of the units beside the stalls -/

/-- Of the registers, only those that `R` names, and those of the trace unit, have changed. -/
def OnlyRegs (R : Reg → Prop) (s t : State) : Prop := ∀ r, traceReg r = false → ¬ R r → t.rd r = s.rd r

/-- No stall, no register but those of `R`, and no byte of memory has changed, but for the trace unit's. -/
structure Quiet (R : Reg → Prop) (s t : State) : Prop where
  pending : t.pending = s.pending
  stalls : t.stalls = s.stalls
  regs : OnlyRegs R s t
  mem : ∀ a, ¬ inRing s a → Memory.read t.mem a = Memory.read s.mem a

/-- The command completes, and beside registers of `R`, logbooks, always-on counters, interrupts, which are pending where they are
masked, counts of the host link's bytes and events of the porter it changes nothing. -/
def Sets (s : State) (o : Out) (R : Reg → Prop) (P : State → Prop) : Prop :=
  Leaves o fun t =>
    t = { s with regs := t.regs, aonDie := t.aonDie, irqs := t.irqs, msixPend := t.msixPend, linkRx := t.linkRx, linkTx := t.linkTx,
                 redfish := t.redfish } ∧
      (∀ v, v ∈ t.msixPend → v ∈ s.msixPend ∨ (v ∈ t.irqs ∧ s.msixMasked v = true)) ∧ OnlyRegs R s t ∧ P t

/-- The same, of a command that also makes trace records, changes the fields that `P` tells of, and leaves the stalls and the
memory. -/
def Does (s : State) (o : Out) (R : Reg → Prop) (P : State → Prop) : Prop := Leaves o fun t => Quiet R s t ∧ P t

/-- What a field of a register holds after a write of `v` over `old`, by its access code (R8): RW and RWL take a valid value,
RW1C clears the bits written 1, and RO and WO keep what they hold. -/
def fieldAfter (f : Fld) (old v : BitVec 64) : Nat :=
  let ok := match f.valid with
    | some (lo, hi, step) => decide (lo ≤ f.get v) && decide (f.get v ≤ hi) && decide ((f.get v - lo) % step = 0)
    | none => true
  match f.acc with
  | .rw => if ok then f.get v else f.get old
  | .rwl => if ok then f.get v else f.get old
  | .rw1c => f.get old - (f.get old &&& f.get v)
  | .ro => f.get old
  | .wo => f.get old

/-- A field of a register has taken a value, and the register's other bits are as they were. -/
def Takes (s t : State) (r : Reg) (f : Fld) (x : Nat) : Prop := t.rd r = f.put (s.rd r) x

/-- The accepted consignment of a number. -/
def consignAt (s : State) (id : Nat) : Option Consign := (s.consigns.find? fun e => e.1 = id).map (·.2)

/-- A consignment has become final with a status and a DETAIL. -/
def Ended (t : State) (id : Nat) (st : Status) (detail : Nat) : Prop :=
  ∃ c, consignAt t id = some c ∧ c.phase = .final ∧ c.status = st ∧ c.detail = detail

/-- The counters of letters that routing discards (R249, R254). -/
def dropReg (r : Reg) : Prop :=
  r = .soEpochStale ∨ r = .soNoroute ∨ ∃ p, r = .soPortDowndrop p ∨ r = .soPortSkipped p

/-- The routing tables take a letter of this chip for `dest` to port `p`, which carries its class. -/
def RoutesTo (s : State) (dest : BitVec 14) (cls : LClass) (p : Fin 8) : Prop :=
  s.rtValid (epochVer s.srcEpoch) = true ∧ s.route (epochVer s.srcEpoch) dest = .port p ∧ s.carries p cls false = true ∧
    s.skips p dest = false

/-- The letters that wait for a port are those of `xs`, and perhaps DIAG letters of a trigger (R421). -/
def QueuesAfter (t : State) (xs : List OutLetter) : Prop := ∃ ys, t.outQ = xs ++ ys ∧ ∀ y ∈ ys, y.lt.cls = .diag

/-- A receipt of a letter has been queued, with a status and a TARGET, where the routing tables take it to a port (R317). -/
def Receipted (s t : State) (lt : Letter) (st : Status) (tg : BitVec 64) : Prop :=
  ∀ p, RoutesTo s lt.src .receipt p → ∃ o ∈ t.outQ, o.port = p ∧ o.lt.cls = .receipt ∧ o.lt.dest = lt.src ∧ o.lt.src = s.chip ∧
    o.lt.jobTag = lt.jobTag ∧ o.lt.refPostmark = lt.postmark ∧ o.lt.op = BitVec.ofNat 6 lt.cls.code ∧
    o.lt.status = BitVec.ofNat 8 st.code ∧ o.lt.target = tg

/-- A command that only counts a letter, in register `r`, and queues what `P` says. -/
def CountsLetter (s : State) (o : Out) (r : Reg) (P : State → Prop) : Prop :=
  Does s o (fun q => q = r ∨ dropReg q) fun t => Counted s t r 1 ∧ t.recvStreams = s.recvStreams ∧ P t

/-- A collective letter that names no context here is counted by both of its counters (R249, R280; log entry 86). -/
def CountsLost (s : State) (o : Out) (P : State → Prop) : Prop :=
  Does s o (fun q => q = .soNocontext ∨ q = .ceNogroup ∨ dropReg q) fun t =>
    Counted s t .soNocontext 1 ∧ Counted s t .ceNogroup 1 ∧ t.recvStreams = s.recvStreams ∧ P t

/-- The physical addresses that a context grants for `n` bytes at a virtual address, as a letter's own access translates them. -/
def grants (s : State) (c : Fin 64) (va n : Nat) (write : Bool) : List (Option Nat) :=
  (s.xlatAll c ((List.range n).map (va + ·)) write true 0x81).2

/-- The bytes at the addresses of `ps` have become those of `bs`, and no other, but for those that `X` names: stated where no trace spills
to memory and no write is under way. Bytes of running programs' code, of reserved regions and of no memory are discarded. -/
def PlacedBut (X : Nat → Prop) (s t : State) (ps : List (Option Nat)) (bs : List Byte) : Prop :=
  (∀ a, ¬ inRing s a → ¬ X a → some a ∉ ps → Memory.read t.mem a = Memory.read s.mem a) ∧
    (NoRing s → Sound s → Still s → ps.Nodup → ∀ k a, k < bs.length → ps[k]? = some (some a) → ¬ X a → Memory.read t.mem a =
      if backed a && (s.codeOwner a).isNone && (rsvdOwner a).isNone then bs.getD k 0 else Memory.read s.mem a)

def Placed (s t : State) (ps : List (Option Nat)) (bs : List Byte) : Prop := PlacedBut noByte s t ps bs

/-- The bytes of a letter's place in staging (R282), if it has one. -/
def inFrame (fr : Option Frame) (lt : Letter) (a : Nat) : Prop := ∃ f, fr = some f ∧ f.addr ≤ a ∧ a < f.addr + lt.length

/-- A letter's place in staging, if it has one, holds its payload: stated where no trace spills to memory and no write is under way. -/
def Kept (s t : State) (fr : Option Frame) (lt : Letter) : Prop :=
  NoRing s → Sound s → Still s → ∀ f k, fr = some f → k < lt.length → Memory.read t.mem (f.addr + k) = lt.body.getD k 0

/-- The die is in reset, and what it holds is at reset; the porter and the memories are not touched by that. -/
def DieDown (s t : State) : Prop :=
  t.dieUp = false ∧ t.stalls = [] ∧ t.consigns = [] ∧ t.outstanding = [] ∧ t.ports = [] ∧ t.franking = {} ∧
    (∀ r, r.domain = .die → t.rd r = r.reset) ∧ t.pending = s.pending

end Sys2Proof
end

