-- ==== Sys2Proof/Certificates/Slice0/Obligations.lean ====
section
/-!
DEFINITION. The statements for the provers, by family of commands.
-/
open Sys2Proof Sys2Proof.Machine

/-! ### The queue, the registers' addresses, the memory -/

/-- A step takes the command at the front of the queue, and is `exec` of it with the queue's rest.
On an empty queue a step is one franking cycle, which passes only while the die is out of reset (DESIGN CHOICE, log entry 3):
the queue stays empty, of the stalls only their counts of waiting cycles change (R27), memory changes only where the trace spills, and a die
in reset stays as it is. -/
def Obligations.StepTakesTheFrontCommand : Prop :=
  (∀ (c : Instr) (cs : List Instr) (s : State), s.pending = c :: cs → step s = exec c { s with pending := cs }) ∧
  (∀ s : State, s.pending = [] → Leaves (step s) fun t =>
      t.pending = [] ∧ (∀ n, t.stall n = { s.stall n with waitCycles := (t.stall n).waitCycles, updCycles := (t.stall n).updCycles }) ∧
        (∀ a, ¬ inRing s a → Memory.read t.mem a = Memory.read s.mem a) ∧ (s.dieUp = false → t = s))

/-- The address of every register decodes to that register, whatever its index. -/
def Obligations.RegisterAddressRoundTrip : Prop := ∀ r : Reg, Reg.ofAddr r.addr = some r

/-- Every step keeps the memory in its canonical form; and memory reads back what has been written to it: a write changes its own byte
only. -/
def Obligations.StepKeepsSound : Prop :=
  (∀ s t : State, Sound s → step s = .next t → Sound t) ∧
  ∀ (m : List Host.Cell) (a b : Nat) (x : Byte), Memory.wf m = true →
    Memory.read (Memory.write m a x) b = (if b = a then x else Memory.read m b) ∧ Memory.wf (Memory.write m a x) = true

/-- Every step keeps power in order: the die is out of reset only with main power good, and the rails that are on are the first ones of
their order. -/
def Obligations.StepKeepsPower : Prop := ∀ s t : State, PowerSound s → step s = .next t → PowerSound t

/-- Every step keeps the lanes in order: a port with a link runs on a strand, and only such a port has drops or strands to be added
agreed. -/
def Obligations.StepKeepsLanes : Prop := ∀ s t : State, LaneSound s → step s = .next t → LaneSound t

/-- Every step keeps the tables in order: an unbound slot is empty, no stable is reserved twice, and a group's table stays as it is for as
long as the group is valid. -/
def Obligations.StepKeepsTables : Prop :=
  (∀ s t : State, TableSound s → step s = .next t → TableSound t) ∧
  ∀ (s t : State) (c : Fin 64) (g : Fin 4), step s = .next t → s.grpValid c g = true → t.grpValid c g = true →
    t.rd (.ceGrpCtrl c g) = s.rd (.ceGrpCtrl c g) ∧ t.rd (.ceGrpTree c g) = s.rd (.ceGrpTree c g) ∧
      ∀ r, t.rd (.ceGrpMember c g r) = s.rd (.ceGrpMember c g r)

/-- The state after reset is sound, its queue is empty, and neither the aux rail nor the die is up; every register reads its reset value:
where the register's Reset column gives none (as stored, or per bundle), that is the model's choice (log entry 2). -/
def Obligations.ResetIsSound : Prop :=
  Sound State.reset ∧ PowerSound State.reset ∧ LaneSound State.reset ∧ TableSound State.reset ∧ State.reset.pending = [] ∧
    State.reset.aux = false ∧ State.reset.dieUp = false ∧ ∀ r : Reg, State.reset.rd r = r.reset

/-! ### Instructions of the sequencer (R127 to R132) -/

/-- sD ← sA op sB, modulo 2^64; shifts use sB[5:0]; `smin` and `smax` are signed.
pD takes the comparison of sA and sB in all of its bits; predicate logic works bit by bit, and p0 reads as all ones. -/
def Obligations.ScalarResults : Prop :=
  (∀ (s : State) (h : Hdr) (sd sa sb : SReg), Ready s h .none → GuardOn s h →
      let a := (stallOf s h).s[sa]
      let b := (stallOf s h).s[sb]
      SetsS s h (exec (.sadd h sd sa sb) s) sd (a + b) ∧
      SetsS s h (exec (.ssub h sd sa sb) s) sd (a - b) ∧
      SetsS s h (exec (.smul h sd sa sb) s) sd (BitVec.ofNat 64 (a.toNat * b.toNat)) ∧
      SetsS s h (exec (.sand h sd sa sb) s) sd (a &&& b) ∧
      SetsS s h (exec (.sor h sd sa sb) s) sd (a ||| b) ∧
      SetsS s h (exec (.sxor h sd sa sb) s) sd (a ^^^ b) ∧
      SetsS s h (exec (.sshl h sd sa sb) s) sd (a <<< (b.toNat % 64)) ∧
      SetsS s h (exec (.sshr h sd sa sb) s) sd (a >>> (b.toNat % 64)) ∧
      SetsS s h (exec (.ssra h sd sa sb) s) sd (a.sshiftRight (b.toNat % 64)) ∧
      SetsS s h (exec (.smin h sd sa sb) s) sd (if a.toInt ≤ b.toInt then a else b) ∧
      SetsS s h (exec (.smax h sd sa sb) s) sd (if a.toInt ≤ b.toInt then b else a) ∧
      SetsS s h (exec (.sminu h sd sa sb) s) sd (if a.toNat ≤ b.toNat then a else b) ∧
      SetsS s h (exec (.smaxu h sd sa sb) s) sd (if a.toNat ≤ b.toNat then b else a)) ∧
  (∀ (s : State) (h : Hdr) (pd pa pb : PReg) (sa sb : SReg), Ready s h .none → GuardOn s h →
      let a := (stallOf s h).s[sa]
      let b := (stallOf s h).s[sb]
      let p := predOf (stallOf s h) pa
      let q := predOf (stallOf s h) pb
      SetsP s h (exec (.scmpEq h pd sa sb) s) pd (allBits (decide (a = b))) ∧
      SetsP s h (exec (.scmpLt h pd sa sb) s) pd (allBits (decide (a.toInt < b.toInt))) ∧
      SetsP s h (exec (.scmpLtu h pd sa sb) s) pd (allBits (decide (a.toNat < b.toNat))) ∧
      SetsP s h (exec (.pand h pd pa pb) s) pd (p &&& q) ∧
      SetsP s h (exec (.por h pd pa pb) s) pd (p ||| q) ∧
      SetsP s h (exec (.pxor h pd pa pb) s) pd (p ^^^ q) ∧
      SetsP s h (exec (.pnot h pd pa) s) pd (~~~p))

/-- As SALU with the immediate as sB, sign-extended to 64 bits; `li` and `lih`; `sget` item by item.
`tdl` writes both words of a descriptor, `tds` reads one, and `tdadd` adds to BASE_128 and SCALE_BASE_16, each modulo its
width, and leaves every other field as it was.
`nop` changes nothing but the program counter and what retirement changes; `br` branches relative to itself; `loop` counts its
register down and branches while it is not zero; `halt` stops a stall that has nothing in flight, and otherwise holds issue. -/
def Obligations.ImmediatesDescriptorsAndControlFlow : Prop :=
  (∀ (s : State) (h : Hdr) (sd sa : SReg) (pd : PReg) (imm : BitVec 33), Ready s h .none → GuardOn s h →
      let a := (stallOf s h).s[sa]
      let i := imm.signExtend 64
      SetsS s h (exec (.saddi h sd sa imm) s) sd (a + i) ∧
      SetsS s h (exec (.sandi h sd sa imm) s) sd (a &&& i) ∧
      SetsS s h (exec (.sori h sd sa imm) s) sd (a ||| i) ∧
      SetsS s h (exec (.sxori h sd sa imm) s) sd (a ^^^ i) ∧
      SetsS s h (exec (.sshli h sd sa imm) s) sd (a <<< (i.toNat % 64)) ∧
      SetsS s h (exec (.sshri h sd sa imm) s) sd (a >>> (i.toNat % 64)) ∧
      SetsS s h (exec (.ssrai h sd sa imm) s) sd (a.sshiftRight (i.toNat % 64)) ∧
      SetsP s h (exec (.scmpiLt h pd sa imm) s) pd (allBits (decide (a.toInt < i.toInt))) ∧
      SetsS s h (exec (.li h sd imm) s) sd i ∧
      SetsS s h (exec (.lih h sd imm) s) sd
        (BitVec.ofNat 64 ((stallOf s h).s[sd].toNat % 2 ^ 32 + imm.toNat % 2 ^ 32 * 2 ^ 32)) ∧
      SetsS s h (exec (.sget h sd 0) s) sd (BitVec.ofNat 64 h.stall.val) ∧
      SetsS s h (exec (.sget h sd 1) s) sd (BitVec.ofNat 64 (stallOf s h).rank.val) ∧
      SetsS s h (exec (.sget h sd 2) s) sd (BitVec.ofNat 64 s.chip.toNat) ∧
      SetsS s h (exec (.sget h sd 3) s) sd (BitVec.ofNat 64 (stallOf s h).context.val) ∧
      SetsS s h (exec (.sget h sd 4) s) sd s.franking.ns) ∧
  (∀ (s : State) (h : Hdr) (sd sa sb : SReg) (td : TReg) (w : Bool), Ready s h .none → GuardOn s h →
      let st := stallOf s h
      let d := st.t[td].toNat
      let x := st.s[sa].toNat
      SetsT s h (exec (.tdl h td sa sb) s) td (st.s[sb] ++ st.s[sa]) ∧
      SetsS s h (exec (.tds h sd td w) s) sd (st.t[td].extractLsb' (if w then 64 else 0) 64) ∧
      ∃ y : BitVec 128, SetsT s h (exec (.tdadd h td sa) s) td y ∧
        y.toNat % 2 ^ 18 = (d + x) % 2 ^ 18 ∧
        y.toNat / 2 ^ 36 % 2 ^ 21 = (d / 2 ^ 36 + x / 2 ^ 18) % 2 ^ 21 ∧
        y.toNat / 2 ^ 18 % 2 ^ 18 = d / 2 ^ 18 % 2 ^ 18 ∧ y.toNat / 2 ^ 57 = d / 2 ^ 57) ∧
  ∀ (s : State) (h : Hdr) (sa : SReg) (off : BitVec 32), Ready s h .none → GuardOn s h →
    let st := stallOf s h
    let x := st.s[sa] - 1
    SeqDoes s h (exec (.nop h) s) (Passed st) ∧
    SeqDoes s h (exec (.br h off) s) { st with pc := st.pc + off.setWidth 17 } ∧
    SeqDoes s h (exec (.loop h sa off) s)
      { st with s := st.s.set sa x, pc := if x = 0 then st.pc + 1 else st.pc + off.setWidth 17 } ∧
    (st.flights = [] → st.wait = none →
      SeqDoes s h (exec (.halt h) s) { Passed st with running := false, halting := none }) ∧
    (st.flights ≠ [] ∨ st.wait ≠ none → Leaves (exec (.halt h) s) fun t =>
      t.stall h.stall = { Passed st with halting := some h } ∧ OnlyStall h.stall noReg noByte s t)

/-- `sld` and `sst` reach the eight bytes at (sA + IMM32) modulo the store size, bits [2:0] ignored; outside the reserved region
of a stable store and a running program's code, with no error in the stores and no write under way, both take effect. The bytes
are stated where no trace spills to memory.
A load of a poisoned word of either store writes no register and counts no retirement: it ends with a fault of ST_UNCORRECTABLE, which
its consignment takes, with the place of the word, and the stall stops. A program's own code region discards writes and counts them once an instruction; the reserved region reads zeros. -/
def Obligations.ScalarLoadAndStore : Prop :=
  (∀ (s : State) (h : Hdr) (b : Bool) (sd sa : SReg) (imm : BitVec 32), GuardOn s h → Clean s →
      let st := stallOf s h
      let off := (st.s[sa] + imm.signExtend 64).toNat % storeSize b / 8 * 8
      let base := (if b then stableBase (stableOf h.stall) else stallBase h.stall) + off
      (b = true → off < 0x1C00000) →
      (Ready s h .reads → ∃ x : BitVec 64, SetsS s h (exec (.sld h b sd sa imm) s) sd x ∧
          ((∀ a, ¬ inRing s a) → ∀ k, k < 8 → x.toNat / 2 ^ (8 * k) % 2 ^ 8 = (Memory.read s.mem (base + k)).toNat)) ∧
      (Ready s h .writes → (∀ k, k < 8 → s.codeOwner (base + k) = none) →
        Leaves (exec (.sst h b sd sa imm) s) fun t =>
          Retired s t h (Passed st) noReg (fun a => base ≤ a ∧ a < base + 8) ∧
          ((∀ a, ¬ inRing s a) → Sound s →
            ∀ k, k < 8 → (Memory.read t.mem (base + k)).toNat = st.s[sd].toNat / 2 ^ (8 * k) % 2 ^ 8))) ∧
  (∀ (s : State) (h : Hdr) (sd sa : SReg) (imm : BitVec 32), GuardOn s h → s.latentUe = [] → s.latentCe = [] → Still s →
      let st := stallOf s h
      let off := fun (b : Bool) => (st.s[sa] + imm.signExtend 64).toNat % storeSize b / 8 * 8
      (∀ b : Bool, Ready s h .reads → (b = true → off true < 0x1C00000) →
        (if b then stableBase (stableOf h.stall) else stallBase h.stall) + off b ∈ s.poison → Leaves (exec (.sld h b sd sa imm) s) fun t =>
        t.stall h.stall = { Passed st with running := false } ∧ t.rd (.stlSeqRetired h.stall) = s.rd (.stlSeqRetired h.stall) ∧
        ∀ c, consignAt s st.consignment = some c → (∀ x, (st.consignment, x) ∈ s.consigns → x.phase ≠ .waiting) → c.fault = none →
          c.ended = none → h.stall ∉ c.faulted →
          ∃ d i, consignAt t st.consignment = some d ∧ d.fault = some i ∧ i.status = .uncorrectable ∧ i.stall = h.stall ∧ i.pc = st.pc ∧
            i.loc = storeLoc b (off b)) ∧
      (Ready s h .reads → 0x1C00000 ≤ off true → Leaves (exec (.sld h true sd sa imm) s) fun t =>
        Retired s t h { Passed st with s := st.s.set sd 0 } (fun r => r = .stbSramRsvd (stableOf h.stall)) noByte ∧
        t.fld (.stbSramRsvd (stableOf h.stall)) F.COUNT =
          min (2 ^ 48 - 1) (s.fld (.stbSramRsvd (stableOf h.stall)) F.COUNT + 1)) ∧
      (Ready s h .writes → st.codeBase ≤ off false → off false + 8 ≤ st.codeBase + st.codeBytes →
        Leaves (exec (.sst h false sd sa imm) s) fun t =>
          Retired s t h (Passed st) (fun r => r = .stlSeqCodewrite h.stall) noByte ∧
          t.fld (.stlSeqCodewrite h.stall) F.COUNT = min (2 ^ 48 - 1) (s.fld (.stlSeqCodewrite h.stall) F.COUNT + 1)))

/-- An instruction whose guard is false has no effect, and still advances its tally: one of the sequencer or of the sync unit retires,
waiting for nothing; one of the matrix engine, the data mover, or of `upd`, `updf` and the vector loads and stores is taken by its unit
and retires there in its turn. (The classes of the vector engine whose guard governs elements are stated with their results.) -/
def Obligations.GuardedOffSequencer : Prop :=
  (∀ (s : State) (h : Hdr) (sd sa sb : SReg) (pd pa pb : PReg) (td : TReg) (b : Bool) (i : BitVec 32) (j item : BitVec 33),
    Ready s h .none → Ready s h .writes → ¬ GuardOn s h → item.toNat < 5 →
    ∀ c ∈ ([.nop h, .br h i, .loop h sa i, .halt h, .sadd h sd sa sb, .ssub h sd sa sb, .smul h sd sa sb, .sand h sd sa sb,
        .sor h sd sa sb, .sxor h sd sa sb, .sshl h sd sa sb, .sshr h sd sa sb, .ssra h sd sa sb, .smin h sd sa sb,
        .smax h sd sa sb, .sminu h sd sa sb, .smaxu h sd sa sb, .scmpEq h pd sa sb, .scmpLt h pd sa sb, .scmpLtu h pd sa sb,
        .pand h pd pa pb, .por h pd pa pb, .pxor h pd pa pb, .pnot h pd pa, .saddi h sd sa j, .sandi h sd sa j,
        .sori h sd sa j, .sxori h sd sa j, .sshli h sd sa j, .sshri h sd sa j, .ssrai h sd sa j, .scmpiLt h pd sa j,
        .li h sd j, .lih h sd j, .sget h sd item, .sld h b sd sa i, .sst h b sd sa i, .tdl h td sa sb, .tds h sd td b,
        .tdadd h td sa] : List Instr),
      SeqDoes s h (exec c s) (Passed (stallOf s h))) ∧
  (∀ (s : State) (h : Hdr) (cn : CReg) (v : BitVec 32) (sa : SReg) (scope : FenceScope) (grp : Fin 4) (evt : Fin 64),
    Ready s h .sync → ¬ GuardOn s h →
    ∀ c ∈ ([.tadd h cn v, .tset h cn v, .twait h cn v, .twaits h cn sa, .fenceAcq h scope grp, .fenceRel h scope grp,
        .fenceFull h scope grp, .ewait h evt] : List Instr),
      SeqDoes s h (exec c s) (Passed (stallOf s h))) ∧
  ∀ (s : State) (h : Hdr) (dsp ssp : Space) (sa sb sc sd se : SReg) (v : VReg) (i : BitVec 32) (a : Fin 2) (td ts : TReg) (f : Fmt)
    (x y z : Bool) (m1 n1 : Fin 128) (k1 : Fin 512) (m : OvMode) (k : Option Kind) (so : Option SReg) (nctr : CReg) (g : Fin 4),
    ¬ GuardOn s h →
    PassedBy s h .vector .reads 6 0 (.vld h x v sa i) ∧ PassedBy s h .vector .writes 6 1 (.vst h x v sa i) ∧
    (mmaOk f k1 = true → PassedBy s h .matrix .reads 7 0 (.mma h a td ts f x y z m1 n1 k1)) ∧
    (tkaOk f = true → PassedBy s h .matrix .reads 7 0 (.mmaTka h a td ts f x y z m1 n1 k1)) ∧
    (mmrOk f k n1 = true → PassedBy s h .matrix .writes 8 0 (.mmr h a td f m k x so m1 n1)) ∧
    PassedBy s h .matrix .writes 8 1 (.mmxSt h a td) ∧ PassedBy s h .matrix .reads 8 2 (.mmxLd h a td) ∧
    (updOk f = true → PassedBy s h .vector .writes 9 0 (.upd h sa sb td f)) ∧ PassedBy s h .vector .writes 9 1 (.updf h sa) ∧
    PassedBy s h .mover .writes 10 0 (.dmCopy h dsp ssp sd sa sb) ∧ PassedBy s h .mover .writes 10 1 (.dmLd2 h ssp td sa sb) ∧
    PassedBy s h .mover .writes 10 2 (.dmSt2 h dsp sd ts sb) ∧ PassedBy s h .mover .writes 10 3 (.dmTt h td ts sa) ∧
    PassedBy s h .mover .writes 10 4 (.dmFill h dsp sd sa sb) ∧
    PassedBy s h .mover .none 11 0 (.slotBind h sa sb sc sd nctr x) ∧ PassedBy s h .mover .none 11 1 (.slotFree h sa) ∧
    PassedBy s h .mover .writes 11 2 (.slotSend h ssp sa sb sc sd se) ∧ PassedBy s h .mover .none 11 3 (.slotStat h sd sa) ∧
    PassedBy s h .mover .writes 13 0 (.collReduce h g sa sb sc) ∧ PassedBy s h .mover .writes 13 1 (.collRscat h g sa sb sc) ∧
    PassedBy s h .mover .writes 13 2 (.collAgath h g sa sb sc) ∧ PassedBy s h .mover .writes 13 3 (.collA2a h g sa sb sc) ∧
    PassedBy s h .mover .writes 13 4 (.collCirc h g sa sb sc) ∧ PassedBy s h .mover .writes 13 5 (.collTree h g sa sb sc) ∧
    PassedBy s h .mover .writes 13 6 (.collWgtile h g sa sb sc td)

/-! ### The vector engine (R125 to R127, R135 to R139) -/

/-- Element-wise arithmetic: a floating result is the exact result rounded once in the instruction's format, an integer result
wraps. -/
def Obligations.VectorArithmeticResults : Prop :=
  ∀ (s : State) (h : Hdr) (f : Fmt) (vd va vb vc : VReg), UnitReady s h .vector .none →
    let a := fun e => vElem f (stallOf s h).v[va] e
    let b := fun e => vElem f (stallOf s h).v[vb] e
    let x := valOf s h f va
    let y := valOf s h f vb
    let w := 2 ^ fmtWidth f
    (isMx f = false →
      SetsElems s h (exec (.add h f vd va vb) s) 0x00 f vd
        (fun e => if isInt f then (a e + b e) % w else rounded f ((x e).add (y e))) ∧
      SetsElems s h (exec (.sub h f vd va vb) s) 0x01 f vd
        (fun e => if isInt f then (a e + (w - b e)) % w else rounded f ((x e).add (y e).negate)) ∧
      SetsElems s h (exec (.mul h f vd va vb) s) 0x02 f vd
        (fun e => if isInt f then a e * b e % w else rounded f ((x e).mul (y e)))) ∧
    (isPlainFloat f = true →
      SetsElems s h (exec (.fma h f vd va vb vc) s) 0x03 f vd
        (fun e => rounded f (((x e).mul (y e)).add (valOf s h f vc e))) ∧
      SetsElems s h (exec (.div h f vd va vb) s) 0x08 f vd (fun e => rounded f ((x e).div (y e))) ∧
      SetsElems s h (exec (.sqrt h f vd va) s) 0x09 f vd (fun e => rounded f (x e).sqrt)) ∧
    (isSignedInt f = true →
      SetsElems s h (exec (.abs h f vd va) s) 0x06 f vd
        (fun e => unsigned (fmtWidth f) (signed (fmtWidth f) (a e)).natAbs) ∧
      SetsElems s h (exec (.neg h f vd va) s) 0x07 f vd (fun e => unsigned (fmtWidth f) (-signed (fmtWidth f) (a e)))) ∧
    (isPlainFloat f = true →
      SetsElems s h (exec (.abs h f vd va) s) 0x06 f vd (fun e => rounded f (x e).mag) ∧
      SetsElems s h (exec (.neg h f vd va) s) 0x07 f vd (fun e => rounded f (x e).negate))

/-- `min` and `max` of R45, `sel` and `bcast`, whose NaN results are canonical (of `bcast`, log entry 87), the bitwise operations and the shifts, `bcast` and `iota`.
What an element of the destination reads after a vector operation: under a true bit of its guard the result, otherwise the
value it had (R126). -/
def Obligations.VectorSelectAndShiftResults : Prop :=
  (∀ (s : State) (h : Hdr) (f : Fmt) (vd va vb : VReg) (pc : PReg) (sa : SReg), UnitReady s h .vector .none →
      let a := fun e => vElem f (stallOf s h).v[va] e
      let b := fun e => vElem f (stallOf s h).v[vb] e
      let x := valOf s h f va
      let y := valOf s h f vb
      let w := fmtWidth f
      (isMx f = false →
        SetsElems s h (exec (.min h f vd va vb) s) 0x04 f vd
          (fun e => if (x e).isNan || (y e).isNan then canonNan f
            else if (x e).isZero && (y e).isZero then (if (x e).neg then a e else b e)
            else if (x e).cmp (y e) ≤ 0 then a e else b e) ∧
        SetsElems s h (exec (.max h f vd va vb) s) 0x05 f vd
          (fun e => if (x e).isNan || (y e).isNan then canonNan f
            else if (x e).isZero && (y e).isZero then (if (x e).neg then b e else a e)
            else if 0 ≤ (x e).cmp (y e) then a e else b e) ∧
        SetsElems s h (exec (.sel h f vd va vb pc) s) 0x0E f vd
          (fun e => canonical f (if ((stallOf s h).vpred pc).getLsbD (e * (256 / elemCount f)) then a e else b e)) ∧
        SetsElems s h (exec (.bcast h f vd sa) s) 0x17 f vd (fun _ => canonical f ((stallOf s h).s[sa].toNat % 2 ^ w))) ∧
      (isInt f = true →
        SetsElems s h (exec (.and h f vd va vb) s) 0x0F f vd (fun e => a e &&& b e) ∧
        SetsElems s h (exec (.or h f vd va vb) s) 0x10 f vd (fun e => a e ||| b e) ∧
        SetsElems s h (exec (.xor h f vd va vb) s) 0x11 f vd (fun e => a e ^^^ b e) ∧
        SetsElems s h (exec (.shl h f vd va vb) s) 0x12 f vd (fun e => a e * 2 ^ (b e % w) % 2 ^ w) ∧
        SetsElems s h (exec (.shr h f vd va vb) s) 0x13 f vd (fun e => a e / 2 ^ (b e % w))) ∧
      (isSignedInt f = true →
        SetsElems s h (exec (.sra h f vd va vb) s) 0x14 f vd (fun e => unsigned w (signed w (a e) / 2 ^ (b e % w)))) ∧
      (f = .i32 ∨ f = .u16 → SetsElems s h (exec (.iota h f vd) s) 0x18 f vd (fun e => e))) ∧
  (∀ (f : Fmt) (guard : BitVec 256) (neg : Bool) (old : BitVec 2048) (el : Nat → Nat) (e : Nat), e < elemCount f →
      vElem f (vWrite f guard neg old el) e =
        if guard.getLsbD (e * (256 / elemCount f)) != neg then el e % 2 ^ fmtWidth f else vElem f old e)

/-- A comparison writes all bits of each element's group with the element's result, under its guard, at its retire point: the
predicate that the sequencer reads is as it was, the one in program order is new. A NaN compares unequal and unordered.
`sum` adds the participating elements one after another from +0, and `maxr` takes their greatest; element 0 takes the result
whatever its own bit, the others keep their value, and `maxr` of nothing leaves element 0. -/
def Obligations.VectorCompareAndReductionResults : Prop :=
  (∀ (s : State) (h : Hdr) (f : Fmt) (pd : PReg) (va vb : VReg), UnitReady s h .vector .none → isMx f = false →
      let x := valOf s h f va
      let y := valOf s h f vb
      let st := stallOf s h
      let ord := fun e => !(x e).isNan && !(y e).isNan
      let does := fun (o : Out) (op : Nat) (r : Nat → Bool) => ∃ p : BitVec 256,
        (Leaves o fun t => Issued s t h (if pd = 0 then Passed st else { Passed st with vp := st.vp.set pd p })
          { recordOf s h .vector 4 op with pWrite := some (pd, p) } noReg noByte) ∧
        ∀ i, i < 256 → p.getLsbD i =
          let e := i / (256 / elemCount f)
          if (st.vpred h.pred).getLsbD (e * (256 / elemCount f)) != h.pneg then r e else (st.vpred pd).getLsbD i
      does (exec (.cmpEq h f pd va vb) s) 0x0A (fun e => ord e && decide ((x e).cmp (y e) = 0)) ∧
      does (exec (.cmpNe h f pd va vb) s) 0x0B (fun e => !(ord e && decide ((x e).cmp (y e) = 0))) ∧
      does (exec (.cmpLt h f pd va vb) s) 0x0C (fun e => ord e && decide ((x e).cmp (y e) < 0)) ∧
      does (exec (.cmpLe h f pd va vb) s) 0x0D (fun e => ord e && decide ((x e).cmp (y e) ≤ 0))) ∧
  (∀ (s : State) (h : Hdr) (f : Fmt) (vd va : VReg), UnitReady s h .vector .none →
      let st := stallOf s h
      let xs := ((List.range (elemCount f)).filter fun e =>
        (st.vpred h.pred).getLsbD (e * (256 / elemCount f)) != h.pneg).map fun e => vElem f st.v[va] e
      let add := fun p q => if f = .i32 then (p + q) % 2 ^ 32 else rounded f ((decodeElem f p).add (decodeElem f q))
      (isPlainFloat f = true ∨ f = .i32 →
        SetsV s h (exec (.sum h f vd va) s) 0x15 vd (setElem0 f st.v[vd] (xs.foldl add 0))) ∧
      (isMx f = false → xs = [] → SetsV s h (exec (.maxr h f vd va) s) 0x16 vd st.v[vd]) ∧
      (isMx f = false → ∀ y ys, xs = y :: ys →
        SetsV s h (exec (.maxr h f vd va) s) 0x16 vd (setElem0 f st.v[vd] (ys.foldl (maxBitsOf f) (maxBitsOf f y y)))))

/-- `vld` and `vst` move 256 bytes at (sA + IMM32) modulo the store size, bits [5:0] ignored, wrapping at the store's end; bit 0 of
the guard governs the whole instruction. They reach the stall's own stores only. The reserved region of a stable store reads zeros, and it
and the running program's code discard writes: the instruction's record holds one event for each, which it counts as it ends. The bytes
are stated where no error stands and no write is under way, and no trace spills to memory. That the access is performed as the instruction
is issued is the model's choice (log entries 5 and 6). -/
def Obligations.VectorLoadAndStore : Prop :=
  ∀ (s : State) (h : Hdr) (b : Bool) (v : VReg) (sa : SReg) (imm : BitVec 32),
    let st := stallOf s h
    let off := (st.s[sa] + imm.signExtend 64).toNat % storeSize b / 64 * 64
    let at' := fun k => (if b then stableBase (stableOf h.stall) else stallBase h.stall) + (off + k) % storeSize b
    (¬ GuardOn s h →
      (UnitReady s h .vector .reads → Leaves (exec (.vld h b v sa imm) s) fun t =>
        Issued s t h (Passed st) { recordOf s h .vector 6 0 with guardOff := true } noReg noByte) ∧
      (UnitReady s h .vector .writes → Leaves (exec (.vst h b v sa imm) s) fun t =>
        Issued s t h (Passed st) { recordOf s h .vector 6 1 with guardOff := true } noReg noByte)) ∧
    let rsvd := fun k => b && decide (0x1C00000 ≤ (off + k) % storeSize b)
    let events := fun (x : Bool) (e : StallEvent) => if x then [(e, 1)] else []
    let inRsvd := events ((List.range 256).any rsvd) .reserved
    (GuardOn s h → Clean s →
      (UnitReady s h .vector .reads → ∃ x : BitVec 2048,
        (Leaves (exec (.vld h b v sa imm) s) fun t => Issued s t h { Passed st with v := st.v.set v x }
          { recordOf s h .vector 6 0 with reads := [if b then .stable else .stall], counts := inRsvd, lands := some (.vreg v) }
          noReg noByte) ∧
        (NoRing s → ∀ k, k < 256 →
          x.toNat / 2 ^ (8 * k) % 2 ^ 8 = if rsvd k then 0 else (Memory.read s.mem (at' k)).toNat)) ∧
      (UnitReady s h .vector .writes → Leaves (exec (.vst h b v sa imm) s) fun t =>
        let code := fun k => (s.codeOwner (at' k)).isSome
        Issued s t h (Passed st)
            { recordOf s h .vector 6 1 with
              writes := [if b then .stable else .stall], counts := inRsvd ++ events ((List.range 256).any code) .codewrite } noReg
            (fun a => ∃ k, k < 256 ∧ a = at' k ∧ rsvd k = false ∧ code k = false) ∧
          (NoRing s → Sound s → ∀ k, k < 256 → rsvd k = false → code k = false →
            (Memory.read t.mem (at' k)).toNat = st.v[v].toNat / 2 ^ (8 * k) % 2 ^ 8)))

/-- `cvt` (R138, R52, R43): the destination takes the converted elements of its part under the guard; the scale of every block that the
part fills waits for the retire point, and no other byte of its register; and the record holds the events of the elements that the guard
lets through, which it counts as it ends.
Element by element: into a plain format the exact source value, scaled by its block's code where it is an MX element, is rounded once; into
an MX format the block's code comes from the largest exponent of its 32 source elements, and each element is rounded after the division by
that power of two (R53).
Rounding is to the nearest code, and of two as near the even one (R36): stated of every finite result in range. -/
def Obligations.ConvertResults : Prop :=
  (∀ (s : State) (h : Hdr) (vd va : VReg) (ss : SReg) (t f : Fmt) (part : Fin 4) (m : OvMode) (k : Kind),
    UnitReady s h .vector .none → wellFormed (.cvt h vd va ss t f part m k) = true →
    let st := stallOf s h
    let src := fun i => if isMx f then mxValue f (st.s[ss].toNat / 2 ^ (8 * (i / 32)) % 2 ^ 8) (vElem f st.v[va] i)
      else decodeElem f (vElem f st.v[va] i)
    let ex := fun b => blockExp ((List.range 32).map fun j => src (32 * b + j))
    let x0 := fun E : Int => E - emaxElem t + headroom k
    let code := fun b => match ex b with | none => 0 | some E => (max (-127) (min 127 (x0 E)) + 127).toNat
    let conv := fun i : Nat =>
      if isMx t then
        match ex (i / 32) with
        | none => encodeMxElem t m false ((src i).scale 127)
        | some E => encodeMxElem t m (decide (127 < x0 E)) ((src i).scale (-(max (-127) (min 127 (x0 E)))))
      else encodeElem t m (src i)
    let on := fun e => (st.vpred h.pred).getLsbD (e * (256 / elemCount t)) != h.pneg
    let done := (List.range (elemCount t)).filterMap fun e =>
      if on e then (cvtSource t f part.val e).map conv else none
    let amount := fun p : Conv → Bool => (done.filter p).length
    let b0 := part.val * elemCount f / 32
    Leaves (exec (.cvt h vd va ss t f part m k) s) fun u => ∃ (v : BitVec 2048) (ws : List (SReg × BitVec 64 × BitVec 64)),
      Issued s u h { Passed st with v := st.v.set vd v }
        { recordOf s h .vector 5 0 with
          sWrites := ws, lands := some (.vreg vd)
          counts := [(.cvtOverflow, amount (·.ovf)), (.cvtNanInt, amount (·.nanInt)), (.mxClamp, amount (·.clamp)),
            (if isMx t then .mxUnderflow else .cvtUnderflow, amount (·.unf))] } noReg noByte ∧
      (isMx t = false → ws = []) ∧
      (isMx t = true → ∃ mask val, ws = [(ss, mask, val)] ∧ ∀ b, b < 8 →
        let fills := b0 ≤ b ∧ b < b0 + elemCount f / 32
        mask.toNat / 2 ^ (8 * b) % 2 ^ 8 = (if fills then 255 else 0) ∧
          val.toNat / 2 ^ (8 * b) % 2 ^ 8 = if fills then code (b - b0) else 0) ∧
      (∀ e, e < elemCount t → vElem t v e =
        match cvtSource t f part.val e with
        | some i => if on e then (conv i).bits % 2 ^ fmtWidth t else vElem t st.v[vd] e
        | none => vElem t st.v[vd] e)) ∧
  ∀ (f : Fmt) (g : FloatSpec) (m : OvMode) (n : Bool) (x : Nat) (e : Int), floatSpec f = some g →
    let v := FVal.fin n x e
    let r := encodeElem f m v
    isPlain f = true → r.ovf = false → ∀ c, c < 2 ^ fmtWidth f → (∃ n' x' e', decodeElem f c = .fin n' x' e') →
      let a := decodeElem f r.bits
      let b := decodeElem f c
      let q := min e (min (expOf a) (expOf b))
      (∃ n' x' e', a = .fin n' x' e') ∧ apart q v a ≤ apart q v b ∧ (apart q v a = apart q v b → apart q a b = 0 ∨ r.bits % 2 = 0)

/-- Every well-formed command answers a next state, also where its conditions do not hold and it is ignored (the model's choice, log entry
5). Where the unit takes it now and its guard is on, an instruction of VCVT, of the matrix engine, of UPD, of SYNC or of COLL passes the
program counter, whatever the operands; the events that end waits, retire or fault an instruction, complete a tile or a sample, do so
under the conditions on the state that the rules give. The forms that the loader refuses are in no running program: that each stops by
name is the model's choice (log entry 24), and so is that an instruction has its effect as it is issued (log entry 6). -/
def Obligations.LoaderRefusedForms : Prop :=
  (∀ (c : Instr) (s : State), wellFormed c = true → ∃ t, exec c s = .next t) ∧
  (∀ (s : State) (h : Hdr) (vd va : VReg) (sa sb sc : SReg) (f t : Fmt) (part : Fin 4) (m : OvMode) (k : Kind) (ko : Option Kind)
      (a : Fin 2) (td tb : TReg) (b x y : Bool) (so : Option SReg) (m1 n1 : Fin 128) (k1 : Fin 512) (cn : CReg) (v : BitVec 32)
      (scope : FenceScope) (grp : Fin 4) (evt : Fin 64), GuardOn s h →
      let moves := fun (o : Out) => Leaves o fun t => (t.stall h.stall).pc = (stallOf s h).pc + 1
      (UnitReady s h .vector .none → wellFormed (.cvt h vd va sa t f part m k) = true →
        moves (exec (.cvt h vd va sa t f part m k) s)) ∧
      (UnitReady s h .matrix .reads → moves (exec (.mmxLd h a td) s) ∧
        (mmaOk f k1 = true → moves (exec (.mma h a td tb f b x y m1 n1 k1) s)) ∧
        (tkaOk f = true → moves (exec (.mmaTka h a td tb f b x y m1 n1 k1) s))) ∧
      (UnitReady s h .matrix .writes → moves (exec (.mmxSt h a td) s) ∧
        (mmrOk f ko n1 = true → moves (exec (.mmr h a td f m ko b so m1 n1) s))) ∧
      (UnitReady s h .vector .writes true → moves (exec (.updf h sa) s) ∧ (updOk f = true → moves (exec (.upd h sa sb td f) s))) ∧
      (Ready s h .sync → ∀ c ∈ ([.twait h cn v, .twaits h cn sa, .tadd h cn v, .tset h cn v, .fenceAcq h scope grp,
          .fenceRel h scope grp, .fenceFull h scope grp, .ewait h evt] : List Instr), moves (exec c s)) ∧
      (UnitReady s h .mover .writes → ∀ c ∈ ([.collReduce h grp sa sb sc, .collRscat h grp sa sb sc, .collAgath h grp sa sb sc,
          .collA2a h grp sa sb sc, .collCirc h grp sa sb sc, .collTree h grp sa sb sc, .collWgtile h grp sa sb sc td] : List Instr),
        moves (exec c s))) ∧
  (∀ (s : State) (n : Fin 128), s.dieUp = true → s.yardRuns (yardOf n) = true →
      let st := s.stall n
      let freed := fun (o : Out) => Leaves o fun t => (t.stall n).wait = none
      (st.running = true → st.halting = none → ∀ h : Hdr, h.stall = n →
        (∀ cn target, st.wait = some (.tally h cn target) → tallyMet st.c[cn] target = true → freed (exec (.tallyWaitSatisfied n) s)) ∧
        (∀ k scope grp u, st.wait = some (.fence h k scope grp u) → s.fenceHeld n k scope grp u = false →
          freed (exec (.fenceRetire n) s)) ∧
        (∀ evt g, st.wait = some (.barrier h evt g) → n ∈ s.barrierTeam n evt → (∀ m ∈ s.barrierTeam n evt, g ≤ s.arrived m evt) →
          freed (exec (.barrierGenerationComplete n) s))) ∧
      (∀ u i f, (st.unitFlights u)[i]? = some f → s.mayEnd n f i = true →
        let gone := fun (o : Out) => Leaves o fun t => ∀ x ∈ (t.stall n).flights, x.seq ≠ f.seq
        (statusRetires f.status = true → s.collReady f = true → gone (exec (.instructionRetire n u i) s)) ∧
        (statusRetires f.status = false → gone (exec (.instructionFault n u i) s))) ∧
      (∀ f w, st.updWaiting = some (f, w) →
        let goesOn := fun (o : Out) => Leaves o fun t => ∀ x ∈ (t.stall n).flights, x.seq = f.seq → x.kind ≠ .update (some w)
        let later := fun (sa : BitVec 64) => BitVec.ofNat 32 (bitsOf sa.toNat 0 32) ≠ s.sealed st.context + 2
        let s0 : State := { s with actor := some (updActor n f.seq), refusing := some f.refused }
        (∀ sa sb d gf, w = .seal sa sb d gf → later sa → goesOn (exec (.updSealWaitEnd n) s)) ∧
        (∀ sa, w = .foldSeal sa → later sa → goesOn (exec (.updSealWaitEnd n) s)) ∧
        (∀ sa step gr ex e h, w = .tiles sa step gr ex e h → (s0.tilesDone st.context n h e.scratch).2 = true →
          goesOn (exec (.updfTilesComplete n) s))) ∧
      (∀ seq tl, (s.tiles.find? fun x => x.stall = n && x.seq = seq) = some tl → (∀ f ∈ st.flights, f.seq ≠ seq) →
        tl.gather = none → Leaves (exec (.tileComplete n seq) s) fun t => t.tiles = s.tiles.erase tl) ∧
      ∀ u x, (s.watch u).sample = some x → x.dest ≠ none → Leaves (exec (.nwSampleComplete u) s) fun t => (t.watch u).sample = none) ∧
  ∀ (s : State) (h : Hdr) (f t : Fmt) (vd va vb vc : VReg) (pd : PReg) (sd ss : SReg) (item : BitVec 33) (part : Fin 4)
    (m : OvMode) (k : Kind) (ko : Option Kind) (a : Fin 2) (ta tb : TReg) (z x y : Bool) (m1 n1 : Fin 128) (k1 : Fin 512)
    (so : Option SReg),
    ∀ e ∈ ([(.add h f vd va vb, "ADD"), (.sub h f vd va vb, "SUB"), (.mul h f vd va vb, "MUL"), (.fma h f vd va vb vc, "FMA"),
        (.min h f vd va vb, "MIN"), (.max h f vd va vb, "MAX"), (.abs h f vd va, "ABS"), (.neg h f vd va, "NEG"),
        (.div h f vd va vb, "DIV"), (.sqrt h f vd va, "SQRT"), (.cmpEq h f pd va vb, "CMP_EQ"), (.cmpNe h f pd va vb, "CMP_NE"),
        (.cmpLt h f pd va vb, "CMP_LT"), (.cmpLe h f pd va vb, "CMP_LE"), (.sel h f vd va vb pd, "SEL"),
        (.and h f vd va vb, "AND"), (.or h f vd va vb, "OR"), (.xor h f vd va vb, "XOR"), (.shl h f vd va vb, "SHL"),
        (.shr h f vd va vb, "SHR"), (.sra h f vd va vb, "SRA"), (.sum h f vd va, "SUM"), (.maxr h f vd va, "MAXR"),
        (.bcast h f vd ss, "BCAST"), (.iota h f vd, "IOTA"), (.cvt h vd va ss t f part m k, "CVT"), (.sget h sd item, "SGET"),
        (.mma h a ta tb f z x y m1 n1 k1, "MMA"), (.mmaTka h a ta tb f z x y m1 n1 k1, "MMA_TKA"),
        (.mmr h a ta f m ko z so m1 n1, "MMR"), (.upd h sd ss ta f, "UPD")] : List (Instr × String)),
      wellFormed e.1 = false → exec e.1 s = .refused (.loaderRefused e.2)

/-! ### The matrix engine (R66 to R92) -/

/-- An exact `mma` and an `mma.tka` on descriptors of the instruction's format: the accumulator takes the operands' products, in
its mode, and nothing else of the stall changes; the record holds a wrap and a reserved region, which it counts as it ends. Stated where
no trace spills to memory, no error stands and no write is under way. That the operands are read as the instruction is issued is the
model's choice (log entries 5 and 6).
Element by element, for an exact `mma` from a cleared accumulator whose products are all finite: ESEEN is the largest exponent of the
nonzero ones, and WINDOW the sum of each product floored at the window's bottom (R75). Element by element, for an `mma.tka` from a cleared
accumulator: the products, rounded to FP32 or in INT32, are added in pairs in the order of K, +0 making up the last pair (R85).
A format that is not the descriptor's: the instruction adds nothing and writes nothing, and its record holds
ST_FORMAT_MISMATCH, with which it will end. That it leaves the accumulator as it was under `.z` too is the model's choice (log entry 26). -/
def Obligations.MatrixMultiplyAccumulates : Prop :=
  (∀ (s : State) (h : Hdr) (a : Fin 2) (ta tb : TReg) (f : Fmt) (z x y : Bool) (m1 n1 : Fin 128) (k1 : Fin 512),
      UnitReady s h .matrix .reads → GuardOn s h → Clean s → NoRing s →
      let st := stallOf s h
      let K := k1.val + 1
      let as := s.opTable h.stall (operandA st.t[ta] f x) (m1.val + 1) K
      let bs := s.opTable h.stall (operandB st.t[tb] f y) (n1.val + 1) K
      let x' := operandA st.t[ta] f x
      let y' := operandB st.t[tb] f y
      let offs := (x'.offs (m1.val + 1) K).map (fun o => (x'.d, o)) ++ (y'.offs (n1.val + 1) K).map fun o => (y'.d, o)
      let events := fun (r : Flight) =>
        eventsOf r .mmWrap = (if offs.any fun o => o.1.wraps o.2 then 1 else 0) ∧
          eventsOf r .reserved = (if offs.any fun o => (rsvdOwner (o.1.addr h.stall o.2)).isSome then 1 else 0) ∧
          ∀ e, e ≠ .mmWrap → e ≠ .reserved → eventsOf r e = 0
      let after := fun (compat : Bool) =>
        let p := st.acc[a].prepare z compat (f == .i8)
        { p with ploc := p.ploc.orElse fun _ => firstBad as bs K }.mma as bs K
      (Desc.of st.t[ta]).fmt = fmtCode f → (Desc.of st.t[tb]).fmt = fmtCode f →
      (mmaOk f k1 = true → Leaves (exec (.mma h a ta tb f z x y m1 n1 k1) s) fun t =>
        ∃ r, Heads s h .matrix 7 0 r ∧ r.status = .ok ∧ events r ∧
          Issued s t h { Passed st with acc := st.acc.set a (after false) } r noReg noByte) ∧
      (tkaOk f = true → Leaves (exec (.mmaTka h a ta tb f z x y m1 n1 k1) s) fun t =>
        ∃ r, Heads s h .matrix 7 0 r ∧ r.status = .ok ∧ events r ∧
          Issued s t h { Passed st with acc := st.acc.set a (after true) } r noReg noByte) ∧
      (tkaOk f = true → z = true → ∀ i j, i ≤ m1.val → j ≤ n1.val →
        let xe := s.opEl h.stall (operandA st.t[ta] f x) i
        let ye := s.opEl h.stall (operandB st.t[tb] f y) j
        let int := f == .i8
        let prod := fun k => if K ≤ k then 0
          else if int then unsigned 32 (signed 8 (xe k).bits * signed 8 (ye k).bits) else rne32 ((xe k).v.mul (ye k).v)
        let add := fun p q => if int then (p + q) % 2 ^ 32 else f32Add p q
        (after true).compat = true ∧ (after true).int32 = int ∧ ((after true).get i j).poison = false ∧
          ((after true).get i j).window.toNat =
            (List.range ((K + 1) / 2)).foldl (fun sum q => add sum (add (prod (2 * q)) (prod (2 * q + 1)))) 0) ∧
      (mmaOk f k1 = true → z = true → ∀ i j, i ≤ m1.val → j ≤ n1.val →
        let prod := fun k => (s.opEl h.stall (operandA st.t[ta] f x) i k).v.mul (s.opEl h.stall (operandB st.t[tb] f y) j k).v
        let el := (after false).get i j
        (∀ k, k < K → ∃ n v e, prod k = .fin n v e) →
        (after false).kcount = K ∧ el.nan = false ∧ el.pinf = false ∧ el.ninf = false ∧ el.poison = false ∧
          el.window.toInt = ((List.range K).map fun k => floorAt (el.eseen + gap K - 94) (prod k)).sum ∧
          (∀ k, k < K → ∀ E, (prod k).exp2 = some E → E ≤ el.eseen) ∧
          ((∃ k, k < K ∧ (prod k).exp2 = some el.eseen) ∨ (el.eseen = -1024 ∧ ∀ k, k < K → (prod k).isZero = true)))) ∧
  (∀ (s : State) (h : Hdr) (a : Fin 2) (ta tb : TReg) (f : Fmt) (z x y : Bool) (m1 n1 : Fin 128) (k1 : Fin 512) (m : OvMode)
      (k : Option Kind) (so : Option SReg), GuardOn s h →
      let st := stallOf s h
      let does := fun (o : Out) (cls : Nat) (instr : Nat) => Leaves o fun t => Issued s t h (Passed st)
        { recordOf s h .matrix cls 0 with status := .formatMismatch, kind := .matrix { acc := a, instr := instr } } noReg noByte
      ((Desc.of st.t[ta]).fmt ≠ fmtCode f ∨ (Desc.of st.t[tb]).fmt ≠ fmtCode f → UnitReady s h .matrix .reads →
        (mmaOk f k1 = true → does (exec (.mma h a ta tb f z x y m1 n1 k1) s) 7 0) ∧
        (tkaOk f = true → does (exec (.mmaTka h a ta tb f z x y m1 n1 k1) s) 7 0)) ∧
      ((Desc.of st.t[ta]).fmt ≠ fmtCode f → UnitReady s h .matrix .writes → mmrOk f k n1 = true →
        does (exec (.mmr h a ta f m k z so m1 n1) s) 8 1))

/-- What an exact `mma` leaves in an element does not depend on the order of its products: the element before it, KCOUNT and the multiset
of the products determine it (R76). -/
def Obligations.ExactSumOrderIndependent : Prop :=
  ∀ (kOld kNew : Nat) (e : Elem) (ps qs : List (Option FVal)), ps.Perm qs → mmaElem kOld kNew e ps = mmaElem kOld kNew e qs

/-- `mmr` on a descriptor of its format writes the rounded elements and scales of its region at the addresses of the tile layout, and
clears the accumulator under `.clr`; its record holds its events, which it counts as it ends; a poisoned element makes its record end with ST_UNCORRECTABLE. The bytes of
every row are stated, and element by element for a plain format.
`mmx.st` writes the accumulator's image at the descriptor's base, whose record of each element is told bit by bit, and `mmx.ld` makes the
accumulator of the image found there; that of an image gives back its accumulator.
That the accesses are performed as the instruction is issued, and that an MX readout counts an overflow in two tallies, are the model's
choices (log entries 5, 6 and 26).
The bytes are stated where no trace spills to memory, no code and no reserved region lies there, and no two of them go to one address. -/
def Obligations.MatrixReadoutSaveAndRestore : Prop :=
  (∀ (s : State) (h : Hdr) (a : Fin 2) (td : TReg) (f : Fmt) (m : OvMode) (k : Option Kind) (c : Bool) (so : Option SReg)
      (m1 n1 : Fin 128), UnitReady s h .matrix .writes → GuardOn s h → Clean s → mmrOk f k n1 = true →
      let st := stallOf s h
      let n := h.stall
      let d := Desc.of st.t[td]
      let sc := match so with | some x => signed 8 st.s[x].toNat | none => 0
      let rows := st.acc[a].readout f m k sc (m1.val + 1) (n1.val + 1)
      let all := readoutBytes d f rows
      d.fmt = fmtCode f →
      Leaves (exec (.mmr h a td f m k c so m1 n1) s) fun t => ∃ r, Heads s h .matrix 8 0 r ∧
        (r.status = if (st.acc[a].firstPoison (m1.val + 1) (n1.val + 1)).isSome then .uncorrectable else .ok) ∧
          Issued s t h { Passed st with acc := if c then st.acc.set a {} else st.acc } r noReg
            (fun b => ∃ w ∈ all, b = d.addr n w.1) ∧
          (let amount := fun p : Conv → Bool => ((rows.map (·.1)).flatten.filter p).length
           eventsOf r .mmOverflow = amount (·.ovf) ∧ eventsOf r .cvtNanInt = amount (·.nanInt) ∧ eventsOf r .mxClamp = amount (·.clamp) ∧
           eventsOf r .cvtOverflow = (if isMx f && !st.acc[a].compat then amount (·.ovf) else 0) ∧
           eventsOf r .mxUnderflow = (if isMx f then amount (·.unf) else 0) ∧
           eventsOf r .mmUnderflow = (if isMx f then 0 else amount (·.unf)) ∧ eventsOf r .cvtUnderflow = 0 ∧
           eventsOf r .mmSpill = (if st.acc[a].compat then 0 else
             ((List.range (m1.val + 1)).map fun i =>
               ((List.range (n1.val + 1)).filter fun j => (st.acc[a].get i j).spill ≠ 0).length).sum) ∧
           eventsOf r .mmWrap = (if all.any fun w => d.wraps w.1 then 1 else 0) ∧
           eventsOf r .reserved = (if all.any fun w => (rsvdOwner (d.addr n w.1)).isSome then 1 else 0) ∧
           eventsOf r .codewrite = if all.any fun w => (s.codeOwner (d.addr n w.1)).isSome then 1 else 0) ∧
          (NoRing s → Sound s → (all.map fun w => d.addr n w.1).Nodup →
            (∀ w ∈ all, s.codeOwner (d.addr n w.1) = none ∧ rsvdOwner (d.addr n w.1) = none) →
            (∀ w ∈ all, Memory.read t.mem (d.addr n w.1) = w.2.1) ∧
            (isMx f = false → ∀ i j b, i ≤ m1.val → j ≤ n1.val → b < fmtWidth f / 8 →
              (Memory.read t.mem (d.addr n (d.byteOff i (fmtWidth f / 8 * j + b)))).toNat =
                (mmrElem f m sc (st.acc[a].get i j).poison (st.acc[a].value (st.acc[a].get i j))).bits / 2 ^ (8 * b) % 2 ^ 8))) ∧
  (∀ (s : State) (h : Hdr) (a : Fin 2) (td : TReg), GuardOn s h → Clean s →
      let st := stallOf s h
      let n := h.stall
      let d := Desc.of st.t[td]
      let at' := fun k => d.addr n (d.base + k)
      let events := fun (r : Flight) (stores : Bool) =>
        eventsOf r .mmWrap = (if (List.range imageLen).any fun k => d.wraps (d.base + k) then 1 else 0) ∧
          eventsOf r .reserved = (if (List.range imageLen).any fun k => (rsvdOwner (at' k)).isSome then 1 else 0) ∧
          (eventsOf r .codewrite = if stores && (List.range imageLen).any fun k => (s.codeOwner (at' k)).isSome then 1 else 0) ∧
          ∀ e, e ∉ [StallEvent.mmWrap, .reserved, .codewrite] → eventsOf r e = 0
      (UnitReady s h .matrix .writes → Leaves (exec (.mmxSt h a td) s) fun t => ∃ r, Heads s h .matrix 8 1 r ∧
        events r true ∧ Issued s t h (Passed st) r noReg (fun b => ∃ k, k < imageLen ∧ b = at' k) ∧
        (NoRing s → Sound s → (∀ k, k < imageLen → s.codeOwner (at' k) = none ∧ rsvdOwner (at' k) = none) →
          ∀ k, k < imageLen → Memory.read t.mem (at' k) = st.acc[a].image.getD k 0)) ∧
      (UnitReady s h .matrix .reads → NoRing s → Leaves (exec (.mmxLd h a td) s) fun t => ∃ r, Heads s h .matrix 8 2 r ∧
          events r false ∧ Issued s t h { Passed st with
            acc := st.acc.set a (Acc.ofImage ((List.range imageLen).map fun k => s.peekG (at' k))
              fun k => ((d.base + k) % storeSize d.stable / 8 * 8, d.stable)) } r noReg noByte)) ∧
  ∀ (a : Acc), a.image.length = imageLen ∧ natAt a.image 0 6 = a.kcount % 2 ^ 48 ∧
    ∀ i j, i < 128 → j < 128 →
      let e := a.get i j
      let x := natAt a.image (64 + 20 * (128 * i + j)) 20
      x % 2 ^ 112 = e.window.toNat ∧ x / 2 ^ 112 % 2 ^ 11 = unsigned 11 e.eseen ∧ x / 2 ^ 123 % 2 ^ 20 = e.spill % 2 ^ 20 ∧
        bitOf x 143 = e.nan ∧ bitOf x 144 = e.pinf ∧ bitOf x 145 = e.ninf ∧ bitOf x 146 = e.poison ∧ bitOf x 147 = e.negz ∧
        ∀ loc, a.kcount < 2 ^ 48 → (∀ o st, a.ploc = some (o, st) → o < 2 ^ 25) →
          let b := Acc.ofImage (a.image.map fun y => (y, false)) loc
          b.kcount = a.kcount ∧ b.compat = a.compat ∧ b.int32 = (a.compat && a.int32) ∧ b.ploc = a.ploc ∧
          (a.compat = false → -1024 ≤ e.eseen → e.eseen < 1024 → e.spill < 2 ^ 20 → b.get i j = e) ∧
          (a.compat = true → (b.get i j).window.toNat = e.window.toNat % 2 ^ 32 ∧ (b.get i j).poison = e.poison)

/-! ### The update (R104 to R117) -/

/-- `upd` and `updf` by the outcome of their checks: a poisoned table word, which ends them with ST_UNCORRECTABLE (the model's choice, log
entry 28), a stale schedule, a wait for the seal, a group that rests, a tile outside this chip's shard, a tile of it, and the shard's fold
or its wait for tiles.
The effect of a tile on memory, where no all-gather starts with it: the rule of R109 on what the instruction reads gives the weights, the
moments and the partials of rows and columns, each stored in its bank at the addresses of the table's entry, and nothing else is stored;
STL_UPD_CLIPPED and STL_UPD_NONFINITE count it. The effect of a fold whose words are not poisoned: the new statistics in the bank of the
step, and FOLD_ATTEMPT, with which FOLDS_DONE counts one more, unless this attempt has folded already (R112); where the step is ready with it, its mirrors may store more.
The model's choices: that the memory is read and written as the instruction is issued (log entry 6) and nothing happens where no unit takes
it (log entry 5); STL_UPD_CLIPPED of a tile with poisoned words (log entry 98); and that a poisoned FOLD_ATTEMPT, TILE_ATTEMPT or TILE_COUNT
is read as it is stored (log entry 96). -/
def Obligations.UpdateInstructionOutcomes : Prop :=
  ∀ (s : State) (h : Hdr) (sa sb : SReg) (tg : TReg) (f : Fmt), UnitReady s h .vector .writes true → GuardOn s h → updOk f = true →
    let st := stallOf s h
    let n := h.stall
    let c := st.context
    let step := bitsOf st.s[sa].toNat 0 32
    let g := bitsOf st.s[sa].toNat 32 12
    let I := bitsOf st.s[sb].toNat 0 24
    let J := bitsOf st.s[sb].toNat 24 24
    let s0 : State := { s.issued h.stall 2 with actor := some (updActor h.stall st.nextSeq), refusing := some [] }
    let l := (s0.latch c step g h.stall.val).2
    let s1 := (s0.latch c step g h.stall.val).1
    let chk := updCheck l.gen (BitVec.ofNat 32 step) (s1.sealed c)
    let sh := s1.shard c g l.e.flags l.e.rows l.e.cols
    let upd := exec (.upd h sa sb tg f) s
    let updf := exec (.updf h sa) s
    (l.bad.isSome → IssuesWith s h .vector 9 0 upd (fun _ r => r.status = .uncorrectable ∧ r.wrote = false) ∧
      IssuesWith s h .vector 9 1 updf (fun _ r => r.status = .uncorrectable ∧ r.wrote = false)) ∧
    (l.bad = none → chk = .stale →
      IssuesWith s h .vector 9 0 upd (fun t r => r.status = .staleSchedule ∧ Counted s1 t (.stlUpdStale h.stall) 1 ∧ Stored s t []) ∧
      IssuesWith s h .vector 9 1 updf (fun t r => r.status = .staleSchedule ∧ Counted s1 t (.stlUpdStale h.stall) 1 ∧ Stored s t [])) ∧
    (l.bad = none → chk = .wait →
      IssuesWith s h .vector 9 0 upd (fun t r => r.kind = .update (some (.seal st.s[sa] st.s[sb] st.t[tg] f)) ∧ Stored s t []) ∧
      IssuesWith s h .vector 9 1 updf (fun t r => r.kind = .update (some (.foldSeal st.s[sa])) ∧ Stored s t [])) ∧
    (l.bad = none → chk = .go → l.e.idle (BitVec.ofNat 32 step) = true →
      IssuesWith s h .vector 9 0 upd (fun t r => r.kind = .update none ∧ r.wrote = false ∧ Counted s1 t (.stlUpdSkipped h.stall) 1 ∧
        (l.expected ≠ 0 → Stored s t [])) ∧
      IssuesWith s h .vector 9 1 updf (fun t r => r.kind = .update none ∧ r.wrote = false ∧ (l.expected ≠ 0 → Stored s t []))) ∧
    (l.bad = none → chk = .go → l.e.idle (BitVec.ofNat 32 step) = false → l.expected ≠ 0 →
      ((sh.owns g I && decide (J < sh.nJ)) = false →
        IssuesWith s h .vector 9 0 upd (fun t r => r.wrote = false ∧ t.tiles = s.tiles ∧ Counted s1 t (.stlUpdOutside h.stall) 1 ∧
          Stored s t [])) ∧
      ((sh.owns g I && decide (J < sh.nJ)) = true →
        let i := s1.tileRead n c step g l.e sh I J st.t[tg] f
        let o := i.2.x.run
        IssuesWith s h .vector 9 0 upd (fun t r => r.wrote = true ∧
          (r.status = if i.2.bad.isSome || i.2.badVa.isSome then .uncorrectable else .ok) ∧
          (s1.dataGroup c = none ∨ sh.L ≤ 1 →
            Stored s t (storedBy c n.val (i.1.tileCount n i.2.nonfinite o) (tileStores l.e sh step I J o)) ∧
            Counted i.1 t (.stlUpdClipped n) (if o.clipped then 1 else 0) ∧ Counted i.1 t (.stlUpdNonfinite n) i.2.nonfinite))) ∧
      (sh.hasTiles = true →
        let done := s1.tilesDone c h.stall sh l.e.scratch
        (done.2 = false → IssuesWith s h .vector 9 1 updf (fun t r =>
          r.kind = .update (some (.tiles st.s[sa] step g l.expected l.e sh)) ∧ Stored s t [])) ∧
        (done.2 = true →
          let i := done.1.foldRead n c step g l.e sh
          let s2 := i.1.srCount n i.2.stats
          let s3 := s2.writeCtx c (foldStores l.e step i.2.out) n.val
          let a := s3.fld (.stlUpdProgress c) F.stlUpdProgress_ATTEMPT
          let fa := s3.readCtx c (vaRange (l.e.scratch + 8) 4) n.val
          let again := decide ((memEl 4 fa.2 0).1 = a)
          let folds := fun (x : State) => x.fld (.stlUpdProgress c) F.stlUpdProgress_FOLDS_DONE
          IssuesWith s h .vector 9 1 updf (fun t r => r.kind = .update none ∧
            (i.2.bad.isSome → r.status = .uncorrectable ∧ folds t = folds s ∧
              Stored s t (storedBy c n.val s2 [foldStores l.e step i.2.out])) ∧
            (i.2.bad = none → r.status = .ok ∧ folds t = (if again then folds s else (folds s + 1) % 2 ^ 13) ∧
              (again = true ∨ (folds s + 1) % 2 ^ 13 ≠ l.expected → Stored s t (storedBy c n.val s2 [foldStores l.e step i.2.out] ++
                if again then [] else storedBy c n.val fa.1 [writes32 (l.e.scratch + 8) [a]])))))))

/-! ### The data mover and the sequence slots (R140 to R146) -/

/-- Every MOVE instruction is issued to the data mover, in every space and shape; of the stalls only its own changes, by the
program counter and its record.
A length, ROW_BYTES or ROWS of 0 has no effect: the instruction is issued, and nothing else changes. -/
def Obligations.DataMoverIssues : Prop :=
  (∀ (s : State) (h : Hdr) (dsp ssp : Space) (sd ss sn sa sb sc se : SReg) (td ts : TReg),
      UnitReady s h .mover .writes → GuardOn s h →
      IssuesWith s h .mover 10 0 (exec (.dmCopy h dsp ssp sd ss sn) s) (fun _ r => r.status = .ok) ∧
      IssuesWith s h .mover 10 1 (exec (.dmLd2 h ssp td ss sn) s) (fun _ r => r.status = .ok) ∧
      IssuesWith s h .mover 10 2 (exec (.dmSt2 h dsp sd ts sn) s) (fun _ r => r.status = .ok) ∧
      IssuesWith s h .mover 10 3 (exec (.dmTt h td ts sn) s) (fun _ r => r.status = .ok) ∧
      IssuesWith s h .mover 10 4 (exec (.dmFill h dsp sd ss sn) s) (fun _ r => r.status = .ok) ∧
      IssuesWith s h .mover 11 2 (exec (.slotSend h ssp sa sb sc sd se) s) (fun _ r => r.status = .ok)) ∧
  (∀ (s : State) (h : Hdr) (dsp ssp : Space) (sd ss sn sa sb sc se : SReg) (td ts : TReg),
      UnitReady s h .mover .writes → GuardOn s h →
      let st := stallOf s h
      let x := st.s[sn].toNat
      let does := fun (o : Out) (cls op : Nat) => Leaves o fun t => Issued s t h (Passed st) (recordOf s h .mover cls op) noReg noByte
      (x % 2 ^ 40 = 0 → does (exec (.dmCopy h dsp ssp sd ss sn) s) 10 0 ∧ does (exec (.dmFill h dsp sd ss sn) s) 10 4) ∧
      (x % 2 ^ 16 < 16 ∨ x / 2 ^ 16 % 2 ^ 16 = 0 → does (exec (.dmLd2 h ssp td ss sn) s) 10 1 ∧
        does (exec (.dmSt2 h dsp sd ts sn) s) 10 2 ∧ does (exec (.dmTt h td ts sn) s) 10 3) ∧
      (st.s[sd].toNat % 2 ^ 32 = 0 → does (exec (.slotSend h ssp sa sb sc sd se) s) 11 2))

/-- Moves of bytes, where no error stands, no write is under way and no trace spills to memory.
Within a stall's own stores: `dm.copy` moves each byte, `dm.fill` repeats its pattern, `dm.tt` moves a row between two tiles.
Between any two spaces, and row by row for `dm.ld2`, `dm.st2` and `dm.tt`: where both sides lie on this chip each byte moves and every
other stays; bytes for another chip leave in BULK letters, and bytes of another chip are asked for by REQUESTs.
`slot.send` sends its bytes to a slot, in SLOT letters, from this chip or, by REQUESTs, from another. The sender leaves the slot's number
as it stands (log entry 114), and each access is performed as its instruction is issued (log entries 5 and 6): the model's choices. -/
def Obligations.LocalMovesCopyBytes : Prop :=
  (∀ (s : State) (h : Hdr) (sd ss sn : SReg) (td ts : TReg), UnitReady s h .mover .writes → GuardOn s h → Clean s → NoRing s →
    Sound s →
    let st := stallOf s h
    let n := h.stall
    let len := st.s[sn].toNat % 2 ^ 40
    let dst := fun k => stallBase n + (st.s[sd].toNat + k) % 0x800000
    let src := fun k => stableBase (stableOf n) + (st.s[ss].toNat + k) % 0x2000000
    let copied := fun (t : State) (N : Nat) (p q : Nat → Nat) =>
      (∀ k, k < N → Memory.read t.mem (q k) = Memory.read s.mem (p k)) ∧
      (∀ a, (∀ k, k < N → a ≠ q k) → Memory.read t.mem a = Memory.read s.mem a)
    (len ≤ 0x800000 → (∀ k, k < len → s.codeOwner (dst k) = none) →
      (∀ k, k < len → (st.s[ss].toNat + k) % 0x2000000 < 0x1C00000) →
      IssuesWith s h .mover 10 0 (exec (.dmCopy h .st .sb sd ss sn) s) (fun t _ => copied t len src dst)) ∧
    (len ≤ 0x800000 → (∀ k, k < len → s.codeOwner (dst k) = none) →
      IssuesWith s h .mover 10 4 (exec (.dmFill h .st sd ss sn) s) (fun t _ =>
        (∀ k, k < len → (Memory.read t.mem (dst k)).toNat = st.s[ss].toNat / 2 ^ (8 * (k % 8)) % 2 ^ 8) ∧
        ∀ a, (∀ k, k < len → a ≠ dst k) → Memory.read t.mem a = Memory.read s.mem a)) ∧
    (let d := Desc.of st.t[td]
     let e := Desc.of st.t[ts]
     let N := st.s[sn].toNat % 2 ^ 16 / 16 * 16
     d.stable = false → e.stable = true → st.s[sn].toNat / 2 ^ 16 % 2 ^ 16 = 1 → N ≤ d.pitch → N ≤ e.pitch →
      d.base + N ≤ 0x800000 → e.base + N ≤ 0x1C00000 → (∀ k, k < N → s.codeOwner (stallBase n + d.base + k) = none) →
      IssuesWith s h .mover 10 3 (exec (.dmTt h td ts sn) s) (fun t _ =>
        copied t N (fun k => stableBase (stableOf n) + e.base + k) (fun k => stallBase n + d.base + k)))) ∧
  ∀ (s : State) (h : Hdr) (dsp ssp : Space) (sa sb sc sd se ss sn : SReg) (td ts : TReg), UnitReady s h .mover .writes → GuardOn s h →
    Clean s → NoRing s → Sound s →
    let st := stallOf s h
    let n := h.stall
    let c := st.context
    let s0 := moverState s h
    let x := st.s[sn].toNat
    let len := x % 2 ^ 40
    let rb := x % 2 ^ 16 / 16 * 16
    let each := (List.range (x / 2 ^ 16 % 2 ^ 16))
    let line := fun (y : BitVec 64) i => y + BitVec.ofNat 64 (i * (x / 2 ^ 32))
    let moved := fun (o : Out) (op : Nat) (rows : List (Sym × Sym × Nat)) =>
      let all := (s0.moveSides h rows).2
      rows ≠ [] → (∀ r ∈ rows, r.2.2 ≠ 0) → IssuesWith s h .mover 10 op o fun t _ =>
        ((∀ e ∈ all, (∃ as, e.1.1 = .mem as) ∧ ∃ ds, e.1.2 = .mem ds) →
          MovedBytes s t (all.flatMap fun e => match e.1 with | (.mem as, .mem ds) => as.zip ds | _ => [])) ∧
        ∀ e ∈ all,
          (∀ as chip va, e.1 = (.mem as, .remote chip va) →
            Letters s t h chip .bulk as.length (fun off => (va + off) % 2 ^ 48) (fun k => readAt s (as.getD k none))) ∧
          ∀ chip va y, e.1 = (.remote chip va, y) → Letters s t h chip .request e.2 (fun off => (va + off) % 2 ^ 48) (fun _ => 0)
    moved (exec (.dmCopy h dsp ssp sd ss sn) s) 0 (if len = 0 then [] else [(s.side n ssp st.s[ss] len, s.side n dsp st.s[sd] len, len)]) ∧
    moved (exec (.dmLd2 h ssp td ss sn) s) 1
      (each.map fun i => (s.side n ssp (line st.s[ss] i) rb, tileRow n (Desc.of st.t[td]) i rb, rb)) ∧
    moved (exec (.dmSt2 h dsp sd ts sn) s) 2
      (each.map fun i => (tileRow n (Desc.of st.t[ts]) i rb, s.side n dsp (line st.s[sd] i) rb, rb)) ∧
    moved (exec (.dmTt h td ts sn) s) 3
      (each.map fun i => (tileRow n (Desc.of st.t[ts]) i rb, tileRow n (Desc.of st.t[td]) i rb, rb)) ∧
    (len ≠ 0 →
      let y := s.side n dsp st.s[sd] len
      let ds := ((s0.countRsvd y.storeAddrs).resolve c n true [y]).2
      let pat := fun k => BitVec.ofNat 8 (st.s[ss].toNat / 2 ^ (8 * (k % 8)))
      IssuesWith s h .mover 10 4 (exec (.dmFill h dsp sd ss sn) s) fun t _ =>
        (∀ as, ds = [.mem as] → (as.filterMap id).Nodup →
          (∀ d, some d ∈ as → s.codeOwner d = none ∧ rsvdOwner d = none) →
          (∀ k d, as[k]? = some (some d) → backed d = true → Memory.read t.mem d = pat k) ∧
          ∀ a, some a ∉ as → Memory.read t.mem a = Memory.read s.mem a) ∧
        ∀ chip va, ds = [.remote chip va] → Letters s t h chip .bulk len (fun off => (va + off) % 2 ^ 48) pat) ∧
    (let n1 := st.s[sd].toNat % 2 ^ 32
     let y := s.side n ssp st.s[sc] n1
     let xs := ((s0.countRsvd y.storeAddrs).resolve c n false [y]).2
     let chip := BitVec.ofNat 14 st.s[sb].toNat
     n1 ≠ 0 → s.fld (.hstLoadRec1 c) F.hstLoadRec1_SLOT_COUNT ≠ 0 →
      IssuesWith s h .mover 11 2 (exec (.slotSend h ssp sa sb sc sd se) s) fun t _ =>
        (∀ as, xs = [.mem as] → Letters s t h chip .slot n1
          (fun off => st.s[sa].toNat % 4096 + (st.s[se].toNat % 2 ^ 32 + off) % 2 ^ 32 * 4096) (fun k => readAt s (as.getD k none))) ∧
        ∀ chip' va, xs = [.remote chip' va] → Letters s t h chip' .request n1 (fun off => (va + off) % 2 ^ 48) (fun _ => 0))

/-- `slot.bind` writes a slot's entry, or unbinds it where its stash may not lie there; `slot.free` unbinds it; `slot.stat` takes what the
table holds as it is issued (the model's choice, log entry 6), and its register takes that at its retire point; in an empty range none of them has an effect. -/
def Obligations.SlotTableInstructions : Prop :=
  ∀ (s : State) (h : Hdr) (sa sb sc sd : SReg) (nctr : CReg) (nen : Bool), UnitReady s h .mover .none → GuardOn s h →
    let st := stallOf s h
    let rec1 := Reg.hstLoadRec1 st.context
    let count := s.fld rec1 F.hstLoadRec1_SLOT_COUNT
    let j : Fin 4096 := Fin.ofNat 4096 (s.fld rec1 F.hstLoadRec1_SLOT_BASE + st.s[sa].toNat % count)
    let cw := st.s[sc].toNat
    let ok := s.slotUnitOk st.context (cw / 2 ^ 32 % 4) (cw / 2 ^ 34 % 2 ^ 7)
    let slot := fun r => r = .soSlot j 0 ∨ r = .soSlot j 1 ∨ r = .soSlot j 2
    let does := fun (o : Out) (op : Nat) (R : Reg → Prop) (P : State → Flight → Prop) => Leaves o fun t =>
      ∃ r, Heads s h .mover 11 op r ∧ P t r ∧ Issued s t h (Passed st) r R noByte
    (count = 0 → does (exec (.slotBind h sa sb sc sd nctr nen) s) 0 noReg (fun _ r => r = recordOf s h .mover 11 0) ∧
      does (exec (.slotFree h sa) s) 1 noReg (fun _ r => r = recordOf s h .mover 11 1) ∧
      does (exec (.slotStat h sd sa) s) 3 noReg (fun _ r => r = recordOf s h .mover 11 3)) ∧
    (count ≠ 0 → ok = true → does (exec (.slotBind h sa sb sc sd nctr nen) s) 0 slot (fun t r =>
      t.slotBound j = true ∧ t.fld (.soSlot j 0) SlotF.base = st.s[sb].toNat % 2 ^ 48 ∧
      t.fld (.soSlot j 1) SlotF.size = cw % 2 ^ 32 ∧ t.fld (.soSlot j 1) SlotF.expect = st.s[sd].toNat % 2 ^ 32 ∧
      t.fld (.soSlot j 2) SlotF.arrived = 0 ∧ t.fld (.soSlot j 2) SlotF.bstall = h.stall.val ∧
      t.fld (.soSlot j 2) SlotF.nctr = nctr.val ∧
      r.tallies = if st.s[sd].toNat % 2 ^ 32 = 0 ∧ nen = true then [nctr] else [])) ∧
    (count ≠ 0 → ok = false → does (exec (.slotBind h sa sb sc sd nctr nen) s) 0 (fun r => slot r ∨ r = .soSlotBadbind)
      (fun t _ => t.slotBound j = false ∧ t.fld (.soSlot j 2) SlotF.arrived = 0 ∧ Counted s t .soSlotBadbind 1)) ∧
    (count ≠ 0 → does (exec (.slotFree h sa) s) 1 slot (fun t _ =>
      t.slotBound j = false ∧ t.fld (.soSlot j 0) SlotF.full = 0 ∧ t.fld (.soSlot j 2) SlotF.arrived = 0)) ∧
    (count ≠ 0 → does (exec (.slotStat h sd sa) s) 3 noReg (fun _ r => r.sWrites = [(sd, BitVec.allOnes 64,
      BitVec.ofNat 64 (s.fld (.soSlot j 0) SlotF.bound + s.fld (.soSlot j 0) SlotF.full * 2 +
        s.fld (.soSlot j 2) SlotF.arrived * 2 ^ 32))]))

/-! ### The sync unit (R156 to R169) -/

/-- `tadd` and `tset` change a counter modulo 2^32; a tally wait retires at once where the counter has reached its target, serially
compared, and otherwise holds issue; a fence with nothing outstanding retires, and otherwise holds issue; `ewait` counts an arrival
and holds issue.
The ends of the sync unit's waits: a tally that has been reached, a fence with nothing outstanding, and a barrier's generation
that every participant has reached retire, and issue goes on; before that nothing changes. A barrier's generation ends the waits of all its
participants at once, and of no other stall.
That a fence waits for an access until the retire point of its instruction, and no less, is the model's choice (log entry 8). -/
def Obligations.SyncUnitResultsAndWaits : Prop :=
  (∀ (s : State) (h : Hdr) (cn : CReg) (v : BitVec 32) (sa : SReg) (scope : FenceScope) (grp : Fin 4) (evt : Fin 64),
      Ready s h .sync → GuardOn s h →
      let st := stallOf s h
      let met := fun (x : BitVec 32) => (st.c[cn] - x).toNat < 2 ^ 31
      let waits := fun (o : Out) (w : Wait) => Leaves o fun t => OnlyStall h.stall noReg noByte s t ∧
        t.stall h.stall = { Passed st with wait := some w, waitPc := st.pc, waitSince := s.stampNow, waitCycles := 0 }
      SeqDoes s h (exec (.tadd h cn v) s) { Passed st with c := st.c.set cn (st.c[cn] + v) } ∧
      SeqDoes s h (exec (.tset h cn v) s) { Passed st with c := st.c.set cn v } ∧
      (met v → SeqDoes s h (exec (.twait h cn v) s) (Passed st)) ∧
      (¬ met v → waits (exec (.twait h cn v) s) (.tally h cn v)) ∧
      (met (BitVec.ofNat 32 st.s[sa].toNat) → SeqDoes s h (exec (.twaits h cn sa) s) (Passed st)) ∧
      (¬ met (BitVec.ofNat 32 st.s[sa].toNat) → waits (exec (.twaits h cn sa) s) (.tally h cn (BitVec.ofNat 32 st.s[sa].toNat))) ∧
      (∀ e ∈ ([(.fenceAcq h scope grp, .acq), (.fenceRel h scope grp, .rel), (.fenceFull h scope grp, .full)] : List (Instr × FenceKind)),
        (s.fenceHeld h.stall e.2 scope grp st.nextSeq = true → waits (exec e.1 s) (.fence h e.2 scope grp st.nextSeq)) ∧
        (s.fenceHeld h.stall e.2 scope grp st.nextSeq = false → Leaves (exec e.1 s) fun t =>
          Retired s t h (Passed st) (fun r => r = .stlSyncFences h.stall) noByte ∧ Counted s t (.stlSyncFences h.stall) 1)) ∧
      (Leaves (exec (.ewait h evt) s) fun t => OnlyStall h.stall noReg noByte s t ∧
        t.stall h.stall = { Passed st with arrivals := AMap.set evt (AMap.get 0 evt st.arrivals + 1) st.arrivals,
                                           wait := some (.barrier h evt (AMap.get 0 evt st.arrivals + 1)), waitPc := st.pc,
                                           waitSince := s.stampNow, waitCycles := 0 })) ∧
  (∀ (s : State) (n : Fin 128) (h : Hdr), s.dieUp = true → (s.stall n).running = true → s.yardRuns (yardOf n) = true →
      (s.stall n).halting = none → h.stall = n →
      let st := s.stall n
      let done := fun (o : Out) (R : Reg → Prop) => Leaves o fun t =>
        t.stall n = { { st with wait := none, waitCycles := 0 }.tally h.ten h.tc with lastRetire := s.frankNs } ∧ Counted s t (.stlSeqRetired n) 1 ∧
        OnlyStall n (fun r => r = .stlSeqRetired n ∨ R r) noByte s t
      (∀ cn target, st.wait = some (.tally h cn target) →
        (tallyMet st.c[cn] target = true → done (exec (.tallyWaitSatisfied n) s) noReg) ∧
        (tallyMet st.c[cn] target = false → exec (.tallyWaitSatisfied n) s = .next s)) ∧
      (∀ k scope grp u, st.wait = some (.fence h k scope grp u) →
        (s.fenceHeld n k scope grp u = false → done (exec (.fenceRetire n) s) (fun r => r = .stlSyncFences n)) ∧
        (s.fenceHeld n k scope grp u = true → exec (.fenceRetire n) s = .next s)) ∧
      (∀ evt g, st.wait = some (.barrier h evt g) →
        let team := s.barrierTeam n evt
        let ends := fun m => m ∈ team ∧ (s.stall m).running = true ∧ ∃ h' k, (s.stall m).wait = some (.barrier h' evt k) ∧ k ≤ g
        ((∃ m ∈ team, s.arrived m evt < g) → exec (.barrierGenerationComplete n) s = .next s) ∧
        ((∀ m ∈ team, g ≤ s.arrived m evt) → team.Nodup → (∀ m ∈ team, (s.stall m).halting = none) →
          Leaves (exec (.barrierGenerationComplete n) s) fun t =>
            (∀ m h' k, m ∈ team → (s.stall m).running = true → (s.stall m).wait = some (.barrier h' evt k) → k ≤ g →
              t.stall m = { { s.stall m with wait := none, waitCycles := 0 }.tally h'.ten h'.tc with lastRetire := s.frankNs } ∧
              Counted s t (.stlSeqRetired m) 1 ∧ Counted s t (.stlSyncArrivals m) 1) ∧
            (∀ m, ¬ ends m → t.stall m = s.stall m) ∧
            OnlyRegs (fun r => ∃ m, ends m ∧ (r = .stlSeqRetired m ∨ r = .stlSyncArrivals m)) s t ∧
            ∀ a, ¬ inRing s a → Memory.read t.mem a = Memory.read s.mem a)))

/-! ### Collective operations (R264 to R296) -/

/-- Every COLL instruction is issued to the data mover with its group; on a group that cannot be used its record holds
ST_PEER_LOST, CE_PEER_LOST counts it, and nothing else changes.
A group of one member moves no letter: a reduction, a scatter, a gather, an exchange or a tree copies its buffer within the chip, byte
by byte, and has no operation outstanding; with more members the operation takes its place behind the others.
One that may start at once, on a ring, sends its letters: an exchange sends the bytes of each block to the block's member, and an
all-gather sends the letters of this member's chunk to the next member of each half. That a block of an exchange is rounded down to 64 bytes
(log entry 120), and that the offset of its pieces travels in TARGET[63:32] (log entry 32), are the model's choices. Stated where no error stands, no write is under
way, nothing else waits in the post and no trace spills to memory. -/
def Obligations.CollectiveIssues : Prop :=
  (∀ (s : State) (h : Hdr) (g : Fin 4) (sa sb sc : SReg) (td : TReg), UnitReady s h .mover .writes → GuardOn s h →
      let c := (stallOf s h).context
      let lost := fun (o : Out) (op : Nat) (grp : Fin 4) => Leaves o fun t => Issued s t h (Passed (stallOf s h))
        { recordOf s h .mover 13 op with kind := .coll grp, status := .peerLost } (fun r => r = .cePeerLost) noByte ∧
        Counted s t .cePeerLost 1
      (∀ e ∈ ([(.collReduce h g sa sb sc, 0), (.collRscat h g sa sb sc, 1), (.collAgath h g sa sb sc, 2), (.collA2a h g sa sb sc, 3),
          (.collCirc h g sa sb sc, 4), (.collTree h g sa sb sc, 5)] : List (Instr × Nat)),
        IssuesWith s h .mover 13 e.2 (exec e.1 s) (fun _ r => r.kind = .coll g) ∧
        (s.grpUsable c g = false → lost (exec e.1 s) e.2 g)) ∧
      (∀ d, s.dataGroup c = some d →
        IssuesWith s h .mover 13 6 (exec (.collWgtile h g sa sb sc td) s) (fun _ r => r.kind = .coll d) ∧
        (s.grpUsable c d = false → lost (exec (.collWgtile h g sa sb sc td) s) 6 d)) ∧
      (s.dataGroup c = none → lost (exec (.collWgtile h g sa sb sc td) s) 6 g)) ∧
  (∀ (s : State) (h : Hdr) (g : Fin 4) (sa sb sc : SReg), UnitReady s h .mover .writes → GuardOn s h →
      let st := stallOf s h
      let c := st.context
      s.grpUsable c g = true →
      ∀ e ∈ ([(.collReduce h g sa sb sc, .reduce, 0), (.collRscat h g sa sb sc, .rscat, 1), (.collAgath h g sa sb sc, .agath, 2),
          (.collA2a h g sa sb sc, .a2a, 3), (.collTree h g sa sb sc, .tree, 5)] : List (Instr × CollKind × Nat)),
        (s.grpLen c g = 1 → IssuesWith s h .mover 13 e.2.2 (exec e.1 s) (fun t r =>
          r.collOp = none ∧ r.status = .ok ∧ t.collOps = s.collOps ∧ t.postQ = s.postQ ∧ t.outstanding = s.outstanding)) ∧
        (s.grpLen c g ≠ 1 → 16 ≤ (s.collOps.filter fun x => x.ctx = c && x.grp = g && x.started && !x.keyed).length →
          IssuesWith s h .mover 13 e.2.2 (exec e.1 s) (fun t r => r.collOp = some s.nextId ∧
            ∃ o : CollOp, t.collOps = s.collOps ++ [o] ∧ o.id = s.nextId ∧ o.kind = e.2.1 ∧ o.ctx = c ∧ o.grp = g ∧
              o.stall = h.stall ∧ o.seq = st.nextSeq ∧ o.started = false ∧ o.tag = st.s[sc].toNat / 2 ^ 32 % 2 ^ 12))) ∧
  ∀ (s : State) (h : Hdr) (g : Fin 4) (sa sb sc : SReg), UnitReady s h .mover .writes → GuardOn s h →
    Clean s → NoRing s → Sound s →
    let st := stallOf s h
    let n := h.stall
    let c := st.context
    let s0 := moverState s h
    let L := s.grpLen c g
    let tree := s.flag (.ceGrpCtrl c g) F.ceGrpCtrl_SHAPE
    let bytes := fun (b : CollBuf) => b.els ++ b.scales
    let B := st.s[sc].toNat % 2 ^ 32 / 64 * 64
    let tag := st.s[sc].toNat / 2 ^ 32 % 2 ^ 12
    let key := fun chip => (⟨chip, .coll, s.jobTag c⟩ : StreamKey)
    s.grpUsable c g = true →
    (L = 1 → ∀ e ∈ ([(.collReduce h g sa sb sc, .reduce), (.collRscat h g sa sb sc, .rscat), (.collAgath h g sa sb sc, .agath),
        (.collTree h g sa sb sc, .tree)] : List (Instr × CollKind)),
      let y := Layout.of st.s[sc] 1
      let own := if tree then (0, y.count) else chunkOf y.count 1 (s.grpPos c g)
      let part := fun (k : CollKind) => if e.2 = k then own else (0, y.count)
      let a := s0.collBuf c n st.s[sa] y.fmt (part .agath).1 (part .agath).2 false
      let b := a.1.collBuf c n st.s[sb] y.fmt (part .rscat).1 (part .rscat).2 true
      Leaves (exec e.1 s) fun t => MovedBytes s t ((bytes a.2).zip (bytes b.2))) ∧
    (let a := s0.collBuf c n st.s[sa] .i8 0 (L * B) false
     let b := a.1.collBuf c n st.s[sb] .i8 0 (L * B) true
     (L = 1 → Leaves (exec (.collA2a h g sa sb sc) s) fun t => MovedBytes s t ((bytes a.2).zip (bytes b.2))) ∧
     (L ≠ 1 → tree = false → s.postQ = [] →
       (s.collOps.filter fun x => x.ctx = c && x.grp = g && x.started && !x.keyed).length < 16 →
       (s.collOps.any fun x => x.ctx = c && x.grp = g && x.started && !x.keyed && x.tag = tag) = false →
       (∀ o ∈ s.collOps, o.id < s.nextId) →
       (∀ x ∈ bytes a.2, ∀ y ∈ bytes b.2, x = none ∨ x.map wordOf ≠ y.map wordOf) →
       ∀ q k, q < L → q ≠ s.grpPos c g → 4096 * k < B → Leaves (exec (.collA2a h g sa sb sc) s) fun t =>
         Posted t (.coll s.nextId) (key (s.member c g q)) fun lt =>
           lt.dest = s.member c g q ∧ lt.src = s.chip ∧ lt.cls = .coll ∧ lt.op = 3 ∧ lt.length = min 4096 (B - 4096 * k) ∧
           lt.target.toNat = collTarget g tag 3 0 (s.grpPos c g) false + 4096 * k * 2 ^ 32 ∧
           ∀ j, j < lt.length → lt.body.getD j 0 = readAt s (a.2.els.getD (q * B + 4096 * k + j) none))) ∧
    (let y := Layout.of st.s[sc] L
     let next := fun (half : Nat) => s.member c g (if half = 0 then (s.grpPos c g + 1) % L else (s.grpPos c g + L - 1) % L)
     let count := fun (half : Nat) =>
       (halfOf (chunkOf y.count L (s.grpPos c g)).1 (chunkOf y.count L (s.grpPos c g)).2 half).2
     L ≠ 1 → tree = false → s.postQ = [] → s.grpPos c g < L →
       (s.collOps.filter fun x => x.ctx = c && x.grp = g && x.started && !x.keyed).length < 16 →
       (s.collOps.any fun x => x.ctx = c && x.grp = g && x.started && !x.keyed && x.tag = tag) = false →
       (∀ o ∈ s.collOps, o.id < s.nextId) →
       ∀ half k, half < 2 → perLetter y.fmt 1 * k < count half → Leaves (exec (.collAgath h g sa sb sc) s) fun t =>
         Posted t (.coll s.nextId) (key (next half)) fun lt =>
           lt.dest = next half ∧ lt.src = s.chip ∧ lt.cls = .coll ∧ lt.op = 2 ∧ lt.length = 4096 ∧
           lt.target.toNat = collTarget g tag 1 half (s.grpPos c g) false ∧ natAt lt.body 4032 4 = k)

/-! ### The ends of issued instructions (R128, R313) -/

/-- An instruction of a unit that may end and has no fault retires: its record goes, the writes that waited for the retire point
land, its tally advances, its events and it are counted. One that has a fault ends with it: no tally advances, its events alone are
counted, and the stall stops.
Where its results are undefined in value, since a write that is not ordered behind it has overlapped what it reads, it ends all the same,
and raises no fault for that: the registers that it writes, and the bytes that it has written and no access has found performed, hold
other values, and nothing else does (R16). That these are the instructions so affected is the model's choice (log entry 6). -/
def Obligations.UnitInstructionsEnd : Prop :=
  ∀ (s : State) (n : Fin 128) (u : StallUnit) (i : Nat) (f : Flight), ((s.stall n).unitFlights u)[i]? = some f →
    s.mayEnd n f i = true →
    let st := s.stall n
    let ends := fun (x : Stall) => { ((f.tallies.foldl (fun x c => x.advance c 1) x).tally f.ten f.tc) with lastRetire := s.frankNs }
    let events := fun (t : State) => ∀ e, Counted s t (StallEvent.reg n e) (eventsOf f e)
    let counters := fun r => ∃ e, r = StallEvent.reg n e
    let own := fun b => ∃ c ∈ s.racing, c.word ≤ b ∧ b < c.word + 8 ∧ ∃ w ∈ c.writes, w.actor = f.actor n
    (statusRetires f.status = true → f.kind = .plain → f.dest = none → f.collOp = none → st.halting = none →
      Leaves (exec (.instructionRetire n u i) s) fun t =>
        Counted s t (.stlSeqRetired n) 1 ∧ events t ∧
        (¬ Undefined s n f → t.stall n = ends ((st.drop f.seq).land f) ∧
          OnlyStall n (fun r => r = .stlSeqRetired n ∨ counters r) noByte s t) ∧
        (Undefined s n f → OnlyRegs (fun r => r = .stlSeqRetired n ∨ counters r) s t ∧ (∀ m, m ≠ n → t.stall m = s.stall m) ∧
          (∀ b, ¬ inRing s b → ¬ own b → Memory.read t.mem b = Memory.read s.mem b) ∧
          ∃ (S : Vector (BitVec 64) 32) (V : Vector (BitVec 2048) 32) (P Q : Vector (BitVec 256) 8) (A : Vector Acc 2),
            t.stall n = { ends (st.drop f.seq) with s := S, v := V, p := P, vp := Q, acc := A } ∧
            (∀ r : SReg, (∀ w ∈ f.sWrites, w.1 ≠ r) → S[r] = st.s[r]) ∧ (∀ r : VReg, f.lands ≠ some (.vreg r) → V[r] = st.v[r]) ∧
            (∀ r : PReg, (∀ w, f.pWrite = some w → w.1 ≠ r) → P[r] = st.p[r] ∧ Q[r] = st.vp[r]) ∧
            ∀ x : Fin 2, f.lands ≠ some (.clear x) → (∀ M N, f.lands ≠ some (.acc x M N)) → A[x] = st.acc[x])) ∧
    (statusRetires f.status = true → s.collReady f = true → Leaves (exec (.instructionRetire n u i) s) fun t =>
      ∀ x ∈ (t.stall n).flights, x.seq ≠ f.seq) ∧
    (statusRetires f.status = false → Leaves (exec (.instructionFault n u i) s) fun t =>
      (t.stall n).running = false ∧ (t.stall n).c = st.c ∧ t.rd (.stlSeqRetired n) = s.rd (.stlSeqRetired n) ∧
      (∀ x ∈ (t.stall n).flights, x.seq ≠ f.seq) ∧ events t ∧
      ∀ b, ¬ inRing s b → ¬ (Undefined s n f ∧ own b) → Memory.read t.mem b = Memory.read s.mem b) ∧
    (statusRetires f.status = true → exec (.instructionFault n u i) s = .next s) ∧
    (statusRetires f.status = false → f.collOp = none → exec (.instructionRetire n u i) s = .next s)

/-! ### Commands that end waits of the update and of the watch (R60 to R65, R104, R110, R112) -/

/-- An update that waited for a seal goes on once its step may, and an `updf` once its shard's tiles are complete: its record
becomes that of the effect, no other record changes, and where it waits no more its cycles of waiting have ended. A tile is complete once its `upd` has retired and its gather has reached
every replica: it leaves the list, and is counted again where its mark already holds the attempt.
A sample whose destination format is settled is counted and leaves the watch; where it has no shadow, every element of the
array that differs from the sum of its own operands is a mismatch. FREEZE holds every count.
The model's choices decide some clauses: when a sample's destination format is settled (log entry 21), the overflow mode of its rounding
(log entry 92), and the use of a poisoned mark as stored (log entry 96). -/
def Obligations.UpdateWaitsAndWatchSamples : Prop :=
  (∀ (s : State) (n : Fin 128) (f : Flight), s.dieUp = true → s.yardRuns (yardOf n) = true →
      let st := s.stall n
      let c := st.context
      let held := fun (sa : BitVec 64) => BitVec.ofNat 32 (bitsOf sa.toNat 0 32) = s.sealed c + 2
      let ends := fun (o : Out) (p : State × Flight) => Leaves o fun t =>
        p.2.seq = f.seq ∧ OnlyRegs noReg p.1 t ∧ (∀ a, ¬ inRing p.1 a → Memory.read t.mem a = Memory.read p.1.mem a) ∧
          t.tiles = p.1.tiles ∧
          t.stall n = { st with flights := st.flights.map fun x => if x.seq = f.seq then p.2 else x,
                                updCycles := if (t.stall n).updWaiting.isSome then st.updCycles else 0 } ∧
          ∀ m, m ≠ n → t.stall m = s.stall m
      let g := { f with kind := .update none, reads := [], writes := [] }
      let s0 : State := { s with actor := some (updActor n f.seq), refusing := some f.refused }
      (∀ sa sb d gf, st.updWaiting = some (f, .seal sa sb d gf) →
        (held sa → exec (.updSealWaitEnd n) s = .next s) ∧
        (¬ held sa → ends (exec (.updSealWaitEnd n) s) (s0.updStart n g sa sb d gf))) ∧
      (∀ sa, st.updWaiting = some (f, .foldSeal sa) →
        (held sa → exec (.updSealWaitEnd n) s = .next s) ∧
        (¬ held sa → ends (exec (.updSealWaitEnd n) s) (s0.updfStart n g sa))) ∧
      (∀ sa step gr ex e h, st.updWaiting = some (f, .tiles sa step gr ex e h) →
        ((s0.tilesDone c n h e.scratch).2 = false → exec (.updfTilesComplete n) s = .next s) ∧
        ((s0.tilesDone c n h e.scratch).2 = true →
          ends (exec (.updfTilesComplete n) s) ((s0.tilesDone c n h e.scratch).1.foldGroup n g c step gr ex e h))) ∧
      ∀ seq tl, (s.tiles.find? fun x => x.stall = n && x.seq = seq) = some tl → s.refusing = none →
        ((st.flights.any fun x => x.seq = seq) = true → exec (.tileComplete n seq) s = .next s) ∧
        ((st.flights.any fun x => x.seq = seq) = false → tl.gather = none →
          let s1 : State := { s with tiles := s.tiles.erase tl, refusing := some tl.pages }
          let r1 := s1.readCtx tl.ctx (vaRange tl.scratch 8) n.val
          let r2 := r1.1.readCtx tl.ctx (vaRange tl.mark 4) n.val
          Leaves (exec (.tileComplete n seq) s) fun t => t.tiles = s.tiles.erase tl ∧ t.stalls = s.stalls ∧
            ((memEl 4 r2.2 0).1 = s.fld (.stlUpdProgress tl.ctx) F.stlUpdProgress_ATTEMPT → Counted s t (.stlUpdRepeat n) 1) ∧
            ((memEl 4 r2.2 0).1 ≠ s.fld (.stlUpdProgress tl.ctx) F.stlUpdProgress_ATTEMPT →
              t.rd (.stlUpdRepeat n) = s.rd (.stlUpdRepeat n)))) ∧
  (∀ (s : State) (u : Fin 16) (x : WatchSample) (f : Fmt) (m : OvMode) (k : Option Kind), s.dieUp = true →
      (s.watch u).sample = some x → x.dest = some (f, m, k) →
      let out := roundGrid f m k x.kcount x.array
      let own := roundGrid f m k x.kcount x.own
      let bad := ((List.range x.m).map fun i => (List.range x.n).map fun j => (i, j)).flatten.filter fun p =>
        (own.getD p.1 []).getD p.2 (0, 0) ≠ (out.getD p.1 []).getD p.2 (0, 0)
      let nw := fun r => r = .stbNwSamples u ∨ r = .stbNwMismatch u ∨ r = .stbNwUlpSum u ∨ r = .stbNwUlpElems u ∨
        r = .stbNwUlpOver u ∨ r = .stbNwUlpMax u ∨ ∃ i, r = .stbNwHistA u i ∨ r = .stbNwHistB u i ∨ r = .stbNwHistC u i
      Does s (exec (.nwSampleComplete u) s) (fun r => s.watchFrozen u = false ∧ nw r) fun t =>
        t.watch u = { s.watch u with sample := none } ∧
        (s.watchFrozen u = false → Counted s t (.stbNwSamples u) 1 ∧
          (x.shadow = none → Counted s t (.stbNwMismatch u) bad.length)))

/-! ### The host (R8, R9, R297 to R301) -/

/-- An access by the host through BAR0: of a size other than 4 or 8, or misaligned, a write is discarded and counted, and a read answers
ones; at a reserved address, and where the unit does not answer, a write has no effect; at a plain register every field takes what its
access code says, through BAR0 and from the porter alike; MCTP acts as the porter while the host link is up, and not at all while it is
down. A write that clears the mask of an MSI-X vector takes its pending bit away; the
function's identity reads as the spec gives it; the porter reads and writes memory by its physical address, but for code and
reserved regions. The bytes are stated where no trace spills to memory, and of a read where no error stands.
The layout of the MSI-X table and of configuration space (log entry 50), that a reserved address reads 0 (log entry 51), and that one row
holds every access, a read where it carries no value (log entry 103), are the model's choices. -/
def Obligations.RegisterWrites : Prop :=
  ∀ (s : State) (addr size : Nat) (v : BitVec 64) (t16 : Fin 16) (p : Fin 8) (m : Fin 4) (u : Fin 1024) (i : Fin 260),
    let bar := 0xFF0000000000 ≤ addr ∧ addr < 0xFF0000000000 + 2 ^ 28
    let bad := (size ≠ 4 ∧ size ≠ 8) ∨ addr % size ≠ 0
    let w := exec (.registerWrite ⟨.bar0, addr⟩ size (some v)) s
    let only := fun (o : Out) => Leaves o fun t => t = { s with linkRx := s.linkRx + size, aonDie := t.aonDie }
    let reply := fun (o : Out) (bs : List Byte) => Leaves o fun t =>
      t = { s with hostOut := s.hostOut ++ replies (bs.map fun b => (b, false)), linkTx := s.linkTx + bs.length,
                   aonDie := t.aonDie }
    let at' := fun k => addr + k
    (bar → bad → s.dieUp = true →
      Sets s w (fun r => r = .hstBarErr) (fun t =>
        Counted s t .hstBarErr 1 ∧ t.irqs = s.irqs ++ [259] ∧ t.linkRx = s.linkRx + size) ∧
      reply (exec (.registerWrite ⟨.bar0, addr⟩ size none) s) (List.replicate size 0xFF)) ∧
    (s.dieUp = false → w = .next s ∧ exec (.registerWrite ⟨.bar0, addr⟩ size none) s = .next s) ∧
    (bar → ¬ bad → s.dieUp = true → Reg.ofAddr (addr / 8 * 8) = none → addr < 0xFF000FF00000 ∨ 0xFF000FF11000 ≤ addr →
      only w ∧ reply (exec (.registerWrite ⟨.bar0, addr⟩ size none) s) (List.replicate size 0)) ∧
    (∀ r, bar → ¬ bad → s.dieUp = true → addr < 0xFF000FF00000 → Reg.ofAddr (addr / 8 * 8) = some r →
      r.domain = .porter → s.aux = false → only w) ∧
    (∀ r ∈ ([.stbNwCtrl t16, .soPostCtrl, .soPortArb p, .soPortLimits p, .hstBar2Win, .hstSolo, .clkFrAsym p, .dbgTraceSrc u,
        .dbgTrigNet, .dbgTrig m, .hbaPoisonHead, .ptrPwrLimit, .ptrThermCtrl, .ptrStartCtrl] : List Reg),
      s.dieUp = true → s.aux = true → (r = .ptrStartCtrl → s.stage ≠ 1) →
        Sets s (exec (.registerWrite ⟨.bar0, r.addr⟩ 8 (some v)) s) (fun q => q = r) (fun t =>
          t.irqs = s.irqs ∧ t.linkRx = s.linkRx + 8 ∧ ∀ f ∈ r.fields, f.get (t.rd r) = fieldAfter f (s.rd r) v) ∧
        Sets s (exec (.registerWrite ⟨.porter, r.addr⟩ 8 (some v)) s) (fun q => q = r) fun t =>
          t.irqs = s.irqs ∧ t.linkRx = s.linkRx ∧ ∀ f ∈ r.fields, f.get (t.rd r) = fieldAfter f (s.rd r) v) ∧
    (s.dieUp = true → Leaves (exec (.registerWrite ⟨.bar0, 0xFF000FF00000 + 16 * i.val + 8⟩ 8 (some v)) s) fun t =>
      t = { s with msix := t.msix, msixPend := t.msixPend, linkRx := s.linkRx + 8, aonDie := t.aonDie } ∧
        t.msixMasked i.val = v.getLsbD 32 ∧ (v.getLsbD 32 = false → i.val ∉ t.msixPend) ∧
        ∀ k : Fin 260, k ≠ i → t.msixMasked k.val = s.msixMasked k.val ∧ (k.val ∈ t.msixPend ↔ k.val ∈ s.msixPend)) ∧
    (s.dieUp = true → reply (exec (.registerWrite ⟨.config, 0⟩ 4 none) s) [0x3C, 0x1F, 0x00, 0x8A]) ∧
    (∀ x, (s.aux = true → s.hostLink = true →
        exec (.registerWrite ⟨.mctp, addr⟩ size x) s = exec (.registerWrite ⟨.porter, addr⟩ size x) s) ∧
      (s.aux = false ∨ s.hostLink = false → exec (.registerWrite ⟨.mctp, addr⟩ size x) s = .next s)) ∧
    (s.aux = true → s.dieUp = true → ¬ bad → addr + size ≤ 0xFF0000000000 →
      (Leaves (exec (.registerWrite ⟨.porter, addr⟩ size (some v)) s) fun t => t.stalls = s.stalls ∧ t.linkRx = s.linkRx ∧
        (NoRing s → (∀ a, (∀ k, k < size → a ≠ at' k) → Memory.read t.mem a = Memory.read s.mem a) ∧
          (Sound s → Still s → ∀ k, k < size → Memory.read t.mem (at' k) =
            if backed (at' k) && (s.codeOwner (at' k)).isNone && (rsvdOwner (at' k)).isNone then BitVec.ofNat 8 (v.toNat / 2 ^ (8 * k))
            else Memory.read s.mem (at' k)))) ∧
      (Leaves (exec (.registerWrite ⟨.porter, addr⟩ size none) s) fun t => t.stalls = s.stalls ∧ t.linkTx = s.linkTx ∧
        (NoRing s → t.mem = s.mem) ∧ ∃ bs, t.porterOut = s.porterOut ++ [bs] ∧ bs.length = size ∧
        (NoRing s → Clean s → ∀ k, k < size →
          bs.getD k (0, true) = (if backed (at' k) then Memory.read s.mem (at' k) else 0, false))))

/-- A read through BAR2 answers with the bytes of the window that WIN names, and a write stores its bytes there, but for those of
a running program's code and of a reserved region; a reserved address reads 0. The bytes are stated where no trace spills to
memory and no write is under way, and of a read where no error stands.
The host link's training: the width, the rate and flit mode it completes with, and DEGRADED below x16 at rate 5; a link that
goes down shows zeros, by the model's choice (log entry 54); a width or rate that no link has is no such event, and faults, by the model's
choice (log entry 25).
What the host link moves is cut into transfers: each of them lies between two multiples of its greatest size, and together, in their
order, they are all the bytes; that they are cut there is the model's choice (log entry 110). -/
def Obligations.Bar2AccessesAndLink : Prop :=
  (∀ (s : State) (off : BitVec 36) (len : Nat) (data : List MByte), s.dieUp = true →
      let at' := fun k => s.fld .hstBar2Win F.hstBar2Win_WIN * 2 ^ 36 + (off.toNat + k) % 2 ^ 36
      (Leaves (exec (.bar2Access off true len data) s) fun t => t.stalls = s.stalls ∧ t.linkRx = s.linkRx + len ∧
        (NoRing s → (∀ a, (∀ k, k < len → a ≠ at' k) → Memory.read t.mem a = Memory.read s.mem a) ∧
          (Sound s → Still s → len ≤ 2 ^ 36 → ∀ k, k < len → Memory.read t.mem (at' k) =
            if backed (at' k) && (s.codeOwner (at' k)).isNone && (rsvdOwner (at' k)).isNone then (data.getD k (0, false)).1
            else Memory.read s.mem (at' k)))) ∧
      (Leaves (exec (.bar2Access off false len data) s) fun t => t.stalls = s.stalls ∧ t.linkTx = s.linkTx + len ∧
        (NoRing s → t.mem = s.mem) ∧ ∃ bs, t.hostOut = s.hostOut ++ replies bs ∧ bs.length = len ∧
        (NoRing s → Clean s → ∀ k, k < len →
          bs.getD k (0, true) = (if backed (at' k) then Memory.read s.mem (at' k) else 0, false)))) ∧
  (∀ (s : State) (w : BitVec 5) (r : BitVec 3) (fl : Bool), s.dieUp = true →
      let does := fun (o : Out) (x : BitVec 64) => Sets s o (fun q => q = .hstLinkStatus) fun t => t.rd .hstLinkStatus = x
      does (exec (.hostLinkTraining none) s) 0 ∧
      ((w = 1 ∨ w = 2 ∨ w = 4 ∨ w = 8 ∨ w = 16) → r.toNat ≤ 5 →
        does (exec (.hostLinkTraining (some (w, r, fl))) s) (BitVec.ofNat 64 (w.toNat + r.toNat * 2 ^ 5 + (if fl then 2 ^ 8 else 0) +
          (if w = 16 ∧ r = 5 then 0 else 2 ^ 9)))) ∧
      (¬ (w = 1 ∨ w = 2 ∨ w = 4 ∨ w = 8 ∨ w = 16) ∨ 5 < r.toNat →
        exec (.hostLinkTraining (some (w, r, fl))) s = .fault (.illFormed "HOST_LINK_TRAINING"))) ∧
  ∀ size a len : Nat, 0 < size →
    ((spans size a len).flatMap fun p => List.range' p.1 p.2) = List.range len ∧
    ∀ p ∈ spans size a len, 0 < p.2 ∧ p.2 ≤ size ∧ (a + p.1 + p.2 - 1) / size = (a + p.1) / size

/-! ### Queue pairs and consignments (R306 to R314) -/

/-- The registers of a queue pair: enabling zeroes its indices, and clearing ENABLE returns what waits; a new SQ_TAIL whose entries
cannot be read sets FETCH_ERR; STOPPED and FETCH_ERR clear on a write of 1; the delay of a completion's vector expires. A write that is
ignored counts the 8 bytes that the host sent and does nothing else (log entry 5). That a write of ENABLE = 1 to a queue pair that is
enabled already is ignored, and not judged again, is the model's choice (log entry 43). -/
def Obligations.QueuePairRegisters : Prop :=
  ∀ (s : State) (q : Fin 256) (v : BitVec 64) (i : BitVec 16), s.dieUp = true →
    let st := Reg.hstQpStatus q
    let on := s.qpEnabled q
    let dr := s.qpDraining q
    let ignored := fun (o : Out) => Leaves o fun t => t = { s with linkRx := s.linkRx + 8, aonDie := t.aonDie }
    let may := on = false ∧ dr = false ∧ s.ctxState (Fin.ofNat 64 (F.hstQpCtrl_CONTEXT.get v)) = 1 ∧
      4 ≤ F.hstQpCtrl_SQ_LOG2.get v ∧ F.hstQpCtrl_SQ_LOG2.get v ≤ 12 ∧ 4 ≤ F.hstQpCtrl_CQ_LOG2.get v ∧ F.hstQpCtrl_CQ_LOG2.get v ≤ 12
    (may → Leaves (exec (.qpEnable q v) s) fun t =>
      t = { s with regs := t.regs, unsignalled := AMap.set q 0 s.unsignalled, linkRx := s.linkRx + 8, aonDie := t.aonDie } ∧
      OnlyRegs (fun r => r = .hstQpCtrl q ∨ r = st ∨ r = .hstQpSqTail q ∨ r = .hstQpCqHead q) s t ∧
      t.qpEnabled q = true ∧ t.qpCtx q = Fin.ofNat 64 (F.hstQpCtrl_CONTEXT.get v) ∧ t.qpAccepted q = 0 ∧ t.qpCompleted q = 0 ∧
      t.fld (.hstQpSqTail q) F.hstQpSqTail_INDEX = 0 ∧ t.fld (.hstQpCqHead q) F.hstQpCqHead_INDEX = 0) ∧
    (¬ may → ignored (exec (.qpEnable q v) s)) ∧
    (on = true → Does s (exec (.qpDisable q v) s) (fun r => r = .hstQpCtrl q ∨ r = st) fun t => t.qpEnabled q = false ∧
      (∀ id c, consignAt s id = some c → c.qp = q → c.phase = .waiting → Ended t id .returnedUnstarted 3) ∧
      t.qpDraining q = (s.consigns.any fun e => e.2.qp = q)) ∧
    (on = false → dr = true → ignored (exec (.qpDisable q v) s)) ∧
    (on = false → ignored (exec (.sqTailWrite q i true) s)) ∧
    (on = true → Sets s (exec (.sqTailWrite q i true) s) (fun r => r = .hstQpSqTail q) fun t =>
      Takes s t (.hstQpSqTail q) F.hstQpSqTail_INDEX i.toNat) ∧
    (on = true → s.qpAccepted q ≠ i.toNat → Sets s (exec (.sqTailWrite q i false) s) (fun r => r = .hstQpSqTail q ∨ r = st) fun t =>
      Takes s t (.hstQpSqTail q) F.hstQpSqTail_INDEX i.toNat ∧ Takes s t st F.hstQpStatus_FETCH_ERR 1 ∧ t.irqs = s.irqs ++ [259]) ∧
    (on = true ∨ dr = true → Sets s (exec (.cqHeadWrite q i) s) (fun r => r = .hstQpCqHead q) fun t =>
      Takes s t (.hstQpCqHead q) F.hstQpCqHead_INDEX i.toNat) ∧
    (Sets s (exec (.stoppedClear q) s) (fun r => r = st) fun t => Takes s t st F.hstQpStatus_STOPPED 0) ∧
    (Sets s (exec (.fetchErrClear q) s) (fun r => r = st) fun t => Takes s t st F.hstQpStatus_FETCH_ERR 0) ∧
    (s.fld (.hstQpCtrl q) F.hstQpCtrl_IRQ_DELAY_US ≠ 0 → AMap.get 0 q s.unsignalled ≠ 0 →
      Leaves (exec (.irqDelayExpiry q) s) fun t =>
        t = { s with unsignalled := AMap.set q 0 s.unsignalled, irqs := s.irqs ++ [q.val], msixPend := t.msixPend } ∧
        ∀ x, x ∈ t.msixPend ↔ x ∈ s.msixPend ∨ (x = q.val ∧ s.msixMasked x = true)) ∧
    (s.fld (.hstQpCtrl q) F.hstQpCtrl_IRQ_DELAY_US = 0 ∨ AMap.get 0 q s.unsignalled = 0 → exec (.irqDelayExpiry q) s = .next s)

/-- An entry that the queue pair may accept is read from its place in the SQ, advances ACCEPTED, which is written to the accept word, and
becomes a consignment: waiting, or returned at once where its form is not one of R307. The oldest completion is written to its place in the CQ, advances COMPLETED and
leaves, and raises its vector as R306 counts. A PCIe access that fails sets FETCH_ERR and does nothing else. -/
def Obligations.QueueEntries : Prop :=
  ∀ (s : State) (q : Fin 256) (e : BitVec 512), s.dieUp = true →
    let st := Reg.hstQpStatus q
    let fails := fun (o : Out) => Sets s o (fun r => r = st) fun t =>
      Takes s t st F.hstQpStatus_FETCH_ERR 1 ∧ t.irqs = s.irqs ++ [259]
    let n := (s.qpAccepted q + 1) % 2 ^ 16
    let id := s.nextConsign
    (s.mayAccept q = false → ∀ ok, exec (.sqEntryAccept q e ok) s = .next s) ∧
    (s.mayAccept q = true → fails (exec (.sqEntryAccept q e false) s) ∧
      Does s (exec (.sqEntryAccept q e true) s) (fun r => r = st ∨ r = .hstCtxSealState (s.qpCtx q)) fun t =>
        t.qpAccepted q = n ∧ t.nextConsign = id + 1 ∧ s.qpCtx q ∈ t.sampled ∧
        t.hostOut = s.hostOut ++
          [HostMsg.read (s.fld (.hstQpSqBase q) F.hstQpSqBase_ADDR * 64 +
              64 * (s.qpAccepted q % 2 ^ s.fld (.hstQpCtrl q) F.hstQpCtrl_SQ_LOG2)) 64,
           HostMsg.write (s.fld (.hstQpAccAddr q) F.hstQpAccAddr_ADDR * 8) ((toBytes 8 n).map fun b => (b, false)) false] ∧
        (badEntry e = true → Ended t id .returnedUnstarted 1) ∧
        (badEntry e = false → consignAt t id = some (Consign.ofEntry q (s.qpCtx q) (s.qpAccepted q) e)) ∧
        ∀ k, k ≠ id → consignAt t k = consignAt s k) ∧
    ∀ k c, (s.qpConsigns q).head? = some (k, c) → c.phase = .final → s.qpFetchErr q = false →
      let i := s.qpCompleted q
      let lg := s.fld (.hstQpCtrl q) F.hstQpCtrl_CQ_LOG2
      let used := (i + 2 ^ 16 - s.fld (.hstQpCqHead q) F.hstQpCqHead_INDEX) % 2 ^ 16
      let cnt := AMap.get 0 q s.unsignalled + 1
      let irq := c.flags / 2 % 2 = 1 ∨
        (s.fld (.hstQpCtrl q) F.hstQpCtrl_IRQ_COUNT ≠ 0 ∧ s.fld (.hstQpCtrl q) F.hstQpCtrl_IRQ_COUNT ≤ cnt)
      (2 ^ lg ≤ used → ∀ ok, exec (.completionPost q ok) s = .next s) ∧
      (used < 2 ^ lg → fails (exec (.completionPost q false) s) ∧
        Does s (exec (.completionPost q true) s) (fun r => r = st) fun t =>
          t.qpCompleted q = (i + 1) % 2 ^ 16 ∧ consignAt t k = none ∧ (∀ j, j ≠ k → consignAt t j = consignAt s j) ∧
          t.hostOut = s.hostOut ++ [HostMsg.write (s.fld (.hstQpCqBase q) F.hstQpCqBase_ADDR * 64 + 32 * (i % 2 ^ lg))
            ((c.entry i lg).map fun b => (b, false)) false] ∧
          (irq → t.irqs = s.irqs ++ [q.val] ∧ AMap.get 0 q t.unsignalled = 0) ∧
          (¬ irq → t.irqs = s.irqs ∧ AMap.get 0 q t.unsignalled = cnt))

/-- Consignments that may start: a NOP ends with ST_OK; a copy joins those of the DMA engine, moves bytes up to one of its 64-byte
boundaries (log entry 104) and, at its last byte, ends; a RUN whose image is loaded starts a program on each of its stalls, and one
whose image is refused ends with ST_REFUSED_FIT; a started one whose stalls have stopped and whose letters are settled ends with its
outcome. One that may not start stays. That a copy to the host leaves in pieces of 4,096 and 512 bytes (log entry 110), and that a copy from it
takes the command's data, with zeros where they are shorter than LENGTH (log entry 45), are the model's choices. -/
def Obligations.ConsignmentsStartAndEnd : Prop :=
  ∀ (s : State) (q : Fin 256) (i : BitVec 16) (data : List MByte) (id : Nat) (c : Consign), s.findConsign q i = some (id, c) →
    let may := s.mayStartConsign id c
    let isRun := fun t : State => ∃ x, consignAt t id = some x ∧ x.phase = .started
    (may = false → exec (.nopConsignment q i) s = .next s ∧ exec (.copyIn q i data) s = .next s ∧ exec (.copyOut q i) s = .next s ∧
      exec (.run q i) s = .next s) ∧
    (may = true → c.opcode = 0 → c.status = .ok → Leaves (exec (.nopConsignment q i) s) fun t =>
      Ended t id .ok c.detail ∧ t.stalls = s.stalls) ∧
    (may = true → c.opcode = 2 ∨ c.opcode = 3 →
      let out := decide (c.opcode = 3)
      let s1 := s.setConsign id { c with phase := .started, startedAt := s.stampNow }
      let ps := (s1.xlatAll c.ctx c.range (!out) false 0x84).2
      Leaves (exec (if out then .copyOut q i else .copyIn q i data) s) fun t => isRun t ∧ t.stalls = s.stalls ∧
        ∃ d, t.dma = s.dma ++ [d] ∧ d.id = id ∧ d.out = out ∧ d.host = c.addrA ∧ d.start = c.addrB ∧ d.bytes.map Prod.fst = ps ∧
          d.done ≤ c.length ∧ (d.done = 0 ∨ d.done = c.length ∨ (c.addrB + d.done) % 64 = 0) ∧
          (NoRing s → ∀ a, (out = true ∨ ∀ k, k < d.done → ps[k]? ≠ some (some a)) → Memory.read t.mem a = Memory.read s.mem a) ∧
          (out = false → t.hostOut = s.hostOut ++ (spans 4096 c.addrA c.length).map (fun p => HostMsg.read (c.addrA + p.1) p.2) ∧ t.linkRx = s.linkRx + d.done ∧
            (NoRing s → Sound s → Still s → ps.Nodup → ∀ k a, k < d.done → ps[k]? = some (some a) → backed a = true →
              Memory.read t.mem a = (data.getD k (0, false)).1)) ∧
          (out = true → d.done = 0 → t.hostOut = s.hostOut) ∧
          (out = true → d.done ≠ 0 → ∃ bs : List MByte, bs.length = d.done ∧ t.hostOut = s.hostOut ++
              ((spans 512 c.addrA bs.length).map fun p => HostMsg.write (c.addrA + p.1) ((bs.drop p.1).take p.2) true) ∧
            (NoRing s → Clean s → ∀ k a, k < d.done → ps[k]? = some (some a) → backed a = true →
              bs.getD k (0, true) = (Memory.read s.mem a, false)))) ∧
    (∀ d, s.dieUp = true → s.dmaOf id = some d → c.phase = .started → Leaves (exec (.copyComplete q i) s) fun t =>
      t.dma = s.dma.filter (fun x => x.id ≠ id) ∧ t.stalls = s.stalls ∧ Ended t id c.status c.detail ∧
      (d.out = false → NoRing s → s.mineWritten c.ctx = true →
        (∀ a, (∀ k, d.done ≤ k → d.bytes[k]?.map Prod.fst ≠ some (some a)) → Memory.read t.mem a = Memory.read s.mem a) ∧
        (Sound s → Still s → (d.bytes.map Prod.fst).Nodup → ∀ k a x, d.done ≤ k → d.bytes[k]? = some (some a, x) →
          backed a = true → Memory.read t.mem a = x.1))) ∧
    (s.dieUp = true → s.dmaOf id = none → c.phase = .started → s.stallsDone c = true → s.settled c = true → s.updatesDone c = true →
      s.receiptsIn c = true → s.mayFinish c.ctx = true →
      Leaves (exec (.consignmentComplete q i) s) fun t => (s.gathersOf c = [] → t.stalls = s.stalls) ∧
        Ended t id (match c.ended, c.fault with | some x, _ => x | none, some y => y.status | none, none => c.status)
          (match c.ended, c.fault with | some _, _ => 0 | none, some y => y.detail | none, none => c.detail)) ∧
    (s.dieUp = true → c.phase = .started → s.stallsDone c = false ∨ s.settled c = false ∨ s.updatesDone c = false ∨
      s.receiptsIn c = false ∨ s.mayFinish c.ctx = false → exec (.consignmentComplete q i) s = .next s) ∧
    (may = true → c.opcode = 1 → s.refusing = none →
      let va := fun n => (List.range n).map fun k => (c.addrA + k) % 2 ^ 48
      let s1 : State := { s with refusing := some [] }
      let r := s1.readCtx c.ctx (va 256) 0x83
      let h := ImgHeader.of (r.2.map (·.1))
      let img : ImageId := ⟨c.ctx, c.addrA, h.crc⟩
      (∀ im, s.loaded img = some im → im.stables.any s.stableBusy = false → im.nStalls = 8 * im.stables.length →
        im.stables.length ≤ 16 → im.stables.Nodup →
        Leaves (exec (.run q i) s) fun t => isRun t ∧ ∀ k, k < im.nStalls →
          let n := rankStall im.stables k
          let u := t.stall n
          u.running = true ∧ u.pc = 0 ∧ u.context = c.ctx ∧ u.rank.val = k ∧ u.nStalls = im.nStalls ∧ u.consignment = id ∧
            u.s[0] = BitVec.ofNat 64 c.addrB ∧ u.s[1] = BitVec.ofNat 64 k ∧ u.s[2] = BitVec.ofNat 64 im.nStalls ∧
            u.s[3] = s.chip.setWidth 64 ∧ u.flights = [] ∧ u.wait = none) ∧
      (s.loaded img = none → ((s.usable c.ctx).take (h.stalls / 8)).any s.stableBusy = false →
        let b := r.1.readCtx c.ctx (va (max 256 h.imageBytes)) 0x83
        ∀ x, (b.1.load c.ctx img (b.2.map (·.1))).2 = some x → Leaves (exec (.run q i) s) fun t =>
          Ended t id .refusedFit x.reason ∧ t.stalls = s.stalls) ∧
      ((∃ im, s.loaded img = some im ∧ im.stables.any s.stableBusy = true) → exec (.run q i) s = .next s))

/-- An abort of a waiting consignment returns it; of a final one it answers ST_ALREADY_DONE where it had completed or been refused;
of a RUN in progress it stops every stall of it; a copy in progress leaves the DMA engine and ends; of one that has passed its retire
point, its stalls halted or its last byte written, it changes nothing and answers ST_ALREADY_DONE; a consignment that is not there
leaves RESULT. That it is resolved within its command, and the RESULT for a consignment that was refused, are the model's choices (log
entry 46). -/
def Obligations.AbortOutcomes : Prop :=
  ∀ (s : State) (q : Fin 256) (i : BitVec 16), s.dieUp = true →
    let answers := fun (o : Out) (x : Nat) (P : State → Prop) => Leaves o fun t =>
      t.fld (.hstQpAbort q) F.hstQpAbort_RESULT = x ∧ t.fld (.hstQpAbort q) F.hstQpAbort_INDEX = i.toNat ∧ P t
    (s.findConsign q i = none → Sets s (exec (.abort q i) s) (fun r => r = .hstQpAbort q) fun t =>
      t.fld (.hstQpAbort q) F.hstQpAbort_RESULT = s.fld (.hstQpAbort q) F.hstQpAbort_RESULT ∧
      t.fld (.hstQpAbort q) F.hstQpAbort_INDEX = i.toNat) ∧
    ∀ id c, s.findConsign q i = some (id, c) →
      (c.phase = .waiting → answers (exec (.abort q i) s) 0x00 fun t => Ended t id .returnedUnstarted 5 ∧ t.stalls = s.stalls) ∧
      (c.phase = .final → (c.status = .ok ∨ c.status = .refusedFit) →
        answers (exec (.abort q i) s) 0x41 fun t => t.consigns = s.consigns ∧ t.stalls = s.stalls) ∧
      (c.phase = .started → s.retired id c = true → answers (exec (.abort q i) s) 0x41 fun t =>
        t.consigns = s.consigns ∧ t.stalls = s.stalls ∧ t.dma = s.dma) ∧
      (c.phase = .started → c.ended = none → c.fault = none → s.retired id c = false → s.dmaOf id = none →
        answers (exec (.abort q i) s) 0x00 fun t => ∀ n ∈ c.stalls, (t.stall n).running = false) ∧
      (c.phase = .started → c.ended = none → c.fault = none → s.retired id c = false → (s.dmaOf id).isSome = true →
        answers (exec (.abort q i) s) 0x00 fun t => Ended t id .aborted 0 ∧ t.dma = s.dma.filter (fun x => x.id ≠ id) ∧
          t.stalls = s.stalls)

/-! ### Contexts (R302 to R304, R185, R376 to R381) -/

/-- A context is created from FREE in Stage 3 under a job tag of its own, with its registers and its groups' at reset; a CREATE
that may not is ignored with its cause: where several hold, the lowest, by the model's choice (log entry 121). An ACTIVE context that is destroyed, or reset, stops every stall it holds, ends its running
consignments and forgets its letters and operations; a FREE one ignores both. -/
def Obligations.ContextCommands : Prop :=
  ∀ (s : State) (c : Fin 64) (tag : BitVec 16), s.dieUp = true →
    let st := Reg.hstCtxStatus c
    let ctl := Reg.hstCtxCtrl c
    let own := fun r => r ∈ ctxRegs c ++ grpRegs c
    let free := s.ctxState c = 0
    let others := ∀ d, d ≠ c → s.ctxState d ≠ 0 → s.jobTag d ≠ tag ∧
      s.fld (.hstCtxPost d) F.hstCtxPost_POST_PA ≠ s.fld (.hstCtxPost c) F.hstCtxPost_POST_PA
    let refused := fun (o : Out) (k : Nat) => Sets s o (fun r => r = st ∨ r = ctl) fun t =>
      Takes s t st F.hstCtxStatus_REFUSED k ∧ (free ∨ t.rd ctl = s.rd ctl)
    let stops := fun (t : State) =>
      (∀ n ∈ s.ctxAllStalls c, (t.stall n).running = false) ∧ (∀ o ∈ t.collOps, o.ctx ≠ c) ∧ (∀ o ∈ t.outstanding, o.ctx ≠ c) ∧
      (∀ o ∈ t.postQ, o.ctx ≠ c) ∧ (∀ x ∈ t.tiles, x.ctx ≠ c) ∧ t.rd .soCtxResetting = s.rd .soCtxResetting ||| ctxBit c ∧
      ∀ id ∈ s.toEnd c, ∀ x, consignAt s id = some x → ∃ y, consignAt t id = some y ∧ y.ended = some .contextReset
    (s.stage = 3 → free → tag ≠ 0 → others →
      Does s (exec (.create c tag) s) (fun r => own r ∨ r = st ∨ r = ctl) fun t => t.ctxState c = 1 ∧ t.jobTag c = tag ∧
        (∀ r, own r → r ≠ .stlUpdProgress c → t.rd r = r.reset) ∧ t.fld (.stlUpdProgress c) F.stlUpdProgress_ATTEMPT = 1 ∧
        t.ctxStables = s.ctxStables ∧ c ∉ t.sampled ∧ (∀ e ∈ t.xlat, e.ctx ≠ c) ∧ ∀ u ∈ t.xlatUnits, ∀ e ∈ u.2, e.ctx ≠ c) ∧
    (s.stage ≠ 3 → refused (exec (.create c tag) s) 1) ∧
    (s.stage = 3 → ¬ free → refused (exec (.create c tag) s) 2) ∧
    (s.stage = 3 → free → tag = 0 ∨ (∃ d, d ≠ c ∧ s.ctxState d ≠ 0 ∧ s.jobTag d = tag) → refused (exec (.create c tag) s) 3) ∧
    (s.stage = 3 → free → tag ≠ 0 → (∀ d, d ≠ c → s.ctxState d ≠ 0 → s.jobTag d ≠ tag) →
      (∃ d, d ≠ c ∧ s.ctxState d ≠ 0 ∧ s.fld (.hstCtxPost d) F.hstCtxPost_POST_PA = s.fld (.hstCtxPost c) F.hstCtxPost_POST_PA) →
      refused (exec (.create c tag) s) 4) ∧
    (free ∨ s.ctxState c = 3 → refused (exec (.destroy c tag) s) 2 ∧ refused (exec (.reset c tag) s) 2) ∧
    (s.ctxState c = 2 → exec (.reset c tag) s = .next s) ∧
    (s.ctxState c = 1 → Leaves (exec (.reset c tag) s) fun t => t.ctxState c = 2 ∧ stops t ∧
      AMap.get ⟨0, 0, 0, false⟩ c t.resets = { cause := 1, engine := 255 }) ∧
    (s.ctxState c = 1 → Leaves (exec (.destroy c tag) s) fun t => t.ctxState c = 3 ∧ stops t ∧
      (∀ q, s.qpCtx q = c → t.qpEnabled q = false) ∧
      ∀ id x, consignAt s id = some x → x.ctx = c → x.phase = .waiting → Ended t id .returnedUnstarted 3)

/-- A context reset ends once every engine has quiesced: empty accumulators, what waited returned, the reset recorded, and the
context ACTIVE. A destroy ends once its work has ended and its streams are clear: the context is FREE, holds nothing, and an invalidation
that was pending is done; the record of its last load stands until the next CREATE (R152).
That a cached translation stays in use from START until DONE is the model's choice (log entry 11). -/
def Obligations.ContextEnds : Prop :=
  ∀ (s : State) (c : Fin 64), s.dieUp = true →
    let bit := ctxBit c
    let rec' := Reg.hstCtxResetRec c
    (∀ x, (s.resets.find? fun e => e.1 = c) = some (c, x) →
      (s.quiesced c = false → exec (.contextResetComplete c) s = .next s) ∧
      (s.quiesced c = true → s.ctxState c = 2 → x.destroy = false → Leaves (exec (.contextResetComplete c) s) fun t =>
        t.ctxState c = 1 ∧ (t.resets.find? fun e => e.1 = c) = none ∧ 257 ∈ t.irqs ∧
        t.rd .soCtxResetting = s.rd .soCtxResetting &&& ~~~bit ∧
        t.fld rec' F.hstCtxResetRec_CAUSE = x.cause % 2 ^ 4 ∧ t.fld rec' F.hstCtxResetRec_ENGINE = x.engine % 2 ^ 8 ∧
        t.fld rec' F.hstCtxResetRec_LEVEL = x.level % 2 ^ 3 ∧
        t.fld rec' F.hstCtxResetRec_RESETS = min 0xFFFF (s.fld rec' F.hstCtxResetRec_RESETS + 1) ∧
        (∀ n ∈ s.ctxAllStalls c, (t.stall n).acc = .replicate 2 {}) ∧
        ∀ id y, consignAt s id = some y → y.ctx = c → y.phase = .waiting → Ended t id .returnedUnstarted 2)) ∧
    (s.ctxState c = 3 → (s.resets.any fun e => e.1 = c) = false → s.ctxClearing c = false → s.ctxRunning c = false →
      Does s (exec (.destroyComplete c) s) (fun r => r ∈ ctxRegs c ++ grpRegs c ∨ r = .hstCtxStatus c ∨ r = .soCtxResetting ∨
          ∃ j, r = .soSlot j 2) fun t =>
        t.ctxState c = 0 ∧ t.reserved c = [] ∧ t.irqs = s.irqs ++ [257] ∧ t.rd (.hstCtxSealState c) = (Reg.hstCtxSealState c).reset ∧
        t.rd .soCtxResetting = s.rd .soCtxResetting &&& ~~~bit ∧ (∀ r ∈ grpRegs c, t.rd r = r.reset) ∧
        t.rd (.hstLoadRec0 c) = s.rd (.hstLoadRec0 c) ∧
        c ∉ t.xlatPend ∧ (c ∈ s.xlatPend → t.fld (.hstXlatInval c) F.hstXlatInval_DONE = 1)) ∧
    (s.ctxState c ≠ 3 ∨ s.ctxClearing c = true ∨ s.ctxRunning c = true → exec (.destroyComplete c) s = .next s) ∧
    (Leaves (exec (.start c) s) fun t => t = { s with regs := t.regs, xlatPend := t.xlatPend } ∧ c ∈ t.xlatPend ∧
      OnlyRegs (fun r => r = .hstXlatInval c) s t ∧ Takes s t (.hstXlatInval c) F.hstXlatInval_DONE 0) ∧
    (c ∈ s.xlatPend → s.xlatBusy c = false → Does s (exec (.xlatInvalDone c) s) (fun r => r = .hstXlatInval c) fun t =>
      Takes s t (.hstXlatInval c) F.hstXlatInval_DONE 1 ∧ c ∉ t.xlatPend ∧ (∀ e ∈ t.xlat, e.ctx ≠ c) ∧
      (∀ u ∈ t.xlatUnits, ∀ e ∈ u.2, e.ctx ≠ c) ∧ (∀ d, AMap.get (s.rd (.hstXlatRoot c)) d t.xlatRoot =
        if d = c then s.rd (.hstXlatRoot c) else AMap.get (s.rd (.hstXlatRoot c)) d s.xlatRoot) ∧
      ∀ e ∈ s.xlat, e.ctx ≠ c → e ∈ t.xlat) ∧
    (c ∉ s.xlatPend ∨ s.xlatBusy c = true → exec (.xlatInvalDone c) s = .next s)

/-! ### Resets of engines, stables and the die (R315, R330, R369 to R375, R385 to R387) -/

/-- A hang, of a program, of a copy or of a load, starts a reset of its context and is attributed to the blocking engine, which holds the
context's oldest unretired operation; where nothing does, to none. At the third within ten minutes a stall is fenced, or the die is reset. An engine that does
not quiesce is reset; where that does not end, its stable or its yard is, or the die. A stable reset ends with clear stores.
That a stall whose logic is reset holds zeros, but for the counters and the wait that R176 keeps to be read, and what an engine reset
clears, are the model's choices (log entries 2 and 57). -/
def Obligations.ResetLadder : Prop :=
  ∀ (s : State) (c : Fin 64) (e : Fin 256) (stuck : Hang), s.dieUp = true →
    let n : Fin 128 := Fin.ofNat 128 e.val
    let hung := s.ctxState c = 1 ∧ (s.ctxRunning c = true ∨ s.loadOp c stuck ≠ []) ∧ s.blocks c e.val stuck = true
    let die := fun (o : Out) (cause : Nat) => Leaves o fun t => DieDown s t ∧
      t.fld .ptrResetRec F.ptrResetRec_CAUSE = cause ∧ t.fld .ptrResetRec F.ptrResetRec_ENGINE = e.val
    (¬ hung → exec (.hangDetect c e stuck) s = .next s) ∧
    (hung → e.val < 128 ∨ stuck.idle = false → e.val = 255 ∨ s.attribCount e.val ≤ 1 →
      Leaves (exec (.hangDetect c e stuck) s) fun t =>
        t.fld (.hstCtxHang c) F.hstCtxHang_HUNG = 1 ∧ t.ctxState c = 2 ∧ 257 ∈ t.irqs ∧
        AMap.get ⟨0, 0, 0, false⟩ c t.resets = { cause := 2, engine := e.val } ∧
        t.attribs = (if e.val = 255 then s.attribs else (e.val, s.porterMs) :: s.attribs)) ∧
    (hung → e.val < 128 → 2 ≤ s.attribCount e.val → s.stallFenced n = false →
      s.fld .ptrEscStatus F.ptrEscStatus_FENCES < 2 → Leaves (exec (.hangDetect c e stuck) s) fun t =>
        t.stallFenced n = true ∧ t.fld .ptrEscStatus F.ptrEscStatus_FENCES = s.fld .ptrEscStatus F.ptrEscStatus_FENCES + 1 ∧
        t.ctxState c = 2) ∧
    (hung → 128 ≤ e.val → e.val ≠ 255 → 2 ≤ s.attribCount e.val → die (exec (.hangDetect c e stuck) s) 2) ∧
    ((s.resets.any fun x => x.1 = c) = false ∨ 140 < e.val → exec (.quiesceWatchdogExpiry c e) s = .next s) ∧
    ((s.resets.any fun x => x.1 = c) = true →
      (e.val < 128 → stableOf n ∈ s.reserved c → s.attribCount e.val = 0 → Leaves (exec (.quiesceWatchdogExpiry c e) s) fun t =>
        t.stall n = { s.stall n with flights := [], wait := none, waitCycles := 0, halting := none, acc := .replicate 2 {},
                                     c := .replicate 64 0,
                                     updCycles := if (s.stall n).updWaiting.isSome then 0 else (s.stall n).updCycles } ∧
        (∀ m, m ≠ n → t.stall m = s.stall m) ∧
        (∀ a, ¬ inRing s a → (∀ x ∈ s.racing, a < x.word ∨ x.word + 8 ≤ a) → Memory.read t.mem a = Memory.read s.mem a) ∧
        t.engResets = (c, e.val) :: s.engResets) ∧
      (e.val = 129 → s.attribCount 129 = 0 → Leaves (exec (.quiesceWatchdogExpiry c e) s) fun t =>
        t.stalls = s.stalls ∧ (∀ a, ¬ inRing s a → Memory.read t.mem a = Memory.read s.mem a) ∧
        t.dma = s.dma.map (fun d => if d.bytes.length ≤ d.done then d else { d with done := 0 }) ∧ t.engResets = (c, 129) :: s.engResets) ∧
      (e.val = 128 ∨ 130 ≤ e.val → e.val ≤ 140 → die (exec (.quiesceWatchdogExpiry c e) s) 1)) ∧
    ((s.engResets.any fun x => x.2 = e.val) = true → ∀ yard,
      (e.val < 128 → Leaves (exec (.engineResetWatchdogExpiry e yard) s) fun t =>
        (∀ m, (if yard then yardOf m = yardOf n else stableOf m = stableOf n) → t.stall m =
          { nextSeq := (s.stall m).nextSeq, c := (s.stall m).c, wait := (s.stall m).wait, waitPc := (s.stall m).waitPc,
            waitSince := (s.stall m).waitSince }) ∧
        (stableOf n, e.val) ∈ t.stableResets ∧ ∀ x ∈ t.engResets, x.2 ≠ e.val) ∧
      (128 ≤ e.val → die (exec (.engineResetWatchdogExpiry e yard) s) 1)) ∧
    ((s.engResets.any fun x => x.2 = e.val) = false → ∀ yard, exec (.engineResetWatchdogExpiry e yard) s = .next s) ∧
    ∀ u : Fin 16,
      let inStores := fun a => (stableBase u ≤ a ∧ a < stableBase u + 0x2000000) ∨
        (0xF00040000000 + 0x4000000 * u.val ≤ a ∧ a < 0xF00040000000 + 0x4000000 * (u.val + 1))
      ((s.stableResets.any fun x => x.1 = u) = false →
        exec (.stableResetEnd u) s = .next s ∧ exec (.stableResetWatchdogExpiry u) s = .next s) ∧
      ((s.stableResets.any fun x => x.1 = u) = true → Leaves (exec (.stableResetEnd u) s) fun t =>
        (∀ a, inStores a → Memory.read t.mem a = Memory.fill) ∧ (∀ a ∈ t.poison, ¬ inStores a) ∧
        (∀ a, ¬ inRing s a → ¬ inStores a → Memory.read t.mem a = Memory.read s.mem a) ∧
        t.stalls = s.stalls ∧ ∀ x ∈ t.stableResets, x.1 ≠ u) ∧
      ((s.stableResets.find? fun x => x.1 = u) = some (u, e.val) → die (exec (.stableResetWatchdogExpiry u) s) 1)

/-- A die reset by the operator, by a hot reset or by PERST: the die's registers return to reset, the porter's and the memory stay,
and the reset is recorded and not counted. A die that does not reach Stage 1 is power-cycled: memory is lost, and the second in an
hour takes the module out of service, as does a power cycle that fails. Where rails were on they begin to fall. The operator clears what
this left.
That STAGE keeps its value during a die reset (log entry 58), and that a failed die reset is recorded with cause 6 and the engine that the
record held (log entry 59), are the model's choices. -/
def Obligations.DieResetAndPowerCycle : Prop :=
  ∀ s : State,
    let rr := Reg.ptrResetRec
    let off := fun (t : State) => t.power = (if s.rails.isEmpty then .off else .falling) ∧ t.rails = s.rails
    let oos := fun (t : State) (cause : Nat) => t.flag .ptrStage F.ptrStage_OUT_OF_SERVICE = true ∧
      t.fld .ptrEscStatus F.ptrEscStatus_OOS_CAUSE = cause ∧ off t ∧ t.cycle = .none
    (s.dieUp = true → ∀ p ∈ ([(.operatorDieReset, 4), (.pcieHotReset, 3), (.perstAssert, 3)] : List (Instr × Nat)),
      Leaves (exec p.1 s) fun t => DieDown s t ∧ t.mem = s.mem ∧ t.dieResetting = true ∧ t.dieHist = s.dieHist ∧
        t.fld rr F.ptrResetRec_CAUSE = p.2 ∧ t.fld rr F.ptrResetRec_ENGINE = 255 ∧
        t.fld rr F.ptrResetRec_TIME_MS = s.porterMs % 2 ^ 48 ∧ t.fld .ptrStage F.ptrStage_STAGE = s.fld .ptrStage F.ptrStage_STAGE) ∧
    (s.dieUp = false → ∀ c ∈ ([.operatorDieReset, .pcieHotReset, .perstAssert] : List Instr), exec c s = .next s) ∧
    (s.dieResetting = false → exec .dieResetWatchdogExpiry s = .next s) ∧
    (s.dieResetting = true → Leaves (exec .dieResetWatchdogExpiry s) fun t => off t ∧ t.mem = [] ∧
      t.fld .ptrStage F.ptrStage_STAGE = 0 ∧ t.fld rr F.ptrResetRec_CAUSE = 6 ∧
      t.fld rr F.ptrResetRec_ENGINE = s.fld rr F.ptrResetRec_ENGINE ∧
      (s.dieResets1h = 0 → t.cycle = .removed) ∧ (s.dieResets1h ≠ 0 → oos t 2)) ∧
    (s.cycle = .removed → exec .powerCycleReapply s = .next { s with power := .rising, rails := [], railMs := 0, cycle := .applied }) ∧
    (s.cycle ≠ .removed → exec .powerCycleReapply s = .next s) ∧
    (s.cycle = .none → exec .powerCycleWatchdogExpiry s = .next s) ∧
    (s.cycle ≠ .none → Leaves (exec .powerCycleWatchdogExpiry s) fun t => oos t 3 ∧ t.mem = []) ∧
    (s.aux = true → s.fld .ptrStage F.ptrStage_STAGE = 0 →
      Sets s (exec .clearOos s) (fun r => r = .ptrStage ∨ r = .ptrEscStatus) fun t =>
        Takes s t .ptrStage F.ptrStage_OUT_OF_SERVICE 0 ∧ Takes s t .ptrEscStatus F.ptrEscStatus_OOS_CAUSE 0) ∧
    (s.fld .ptrStage F.ptrStage_STAGE ≠ 0 → exec .clearOos s = .next s) ∧
    (s.aux = true → Sets s (exec .clearFences s) (fun r => r = .ptrStallFenceLo ∨ r = .ptrStallFenceHi ∨ r = .ptrEscStatus) fun t =>
      (∀ n, t.stallFenced n = false) ∧ Takes s t .ptrEscStatus F.ptrEscStatus_FENCES 0) ∧
    (s.aux = true → exec .clearHistory s = .next { s with dieHist := [], attribs := [] })

/-! ### Seals and mirrors (R388 to R398) -/

/-- REVERT is judged by state, running work and TRY, and takes the new TRY, a new attempt and no READY; REMIRROR restarts a failed
mirror; a seal completes on its tally, whose runs the letters of neighbours raise; a mirror whose last letter is receipted is done,
and a step overdue is reported.
A run as the longest of those reported, which letters are taken and which discarded, and that FULL sets FAIL, are the model's choices (log
entry 62). -/
def Obligations.SealsAndMirrors : Prop :=
  ∀ (s : State) (c : Fin 64) (tr : BitVec 16), s.dieUp = true →
    let ss := Reg.hstCtxSealState c
    let cmd := Reg.hstCtxSealCmd c
    let pr := Reg.stlUpdProgress c
    let res := if s.ctxState c ≠ 1 then 2 else if s.ctxRunning c then 1
      else if !newer16 tr (BitVec.ofNat 16 (s.sealTry c)) then 3 else 0
    let noMirror := s.flag (.hstCtxMirror c) F.hstCtxMirror_EN = false
    (res ≠ 0 → Sets s (exec (.revert c tr) s) (fun r => r = cmd) fun t => Takes s t cmd F.hstCtxSealCmd_RESULT res) ∧
    (res = 0 → Does s (exec (.revert c tr) s) (fun r => r = cmd ∨ r = ss ∨ r = pr) fun t =>
      Takes s t cmd F.hstCtxSealCmd_RESULT 0 ∧ t.sealTry c = tr.toNat ∧ t.mineWritten c = false ∧
      t.fld pr F.stlUpdProgress_ATTEMPT = (s.fld pr F.stlUpdProgress_ATTEMPT + 1) % 2 ^ 32 ∧
      t.fld pr F.stlUpdProgress_FOLDS_DONE = 0 ∧
      t.sealRec c = { s.sealRec c with fromMinus := [], fromPlus := [] }) ∧
    (s.flag ss F.hstCtxSealState_FAIL = false → exec (.remirror c) s = .next s) ∧
    (s.flag ss F.hstCtxSealState_FAIL = true → Leaves (exec (.remirror c) s) fun t => t.stalls = s.stalls ∧
      t.fld ss F.hstCtxSealState_FAIL = t.fld ss F.hstCtxSealState_FULL ∧ (noMirror → t.fld ss F.hstCtxSealState_FAIL = 0)) ∧
    (s.ctxState c ≠ 1 → exec (.sealResendTimer c) s = .next s) ∧
    (s.ctxState c = 1 → Leaves (exec (.sealResendTimer c) s) fun t => t.stalls = s.stalls ∧
      ((s.writtenTally c).2 = true → t.sealed c = s.sealStep c ∧ t.mineWritten c = false) ∧
      ((s.writtenTally c).2 = false → t.sealed c = s.sealed c ∧ t.mineWritten c = s.mineWritten c)) ∧
    (∀ m, (s.sealRec c).mirror = some m →
      (m.todo = [] → s.owes (.mirror c) = false → s.ctxState c = 1 → s.mineWritten c = false →
        Leaves (exec (.mirrorComplete c) s) fun t => t.stalls = s.stalls ∧ (t.sealRec c).mirror = none ∧
          t.flag ss F.hstCtxSealState_MDONE = true) ∧
      (m.todo ≠ [] ∨ s.owes (.mirror c) = true ∨ s.ctxState c ≠ 1 → exec (.mirrorComplete c) s = .next s)) ∧
    (s.mineWritten c = true → s.fld (.hstCtxSeal c) F.hstCtxSeal_STEP_S ≠ 0 →
      Sets s (exec (.stepTimerExpiry c) s) (fun r => r = ss) fun t =>
        Takes s t ss F.hstCtxSealState_OVERDUE 1 ∧ t.irqs = s.irqs ++ [257]) ∧
    (s.mineWritten c = false ∨ s.fld (.hstCtxSeal c) F.hstCtxSeal_STEP_S = 0 → exec (.stepTimerExpiry c) s = .next s) ∧
    ∀ lt : Letter, lt.cls = .bulk → lt.op = 1 → s.globalOn = true →
      (s.ctxOfTag lt.jobTag = none → Leaves (exec (.sealLetterReceive lt) s) fun t => Counted s t .soNocontext 1 ∧ t.seals = s.seals) ∧
      (s.ctxOfTag lt.jobTag = some c → s.fenced c = true →
        Leaves (exec (.sealLetterReceive lt) s) fun t => Counted s t .soRefusedFenced 1 ∧ t.seals = s.seals) ∧
      (s.ctxOfTag lt.jobTag = some c → s.fenced c = false → (s.recvStream (streamOf lt)).judge lt.postmark = .new →
        s.mineWritten c = false → s.mineMirror c = false →
        let a := Fin.ofNat 4 (natAt lt.body 6 1 % 4)
        let L := s.planLen c a
        natAt lt.body 6 1 / 4 % 2 = 0 → a ∈ s.sealAxes c → s.hasMinus c a = true →
        natAt lt.body 7 1 = (s.slicePos c a + L - 1) % L → lt.src = s.neighbour a false →
        BitVec.ofNat 32 (natAt lt.body 0 4) = s.sealStep c → natAt lt.body 4 2 = s.sealTry c →
        newer32 (BitVec.ofNat 32 (natAt lt.body 8 4)) (s.mirrorStep c) = false →
        Leaves (exec (.sealLetterReceive lt) s) fun t => t.stalls = s.stalls ∧ t.sealed c = s.sealed c ∧
          AMap.get 0 a (t.sealRec c).fromMinus = max (natAt lt.body 12 1) (AMap.get 0 a (s.sealRec c).fromMinus) ∧
          (t.recvStream (streamOf lt)).judge lt.postmark ≠ .new)

/-! ### Ports (R215 to R221, R231, R232) -/

/-- A port's training: signal starts its steps; a step's limit excludes strands, and without one at full rate the port trains at
half rate, and without one at half rate fails, whether a step's time or the lane numbers exclude the last one; where the limit of
step 5 passes, it fails at either rate; it is UP on the strands of both ends whose lane numbers each arrive once; a failure is
tried again. -/
def Obligations.PortTraining : Prop :=
  ∀ (s : State) (p : Fin 8) (bad peer : BitVec 4) (peerHalf plain : Bool) (m : LaneMap),
    let x := s.port p
    let once := m.mapped
    let with' := fun t : Training => s.setPort p { x with training := t }
    let fails := fun (o : Out) => Leaves o fun t => t.port p = { x with training := .retry } ∧
      Takes s t (.soPortEvents p) F.soPortEvents_TRAIN_FAIL 1 ∧ t.irqs = s.irqs ++ [258] ∧ t.stalls = s.stalls ∧ t.mem = s.mem
    (s.trains p = false → exec (.signalDetect p) s = .next s ∧ (∀ o, exec (.trainingStepTimeout p o) s = .next s) ∧
      exec (.portUp p peer peerHalf plain m) s = .next s ∧ exec (.trainingRetry p) s = .next s) ∧
    (∀ k : Fin 4, once.getLsbD k.val = true ↔
      ∀ l : Fin 48, l.val / 12 = k.val → ((List.finRange 48).filter fun i => m[i].1.val = l.val).length = 1) ∧
    (s.trains p = true →
      (x.training = .signal → s.flag (.soPortStatus p) F.soPortStatus_DARK = false → exec (.signalDetect p) s =
        .next (with' (.steps (s.flag (.soPortCtrl p) F.soPortCtrl_HALF_ONLY) (~~~x.excluded)))) ∧
      (x.training = .retry → exec (.trainingRetry p) s = .next (with' .signal)) ∧
      ∀ half st, x.training = .steps half st →
        (st &&& ~~~bad ≠ 0 → exec (.trainingStepTimeout p (some bad)) s = .next (with' (.steps half (st &&& ~~~bad)))) ∧
        (st &&& ~~~bad = 0 → half = false →
          exec (.trainingStepTimeout p (some bad)) s = .next (with' (.steps true (~~~x.excluded)))) ∧
        (st &&& ~~~bad = 0 → half = true → fails (exec (.trainingStepTimeout p (some bad)) s)) ∧
        fails (exec (.trainingStepTimeout p none) s) ∧
        (s.axisReleased (portAxis p) = true → st &&& once = 0 → half = false →
          exec (.portUp p peer peerHalf plain m) s = .next (with' (.steps true (~~~x.excluded)))) ∧
        (s.axisReleased (portAxis p) = true → st &&& once = 0 → half = true → fails (exec (.portUp p peer peerHalf plain m) s)) ∧
        (s.axisReleased (portAxis p) = true → st &&& once ≠ 0 → st &&& peer &&& once = 0 →
          fails (exec (.portUp p peer peerHalf plain m) s)) ∧
        (s.axisReleased (portAxis p) = true → st &&& peer &&& once ≠ 0 → Leaves (exec (.portUp p peer peerHalf plain m) s) fun t =>
          t.portState p = 3 ∧ t.strands p = st &&& peer &&& once ∧ t.portHalf p = (half || peerHalf) ∧
          t.fld (.soPortDisc p) F.soPortDisc_OUTCOME = 0 ∧ (t.port p).training = .idle ∧
          (∀ l k : Fin 48, let on := (st &&& peer &&& once).getLsbD (l.val / 12)
            t.fld (.soLaneStat p l) F.soLaneStat_LOCK = (if on then 1 else 0) ∧
            (m[k].1.val = l.val → t.fld (.soLaneStat p l) F.soLaneStat_PEER_LANE = (if on then k.val else 0) ∧
              t.fld (.soLaneStat p l) F.soLaneStat_POLARITY = (if on && m[k].2 then 1 else 0))) ∧
          ((half || peerHalf) = true → plain = true → Takes s t (.soPortEvents p) F.soPortEvents_RATE_HALF 1) ∧
          t.stalls = s.stalls ∧ t.mem = s.mem ∧ ∀ q, q ≠ p → t.port q = s.port q ∧ t.portState q = s.portState q))

/-- Going down: by DISABLE, RETRAIN, a received DOWN, lost light, or training without an answer, a port keeps no strand, no letter
of its buffers and none that waits for it, and one that had a peer counts it and raises its event. A port that is enabled again trains where
its axis is released and held, and runs in loopback where the axis is engaged under FORCE.
That what its input buffer holds is gone with it, and what waits for it is discarded, is the model's choice (log entry 74). -/
def Obligations.PortsGoDown : Prop :=
  ∀ (s : State) (p : Fin 8), s.dieUp = true →
    let gone := fun (o : Out) (state : Nat) (tr : Training) => Leaves o fun t =>
      t.portState p = state ∧ (t.port p).training = tr ∧ t.strands p = 0 ∧ (∀ o ∈ t.outQ, o.port ≠ p) ∧
      (∀ e ∈ t.rxHeld, e.port ≠ p) ∧ (∀ e ∈ t.portIn, e.1 ≠ p) ∧
      (s.linkUp p = true → Counted s t (.soPortDowns p) 1 ∧ t.flag (.soPortEvents p) F.soPortEvents_LINK_DOWN = true ∧
        t.fld (.soPortDisc p) F.soPortDisc_OUTCOME = 0 ∧ 258 ∈ t.irqs) ∧
      t.stalls = s.stalls ∧ t.mem = s.mem ∧ ∀ q, q ≠ p → t.port q = s.port q ∧ t.portState q = s.portState q
    let off := s.portDisabled p
    let dark := s.flag (.soPortStatus p) F.soPortStatus_DARK
    (off = false → gone (exec (.disable p true) s) 0 .idle) ∧
    (∀ b, off = b → exec (.disable p b) s = .next s) ∧
    (off = true → s.axisReleased (portAxis p) = true → s.axisHeld (portAxis p) = true → gone (exec (.disable p false) s) 2 .signal) ∧
    (off = true → s.axisReleased (portAxis p) = false ∨ s.axisHeld (portAxis p) = false →
      gone (exec (.disable p false) s) (if s.axisForced (portAxis p) && s.axisEngaged (portAxis p) then 1 else 6) .idle) ∧
    (off = false → s.linkUp p = true ∨ s.portState p = 2 ∨ s.portState p = 5 → gone (exec (.retrain p) s) 2 .signal) ∧
    (s.linkUp p = true → gone (exec (.down p) s) 2 .signal) ∧
    (s.linkUp p = false → exec (.down p) s = .next s) ∧
    (p.val < 4 ∨ dark = true → exec (.lightLoss p) s = .next s) ∧
    (4 ≤ p.val → dark = false → s.linkUp p = true → gone (exec (.lightLoss p) s) 2 .idle ∧
      Leaves (exec (.lightLoss p) s) fun t => t.flag (.soPortStatus p) F.soPortStatus_DARK = true) ∧
    (dark = true → Leaves (exec (.lightSteady p) s) fun t => Takes s t (.soPortStatus p) F.soPortStatus_DARK 0 ∧
      (s.trains p = true → (t.port p).training = .signal) ∧ (s.trains p = false → t.ports = s.ports)) ∧
    (s.portState p = 2 → dark = false → s.axisReleased (portAxis p) = true → Leaves (exec (.absentTimeout p) s) fun t =>
      t.portState p = 5 ∧ t.fld (.soPortDisc p) F.soPortDisc_OUTCOME = 3 ∧
      t.fld (.soPortDisc p) F.soPortDisc_CAUSE = (if s.flag (.ptrPlanPeer p) F.ptrPlanPeer_EXPECT then 10 else 11) ∧
      t.ports = s.ports)

/-- Strands of a port with a link: a failed lane's strand is dropped by agreement at a frame number, or the port goes down where
fewer than MIN_STRANDS would stay of those that no drop asked for or agreed takes away; dropped strands train again, and are added by
agreement at a frame number. An agreement leaves the others as they are, and a strand agreed twice has the later frame. In the receive
direction a strand turns with the frame that the agreement names: frames before it are received on the strands of before.
A lane's frame: what FEC corrects and what it cannot is counted for the lane that the frame names and for the port; one of another
length is no frame and faults, by the model's choice (log entry 25), and a lane without a strand in use at its frame receives none.
A DROP and a RESTORE take effect 16 frames after the frame that carries them, which is the next. That a port which is up asks for the
strands that have trained again is the model's choice (log entry 71). -/
def Obligations.LanesAndStrands : Prop :=
  (∀ (s : State) (p : Fin 8) (m : BitVec 4) (at' : BitVec 8) (lm : LaneMap) (half plain : Bool), s.dieUp = true → s.linkUp p = true →
      let x := s.port p
      let st := s.strands p
      let cmd := fun (k : Nat) (m : BitVec 4) (f : BitVec 8) => (p, BitVec.ofNat 16 (k + m.toNat * 2 ^ 4 + f.toNat * 2 ^ 8))
      let told := fun (y : Port) (k : Nat) (m : BitVec 4) (f : BitVec 8) =>
        ({ s.setPort p y with linkCmds := s.linkCmds ++ [cmd k m f] } : State)
      let frame := fun (k : Fin 4) (xs : AMap (Fin 4) (BitVec 8)) => (xs.find? fun e => e.1 = k).map (·.2)
      let unc := s.fld (.soPortLimits p) F.soPortLimits_UNCORR_LIMIT
      let corr := 2 ^ s.fld (.soPortLimits p) F.soPortLimits_CORR_LOG2
      let turning := fun (y : Port) (n : BitVec 4) (add : Bool) (xs : AMap (Fin 4) (BitVec 8)) => y.turn n add (agreeAt n at' xs)
      let adding := fun n : BitVec 4 =>
        let xs := agreeAt (n &&& ~~~st) at' x.addAt
        ({ x with restoring := x.restoring &&& ~~~n, failing := x.failing &&& ~~~n, addAt := xs } : Port).turn n true xs
      let past := fun l => (unc ≠ 0 ∧ unc ≤ AMap.get 0 l x.winUnc) ∨ corr ≤ AMap.get 0 l x.winCorr
      (∀ (n : BitVec 4) (f : BitVec 8) (xs : AMap (Fin 4) (BitVec 8)) (k : Fin 4), frame k (agreeAt n f xs) =
        if n.getLsbD k.val then some (match frame k xs with | some g => (if (f - g).toNat < 128 then f else g) | none => f)
        else frame k xs) ∧
      (Leaves (exec (.laneErrorWindow p) s) fun t =>
        (∀ l ∈ strandLanes st, past l → t.flag (.soLaneStat p l) F.soLaneStat_FAILED = true) ∧
        ((∀ l ∈ strandLanes st, ¬ past l) → t = s.setPort p { x with winCorr := [], winUnc := [] })) ∧
      (strandCount (s.staying p &&& ~~~m) < s.minStrands p → Leaves (exec (.drop p m at') s) fun t =>
        t.portState p = 2 ∧ t.linkCmds = s.linkCmds ++ [cmd 5 0 0]) ∧
      (s.minStrands p ≤ strandCount (s.staying p &&& ~~~m) → x.drop = [] →
        exec (.drop p m at') s = .next (told (turning { x with dropAt := agreeAt m at' x.dropAt } m false x.dropAt) 2 m at')) ∧
      (∀ d, (x.drop.find? fun d => d.1 = m && d.2.1 = at') = some d →
        exec (.dropAck p m at') s = .next (s.setPort p
          (turning { x with drop := x.drop.erase d, dropAt := agreeAt m at' x.dropAt } m false x.dropAt))) ∧
      ((∀ d ∈ x.drop, d.1 ≠ m ∨ d.2.1 ≠ at') → exec (.dropAck p m at') s = .next s) ∧
      (∀ n f tries ds, x.drop = (n, f, tries) :: ds →
        (tries < 8 → exec (.dropAckTimeout p) s =
          .next (told { x with drop := ds ++ [(n, x.fseq + 17, tries + 1)] } 1 n (x.fseq + 17))) ∧
        (8 ≤ tries → Leaves (exec (.dropAckTimeout p) s) fun t => t.portState p = 2)) ∧
      (x.drop = [] → exec (.dropAckTimeout p) s = .next s) ∧
      (x.dropAt = [] → exec (.strandDropAtFseq p) s = .next s) ∧
      (∀ f, x.nextDrop = some f →
        let gone := dueAt f x.dropAt
        Leaves (exec (.strandDropAtFseq p) s) fun t =>
          Counted s t (.soPortDrops p) (strandCount (st &&& gone)) ∧
          t.flag (.soPortEvents p) F.soPortEvents_STRAND_DROP = true ∧ t.strands p = st &&& ~~~gone ∧
          (st &&& ~~~gone = 0 → t.portState p = 2) ∧
          (st &&& ~~~gone ≠ 0 → (t.port p).dropAt = x.dropAt.filter fun e => e.2 ≠ f)) ∧
      (exec (.restore p m) s = .next (if m &&& ~~~st = 0 then s else s.setPort p { x with restoring := x.restoring ||| (m &&& ~~~st) })) ∧
      (let on := m &&& lm.mapped &&& ~~~st
       let ask := on &&& x.restoring
       Leaves (exec (.portUp p m half plain lm) s) fun t => t.ports = s.ports ∧ t.strands p = st ∧
        t.linkCmds = s.linkCmds ++ (if ask = 0 then [] else [cmd 3 ask (x.fseq + 17)]) ∧
        ∀ l k : Fin 48, on.getLsbD (l.val / 12) = true → lm[k].1.val = l.val →
          t.fld (.soLaneStat p l) F.soLaneStat_PEER_LANE = k.val ∧
          t.fld (.soLaneStat p l) F.soLaneStat_POLARITY = (if lm[k].2 then 1 else 0)) ∧
      (exec (.restoreLinkCommand p m at') s =
        .next (told (adding m) 4 m at')) ∧
      (exec (.restoreAck p m at') s = .next (s.setPort p (adding (m &&& x.restoring)))) ∧
      (∀ (n : BitVec 4) (add : Bool) (xs : AMap (Fin 4) (BitVec 8)) (k : Fin 4) (q : BitVec 8), x.turns = [] →
        ((s.setPort p (x.turn n add xs)).rxStrands p q).getLsbD k.val = match n.getLsbD k.val, frame k xs with
          | true, some f => if 128 ≤ (q - f).toNat then !add else add
          | _, _ => st.getLsbD k.val) ∧
      (let due := dueAt x.fseq x.addAt
       (s.addDue p).strands p = st ||| due ∧ ∀ l : Fin 48, due.getLsbD (l.val / 12) = true →
        (s.addDue p).flag (.soLaneStat p l) F.soLaneStat_FAILED = false ∧
        (s.addDue p).flag (.soLaneStat p l) F.soLaneStat_LOCK = true) ∧
      (x.restoring ≠ 0 → Leaves (exec (.restoreTimeout p) s) fun t => t.port p = { x with restoring := 0 } ∧
        Takes s t (.soPortEvents p) F.soPortEvents_RESTORE_FAIL 1) ∧
      (x.restoring = 0 → exec (.restoreTimeout p) s = .next s) ∧
      (∀ k, x.hunting = some k → (k < 4096 → exec (.resyncLimit p) s = .next s) ∧
        (4096 ≤ k → Leaves (exec (.resyncLimit p) s) fun t => t.portState p = 2))) ∧
  (∀ (s : State) (p : Fin 8) (k : Fin 48) (fseq : BitVec 8) (fr : List Byte), s.dieUp = true →
      let l := s.frameLane p k (some fr)
      let r := Reg.soLaneStat p l
      let d := fecDecode fr
      let active := fun (i : Fin 48) (y : Option (List Byte)) =>
        s.linkUp p = true ∧ (s.rxStrands p (rxFrame i fseq y).1.fseq).getLsbD (i.val / 12) = true
      (fr.length ≠ 1024 → exec (.laneFrameReceive p k fseq (some fr)) s = .fault (.illFormed "LANE_FRAME_RECEIVE")) ∧
      (d.uncorr = 0 → natAt d.bytes 0 2 = 0x3CA5 → natAt d.bytes 2 1 % 64 < 48 → l.val = natAt d.bytes 2 1 % 64) ∧
      (¬ active l (some fr) → fr.length = 1024 → exec (.laneFrameReceive p k fseq (some fr)) s = .next s) ∧
      (¬ active (s.laneAt p k) none → exec (.laneFrameReceive p k fseq none) s = .next s) ∧
      (active l (some fr) → fr.length = 1024 → Leaves (exec (.laneFrameReceive p k fseq (some fr)) s) fun t =>
        t.fld r F.soLaneStat_CORR = min (2 ^ 32 - 1) (s.fld r F.soLaneStat_CORR + d.corr) ∧
        t.fld r F.soLaneStat_UNCORR = min (2 ^ 16 - 1) (s.fld r F.soLaneStat_UNCORR + d.uncorr) ∧
        Counted s t (.soPortFecCorr p) d.corr ∧ Counted s t (.soPortFecUncorr p) d.uncorr ∧ t.stalls = s.stalls ∧ t.mem = s.mem) ∧
      (active (s.laneAt p k) none → Leaves (exec (.laneFrameReceive p k fseq none) s) fun t =>
        t.rd (.soPortFecCorr p) = s.rd (.soPortFecCorr p) ∧
        (AMap.get 0 (s.laneAt p k) (s.port p).noMark = 3 → t.flag (.soLaneStat p (s.laneAt p k)) F.soLaneStat_FAILED = true) ∧
        t.stalls = s.stalls ∧ t.mem = s.mem))

/-! ### Letters on a link (R237 to R246) -/

/-- An output starts the letter that its arbiter chooses among those that its port carries and that hold credit: its flits go to the
wire and are counted, and its granules are held from the next buffer; a letter whose body fails in the buffer before its head has left
is discarded whole, and later its failed flit goes out as such; that the release to port 8, and of what staging and a port hold, are cases
of LETTER_START is the model's choice (log entry 69). A received head that fails its check is counted, as are a body that
failed, a letter of 48 hops, whose granules are free again, and one without room; an identity letter is the port's own. Any other goes
where the routing tables take it: behind a port, on the VC of that hop and with one hop more, or to this chip's own letters; where they take
it nowhere it is counted, and nothing waits. That a letter is taken once its whole body has arrived is the model's choice (log entry 73). -/
def Obligations.LettersOnALink : Prop :=
  ∀ (s : State) (p : Fin 8), s.dieUp = true → s.linkUp p = true →
    let a := AMap.get {} p s.arbs
    let x := s.port p
    let pick := a.choose ((s.heads p).filter fun o => s.carries p o.lt.cls o.through && s.hasCredit o)
    (pick = none → ∀ bad, exec (.letterStart (some p) bad) s = .next s) ∧
    (∀ o, pick = some o → o.port = p →
      (∀ bad, bad ≠ some none ∨ flitsOf o.lt = 0 →
        let fails := fun k : Nat => k < flitsOf o.lt ∧ bad = some (some k)
        Leaves (exec (.letterStart (some p) bad) s) fun t =>
          t.wire.map (fun f => (f.1, f.2.1)) = s.wire.map (fun f => (f.1, f.2.1)) ++ (wireFlits (s.stampOut p o.lt).2).map (fun f => (p, f)) ∧
          (∀ k, k ≤ flitsOf o.lt →
            ((t.wire[s.wire.length + k]?).map (·.2.2)) = some (decide (0 < k ∧ bad = some (some (k - 1))))) ∧
          (∀ k, fails k → Counted s t .soDeadBody 1) ∧ (o.lt.cls ≠ .coll ∨ s.postQ = [] → QueuesAfter t (s.outQ.erase o)) ∧
          (∀ y ∈ t.outstanding, o.isOf y.key y.letter.postmark = true → y.limit = s.fld .soPostCtrl F.soPostCtrl_RETRIES) ∧
          (t.txVc p o.lt.vc).held = (s.txVc p o.lt.vc).held ++ [(granulesOf o.lt, !o.through)] ∧
          Counted s t (if o.through then .soPortFlitsThrough p else .soPortFlitsInjected p) (1 + flitsOf o.lt) ∧
          t.stalls = s.stalls) ∧
      (flitsOf o.lt ≠ 0 → Leaves (exec (.letterStart (some p) (some none)) s) fun t =>
        t.wire = s.wire ∧ t.outQ = s.outQ.erase o ∧ t.tx = s.tx ∧ Counted s t .soDeadBody 1)) ∧
    (exec (.letterStart none none) s = .next s) ∧
    (∀ lt rest, s.inbox = lt :: rest → flitsOf lt ≠ 0 → Leaves (exec (.letterStart none (some none)) s) fun t =>
      t.inbox = rest ∧ t.stalls = s.stalls ∧ Counted s t .soDeadBody 1) ∧
    (∀ g k, s.collStage[k]? = some g → flitsOf g.letter ≠ 0 → Leaves (exec (.letterStart none (some (some k))) s) fun t =>
      t.collStage = s.collStage.erase g ∧ t.stalls = s.stalls ∧ Counted s t .soDeadBody 1) ∧
    (let held := s.collStage.length + (s.collOps.flatMap fun o => o.partials).length +
        (s.circs.filter fun x => x.frame.isSome && s.circHeld x).length
     ∀ q lt k, s.portIn[k]? = some (q, lt) → flitsOf lt ≠ 0 → Leaves (exec (.letterStart none (some (some (held + k)))) s) fun t =>
       t.portIn = s.portIn.erase (q, lt) ∧ t.stalls = s.stalls ∧ Counted s t .soDeadBody 1) ∧
    (x.hunting = none → x.flits = [] → exec (.letterHeadReceive p) s = .next s) ∧
    (∀ f fs, x.hunting = none → x.flits = f :: fs → (f.any fun b => headOk b) = false →
      Leaves (exec (.letterHeadReceive p) s) fun t => (t.port p).hunting = some 0 ∧ (t.port p).flits = fs ∧
        Counted s t .soDeadHcrc 1) ∧
    ∀ f fs, x.hunting = none → x.flits = some f :: fs → headOk f = true →
      let h := readHead f
      let n := flitsOf h
      let room := roomFor (poolOf p) (s.rxGranules p) h.vc (granulesOf h)
      let drops := fun (r : Reg) => Leaves (exec (.letterHeadReceive p) s) fun t =>
        Counted s t r 1 ∧ (t.port p).flits = fs.drop n ∧ t.rxHeld = s.rxHeld ∧
        AMap.get 0 (p, h.vc) t.freed = (AMap.get 0 (p, h.vc) s.freed + granulesOf h) % 4096
      (fs.length < n → exec (.letterHeadReceive p) s = .next s) ∧
      (n ≤ fs.length →
        (room = false → Leaves (exec (.letterHeadReceive p) s) fun t => Counted s t (.soPortCreditErr p) 1 ∧ t.portState p = 2) ∧
        (room = true → none ∈ fs.take n → drops .soDeadBody) ∧
        (room = true → none ∉ fs.take n → 48 ≤ h.hops.toNat → drops .soNoroute) ∧
        (room = true → none ∉ fs.take n → h.hops.toNat < 48 → h.cls = .mgmt → h.op = 1 →
          Leaves (exec (.letterHeadReceive p) s) fun t => ∃ lt : Letter,
            lt.cls = .mgmt ∧ lt.op = 1 ∧ t.portIn = s.portIn ++ [(p, lt)] ∧
            t.rxHeld = s.rxHeld ++ [{ port := p, vc := h.vc, granules := granulesOf h, lt := lt }]) ∧
        (room = true → none ∉ fs.take n → h.hops.toNat < 48 → portLetter h = false → reservedOp h = false →
          let body := if h.cls = .request then [] else bodyOf (natAt f 60 4) h.length ((fs.take n).map fun b => b.getD [])
          let lt : Letter := { h with body := body }
          let v := epochVer h.epoch
          let held := fun (t : State) => t.rxHeld = s.rxHeld ++ [{ port := p, vc := h.vc, granules := granulesOf h, lt := lt }]
          let out := fun (P : State → Prop) => Leaves (exec (.letterHeadReceive p) s) fun t => (t.port p).flits = fs.drop n ∧ P t
          let lost := fun (r : Reg) => out fun t => Counted s t r 1 ∧ t.inbox = s.inbox ∧ t.outQ = s.outQ
          if s.carries p h.cls (decide (h.dest ≠ s.chip)) = false then lost (.soPortDowndrop p)
          else if s.rtValid v = false then lost .soEpochStale
          else match s.route v h.dest with
            | .noRoute => lost .soNoroute
            | .arrived => out fun t => held t ∧ t.inbox = s.inbox ++ [lt] ∧ t.outQ = s.outQ
            | .port q =>
              if s.carries q h.cls true = false then lost (.soPortDowndrop q)
              else if s.skips q h.dest then lost (.soPortSkipped q)
              else out fun t => held t ∧ t.inbox = s.inbox ∧ t.outQ = s.outQ ++
                [{ port := q, src := some p, inVc := h.vc,
                   lt := { lt with vc := s.hopVc v lt (some p) q, hops := h.hops + 1 } }]))

/-- The fields of a head flit come back from its bytes, and its check holds. A letter is its head flit and one body flit for each 64
bytes of its payload, the last filled up with zeros; whatever those hold, the receiver's payload is the sender's (R234). A REQUEST has no
payload, and is its head flit alone (R235). -/
def Obligations.LettersAsFlits : Prop :=
  ∀ lt : Letter,
    let hcrc := natAt (headFlit lt) 60 4
    let n := (lt.length + 63) / 64
    (lt.length < 2 ^ 13 → lt.body = [] → lt.circVa = 0 →
      (headFlit lt).length = 64 ∧ headOk (headFlit lt) = true ∧ headReserved (headFlit lt) = true ∧ readHead (headFlit lt) = lt) ∧
    (lt.cls = .request → wireFlits lt = [headFlit lt]) ∧
    (lt.cls ≠ .request → lt.length ≤ 4096 → lt.body.length = lt.length →
      (wireFlits lt).length = 1 + n ∧ (wireFlits lt).head? = some (headFlit lt) ∧
      (∀ k i, k < n → i < 64 → (patternFlit hcrc k ((wireFlits lt).getD (k + 1) [])).getD i 0 =
        if 64 * k + i < lt.length then lt.body.getD (64 * k + i) 0 else 0) ∧
      ∀ raw : List (List Byte), raw.length = n → (∀ f ∈ raw, f.length = 64) → raw.flatten.take lt.length = lt.body →
        bodyOf hcrc lt.length (raw.zipIdx.map fun e => patternFlit hcrc e.2 e.1) = lt.body)

/-! ### Discovery and the plan (R333 to R339) -/

/-- Identity letters and outcomes: a port with a link sends its identity; once each end has seen the other's, the outcome is that of
R338, and the port is UP where it is ACCEPTED and quarantined otherwise. A silent peer, and none at all, have their outcomes.
The operator's plan: a port's entry takes the value written, and evaluates its peer again; before Stage 3 the chip's entry is refused
where the chip lies outside it and while an axis is held elsewhere, and is latched by the die at once (log entry 76, the model's choice);
in Stage 3 it keeps its locked fields, takes PLAN_GEN, and counts a violation, also for such a write (log entry 106, the model's choice). -/
def Obligations.DiscoveryAndPlanWrites : Prop :=
  (∀ (s : State) (p : Fin 8) (lt : Letter), s.dieUp = true →
      let x := s.port p
      let b := bytesAt lt.body 0 64
      let shows := fun (t : State) (o cause : Nat) => t.fld (.soPortDisc p) F.soPortDisc_OUTCOME = o ∧
        t.fld (.soPortDisc p) F.soPortDisc_CAUSE = cause
      let judged := fun (t : State) (b : List Byte) => shows t (s.judgePeer p b).1 (s.judgePeer p b).2 ∧
        t.portState p = (if (s.judgePeer p b).1 = 1 then 3 else 4) ∧ (t.port p).evaluated = true
      (s.linkUp p = false ∨ (x.sentSeen = true ∧ x.gotSeen = true) → exec (.identitySend p) s = .next s) ∧
      (s.linkUp p = true → ¬ (x.sentSeen = true ∧ x.gotSeen = true) → Leaves (exec (.identitySend p) s) fun t =>
        (∃ o ∈ t.outQ, o.port = p ∧ o.lt.cls = .mgmt ∧ o.lt.op = 1 ∧ o.lt.length = 64 ∧
          o.lt.body = bytesAt (s.identityBody p x.identity.isSome) 0 64) ∧
        (t.port p).sentSeen = (x.sentSeen || x.identity.isSome) ∧
        ∀ i, x.identity = some i → x.gotSeen = true → x.evaluated = false → judged t i) ∧
      (s.linkUp p = true → lt.cls = .mgmt → lt.op = 1 →
        ((b.drop 0x18).any (fun y => y ≠ 0) = true → Leaves (exec (.identityReceive p lt) s) fun t => t.ports = s.ports) ∧
        ((b.drop 0x18).any (fun y => y ≠ 0) = false → Leaves (exec (.identityReceive p lt) s) fun t =>
          (t.port p).identity = some b ∧ (t.port p).gotSeen = (x.gotSeen || bitOf (natAt b 0x0F 1) 0) ∧
          t.fld (.soPortDisc p) F.soPortDisc_PEER_PLAN_GEN = natAt b 0x14 2 ∧
          t.fld (.soPortDisc p) F.soPortDisc_PEER_FW = natAt b 0x10 4 ∧
          (x.sentSeen = true → (x.gotSeen || bitOf (natAt b 0x0F 1) 0) = true → x.evaluated = false → judged t b))) ∧
      (s.linkUp p = true → x.identity = none → x.evaluated = false → Leaves (exec (.discoverySilent p) s) fun t =>
        t.portState p = 4 ∧ shows t 2 9) ∧
      (x.identity ≠ none → exec (.discoverySilent p) s = .next s) ∧
      (s.portState p = 2 → s.axisReleased (portAxis p) = true → Leaves (exec (.discoveryMissing p) s) fun t =>
        t.portState p = 5 ∧ shows t 3 (if s.flag (.ptrPlanPeer p) F.ptrPlanPeer_EXPECT then 10 else 11)) ∧
      (s.portState p ≠ 2 → exec (.discoveryMissing p) s = .next s)) ∧
  ∀ (s : State) (p : Fin 8) (v : BitVec 64), s.aux = true →
    let r := Reg.ptrPlanPeer p
    let c := Reg.ptrPlanChip
    let x := s.port p
    let takes := fun t : State => ∀ f ∈ r.fields, f.get (t.rd r) = f.get v
    (x.identity = none ∨ s.dieUp = false ∨ s.linkUp p = false ∨ x.evaluated = false →
      Sets s (exec (.planPeerWrite p v) s) (fun q => q = r) takes) ∧
    (∀ b, x.identity = some b → s.dieUp = true → s.linkUp p = true → x.evaluated = true →
      Leaves (exec (.planPeerWrite p v) s) fun t => takes t ∧
        t.fld (.soPortDisc p) F.soPortDisc_OUTCOME = ((s.regWrite r v).judgePeer p b).1 ∧
        t.fld (.soPortDisc p) F.soPortDisc_CAUSE = ((s.regWrite r v).judgePeer p b).2) ∧
    (s.stage ≠ 3 → placeOk v = false ∨ (s.fld .ptrBypass F.ptrBypass_HOLD ≠ 0 ∧ planPlace v ≠ planPlace (s.rd c)) →
      exec (.planChipWrite v) s = .next s) ∧
    (s.stage ≠ 3 → placeOk v = true → (s.fld .ptrBypass F.ptrBypass_HOLD = 0 ∨ planPlace v = planPlace (s.rd c)) →
      Leaves (exec (.planChipWrite v) s) fun t => t = { s with regs := t.regs, chip := t.chip } ∧ OnlyRegs (fun q => q = c) s t ∧
        (∀ f ∈ c.fields, f.get (t.rd c) = f.get v) ∧
        t.chip = if s.dieUp then BitVec.ofNat 14 (F.ptrPlanChip_CHIP_NUM.get v) else s.chip) ∧
    (s.stage = 3 →
      Sets s (exec (.planChipWrite v) s) (fun q => q = c ∨ q = .ptrLockViolations ∨ q = .ptrAon 371) fun t =>
      t.fld c F.ptrPlanChip_PLAN_GEN = F.ptrPlanChip_PLAN_GEN.get v ∧
      (∀ f ∈ c.fields, f.acc = .rwl → f.get (t.rd c) = f.get (s.rd c)) ∧
      ((∀ f ∈ c.fields, f.acc = .rwl → f.get v = f.get (s.rd c)) → t.rd .ptrLockViolations = s.rd .ptrLockViolations) ∧
      ((∃ f ∈ c.fields, f.acc = .rwl ∧ f.get v ≠ f.get (s.rd c)) →
        t.fld .ptrLockViolations F.ptrLockViolations_COUNT =
          min (2 ^ 48 - 1) (s.fld .ptrLockViolations F.ptrLockViolations_COUNT + 1)))

/-! ### The bypass (R222 to R227, R233, R346) -/

/-- GRANT starts an axis's handover, or answers why not; the ports that trained on their loops let the die hold the axis; the porter
drives the elements by the holds; a handover that trains no port fails; FORCE and a wrong position let the axis go. An electrical
element that is not in its commanded state is treated as unpowered: it is open, neither engaged nor released, and its ports have no link.
That a loop on either port is enough (log entry 75), that an optical element which is not in its commanded state is in the other one, that
a check which finds it there is as its settling, and what FORCE does to the ports of an engaged axis (log entry 77), are the model's
choices. -/
def Obligations.BypassHandover : Prop :=
  ∀ (s : State) (a : Fin 4) (plus minus : BitVec 4) (ok on : Bool), s.aux = true →
    let b := Reg.ptrBypass
    let why := s.grantCheck a
    let sides := [(axisPort a true, plus), (axisPort a false, minus)]
    let failed := fun (o : Out) => Leaves o fun t => t.axisHeld a = false ∧ t.handover = none ∧
      t.flag .ptrStage F.ptrStage_BUSY = false ∧ (∀ p ∈ axisPorts a, s.portDisabled p = false → t.portState p = 5) ∧
      ∀ p ∈ axisPorts a, t.flag (.soPortEvents p) F.soPortEvents_TRAIN_FAIL = true
    (why ≠ 0 → Sets s (exec (.grant a) s) (fun r => r = .ptrStage) fun t =>
      t.fld .ptrStage F.ptrStage_LAST_CMD = 3 ∧ t.fld .ptrStage F.ptrStage_CMD_RESULT = why) ∧
    (why = 0 → Leaves (exec (.grant a) s) fun t => t.handover = some { axis := a } ∧
      t.fld .ptrStage F.ptrStage_BUSY = 1 ∧ t.fld .ptrStage F.ptrStage_BUSY_AXIS = a.val ∧
      t.fld .ptrStage F.ptrStage_LAST_CMD = 3 ∧ t.fld .ptrStage F.ptrStage_CMD_RESULT = 0 ∧
      ∀ p ∈ axisPorts a, t.fld (.soPortDisc p) F.soPortDisc_OUTCOME = 0 ∧
        (s.portDisabled p = false → t.portState p = 2 ∧ (t.port p).training = .signal)) ∧
    (∀ h, s.dieUp = true → s.handover = some h → h.axis = a →
      (h.held = false → plus = 0 → minus = 0 → failed (exec (.handoverLoopTrained a plus minus) s)) ∧
      (h.held = false → plus ≠ 0 ∨ minus ≠ 0 → Leaves (exec (.handoverLoopTrained a plus minus) s) fun t =>
        t.axisHeld a = true ∧ t.handover = some { axis := a, held := true } ∧
        ∀ e ∈ sides, s.portDisabled e.1 = false → t.portState e.1 = 1 ∧ (t.port e.1).excluded = ~~~e.2) ∧
      ((axisPorts a).any (fun p => s.linkUp p) = false → failed (exec (.handoverTimeout a) s)) ∧
      ((axisPorts a).any (fun p => s.linkUp p) = true → Leaves (exec (.handoverTimeout a) s) fun t =>
        t.handover = none ∧ t.flag .ptrStage F.ptrStage_BUSY = false ∧ t.ports = s.ports ∧ t.rd b = s.rd b)) ∧
    (s.handing a = none → exec (.handoverLoopTrained a plus minus) s = .next s ∧ exec (.handoverTimeout a) s = .next s) ∧
    (Leaves (exec .porterHoldPoll s) fun t => t = { s with regs := t.regs, released := t.released } ∧
      t.released = BitVec.ofNat 4 (s.fld b F.ptrBypass_HOLD) &&& ~~~BitVec.ofNat 4 (s.fld b F.ptrBypass_FORCE) ∧
      Takes s t .ptrStage F.ptrStage_GRANTED t.released.toNat) ∧
    (Leaves (exec (.force a on) s) fun t => t.axisForced a = on ∧ (on = true → t.axisHeld a = false) ∧
      (on = true → s.dieUp = true → s.axisEngaged a = true → ∀ p ∈ axisPorts a, s.portState p ≠ 0 → t.portState p = 1) ∧
      (on = false → t.axisHeld a = s.axisHeld a ∧ t.ports = s.ports)) ∧
    exec (.bypassPositionCheck a true) s = exec (.bypassElementSettles a) s ∧
    (ok = false → Leaves (exec (.bypassPositionCheck a ok) s) fun t => t.axisFault a = true ∧ t.axisHeld a = false ∧
      t.axisOpen a = decide (a.val < 2) ∧ t.axisEngaged a = (decide (2 ≤ a.val) && s.released.getLsbD a.val) ∧
      Redfish.bypass a ∈ t.redfish ∧
      (a.val < 2 → s.dieUp = true → s.axisOpen a = false → s.handing a = none →
        ∀ p ∈ axisPorts a, s.portState p ≠ 0 → t.portState p = 6)) ∧
    (Leaves (exec (.bypassElementSettles a) s) fun t => t.axisReleased a = s.released.getLsbD a.val ∧
      t.axisEngaged a = !s.released.getLsbD a.val ∧ t.axisFault a = false ∧
      (s.axisEngaged a = false → s.released.getLsbD a.val = false →
        t.fld .ptrBypassCount (engageFld a) = min 0xFFFF (s.fld .ptrBypassCount (engageFld a) + 1) ∧
        (s.dieUp = true → ∀ p ∈ axisPorts a, s.portState p ≠ 0 → t.portState p = 1)) ∧
      (s.axisReleased a = false → s.released.getLsbD a.val = true → s.dieUp = true → ∀ p ∈ axisPorts a,
        s.portDisabled p = false → t.portState p = 2 ∧ (t.port p).training = .signal) ∧
      ((if s.released.getLsbD a.val then s.axisReleased a = true else s.axisEngaged a = true) → t.ports = s.ports))

/-! ### Power, firmware and the stages (R329 to R335, R341, R344 to R347, R407, R428 to R434, R441) -/

/-- Aux power boots the porter, and its loss leaves what is non-volatile; verified firmware may apply main power; MAIN_ON is refused
with its cause; power good, which needs every rail 5 ms within its window, its timeout, MAIN_OFF, a protection trip and an extraction
each leave what the rules say; where rails were on they begin to fall, but for an extraction, with which all are off at once.
The order of MAIN_ON's checks (log entry 60), and that the rails' windows are Config's (log entry 107), are the model's choices, and so are
the fault for a trip of cause 0 (log entry 25), and that the retired-page list keeps what was written also where aux power is lost while
its commit is BUSY (log entry 122). -/
def Obligations.PowerAndFirmware : Prop :=
  ∀ (s : State) (i : Fin 2) (b : List Byte) (k : Fin 11) (missed : Bool),
    let st := Reg.ptrStage
    let pr := Reg.ptrProtStatus
    let fw := s.flag st F.ptrStage_FW_OK
    let oos := s.flag st F.ptrStage_OUT_OF_SERVICE
    let off := fun t : State => t.power = (if s.rails.isEmpty then .off else .falling) ∧ t.rails = s.rails
    let lost := fun t : State => t.mem = [] ∧ t.dieUp = false ∧ t.fld st F.ptrStage_STAGE = 0 ∧ t.fld st F.ptrStage_MAIN_ON = 0
    let gone := fun t : State => off t ∧ lost t
    let ends := fun (o : Out) (cmd res : Nat) => Sets s o (fun r => r = st) fun t =>
      t.fld st F.ptrStage_LAST_CMD = cmd ∧ t.fld st F.ptrStage_CMD_RESULT = res
    let tripped := fun (t : State) (cause : Nat) => t.flag pr F.ptrProtStatus_ACTIVE = true ∧ t.flag pr F.ptrProtStatus_VALID = true ∧
      (let first := s.flag pr F.ptrProtStatus_VALID = false ∨
          (s.fld pr F.ptrProtStatus_TIME_MS = s.porterMs ∧ cause < s.fld pr F.ptrProtStatus_CAUSE)
       (first → t.fld pr F.ptrProtStatus_CAUSE = cause ∧ t.fld pr F.ptrProtStatus_TIME_MS = s.porterMs % 2 ^ 48) ∧
       (¬ first → t.fld pr F.ptrProtStatus_CAUSE = s.fld pr F.ptrProtStatus_CAUSE)) ∧
      (s.mainUp = true ∨ s.dieUp = true ∨ s.dieResetting = true ∨ s.cycle ≠ .none →
        t.fld .ptrResetRec F.ptrResetRec_CAUSE = 5 ∧ t.fld .ptrResetRec F.ptrResetRec_ENGINE = 255) ∧
      (s.mainUp = false → t.power = s.power) ∧ (s.mainUp = true → t.mem = []) ∧
      t.cycle = .none ∧ (s.dieUp = true → DieDown s t)
    let auto := s.flag .ptrStartCtrl F.ptrStartCtrl_AUTO_MAIN = true ∧ s.autoUsed = false ∧ s.power = .off ∧ oos = false ∧
      4400 ≤ s.fld .ptrPwrStatus F.ptrPwrStatus_VIN_10MV ∧ s.fld .ptrPwrStatus F.ptrPwrStatus_VIN_10MV ≤ 5800
    (s.aux = true → exec .auxPowerGood s = .next s) ∧
    (s.aux = false → exec .auxLoss s = .next s ∧ exec .firmwareVerified s = .next s ∧
      exec (.firmwareBundleUpload i b) s = .next s ∧ (k ≠ 0 → exec (.protectionTrip k) s = .next s) ∧
      Leaves (exec .auxPowerGood s) fun t => t = { s with aux := true, porterMs := 0, regs := t.regs, redfish := s.redfish ++ [.boot] } ∧
        OnlyRegs (fun r => r = st) s t ∧ Takes s t st F.ptrStage_PROTECT 1) ∧
    (s.aux = true → Leaves (exec .auxLoss s) fun t => t.aux = false ∧ t.power = .off ∧ t.dieUp = false ∧ t.mem = [] ∧
      t.pending = s.pending ∧ t.fwSlots = s.fwSlots ∧ t.retiredPages = s.retiredPages ∧
      (∀ n, t.stallFenced n = s.stallFenced n) ∧
      t.fld .ptrRetiredIdx F.ptrRetiredIdx_COUNT = s.fld .ptrRetiredIdx F.ptrRetiredIdx_COUNT ∧
      t.fld .ptrEscStatus F.ptrEscStatus_FENCES = s.fld .ptrEscStatus F.ptrEscStatus_FENCES ∧
      ∀ r, r ∉ ([.ptrStallFenceLo, .ptrStallFenceHi, .ptrEscStatus, .ptrRetiredIdx] : List Reg) → t.rd r = r.reset) ∧
    (∀ y, s.bundle i = some y → Config.bundleSecurity y < Config.rollback → s.bootSlot ≠ some i) ∧
    (fw = true ∨ s.bootSlot = none → exec .firmwareVerified s = .next s) ∧
    (s.aux = true → fw = false → s.bootSlot = some i → Leaves (exec .firmwareVerified s) fun t =>
      t.flag st F.ptrStage_FW_OK = true ∧ t.fwBoot = some i ∧ t.fld .ptrFwVersion F.ptrFwVersion_SLOT = i.val ∧
      (∀ y, s.bundle i = some y → (t.rd .ptrFwVersion).setWidth 32 = Config.bundleVersion y) ∧ t.mem = s.mem ∧
      (auto → t.power = .rising ∧ t.autoUsed = true) ∧ (¬ auto → t.power = s.power ∧ t.autoUsed = s.autoUsed)) ∧
    (fw = true ∨ s.bootSlot ≠ none → exec (.firmwareBundleUpload i b) s = .next s) ∧
    (s.aux = true → fw = false → s.bootSlot = none → exec (.firmwareBundleUpload i b) s =
      .next { s with fwSlots := AMap.set i (some b) s.fwSlots }) ∧
    (∀ y, s.fwBoot = some i → s.bundle i = some y → exec .spdmRequest s =
      .next { s with spdmOut := s.spdmOut ++ [Config.bundleDigest y] }) ∧
    (s.fwBoot = none → exec .spdmRequest s = .next s) ∧
    (s.aux = true →
      (s.stage ≠ 0 ∨ s.power ≠ .off → ends (exec .mainOn s) 1 1) ∧
      (s.stage = 0 → s.power = .off → fw = false → ends (exec .mainOn s) 1 8) ∧
      (s.stage = 0 → s.power = .off → fw = true → oos = true → ends (exec .mainOn s) 1 10) ∧
      (s.stage = 0 → s.power = .off → fw = true → oos = false →
        (s.railOk = false ∨ s.flag pr F.ptrProtStatus_ACTIVE = true → ends (exec .mainOn s) 1 7) ∧
        (s.railOk = true → s.flag pr F.ptrProtStatus_ACTIVE = false → Leaves (exec .mainOn s) fun t =>
          t = { s with regs := t.regs, power := .rising, cycle := .none, rails := [], railMs := 0 } ∧ OnlyRegs (fun r => r = st) s t ∧
          t.fld st F.ptrStage_LAST_CMD = 1 ∧ t.fld st F.ptrStage_CMD_RESULT = 0)) ∧
      (s.stage = 0 → ends (exec .mainOff s) 2 1) ∧
      (s.stage ≠ 0 → Leaves (exec .mainOff s) fun t => gone t ∧ DieDown s t ∧ t.fld st F.ptrStage_LAST_CMD = 2 ∧
        t.fld st F.ptrStage_CMD_RESULT = 0) ∧
      (k ≠ 0 → Leaves (exec (.protectionTrip k) s) fun t =>
        tripped t k.val ∧ (s.mainUp = true → off t)) ∧
      (s.mainUp = true → Leaves (exec (.extraction missed) s) fun t => lost t ∧ t.power = .off ∧ t.rails = [] ∧ tripped t 2 ∧
        (missed = true → s.dieUp = true →
          (t.rd (.ptrAon 421)).toNat = min (2 ^ 64 - 1) ((s.rd (.ptrAon 421)).toNat + 1)))) ∧
    (s.power ≠ .rising → exec .powerGoodTimeout s = .next s) ∧
    (let good := s.power = .rising ∧ s.rails.map Prod.fst = railOrder ∧ ∀ e ∈ s.rails, 5 ≤ e.2
     (¬ good → exec .mainPowerGood s = .next s) ∧
     (good → Leaves (exec .mainPowerGood s) fun t =>
      t = { s with regs := t.regs, power := .good, dieResetting := false } ∧
      OnlyRegs (fun r => r = st ∨ r = .ptrPwrStatus) s t ∧ t.fld st F.ptrStage_MAIN_ON = 1 ∧
      t.fld .ptrPwrStatus F.ptrPwrStatus_MAIN_GOOD = 1)) ∧
    (s.power = .rising → Leaves (exec .powerGoodTimeout s) fun t => gone t ∧ t.fld st F.ptrStage_CMD_RESULT = 7) ∧
    exec (.protectionTrip 0) s = .fault (.illFormed "PROTECTION_TRIP") ∧
    (s.mainUp = false → exec (.extraction missed) s = .next s)

/-- The die leaves reset into Stage 1 with its plan latched, its yards gated and the ports of an engaged axis under FORCE in loopback; ADVANCE goes to Stage 2, or waits for a handover;
the work of Stage 2 ends with its results; HARNESS and QUARANTINE enter Stage 3 where their checks pass, and answer why not.
The order of HARNESS's checks (log entry 60), and the memory that the tests of Stage 2 leave (log entry 61), are the model's choices. -/
def Obligations.StageCommands : Prop :=
  ∀ (s : State) (hbm : BitVec 8) (loft off : BitVec 16) (ues : List Nat) (q : Bool),
    let st := Reg.ptrStage
    let mr := Reg.ptrMemResult
    let done := s.flag mr F.ptrMemResult_DONE
    let ends := fun (o : Out) (cmd res : Nat) => Sets s o (fun r => r = st) fun t =>
      t.fld st F.ptrStage_LAST_CMD = cmd ∧ t.fld st F.ptrStage_CMD_RESULT = res
    let bad := fun u => ∃ a ∈ ues, (isHbm a || isLoft a) = true ∧ unitOf a = u
    let c := exec (if q then .quarantine else .harness) s
    let code := if q then 6 else 5
    let v := epochVer s.srcEpoch
    let check := if q then (if done then 0 else 5)
      else if done = false ∨ s.flag mr F.ptrMemResult_MEM_FAIL = true then 5
      else if s.flag .ptrPlanChip F.ptrPlanChip_PLAN_VALID = false then 2
      else if s.rtValid v = false ∨ ∃ a : Fin 4, s.rtShape v a < 2 ∧ s.rtLen v a ≠ s.planTorus a then 4
      else if s.fld mr F.ptrMemResult_STABLE_OFF = 0xFFFF then 5 else 0
    (s.power ≠ .good ∨ s.dieUp = true → exec .dieLeavesReset s = .next s) ∧
    (s.power = .good → s.dieUp = false → Leaves (exec .dieLeavesReset s) fun t => t.dieUp = true ∧ t.dieResetting = false ∧
      t.cycle = .none ∧ t.fld st F.ptrStage_STAGE = 1 ∧ t.fld st F.ptrStage_QUARANTINE = 0 ∧
      t.chip = BitVec.ofNat 14 (s.fld .ptrPlanChip F.ptrPlanChip_CHIP_NUM) ∧ t.stalls = s.stalls ∧
      (∀ y, 1 ∈ (t.yard y).stops) ∧
      ∀ a, s.axisForced a = true → s.axisEngaged a = true → ∀ p ∈ axisPorts a, s.portState p ≠ 0 → t.portState p = 1) ∧
    (s.aux = true →
      (s.stage ≠ 1 ∨ s.dieUp = false → ends (exec .advance s) 4 1) ∧
      (s.stage = 1 → s.dieUp = true → s.handover ≠ none → Leaves (exec .advance s) fun t =>
        t = { s with regs := t.regs, advance := true } ∧ OnlyRegs (fun r => r = st) s t ∧ t.stage = 1 ∧
        t.fld st F.ptrStage_LAST_CMD = 4 ∧ t.fld st F.ptrStage_CMD_RESULT = 0) ∧
      (s.stage = 1 → s.dieUp = true → s.handover = none → Leaves (exec .advance s) fun t => t.stage = 2 ∧
        t.rd mr = mr.reset ∧ t.memTestFull = s.flag .ptrStartCtrl F.ptrStartCtrl_MEM_TEST ∧ t.mem = s.mem ∧
        t.fld st F.ptrStage_LAST_CMD = 4 ∧ t.fld st F.ptrStage_CMD_RESULT = 0) ∧
      (s.dieUp = false ∨ (s.stage ≠ 2 ∧ s.stage ≠ 3) → ends c code 1) ∧
      (s.dieUp = true → s.stage = 3 → (∃ x, s.ctxState x ≠ 0) → ends c code 6) ∧
      (s.dieUp = true → s.stage = 2 ∨ (s.stage = 3 ∧ ∀ x, s.ctxState x = 0) →
        (check ≠ 0 → ends c code check) ∧
        (check = 0 → Leaves c fun t => t.stage = 3 ∧ t.quarantined = q ∧ t.stalls = s.stalls ∧
          t.fld st F.ptrStage_LAST_CMD = code ∧ t.fld st F.ptrStage_CMD_RESULT = 0))) ∧
    (s.dieUp = false ∨ s.stage ≠ 2 ∨ done = true → exec (.memTestDone hbm loft off ues) s = .next s) ∧
    (s.dieUp = true → s.stage = 2 → done = false → Leaves (exec (.memTestDone hbm loft off ues) s) fun t =>
      t.fld mr F.ptrMemResult_DONE = 1 ∧ t.fld mr F.ptrMemResult_HBM_FAIL = hbm.toNat ∧
      t.fld mr F.ptrMemResult_LOFT_FAIL = loft.toNat ∧ t.fld mr F.ptrMemResult_STABLE_OFF = off.toNat ∧
      (t.flag mr F.ptrMemResult_MEM_FAIL = true ↔ hbm ≠ 0 ∨ loft ≠ 0) ∧
      t.fld mr F.ptrMemResult_TEST_UE = min 0xFFFF t.poison.length ∧ t.poison.Nodup ∧ (∀ u, u ∈ t.poison ↔ bad u) ∧
      t.mem = [] ∧ t.stalls = s.stalls)

/-! ### Management letters, routing tables and groups (R23, R24, R254, R262 to R266, R343) -/

/-- A request for another chip goes out under a number of its own; a request for this chip is answered, where it may be, with the
register's value, a write being applied once; a reply, which is taken where a request is, ends its request; a request without one is sent
again three times. The MSI-X table answers as a register does.
That a row with another chip as its destination is a request of this chip's own porter (log entry 53), the layout of an MSI-X entry (log
entry 50), and that a reserved address reads 0 (log entry 51), are the model's. -/
def Obligations.ManagementLetters : Prop :=
  ∀ (s : State) (lt : Letter) (p : Fin 8), s.dieUp = true →
    let a := lt.target.toNat % 2 ^ 48
    let v := BitVec.ofNat 64 (natAt lt.body 0 8)
    let asks := fun (o : Out) (w : Bool) (x : BitVec 64) => Leaves o fun t =>
      t.mgmtOut = s.mgmtOut ++ [{ dest := lt.dest, postmark := s.mgmtNext, write := w, addr := a, value := x }] ∧
      t.mgmtNext = s.mgmtNext + 1 ∧ t.stalls = s.stalls ∧
      (RoutesTo s lt.dest .mgmt p → ∃ o ∈ t.outQ, o.port = p ∧ o.lt.cls = .mgmt ∧ o.lt.op = (if w then 3 else 2) ∧
        o.lt.dest = lt.dest ∧ o.lt.postmark = s.mgmtNext ∧ o.lt.target.toNat = a ∧ (w = true → o.lt.body = toBytes 8 x.toNat))
    let replies := fun (t : State) (x : BitVec 64) => RoutesTo s lt.src .mgmt p → ∃ o ∈ t.outQ, o.port = p ∧ o.lt.cls = .mgmt ∧
      o.lt.op = 4 ∧ o.lt.dest = lt.src ∧ o.lt.refPostmark = lt.postmark ∧ o.lt.body = toBytes 8 x.toNat
    let remote := 2 ≤ s.stage ∧ s.flag .ptrStartCtrl F.ptrStartCtrl_MGMT_REMOTE = true
    let open' := remote ∧ a % 8 = 0 ∧ 0xFF0000000000 ≤ a
    (lt.dest ≠ s.chip → asks (exec (.regRead lt) s) false 0 ∧ asks (exec (.regWrite lt) s) true v) ∧
    (lt.dest = s.chip →
      (¬ open' → Does s (exec (.regRead lt) s) noReg (fun t => QueuesAfter t s.outQ) ∧
        Does s (exec (.regWrite lt) s) noReg fun t => QueuesAfter t s.outQ) ∧
      (open' → Reg.ofAddr a = none → a < 0xFF000FF00000 ∨ 0xFF000FF11000 ≤ a →
        Does s (exec (.regRead lt) s) dropReg fun t => replies t 0) ∧
      (open' → ∀ i : Fin 260, a = 0xFF000FF00000 + 16 * i.val + 8 →
        (∃ x : BitVec 64, x.getLsbD 32 = s.msixMasked i.val ∧ Does s (exec (.regRead lt) s) dropReg fun t => replies t x) ∧
        ((∀ e ∈ s.mgmtSeen, e.1 = lt.src → e.2.1 ≠ lt.postmark) → Leaves (exec (.regWrite lt) s) fun t =>
          t.msixMasked i.val = v.getLsbD 32 ∧ t.stalls = s.stalls)) ∧
      (open' → ∀ r ∈ ([.soPostCtrl, .hstBar2Win, .soCtxFence, .soPortArb p, .dbgTrigNet] : List Reg), a = r.addr →
        Does s (exec (.regRead lt) s) dropReg (fun t => replies t (s.rd r)) ∧
        ((∀ e ∈ s.mgmtSeen, e.1 = lt.src → e.2.1 ≠ lt.postmark) →
          Does s (exec (.regWrite lt) s) (fun x => x = r ∨ dropReg x) fun t =>
            (∀ f ∈ r.fields, f.get (t.rd r) = fieldAfter f (s.rd r) v) ∧ replies t (t.rd r) ∧
            ∃ e ∈ t.mgmtSeen, e.1 = lt.src ∧ e.2.1 = lt.postmark) ∧
        ((∃ e ∈ s.mgmtSeen, e.1 = lt.src ∧ e.2.1 = lt.postmark) → Does s (exec (.regWrite lt) s) dropReg fun t =>
          t.mgmtSeen = s.mgmtSeen)) ∧
      (open' → ∀ r : Reg, r.domain = .porter → Reg.ofAddr a = some r →
        Does s (exec (.regWrite lt) s) noReg fun t => QueuesAfter t s.outQ)) ∧
    (∀ m, remote → (s.mgmtOut.find? fun m => m.dest = lt.src && m.postmark = lt.refPostmark) = some m →
      Does s (exec (.regReply lt) s) noReg fun t => t.mgmtOut = s.mgmtOut.erase m ∧
        t.mgmtDone = s.mgmtDone ++ [{ dest := m.dest, postmark := m.postmark, value := some v }]) ∧
    (¬ remote ∨ (∀ m ∈ s.mgmtOut, m.dest = lt.src → m.postmark ≠ lt.refPostmark) →
      Does s (exec (.regReply lt) s) noReg fun t => t.mgmtOut = s.mgmtOut ∧ t.mgmtDone = s.mgmtDone) ∧
    (∀ d pm, (∀ m ∈ s.mgmtOut, m.dest = d → m.postmark ≠ pm) → exec (.regRequestRetry d pm) s = .next s) ∧
    ∀ d pm m, (s.mgmtOut.find? fun m => m.dest = d && m.postmark = pm) = some m →
      (3 ≤ m.tries → exec (.regRequestRetry d pm) s = .next { s with
        mgmtOut := s.mgmtOut.erase m, mgmtDone := s.mgmtDone ++ [{ dest := d, postmark := pm, value := none }] }) ∧
      (m.tries < 3 → Does s (exec (.regRequestRetry d pm) s) dropReg fun t =>
        t.mgmtOut = s.mgmtOut.erase m ++ [{ m with tries := m.tries + 1 }] ∧ t.mgmtDone = s.mgmtDone)

/-- SO_RT_CTRL keeps to a VALID version, and an axis of a VALID version stays; a plan is judged as a whole and stands once sampled; a
group becomes VALID only where R266 holds, stays while it has operations, and leaves with its state and its letters. -/
def Obligations.RoutingTablesAndGroups : Prop :=
  ∀ (s : State) (ver : Fin 2) (a : Fin 4) (c : Fin 64) (g : Fin 4) (v : BitVec 64), s.dieUp = true →
    let stores := fun (o : Out) (r : Reg) (x : BitVec 64) => Sets s o (fun q => q = r) fun t =>
      ∀ f ∈ r.fields, f.get (t.rd r) = fieldAfter f (s.rd r) x
    let named := if F.soRtCtrl_SRC_EPOCH.get v = 0 then F.soRtCtrl_VALID0.get v ≠ 0 else F.soRtCtrl_VALID1.get v ≠ 0
    let role := fun i : Fin 4 => bitsOf v.toNat (16 * i.val) 3
    let len := fun i : Fin 4 => bitsOf v.toNat (16 * i.val + 5) 4
    let grouped := fun i : Fin 4 => role i = 1 ∨ role i = 3 ∨ role i = 4 ∨ role i = 5
    let planned := (∀ i, role i ≤ 5) ∧ (∀ i j, i ≠ j → role i ≠ 0 → role i ≠ role j) ∧ (∀ i, role i = 0 → len i = 0) ∧
      len 0 < 8 ∧ len 1 < 8 ∧
      ∀ i j, i ≠ j → grouped i → grouped j → bitsOf v.toNat (16 * i.val + 3) 2 ≠ bitsOf v.toNat (16 * j.val + 3) 2
    let ctl := Reg.ceGrpCtrl c g
    let gs := Reg.ceGrpStatus c g
    let set := exec (.groupValidSet c g v) s
    let pos := F.ceGrpCtrl_POS.get v
    let mine := fun x : Staged => x.ctx = c ∧ (collTgt x.letter).grp = g
    (named → stores (exec (.srcEpochWrite v) s) .soRtCtrl v) ∧
    (¬ named → exec (.srcEpochWrite v) s = .next s) ∧
    (s.rtValid ver = true → exec (.rtAxisWrite ver a v) s = .next s) ∧
    (s.rtValid ver = false → stores (exec (.rtAxisWrite ver a v) s) (.soRtAxis ver a) v) ∧
    (c ∈ s.sampled ∨ ¬ planned → exec (.axisPlanWrite c v) s = .next s) ∧
    (c ∉ s.sampled → planned → stores (exec (.axisPlanWrite c v) s) (.ceAxisPlan c) v) ∧
    (s.globalOn = true → s.grpValid c g = false → s.groupOk c g v = true → stores set ctl (v ||| 1)) ∧
    (s.globalOn = false ∨ s.grpValid c g = true ∨ s.grpAxis c g = none ∨ s.grpLen c g ≤ pos ∨ s.member c g pos ≠ s.chip ∨
        (∃ i j, i < j ∧ j < s.grpLen c g ∧ s.member c g i = s.member c g j) ∨
        (∃ x, s.grpAxis c g = some x ∧
          (s.rtShape (epochVer s.srcEpoch) x ≠ (if F.ceGrpCtrl_SHAPE.get v = 0 then 0 else 2) ∨
            (F.ceGrpCtrl_SHAPE.get v = 0 ∧ (s.rtLen (epochVer s.srcEpoch) x ≠ s.grpLen c g ∨ ∃ q, q < s.grpLen c g ∧
              let L := s.grpLen c g
              let k := coord (s.member c g q) x
              (s.member c g q ≠ withCoord s.chip x k ∨ coord (s.member c g ((q + 1) % L)) x % L ≠
                (if F.ceGrpCtrl_DIR.get v = 0 then k + 1 else k + L - 1) % L))))) ∨
        (F.ceGrpCtrl_SHAPE.get v ≠ 0 ∧ (3 < (s.grpChildren c g).length ∨
          ∃ p, s.flag (.ceGrpTree c g) F.ceGrpTree_ROOT = false ∧ s.fld (.ceGrpTree c g) F.ceGrpTree_PARENT_PORT = p ∧
            (p < 4 ∨ ∃ q ∈ s.grpChildren c g, q.val = p))) ∨
        s.groupOk c g v = false →
      set = .next s) ∧
    (s.grpValid c g = true → s.grpState c g ≠ 2 → (∃ o ∈ s.collOps, o.ctx = c ∧ o.grp = g) →
      exec (.groupValidClear c g v) s = .next s) ∧
    (s.grpValid c g = false ∨ s.grpState c g = 2 ∨ (∀ o ∈ s.collOps, o.ctx = c → o.grp ≠ g) → s.postQ = [] →
      Leaves (exec (.groupValidClear c g v) s) fun t =>
        t = { s with regs := t.regs, collStage := t.collStage, unplaced := t.unplaced } ∧
        (∀ x ∈ s.collStage, mine x → x.receipted = false → (streamOf x.letter, x.letter.postmark) ∈ t.unplaced) ∧
        OnlyRegs (fun r => r = ctl ∨ r = gs) s t ∧ t.grpValid c g = false ∧ t.grpState c g = 0 ∧
        t.fld gs F.ceGrpStatus_MISMATCH = 0 ∧ t.fld gs F.ceGrpStatus_FENCED_PEER = 0 ∧ t.fld gs F.ceGrpStatus_WAIT_ON = 0 ∧
        ∀ x, x ∈ t.collStage ↔ x ∈ s.collStage ∧ ¬ mine x)

/-! ### Registered post (R145, R172, R249, R260, R261, R316 to R323) -/

/-- A bulk or slot letter at its destination: discarded with a count where it names no context, refused where the context is fenced,
counted where its postmark is stale, receipted again where it is a duplicate; a new one is placed, recorded and receipted where it
can be placed, and else leaves no record. A held duplicate is receipted once its original is. -/
def Obligations.RegisteredLetters : Prop :=
  ∀ (s : State) (lt : Letter), s.dieUp = true → (lt.cls = .bulk ∧ lt.op ≠ 1) ∨ lt.cls = .slot → lt.op ≠ 0x3F →
    let o := exec (.registeredLetterReceive lt) s
    let k := streamOf lt
    let same := fun t : State => QueuesAfter t s.outQ
    let verdict := (s.recvStream k).judge lt.postmark
    let done := fun t : State => Receipted s t lt .ok 0 ∧ (t.recvStream k).judge lt.postmark = .dup
    (s.globalOn = false → CountsLetter s o .soNocontext same) ∧
    (s.globalOn = true → s.ctxOfTag lt.jobTag = none →
      CountsLetter s o (if lt.cls = .slot then .soSlotUnbound else .soNocontext) same) ∧
    (s.globalOn = true → ∀ c, s.ctxOfTag lt.jobTag = some c →
      (s.fenced c = true → CountsLetter s o .soRefusedFenced fun t => Receipted s t lt .fenced 0) ∧
      (s.fenced c = false → verdict = .stale → CountsLetter s o .soPostStale same) ∧
      (s.fenced c = false → verdict = .dup → CountsLetter s o .soPostDups fun t => Receipted s t lt .ok 0) ∧
      (s.fenced c = false → verdict = .new → lt.cls = .bulk →
        let ps := grants ((s.taken lt).record lt) c (lt.target.toNat % 2 ^ 48) lt.length true
        (none ∈ ps → Leaves o fun t => t.recvStreams = s.recvStreams ∧ same t ∧ t.stalls = s.stalls ∧ Placed s t [] []) ∧
        (none ∉ ps → Leaves o fun t => done t ∧ t.stalls = s.stalls ∧ Placed s t ps ((markedBody lt).map (·.1)))) ∧
      (s.fenced c = false → verdict = .new → lt.cls = .slot →
        let x := s.slotCheck c (lt.target.toNat % 2 ^ 12) (lt.target.toNat / 2 ^ 12 % 2 ^ 32) lt.length
        (∀ r, x = .error r → CountsLetter s o r same) ∧
        (∀ j, x = .ok j → Leaves o fun t => done t ∧
          let got := min (2 ^ 32 - 1) (s.fld (.soSlot j 2) SlotF.arrived + lt.length)
          let full := s.fld (.soSlot j 1) SlotF.expect ≤ got ∧ s.flag (.soSlot j 0) SlotF.full = false
          let b := Fin.ofNat 128 (s.fld (.soSlot j 2) SlotF.bstall)
          let n : CReg := Fin.ofNat 64 (s.fld (.soSlot j 2) SlotF.nctr)
          t.fld (.soSlot j 2) SlotF.arrived = got ∧
          (full → t.flag (.soSlot j 0) SlotF.full = true ∧ (s.flag (.soSlot j 2) SlotF.nen = true → (s.stall b).running = true →
            t.stall b = { s.stall b with c := (s.stall b).c.set n ((s.stall b).c[n] + 1) } ∧ ∀ m, m ≠ b → t.stall m = s.stall m)) ∧
          (¬ full ∨ s.flag (.soSlot j 2) SlotF.nen = false ∨ (s.stall b).running = false → t.stalls = s.stalls)))) ∧
    (lt ∈ s.heldDups → s.stillPlacing lt = false → s.circOf lt = none → Leaves (exec (.duplicateReceipt lt) s) fun t =>
      t.heldDups = s.heldDups.erase lt ∧ Receipted s t lt .ok 0 ∧ t.stalls = s.stalls ∧ Placed s t [] []) ∧
    (lt ∉ s.heldDups ∨ s.stillPlacing lt = true → exec (.duplicateReceipt lt) s = .next s)

/-- A remote read is answered with the bytes of the pages that the context grants, and its data placed where the reader asked. -/
def Obligations.RequestsAndResponses : Prop :=
  ∀ (s : State) (lt : Letter), s.dieUp = true →
    let k : StreamKey := ⟨lt.src, .request, lt.jobTag⟩
    let same := fun t : State => QueuesAfter t s.outQ
    (lt.cls = .request →
      let o := exec (.requestReceive lt) s
      (s.globalOn = false ∨ s.ctxOfTag lt.jobTag = none → CountsLetter s o .soNocontext same) ∧
      ∀ c, s.globalOn = true → s.ctxOfTag lt.jobTag = some c →
        (s.fenced c = true → CountsLetter s o .soRefusedFenced fun t => Receipted s t lt .fenced 0) ∧
        (s.fenced c = false →
          let ps := grants (s.taken lt) c (lt.target.toNat % 2 ^ 48) lt.length false
          Leaves o fun t => t.stalls = s.stalls ∧ t.recvStreams = s.recvStreams ∧ Placed s t [] [] ∧ (none ∈ ps → same t) ∧
            (none ∉ ps → ∀ p, RoutesTo s lt.src .response p → ∃ x ∈ t.outQ, x.port = p ∧ x.lt.cls = .response ∧ x.lt.dest = lt.src ∧
              x.lt.jobTag = lt.jobTag ∧ x.lt.refPostmark = lt.postmark ∧ x.lt.length = lt.length ∧
              (NoRing s → Clean s → ∀ i a, ps[i]? = some (some a) → x.lt.body.getD i 0 = (s.peekG a).1)))) ∧
    (lt.cls = .response →
      let o := exec (.responseReceive lt) s
      (s.ctxOfTag lt.jobTag = none → CountsLetter s o .soNocontext same) ∧
      ∀ c, s.ctxOfTag lt.jobTag = some c →
        (s.fenced c = true → CountsLetter s o .soRefusedFenced same) ∧
        (s.fenced c = false → s.answered k lt.refPostmark = none → CountsLetter s o .soPostLate same) ∧
        ∀ x as, s.fenced c = false → s.answered k lt.refPostmark = some x → x.sink = some (.local as) → s.postQ = [] →
          as.length = lt.length → Leaves o fun t => t.outstanding = s.outstanding.erase x ∧ t.stalls = s.stalls ∧
            Placed s t as ((markedBody lt).map (·.1)))

/-- A receipt ends its letter, which fails where the receipt says ST_FENCED; one that answers nothing is late. The instruction takes the
status of the first of its letters to fail, and of those that fail at one stamp that of the lowest postmark. That a receipt is taken while
its context is fenced is the model's choice (log entry 112). An expired timer sends
the letter again, as often as RETRIES said when the timer started, or gives it up; while the head still waits for its output no timer
runs; a stream whose letters were given up is cleared, and continues behind its clearance. -/
def Obligations.ReceiptsTimersAndClearance : Prop :=
  ∀ (s : State) (lt : Letter) (k : StreamKey) (pm : BitVec 32), s.dieUp = true → s.postQ = [] →
    let rk : StreamKey := ⟨lt.src, LClass.ofCode (lt.op.toNat % 8), lt.jobTag⟩
    let o := exec (.receiptReceive lt) s
    let same := fun t : State => QueuesAfter t s.outQ
    let plainEnd := fun (t : State) (x : Outstanding) => t.outstanding = s.outstanding.erase x ∧ Placed s t [] []
    let fails := fun (t : State) (x : Outstanding) (n : Fin 128) (seq : Nat) (st : Status) => plainEnd t x ∧
      (∀ f ∈ (s.stall n).flights, f.seq = seq →
        f.status = .ok ∨ (f.failAt.1 = s.stampNow ∧ x.letter.postmark < f.failAt.2) →
        { f with status := st, failAt := (s.stampNow, x.letter.postmark) } ∈ (t.stall n).flights) ∧
      (∀ f ∈ (s.stall n).flights, f.seq = seq → f.status ≠ .ok → f.failAt.1 ≠ s.stampNow → f ∈ (t.stall n).flights) ∧
      (x.key.cls ≠ .request → (t.sendStream x.key).givenUp ≠ none) ∧ ∀ m, m ≠ n → t.stall m = s.stall m
    let st := s.sendStream k
    let retries := s.fld .soPostCtrl F.soPostCtrl_RETRIES
    let timer := exec (.deliveryTimerExpiry k pm) s
    let clears := fun (t : State) (c : BitVec 32) => ∀ p, RoutesTo s k.chip k.cls p → ∃ x ∈ t.outQ, x.port = p ∧ x.lt.cls = k.cls ∧
      x.lt.dest = k.chip ∧ x.lt.jobTag = k.tag ∧ x.lt.op = 0x3F ∧ x.lt.postmark = c ∧ x.lt.length = 0
    (lt.cls = .receipt →
      (s.ctxOfTag lt.jobTag = none → CountsLetter s o .soNocontext same) ∧
      (s.ctxOfTag lt.jobTag ≠ none →
        (∀ x n seq, s.answered rk lt.refPostmark = some x → x.owner = .flight n seq →
          (lt.status ≠ BitVec.ofNat 8 Status.fenced.code → Leaves o fun t => plainEnd t x ∧ t.stalls = s.stalls) ∧
          (lt.status = BitVec.ofNat 8 Status.fenced.code → Leaves o fun t => fails t x n seq .fenced)) ∧
        (s.answered rk lt.refPostmark = none →
          let r := s.sendStream rk
          (r.clearing ≠ none → r.clearPm = lt.refPostmark → Leaves o fun t => t.sendStream rk =
            { r with givenUp := none, clearing := none, next := r.clearPm + 1 } ∧ t.outstanding = s.outstanding ∧
            t.stalls = s.stalls) ∧
          (r.clearing = none ∨ r.clearPm ≠ lt.refPostmark → CountsLetter s o .soPostLate same)))) ∧
    (s.leaving k pm = true → timer = .next s) ∧
    (∀ x, s.leaving k pm = false → s.answered k pm = some x →
      (k.cls = .coll ∨ x.tries < x.limit → Leaves timer fun t => Counted s t .soPostRetrans 1 ∧
        t.outstanding.length = s.outstanding.length ∧ t.stalls = s.stalls ∧ ∃ y ∈ t.outstanding, y.tries = x.tries + 1 ∧
          y.limit = retries ∧ y.key = k ∧ y.letter = { x.letter with epoch := s.srcEpoch } ∧ y.owner = x.owner) ∧
      (∀ n seq, k.cls ≠ .coll → x.limit ≤ x.tries → x.owner = .flight n seq →
        Leaves timer fun t => Counted s t .soPostFailed 1 ∧ fails t x n seq .deliveryFailed)) ∧
    (s.leaving k pm = false → s.answered k pm = none →
      (st.clearing = none ∨ st.clearPm ≠ pm → timer = .next s) ∧
      (∀ j, st.clearing = some j → st.clearPm = pm →
        (j < st.clearLimit → Leaves timer fun t => Counted s t .soPostRetrans 1 ∧
          t.sendStream k = { st with clearing := some (j + 1), clearLimit := retries, clearEpoch := s.srcEpoch } ∧ clears t pm ∧ t.stalls = s.stalls) ∧
        (st.clearLimit ≤ j → Leaves timer fun t => Counted s t .soPostBroken 1 ∧
          t.sendStream k = { st with clearing := none, givenUp := none, broken := true } ∧ t.irqs = s.irqs ++ [257] ∧
          t.stalls = s.stalls))) ∧
    (s.clearable k = false → exec (.clearanceSend k) s = .next s) ∧
    (∀ a, st.givenUp = some a → st.clearing = none → st.broken = false → (∀ x ∈ s.outstanding, x.key ≠ k) →
      Leaves (exec (.clearanceSend k) s) fun t => Counted s t .soPostClears 1 ∧ clears t (a + 4096) ∧ t.stalls = s.stalls ∧
        t.sendStream k = { st with clearing := some 0, clearPm := a + 4096, clearLimit := retries, clearEpoch := s.srcEpoch }) ∧
    (lt.op = 0x3F →
      let c := exec (.clearanceReceive lt) s
      let key := streamOf lt
      (s.globalOn = false → CountsLetter s c .soNocontext same) ∧
      (s.globalOn = true → s.ctxOfTag lt.jobTag = none →
        CountsLetter s c (if lt.cls = .slot then .soSlotUnbound else .soNocontext) same) ∧
      (s.globalOn = true → s.ctxOfTag lt.jobTag ≠ none →
        (newer32 lt.postmark (s.recvStream key).h = false → CountsLetter s c .soPostDups fun t => Receipted s t lt .ok 0) ∧
        (newer32 lt.postmark (s.recvStream key).h = true → Leaves c fun t => Receipted s t lt .ok 0 ∧ t.stalls = s.stalls ∧
          (t.recvStream key).h = lt.postmark ∧ (t.recvStream key).window = BitVec.allOnes 4096 ∧
          let stays := fun (k' : StreamKey) (pm : BitVec 32) => k' = key → newer32 pm (lt.postmark - 4096) = true
          (∀ g, g ∈ t.collStage ↔ g ∈ s.collStage ∧ stays (streamOf g.letter) g.letter.postmark) ∧
          (∀ g, g ∈ t.heldDups ↔ g ∈ s.heldDups ∧ stays (streamOf g) g.postmark) ∧
          (∀ e, e ∈ t.unplaced ↔ e ∈ s.unplaced ∧ stays e.1 e.2) ∧
          (∀ c ∈ t.collOps, ∀ p ∈ c.partials, stays (streamOf p.letter) p.letter.postmark) ∧ (∀ x ∈ t.circs, x ∈ s.circs) ∧
          ∀ x ∈ s.circs, x.frame.isSome → (s.taken lt).circHeld x = true → ¬ stays (streamOf x.up) x.up.postmark →
            (∀ y ∈ t.circs, y.id ≠ x.id) ∧ ∀ q ∈ t.outQ, ∀ y ∈ s.outstanding, y.key.cls = .coll → s.unsent x.id y = true →
              q.isOf y.key y.letter.postmark = false)))

/-! ### Collective letters and circulars (R257 to R261, R280, R281, R293) -/

/-- A collective letter is judged like registered post, and needs its group; one whose operation has not started takes a place in
staging, and waits in its buffer where none is free; a mismatched one is discarded. The watchdog of an operation makes its group LOST.
That a letter of no context is counted in both counters (log entry 86), and the places of staging (log entry 99), are the model's choices. -/
def Obligations.CollectiveLetters : Prop :=
  ∀ (s : State) (lt : Letter) (id : Nat) (w : Fin 8), s.dieUp = true →
    let o := exec (.collLetterReceive lt) s
    let g := (collTgt lt).grp
    let same := fun t : State => QueuesAfter t s.outQ
    let verdict := (s.recvStream (streamOf lt)).judge lt.postmark
    (lt.cls = .coll → lt.op ≠ 4 → lt.op ≠ 0x3F →
      (s.globalOn = false → CountsLetter s o .soNocontext same) ∧
      (s.globalOn = true → s.ctxOfTag lt.jobTag = none → CountsLost s o same) ∧
      ∀ c, s.globalOn = true → s.ctxOfTag lt.jobTag = some c →
        (s.fenced c = true → CountsLetter s o .soRefusedFenced fun t => Receipted s t lt .fenced 0) ∧
        (s.fenced c = false →
          (verdict = .stale → CountsLetter s o .soPostStale same) ∧
          (verdict = .dup → s.stillPlacing lt = false → CountsLetter s o .soPostDups fun t => Receipted s t lt .ok 0) ∧
          (verdict = .dup → s.stillPlacing lt = true → CountsLetter s o .soPostDups fun t =>
            same t ∧ t.heldDups = s.heldDups ++ [lt]) ∧
          (verdict = .new → s.grpValid c g = false → CountsLetter s o .ceNogroup same) ∧
          (verdict = .new → s.grpValid c g = true → isGather lt = false →
            (∀ x, s.opFor c lt = some x → s.mismatch x lt = true → Leaves o fun t => t.recvStreams = s.recvStreams ∧ same t ∧
              Counted s t (.ceGrpMismatch c g) 1 ∧ t.flag (.ceGrpStatus c g) F.ceGrpStatus_MISMATCH = true ∧
              t.collOps = s.collOps ∧ t.stalls = s.stalls ∧ Placed s t [] []) ∧
            (s.opFor c lt = none → s.freeFrames lt = [] → o = .next s) ∧
            (∀ fr, s.opFor c lt = none → s.collStage = [] → s.postQ = [] → (s.freeFrames lt).head? = some fr → Leaves o fun t =>
              t.collStage = [{ ctx := c, letter := lt, receipted := !s.lateReceipt c lt, frame := fr }] ∧
              (t.recvStream (streamOf lt)).judge lt.postmark = .dup ∧ t.stalls = s.stalls ∧
              PlacedBut (inFrame (some fr) lt) s t [] [] ∧ Kept s t (some fr) lt ∧
              (s.lateReceipt c lt = false → Receipted s t lt .ok 0) ∧ (s.lateReceipt c lt = true → same t))))) ∧
    (s.findOp id = none → exec (.collWatchdogExpiry id w) s = .next s) ∧
    ∀ x, s.collOps = [x] → x.id = id → Leaves (exec (.collWatchdogExpiry id w) s) fun t =>
      let r := Reg.ceGrpStatus x.ctx x.grp
      t.collOps = [] ∧ t.grpState x.ctx x.grp = 2 ∧ t.fld r F.ceGrpStatus_WAIT_ON = w.val ∧
        t.fld r F.ceGrpStatus_TAG = x.tag % 2 ^ 12 ∧ t.fld r F.ceGrpStatus_STEP = (s.sealed x.ctx + 1).toNat ∧
        Counted s t .cePeerLost 1 ∧ (∀ y ∈ t.outstanding, y.owner ≠ .coll id) ∧ (∀ y ∈ t.postQ, y.owner ≠ .coll id) ∧
        (∀ f ∈ (s.stall x.stall).flights, f.seq = x.seq → f.status = .ok →
          { f with status := .peerLost, failAt := (s.stampNow, 0) } ∈ (t.stall x.stall).flights) ∧ ∀ m, m ≠ x.stall → t.stall m = s.stall m

/-- A circular copy is delivered here, or refused where the context is fenced, and goes on to the chips of its box from its place in
staging; a further copy is receipted again, refused again while the context is fenced, and delivered where only the fence refused it;
with its own outcome and its children's a circular is receipted, with the sums of both.
That a letter of no context is counted in both counters (log entry 86), the places of staging (log entry 99), and the sums of the receipt of a
copy that is refused again (log entry 111), are the model's choices, and so is that the address of its delivery comes beside the letter (log
entry 33). -/
def Obligations.Circulars : Prop :=
  ∀ (s : State) (lt : Letter) (id : Nat), s.dieUp = true →
    let o := exec (.circularReceive lt) s
    let same := fun t : State => QueuesAfter t s.outQ
    let verdict := (s.recvStream (streamOf lt)).judge lt.postmark
    let box := lt.target.toNat / 2 ^ 32 % 2 ^ 32
    let kids := ((List.finRange 4).map fun a => (if boxP box a = 0 then 0 else 1) + (if boxM box a = 0 then 0 else 1)).sum
    let sums := fun x : Circ => BitVec.ofNat 64 (x.delivered % 2 ^ 15 + x.refused % 2 ^ 15 * 2 ^ 15)
    let answers := fun (t : State) (x : Circ) => Receipted s t x.up (if x.refused = 0 then .ok else .fenced) (sums x)
    let fr := if kids = 0 then none else (s.freeFrames lt).head?
    let takes := fun (t : State) (refused : Nat) => t.stalls = s.stalls ∧ Kept s t fr lt ∧
      t.circs = s.circs ++ [{ id := s.nextId, ctx := ((s.ctxOfTag lt.jobTag).getD 0), up := lt, children := kids,
                              delivered := 1 - refused, refused := refused, frame := fr }]
    (lt.cls = .coll → lt.op = 4 →
      (s.globalOn = false → CountsLetter s o .soNocontext same) ∧
      (s.globalOn = true → s.ctxOfTag lt.jobTag = none → CountsLost s o same) ∧
      ∀ c, s.globalOn = true → s.ctxOfTag lt.jobTag = some c →
        (s.circFull lt c = true → o = .next s) ∧
        (s.fenced c = false → s.grpValid c (collTgt lt).grp = false → CountsLetter s o .ceNogroup same) ∧
        (s.fenced c = true →
          (∀ x, s.circOf lt = some x → CountsLetter s o .soRefusedFenced fun t => t.circs = s.circs ∧
            (let y := if verdict = .dup then { x with delivered := x.delivered - 1, refused := x.refused + 1 } else x
             x.sent = true → answers t y) ∧ (x.sent = false → same t)) ∧
          (s.circOf lt = none → verdict = .dup → CountsLetter s o .soRefusedFenced fun t => t.circs = s.circs ∧
            Receipted s t lt .fenced (BitVec.ofNat 64 (2 ^ 15))) ∧
          (s.circOf lt = none → verdict ≠ .dup → s.circFull lt c = false → s.postQ = [] → Leaves o fun t => Counted s t .soRefusedFenced 1 ∧
            takes t 1 ∧ t.recvStreams = s.recvStreams ∧ PlacedBut (inFrame fr lt) s t [] [])) ∧
        (s.grpValid c (collTgt lt).grp = true → s.fenced c = false →
          (verdict = .stale → CountsLetter s o .soPostStale same) ∧
          (verdict = .dup → s.circOf lt = none →
            (s.stillPlacing lt = false → CountsLetter s o .soPostDups fun t => Receipted s t lt .ok 1) ∧
            (s.stillPlacing lt = true → CountsLetter s o .soPostDups fun t => same t ∧ t.heldDups = s.heldDups ++ [lt])) ∧
          (∀ x, verdict = .dup → s.circOf lt = some x →
            (x.sent = true → CountsLetter s o .soPostDups fun t => answers t x) ∧
            (x.sent = false → CountsLetter s o .soPostDups fun t => same t ∧ t.heldDups = s.heldDups ++ [lt])) ∧
          (∀ x, verdict = .new → s.circOf lt = some x →
            let ps := grants (s.taken lt) x.ctx lt.circVa.toNat lt.length true
            let y := { x with delivered := x.delivered + 1, refused := x.refused - 1 }
            (none ∈ ps → Leaves o fun t => t.recvStreams = s.recvStreams ∧ t.circs = s.circs ∧ t.stalls = s.stalls ∧ same t ∧
              Placed s t [] []) ∧
            (none ∉ ps → Leaves o fun t => t.stalls = s.stalls ∧ (t.recvStream (streamOf lt)).judge lt.postmark = .dup ∧
              t.circs = (s.circs.map fun z => if z.id = x.id then y else z) ∧ (x.sent = true → answers t y) ∧
              Placed s t ps ((markedBody lt).map (·.1)))) ∧
          (verdict = .new → s.circOf lt = none → s.circFull lt c = false → s.postQ = [] →
            let ps := grants (s.taken lt) c lt.circVa.toNat lt.length true
            (none ∈ ps → Leaves o fun t => t.recvStreams = s.recvStreams ∧ t.circs = s.circs ∧ t.stalls = s.stalls ∧
              same t ∧ Placed s t [] []) ∧
            (none ∉ ps → Leaves o fun t => takes t 0 ∧ (t.recvStream (streamOf lt)).judge lt.postmark = .dup ∧
              PlacedBut (inFrame fr lt) s t ps ((markedBody lt).map (·.1)))))) ∧
    (∀ x, (s.circs.find? fun x => x.id = id) = some x →
      (x.children = 0 → x.sent = false → Leaves (exec (.circularReceiptSend id) s) fun t => answers t x ∧
        (∀ y ∈ t.circs, y.id = id → y.sent = true) ∧ t.circs.length = s.circs.length ∧ t.stalls = s.stalls ∧ Placed s t [] []) ∧
      (x.children ≠ 0 ∨ x.sent = true → exec (.circularReceiptSend id) s = .next s)) ∧
    ((∀ x ∈ s.circs, x.id ≠ id) → exec (.circularReceiptSend id) s = .next s)

/-! ### Franking time (R357 to R367) -/

/-- The exchange of franking time: it goes out with its number and is answered with the stamps of the letter; a valid reply gives the
port its offset and delay, and an invalid or missing one is counted. The host's read latches the fraction, and the porter copies the
state. t1 and t3 are the starts of the frames that take the letters' heads, which LETTER_START notes, and t2 and t4 those of the frames
that brought them, each less the phase that the command gives (the model's choice, log entry 78).
The end of an interval: the counter steps to the peer furthest ahead by more than 1 µs; else the mean offset of
the peers that count steers the next interval, and FREE ends after 10 ms alone. -/
def Obligations.FrankingTime : Prop :=
  (∀ (s : State) (p : Fin 8) (lt : Letter) (ago sent : Nat), s.dieUp = true →
      let b := lt.body
      let arrived := s.recvStamp p lt ago
      let phase := ago % 256
      let ex := AMap.get none p s.frEx
      let letter := fun (t : State) (op : BitVec 6) (seq x y : Nat) => ∃ o ∈ t.outQ, o.port = p ∧ o.lt.cls = .mgmt ∧ o.lt.op = op ∧
        o.lt.length = 64 ∧ natAt o.lt.body 0 4 = seq ∧ natAt o.lt.body 8 8 = x / 256 % 2 ^ 64 ∧ natAt o.lt.body 5 1 = x % 256 ∧
        natAt o.lt.body 0x10 8 = y / 256 % 2 ^ 64 ∧ natAt o.lt.body 6 1 = y % 256
      let invalid := fun (o : Out) => Leaves o fun t => Counted s t .clkFrBadx 1 ∧ AMap.get none p t.frEx = none ∧
        t.frValid = s.frValid ∧ t.steer = s.steer ∧ t.rd (.clkFrPort p) = s.rd (.clkFrPort p) ∧ t.stalls = s.stalls
      (s.accepted p = false ∨ ex ≠ none → exec (.frankingExchangeStart p ago) s = .next s) ∧
      (s.accepted p = true → ex = none → Leaves (exec (.frankingExchangeStart p ago) s) fun t =>
        AMap.get none p t.frEx = some
          { seq := s.steer.nextSeq, phase := phase, t1 := none, asym := signed 16 (s.fld (.clkFrAsym p) F.clkFrAsym_ASYM_PS) } ∧
        t.steer = { s.steer with nextSeq := s.steer.nextSeq + 1 } ∧ letter t 0x10 s.steer.nextSeq.toNat 0 0 ∧ t.regs = s.regs) ∧
      (s.accepted p = true → lt.cls = .mgmt → lt.op = 0x10 → Leaves (exec (.frSync p lt ago sent) s) fun t =>
        letter t 0x11 (natAt b 0 4) arrived (sent % 256) ∧ t.regs = s.regs ∧ t.frEx = s.frEx) ∧
      (∀ o : OutLetter, s.linkUp p = true → o.lt.cls = .mgmt → o.lt.body.length = 64 →
        (AMap.get {} p s.arbs).choose ((s.heads p).filter fun o => s.carries p o.lt.cls o.through && s.hasCredit o) = some o →
        let starts := s.frameStart p
        (o.lt.op = 0x10 → Leaves (exec (.letterStart (some p) none) s) fun t =>
          AMap.get none p t.frEx = ex.map fun x => { x with t1 := some (starts - x.phase) }) ∧
        (o.lt.op = 0x11 → Leaves (exec (.letterStart (some p) none) s) fun t => ∃ lt : Letter,
          let t3 := starts - natAt o.lt.body 6 1
          t.wire.map (fun f => (f.1, f.2.1)) = s.wire.map (fun f => (f.1, f.2.1)) ++ (wireFlits lt).map (fun f => (p, f)) ∧
            lt.op = 0x11 ∧ natAt lt.body 0x10 8 = t3 / 256 % 2 ^ 64 ∧ natAt lt.body 6 1 = t3 % 256 ∧
            natAt lt.body 8 8 = natAt o.lt.body 8 8 ∧ natAt lt.body 0 4 = natAt o.lt.body 0 4)) ∧
      (s.accepted p = true → lt.cls = .mgmt → lt.op = 0x11 →
        (ex = none → Leaves (exec (.frReply p lt ago) s) fun t => t.regs = s.regs ∧ t.frEx = s.frEx ∧ t.frValid = s.frValid) ∧
        ∀ x, ex = some x →
          let r2 := natAt b 8 8 * 256 + natAt b 5 1
          let r3 := natAt b 0x10 8 * 256 + natAt b 6 1
          let t1 := x.t1.getD 0
          let delta2 : Int := ((arrived : Int) - t1) - ((r3 : Int) - r2)
          let theta : Int := (((r2 : Int) - t1) - ((arrived : Int) - r3)) * 500 - x.asym * 256
          let good := x.t1 ≠ none ∧ x.seq.toNat = natAt b 0 4 ∧ (arrived : Int) - t1 ≤ 20000 * 256 ∧ 2 * 50 * 256 ≤ delta2 ∧
            delta2 ≤ 2 * 2000 * 256
          (¬ good → invalid (exec (.frReply p lt ago) s)) ∧
          (good → Leaves (exec (.frReply p lt ago) s) fun t => AMap.get none p t.frEx = none ∧
            AMap.get none p t.frValid = some { theta := theta, locked := decide (natAt b 4 1 % 4 = 1) } ∧
            t.fld (.clkFrPort p) F.clkFrPort_DELAY_NS = (delta2.toNat / 512) % 2 ^ 16 ∧
            (-(2 ^ 31 - 1) ≤ Int.tdiv theta 256 → Int.tdiv theta 256 < 2 ^ 31 →
              signed 32 (t.fld (.clkFrPort p) F.clkFrPort_OFFSET_PS) = Int.tdiv theta 256) ∧ t.steer = s.steer)) ∧
      (ex ≠ none → invalid (exec (.exchangeTimeout p) s)) ∧
      (ex = none → exec (.exchangeTimeout p) s = .next s) ∧
      (Leaves (exec .clkFrNowRead s) fun t => t.hostOut = s.hostOut ++ [HostMsg.reply ((toBytes 8 s.frankNs.toNat).map fun b => (b, false))] ∧
        Takes s t .clkFrFrac F.clkFrFrac_FRAC s.frankFrac ∧ OnlyRegs (fun r => r = .clkFrFrac) s t ∧ t.franking = s.franking) ∧
      (Leaves (exec .frankingStateCopy s) fun t => t = { s with regs := t.regs } ∧ OnlyRegs (fun r => r = .ptrAon 400) s t ∧
        (t.rd (.ptrAon 400)).toNat % 2 = s.fld .clkFrStatus F.clkFrStatus_SYNC_STATE ∧
        (s.frFree = true → (t.rd (.ptrAon 400)).toNat / 2 ^ 32 = 0))) ∧
  (∀ s : State, s.dieUp = true →
      let o := exec .steeringInterval s
      let vs := s.frExchanges
      let clamp := fun x : Int => max (-(25000 * 256)) (min (25000 * 256) x)
      let counts := vs.filter fun e => e.2.locked && decide (-256000000 ≤ e.2.theta) && decide (e.2.theta ≤ 256000000)
      let seen := fun (t : State) (ps : List (Fin 8)) => ∀ p, bitOf (t.fld .clkFrStatus F.clkFrStatus_PORTS) p.val = decide (p ∈ ps)
      let ahead := fun e : Fin 8 × FrValid => (e.2.locked = true ∨ s.frFree = true) ∧ 256000000 < e.2.theta
      (Leaves o fun t => t.frValid = [] ∧ t.stalls = s.stalls ∧ t.mem = s.mem ∧
        (t.steer.silent = if vs = [] then s.steer.silent + 1 else 0) ∧ ∀ p, t.flag (.clkFrPort p) F.clkFrPort_VALID = (AMap.get none p s.frValid).isSome) ∧
      (∀ e ∈ vs, ahead e → (∀ x ∈ vs, ahead x → x.2.theta ≤ e.2.theta) → Leaves o fun t =>
        t.franking = Franking.ofRaw (s.franking.raw + e.2.theta.toNat * 2 ^ 24 / 1000) ∧ Counted s t .clkFrSteps 1 ∧
        t.steer.calm = 0 ∧ t.steer.adj = clamp s.steer.rate ∧ t.steer.rate = s.steer.rate ∧ seen t [] ∧ t.frFree = s.frFree) ∧
      ((∀ e ∈ vs, ¬ ahead e) → counts = [] → Leaves o fun t => t.franking = s.franking ∧ t.steer.rate = s.steer.rate ∧
        t.steer.adj = clamp s.steer.rate ∧ seen t [] ∧ (vs ≠ [] ∨ s.frFree = false → t.frFree = s.frFree) ∧
        (vs = [] → s.frFree = true → t.frFree = decide (s.steer.silent + 1 < 80))) ∧
      ((∀ e ∈ vs, ¬ ahead e) → counts ≠ [] → Leaves o fun t =>
        let m := Int.tdiv ((counts.map fun e => e.2.theta).foldl (· + ·) 0) counts.length
        t.franking = s.franking ∧ t.steer.rate = s.steer.rate + Int.tdiv m 64 ∧
        t.steer.adj = clamp (s.steer.rate + Int.tdiv m 64 + Int.tdiv m 4) ∧ seen t (counts.map (·.1)) ∧
        (s.frFree = false → t.frFree = false) ∧
        (s.frFree = true → counts = vs → 15 ≤ s.steer.calm → t.frFree = false) ∧
        (s.frFree = true → counts ≠ vs → t.steer.calm = 0)))

/-! ### Yards, power and temperature (R350 to R356, R431 to R433) -/

/-- A yard steps toward the lowest of its limits; a droop stretches its period, which is counted cycle by cycle and returns to normal over 64
cycles (in equal steps, and a step on an empty queue is one cycle of 1 ns: the model's choices, log entries 108 and 3); gating and HALT
stop it, and it runs again when no reason is left; the neighbour check lowers one yard of each pair beyond its limits, and a pair within
80 % of them raises the yard that it throttles. -/
def Obligations.YardClocks : Prop :=
  ∀ (s : State) (y : Fin 4) (pct : Fin 13) (mv tc : Vector Nat 4), s.dieUp = true →
    let r := Reg.clkYardStatus y
    let c := Reg.clkYardCtrl y
    let x := s.yard y
    let goal := min (s.fld c F.clkYardCtrl_TARGET_MHZ) (min (max 600 (x.power - x.thermal)) x.cap)
    let idle := s.yardIdle y = true ∧ s.flag c F.clkYardCtrl_IDLE_GATE = true
    let stops := fun (o : Out) (k : Nat) => Leaves o fun t => t.yard y = { x with stops := k :: x.stops } ∧
      t.flag r F.clkYardStatus_STOPPED = true ∧ t.fld r F.clkYardStatus_FREQ_MHZ = 0 ∧
      (k = 1 → t.flag r F.clkYardStatus_GATED = true) ∧ (∀ z, z ≠ y → t.yard z = s.yard z) ∧ t.stalls = s.stalls
    let runs := fun (o : Out) (k : Nat) => Leaves o fun t => t.yard y = { x with stops := x.stops.erase k } ∧
      (k = 1 → t.flag r F.clkYardStatus_GATED = false) ∧ (∀ z, z ≠ y → t.yard z = s.yard z) ∧ t.stalls = s.stalls ∧
      (x.stops = [k] → t.flag r F.clkYardStatus_STOPPED = false ∧ t.fld r F.clkYardStatus_FREQ_MHZ = x.freq % 2 ^ 11)
    let judge := fun pct (e : Fin 4 × Fin 4) => beyond pct (s.yard e.1).freq (s.yard e.2).freq mv[e.1] mv[e.2] tc[e.1] tc[e.2]
    let low := fun e : Fin 4 × Fin 4 => judge 100 e ≠ 0 ∧
      lowered e.1 e.2 (judge 100 e) (s.yard e.1).freq (s.yard e.2).freq mv[e.1] mv[e.2] tc[e.1] tc[e.2] = y
    let capOf := fun (z : Yard) (i : Nat) => (z.caps.find? fun e => e.1 = i).map (·.2)
    let stretching := s.flag r F.clkYardStatus_STRETCHING
    (Leaves (exec (.frequencyStep y) s) fun t => t = { s with regs := t.regs, yards := t.yards } ∧ OnlyRegs (fun q => q = r) s t ∧
      (∀ z, z ≠ y → t.yard z = s.yard z) ∧ t.yard y = { x with freq := (t.yard y).freq } ∧
      (x.freq < goal → (t.yard y).freq = min goal (x.freq + 25)) ∧ (goal < x.freq → (t.yard y).freq = max goal (x.freq - 25)) ∧
      (x.freq = goal → (t.yard y).freq = goal) ∧
      t.fld r F.clkYardStatus_FREQ_MHZ = if x.stops = [] then (t.yard y).freq % 2 ^ 11 else 0) ∧
    (pct ≠ 0 → Leaves (exec (.droopStretch y pct) s) fun t => t = { s with regs := t.regs, yards := t.yards } ∧
      OnlyRegs (fun q => q = r) s t ∧ Takes s t r F.clkYardStatus_STRETCHING 1 ∧
      (∀ z, z ≠ y → t.yard z = s.yard z) ∧ t.yard y = { x with stretch := pct.val, recover := 0 }) ∧
    (pct = 0 → exec (.droopStretch y pct) s = .next s) ∧
    (stretching = true → x.recover = 0 → exec (.droopRecovery y) s = .next { s with yards := AMap.set y { x with recover := 64 } s.yards }) ∧
    (stretching = false ∨ x.recover ≠ 0 → exec (.droopRecovery y) s = .next s) ∧
    (s.pending = [] → Leaves (step s) fun t =>
      let ms := if x.stops = [] then x.milli + x.freq * 100 / (100 + if x.recover = 0 then x.stretch else x.stretch * x.recover / 64)
        else x.milli
      let k := ms / 1000 - x.milli / 1000
      (t.yard y).milli = ms ∧
        Counted s t (.clkYardStretch y) (if stretching = false then 0 else if x.recover = 0 then k else min k x.recover) ∧
        (stretching = true → x.recover ≠ 0 → x.recover ≤ k → t.flag r F.clkYardStatus_STRETCHING = false)) ∧
    (idle → 1 ∉ x.stops → stops (exec (.idleGateStop y) s) 1) ∧
    (¬ idle ∨ 1 ∈ x.stops → exec (.idleGateStop y) s = .next s) ∧
    (s.yardIdle y = false → 1 ∈ x.stops → runs (exec (.idleGateResume y) s) 1) ∧
    (s.yardIdle y = true ∨ 1 ∉ x.stops → exec (.idleGateResume y) s = .next s) ∧
    (3 ∉ x.stops → stops (exec (.haltWrite y true) s) 3) ∧
    (3 ∈ x.stops → runs (exec (.haltWrite y false) s) 3) ∧
    (∀ on, Leaves (exec (.haltWrite y on) s) fun t => t.flag c F.clkYardCtrl_HALT = on ∧ ((3 ∈ (t.yard y).stops) ↔ (on = true ∨
      3 ∈ x.stops.erase 3))) ∧
    (Leaves (exec (.yardNeighbourCheck mv tc) s) fun t => t = { s with regs := t.regs, yards := t.yards } ∧
      OnlyRegs (fun q => ∃ z, q = .clkYardStatus z) s t ∧ (t.yard y).freq = x.freq ∧ (t.yard y).stops = x.stops ∧
      t.fld r F.clkYardStatus_TEMP_C = tc[y] % 2 ^ 8 ∧ t.yard y = { x with caps := (t.yard y).caps } ∧
      ∀ i e, yardPairs[i]? = some e →
        (low e → capOf (t.yard y) i = some (max 600 (min x.cap x.freq - 25), judge 100 e)) ∧
        (¬ low e → judge 80 e ≠ 0 → capOf (t.yard y) i = capOf x i) ∧
        (judge 100 e = 0 → judge 80 e = 0 → capOf (t.yard y) i =
          (capOf x i).bind fun w => if 1400 ≤ w.1 + 25 then none else some (w.1 + 25, w.2)))

/-- The power evaluation shows the readings, and its limit; its steps of 25 MHz, none of them where every yard is at 600 MHz already; a
reading beyond its limit for its time trips, the lowest cause of those at once; the thermal throttle's steps and hysteresis, the hottest
yard shown also with the die down; a hot loft package. For how many evaluations a condition holds before it trips, and that the readings
decide it (log entry 107), and that thermal throttling ends at 600 MHz, the least that R350 gives a yard (log entry 79), are the model's
choices. -/
def Obligations.PowerAndTemperature : Prop :=
  ∀ (s : State) (m : PowerSample) (tc : Vector Nat 4) (k : Fin 16) (n : Nat),
    let lim := s.fld .ptrPwrLimit F.ptrPwrLimit_LIMIT_W
    let e := max (1600 * 300) (min (lim * 300) (min ((2800 - 100 * (m.inlet - 45)) * 300) (2800 * min 300 m.flow)))
    let thr := s.fld .ptrThermCtrl F.ptrThermCtrl_YARD_THROTTLE_C
    let hot := s.fld .ptrThermStatus F.ptrThermStatus_YARD_MAX_C
    let prot := Reg.ptrProtStatus
    let yards := [(0 : Fin 4), 1, 2, 3]
    let low := yards.all fun z => decide ((s.yard z).freq = 600)
    let past := ([1, 2, 3, 4, 5, 6, 7, 8, 9, 10] : List Nat).filter fun c =>
      match c with
      | 1 => decide (90 < m.amps)
      | 2 => decide (m.vin < 4200)
      | 3 => decide (6000 < m.vin)
      | 4 => decide (110 ≤ hot)
      | 5 => decide (110 ≤ m.hbm ∨ 105 ≤ m.loft)
      | 6 => decide (85 ≤ m.optical)
      | 7 => decide (55 < m.inlet)
      | 8 => decide (m.flow < 150)
      | 9 => m.wet
      | _ => m.rail
    let held := fun c => AMap.get 0 c s.tripMs + 1
    let due := past.filter fun c => decide (held c = if c = 7 ∨ c = 8 then 1000 else if c = 9 then 100 else 1)
    (s.aux = false → exec (.powerControlEval m) s = .next s ∧ exec (.yardThermalCheck tc) s = .next s) ∧
    (s.aux = true → due = [] → Leaves (exec (.powerControlEval m) s) fun t => t.stalls = s.stalls ∧ t.mem = s.mem ∧
      t.power = s.power ∧ t.tripMs = (past.map fun c => (c, held c)) ∧
      t.fld .ptrPwrLimit F.ptrPwrLimit_EFFECTIVE_W = e / 300 % 2 ^ 12 ∧ t.fld .ptrPwrLimit F.ptrPwrLimit_LIMIT_W = lim ∧
      t.fld .ptrPwrStatus F.ptrPwrStatus_VIN_10MV = m.vin % 2 ^ 16 ∧ t.fld .ptrPwrStatus F.ptrPwrStatus_PIN_W = m.pin % 2 ^ 16 ∧
      t.fld .ptrThermStatus F.ptrThermStatus_INLET_C = m.inlet % 2 ^ 8 ∧
      t.fld .ptrThermStatus F.ptrThermStatus_FLOW_10ML = m.flow % 2 ^ 12 ∧
      t.flag prot F.ptrProtStatus_ACTIVE = !past.isEmpty ∧ (s.dieUp = false → t.yards = s.yards) ∧
      (75 ≤ m.optical → Redfish.optical m.optical ∈ t.redfish) ∧
      (s.dieUp = true → ∀ y ∈ yards,
        t.flag .ptrPwrLimit F.ptrPwrLimit_FLOOR = (decide (e < m.mean * 300) && low) ∧
        t.yard y = { s.yard y with power :=
          if e < m.mean * 300 then (if low then (s.yard y).power else max 600 ((s.yard y).power - 25))
          else if (m.mean + 50) * 300 < e then min 1400 ((s.yard y).power + 25) else (s.yard y).power })) ∧
    (∀ c, s.aux = true → due.head? = some c → Leaves (exec (.powerControlEval m) s) fun t =>
      t.flag prot F.ptrProtStatus_ACTIVE = true ∧ t.flag prot F.ptrProtStatus_VALID = true ∧ t.dieUp = false ∧
      (s.flag prot F.ptrProtStatus_VALID = false →
        t.fld prot F.ptrProtStatus_CAUSE = c ∧ t.fld prot F.ptrProtStatus_TIME_MS = s.porterMs % 2 ^ 48) ∧
      (s.mainUp = true → t.mem = [] ∧ t.power = if s.rails.isEmpty then .off else .falling) ∧
      t.flag .ptrPwrLimit F.ptrPwrLimit_FLOOR = false ∧ t.fld .ptrPwrLimit F.ptrPwrLimit_EFFECTIVE_W = e / 300 % 2 ^ 12) ∧
    (s.dieUp = false → exec (.loftThermalThrottle k n) s = .next s) ∧
    (s.aux = true → Leaves (exec (.yardThermalCheck tc) s) fun t => t.stalls = s.stalls ∧ t.mem = s.mem ∧
      t.fld .ptrThermStatus F.ptrThermStatus_YARD_MAX_C = max (max tc[0] tc[1]) (max tc[2] tc[3]) % 2 ^ 8 ∧
      t.flag .ptrThermStatus F.ptrThermStatus_THROTTLING = (yards.any fun y => decide ((t.yard y).thermal ≠ 0)) ∧
      (s.dieUp = false → t.yards = s.yards) ∧
      (s.dieUp = true → ∀ y ∈ yards, t.fld (.clkYardStatus y) F.clkYardStatus_TEMP_C = tc[y] % 2 ^ 8 ∧
        t.yard y = { s.yard y with thermal :=
          if thr < tc[y] then (if 600 < (s.yard y).porter then (s.yard y).thermal + 25 else (s.yard y).thermal)
          else if tc[y] + 3 ≤ thr then (s.yard y).thermal - 25 else (s.yard y).thermal })) ∧
    (s.dieUp = true → Leaves (exec (.loftThermalThrottle k n) s) fun t => t = { s with loftHot := t.loftHot } ∧
      (k ∈ t.loftHot ↔ 95 < n) ∧ ∀ j, j ≠ k → (j ∈ t.loftHot ↔ j ∈ s.loftHot))

/-! ### Memory controllers, always-on counters and the retired-page list (R197, R199, R348, R407, R409) -/

/-- Refresh follows the stack's temperature; a patrol pass starts, and ends with what it found corrected or poisoned, and with a record of
each page that held poison before it; the porter collects what the die has counted, or counts that the die did not answer, and brings the
rails up and down, one after the other; the retired-page list takes entries while no commit runs. That the rails are followed at the
collection, a millisecond at a time (log entry 107), that a patrol's effects come at its end (67), that any write of
PTR_RETIRED_IDX is committed and COUNT takes any value (68), and when the die answers (95), are the model's choices. -/
def Obligations.MemoryControllersAndPorter : Prop :=
  ∀ (s : State) (k : Fin 8) (n cyc : Nat) (m : Option (Fin 8)) (v : BitVec 64),
    let hs := Reg.hbaStatus k
    let sr := match m with | some j => Reg.hbaScrub j | none => Reg.lftScrub
    let idx := Reg.ptrRetiredIdx
    let busy := s.flag idx F.ptrRetiredIdx_BUSY
    let level := fun x : Nat => ([85, 95, 105].filter fun h => decide (h < x)).length
    let cur := s.fld hs F.hbaStatus_REFRESH + if s.flag hs F.hbaStatus_THROTTLE then 1 else 0
    let next := max (level n) (min cur (level (n + 2)))
    let runs := s.flag sr F.hbaScrub_BUSY
    let starts := fun o : Out => (runs = true → o = .next s) ∧ (runs = false → Leaves o fun t =>
      t = { s with regs := t.regs, patrols := AMap.set m (s.poison.filter (inPatrol m)) s.patrols } ∧
        OnlyRegs (fun r => r = sr) s t ∧ Takes s t sr F.hbaScrub_BUSY 1)
    let old := AMap.get [] m s.patrols
    let pages := (old.map fun u => u / 2 ^ 21).eraseDups
    let tail := fun t : State => t.fld .hbaPoisonTail F.hbaPoisonTail_INDEX
    (s.dieUp = true → Sets s (exec (.refreshTempSample k n cyc) s) (fun r => r = hs ∨ r = .hbaThrottleCyc k) fun t =>
      t.fld hs F.hbaStatus_TEMP = n % 2 ^ 8 ∧ t.fld hs F.hbaStatus_REFRESH = min next 2 ∧
      (t.flag hs F.hbaStatus_THROTTLE = true ↔ next = 3) ∧
      Counted s t (.hbaThrottleCyc k) (if s.flag hs F.hbaStatus_THROTTLE then cyc else 0)) ∧
    (s.dieUp = true → starts (exec (.passNow m) s) ∧
      (s.fld sr F.hbaScrub_PERIOD_H ≠ 0 → starts (exec (.scrubPassStart m) s)) ∧
      (s.fld sr F.hbaScrub_PERIOD_H = 0 → exec (.scrubPassStart m) s = .next s) ∧
      (runs = false → exec (.scrubPassEnd m) s = .next s) ∧
      (runs = true → Leaves (exec (.scrubPassEnd m) s) fun t => t.flag sr F.hbaScrub_BUSY = false ∧
        (∀ j, j ≠ m → AMap.get [] j t.patrols = AMap.get [] j s.patrols) ∧ AMap.get [] m t.patrols = [] ∧
        (s.latentUe = [] → s.latentCe = [] → s.fld .hbaPoisonHead F.hbaPoisonHead_INDEX = tail s → pages.length < 64 →
          tail t = (tail s + pages.length) % 64 ∧ ∀ j : Fin 64, ∀ pg, pages[j.val]? = some pg → pg < 2 ^ 24 →
            let x := t.rd (.hbaPoisonRec0 (Fin.ofNat 64 (tail s + j.val)))
            F.hbaPoisonRec0_PAGE.get x = pg ∧ F.hbaPoisonRec0_SCRUB.get x = 1) ∧
        t.mem = s.mem ∧ t.stalls = s.stalls ∧ (∀ u, inPatrol m u = true → u ∉ t.latentUe ∧ u ∉ t.latentCe) ∧
        (∀ u, u ∈ t.poison ↔ u ∈ s.poison ∨ (u ∈ s.latentUe ∧ inPatrol m u = true)) ∧
        ∀ u, inPatrol m u = false → (u ∈ t.latentUe ↔ u ∈ s.latentUe) ∧ (u ∈ t.latentCe ↔ u ∈ s.latentCe))) ∧
    (s.aux = true →
      (Leaves (exec .aonCollection s) fun t =>
        t = { s with regs := t.regs, porterMs := s.porterMs + 1, aonDie := t.aonDie, power := t.power, rails := t.rails,
                     railMs := t.railMs } ∧
        (s.power = .good ∨ s.power = .off → t.power = s.power ∧ t.rails = s.rails ∧ t.railMs = s.railMs) ∧
        (s.power = .rising → t.power = .rising ∧ t.railMs = s.railMs + 1 ∧
          (∀ j r w, s.rails[j]? = some (r, w) →
            t.rails[j]? = some (r, if Config.railIn j (s.porterMs + 1) then w + 1 else 0)) ∧
          (let after := (t.rails.take s.rails.length).getLast?
           (∀ e, after = some e → e.2 < 2 → t.rails.length = s.rails.length) ∧
           (∀ r, (∀ e, after = some e → 2 ≤ e.2) → railOrder[s.rails.length]? = some r →
             t.rails.length = s.rails.length + 1 ∧ t.rails[s.rails.length]? = some (r, 0)))) ∧
        (s.power = .falling → t.railMs = s.railMs + 1 ∧
          t.rails = (if 20 ≤ s.railMs + 1 then []
            else if Config.railFell (s.rails.length - 1) (s.porterMs + 1) then s.rails.dropLast else s.rails) ∧
          (t.power = .off ↔ t.rails = []) ∧ (t.power = .falling ↔ t.rails ≠ [])) ∧ t.rd (.ptrAon 405) = BitVec.ofNat 64 (s.porterMs + 1) ∧
        (s.dieUp = false → t.aonDie = s.aonDie ∧ OnlyRegs (fun r => r = .ptrAon 405) s t) ∧
        (s.dieUp = true → Config.dieAnswers (s.porterMs + 1) = false → t.aonDie = [] ∧ ∀ i : Fin 512, i ≠ 405 →
          (t.rd (.ptrAon i)).toNat = if i = 421 then min (2 ^ 64 - 1) ((s.rd (.ptrAon i)).toNat + 1) else (s.rd (.ptrAon i)).toNat) ∧
        (s.dieUp = true → Config.dieAnswers (s.porterMs + 1) = true → t.aonDie = [] ∧ ((s.aonDie.map (·.1)).Nodup → (∀ e ∈ s.aonDie, e.1 < 512) → ∀ i : Fin 512, i ≠ 405 →
          (t.rd (.ptrAon i)).toNat = min (2 ^ 64 - 1) ((s.rd (.ptrAon i)).toNat + AMap.get 0 i.val s.aonDie)))) ∧
      (Sets s (exec .clear s) (fun r => ∃ i, r = .ptrAon i ∧ i ≠ 400 ∧ i ≠ 405) fun t =>
        ∀ i, i ≠ 400 → i ≠ 405 → t.rd (.ptrAon i) = 0) ∧
      (busy = true → exec (.retiredDataWrite v) s = .next s ∧ exec (.retiredIdxWrite v) s = .next s) ∧
      (busy = false → Leaves (exec (.retiredDataWrite v) s) fun t =>
        t = { s with regs := t.regs, retiredPages := t.retiredPages } ∧ OnlyRegs (fun r => r = idx) s t ∧
        Takes s t idx F.ptrRetiredIdx_BUSY 1 ∧ ∀ i : Fin 4096,
          let x := AMap.get 0 i t.retiredPages
          (i.val = s.fld idx F.ptrRetiredIdx_INDEX → F.ptrRetiredData_PAGE.get x = F.ptrRetiredData_PAGE.get v ∧
            F.ptrRetiredData_TIER.get x = F.ptrRetiredData_TIER.get v) ∧
          (i.val ≠ s.fld idx F.ptrRetiredIdx_INDEX → x = AMap.get 0 i s.retiredPages)) ∧
      (busy = false → Sets s (exec (.retiredIdxWrite v) s) (fun r => r = idx) fun t =>
        t.fld idx F.ptrRetiredIdx_INDEX = F.ptrRetiredIdx_INDEX.get v ∧
        t.fld idx F.ptrRetiredIdx_COUNT = fieldAfter F.ptrRetiredIdx_COUNT (s.rd idx) v ∧
        t.flag idx F.ptrRetiredIdx_BUSY = true) ∧
      (Sets s (exec .retiredCommitDone s) (fun r => r = idx) fun t => Takes s t idx F.ptrRetiredIdx_BUSY 0))

/-! ### The trace (R415 to R421, R423) -/

/-- ENABLE starts the ring anew; ARM arms; a trigger is taken where ARMED, leaves its place and its count, and one without ARMED is
counted; a marker's record goes into its source's queue, and into the ring where the network takes it (when that is, is open: log entry
16), and is dropped where the queue is full; the ring freezes after its last record; a trigger from a neighbour counts once, and one
that is not taken leaves no trace but its count, or, in the mail cycle of one that is, gives it the lower source. What its unit's queue
holds enters the ring before a trigger's record, and triggers of equal stamps are of one mail cycle: the model's choices, log entry 16. -/
def Obligations.TraceControl : Prop :=
  ∀ (s : State) (x : BitVec 32) (p : Fin 8) (lt : Letter), s.dieUp = true →
    let st := Reg.dbgTraceStatus
    let c := Reg.dbgTraceCtrl
    let spill := s.flag c F.dbgTraceCtrl_SPILL
    let size := s.fld .dbgTraceSpill F.dbgTraceSpill_SIZE_GIB
    let i := s.fld st F.dbgTraceStatus_WRITE_IDX
    let armed := s.flag st F.dbgTraceStatus_ARMED
    let frozen := s.flag st F.dbgTraceStatus_FROZEN
    let cap := if spill then size * 2 ^ 25 else 2 ^ 21
    let triggered := fun (t : State) (source : Nat) => t.flag st F.dbgTraceStatus_ARMED = false ∧
      t.fld st F.dbgTraceStatus_TRIG_IDX = i ∧ t.flag st F.dbgTraceStatus_FROZEN = false ∧
      t.trace.post = some (s.fld c F.dbgTraceCtrl_POST_EIGHTHS * cap / 8) ∧ t.trace.source = source ∧
      t.trace.taken = s.trace.taken + 1 ∧ t.trace.trigAt = some s.stampNow ∧ t.stalls = s.stalls
    let pair := (natAt lt.body 0 2, natAt lt.body 2 4)
    let takes := bitOf (s.fld .dbgTrigNet F.dbgTrigNet_ACCEPT) p.val = true ∧ pair ∉ s.trace.recent
    (spill = true → size = 0 → exec .enable s = .next s) ∧
    (spill = false ∨ size ≠ 0 → Leaves (exec .enable s) fun t => t = { s with regs := t.regs, trace := t.trace } ∧
      t.trace = { s.trace with post := none, queues := [], lost := [], trigAt := none } ∧ OnlyRegs (fun r => r = c) s t ∧ Takes s t c F.dbgTraceCtrl_ENABLE 1 ∧
      t.fld st F.dbgTraceStatus_WRITE_IDX = 0 ∧ t.flag st F.dbgTraceStatus_FROZEN = false) ∧
    (Leaves (exec .arm s) fun t => t = { s with regs := t.regs } ∧ Takes s t st F.dbgTraceStatus_ARMED 1 ∧
      OnlyRegs noReg s t) ∧
    (armed = false → s.trace.trigAt ≠ some s.stampNow → Leaves (exec .trigNow s) fun t => t = { s with aonDie := t.aonDie } ∧
      AMap.get 0 422 t.aonDie = min (2 ^ 64 - 1) (AMap.get 0 422 s.aonDie + 1)) ∧
    (armed = false → s.trace.trigAt = some s.stampNow →
      (s.trace.source ≤ 4 → exec .trigNow s = .next s) ∧
      (4 < s.trace.source → Leaves (exec .trigNow s) fun t => t.trace = { s.trace with source := 4 } ∧ t.aonDie = s.aonDie ∧
        t.fld st F.dbgTraceStatus_TRIG_IDX = s.fld st F.dbgTraceStatus_TRIG_IDX ∧
        let at' := s.fld st F.dbgTraceStatus_TRIG_IDX
        (spill = false → at' < 2 ^ 21 → (t.rd (.dbgTraceBuf (Fin.ofNat 2097152 at') 1)).toNat =
          (s.rd (.dbgTraceBuf (Fin.ofNat 2097152 at') 1)).toNat % 2 ^ 32 + 4 * 2 ^ 32))) ∧
    (armed = true → frozen = true → exec .trigNow s = .next s) ∧
    (armed = true → frozen = false → s.traceQ 0x234 = [] → s.trace.lost = [] ∨ s.flag c F.dbgTraceCtrl_ENABLE = false →
      Leaves (exec .trigNow s) fun t => triggered t 4 ∧ OnlyRegs noReg s t) ∧
    (∀ n first last, armed = true → frozen = false → s.flag c F.dbgTraceCtrl_ENABLE = true → s.traceQ 0x234 = [] →
      s.trace.lost = [(0x234, n, first, last)] → s.trace.post = none → spill = false → i + 1 < 2 ^ 21 →
      (∀ m : Fin 4, s.flag (.dbgTrig m) F.dbgTrig_EN = false) →
      let marker := toBytes 2 0x234 ++ [0, 0xFF] ++ toBytes 4 n
      Leaves (exec .trigNow s) fun t => (t.rd (.dbgTraceBuf (Fin.ofNat 2097152 i) 1)).toNat = natAt marker 0 8 ∧
        t.fld st F.dbgTraceStatus_TRIG_IDX = i + 1 ∧ t.traceQ 0x234 = [] ∧ t.trace.lost = [] ∧ t.trace.source = 4) ∧
    (∀ rec, armed = true → frozen = false → s.flag c F.dbgTraceCtrl_ENABLE = true → s.traceQ 0x234 = [rec] → s.trace.lost = [] →
      s.trace.post = none → spill = false → i + 1 < 2 ^ 21 → (∀ m : Fin 4, s.flag (.dbgTrig m) F.dbgTrig_EN = false) →
      Leaves (exec .trigNow s) fun t => (t.rd (.dbgTraceBuf (Fin.ofNat 2097152 i) 0)).toNat = natAt rec 0 8 ∧
        t.fld st F.dbgTraceStatus_TRIG_IDX = i + 1 ∧ t.traceQ 0x234 = [] ∧ t.trace.source = 4) ∧
    (s.flag c F.dbgTraceCtrl_ENABLE = false ∨ frozen = true ∨ s.trace.post = some 0 ∨
        bitOf (s.fld (.dbgTraceSrc 0x234) F.dbgTraceSrc_MASK) 9 = false → exec (.traceMark x) s = .next s) ∧
    (s.flag c F.dbgTraceCtrl_ENABLE = true → frozen = false → s.trace.post ≠ some 0 →
      bitOf (s.fld (.dbgTraceSrc 0x234) F.dbgTraceSrc_MASK) 9 = true → s.trace.lost = [] →
      let line := toBytes 8 (s.frankFrac + s.frankNs.toNat % 2 ^ 56 * 256) ++ toBytes 2 0x234 ++ [9, 0xFF] ++ toBytes 4 x.toNat ++
        List.replicate 16 0
      let n := Config.traceTaken s.trace.no
      (n = 0 → (s.traceQ 0x234).length < 64 → Leaves (exec (.traceMark x) s) fun t => t = { s with trace := t.trace } ∧
        t.traceQ 0x234 = s.traceQ 0x234 ++ [line] ∧ t.trace.lost = []) ∧
      (n = 0 → 64 ≤ (s.traceQ 0x234).length → Leaves (exec (.traceMark x) s) fun t =>
        t = { s with trace := t.trace, aonDie := t.aonDie } ∧ t.traceQ 0x234 = s.traceQ 0x234 ∧
        t.trace.lost = [(0x234, 1, line.take 8, line.take 8)] ∧
        AMap.get 0 418 t.aonDie = min (2 ^ 64 - 1) (AMap.get 0 418 s.aonDie + 1)) ∧
      (n ≠ 0 → s.traceQ 0x234 = [] → spill = false → (∀ m : Fin 4, s.traceMatch m 0x234 9 x.toNat [] = false) →
        Leaves (exec (.traceMark x) s) fun t =>
          let j := Fin.ofNat 2097152 i
          t.traceQ 0x234 = [] ∧ (t.rd (.dbgTraceBuf j 0)).toNat = natAt line 0 8 ∧ (t.rd (.dbgTraceBuf j 1)).toNat = natAt line 8 8 ∧
          t.fld st F.dbgTraceStatus_WRITE_IDX = (if 2 ^ 21 ≤ i + 1 then 0 else i + 1) ∧ OnlyRegs noReg s t ∧ t.stalls = s.stalls)) ∧
    (s.trace.post = some 0 → frozen = false → Leaves (exec .traceFreeze s) fun t =>
      t.flag st F.dbgTraceStatus_FROZEN = true ∧ t.trace = { s.trace with queues := [], lost := [] } ∧ OnlyRegs noReg s t ∧
      t.stalls = s.stalls ∧ t.mem = s.mem) ∧
    (s.trace.post ≠ some 0 ∨ frozen = true → exec .traceFreeze s = .next s) ∧
    (s.accepted p = true → lt.cls = .diag → lt.op = 1 →
      (¬ takes → Leaves (exec (.remoteTrigger p lt) s) fun t => t.trace = s.trace ∧ t.regs = s.regs ∧ t.outQ = s.outQ) ∧
      (takes → armed = true → frozen = false → s.traceQ (portUnit p) = [] →
        s.trace.lost = [] ∨ s.flag c F.dbgTraceCtrl_ENABLE = false → Leaves (exec (.remoteTrigger p lt) s) fun t =>
        t.trace.recent = (pair :: s.trace.recent).take 16 ∧ triggered t 5) ∧
      (takes → armed = false ∨ frozen = true → s.trace.source ≤ 5 → Leaves (exec (.remoteTrigger p lt) s) fun t =>
        t.trace = s.trace ∧ t.regs = s.regs ∧ t.outQ = s.outQ ∧
        (armed = false → s.trace.trigAt ≠ some s.stampNow → AMap.get 0 422 t.aonDie = min (2 ^ 64 - 1) (AMap.get 0 422 s.aonDie + 1)) ∧
        (armed = false → s.trace.trigAt = some s.stampNow → t.aonDie = s.aonDie))) ∧
    (s.accepted p = false ∨ lt.cls ≠ .diag ∨ lt.op ≠ 1 → exec (.remoteTrigger p lt) s = .next s)
end

