-- ==== Sys2Proof/Laws/Memory.lean ====
section
/-!
SUPPORT. Laws of association lists and of memory: a read after a write, and the canonical form, which every memory operation
keeps.
-/
namespace Sys2Proof

theorem AMap.get_set_same {α β : Type} [DecidableEq α] (d : β) (k : α) (v : β) (m : AMap α β) :
    AMap.get d k (AMap.set k v m) = v := by
  induction m with
  | nil => simp [AMap.set, AMap.get]
  | cons e m ih =>
    obtain ⟨k', v'⟩ := e
    simp only [AMap.set]
    split <;> simp_all [AMap.get]

theorem AMap.get_set_other {α β : Type} [DecidableEq α] (d : β) {k k' : α} (v : β) (m : AMap α β) (h : k' ≠ k) :
    AMap.get d k' (AMap.set k v m) = AMap.get d k' m := by
  induction m with
  | nil => simp [AMap.set, AMap.get, Ne.symm h]
  | cons e m ih =>
    obtain ⟨k2, v2⟩ := e
    simp only [AMap.set]
    split
    · rename_i e; subst e; simp [AMap.get, Ne.symm h]
    · simp only [AMap.get]; split <;> simp_all

theorem AMap.get_set {α β : Type} [DecidableEq α] (d : β) (k k' : α) (v : β) (m : AMap α β) :
    AMap.get d k' (AMap.set k v m) = if k' = k then v else AMap.get d k' m := by
  split
  · rename_i e; subst e; exact get_set_same d _ v m
  · rename_i e; exact get_set_other d v m e

namespace Machine

theorem Memory.wfFrom_mono {lo hi : Nat} (h : lo ≤ hi) {m : List Host.Cell} (w : Memory.wfFrom hi m = true) :
    Memory.wfFrom lo m = true := by
  cases m with
  | nil => rfl
  | cons c m =>
    obtain ⟨a, x⟩ := c
    simp only [Memory.wfFrom, Bool.and_eq_true, decide_eq_true_eq] at w ⊢
    exact ⟨⟨by omega, w.1.2⟩, w.2⟩

theorem Memory.cons_wfFrom {lo a : Nat} (x : Byte) {m : List Host.Cell} (h : lo ≤ a)
    (w : Memory.wfFrom (a + 1) m = true) : Memory.wfFrom lo (Memory.cons a x m) = true := by
  unfold Memory.cons
  split
  · exact Memory.wfFrom_mono (by omega) w
  · simp [Memory.wfFrom, *]

theorem Memory.write_wfFrom {lo a : Nat} (x : Byte) {m : List Host.Cell} (h : lo ≤ a)
    (w : Memory.wfFrom lo m = true) : Memory.wfFrom lo (Memory.write m a x) = true := by
  induction m generalizing lo with
  | nil => exact Memory.cons_wfFrom x h rfl
  | cons c m ih =>
    obtain ⟨b, v⟩ := c
    simp only [Memory.wfFrom, Bool.and_eq_true, decide_eq_true_eq] at w
    simp only [Memory.write]
    split
    · refine Memory.cons_wfFrom x h ?_
      simp only [Memory.wfFrom, Bool.and_eq_true, decide_eq_true_eq]
      exact ⟨⟨by omega, w.1.2⟩, w.2⟩
    · split
      · rename_i e; subst e; exact Memory.cons_wfFrom x h w.2
      · simp only [Memory.wfFrom, Bool.and_eq_true, decide_eq_true_eq]
        exact ⟨w.1, ih (by omega) w.2⟩

/-- A write keeps the canonical form. -/
theorem Memory.write_wf (a : Nat) (x : Byte) {m : List Host.Cell} (w : Memory.wf m = true) :
    Memory.wf (Memory.write m a x) = true :=
  Memory.write_wfFrom x (Nat.zero_le a) w

theorem Memory.filter_wfFrom (p : Host.Cell → Bool) {lo : Nat} {m : List Host.Cell} (w : Memory.wfFrom lo m = true) :
    Memory.wfFrom lo (m.filter p) = true := by
  induction m generalizing lo with
  | nil => rfl
  | cons c m ih =>
    obtain ⟨b, v⟩ := c
    simp only [Memory.wfFrom, Bool.and_eq_true, decide_eq_true_eq] at w
    simp only [List.filter]
    split
    · simp only [Memory.wfFrom, Bool.and_eq_true, decide_eq_true_eq]
      exact ⟨w.1, ih w.2⟩
    · exact Memory.wfFrom_mono (by omega) (ih w.2)

/-- Clearing a range keeps the canonical form. -/
theorem Memory.clear_wf (lo hi : Nat) {m : List Host.Cell} (w : Memory.wf m = true) :
    Memory.wf (Memory.clear lo hi m) = true :=
  Memory.filter_wfFrom _ w

theorem Memory.read_cons (a b : Nat) (x : Byte) {m : List Host.Cell} (w : Memory.wfFrom (a + 1) m = true) :
    Memory.read (Memory.cons a x m) b = if b = a then x else Memory.read m b := by
  have below : ∀ {lo : Nat} {m : List Host.Cell}, Memory.wfFrom lo m = true → ∀ c, c < lo → Memory.read m c = Memory.fill := by
    intro lo m
    induction m generalizing lo with
    | nil => intros; rfl
    | cons e m ih =>
      obtain ⟨d, v⟩ := e
      intro w c hc
      simp only [Memory.wfFrom, Bool.and_eq_true, decide_eq_true_eq] at w
      simp only [Memory.read]
      rw [if_neg (by omega)]
      exact ih w.2 c (by omega)
  unfold Memory.cons
  split
  · split
    · rename_i e f; subst f; rw [below w _ (by omega)]; exact e.symm
    · rfl
  · simp only [Memory.read]
    by_cases h : a = b
    · simp [h]
    · simp [h, Ne.symm h]

/-- A write of another address leaves a byte as it was, in any memory. -/
theorem Memory.read_write_other (m : List Host.Cell) {a b : Nat} (x : Byte) (h : b ≠ a) :
    Memory.read (Memory.write m a x) b = Memory.read m b := by
  have cons : ∀ m : List Host.Cell, Memory.read (Memory.cons a x m) b = Memory.read m b := by
    intro m; unfold Memory.cons; split
    · rfl
    · simp [Memory.read, Ne.symm h]
  induction m with
  | nil => exact cons []
  | cons c m ih =>
    obtain ⟨d, v⟩ := c
    simp only [Memory.write]
    split
    · exact cons _
    · split
      · rename_i e; subst e
        rw [cons]
        simp [Memory.read, Ne.symm h]
      · simp only [Memory.read]; split
        · rfl
        · exact ih

theorem Memory.read_write_from {lo : Nat} {m : List Host.Cell} (w : Memory.wfFrom lo m = true) {a : Nat} (x : Byte) :
    Memory.read (Memory.write m a x) a = x := by
  induction m generalizing lo with
  | nil => unfold Memory.write Memory.cons; split <;> simp_all [Memory.read]
  | cons c m ih =>
    obtain ⟨d, v⟩ := c
    simp only [Memory.wfFrom, Bool.and_eq_true, decide_eq_true_eq] at w
    simp only [Memory.write]
    split
    · rw [Memory.read_cons a a x (by
        simp only [Memory.wfFrom, Bool.and_eq_true, decide_eq_true_eq]; exact ⟨⟨by omega, w.1.2⟩, w.2⟩)]
      simp
    · split
      · rename_i e; subst e
        rw [Memory.read_cons a a x w.2]; simp
      · simp only [Memory.read]; split
        · rename_i e; exact absurd e.symm (by assumption)
        · exact ih w.2

/-- A read after a write of the same address gives the value written. -/
theorem Memory.read_write_same {m : List Host.Cell} (w : Memory.wf m = true) (a : Nat) (x : Byte) :
    Memory.read (Memory.write m a x) a = x :=
  Memory.read_write_from w x

/-- Writing a list of cells leaves every address outside it as it was. -/
theorem Memory.read_writes_other {α : Type} (f : α → Nat) (g : α → Byte) (ws : List α) (m : List Host.Cell) {b : Nat}
    (h : ∀ w ∈ ws, f w ≠ b) :
    Memory.read (ws.foldl (fun m w => Memory.write m (f w) (g w)) m) b = Memory.read m b := by
  induction ws generalizing m with
  | nil => rfl
  | cons w ws ih =>
    simp only [List.foldl]
    rw [ih _ fun v hv => h v (List.mem_cons_of_mem _ hv),
      Memory.read_write_other m _ (Ne.symm (h w List.mem_cons_self))]

/-- Writing a list of cells keeps the canonical form. -/
theorem Memory.writes_wf {α : Type} (f : α → Nat) (g : α → Byte) (ws : List α) {m : List Host.Cell}
    (w : Memory.wf m = true) : Memory.wf (ws.foldl (fun m w => Memory.write m (f w) (g w)) m) = true := by
  induction ws generalizing m with
  | nil => exact w
  | cons v ws ih => exact ih (Memory.write_wf _ _ w)

/-- Clearing a range sets it to the fill. -/
theorem Memory.read_clear (lo hi : Nat) (m : List Host.Cell) (a : Nat) :
    Memory.read (Memory.clear lo hi m) a = if lo ≤ a ∧ a < hi then Memory.fill else Memory.read m a := by
  induction m with
  | nil => simp [Memory.clear, Memory.read]
  | cons c m ih =>
    obtain ⟨d, v⟩ := c
    unfold Memory.clear at ih ⊢
    simp only [List.filter]
    split
    · simp only [Memory.read]
      rename_i h
      simp only [Bool.or_eq_true, decide_eq_true_eq] at h
      split
      · rename_i e; subst e; rw [if_neg (by omega)]
      · exact ih
    · rw [ih]
      rename_i h
      simp only [Bool.or_eq_false_iff, decide_eq_false_iff_not] at h
      simp only [Memory.read]
      split
      · rfl
      · rename_i hn; rw [if_neg (by omega)]

end Machine
end Sys2Proof
end

