-- ==== Sys2Proof/Laws/Access.lean ====
section
/-!
SUPPORT. What an access to memory finds and leaves, where writes of other units may be under way (R16, R154).
-/
namespace Sys2Proof

open Machine

/-- An access that nothing races with finds what memory holds. -/
theorem peek_still {s : State} (h : Still s) (a : Nat) : s.peek a = s.held a := by
  obtain ⟨h1, h2⟩ := h
  simp [State.peek, h1, h2]

/-- With no writes of a word under way, an access other than a collective engine's finds what memory holds. -/
theorem peek_quiet {s : State} {a : Nat} (h : s.raceAt (wordOf a) = none) (n : ∀ i u, s.actor ≠ some (.source i u)) :
    s.peek a = s.held a := by
  unfold State.peek
  split
  · rfl
  · rw [h]
    cases ha : s.actor with
    | none => rfl
    | some x => cases x with
      | source i u => exact absurd ha (n i u)
      | _ => rfl

/-- An instruction's own actor goes with its effect. -/
@[simp] theorem acting_actor {α : Type} (s : State) (x : Actor) (u : Uses) (f : State → State × α)
    (h : u = .none → (f s).1.actor = s.actor) : (s.acting x u f).1.actor = s.actor := by
  unfold State.acting
  split
  · exact h ‹_›
  · rfl

/-- The rule of the vector stores changes how many writes of a word have been performed, and no word. -/
theorem raceClose_words (i : Nat) (cs : List (Racing × Nat)) : (raceClose i cs).map (·.1) = cs.map (·.1) := by
  induction i generalizing cs with
  | zero => rfl
  | succ i ih =>
    simp only [raceClose]
    split
    · rfl
    · rw [ih]; simp

/-- Performing writes under way leaves some of words only that had some. -/
theorem racesPerform_words (s : State) (k : Racing → Nat) :
    ∀ c ∈ (s.racesPerform k).racing, ∃ d ∈ s.racing, d.word = c.word := by
  intro c hc
  unfold State.racesPerform at hc
  split at hc
  · exact ⟨c, hc, rfl⟩
  · obtain ⟨e, he, rfl⟩ := List.mem_map.mp (List.mem_of_mem_filter hc)
    have hd := List.mem_map_of_mem (f := (·.1)) he
    rw [raceClose_words] at hd
    exact ⟨e.1, by simpa using hd, rfl⟩

/-- So does the end of an instruction. -/
theorem racesEnd_words (s : State) : ∀ c ∈ s.racesEnd.racing, ∃ d ∈ s.racing, d.word = c.word :=
  racesPerform_words s _

/-- So does a read. -/
theorem racesRead_words (s : State) (as : List Nat) : ∀ c ∈ (s.racesRead as).racing, ∃ d ∈ s.racing, d.word = c.word :=
  racesPerform_words s _

end Sys2Proof
end

