-- ==== Sys2Proof/Laws/State.lean ====
section
/-!
SUPPORT. One lemma for each field of State and each of the plainest updates: the field is as it was.
-/
namespace Sys2Proof.Machine

/-! ### wr -/

@[simp] theorem State.wr_pending (s : State) (r : Reg) (v : BitVec 64) : (s.wr r v).pending = s.pending := rfl
@[simp] theorem State.wr_mem (s : State) (r : Reg) (v : BitVec 64) : (s.wr r v).mem = s.mem := rfl
@[simp] theorem State.wr_poison (s : State) (r : Reg) (v : BitVec 64) : (s.wr r v).poison = s.poison := rfl
@[simp] theorem State.wr_latentUe (s : State) (r : Reg) (v : BitVec 64) : (s.wr r v).latentUe = s.latentUe := rfl
@[simp] theorem State.wr_latentCe (s : State) (r : Reg) (v : BitVec 64) : (s.wr r v).latentCe = s.latentCe := rfl
@[simp] theorem State.wr_actor (s : State) (r : Reg) (v : BitVec 64) : (s.wr r v).actor = s.actor := rfl
@[simp] theorem State.wr_racing (s : State) (r : Reg) (v : BitVec 64) : (s.wr r v).racing = s.racing := rfl
@[simp] theorem State.wr_underway (s : State) (r : Reg) (v : BitVec 64) : (s.wr r v).underway = s.underway := rfl
@[simp] theorem State.wr_sourceWords (s : State) (r : Reg) (v : BitVec 64) : (s.wr r v).sourceWords = s.sourceWords := rfl
@[simp] theorem State.wr_raceNo (s : State) (r : Reg) (v : BitVec 64) : (s.wr r v).raceNo = s.raceNo := rfl
@[simp] theorem State.wr_aonDie (s : State) (r : Reg) (v : BitVec 64) : (s.wr r v).aonDie = s.aonDie := rfl
@[simp] theorem State.wr_stalls (s : State) (r : Reg) (v : BitVec 64) : (s.wr r v).stalls = s.stalls := rfl
@[simp] theorem State.wr_watches (s : State) (r : Reg) (v : BitVec 64) : (s.wr r v).watches = s.watches := rfl
@[simp] theorem State.wr_xlat (s : State) (r : Reg) (v : BitVec 64) : (s.wr r v).xlat = s.xlat := rfl
@[simp] theorem State.wr_xlatUnits (s : State) (r : Reg) (v : BitVec 64) : (s.wr r v).xlatUnits = s.xlatUnits := rfl
@[simp] theorem State.wr_xlatNo (s : State) (r : Reg) (v : BitVec 64) : (s.wr r v).xlatNo = s.xlatNo := rfl
@[simp] theorem State.wr_refusing (s : State) (r : Reg) (v : BitVec 64) : (s.wr r v).refusing = s.refusing := rfl
@[simp] theorem State.wr_xlatRoot (s : State) (r : Reg) (v : BitVec 64) : (s.wr r v).xlatRoot = s.xlatRoot := rfl
@[simp] theorem State.wr_xlatPend (s : State) (r : Reg) (v : BitVec 64) : (s.wr r v).xlatPend = s.xlatPend := rfl
@[simp] theorem State.wr_sampled (s : State) (r : Reg) (v : BitVec 64) : (s.wr r v).sampled = s.sampled := rfl
@[simp] theorem State.wr_ctxStables (s : State) (r : Reg) (v : BitVec 64) : (s.wr r v).ctxStables = s.ctxStables := rfl
@[simp] theorem State.wr_consigns (s : State) (r : Reg) (v : BitVec 64) : (s.wr r v).consigns = s.consigns := rfl
@[simp] theorem State.wr_nextConsign (s : State) (r : Reg) (v : BitVec 64) : (s.wr r v).nextConsign = s.nextConsign := rfl
@[simp] theorem State.wr_unsignalled (s : State) (r : Reg) (v : BitVec 64) : (s.wr r v).unsignalled = s.unsignalled := rfl
@[simp] theorem State.wr_dma (s : State) (r : Reg) (v : BitVec 64) : (s.wr r v).dma = s.dma := rfl
@[simp] theorem State.wr_images (s : State) (r : Reg) (v : BitVec 64) : (s.wr r v).images = s.images := rfl
@[simp] theorem State.wr_stableImg (s : State) (r : Reg) (v : BitVec 64) : (s.wr r v).stableImg = s.stableImg := rfl
@[simp] theorem State.wr_hostOut (s : State) (r : Reg) (v : BitVec 64) : (s.wr r v).hostOut = s.hostOut := rfl
@[simp] theorem State.wr_linkRx (s : State) (r : Reg) (v : BitVec 64) : (s.wr r v).linkRx = s.linkRx := rfl
@[simp] theorem State.wr_linkTx (s : State) (r : Reg) (v : BitVec 64) : (s.wr r v).linkTx = s.linkTx := rfl
@[simp] theorem State.wr_porterOut (s : State) (r : Reg) (v : BitVec 64) : (s.wr r v).porterOut = s.porterOut := rfl
@[simp] theorem State.wr_msix (s : State) (r : Reg) (v : BitVec 64) : (s.wr r v).msix = s.msix := rfl
@[simp] theorem State.wr_msixPend (s : State) (r : Reg) (v : BitVec 64) : (s.wr r v).msixPend = s.msixPend := rfl
@[simp] theorem State.wr_aer (s : State) (r : Reg) (v : BitVec 64) : (s.wr r v).aer = s.aer := rfl
@[simp] theorem State.wr_postQ (s : State) (r : Reg) (v : BitVec 64) : (s.wr r v).postQ = s.postQ := rfl
@[simp] theorem State.wr_outstanding (s : State) (r : Reg) (v : BitVec 64) : (s.wr r v).outstanding = s.outstanding := rfl
@[simp] theorem State.wr_sendStreams (s : State) (r : Reg) (v : BitVec 64) : (s.wr r v).sendStreams = s.sendStreams := rfl
@[simp] theorem State.wr_recvStreams (s : State) (r : Reg) (v : BitVec 64) : (s.wr r v).recvStreams = s.recvStreams := rfl
@[simp] theorem State.wr_heldDups (s : State) (r : Reg) (v : BitVec 64) : (s.wr r v).heldDups = s.heldDups := rfl
@[simp] theorem State.wr_unplaced (s : State) (r : Reg) (v : BitVec 64) : (s.wr r v).unplaced = s.unplaced := rfl
@[simp] theorem State.wr_collOps (s : State) (r : Reg) (v : BitVec 64) : (s.wr r v).collOps = s.collOps := rfl
@[simp] theorem State.wr_collStage (s : State) (r : Reg) (v : BitVec 64) : (s.wr r v).collStage = s.collStage := rfl
@[simp] theorem State.wr_circs (s : State) (r : Reg) (v : BitVec 64) : (s.wr r v).circs = s.circs := rfl
@[simp] theorem State.wr_relays (s : State) (r : Reg) (v : BitVec 64) : (s.wr r v).relays = s.relays := rfl
@[simp] theorem State.wr_nanOps (s : State) (r : Reg) (v : BitVec 64) : (s.wr r v).nanOps = s.nanOps := rfl
@[simp] theorem State.wr_tiles (s : State) (r : Reg) (v : BitVec 64) : (s.wr r v).tiles = s.tiles := rfl
@[simp] theorem State.wr_seals (s : State) (r : Reg) (v : BitVec 64) : (s.wr r v).seals = s.seals := rfl
@[simp] theorem State.wr_nextId (s : State) (r : Reg) (v : BitVec 64) : (s.wr r v).nextId = s.nextId := rfl
@[simp] theorem State.wr_inbox (s : State) (r : Reg) (v : BitVec 64) : (s.wr r v).inbox = s.inbox := rfl
@[simp] theorem State.wr_portIn (s : State) (r : Reg) (v : BitVec 64) : (s.wr r v).portIn = s.portIn := rfl
@[simp] theorem State.wr_outQ (s : State) (r : Reg) (v : BitVec 64) : (s.wr r v).outQ = s.outQ := rfl
@[simp] theorem State.wr_rxHeld (s : State) (r : Reg) (v : BitVec 64) : (s.wr r v).rxHeld = s.rxHeld := rfl
@[simp] theorem State.wr_freed (s : State) (r : Reg) (v : BitVec 64) : (s.wr r v).freed = s.freed := rfl
@[simp] theorem State.wr_tx (s : State) (r : Reg) (v : BitVec 64) : (s.wr r v).tx = s.tx := rfl
@[simp] theorem State.wr_arbs (s : State) (r : Reg) (v : BitVec 64) : (s.wr r v).arbs = s.arbs := rfl
@[simp] theorem State.wr_wire (s : State) (r : Reg) (v : BitVec 64) : (s.wr r v).wire = s.wire := rfl
@[simp] theorem State.wr_linkCmds (s : State) (r : Reg) (v : BitVec 64) : (s.wr r v).linkCmds = s.linkCmds := rfl
@[simp] theorem State.wr_ports (s : State) (r : Reg) (v : BitVec 64) : (s.wr r v).ports = s.ports := rfl
@[simp] theorem State.wr_resets (s : State) (r : Reg) (v : BitVec 64) : (s.wr r v).resets = s.resets := rfl
@[simp] theorem State.wr_engResets (s : State) (r : Reg) (v : BitVec 64) : (s.wr r v).engResets = s.engResets := rfl
@[simp] theorem State.wr_stableResets (s : State) (r : Reg) (v : BitVec 64) : (s.wr r v).stableResets = s.stableResets := rfl
@[simp] theorem State.wr_attribs (s : State) (r : Reg) (v : BitVec 64) : (s.wr r v).attribs = s.attribs := rfl
@[simp] theorem State.wr_dieHist (s : State) (r : Reg) (v : BitVec 64) : (s.wr r v).dieHist = s.dieHist := rfl
@[simp] theorem State.wr_yards (s : State) (r : Reg) (v : BitVec 64) : (s.wr r v).yards = s.yards := rfl
@[simp] theorem State.wr_loftHot (s : State) (r : Reg) (v : BitVec 64) : (s.wr r v).loftHot = s.loftHot := rfl
@[simp] theorem State.wr_memReqs (s : State) (r : Reg) (v : BitVec 64) : (s.wr r v).memReqs = s.memReqs := rfl
@[simp] theorem State.wr_patrols (s : State) (r : Reg) (v : BitVec 64) : (s.wr r v).patrols = s.patrols := rfl
@[simp] theorem State.wr_frEx (s : State) (r : Reg) (v : BitVec 64) : (s.wr r v).frEx = s.frEx := rfl
@[simp] theorem State.wr_frValid (s : State) (r : Reg) (v : BitVec 64) : (s.wr r v).frValid = s.frValid := rfl
@[simp] theorem State.wr_steer (s : State) (r : Reg) (v : BitVec 64) : (s.wr r v).steer = s.steer := rfl
@[simp] theorem State.wr_mgmtNext (s : State) (r : Reg) (v : BitVec 64) : (s.wr r v).mgmtNext = s.mgmtNext := rfl
@[simp] theorem State.wr_mgmtOut (s : State) (r : Reg) (v : BitVec 64) : (s.wr r v).mgmtOut = s.mgmtOut := rfl
@[simp] theorem State.wr_mgmtDone (s : State) (r : Reg) (v : BitVec 64) : (s.wr r v).mgmtDone = s.mgmtDone := rfl
@[simp] theorem State.wr_mgmtSeen (s : State) (r : Reg) (v : BitVec 64) : (s.wr r v).mgmtSeen = s.mgmtSeen := rfl
@[simp] theorem State.wr_aux (s : State) (r : Reg) (v : BitVec 64) : (s.wr r v).aux = s.aux := rfl
@[simp] theorem State.wr_power (s : State) (r : Reg) (v : BitVec 64) : (s.wr r v).power = s.power := rfl
@[simp] theorem State.wr_rails (s : State) (r : Reg) (v : BitVec 64) : (s.wr r v).rails = s.rails := rfl
@[simp] theorem State.wr_railMs (s : State) (r : Reg) (v : BitVec 64) : (s.wr r v).railMs = s.railMs := rfl
@[simp] theorem State.wr_tripMs (s : State) (r : Reg) (v : BitVec 64) : (s.wr r v).tripMs = s.tripMs := rfl
@[simp] theorem State.wr_cycle (s : State) (r : Reg) (v : BitVec 64) : (s.wr r v).cycle = s.cycle := rfl
@[simp] theorem State.wr_dieResetting (s : State) (r : Reg) (v : BitVec 64) : (s.wr r v).dieResetting = s.dieResetting := rfl
@[simp] theorem State.wr_autoUsed (s : State) (r : Reg) (v : BitVec 64) : (s.wr r v).autoUsed = s.autoUsed := rfl
@[simp] theorem State.wr_released (s : State) (r : Reg) (v : BitVec 64) : (s.wr r v).released = s.released := rfl
@[simp] theorem State.wr_handover (s : State) (r : Reg) (v : BitVec 64) : (s.wr r v).handover = s.handover := rfl
@[simp] theorem State.wr_handed (s : State) (r : Reg) (v : BitVec 64) : (s.wr r v).handed = s.handed := rfl
@[simp] theorem State.wr_advance (s : State) (r : Reg) (v : BitVec 64) : (s.wr r v).advance = s.advance := rfl
@[simp] theorem State.wr_memTestFull (s : State) (r : Reg) (v : BitVec 64) : (s.wr r v).memTestFull = s.memTestFull := rfl
@[simp] theorem State.wr_fwSlots (s : State) (r : Reg) (v : BitVec 64) : (s.wr r v).fwSlots = s.fwSlots := rfl
@[simp] theorem State.wr_fwBoot (s : State) (r : Reg) (v : BitVec 64) : (s.wr r v).fwBoot = s.fwBoot := rfl
@[simp] theorem State.wr_spdmOut (s : State) (r : Reg) (v : BitVec 64) : (s.wr r v).spdmOut = s.spdmOut := rfl
@[simp] theorem State.wr_retiredPages (s : State) (r : Reg) (v : BitVec 64) : (s.wr r v).retiredPages = s.retiredPages := rfl
@[simp] theorem State.wr_franking (s : State) (r : Reg) (v : BitVec 64) : (s.wr r v).franking = s.franking := rfl
@[simp] theorem State.wr_porterMs (s : State) (r : Reg) (v : BitVec 64) : (s.wr r v).porterMs = s.porterMs := rfl
@[simp] theorem State.wr_dieUp (s : State) (r : Reg) (v : BitVec 64) : (s.wr r v).dieUp = s.dieUp := rfl
@[simp] theorem State.wr_chip (s : State) (r : Reg) (v : BitVec 64) : (s.wr r v).chip = s.chip := rfl
@[simp] theorem State.wr_trace (s : State) (r : Reg) (v : BitVec 64) : (s.wr r v).trace = s.trace := rfl
@[simp] theorem State.wr_irqs (s : State) (r : Reg) (v : BitVec 64) : (s.wr r v).irqs = s.irqs := rfl
@[simp] theorem State.wr_redfish (s : State) (r : Reg) (v : BitVec 64) : (s.wr r v).redfish = s.redfish := rfl
@[simp] theorem State.wr_tap (s : State) (r : Reg) (v : BitVec 64) : (s.wr r v).tap = s.tap := rfl

/-! ### setFld -/

@[simp] theorem State.setFld_pending (s : State) (r : Reg) (f : Fld) (x : Nat) : (s.setFld r f x).pending = s.pending := rfl
@[simp] theorem State.setFld_mem (s : State) (r : Reg) (f : Fld) (x : Nat) : (s.setFld r f x).mem = s.mem := rfl
@[simp] theorem State.setFld_poison (s : State) (r : Reg) (f : Fld) (x : Nat) : (s.setFld r f x).poison = s.poison := rfl
@[simp] theorem State.setFld_latentUe (s : State) (r : Reg) (f : Fld) (x : Nat) : (s.setFld r f x).latentUe = s.latentUe := rfl
@[simp] theorem State.setFld_latentCe (s : State) (r : Reg) (f : Fld) (x : Nat) : (s.setFld r f x).latentCe = s.latentCe := rfl
@[simp] theorem State.setFld_actor (s : State) (r : Reg) (f : Fld) (x : Nat) : (s.setFld r f x).actor = s.actor := rfl
@[simp] theorem State.setFld_racing (s : State) (r : Reg) (f : Fld) (x : Nat) : (s.setFld r f x).racing = s.racing := rfl
@[simp] theorem State.setFld_underway (s : State) (r : Reg) (f : Fld) (x : Nat) : (s.setFld r f x).underway = s.underway := rfl
@[simp] theorem State.setFld_sourceWords (s : State) (r : Reg) (f : Fld) (x : Nat) : (s.setFld r f x).sourceWords = s.sourceWords := rfl
@[simp] theorem State.setFld_raceNo (s : State) (r : Reg) (f : Fld) (x : Nat) : (s.setFld r f x).raceNo = s.raceNo := rfl
@[simp] theorem State.setFld_aonDie (s : State) (r : Reg) (f : Fld) (x : Nat) : (s.setFld r f x).aonDie = s.aonDie := rfl
@[simp] theorem State.setFld_stalls (s : State) (r : Reg) (f : Fld) (x : Nat) : (s.setFld r f x).stalls = s.stalls := rfl
@[simp] theorem State.setFld_watches (s : State) (r : Reg) (f : Fld) (x : Nat) : (s.setFld r f x).watches = s.watches := rfl
@[simp] theorem State.setFld_xlat (s : State) (r : Reg) (f : Fld) (x : Nat) : (s.setFld r f x).xlat = s.xlat := rfl
@[simp] theorem State.setFld_xlatUnits (s : State) (r : Reg) (f : Fld) (x : Nat) : (s.setFld r f x).xlatUnits = s.xlatUnits := rfl
@[simp] theorem State.setFld_xlatNo (s : State) (r : Reg) (f : Fld) (x : Nat) : (s.setFld r f x).xlatNo = s.xlatNo := rfl
@[simp] theorem State.setFld_refusing (s : State) (r : Reg) (f : Fld) (x : Nat) : (s.setFld r f x).refusing = s.refusing := rfl
@[simp] theorem State.setFld_xlatRoot (s : State) (r : Reg) (f : Fld) (x : Nat) : (s.setFld r f x).xlatRoot = s.xlatRoot := rfl
@[simp] theorem State.setFld_xlatPend (s : State) (r : Reg) (f : Fld) (x : Nat) : (s.setFld r f x).xlatPend = s.xlatPend := rfl
@[simp] theorem State.setFld_sampled (s : State) (r : Reg) (f : Fld) (x : Nat) : (s.setFld r f x).sampled = s.sampled := rfl
@[simp] theorem State.setFld_ctxStables (s : State) (r : Reg) (f : Fld) (x : Nat) : (s.setFld r f x).ctxStables = s.ctxStables := rfl
@[simp] theorem State.setFld_consigns (s : State) (r : Reg) (f : Fld) (x : Nat) : (s.setFld r f x).consigns = s.consigns := rfl
@[simp] theorem State.setFld_nextConsign (s : State) (r : Reg) (f : Fld) (x : Nat) : (s.setFld r f x).nextConsign = s.nextConsign := rfl
@[simp] theorem State.setFld_unsignalled (s : State) (r : Reg) (f : Fld) (x : Nat) : (s.setFld r f x).unsignalled = s.unsignalled := rfl
@[simp] theorem State.setFld_dma (s : State) (r : Reg) (f : Fld) (x : Nat) : (s.setFld r f x).dma = s.dma := rfl
@[simp] theorem State.setFld_images (s : State) (r : Reg) (f : Fld) (x : Nat) : (s.setFld r f x).images = s.images := rfl
@[simp] theorem State.setFld_stableImg (s : State) (r : Reg) (f : Fld) (x : Nat) : (s.setFld r f x).stableImg = s.stableImg := rfl
@[simp] theorem State.setFld_hostOut (s : State) (r : Reg) (f : Fld) (x : Nat) : (s.setFld r f x).hostOut = s.hostOut := rfl
@[simp] theorem State.setFld_linkRx (s : State) (r : Reg) (f : Fld) (x : Nat) : (s.setFld r f x).linkRx = s.linkRx := rfl
@[simp] theorem State.setFld_linkTx (s : State) (r : Reg) (f : Fld) (x : Nat) : (s.setFld r f x).linkTx = s.linkTx := rfl
@[simp] theorem State.setFld_porterOut (s : State) (r : Reg) (f : Fld) (x : Nat) : (s.setFld r f x).porterOut = s.porterOut := rfl
@[simp] theorem State.setFld_msix (s : State) (r : Reg) (f : Fld) (x : Nat) : (s.setFld r f x).msix = s.msix := rfl
@[simp] theorem State.setFld_msixPend (s : State) (r : Reg) (f : Fld) (x : Nat) : (s.setFld r f x).msixPend = s.msixPend := rfl
@[simp] theorem State.setFld_aer (s : State) (r : Reg) (f : Fld) (x : Nat) : (s.setFld r f x).aer = s.aer := rfl
@[simp] theorem State.setFld_postQ (s : State) (r : Reg) (f : Fld) (x : Nat) : (s.setFld r f x).postQ = s.postQ := rfl
@[simp] theorem State.setFld_outstanding (s : State) (r : Reg) (f : Fld) (x : Nat) : (s.setFld r f x).outstanding = s.outstanding := rfl
@[simp] theorem State.setFld_sendStreams (s : State) (r : Reg) (f : Fld) (x : Nat) : (s.setFld r f x).sendStreams = s.sendStreams := rfl
@[simp] theorem State.setFld_recvStreams (s : State) (r : Reg) (f : Fld) (x : Nat) : (s.setFld r f x).recvStreams = s.recvStreams := rfl
@[simp] theorem State.setFld_heldDups (s : State) (r : Reg) (f : Fld) (x : Nat) : (s.setFld r f x).heldDups = s.heldDups := rfl
@[simp] theorem State.setFld_unplaced (s : State) (r : Reg) (f : Fld) (x : Nat) : (s.setFld r f x).unplaced = s.unplaced := rfl
@[simp] theorem State.setFld_collOps (s : State) (r : Reg) (f : Fld) (x : Nat) : (s.setFld r f x).collOps = s.collOps := rfl
@[simp] theorem State.setFld_collStage (s : State) (r : Reg) (f : Fld) (x : Nat) : (s.setFld r f x).collStage = s.collStage := rfl
@[simp] theorem State.setFld_circs (s : State) (r : Reg) (f : Fld) (x : Nat) : (s.setFld r f x).circs = s.circs := rfl
@[simp] theorem State.setFld_relays (s : State) (r : Reg) (f : Fld) (x : Nat) : (s.setFld r f x).relays = s.relays := rfl
@[simp] theorem State.setFld_nanOps (s : State) (r : Reg) (f : Fld) (x : Nat) : (s.setFld r f x).nanOps = s.nanOps := rfl
@[simp] theorem State.setFld_tiles (s : State) (r : Reg) (f : Fld) (x : Nat) : (s.setFld r f x).tiles = s.tiles := rfl
@[simp] theorem State.setFld_seals (s : State) (r : Reg) (f : Fld) (x : Nat) : (s.setFld r f x).seals = s.seals := rfl
@[simp] theorem State.setFld_nextId (s : State) (r : Reg) (f : Fld) (x : Nat) : (s.setFld r f x).nextId = s.nextId := rfl
@[simp] theorem State.setFld_inbox (s : State) (r : Reg) (f : Fld) (x : Nat) : (s.setFld r f x).inbox = s.inbox := rfl
@[simp] theorem State.setFld_portIn (s : State) (r : Reg) (f : Fld) (x : Nat) : (s.setFld r f x).portIn = s.portIn := rfl
@[simp] theorem State.setFld_outQ (s : State) (r : Reg) (f : Fld) (x : Nat) : (s.setFld r f x).outQ = s.outQ := rfl
@[simp] theorem State.setFld_rxHeld (s : State) (r : Reg) (f : Fld) (x : Nat) : (s.setFld r f x).rxHeld = s.rxHeld := rfl
@[simp] theorem State.setFld_freed (s : State) (r : Reg) (f : Fld) (x : Nat) : (s.setFld r f x).freed = s.freed := rfl
@[simp] theorem State.setFld_tx (s : State) (r : Reg) (f : Fld) (x : Nat) : (s.setFld r f x).tx = s.tx := rfl
@[simp] theorem State.setFld_arbs (s : State) (r : Reg) (f : Fld) (x : Nat) : (s.setFld r f x).arbs = s.arbs := rfl
@[simp] theorem State.setFld_wire (s : State) (r : Reg) (f : Fld) (x : Nat) : (s.setFld r f x).wire = s.wire := rfl
@[simp] theorem State.setFld_linkCmds (s : State) (r : Reg) (f : Fld) (x : Nat) : (s.setFld r f x).linkCmds = s.linkCmds := rfl
@[simp] theorem State.setFld_ports (s : State) (r : Reg) (f : Fld) (x : Nat) : (s.setFld r f x).ports = s.ports := rfl
@[simp] theorem State.setFld_resets (s : State) (r : Reg) (f : Fld) (x : Nat) : (s.setFld r f x).resets = s.resets := rfl
@[simp] theorem State.setFld_engResets (s : State) (r : Reg) (f : Fld) (x : Nat) : (s.setFld r f x).engResets = s.engResets := rfl
@[simp] theorem State.setFld_stableResets (s : State) (r : Reg) (f : Fld) (x : Nat) : (s.setFld r f x).stableResets = s.stableResets := rfl
@[simp] theorem State.setFld_attribs (s : State) (r : Reg) (f : Fld) (x : Nat) : (s.setFld r f x).attribs = s.attribs := rfl
@[simp] theorem State.setFld_dieHist (s : State) (r : Reg) (f : Fld) (x : Nat) : (s.setFld r f x).dieHist = s.dieHist := rfl
@[simp] theorem State.setFld_yards (s : State) (r : Reg) (f : Fld) (x : Nat) : (s.setFld r f x).yards = s.yards := rfl
@[simp] theorem State.setFld_loftHot (s : State) (r : Reg) (f : Fld) (x : Nat) : (s.setFld r f x).loftHot = s.loftHot := rfl
@[simp] theorem State.setFld_memReqs (s : State) (r : Reg) (f : Fld) (x : Nat) : (s.setFld r f x).memReqs = s.memReqs := rfl
@[simp] theorem State.setFld_patrols (s : State) (r : Reg) (f : Fld) (x : Nat) : (s.setFld r f x).patrols = s.patrols := rfl
@[simp] theorem State.setFld_frEx (s : State) (r : Reg) (f : Fld) (x : Nat) : (s.setFld r f x).frEx = s.frEx := rfl
@[simp] theorem State.setFld_frValid (s : State) (r : Reg) (f : Fld) (x : Nat) : (s.setFld r f x).frValid = s.frValid := rfl
@[simp] theorem State.setFld_steer (s : State) (r : Reg) (f : Fld) (x : Nat) : (s.setFld r f x).steer = s.steer := rfl
@[simp] theorem State.setFld_mgmtNext (s : State) (r : Reg) (f : Fld) (x : Nat) : (s.setFld r f x).mgmtNext = s.mgmtNext := rfl
@[simp] theorem State.setFld_mgmtOut (s : State) (r : Reg) (f : Fld) (x : Nat) : (s.setFld r f x).mgmtOut = s.mgmtOut := rfl
@[simp] theorem State.setFld_mgmtDone (s : State) (r : Reg) (f : Fld) (x : Nat) : (s.setFld r f x).mgmtDone = s.mgmtDone := rfl
@[simp] theorem State.setFld_mgmtSeen (s : State) (r : Reg) (f : Fld) (x : Nat) : (s.setFld r f x).mgmtSeen = s.mgmtSeen := rfl
@[simp] theorem State.setFld_aux (s : State) (r : Reg) (f : Fld) (x : Nat) : (s.setFld r f x).aux = s.aux := rfl
@[simp] theorem State.setFld_power (s : State) (r : Reg) (f : Fld) (x : Nat) : (s.setFld r f x).power = s.power := rfl
@[simp] theorem State.setFld_rails (s : State) (r : Reg) (f : Fld) (x : Nat) : (s.setFld r f x).rails = s.rails := rfl
@[simp] theorem State.setFld_railMs (s : State) (r : Reg) (f : Fld) (x : Nat) : (s.setFld r f x).railMs = s.railMs := rfl
@[simp] theorem State.setFld_tripMs (s : State) (r : Reg) (f : Fld) (x : Nat) : (s.setFld r f x).tripMs = s.tripMs := rfl
@[simp] theorem State.setFld_cycle (s : State) (r : Reg) (f : Fld) (x : Nat) : (s.setFld r f x).cycle = s.cycle := rfl
@[simp] theorem State.setFld_dieResetting (s : State) (r : Reg) (f : Fld) (x : Nat) : (s.setFld r f x).dieResetting = s.dieResetting := rfl
@[simp] theorem State.setFld_autoUsed (s : State) (r : Reg) (f : Fld) (x : Nat) : (s.setFld r f x).autoUsed = s.autoUsed := rfl
@[simp] theorem State.setFld_released (s : State) (r : Reg) (f : Fld) (x : Nat) : (s.setFld r f x).released = s.released := rfl
@[simp] theorem State.setFld_handover (s : State) (r : Reg) (f : Fld) (x : Nat) : (s.setFld r f x).handover = s.handover := rfl
@[simp] theorem State.setFld_handed (s : State) (r : Reg) (f : Fld) (x : Nat) : (s.setFld r f x).handed = s.handed := rfl
@[simp] theorem State.setFld_advance (s : State) (r : Reg) (f : Fld) (x : Nat) : (s.setFld r f x).advance = s.advance := rfl
@[simp] theorem State.setFld_memTestFull (s : State) (r : Reg) (f : Fld) (x : Nat) : (s.setFld r f x).memTestFull = s.memTestFull := rfl
@[simp] theorem State.setFld_fwSlots (s : State) (r : Reg) (f : Fld) (x : Nat) : (s.setFld r f x).fwSlots = s.fwSlots := rfl
@[simp] theorem State.setFld_fwBoot (s : State) (r : Reg) (f : Fld) (x : Nat) : (s.setFld r f x).fwBoot = s.fwBoot := rfl
@[simp] theorem State.setFld_spdmOut (s : State) (r : Reg) (f : Fld) (x : Nat) : (s.setFld r f x).spdmOut = s.spdmOut := rfl
@[simp] theorem State.setFld_retiredPages (s : State) (r : Reg) (f : Fld) (x : Nat) : (s.setFld r f x).retiredPages = s.retiredPages := rfl
@[simp] theorem State.setFld_franking (s : State) (r : Reg) (f : Fld) (x : Nat) : (s.setFld r f x).franking = s.franking := rfl
@[simp] theorem State.setFld_porterMs (s : State) (r : Reg) (f : Fld) (x : Nat) : (s.setFld r f x).porterMs = s.porterMs := rfl
@[simp] theorem State.setFld_dieUp (s : State) (r : Reg) (f : Fld) (x : Nat) : (s.setFld r f x).dieUp = s.dieUp := rfl
@[simp] theorem State.setFld_chip (s : State) (r : Reg) (f : Fld) (x : Nat) : (s.setFld r f x).chip = s.chip := rfl
@[simp] theorem State.setFld_trace (s : State) (r : Reg) (f : Fld) (x : Nat) : (s.setFld r f x).trace = s.trace := rfl
@[simp] theorem State.setFld_irqs (s : State) (r : Reg) (f : Fld) (x : Nat) : (s.setFld r f x).irqs = s.irqs := rfl
@[simp] theorem State.setFld_redfish (s : State) (r : Reg) (f : Fld) (x : Nat) : (s.setFld r f x).redfish = s.redfish := rfl
@[simp] theorem State.setFld_tap (s : State) (r : Reg) (f : Fld) (x : Nat) : (s.setFld r f x).tap = s.tap := rfl

/-! ### setFlds -/

@[simp] theorem State.setFlds_pending (s : State) (r : Reg) (fs : List (Fld × Nat)) : (s.setFlds r fs).pending = s.pending := rfl
@[simp] theorem State.setFlds_mem (s : State) (r : Reg) (fs : List (Fld × Nat)) : (s.setFlds r fs).mem = s.mem := rfl
@[simp] theorem State.setFlds_poison (s : State) (r : Reg) (fs : List (Fld × Nat)) : (s.setFlds r fs).poison = s.poison := rfl
@[simp] theorem State.setFlds_latentUe (s : State) (r : Reg) (fs : List (Fld × Nat)) : (s.setFlds r fs).latentUe = s.latentUe := rfl
@[simp] theorem State.setFlds_latentCe (s : State) (r : Reg) (fs : List (Fld × Nat)) : (s.setFlds r fs).latentCe = s.latentCe := rfl
@[simp] theorem State.setFlds_actor (s : State) (r : Reg) (fs : List (Fld × Nat)) : (s.setFlds r fs).actor = s.actor := rfl
@[simp] theorem State.setFlds_racing (s : State) (r : Reg) (fs : List (Fld × Nat)) : (s.setFlds r fs).racing = s.racing := rfl
@[simp] theorem State.setFlds_underway (s : State) (r : Reg) (fs : List (Fld × Nat)) : (s.setFlds r fs).underway = s.underway := rfl
@[simp] theorem State.setFlds_sourceWords (s : State) (r : Reg) (fs : List (Fld × Nat)) : (s.setFlds r fs).sourceWords = s.sourceWords := rfl
@[simp] theorem State.setFlds_raceNo (s : State) (r : Reg) (fs : List (Fld × Nat)) : (s.setFlds r fs).raceNo = s.raceNo := rfl
@[simp] theorem State.setFlds_aonDie (s : State) (r : Reg) (fs : List (Fld × Nat)) : (s.setFlds r fs).aonDie = s.aonDie := rfl
@[simp] theorem State.setFlds_stalls (s : State) (r : Reg) (fs : List (Fld × Nat)) : (s.setFlds r fs).stalls = s.stalls := rfl
@[simp] theorem State.setFlds_watches (s : State) (r : Reg) (fs : List (Fld × Nat)) : (s.setFlds r fs).watches = s.watches := rfl
@[simp] theorem State.setFlds_xlat (s : State) (r : Reg) (fs : List (Fld × Nat)) : (s.setFlds r fs).xlat = s.xlat := rfl
@[simp] theorem State.setFlds_xlatUnits (s : State) (r : Reg) (fs : List (Fld × Nat)) : (s.setFlds r fs).xlatUnits = s.xlatUnits := rfl
@[simp] theorem State.setFlds_xlatNo (s : State) (r : Reg) (fs : List (Fld × Nat)) : (s.setFlds r fs).xlatNo = s.xlatNo := rfl
@[simp] theorem State.setFlds_refusing (s : State) (r : Reg) (fs : List (Fld × Nat)) : (s.setFlds r fs).refusing = s.refusing := rfl
@[simp] theorem State.setFlds_xlatRoot (s : State) (r : Reg) (fs : List (Fld × Nat)) : (s.setFlds r fs).xlatRoot = s.xlatRoot := rfl
@[simp] theorem State.setFlds_xlatPend (s : State) (r : Reg) (fs : List (Fld × Nat)) : (s.setFlds r fs).xlatPend = s.xlatPend := rfl
@[simp] theorem State.setFlds_sampled (s : State) (r : Reg) (fs : List (Fld × Nat)) : (s.setFlds r fs).sampled = s.sampled := rfl
@[simp] theorem State.setFlds_ctxStables (s : State) (r : Reg) (fs : List (Fld × Nat)) : (s.setFlds r fs).ctxStables = s.ctxStables := rfl
@[simp] theorem State.setFlds_consigns (s : State) (r : Reg) (fs : List (Fld × Nat)) : (s.setFlds r fs).consigns = s.consigns := rfl
@[simp] theorem State.setFlds_nextConsign (s : State) (r : Reg) (fs : List (Fld × Nat)) : (s.setFlds r fs).nextConsign = s.nextConsign := rfl
@[simp] theorem State.setFlds_unsignalled (s : State) (r : Reg) (fs : List (Fld × Nat)) : (s.setFlds r fs).unsignalled = s.unsignalled := rfl
@[simp] theorem State.setFlds_dma (s : State) (r : Reg) (fs : List (Fld × Nat)) : (s.setFlds r fs).dma = s.dma := rfl
@[simp] theorem State.setFlds_images (s : State) (r : Reg) (fs : List (Fld × Nat)) : (s.setFlds r fs).images = s.images := rfl
@[simp] theorem State.setFlds_stableImg (s : State) (r : Reg) (fs : List (Fld × Nat)) : (s.setFlds r fs).stableImg = s.stableImg := rfl
@[simp] theorem State.setFlds_hostOut (s : State) (r : Reg) (fs : List (Fld × Nat)) : (s.setFlds r fs).hostOut = s.hostOut := rfl
@[simp] theorem State.setFlds_linkRx (s : State) (r : Reg) (fs : List (Fld × Nat)) : (s.setFlds r fs).linkRx = s.linkRx := rfl
@[simp] theorem State.setFlds_linkTx (s : State) (r : Reg) (fs : List (Fld × Nat)) : (s.setFlds r fs).linkTx = s.linkTx := rfl
@[simp] theorem State.setFlds_porterOut (s : State) (r : Reg) (fs : List (Fld × Nat)) : (s.setFlds r fs).porterOut = s.porterOut := rfl
@[simp] theorem State.setFlds_msix (s : State) (r : Reg) (fs : List (Fld × Nat)) : (s.setFlds r fs).msix = s.msix := rfl
@[simp] theorem State.setFlds_msixPend (s : State) (r : Reg) (fs : List (Fld × Nat)) : (s.setFlds r fs).msixPend = s.msixPend := rfl
@[simp] theorem State.setFlds_aer (s : State) (r : Reg) (fs : List (Fld × Nat)) : (s.setFlds r fs).aer = s.aer := rfl
@[simp] theorem State.setFlds_postQ (s : State) (r : Reg) (fs : List (Fld × Nat)) : (s.setFlds r fs).postQ = s.postQ := rfl
@[simp] theorem State.setFlds_outstanding (s : State) (r : Reg) (fs : List (Fld × Nat)) : (s.setFlds r fs).outstanding = s.outstanding := rfl
@[simp] theorem State.setFlds_sendStreams (s : State) (r : Reg) (fs : List (Fld × Nat)) : (s.setFlds r fs).sendStreams = s.sendStreams := rfl
@[simp] theorem State.setFlds_recvStreams (s : State) (r : Reg) (fs : List (Fld × Nat)) : (s.setFlds r fs).recvStreams = s.recvStreams := rfl
@[simp] theorem State.setFlds_heldDups (s : State) (r : Reg) (fs : List (Fld × Nat)) : (s.setFlds r fs).heldDups = s.heldDups := rfl
@[simp] theorem State.setFlds_unplaced (s : State) (r : Reg) (fs : List (Fld × Nat)) : (s.setFlds r fs).unplaced = s.unplaced := rfl
@[simp] theorem State.setFlds_collOps (s : State) (r : Reg) (fs : List (Fld × Nat)) : (s.setFlds r fs).collOps = s.collOps := rfl
@[simp] theorem State.setFlds_collStage (s : State) (r : Reg) (fs : List (Fld × Nat)) : (s.setFlds r fs).collStage = s.collStage := rfl
@[simp] theorem State.setFlds_circs (s : State) (r : Reg) (fs : List (Fld × Nat)) : (s.setFlds r fs).circs = s.circs := rfl
@[simp] theorem State.setFlds_relays (s : State) (r : Reg) (fs : List (Fld × Nat)) : (s.setFlds r fs).relays = s.relays := rfl
@[simp] theorem State.setFlds_nanOps (s : State) (r : Reg) (fs : List (Fld × Nat)) : (s.setFlds r fs).nanOps = s.nanOps := rfl
@[simp] theorem State.setFlds_tiles (s : State) (r : Reg) (fs : List (Fld × Nat)) : (s.setFlds r fs).tiles = s.tiles := rfl
@[simp] theorem State.setFlds_seals (s : State) (r : Reg) (fs : List (Fld × Nat)) : (s.setFlds r fs).seals = s.seals := rfl
@[simp] theorem State.setFlds_nextId (s : State) (r : Reg) (fs : List (Fld × Nat)) : (s.setFlds r fs).nextId = s.nextId := rfl
@[simp] theorem State.setFlds_inbox (s : State) (r : Reg) (fs : List (Fld × Nat)) : (s.setFlds r fs).inbox = s.inbox := rfl
@[simp] theorem State.setFlds_portIn (s : State) (r : Reg) (fs : List (Fld × Nat)) : (s.setFlds r fs).portIn = s.portIn := rfl
@[simp] theorem State.setFlds_outQ (s : State) (r : Reg) (fs : List (Fld × Nat)) : (s.setFlds r fs).outQ = s.outQ := rfl
@[simp] theorem State.setFlds_rxHeld (s : State) (r : Reg) (fs : List (Fld × Nat)) : (s.setFlds r fs).rxHeld = s.rxHeld := rfl
@[simp] theorem State.setFlds_freed (s : State) (r : Reg) (fs : List (Fld × Nat)) : (s.setFlds r fs).freed = s.freed := rfl
@[simp] theorem State.setFlds_tx (s : State) (r : Reg) (fs : List (Fld × Nat)) : (s.setFlds r fs).tx = s.tx := rfl
@[simp] theorem State.setFlds_arbs (s : State) (r : Reg) (fs : List (Fld × Nat)) : (s.setFlds r fs).arbs = s.arbs := rfl
@[simp] theorem State.setFlds_wire (s : State) (r : Reg) (fs : List (Fld × Nat)) : (s.setFlds r fs).wire = s.wire := rfl
@[simp] theorem State.setFlds_linkCmds (s : State) (r : Reg) (fs : List (Fld × Nat)) : (s.setFlds r fs).linkCmds = s.linkCmds := rfl
@[simp] theorem State.setFlds_ports (s : State) (r : Reg) (fs : List (Fld × Nat)) : (s.setFlds r fs).ports = s.ports := rfl
@[simp] theorem State.setFlds_resets (s : State) (r : Reg) (fs : List (Fld × Nat)) : (s.setFlds r fs).resets = s.resets := rfl
@[simp] theorem State.setFlds_engResets (s : State) (r : Reg) (fs : List (Fld × Nat)) : (s.setFlds r fs).engResets = s.engResets := rfl
@[simp] theorem State.setFlds_stableResets (s : State) (r : Reg) (fs : List (Fld × Nat)) : (s.setFlds r fs).stableResets = s.stableResets := rfl
@[simp] theorem State.setFlds_attribs (s : State) (r : Reg) (fs : List (Fld × Nat)) : (s.setFlds r fs).attribs = s.attribs := rfl
@[simp] theorem State.setFlds_dieHist (s : State) (r : Reg) (fs : List (Fld × Nat)) : (s.setFlds r fs).dieHist = s.dieHist := rfl
@[simp] theorem State.setFlds_yards (s : State) (r : Reg) (fs : List (Fld × Nat)) : (s.setFlds r fs).yards = s.yards := rfl
@[simp] theorem State.setFlds_loftHot (s : State) (r : Reg) (fs : List (Fld × Nat)) : (s.setFlds r fs).loftHot = s.loftHot := rfl
@[simp] theorem State.setFlds_memReqs (s : State) (r : Reg) (fs : List (Fld × Nat)) : (s.setFlds r fs).memReqs = s.memReqs := rfl
@[simp] theorem State.setFlds_patrols (s : State) (r : Reg) (fs : List (Fld × Nat)) : (s.setFlds r fs).patrols = s.patrols := rfl
@[simp] theorem State.setFlds_frEx (s : State) (r : Reg) (fs : List (Fld × Nat)) : (s.setFlds r fs).frEx = s.frEx := rfl
@[simp] theorem State.setFlds_frValid (s : State) (r : Reg) (fs : List (Fld × Nat)) : (s.setFlds r fs).frValid = s.frValid := rfl
@[simp] theorem State.setFlds_steer (s : State) (r : Reg) (fs : List (Fld × Nat)) : (s.setFlds r fs).steer = s.steer := rfl
@[simp] theorem State.setFlds_mgmtNext (s : State) (r : Reg) (fs : List (Fld × Nat)) : (s.setFlds r fs).mgmtNext = s.mgmtNext := rfl
@[simp] theorem State.setFlds_mgmtOut (s : State) (r : Reg) (fs : List (Fld × Nat)) : (s.setFlds r fs).mgmtOut = s.mgmtOut := rfl
@[simp] theorem State.setFlds_mgmtDone (s : State) (r : Reg) (fs : List (Fld × Nat)) : (s.setFlds r fs).mgmtDone = s.mgmtDone := rfl
@[simp] theorem State.setFlds_mgmtSeen (s : State) (r : Reg) (fs : List (Fld × Nat)) : (s.setFlds r fs).mgmtSeen = s.mgmtSeen := rfl
@[simp] theorem State.setFlds_aux (s : State) (r : Reg) (fs : List (Fld × Nat)) : (s.setFlds r fs).aux = s.aux := rfl
@[simp] theorem State.setFlds_power (s : State) (r : Reg) (fs : List (Fld × Nat)) : (s.setFlds r fs).power = s.power := rfl
@[simp] theorem State.setFlds_rails (s : State) (r : Reg) (fs : List (Fld × Nat)) : (s.setFlds r fs).rails = s.rails := rfl
@[simp] theorem State.setFlds_railMs (s : State) (r : Reg) (fs : List (Fld × Nat)) : (s.setFlds r fs).railMs = s.railMs := rfl
@[simp] theorem State.setFlds_tripMs (s : State) (r : Reg) (fs : List (Fld × Nat)) : (s.setFlds r fs).tripMs = s.tripMs := rfl
@[simp] theorem State.setFlds_cycle (s : State) (r : Reg) (fs : List (Fld × Nat)) : (s.setFlds r fs).cycle = s.cycle := rfl
@[simp] theorem State.setFlds_dieResetting (s : State) (r : Reg) (fs : List (Fld × Nat)) : (s.setFlds r fs).dieResetting = s.dieResetting := rfl
@[simp] theorem State.setFlds_autoUsed (s : State) (r : Reg) (fs : List (Fld × Nat)) : (s.setFlds r fs).autoUsed = s.autoUsed := rfl
@[simp] theorem State.setFlds_released (s : State) (r : Reg) (fs : List (Fld × Nat)) : (s.setFlds r fs).released = s.released := rfl
@[simp] theorem State.setFlds_handover (s : State) (r : Reg) (fs : List (Fld × Nat)) : (s.setFlds r fs).handover = s.handover := rfl
@[simp] theorem State.setFlds_handed (s : State) (r : Reg) (fs : List (Fld × Nat)) : (s.setFlds r fs).handed = s.handed := rfl
@[simp] theorem State.setFlds_advance (s : State) (r : Reg) (fs : List (Fld × Nat)) : (s.setFlds r fs).advance = s.advance := rfl
@[simp] theorem State.setFlds_memTestFull (s : State) (r : Reg) (fs : List (Fld × Nat)) : (s.setFlds r fs).memTestFull = s.memTestFull := rfl
@[simp] theorem State.setFlds_fwSlots (s : State) (r : Reg) (fs : List (Fld × Nat)) : (s.setFlds r fs).fwSlots = s.fwSlots := rfl
@[simp] theorem State.setFlds_fwBoot (s : State) (r : Reg) (fs : List (Fld × Nat)) : (s.setFlds r fs).fwBoot = s.fwBoot := rfl
@[simp] theorem State.setFlds_spdmOut (s : State) (r : Reg) (fs : List (Fld × Nat)) : (s.setFlds r fs).spdmOut = s.spdmOut := rfl
@[simp] theorem State.setFlds_retiredPages (s : State) (r : Reg) (fs : List (Fld × Nat)) : (s.setFlds r fs).retiredPages = s.retiredPages := rfl
@[simp] theorem State.setFlds_franking (s : State) (r : Reg) (fs : List (Fld × Nat)) : (s.setFlds r fs).franking = s.franking := rfl
@[simp] theorem State.setFlds_porterMs (s : State) (r : Reg) (fs : List (Fld × Nat)) : (s.setFlds r fs).porterMs = s.porterMs := rfl
@[simp] theorem State.setFlds_dieUp (s : State) (r : Reg) (fs : List (Fld × Nat)) : (s.setFlds r fs).dieUp = s.dieUp := rfl
@[simp] theorem State.setFlds_chip (s : State) (r : Reg) (fs : List (Fld × Nat)) : (s.setFlds r fs).chip = s.chip := rfl
@[simp] theorem State.setFlds_trace (s : State) (r : Reg) (fs : List (Fld × Nat)) : (s.setFlds r fs).trace = s.trace := rfl
@[simp] theorem State.setFlds_irqs (s : State) (r : Reg) (fs : List (Fld × Nat)) : (s.setFlds r fs).irqs = s.irqs := rfl
@[simp] theorem State.setFlds_redfish (s : State) (r : Reg) (fs : List (Fld × Nat)) : (s.setFlds r fs).redfish = s.redfish := rfl
@[simp] theorem State.setFlds_tap (s : State) (r : Reg) (fs : List (Fld × Nat)) : (s.setFlds r fs).tap = s.tap := rfl

/-! ### setStall -/

@[simp] theorem State.setStall_pending (s : State) (n : Fin 128) (x : Stall) : (s.setStall n x).pending = s.pending := rfl
@[simp] theorem State.setStall_regs (s : State) (n : Fin 128) (x : Stall) : (s.setStall n x).regs = s.regs := rfl
@[simp] theorem State.setStall_mem (s : State) (n : Fin 128) (x : Stall) : (s.setStall n x).mem = s.mem := rfl
@[simp] theorem State.setStall_poison (s : State) (n : Fin 128) (x : Stall) : (s.setStall n x).poison = s.poison := rfl
@[simp] theorem State.setStall_latentUe (s : State) (n : Fin 128) (x : Stall) : (s.setStall n x).latentUe = s.latentUe := rfl
@[simp] theorem State.setStall_latentCe (s : State) (n : Fin 128) (x : Stall) : (s.setStall n x).latentCe = s.latentCe := rfl
@[simp] theorem State.setStall_actor (s : State) (n : Fin 128) (x : Stall) : (s.setStall n x).actor = s.actor := rfl
@[simp] theorem State.setStall_racing (s : State) (n : Fin 128) (x : Stall) : (s.setStall n x).racing = s.racing := rfl
@[simp] theorem State.setStall_underway (s : State) (n : Fin 128) (x : Stall) : (s.setStall n x).underway = s.underway := rfl
@[simp] theorem State.setStall_sourceWords (s : State) (n : Fin 128) (x : Stall) : (s.setStall n x).sourceWords = s.sourceWords := rfl
@[simp] theorem State.setStall_raceNo (s : State) (n : Fin 128) (x : Stall) : (s.setStall n x).raceNo = s.raceNo := rfl
@[simp] theorem State.setStall_aonDie (s : State) (n : Fin 128) (x : Stall) : (s.setStall n x).aonDie = s.aonDie := rfl
@[simp] theorem State.setStall_watches (s : State) (n : Fin 128) (x : Stall) : (s.setStall n x).watches = s.watches := rfl
@[simp] theorem State.setStall_xlat (s : State) (n : Fin 128) (x : Stall) : (s.setStall n x).xlat = s.xlat := rfl
@[simp] theorem State.setStall_xlatUnits (s : State) (n : Fin 128) (x : Stall) : (s.setStall n x).xlatUnits = s.xlatUnits := rfl
@[simp] theorem State.setStall_xlatNo (s : State) (n : Fin 128) (x : Stall) : (s.setStall n x).xlatNo = s.xlatNo := rfl
@[simp] theorem State.setStall_refusing (s : State) (n : Fin 128) (x : Stall) : (s.setStall n x).refusing = s.refusing := rfl
@[simp] theorem State.setStall_xlatRoot (s : State) (n : Fin 128) (x : Stall) : (s.setStall n x).xlatRoot = s.xlatRoot := rfl
@[simp] theorem State.setStall_xlatPend (s : State) (n : Fin 128) (x : Stall) : (s.setStall n x).xlatPend = s.xlatPend := rfl
@[simp] theorem State.setStall_sampled (s : State) (n : Fin 128) (x : Stall) : (s.setStall n x).sampled = s.sampled := rfl
@[simp] theorem State.setStall_ctxStables (s : State) (n : Fin 128) (x : Stall) : (s.setStall n x).ctxStables = s.ctxStables := rfl
@[simp] theorem State.setStall_consigns (s : State) (n : Fin 128) (x : Stall) : (s.setStall n x).consigns = s.consigns := rfl
@[simp] theorem State.setStall_nextConsign (s : State) (n : Fin 128) (x : Stall) : (s.setStall n x).nextConsign = s.nextConsign := rfl
@[simp] theorem State.setStall_unsignalled (s : State) (n : Fin 128) (x : Stall) : (s.setStall n x).unsignalled = s.unsignalled := rfl
@[simp] theorem State.setStall_dma (s : State) (n : Fin 128) (x : Stall) : (s.setStall n x).dma = s.dma := rfl
@[simp] theorem State.setStall_images (s : State) (n : Fin 128) (x : Stall) : (s.setStall n x).images = s.images := rfl
@[simp] theorem State.setStall_stableImg (s : State) (n : Fin 128) (x : Stall) : (s.setStall n x).stableImg = s.stableImg := rfl
@[simp] theorem State.setStall_hostOut (s : State) (n : Fin 128) (x : Stall) : (s.setStall n x).hostOut = s.hostOut := rfl
@[simp] theorem State.setStall_linkRx (s : State) (n : Fin 128) (x : Stall) : (s.setStall n x).linkRx = s.linkRx := rfl
@[simp] theorem State.setStall_linkTx (s : State) (n : Fin 128) (x : Stall) : (s.setStall n x).linkTx = s.linkTx := rfl
@[simp] theorem State.setStall_porterOut (s : State) (n : Fin 128) (x : Stall) : (s.setStall n x).porterOut = s.porterOut := rfl
@[simp] theorem State.setStall_msix (s : State) (n : Fin 128) (x : Stall) : (s.setStall n x).msix = s.msix := rfl
@[simp] theorem State.setStall_msixPend (s : State) (n : Fin 128) (x : Stall) : (s.setStall n x).msixPend = s.msixPend := rfl
@[simp] theorem State.setStall_aer (s : State) (n : Fin 128) (x : Stall) : (s.setStall n x).aer = s.aer := rfl
@[simp] theorem State.setStall_postQ (s : State) (n : Fin 128) (x : Stall) : (s.setStall n x).postQ = s.postQ := rfl
@[simp] theorem State.setStall_outstanding (s : State) (n : Fin 128) (x : Stall) : (s.setStall n x).outstanding = s.outstanding := rfl
@[simp] theorem State.setStall_sendStreams (s : State) (n : Fin 128) (x : Stall) : (s.setStall n x).sendStreams = s.sendStreams := rfl
@[simp] theorem State.setStall_recvStreams (s : State) (n : Fin 128) (x : Stall) : (s.setStall n x).recvStreams = s.recvStreams := rfl
@[simp] theorem State.setStall_heldDups (s : State) (n : Fin 128) (x : Stall) : (s.setStall n x).heldDups = s.heldDups := rfl
@[simp] theorem State.setStall_unplaced (s : State) (n : Fin 128) (x : Stall) : (s.setStall n x).unplaced = s.unplaced := rfl
@[simp] theorem State.setStall_collOps (s : State) (n : Fin 128) (x : Stall) : (s.setStall n x).collOps = s.collOps := rfl
@[simp] theorem State.setStall_collStage (s : State) (n : Fin 128) (x : Stall) : (s.setStall n x).collStage = s.collStage := rfl
@[simp] theorem State.setStall_circs (s : State) (n : Fin 128) (x : Stall) : (s.setStall n x).circs = s.circs := rfl
@[simp] theorem State.setStall_relays (s : State) (n : Fin 128) (x : Stall) : (s.setStall n x).relays = s.relays := rfl
@[simp] theorem State.setStall_nanOps (s : State) (n : Fin 128) (x : Stall) : (s.setStall n x).nanOps = s.nanOps := rfl
@[simp] theorem State.setStall_tiles (s : State) (n : Fin 128) (x : Stall) : (s.setStall n x).tiles = s.tiles := rfl
@[simp] theorem State.setStall_seals (s : State) (n : Fin 128) (x : Stall) : (s.setStall n x).seals = s.seals := rfl
@[simp] theorem State.setStall_nextId (s : State) (n : Fin 128) (x : Stall) : (s.setStall n x).nextId = s.nextId := rfl
@[simp] theorem State.setStall_inbox (s : State) (n : Fin 128) (x : Stall) : (s.setStall n x).inbox = s.inbox := rfl
@[simp] theorem State.setStall_portIn (s : State) (n : Fin 128) (x : Stall) : (s.setStall n x).portIn = s.portIn := rfl
@[simp] theorem State.setStall_outQ (s : State) (n : Fin 128) (x : Stall) : (s.setStall n x).outQ = s.outQ := rfl
@[simp] theorem State.setStall_rxHeld (s : State) (n : Fin 128) (x : Stall) : (s.setStall n x).rxHeld = s.rxHeld := rfl
@[simp] theorem State.setStall_freed (s : State) (n : Fin 128) (x : Stall) : (s.setStall n x).freed = s.freed := rfl
@[simp] theorem State.setStall_tx (s : State) (n : Fin 128) (x : Stall) : (s.setStall n x).tx = s.tx := rfl
@[simp] theorem State.setStall_arbs (s : State) (n : Fin 128) (x : Stall) : (s.setStall n x).arbs = s.arbs := rfl
@[simp] theorem State.setStall_wire (s : State) (n : Fin 128) (x : Stall) : (s.setStall n x).wire = s.wire := rfl
@[simp] theorem State.setStall_linkCmds (s : State) (n : Fin 128) (x : Stall) : (s.setStall n x).linkCmds = s.linkCmds := rfl
@[simp] theorem State.setStall_ports (s : State) (n : Fin 128) (x : Stall) : (s.setStall n x).ports = s.ports := rfl
@[simp] theorem State.setStall_resets (s : State) (n : Fin 128) (x : Stall) : (s.setStall n x).resets = s.resets := rfl
@[simp] theorem State.setStall_engResets (s : State) (n : Fin 128) (x : Stall) : (s.setStall n x).engResets = s.engResets := rfl
@[simp] theorem State.setStall_stableResets (s : State) (n : Fin 128) (x : Stall) : (s.setStall n x).stableResets = s.stableResets := rfl
@[simp] theorem State.setStall_attribs (s : State) (n : Fin 128) (x : Stall) : (s.setStall n x).attribs = s.attribs := rfl
@[simp] theorem State.setStall_dieHist (s : State) (n : Fin 128) (x : Stall) : (s.setStall n x).dieHist = s.dieHist := rfl
@[simp] theorem State.setStall_yards (s : State) (n : Fin 128) (x : Stall) : (s.setStall n x).yards = s.yards := rfl
@[simp] theorem State.setStall_loftHot (s : State) (n : Fin 128) (x : Stall) : (s.setStall n x).loftHot = s.loftHot := rfl
@[simp] theorem State.setStall_memReqs (s : State) (n : Fin 128) (x : Stall) : (s.setStall n x).memReqs = s.memReqs := rfl
@[simp] theorem State.setStall_patrols (s : State) (n : Fin 128) (x : Stall) : (s.setStall n x).patrols = s.patrols := rfl
@[simp] theorem State.setStall_frEx (s : State) (n : Fin 128) (x : Stall) : (s.setStall n x).frEx = s.frEx := rfl
@[simp] theorem State.setStall_frValid (s : State) (n : Fin 128) (x : Stall) : (s.setStall n x).frValid = s.frValid := rfl
@[simp] theorem State.setStall_steer (s : State) (n : Fin 128) (x : Stall) : (s.setStall n x).steer = s.steer := rfl
@[simp] theorem State.setStall_mgmtNext (s : State) (n : Fin 128) (x : Stall) : (s.setStall n x).mgmtNext = s.mgmtNext := rfl
@[simp] theorem State.setStall_mgmtOut (s : State) (n : Fin 128) (x : Stall) : (s.setStall n x).mgmtOut = s.mgmtOut := rfl
@[simp] theorem State.setStall_mgmtDone (s : State) (n : Fin 128) (x : Stall) : (s.setStall n x).mgmtDone = s.mgmtDone := rfl
@[simp] theorem State.setStall_mgmtSeen (s : State) (n : Fin 128) (x : Stall) : (s.setStall n x).mgmtSeen = s.mgmtSeen := rfl
@[simp] theorem State.setStall_aux (s : State) (n : Fin 128) (x : Stall) : (s.setStall n x).aux = s.aux := rfl
@[simp] theorem State.setStall_power (s : State) (n : Fin 128) (x : Stall) : (s.setStall n x).power = s.power := rfl
@[simp] theorem State.setStall_rails (s : State) (n : Fin 128) (x : Stall) : (s.setStall n x).rails = s.rails := rfl
@[simp] theorem State.setStall_railMs (s : State) (n : Fin 128) (x : Stall) : (s.setStall n x).railMs = s.railMs := rfl
@[simp] theorem State.setStall_tripMs (s : State) (n : Fin 128) (x : Stall) : (s.setStall n x).tripMs = s.tripMs := rfl
@[simp] theorem State.setStall_cycle (s : State) (n : Fin 128) (x : Stall) : (s.setStall n x).cycle = s.cycle := rfl
@[simp] theorem State.setStall_dieResetting (s : State) (n : Fin 128) (x : Stall) : (s.setStall n x).dieResetting = s.dieResetting := rfl
@[simp] theorem State.setStall_autoUsed (s : State) (n : Fin 128) (x : Stall) : (s.setStall n x).autoUsed = s.autoUsed := rfl
@[simp] theorem State.setStall_released (s : State) (n : Fin 128) (x : Stall) : (s.setStall n x).released = s.released := rfl
@[simp] theorem State.setStall_handover (s : State) (n : Fin 128) (x : Stall) : (s.setStall n x).handover = s.handover := rfl
@[simp] theorem State.setStall_handed (s : State) (n : Fin 128) (x : Stall) : (s.setStall n x).handed = s.handed := rfl
@[simp] theorem State.setStall_advance (s : State) (n : Fin 128) (x : Stall) : (s.setStall n x).advance = s.advance := rfl
@[simp] theorem State.setStall_memTestFull (s : State) (n : Fin 128) (x : Stall) : (s.setStall n x).memTestFull = s.memTestFull := rfl
@[simp] theorem State.setStall_fwSlots (s : State) (n : Fin 128) (x : Stall) : (s.setStall n x).fwSlots = s.fwSlots := rfl
@[simp] theorem State.setStall_fwBoot (s : State) (n : Fin 128) (x : Stall) : (s.setStall n x).fwBoot = s.fwBoot := rfl
@[simp] theorem State.setStall_spdmOut (s : State) (n : Fin 128) (x : Stall) : (s.setStall n x).spdmOut = s.spdmOut := rfl
@[simp] theorem State.setStall_retiredPages (s : State) (n : Fin 128) (x : Stall) : (s.setStall n x).retiredPages = s.retiredPages := rfl
@[simp] theorem State.setStall_franking (s : State) (n : Fin 128) (x : Stall) : (s.setStall n x).franking = s.franking := rfl
@[simp] theorem State.setStall_porterMs (s : State) (n : Fin 128) (x : Stall) : (s.setStall n x).porterMs = s.porterMs := rfl
@[simp] theorem State.setStall_dieUp (s : State) (n : Fin 128) (x : Stall) : (s.setStall n x).dieUp = s.dieUp := rfl
@[simp] theorem State.setStall_chip (s : State) (n : Fin 128) (x : Stall) : (s.setStall n x).chip = s.chip := rfl
@[simp] theorem State.setStall_trace (s : State) (n : Fin 128) (x : Stall) : (s.setStall n x).trace = s.trace := rfl
@[simp] theorem State.setStall_irqs (s : State) (n : Fin 128) (x : Stall) : (s.setStall n x).irqs = s.irqs := rfl
@[simp] theorem State.setStall_redfish (s : State) (n : Fin 128) (x : Stall) : (s.setStall n x).redfish = s.redfish := rfl
@[simp] theorem State.setStall_tap (s : State) (n : Fin 128) (x : Stall) : (s.setStall n x).tap = s.tap := rfl

/-! ### modStall -/

@[simp] theorem State.modStall_pending (s : State) (n : Fin 128) (f : Stall → Stall) : (s.modStall n f).pending = s.pending := rfl
@[simp] theorem State.modStall_regs (s : State) (n : Fin 128) (f : Stall → Stall) : (s.modStall n f).regs = s.regs := rfl
@[simp] theorem State.modStall_mem (s : State) (n : Fin 128) (f : Stall → Stall) : (s.modStall n f).mem = s.mem := rfl
@[simp] theorem State.modStall_poison (s : State) (n : Fin 128) (f : Stall → Stall) : (s.modStall n f).poison = s.poison := rfl
@[simp] theorem State.modStall_latentUe (s : State) (n : Fin 128) (f : Stall → Stall) : (s.modStall n f).latentUe = s.latentUe := rfl
@[simp] theorem State.modStall_latentCe (s : State) (n : Fin 128) (f : Stall → Stall) : (s.modStall n f).latentCe = s.latentCe := rfl
@[simp] theorem State.modStall_actor (s : State) (n : Fin 128) (f : Stall → Stall) : (s.modStall n f).actor = s.actor := rfl
@[simp] theorem State.modStall_racing (s : State) (n : Fin 128) (f : Stall → Stall) : (s.modStall n f).racing = s.racing := rfl
@[simp] theorem State.modStall_underway (s : State) (n : Fin 128) (f : Stall → Stall) : (s.modStall n f).underway = s.underway := rfl
@[simp] theorem State.modStall_sourceWords (s : State) (n : Fin 128) (f : Stall → Stall) : (s.modStall n f).sourceWords = s.sourceWords := rfl
@[simp] theorem State.modStall_raceNo (s : State) (n : Fin 128) (f : Stall → Stall) : (s.modStall n f).raceNo = s.raceNo := rfl
@[simp] theorem State.modStall_aonDie (s : State) (n : Fin 128) (f : Stall → Stall) : (s.modStall n f).aonDie = s.aonDie := rfl
@[simp] theorem State.modStall_watches (s : State) (n : Fin 128) (f : Stall → Stall) : (s.modStall n f).watches = s.watches := rfl
@[simp] theorem State.modStall_xlat (s : State) (n : Fin 128) (f : Stall → Stall) : (s.modStall n f).xlat = s.xlat := rfl
@[simp] theorem State.modStall_xlatUnits (s : State) (n : Fin 128) (f : Stall → Stall) : (s.modStall n f).xlatUnits = s.xlatUnits := rfl
@[simp] theorem State.modStall_xlatNo (s : State) (n : Fin 128) (f : Stall → Stall) : (s.modStall n f).xlatNo = s.xlatNo := rfl
@[simp] theorem State.modStall_refusing (s : State) (n : Fin 128) (f : Stall → Stall) : (s.modStall n f).refusing = s.refusing := rfl
@[simp] theorem State.modStall_xlatRoot (s : State) (n : Fin 128) (f : Stall → Stall) : (s.modStall n f).xlatRoot = s.xlatRoot := rfl
@[simp] theorem State.modStall_xlatPend (s : State) (n : Fin 128) (f : Stall → Stall) : (s.modStall n f).xlatPend = s.xlatPend := rfl
@[simp] theorem State.modStall_sampled (s : State) (n : Fin 128) (f : Stall → Stall) : (s.modStall n f).sampled = s.sampled := rfl
@[simp] theorem State.modStall_ctxStables (s : State) (n : Fin 128) (f : Stall → Stall) : (s.modStall n f).ctxStables = s.ctxStables := rfl
@[simp] theorem State.modStall_consigns (s : State) (n : Fin 128) (f : Stall → Stall) : (s.modStall n f).consigns = s.consigns := rfl
@[simp] theorem State.modStall_nextConsign (s : State) (n : Fin 128) (f : Stall → Stall) : (s.modStall n f).nextConsign = s.nextConsign := rfl
@[simp] theorem State.modStall_unsignalled (s : State) (n : Fin 128) (f : Stall → Stall) : (s.modStall n f).unsignalled = s.unsignalled := rfl
@[simp] theorem State.modStall_dma (s : State) (n : Fin 128) (f : Stall → Stall) : (s.modStall n f).dma = s.dma := rfl
@[simp] theorem State.modStall_images (s : State) (n : Fin 128) (f : Stall → Stall) : (s.modStall n f).images = s.images := rfl
@[simp] theorem State.modStall_stableImg (s : State) (n : Fin 128) (f : Stall → Stall) : (s.modStall n f).stableImg = s.stableImg := rfl
@[simp] theorem State.modStall_hostOut (s : State) (n : Fin 128) (f : Stall → Stall) : (s.modStall n f).hostOut = s.hostOut := rfl
@[simp] theorem State.modStall_linkRx (s : State) (n : Fin 128) (f : Stall → Stall) : (s.modStall n f).linkRx = s.linkRx := rfl
@[simp] theorem State.modStall_linkTx (s : State) (n : Fin 128) (f : Stall → Stall) : (s.modStall n f).linkTx = s.linkTx := rfl
@[simp] theorem State.modStall_porterOut (s : State) (n : Fin 128) (f : Stall → Stall) : (s.modStall n f).porterOut = s.porterOut := rfl
@[simp] theorem State.modStall_msix (s : State) (n : Fin 128) (f : Stall → Stall) : (s.modStall n f).msix = s.msix := rfl
@[simp] theorem State.modStall_msixPend (s : State) (n : Fin 128) (f : Stall → Stall) : (s.modStall n f).msixPend = s.msixPend := rfl
@[simp] theorem State.modStall_aer (s : State) (n : Fin 128) (f : Stall → Stall) : (s.modStall n f).aer = s.aer := rfl
@[simp] theorem State.modStall_postQ (s : State) (n : Fin 128) (f : Stall → Stall) : (s.modStall n f).postQ = s.postQ := rfl
@[simp] theorem State.modStall_outstanding (s : State) (n : Fin 128) (f : Stall → Stall) : (s.modStall n f).outstanding = s.outstanding := rfl
@[simp] theorem State.modStall_sendStreams (s : State) (n : Fin 128) (f : Stall → Stall) : (s.modStall n f).sendStreams = s.sendStreams := rfl
@[simp] theorem State.modStall_recvStreams (s : State) (n : Fin 128) (f : Stall → Stall) : (s.modStall n f).recvStreams = s.recvStreams := rfl
@[simp] theorem State.modStall_heldDups (s : State) (n : Fin 128) (f : Stall → Stall) : (s.modStall n f).heldDups = s.heldDups := rfl
@[simp] theorem State.modStall_unplaced (s : State) (n : Fin 128) (f : Stall → Stall) : (s.modStall n f).unplaced = s.unplaced := rfl
@[simp] theorem State.modStall_collOps (s : State) (n : Fin 128) (f : Stall → Stall) : (s.modStall n f).collOps = s.collOps := rfl
@[simp] theorem State.modStall_collStage (s : State) (n : Fin 128) (f : Stall → Stall) : (s.modStall n f).collStage = s.collStage := rfl
@[simp] theorem State.modStall_circs (s : State) (n : Fin 128) (f : Stall → Stall) : (s.modStall n f).circs = s.circs := rfl
@[simp] theorem State.modStall_relays (s : State) (n : Fin 128) (f : Stall → Stall) : (s.modStall n f).relays = s.relays := rfl
@[simp] theorem State.modStall_nanOps (s : State) (n : Fin 128) (f : Stall → Stall) : (s.modStall n f).nanOps = s.nanOps := rfl
@[simp] theorem State.modStall_tiles (s : State) (n : Fin 128) (f : Stall → Stall) : (s.modStall n f).tiles = s.tiles := rfl
@[simp] theorem State.modStall_seals (s : State) (n : Fin 128) (f : Stall → Stall) : (s.modStall n f).seals = s.seals := rfl
@[simp] theorem State.modStall_nextId (s : State) (n : Fin 128) (f : Stall → Stall) : (s.modStall n f).nextId = s.nextId := rfl
@[simp] theorem State.modStall_inbox (s : State) (n : Fin 128) (f : Stall → Stall) : (s.modStall n f).inbox = s.inbox := rfl
@[simp] theorem State.modStall_portIn (s : State) (n : Fin 128) (f : Stall → Stall) : (s.modStall n f).portIn = s.portIn := rfl
@[simp] theorem State.modStall_outQ (s : State) (n : Fin 128) (f : Stall → Stall) : (s.modStall n f).outQ = s.outQ := rfl
@[simp] theorem State.modStall_rxHeld (s : State) (n : Fin 128) (f : Stall → Stall) : (s.modStall n f).rxHeld = s.rxHeld := rfl
@[simp] theorem State.modStall_freed (s : State) (n : Fin 128) (f : Stall → Stall) : (s.modStall n f).freed = s.freed := rfl
@[simp] theorem State.modStall_tx (s : State) (n : Fin 128) (f : Stall → Stall) : (s.modStall n f).tx = s.tx := rfl
@[simp] theorem State.modStall_arbs (s : State) (n : Fin 128) (f : Stall → Stall) : (s.modStall n f).arbs = s.arbs := rfl
@[simp] theorem State.modStall_wire (s : State) (n : Fin 128) (f : Stall → Stall) : (s.modStall n f).wire = s.wire := rfl
@[simp] theorem State.modStall_linkCmds (s : State) (n : Fin 128) (f : Stall → Stall) : (s.modStall n f).linkCmds = s.linkCmds := rfl
@[simp] theorem State.modStall_ports (s : State) (n : Fin 128) (f : Stall → Stall) : (s.modStall n f).ports = s.ports := rfl
@[simp] theorem State.modStall_resets (s : State) (n : Fin 128) (f : Stall → Stall) : (s.modStall n f).resets = s.resets := rfl
@[simp] theorem State.modStall_engResets (s : State) (n : Fin 128) (f : Stall → Stall) : (s.modStall n f).engResets = s.engResets := rfl
@[simp] theorem State.modStall_stableResets (s : State) (n : Fin 128) (f : Stall → Stall) : (s.modStall n f).stableResets = s.stableResets := rfl
@[simp] theorem State.modStall_attribs (s : State) (n : Fin 128) (f : Stall → Stall) : (s.modStall n f).attribs = s.attribs := rfl
@[simp] theorem State.modStall_dieHist (s : State) (n : Fin 128) (f : Stall → Stall) : (s.modStall n f).dieHist = s.dieHist := rfl
@[simp] theorem State.modStall_yards (s : State) (n : Fin 128) (f : Stall → Stall) : (s.modStall n f).yards = s.yards := rfl
@[simp] theorem State.modStall_loftHot (s : State) (n : Fin 128) (f : Stall → Stall) : (s.modStall n f).loftHot = s.loftHot := rfl
@[simp] theorem State.modStall_memReqs (s : State) (n : Fin 128) (f : Stall → Stall) : (s.modStall n f).memReqs = s.memReqs := rfl
@[simp] theorem State.modStall_patrols (s : State) (n : Fin 128) (f : Stall → Stall) : (s.modStall n f).patrols = s.patrols := rfl
@[simp] theorem State.modStall_frEx (s : State) (n : Fin 128) (f : Stall → Stall) : (s.modStall n f).frEx = s.frEx := rfl
@[simp] theorem State.modStall_frValid (s : State) (n : Fin 128) (f : Stall → Stall) : (s.modStall n f).frValid = s.frValid := rfl
@[simp] theorem State.modStall_steer (s : State) (n : Fin 128) (f : Stall → Stall) : (s.modStall n f).steer = s.steer := rfl
@[simp] theorem State.modStall_mgmtNext (s : State) (n : Fin 128) (f : Stall → Stall) : (s.modStall n f).mgmtNext = s.mgmtNext := rfl
@[simp] theorem State.modStall_mgmtOut (s : State) (n : Fin 128) (f : Stall → Stall) : (s.modStall n f).mgmtOut = s.mgmtOut := rfl
@[simp] theorem State.modStall_mgmtDone (s : State) (n : Fin 128) (f : Stall → Stall) : (s.modStall n f).mgmtDone = s.mgmtDone := rfl
@[simp] theorem State.modStall_mgmtSeen (s : State) (n : Fin 128) (f : Stall → Stall) : (s.modStall n f).mgmtSeen = s.mgmtSeen := rfl
@[simp] theorem State.modStall_aux (s : State) (n : Fin 128) (f : Stall → Stall) : (s.modStall n f).aux = s.aux := rfl
@[simp] theorem State.modStall_power (s : State) (n : Fin 128) (f : Stall → Stall) : (s.modStall n f).power = s.power := rfl
@[simp] theorem State.modStall_rails (s : State) (n : Fin 128) (f : Stall → Stall) : (s.modStall n f).rails = s.rails := rfl
@[simp] theorem State.modStall_railMs (s : State) (n : Fin 128) (f : Stall → Stall) : (s.modStall n f).railMs = s.railMs := rfl
@[simp] theorem State.modStall_tripMs (s : State) (n : Fin 128) (f : Stall → Stall) : (s.modStall n f).tripMs = s.tripMs := rfl
@[simp] theorem State.modStall_cycle (s : State) (n : Fin 128) (f : Stall → Stall) : (s.modStall n f).cycle = s.cycle := rfl
@[simp] theorem State.modStall_dieResetting (s : State) (n : Fin 128) (f : Stall → Stall) : (s.modStall n f).dieResetting = s.dieResetting := rfl
@[simp] theorem State.modStall_autoUsed (s : State) (n : Fin 128) (f : Stall → Stall) : (s.modStall n f).autoUsed = s.autoUsed := rfl
@[simp] theorem State.modStall_released (s : State) (n : Fin 128) (f : Stall → Stall) : (s.modStall n f).released = s.released := rfl
@[simp] theorem State.modStall_handover (s : State) (n : Fin 128) (f : Stall → Stall) : (s.modStall n f).handover = s.handover := rfl
@[simp] theorem State.modStall_handed (s : State) (n : Fin 128) (f : Stall → Stall) : (s.modStall n f).handed = s.handed := rfl
@[simp] theorem State.modStall_advance (s : State) (n : Fin 128) (f : Stall → Stall) : (s.modStall n f).advance = s.advance := rfl
@[simp] theorem State.modStall_memTestFull (s : State) (n : Fin 128) (f : Stall → Stall) : (s.modStall n f).memTestFull = s.memTestFull := rfl
@[simp] theorem State.modStall_fwSlots (s : State) (n : Fin 128) (f : Stall → Stall) : (s.modStall n f).fwSlots = s.fwSlots := rfl
@[simp] theorem State.modStall_fwBoot (s : State) (n : Fin 128) (f : Stall → Stall) : (s.modStall n f).fwBoot = s.fwBoot := rfl
@[simp] theorem State.modStall_spdmOut (s : State) (n : Fin 128) (f : Stall → Stall) : (s.modStall n f).spdmOut = s.spdmOut := rfl
@[simp] theorem State.modStall_retiredPages (s : State) (n : Fin 128) (f : Stall → Stall) : (s.modStall n f).retiredPages = s.retiredPages := rfl
@[simp] theorem State.modStall_franking (s : State) (n : Fin 128) (f : Stall → Stall) : (s.modStall n f).franking = s.franking := rfl
@[simp] theorem State.modStall_porterMs (s : State) (n : Fin 128) (f : Stall → Stall) : (s.modStall n f).porterMs = s.porterMs := rfl
@[simp] theorem State.modStall_dieUp (s : State) (n : Fin 128) (f : Stall → Stall) : (s.modStall n f).dieUp = s.dieUp := rfl
@[simp] theorem State.modStall_chip (s : State) (n : Fin 128) (f : Stall → Stall) : (s.modStall n f).chip = s.chip := rfl
@[simp] theorem State.modStall_trace (s : State) (n : Fin 128) (f : Stall → Stall) : (s.modStall n f).trace = s.trace := rfl
@[simp] theorem State.modStall_irqs (s : State) (n : Fin 128) (f : Stall → Stall) : (s.modStall n f).irqs = s.irqs := rfl
@[simp] theorem State.modStall_redfish (s : State) (n : Fin 128) (f : Stall → Stall) : (s.modStall n f).redfish = s.redfish := rfl
@[simp] theorem State.modStall_tap (s : State) (n : Fin 128) (f : Stall → Stall) : (s.modStall n f).tap = s.tap := rfl

/-! ### setConsign -/

@[simp] theorem State.setConsign_pending (s : State) (i : Nat) (x : Consign) : (s.setConsign i x).pending = s.pending := rfl
@[simp] theorem State.setConsign_regs (s : State) (i : Nat) (x : Consign) : (s.setConsign i x).regs = s.regs := rfl
@[simp] theorem State.setConsign_mem (s : State) (i : Nat) (x : Consign) : (s.setConsign i x).mem = s.mem := rfl
@[simp] theorem State.setConsign_poison (s : State) (i : Nat) (x : Consign) : (s.setConsign i x).poison = s.poison := rfl
@[simp] theorem State.setConsign_latentUe (s : State) (i : Nat) (x : Consign) : (s.setConsign i x).latentUe = s.latentUe := rfl
@[simp] theorem State.setConsign_latentCe (s : State) (i : Nat) (x : Consign) : (s.setConsign i x).latentCe = s.latentCe := rfl
@[simp] theorem State.setConsign_actor (s : State) (i : Nat) (x : Consign) : (s.setConsign i x).actor = s.actor := rfl
@[simp] theorem State.setConsign_racing (s : State) (i : Nat) (x : Consign) : (s.setConsign i x).racing = s.racing := rfl
@[simp] theorem State.setConsign_underway (s : State) (i : Nat) (x : Consign) : (s.setConsign i x).underway = s.underway := rfl
@[simp] theorem State.setConsign_sourceWords (s : State) (i : Nat) (x : Consign) : (s.setConsign i x).sourceWords = s.sourceWords := rfl
@[simp] theorem State.setConsign_raceNo (s : State) (i : Nat) (x : Consign) : (s.setConsign i x).raceNo = s.raceNo := rfl
@[simp] theorem State.setConsign_aonDie (s : State) (i : Nat) (x : Consign) : (s.setConsign i x).aonDie = s.aonDie := rfl
@[simp] theorem State.setConsign_stalls (s : State) (i : Nat) (x : Consign) : (s.setConsign i x).stalls = s.stalls := rfl
@[simp] theorem State.setConsign_watches (s : State) (i : Nat) (x : Consign) : (s.setConsign i x).watches = s.watches := rfl
@[simp] theorem State.setConsign_xlat (s : State) (i : Nat) (x : Consign) : (s.setConsign i x).xlat = s.xlat := rfl
@[simp] theorem State.setConsign_xlatUnits (s : State) (i : Nat) (x : Consign) : (s.setConsign i x).xlatUnits = s.xlatUnits := rfl
@[simp] theorem State.setConsign_xlatNo (s : State) (i : Nat) (x : Consign) : (s.setConsign i x).xlatNo = s.xlatNo := rfl
@[simp] theorem State.setConsign_refusing (s : State) (i : Nat) (x : Consign) : (s.setConsign i x).refusing = s.refusing := rfl
@[simp] theorem State.setConsign_xlatRoot (s : State) (i : Nat) (x : Consign) : (s.setConsign i x).xlatRoot = s.xlatRoot := rfl
@[simp] theorem State.setConsign_xlatPend (s : State) (i : Nat) (x : Consign) : (s.setConsign i x).xlatPend = s.xlatPend := rfl
@[simp] theorem State.setConsign_sampled (s : State) (i : Nat) (x : Consign) : (s.setConsign i x).sampled = s.sampled := rfl
@[simp] theorem State.setConsign_ctxStables (s : State) (i : Nat) (x : Consign) : (s.setConsign i x).ctxStables = s.ctxStables := rfl
@[simp] theorem State.setConsign_nextConsign (s : State) (i : Nat) (x : Consign) : (s.setConsign i x).nextConsign = s.nextConsign := rfl
@[simp] theorem State.setConsign_unsignalled (s : State) (i : Nat) (x : Consign) : (s.setConsign i x).unsignalled = s.unsignalled := rfl
@[simp] theorem State.setConsign_dma (s : State) (i : Nat) (x : Consign) : (s.setConsign i x).dma = s.dma := rfl
@[simp] theorem State.setConsign_images (s : State) (i : Nat) (x : Consign) : (s.setConsign i x).images = s.images := rfl
@[simp] theorem State.setConsign_stableImg (s : State) (i : Nat) (x : Consign) : (s.setConsign i x).stableImg = s.stableImg := rfl
@[simp] theorem State.setConsign_hostOut (s : State) (i : Nat) (x : Consign) : (s.setConsign i x).hostOut = s.hostOut := rfl
@[simp] theorem State.setConsign_linkRx (s : State) (i : Nat) (x : Consign) : (s.setConsign i x).linkRx = s.linkRx := rfl
@[simp] theorem State.setConsign_linkTx (s : State) (i : Nat) (x : Consign) : (s.setConsign i x).linkTx = s.linkTx := rfl
@[simp] theorem State.setConsign_porterOut (s : State) (i : Nat) (x : Consign) : (s.setConsign i x).porterOut = s.porterOut := rfl
@[simp] theorem State.setConsign_msix (s : State) (i : Nat) (x : Consign) : (s.setConsign i x).msix = s.msix := rfl
@[simp] theorem State.setConsign_msixPend (s : State) (i : Nat) (x : Consign) : (s.setConsign i x).msixPend = s.msixPend := rfl
@[simp] theorem State.setConsign_aer (s : State) (i : Nat) (x : Consign) : (s.setConsign i x).aer = s.aer := rfl
@[simp] theorem State.setConsign_postQ (s : State) (i : Nat) (x : Consign) : (s.setConsign i x).postQ = s.postQ := rfl
@[simp] theorem State.setConsign_outstanding (s : State) (i : Nat) (x : Consign) : (s.setConsign i x).outstanding = s.outstanding := rfl
@[simp] theorem State.setConsign_sendStreams (s : State) (i : Nat) (x : Consign) : (s.setConsign i x).sendStreams = s.sendStreams := rfl
@[simp] theorem State.setConsign_recvStreams (s : State) (i : Nat) (x : Consign) : (s.setConsign i x).recvStreams = s.recvStreams := rfl
@[simp] theorem State.setConsign_heldDups (s : State) (i : Nat) (x : Consign) : (s.setConsign i x).heldDups = s.heldDups := rfl
@[simp] theorem State.setConsign_unplaced (s : State) (i : Nat) (x : Consign) : (s.setConsign i x).unplaced = s.unplaced := rfl
@[simp] theorem State.setConsign_collOps (s : State) (i : Nat) (x : Consign) : (s.setConsign i x).collOps = s.collOps := rfl
@[simp] theorem State.setConsign_collStage (s : State) (i : Nat) (x : Consign) : (s.setConsign i x).collStage = s.collStage := rfl
@[simp] theorem State.setConsign_circs (s : State) (i : Nat) (x : Consign) : (s.setConsign i x).circs = s.circs := rfl
@[simp] theorem State.setConsign_relays (s : State) (i : Nat) (x : Consign) : (s.setConsign i x).relays = s.relays := rfl
@[simp] theorem State.setConsign_nanOps (s : State) (i : Nat) (x : Consign) : (s.setConsign i x).nanOps = s.nanOps := rfl
@[simp] theorem State.setConsign_tiles (s : State) (i : Nat) (x : Consign) : (s.setConsign i x).tiles = s.tiles := rfl
@[simp] theorem State.setConsign_seals (s : State) (i : Nat) (x : Consign) : (s.setConsign i x).seals = s.seals := rfl
@[simp] theorem State.setConsign_nextId (s : State) (i : Nat) (x : Consign) : (s.setConsign i x).nextId = s.nextId := rfl
@[simp] theorem State.setConsign_inbox (s : State) (i : Nat) (x : Consign) : (s.setConsign i x).inbox = s.inbox := rfl
@[simp] theorem State.setConsign_portIn (s : State) (i : Nat) (x : Consign) : (s.setConsign i x).portIn = s.portIn := rfl
@[simp] theorem State.setConsign_outQ (s : State) (i : Nat) (x : Consign) : (s.setConsign i x).outQ = s.outQ := rfl
@[simp] theorem State.setConsign_rxHeld (s : State) (i : Nat) (x : Consign) : (s.setConsign i x).rxHeld = s.rxHeld := rfl
@[simp] theorem State.setConsign_freed (s : State) (i : Nat) (x : Consign) : (s.setConsign i x).freed = s.freed := rfl
@[simp] theorem State.setConsign_tx (s : State) (i : Nat) (x : Consign) : (s.setConsign i x).tx = s.tx := rfl
@[simp] theorem State.setConsign_arbs (s : State) (i : Nat) (x : Consign) : (s.setConsign i x).arbs = s.arbs := rfl
@[simp] theorem State.setConsign_wire (s : State) (i : Nat) (x : Consign) : (s.setConsign i x).wire = s.wire := rfl
@[simp] theorem State.setConsign_linkCmds (s : State) (i : Nat) (x : Consign) : (s.setConsign i x).linkCmds = s.linkCmds := rfl
@[simp] theorem State.setConsign_ports (s : State) (i : Nat) (x : Consign) : (s.setConsign i x).ports = s.ports := rfl
@[simp] theorem State.setConsign_resets (s : State) (i : Nat) (x : Consign) : (s.setConsign i x).resets = s.resets := rfl
@[simp] theorem State.setConsign_engResets (s : State) (i : Nat) (x : Consign) : (s.setConsign i x).engResets = s.engResets := rfl
@[simp] theorem State.setConsign_stableResets (s : State) (i : Nat) (x : Consign) : (s.setConsign i x).stableResets = s.stableResets := rfl
@[simp] theorem State.setConsign_attribs (s : State) (i : Nat) (x : Consign) : (s.setConsign i x).attribs = s.attribs := rfl
@[simp] theorem State.setConsign_dieHist (s : State) (i : Nat) (x : Consign) : (s.setConsign i x).dieHist = s.dieHist := rfl
@[simp] theorem State.setConsign_yards (s : State) (i : Nat) (x : Consign) : (s.setConsign i x).yards = s.yards := rfl
@[simp] theorem State.setConsign_loftHot (s : State) (i : Nat) (x : Consign) : (s.setConsign i x).loftHot = s.loftHot := rfl
@[simp] theorem State.setConsign_memReqs (s : State) (i : Nat) (x : Consign) : (s.setConsign i x).memReqs = s.memReqs := rfl
@[simp] theorem State.setConsign_patrols (s : State) (i : Nat) (x : Consign) : (s.setConsign i x).patrols = s.patrols := rfl
@[simp] theorem State.setConsign_frEx (s : State) (i : Nat) (x : Consign) : (s.setConsign i x).frEx = s.frEx := rfl
@[simp] theorem State.setConsign_frValid (s : State) (i : Nat) (x : Consign) : (s.setConsign i x).frValid = s.frValid := rfl
@[simp] theorem State.setConsign_steer (s : State) (i : Nat) (x : Consign) : (s.setConsign i x).steer = s.steer := rfl
@[simp] theorem State.setConsign_mgmtNext (s : State) (i : Nat) (x : Consign) : (s.setConsign i x).mgmtNext = s.mgmtNext := rfl
@[simp] theorem State.setConsign_mgmtOut (s : State) (i : Nat) (x : Consign) : (s.setConsign i x).mgmtOut = s.mgmtOut := rfl
@[simp] theorem State.setConsign_mgmtDone (s : State) (i : Nat) (x : Consign) : (s.setConsign i x).mgmtDone = s.mgmtDone := rfl
@[simp] theorem State.setConsign_mgmtSeen (s : State) (i : Nat) (x : Consign) : (s.setConsign i x).mgmtSeen = s.mgmtSeen := rfl
@[simp] theorem State.setConsign_aux (s : State) (i : Nat) (x : Consign) : (s.setConsign i x).aux = s.aux := rfl
@[simp] theorem State.setConsign_power (s : State) (i : Nat) (x : Consign) : (s.setConsign i x).power = s.power := rfl
@[simp] theorem State.setConsign_rails (s : State) (i : Nat) (x : Consign) : (s.setConsign i x).rails = s.rails := rfl
@[simp] theorem State.setConsign_railMs (s : State) (i : Nat) (x : Consign) : (s.setConsign i x).railMs = s.railMs := rfl
@[simp] theorem State.setConsign_tripMs (s : State) (i : Nat) (x : Consign) : (s.setConsign i x).tripMs = s.tripMs := rfl
@[simp] theorem State.setConsign_cycle (s : State) (i : Nat) (x : Consign) : (s.setConsign i x).cycle = s.cycle := rfl
@[simp] theorem State.setConsign_dieResetting (s : State) (i : Nat) (x : Consign) : (s.setConsign i x).dieResetting = s.dieResetting := rfl
@[simp] theorem State.setConsign_autoUsed (s : State) (i : Nat) (x : Consign) : (s.setConsign i x).autoUsed = s.autoUsed := rfl
@[simp] theorem State.setConsign_released (s : State) (i : Nat) (x : Consign) : (s.setConsign i x).released = s.released := rfl
@[simp] theorem State.setConsign_handover (s : State) (i : Nat) (x : Consign) : (s.setConsign i x).handover = s.handover := rfl
@[simp] theorem State.setConsign_handed (s : State) (i : Nat) (x : Consign) : (s.setConsign i x).handed = s.handed := rfl
@[simp] theorem State.setConsign_advance (s : State) (i : Nat) (x : Consign) : (s.setConsign i x).advance = s.advance := rfl
@[simp] theorem State.setConsign_memTestFull (s : State) (i : Nat) (x : Consign) : (s.setConsign i x).memTestFull = s.memTestFull := rfl
@[simp] theorem State.setConsign_fwSlots (s : State) (i : Nat) (x : Consign) : (s.setConsign i x).fwSlots = s.fwSlots := rfl
@[simp] theorem State.setConsign_fwBoot (s : State) (i : Nat) (x : Consign) : (s.setConsign i x).fwBoot = s.fwBoot := rfl
@[simp] theorem State.setConsign_spdmOut (s : State) (i : Nat) (x : Consign) : (s.setConsign i x).spdmOut = s.spdmOut := rfl
@[simp] theorem State.setConsign_retiredPages (s : State) (i : Nat) (x : Consign) : (s.setConsign i x).retiredPages = s.retiredPages := rfl
@[simp] theorem State.setConsign_franking (s : State) (i : Nat) (x : Consign) : (s.setConsign i x).franking = s.franking := rfl
@[simp] theorem State.setConsign_porterMs (s : State) (i : Nat) (x : Consign) : (s.setConsign i x).porterMs = s.porterMs := rfl
@[simp] theorem State.setConsign_dieUp (s : State) (i : Nat) (x : Consign) : (s.setConsign i x).dieUp = s.dieUp := rfl
@[simp] theorem State.setConsign_chip (s : State) (i : Nat) (x : Consign) : (s.setConsign i x).chip = s.chip := rfl
@[simp] theorem State.setConsign_trace (s : State) (i : Nat) (x : Consign) : (s.setConsign i x).trace = s.trace := rfl
@[simp] theorem State.setConsign_irqs (s : State) (i : Nat) (x : Consign) : (s.setConsign i x).irqs = s.irqs := rfl
@[simp] theorem State.setConsign_redfish (s : State) (i : Nat) (x : Consign) : (s.setConsign i x).redfish = s.redfish := rfl
@[simp] theorem State.setConsign_tap (s : State) (i : Nat) (x : Consign) : (s.setConsign i x).tap = s.tap := rfl

/-! ### raise -/

@[simp] theorem State.raise_pending (s : State) (v : Nat) : (s.raise v).pending = s.pending := rfl
@[simp] theorem State.raise_regs (s : State) (v : Nat) : (s.raise v).regs = s.regs := rfl
@[simp] theorem State.raise_mem (s : State) (v : Nat) : (s.raise v).mem = s.mem := rfl
@[simp] theorem State.raise_poison (s : State) (v : Nat) : (s.raise v).poison = s.poison := rfl
@[simp] theorem State.raise_latentUe (s : State) (v : Nat) : (s.raise v).latentUe = s.latentUe := rfl
@[simp] theorem State.raise_latentCe (s : State) (v : Nat) : (s.raise v).latentCe = s.latentCe := rfl
@[simp] theorem State.raise_actor (s : State) (v : Nat) : (s.raise v).actor = s.actor := rfl
@[simp] theorem State.raise_racing (s : State) (v : Nat) : (s.raise v).racing = s.racing := rfl
@[simp] theorem State.raise_underway (s : State) (v : Nat) : (s.raise v).underway = s.underway := rfl
@[simp] theorem State.raise_sourceWords (s : State) (v : Nat) : (s.raise v).sourceWords = s.sourceWords := rfl
@[simp] theorem State.raise_raceNo (s : State) (v : Nat) : (s.raise v).raceNo = s.raceNo := rfl
@[simp] theorem State.raise_aonDie (s : State) (v : Nat) : (s.raise v).aonDie = s.aonDie := rfl
@[simp] theorem State.raise_stalls (s : State) (v : Nat) : (s.raise v).stalls = s.stalls := rfl
@[simp] theorem State.raise_watches (s : State) (v : Nat) : (s.raise v).watches = s.watches := rfl
@[simp] theorem State.raise_xlat (s : State) (v : Nat) : (s.raise v).xlat = s.xlat := rfl
@[simp] theorem State.raise_xlatUnits (s : State) (v : Nat) : (s.raise v).xlatUnits = s.xlatUnits := rfl
@[simp] theorem State.raise_xlatNo (s : State) (v : Nat) : (s.raise v).xlatNo = s.xlatNo := rfl
@[simp] theorem State.raise_refusing (s : State) (v : Nat) : (s.raise v).refusing = s.refusing := rfl
@[simp] theorem State.raise_xlatRoot (s : State) (v : Nat) : (s.raise v).xlatRoot = s.xlatRoot := rfl
@[simp] theorem State.raise_xlatPend (s : State) (v : Nat) : (s.raise v).xlatPend = s.xlatPend := rfl
@[simp] theorem State.raise_sampled (s : State) (v : Nat) : (s.raise v).sampled = s.sampled := rfl
@[simp] theorem State.raise_ctxStables (s : State) (v : Nat) : (s.raise v).ctxStables = s.ctxStables := rfl
@[simp] theorem State.raise_consigns (s : State) (v : Nat) : (s.raise v).consigns = s.consigns := rfl
@[simp] theorem State.raise_nextConsign (s : State) (v : Nat) : (s.raise v).nextConsign = s.nextConsign := rfl
@[simp] theorem State.raise_unsignalled (s : State) (v : Nat) : (s.raise v).unsignalled = s.unsignalled := rfl
@[simp] theorem State.raise_dma (s : State) (v : Nat) : (s.raise v).dma = s.dma := rfl
@[simp] theorem State.raise_images (s : State) (v : Nat) : (s.raise v).images = s.images := rfl
@[simp] theorem State.raise_stableImg (s : State) (v : Nat) : (s.raise v).stableImg = s.stableImg := rfl
@[simp] theorem State.raise_hostOut (s : State) (v : Nat) : (s.raise v).hostOut = s.hostOut := rfl
@[simp] theorem State.raise_linkRx (s : State) (v : Nat) : (s.raise v).linkRx = s.linkRx := rfl
@[simp] theorem State.raise_linkTx (s : State) (v : Nat) : (s.raise v).linkTx = s.linkTx := rfl
@[simp] theorem State.raise_porterOut (s : State) (v : Nat) : (s.raise v).porterOut = s.porterOut := rfl
@[simp] theorem State.raise_msix (s : State) (v : Nat) : (s.raise v).msix = s.msix := rfl
@[simp] theorem State.raise_aer (s : State) (v : Nat) : (s.raise v).aer = s.aer := rfl
@[simp] theorem State.raise_postQ (s : State) (v : Nat) : (s.raise v).postQ = s.postQ := rfl
@[simp] theorem State.raise_outstanding (s : State) (v : Nat) : (s.raise v).outstanding = s.outstanding := rfl
@[simp] theorem State.raise_sendStreams (s : State) (v : Nat) : (s.raise v).sendStreams = s.sendStreams := rfl
@[simp] theorem State.raise_recvStreams (s : State) (v : Nat) : (s.raise v).recvStreams = s.recvStreams := rfl
@[simp] theorem State.raise_heldDups (s : State) (v : Nat) : (s.raise v).heldDups = s.heldDups := rfl
@[simp] theorem State.raise_unplaced (s : State) (v : Nat) : (s.raise v).unplaced = s.unplaced := rfl
@[simp] theorem State.raise_collOps (s : State) (v : Nat) : (s.raise v).collOps = s.collOps := rfl
@[simp] theorem State.raise_collStage (s : State) (v : Nat) : (s.raise v).collStage = s.collStage := rfl
@[simp] theorem State.raise_circs (s : State) (v : Nat) : (s.raise v).circs = s.circs := rfl
@[simp] theorem State.raise_relays (s : State) (v : Nat) : (s.raise v).relays = s.relays := rfl
@[simp] theorem State.raise_nanOps (s : State) (v : Nat) : (s.raise v).nanOps = s.nanOps := rfl
@[simp] theorem State.raise_tiles (s : State) (v : Nat) : (s.raise v).tiles = s.tiles := rfl
@[simp] theorem State.raise_seals (s : State) (v : Nat) : (s.raise v).seals = s.seals := rfl
@[simp] theorem State.raise_nextId (s : State) (v : Nat) : (s.raise v).nextId = s.nextId := rfl
@[simp] theorem State.raise_inbox (s : State) (v : Nat) : (s.raise v).inbox = s.inbox := rfl
@[simp] theorem State.raise_portIn (s : State) (v : Nat) : (s.raise v).portIn = s.portIn := rfl
@[simp] theorem State.raise_outQ (s : State) (v : Nat) : (s.raise v).outQ = s.outQ := rfl
@[simp] theorem State.raise_rxHeld (s : State) (v : Nat) : (s.raise v).rxHeld = s.rxHeld := rfl
@[simp] theorem State.raise_freed (s : State) (v : Nat) : (s.raise v).freed = s.freed := rfl
@[simp] theorem State.raise_tx (s : State) (v : Nat) : (s.raise v).tx = s.tx := rfl
@[simp] theorem State.raise_arbs (s : State) (v : Nat) : (s.raise v).arbs = s.arbs := rfl
@[simp] theorem State.raise_wire (s : State) (v : Nat) : (s.raise v).wire = s.wire := rfl
@[simp] theorem State.raise_linkCmds (s : State) (v : Nat) : (s.raise v).linkCmds = s.linkCmds := rfl
@[simp] theorem State.raise_ports (s : State) (v : Nat) : (s.raise v).ports = s.ports := rfl
@[simp] theorem State.raise_resets (s : State) (v : Nat) : (s.raise v).resets = s.resets := rfl
@[simp] theorem State.raise_engResets (s : State) (v : Nat) : (s.raise v).engResets = s.engResets := rfl
@[simp] theorem State.raise_stableResets (s : State) (v : Nat) : (s.raise v).stableResets = s.stableResets := rfl
@[simp] theorem State.raise_attribs (s : State) (v : Nat) : (s.raise v).attribs = s.attribs := rfl
@[simp] theorem State.raise_dieHist (s : State) (v : Nat) : (s.raise v).dieHist = s.dieHist := rfl
@[simp] theorem State.raise_yards (s : State) (v : Nat) : (s.raise v).yards = s.yards := rfl
@[simp] theorem State.raise_loftHot (s : State) (v : Nat) : (s.raise v).loftHot = s.loftHot := rfl
@[simp] theorem State.raise_memReqs (s : State) (v : Nat) : (s.raise v).memReqs = s.memReqs := rfl
@[simp] theorem State.raise_patrols (s : State) (v : Nat) : (s.raise v).patrols = s.patrols := rfl
@[simp] theorem State.raise_frEx (s : State) (v : Nat) : (s.raise v).frEx = s.frEx := rfl
@[simp] theorem State.raise_frValid (s : State) (v : Nat) : (s.raise v).frValid = s.frValid := rfl
@[simp] theorem State.raise_steer (s : State) (v : Nat) : (s.raise v).steer = s.steer := rfl
@[simp] theorem State.raise_mgmtNext (s : State) (v : Nat) : (s.raise v).mgmtNext = s.mgmtNext := rfl
@[simp] theorem State.raise_mgmtOut (s : State) (v : Nat) : (s.raise v).mgmtOut = s.mgmtOut := rfl
@[simp] theorem State.raise_mgmtDone (s : State) (v : Nat) : (s.raise v).mgmtDone = s.mgmtDone := rfl
@[simp] theorem State.raise_mgmtSeen (s : State) (v : Nat) : (s.raise v).mgmtSeen = s.mgmtSeen := rfl
@[simp] theorem State.raise_aux (s : State) (v : Nat) : (s.raise v).aux = s.aux := rfl
@[simp] theorem State.raise_power (s : State) (v : Nat) : (s.raise v).power = s.power := rfl
@[simp] theorem State.raise_rails (s : State) (v : Nat) : (s.raise v).rails = s.rails := rfl
@[simp] theorem State.raise_railMs (s : State) (v : Nat) : (s.raise v).railMs = s.railMs := rfl
@[simp] theorem State.raise_tripMs (s : State) (v : Nat) : (s.raise v).tripMs = s.tripMs := rfl
@[simp] theorem State.raise_cycle (s : State) (v : Nat) : (s.raise v).cycle = s.cycle := rfl
@[simp] theorem State.raise_dieResetting (s : State) (v : Nat) : (s.raise v).dieResetting = s.dieResetting := rfl
@[simp] theorem State.raise_autoUsed (s : State) (v : Nat) : (s.raise v).autoUsed = s.autoUsed := rfl
@[simp] theorem State.raise_released (s : State) (v : Nat) : (s.raise v).released = s.released := rfl
@[simp] theorem State.raise_handover (s : State) (v : Nat) : (s.raise v).handover = s.handover := rfl
@[simp] theorem State.raise_handed (s : State) (v : Nat) : (s.raise v).handed = s.handed := rfl
@[simp] theorem State.raise_advance (s : State) (v : Nat) : (s.raise v).advance = s.advance := rfl
@[simp] theorem State.raise_memTestFull (s : State) (v : Nat) : (s.raise v).memTestFull = s.memTestFull := rfl
@[simp] theorem State.raise_fwSlots (s : State) (v : Nat) : (s.raise v).fwSlots = s.fwSlots := rfl
@[simp] theorem State.raise_fwBoot (s : State) (v : Nat) : (s.raise v).fwBoot = s.fwBoot := rfl
@[simp] theorem State.raise_spdmOut (s : State) (v : Nat) : (s.raise v).spdmOut = s.spdmOut := rfl
@[simp] theorem State.raise_retiredPages (s : State) (v : Nat) : (s.raise v).retiredPages = s.retiredPages := rfl
@[simp] theorem State.raise_franking (s : State) (v : Nat) : (s.raise v).franking = s.franking := rfl
@[simp] theorem State.raise_porterMs (s : State) (v : Nat) : (s.raise v).porterMs = s.porterMs := rfl
@[simp] theorem State.raise_dieUp (s : State) (v : Nat) : (s.raise v).dieUp = s.dieUp := rfl
@[simp] theorem State.raise_chip (s : State) (v : Nat) : (s.raise v).chip = s.chip := rfl
@[simp] theorem State.raise_trace (s : State) (v : Nat) : (s.raise v).trace = s.trace := rfl
@[simp] theorem State.raise_redfish (s : State) (v : Nat) : (s.raise v).redfish = s.redfish := rfl
@[simp] theorem State.raise_tap (s : State) (v : Nat) : (s.raise v).tap = s.tap := rfl

end Sys2Proof.Machine
end

