-- ==== Sys2Proof/Laws/Fields.lean ====
section
/-!
SUPPORT. Laws of register fields: what a field reads after a field has been written.
-/
namespace Sys2Proof.Machine

theorem Fld.split_nat (n lo w : Nat) :
    n = n % 2 ^ lo + 2 ^ lo * (2 ^ w * (n / 2 ^ lo / 2 ^ w) + n / 2 ^ lo % 2 ^ w) := by
  have h1 := Nat.div_add_mod n (2 ^ lo)
  have h2 := Nat.div_add_mod (n / 2 ^ lo) (2 ^ w)
  rw [h2]; omega

theorem Fld.put_toNat (f : Fld) (h : f.lo + f.w ≤ 64) (v : BitVec 64) (x : Nat) :
    (f.put v x).toNat =
      v.toNat % 2 ^ f.lo + 2 ^ f.lo * (2 ^ f.w * (v.toNat / 2 ^ f.lo / 2 ^ f.w) + x % 2 ^ f.w) := by
  obtain ⟨lo, w, _, _, _⟩ := f
  simp only at h
  have e := Fld.split_nat v.toNat lo w
  have hl : v.toNat % 2 ^ lo < 2 ^ lo := Nat.mod_lt _ (Nat.two_pow_pos _)
  have hw : x % 2 ^ w < 2 ^ w := Nat.mod_lt _ (Nat.two_pow_pos _)
  have hq : v.toNat / 2 ^ lo / 2 ^ w < 2 ^ (64 - lo - w) := by
    rw [Nat.div_div_eq_div_mul, ← Nat.pow_add]
    refine Nat.div_lt_of_lt_mul ?_
    rw [← Nat.pow_add, show lo + w + (64 - lo - w) = 64 by omega]
    exact v.isLt
  simp only [Fld.put, Fld.get, bitsOf, BitVec.toNat_ofNat]
  generalize v.toNat / 2 ^ lo / 2 ^ w = q at *
  generalize v.toNat / 2 ^ lo % 2 ^ w = g at *
  generalize v.toNat % 2 ^ lo = l at *
  generalize x % 2 ^ w = y at *
  have d1 : 2 ^ lo * (2 ^ w * q + g) = 2 ^ lo * (2 ^ w * q) + g * 2 ^ lo := by ring
  have d2 : 2 ^ lo * (2 ^ w * q + y) = 2 ^ lo * (2 ^ w * q) + y * 2 ^ lo := by ring
  have sm : v.toNat - g * 2 ^ lo + y * 2 ^ lo = l + 2 ^ lo * (2 ^ w * q + y) := by omega
  rw [sm]
  refine Nat.mod_eq_of_lt ?_
  have b1 : 2 ^ w * q + y < 2 ^ w * 2 ^ (64 - lo - w) := by
    have : 2 ^ w * (q + 1) ≤ 2 ^ w * 2 ^ (64 - lo - w) := Nat.mul_le_mul_left _ hq
    rw [Nat.mul_add] at this
    omega
  have b2 : 2 ^ lo * (2 ^ w * q + y + 1) ≤ 2 ^ lo * (2 ^ w * 2 ^ (64 - lo - w)) := Nat.mul_le_mul_left _ b1
  have b3 : 2 ^ lo * (2 ^ w * 2 ^ (64 - lo - w)) = 2 ^ 64 := by
    rw [← Nat.pow_add, ← Nat.pow_add, show lo + (w + (64 - lo - w)) = 64 by omega]
  rw [Nat.mul_add] at b2
  omega

/-- A field reads what was written to it, modulo its width. -/
theorem Fld.get_put (f : Fld) (h : f.lo + f.w ≤ 64) (v : BitVec 64) (x : Nat) : f.get (f.put v x) = x % 2 ^ f.w := by
  simp only [Fld.get, bitsOf, Fld.put_toNat f h]
  have hl : v.toNat % 2 ^ f.lo < 2 ^ f.lo := Nat.mod_lt _ (Nat.two_pow_pos _)
  rw [Nat.add_comm, Nat.mul_add_div (Nat.two_pow_pos _), Nat.div_eq_of_lt hl, Nat.add_zero, Nat.mul_add_mod]
  exact Nat.mod_mod _ _

/-- A write of a field leaves the fields above it as they were. -/
theorem Fld.get_put_above (f g : Fld) (h : f.lo + f.w ≤ 64) (hg : f.lo + f.w ≤ g.lo) (v : BitVec 64) (x : Nat) :
    g.get (f.put v x) = g.get v := by
  simp only [Fld.get, bitsOf, Fld.put_toNat f h]
  have hl : v.toNat % 2 ^ f.lo < 2 ^ f.lo := Nat.mod_lt _ (Nat.two_pow_pos _)
  have hw : x % 2 ^ f.w < 2 ^ f.w := Nat.mod_lt _ (Nat.two_pow_pos _)
  obtain ⟨d, e⟩ : ∃ d, g.lo = f.lo + f.w + d := ⟨_, (Nat.add_sub_of_le hg).symm⟩
  rw [e, Nat.pow_add, Nat.pow_add, ← Nat.div_div_eq_div_mul, ← Nat.div_div_eq_div_mul, ← Nat.div_div_eq_div_mul,
    ← Nat.div_div_eq_div_mul]
  congr 2
  rw [Nat.add_comm, Nat.mul_add_div (Nat.two_pow_pos _), Nat.div_eq_of_lt hl, Nat.add_zero,
    Nat.mul_add_div (Nat.two_pow_pos _), Nat.div_eq_of_lt hw, Nat.add_zero]

/-- A write of a field leaves the fields below it as they were. -/
theorem Fld.get_put_below (f g : Fld) (h : f.lo + f.w ≤ 64) (hg : g.lo + g.w ≤ f.lo) (v : BitVec 64) (x : Nat) :
    g.get (f.put v x) = g.get v := by
  have key : ∀ a b : Nat, a % 2 ^ f.lo = b % 2 ^ f.lo → bitsOf a g.lo g.w = bitsOf b g.lo g.w := by
    intro a b hab
    have m : ∀ c : Nat, bitsOf c g.lo g.w = bitsOf (c % 2 ^ f.lo) g.lo g.w := by
      intro c
      simp only [bitsOf]
      obtain ⟨d, e⟩ : ∃ d, f.lo = g.lo + (g.w + d) := ⟨f.lo - g.lo - g.w, by omega⟩
      rw [e, Nat.pow_add, Nat.mod_mul_right_div_self, Nat.pow_add, Nat.mod_mul_right_mod]
    rw [m a, m b, hab]
  simp only [Fld.get, Fld.put_toNat f h]
  refine key _ _ ?_
  rw [Nat.add_mul_mod_self_left, Nat.mod_mod]

/-- A field is below its width. -/
theorem Fld.get_lt (f : Fld) (v : BitVec 64) : f.get v < 2 ^ f.w := Nat.mod_lt _ (Nat.two_pow_pos _)

/-! ### Registers -/

@[simp] theorem State.rd_wr_same (s : State) (r : Reg) (v : BitVec 64) : (s.wr r v).rd r = v :=
  AMap.get_set_same _ r v s.regs

theorem State.rd_wr_other (s : State) {r r' : Reg} (v : BitVec 64) (h : r' ≠ r) : (s.wr r v).rd r' = s.rd r' :=
  AMap.get_set_other _ v s.regs h

theorem State.rd_setFld_other (s : State) {r r' : Reg} (f : Fld) (x : Nat) (h : r' ≠ r) :
    (s.setFld r f x).rd r' = s.rd r' := State.rd_wr_other s _ h

theorem State.rd_setFlds_other (s : State) {r r' : Reg} (fs : List (Fld × Nat)) (h : r' ≠ r) :
    (s.setFlds r fs).rd r' = s.rd r' := State.rd_wr_other s _ h

@[simp] theorem State.rd_setFld_same (s : State) (r : Reg) (f : Fld) (x : Nat) :
    (s.setFld r f x).rd r = f.put (s.rd r) x := State.rd_wr_same ..

/-- A field just written reads as written. -/
theorem State.fld_setFld (s : State) (r : Reg) (f : Fld) (x : Nat) (h : f.lo + f.w ≤ 64) :
    (s.setFld r f x).fld r f = x % 2 ^ f.w := by
  simp only [State.fld, State.rd_setFld_same]; exact Fld.get_put f h _ _

@[simp] theorem State.stall_setStall_same (s : State) (n : Fin 128) (x : Stall) : (s.setStall n x).stall n = x :=
  AMap.get_set_same _ n x s.stalls

theorem State.stall_setStall_other (s : State) {n m : Fin 128} (x : Stall) (h : m ≠ n) :
    (s.setStall n x).stall m = s.stall m := AMap.get_set_other _ x s.stalls h

@[simp] theorem State.stall_modStall_same (s : State) (n : Fin 128) (f : Stall → Stall) :
    (s.modStall n f).stall n = f (s.stall n) := State.stall_setStall_same ..

theorem State.stall_modStall_other (s : State) {n m : Fin 128} (f : Stall → Stall) (h : m ≠ n) :
    (s.modStall n f).stall m = s.stall m := State.stall_setStall_other s _ h

@[simp] theorem State.rd_setStall (s : State) (n : Fin 128) (x : Stall) (r : Reg) : (s.setStall n x).rd r = s.rd r := rfl
@[simp] theorem State.rd_modStall (s : State) (n : Fin 128) (f : Stall → Stall) (r : Reg) :
    (s.modStall n f).rd r = s.rd r := rfl
@[simp] theorem State.stall_wr (s : State) (r : Reg) (v : BitVec 64) (n : Fin 128) : (s.wr r v).stall n = s.stall n := rfl

end Sys2Proof.Machine
end

