-- ==== Sys2Proof/Laws/Ops.lean ====
section
/-!
SUPPORT. What the shared operations of Ops can do, each said once: the trace unit, counters, and the issue and retirement of
instructions.
-/
namespace Sys2Proof

open Machine

/-! ### The trace unit -/

theorem DiagOnly.refl (s : State) : DiagOnly s s := ⟨[], by simp, by simp⟩

theorem DiagOnly.of_eq {s t : State} (h : t.outQ = s.outQ) : DiagOnly s t := ⟨[], by simp [h], by simp⟩

theorem DiagOnly.trans {s t u : State} (h : DiagOnly s t) (k : DiagOnly t u) : DiagOnly s u := by
  obtain ⟨xs, hx, dx⟩ := h
  obtain ⟨ys, hy, dy⟩ := k
  exact ⟨xs ++ ys, by rw [hy, hx, List.append_assoc], fun x hxy => (List.mem_append.mp hxy).elim (dx x) (dy x)⟩

theorem Traced.refl (s : State) : Traced s s :=
  ⟨rfl, fun _ _ => rfl, fun _ _ => rfl, .refl s, fun _ _ => rfl, Nat.le_refl _⟩

theorem State.fld_congr {s t : State} {r : Reg} (f : Fld) (h : t.rd r = s.rd r) : t.fld r f = s.fld r f := by
  simp [State.fld, h]

theorem State.flag_congr {s t : State} {r : Reg} (f : Fld) (h : t.rd r = s.rd r) : t.flag r f = s.flag r f := by
  simp [State.flag, State.fld_congr f h]

theorem inRing_congr {s t : State} (hr : ∀ r, traceReg r = false → t.rd r = s.rd r) (ht : ringTop t ≤ ringTop s)
    {a : Nat} (h : inRing t a) : inRing s a := by
  obtain ⟨h1, h2, h3⟩ := h
  have e1 := State.flag_congr (s := s) (t := t) F.dbgTraceCtrl_SPILL (hr .dbgTraceCtrl rfl)
  have e2 := State.fld_congr (s := s) (t := t) F.dbgTraceSpill_BASE (hr .dbgTraceSpill rfl)
  refine ⟨by rw [← e1]; exact h1, by rw [← e2]; exact h2, ?_⟩
  rw [← e2]; omega

theorem Traced.trans {s t u : State} (h : Traced s t) (k : Traced t u) : Traced s u where
  rest := by rw [k.rest, h.rest]
  regs r hr := by rw [k.regs r hr, h.regs r hr]
  aon i hi := by rw [k.aon i hi, h.aon i hi]
  out := h.out.trans k.out
  mem a ha := by rw [k.mem a fun hi => ha (inRing_congr h.regs h.top hi), h.mem a ha]
  top := Nat.le_trans k.top h.top

theorem traceCap_congr {s t : State} (h1 : t.rd .dbgTraceCtrl = s.rd .dbgTraceCtrl)
    (h2 : t.rd .dbgTraceSpill = s.rd .dbgTraceSpill) : t.traceCap = s.traceCap := by
  simp [State.traceCap, State.flag_congr _ h1, State.fld_congr _ h2]

/-- A change of fields that the trace unit may change, with the write index left as it was, is traced. -/
theorem Traced.of_regs {s t : State}
    (rest : t = { s with regs := t.regs, aonDie := t.aonDie, outQ := t.outQ, trace := t.trace, memReqs := t.memReqs })
    (regs : ∀ r, traceReg r = false → t.rd r = s.rd r)
    (aon : ∀ i, sideAon i = false → AMap.get 0 i t.aonDie = AMap.get 0 i s.aonDie)
    (out : DiagOnly s t)
    (idx : t.fld .dbgTraceStatus F.dbgTraceStatus_WRITE_IDX = s.fld .dbgTraceStatus F.dbgTraceStatus_WRITE_IDX) :
    Traced s t where
  rest := by rw [rest]
  regs := regs
  aon := aon
  out := out
  mem a _ := by rw [rest]
  top := by
    simp only [ringTop, idx]
    rw [traceCap_congr (regs _ rfl) (regs _ rfl)]

theorem aonAdd_eq (s : State) (i n : Nat) : s.aonAdd i n = { s with aonDie := (s.aonAdd i n).aonDie } := by
  unfold State.aonAdd; split <;> rfl

theorem aonAdd_rd (s : State) (i n : Nat) (r : Reg) : (s.aonAdd i n).rd r = s.rd r := by
  rw [aonAdd_eq]; rfl

theorem aonAdd_get (s : State) {i j : Nat} (n : Nat) (h : j ≠ i) :
    AMap.get 0 j (s.aonAdd i n).aonDie = AMap.get 0 j s.aonDie := by
  unfold State.aonAdd
  split
  · rfl
  · exact AMap.get_set_other _ _ _ h

theorem aonAdd_out (s : State) (i n : Nat) : (s.aonAdd i n).outQ = s.outQ := by rw [aonAdd_eq]

theorem aonAdd_traced (s : State) (i n : Nat) (h : sideAon i = true) : Traced s (s.aonAdd i n) :=
  .of_regs (by rw [aonAdd_eq]) (fun r _ => aonAdd_rd ..) (fun j hj => aonAdd_get s n (by rintro rfl; simp [h] at hj))
    (.of_eq (aonAdd_out ..)) (by simp only [State.fld, aonAdd_rd])

theorem wr_traced (s : State) {r : Reg} (v : BitVec 64) (h : traceReg r = true) (n : r ≠ .dbgTraceStatus) :
    Traced s (s.wr r v) :=
  .of_regs rfl (fun r' hr' => State.rd_wr_other s v (by rintro rfl; simp [h] at hr'))
    (fun _ _ => rfl) (.of_eq rfl) (by simp only [State.fld]; rw [State.rd_wr_other s v (Ne.symm n)])

/-- The words of a logbook record (R411, R412). -/
theorem logPut_traced (s : State) (unit : Fin 1024) (seq w0 w1 data w3 : Nat) :
    Traced s (s.logPut unit seq w0 w1 data w3) := by
  simp only [State.logPut]
  refine Traced.trans ?_ (wr_traced _ _ rfl (by simp))
  refine Traced.trans ?_ (wr_traced _ _ rfl (by simp))
  refine Traced.trans ?_ (wr_traced _ _ rfl (by simp))
  exact wr_traced _ _ rfl (by simp)

theorem logOpen_traced (unit : Fin 1024) (w0 w1 k : Nat) (s : State) (seq : Nat) :
    Traced s (s.logOpen unit w0 w1 k seq).1 := by
  induction k generalizing s seq with
  | zero => exact .refl s
  | succ k ih =>
    simp only [State.logOpen]
    split
    · exact (logPut_traced s ..).trans (ih _ _)
    · exact .refl s

/-- A logbook record of a unit other than the porter (R411, R412). -/
theorem log_traced (s : State) {unit : Fin 1024} (event ctx : Nat) (data : List Byte) (h : unit ≠ 0x3FF) :
    Traced s (s.log unit event ctx data) := by
  simp only [State.log]
  rw [if_neg h]
  refine Traced.trans ?_ (aonAdd_traced _ _ _ rfl)
  refine Traced.trans ?_ (wr_traced _ _ rfl (by simp))
  exact (logOpen_traced ..).trans (logPut_traced ..)

theorem ringTop_congr {s t : State} (h1 : t.rd .dbgTraceCtrl = s.rd .dbgTraceCtrl)
    (h2 : t.rd .dbgTraceSpill = s.rd .dbgTraceSpill) (h3 : t.rd .dbgTraceStatus = s.rd .dbgTraceStatus) :
    ringTop t = ringTop s := by
  simp only [ringTop]
  rw [traceCap_congr h1 h2, State.fld_congr _ h3]

/-- The memory after one trace record of index `i` written to the spill region. -/
theorem memTrace_traced (s : State) (rec : List Byte) (hs : s.flag .dbgTraceCtrl F.dbgTraceCtrl_SPILL = true)
    (m : List Host.Cell) (hm : m = (List.range 32).foldl (fun m k =>
      Memory.write m (s.fld .dbgTraceSpill F.dbgTraceSpill_BASE * 2 ^ 30 +
        32 * s.fld .dbgTraceStatus F.dbgTraceStatus_WRITE_IDX + k) (rec.getD k 0)) s.mem) :
    Traced s { s with mem := m } where
  rest := rfl
  regs _ _ := rfl
  aon _ _ := rfl
  out := .of_eq rfl
  mem a ha := by
    have := Memory.read_writes_other (fun k => s.fld .dbgTraceSpill F.dbgTraceSpill_BASE * 2 ^ 30 +
        32 * s.fld .dbgTraceStatus F.dbgTraceStatus_WRITE_IDX + k) (fun k => rec.getD k 0) (List.range 32) s.mem (b := a) ?_
    · rw [← this, hm]
    intro k hk e
    refine ha ⟨hs, by omega, ?_⟩
    have hk := List.mem_range.mp hk
    simp only [ringTop]
    omega
  top := Nat.le_of_eq (ringTop_congr rfl rfl rfl)

/-- A write of the trace's write index: it stays within the ring. -/
theorem setIdx_traced (s : State) (x : Nat)
    (hx : x < max s.traceCap (s.fld .dbgTraceStatus F.dbgTraceStatus_WRITE_IDX + 1)) :
    Traced s (s.setFld .dbgTraceStatus F.dbgTraceStatus_WRITE_IDX x) where
  rest := rfl
  regs r hr := State.rd_setFld_other s _ _ (by rintro rfl; cases hr)
  aon _ _ := rfl
  out := .of_eq rfl
  mem _ _ := rfl
  top := by
    simp only [ringTop]
    rw [traceCap_congr (s := s) (State.rd_setFld_other s _ _ (by simp)) (State.rd_setFld_other s _ _ (by simp)),
      State.fld_setFld _ _ _ _ (by decide)]
    have : x % 2 ^ F.dbgTraceStatus_WRITE_IDX.w ≤ x := Nat.mod_le _ _
    omega

theorem tracePut_traced (s : State) (rec : List Byte) : Traced s (s.tracePut rec) := by
  simp only [State.tracePut]
  refine Traced.trans ?_ (aonAdd_traced _ _ _ rfl)
  split
  · rename_i hs
    refine Traced.trans ((memTrace_traced s rec hs _ rfl).trans (aonAdd_traced _ 92 1 rfl)) (setIdx_traced _ _ ?_)
    split
    · exact Nat.lt_of_lt_of_le (Nat.succ_pos _) (Nat.le_max_right ..)
    · exact Nat.lt_of_lt_of_le (by omega) (Nat.le_max_left ..)
  · have w : ∀ (t : State) (r : Reg) (v : BitVec 64), traceReg r = true → r ≠ .dbgTraceStatus → Traced s t →
        t.rd .dbgTraceStatus = s.rd .dbgTraceStatus →
        Traced s (t.wr r v) ∧ (t.wr r v).rd .dbgTraceStatus = s.rd .dbgTraceStatus :=
      fun t r v h n ht e => ⟨ht.trans (wr_traced t v h n), by rw [State.rd_wr_other t v (Ne.symm n), e]⟩
    obtain ⟨a, ea⟩ := w s (.dbgTraceBuf (Fin.ofNat 2097152 (s.fld .dbgTraceStatus F.dbgTraceStatus_WRITE_IDX)) 0)
      (BitVec.ofNat 64 (natAt rec 0 8)) rfl (by simp) (.refl s) rfl
    obtain ⟨b, eb⟩ := w _ (.dbgTraceBuf (Fin.ofNat 2097152 (s.fld .dbgTraceStatus F.dbgTraceStatus_WRITE_IDX)) 1)
      (BitVec.ofNat 64 (natAt rec 8 8)) rfl (by simp) a ea
    obtain ⟨c, ec⟩ := w _ (.dbgTraceBuf (Fin.ofNat 2097152 (s.fld .dbgTraceStatus F.dbgTraceStatus_WRITE_IDX)) 2)
      (BitVec.ofNat 64 (natAt rec 16 8)) rfl (by simp) b eb
    obtain ⟨d, ed⟩ := w _ (.dbgTraceBuf (Fin.ofNat 2097152 (s.fld .dbgTraceStatus F.dbgTraceStatus_WRITE_IDX)) 3)
      (BitVec.ofNat 64 (natAt rec 24 8)) rfl (by simp) c ec
    refine d.trans (setIdx_traced _ _ ?_)
    rw [State.fld_congr _ ed]
    split
    · exact Nat.lt_of_lt_of_le (Nat.succ_pos _) (Nat.le_max_right ..)
    · exact Nat.lt_of_lt_of_le (by omega) (Nat.le_max_left ..)

/-- ARMED and TRIG_IDX at a trigger (R420). -/
theorem trigStatus_traced (s : State) (i : Nat) :
    Traced s (s.setFlds .dbgTraceStatus [(F.dbgTraceStatus_ARMED, 0), (F.dbgTraceStatus_TRIG_IDX, i)]) := by
  refine .of_regs rfl (fun r hr => State.rd_setFlds_other _ _ (by rintro rfl; cases hr)) (fun _ _ => rfl) (.of_eq rfl) ?_
  simp only [State.fld, State.setFlds, State.rd_wr_same, List.foldl]
  rw [Fld.get_put_below _ _ (by decide) (by decide), Fld.get_put_below _ _ (by decide) (by decide)]

/-- A count in a register that the trace unit may count in, with its always-on counter. -/
theorem bump_traced (s : State) {r : Reg} (k : Nat) (h : traceReg r = true) (n : r ≠ .dbgTraceStatus)
    (a : ∀ i, r.aon = some i → sideAon i = true) : Traced s (s.bump r k) := by
  simp only [State.bump]
  split
  · exact (wr_traced s _ h n).trans (aonAdd_traced _ _ _ (a _ ‹_›))
  · exact wr_traced s _ h n

theorem foldl_traced {α : Type} (f : State → α → State) (hf : ∀ s a, Traced s (f s a)) (xs : List α) (s : State) :
    Traced s (xs.foldl f s) := by
  induction xs generalizing s with
  | nil => exact .refl s
  | cons x xs ih => exact (hf s x).trans (ih _)

/-- The trace unit's own working state. -/
theorem trace_traced (s : State) (x : Trace) : Traced s { s with trace := x } :=
  .of_regs rfl (fun _ _ => rfl) (fun _ _ => rfl) (.of_eq rfl) rfl

/-- The source of a trigger's record, written anew within the ring (R420). -/
theorem trigData_traced (s : State) (source : Nat) : Traced s (s.trigData source) := by
  simp only [State.trigData]
  split
  · exact .refl s
  split
  · rename_i hc hs
    refine { rest := rfl, regs := fun _ _ => rfl, aon := fun _ _ => rfl, out := .of_eq rfl, mem := fun a ha => ?_,
             top := Nat.le_of_eq (ringTop_congr rfl rfl rfl) }
    refine Memory.read_writes_other (fun k => _ + k) (fun k => (toBytes 4 source).getD k 0) (List.range 4) s.mem ?_
    intro k hk e
    have hk := List.mem_range.mp hk
    have := Nat.le_max_left s.traceCap (s.fld .dbgTraceStatus F.dbgTraceStatus_WRITE_IDX + 1)
    refine ha ⟨hs, by omega, ?_⟩
    simp only [ringTop]
    omega
  · exact wr_traced _ _ rfl (by simp)

theorem trigLog_traced (s : State) (source : Nat) : Traced s (s.trigLog source) := by
  simp only [State.trigLog]
  split
  · exact .refl s
  · exact wr_traced _ _ rfl (by simp)

/-- A trigger that counts as one with the trigger just taken (R420). -/
theorem trigMerge_traced (s : State) (source : Nat) : Traced s (s.trigMerge source) := by
  simp only [State.trigMerge]
  split
  · exact .refl s
  · exact ((trace_traced s _).trans (trigData_traced _ _)).trans (trigLog_traced _ _)

/-- A trigger, of a unit other than the porter (R420). -/
theorem traceTrigger_traced (s : State) {unit : Fin 1024} (source : Nat) (stamp : List Byte) (remote : Option TrigOrigin)
    (h : unit ≠ 0x3FF) : Traced s (s.traceTrigger unit source stamp remote) := by
  simp only [State.traceTrigger]
  split
  · split
    · exact trigMerge_traced s _
    · exact aonAdd_traced _ _ _ rfl
  split
  · exact .refl s
  refine Traced.trans ?_ (log_traced _ _ _ _ h)
  have q : ∀ (t : State) (xs : List OutLetter), (∀ x ∈ xs, x.lt.cls = .diag) → Traced t { t with outQ := t.outQ ++ xs } :=
    fun t xs hx => .of_regs rfl (fun _ _ => rfl) (fun _ _ => rfl) ⟨xs, rfl, hx⟩ rfl
  refine Traced.trans ?_ (q _ _ fun x hx => by
    obtain ⟨p, _, rfl⟩ := List.mem_map.mp hx; rfl)
  refine Traced.trans ?_ (foldl_traced _ (fun t p => bump_traced t 1 rfl (by simp) fun i hi => ?_) _ _)
  · refine Traced.trans ?_ (aonAdd_traced _ _ _ rfl)
    exact Traced.trans ((tracePut_traced s _).trans (trigStatus_traced _ _)) (trace_traced _ _)
  · obtain rfl := Option.some.inj hi
    revert p; decide

/-- A record enters the ring (R416, R420). -/
theorem ringIn_traced (s : State) {unit : Fin 1024} (rec : List Byte) (h : unit ≠ 0x3FF) : Traced s (s.ringIn unit rec) := by
  simp only [State.ringIn]
  split
  · exact .refl s
  have a : ∀ t : State, Traced s t → Traced s (match t.trace.post with
      | some (n + 1) => { t with trace := { t.trace with post := some n } }
      | _ => t) := by
    intro t ht
    split
    · exact ht.trans (trace_traced _ _)
    · exact ht
  split
  · exact (a _ (tracePut_traced s _)).trans (traceTrigger_traced _ _ _ _ h)
  · exact a _ (tracePut_traced s _)

/-- The trace network takes records of a source (R415). -/
theorem traceTake_traced (n : Nat) (s : State) {unit : Fin 1024} (h : unit ≠ 0x3FF) : Traced s (s.traceTake unit n) := by
  induction n generalizing s with
  | zero => exact .refl s
  | succ n ih =>
    simp only [State.traceTake]
    split
    · exact .refl s
    · exact ((trace_traced s _).trans (ringIn_traced _ _ h)).trans (ih _)

theorem traceMarkDrops_traced (s : State) (unit : Fin 1024) : Traced s (s.traceMarkDrops unit) := by
  simp only [State.traceMarkDrops]
  split
  · exact .refl s
  split
  · exact .refl s
  · exact (trace_traced s _).trans (trace_traced _ _)

theorem traceEmpty_traced (s : State) {unit : Fin 1024} (h : unit ≠ 0x3FF) : Traced s (s.traceEmpty unit) := by
  simp only [State.traceEmpty]
  exact ((traceTake_traced _ s h).trans (traceMarkDrops_traced _ _)).trans (traceTake_traced _ _ h)

/-- A host or a remote trigger (R420). -/
theorem trigger_traced (s : State) {unit : Fin 1024} (source : Nat) (remote : Option TrigOrigin) (h : unit ≠ 0x3FF) :
    Traced s (s.trigger unit source remote) := by
  simp only [State.trigger]
  split
  · exact (traceEmpty_traced s h).trans (traceTrigger_traced _ _ _ _ h)
  · exact traceTrigger_traced _ _ _ _ h

theorem traceServe_traced (s : State) {unit : Fin 1024} (h : unit ≠ 0x3FF) : Traced s (s.traceServe unit) :=
  ((trace_traced s _).trans (traceTake_traced _ _ h)).trans (traceMarkDrops_traced _ _)

theorem traceQueue_traced (s : State) {unit : Fin 1024} (rec : List Byte) (h : unit ≠ 0x3FF) :
    Traced s (s.traceQueue unit rec) := by
  simp only [State.traceQueue]
  split
  · exact trace_traced s _
  split
  · exact (((traceTake_traced 1 s h).trans (traceMarkDrops_traced _ _)).trans (traceTake_traced _ _ h)).trans (trace_traced _ _)
  · exact (trace_traced s _).trans (aonAdd_traced _ _ _ rfl)

/-- A source emits a trace record, or does not (R415, R417, R419, R420). -/
theorem emit_traced (s : State) {unit : Fin 1024} (kind ctx data0 : Nat) (data1 : List Byte) (h : unit ≠ 0x3FF) :
    Traced s (s.emit unit kind ctx data0 data1) := by
  simp only [State.emit]
  split
  · exact .refl s
  · exact (traceQueue_traced s _ h).trans (traceServe_traced _ h)

theorem stallUnit_ne (n : Fin 128) (k : Fin 4) : stallUnit n k ≠ 0x3FF := by
  intro e
  have := congrArg Fin.val e
  simp [stallUnit] at this
  omega

theorem Traced.stall {s t : State} (h : Traced s t) (n : Fin 128) : t.stall n = s.stall n := by
  rw [h.rest]; rfl

theorem Traced.franking {s t : State} (h : Traced s t) : t.franking = s.franking := by rw [h.rest]

theorem Traced.frankNs {s t : State} (h : Traced s t) : t.frankNs = s.frankNs := by rw [h.rest]; rfl

theorem Traced.only {s t : State} (h : Traced s t) (n : Fin 128) (R : Reg → Prop) (W : Nat → Prop) : OnlyStall n R W s t where
  rest := by rw [h.rest]
  stalls m _ := h.stall m
  regs r hr _ := h.regs r hr
  aon i hi _ := h.aon i hi
  out := h.out
  mem a ha _ := h.mem a ha
  races c hc := .inl ⟨c, by rw [h.rest] at hc; exact hc, rfl⟩
  top := h.top

/-! ### Frames of one stall -/

theorem OnlyStall.refl (n : Fin 128) (R : Reg → Prop) (W : Nat → Prop) (s : State) : OnlyStall n R W s s :=
  (Traced.refl s).only n R W

theorem OnlyStall.mono {n : Fin 128} {R R' : Reg → Prop} {W W' : Nat → Prop} {s t : State} (h : OnlyStall n R W s t)
    (hr : ∀ r, R r → R' r) (hw : ∀ a, W a → W' a) : OnlyStall n R' W' s t :=
  { h with regs := fun r a b => h.regs r a fun c => b (hr r c), aon := fun i a b => h.aon i a fun r c => b r (hr r c),
           mem := fun a b c => h.mem a b fun d => c (hw a d), races := fun c i => (h.races c i).imp id fun ⟨a, e, w⟩ => ⟨a, e, hw a w⟩ }

theorem OnlyStall.trans {n : Fin 128} {R : Reg → Prop} {W : Nat → Prop} (h1 : ¬ R .dbgTraceCtrl)
    (h2 : ¬ R .dbgTraceSpill) {s t u : State} (h : OnlyStall n R W s t) (k : OnlyStall n R W t u) :
    OnlyStall n R W s u where
  rest := by rw [k.rest, h.rest]
  stalls m hm := by rw [k.stalls m hm, h.stalls m hm]
  regs r hr hn := by rw [k.regs r hr hn, h.regs r hr hn]
  aon i hi hn := by rw [k.aon i hi hn, h.aon i hi hn]
  out := h.out.trans k.out
  mem a ha hw := by
    rw [k.mem a (fun hi => ha ?_) hw, h.mem a ha hw]
    obtain ⟨i1, i2, i3⟩ := hi
    have e1 := State.flag_congr (s := s) (t := t) F.dbgTraceCtrl_SPILL (h.regs .dbgTraceCtrl rfl h1)
    have e2 := State.fld_congr (s := s) (t := t) F.dbgTraceSpill_BASE (h.regs .dbgTraceSpill rfl h2)
    have := h.top
    exact ⟨by rw [← e1]; exact i1, by rw [← e2]; exact i2, by rw [← e2]; omega⟩
  races c hc := (k.races c hc).elim (fun ⟨d, hd, e⟩ => by
    obtain ⟨d', hd', e'⟩ | ⟨a, ea, wa⟩ := h.races d hd
    · exact .inl ⟨d', hd', e'.trans e⟩
    · exact .inr ⟨a, ea.trans e, wa⟩) .inr
  top := Nat.le_trans k.top h.top

theorem modStall_only (s : State) (n : Fin 128) (R : Reg → Prop) (W : Nat → Prop) (f : Stall → Stall) :
    OnlyStall n R W s (s.modStall n f) where
  rest := rfl
  stalls _ hm := State.stall_modStall_other s f hm
  regs _ _ _ := rfl
  aon _ _ _ := rfl
  out := .of_eq rfl
  mem _ _ _ := rfl
  races c hc := .inl ⟨c, hc, rfl⟩
  top := Nat.le_of_eq (ringTop_congr rfl rfl rfl)

theorem wr_only (s : State) (n : Fin 128) (R : Reg → Prop) (W : Nat → Prop) {r : Reg} (v : BitVec 64) (h : R r)
    (h1 : r ≠ .dbgTraceCtrl) (h2 : r ≠ .dbgTraceSpill) (h3 : r ≠ .dbgTraceStatus) : OnlyStall n R W s (s.wr r v) where
  rest := rfl
  stalls _ _ := rfl
  regs r' _ hn := State.rd_wr_other s v (by rintro rfl; exact hn h)
  aon _ _ _ := rfl
  out := .of_eq rfl
  mem _ _ _ := rfl
  races c hc := .inl ⟨c, hc, rfl⟩
  top := Nat.le_of_eq (ringTop_congr (State.rd_wr_other s v (Ne.symm h1)) (State.rd_wr_other s v (Ne.symm h2))
    (State.rd_wr_other s v (Ne.symm h3)))

theorem aonAdd_only (s : State) (n : Fin 128) (R : Reg → Prop) (W : Nat → Prop) {r : Reg} {i : Nat} (k : Nat) (h : R r)
    (hi : r.aon = some i) : OnlyStall n R W s (s.aonAdd i k) where
  rest := by rw [aonAdd_eq]
  stalls m _ := by rw [aonAdd_eq]; rfl
  regs r _ _ := aonAdd_rd ..
  aon j _ hj := aonAdd_get s k fun e => hj r h (by rw [hi, e])
  out := .of_eq (aonAdd_out ..)
  mem _ _ _ := by rw [aonAdd_eq]
  races c hc := .inl ⟨c, by rw [aonAdd_eq] at hc; exact hc, rfl⟩
  top := Nat.le_of_eq (ringTop_congr (aonAdd_rd ..) (aonAdd_rd ..) (aonAdd_rd ..))

/-- An event counted in a counter register (R43, R44). -/
theorem bump_only (s : State) (n : Fin 128) (R : Reg → Prop) (W : Nat → Prop) {r : Reg} (k : Nat) (h : R r)
    (h1 : r ≠ .dbgTraceCtrl) (h2 : r ≠ .dbgTraceSpill) (h3 : r ≠ .dbgTraceStatus) (h4 : ¬ R .dbgTraceCtrl)
    (h5 : ¬ R .dbgTraceSpill) : OnlyStall n R W s (s.bump r k) := by
  have a := wr_only s n R W (F.COUNT.put (s.rd r) (satAdd (2 ^ 48 - 1) (s.fld r F.COUNT) k)) h h1 h2 h3
  simp only [State.bump]
  split
  · rename_i i hi
    refine OnlyStall.trans h4 h5 a ?_
    exact aonAdd_only _ n R W k h hi
  · exact a

theorem bump_count (s : State) (r : Reg) (k : Nat) (h : s.fld r F.COUNT < 2 ^ 48) :
    (s.bump r k).fld r F.COUNT = min (2 ^ 48 - 1) (s.fld r F.COUNT + k) := by
  have a : ((s.setFld r F.COUNT (satAdd (2 ^ 48 - 1) (s.fld r F.COUNT) k)).fld r F.COUNT) =
      min (2 ^ 48 - 1) (s.fld r F.COUNT + k) := by
    rw [State.fld_setFld _ _ _ _ (by decide)]
    simp only [satAdd]
    exact Nat.mod_eq_of_lt (by have : 2 ^ F.COUNT.w = 2 ^ 48 := rfl; omega)
  simp only [State.bump]
  split
  · simp only [State.fld, aonAdd_rd] at a ⊢; exact a
  · exact a

/-- That results are undefined in value changes nothing yet but what is known of the instructions in flight (R16). -/
theorem undefine_only (s : State) (x : Actor) (n : Fin 128) (R : Reg → Prop) (W : Nat → Prop) : OnlyStall n R W s (s.undefine x) where
  rest := rfl
  stalls _ _ := rfl
  regs _ _ _ := rfl
  aon _ _ _ := rfl
  out := .of_eq rfl
  mem _ _ _ := rfl
  races c hc := by
    obtain ⟨d, hd, rfl⟩ := List.mem_map.mp hc
    exact .inl ⟨d, hd, rfl⟩
  top := Nat.le_of_eq (ringTop_congr rfl rfl rfl)

@[simp] theorem undefine_stalls (s : State) (x : Actor) : (s.undefine x).stalls = s.stalls := rfl

/-- A number of results become undefined in value, one after another. -/
theorem undefineAll_only (fs : List Flight) (p : State → Flight → Bool) (y : Flight → Actor) (s : State) (n : Fin 128) (R : Reg → Prop)
    (W : Nat → Prop) (h1 : ¬ R .dbgTraceCtrl) (h2 : ¬ R .dbgTraceSpill) :
    OnlyStall n R W s (fs.foldl (fun s g => if p s g then s.undefine (y g) else s) s) ∧
      (fs.foldl (fun s g => if p s g then s.undefine (y g) else s) s).stalls = s.stalls := by
  induction fs generalizing s with
  | nil => exact ⟨.refl n R W s, rfl⟩
  | cons g fs ih =>
    simp only [List.foldl_cons]
    split
    · exact ⟨.trans h1 h2 (undefine_only s (y g) n R W) (ih _).1, (ih _).2⟩
    · exact ih s

theorem spread_only (s : State) (m n : Fin 128) (R : Reg → Prop) (W : Nat → Prop) (h1 : ¬ R .dbgTraceCtrl)
    (h2 : ¬ R .dbgTraceSpill) : OnlyStall n R W s (s.spread m) := by
  unfold State.spread
  split
  · exact .refl n R W s
  · exact (undefineAll_only _ _ _ s n R W h1 h2).1

@[simp] theorem spread_stalls (s : State) (m : Fin 128) : (s.spread m).stalls = s.stalls := by
  unfold State.spread
  split
  · rfl
  · exact (undefineAll_only _ (fun s g => !s.underway.undef.contains (g.actor m) &&
      (s.stall m).flights.any fun f => s.underway.undef.contains (f.actor m) && g.follows f) (fun g => g.actor m) s m noReg noByte id id).2

@[simp] theorem spread_stall (s : State) (m n : Fin 128) : (s.spread m).stall n = s.stall n := by
  simp only [State.stall, spread_stalls]

/-! ### Issue and retirement -/

/-- An effect that touches no memory is no access. -/
@[simp] theorem acting_none {α : Type} (s : State) (x : Actor) (f : State → State × α) : s.acting x .none f = f s := rfl

/-- An effect on one stall's registers alone is that effect, whoever has it. -/
theorem acting_modStall {α : Type} (s : State) (x : Actor) (u : Uses) (f : State → State × α) (n : Fin 128)
    (g : Stall → Stall) (q : α) (h : ∀ y : State, y.stalls = s.stalls → f y = (y.modStall n g, q)) :
    s.acting x u f = (s.modStall n g, q) := by
  unfold State.acting
  split
  · exact h s rfl
  · simp only [h { s with actor := some x, refusing := some [] } rfl]; rfl

theorem issued_stall (s : State) (n : Fin 128) (k : Fin 4) : (s.issued n k).stall n = Passed (s.stall n) := by
  simp only [State.issued, State.stall_modStall_same, Passed]
  rw [(emit_traced s _ _ _ _ (stallUnit_ne n k)).stall]

theorem issued_only (s : State) (n : Fin 128) (k : Fin 4) (R : Reg → Prop) (W : Nat → Prop)
    (h1 : ¬ R .dbgTraceCtrl) (h2 : ¬ R .dbgTraceSpill) : OnlyStall n R W s (s.issued n k) := by
  simp only [State.issued]
  exact OnlyStall.trans h1 h2 ((emit_traced s _ _ _ _ (stallUnit_ne n k)).only n R W) (modStall_only _ n R W _)

theorem issued_franking (s : State) (n : Fin 128) (k : Fin 4) : (s.issued n k).frankNs = s.frankNs := by
  rw [(issued_only s n k noReg noByte id id).rest]; rfl

theorem retire_stall (s : State) (n : Fin 128) (k : Fin 4) (ten : Bool) (tc : CReg) (pc : BitVec 17) (st : Status) :
    (s.retire n k ten tc pc st).stall n = { (s.stall n).tally ten tc with lastRetire := s.frankNs } := by
  simp only [State.retire]
  rw [(emit_traced _ _ _ _ _ (stallUnit_ne n k)).stall]
  have b : ∀ (t : State) (r : Reg) (x : Nat), (t.bump r x).stall n = t.stall n := by
    intro t r x
    simp only [State.bump]
    split
    · rw [aonAdd_eq]; rfl
    · rfl
  rw [b, State.stall_modStall_same]

theorem retire_only (s : State) (n : Fin 128) (k : Fin 4) (ten : Bool) (tc : CReg) (pc : BitVec 17) (st : Status) (R : Reg → Prop)
    (W : Nat → Prop) (h : R (.stlSeqRetired n)) (h1 : ¬ R .dbgTraceCtrl) (h2 : ¬ R .dbgTraceSpill) :
    OnlyStall n R W s (s.retire n k ten tc pc st) := by
  simp only [State.retire]
  refine OnlyStall.trans h1 h2 ?_ ((emit_traced _ _ _ _ _ (stallUnit_ne n k)).only n R W)
  refine OnlyStall.trans h1 h2 ?_ (bump_only _ n R W 1 h (by simp) (by simp) (by simp) h1 h2)
  exact modStall_only s n R W _

theorem retire_count (s : State) (n : Fin 128) (k : Fin 4) (ten : Bool) (tc : CReg) (pc : BitVec 17) (st : Status) :
    (s.retire n k ten tc pc st).fld (.stlSeqRetired n) F.COUNT = min (2 ^ 48 - 1) (s.fld (.stlSeqRetired n) F.COUNT + 1) := by
  simp only [State.retire]
  rw [State.fld_congr _ ((emit_traced _ _ _ _ _ (stallUnit_ne n k)).regs (.stlSeqRetired n) rfl)]
  rw [bump_count _ _ _ (Fld.get_lt _ _)]
  rfl

/-- An instruction of the sequencer whose effect is on its stall's registers alone: when it may issue, it retires, with that
effect if its guard is true (R125, R127, R128). -/
theorem seqRegs_next (s : State) (h : Hdr) (f : Stall → Stall) (c : s.canIssue h.stall .none = true) :
    ∃ t, s.seqRegs h f = .next t ∧
      Retired s t h (if (stallOf s h).guard h then f (Passed (stallOf s h)) else Passed (stallOf s h)) noReg noByte := by
  refine ⟨(if (s.stall h.stall).guard h = true then (s.issued h.stall 0).modStall h.stall f
    else s.issued h.stall 0).retire h.stall 0 h.ten h.tc (s.stall h.stall).pc, by simp only [State.seqRegs, State.sequencer, c, if_true, acting_none], ?_⟩
  rw [show stallOf s h = s.stall h.stall from rfl]
  have hf : ∀ x : State, x.frankNs = s.frankNs → OnlyStall h.stall noReg noByte s x →
      ∀ st, x.stall h.stall = st → Retired s (x.retire h.stall 0 h.ten h.tc (s.stall h.stall).pc) h st noReg noByte := by
    rintro x e o st rfl
    refine ⟨by rw [retire_stall, e], ?_, OnlyStall.trans (by simp [noReg]) (by simp [noReg]) (o.mono (fun _ => False.elim) fun _ => id)
      (retire_only x h.stall 0 h.ten h.tc _ _ _ _ (.inl rfl) (by simp [noReg]) (by simp [noReg]))⟩
    rw [retire_count, State.fld_congr F.COUNT (o.regs _ rfl id)]
  split
  · refine hf _ ?_ ?_ _ ?_
    · exact issued_franking ..
    · exact OnlyStall.trans id id (issued_only _ _ _ _ _ id id) (modStall_only _ _ _ _ _)
    · rw [State.stall_modStall_same, issued_stall]
  · exact hf _ (issued_franking ..) (issued_only _ _ _ _ _ id id) _ (issued_stall ..)

theorem fly_stall (s : State) (n : Fin 128) (r : Flight) :
    (s.fly n r).stall n = { s.stall n with flights := (s.stall n).flights ++ [r], nextSeq := (s.stall n).nextSeq + 1 } :=
  State.stall_modStall_same ..

/-- Whether a unit takes an instruction now (R124, R156). -/
theorem issueWith_next (s : State) (h : Hdr) (unit : StallUnit) (co : Nat × Nat) (u : Uses) (go : Bool)
    (f : State → Flight → State × Flight) (c : s.canIssue h.stall u = true)
    (v : s.unitFree h.stall unit (co.1 = 9) = true) :
    s.issueWith h unit co u go f = .next
      (let x := s.issued h.stall (unitCode unit)
       let r := s.newFlight unit h co
       let p := x.acting (.unit h.stall (some unit) r.seq (co.1 = 9)) u fun s => f s r
       (if go then p.1.fly h.stall p.2 else x.fly h.stall { r with guardOff := true }).spread h.stall) := by
  simp only [State.issueWith, c, v, Bool.and_self, if_true]
  cases go <;> rfl

/-- A unit's instruction whose effect is on its stall's registers alone (R125, R128). -/
theorem issueWith_regs (s : State) (h : Hdr) (unit : StallUnit) (co : Nat × Nat) (u : Uses) (go : Bool)
    (f : State → Flight → State × Flight) (c : s.canIssue h.stall u = true)
    (v : s.unitFree h.stall unit (co.1 = 9) = true)
    (g : Stall → Stall) (gr : Flight → Flight)
    (hf : ∀ x : State, x.stalls = (s.issued h.stall (unitCode unit)).stalls →
      f x (s.newFlight unit h co) = (x.modStall h.stall g, gr (s.newFlight unit h co))) :
    ∃ t, s.issueWith h unit co u go f = .next t ∧
      Issued s t h (if go then g (Passed (stallOf s h)) else Passed (stallOf s h))
        (if go then gr (s.newFlight unit h co)
         else { s.newFlight unit h co with guardOff := true }) noReg noByte := by
  have ha := acting_modStall (s.issued h.stall (unitCode unit))
    (.unit h.stall (some unit) (s.newFlight unit h co).seq (co.1 = 9)) u
    (fun y => f y (s.newFlight unit h co)) h.stall g (gr (s.newFlight unit h co)) hf
  refine ⟨_, issueWith_next s h unit co u go f c v, ?_⟩
  cases go
  · exact ⟨by simp only [Bool.false_eq_true, if_false]; rw [spread_stall, fly_stall, issued_stall]; rfl, by
      simp only [Bool.false_eq_true, if_false]
      exact OnlyStall.trans id id (OnlyStall.trans id id (issued_only _ _ _ _ _ id id) (modStall_only _ _ _ _ _))
        (spread_only _ _ _ _ _ id id)⟩
  · refine ⟨?_, ?_⟩
    · simp only [if_true]; rw [spread_stall, ha, fly_stall, State.stall_modStall_same, issued_stall]; rfl
    · simp only [if_true]; rw [ha]
      exact OnlyStall.trans id id (OnlyStall.trans id id (OnlyStall.trans id id (issued_only _ _ _ _ _ id id)
        (modStall_only _ _ _ _ _)) (modStall_only _ _ _ _ _)) (spread_only _ _ _ _ _ id id)

end Sys2Proof
end

