-- ==== Sys2Proof/Machine/Tap.lean ====
section
/-!
DEFINITION. The IEEE 1149.1 port of the debug header (R439). It tests the porter's own pins, and reaches nothing else. No command of the
table drives it: a clock of it is an operation here, for what drives the header (log entry 124).
-/
namespace Sys2Proof.Machine

/-- The controller's next state, by TMS. -/
def TapPhase.next (p : TapPhase) (tms : Bool) : TapPhase :=
  match p with
  | .reset => if tms then .reset else .idle
  | .idle => if tms then .selectDr else .idle
  | .selectDr => if tms then .selectIr else .captureDr
  | .captureDr => if tms then .exit1Dr else .shiftDr
  | .shiftDr => if tms then .exit1Dr else .shiftDr
  | .exit1Dr => if tms then .updateDr else .pauseDr
  | .pauseDr => if tms then .exit2Dr else .pauseDr
  | .exit2Dr => if tms then .updateDr else .shiftDr
  | .updateDr => if tms then .selectDr else .idle
  | .selectIr => if tms then .reset else .captureIr
  | .captureIr => if tms then .exit1Ir else .shiftIr
  | .shiftIr => if tms then .exit1Ir else .shiftIr
  | .exit1Ir => if tms then .updateIr else .pauseIr
  | .pauseIr => if tms then .exit2Ir else .pauseIr
  | .exit2Ir => if tms then .updateIr else .shiftIr
  | .updateIr => if tms then .selectDr else .idle

/-- The instruction of a code. A code of none is BYPASS, as all ones are. -/
def tapDecode (code : List Bool) : TapInstr :=
  if code = List.replicate Config.tapLength true then .bypass
  else if code = Config.tapExtest then .extest
  else if code = Config.tapSample then .sample
  else .bypass

/-- The bits that a capture loads: one 0 for the bypass register; the pins, for the boundary register; 1, then zeros, for the instruction
register. -/
def Tap.capture (t : Tap) : List Bool :=
  match t.instr with
  | .bypass => [false]
  | _ => (List.range Config.tapCells).map (Config.tapPin t.captures)

/-- One clock of the port, with TMS and TDI: the state that it is in acts, and the controller moves. -/
def Tap.clock (t : Tap) (tms tdi : Bool) : Tap :=
  let acted := match t.phase with
    | .reset => { t with instr := .bypass }
    | .captureDr => { t with shift := t.capture, captures := t.captures + 1 }
    | .captureIr => { t with shift := true :: List.replicate (Config.tapLength - 1) false }
    | .shiftDr => { t with shift := t.shift.drop 1 ++ [tdi] }
    | .shiftIr => { t with shift := t.shift.drop 1 ++ [tdi] }
    | .updateDr => if t.instr = TapInstr.bypass then t else { t with cells := t.shift }
    | .updateIr => { t with instr := tapDecode t.shift }
    | _ => t
  { acted with phase := t.phase.next tms }

/-- TDO, which the port drives only while it shifts. -/
def Tap.tdo (t : Tap) : Option Bool :=
  match t.phase with
  | .shiftDr => t.shift.head?
  | .shiftIr => t.shift.head?
  | _ => none

/-- What the port puts on the porter's pins: nothing but under EXTEST. -/
def Tap.drives (t : Tap) : Option (List Bool) := if t.instr = TapInstr.extest then some t.cells else none

/-- A clock of the debug header's port, which runs from aux power. -/
def State.tapClock (s : State) (tms tdi : Bool) : State := if s.aux then { s with tap := s.tap.clock tms tdi } else s

/-- TRST# of the debug header. -/
def State.tapReset (s : State) : State := { s with tap := { s.tap with phase := .reset, instr := .bypass } }

end Sys2Proof.Machine
end

