-- ==== Sys2Proof/Laws/Tap.lean ====
section
/-!
SUPPORT. What the debug header's IEEE 1149.1 port can do (R439).
-/
namespace Sys2Proof

open Machine

/-- The port gives no access to the die, to firmware or to any register: a clock of it changes the port alone. -/
theorem tapClock_only (s : State) (tms tdi : Bool) : s.tapClock tms tdi = { s with tap := (s.tapClock tms tdi).tap } := by
  unfold State.tapClock
  split <;> rfl

/-- Five clocks with TMS high reset the controller from any state. -/
theorem tap_reset (p : TapPhase) : ((((p.next true).next true).next true).next true).next true = .reset := by
  cases p <;> rfl

/-- BYPASS puts one bit between TDI and TDO. -/
theorem tap_bypass (t : Tap) (tms tdi : Bool) (h : t.phase = .shiftDr) (b : Bool) (hb : t.shift = [b]) :
    t.tdo = some b ∧ (t.clock tms tdi).shift = [tdi] := by
  simp [Tap.tdo, Tap.clock, h, hb]

/-- Only EXTEST drives the pins. -/
theorem tap_drives (t : Tap) : t.drives.isSome → t.instr = TapInstr.extest := by
  unfold Tap.drives
  split <;> simp_all

end Sys2Proof
end

