-- ==== Sys2Proof/Tests/Slice0.lean ====
section
/-!
SUPPORT. Tests: the checks of well-formed commands, examples of the spec and results worked out by hand, one step each; and for every
statement with hypotheses a state and operands that meet them.
-/
set_option maxRecDepth 20000
set_option exponentiation.threshold 4096

namespace Sys2Proof.Tests

open Machine

/-! ### Helper states -/

/-- The die out of reset, main power good. -/
def up : State := { State.reset with aux := true, power := .good, dieUp := true }

/-- One stall with a program running. -/
def stallUp : Stall := { running := true, codeBase := 0x700000, codeBytes := 64 }
def run0 : State := { up with stalls := [(0, stallUp)] }

/-- The header of an instruction of stall 0; one that advances tally 5; one with a guard. -/
def h0 : Hdr := { stall := 0 }
def h5 : Hdr := { stall := 0, ten := true, tc := 5 }
def hOff : Hdr := { stall := 0, pred := 1 }
def hNot : Hdr := { stall := 0, pred := 0, pneg := true }

/-- Stall 0 with values in two scalar registers. -/
def regs2 (a b : BitVec 64) : State :=
  { up with stalls := [(0, { stallUp with s := ((Vector.replicate 32 (0 : BitVec 64)).set 1 a).set 2 b })] }

/-- The first page of a context 0, writable and for letters too, is the first of HBM. -/
def page0 : XlatEntry := ⟨0, 0, false, 0, true, true⟩

/-- What a test looks at in the state that a command leaves. -/
def after {α : Type} (o : Out) (f : State → α) : Option α := match o with | .next t => some (f t) | _ => none

/-! ### Well-formed commands -/

/-- Formats that the loader refuses (R135): MX formats and integers where an operation has no meaning for them. -/
theorem wf_valu : wellFormed (.add h0 .mxe4m3 0 0 0) = false ∧ wellFormed (.fma h0 .i32 0 0 0 0) = false ∧
    wellFormed (.div h0 .u16 0 0 0) = false ∧ wellFormed (.sqrt h0 .i8 0 0) = false ∧ wellFormed (.abs h0 .u16 0 0) = false ∧
    wellFormed (.neg h0 .mxi8 0 0) = false ∧ wellFormed (.cmpEq h0 .mxi8 0 0 0) = false ∧
    wellFormed (.sel h0 .mxe5m2 0 0 0 0) = false ∧ wellFormed (.and h0 .f32 0 0 0) = false ∧
    wellFormed (.sra h0 .u16 0 0 0) = false ∧ wellFormed (.sum h0 .i8 0 0) = false ∧ wellFormed (.maxr h0 .mxi8 0 0) = false ∧
    wellFormed (.bcast h0 .mxi8 0 0) = false ∧ wellFormed (.iota h0 .f32 0) = false := by decide

theorem wf_valu_ok : wellFormed (.add h0 .f32 0 0 0) = true ∧ wellFormed (.fma h0 .bf16 0 0 0 0) = true ∧
    wellFormed (.abs h0 .i8 0 0) = true ∧ wellFormed (.sra h0 .i32 0 0 0) = true ∧ wellFormed (.sum h0 .i32 0 0) = true ∧
    wellFormed (.iota h0 .u16 0) = true ∧ wellFormed (.nop h0) = true := by decide

/-- Fields that the loader refuses in the other classes (R67, R78, R84, R108, R130, R138). -/
theorem wf_fields : wellFormed (.cvt h0 0 0 0 .mxe4m3 .i8 0 .ieee .w) = false ∧
    wellFormed (.cvt h0 0 0 0 .e4m3 .f32 3 .ieee .w) = true ∧ wellFormed (.cvt h0 0 0 0 .f32 .f32 1 .ieee .w) = false ∧
    wellFormed (.mma h0 0 0 0 .f32 false false false 0 0 0) = false ∧ wellFormed (.mmaTka h0 0 0 0 .mxi8 false false false 0 0 0) = false ∧
    wellFormed (.mmr h0 0 0 .u16 .ieee none false none 0 0) = false ∧ wellFormed (.upd h0 0 0 0 .i8) = false ∧
    wellFormed (.sget h0 0 5) = false := by decide

/-- Bounds of what reaches the module from outside. -/
theorem wf_outside : wellFormed (.bar2Access 0 true 8 []) = false ∧ wellFormed (.laneFrameReceive 0 0 0 (some [])) = false ∧
    wellFormed (.hostLinkTraining (some (3, 5, false))) = false ∧ wellFormed (.protectionTrip 0) = false := by decide

/-- A letter whose payload is not of its LENGTH, and one longer than 4,096 bytes (R235). -/
def lt0 : Letter := { dest := 1, src := 2, cls := .bulk }
theorem wf_letters : wellFormed (.registeredLetterReceive { lt0 with length := 1 }) = false ∧
    wellFormed (.requestReceive { lt0 with cls := .request, length := 4097 }) = false ∧
    wellFormed (.identityReceive 0 { lt0 with cls := .mgmt, op := 1, length := 64 }) = false ∧
    wellFormed (.frSync 0 { lt0 with cls := .mgmt, length := 64 } 0 0) = false ∧
    wellFormed (.frReply 0 { lt0 with cls := .mgmt, length := 64 } 0) = false ∧
    wellFormed (.registeredLetterReceive { lt0 with length := 1, body := [7] }) = true := by decide

/-- Words written out from the encoding of R124 and R131: CLASS, OP, PRED, PNEG, TEN and TC, and then each class's fields. -/
theorem test_words :
    decodeStall 9 (1 + 0x05 * 2 ^ 4 + 3 * 2 ^ 10 + 2 ^ 13 + 2 ^ 14 + 5 * 2 ^ 15 + 3 * 2 ^ 21 + 1 * 2 ^ 26 + 2 * 2 ^ 31) =
      some (.sxor { stall := 9, pred := 3, pneg := true, ten := true, tc := 5 } 3 1 2) ∧
    decodeStall 0 (3 + 0x01 * 2 ^ 4 + 4 * 2 ^ 21 + 6 * 2 ^ 26 + 2 ^ 31 + 0xFFFFFFF8 * 2 ^ 32) = some (.sst h0 true 4 6 0xFFFFFFF8) ∧
    decodeStall 0 (4 + 0x0E * 2 ^ 4 + 7 * 2 ^ 21 + 8 * 2 ^ 26 + 9 * 2 ^ 31 + 5 * 2 ^ 36 + fmtCode .f32 * 2 ^ 41) =
      some (.sel h0 .f32 7 8 9 5) ∧
    decodeStall 0 (7 + 2 ^ 21 + 2 * 2 ^ 22 + 3 * 2 ^ 26 + fmtCode .e4m3 * 2 ^ 30 + 2 ^ 34 + 2 ^ 36 + 63 * 2 ^ 38 + 127 * 2 ^ 45 + 511 * 2 ^ 52) =
      some (.mma h0 1 2 3 .e4m3 true false true 63 127 511) ∧
    decodeStall 0 (12 + 0x04 * 2 ^ 4 + 1 * 2 ^ 21 + 3 * 2 ^ 23 + 2 * 2 ^ 26) = some (.fenceRel h0 .group 2) ∧
    decodeStall 0 (12 + 0x04 * 2 ^ 4 + 3 * 2 ^ 21) = none ∧ decodeStall 0 15 = none ∧
    decodeStall 0 (13 + 0x06 * 2 ^ 4 + 1 * 2 ^ 21 + 2 * 2 ^ 23 + 3 * 2 ^ 28 + 4 * 2 ^ 33 + 5 * 2 ^ 38) =
      some (.collWgtile h0 1 2 3 4 5) ∧
    decodeStall 0 (14 + 0x01 * 2 ^ 4 + 2 * 2 ^ 21 + 3 * 2 ^ 25 + 2 ^ 35) = some (.tds h0 3 2 true) := by decide

/-! ### Examples that the spec works out -/

/-- The chip at x 5, y 2, z 11, w 3 is 0x0ED5 (R21). -/
theorem test_chip_number : (coord 0x0ED5 0, coord 0x0ED5 1, coord 0x0ED5 2, coord 0x0ED5 3) = (5, 2, 11, 3) := by decide

/-- 504 under E4M3 with X = 0 rounds to 512 and is clamped to 448 (R57). -/
theorem test_mx_clamp : encodeBlock .mxe4m3 .ieee 0 [.fin false 504 0] =
    (127, [{ bits := 0x7E, ovf := false, unf := false, nanInt := false, clamp := true }]) := by decide

/-- An all-zero block keeps its zeros' signs under scale code 0 (the worked block of R58). -/
theorem test_mx_zero : (encodeBlock .mxe4m3 .sat 0 [.fin false 0 0, .fin true 0 0]).1 = 0 ∧
    (encodeBlock .mxe4m3 .sat 0 [.fin false 0 0, .fin true 0 0]).2.map (·.bits) = [0x00, 0x80] := by decide

/-- The spill of R83: the window ends at 16, SPILL at 2, and the readout is 0x4480. -/
def spillProducts : List (Option FVal) :=
  [some (.fin false 1 100), some (.fin false 3 (-1)), some (.fin true 1 100), some (.fin false 1032 0)]
theorem test_spill : (mmaElem 0 4 {} spillProducts).window = 16 ∧ (mmaElem 0 4 {} spillProducts).spill = 2 := by decide
theorem test_spill_readout :
    let a : Acc := { kcount := 4, rows := [[mmaElem 0 4 {} spillProducts]] }
    (mmrElem .bf16 .ieee 0 false (a.value (a.get 0 0))).bits = 0x4480 := by decide

/-- An INT8 readout with s = -7 is round(sum / 128), saturated (R79). -/
theorem test_int8_readout : (mmrElem .i8 .ieee (-7) false (.fin false 1000 0)).bits = 8 ∧
    (mmrElem .i8 .ieee (-7) false (.fin true 128000 0)).bits = 0x80 := by decide

/-- A ring of 4 and 10,000 elements (R271): chunks of 2,528, the last of 2,416, its halves split at 8,800. -/
theorem test_chunks : chunkSize 10000 4 = 2528 ∧ chunkOf 10000 4 3 = (7584, 2416) ∧ halfOf 7584 2416 0 = (7584, 1216) ∧
    halfOf 7584 2416 1 = (8800, 1200) := by decide

/-- The address of the worked example after R195 lies in pseudo-channel 135: stack 2. -/
theorem test_channel : pseudoChannel 0x1234603A40 = 135 ∧ stackOf 0x1234603A40 = 2 := by decide

/-- Yard 1 at 74 °C and 1.40 GHz beside yard 3 at 48 °C and 0.80 GHz is lowered to 1.375 GHz (R354). -/
theorem test_neighbour :
    let s : State := { up with yards := [(0, { freq := 1000 }), (1, { freq := 1400 }), (2, { freq := 1000 }), (3, { freq := 800 })] }
    after (exec (.yardNeighbourCheck (.replicate 4 750) #v[60, 74, 60, 48]) s) (fun t => (t.yard 1).cap) = some 1375 := by decide

/-- c5 at 0xFFFF_FFFE waits for 1: the wait holds, and is satisfied at 1 (R159). -/
theorem test_tally_wait : tallyMet 0xFFFFFFFE 1 = false ∧ tallyMet 0 1 = false ∧ tallyMet 1 1 = true ∧
    tallyMet 0x80000001 0 = false := by decide

/-- A state with registers set. -/
def regs (s : State) (l : List (Reg × BitVec 64)) : State := { s with regs := l ++ s.regs }

/-- The chip at x 5, y 2, z 11, w 3 of the full torus, whose Z table takes z 3 the minus way. -/
def torus : State :=
  { regs up [(.soRtCtrl, 2), (.soRtAxis 0 0, 7 <<< 32), (.soRtAxis 0 1, 7 <<< 32), (.soRtAxis 0 2, (15 <<< 32) + (2 <<< 6)),
      (.soRtAxis 0 3, 15 <<< 32)] with chip := 0x0ED5 }

/-- The first hop around the broken ring of the example after R250 is W minus; past W, Z minus; on X, plus. -/
theorem test_route : torus.route 0 0x38D1 = .port 7 ∧ ({ torus with chip := 0x3AD5 } : State).route 0 0x38D1 = .port 5 ∧
    ({ torus with chip := 0x38D5 } : State).route 0 0x38D1 = .port 0 ∧
    ({ torus with chip := 0x38D1 } : State).route 0 0x38D1 = .arrived := by decide

/-! ### Instructions, one step each -/

/-- Addition wraps, and advances the tally with the retirement (R127, R130). -/
theorem test_sadd : after (exec (.sadd h5 3 1 2) (regs2 0xFFFFFFFFFFFFFFFF 2)) (fun t =>
    ((t.stall 0).s[3], (t.stall 0).c[5], (t.stall 0).pc, t.fld (.stlSeqRetired 0) F.COUNT)) = some (1, 1, 1, 1) := by decide
theorem test_smin : after (exec (.smin h0 3 1 2) (regs2 0xFFFFFFFFFFFFFFFF 2)) (fun t => (t.stall 0).s[3]) =
    some 0xFFFFFFFFFFFFFFFF := by decide
theorem test_sminu : after (exec (.sminu h0 3 1 2) (regs2 0xFFFFFFFFFFFFFFFF 2)) (fun t => (t.stall 0).s[3]) = some 2 := by
  decide
theorem test_ssra : after (exec (.ssra h0 3 1 2) (regs2 0x8000000000000000 67)) (fun t => (t.stall 0).s[3]) =
    some 0xF000000000000000 := by decide
theorem test_scmp_lt : after (exec (.scmpLt h0 2 1 2) (regs2 0xFFFFFFFFFFFFFFFF 2)) (fun t => (t.stall 0).p[2]) =
    some (BitVec.allOnes 256) := by decide
theorem test_li_lih : after (exec (.li h0 1 0x1FFFFFFFF) run0) (fun t => (t.stall 0).s[1]) = some 0xFFFFFFFFFFFFFFFF ∧
    after (exec (.lih h0 1 0x80000000) (regs2 0xFFFFFFFF00000001 0)) (fun t => (t.stall 0).s[1]) =
      some 0x8000000000000001 := by decide
theorem test_tdadd :
    after (exec (.tdadd h0 0 1) { up with stalls := [(0, { stallUp with
        s := (Vector.replicate 32 (0 : BitVec 64)).set 1 (1 + (1 <<< 18)), t := .replicate 16 0xFFFFFFFFFFFFFFFF })] })
      (fun t => (t.stall 0).t[0].toNat % 2 ^ 64) = some (0xFFFFFFFFFFFFFFFF - (2 ^ 18 - 1) - (2 ^ 21 - 1) * 2 ^ 36) := by decide
theorem test_loop : after (exec (.loop h0 1 0xFFFFFFFE) (regs2 2 0)) (fun t => ((t.stall 0).s[1], (t.stall 0).pc)) =
      some (1, 0x1FFFE) ∧
    after (exec (.loop h0 1 0xFFFFFFFE) (regs2 1 0)) (fun t => ((t.stall 0).s[1], (t.stall 0).pc)) = some (0, 1) := by decide
theorem test_sst_little_endian : after (exec (.sst h0 false 1 2 3) (regs2 0x0102 0x800008)) (fun t =>
    t.mem.map fun c => (c.1 % 0x800000, c.2)) = some [(8, 2), (9, 1)] := by decide

/-- A VALU addition in FP32: 1.5 + 2.5 = 4 in element 0 under its guard bit, and the record in flight. -/
def vecs (f0 f1 : BitVec 2048) : State :=
  { up with stalls := [(0, { stallUp with v := ((Vector.replicate 32 (0 : BitVec 2048)).set 1 f0).set 2 f1 })] }
theorem test_vadd : after (exec (.add h5 .f32 3 1 2) (vecs 0x3FC00000 0x40200000)) (fun t =>
    ((t.stall 0).v[3], (t.stall 0).flights.length, (t.stall 0).c[5])) = some (0x40800000, 1, 0) := by decide
/-- INT8 addition wraps in its element (R136). -/
theorem test_vadd_i8 : after (exec (.add h0 .i8 3 1 2) (vecs 0x1FF 0x101)) (fun t => (t.stall 0).v[3]) = some 0x200 := by decide
/-- A NaN compares unequal (R137). -/
theorem test_cmp_ne : after (exec (.cmpNe h0 .f32 2 1 2) (vecs 0x7FC00000 0x7FC00000)) (fun t =>
    ((t.stall 0).vp[2].getLsbD 0, (t.stall 0).vp[2].getLsbD 4, (t.stall 0).p[2])) = some (true, false, 0) := by decide
theorem test_iota : after (exec (.iota h0 .u16 3) run0) (fun t => ((t.stall 0).v[3].extractLsb' (127 * 16) 16).toNat) =
    some 127 := by decide
/-- A conversion of a 16-bit format into 8 bits: 448 + 16 rounds to the maximum, SAT (R39, R138). -/
theorem test_cvt : after (exec (.cvt h0 3 1 0 .e4m3 .bf16 0 .sat .w) (vecs 0x43F0 0)) (fun t =>
    ((t.stall 0).v[3], t.fld (.stlCvtOverflow 0) F.COUNT, (t.stall 0).flights.map fun f => f.counts.filter fun c => c.2 ≠ 0)) =
      some (0x7E, 0, [[(.cvtOverflow, 1)]]) := by decide
/-- What an instruction has counted enters its counters as it retires (R92, R160). -/
theorem test_counts_retire :
    let s : State := { up with stalls := [(0, { stallUp with nextSeq := 1, flights := [{ unit := .vector, seq := 0, pc := 0, cls := 6, op := 0, ten := false, tc := 0, counts := [(.cvtOverflow, 3)] }] })] }
    after (exec (.instructionRetire 0 .vector 0) s) (fun t => t.fld (.stlCvtOverflow 0) F.COUNT) = some 3 := by decide

/-- `tadd`, a fence with nothing outstanding, and a `halt` that stops its stall. -/
theorem test_sync : after (exec (.tadd h0 7 0xFFFFFFFF) run0) (fun t => (t.stall 0).c[7]) = some 0xFFFFFFFF ∧
    after (exec (.fenceFull h0 .sys 0) run0) (fun t => ((t.stall 0).wait, t.fld (.stlSyncFences 0) F.COUNT)) = some (none, 1) ∧
    after (exec (.halt h0) run0) (fun t => (t.stall 0).running) = some false := by decide
/-- A wait that is not met holds issue: the next instruction does nothing until it ends (R129, R158). -/
theorem test_wait_holds :
    after (exec (.twait h0 7 1) run0) (fun t => (after (exec (.sadd h0 1 2 3) t) fun u => (u.stall 0).pc.toNat)) = some (some 1) := by
  decide

/-- `dm.fill` repeats its 8-byte pattern (R141). -/
theorem test_fill : after (exec (.dmFill h0 .st 3 1 2)
      { up with stalls := [(0, { stallUp with s := ((Vector.replicate 32 (0 : BitVec 64)).set 1 0x0807060504030201).set 2 10 })] })
    (fun t => t.mem.map (·.2)) = some [1, 2, 3, 4, 5, 6, 7, 8, 1, 2] := by decide
/-- A retirement removes its record, counts, and advances the tally (R128). -/
theorem test_retire :
    after (exec (.bcast h5 .f32 3 0) run0) (fun t => after (exec (.instructionRetire 0 .vector 0) t) fun u =>
      ((u.stall 0).flights, (u.stall 0).c[5], u.fld (.stlSeqRetired 0) F.COUNT)) = some (some ([], 1, 1)) := by decide

/-! ### Hypotheses of the statements about instructions -/

theorem noRing_up (s : State) (h : s.flag .dbgTraceCtrl F.dbgTraceCtrl_SPILL = false) : NoRing s := by
  intro a x
  unfold inRing at x
  rw [h] at x
  exact absurd x.1 (by decide)

theorem witness_StepTakesTheFrontCommand : ({ up with pending := [.nop h0] } : State).pending = .nop h0 :: [] ∧ up.pending = [] ∧
    State.reset.pending = [] ∧ State.reset.dieUp = false := by decide

theorem witness_StepKeepsSound : Sound State.reset ∧ step State.reset = .next State.reset :=
  ⟨(by decide : Memory.wf State.reset.mem = true), by rfl⟩

theorem witness_StepKeepsSound_memory : Memory.wf [(3, 7)] = true := by decide

/-- The invariants of power, of the lanes and of the tables hold after reset, where a step is an idle one. -/
theorem witness_StepKeepsPower : PowerSound State.reset ∧ LaneSound State.reset ∧ TableSound State.reset :=
  ⟨⟨by decide, by decide, by decide, List.nil_prefix, by decide, by decide⟩, ⟨by decide, by decide⟩,
    ⟨fun j _ => by
      unfold State.fld
      rw [show State.reset.rd (.soSlot j 0) = 0 from rfl, show State.reset.rd (.soSlot j 2) = 0 from rfl]
      decide, by decide⟩⟩
/-- A group that is VALID before a step and after it. -/
theorem witness_StepKeepsTables : ({ run0 with regs := [(.ceGrpCtrl 0 0, 1)], pending := [.li h0 1 5] } : State).grpValid 0 0 = true ∧
    after (step { run0 with regs := [(.ceGrpCtrl 0 0, 1)], pending := [.li h0 1 5] }) (fun t => t.grpValid 0 0) = some true := by decide

/-- For `ScalarResults` and `ImmediatesDescriptorsAndControlFlow`. -/
theorem witness_ScalarResults : Ready run0 h0 .none ∧ GuardOn run0 h0 :=
  ⟨(by decide : run0.canIssue 0 .none = true), (by decide : (run0.stall 0).guard h0 = true)⟩

/-- A stall with an instruction in flight. -/
def flightV : Flight := { unit := .vector, seq := 0, pc := 0, cls := 4, op := 0, ten := true, tc := 5 }
def flying : State := { up with stalls := [(0, { stallUp with nextSeq := 1, flights := [flightV] })] }

theorem witness_ControlFlow : Ready run0 h0 .none ∧ GuardOn run0 h0 ∧ (stallOf run0 h0).flights = [] ∧ (stallOf run0 h0).wait = none ∧
    Ready flying h0 .none ∧ GuardOn flying h0 ∧ (stallOf flying h0).flights ≠ [] :=
  ⟨(by decide : run0.canIssue 0 .none = true), (by decide : (run0.stall 0).guard h0 = true), by rfl, by rfl,
    (by decide : flying.canIssue 0 .none = true), (by decide : (flying.stall 0).guard h0 = true),
    (by decide : (flying.stall 0).flights ≠ [])⟩

/-- For the first clauses: an address at the top of either store; a word of the stall store, and outside the code region. -/
theorem witness_ScalarLoadAndStore : GuardOn (regs2 0x7FFFF8 0) h0 ∧ Clean (regs2 0x7FFFF8 0) ∧ Ready (regs2 0x7FFFF8 0) h0 .reads ∧
    Ready (regs2 0x7FFFF8 0) h0 .writes ∧ NoRing (regs2 0x7FFFF8 0) ∧ Sound (regs2 0x7FFFF8 0) ∧
    (∀ k, k < 8 → (regs2 0x7FFFF8 0).codeOwner (stallBase 0 + 0x7FFFF8 + k) = none) :=
  ⟨(by decide : ((regs2 0x7FFFF8 0).stall 0).guard h0 = true), ⟨by rfl, by rfl, by rfl, by rfl, by rfl⟩,
    (by decide : (regs2 0x7FFFF8 0).canIssue 0 .reads = true), (by decide : (regs2 0x7FFFF8 0).canIssue 0 .writes = true),
    noRing_up _ (by decide), (by decide : Memory.wf (regs2 0x7FFFF8 0).mem = true), by decide⟩

/-- For the others: a poisoned word, the first word of the reserved region, and the last word of the code region. -/
theorem witness_ScalarLoadAndStore_faults :
    (let s : State := { regs2 8 0 with poison := [stallBase 0 + 8] }
     (s.canIssue 0 .reads && (s.stall 0).guard h0) = true ∧ s.latentUe = [] ∧ s.latentCe = [] ∧ s.racing = [] ∧ s.sourceWords = [] ∧
      stallBase 0 + ((s.stall 0).s[1] + (0 : BitVec 32).signExtend 64).toNat % storeSize false / 8 * 8 ∈ s.poison) ∧
    (let s := regs2 0x1C00000 0
     0x1C00000 ≤ ((s.stall 0).s[1] + (0 : BitVec 32).signExtend 64).toNat % storeSize true / 8 * 8) ∧
    (let s := regs2 0x700038 0
     let off := ((s.stall 0).s[1] + (0 : BitVec 32).signExtend 64).toNat % storeSize false / 8 * 8
     (s.stall 0).codeBase ≤ off ∧ off + 8 ≤ (s.stall 0).codeBase + (s.stall 0).codeBytes) := by decide

/-- A poisoned word of a stable store, and a consignment under way that takes the fault. -/
theorem witness_ScalarLoadAndStore_stable :
    let st : Stall := { stallUp with s := (Vector.replicate 32 (0 : BitVec 64)).set 1 8, consignment := 1 }
    let c : Consign := { qp := 0, ctx := 0, index := 0, opcode := 1, flags := 0, cid := 0, addrA := 0, addrB := 0, length := 0,
                         malformed := false, phase := .started, stalls := [0] }
    let s : State := { up with stalls := [(0, st)], poison := [stableBase 0 + 8], consigns := [(1, c)] }
    (s.canIssue 0 .reads && (s.stall 0).guard h0) = true ∧ s.latentUe = [] ∧ s.latentCe = [] ∧ s.racing = [] ∧ s.sourceWords = [] ∧
    ((s.stall 0).s[1] + (0 : BitVec 32).signExtend 64).toNat % storeSize true / 8 * 8 < 0x1C00000 ∧
    stableBase 0 + ((s.stall 0).s[1] + (0 : BitVec 32).signExtend 64).toNat % storeSize true / 8 * 8 ∈ s.poison ∧
    consignAt s (s.stall 0).consignment = some c ∧ (∀ e ∈ s.consigns, e.2.phase ≠ .waiting) ∧ c.fault = none ∧ c.ended = none ∧
    0 ∉ c.faulted := by decide

theorem witness_GuardedOffSequencer : Ready run0 hOff .none ∧ Ready run0 hOff .writes ∧ ¬ GuardOn run0 hOff ∧ ¬ GuardOn run0 hNot :=
  ⟨(by decide : run0.canIssue 0 .none = true), (by decide : run0.canIssue 0 .writes = true),
    (by decide : ¬ (run0.stall 0).guard hOff = true), (by decide : ¬ (run0.stall 0).guard hNot = true)⟩

/-- A unit of stall 0 takes an instruction in these states. -/
theorem unitReady (s : State) (unit : StallUnit) (u : Uses) (upd : Bool := false)
    (h : (s.canIssue 0 u && s.unitFree 0 unit upd) = true) : UnitReady s h0 unit u upd :=
  (Bool.and_eq_true _ _).mp h

/-- The units take an instruction whose guard is false. -/
theorem witness_GuardedOffSequencer_units : Ready run0 hOff .sync ∧ UnitReady run0 hOff .vector .reads ∧ UnitReady run0 hOff .vector .writes ∧
    UnitReady run0 hOff .matrix .reads ∧ UnitReady run0 hOff .matrix .writes ∧ UnitReady run0 hOff .vector .writes true ∧
    UnitReady run0 hOff .mover .writes ∧ UnitReady run0 hOff .mover .none ∧ mmaOk .bf16 511 = true ∧ tkaOk .bf16 = true ∧
    mmrOk .bf16 none 0 = true ∧ updOk .bf16 = true :=
  ⟨(by decide : run0.canIssue 0 .sync = true), unitReady run0 _ _ (h := by decide), unitReady run0 _ _ (h := by decide),
    unitReady run0 _ _ (h := by decide), unitReady run0 _ _ (h := by decide), unitReady run0 _ _ true (by decide),
    unitReady run0 _ _ (h := by decide), unitReady run0 _ _ (h := by decide), by decide, by decide, by decide, by decide⟩

/-- A value that BF16 holds, and one of its codes, for the nearest value of `ConvertResults`. -/
theorem witness_ConvertResults_nearest : (floatSpec .bf16).isSome = true ∧ isPlain .bf16 = true ∧
    (encodeElem .bf16 .ieee (.fin false 3 0)).ovf = false ∧ decodeElem .bf16 0x4040 = .fin false 192 (-6) := by decide

/-- For the statements about the vector engine's results, and for `ConvertResults`. -/
theorem witness_VectorResults : UnitReady run0 h0 .vector .none ∧ isMx .i8 = false ∧ isPlainFloat .f16 = true ∧
    isSignedInt .i32 = true ∧ isInt .u16 = true ∧ wellFormed (.cvt h0 3 1 0 .mxe4m3 .f32 3 .ieee .wgr) = true ∧
    isMx .mxe4m3 = true ∧ wellFormed (.cvt h0 3 1 0 .i32 .u16 1 .sat .w) = true :=
  ⟨unitReady _ _ _ (h := by decide), by decide, by decide, by decide, by decide, by decide, by decide, by decide⟩

/-- Reductions over some elements, and over none. -/
theorem witness_VectorCompareAndReductionResults :
    let xs := fun (h : Hdr) => (List.range (elemCount .f32)).filter fun e =>
      ((stallOf run0 h).vpred h.pred).getLsbD (e * (256 / elemCount .f32)) != h.pneg
    xs h0 = List.range 64 ∧ xs hOff = [] := by decide

theorem witness_VectorLoadAndStore : ¬ GuardOn run0 hOff ∧ GuardOn run0 h0 ∧ Clean run0 ∧ UnitReady run0 h0 .vector .reads ∧
    UnitReady run0 h0 .vector .writes ∧ NoRing run0 ∧ Sound run0 ∧
    (∀ k, k < 256 → run0.codeOwner (stallBase 0 + (0x7FFFC0 + k) % storeSize false) = none) ∧ 0x1BFFF00 + 256 ≤ 0x1C00000 :=
  ⟨(by decide : ¬ (run0.stall 0).guard hOff = true), (by decide : (run0.stall 0).guard h0 = true), ⟨by rfl, by rfl, by rfl, by rfl, by rfl⟩,
    unitReady _ _ _ (h := by decide), unitReady _ _ _ (h := by decide), noRing_up _ (by decide), (by decide : Memory.wf run0.mem = true),
    by decide, by decide⟩

/-- Bytes that lie in the reserved region, in the code region, and in neither. -/
theorem witness_VectorLoadAndStore_events :
    ((List.range 256).any fun k => decide (0x1C00000 ≤ (0x1BFFFC0 + k) % storeSize true)) = true ∧
    ((List.range 256).any fun k => decide (0x1C00000 ≤ (0x1BFFF00 + k) % storeSize true)) = false ∧
    (run0.codeOwner (stallBase 0 + 0x700000 % storeSize false)).isSome = true ∧
    (run0.codeOwner (stallBase 0 + 0x6FFF00 % storeSize false)).isSome = false := by decide

/-- Descriptors of zeros are of format BF16: of the instruction's format in one case, and not in the other. -/
theorem witness_MatrixMultiplyAccumulates : UnitReady run0 h0 .matrix .reads ∧ GuardOn run0 h0 ∧ Clean run0 ∧ NoRing run0 ∧
    (Desc.of (run0.stall 0).t[0]).fmt = fmtCode .bf16 ∧ mmaOk .bf16 511 = true ∧ tkaOk .bf16 = true ∧
    (Desc.of (run0.stall 0).t[0]).fmt ≠ fmtCode .i8 ∧ mmaOk .i8 0 = true ∧ tkaOk .i8 = true ∧ mmrOk .i8 none 0 = true :=
  ⟨unitReady _ _ _ (h := by decide), (by decide : (run0.stall 0).guard h0 = true), ⟨by rfl, by rfl, by rfl, by rfl, by rfl⟩, noRing_up _ (by decide),
    by decide, by decide, by decide, by decide, by decide, by decide, by decide⟩

/-- The products of zeros are finite. -/
theorem witness_MatrixMultiplyAccumulates_products : ∀ k, k < 2 → ∃ n v e,
    (run0.opEl 0 (operandA 0 .bf16 false) 0 k).v.mul (run0.opEl 0 (operandB 0 .bf16 false) 0 k).v = .fin n v e := by
  intro k hk
  obtain rfl | rfl : k = 0 ∨ k = 1 := by omega
  · exact ⟨_, _, _, rfl⟩
  · exact ⟨_, _, _, rfl⟩

theorem witness_MatrixMultiplyAccumulates_order : [some (FVal.fin false 1 0), none].Perm [none, some (FVal.fin false 1 0)] := by decide

theorem witness_MatrixReadoutSaveAndRestore : UnitReady run0 h0 .matrix .writes ∧ UnitReady run0 h0 .matrix .reads ∧ GuardOn run0 h0 ∧
    Clean run0 ∧ mmrOk .bf16 none 0 = true ∧ (Desc.of (run0.stall 0).t[0]).fmt = fmtCode .bf16 ∧ NoRing run0 ∧ Sound run0 ∧
    isMx .bf16 = false ∧
    (let d := Desc.of (run0.stall 0).t[0]
     let all := readoutBytes d .bf16 ((run0.stall 0).acc[0].readout .bf16 .ieee none 0 1 1)
     all.length = 2 ∧ (all.map fun w => d.addr 0 w.1).Nodup ∧
       ∀ w ∈ all, run0.codeOwner (d.addr 0 w.1) = none ∧ rsvdOwner (d.addr 0 w.1) = none) :=
  ⟨unitReady _ _ _ (h := by decide), unitReady _ _ _ (h := by decide), (by decide : (run0.stall 0).guard h0 = true), ⟨by rfl, by rfl, by rfl, by rfl, by rfl⟩,
    by decide, by decide, noRing_up _ (by decide), (by decide : Memory.wf run0.mem = true), by decide, by decide⟩
/-- An image at the bottom of the stall store lies outside the code and the reserved region. -/
theorem witness_MatrixReadoutSaveAndRestore_image : ∀ k, k < imageLen →
    run0.codeOwner ((Desc.of 0).addr 0 ((Desc.of 0).base + k)) = none ∧ rsvdOwner ((Desc.of 0).addr 0 ((Desc.of 0).base + k)) = none := by
  intro k hk
  have hk : k < 327744 := hk
  have ha : (Desc.of 0).addr 0 ((Desc.of 0).base + k) = 0xF00040000000 + k := by
    show 0xF00040000000 + 0x800000 * 0 + (0 + k) % 0x800000 = _
    omega
  rw [ha]
  refine ⟨?_, ?_⟩
  · have h1 : (0xF00040000000 + k - 0xF00040000000) / 0x800000 = 0 := by omega
    have h2 : (0xF00040000000 + k - 0xF00040000000) % 0x800000 = k := by omega
    have h3 : ¬ (0x700000 ≤ k) := by omega
    simp only [State.codeOwner, h1, h2]
    rw [show run0.stall (Fin.ofNat 128 0) = stallUp from rfl]
    simp [stallUp, h3]
  · have h4 : isStable (0xF00040000000 + k) = false := by
      have h5 : ¬ (0xF00040000000 + k < 0xF00020000000) := by omega
      simp only [isStable, decide_eq_false h5, Bool.and_false]
    simp [rsvdOwner, h4]

/-- A context whose first page is HBM's, where its group table lies: half 0 serves step 0, one group is expected, group 0 has one
element, and its scratch region, at 0x2000, holds attempt 1 and one tile complete. -/
def updState (sealed : BitVec 64) (m : List Host.Cell) (bad : List Nat) : State :=
  { regs run0 [(.stlUpdSealed 0, sealed)] with mem := m, poison := bad, xlat := [page0] }
def tableMem (flags : List Host.Cell) : List Host.Cell := [(4, 1)] ++ flags ++ [(0x1008, 1), (0x100C, 1), (0x1069, 0x20), (0x2000, 1), (0x2004, 1)]
/-- The check of an update instruction on it: poison, a stale schedule, a wait, a resting group, a tile outside and one inside. -/
def updCase (s : State) (I : Nat) : Bool × UpdCheck × Bool × Bool × Bool :=
  let l := ((s.issued 0 2).latch 0 0 0 0).2
  let s1 := ((s.issued 0 2).latch 0 0 0 0).1
  let sh := s1.shard 0 0 l.e.flags l.e.rows l.e.cols
  (l.bad.isSome, updCheck l.gen 0 (s1.sealed 0), l.e.idle 0, sh.owns 0 I && decide (0 < sh.nJ) && l.expected ≠ 0,
    sh.hasTiles && (s1.tilesDone 0 0 sh l.e.scratch).2)

theorem witness_UpdateInstructionOutcomes : UnitReady run0 h0 .vector .writes true ∧ GuardOn run0 h0 ∧ updOk .bf16 = true ∧
    (updCase (updState 0xFFFFFFFF (tableMem []) [0x1000]) 0).1 = true ∧
    (updCase (updState 0 (tableMem []) []) 0).2.1 = .stale ∧ (updCase (updState 0xFFFFFFFE (tableMem []) []) 0).2.1 = .wait ∧
    updCase (updState 0xFFFFFFFF (tableMem [(0x1000, 1)]) []) 0 = (false, .go, true, true, true) ∧
    updCase (updState 0xFFFFFFFF (tableMem []) []) 0 = (false, .go, false, true, true) ∧
    updCase (updState 0xFFFFFFFF (tableMem []) []) 1 = (false, .go, false, false, true) ∧
    updCase (updState 0xFFFFFFFF [(4, 1), (0x1008, 1), (0x100C, 1)] []) 0 = (false, .go, false, true, false) :=
  ⟨unitReady run0 _ _ true (by decide), (by decide : (run0.stall 0).guard h0 = true), by decide, by decide, by decide, by decide, by decide,
    by decide, by decide, by decide⟩

/-- A fold whose group is complete: it reads no poison, and marks its group done, of one more group than it has folded; and one whose
record of squares is poisoned. -/
def foldCase (m : List Host.Cell) (bad : List Nat) : Bool × Bool × Bool × Bool × Bool :=
  let s := updState 0xFFFFFFFF m bad
  let l := ((s.issued 0 2).latch 0 0 0 0).2
  let s1 := ((s.issued 0 2).latch 0 0 0 0).1
  let sh := s1.shard 0 0 l.e.flags l.e.rows l.e.cols
  let d := s1.tilesDone 0 0 sh l.e.scratch
  let i := d.1.foldRead 0 0 0 0 l.e sh
  let s3 := (i.1.srCount 0 i.2.stats).writeCtx 0 (foldStores l.e 0 i.2.out) 0
  let fa := s3.readCtx 0 (vaRange (l.e.scratch + 8) 4) 0
  (d.2, i.2.bad.isSome, decide ((memEl 4 fa.2 0).1 = s3.fld (.stlUpdProgress 0) F.stlUpdProgress_ATTEMPT),
    decide ((s.fld (.stlUpdProgress 0) F.stlUpdProgress_FOLDS_DONE + 1) % 2 ^ 13 ≠ l.expected), (s1.dataGroup 0).isNone)
theorem witness_UpdateInstructionOutcomes_fold :
    foldCase ([(4, 2)] ++ (tableMem []).drop 1) [] = (true, false, false, true, true) ∧
    foldCase ([(4, 2)] ++ (tableMem []).drop 1) [0x2080] = (true, true, false, true, true) := by decide

/-- For the statements about the data mover: a length of 0, and one of 1; a row shorter than 16 bytes. -/
theorem witness_Moves : UnitReady (regs2 0 1) h0 .mover .writes ∧ UnitReady (regs2 0 1) h0 .mover .none ∧ GuardOn (regs2 0 1) h0 ∧
    Clean (regs2 0 1) ∧ NoRing (regs2 0 1) ∧ Sound (regs2 0 1) ∧ ((regs2 0 1).stall 0).s[1].toNat % 2 ^ 40 = 0 ∧
    ((regs2 0 1).stall 0).s[2].toNat % 2 ^ 16 < 16 ∧
    (∀ k, k < 1 → (regs2 0 1).codeOwner (stallBase 0 + (0 + k) % 0x800000) = none) :=
  ⟨unitReady _ _ _ (h := by decide), unitReady _ _ _ (h := by decide), (by decide : ((regs2 0 1).stall 0).guard h0 = true),
    ⟨by rfl, by rfl, by rfl, by rfl, by rfl⟩, noRing_up _ (by decide), (by decide : Memory.wf (regs2 0 1).mem = true), by decide, by decide, by decide⟩

/-- Tiles for `dm.tt`: one row of 32 bytes between a tile of the stall store and one of the stable store. -/
theorem witness_LocalMovesCopyBytes_tt :
    let d := Desc.of 0
    let e := Desc.of (1 <<< 18)
    let x : BitVec 64 := 0x10010
    d.stable = false ∧ e.stable = true ∧ x.toNat / 2 ^ 16 % 2 ^ 16 = 1 ∧ x.toNat % 2 ^ 16 / 16 * 16 = 16 ∧ d.base + 16 ≤ 0x800000 ∧ e.base + 16 ≤ 0x1C00000 := by
  decide

/-- A transfer whose sides are stores, and sides on another chip. -/
theorem witness_LocalMovesCopyBytes_sides : let s := regs2 0 1
    let rows := [(s.side 0 .st 0x10 1, s.side 0 .sb 0x20 1, 1)]
    ((moverState s h0).moveSides h0 rows).2 = [((.mem [some (stallBase 0 + 0x10)], .mem [some (stableBase 0 + 0x20)]), 1)] := by decide

/-- A slot range of one slot, and none; a unit that the context may name and one that it may not. -/
def slotState : State := { regs run0 [(.hstLoadRec1 0, F.hstLoadRec1_SLOT_COUNT.put 0 1)] with ctxStables := [(0, [0])] }
theorem witness_SlotTableInstructions : run0.fld (.hstLoadRec1 0) F.hstLoadRec1_SLOT_COUNT = 0 ∧
    slotState.fld (.hstLoadRec1 0) F.hstLoadRec1_SLOT_COUNT ≠ 0 ∧ slotState.slotUnitOk 0 0 0 = true ∧
    slotState.slotUnitOk 0 2 9 = false := by decide

/-- A tally met and not met; a fence held and free; waits of each kind. -/
def waiting (w : Wait) (l : List Flight) : State :=
  { up with stalls := [(0, { stallUp with wait := some w, flights := l, nextSeq := 1, team := [0] })] }
def fly0 : Flight := { unit := .vector, seq := 0, pc := 0, cls := 6, op := 1, ten := false, tc := 0, writes := [.stall] }
theorem witness_SyncUnitResultsAndWaits : Ready run0 h0 .sync ∧ GuardOn run0 h0 ∧
    (((0 : BitVec 32) - 0).toNat < 2 ^ 31) ∧ ¬ (((0 : BitVec 32) - 1).toNat < 2 ^ 31) ∧
    run0.fenceHeld 0 .rel .sys 0 0 = false ∧ (waiting (.fence h0 .rel .stall 0 1) [fly0]).fenceHeld 0 .rel .stall 0 1 = true ∧
    (waiting (.fence h0 .rel .stall 0 1) []).fenceHeld 0 .rel .stall 0 1 = false ∧
    tallyMet (0 : BitVec 32) 0 = true ∧ tallyMet (0 : BitVec 32) 1 = false ∧
    (waiting (.barrier h0 3 1) []).arrived 0 3 < 1 ∧ (waiting (.barrier h0 32 0) []).barrierTeam 0 32 = [0] ∧
    0 ≤ (waiting (.barrier h0 32 0) []).arrived 0 32 ∧
    run0.yardRuns (yardOf 0) = true :=
  ⟨(by decide : run0.canIssue 0 .sync = true), (by decide : (run0.stall 0).guard h0 = true), by decide, by decide, by decide,
    by decide, by decide, by decide, by decide, by decide, by decide, by decide, by decide⟩
/-- A barrier of a team of two, of which both have arrived, and one has not. -/
def pair (k : Nat) : State :=
  { up with stalls := [(0, { stallUp with wait := some (.barrier h0 33 1), arrivals := [(33, 1)], team := [0, 1] }),
                       (1, { stallUp with wait := some (.barrier { stall := 1 } 33 1), arrivals := [(33, k)], team := [0, 1] })] }
theorem witness_SyncUnitResultsAndWaits_team : (pair 1).barrierTeam 0 33 = [0, 1] ∧ (∀ m ∈ (pair 1).barrierTeam 0 33, 1 ≤ (pair 1).arrived m 33) ∧
    (∀ m ∈ (pair 1).barrierTeam 0 33, ((pair 1).stall m).halting = none) ∧
    (∃ m ∈ (pair 0).barrierTeam 0 33, (pair 0).arrived m 33 < 1) := by decide
theorem test_barrier_team : after (exec (.barrierGenerationComplete 1) (pair 1)) (fun t =>
    ((t.stall 0).wait, (t.stall 1).wait, t.fld (.stlSyncArrivals 0) F.COUNT)) = some (none, none, 1) := by decide


/-- The bytes of a store instruction in flight are under way (R16): an access of the matrix engine that finds none of them performed reads
the zero that stood there, the instruction itself reads what it wrote; and the retire point ends that (R160). -/
theorem test_write_under_way :
    let fill := exec (.dmFill h0 .st 1 2 2) (regs2 0x100 2)
    after fill (fun t => (t.racing.map fun c => (c.word, c.writes.length), t.actor)) = some ([(stallBase 0 + 0x100, 1)], none) ∧
    after fill (fun t => ({ t with actor := some (.unit 0 (some .matrix) 1 false) } : State).peek (stallBase 0 + 0x100)) =
      some (0, false) ∧
    after fill (fun t => ({ t with actor := some (.unit 0 (some .mover) 0 false) } : State).peek (stallBase 0 + 0x100)) =
      some (2, false) ∧
    after fill (fun t => after (exec (.instructionRetire 0 .mover 0) t) fun u => u.racing) = some (some []) := by decide

/-! ### Collective operations, the ends of instructions, updates and the watch -/

/-- A data axis of length L on W, group 0, VALID. -/
def groupState (len1 : BitVec 64) : State := regs run0 [(.ceAxisPlan 0, (1 + len1 <<< 5) <<< 48), (.ceGrpCtrl 0 0, 1)]
/-- 16 operations that run on the group. -/
def oneOp : CollOp :=
  { id := 7, ctx := 0, grp := 0, kind := .reduce, stall := 0, seq := 0, started := true, len := 2, count := 64 }
def busyGroup : State := { groupState 1 with collOps := List.replicate 16 oneOp }
theorem witness_CollectiveIssues : UnitReady (groupState 0) h0 .mover .writes ∧ GuardOn (groupState 0) h0 ∧
    (groupState 0).dataGroup 0 = some 0 ∧ (groupState 0).grpUsable 0 0 = true ∧ (groupState 0).grpLen 0 0 = 1 ∧
    (groupState 0).grpUsable 0 1 = false ∧ run0.dataGroup 0 = none ∧ run0.grpUsable 0 0 = false ∧
    busyGroup.grpUsable 0 0 = true ∧ busyGroup.grpLen 0 0 ≠ 1 ∧
    16 ≤ (busyGroup.collOps.filter fun x => x.ctx = 0 && x.grp = 0 && x.started && !x.keyed).length ∧
    UnitReady busyGroup h0 .mover .writes :=
  ⟨unitReady _ _ _ (h := by decide), (by decide : ((groupState 0).stall 0).guard h0 = true), by decide, by decide, by decide, by decide,
    by decide, by decide, by decide, by decide, by decide, unitReady _ _ _ (h := by decide)⟩

/-- A group of two, for the letters of an operation that starts: a block of 64 bytes, and a contribution of 64 elements. -/
def collNet : State := { regs run0 [(.ceAxisPlan 0, 1 + (1 <<< 5)), (.ceGrpCtrl 0 0, 1)] with
  stalls := [(0, { stallUp with s := (((Vector.replicate 32 (0 : BitVec 64)).set 1 0x1000000001000).set 2 0x1000000008000).set 3 64 })] }
theorem witness_CollectiveIssues_letters : UnitReady collNet h0 .mover .writes ∧ GuardOn collNet h0 ∧ Clean collNet ∧ NoRing collNet ∧
    Sound collNet ∧ collNet.grpUsable 0 0 = true ∧ collNet.grpLen 0 0 = 2 ∧ collNet.flag (.ceGrpCtrl 0 0) F.ceGrpCtrl_SHAPE = false ∧
    collNet.postQ = [] ∧ collNet.collOps = [] ∧ collNet.grpPos 0 0 = 0 ∧ (collNet.stall 0).s[3].toNat % 2 ^ 32 / 64 * 64 = 64 ∧
    0 < (halfOf (chunkOf (Layout.of (collNet.stall 0).s[3] 2).count 2 0).1 (chunkOf (Layout.of (collNet.stall 0).s[3] 2).count 2 0).2 0).2 ∧
    (let a := (moverState collNet h0).collBuf 0 0 (collNet.stall 0).s[1] .i8 0 128 false
     let b := a.1.collBuf 0 0 (collNet.stall 0).s[2] .i8 0 128 true
     (a.2.els.all fun x => b.2.els.all fun y => x.isNone || x.map wordOf != y.map wordOf) = true) :=
  ⟨unitReady _ _ _ (h := by decide), (by decide : (collNet.stall 0).guard h0 = true), ⟨by rfl, by rfl, by rfl, by rfl, by rfl⟩,
    noRing_up _ (by decide), (by decide : Memory.wf collNet.mem = true), by decide, by decide, by decide, by rfl, by rfl, by decide,
    by decide, by decide, by decide⟩

/-- A member of a group of one copies its buffer: 4 bytes of BF16 from one offset of the stall store to another (R284). -/
theorem test_reduce_alone :
    after (exec (.collReduce h0 0 1 2 3) { groupState 0 with
        stalls := [(0, { stallUp with s := ((((Vector.replicate 32 (0 : BitVec 64)).set 1 0x100).set 2 0x200).set 3 2) })],
        mem := [(stallBase 0 + 0x100, 5), (stallBase 0 + 0x103, 6)] })
      (fun t => ((t.stall 0).flights.map (·.status), t.collOps.length)) = some ([.ok], 0) := by decide

/-- Records that may retire, and one that has a fault. -/
def faulty : State := { up with stalls := [(0, { stallUp with nextSeq := 1, flights := [{ flightV with status := .uncorrectable }] })] }
theorem witness_UnitInstructionsEnd :
    ((flying.stall 0).unitFlights .vector)[0]? = some flightV ∧ flying.mayEnd 0 flightV 0 = true ∧ statusRetires flightV.status = true ∧
    flightV.kind = .plain ∧ flightV.dest = none ∧ flightV.collOp = none ∧ (flying.stall 0).halting = none ∧
    flying.collReady flightV = true ∧
    (((faulty.stall 0).unitFlights .vector)[0]?.any fun f => faulty.mayEnd 0 f 0 && !statusRetires f.status && f.collOp.isNone) =
      true := by decide

/-- An instruction whose result is undefined, and a word that one of its writes is under way in. -/
theorem witness_UnitInstructionsEnd_undefined :
    let f : Flight := { flightV with lands := some (.vreg 3), counts := [(.reserved, 1)] }
    let c : Racing := { word := 0x40, base := List.replicate 8 0, mark := false, writes := [{ actor := f.actor 0, bytes := [], whole := false }] }
    let s : State := { up with stalls := [(0, { stallUp with nextSeq := 1, flights := [f] })], racing := [c],
                               underway := { undef := [f.actor 0] } }
    ((s.stall 0).unitFlights .vector)[0]? = some f ∧ s.mayEnd 0 f 0 = true ∧ f.actor 0 ∈ s.underway.undef ∧
    flightV.actor 0 ∉ up.underway.undef ∧ (∃ w ∈ c.writes, w.actor = f.actor 0) ∧ f.lands ≠ some (.vreg 4) := by decide

/-- Updates that wait for the seal, whose wait holds or may end, and a tile whose instruction is in flight or gone. -/
def waitFlight (w : UpdWait) : Flight := { flightV with kind := .update (some w) }
def updWaitState (w : UpdWait) (sealed : BitVec 64) : State :=
  { regs up [(.stlUpdSealed 0, sealed)] with stalls := [(0, { stallUp with nextSeq := 1, flights := [waitFlight w] })] }
def aTile : TileRec := { stall := 0, seq := 0, ctx := 0, key := ⟨0, 0, 0, 0⟩, gather := none, scratch := 0x2000, mark := 0x2040 }
theorem witness_UpdateWaitsAndWatchSamples :
    ((updWaitState (.seal 1 0 0 .bf16) 0xFFFFFFFF).stall 0).updWaiting = some (waitFlight (.seal 1 0 0 .bf16), .seal 1 0 0 .bf16) ∧
    BitVec.ofNat 32 (bitsOf (1 : BitVec 64).toNat 0 32) = (updWaitState (.seal 1 0 0 .bf16) 0xFFFFFFFF).sealed 0 + 2 ∧
    ((updWaitState (.foldSeal 1) 0).stall 0).updWaiting = some (waitFlight (.foldSeal 1), .foldSeal 1) ∧
    ¬ BitVec.ofNat 32 (bitsOf (1 : BitVec 64).toNat 0 32) = (updWaitState (.foldSeal 1) 0).sealed 0 + 2 ∧
    (({ up with tiles := [aTile] } : State).tiles.find? fun x => x.stall = 0 && x.seq = 0) = some aTile ∧
    (flying.stall 0).flights.any (fun x => x.seq = 0) = true ∧ (up.stall 0).flights.any (fun x => x.seq = 0) = false ∧
    up.yardRuns (yardOf 0) = true := by decide

/-- A sample of a 1 × 1 accumulator whose destination is settled, of a watch that counts, and of one that is frozen. -/
def aSample : WatchSample :=
  { stall := 0, acc := 0, m := 1, n := 1, own := [[{}]], array := [[{}]], shadow := none, kcount := 1,
    histA := [], histB := [], bases := (0, 0, 0), overThresh := 1, dest := some (.bf16, .ieee, none) }
def sampleState : State := { up with watches := [(0, { sample := some aSample })] }
theorem witness_WatchSamples : (sampleState.watch 0).sample = some aSample ∧ aSample.dest = some (.bf16, .ieee, none) ∧
    sampleState.watchFrozen 0 = false ∧ aSample.shadow = none ∧
    (regs sampleState [(.stbNwCtrl 0, F.stbNwCtrl_FREEZE.put 0 1)]).watchFrozen 0 = true := by decide

/-- For `LoaderRefusedForms`: a unit that takes each class of instruction; each wait's end; an update whose tiles are complete. -/
def anEntry : GroupEntry :=
  { flags := 0, start := 0, rows := 1, cols := 1, eta := 0, lambda := 0, beta1 := 0, beta2 := 0, eps := 0, clipD := 0, gMul := 0,
    w := (0, 0), m := (0, 0), st := (0, 0), scratch := 0x2000 }
def tilesWait : UpdWait := .tiles 1 0 0 1 anEntry ⟨1, 0, 1, 1, 1, 1⟩
theorem witness_LoaderRefusedForms : GuardOn run0 h0 ∧ UnitReady run0 h0 .vector .none ∧ UnitReady run0 h0 .matrix .reads ∧
    UnitReady run0 h0 .matrix .writes ∧ UnitReady run0 h0 .vector .writes true ∧ UnitReady run0 h0 .mover .writes ∧
    Ready run0 h0 .sync ∧ updOk .bf16 = true ∧ (flying.stall 0).running = true ∧ (flying.stall 0).halting = none ∧
    ((waiting (.tally h0 3 0) []).stall 0).wait = some (.tally h0 3 0) ∧
    0 ∈ (waiting (.barrier h0 32 0) []).barrierTeam 0 32 ∧ statusRetires flightV.status = true ∧ flying.collReady flightV = true ∧
    ((flying.stall 0).unitFlights .vector)[0]? = some flightV ∧ flying.mayEnd 0 flightV 0 = true ∧
    (({ up with tiles := [aTile] } : State).tiles.find? fun x => x.stall = 0 && x.seq = 0) = some aTile ∧ aTile.gather = none ∧
    up.yardRuns (yardOf 0) = true ∧
    ((updWaitState tilesWait 0).stall 0).updWaiting = some (waitFlight tilesWait, tilesWait) ∧
    (({ updState 0 (tableMem []) [] with actor := some (updActor 0 0), refusing := some [] } : State).tilesDone 0 0
      ⟨1, 0, 1, 1, 1, 1⟩ 0x2000).2 = true :=
  ⟨(by decide : (run0.stall 0).guard h0 = true), unitReady _ _ _ (h := by decide), unitReady _ _ _ (h := by decide),
    unitReady _ _ _ (h := by decide), unitReady run0 _ _ true (by decide), unitReady _ _ _ (h := by decide),
    (by decide : run0.canIssue 0 .sync = true), by decide, by decide, by decide, by decide, by decide, by decide, by decide, by decide,
    by decide, by decide, by decide, by decide, by decide, by decide⟩

/-! ### The host -/

/-- A misaligned write and one of 2 bytes; a reserved address; a register of a unit that answers, and of one that does not. -/
theorem witness_RegisterWrites : (0xFF0000000004 % 8 ≠ 0) ∧ ((2 : Nat) ≠ 4 ∧ (2 : Nat) ≠ 8) ∧ Reg.ofAddr 0xFF0800000008 = none ∧
    Reg.ofAddr Reg.hstSolo.addr = some .hstSolo ∧ Reg.hstSolo.addr % 8 = 0 ∧
    (if Reg.hstSolo.domain = .porter then State.reset.aux else State.reset.dieUp) = false ∧ up.dieUp = true ∧ up.aux = true ∧
    (regs up [(.hstLinkStatus, 16)]).hostLink = true ∧ up.hostLink = false ∧
    Reg.ptrStage.domain = .porter ∧ Reg.ofAddr (Reg.ptrStage.addr / 8 * 8) = some .ptrStage ∧ 0x1000 + 8 ≤ 0xFF0000000000 ∧
    0xFF0800000008 ≥ 0xFF000FF11000 := by decide
theorem test_misaligned : after (exec (.registerWrite ⟨.bar0, 0xFF0000000004⟩ 8 (some 1)) up) (fun t => (t.irqs, t.fld .hstBarErr F.COUNT)) =
    some ([259], 1) := by decide
/-- A field keeps its value where the one written is not valid (R8). -/
theorem test_solo : after (exec (.registerWrite ⟨.bar0, Reg.hstSolo.addr⟩ 8 (some (F.hstSolo_CONTEXT.put (F.hstSolo_EN.put 0 1) 9))) up)
    (fun t => (t.fld .hstSolo F.hstSolo_EN, t.fld .hstSolo F.hstSolo_CONTEXT)) = some (1, 9) := by decide

/-- A write through the window lands, and is read back (R298). -/
theorem test_bar2 : after (exec (.bar2Access 0x10 true 2 [(1, false), (2, false)]) up) (fun t =>
    after (exec (.bar2Access 0x11 false 1 []) t) (fun u =>
      u.hostOut.map fun m => match m with | .reply b => b.map (·.1.toNat) | _ => [])) = some (some [[2]]) := by decide
theorem witness_Bar2AccessesAndLink : up.dieUp = true ∧ NoRing up ∧ Sound up ∧ Clean up ∧
    ((16 : BitVec 5) = 16 ∧ (5 : BitVec 3).toNat ≤ 5) ∧ ¬ ((3 : BitVec 5) = 1 ∨ (3 : BitVec 5) = 2 ∨ (3 : BitVec 5) = 4 ∨
      (3 : BitVec 5) = 8 ∨ (3 : BitVec 5) = 16) ∧ 5 < (6 : BitVec 3).toNat :=
  ⟨by rfl, noRing_up _ (by decide), (by decide : Memory.wf up.mem = true), ⟨by rfl, by rfl, by rfl, by rfl, by rfl⟩, by decide, by decide, by decide⟩

/-- Context 0 ACTIVE under job tag 7, in Stage 3; queue pair 0 enabled for it. -/
def host0 : State := regs run0 [(.ptrStage, 3), (.hstCtxStatus 0, 1), (.hstCtxCtrl 0, 7)]
def qpOn : BitVec 64 := F.hstQpCtrl_IRQ_COUNT.put (F.hstQpCtrl_CQ_LOG2.put (F.hstQpCtrl_SQ_LOG2.put 1 4) 4) 1
def qpState (accepted : BitVec 64) (tail : BitVec 64) : State :=
  regs host0 [(.hstQpCtrl 0, qpOn), (.hstQpStatus 0, accepted), (.hstQpSqTail 0, tail)]
def nopConsign : Consign :=
  { qp := 0, ctx := 0, index := 0, opcode := 0, flags := 0, cid := 1, addrA := 0, addrB := 0, length := 0 }
def withConsign (c : Consign) : State := { qpState 1 1 with consigns := [(1, c)], nextConsign := 2 }

theorem witness_QueuePairRegisters :
    (host0.qpEnabled 0 = false ∧ host0.qpDraining 0 = false ∧ host0.ctxState (Fin.ofNat 64 (F.hstQpCtrl_CONTEXT.get qpOn)) = 1 ∧
      4 ≤ F.hstQpCtrl_SQ_LOG2.get qpOn ∧ F.hstQpCtrl_SQ_LOG2.get qpOn ≤ 12 ∧ 4 ≤ F.hstQpCtrl_CQ_LOG2.get qpOn ∧
      F.hstQpCtrl_CQ_LOG2.get qpOn ≤ 12) ∧
    (qpState 0 1).qpEnabled 0 = true ∧ (qpState 0 1).qpAccepted 0 ≠ (1 : BitVec 16).toNat ∧
    (regs host0 [(.hstQpStatus 0, F.hstQpStatus_DRAINING.put 0 1)]).qpDraining 0 = true ∧
    (let s : State := { regs host0 [(.hstQpCtrl 0, F.hstQpCtrl_IRQ_DELAY_US.put qpOn 5)] with unsignalled := [(0, 1)] }
     s.fld (.hstQpCtrl 0) F.hstQpCtrl_IRQ_DELAY_US ≠ 0 ∧ AMap.get 0 0 s.unsignalled ≠ 0) ∧
    consignAt (withConsign nopConsign) 1 = some nopConsign := by decide
/-- A write of ENABLE to an enabled pair, and a disabled pair that is not draining. -/
theorem witness_QueuePairRegisters_ignored : (qpState 0 1).qpEnabled 0 = true ∧ host0.qpEnabled 1 = false ∧ host0.qpDraining 1 = false := by
  decide

/-- An entry of zeros is a NOP; opcode 4 is malformed; a final completion, with room and without. -/
def cqFull : State := regs (withConsign { nopConsign with phase := .final }) [(.hstQpCqHead 0, 0xFFF0)]
theorem witness_QueueEntries : (qpState 0 1).mayAccept 0 = true ∧ (qpState 1 1).mayAccept 0 = false ∧ badEntry 0 = false ∧
    badEntry 4 = true ∧
    ((withConsign { nopConsign with phase := .final }).qpConsigns 0).head? = some (1, { nopConsign with phase := .final }) ∧
    (withConsign nopConsign).qpFetchErr 0 = false ∧
    (let s := cqFull
     2 ^ s.fld (.hstQpCtrl 0) F.hstQpCtrl_CQ_LOG2 ≤ (s.qpCompleted 0 + 2 ^ 16 - s.fld (.hstQpCqHead 0) F.hstQpCqHead_INDEX) % 2 ^ 16) ∧
    (let s := withConsign { nopConsign with phase := .final }
     (s.qpCompleted 0 + 2 ^ 16 - s.fld (.hstQpCqHead 0) F.hstQpCqHead_INDEX) % 2 ^ 16 < 2 ^ s.fld (.hstQpCtrl 0) F.hstQpCtrl_CQ_LOG2 ∧
     s.fld (.hstQpCtrl 0) F.hstQpCtrl_IRQ_COUNT ≠ 0) := by decide
theorem test_accept : after (exec (.sqEntryAccept 0 4 true) (qpState 0 1)) (fun t =>
    (t.qpAccepted 0, t.consigns.map fun e => (e.2.phase, e.2.status, e.2.detail))) =
      some (1, [(.final, .returnedUnstarted, 1)]) := by decide

/-- A copy of one byte under way, and an image that the loader wrote for the context: 8 stalls of stable 3. -/
def aCopy : DmaCopy := { id := 1, out := false, host := 0, start := 0, bytes := [(none, 5, false)] }
def runConsign : Consign := { nopConsign with opcode := 1 }
def anImage : ImageRec := { id := ⟨0, 0, 0⟩, stables := [3], nStalls := 8, map := [0, 0, 0, 0, 0, 0, 0, 0], programs := [{}] }
def imageState : State := { withConsign runConsign with images := [anImage], stableImg := [(3, some ⟨0, 0, 0⟩)], ctxStables := [(0, [3])] }
theorem witness_ConsignmentsStartAndEnd :
    (withConsign nopConsign).findConsign 0 0 = some (1, nopConsign) ∧ (withConsign nopConsign).mayStartConsign 1 nopConsign = true ∧
    (withConsign { nopConsign with phase := .final }).mayStartConsign 1 { nopConsign with phase := .final } = false ∧
    nopConsign.status = .ok ∧ (withConsign nopConsign).dmaOf 1 = none ∧
    ({ withConsign nopConsign with dma := [aCopy] } : State).dmaOf 1 = some aCopy ∧
    (withConsign nopConsign).updatesDone nopConsign = true ∧ (withConsign nopConsign).mayFinish 0 = true ∧
    (withConsign { nopConsign with opcode := 2 }).mayStartConsign 1 { nopConsign with opcode := 2 } = true ∧
    (withConsign { nopConsign with opcode := 2, phase := .started }).stallsDone { nopConsign with opcode := 2, phase := .started } = true ∧
    (withConsign { nopConsign with phase := .started }).settled { nopConsign with phase := .started } = true ∧
    (withConsign { nopConsign with opcode := 3 }).mayStartConsign 1 { nopConsign with opcode := 3 } = true ∧
    (withConsign nopConsign).receiptsIn nopConsign = true ∧ imageState.mayStartConsign 1 runConsign = true ∧
    imageState.loaded ⟨0, 0, 0⟩ = some anImage ∧ anImage.stables.any imageState.stableBusy = false ∧ imageState.refusing = none ∧
    anImage.nStalls = 8 * anImage.stables.length ∧ anImage.stables.length ≤ 16 ∧ anImage.stables.Nodup ∧
    ({ imageState with consigns := [(1, runConsign), (2, { runConsign with phase := .started, stalls := [24] })],
                       stalls := [(24, stallUp)] } : State).stableBusy 3 = true ∧
    (withConsign runConsign).loaded ⟨0, 0, 0⟩ = none ∧
    (((withConsign runConsign).usable 0).take 1).any (withConsign runConsign).stableBusy = false := by decide
/-- No image has a format that zeros spell: a RUN of memory that reads as zero is refused for its format. -/
theorem witness_refused_load :
    ((withConsign runConsign).load 0 ⟨0, 0, 0⟩ (List.replicate 256 0)).2.isSome = true := by decide

theorem witness_AbortOutcomes : up.findConsign 0 0 = none ∧ (withConsign nopConsign).findConsign 0 0 = some (1, nopConsign) ∧
    nopConsign.phase = .waiting ∧ ({ nopConsign with phase := .final, status := .refusedFit } : Consign).phase = .final ∧ (withConsign { runConsign with phase := .started }).retired 1 { runConsign with phase := .started } = false ∧
    (withConsign { runConsign with phase := .started, stalls := [24] }).retired 1 { runConsign with phase := .started, stalls := [24] } = true ∧
    (withConsign runConsign).dmaOf 1 = none ∧
    (({ withConsign runConsign with dma := [aCopy] } : State).dmaOf 1).isSome = true := by decide

/-! ### Contexts and resets -/

theorem witness_ContextCommands : host0.stage = 3 ∧ host0.ctxState 1 = 0 ∧ host0.ctxState 0 = 1 ∧
    (∀ d, d ≠ 1 → (regs host0 [(.hstCtxPost 1, 1 <<< 26)]).ctxState d ≠ 0 → (regs host0 [(.hstCtxPost 1, 1 <<< 26)]).jobTag d ≠ 9 ∧
      (regs host0 [(.hstCtxPost 1, 1 <<< 26)]).fld (.hstCtxPost d) F.hstCtxPost_POST_PA ≠
        (regs host0 [(.hstCtxPost 1, 1 <<< 26)]).fld (.hstCtxPost 1) F.hstCtxPost_POST_PA) ∧
    up.stage ≠ 3 ∧ (regs host0 [(.hstCtxStatus 0, 2)]).ctxState 0 = 2 ∧ (regs host0 [(.hstCtxStatus 0, 3)]).ctxState 0 = 3 := by decide

/-- CREATE where its tag is another context's, and where only its posted area is. -/
theorem witness_ContextCommands_causes : (∃ d, d ≠ 1 ∧ host0.ctxState d ≠ 0 ∧ host0.jobTag d = 7) ∧
    (∀ d, d ≠ 1 → host0.ctxState d ≠ 0 → host0.jobTag d ≠ 9) ∧
    (∃ d, d ≠ 1 ∧ host0.ctxState d ≠ 0 ∧
      host0.fld (.hstCtxPost d) F.hstCtxPost_POST_PA = host0.fld (.hstCtxPost 1) F.hstCtxPost_POST_PA) := by decide
theorem test_create : after (exec (.create 1 9) (regs host0 [(.hstCtxPost 1, 1 <<< 26)])) (fun t =>
    (t.ctxState 1, t.jobTag 1, t.fld (.hstCtxStatus 1) F.hstCtxStatus_REFUSED)) = some (1, 9, 0) := by decide
theorem test_create_refused : after (exec (.create 1 9) up) (fun t => (t.ctxState 1, t.fld (.hstCtxStatus 1) F.hstCtxStatus_REFUSED)) =
    some (0, 1) := by decide

def resetting : State := { regs host0 [(.hstCtxStatus 0, 2)] with resets := [(0, ⟨1, 255, 0, false⟩)] }
theorem witness_ContextEnds : (resetting.resets.find? fun e => e.1 = 0) = some (0, ⟨1, 255, 0, false⟩) ∧ resetting.quiesced 0 = true ∧
    resetting.ctxState 0 = 2 ∧
    ({ resetting with ctxStables := [(0, [0])], stableResets := [(0, 0)] } : State).quiesced 0 = false ∧
    (let s := regs up [(.hstCtxStatus 0, 3)]
     s.ctxState 0 = 3 ∧ (s.resets.any fun e => e.1 = 0) = false ∧ s.ctxClearing 0 = false ∧ s.ctxRunning 0 = false) ∧
    0 ∈ ({ regs up [(.hstCtxStatus 0, 3)] with xlatPend := [0] } : State).xlatPend ∧
    (let s : State := { up with xlatPend := [0] }
     0 ∈ s.xlatPend ∧ s.xlatBusy 0 = false) ∧ (0 : Fin 64) ∉ up.xlatPend := by decide

/-- A hung context whose stall 0 runs, with nothing in its units, and with an access to memory in flight; attributions of engine 0, and
of a memory controller; resets of an engine and of a stable. -/
def hungState (l : List (Nat × Nat)) (fs : List Flight := []) : State :=
  { host0 with consigns := [(1, { runConsign with phase := .started, stalls := [0] })], ctxStables := [(0, [0])], attribs := l,
               stalls := [(0, { stallUp with flights := fs })] }
def noHang : Hang := { idle := true, held := [] }
/-- The command processor is loading an image for a consignment (R310, R375). -/
theorem witness_ResetLadder_load : (withConsign runConsign).loadOp 0 { noHang with loading := [(0, 0, 7)] } = [(7, [130])] := by decide
def loading : Flight := { fly0 with reads := [.chip] }
theorem witness_ResetLadder : (hungState []).ctxState 0 = 1 ∧ (hungState []).ctxRunning 0 = true ∧ (hungState []).blocks 0 255 noHang = true ∧
    (hungState []).blocks 0 0 noHang = false ∧ (hungState [] [loading]).blocks 0 0 noHang = true ∧ (hungState [] [loading]).blocks 0 131 noHang = true ∧
    (hungState [] [loading]).blocks 0 129 noHang = false ∧ 2 ≤ (hungState [(131, 0), (131, 0)]).attribCount 131 ∧
    (hungState []).attribCount 0 ≤ 1 ∧ 2 ≤ (hungState [(0, 0), (0, 0)]).attribCount 0 ∧ (hungState []).attribCount 129 = 0 ∧
    (let s : State := { resetting with ctxStables := [(0, [0])] }
     (s.resets.any fun x => x.1 = 0) = true ∧ stableOf 0 ∈ s.reserved 0 ∧ s.attribCount 0 = 0 ∧ s.attribCount 129 = 0) ∧
    (up.resets.any fun x => x.1 = 0) = false ∧
    (hungState []).stallFenced 0 = false ∧ (hungState []).fld .ptrEscStatus F.ptrEscStatus_FENCES < 2 ∧
    2 ≤ (hungState [(130, 0), (130, 0)]).attribCount 130 ∧ stableOf 0 ∈ (hungState []).reserved 0 ∧
    ({ up with engResets := [(0, 0)] } : State).engResets.any (fun x => x.2 = 0) = true ∧
    ({ up with stableResets := [(0, 0)] } : State).stableResets.any (fun x => x.1 = 0) = true := by decide

theorem witness_DieResetAndPowerCycle : up.dieUp = true ∧ State.reset.dieUp = false ∧ up.dieResetting = false ∧
    ({ up with dieUp := false, dieResetting := true } : State).dieResetting = true ∧ ({ up with cycle := .removed } : State).cycle = .removed ∧
    up.dieResets1h = 0 ∧ ({ up with dieHist := [0] } : State).dieResets1h ≠ 0 ∧ up.cycle = .none ∧ up.aux = true ∧
    up.fld .ptrStage F.ptrStage_STAGE = 0 ∧ host0.fld .ptrStage F.ptrStage_STAGE ≠ 0 := by decide

/-- A seal whose tally is complete here, a failed mirror, a letter from the neighbour of a ring of 2, and a REVERT that may be. -/
theorem witness_SealsAndMirrors : host0.ctxState 0 = 1 ∧ up.ctxState 0 ≠ 1 ∧ host0.ctxRunning 0 = false ∧
    newer16 1 (BitVec.ofNat 16 (host0.sealTry 0)) = true ∧
    (regs host0 [(.hstCtxSealState 0, F.hstCtxSealState_FAIL.put 0 1)]).flag (.hstCtxSealState 0) F.hstCtxSealState_FAIL = true ∧
    host0.flag (.hstCtxSealState 0) F.hstCtxSealState_FAIL = false ∧ (host0.sealRec 0).mirror = none ∧ host0.globalOn = true ∧
    host0.ctxOfTag 7 = some 0 ∧ host0.ctxOfTag 8 = none ∧ host0.fenced 0 = false ∧
    (regs host0 [(.soCtxFence, 1)]).fenced 0 = true := by decide

/-- The letter clause of `SealsAndMirrors`: W is a slice of 3, this chip at place 1, its neighbour on the minus side at place 0. -/
def sealState : State :=
  { regs host0 [(.ceAxisPlan 0, (1 + (2 <<< 5)) <<< 48), (.hstCtxSeal 0, 1 <<< 12), (.soRtCtrl, 2), (.soRtAxis 0 3, 15 <<< 32)] with
    chip := 1 <<< 10 }
def sealLetter : Letter :=
  { dest := 1 <<< 10, src := 0, cls := .bulk, jobTag := 7, op := 1, length := 64,
    body := [0, 0, 0, 0, 0, 0, 3, 0, 0, 0, 0, 0, 1, 0] ++ List.replicate 50 0 }
theorem witness_SealsAndMirrors_letter :
    let a := Fin.ofNat 4 (natAt sealLetter.body 6 1 % 4)
    let L := sealState.planLen 0 a
    (sealState.recvStream (streamOf sealLetter)).judge sealLetter.postmark = .new ∧ sealState.mineWritten 0 = false ∧
    sealState.mineMirror 0 = false ∧ natAt sealLetter.body 6 1 / 4 % 2 = 0 ∧ a ∈ sealState.sealAxes 0 ∧ sealState.hasMinus 0 a = true ∧
    natAt sealLetter.body 7 1 = (sealState.slicePos 0 a + L - 1) % L ∧ sealLetter.src = sealState.neighbour a false ∧
    BitVec.ofNat 32 (natAt sealLetter.body 0 4) = sealState.sealStep 0 ∧ natAt sealLetter.body 4 2 = sealState.sealTry 0 ∧
    newer32 (BitVec.ofNat 32 (natAt sealLetter.body 8 4)) (sealState.mirrorStep 0) = false := by decide
theorem test_seal_letter : after (exec (.sealLetterReceive sealLetter) sealState) (fun t =>
    (AMap.get 0 3 (t.sealRec 0).fromMinus, t.sealed 0)) = some (1, 0xFFFFFFFF) := by decide

/-! ### Ports -/

/-- Port 0 in a training step at full rate, and at half rate with one strand left; port 0 UP on all strands; port 4 UP. -/
def portSt (p : Fin 8) (state strands : Nat) : Reg × BitVec 64 :=
  (.soPortStatus p, F.soPortStatus_STRANDS.put (F.soPortStatus_STATE.put 0 state) strands)
def released : Reg × BitVec 64 := (.ptrBypass, F.ptrBypass_HOLD.put 0 15)
def training (t : Training) : State := { regs up [portSt 0 2 0, released] with ports := [(0, { training := t })] }
def linkUp : State := { regs up [portSt 0 3 15, portSt 4 3 15, released] with ports := [(0, {})] }

theorem witness_PortTraining : up.trains 0 = false ∧ (training .signal).trains 0 = true ∧ ((training .signal).port 0).training = .signal ∧
    (training .signal).flag (.soPortStatus 0) F.soPortStatus_DARK = false ∧ ((training .retry).port 0).training = .retry ∧
    ((training (.steps false 15)).port 0).training = .steps false 15 ∧ ((training (.steps true 1)).port 0).training = .steps true 1 ∧
    (15 : BitVec 4) &&& ~~~1 ≠ 0 ∧ (1 : BitVec 4) &&& ~~~1 = 0 ∧ (training .signal).axisReleased (portAxis 0) = true ∧
    (15 : BitVec 4) &&& 2 ≠ 0 ∧ (1 : BitVec 4) &&& 2 = 0 := by decide
/-- The limit of agreement fails at full rate too, where strands are locked (R215). -/
theorem test_agreement_timeout : after (exec (.trainingStepTimeout 0 none) (training (.steps false 15))) (fun t =>
    (t.port 0).training) = some .retry := by decide
/-- The lanes of both ends crossed, lane 47 first, with inverted polarity: each number arrives once. -/
def crossed : LaneMap := .ofFn fun k : Fin 48 => (Fin.ofNat 64 (47 - k.val), true)
theorem witness_PortTraining_lanes : crossed.mapped = 15 ∧ LaneMap.mapped (.replicate 48 (5, true)) = 0 ∧
    (6 : BitVec 4) &&& 3 &&& crossed.mapped ≠ 0 ∧ (6 : BitVec 4) &&& 1 &&& crossed.mapped = 0 ∧ crossed[(0 : Fin 48)].1.val = 47 := by decide
theorem test_port_up : after (exec (.portUp 0 3 false true crossed) (training (.steps false 6))) (fun t =>
    (t.portState 0, t.strands 0, t.fld (.soLaneStat 0 12) F.soLaneStat_PEER_LANE, t.fld (.soLaneStat 0 11) F.soLaneStat_LOCK)) =
      some (3, 2, 35, 0) := by decide

theorem witness_PortsGoDown : linkUp.dieUp = true ∧ linkUp.portDisabled 0 = false ∧ linkUp.linkUp 0 = true ∧ linkUp.linkUp 1 = false ∧
    linkUp.axisReleased (portAxis 0) = true ∧ linkUp.axisHeld (portAxis 0) = true ∧ up.axisHeld (portAxis 0) = false ∧
    (regs linkUp [(.soPortCtrl 0, F.soPortCtrl_DISABLE.put 0 1)]).portDisabled 0 = true ∧
    linkUp.linkUp 4 = true ∧ linkUp.flag (.soPortStatus 4) F.soPortStatus_DARK = false ∧
    (regs linkUp [(.soPortStatus 4, F.soPortStatus_DARK.put 0 1)]).flag (.soPortStatus 4) F.soPortStatus_DARK = true ∧
    (training .signal).portState 0 = 2 ∧
    (let s := regs up [(.soPortCtrl 0, F.soPortCtrl_DISABLE.put 0 1), (.ptrBypass, F.ptrBypass_ENGAGED.put (F.ptrBypass_FORCE.put 0 1) 15)]
     s.portDisabled 0 = true ∧ s.axisForced (portAxis 0) = true ∧ s.axisEngaged (portAxis 0) = true) := by decide
theorem test_down : after (exec (.down 0) linkUp) (fun t => (t.portState 0, t.strands 0)) = some (2, 0) := by decide

def dropping (n : Nat) : State := { linkUp with ports := [(0, { drop := [(1, 9, n)] })] }
/-- Two strands whose drop is agreed at one frame, and a third whose drop is agreed at a later one, past the count's end. -/
def agreed : Port := { dropAt := [(0, 9), (1, 9), (2, 3)], fseq := 8, restoring := 2, hunting := some 4096 }
theorem witness_LanesAndStrands_staying : linkUp.minStrands 0 ≤ strandCount (linkUp.staying 0 &&& ~~~1) ∧
    ({ linkUp with ports := [(0, { dropAt := [(1, 3), (2, 3), (3, 3)] })] } : State).staying 0 = 1 ∧
    strandCount (({ linkUp with ports := [(0, { dropAt := [(1, 3), (2, 3), (3, 3)] })] } : State).staying 0 &&& ~~~1) <
      linkUp.minStrands 0 ∧ (linkUp.port 0).turns = [] ∧ (linkUp.port 0).addAt = [] ∧
    (rxFrame 0 9 none).1.fseq = 9 ∧ (linkUp.rxStrands 0 9).getLsbD 0 = true := by decide
theorem witness_LanesAndStrands : linkUp.minStrands 0 ≤ strandCount (linkUp.strands 0 &&& ~~~1) ∧
    strandCount (linkUp.strands 0 &&& ~~~15) < linkUp.minStrands 0 ∧ (linkUp.port 0).drop = [] ∧ (linkUp.port 0).dropAt = [] ∧
    (((dropping 7).port 0).drop.find? fun d => d.1 = 1 && d.2.1 = 9) = some (1, 9, 7) ∧
    (∀ d ∈ ((dropping 7).port 0).drop, d.1 ≠ 2 ∨ d.2.1 ≠ 9) ∧ ((dropping 8).port 0).drop = [(1, 9, 8)] ∧
    agreed.nextDrop = some 9 ∧ dueAt 9 agreed.dropAt = 3 ∧ linkUp.strands 0 &&& ~~~dueAt 9 agreed.dropAt ≠ 0 ∧
    (regs linkUp [portSt 0 3 3]).strands 0 &&& ~~~dueAt 9 agreed.dropAt = 0 ∧
    (1 : BitVec 4) &&& ~~~(regs linkUp [portSt 0 3 14]).strands 0 ≠ 0 ∧ (1 : BitVec 4) &&& ~~~linkUp.strands 0 = 0 ∧
    ((1 : BitVec 4) &&& crossed.mapped &&& ~~~(regs linkUp [portSt 0 3 14]).strands 0) ≠ 0 ∧ dueAt 8 (agreeAt 5 8 []) = 5 ∧
    (linkUp.linkUp 0 && (linkUp.strands 0).getLsbD 0) = true ∧ (linkUp.linkUp 1 && (linkUp.strands 1).getLsbD 0) = false := by decide
/-- A strand agreed twice is dropped at the later frame, and another agreement leaves it (R219). -/
theorem test_two_drops : agreeAt 1 250 (agreeAt 2 4 (agreeAt 1 3 [])) = [(0, 3), (1, 4)] := by decide

/-! ### Letters -/

/-- Chip 0 of a full torus, in Stage 3, context 0 ACTIVE under job tag 7, port 0 UP to an accepted peer; its group 0 lies on X. -/
def net : State :=
  { regs host0 [(.soRtCtrl, 2), (.soRtAxis 0 0, 7 <<< 32), (.soRtAxis 0 1, 7 <<< 32), (.soRtAxis 0 2, 15 <<< 32),
      (.soRtAxis 0 3, 15 <<< 32), portSt 0 3 15, (.soPortDisc 0, F.soPortDisc_OUTCOME.put 0 1), (.ceAxisPlan 0, 1 + (1 <<< 5)),
      (.ceGrpCtrl 0 0, 1)] with xlat := [page0], ports := [(0, {})] }
def bulk : Letter := { dest := 0, src := 1, vc := 6, cls := .bulk, jobTag := 7, length := 2, body := [8, 9], target := 0x40 }
def netOut : State := { net with outQ := [⟨0, none, 6, { bulk with dest := 1, src := 0 }⟩] }

theorem test_letter_start : after (exec (.letterStart (some 0) none) netOut) (fun t =>
    (t.wire.length, t.outQ.length, t.fld (.soPortFlitsInjected 0) F.COUNT, (t.txVc 0 6).held)) = some (2, 0, 2, [(1, true)]) := by
  decide
theorem witness_LettersOnALink : netOut.linkUp 0 = true ∧
    ((({} : Arbiter).choose ((netOut.heads 0).filter fun o => netOut.carries 0 o.lt.cls o.through && netOut.hasCredit o)).any
      fun o => o.port = 0 && decide (0 < flitsOf o.lt)) = true ∧
    (({} : Arbiter).choose ((net.heads 0).filter fun o => net.carries 0 o.lt.cls o.through && net.hasCredit o)) = none ∧
    flitsOf bulk ≠ 0 ∧ ({ net with inbox := [bulk] } : State).inbox = bulk :: [] ∧
    (net.port 0).hunting = none ∧ (net.port 0).flits = [] ∧
    headOk (headFlit bulk) = true ∧ (none.any fun b : List Byte => headOk b) = false ∧
    roomFor (poolOf 0) (net.rxGranules 0) 6 1 = true ∧
    roomFor (poolOf 0) ({ net with rxHeld := [⟨0, 6, 100000, bulk⟩] }.rxGranules 0) 6 1 = false := by decide
/-- Letters that have arrived whole on port 0: one for this chip, and one that goes on. -/
def arriving (lt : Letter) : State := { net with ports := [(0, { flits := (wireFlits lt).map some })] }
theorem witness_LettersOnALink_accepted :
    ((arriving bulk).port 0).flits = some (headFlit bulk) :: ((wireFlits bulk).drop 1).map some ∧
    headOk (headFlit bulk) = true ∧ readHead (headFlit bulk) = { bulk with body := [] } ∧
    flitsOf bulk ≤ (((wireFlits bulk).drop 1).map some).length ∧ none ∉ ((wireFlits bulk).drop 1).map some ∧ bulk.hops.toNat < 48 ∧
    portLetter bulk = false ∧ reservedOp bulk = false ∧ net.carries 0 .bulk false = true ∧ net.rtValid (epochVer bulk.epoch) = true ∧
    net.route (epochVer bulk.epoch) bulk.dest = .arrived ∧ net.route (epochVer bulk.epoch) 1 = .port 0 ∧
    net.carries 0 .bulk true = true ∧ net.skips 0 1 = false := by decide
theorem test_accepted : after (exec (.letterHeadReceive 0) (arriving bulk)) (fun t => t.inbox.map fun x => (x.length, x.body.map (·.toNat))) =
    some [(2, [8, 9])] := by decide
theorem witness_LettersAsFlits_request : ({ bulk with cls := .request, body := [] } : Letter).cls = .request := by decide
theorem witness_LettersAsFlits : bulk.length < 2 ^ 13 ∧ ({ bulk with body := [] } : Letter).body = [] ∧ bulk.circVa = 0 ∧
    bulk.cls ≠ .request ∧ bulk.length ≤ 4096 ∧ bulk.body.length = bulk.length := by decide
/-- The CRC-32 of "123456789" is the standard check value. -/
theorem test_crc : crc32 crcIeee [0x31, 0x32, 0x33, 0x34, 0x35, 0x36, 0x37, 0x38, 0x39] = 0xCBF43926 := by decide

theorem witness_DiscoveryAndPlanWrites : net.linkUp 0 = true ∧ net.linkUp 1 = false ∧ (net.port 0).identity = none ∧ (net.port 0).evaluated = false ∧
    ({ net with ports := [(0, { identity := some [], gotSeen := true, sentSeen := true })] } : State).port 0 =
      { identity := some [], gotSeen := true, sentSeen := true } ∧
    ((bytesAt [] 0 64).drop 0x18).any (fun y => y ≠ 0) = false ∧
    ((bytesAt (List.replicate 64 1) 0 64).drop 0x18).any (fun y => y ≠ 0) = true ∧
    (training .signal).portState 0 = 2 ∧ (training .signal).axisReleased (portAxis 0) = true := by decide

theorem witness_DiscoveryAndPlanWrites_plan : up.aux = true ∧ (up.port 0).identity = none ∧ up.stage ≠ 3 ∧ host0.stage = 3 ∧ placeOk 0 = true ∧
    placeOk 1 = false ∧ up.fld .ptrBypass F.ptrBypass_HOLD = 0 ∧ linkUp.fld .ptrBypass F.ptrBypass_HOLD ≠ 0 ∧
    planPlace (1 <<< 16) ≠ planPlace (linkUp.rd .ptrPlanChip) ∧
    placeOk 0x10001 = true ∧ host0.fld .ptrBypass F.ptrBypass_HOLD = 0 ∧
    (∃ f ∈ Reg.ptrPlanChip.fields, f.acc = .rwl ∧ f.get 0x10001 ≠ f.get (host0.rd .ptrPlanChip)) := by decide
theorem test_plan_locked : after (exec (.planChipWrite 0x10001) host0) (fun t =>
    (t.fld .ptrPlanChip F.ptrPlanChip_CHIP_NUM, t.fld .ptrLockViolations F.ptrLockViolations_COUNT)) = some (0, 1) := by decide

/-! ### The bypass, power and the stages -/

def stage1 : State := regs up [(.ptrStage, 1), (.ptrPlanChip, F.ptrPlanChip_PLAN_VALID.put 0 1)]
theorem witness_BypassHandover : up.grantCheck 0 ≠ 0 ∧ stage1.grantCheck 0 = 0 ∧
    (let s : State := { stage1 with handover := some { axis := 0 } }
     s.dieUp = true ∧ s.handover = some { axis := 0 } ∧ (axisPorts 0).any (fun p => s.linkUp p) = false) ∧
    (let s : State := { linkUp with handover := some { axis := 0, held := true } }
     (axisPorts 0).any (fun p => s.linkUp p) = true) ∧ up.handing 0 = none ∧ up.axisReleased 0 = false ∧
    ({ up with released := 1 } : State).released.getLsbD 0 = true ∧ linkUp.axisReleased 0 = true := by decide
theorem test_grant : after (exec (.grant 0) stage1) (fun t => (t.handover.isSome, (t.port 1).training)) =
    some (true, .signal) := by decide

/-- For the clauses of `PowerAndFirmware`. Which bundles are valid is free: where one is, its slot boots. -/
theorem witness_PowerAndFirmware : State.reset.aux = false ∧ up.aux = true ∧ up.flag .ptrStage F.ptrStage_FW_OK = false ∧
    up.bootSlot = none ∧ up.fwBoot = none ∧ host0.stage ≠ 0 ∧ up.power ≠ .off ∧
    (let s : State := { State.reset with aux := true }
     s.stage = 0 ∧ s.power = .off ∧ s.flag .ptrStage F.ptrStage_OUT_OF_SERVICE = false) ∧
    (let s : State := regs { State.reset with aux := true } [(.ptrStage, F.ptrStage_FW_OK.put 0 1),
       (.ptrPwrStatus, F.ptrPwrStatus_VIN_10MV.put 0 4400)]
     s.flag .ptrStage F.ptrStage_FW_OK = true ∧ s.railOk = true ∧ s.flag .ptrProtStatus F.ptrProtStatus_ACTIVE = false) ∧
    (regs up [(.ptrPwrStatus, F.ptrPwrStatus_VIN_10MV.put 0 5801)]).railOk = false ∧
    ({ up with power := .rising } : State).power = .rising := by decide
theorem witness_PowerAndFirmware_main : up.mainUp = true ∧ State.reset.mainUp = false := by decide
/-- Every rail has held its window for 5 ms, and one has not. -/
theorem witness_PowerAndFirmware_rails :
    let s : State := { State.reset with aux := true, power := .rising, rails := railOrder.map fun r => (r, 5) }
    let u : State := { s with rails := railOrder.map fun r => (r, if r = .core then 4 else 9) }
    (s.power = .rising ∧ s.rails.map Prod.fst = railOrder ∧ ∀ e ∈ s.rails, 5 ≤ e.2) ∧ ¬ (∀ e ∈ u.rails, 5 ≤ e.2) := by decide
theorem witness_bootSlot (b : List Byte) (h : Config.bundleVerifies b = true) (r : Config.rollback ≤ Config.bundleSecurity b) :
    ({ State.reset with aux := true, fwSlots := [(0, some b)] } : State).bootSlot = some 0 := by
  have h0 : ({ State.reset with aux := true, fwSlots := [(0, some b)] } : State).bundleOk 0 = true :=
    (Bool.and_eq_true _ _).mpr ⟨h, decide_eq_true r⟩
  have h1 : ({ State.reset with aux := true, fwSlots := [(0, some b)] } : State).bundleOk 1 = false := by rfl
  simp [State.bootSlot, h0, h1]

/-- One below the rollback counter does not boot its slot. -/
theorem witness_rollback (b : List Byte) (r : Config.bundleSecurity b < Config.rollback) :
    let s : State := { State.reset with aux := true, fwSlots := [(0, some b)] }
    s.bundle 0 = some b ∧ s.bootSlot = none := by
  have h0 : ({ State.reset with aux := true, fwSlots := [(0, some b)] } : State).bundleOk 0 = false := by
    show (Config.bundleVerifies b && decide (Config.rollback ≤ Config.bundleSecurity b)) = false
    rw [decide_eq_false (Nat.not_le.mpr r), Bool.and_false]
  have h1 : ({ State.reset with aux := true, fwSlots := [(0, some b)] } : State).bundleOk 1 = false := by rfl
  exact ⟨rfl, by simp [State.bootSlot, h0, h1]⟩

/-- Stage 2 with its work done, and not; Stage 3 with no context and with one; each check of HARNESS. -/
def stage2 (m : Nat) : State := regs up [(.ptrStage, 2), (.ptrMemResult, BitVec.ofNat 64 m)]
theorem witness_StageCommands : ({ up with dieUp := false } : State).power = .good ∧ stage1.stage = 1 ∧ stage1.handover = none ∧
    (stage2 0).stage = 2 ∧ (stage2 0).flag .ptrMemResult F.ptrMemResult_DONE = false ∧
    (regs up [(.ptrStage, 2), (.ptrMemResult, F.ptrMemResult_DONE.put 0 1)]).flag .ptrMemResult F.ptrMemResult_DONE = true ∧
    (regs up [(.ptrMemResult, F.ptrMemResult_DONE.put 0 1)]).flag .ptrMemResult F.ptrMemResult_MEM_FAIL = false ∧
    host0.stage = 3 ∧ (∃ x, host0.ctxState x ≠ 0) ∧ (∀ x, (regs up [(.ptrStage, 3)]).ctxState x = 0) := by decide
theorem test_leaves_reset : after (exec .dieLeavesReset { up with dieUp := false }) (fun t => (t.dieUp, t.stage, (t.yard 2).stops)) =
    some (true, 1, [1]) := by decide
theorem test_quarantine : after (exec .quarantine (regs up [(.ptrStage, 2), (.ptrMemResult, F.ptrMemResult_DONE.put 0 1)])) (fun t =>
    (t.stage, t.quarantined)) = some (3, true) := by decide

/-! ### Letters of every class, groups and circulars -/

/-- A request of chip 1 for a register here: MGMT_REMOTE is set. -/
def mgmtNet : State := regs net [(.ptrStartCtrl, F.ptrStartCtrl_MGMT_REMOTE.put 0 1)]
def askSolo : Letter := { dest := 0, src := 1, cls := .mgmt, op := 2, target := BitVec.ofNat 64 Reg.hstBar2Win.addr, postmark := 5 }
def request0 : MgmtReq := { dest := 1, postmark := 5, write := false, addr := 0xFF0000000000, value := 0 }
theorem witness_ManagementLetters : askSolo.dest = mgmtNet.chip ∧ ({ askSolo with dest := 1 } : Letter).dest ≠ mgmtNet.chip ∧
    2 ≤ mgmtNet.stage ∧ mgmtNet.flag .ptrStartCtrl F.ptrStartCtrl_MGMT_REMOTE = true ∧ askSolo.target.toNat % 2 ^ 48 % 8 = 0 ∧
    0xFF0000000000 ≤ askSolo.target.toNat % 2 ^ 48 ∧ askSolo.target.toNat % 2 ^ 48 = Reg.hstBar2Win.addr ∧
    net.flag .ptrStartCtrl F.ptrStartCtrl_MGMT_REMOTE = false ∧ mgmtNet.rtValid (epochVer mgmtNet.srcEpoch) = true ∧
    mgmtNet.route (epochVer mgmtNet.srcEpoch) 1 = .port 0 ∧ mgmtNet.carries 0 .mgmt false = true ∧ mgmtNet.skips 0 1 = false ∧
    Reg.ofAddr 0xFF0800000008 = none ∧ (Reg.ofAddr Reg.ptrStage.addr).any (fun r => r.domain == .porter) = true ∧
    (({ net with mgmtOut := [request0] } : State).mgmtOut.find? fun m => m.dest = 1 && m.postmark = 5) = some request0 ∧
    mgmtNet.mgmtSeen = [] ∧ request0.tries < 3 ∧ 3 ≤ ({ request0 with tries := 3 } : MgmtReq).tries := by decide
theorem test_reg_read : after (exec (.regRead askSolo) (regs mgmtNet [(.hstBar2Win, 7)])) (fun t =>
    t.outQ.map fun o => (o.port.val, o.lt.op.toNat, o.lt.body.map (·.toNat))) = some [(0, 4, [7, 0, 0, 0, 0, 0, 0, 0])] := by decide

theorem witness_RoutingTablesAndGroups : F.soRtCtrl_SRC_EPOCH.get 2 = 0 ∧ F.soRtCtrl_VALID0.get 2 ≠ 0 ∧ F.soRtCtrl_SRC_EPOCH.get 1 = 1 ∧
    F.soRtCtrl_VALID1.get 1 = 0 ∧ net.rtValid 0 = true ∧ net.rtValid 1 = false ∧
    (∀ i : Fin 4, bitsOf (1 + (1 <<< 5) : BitVec 64).toNat (16 * i.val) 3 ≤ 5) ∧ bitsOf (6 : BitVec 64).toNat 0 3 = 6 ∧
    (0 : Fin 64) ∉ net.sampled ∧ net.globalOn = true ∧ up.globalOn = false ∧
    (regs net [(.ceGrpCtrl 0 0, 0), (.ceGrpMember 0 0 0, 1 <<< 16), (.soRtAxis 0 0, 1 <<< 32)]).grpValid 0 0 = false ∧
    (regs net [(.ceGrpCtrl 0 0, 0), (.ceGrpMember 0 0 0, 1 <<< 16), (.soRtAxis 0 0, 1 <<< 32)]).groupOk 0 0 1 = true ∧ net.grpLen 0 0 ≤ 2 ∧
    (regs net [(.ceGrpCtrl 0 0, 0)]).grpValid 0 0 = false ∧ net.grpState 0 0 ≠ 2 ∧ run0.grpAxis 0 0 = none ∧
    net.grpLen 0 0 = 2 ∧ net.member 0 0 0 = net.member 0 0 1 ∧ (regs net [(.ceGrpCtrl 0 0, 0)]).groupOk 0 0 1 = false ∧
    (∃ o ∈ ({ net with collOps := [oneOp] } : State).collOps, o.ctx = 0 ∧ o.grp = 0) := by decide

/-- Bulk and slot letters: each verdict of their postmark, and pages that the context grants or not. -/
def seen (h : BitVec 32) : State := { net with recvStreams := [(⟨1, .bulk, 7⟩, { h := h, window := 1 })] }
def slotNet : State :=
  { regs net [(.hstLoadRec1 0, F.hstLoadRec1_SLOT_COUNT.put 0 1), (.soSlot 0 0, SlotF.bound.put 0 1), (.soSlot 0 1, SlotF.size.put 0 8)] with
    ctxStables := [(0, [0])] }
theorem witness_RegisteredLetters : bulk.cls = .bulk ∧ bulk.op ≠ 1 ∧ bulk.op ≠ 0x3F ∧ net.globalOn = true ∧
    net.ctxOfTag bulk.jobTag = some 0 ∧ net.ctxOfTag 9 = none ∧ net.fenced 0 = false ∧
    (net.recvStream (streamOf bulk)).judge bulk.postmark = .new ∧ ((seen 0).recvStream (streamOf bulk)).judge bulk.postmark = .dup ∧
    ((seen 5000).recvStream (streamOf bulk)).judge bulk.postmark = .stale ∧
    grants ((net.taken bulk).record bulk) 0 0x40 2 true = [some 0x40, some 0x41] ∧
    grants ((net.taken bulk).record bulk) 0 0x40000000 2 true = [none, none] ∧
    net.route (epochVer net.srcEpoch) 1 = .port 0 ∧ net.carries 0 .receipt false = true ∧
    ({ net with heldDups := [bulk] } : State).stillPlacing bulk = false ∧ net.circOf bulk = none := by decide
theorem witness_slot : (slotNet.slotCheck 0 0 0 8).toOption.isSome = true ∧ (slotNet.slotCheck 0 0 0 9).toOption.isSome = false ∧
    (net.slotCheck 0 0 0 1).toOption.isSome = false ∧
    (let s := regs slotNet [(.soSlot 0 2, SlotF.nen.put 0 1)]
     s.flag (.soSlot 0 2) SlotF.nen = true ∧ (s.stall 0).running = true ∧ s.fld (.soSlot 0 1) SlotF.expect ≤ 8 ∧
      s.flag (.soSlot 0 0) SlotF.full = false) := by decide
theorem test_bulk : after (exec (.registeredLetterReceive bulk) net) (fun t =>
    (t.mem.map fun c => (c.1, c.2.toNat), t.outQ.map fun o => (o.lt.cls, o.lt.status))) =
      some ([(0x40, 8), (0x41, 9)], [(.receipt, 0)]) := by decide
theorem test_bulk_dup : after (exec (.registeredLetterReceive bulk) (seen 0)) (fun t => (t.mem.length, t.fld .soPostDups F.COUNT)) =
    some (0, 1) := by decide

/-- Requests, responses and receipts. -/
def ask : Letter := { dest := 0, src := 1, cls := .request, jobTag := 7, length := 2, target := 0x40 }
def askOut : Outstanding := { key := ⟨1, .request, 7⟩, letter := { ask with dest := 1, src := 0 }, owner := .other, ctx := 0,
                              sink := some (.local [some 0x80, some 0x81]) }
def bulkOut : Outstanding := { key := ⟨1, .bulk, 7⟩, letter := { bulk with dest := 1, src := 0 }, owner := .flight 0 0, ctx := 0 }
theorem witness_RequestsAndResponses : ask.cls = .request ∧ net.globalOn = true ∧ net.ctxOfTag ask.jobTag = some 0 ∧ net.fenced 0 = false ∧
    grants (net.taken ask) 0 0x40 2 false = [some 0x40, some 0x41] ∧ net.carries 0 .response false = true ∧
    ({ net with outstanding := [askOut] } : State).answered ⟨1, .request, 7⟩ 0 = some askOut ∧
    askOut.sink = some (.local [some 0x80, some 0x81]) ∧ net.answered ⟨1, .request, 7⟩ 0 = none ∧ net.postQ = [] ∧ up.globalOn = false := by
  decide
theorem test_response : after (exec (.responseReceive { ask with cls := .response, body := [3, 4] })
    { net with outstanding := [askOut] }) (fun t => (t.mem.map fun c => (c.1, c.2.toNat), t.outstanding.length)) =
      some ([(0x80, 3), (0x81, 4)], 0) := by decide

def receipt : Letter := { dest := 0, src := 1, cls := .receipt, jobTag := 7, op := 5 }
def cleared (x : SendStream) : State := { net with sendStreams := [(⟨1, .bulk, 7⟩, x)] }
def owing (k : Nat) : State := { net with outstanding := [{ bulkOut with tries := k, limit := 4 }] }
theorem witness_ReceiptsTimersAndClearance : net.postQ = [] ∧ LClass.ofCode (receipt.op.toNat % 8) = .bulk ∧
    ({ net with outstanding := [bulkOut] } : State).answered ⟨1, .bulk, 7⟩ 0 = some bulkOut ∧ bulkOut.owner = .flight 0 0 ∧
    net.answered ⟨1, .bulk, 7⟩ 0 = none ∧ ({ bulkOut with limit := 4 } : Outstanding).tries < 4 ∧ bulkOut.limit ≤ bulkOut.tries ∧
    ((cleared { clearing := some 0, clearPm := 4096, clearLimit := 1 }).sendStream ⟨1, .bulk, 7⟩).clearLimit = 1 ∧
    ((cleared { clearing := some 0, clearPm := 4096 }).sendStream ⟨1, .bulk, 7⟩).clearing = some 0 ∧ net.clearable ⟨1, .bulk, 7⟩ = false ∧
    ((cleared { givenUp := some 3 }).sendStream ⟨1, .bulk, 7⟩).givenUp = some 3 ∧
    newer32 4099 (net.recvStream ⟨1, .bulk, 7⟩).h = true ∧ newer32 0xFFFFFFFF (net.recvStream ⟨1, .bulk, 7⟩).h = false := by decide
/-- A letter that still waits for its output; and a circular in staging with a copy that has not left, of the stream that a clearance ends. -/
theorem witness_ReceiptsTimersAndClearance_leaving :
    ({ net with outQ := [⟨0, none, 6, bulkOut.letter⟩] } : State).leaving ⟨1, .bulk, 7⟩ 0 = true ∧ net.leaving ⟨1, .bulk, 7⟩ 0 = false ∧
    (let up : Letter := { dest := 0, src := 1, cls := .coll, jobTag := 7, op := 4, postmark := 2 }
     let x : Circ := { id := 3, ctx := 0, up := up, children := 1, delivered := 0, refused := 0, frame := some ⟨0, 0, 0⟩ }
     let y : Outstanding := { key := ⟨2, .coll, 7⟩, letter := { up with dest := 2, src := 0 }, owner := .circ 3, ctx := 0 }
     let s : State := { net with circs := [x], outstanding := [y], outQ := [⟨0, none, 8, y.letter⟩] }
     s.circHeld x = true ∧ s.unsent x.id y = true ∧ newer32 2 (4099 - 4096 : BitVec 32) = false ∧
       newer32 4 (4099 - 4096 : BitVec 32) = true) := by decide
/-- A record that failed before, at another stamp; and one that failed at this one, by a letter of a higher postmark (R140). -/
theorem witness_failures : ({ flightV with status := .fenced, failAt := (1, 9) } : Flight).failAt.1 ≠ up.stampNow ∧
    ({ flightV with status := .fenced, failAt := (up.stampNow, 9) } : Flight).failAt.1 = up.stampNow ∧ bulkOut.letter.postmark < 9 := by
  decide
theorem test_retransmit : after (exec (.deliveryTimerExpiry ⟨1, .bulk, 7⟩ 0) (owing 0)) (fun t =>
    (t.outstanding.map (·.tries), t.fld .soPostRetrans F.COUNT, t.outQ.length)) = some ([1], 1, 1) := by decide
theorem test_clearance : after (exec (.clearanceSend ⟨1, .bulk, 7⟩) (cleared { givenUp := some 3 })) (fun t =>
    t.outQ.map fun o => (o.lt.op, o.lt.postmark)) = some [(0x3F, 4099)] := by decide

/-- Collective letters: for a group that is VALID and one that is not; staged, mismatched, and by a duplicate. -/
def collLt : Letter := { dest := 0, src := 1, vc := 8, cls := .coll, jobTag := 7, op := 0, length := 2, body := [0, 0] }
/-- No stable is enabled; the letter's postmark is recorded. -/
def noStable : State := regs net [(.ptrMemResult, F.ptrMemResult_STABLE_OFF.put 0 0xFFFF)]
def seenColl : State := { net with recvStreams := [(streamOf collLt, { h := 0, window := 1 })] }
theorem witness_CollectiveLetters : collLt.cls = .coll ∧ collLt.op ≠ 4 ∧ collLt.op ≠ 0x3F ∧ net.grpValid 0 (collTgt collLt).grp = true ∧
    (regs net [(.ceGrpCtrl 0 0, 0)]).grpValid 0 (collTgt collLt).grp = false ∧ isGather collLt = false ∧ net.opFor 0 collLt = none ∧
    net.collStage = [] ∧ (net.recvStream (streamOf collLt)).judge 0 = .new ∧ net.findOp 3 = none ∧
    ({ net with collOps := [oneOp] } : State).collOps = [oneOp] ∧ oneOp.id = 7 ∧
    ({ net with collOps := [oneOp] } : State).opFor 0 collLt = some oneOp ∧
    ({ net with collOps := [oneOp] } : State).mismatch oneOp collLt = true ∧ noStable.opFor 0 collLt = none ∧
    noStable.freeFrames collLt = [] ∧ net.postQ = [] ∧ (net.freeFrames collLt).head?.isSome = true ∧
    net.lateReceipt 0 collLt = false ∧ net.lateReceipt 0 { collLt with target := 3 <<< 14 } = true ∧
    (seenColl.recvStream (streamOf collLt)).judge 0 = .dup ∧ seenColl.stillPlacing collLt = false ∧
    ({ seenColl with collStage := [{ ctx := 0, letter := collLt, receipted := false, frame := ⟨0, 0, 0⟩ }] } : State).stillPlacing collLt =
      true := by decide
theorem test_stage_letter : after (exec (.collLetterReceive collLt) net) (fun t => (t.collStage.length, t.outQ.map (·.lt.cls))) =
    some (1, [.receipt]) := by decide
theorem test_watchdog : after (exec (.collWatchdogExpiry 7 2) { net with collOps := [oneOp] }) (fun t =>
    (t.collOps.length, t.grpState 0 0, t.fld (.ceGrpStatus 0 0) F.ceGrpStatus_WAIT_ON)) = some (0, 2, 2) := by decide

/-- Circulars: a copy without children, its answer, and a refused one. -/
def circLt : Letter := { dest := 0, src := 1, vc := 8, cls := .coll, jobTag := 7, op := 4, length := 2, body := [5, 6], circVa := 0x40 }
def aCirc : Circ := { id := 3, ctx := 0, up := circLt, children := 0, delivered := 1, refused := 0 }
/-- A copy for a box of two on X, and states that hold a record of it: refused here, or receipted. -/
def boxLt : Letter := { circLt with target := 1 <<< 32 }
def refusedCirc : Circ := { aCirc with delivered := 0, refused := 1 }
theorem witness_Circulars_kept : noStable.circFull boxLt 0 = true ∧ net.circFull boxLt 0 = false ∧ net.postQ = [] ∧
    (regs net [(.soCtxFence, 1)]).fenced 0 = true ∧ (regs net [(.soCtxFence, 1)]).circOf circLt = none ∧
    ({ regs net [(.soCtxFence, 1)] with circs := [{ refusedCirc with sent := true }] } : State).circOf circLt =
      some { refusedCirc with sent := true } ∧
    (({ net with circs := [refusedCirc] } : State).recvStream (streamOf circLt)).judge circLt.postmark = .new ∧
    (({ seenColl with circs := [aCirc] } : State).recvStream (streamOf circLt)).judge circLt.postmark = .dup ∧
    ({ seenColl with circs := [aCirc] } : State).circOf circLt = some aCirc ∧
    grants (net.taken circLt) 0 0x40 2 true = [some 0x40, some 0x41] := by decide
theorem witness_Circulars : circLt.cls = .coll ∧ circLt.op = 4 ∧ net.globalOn = true ∧ net.ctxOfTag circLt.jobTag = some 0 ∧
    net.circOf circLt = none ∧ ({ net with circs := [aCirc] } : State).circOf circLt = some aCirc ∧ net.grpValid 0 (collTgt circLt).grp = true ∧
    net.fenced 0 = false ∧ (net.recvStream (streamOf circLt)).judge circLt.postmark = .new ∧
    grants (net.taken circLt) 0 0x40 2 true = [some 0x40, some 0x41] ∧
    (({ net with circs := [aCirc] } : State).circs.find? fun x => x.id = 3) = some aCirc ∧ aCirc.children = 0 ∧ aCirc.sent = false := by
  decide
theorem test_circular : after (exec (.circularReceive circLt) net) (fun t =>
    (t.mem.map fun c => (c.1, c.2.toNat), t.circs.map fun x => (x.delivered, x.refused, x.children))) =
      some ([(0x40, 5), (0x41, 6)], [(1, 0, 0)]) := by decide
/-- The receipt of a chip with one fenced descendant says ST_FENCED, with both sums (the example of R260). -/
theorem test_circular_receipt : after (exec (.circularReceiptSend 3) { net with circs := [{ aCirc with refused := 1 }] }) (fun t =>
    t.outQ.map fun o => (o.lt.status.toNat, o.lt.target.toNat)) = some [(0x33, 1 + 2 ^ 15)] := by decide

/-! ### Time, clocks, memory controllers and the trace -/

def anEx : FrExchange := { seq := 0, t1 := some 0 }
theorem witness_FrankingTime : net.accepted 0 = true ∧ net.accepted 1 = false ∧ AMap.get none 0 net.frEx = none ∧
    AMap.get none 0 ({ net with frEx := [(0, some anEx)] } : State).frEx = some anEx ∧ anEx.t1 = some 0 ∧ net.frFree = true ∧
    up.dieUp = true := by decide
/-- Intervals with nothing valid, with a peer 2 µs ahead, and with one that counts. -/
def heard (ps : Int) (steer : Steer := {}) : State := { net with frValid := [(0, some { theta := ps * 256, locked := true })], steer := steer }
theorem witness_FrankingTime_interval : net.frExchanges = [] ∧ net.steer.silent + 1 < 80 ∧
    (heard 2000000).frExchanges = [(0, { theta := 2000000 * 256, locked := true })] ∧ 256000000 < (2000000 * 256 : Int) ∧
    ¬ 256000000 < (1000 * 256 : Int) ∧ ((heard 1000).frExchanges.filter fun e => e.2.locked && decide (-256000000 ≤ e.2.theta) &&
      decide (e.2.theta ≤ 256000000)) = (heard 1000).frExchanges ∧ (heard 1000 { calm := 15 }).steer.calm = 15 ∧
    (regs net [(.clkFrStatus, F.clkFrStatus_SYNC_STATE.put 0 1)]).frFree = false := by decide
/-- An exchange whose delay is 100 ns each way, the peer 50 ns ahead (R361): THETA is 50,000 ps, DELAY 100 ns. -/
def frOut (op : BitVec 6) : State :=
  { net with outQ := [⟨0, none, 0, { dest := 0, src := 0, cls := .mgmt, op := op, length := 64, body := .replicate 64 0 }⟩] }
theorem witness_FrankingTime_starts :
    (({} : Arbiter).choose (((frOut 0x10).heads 0).filter fun o => (frOut 0x10).carries 0 o.lt.cls o.through && (frOut 0x10).hasCredit o)) =
      (frOut 0x10).outQ.head? ∧
    (({} : Arbiter).choose (((frOut 0x11).heads 0).filter fun o => (frOut 0x11).carries 0 o.lt.cls o.through && (frOut 0x11).hasCredit o)) =
      (frOut 0x11).outQ.head? := by decide
def frReplyLt : Letter :=
  { dest := 0, src := 1, cls := .mgmt, op := 0x11, length := 64,
    body := toBytes 4 0 ++ [1, 0, 0, 0] ++ toBytes 8 150 ++ toBytes 8 150 ++ List.replicate 40 0 }
theorem test_franking : after (exec (.frReply 0 frReplyLt 0) { net with frEx := [(0, some anEx)], franking := { ns := 200 } }) (fun t =>
    (AMap.get none 0 t.frValid, t.fld (.clkFrPort 0) F.clkFrPort_DELAY_NS, t.fld (.clkFrPort 0) F.clkFrPort_OFFSET_PS)) =
      some (some { theta := 50000 * 256, locked := true }, 100, 50000) := by decide

theorem witness_YardClocks : up.yardIdle 0 = true ∧ run0.yardIdle 0 = false ∧ 1 ∉ (up.yard 0).stops ∧
    1 ∈ (({ run0 with yards := [(0, { stops := [1] })] } : State).yard 0).stops ∧
    (regs up [(.clkYardStatus 0, F.clkYardStatus_STRETCHING.put 0 1)]).flag (.clkYardStatus 0) F.clkYardStatus_STRETCHING = true ∧
    (up.yard 0).freq < min (up.fld (.clkYardCtrl 0) F.clkYardCtrl_TARGET_MHZ) (min (max 600 ((up.yard 0).power - (up.yard 0).thermal))
      (up.yard 0).cap) := by decide
/-- A pair that limits yard 1 and does so no more, and one that never did; a yard whose period is stretched. -/
theorem witness_YardClocks_pairs :
    let s : State := { up with yards := [(0, { freq := 1000 }), (1, { freq := 1400 }), (2, { freq := 1000 }), (3, { freq := 800 })] }
    let judge := fun (pct : Nat) (i j : Fin 4) (tc : Vector Nat 4) => beyond pct (s.yard i).freq (s.yard j).freq 750 750 tc[i] tc[j]
    judge 100 1 3 #v[60, 74, 60, 48] ≠ 0 ∧
      lowered 1 3 (judge 100 1 3 #v[60, 74, 60, 48]) (s.yard 1).freq (s.yard 3).freq 750 750 74 48 = 1 ∧
      judge 100 0 2 #v[60, 74, 60, 48] = 0 ∧ judge 80 0 2 #v[60, 74, 60, 48] = 0 ∧ (1, 3) ∈ yardPairs ∧ up.pending = [] ∧
      (up.yard 0).recover = 0 := by decide
theorem test_frequency_step : after (exec (.frequencyStep 0) up) (fun t => (t.yard 0).freq) = some 625 := by decide

def warm : PowerSample :=
  { vin := 4800, pin := 2000, mean := 2000, auxPower := 0, joules := 0, hbm := 70, loft := 70, optical := 75, inlet := 50, outlet := 60,
    flow := 300, wet := false, amps := 50, rail := false }
/-- Readings within their limits; an inlet beyond its limit for the last of 1,000 evaluations. -/
theorem witness_PowerAndTemperature_trips :
    (up.showPower warm).tripDue = none ∧ tripLimits warm 0 = [] ∧
    tripLimits { warm with inlet := 60 } 0 = [7] ∧ ({ up with tripMs := [(7, 999)] }.showPower { warm with inlet := 60 }).tripDue = some 7 := by
  decide
/-- An inlet at 50 °C takes 500 W from the limit (R432). -/
theorem test_power : after (exec (.powerControlEval warm) up) (fun t =>
    (t.fld .ptrPwrLimit F.ptrPwrLimit_EFFECTIVE_W, t.redfish.length)) = some (2300, 1) := by decide
theorem witness_PowerAndTemperature : up.aux = true ∧ State.reset.aux = false ∧ up.dieUp = true ∧ State.reset.dieUp = false ∧
    75 ≤ warm.optical := by decide

theorem witness_MemoryControllersAndPorter : up.dieUp = true ∧ up.aux = true ∧ up.fld (.hbaScrub 0) F.hbaScrub_PERIOD_H ≠ 0 ∧
    (regs up [(.hbaScrub 0, 0)]).fld (.hbaScrub 0) F.hbaScrub_PERIOD_H = 0 ∧ up.flag (.hbaScrub 0) F.hbaScrub_BUSY = false ∧
    (regs up [(.hbaScrub 0, F.hbaScrub_BUSY.put 0 1)]).flag (.hbaScrub 0) F.hbaScrub_BUSY = true ∧
    up.flag .ptrRetiredIdx F.ptrRetiredIdx_BUSY = false ∧
    (regs up [(.ptrRetiredIdx, F.ptrRetiredIdx_BUSY.put 0 1)]).flag .ptrRetiredIdx F.ptrRetiredIdx_BUSY = true ∧
    (({ up with aonDie := [(89, 4)] } : State).aonDie.map (·.1)).Nodup ∧
    up.latentUe = [] ∧ up.latentCe = [] ∧ up.fld .hbaPoisonHead F.hbaPoisonHead_INDEX = up.fld .hbaPoisonTail F.hbaPoisonTail_INDEX ∧
    (AMap.get [] (some 0) ({ up with patrols := [(some 0, [0, 5])] } : State).patrols).map (fun u => u / 2 ^ 21) = [0, 0] ∧
    up.power = .good := by decide
/-- Rails on the way up: the last one has held its window long enough for the next, or has not; and on the way down. -/
theorem witness_MemoryControllersAndPorter_rails :
    let s : State := { State.reset with aux := true, power := .rising, rails := [(.input48, 1)] }
    s.power = .rising ∧ s.rails[0]? = some (.input48, 1) ∧ railOrder[s.rails.length]? = some .v33 ∧
    ({ s with power := .falling } : State).power = .falling := by decide
/-- A read of the accumulators that the die answers, and one that it does not (R407). -/
theorem test_collection :
    let s : State := { up with aonDie := [(89, 4)] }
    ((s.aonReadIf true).rd (.ptrAon 89)).toNat = 4 ∧ (s.aonReadIf true).aonDie.length = 0 ∧
    ((s.aonReadIf false).rd (.ptrAon 89)).toNat = 0 ∧ ((s.aonReadIf false).rd (.ptrAon 421)).toNat = 1 := by decide
/-- A patrol pass poisons the unit whose error it cannot correct (R199). -/
theorem test_scrub : after (exec (.scrubPassEnd (some (stackOf 0)))
      { regs up [(.hbaScrub (stackOf 0), F.hbaScrub_BUSY.put 0 1)] with latentUe := [0] }) (fun t =>
    (t.poison, t.latentUe, t.flag (.hbaScrub (stackOf 0)) F.hbaScrub_BUSY)) = some ([0], [], false) := by decide

def tracing : State := regs net [(.dbgTraceCtrl, F.dbgTraceCtrl_ENABLE.put 0 1), (.dbgTraceStatus, F.dbgTraceStatus_ARMED.put 0 1),
  (.dbgTraceSrc 0x234, F.dbgTraceSrc_MASK.put 0 0xFFFF)]
def trigger : Letter := { dest := 0, src := 1, cls := .diag, op := 1, length := 64, body := [1, 0, 9, 0, 0, 0] ++ List.replicate 58 0 }
theorem witness_TraceControl : tracing.flag .dbgTraceCtrl F.dbgTraceCtrl_SPILL = false ∧
    (regs up [(.dbgTraceCtrl, F.dbgTraceCtrl_SPILL.put 0 1)]).flag .dbgTraceCtrl F.dbgTraceCtrl_SPILL = true ∧
    tracing.flag .dbgTraceStatus F.dbgTraceStatus_ARMED = true ∧ up.flag .dbgTraceStatus F.dbgTraceStatus_ARMED = false ∧
    tracing.flag .dbgTraceStatus F.dbgTraceStatus_FROZEN = false ∧ tracing.flag .dbgTraceCtrl F.dbgTraceCtrl_ENABLE = true ∧
    tracing.trace.post ≠ some 0 ∧ bitOf (tracing.fld (.dbgTraceSrc 0x234) F.dbgTraceSrc_MASK) 9 = true ∧
    (∀ m : Fin 4, tracing.traceMatch m 0x234 9 5 [] = false) ∧ tracing.accepted 0 = true ∧ trigger.cls = .diag ∧ trigger.op = 1 ∧
    bitOf ((regs tracing [(.dbgTrigNet, F.dbgTrigNet_ACCEPT.put 0 1)]).fld .dbgTrigNet F.dbgTrigNet_ACCEPT) 0 = true ∧
    (natAt trigger.body 0 2, natAt trigger.body 2 4) ∉ tracing.trace.recent := by decide
/-- A host trigger: of the mail cycle of a remote one, of a later one, and after a record of its unit. -/
theorem witness_TraceControl_triggers :
    let s : State := regs tracing [(.dbgTraceStatus, 0)]
    let u : State := { s with trace := { s.trace with trigAt := some s.stampNow, source := 5 } }
    s.flag .dbgTraceStatus F.dbgTraceStatus_ARMED = false ∧ s.trace.trigAt ≠ some s.stampNow ∧ u.trace.trigAt = some u.stampNow ∧
    4 < u.trace.source ∧ u.trace.source ≤ 5 ∧ s.trace.source ≤ 4 ∧ tracing.traceQ 0x234 = [] ∧ tracing.traceQ (portUnit 0) = [] ∧
    (tracing.setTraceQ 0x234 [[1]]).traceQ 0x234 = [[1]] ∧ tracing.trace.post = none ∧
    (∀ m : Fin 4, tracing.flag (.dbgTrig m) F.dbgTrig_EN = false) := by decide
/-- A source with a lost record, whose marker enters the ring at a trigger (R419). -/
theorem witness_TraceControl_lost :
    let s : State := { tracing with trace := { tracing.trace with lost := [(0x234, 2, [1], [2])] } }
    s.trace.lost = [(0x234, 2, [1], [2])] ∧ s.traceQ 0x234 = [] ∧ s.trace.post = none ∧
    s.flag .dbgTraceCtrl F.dbgTraceCtrl_ENABLE = true ∧ s.flag .dbgTraceStatus F.dbgTraceStatus_ARMED = true ∧
    tracing.trace.lost = [] ∧ (∀ m : Fin 4, s.flag (.dbgTrig m) F.dbgTrig_EN = false) ∧
    after (exec .trigNow s) (fun t => ((t.rd (.dbgTraceBuf 0 1)).toNat, t.fld .dbgTraceStatus F.dbgTraceStatus_TRIG_IDX,
      t.trace.lost.length)) = some (0x234 + 0xFF * 2 ^ 24 + 2 * 2 ^ 32, 1, 0) := by decide
/-- A record that the network takes from its source's queue; and one that finds it full, which is dropped and counted (R415, R419). -/
theorem test_mark :
    let line := tracing.traceRec 0x234 9 0xFF 0xABCD []
    let t := (tracing.traceQueue 0x234 line).traceTake 0x234 1
    (t.rd (.dbgTraceBuf 0 1)).toNat = 0x234 + 9 * 2 ^ 16 + 0xFF * 2 ^ 24 + 0xABCD * 2 ^ 32 ∧ t.traceQ 0x234 = [] ∧
    t.fld .dbgTraceStatus F.dbgTraceStatus_WRITE_IDX = 1 := by decide
def traceFull : State := tracing.setTraceQ 0x234 (List.replicate 64 [])
theorem test_trace_drop : (traceFull.traceQueue 0x234 [1]).trace.lost.map (fun e => (e.1.val, e.2.1)) = [(0x234, 1)] ∧
    AMap.get 0 418 (traceFull.traceQueue 0x234 [1]).aonDie = 1 ∧ tracing.trace.lost = [] ∧ tracing.traceQ 0x234 = [] ∧
    64 ≤ (traceFull.traceQ 0x234).length := by decide

/-- An idle step of a die out of reset counts one franking cycle (log entry 3); a step takes the front command. -/
theorem test_idle : after (step up) (fun t => decide (t.franking = up.franking)) = some false ∧
    after (step State.reset) (fun t => decide (t = State.reset)) = some true := by decide
theorem test_front : after (step { run0 with pending := [.li h0 1 5, .nop h0] }) (fun t => ((t.stall 0).s[1], t.pending.length)) =
    some (5, 1) := by decide

end Sys2Proof.Tests
end

section
/-!
PROOFS of the family 00_scope: the register map and reset, register accesses, die resets, discovery, management letters.
-/
namespace Sys2Proof

open Machine

/-! ### Reset (R10, R329) -/

/-- No register is listed at reset, so that each reads the value of its Reset column. -/
@[simp] theorem State.reset_rd (r : Reg) : State.reset.rd r = r.reset := rfl

/-- Settles O7: of the invariants, reset has to meet only that no port has a link and that no slot is full. -/
theorem resetIsSound : Obligations.ResetIsSound := by
  have power : PowerSound State.reset :=
    { die := by simp [State.reset], good := by simp [State.reset], off := fun _ => rfl, order := List.nil_prefix,
      falling := by simp [State.reset], cycle := by simp [State.reset] }
  have noLink : ∀ p, State.reset.linkUp p = false := by decide
  have lanes : LaneSound State.reset :=
    { up := fun p h => absurd h (by simp [noLink p]), down := fun _ _ => ⟨rfl, rfl, rfl, rfl, rfl⟩ }
  have slot : ∀ j w, (Reg.soSlot j w).reset = 0 := fun _ _ => rfl
  have tables : TableSound State.reset :=
    { slots := fun j _ => by simp [State.fld, slot, Fld.get, bitsOf], stables := by simp [State.reset] }
  exact ⟨rfl, power, lanes, tables, rfl, rfl, rfl, State.reset_rd⟩

/-! ### The register address decoder (R2, R10) -/

/-- The decoder's blocks are laid out one after another: an address from `B` up to `top` goes to the block's own decoder,
  which finds the
unit `c` of `K` bytes and the offset `o` in it. -/
theorem ofAddr_of_block {dec : Nat → Option Reg} {B top : Nat} (sel : ∀ a, B ≤ a → a < top → Reg.ofAddr a = dec a)
    (K : Nat) {N : Nat} (fits : B + K * N ≤ top) {r : Reg} (c : Fin N) {o : Nat} (hr : r.addr = B + K * c.val + o) (ho : o < K)
    (hd : ∀ a : Nat, (a - B) / K = c.val → (a - B) % K = o → dec a = some r) : Reg.ofAddr r.addr = some r := by
  have hc : K * (c.val + 1) ≤ K * N := Nat.mul_le_mul_left _ c.isLt
  rw [Nat.mul_add, Nat.mul_one] at hc
  have ha : r.addr - B = K * c.val + o := by omega
  rw [sel _ (by omega) (by omega)]
  refine hd _ ?_ ?_
  · rw [ha, Nat.mul_add_div (by omega), Nat.div_eq_of_lt ho, Nat.add_zero]
  · rw [ha, Nat.mul_add_mod, Nat.mod_eq_of_lt ho]

theorem ofAddr_porter (a : Nat) (h : 0xff0000000000 ≤ a) (h' : a < 0xff0000040000) : Reg.ofAddr a = Reg.ofAddrPorter a := by
  grind [Reg.ofAddr]
theorem ofAddr_axisPlan (a : Nat) (h : 0xff0000040000 ≤ a) (h' : a < 0xff0000060000) : Reg.ofAddr a = Reg.ofAddrAxisPlan a := by
  grind [Reg.ofAddr]
theorem ofAddr_seed (a : Nat) (h : 0xff0000060000 ≤ a) (h' : a < 0xff0000070000) : Reg.ofAddr a = Reg.ofAddrSeed a := by
  grind [Reg.ofAddr]
theorem ofAddr_upd (a : Nat) (h : 0xff0000070000 ≤ a) (h' : a < 0xff0000080000) : Reg.ofAddr a = Reg.ofAddrUpd a := by
  grind [Reg.ofAddr]
theorem ofAddr_load (a : Nat) (h : 0xff0000090000 ≤ a) (h' : a < 0xff00000a0000) : Reg.ofAddr a = Reg.ofAddrLoad a := by
  grind [Reg.ofAddr]
theorem ofAddr_xlat (a : Nat) (h : 0xff00000a0000 ≤ a) (h' : a < 0xff00000c0000) : Reg.ofAddr a = Reg.ofAddrXlat a := by
  grind [Reg.ofAddr]
theorem ofAddr_ctx (a : Nat) (h : 0xff00000c0000 ≤ a) (h' : a < 0xff00000e0000) : Reg.ofAddr a = Reg.ofAddrCtx a := by
  grind [Reg.ofAddr]
theorem ofAddr_recov (a : Nat) (h : 0xff00000e0000 ≤ a) (h' : a < 0xff00000e1000) : Reg.ofAddr a = Reg.ofAddrRecov a := by
  grind [Reg.ofAddr]
theorem ofAddr_stable (a : Nat) (h : 0xff0000200000 ≤ a) (h' : a < 0xff0000400000) : Reg.ofAddr a = Reg.ofAddrStable a := by
  grind [Reg.ofAddr]
theorem ofAddr_slot (a : Nat) (h : 0xff0000400000 ≤ a) (h' : a < 0xff0000420000) : Reg.ofAddr a = Reg.ofAddrSlot a := by
  grind [Reg.ofAddr]
theorem ofAddr_stall (a : Nat) (h : 0xff0001000000 ≤ a) (h' : a < 0xff0002000000) : Reg.ofAddr a = Reg.ofAddrStall a := by
  grind [Reg.ofAddr]
theorem ofAddr_hbm (a : Nat) (h : 0xff0002000000 ≤ a) (h' : a < 0xff0002100000) : Reg.ofAddr a = Reg.ofAddrHbm a := by
  grind [Reg.ofAddr]
theorem ofAddr_poison (a : Nat) (h : 0xff0002100000 ≤ a) (h' : a < 0xff0003000000) : Reg.ofAddr a = Reg.ofAddrPoison a := by
  grind [Reg.ofAddr]
theorem ofAddr_port (a : Nat) (h : 0xff0004000000 ≤ a) (h' : a < 0xff0004100000) : Reg.ofAddr a = Reg.ofAddrPort a := by
  grind [Reg.ofAddr]
theorem ofAddr_route (a : Nat) (h : 0xff0004100000 ≤ a) (h' : a < 0xff0004200000) : Reg.ofAddr a = Reg.ofAddrRoute a := by
  grind [Reg.ofAddr]
theorem ofAddr_group (a : Nat) (h : 0xff0005000000 ≤ a) (h' : a < 0xff0005010000) : Reg.ofAddr a = Reg.ofAddrGroup a := by
  grind [Reg.ofAddr]
theorem ofAddr_qp (a : Nat) (h : 0xff0006000000 ≤ a) (h' : a < 0xff0007000000) : Reg.ofAddr a = Reg.ofAddrQp a := by
  grind [Reg.ofAddr]
theorem ofAddr_yard (a : Nat) (h : 0xff0007000000 ≤ a) (h' : a < 0xff0007001000) : Reg.ofAddr a = Reg.ofAddrYard a := by
  grind [Reg.ofAddr]
theorem ofAddr_frank (a : Nat) (h : 0xff0007001000 ≤ a) (h' : a < 0xff0008000000) : Reg.ofAddr a = Reg.ofAddrFrank a := by
  grind [Reg.ofAddr]
theorem ofAddr_log (a : Nat) (h : 0xff0008000000 ≤ a) (h' : a < 0xff0008800000) : Reg.ofAddr a = Reg.ofAddrLog a := by
  grind [Reg.ofAddr]
theorem ofAddr_logNext (a : Nat) (h : 0xff0008800000 ≤ a) (h' : a < 0xff0009000000) : Reg.ofAddr a = Reg.ofAddrLogNext a := by
  grind [Reg.ofAddr]
theorem ofAddr_trace (a : Nat) (h : 0xff0009000000 ≤ a) (h' : a < 0xff0009001000) : Reg.ofAddr a = Reg.ofAddrTrace a := by
  grind [Reg.ofAddr]
theorem ofAddr_traceSrc (a : Nat) (h : 0xff0009001000 ≤ a) (h' : a < 0xff000a000000) : Reg.ofAddr a = Reg.ofAddrTraceSrc a := by
  grind [Reg.ofAddr]
theorem ofAddr_traceBuf (a : Nat) (h : 0xff000a000000 ≤ a) (h' : a < 0xff000e000000) : Reg.ofAddr a = Reg.ofAddrTraceBuf a := by
  grind [Reg.ofAddr]

theorem ofAddr_groupAt {r : Reg} (c : Fin 64) (g : Fin 4) {o : Nat} (hr : r.addr = 0xff0005000000 + 0x100 * (4 * c.val + g.val) + o)
    (ho : o < 0x100)
    (hd : ∀ a : Nat, (a - 0xff0005000000) / 0x400 = c.val → (a - 0xff0005000000) % 0x400 = 0x100 * g.val + o →
      Reg.ofAddrGroup a = some r) : Reg.ofAddr r.addr = some r :=
  ofAddr_of_block ofAddr_group 0x400 (by decide) c (o := 0x100 * g.val + o) (by omega) (by omega) hd

theorem ofAddr_groupRegs (c : Fin 64) (g : Fin 4) : ∀ r ∈ ([.ceGrpCtrl c g, .ceGrpTree c g, .ceGrpStatus c g, .ceGrpPm0 c g,
    .ceGrpPm1 c g, .ceGrpNanrec c g,
      .ceGrpNanelem c g, .ceGrpEscal c g, .ceGrpBlkuf c g, .ceGrpClamp c g, .ceGrpOverflow c g, .ceGrpMismatch c g,
      .ceGrpOps c g] : List Reg), Reg.ofAddr r.addr = some r := by
  intro r hr
  fin_cases hr <;>
    exact ofAddr_groupAt c g rfl (by decide) fun a q m => by simp (disch := omega) [Reg.ofAddrGroup, q, m]

/-- Settles O2: every block's decoder finds the register's unit, its offset and, in a table of a unit, its place. -/
theorem registerAddressRoundTrip : Obligations.RegisterAddressRoundTrip := by
  intro r
  cases r with
  | ptrPartId | ptrStage | ptrStageCmd | ptrStartCtrl | ptrFwVersion | ptrStartTimes | ptrLockViolations | ptrPlanChip
  | ptrDisc | ptrMemResult | ptrRetiredIdx | ptrRetiredData | ptrBypass | ptrBypassCount | ptrResetRec | ptrEscStatus
  | ptrStallFenceLo | ptrStallFenceHi | ptrEscCtrl | ptrAonCtrl | ptrPwrStatus | ptrPwrLimit | ptrThermCtrl
  | ptrThermStatus | ptrProtStatus | hstLinkStatus | hstBar2Win | hstBarErr | hstSolo | soSlotUnbound | soSlotOverrun
  | soSlotBadbind | hbaPoisonHead | hbaPoisonTail | hbaPoisonLost | lftEccCe | lftEccUe | lftScrub | soRtCtrl
  | soEpochDrain | soNocontext | soNoroute | soEpochStale | soDeadHcrc | soDeadBody | soRefusedFenced | soCtxFence
  | soCtxResetting | soPostCtrl | soPostRetrans | soPostDups | soPostStale | soPostFailed | soPostClears | soPostLate
  | soPostBroken | soPostWaitcyc | ceNogroup | cePoison | cePeerLost | clkFrNow | clkFrFrac | clkFrStatus | clkFrBadx
  | clkFrSteps | dbgTraceCtrl | dbgTraceStatus | dbgTraceSpill | dbgTraceMark | dbgTrigNet => rfl
  | ptrPlanPeer p =>
    rw [ofAddr_porter _ (by simp only [Reg.addr]; omega) (by simp only [Reg.addr]; omega)]
    have m : (Reg.ptrPlanPeer p).addr - 0xff0000000000 = 0x140 + 8 * p.val := by
      simp only [Reg.addr]; omega
    simp (disch := omega) only [Reg.ofAddrPorter, m, if_neg, dif_neg, dif_pos, Option.some.injEq, Reg.ptrPlanPeer.injEq,
      Fin.ext_iff]
    omega
  | ptrAon i =>
    rw [ofAddr_porter _ (by simp only [Reg.addr]; omega) (by simp only [Reg.addr]; omega)]
    have m : (Reg.ptrAon i).addr - 0xff0000000000 = 0x1000 + 8 * i.val := by
      simp only [Reg.addr]; omega
    simp (disch := omega) only [Reg.ofAddrPorter, m, if_neg, dif_neg, dif_pos, Option.some.injEq, Reg.ptrAon.injEq, Fin.ext_iff]
    omega
  | ceAxisPlan c =>
    exact ofAddr_of_block ofAddr_axisPlan 0x8 (by decide) c (o := 0) rfl (by decide) fun a q m => by simp [Reg.ofAddrAxisPlan,
      q, m]
  | stlSrSeed c =>
    exact ofAddr_of_block ofAddr_seed 0x8 (by decide) c (o := 0) rfl (by decide) fun a q m => by simp [Reg.ofAddrSeed, q, m]
  | stlUpdTable c | stlUpdSealed c | stlUpdProgress c =>
    exact ofAddr_of_block ofAddr_upd 0x20 (by decide) c rfl (by decide) fun a q m => by simp [Reg.ofAddrUpd, q, m]
  | hstLoadRec0 c =>
    exact ofAddr_of_block ofAddr_load 0x10 (by decide) c (o := 0) rfl (by decide) fun a q m => by simp [Reg.ofAddrLoad, q, m]
  | hstLoadRec1 c =>
    exact ofAddr_of_block ofAddr_load 0x10 (by decide) c rfl (by decide) fun a q m => by simp [Reg.ofAddrLoad, q, m]
  | hstXlatRoot c | hstXlatInval c | hstXlatFault c | hstXlatRefused c =>
    exact ofAddr_of_block ofAddr_xlat 0x20 (by decide) c rfl (by decide) fun a q m => by simp [Reg.ofAddrXlat, q, m]
  | hstCtxCtrl c | hstCtxStatus c | hstCtxPost c =>
    exact ofAddr_of_block ofAddr_ctx 0x20 (by decide) c rfl (by decide) fun a q m => by simp [Reg.ofAddrCtx, q, m]
  | hstCtxHang c | hstCtxCapt c | hstCtxResetRec c | hstCtxSuspects c | hstCtxSeal c | hstCtxSealState c
  | hstCtxMirror c | hstCtxSealCmd c =>
    exact ofAddr_of_block ofAddr_recov 0x40 (by decide) c rfl (by decide) fun a q m => by simp [Reg.ofAddrRecov, q, m]
  | stbNwCtrl t | stbNwSamples t | stbNwSkipped t | stbNwMismatch t | stbNwUlpMax t | stbNwUlpSum t | stbNwUlpElems t
  | stbNwUlpOver t | stbSramCe t | stbSramUe t | stbSramUeRec t | stbSramRsvd t =>
    exact ofAddr_of_block ofAddr_stable 0x1000 (by decide) t rfl (by decide) fun a q m => by simp [Reg.ofAddrStable, q, m]
  | stbNwHistA t i =>
    exact ofAddr_of_block ofAddr_stable 0x1000 (by decide) t (o := 0x100 + 8 * i.val) (by simp only [Reg.addr]; omega) (by omega)
      fun a q m => by
        simp (disch := omega) only [Reg.ofAddrStable, q, m, if_neg, dif_neg, dif_pos, Fin.eta, Nat.add_sub_cancel_left,
          Nat.mul_div_cancel_left]
  | stbNwHistB t i =>
    exact ofAddr_of_block ofAddr_stable 0x1000 (by decide) t (o := 0x200 + 8 * i.val) (by simp only [Reg.addr]; omega) (by omega)
      fun a q m => by
        simp (disch := omega) only [Reg.ofAddrStable, q, m, if_neg, dif_neg, dif_pos, Fin.eta, Nat.add_sub_cancel_left,
          Nat.mul_div_cancel_left]
  | stbNwHistC t i =>
    exact ofAddr_of_block ofAddr_stable 0x1000 (by decide) t (o := 0x300 + 8 * i.val) (by simp only [Reg.addr]; omega) (by omega)
      fun a q m => by
        simp (disch := omega) only [Reg.ofAddrStable, q, m, if_neg, dif_neg, dif_pos, Fin.eta, Nat.add_sub_cancel_left,
          Nat.mul_div_cancel_left]
  | soSlot j w =>
    exact ofAddr_of_block ofAddr_slot 0x20 (by decide) j (o := 8 * w.val) rfl (by omega)
      fun a q m => by
        simp (disch := omega) only [Reg.ofAddrSlot, q, m, dif_pos, Option.some.injEq, Reg.soSlot.injEq, Fin.ext_iff, true_and]
        omega
  | stlSeqState n | stlSeqRetired n | stlSeqCodewrite n | stlCvtOverflow n | stlCvtUnderflow n | stlCvtNanInt n
  | stlMxUnderflow n | stlMxClamp n | stlMmOverflow n | stlMmUnderflow n | stlMmSpill n | stlMmWrap n | stlMmRetired n
  | stlMmFault n | stlUpdTiles n | stlUpdStale n | stlUpdClipped n | stlUpdNonfinite n | stlUpdOutside n
  | stlUpdRepeat n | stlUpdSkipped n | stlSyncState n | stlSyncWaitcyc n | stlSyncFences n | stlSyncArrivals n
  | stlSramCe n | stlSramUe n | stlSramUeRec n =>
    exact ofAddr_of_block ofAddr_stall 0x1000 (by decide) n rfl (by decide) fun a q m => by simp [Reg.ofAddrStall, q, m]
  | stlTally n i =>
    exact ofAddr_of_block ofAddr_stall 0x1000 (by decide) n (o := 0x600 + 8 * i.val) (by simp only [Reg.addr]; omega) (by omega)
      fun a q m => by
        simp (disch := omega) only [Reg.ofAddrStall, q, m, if_neg, dif_pos, Fin.eta, Nat.add_sub_cancel_left,
          Nat.mul_div_cancel_left]
  | hbaStatus k | hbaEccCe k | hbaEccUe k | hbaThrottleCyc k | hbaScrub k =>
    exact ofAddr_of_block ofAddr_hbm 0x10000 (by decide) k rfl (by decide) fun a q m => by simp [Reg.ofAddrHbm, q, m]
  | hbaPoisonRec0 i =>
    rw [ofAddr_poison _ (by simp only [Reg.addr]; omega) (by simp only [Reg.addr]; omega)]
    have m : (Reg.hbaPoisonRec0 i).addr - 0xff0002100000 = 0x100 + 0x10 * i.val := by
      simp only [Reg.addr]; omega
    simp (disch := omega) only [Reg.ofAddrPoison, m, if_neg, dif_neg, dif_pos, Option.some.injEq, Reg.hbaPoisonRec0.injEq,
      Fin.ext_iff]
    omega
  | hbaPoisonRec1 i =>
    rw [ofAddr_poison _ (by simp only [Reg.addr]; omega) (by simp only [Reg.addr]; omega)]
    have m : (Reg.hbaPoisonRec1 i).addr - 0xff0002100000 = 0x100 + 0x10 * i.val + 8 := by
      simp only [Reg.addr]; omega
    simp (disch := omega) only [Reg.ofAddrPoison, m, if_neg, dif_neg, dif_pos, Option.some.injEq, Reg.hbaPoisonRec1.injEq,
      Fin.ext_iff]
    omega
  | soPortCtrl p | soPortStatus p | soPortPeer p | soPortEvents p | soPortLimits p | soPortDisc p | soPortFecCorr p
  | soPortFecUncorr p | soPortDowns p | soPortDrops p | soPortSkipped p | soPortArb p | soPortCreditErr p
  | soPortFlitsThrough p | soPortFlitsInjected p | soPortDowndrop p =>
    exact ofAddr_of_block ofAddr_port 0x1000 (by decide) p rfl (by decide) fun a q m => by simp [Reg.ofAddrPort, q, m]
  | soLaneStat p l =>
    exact ofAddr_of_block ofAddr_port 0x1000 (by decide) p (o := 0x800 + 8 * l.val) (by simp only [Reg.addr]; omega) (by omega)
      fun a q m => by
        simp (disch := omega) only [Reg.ofAddrPort, q, m, if_neg, dif_pos, Fin.eta, Nat.add_sub_cancel_left,
          Nat.mul_div_cancel_left]
  | soRtAxis v a =>
    rw [ofAddr_route _ (by simp only [Reg.addr]; omega) (by simp only [Reg.addr]; omega)]
    have m : (Reg.soRtAxis v a).addr - 0xff0004100000 = 0x100 + 0x20 * v.val + 8 * a.val := by
      simp only [Reg.addr]; omega
    simp (disch := omega) only [Reg.ofAddrRoute, m, if_neg, dif_pos, Option.some.injEq, Reg.soRtAxis.injEq, Fin.ext_iff]
    omega
  | ceGrpCtrl c g | ceGrpTree c g | ceGrpStatus c g | ceGrpPm0 c g | ceGrpPm1 c g | ceGrpNanrec c g | ceGrpNanelem c g
  | ceGrpEscal c g | ceGrpBlkuf c g | ceGrpClamp c g | ceGrpOverflow c g | ceGrpMismatch c g | ceGrpOps c g =>
    exact ofAddr_groupRegs c g _ (by simp)
  | ceGrpMember c g r =>
    exact ofAddr_groupAt c g (o := 0x10 + 8 * r.val) (by simp only [Reg.addr]; omega) (by omega) fun a q m => by
      simp (disch := omega) only [Reg.ofAddrGroup, q, m, dif_neg, dif_pos, Option.some.injEq, Reg.ceGrpMember.injEq,
        Fin.ext_iff, true_and]
      omega
  | hstQpCtrl q | hstQpSqBase q | hstQpCqBase q | hstQpAccAddr q | hstQpSqTail q | hstQpCqHead q | hstQpStatus q
  | hstQpAbort q =>
    exact ofAddr_of_block ofAddr_qp 0x100 (by decide) q rfl (by decide) fun a q m => by simp [Reg.ofAddrQp, q, m]
  | clkYardCtrl y | clkYardStatus y | clkYardStretch y | clkYardThrottle y =>
    exact ofAddr_of_block ofAddr_yard 0x100 (by decide) y rfl (by decide) fun a q m => by simp [Reg.ofAddrYard, q, m]
  | clkFrPort p =>
    rw [ofAddr_frank _ (by simp only [Reg.addr]; omega) (by simp only [Reg.addr]; omega)]
    have m : (Reg.clkFrPort p).addr - 0xff0007001000 = 0x100 + 0x10 * p.val := by
      simp only [Reg.addr]; omega
    simp (disch := omega) only [Reg.ofAddrFrank, m, if_neg, dif_neg, dif_pos, Option.some.injEq, Reg.clkFrPort.injEq, Fin.ext_iff]
    omega
  | clkFrAsym p =>
    rw [ofAddr_frank _ (by simp only [Reg.addr]; omega) (by simp only [Reg.addr]; omega)]
    have m : (Reg.clkFrAsym p).addr - 0xff0007001000 = 0x108 + 0x10 * p.val := by
      simp only [Reg.addr]; omega
    simp (disch := omega) only [Reg.ofAddrFrank, m, if_neg, dif_neg, dif_pos, Option.some.injEq, Reg.clkFrAsym.injEq, Fin.ext_iff]
    omega
  | dbgLog u i w =>
    exact ofAddr_of_block ofAddr_log 0x2000 (by decide) u (o := 32 * i.val + 8 * w.val) (by simp only [Reg.addr]; omega) (by omega)
      fun a q m => by
        simp (disch := omega) only [Reg.ofAddrLog, q, m, dif_pos, Option.some.injEq, Reg.dbgLog.injEq, Fin.ext_iff, true_and]
        omega
  | dbgLogNext u =>
    exact ofAddr_of_block ofAddr_logNext 0x8 (by decide) u (o := 0) rfl (by decide) fun a q m => by simp [Reg.ofAddrLogNext, q, m]
  | dbgTrig m =>
    rw [ofAddr_trace _ (by simp only [Reg.addr]; omega) (by simp only [Reg.addr]; omega)]
    have m : (Reg.dbgTrig m).addr - 0xff0009000000 = 0x20 + 8 * m.val := by
      simp only [Reg.addr]; omega
    simp (disch := omega) only [Reg.ofAddrTrace, m, if_neg, dif_pos, Option.some.injEq, Reg.dbgTrig.injEq, Fin.ext_iff]
    omega
  | dbgTraceSrc u =>
    exact ofAddr_of_block ofAddr_traceSrc 0x8 (by decide) u (o := 0) rfl (by decide) fun a q m => by simp [Reg.ofAddrTraceSrc,
      q, m]
  | dbgTraceBuf i w =>
    exact ofAddr_of_block ofAddr_traceBuf 0x20 (by decide) i (o := 8 * w.val) rfl (by omega)
      fun a q m => by
        simp (disch := omega) only [Reg.ofAddrTraceBuf, q, m, dif_pos, Option.some.injEq, Reg.dbgTraceBuf.injEq, Fin.ext_iff,
          true_and]
        omega
/-! ### Fields, and registers listed anew -/

namespace Machine

/-- Field `f` fits a register, and field `g` has no bit in common with it. -/
def Fld.apart (g f : Fld) : Bool := decide (f.lo + f.w ≤ 64) && (decide (g.lo + g.w ≤ f.lo) || decide (f.lo + f.w ≤ g.lo))

theorem Fld.get_put_apart {f g : Fld} (h : g.apart f = true) (v : BitVec 64) (x : Nat) : g.get (f.put v x) = g.get v := by
  simp only [Fld.apart, Bool.and_eq_true, Bool.or_eq_true, decide_eq_true_eq] at h
  exact h.2.elim (fun b => Fld.get_put_below f g h.1 b v x) (fun a => Fld.get_put_above f g h.1 a v x)

/-- A field keeps its value where fields apart from it are written. -/
theorem Fld.get_puts_apart {g : Fld} {fs : List (Fld × Nat)} (h : (fs.all fun e => g.apart e.1) = true) (v : BitVec 64) :
    g.get (fs.foldl (fun v e => e.1.put v e.2) v) = g.get v := by
  induction fs generalizing v with
  | nil => rfl
  | cons e fs ih =>
    simp only [List.all_cons, Bool.and_eq_true] at h
    rw [List.foldl_cons, ih h.2, Fld.get_put_apart h.1]

/-- A field reads the value that it was given, where those written after it are apart from it. -/
theorem Fld.get_puts {f : Fld} (hf : f.lo + f.w ≤ 64) (x : Nat) (before after : List (Fld × Nat))
    (h : (after.all fun e => f.apart e.1) = true) (v : BitVec 64) :
    f.get ((before ++ (f, x) :: after).foldl (fun v e => e.1.put v e.2) v) = x % 2 ^ f.w := by
  rw [List.foldl_append, List.foldl_cons, Fld.get_puts_apart h, Fld.get_put f hf]

theorem State.fld_setFlds_apart (s : State) (r : Reg) {g : Fld} {fs : List (Fld × Nat)} (h : (fs.all fun e => g.apart e.1) = true) :
    (s.setFlds r fs).fld r g = s.fld r g := by
  rw [State.fld, State.setFlds, State.rd_wr_same, Fld.get_puts_apart h]; rfl

theorem State.fld_setFld_apart (s : State) (r : Reg) {f g : Fld} (h : g.apart f = true) (x : Nat) :
    (s.setFld r f x).fld r g = s.fld r g := by
  rw [State.fld, State.rd_setFld_same, Fld.get_put_apart h]; rfl

theorem AMap.get_filter {α β : Type} [DecidableEq α] (p : α → Bool) (d : β) (k : α) (m : AMap α β) :
    AMap.get d k (m.filter fun e => p e.1) = if p k then AMap.get d k m else d := by
  induction m with
  | nil => simp [AMap.get]
  | cons e m ih =>
    obtain ⟨k', v⟩ := e
    by_cases hk : k' = k
    · subst hk
      cases hp : p k' <;> simp [hp, AMap.get] at ih ⊢
      exact ih
    · cases hp : p k' <;> simp [hp, AMap.get, hk, ih]

end Machine

/-! ### Commands that write registers and report -/

/-- Beside registers of `R`, always-on counters, interrupts, counts of the host link's bytes and events of the porter, nothing has
changed: `Sets` without its trace unit. -/
structure RegFrame (R : Reg → Prop) (s t : State) : Prop where
  rest : t =
    { s with regs := t.regs, aonDie := t.aonDie, irqs := t.irqs, msixPend := t.msixPend, linkRx := t.linkRx, linkTx := t.linkTx,
             redfish := t.redfish }
  pend : ∀ v, v ∈ t.msixPend → v ∈ s.msixPend ∨ (v ∈ t.irqs ∧ s.msixMasked v = true)
  irqs : ∀ v ∈ s.irqs, v ∈ t.irqs
  regs : ∀ r, ¬ R r → t.rd r = s.rd r

theorem RegFrame.refl (R : Reg → Prop) (s : State) : RegFrame R s s := ⟨rfl, fun _ h => .inl h, fun _ h => h, fun _ _ => rfl⟩

theorem RegFrame.mono {R R' : Reg → Prop} {s t : State} (h : RegFrame R s t) (hr : ∀ r, R r → R' r) : RegFrame R' s t :=
  { h with regs := fun r n => h.regs r fun k => n (hr r k) }

theorem RegFrame.trans {R : Reg → Prop} {s t u : State} (h : RegFrame R s t) (k : RegFrame R t u) : RegFrame R s u where
  rest := by rw [k.rest, h.rest]
  pend v hv := by
    have m : t.msixMasked v = s.msixMasked v := by rw [h.rest]; rfl
    rcases k.pend v hv with hv | ⟨hv, hm⟩
    · exact (h.pend v hv).imp id fun ⟨a, b⟩ => ⟨k.irqs v a, b⟩
    · exact .inr ⟨hv, m ▸ hm⟩
  irqs v hv := k.irqs v (h.irqs v hv)
  regs r n := by rw [k.regs r n, h.regs r n]

/-- What one command after another writes. -/
theorem RegFrame.or {R Q : Reg → Prop} {s t u : State} (h : RegFrame R s t) (k : RegFrame Q t u) :
    RegFrame (fun r => R r ∨ Q r) s u := (h.mono fun _ => .inl).trans (k.mono fun _ => .inr)

theorem RegFrame.fld {R : Reg → Prop} {s t : State} (h : RegFrame R s t) (r : Reg) (n : ¬ R r) (f : Fld) : t.fld r f = s.fld r f :=
  State.fld_congr f (h.regs r n)

theorem RegFrame.sets {R : Reg → Prop} {s t : State} (h : RegFrame R s t) {P : State → Prop} (p : P t) : Sets s (.next t) R P :=
  ⟨t, rfl, h.rest, h.pend, fun r _ n => h.regs r n, p⟩

theorem RegFrame.of_regs {R : Reg → Prop} {s t : State} (rest : t = { s with regs := t.regs, aonDie := t.aonDie })
    (regs : ∀ r, ¬ R r → t.rd r = s.rd r) : RegFrame R s t where
  rest := by rw [rest]
  pend v hv := .inl (by rw [rest] at hv; exact hv)
  irqs v hv := by rw [rest]; exact hv
  regs := regs

theorem wr_frame (s : State) (r : Reg) (v : BitVec 64) : RegFrame (fun q => q = r) s (s.wr r v) :=
  .of_regs rfl fun _ n => State.rd_wr_other s v n

theorem setFld_frame (s : State) (r : Reg) (f : Fld) (x : Nat) : RegFrame (fun q => q = r) s (s.setFld r f x) := wr_frame ..

theorem setFlds_frame (s : State) (r : Reg) (fs : List (Fld × Nat)) : RegFrame (fun q => q = r) s (s.setFlds r fs) := wr_frame ..

theorem aonAdd_frame (s : State) (i n : Nat) : RegFrame noReg s (s.aonAdd i n) :=
  .of_regs (by rw [aonAdd_eq]) fun r _ => aonAdd_rd s i n r

theorem bump_frame (s : State) (r : Reg) (n : Nat) : RegFrame (fun q => q = r) s (s.bump r n) := by
  simp only [State.bump]
  split
  · exact (setFld_frame s r _ _).trans ((aonAdd_frame _ _ _).mono fun _ => False.elim)
  · exact setFld_frame s r _ _

theorem raise_frame (s : State) (v : Nat) : RegFrame noReg s (s.raise v) where
  rest := rfl
  pend x hx := by
    simp only [State.raise] at hx ⊢
    split at hx
    · rename_i h
      rcases List.mem_cons.mp hx with rfl | hx
      · simp only [Bool.and_eq_true] at h
        exact .inr ⟨by simp, h.1⟩
      · exact .inl hx
    · exact .inl hx
  irqs x hx := by simp only [State.raise]; exact List.mem_append_left _ hx
  regs _ _ := rfl

/-! ### The porter's bookkeeping: always-on counters and logbooks (R406 to R413) -/

/-- The registers of the always-on counters and of the logbooks. -/
def bookReg (r : Reg) : Prop := r.domain = .log ∨ ∃ i, r = .ptrAon i

theorem aonPorter_frame (s : State) (i : Fin 512) (n : Nat) : RegFrame bookReg s (s.aonPorter i n) :=
  (wr_frame s _ _).mono fun _ h => .inr ⟨i, h⟩

theorem logPut_frame (s : State) (unit : Fin 1024) (seq w0 w1 data w3 : Nat) : RegFrame bookReg s (s.logPut unit seq w0 w1 data w3) := by
  have w : ∀ (t : State) (i : Fin 256) (k : Fin 4) (v : BitVec 64), RegFrame bookReg t (t.wr (.dbgLog unit i k) v) :=
    fun t i k v => (wr_frame t _ v).mono fun r h => .inl (by rw [h]; rfl)
  exact (((w _ _ _ _).trans (w _ _ _ _)).trans (w _ _ _ _)).trans (w _ _ _ _)

theorem logOpen_frame (unit : Fin 1024) (w0 w1 k : Nat) (s : State) (seq : Nat) :
    RegFrame bookReg s (s.logOpen unit w0 w1 k seq).1 := by
  induction k generalizing s seq with
  | zero => exact .refl _ s
  | succ k ih =>
    simp only [State.logOpen]
    split
    · exact (logPut_frame s ..).trans (ih _ _)
    · exact .refl _ s

theorem log_frame (s : State) (unit : Fin 1024) (event ctx : Nat) (data : List Byte) : RegFrame bookReg s (s.log unit event ctx data) := by
  simp only [State.log]
  have next : ∀ (t : State) (v : BitVec 64), RegFrame bookReg t (t.wr (.dbgLogNext unit) v) :=
    fun t v => (wr_frame t _ v).mono fun r h => .inl (by rw [h]; rfl)
  split
  · exact RegFrame.trans (((logOpen_frame ..).trans (logPut_frame ..)).trans (next _ _)) (aonPorter_frame ..)
  · exact RegFrame.trans (((logOpen_frame ..).trans (logPut_frame ..)).trans (next _ _)) ((aonAdd_frame ..).mono fun _ => False.elim)

theorem tell_frame (s : State) (event data : Nat) : RegFrame noReg s (s.tell event data) :=
  ⟨rfl, fun _ h => .inl h, fun _ h => h, fun _ _ => rfl⟩

/-- The porter's read of the counters adds to PTR_AON only (R407). -/
theorem aonRead_frame (s : State) : RegFrame bookReg s s.aonRead := by
  have fold : ∀ (es : AMap Nat Nat) (t : State), RegFrame bookReg t (es.foldl (fun s e => s.aonPorter (Fin.ofNat 512 e.1) e.2) t) := by
    intro es
    induction es with
    | nil => exact .refl _
    | cons e es ih => exact fun t => (aonPorter_frame t _ _).trans (ih _)
  have emptied : ∀ t : State, RegFrame bookReg t { t with aonDie := [] } := fun t => .of_regs rfl fun _ _ => rfl
  simp only [State.aonRead, State.aonReadIf, State.aonCollect]
  split
  · exact (fold _ s).trans (emptied _)
  · exact (aonPorter_frame s _ _).trans (emptied _)

/-! ### Die resets and power cycles (R330, R369, R372, R387, R405) -/

/-- Of the registers, a die reset keeps those outside the die (R10). -/
theorem dieDown_rd (s : State) (r : Reg) : s.dieDown.rd r = if r.outlivesDie then s.rd r else r.reset :=
  AMap.get_filter Reg.outlivesDie r.reset r s.regs

/-- What the porter's own view of the die loses with it. -/
theorem dieLost_frame (s : State) :
    RegFrame (fun r => (r = .ptrStage ∨ r = .ptrBypass) ∨ r = .ptrStartTimes) s.dieDown s.dieLost :=
  ((setFlds_frame _ _ _).or (setFld_frame _ _ _ _)).or (setFlds_frame _ _ _)

theorem dieLost_stage (s : State) (f : Fld)
    (h : ([F.ptrStage_GRANTED, F.ptrStage_BUSY, F.ptrStage_BUSY_AXIS].all fun g => f.apart g) = true) :
    s.dieLost.fld .ptrStage f = s.fld .ptrStage f := by
  have kept : s.dieDown.rd .ptrStage = s.rd .ptrStage := dieDown_rd s _
  rw [← State.fld_congr f kept,
    ← State.fld_setFlds_apart s.dieDown .ptrStage
      (fs := [(F.ptrStage_GRANTED, 0), (F.ptrStage_BUSY, 0), (F.ptrStage_BUSY_AXIS, 0)]) h]
  refine State.fld_congr f ?_
  simp only [State.dieLost]
  rw [State.rd_setFlds_other _ _ (by decide), State.rd_setFld_other _ _ _ (by decide)]

theorem dieClear_eq (s : State) (h : s.dieUp = true) : s.dieClear = s.aonRead.dieLost := by rw [State.dieClear, if_pos h]

theorem resetRecord_frame (s : State) (cause engine : Nat) :
    RegFrame (fun r => r = .ptrResetRec ∨ bookReg r) s (s.resetRecord cause engine) :=
  (wr_frame s _ _).or (aonPorter_frame _ _ _)

/-- PTR_RESET_REC after a reset (R405). -/
theorem resetRecord_rd (s : State) (cause engine : Nat) : (s.resetRecord cause engine).rd .ptrResetRec =
    pack [(F.ptrResetRec_CAUSE, cause), (F.ptrResetRec_ENGINE, engine), (F.ptrResetRec_TIME_MS, s.porterMs)] := by
  rw [State.resetRecord, (aonPorter_frame _ _ _).regs _ (by simp [bookReg, Reg.domain]), State.rd_wr_same]

/-- The record tells a cause, an engine and the porter's time. -/
theorem resetRecord_flds (s : State) (cause engine : Nat) :
    (s.resetRecord cause engine).fld .ptrResetRec F.ptrResetRec_CAUSE = cause % 2 ^ 4 ∧
      (s.resetRecord cause engine).fld .ptrResetRec F.ptrResetRec_ENGINE = engine % 2 ^ 8 ∧
      (s.resetRecord cause engine).fld .ptrResetRec F.ptrResetRec_TIME_MS = s.porterMs % 2 ^ 48 := by
  simp only [State.fld, resetRecord_rd]
  exact ⟨Fld.get_puts (by decide) cause [] [_, _] rfl 0, Fld.get_puts (by decide) engine [_] [_] rfl 0,
    Fld.get_puts (by decide) s.porterMs [_, _] [] rfl 0⟩

theorem porterLog_frame (s : State) (event cause engine : Nat) : RegFrame bookReg s (s.porterLog event cause engine) := log_frame ..

/-- The record of a reset, in PTR_RESET_REC and in the porter's logbook (R405, R413). -/
def Machine.State.recordReset (y : State) (event cause engine : Nat) : State :=
  (y.resetRecord cause engine).porterLog event cause engine

theorem recordReset_frame (y : State) (event cause engine : Nat) :
    RegFrame (fun r => r = .ptrResetRec ∨ bookReg r) y (y.recordReset event cause engine) :=
  (resetRecord_frame ..).trans ((porterLog_frame ..).mono fun _ => .inr)

theorem recordReset_flds (y : State) (event cause engine : Nat) :
    (y.recordReset event cause engine).fld .ptrResetRec F.ptrResetRec_CAUSE = cause % 2 ^ 4 ∧
      (y.recordReset event cause engine).fld .ptrResetRec F.ptrResetRec_ENGINE = engine % 2 ^ 8 ∧
      (y.recordReset event cause engine).fld .ptrResetRec F.ptrResetRec_TIME_MS = y.porterMs % 2 ^ 48 := by
  simp only [State.recordReset, (porterLog_frame _ _ _ _).fld .ptrResetRec (by simp [bookReg, Reg.domain])]
  exact resetRecord_flds ..

/-- A die reset of a cause that is not counted clears the die, and then only records it. -/
theorem dieReset_uncounted (s : State) {cause : Nat} (engine : Nat) (h : countedCause cause = false) :
    s.dieReset cause engine = s.dieClear.recordReset 0x0080 cause engine := by
  simp only [State.dieReset, h, Bool.false_eq_true, if_false, State.recordReset]

/-- What registers of the porter's and of the logbooks may have been written, the die is down (R10). -/
theorem dieDown_of_frame {R : Reg → Prop} {s t : State} (h : RegFrame R s.dieDown t) (hr : ∀ r, R r → r.domain ≠ .die) :
    DieDown s t ∧ t.mem = s.mem ∧ t.dieResetting = true ∧ t.dieHist = s.dieHist := by
  have regs : ∀ r : Reg, r.domain = .die → t.rd r = r.reset := fun r hd => by
    rw [h.regs r fun k => hr r k hd, dieDown_rd, if_neg (by simp [Reg.outlivesDie, hd])]
  rw [h.rest]
  exact ⟨⟨rfl, rfl, rfl, rfl, rfl, rfl, fun r hd => regs r hd, rfl⟩, rfl, rfl, rfl⟩

theorem bookReg.not_die {r : Reg} (h : bookReg r) : r.domain ≠ .die := by
  rcases h with h | ⟨i, rfl⟩
  · simp [h]
  · simp [Reg.domain]

/-- A die reset of a cause that is not counted (R330, R405). -/
theorem dieReset_die (s : State) {cause : Nat} (engine : Nat) (up : s.dieUp = true) (h : countedCause cause = false) :
    DieDown s (s.dieReset cause engine) ∧ (s.dieReset cause engine).mem = s.mem ∧ (s.dieReset cause engine).dieResetting = true ∧
      (s.dieReset cause engine).dieHist = s.dieHist := by
  rw [dieReset_uncounted s engine h, dieClear_eq s up]
  have read := aonRead_frame s
  obtain ⟨⟨d1, d2, d3, d4, d5, d6, d7, d8⟩, mem, resetting, hist⟩ :=
    dieDown_of_frame ((dieLost_frame s.aonRead).or (recordReset_frame _ 0x0080 cause engine)) (by
      rintro r (((rfl | rfl) | rfl) | rfl | b)
      any_goals simp [Reg.domain]
      exact b.not_die)
  exact ⟨⟨d1, d2, d3, d4, d5, d6, d7, by rw [d8, read.rest]⟩, by rw [mem, read.rest], resetting, by rw [hist, read.rest]⟩

/-- What the porter shows of such a reset (R405; log entry 58). -/
theorem dieReset_shows (s : State) {cause engine : Nat} (up : s.dieUp = true) (h : countedCause cause = false) (hc : cause < 2 ^ 4)
    (he : engine < 2 ^ 8) :
    (s.dieReset cause engine).fld .ptrResetRec F.ptrResetRec_CAUSE = cause ∧
      (s.dieReset cause engine).fld .ptrResetRec F.ptrResetRec_ENGINE = engine ∧
      (s.dieReset cause engine).fld .ptrResetRec F.ptrResetRec_TIME_MS = s.porterMs % 2 ^ 48 ∧
      (s.dieReset cause engine).fld .ptrStage F.ptrStage_STAGE = s.fld .ptrStage F.ptrStage_STAGE := by
  have read := aonRead_frame s
  obtain ⟨c, e, m⟩ := recordReset_flds s.aonRead.dieLost 0x0080 cause engine
  have ms : s.aonRead.dieLost.porterMs = s.porterMs := by rw [(dieLost_frame _).rest, read.rest]; rfl
  rw [dieReset_uncounted s engine h, dieClear_eq s up]
  refine ⟨c.trans (Nat.mod_eq_of_lt hc), e.trans (Nat.mod_eq_of_lt he), by rw [m, ms], ?_⟩
  rw [(recordReset_frame _ _ _ _).fld .ptrStage (by simp [bookReg, Reg.domain]), dieLost_stage _ _ rfl,
    read.fld .ptrStage (by simp [bookReg, Reg.domain])]

/-- Where main power stands once it has been removed: the rails that were on begin to fall (R429). -/
def PowerOff (s t : State) : Prop := t.power = (if s.rails.isEmpty then .off else .falling) ∧ t.rails = s.rails

theorem mainRemove_power (s : State) : PowerOff s s.mainRemove ∧ s.mainRemove.mem = [] ∧ s.mainRemove.dieUp = false ∧
    s.mainRemove.dieHist = s.dieHist ∧ s.mainRemove.porterMs = s.porterMs := ⟨⟨rfl, rfl⟩, rfl, rfl, rfl, rfl⟩

/-- Removing main power leaves Stage 0 (R330). -/
theorem mainRemove_stage (s : State) : s.mainRemove.fld .ptrStage F.ptrStage_STAGE = 0 := by
  simp only [State.mainRemove]
  rw [State.fld, State.rd_setFld_other _ _ _ (by decide), State.setFlds, State.rd_wr_same]
  exact Fld.get_puts (by decide) 0 [] [_, _] rfl _

theorem rd_withCycle (s : State) (c : Cycle) (r : Reg) : ({ s with cycle := c } : State).rd r = s.rd r := rfl

/-- The way out of service of a module whose die is down: its power is removed, and what the porter shows and reports of it (R387). -/
def Machine.State.takenOut (y : State) (cause : Nat) : State :=
  (((({ y.mainRemove with cycle := .none } : State).setFld .ptrStage F.ptrStage_OUT_OF_SERVICE 1).setFld .ptrEscStatus
    F.ptrEscStatus_OOS_CAUSE cause).porterLog 0x0082 cause 255).tell 0x0082 cause

theorem outOfService_eq (s : State) (cause : Nat) :
    s.outOfService cause = (if s.dieUp then s.dieClear else s).takenOut cause := rfl

theorem mainRemove_resetRec (s : State) : s.mainRemove.rd .ptrResetRec = s.rd .ptrResetRec := by
  simp only [State.mainRemove]
  rw [State.rd_setFld_other _ _ _ (by decide), State.rd_setFlds_other _ _ (by decide)]
  exact (AMap.get_filter Reg.outlivesMain _ _ _).trans (dieDown_rd s .ptrResetRec)

theorem takenOut_frame (y : State) (cause : Nat) :
    RegFrame (fun r => (r = .ptrStage ∨ r = .ptrEscStatus) ∨ bookReg r) { y.mainRemove with cycle := .none } (y.takenOut cause) :=
  ((setFld_frame _ _ _ _).or (setFld_frame _ _ _ _)).or
    ((porterLog_frame _ _ _ _).trans ((tell_frame _ _ _).mono fun _ => False.elim))

/-- The rails are as they were where the die has only been cleared. -/
theorem dieClear_rails (s : State) : s.dieClear.rails = s.rails := by
  have lost : ∀ t : State, t.dieLost.rails = t.rails := fun _ => rfl
  simp only [State.dieClear, lost]
  split
  · rw [(aonRead_frame s).rest]
  · rfl

/-- The porter shows that the module is out of service, and why (R387). -/
theorem takenOut_shows (y : State) (cause : Nat) (h : cause < 4) :
    (y.takenOut cause).flag .ptrStage F.ptrStage_OUT_OF_SERVICE = true ∧
      (y.takenOut cause).fld .ptrEscStatus F.ptrEscStatus_OOS_CAUSE = cause ∧
      (y.takenOut cause).fld .ptrStage F.ptrStage_STAGE = 0 := by
  have book : ∀ r : Reg, ¬ bookReg r → (y.takenOut cause).rd r =
      ((({ y.mainRemove with cycle := .none } : State).setFld .ptrStage F.ptrStage_OUT_OF_SERVICE 1).setFld .ptrEscStatus
        F.ptrEscStatus_OOS_CAUSE cause).rd r := fun r n => by
    rw [State.takenOut, (tell_frame _ _ _).regs r id, (porterLog_frame _ _ _ _).regs r n]
  have stage : (y.takenOut cause).rd .ptrStage =
      (({ y.mainRemove with cycle := .none } : State).setFld .ptrStage F.ptrStage_OUT_OF_SERVICE 1).rd .ptrStage := by
    rw [book _ (by simp [bookReg, Reg.domain]), State.rd_setFld_other _ _ _ (by decide)]
  refine ⟨?_, ?_, ?_⟩
  · rw [State.flag, State.fld_congr _ stage, State.fld_setFld _ _ _ _ (by decide)]
    rfl
  · rw [State.fld_congr _ (book .ptrEscStatus (by simp [bookReg, Reg.domain])), State.fld_setFld _ _ _ _ (by decide)]
    exact Nat.mod_eq_of_lt h
  · rw [State.fld_congr _ stage, State.fld_setFld_apart _ _ (by rfl), State.fld, rd_withCycle]
    exact mainRemove_stage y

/-- What the module loses as it is taken out of service. -/
theorem takenOut_loses (y : State) (cause : Nat) :
    PowerOff y (y.takenOut cause) ∧ (y.takenOut cause).cycle = .none ∧ (y.takenOut cause).mem = [] := by
  rw [(takenOut_frame y cause).rest]
  exact ⟨⟨rfl, rfl⟩, rfl, rfl⟩

/-- The module is out of service for a cause, its rails off or falling (R387). -/
def OutOfService (s t : State) (cause : Nat) : Prop :=
  t.flag .ptrStage F.ptrStage_OUT_OF_SERVICE = true ∧ t.fld .ptrEscStatus F.ptrEscStatus_OOS_CAUSE = cause ∧ PowerOff s t ∧
    t.cycle = .none

theorem outOfService_spec (s : State) (cause : Nat) (h : cause < 4) :
    OutOfService s (s.outOfService cause) cause ∧ (s.outOfService cause).mem = [] ∧
      (s.outOfService cause).fld .ptrStage F.ptrStage_STAGE = 0 := by
  have rails : (if s.dieUp then s.dieClear else s).rails = s.rails := by
    split
    · exact dieClear_rails s
    · rfl
  rw [outOfService_eq]
  generalize (if s.dieUp then s.dieClear else s) = y at rails
  obtain ⟨flag, oos, stage⟩ := takenOut_shows y cause h
  obtain ⟨⟨power, on⟩, cycle, mem⟩ := takenOut_loses y cause
  exact ⟨⟨flag, oos, ⟨by rw [power, rails], by rw [on, rails]⟩, cycle⟩, mem, stage⟩

/-- Taking a module whose die is down out of service keeps the porter's reset record. -/
theorem takenOut_resetRec (y : State) (cause : Nat) : (y.takenOut cause).rd .ptrResetRec = y.rd .ptrResetRec := by
  rw [(takenOut_frame y cause).regs _ (by simp [bookReg, Reg.domain]), rd_withCycle, mainRemove_resetRec]

theorem countReset_rd (s : State) (r : Reg) : s.countReset.rd r = s.rd r := rfl

theorem countReset_dieResets1h (s : State) : s.countReset.dieResets1h = s.dieResets1h + 1 := by
  simp only [State.countReset, State.dieResets1h]
  rw [List.filter_cons_of_pos (by simp), List.length_cons]
  rfl

/-- A power cycle has begun: main power is off, the failed reset is recorded and counted (R372, R387). -/
def Machine.State.cycleBegun (s : State) : State :=
  (({ s.mainRemove with cycle := .removed } : State).recordReset 0x0081 6 (s.fld .ptrResetRec F.ptrResetRec_ENGINE)).countReset

theorem powerCycle_eq (s : State) :
    s.powerCycle = if 2 ≤ s.cycleBegun.dieResets1h then s.cycleBegun.outOfService 2 else s.cycleBegun := rfl

/-- What a power cycle removes. -/
theorem cycleBegun_loses (s : State) :
    PowerOff s s.cycleBegun ∧ s.cycleBegun.mem = [] ∧ s.cycleBegun.cycle = .removed ∧ s.cycleBegun.dieUp = false := by
  rw [State.cycleBegun, (recordReset_frame _ _ _ _).rest]
  exact ⟨⟨rfl, rfl⟩, rfl, rfl, rfl⟩

theorem cycleBegun_dieResets1h (s : State) : s.cycleBegun.dieResets1h = s.dieResets1h + 1 := by
  rw [State.cycleBegun, countReset_dieResets1h, (recordReset_frame _ _ _ _).rest]
  rfl

/-- What the porter shows of a power cycle that it begins. -/
theorem cycleBegun_shows (s : State) : s.cycleBegun.fld .ptrStage F.ptrStage_STAGE = 0 ∧
    s.cycleBegun.fld .ptrResetRec F.ptrResetRec_CAUSE = 6 ∧
    s.cycleBegun.fld .ptrResetRec F.ptrResetRec_ENGINE = s.fld .ptrResetRec F.ptrResetRec_ENGINE := by
  obtain ⟨c, e, -⟩ := recordReset_flds { s.mainRemove with cycle := .removed } 0x0081 6 (s.fld .ptrResetRec F.ptrResetRec_ENGINE)
  simp only [State.cycleBegun, State.fld_congr _ (countReset_rd _ _)]
  refine ⟨?_, c, e.trans (Nat.mod_eq_of_lt (Fld.get_lt _ _))⟩
  rw [(recordReset_frame _ _ _ _).fld _ (by simp [bookReg, Reg.domain]), State.fld, rd_withCycle]
  exact mainRemove_stage s

/-- A die that does not reach Stage 1 is power-cycled; the second time in an hour takes the module out of service (R369, R372, R387). -/
theorem powerCycle_spec (s : State) :
    PowerOff s s.powerCycle ∧ s.powerCycle.mem = [] ∧ s.powerCycle.fld .ptrStage F.ptrStage_STAGE = 0 ∧
      s.powerCycle.fld .ptrResetRec F.ptrResetRec_CAUSE = 6 ∧
      s.powerCycle.fld .ptrResetRec F.ptrResetRec_ENGINE = s.fld .ptrResetRec F.ptrResetRec_ENGINE ∧
      (s.dieResets1h = 0 → s.powerCycle.cycle = .removed) ∧ (s.dieResets1h ≠ 0 → OutOfService s s.powerCycle 2) := by
  obtain ⟨⟨power, rails⟩, mem, cycle, up⟩ := cycleBegun_loses s
  obtain ⟨stage, cause, engine⟩ := cycleBegun_shows s
  rw [powerCycle_eq, cycleBegun_dieResets1h]
  by_cases first : s.dieResets1h = 0
  · rw [if_neg (by omega)]
    exact ⟨⟨power, rails⟩, mem, stage, cause, engine, fun _ => cycle, fun n => absurd first n⟩
  · rw [if_pos (by omega)]
    obtain ⟨⟨flag, oos, ⟨power', rails'⟩, cycle'⟩, mem', stage'⟩ := outOfService_spec s.cycleBegun 2 (by decide)
    have kept : (s.cycleBegun.outOfService 2).rd .ptrResetRec = s.cycleBegun.rd .ptrResetRec := by
      rw [outOfService_eq, if_neg (by simp [up]), takenOut_resetRec]
    have off : PowerOff s (s.cycleBegun.outOfService 2) := ⟨by rw [power', rails], by rw [rails', rails]⟩
    exact ⟨off, mem', stage', (State.fld_congr _ kept).trans cause, (State.fld_congr _ kept).trans engine,
      fun z => absurd z first, fun _ => ⟨flag, oos, off, cycle'⟩⟩

/-- A power cycle that fails takes the module out of service (R369, R387). -/
theorem powerCycleFailed_spec (s : State) :
    OutOfService s ((s.countReset.aonPorter 366 1).outOfService 3) 3 ∧ ((s.countReset.aonPorter 366 1).outOfService 3).mem = [] := by
  obtain ⟨⟨flag, oos, power, cycle⟩, mem, -⟩ := outOfService_spec (s.countReset.aonPorter 366 1) 3 (by decide)
  exact ⟨⟨flag, oos, power, cycle⟩, mem⟩

/-! ### What the operator clears (R387, R405) -/

theorem clearOos_sets (s : State) (h : s.fld .ptrStage F.ptrStage_STAGE = 0) :
    Sets s (.next s.clearOos) (fun r => r = .ptrStage ∨ r = .ptrEscStatus) fun t =>
      Takes s t .ptrStage F.ptrStage_OUT_OF_SERVICE 0 ∧ Takes s t .ptrEscStatus F.ptrEscStatus_OOS_CAUSE 0 := by
  rw [State.clearOos, if_neg (by simp [h])]
  refine ((setFld_frame _ _ _ _).or (setFld_frame _ _ _ _)).sets ⟨?_, ?_⟩
  · rw [Takes, State.rd_setFld_other _ _ _ (by decide), State.rd_setFld_same]
  · rw [Takes, State.rd_setFld_same, State.rd_setFld_other _ _ _ (by decide)]

theorem clearFences_sets (s : State) :
    Sets s (.next s.clearFences) (fun r => r = .ptrStallFenceLo ∨ r = .ptrStallFenceHi ∨ r = .ptrEscStatus) fun t =>
      (∀ n, t.stallFenced n = false) ∧ Takes s t .ptrEscStatus F.ptrEscStatus_FENCES 0 := by
  have frame := ((wr_frame s .ptrStallFenceLo 0).or (wr_frame _ .ptrStallFenceHi 0)).or
    (setFld_frame _ .ptrEscStatus F.ptrEscStatus_FENCES 0)
  refine (frame.mono fun r h => or_assoc.mp h).sets ⟨fun n => ?_, ?_⟩
  · have lo : s.clearFences.rd .ptrStallFenceLo = 0 := by
      rw [State.clearFences, State.rd_setFld_other _ _ _ (by decide), State.rd_wr_other _ _ (by decide), State.rd_wr_same]
    have hi : s.clearFences.rd .ptrStallFenceHi = 0 := by
      rw [State.clearFences, State.rd_setFld_other _ _ _ (by decide), State.rd_wr_same]
    change s.clearFences.stallFenced n = false
    simp [State.stallFenced, lo, hi, bitOf]
  · rw [Takes, State.rd_setFld_same, State.rd_wr_other _ _ (by decide), State.rd_wr_other _ _ (by decide)]

/-- Settles O38: from what a die reset clears and shows, what a power cycle removes and shows, and what taking the module out of service
leaves. -/
theorem dieResetAndPowerCycle : Obligations.DieResetAndPowerCycle := by
  intro s
  have reset : s.dieUp = true → ∀ cause, countedCause cause = false → cause < 2 ^ 4 →
      Leaves (.next (if s.dieUp then s.dieReset cause 255 else s)) fun t => DieDown s t ∧ t.mem = s.mem ∧ t.dieResetting = true ∧
        t.dieHist = s.dieHist ∧ t.fld .ptrResetRec F.ptrResetRec_CAUSE = cause ∧ t.fld .ptrResetRec F.ptrResetRec_ENGINE = 255 ∧
        t.fld .ptrResetRec F.ptrResetRec_TIME_MS = s.porterMs % 2 ^ 48 ∧
        t.fld .ptrStage F.ptrStage_STAGE = s.fld .ptrStage F.ptrStage_STAGE := fun up cause h hc => by
    obtain ⟨down, mem, resetting, hist⟩ := dieReset_die s 255 up h
    obtain ⟨c, e, ms, stage⟩ := dieReset_shows s (engine := 255) up h hc (by decide)
    exact ⟨_, by rw [if_pos up], down, mem, resetting, hist, c, e, ms, stage⟩
  refine ⟨fun up p hp => ?_, fun down c hc => ?_, fun h => ?_, fun h => ?_, fun h => ?_, fun h => ?_, fun h => ?_, fun h => ?_,
    fun aux h => ?_, fun h => ?_, fun aux => ?_, fun aux => ?_⟩
  · fin_cases hp
    · exact reset up 4 rfl (by decide)
    · exact reset up 3 rfl (by decide)
    · exact reset up 3 rfl (by decide)
  · fin_cases hc <;> simp [exec, execOperatorDieReset, execPcieHotReset, execPerstAssert, down]
  · simp [exec, execDieResetWatchdogExpiry, h]
  · obtain ⟨off, mem, stage, cause, engine, once, twice⟩ := powerCycle_spec s
    exact ⟨_, by simp [exec, execDieResetWatchdogExpiry, h], off, mem, stage, cause, engine, once, twice⟩
  · simp [exec, execPowerCycleReapply, h, State.mainStart]
  · simp [exec, execPowerCycleReapply, h]
  · simp [exec, execPowerCycleWatchdogExpiry, h]
  · obtain ⟨oos, mem⟩ := powerCycleFailed_spec s
    exact ⟨_, by simp [exec, execPowerCycleWatchdogExpiry, h], oos, mem⟩
  · simpa [exec, execClearOos, aux] using clearOos_sets s h
  · simp [exec, execClearOos, State.clearOos, h]
  · simpa [exec, execClearFences, aux] using clearFences_sets s
  · simp [exec, execClearHistory, aux, State.clearHistory]

/-! ### Register writes by their access codes (R8) -/

namespace Machine

/-- No two of a register's fields have a bit in common. -/
def fieldsApart : List Fld → Bool
  | [] => true
  | f :: fs => decide (f.lo + f.w ≤ 64) && (fs.all fun g => f.apart g && g.apart f) && fieldsApart fs

theorem Reg.fields_apart (r : Reg) : fieldsApart r.fields = true := by cases r <;> rfl

theorem fieldsApart_cons {f : Fld} {fs : List Fld} (h : fieldsApart (f :: fs) = true) :
    f.lo + f.w ≤ 64 ∧ (∀ g ∈ fs, f.apart g = true ∧ g.apart f = true) ∧ fieldsApart fs = true := by
  simpa [fieldsApart, and_assoc] using h

/-- A field fits a register's 64 bits. -/
theorem fieldsApart_fits {fs : List Fld} (h : fieldsApart fs = true) {f : Fld} (hf : f ∈ fs) : f.lo + f.w ≤ 64 := by
  induction fs with
  | nil => cases hf
  | cons g fs ih =>
    obtain ⟨hg, _, hfs⟩ := fieldsApart_cons h
    rcases List.mem_cons.mp hf with rfl | hf
    · exact hg
    · exact ih hfs hf

/-- A write of one field puts a value in it, or leaves the register. -/
theorem Fld.write_put (o : Bool) (f : Fld) (x v : BitVec 64) : f.write o x v = x ∨ ∃ y, f.write o x v = f.put x y := by
  have stays : ∀ (c : Bool) (y : Nat), (if c then f.put x y else x) = x ∨ ∃ z, (if c then f.put x y else x) = f.put x z := fun c y => by
    cases c
    exacts [.inl rfl, .inr ⟨y, rfl⟩]
  unfold Fld.write
  cases f.acc with
  | rw => exact stays _ _
  | rwl => exact stays _ _
  | rw1c => exact .inr ⟨_, rfl⟩
  | ro => exact .inl rfl
  | wo => exact .inl rfl

theorem Fld.get_write_apart {f g : Fld} (h : g.apart f = true) (o : Bool) (x v : BitVec 64) : g.get (f.write o x v) = g.get x := by
  rcases f.write_put o x v with e | ⟨y, e⟩
  · rw [e]
  · rw [e, Fld.get_put_apart h]

/-- A field after a write of its own: a locked field keeps its value where it is not open. -/
theorem Fld.get_write {f : Fld} (hf : f.lo + f.w ≤ 64) (o : Bool) (x v : BitVec 64) :
    f.get (f.write o x v) = if f.acc = .rwl ∧ o = false then f.get x else fieldAfter f x v := by
  have put : ∀ y, y < 2 ^ f.w → f.get (f.put x y) = y := fun y hy => by rw [Fld.get_put f hf, Nat.mod_eq_of_lt hy]
  have new := put (f.get v) (Fld.get_lt f v)
  unfold Fld.write fieldAfter
  cases hacc : f.acc with
  | rw => cases f.valid <;> simp [new, apply_ite f.get]
  | rwl => cases o <;> cases f.valid <;> simp [new, apply_ite f.get]
  | rw1c => simpa using put _ (Nat.lt_of_le_of_lt (Nat.sub_le ..) (Fld.get_lt f x))
  | ro => simp
  | wo => simp

theorem fieldAfter_congr {f : Fld} {x y : BitVec 64} (h : f.get x = f.get y) (v : BitVec 64) : fieldAfter f x v = fieldAfter f y v := by
  simp only [fieldAfter, h]

theorem writeFields_apart {g : Fld} {fs : List Fld} (h : ∀ f ∈ fs, g.apart f = true) (o : Bool) (x v : BitVec 64) :
    g.get (writeFields o fs x v) = g.get x := by
  induction fs generalizing x with
  | nil => rfl
  | cons f fs ih =>
    rw [writeFields, List.foldl_cons, ← writeFields, ih fun e he => h e (List.mem_cons_of_mem _ he),
      Fld.get_write_apart (h f List.mem_cons_self)]

/-- Every field of a register after a write of the register, which opens its locked fields or not. -/
theorem writeFields_get {fs : List Fld} (h : fieldsApart fs = true) {f : Fld} (hf : f ∈ fs) (o : Bool) (x v : BitVec 64) :
    f.get (writeFields o fs x v) = if f.acc = .rwl ∧ o = false then f.get x else fieldAfter f x v := by
  induction fs generalizing x with
  | nil => cases hf
  | cons g fs ih =>
    obtain ⟨hg, apart, hfs⟩ := fieldsApart_cons h
    rw [writeFields, List.foldl_cons, ← writeFields]
    rcases List.mem_cons.mp hf with rfl | hf
    · rw [writeFields_apart fun e he => (apart e he).1, Fld.get_write hg]
    · have same : f.get (g.write o x v) = f.get x := Fld.get_write_apart (apart f hf).2 o x v
      rw [ih hfs hf, same, fieldAfter_congr same]

/-- A register's write opens its locked fields: every field takes what its access code says. -/
theorem State.regWrite_flds (s : State) (r : Reg) (v : BitVec 64) :
    ∀ f ∈ r.fields, f.get ((s.regWrite r v).rd r) = fieldAfter f (s.rd r) v := fun f hf => by
  rw [State.regWrite, State.rd_wr_same, writeFields_get r.fields_apart hf, if_neg (by simp)]

end Machine

theorem regWrite_frame (s : State) (r : Reg) (v : BitVec 64) : RegFrame (fun q => q = r) s (s.regWrite r v) := wr_frame ..

/-! ### Management accesses of registers (R298, R299) -/

/-- Of 8 aligned bytes, a word read in part is read whole. -/
theorem wordHalf_aligned {a : Nat} (h : a % 8 = 0) (v : BitVec 64) : wordHalf a 8 v = v.toNat := by
  simp [wordHalf, bitsOf, h, Nat.mod_eq_of_lt v.isLt]

theorem wordPut_aligned {a : Nat} (h : a % 8 = 0) (old v : BitVec 64) : wordPut a 8 old v = v := by
  apply BitVec.eq_of_toNat_eq
  have put := Fld.get_put ⟨0, 64, .rw, 0, none⟩ (by decide) old v.toNat
  rw [Fld.get, bitsOf, Nat.pow_zero, Nat.div_one, Nat.mod_eq_of_lt (BitVec.isLt _), Nat.mod_eq_of_lt v.isLt] at put
  rw [wordPut, h]
  exact put

/-- Below the MSI-X table there is no entry of it. -/
theorem msixAt_below {a : Nat} (h : a < 0xFF000FF00000) : msixAt a = none := by
  rw [msixAt, if_neg]; omega

theorem msixAt_above {a : Nat} (h : 0xFF000FF11000 ≤ a) : msixAt a = none := by
  rw [msixAt, if_neg]; omega

/-- The second word of an entry of the MSI-X table. -/
theorem msixAt_entry {a : Nat} (i : Fin 260) (h : a = 0xFF000FF00000 + 16 * i.val + 8) : msixAt a = some i := by
  have := i.isLt
  rw [msixAt, if_pos (by omega)]
  congr 1
  apply Fin.ext
  rw [Fin.val_ofNat]
  omega
/-! ### Commands that trace and send (R249, R254, R415) -/

/-- `Quiet`, with the registers that place the trace's ring in memory left as they were. -/
structure Calm (R : Reg → Prop) (s t : State) : Prop extends Quiet R s t where
  ctrl : t.rd .dbgTraceCtrl = s.rd .dbgTraceCtrl
  spill : t.rd .dbgTraceSpill = s.rd .dbgTraceSpill
  top : ringTop t ≤ ringTop s

theorem Calm.ring {R : Reg → Prop} {s t : State} (h : Calm R s t) {a : Nat} (k : inRing t a) : inRing s a := by
  obtain ⟨on, low, high⟩ := k
  rw [State.flag_congr _ h.ctrl] at on
  rw [State.fld_congr _ h.spill] at low high
  exact ⟨on, low, Nat.lt_of_lt_of_le high (Nat.add_le_add_left h.top _)⟩

theorem Calm.trans {R : Reg → Prop} {s t u : State} (h : Calm R s t) (k : Calm R t u) : Calm R s u where
  pending := k.pending.trans h.pending
  stalls := k.stalls.trans h.stalls
  regs r hr n := (k.regs r hr n).trans (h.regs r hr n)
  mem a ha := (k.mem a fun hi => ha (h.ring hi)).trans (h.mem a ha)
  ctrl := k.ctrl.trans h.ctrl
  spill := k.spill.trans h.spill
  top := Nat.le_trans k.top h.top

theorem Calm.mono {R R' : Reg → Prop} {s t : State} (h : Calm R s t) (hr : ∀ r, R r → R' r) : Calm R' s t :=
  { h with regs := fun r a n => h.regs r a fun k => n (hr r k) }

/-- What changes neither the stalls, the registers nor the memory. -/
theorem Calm.same {R : Reg → Prop} {s t : State} (p : t.pending = s.pending) (st : t.stalls = s.stalls) (rg : t.regs = s.regs)
    (m : t.mem = s.mem) : Calm R s t := by
  have rd : ∀ r, t.rd r = s.rd r := fun r => by simp only [State.rd, rg]
  exact ⟨⟨p, st, fun r _ _ => rd r, fun _ _ => by rw [m]⟩, rd _, rd _, Nat.le_of_eq (ringTop_congr (rd _) (rd _) (rd _))⟩

theorem Calm.refl (R : Reg → Prop) (s : State) : Calm R s s := .same rfl rfl rfl rfl

theorem Traced.calm {s t : State} (h : Traced s t) (R : Reg → Prop) : Calm R s t :=
  ⟨⟨by rw [h.rest], by rw [h.rest], fun r hr _ => h.regs r hr, h.mem⟩, h.regs _ rfl, h.regs _ rfl, h.top⟩

/-- The registers that place the trace's ring. -/
def ringReg (r : Reg) : Prop := r = .dbgTraceCtrl ∨ r = .dbgTraceSpill ∨ r = .dbgTraceStatus

theorem RegFrame.calm {R : Reg → Prop} {s t : State} (h : RegFrame R s t) (n : ∀ r, ringReg r → ¬ R r) : Calm R s t := by
  have ctrl := h.regs .dbgTraceCtrl (n _ (.inl rfl))
  have spill := h.regs .dbgTraceSpill (n _ (.inr (.inl rfl)))
  have status := h.regs .dbgTraceStatus (n _ (.inr (.inr rfl)))
  exact ⟨⟨by rw [h.rest], by rw [h.rest], fun r _ k => h.regs r k, fun _ _ => by rw [h.rest]⟩, ctrl, spill,
    Nat.le_of_eq (ringTop_congr ctrl spill status)⟩

theorem Calm.does {R : Reg → Prop} {s t : State} (h : Calm R s t) {P : State → Prop} (p : P t) : Does s (.next t) R P :=
  ⟨t, rfl, h.toQuiet, p⟩

theorem Calm.fld {R : Reg → Prop} {s t : State} (h : Calm R s t) (r : Reg) (hr : traceReg r = false) (n : ¬ R r) (f : Fld) :
    t.fld r f = s.fld r f := State.fld_congr f (h.regs r hr n)

/-! #### The sorting office's letters -/

/-- Beside the trace unit, the inbox, the letters held at ports and their granules, and registers, nothing has changed. -/
def OfficeRest (s t : State) : Prop :=
  t = { s with regs := t.regs, mem := t.mem, aonDie := t.aonDie, outQ := t.outQ, trace := t.trace, memReqs := t.memReqs,
               inbox := t.inbox, rxHeld := t.rxHeld, freed := t.freed }

theorem OfficeRest.trans {s t u : State} (h : OfficeRest s t) (k : OfficeRest t u) : OfficeRest s u := by
  unfold OfficeRest at *
  rw [k, h]

theorem Traced.office {s t : State} (h : Traced s t) : OfficeRest s t := by
  unfold OfficeRest
  rw [h.rest]

theorem release_eq (s : State) (lt : Letter) :
    s.release lt = { s with rxHeld := (s.release lt).rxHeld, freed := (s.release lt).freed } := by
  unfold State.release
  split <;> rfl

theorem traceHead_traced (s : State) (lt : Letter) (sent : Bool) : Traced s (s.traceHead 0x230 lt sent) :=
  emit_traced s _ _ _ _ (by decide)

/-- The inbox without a letter that is processed. -/
def Machine.State.inboxLeft (s : State) (lt : Letter) : State :=
  State.release { s with inbox := s.inbox.eraseP fun x => { x with circVa := lt.circVa } = lt } lt

theorem inboxLeft_eq (s : State) (lt : Letter) : s.inboxLeft lt =
    { s with inbox := (s.inboxLeft lt).inbox, rxHeld := (s.inboxLeft lt).rxHeld, freed := (s.inboxLeft lt).freed } := by
  have e : ∀ t : State, t.release lt =
      { t with inbox := (t.release lt).inbox, rxHeld := (t.release lt).rxHeld, freed := (t.release lt).freed } := fun t => by
    rw [release_eq]
  rw [State.inboxLeft, e]

theorem taken_eq (s : State) (lt : Letter) : s.taken lt = (s.inboxLeft lt).traceHead 0x230 lt false := rfl

theorem inboxLeft_outQ (s : State) (lt : Letter) : (s.inboxLeft lt).outQ = s.outQ := by rw [inboxLeft_eq]

theorem taken_calm (s : State) (lt : Letter) (R : Reg → Prop) : Calm R s (s.taken lt) := by
  rw [taken_eq]
  refine Calm.trans (.same ?_ ?_ ?_ ?_) ((traceHead_traced _ lt false).calm R) <;> rw [inboxLeft_eq]

theorem taken_office (s : State) (lt : Letter) : OfficeRest s (s.taken lt) := by
  rw [taken_eq]
  refine OfficeRest.trans ?_ (traceHead_traced _ lt false).office
  unfold OfficeRest
  rw [inboxLeft_eq]

theorem taken_outQ (s : State) (lt : Letter) : QueuesAfter (s.taken lt) s.outQ := by
  rw [taken_eq, ← inboxLeft_outQ s lt]
  exact (traceHead_traced _ lt false).out

/-- The counters of discarded letters do not place the trace's ring. -/
theorem dropReg.not_ring {r : Reg} (h : ringReg r) : ¬ dropReg r := by
  rcases h with rfl | rfl | rfl <;> simp [dropReg]

theorem regs_office {s t : State} (h : t = { s with regs := t.regs, aonDie := t.aonDie }) : OfficeRest s t := by
  unfold OfficeRest
  rw [h]
/-- The registers by which letters are routed to a port that carries them (R247, R249). -/
def routeReg : Reg → Bool
  | .soRtCtrl | .soRtAxis _ _ | .soPortStatus _ | .soPortPeer _ | .soPortDisc _ | .ptrPlanChip => true
  | _ => false

theorem routeReg_untraced {r : Reg} (h : routeReg r = true) : traceReg r = false := by
  revert h
  cases r <;> simp [routeReg, traceReg]

/-- Routing reads the chip's number and the registers of `routeReg` only. -/
theorem routesTo_congr {s t : State} (chip : t.chip = s.chip) (regs : ∀ r, routeReg r = true → t.rd r = s.rd r) {dest : BitVec 14}
    {cls : LClass} {p : Fin 8} (h : RoutesTo s dest cls p) : RoutesTo t dest cls p := by
  have rt : ∀ v, t.rtValid v = s.rtValid v := fun v => State.flag_congr _ (regs .soRtCtrl rfl)
  have epoch : t.srcEpoch = s.srcEpoch := State.flag_congr _ (regs .soRtCtrl rfl)
  have axis : ∀ v a f, t.fld (.soRtAxis v a) f = s.fld (.soRtAxis v a) f := fun v a f => State.fld_congr f (regs _ rfl)
  have decides : ∀ v a, t.routeAxis v dest a = s.routeAxis v dest a := fun v a => by
    simp only [State.routeAxis, State.rtLen, State.rtShape, State.rtDir, axis, chip]
    congr!
  have route : ∀ v, t.route v dest = s.route v dest := fun v => by simp only [State.route, decides]
  have carries : t.carries p cls false = s.carries p cls false := by
    simp only [State.carries, State.linkUp, State.portState, State.fld_congr _ (regs (.soPortDisc p) rfl),
      State.fld_congr _ (regs (.soPortStatus p) rfl)]
    congr!
  have skips : t.skips p dest = s.skips p dest := by
    simp only [State.skips, State.chipBeyond, State.planTorus, State.fld_congr _ (regs (.soPortPeer p) rfl),
      State.flag_congr _ (regs (.soPortStatus p) rfl), regs .ptrPlanChip rfl, chip]
    congr!
  obtain ⟨hv, hr, hc, hs⟩ := h
  exact ⟨by rw [epoch, rt, hv], by rw [epoch, route, hr], carries.trans hc, skips.trans hs⟩

/-- A letter on its way: to the port that it is routed to, to the inbox, or counted and discarded. -/
structure Forwarded (s t : State) : Prop where
  calm : Calm dropReg s t
  office : OfficeRest s t

theorem bump_forwarded (s : State) {r : Reg} (h : dropReg r) : Forwarded s (s.bump r 1) := by
  have frame := (bump_frame s r 1).mono fun q (e : q = r) => e ▸ h
  refine ⟨frame.calm fun q => dropReg.not_ring, regs_office ?_⟩
  simp only [State.bump]
  split
  · rw [aonAdd_eq]; rfl
  · rfl

theorem queued_forwarded (s : State) (xs : List OutLetter) (ys : List Letter) : Forwarded s { s with outQ := xs, inbox := ys } :=
  ⟨.same rfl rfl rfl rfl, rfl⟩

theorem toPort_forwarded (s : State) (lt : Letter) (p : Fin 8) (vc : Fin 16) (src : Option (Fin 8)) :
    Forwarded s (s.toPort lt p vc src) := by
  unfold State.toPort
  split
  · exact bump_forwarded s (.inr (.inr ⟨p, .inl rfl⟩))
  · split
    · exact bump_forwarded s (.inr (.inr ⟨p, .inr rfl⟩))
    · exact queued_forwarded s _ s.inbox

theorem forward_forwarded (s : State) (lt : Letter) (arrived : Option (Fin 8)) : Forwarded s (s.forward lt arrived) := by
  unfold State.forward
  dsimp only
  split
  · exact bump_forwarded s (.inl rfl)
  · split
    · exact bump_forwarded s (.inr (.inl rfl))
    · exact queued_forwarded s s.outQ _
    · exact toPort_forwarded ..

theorem Traced.forwarded {s t : State} (h : Traced s t) : Forwarded s t := ⟨h.calm _, h.office⟩

theorem Forwarded.trans {s t u : State} (h : Forwarded s t) (k : Forwarded t u) : Forwarded s u :=
  ⟨h.calm.trans k.calm, h.office.trans k.office⟩

theorem send_forwarded (s : State) (lt : Letter) : Forwarded s (s.send lt) :=
  (traceHead_traced s _ true).forwarded.trans (forward_forwarded ..)

/-- A letter that is routed to a port waits there, as the source has stamped it. -/
theorem forward_queues (s : State) {lt : Letter} {p : Fin 8} (epoch : lt.epoch = s.srcEpoch) (h : RoutesTo s lt.dest lt.cls p) :
    ∃ o ∈ (s.forward lt none).outQ, o.port = p ∧ ∃ vc hops, o.lt = { lt with vc := vc, hops := hops } := by
  obtain ⟨hv, hr, hc, hs⟩ := h
  simp only [State.forward, epoch, hv, hr, State.toPort, Option.isSome_none, hc, hs, Bool.not_true, Bool.false_eq_true, if_false]
  exact ⟨_, List.mem_append_right _ (List.mem_singleton.mpr rfl), rfl, _, _, rfl⟩

/-- A letter that this chip sends waits at the port that the routing tables take it to. -/
theorem send_queues (s : State) {lt : Letter} {p : Fin 8} (h : RoutesTo s lt.dest lt.cls p) :
    ∃ o ∈ (s.send lt).outQ, o.port = p ∧ ∃ vc hops, o.lt = { s.stamp lt with vc := vc, hops := hops } := by
  have tr := traceHead_traced s (s.stamp lt) true
  have regs : ∀ r, routeReg r = true → (s.traceHead 0x230 (s.stamp lt) true).rd r = s.rd r := fun r hr =>
    tr.regs r (routeReg_untraced hr)
  refine forward_queues _ ?_ (routesTo_congr (by rw [tr.rest]) regs h)
  exact (State.flag_congr _ (regs .soRtCtrl rfl)).symm
/-! ### Management reads and writes of registers and of the MSI-X table (R178, R298) -/

/-- No register lies behind the blocks of the decoder, where the MSI-X table is. -/
theorem ofAddr_above {a : Nat} (h : 0xff000e000000 ≤ a) : Reg.ofAddr a = none := by
  grind [Reg.ofAddr]

/-- Registers whose write is that of their fields, and whose read gives what they hold. -/
inductive PlainReg : Reg → Prop
  | postCtrl : PlainReg .soPostCtrl
  | bar2Win : PlainReg .hstBar2Win
  | ctxFence : PlainReg .soCtxFence
  | portArb (p : Fin 8) : PlainReg (.soPortArb p)
  | portLimits (p : Fin 8) : PlainReg (.soPortLimits p)
  | trigNet : PlainReg .dbgTrigNet
  | trig (m : Fin 4) : PlainReg (.dbgTrig m)
  | traceSrc (u : Fin 1024) : PlainReg (.dbgTraceSrc u)
  | nwCtrl (t : Fin 16) : PlainReg (.stbNwCtrl t)
  | solo : PlainReg .hstSolo
  | frAsym (p : Fin 8) : PlainReg (.clkFrAsym p)
  | poisonHead : PlainReg .hbaPoisonHead
  | pwrLimit : PlainReg .ptrPwrLimit
  | thermCtrl : PlainReg .ptrThermCtrl

theorem PlainReg.store {r : Reg} (h : PlainReg r) (s : State) (v : BitVec 64) : s.store r v = s.regWrite r v := by cases h <;> rfl

theorem PlainReg.readReg {r : Reg} (h : PlainReg r) (s : State) : s.readReg r = (s, s.rd r) := by cases h <;> rfl

/-- An address of no register, beside the MSI-X table, reads 0. -/
theorem mgmtRead_none (s : State) {a : Nat} (size : Nat) (h : Reg.ofAddr (a / 8 * 8) = none) (out : a < 0xFF000FF00000 ∨ 0xFF000FF11000 ≤ a) :
    s.mgmtRead a size = (s, plain (toBytes size 0)) := by
  have msix : msixAt (a / 8 * 8) = none := by
    rcases out with out | out
    · exact msixAt_below (by omega)
    · exact msixAt_above (by omega)
  have zero : wordHalf a size 0 = 0 := by simp [wordHalf, bitsOf]
  simp only [State.mgmtRead, msix]
  rw [if_neg (by omega), State.readAt, h, zero]

theorem mgmtWrite_none (s : State) {a : Nat} (size : Nat) (v : BitVec 64) (h : Reg.ofAddr (a / 8 * 8) = none)
    (out : a < 0xFF000FF00000 ∨ 0xFF000FF11000 ≤ a) : s.mgmtWrite a size v = s := by
  have msix : msixAt a = none := by
    rcases out with out | out
    · exact msixAt_below out
    · exact msixAt_above out
  simp only [State.mgmtWrite, msix, h]

/-- A register's address is a multiple of 8, below the MSI-X table. -/
theorem Machine.Reg.addr_aligned (r : Reg) : r.addr % 8 = 0 := by
  cases r <;> simp only [Reg.addr] <;> omega

theorem Machine.Reg.addr_below (r : Reg) : r.addr < 0xFF000FF00000 := by
  by_contra h
  have := registerAddressRoundTrip r
  rw [ofAddr_above (by omega)] at this
  cases this

/-- A register that answers is written with its 64 bits. -/
theorem mgmtWrite_reg (s : State) (r : Reg) (v : BitVec 64) (h : s.answers r = true) : s.mgmtWrite r.addr 8 v = s.store r v := by
  have whole : r.addr / 8 * 8 = r.addr := by have := r.addr_aligned; omega
  simp only [State.mgmtWrite, msixAt_below r.addr_below, whole, registerAddressRoundTrip r, h, if_true, State.widen]

/-- A register that answers is read whole. -/
theorem mgmtRead_reg (s : State) (r : Reg) (h : s.answers r = true) :
    s.mgmtRead r.addr 8 = ((s.readReg r).1, plain (toBytes 8 (s.readReg r).2.toNat)) := by
  have whole : r.addr / 8 * 8 = r.addr := by have := r.addr_aligned; omega
  have below := r.addr_below
  simp only [State.mgmtRead, whole, msixAt_below below, wordHalf_aligned r.addr_aligned]
  rw [if_neg (by omega), State.readAt, registerAddressRoundTrip r]
  simp only [h, if_true]

theorem mgmtRead_plain (s : State) {r : Reg} (p : PlainReg r) (h : s.answers r = true) :
    s.mgmtRead r.addr 8 = (s, plain (toBytes 8 (s.rd r).toNat)) := by
  rw [mgmtRead_reg s r h, p.readReg]

/-- Where no register answers, an access does nothing. -/
theorem mgmtWrite_silent (s : State) {a size : Nat} (v : BitVec 64) {r : Reg} (h : Reg.ofAddr (a / 8 * 8) = some r)
    (below : a < 0xFF000FF00000) (silent : s.answers r = false) : s.mgmtWrite a size v = s := by
  simp only [State.mgmtWrite, msixAt_below below, h, silent, Bool.false_eq_true, if_false]

/-- The second word of an MSI-X entry reads its upper half, with the mask of the vector in bit 32. -/
theorem mgmtRead_msix (s : State) {a : Nat} (i : Fin 260) (h : a = 0xFF000FF00000 + 16 * i.val + 8) :
    ∃ x : BitVec 64, x.getLsbD 32 = s.msixMasked i.val ∧ s.mgmtRead a 8 = (s, plain (toBytes 8 x.toNat)) := by
  have whole : a / 8 * 8 = a := by omega
  have high : a / 8 % 2 = 1 := by omega
  refine ⟨BitVec.ofNat 64 (bitsOf (s.msixEntry i.val).toNat 64 64), ?_, ?_⟩
  · simp only [State.msixMasked, bitsOf, BitVec.getLsbD, BitVec.toNat_ofNat, Nat.mod_mod, Nat.testBit_mod_two_pow,
      Nat.testBit_div_two_pow]
    simp
  · simp only [State.mgmtRead, whole, msixAt_entry i h, high, wordHalf_aligned (show a % 8 = 0 by omega)]

theorem mgmtWrite_msix (s : State) {a : Nat} (i : Fin 260) (h : a = 0xFF000FF00000 + 16 * i.val + 8) (v : BitVec 64) :
    s.mgmtWrite a 8 v = s.msixWrite i a 8 v := by
  simp only [State.mgmtWrite, msixAt_entry i h]

/-- An MSI-X entry with its upper half replaced. -/
def msixPut (e : BitVec 128) (v : BitVec 64) : BitVec 128 :=
  (e &&& ~~~((BitVec.allOnes 64).setWidth 128 <<< 64)) ||| (v.setWidth 128 <<< 64)

theorem msixPut_mask (e : BitVec 128) (v : BitVec 64) : (msixPut e v).getLsbD 96 = v.getLsbD 32 := by
  simp [msixPut]

/-- The table with the upper half of an entry written. -/
def Machine.State.msixSet (s : State) (i : Fin 260) (v : BitVec 64) : State :=
  { s with msix := AMap.set i (msixPut (s.msixEntry i.val) v) s.msix }

theorem msixSet_masked (s : State) (i k : Fin 260) (v : BitVec 64) :
    (s.msixSet i v).msixMasked k.val = if k = i then v.getLsbD 32 else s.msixMasked k.val := by
  have at' : ∀ j : Fin 260, Fin.ofNat 260 j.val = j := fun j => Fin.ext (Nat.mod_eq_of_lt j.isLt)
  simp only [State.msixMasked, State.msixEntry, at', State.msixSet]
  split
  · next e => rw [e, AMap.get_set_same, msixPut_mask]
  · next e => rw [AMap.get_set_other _ _ _ e]

/-- A write of an entry's upper half, which holds the mask of its vector: an unmasked vector is pending no longer. -/
theorem msixWrite_high (s : State) {a : Nat} (i : Fin 260) (h : a = 0xFF000FF00000 + 16 * i.val + 8) (v : BitVec 64) :
    s.msixWrite i a 8 v =
      if v.getLsbD 32 = true then s.msixSet i v
      else { s.msixSet i v with msixPend := s.msixPend.filter fun x => x ≠ i.val } := by
  have high : a / 8 % 2 = 1 := by omega
  have mask := msixSet_masked s i i v
  rw [if_pos rfl] at mask
  simp only [State.msixWrite, high, wordPut_aligned (show a % 8 = 0 by omega)]
  rw [← mask]
  rfl

theorem msixWrite_masked (s : State) {a : Nat} (i k : Fin 260) (h : a = 0xFF000FF00000 + 16 * i.val + 8) (v : BitVec 64) :
    (s.msixWrite i a 8 v).msixMasked k.val = if k = i then v.getLsbD 32 else s.msixMasked k.val := by
  rw [← msixSet_masked, msixWrite_high s i h]
  split <;> rfl

theorem msixWrite_stalls (s : State) {a : Nat} (i : Fin 260) (h : a = 0xFF000FF00000 + 16 * i.val + 8) (v : BitVec 64) :
    (s.msixWrite i a 8 v).stalls = s.stalls := by
  rw [msixWrite_high s i h]
  split <;> rfl
/-! ### Management letters (R343) -/

theorem PlainReg.apart {r : Reg} (h : PlainReg r) : traceReg r = false ∧ ¬ dropReg r ∧ ¬ ringReg r ∧ routeReg r = false := by
  cases h <;> simp [traceReg, dropReg, ringReg, routeReg]

theorem PlainReg.rd_send {r : Reg} (h : PlainReg r) (u : State) (lt : Letter) : (u.send lt).rd r = u.rd r := by
  obtain ⟨tr, dr, _⟩ := h.apart
  exact (send_forwarded u lt).calm.regs r tr dr

/-- The state in which a letter for this chip is answered: what the answer reads is as before. -/
structure Answering (s u : State) : Prop where
  chip : u.chip = s.chip
  dieUp : u.dieUp = s.dieUp
  seen : u.mgmtSeen = s.mgmtSeen
  asked : u.mgmtOut = s.mgmtOut
  ended : u.mgmtDone = s.mgmtDone
  msix : u.msix = s.msix
  calm : Calm noReg s u
  outQ : QueuesAfter u s.outQ

theorem taken_answering (s : State) (lt : Letter) : Answering s (s.taken lt) := by
  have same : ∀ {α : Type} (f : State → α), f { s with
      regs := (s.taken lt).regs, mem := (s.taken lt).mem, aonDie := (s.taken lt).aonDie, outQ := (s.taken lt).outQ,
      trace := (s.taken lt).trace, memReqs := (s.taken lt).memReqs, inbox := (s.taken lt).inbox, rxHeld := (s.taken lt).rxHeld,
      freed := (s.taken lt).freed } = f (s.taken lt) := fun f => congrArg f (taken_office s lt).symm
  exact ⟨(same State.chip).symm, (same State.dieUp).symm, (same State.mgmtSeen).symm, (same State.mgmtOut).symm,
    (same State.mgmtDone).symm, (same State.msix).symm, taken_calm s lt noReg, taken_outQ s lt⟩

theorem Answering.rd {s u : State} (h : Answering s u) (r : Reg) (hr : traceReg r = false) : u.rd r = s.rd r :=
  h.calm.regs r hr id

theorem Answering.remote {s u : State} (h : Answering s u) : u.mgmtRemote = s.mgmtRemote := by
  have stage : u.stage = s.stage := State.fld_congr _ (h.rd .ptrStage rfl)
  simp only [State.mgmtRemote, stage, State.flag_congr _ (h.rd .ptrStartCtrl rfl)]

theorem Answering.routes {s u : State} (h : Answering s u) {dest : BitVec 14} {cls : LClass} {p : Fin 8} (k : RoutesTo s dest cls p) :
    RoutesTo u dest cls p :=
  routesTo_congr h.chip (fun r hr => h.rd r (routeReg_untraced hr)) k

theorem Answering.answers {s u : State} (h : Answering s u) (up : s.dieUp = true) {r : Reg} (die : r.domain = .die)
    (log : r.porterLog = false) : u.answers r = true := by
  simp [State.answers, die, log, h.dieUp, up]

/-- What a reply carries, where the routing tables take it to a port. -/
def Replies (lt : Letter) (p : Fin 8) (s t : State) (x : BitVec 64) : Prop :=
  RoutesTo s lt.src .mgmt p → ∃ o ∈ t.outQ, o.port = p ∧ o.lt.cls = .mgmt ∧
    o.lt.op = 4 ∧ o.lt.dest = lt.src ∧ o.lt.refPostmark = lt.postmark ∧ o.lt.body = toBytes 8 x.toNat

/-- The reply with a register's value. -/
def regReplyTo (lt : Letter) (x : BitVec 64) : Letter := mgmtReply lt (plain (toBytes 8 x.toNat))

theorem send_replies (u : State) (lt : Letter) (p : Fin 8) (x : BitVec 64) : Replies lt p u (u.send (regReplyTo lt x)) x := by
  intro routes
  obtain ⟨o, mem, port, vc, hops, e⟩ := send_queues u (lt := regReplyTo lt x) routes
  refine ⟨o, mem, port, ?_⟩
  rw [e]
  refine ⟨rfl, rfl, rfl, rfl, ?_⟩
  exact (List.map_map ..).trans (List.map_id _)

/-- Whether a request of another chip is answered: MGMT_REMOTE, from Stage 2, and the address of a register. -/
def mgmtOpen (s : State) (lt : Letter) : Bool := s.mgmtRemote && mgmtAddrOk (lt.target.toNat % 2 ^ 48)

theorem mgmtOpen_iff (s : State) (lt : Letter) : mgmtOpen s lt = true ↔
    (2 ≤ s.stage ∧ s.flag .ptrStartCtrl F.ptrStartCtrl_MGMT_REMOTE = true) ∧ lt.target.toNat % 2 ^ 48 % 8 = 0 ∧
      0xFF0000000000 ≤ lt.target.toNat % 2 ^ 48 := by
  simp [mgmtOpen, State.mgmtRemote, mgmtAddrOk]

/-- The checks of a request, as the commands write them. -/
theorem not_mgmtOpen (s : State) (lt : Letter) :
    (!s.mgmtRemote || !mgmtAddrOk (lt.target.toNat % 2 ^ 48)) = !mgmtOpen s lt := (Bool.not_and ..).symm

section
variable {s : State} {lt : Letter}

theorem regRead_other (up : s.dieUp = true) (other : lt.dest ≠ s.chip) :
    exec (.regRead lt) s = .next (s.mgmtAsk lt.dest false (lt.target.toNat % 2 ^ 48) 0) := by
  simp only [exec, execRegRead, up, Bool.not_true, Bool.false_eq_true, if_false, if_pos other]

theorem regWrite_other (up : s.dieUp = true) (other : lt.dest ≠ s.chip) : exec (.regWrite lt) s =
    .next (s.mgmtAsk lt.dest true (lt.target.toNat % 2 ^ 48) (BitVec.ofNat 64 (natAt lt.body 0 8))) := by
  simp only [exec, execRegWrite, up, Bool.not_true, Bool.false_eq_true, if_false, if_pos other]

theorem regRead_refused (up : s.dieUp = true) (own : lt.dest = s.chip) (shut : mgmtOpen s lt = false) :
    exec (.regRead lt) s = .next (s.taken lt) := by
  simp only [exec, execRegRead, up, Bool.not_true, Bool.false_eq_true, if_false, if_neg (not_not.mpr own),
    (taken_answering s lt).remote, not_mgmtOpen, shut, Bool.not_false, if_true]

theorem regWrite_refused (up : s.dieUp = true) (own : lt.dest = s.chip)
    (shut : mgmtOpen s lt = false ∨ porterAddr (lt.target.toNat % 2 ^ 48) = true) : exec (.regWrite lt) s = .next (s.taken lt) := by
  have shut' : (!mgmtOpen s lt || porterAddr (lt.target.toNat % 2 ^ 48)) = true := by simpa using shut
  simp only [exec, execRegWrite, up, Bool.not_true, Bool.false_eq_true, if_false, if_neg (not_not.mpr own),
    (taken_answering s lt).remote, not_mgmtOpen, shut', if_true]

/-- A read that is answered with `x`. -/
theorem regRead_answered (up : s.dieUp = true) (own : lt.dest = s.chip) (hopen : mgmtOpen s lt = true) {x : BitVec 64}
    (read : (s.taken lt).mgmtRead (lt.target.toNat % 2 ^ 48) 8 = (s.taken lt, plain (toBytes 8 x.toNat))) :
    exec (.regRead lt) s = .next ((s.taken lt).send (regReplyTo lt x)) := by
  simp only [exec, execRegRead, up, Bool.not_true, Bool.false_eq_true, if_false, if_neg (not_not.mpr own),
    (taken_answering s lt).remote, not_mgmtOpen, hopen, Bool.not_true, Bool.false_eq_true, if_false, read, regReplyTo]

/-- The state with a reply noted, of the last 16 writes of other chips. -/
def Machine.State.noteReply (s : State) (lt rep : Letter) : State :=
  { s with mgmtSeen := ((lt.src, lt.postmark, rep) :: s.mgmtSeen).take 16 }

/-- A write that is applied, to leave `u`, and answered with `x`. -/
theorem regWrite_applied (up : s.dieUp = true) (own : lt.dest = s.chip) (hopen : mgmtOpen s lt = true)
    (die : porterAddr (lt.target.toNat % 2 ^ 48) = false) (new : ∀ e ∈ s.mgmtSeen, e.1 = lt.src → e.2.1 ≠ lt.postmark) {u : State}
    {x : BitVec 64} (write : (s.taken lt).mgmtWrite (lt.target.toNat % 2 ^ 48) 8 (BitVec.ofNat 64 (natAt lt.body 0 8)) = u)
    (read : u.mgmtRead (lt.target.toNat % 2 ^ 48) 8 = (u, plain (toBytes 8 x.toNat))) :
    exec (.regWrite lt) s = .next ((u.noteReply lt (regReplyTo lt x)).send (regReplyTo lt x)) := by
  have none : (s.mgmtSeen.find? fun e => e.1 = lt.src && e.2.1 = lt.postmark) = none := by
    rw [List.find?_eq_none]
    intro e he
    simpa using new e he
  simp only [exec, execRegWrite, up, Bool.not_true, Bool.false_eq_true, if_false, if_neg (not_not.mpr own),
    (taken_answering s lt).remote, (taken_answering s lt).seen, not_mgmtOpen,
    hopen, die, Bool.or_false, none, write, read, regReplyTo, State.noteReply]

/-- A write that has been answered before is answered again with the reply noted. -/
theorem regWrite_repeated (up : s.dieUp = true) (own : lt.dest = s.chip) (hopen : mgmtOpen s lt = true)
    (die : porterAddr (lt.target.toNat % 2 ^ 48) = false) (seen : ∃ e ∈ s.mgmtSeen, e.1 = lt.src ∧ e.2.1 = lt.postmark) :
    ∃ rep, exec (.regWrite lt) s = .next ((s.taken lt).send rep) := by
  have found : (s.mgmtSeen.find? fun e => e.1 = lt.src && e.2.1 = lt.postmark).isSome = true := by
    rw [List.find?_isSome]
    simpa using seen
  obtain ⟨e, he⟩ := Option.isSome_iff_exists.mp found
  refine ⟨e.2.2, ?_⟩
  simp only [exec, execRegWrite, up, Bool.not_true, Bool.false_eq_true, if_false, if_neg (not_not.mpr own),
    (taken_answering s lt).remote, (taken_answering s lt).seen, not_mgmtOpen,
    hopen, die, Bool.or_false, he]

end
/-! #### Requests of this die, and the ends of them -/

section
variable {s : State} {lt : Letter}

/-- The request's letter waits at the port that the routing tables take it to. -/
theorem mgmtLetter_queues (u : State) (m : MgmtReq) {p : Fin 8} (h : RoutesTo u m.dest .mgmt p) :
    ∃ o ∈ (u.send (mgmtLetter s m)).outQ, o.port = p ∧ o.lt.cls = .mgmt ∧ o.lt.op = (if m.write then 3 else 2) ∧
      o.lt.dest = m.dest ∧ o.lt.postmark = m.postmark ∧ o.lt.target = BitVec.ofNat 64 m.addr ∧
      o.lt.body = if m.write then toBytes 8 m.value.toNat else [] := by
  obtain ⟨o, mem, port, vc, hops, e⟩ := send_queues u (lt := mgmtLetter s m) h
  refine ⟨o, mem, port, ?_⟩
  rw [e]
  exact ⟨rfl, rfl, rfl, rfl, rfl, rfl⟩

/-- A request of this chip's porter for another chip's register. -/
def mgmtAsked (s : State) (dest : BitVec 14) (write : Bool) (addr : Nat) (v : BitVec 64) : MgmtReq :=
  { dest := dest, postmark := s.mgmtNext, write := write, addr := addr, value := v }

/-- The state in which it is numbered. -/
def Machine.State.askNoted (s : State) (m : MgmtReq) : State := { s with mgmtNext := s.mgmtNext + 1, mgmtOut := s.mgmtOut ++ [m] }

theorem mgmtAsk_sends (s : State) (dest : BitVec 14) (w : Bool) (a : Nat) (x : BitVec 64) :
    s.mgmtAsk dest w a x = (s.askNoted (mgmtAsked s dest w a x)).send (mgmtLetter s (mgmtAsked s dest w a x)) := rfl

theorem mgmtAsk_asks (s : State) (dest : BitVec 14) (w : Bool) {a : Nat} (ha : a < 2 ^ 48) (x : BitVec 64) (p : Fin 8) :
    (s.mgmtAsk dest w a x).mgmtOut = s.mgmtOut ++ [mgmtAsked s dest w a x] ∧ (s.mgmtAsk dest w a x).mgmtNext = s.mgmtNext + 1 ∧
      (s.mgmtAsk dest w a x).stalls = s.stalls ∧
      (RoutesTo s dest .mgmt p → ∃ o ∈ (s.mgmtAsk dest w a x).outQ, o.port = p ∧ o.lt.cls = .mgmt ∧
        o.lt.op = (if w then 3 else 2) ∧ o.lt.dest = dest ∧ o.lt.postmark = s.mgmtNext ∧ o.lt.target.toNat = a ∧
        (w = true → o.lt.body = toBytes 8 x.toNat)) := by
  rw [mgmtAsk_sends]
  have sent := (send_forwarded (s.askNoted (mgmtAsked s dest w a x)) (mgmtLetter s (mgmtAsked s dest w a x)))
  refine ⟨by rw [sent.office]; rfl, by rw [sent.office]; rfl, sent.calm.stalls, fun routes => ?_⟩
  obtain ⟨o, mem, port, cls, op, dst, pm, target, body⟩ :=
    mgmtLetter_queues (s := s) (s.askNoted (mgmtAsked s dest w a x)) (mgmtAsked s dest w a x) routes
  refine ⟨o, mem, port, cls, op, dst, pm, ?_, fun hw => body.trans (if_pos hw)⟩
  rw [target]
  exact Nat.mod_eq_of_lt (Nat.lt_trans ha (by decide))

/-- The state in which a request's result is noted. -/
def Machine.State.mgmtEnded (s : State) (m : MgmtReq) (x : BitVec 64) : State :=
  { s with mgmtOut := s.mgmtOut.erase m, mgmtDone := s.mgmtDone ++ [{ dest := m.dest, postmark := m.postmark, value := some x }] }

theorem regReply_found (up : s.dieUp = true) (remote : s.mgmtRemote = true) {m : MgmtReq}
    (h : (s.mgmtOut.find? fun m => m.dest = lt.src && m.postmark = lt.refPostmark) = some m) :
    exec (.regReply lt) s = .next ((s.taken lt).mgmtEnded m (BitVec.ofNat 64 (natAt lt.body 0 8))) := by
  simp only [exec, execRegReply, up, Bool.not_true, Bool.false_eq_true, if_false, (taken_answering s lt).remote, remote,
    (taken_answering s lt).asked, h, State.mgmtEnded]

theorem regReply_unasked (up : s.dieUp = true)
    (h : s.mgmtRemote = false ∨ (s.mgmtOut.find? fun m => m.dest = lt.src && m.postmark = lt.refPostmark) = none) :
    exec (.regReply lt) s = .next (s.taken lt) := by
  simp only [exec, execRegReply, up, Bool.not_true, Bool.false_eq_true, if_false, (taken_answering s lt).remote,
    (taken_answering s lt).asked]
  rcases h with h | h
  · rw [h]
  · rw [h]; cases s.mgmtRemote <;> rfl

theorem mgmtEnded_calm (s : State) (m : MgmtReq) (x : BitVec 64) (R : Reg → Prop) : Calm R s (s.mgmtEnded m x) := .same rfl rfl rfl rfl

theorem find_unmatched {ms : List MgmtReq} {d : BitVec 14} {pm : BitVec 32} (h : ∀ m ∈ ms, m.dest = d → m.postmark ≠ pm) :
    (ms.find? fun m => m.dest = d && m.postmark = pm) = none := by
  rw [List.find?_eq_none]
  intro m hm
  simpa using h m hm

/-- The state with a request listed anew, to be sent again. -/
def Machine.State.retried (s : State) (m : MgmtReq) : State :=
  { s with mgmtOut := s.mgmtOut.erase m ++ [{ m with tries := m.tries + 1 }] }

theorem retry_sends (up : s.dieUp = true) {d : BitVec 14} {pm : BitVec 32} {m : MgmtReq}
    (h : (s.mgmtOut.find? fun m => m.dest = d && m.postmark = pm) = some m) (few : m.tries < 3) :
    exec (.regRequestRetry d pm) s = .next ((s.retried m).send (mgmtLetter s { m with tries := m.tries + 1 })) := by
  simp only [exec, execRegRequestRetry, up, h, if_neg (show ¬ 3 ≤ m.tries by omega), State.retried]

theorem retry_fails (up : s.dieUp = true) {d : BitVec 14} {pm : BitVec 32} {m : MgmtReq}
    (h : (s.mgmtOut.find? fun m => m.dest = d && m.postmark = pm) = some m) (many : 3 ≤ m.tries) :
    exec (.regRequestRetry d pm) s = .next { s with
      mgmtOut := s.mgmtOut.erase m, mgmtDone := s.mgmtDone ++ [{ dest := d, postmark := pm, value := none }] } := by
  simp only [exec, execRegRequestRetry, up, h, if_pos many]

theorem retry_unasked {d : BitVec 14} {pm : BitVec 32} (h : ∀ m ∈ s.mgmtOut, m.dest = d → m.postmark ≠ pm) :
    exec (.regRequestRetry d pm) s = .next s := by
  simp only [exec, execRegRequestRetry, find_unmatched h]
  cases s.dieUp <;> rfl

/-! #### The answers to another chip -/

/-- The reply to a read, of a state in which the letter has been taken. -/
theorem regRead_replies (up : s.dieUp = true) (own : lt.dest = s.chip) (hopen : mgmtOpen s lt = true) (p : Fin 8) {x : BitVec 64}
    (read : (s.taken lt).mgmtRead (lt.target.toNat % 2 ^ 48) 8 = (s.taken lt, plain (toBytes 8 x.toNat))) :
    Does s (exec (.regRead lt) s) dropReg fun t => Replies lt p s t x := by
  rw [regRead_answered up own hopen read]
  refine Calm.does ?_ fun routes => send_replies _ lt p x ((taken_answering s lt).routes routes)
  exact ((taken_calm s lt noReg).mono fun _ => False.elim).trans (send_forwarded ..).calm

/-- The reply to a write that is applied: it is sent from a state `u` of the written registers. -/
theorem noteReply_replies {u : State} (p : Fin 8) {x : BitVec 64}
    (routes : RoutesTo s lt.src .mgmt p → RoutesTo u lt.src .mgmt p) :
    Replies lt p s ((u.noteReply lt (regReplyTo lt x)).send (regReplyTo lt x)) x :=
  fun h => send_replies (u.noteReply lt (regReplyTo lt x)) lt p x (routes h)

theorem noteReply_calm (u : State) (rep : Letter) : Calm dropReg u ((u.noteReply lt rep).send rep) :=
  Calm.trans (t := u.noteReply lt rep) (.same rfl rfl rfl rfl) (send_forwarded _ rep).calm

theorem noteReply_seen (u : State) (rep : Letter) :
    ∃ e ∈ ((u.noteReply lt rep).send rep).mgmtSeen, e.1 = lt.src ∧ e.2.1 = lt.postmark := by
  refine ⟨(lt.src, lt.postmark, rep), ?_, rfl, rfl⟩
  rw [(send_forwarded (u.noteReply lt rep) rep).office]
  exact List.mem_cons_self

/-- A register of the die may be written by another chip. -/
theorem porterAddr_die {r : Reg} (die : r.domain = .die) : porterAddr r.addr = false := by
  rw [porterAddr, registerAddressRoundTrip r]
  simp [die]

theorem porterAddr_none {a : Nat} (h : Reg.ofAddr a = none) : porterAddr a = false := by rw [porterAddr, h]; rfl

theorem porterAddr_porter {a : Nat} {r : Reg} (h : Reg.ofAddr a = some r) (porter : r.domain = .porter) : porterAddr a = true := by
  rw [porterAddr, h]
  simp [porter]

/-- A write of another chip to a plain register of the die: applied, noted and answered with the register's value. -/
theorem regWrite_plain (up : s.dieUp = true) (own : lt.dest = s.chip) (hopen : mgmtOpen s lt = true) (p : Fin 8) {r : Reg}
    (addr : lt.target.toNat % 2 ^ 48 = r.addr) (plain : PlainReg r) (die : r.domain = .die) (log : r.porterLog = false)
    (new : ∀ e ∈ s.mgmtSeen, e.1 = lt.src → e.2.1 ≠ lt.postmark) :
    Does s (exec (.regWrite lt) s) (fun x => x = r ∨ dropReg x) fun t =>
      (∀ f ∈ r.fields, f.get (t.rd r) = fieldAfter f (s.rd r) (BitVec.ofNat 64 (natAt lt.body 0 8))) ∧
      Replies lt p s t (t.rd r) ∧ ∃ e ∈ t.mgmtSeen, e.1 = lt.src ∧ e.2.1 = lt.postmark := by
  obtain ⟨tr, dr, nr, rr⟩ := plain.apart
  have taken := taken_answering s lt
  have answers := taken.answers up die log
  generalize hv : BitVec.ofNat 64 (natAt lt.body 0 8) = v
  have write : (s.taken lt).mgmtWrite (lt.target.toNat % 2 ^ 48) 8 (BitVec.ofNat 64 (natAt lt.body 0 8)) = (s.taken lt).regWrite r v := by
    rw [addr, mgmtWrite_reg _ r _ answers, plain.store, hv]
  have read := mgmtRead_plain ((s.taken lt).regWrite r v) plain answers
  rw [← addr] at read
  rw [regWrite_applied up own hopen (addr ▸ porterAddr_die die) new write read]
  have frame := regWrite_frame (s.taken lt) r v
  have flds := State.regWrite_flds (s.taken lt) r v
  have chip : ((s.taken lt).regWrite r v).chip = (s.taken lt).chip := rfl
  rw [taken.rd r tr] at flds
  generalize (s.taken lt).regWrite r v = u at frame flds chip read
  have routes : RoutesTo s lt.src .mgmt p → RoutesTo u lt.src .mgmt p := fun h =>
    routesTo_congr chip (fun q hq => frame.regs q fun e => by rw [e, rr] at hq; cases hq) (taken.routes h)
  have value : ((u.noteReply lt (regReplyTo lt (u.rd r))).send (regReplyTo lt (u.rd r))).rd r = u.rd r := plain.rd_send _ _
  refine Calm.does ?_ ⟨?_, ?_, noteReply_seen u _⟩
  · refine (taken.calm.mono fun _ => False.elim).trans (Calm.trans ?_ ((noteReply_calm u _).mono fun _ => .inr))
    exact (frame.calm fun q hq e => nr (e ▸ hq)).mono fun _ => .inl
  · rw [value]; exact flds
  · rw [value]; exact noteReply_replies p routes

end
/-- A write of another chip to the mask of an MSI-X vector. -/
theorem regWrite_msix {s : State} {lt : Letter} (up : s.dieUp = true) (own : lt.dest = s.chip) (hopen : mgmtOpen s lt = true)
    (i : Fin 260) (addr : lt.target.toNat % 2 ^ 48 = 0xFF000FF00000 + 16 * i.val + 8)
    (new : ∀ e ∈ s.mgmtSeen, e.1 = lt.src → e.2.1 ≠ lt.postmark) :
    Leaves (exec (.regWrite lt) s) fun t =>
      t.msixMasked i.val = (BitVec.ofNat 64 (natAt lt.body 0 8)).getLsbD 32 ∧ t.stalls = s.stalls := by
  have above : Reg.ofAddr (lt.target.toNat % 2 ^ 48) = none := ofAddr_above (by omega)
  generalize hv : BitVec.ofNat 64 (natAt lt.body 0 8) = v
  have write : (s.taken lt).mgmtWrite (lt.target.toNat % 2 ^ 48) 8 (BitVec.ofNat 64 (natAt lt.body 0 8)) =
      (s.taken lt).msixWrite i (lt.target.toNat % 2 ^ 48) 8 v := by rw [mgmtWrite_msix _ i addr, hv]
  obtain ⟨x, _, read⟩ := mgmtRead_msix ((s.taken lt).msixWrite i (lt.target.toNat % 2 ^ 48) 8 v) i addr
  rw [regWrite_applied up own hopen (porterAddr_none above) new write read]
  have mask := msixWrite_masked (s.taken lt) i i addr v
  rw [if_pos rfl] at mask
  have stalls := msixWrite_stalls (s.taken lt) i addr v
  generalize (s.taken lt).msixWrite i (lt.target.toNat % 2 ^ 48) 8 v = u at mask stalls
  have sent := send_forwarded (u.noteReply lt (regReplyTo lt x)) (regReplyTo lt x)
  refine ⟨_, rfl, ?_, ?_⟩
  · rw [sent.office]; exact mask
  · rw [sent.calm.stalls]; exact stalls.trans (taken_calm s lt noReg).stalls

/-- Settles O49: a request is sent, or taken and answered, and its end is noted, each as the checks of its letter say. -/
theorem managementLetters : Obligations.ManagementLetters := by
  unfold Obligations.ManagementLetters
  intro s lt p up
  have taken := taken_answering s lt
  have low : lt.target.toNat % 2 ^ 48 < 2 ^ 48 := Nat.mod_lt _ (by decide)
  dsimp only
  refine ⟨fun other => ⟨?_, ?_⟩, fun own => ⟨fun shut => ?_, fun hopen none out => ?_, fun hopen i addr => ⟨?_, fun new => ?_⟩,
    fun hopen r hr addr => ?_, fun _ r porter addr => ?_⟩, fun m remote found => ?_, fun unasked => ?_, fun d pm unasked => ?_,
    fun d pm m found => ⟨fun many => ?_, fun few => ?_⟩⟩
  · exact ⟨_, regRead_other up other, mgmtAsk_asks s lt.dest false low 0 p⟩
  · exact ⟨_, regWrite_other up other, mgmtAsk_asks s lt.dest true low _ p⟩
  · have shut : mgmtOpen s lt = false := Bool.eq_false_iff.mpr fun h => shut ((mgmtOpen_iff s lt).mp h)
    rw [regRead_refused up own shut, regWrite_refused up own (.inl shut)]
    exact ⟨taken.calm.does taken.outQ, taken.calm.does taken.outQ⟩
  · have aligned : lt.target.toNat % 2 ^ 48 / 8 * 8 = lt.target.toNat % 2 ^ 48 := by omega
    exact regRead_replies up own ((mgmtOpen_iff s lt).mpr hopen) p (mgmtRead_none _ 8 (by rw [aligned, none]) out)
  · obtain ⟨x, mask, read⟩ := mgmtRead_msix (s.taken lt) i addr
    refine ⟨x, mask.trans ?_, regRead_replies up own ((mgmtOpen_iff s lt).mpr hopen) p read⟩
    simp only [State.msixMasked, State.msixEntry, taken.msix]
  · exact regWrite_msix up own ((mgmtOpen_iff s lt).mpr hopen) i addr new
  · have hopen := (mgmtOpen_iff s lt).mpr hopen
    obtain ⟨plain, die, log⟩ : PlainReg r ∧ r.domain = .die ∧ r.porterLog = false := by
      fin_cases hr
      · exact ⟨.postCtrl, rfl, rfl⟩
      · exact ⟨.bar2Win, rfl, rfl⟩
      · exact ⟨.ctxFence, rfl, rfl⟩
      · exact ⟨.portArb p, rfl, rfl⟩
      · exact ⟨.trigNet, rfl, rfl⟩
    refine ⟨?_, regWrite_plain up own hopen p addr plain die log, fun seen => ?_⟩
    · rw [← taken.rd r plain.apart.1]
      exact regRead_replies up own hopen p (addr ▸ mgmtRead_plain _ plain (taken.answers up die log))
    · obtain ⟨rep, h⟩ := regWrite_repeated up own hopen (addr ▸ porterAddr_die die) seen
      rw [h]
      have sent := send_forwarded (s.taken lt) rep
      refine Calm.does ((taken.calm.mono fun _ => False.elim).trans sent.calm) ?_
      rw [sent.office]; exact taken.seen
  · rw [regWrite_refused up own (.inr (porterAddr_porter addr porter))]
    exact taken.calm.does taken.outQ
  · have remote : s.mgmtRemote = true := by simpa [State.mgmtRemote] using remote
    rw [regReply_found up remote found]
    refine Calm.does (taken.calm.trans (mgmtEnded_calm ..)) ⟨?_, ?_⟩
    · simp only [State.mgmtEnded, taken.asked]
    · simp only [State.mgmtEnded, taken.ended]
  · rw [regReply_unasked up (unasked.imp (fun h => ?_) find_unmatched)]
    · exact taken.calm.does ⟨taken.asked, taken.ended⟩
    · simpa [State.mgmtRemote] using h
  · exact retry_unasked unasked
  · exact retry_fails up found many
  · rw [retry_sends up found few]
    have sent := send_forwarded (s.retried m) (mgmtLetter s { m with tries := m.tries + 1 })
    have calm : Calm dropReg s (s.retried m) := .same rfl rfl rfl rfl
    refine (calm.trans sent.calm).does ⟨?_, ?_⟩
    · rw [sent.office]; rfl
    · rw [sent.office]; rfl
/-! ### Accesses of memory by chip physical address (R16, R190, R191, R195) -/

/-- From `s` to `t` an access of memory, before it writes: the trace alone may have written memory, where it spills. -/
structure Access (s t : State) : Prop where
  stalls : t.stalls = s.stalls
  linkRx : t.linkRx = s.linkRx
  linkTx : t.linkTx = s.linkTx
  porterOut : t.porterOut = s.porterOut
  ctrl : t.rd .dbgTraceCtrl = s.rd .dbgTraceCtrl
  mem : s.flag .dbgTraceCtrl F.dbgTraceCtrl_SPILL = false → t.mem = s.mem

theorem Access.refl (s : State) : Access s s := ⟨rfl, rfl, rfl, rfl, rfl, fun _ => rfl⟩

theorem Access.trans {s t u : State} (h : Access s t) (k : Access t u) : Access s u where
  stalls := k.stalls.trans h.stalls
  linkRx := k.linkRx.trans h.linkRx
  linkTx := k.linkTx.trans h.linkTx
  porterOut := k.porterOut.trans h.porterOut
  ctrl := k.ctrl.trans h.ctrl
  mem off := (k.mem ((State.flag_congr _ h.ctrl).trans off)).trans (h.mem off)

theorem Access.foldl {α : Type} (f : State → α → State) (h : ∀ t x, Access t (f t x)) (xs : List α) (s : State) :
    Access s (xs.foldl f s) := by
  induction xs generalizing s with
  | nil => exact .refl s
  | cons x xs ih => exact (h s x).trans (ih _)

/-- What the trace unit changes, where it has not written memory. -/
theorem Traced.access {s t : State} (h : Traced s t) (m : s.flag .dbgTraceCtrl F.dbgTraceCtrl_SPILL = false → t.mem = s.mem) :
    Access s t :=
  ⟨by rw [h.rest], by rw [h.rest], by rw [h.rest], by rw [h.rest], h.regs _ rfl, m⟩

theorem wr_access (s : State) {r : Reg} (v : BitVec 64) (h : r ≠ .dbgTraceCtrl) : Access s (s.wr r v) :=
  ⟨rfl, rfl, rfl, rfl, State.rd_wr_other s v (Ne.symm h), fun _ => rfl⟩

theorem aonAdd_access (s : State) (i n : Nat) : Access s (s.aonAdd i n) := by
  refine ⟨?_, ?_, ?_, ?_, aonAdd_rd s i n _, fun _ => ?_⟩ <;> rw [aonAdd_eq]

theorem bump_access (s : State) {r : Reg} (n : Nat) (h : r ≠ .dbgTraceCtrl) : Access s (s.bump r n) := by
  simp only [State.bump]
  split
  · exact (wr_access s _ h).trans (aonAdd_access ..)
  · exact wr_access s _ h

theorem log_access (s : State) {unit : Fin 1024} (event ctx : Nat) (data : List Byte) (h : unit ≠ 0x3FF) :
    Access s (s.log unit event ctx data) :=
  (log_traced s event ctx data h).access fun _ => by rw [(log_frame s unit event ctx data).rest]

/-! #### The trace unit, where it does not spill -/

theorem trace_access (s : State) (x : Trace) : Access s { s with trace := x } := ⟨rfl, rfl, rfl, rfl, rfl, fun _ => rfl⟩

theorem tracePut_access (s : State) (rec : List Byte) : Access s (s.tracePut rec) :=
  (tracePut_traced s rec).access fun off => by
    have put : ∀ t : State, (t.aonAdd 417 1).mem = t.mem := fun t => by rw [aonAdd_eq]
    simp only [State.tracePut, off, Bool.false_eq_true, if_false, put]
    rfl

theorem trigData_access (s : State) (source : Nat) : Access s (s.trigData source) :=
  (trigData_traced s source).access fun off => by
    simp only [State.trigData, off, Bool.false_eq_true, if_false]
    split <;> rfl

theorem trigLog_access (s : State) (source : Nat) : Access s (s.trigLog source) :=
  (trigLog_traced s source).access fun _ => by
    simp only [State.trigLog]
    split <;> rfl

theorem trigMerge_access (s : State) (source : Nat) : Access s (s.trigMerge source) := by
  simp only [State.trigMerge]
  split
  · exact .refl s
  · exact ((trace_access s _).trans (trigData_access _ _)).trans (trigLog_access _ _)

theorem traceTrigger_access (s : State) {unit : Fin 1024} (source : Nat) (stamp : List Byte) (remote : Option TrigOrigin)
    (h : unit ≠ 0x3FF) : Access s (s.traceTrigger unit source stamp remote) := by
  simp only [State.traceTrigger]
  split
  · split
    · exact trigMerge_access s _
    · exact aonAdd_access ..
  split
  · exact .refl s
  refine Access.trans ?_ (log_access _ _ _ _ h)
  have queue : ∀ (t : State) (xs : List OutLetter), Access t { t with outQ := t.outQ ++ xs } := fun t xs =>
    ⟨rfl, rfl, rfl, rfl, rfl, fun _ => rfl⟩
  refine Access.trans ?_ (queue _ _)
  refine Access.trans ?_ (Access.foldl _ (fun t p => bump_access t 1 (by simp)) _ _)
  refine Access.trans ?_ (aonAdd_access _ _ _)
  exact ((tracePut_access s _).trans (wr_access _ _ (by simp))).trans (trace_access _ _)

theorem ringIn_access (s : State) {unit : Fin 1024} (rec : List Byte) (h : unit ≠ 0x3FF) : Access s (s.ringIn unit rec) := by
  simp only [State.ringIn]
  split
  · exact .refl s
  have count : ∀ t : State, Access s t → Access s (match t.trace.post with
      | some (n + 1) => { t with trace := { t.trace with post := some n } }
      | _ => t) := fun t ht => by
    split
    · exact ht.trans (trace_access _ _)
    · exact ht
  split
  · exact (count _ (tracePut_access s _)).trans (traceTrigger_access _ _ _ _ h)
  · exact count _ (tracePut_access s _)

theorem traceTake_access (n : Nat) (s : State) {unit : Fin 1024} (h : unit ≠ 0x3FF) : Access s (s.traceTake unit n) := by
  induction n generalizing s with
  | zero => exact .refl s
  | succ n ih =>
    simp only [State.traceTake]
    split
    · exact .refl s
    · exact ((trace_access s _).trans (ringIn_access _ _ h)).trans (ih _)

theorem traceMarkDrops_access (s : State) (unit : Fin 1024) : Access s (s.traceMarkDrops unit) := by
  simp only [State.traceMarkDrops]
  split
  · exact .refl s
  split
  · exact .refl s
  · exact (trace_access s _).trans (trace_access _ _)

theorem traceQueue_access (s : State) {unit : Fin 1024} (rec : List Byte) (h : unit ≠ 0x3FF) :
    Access s (s.traceQueue unit rec) := by
  simp only [State.traceQueue]
  split
  · exact trace_access s _
  split
  · exact (((traceTake_access 1 s h).trans (traceMarkDrops_access _ _)).trans (traceTake_access _ _ h)).trans (trace_access _ _)
  · exact (trace_access s _).trans (aonAdd_access _ _ _)

theorem emit_access (s : State) {unit : Fin 1024} (kind ctx data0 : Nat) (data1 : List Byte) (h : unit ≠ 0x3FF) :
    Access s (s.emit unit kind ctx data0 data1) := by
  simp only [State.emit]
  split
  · exact .refl s
  · exact ((traceQueue_access s _ h).trans (trace_access _ _)).trans
      ((traceTake_access _ _ h).trans (traceMarkDrops_access _ _))

/-! #### Requests and the errors found -/

theorem homeUnit_ne (a : Nat) : homeUnit a ≠ 0x3FF := by
  unfold homeUnit
  split
  · intro e
    have := congrArg Fin.val e
    have := (stackOf a).isLt
    simp at *
    omega
  split
  · decide
  split
  · exact stallUnit_ne _ _
  · intro e
    have := congrArg Fin.val e
    have := (Fin.ofNat 16 ((a - 0xF00000000000) / 0x2000000)).isLt
    simp at *
    omega

theorem request_traced (s : State) (w : Bool) (u : Nat) : Traced s (s.request w u) := by
  have counted : ∀ n : AMap (Fin 1024) Nat, Traced s { s with memReqs := n } := fun n =>
    .of_regs rfl (fun _ _ => rfl) (fun _ _ => rfl) (.of_eq rfl) rfl
  simp only [State.request]
  split
  · exact .refl s
  split
  · exact counted _
  · exact (counted _).trans (emit_traced _ _ _ _ _ (homeUnit_ne u))

theorem request_access (s : State) (w : Bool) (u : Nat) : Access s (s.request w u) := by
  have counted : ∀ n : AMap (Fin 1024) Nat, Access s { s with memReqs := n } := fun n => ⟨rfl, rfl, rfl, rfl, rfl, fun _ => rfl⟩
  simp only [State.request]
  split
  · exact .refl s
  split
  · exact counted _
  · exact (counted _).trans (emit_access _ _ _ _ _ (homeUnit_ne u))

theorem postPoison_access (s : State) (u : Nat) (scrub : Bool) : Access s (s.postPoison u scrub) := by
  have told : ∀ t : State, Access t { t.raise 256 with redfish := (t.raise 256).redfish ++ [.poison] } := fun t =>
    ⟨rfl, rfl, rfl, rfl, rfl, fun _ => rfl⟩
  simp only [State.postPoison]
  split
  · exact bump_access s 1 (by simp)
  · refine Access.trans ?_ (told _)
    refine Access.trans ?_ (aonAdd_access _ _ _)
    exact ((wr_access s _ (by simp)).trans (wr_access _ _ (by simp))).trans (wr_access _ _ (by simp))

theorem recordUe_access (s : State) {unit : Fin 1024} (h : unit ≠ 0x3FF) {r : Reg} (hr : r ≠ .dbgTraceCtrl) (off : Nat) :
    Access s (s.recordUe unit r off) := by
  simp only [State.recordUe]
  split
  · exact log_access s _ _ _ h
  · exact wr_access s _ hr

theorem logPoison_access (s : State) (u : Nat) : Access s (s.logPoison (homeUnit u) u) := log_access s _ _ _ (homeUnit_ne u)

theorem newUe_access (s : State) (u : Nat) (scrub : Bool) : Access s (s.newUe u scrub) := by
  have home := homeUnit_ne u
  have poisoned : Access s ({ s with latentUe := s.latentUe.filter (· ≠ u) }.poisonUnit u) := ⟨rfl, rfl, rfl, rfl, rfl, fun _ => rfl⟩
  simp only [State.newUe]
  refine poisoned.trans ?_
  generalize { s with latentUe := s.latentUe.filter (· ≠ u) }.poisonUnit u = t
  split
  · exact ((bump_access t 1 (by simp)).trans (logPoison_access _ u)).trans (postPoison_access ..)
  split
  · exact ((bump_access t 1 (by simp)).trans (logPoison_access _ u)).trans (postPoison_access ..)
  split
  · exact ((bump_access t 1 (by simp)).trans (recordUe_access _ home (by simp) _)).trans (logPoison_access ..)
  · exact ((bump_access t 1 (by simp)).trans (recordUe_access _ home (by simp) _)).trans (logPoison_access ..)

theorem newCe_access (s : State) (u : Nat) : Access s (s.newCe u) := by
  have found : Access s { s with latentCe := s.latentCe.filter (· ≠ u) } := ⟨rfl, rfl, rfl, rfl, rfl, fun _ => rfl⟩
  simp only [State.newCe]
  refine found.trans ?_
  split
  · exact bump_access _ 1 (by simp)
  split
  · exact bump_access _ 1 (by simp)
  split
  · exact bump_access _ 1 (by simp)
  · exact bump_access _ 1 (by simp)

theorem touch_access (s : State) (u : Nat) (scrub : Bool) : Access s (s.touch u scrub) := by
  have found : Access s (if u ∈ s.latentUe then s.newUe u scrub else s) := by
    split
    · exact newUe_access ..
    · exact .refl s
  simp only [State.touch]
  refine found.trans ?_
  generalize (if u ∈ s.latentUe then s.newUe u scrub else s) = t
  split
  · exact newCe_access ..
  · exact .refl t

/-! #### Writes under way -/

theorem nextAccess_access (s : State) : Access s s.nextAccess := by
  unfold State.nextAccess
  split
  · exact .refl s
  · exact ⟨rfl, rfl, rfl, rfl, rfl, fun _ => rfl⟩

theorem racesPerform_access (s : State) (k : Racing → Nat) : Access s (s.racesPerform k) := by
  unfold State.racesPerform
  split
  · exact .refl s
  · exact ⟨rfl, rfl, rfl, rfl, rfl, fun _ => rfl⟩

theorem noteReads_access (s : State) (as : List Nat) : Access s (s.noteReads as) := by
  unfold State.noteReads
  split
  · split
    · exact .refl s
    · exact ⟨rfl, rfl, rfl, rfl, rfl, fun _ => rfl⟩
  · exact .refl s

theorem racesPass_access (s : State) (ws : List (Nat × MByte)) : Access s (s.racesPass ws) := by
  unfold State.racesPass
  split
  · exact .refl s
  · exact racesPerform_access ..

theorem undefine_access (s : State) (x : Actor) : Access s (s.undefine x) := ⟨rfl, rfl, rfl, rfl, rfl, fun _ => rfl⟩

theorem spread_access (s : State) (n : Fin 128) : Access s (s.spread n) := by
  unfold State.spread
  split
  · exact .refl s
  · refine Access.foldl _ (fun t g => ?_) _ s
    split
    · exact undefine_access ..
    · exact .refl t

theorem racesHit_access (s : State) (ws : List (Nat × MByte)) : Access s (s.racesHit ws) := by
  unfold State.racesHit
  split
  · exact .refl s
  · refine Access.foldl _ (fun t x => (undefine_access t x).trans ?_) _ s
    split
    · exact spread_access ..
    · exact .refl _

theorem racesWrite_access (s : State) (ws : List (Nat × MByte)) : Access s (s.racesWrite ws) := ⟨rfl, rfl, rfl, rfl, rfl, fun _ => rfl⟩

/-! #### Reads -/

theorem readMem_access (s : State) (as : List Nat) : Access s (s.readMem as).1 := by
  simp only [State.readMem]
  refine Access.trans ?_ (aonAdd_access _ _ _)
  refine Access.trans ?_ (aonAdd_access _ _ _)
  refine Access.trans ?_ (Access.foldl _ (fun t u => (request_access t false u).trans (touch_access _ u _)) _ _)
  exact ((nextAccess_access s).trans (racesPerform_access _ _)).trans (noteReads_access _ _)

theorem readMem_length (s : State) (as : List Nat) : (s.readMem as).2.length = as.length := by simp [State.readMem]

/-- No error and no write under way: a read changes the trace and counts alone. -/
theorem Clean.of_eq {s t : State} (h : Clean s) (ue : t.latentUe = s.latentUe) (ce : t.latentCe = s.latentCe)
    (p : t.poison = s.poison) (r : t.racing = s.racing) (w : t.sourceWords = s.sourceWords) : Clean t := by
  obtain ⟨hue, hce, hp, hr, hw⟩ := h
  exact ⟨ue.trans hue, ce.trans hce, p.trans hp, r.trans hr, w.trans hw⟩

theorem Traced.clean {s t : State} (h : Traced s t) (c : Clean s) : Clean t :=
  c.of_eq (by rw [h.rest]) (by rw [h.rest]) (by rw [h.rest]) (by rw [h.rest]) (by rw [h.rest])

theorem Clean.touch {s : State} (h : Clean s) (u : Nat) (scrub : Bool) : s.touch u scrub = s := by
  obtain ⟨hue, hce, _⟩ := h
  simp [State.touch, hue, hce]

theorem noteReads_clean {s : State} (h : Clean s) (as : List Nat) : Clean (s.noteReads as) := by
  unfold State.noteReads
  split
  · split
    · exact h
    · exact h.of_eq rfl rfl rfl rfl rfl
  · exact h

theorem requests_clean {s : State} (h : Clean s) (us : List Nat) : Clean (us.foldl (fun s u => (s.request false u).touch u) s) := by
  induction us generalizing s with
  | nil => exact h
  | cons u us ih =>
    have asked := (request_traced s false u).clean h
    rw [List.foldl_cons, asked.touch]
    exact ih asked

theorem aonAdd_clean {s : State} (h : Clean s) (i n : Nat) : Clean (s.aonAdd i n) := by
  refine h.of_eq ?_ ?_ ?_ ?_ ?_ <;> rw [aonAdd_eq]

theorem nextAccess_still {s : State} (h : Still s) : s.nextAccess = s := by
  obtain ⟨hr, hw⟩ := h
  simp [State.nextAccess, hr, hw]

theorem racesPerform_none {s : State} (h : s.racing = []) (k : Racing → Nat) : s.racesPerform k = s := by
  simp [State.racesPerform, h]

theorem readMem_clean {s : State} (h : Clean s) (as : List Nat) : Clean (s.readMem as).1 := by
  have ⟨_, _, _, still⟩ := h
  simp only [State.readMem, nextAccess_still still, State.racesRead, racesPerform_none still.1]
  exact aonAdd_clean (aonAdd_clean (requests_clean (noteReads_clean h _) _) _ _) _ _

/-- What a read finds where no error stands, no write is under way, and the trace does not spill. -/
theorem readMem_bytes {s : State} (h : Clean s) (off : s.flag .dbgTraceCtrl F.dbgTraceCtrl_SPILL = false) (as : List Nat) :
    (s.readMem as).2 = as.map fun a => (if backed a then Memory.read s.mem a else 0, false) := by
  have clean := readMem_clean h as
  have mem := (readMem_access s as).mem off
  have bytes : (s.readMem as).2 = as.map (s.readMem as).1.peek := rfl
  rw [bytes]
  generalize (s.readMem as).1 = t at clean mem
  obtain ⟨_, _, hp, still⟩ := clean
  refine List.map_congr_left fun a _ => ?_
  rw [peek_still still, State.held, mem, hp]
  split <;> simp

/-! #### Writes -/

/-- The state in which a write stores its bytes. -/
def Machine.State.writeReady (s : State) (ws : List (Nat × MByte)) : State :=
  ((s.nextAccess.racesPass ws).racesHit ws)

theorem writeReady_access (s : State) (ws : List (Nat × MByte)) : Access s (s.writeReady ws) :=
  ((nextAccess_access s).trans (racesPass_access _ ws)).trans (racesHit_access _ ws)

/-- A write stores those of its bytes that no write under way keeps. -/
theorem writeMem_stores (s : State) (ws : List (Nat × MByte)) : ∃ t, Access s t ∧
    (s.writeMem ws).stalls = t.stalls ∧ (s.writeMem ws).linkRx = t.linkRx ∧
    (s.writeMem ws).rd .dbgTraceCtrl = t.rd .dbgTraceCtrl ∧ (s.writeMem ws).mem =
      ((s.writeReady (ws.filter fun w => backed w.1)).racesKeep (ws.filter fun w => backed w.1)).foldl
        (fun m w => Memory.write m w.1 w.2.1) t.mem := by
  have found : ∀ (t : State) (p q : List Nat), Access t { t with latentUe := p, latentCe := q } := fun t p q =>
    ⟨rfl, rfl, rfl, rfl, rfl, fun _ => rfl⟩
  have asked : ∀ (t : State) (part us : List Nat), Access t
      (us.foldl (fun s u => ((if u ∈ part then s.request false u else s).request true u).touch u) t) := fun t part us =>
    Access.foldl _ (fun t u => by
      refine Access.trans ?_ (touch_access _ u _)
      refine Access.trans ?_ (request_access _ true u)
      split
      · exact request_access ..
      · exact .refl t) us t
  refine ⟨_, ?_, ?_, ?_, ?_, rfl⟩
  rotate_left
  · rfl
  · rfl
  · rfl
  refine Access.trans ?_ (aonAdd_access _ _ _)
  refine Access.trans ?_ (aonAdd_access _ _ _)
  refine Access.trans ?_ (aonAdd_access _ _ _)
  refine Access.trans ?_ (asked _ _ _)
  refine Access.trans ?_ (found _ _ _)
  exact (writeReady_access s _).trans (racesWrite_access _ _)

/-- Where no address lies in the trace's ring, the trace does not spill. -/
theorem noRing_off {s : State} (h : NoRing s) : s.flag .dbgTraceCtrl F.dbgTraceCtrl_SPILL = false := by
  by_contra on
  refine h (s.fld .dbgTraceSpill F.dbgTraceSpill_BASE * 2 ^ 30) ⟨by simpa using on, Nat.le_refl _, ?_⟩
  simp only [ringTop]
  omega

/-! #### Bytes of an access, and what it stores -/

theorem toBytes_eq (n v : Nat) : toBytes n v = (List.range n).map fun k => BitVec.ofNat 8 (v / 2 ^ (8 * k)) := by
  induction n generalizing v with
  | zero => rfl
  | succ n ih =>
    rw [toBytes, ih, List.range_succ_eq_map, List.map_cons, List.map_map]
    congr 1
    · simp
    · refine List.map_congr_left fun k _ => ?_
      simp only [Function.comp, Nat.div_div_eq_div_mul, Nat.succ_eq_add_one, Nat.mul_add, Nat.pow_add]
      rw [Nat.mul_comm (2 ^ (8 * k))]

/-- The bytes that a write of `size` bytes of `v` at `addr` stores. -/
def bytesOf (addr size v : Nat) : List (Nat × MByte) :=
  (List.range size).map fun k => (addr + k, BitVec.ofNat 8 (v / 2 ^ (8 * k)), false)

theorem zip_toBytes (addr size v : Nat) : ((List.range size).map (addr + ·)).zip (plain (toBytes size v)) = bytesOf addr size v := by
  rw [toBytes_eq, plain, List.map_map, List.zip_map']
  rfl

/-- Of bytes written one after another to addresses that differ, each is found. -/
theorem read_written {ws : List (Nat × MByte)} (d : (ws.map (·.1)).Nodup) {m : List Host.Cell} (wf : Memory.wf m = true)
    {w : Nat × MByte} (h : w ∈ ws) : Memory.read (ws.foldl (fun m w => Memory.write m w.1 w.2.1) m) w.1 = w.2.1 := by
  induction ws generalizing m with
  | nil => cases h
  | cons x ws ih =>
    obtain ⟨hx, hd⟩ := List.nodup_cons.mp d
    rcases List.mem_cons.mp h with rfl | h
    · rw [List.foldl_cons, Memory.read_writes_other (fun w : Nat × MByte => w.1) (fun w => w.2.1) ws _ fun y hy e =>
        hx (List.mem_map.mpr ⟨y, hy, e⟩), Memory.read_write_same wf]
    · exact ih hd (Memory.write_wf _ _ wf) h

theorem racesKeep_subset (s : State) (ws : List (Nat × MByte)) : ∀ w ∈ s.racesKeep ws, w ∈ ws := by
  unfold State.racesKeep
  split
  · exact fun _ h => h
  · exact fun _ h => (List.mem_filter.mp h).1

theorem racesKeep_still {s : State} (h : s.racing = []) (ws : List (Nat × MByte)) : s.racesKeep ws = ws := by
  simp [State.racesKeep, h]

theorem undefine_racing {s : State} (h : s.racing = []) (x : Actor) : (s.undefine x).racing = [] := by simp [State.undefine, h]

theorem foldl_racing {α : Type} (f : State → α → State) (hf : ∀ t x, t.racing = [] → (f t x).racing = []) (xs : List α) {s : State}
    (h : s.racing = []) : (xs.foldl f s).racing = [] := by
  induction xs generalizing s with
  | nil => exact h
  | cons x xs ih => exact ih (hf s x h)

theorem spread_racing {s : State} (h : s.racing = []) (n : Fin 128) : (s.spread n).racing = [] := by
  unfold State.spread
  split
  · exact h
  · refine foldl_racing _ (fun t g ht => ?_) _ h
    split
    · exact undefine_racing ht _
    · exact ht

theorem racesHit_racing {s : State} (h : s.racing = []) (ws : List (Nat × MByte)) : (s.racesHit ws).racing = [] := by
  unfold State.racesHit
  split
  · exact h
  · refine foldl_racing _ (fun t x ht => ?_) _ h
    dsimp only
    split
    · exact spread_racing (undefine_racing ht _) _
    · exact undefine_racing ht _

theorem writeReady_racing {s : State} (h : Still s) (ws : List (Nat × MByte)) : (s.writeReady ws).racing = [] := by
  have ⟨hr, _⟩ := h
  have pass : s.racesPass ws = s := by
    unfold State.racesPass
    split
    · rfl
    · exact racesPerform_none hr _
  rw [State.writeReady, nextAccess_still h, pass]
  exact racesHit_racing hr ws

theorem countRsvd_access (s : State) (as : List Nat) : Access s (s.countRsvd as) :=
  Access.foldl _ (fun t _ => bump_access t 1 (by simp)) _ s

/-- The bytes of a guarded write that are stored: of backed addresses, outside the code of running programs and reserved regions. -/
def storedBytes (s : State) (ws : List (Nat × MByte)) : List (Nat × MByte) :=
  (ws.filter fun w => (s.codeOwner w.1).isNone && (rsvdOwner w.1).isNone).filter fun w => backed w.1

theorem mem_storedBytes {s : State} {ws : List (Nat × MByte)} {w : Nat × MByte} : w ∈ storedBytes s ws ↔
    w ∈ ws ∧ (backed w.1 && (s.codeOwner w.1).isNone && (rsvdOwner w.1).isNone) = true := by
  simp only [storedBytes, List.mem_filter, Bool.and_eq_true]
  tauto

/-- A guarded write stores some of these bytes, and all where no write is under way; the rest of memory stays. -/
theorem writeGuarded_stores (s : State) (ws : List (Nat × MByte)) (as : List Nat) :
    let t := (s.writeGuarded ws).countRsvd as
    t.stalls = s.stalls ∧ t.linkRx = s.linkRx ∧ (NoRing s → ∃ xs : List (Nat × MByte), (∀ x ∈ xs, x ∈ storedBytes s ws) ∧
      (Still s → xs = storedBytes s ws) ∧ t.mem = xs.foldl (fun m w => Memory.write m w.1 w.2.1) s.mem) := by
  intro t
  obtain ⟨u, access, stalls, linkRx, ctrl, mem⟩ :=
    writeMem_stores s (ws.filter fun w => (s.codeOwner w.1).isNone && (rsvdOwner w.1).isNone)
  have counted : Access (s.writeOpen ws) t :=
    (Access.foldl _ (fun y _ => bump_access y 1 (by simp)) _ _).trans (countRsvd_access _ as)
  refine ⟨counted.stalls.trans (stalls.trans access.stalls), counted.linkRx.trans (linkRx.trans access.linkRx), fun ring => ?_⟩
  have off : s.flag .dbgTraceCtrl F.dbgTraceCtrl_SPILL = false := noRing_off ring
  refine ⟨_, racesKeep_subset _ _, fun still => racesKeep_still (writeReady_racing still (storedBytes s ws)) _, ?_⟩
  rw [counted.mem ((State.flag_congr _ (ctrl.trans access.ctrl)).trans off), ← access.mem off]
  exact mem

theorem bytesOf_addr {addr size v : Nat} {w : Nat × MByte} (h : w ∈ bytesOf addr size v) : ∃ k, k < size ∧ w.1 = addr + k := by
  obtain ⟨k, hk, rfl⟩ := List.mem_map.mp h
  exact ⟨k, List.mem_range.mp hk, rfl⟩

theorem bytesOf_nodup (addr size v : Nat) : ((bytesOf addr size v).map (·.1)).Nodup := by
  rw [bytesOf, List.map_map]
  exact List.Nodup.map (fun _ _ h => Nat.add_left_cancel h) List.nodup_range

theorem storedBytes_nodup (s : State) {ws : List (Nat × MByte)} (h : (ws.map (·.1)).Nodup) : ((storedBytes s ws).map (·.1)).Nodup :=
  h.sublist ((List.filter_sublist.trans List.filter_sublist).map _)

/-- Bytes written leave every other address. -/
theorem read_unwritten {ws : List (Nat × MByte)} (m : List Host.Cell) {a : Nat} (h : ∀ w ∈ ws, w.1 ≠ a) :
    Memory.read (ws.foldl (fun m w => Memory.write m w.1 w.2.1) m) a = Memory.read m a :=
  Memory.read_writes_other (fun w : Nat × MByte => w.1) (fun w => w.2.1) ws m h

/-- Byte `k` after a guarded write of `size` bytes of `v` at `addr`. -/
theorem read_storedBytes (s : State) (wf : Memory.wf s.mem = true) (addr size v : Nat) {k : Nat} (hk : k < size) :
    Memory.read ((storedBytes s (bytesOf addr size v)).foldl (fun m w => Memory.write m w.1 w.2.1) s.mem) (addr + k) =
      if backed (addr + k) && (s.codeOwner (addr + k)).isNone && (rsvdOwner (addr + k)).isNone
      then BitVec.ofNat 8 (v / 2 ^ (8 * k)) else Memory.read s.mem (addr + k) := by
  have byte : (addr + k, BitVec.ofNat 8 (v / 2 ^ (8 * k)), false) ∈ bytesOf addr size v :=
    List.mem_map.mpr ⟨k, List.mem_range.mpr hk, rfl⟩
  split
  · next stored =>
    exact read_written (w := (addr + k, BitVec.ofNat 8 (v / 2 ^ (8 * k)), false)) (storedBytes_nodup s (bytesOf_nodup ..)) wf
      (mem_storedBytes.mpr ⟨byte, stored⟩)
  · next stored =>
    refine read_unwritten s.mem fun w hw e => stored ?_
    rw [← e]
    exact (mem_storedBytes.mp hw).2
/-! ### Accesses of the host and of the porter (R2, R8, R178, R297 to R301) -/

theorem hostRecv_eq (s : State) (n : Nat) : s.hostRecv n = { s with linkRx := s.linkRx + n, aonDie := (s.hostRecv n).aonDie } := by
  unfold State.hostRecv
  rw [aonAdd_eq]

theorem hostReply_eq (s : State) (bs : List MByte) : s.hostReply bs =
    { s with hostOut := s.hostOut ++ replies bs, linkTx := s.linkTx + bs.length, aonDie := (s.hostReply bs).aonDie } := by
  unfold State.hostReply State.hostSent
  rw [aonAdd_eq]

theorem hostRecv_rd (s : State) (n : Nat) (r : Reg) : (s.hostRecv n).rd r = s.rd r := by rw [hostRecv_eq]; rfl

theorem hostRecv_frame (s : State) (n : Nat) : RegFrame noReg s (s.hostRecv n) where
  rest := by rw [hostRecv_eq]
  pend v hv := .inl (by rw [hostRecv_eq] at hv; exact hv)
  irqs v hv := by rw [hostRecv_eq]; exact hv
  regs r _ := hostRecv_rd s n r

theorem hostRecv_answers (s : State) (n : Nat) (r : Reg) : (s.hostRecv n).answers r = s.answers r := by
  rw [hostRecv_eq]; rfl

section
variable {s : State} {addr size : Nat}

/-- A write through BAR0. -/
theorem bar0_write (up : s.dieUp = true) (bar : 0xFF0000000000 ≤ addr ∧ addr < 0xFF0000000000 + 2 ^ 28) (v : BitVec 64) :
    exec (.registerWrite ⟨.bar0, addr⟩ size (some v)) s = .next
      (if (size = 4 ∨ size = 8) ∧ addr % size = 0 then (s.hostRecv size).mgmtWrite addr size v else (s.hostRecv size).barErr) := by
  have out : (decide (addr < 0xFF0000000000) || decide (0xFF0000000000 + 2 ^ 28 ≤ addr)) = false := by
    simp only [Bool.or_eq_false_iff, decide_eq_false_iff_not]; omega
  simp only [exec, execRegisterWrite, up, if_true, State.bar0Access, out, Bool.false_eq_true, if_false, Bool.and_eq_true,
    Bool.or_eq_true, decide_eq_true_eq]

/-- A read through BAR0. -/
theorem bar0_read (up : s.dieUp = true) (bar : 0xFF0000000000 ≤ addr ∧ addr < 0xFF0000000000 + 2 ^ 28) :
    exec (.registerWrite ⟨.bar0, addr⟩ size none) s = .next
      (if (size = 4 ∨ size = 8) ∧ addr % size = 0 then (s.mgmtRead addr size).1.hostReply (s.mgmtRead addr size).2
       else s.hostReply (List.replicate size (0xFF, false))) := by
  have out : (decide (addr < 0xFF0000000000) || decide (0xFF0000000000 + 2 ^ 28 ≤ addr)) = false := by
    simp only [Bool.or_eq_false_iff, decide_eq_false_iff_not]; omega
  simp only [exec, execRegisterWrite, up, if_true, State.bar0Access, out, Bool.false_eq_true, if_false, Bool.and_eq_true,
    Bool.or_eq_true, decide_eq_true_eq]

theorem bar0_down (down : s.dieUp = false) (x : Option (BitVec 64)) : exec (.registerWrite ⟨.bar0, addr⟩ size x) s = .next s := by
  simp only [exec, execRegisterWrite, down, Bool.false_eq_true, if_false]

/-- An access of the porter in the register space. -/
theorem porter_write (aux : s.aux = true) (good : (size = 4 ∨ size = 8) ∧ addr % size = 0) (high : 0xFF0000000000 ≤ addr)
    (v : BitVec 64) : exec (.registerWrite ⟨.porter, addr⟩ size (some v)) s = .next (s.mgmtWrite addr size v) := by
  have bad : ¬ (((decide (size ≠ 4) && decide (size ≠ 8)) || decide (addr % size ≠ 0)) = true) := by
    simp only [Bool.or_eq_true, Bool.and_eq_true, decide_eq_true_eq]; omega
  simp only [exec, execRegisterWrite, aux, if_true, State.porterAccess, if_neg bad, if_pos high]

/-- An access of the porter of memory and the stores. -/
theorem porter_memory (aux : s.aux = true) (up : s.dieUp = true) (good : (size = 4 ∨ size = 8) ∧ addr % size = 0)
    (low : addr < 0xFF0000000000) (v : BitVec 64) :
    exec (.registerWrite ⟨.porter, addr⟩ size (some v)) s =
      .next ((s.writeGuarded (bytesOf addr size v.toNat)).countRsvd ((List.range size).map (addr + ·))) ∧
    exec (.registerWrite ⟨.porter, addr⟩ size none) s = .next ((s.readMem ((List.range size).map (addr + ·))).1.porterReply
      (s.readMem ((List.range size).map (addr + ·))).2) := by
  have bad : ¬ (((decide (size ≠ 4) && decide (size ≠ 8)) || decide (addr % size ≠ 0)) = true) := by
    simp only [Bool.or_eq_true, Bool.and_eq_true, decide_eq_true_eq]; omega
  have high : ¬ 0xFF0000000000 ≤ addr := by omega
  constructor
  · simp only [exec, execRegisterWrite, aux, up, if_true, State.porterAccess, if_neg bad, if_neg high, Bool.not_true,
      Bool.false_eq_true, if_false, zip_toBytes]
  · simp only [exec, execRegisterWrite, aux, up, if_true, State.porterAccess, if_neg bad, if_neg high, Bool.not_true,
      Bool.false_eq_true, if_false]

/-- A discarded access is counted, and raises its vector. -/
theorem barErr_sets (t : State) (h : RegFrame noReg s t) (irqs : t.irqs = s.irqs) (x : Nat) (rx : t.linkRx = x) :
    Sets s (.next t.barErr) (fun r => r = .hstBarErr) fun t => Counted s t .hstBarErr 1 ∧ t.irqs = s.irqs ++ [259] ∧ t.linkRx = x := by
  have bump := bump_frame t .hstBarErr 1
  have raised := raise_frame (t.bump .hstBarErr 1) 259
  have frame := (h.mono fun _ => False.elim).trans (bump.trans (raised.mono fun _ => False.elim))
  have same : (t.bump .hstBarErr 1).irqs = t.irqs ∧ (t.bump .hstBarErr 1).linkRx = t.linkRx := by
    simp only [State.bump]
    split
    · rw [aonAdd_eq]; exact ⟨rfl, rfl⟩
    · exact ⟨rfl, rfl⟩
  refine frame.sets ⟨?_, ?_, ?_⟩
  · have count := bump_count t .hstBarErr 1 (Fld.get_lt F.COUNT _)
    rw [h.fld .hstBarErr id] at count
    exact count
  · exact congrArg (· ++ [259]) (same.1.trans irqs)
  · exact same.2.trans rx

/-- A plain register written by one that has only counted what it received. -/
theorem plainWrite_sets {r : Reg} (t : State) (h : RegFrame noReg s t) (irqs : t.irqs = s.irqs) (x : Nat) (rx : t.linkRx = x)
    (v : BitVec 64) : Sets s (.next (t.regWrite r v)) (fun q => q = r) fun t =>
      t.irqs = s.irqs ∧ t.linkRx = x ∧ ∀ f ∈ r.fields, f.get (t.rd r) = fieldAfter f (s.rd r) v := by
  refine ((h.mono fun _ => False.elim).trans (regWrite_frame t r v)).sets ⟨irqs, rx, ?_⟩
  rw [← h.regs r id]
  exact State.regWrite_flds t r v

end

/-- The registers whose fields take what their access codes say, whatever the state. -/
theorem store_fields (s : State) {r : Reg} (h : PlainReg r ∨ r = .ptrStartCtrl) (stage : r = .ptrStartCtrl → s.stage ≠ 1) (v : BitVec 64) :
    s.store r v = s.regWrite r v := by
  rcases h with plain | rfl
  · exact plain.store s v
  · have same : (s.regWrite .ptrStartCtrl v).stage = s.stage :=
      State.fld_congr _ ((regWrite_frame s .ptrStartCtrl v).regs .ptrStage (by simp))
    have other : (decide (s.stage = 1)) = false := by simpa using stage rfl
    show (s.regWrite .ptrStartCtrl v).autoAdvance = _
    simp only [State.autoAdvance, same, other, Bool.false_and, Bool.false_eq_true, if_false]

theorem answers_up {s : State} (up : s.dieUp = true) (aux : s.aux = true) (r : Reg) : s.answers r = true := by
  simp [State.answers, up, aux]
theorem addr_in_bar (r : Reg) : 0xFF0000000000 ≤ r.addr ∧ r.addr < 0xFF0000000000 + 2 ^ 28 := by
  have below := r.addr_below
  refine ⟨?_, by omega⟩
  by_contra low
  have := registerAddressRoundTrip r
  rw [Reg.ofAddr, if_pos (by omega)] at this
  cases this

/-- An answer of the host's read counts its bytes. -/
theorem hostReply_leaves (s : State) (bs : List Byte) : Leaves (.next (s.hostReply (bs.map fun b => (b, false)))) fun t =>
    t = { s with hostOut := s.hostOut ++ replies (bs.map fun b => (b, false)), linkTx := s.linkTx + bs.length, aonDie := t.aonDie } := by
  refine ⟨_, rfl, ?_⟩
  rw [hostReply_eq, List.length_map]

/-- A write that only counts what it receives. -/
theorem hostRecv_leaves (s : State) (n : Nat) :
    Leaves (.next (s.hostRecv n)) fun t => t = { s with linkRx := s.linkRx + n, aonDie := t.aonDie } :=
  ⟨_, rfl, hostRecv_eq s n⟩

/-- The mask of an MSI-X vector written by the host. -/
theorem msixWrite_host (s : State) (i : Fin 260) {a : Nat} (h : a = 0xFF000FF00000 + 16 * i.val + 8) (v : BitVec 64) :
    let t := (s.hostRecv 8).msixWrite i a 8 v
    t = { s with msix := t.msix, msixPend := t.msixPend, linkRx := s.linkRx + 8, aonDie := t.aonDie } ∧
      t.msixMasked i.val = v.getLsbD 32 ∧ (v.getLsbD 32 = false → i.val ∉ t.msixPend) ∧
      ∀ k : Fin 260, k ≠ i → t.msixMasked k.val = s.msixMasked k.val ∧ (k.val ∈ t.msixPend ↔ k.val ∈ s.msixPend) := by
  have masked := fun k => msixWrite_masked (s.hostRecv 8) i k h v
  have before : ∀ k, (s.hostRecv 8).msixMasked k = s.msixMasked k := fun k => by rw [hostRecv_eq]; rfl
  have pend : (s.hostRecv 8).msixPend = s.msixPend := by rw [hostRecv_eq]
  intro t
  refine ⟨?_, (masked i).trans (if_pos rfl), ?_, fun k hk => ⟨?_, ?_⟩⟩
  · have eq : t = { s.hostRecv 8 with msix := t.msix, msixPend := t.msixPend } := by
      simp only [t, msixWrite_high _ i h]
      split <;> rfl
    rw [eq, hostRecv_eq]
  · intro off
    simp only [t, msixWrite_high _ i h, off, Bool.false_eq_true, if_false]
    simp
  · rw [masked k, if_neg hk, before]
  · have ne : k.val ≠ i.val := fun e => hk (Fin.ext e)
    simp only [t, msixWrite_high _ i h]
    split
    · rw [← pend]; rfl
    · simp [pend, ne]

/-- The porter's write of memory: the bytes that memory backs and nothing guards, and no other. -/
theorem porterWrite_memory (s : State) (addr size v : Nat) :
    let t := (s.writeGuarded (bytesOf addr size v)).countRsvd ((List.range size).map (addr + ·))
    t.stalls = s.stalls ∧ t.linkRx = s.linkRx ∧
      (NoRing s → (∀ a, (∀ k, k < size → a ≠ addr + k) → Memory.read t.mem a = Memory.read s.mem a) ∧
        (Sound s → Still s → ∀ k, k < size → Memory.read t.mem (addr + k) =
          if backed (addr + k) && (s.codeOwner (addr + k)).isNone && (rsvdOwner (addr + k)).isNone then BitVec.ofNat 8 (v / 2 ^ (8 * k))
          else Memory.read s.mem (addr + k))) := by
  intro t
  obtain ⟨stalls, linkRx, stores⟩ := writeGuarded_stores s (bytesOf addr size v) ((List.range size).map (addr + ·))
  refine ⟨stalls, linkRx, fun ring => ?_⟩
  obtain ⟨xs, sub, all, mem⟩ := stores ring
  refine ⟨fun a out => ?_, fun sound still k hk => ?_⟩
  · rw [mem]
    refine read_unwritten s.mem fun w hw e => ?_
    obtain ⟨k, hk, at'⟩ := bytesOf_addr (mem_storedBytes.mp (sub w hw)).1
    exact out k hk (e.symm.trans at')
  · rw [mem, all still]
    exact read_storedBytes s sound addr size v hk

/-- The porter's read of memory. -/
theorem porterRead_memory (s : State) (addr size : Nat) :
    let t := (s.readMem ((List.range size).map (addr + ·))).1.porterReply (s.readMem ((List.range size).map (addr + ·))).2
    t.stalls = s.stalls ∧ t.linkTx = s.linkTx ∧ (NoRing s → t.mem = s.mem) ∧
      ∃ bs, t.porterOut = s.porterOut ++ [bs] ∧ bs.length = size ∧ (NoRing s → Clean s → ∀ k, k < size →
        bs.getD k (0, true) = (if backed (addr + k) then Memory.read s.mem (addr + k) else 0, false)) := by
  intro t
  have access := readMem_access s ((List.range size).map (addr + ·))
  refine ⟨access.stalls, access.linkTx, fun ring => access.mem (noRing_off ring), _, congrArg (· ++ [_]) access.porterOut, ?_,
    fun ring clean k hk => ?_⟩
  · rw [readMem_length, List.length_map, List.length_range]
  · rw [readMem_bytes clean (noRing_off ring), List.map_map, List.getD_eq_getElem _ _ (by simpa using hk)]
    simp

/-- Settles O29: each access goes by its path, its size and its alignment to a register, the MSI-X table, or memory. -/
theorem registerWrites : Obligations.RegisterWrites := by
  unfold Obligations.RegisterWrites
  intro s addr size v t16 p m u i
  dsimp only
  have good : ¬ ((size ≠ 4 ∧ size ≠ 8) ∨ addr % size ≠ 0) → (size = 4 ∨ size = 8) ∧ addr % size = 0 := by omega
  refine ⟨fun bar bad up => ?_, fun down => ⟨bar0_down down _, bar0_down down _⟩, fun bar ok up none out => ?_,
    fun r bar ok up below reg porter aux => ?_, fun r hr up aux stage => ?_, fun up => ?_, fun up => ?_, fun x => ⟨fun aux link => ?_, ?_⟩,
    fun aux up ok top => ?_⟩
  · have bad' : ¬ ((size = 4 ∨ size = 8) ∧ addr % size = 0) := by omega
    rw [bar0_write up bar, bar0_read up bar, if_neg bad', if_neg bad']
    refine ⟨barErr_sets _ (hostRecv_frame s size) (by rw [hostRecv_eq]) _ (by rw [hostRecv_eq]), ?_⟩
    have ones := hostReply_leaves s (List.replicate size 0xFF)
    rw [List.map_replicate] at ones
    rw [List.map_replicate]
    exact ones
  · rw [bar0_write up bar, bar0_read up bar, if_pos (good ok), if_pos (good ok), mgmtWrite_none _ size v none out,
      mgmtRead_none s size none out]
    have zeros : toBytes size 0 = List.replicate size 0 := by
      rw [toBytes_eq]
      simp
    rw [zeros]
    exact ⟨hostRecv_leaves s size, hostReply_leaves s _⟩
  · have silent : (s.hostRecv size).answers r = false := by rw [hostRecv_answers]; simp [State.answers, porter, aux]
    rw [bar0_write up bar, if_pos (good ok), mgmtWrite_silent _ v reg below silent]
    exact hostRecv_leaves s size
  · have kind : PlainReg r ∨ r = .ptrStartCtrl := by
      fin_cases hr
      · exact .inl (.nwCtrl t16)
      · exact .inl .postCtrl
      · exact .inl (.portArb p)
      · exact .inl (.portLimits p)
      · exact .inl .bar2Win
      · exact .inl .solo
      · exact .inl (.frAsym p)
      · exact .inl (.traceSrc u)
      · exact .inl .trigNet
      · exact .inl (.trig m)
      · exact .inl .poisonHead
      · exact .inl .pwrLimit
      · exact .inl .thermCtrl
      · exact .inr rfl
    have bar := addr_in_bar r
    have aligned : ((8 : Nat) = 4 ∨ (8 : Nat) = 8) ∧ r.addr % 8 = 0 := ⟨.inr rfl, r.addr_aligned⟩
    have answers := answers_up up aux r
    have stage' : r = .ptrStartCtrl → (s.hostRecv 8).stage ≠ 1 := fun e => by
      rw [State.stage, State.fld_congr _ (hostRecv_rd s 8 _)]; exact stage e
    rw [bar0_write up bar, if_pos aligned, porter_write aux aligned bar.1, mgmtWrite_reg s r v answers,
      mgmtWrite_reg _ r v ((hostRecv_answers s 8 r).trans answers), store_fields _ kind stage, store_fields _ kind stage']
    exact ⟨plainWrite_sets _ (hostRecv_frame s 8) (by rw [hostRecv_eq]) _ (by rw [hostRecv_eq]) v,
      plainWrite_sets _ (.refl _ s) rfl _ rfl v⟩
  · have bar : 0xFF0000000000 ≤ 0xFF000FF00000 + 16 * i.val + 8 ∧
        0xFF000FF00000 + 16 * i.val + 8 < 0xFF0000000000 + 2 ^ 28 := by have := i.isLt; omega
    have aligned : ((8 : Nat) = 4 ∨ (8 : Nat) = 8) ∧ (0xFF000FF00000 + 16 * i.val + 8) % 8 = 0 := ⟨.inr rfl, by omega⟩
    rw [bar0_write up bar, if_pos aligned, mgmtWrite_msix _ i rfl]
    exact ⟨_, rfl, msixWrite_host s i rfl v⟩
  · have read : exec (.registerWrite ⟨.config, 0⟩ 4 none) s = .next (s.hostReply (plain (toBytes 4 0x8A001F3C))) := by
      simp only [exec, execRegisterWrite, up, Bool.not_true, Bool.false_eq_true, if_false]
      rfl
    rw [read]
    exact hostReply_leaves s [0x3C, 0x1F, 0x00, 0x8A]
  · simp only [exec, execRegisterWrite, aux, link, Bool.and_true, if_true]
  · intro off
    have silent : (s.aux && s.hostLink) = false := Bool.and_eq_false_iff.mpr off
    simp only [exec, execRegisterWrite, silent, Bool.false_eq_true, if_false]
  · have low : addr < 0xFF0000000000 := by have := good ok; omega
    obtain ⟨write, read⟩ := porter_memory aux up (good ok) low v
    rw [write, read]
    exact ⟨⟨_, rfl, porterWrite_memory s addr size v.toNat⟩, ⟨_, rfl, porterRead_memory s addr size⟩⟩
/-! ### Discovery outcomes (R228, R336 to R339) -/

/-- Beside registers of `R`, no register, no port and no letter that waits for a port has changed. -/
structure Shown (R : Reg → Prop) (s t : State) : Prop where
  regs : ∀ r, ¬ R r → t.rd r = s.rd r
  ports : t.ports = s.ports
  outQ : t.outQ = s.outQ

theorem RegFrame.shown {R : Reg → Prop} {s t : State} (h : RegFrame R s t) : Shown R s t :=
  ⟨h.regs, by rw [h.rest], by rw [h.rest]⟩

theorem Shown.trans {R : Reg → Prop} {s t u : State} (h : Shown R s t) (k : Shown R t u) : Shown R s u :=
  ⟨fun r n => (k.regs r n).trans (h.regs r n), k.ports.trans h.ports, k.outQ.trans h.outQ⟩

theorem Shown.refl (R : Reg → Prop) (s : State) : Shown R s s := ⟨fun _ _ => rfl, rfl, rfl⟩

theorem Shown.mono {R R' : Reg → Prop} {s t : State} (h : Shown R s t) (hr : ∀ r, R r → R' r) : Shown R' s t :=
  { h with regs := fun r n => h.regs r fun k => n (hr r k) }

theorem Shown.fld {R : Reg → Prop} {s t : State} (h : Shown R s t) (r : Reg) (n : ¬ R r) (f : Fld) : t.fld r f = s.fld r f :=
  State.fld_congr f (h.regs r n)

/-! #### The end of a handover -/

/-- The registers that the end of a handover, and of Stage 1 with it, writes. -/
def stageReg (r : Reg) : Prop := r = .ptrStage ∨ r = .ptrStartTimes ∨ r = .ptrMemResult

theorem enterStabled_shown (s : State) : Shown stageReg s s.enterStabled := by
  have noted : ∀ (t : State) (x y : Bool), Shown stageReg t { t with advance := x, memTestFull := y } := fun t x y =>
    ⟨fun _ _ => rfl, rfl, rfl⟩
  refine Shown.trans ?_ (noted _ _ _)
  exact ((((setFld_frame s _ _ _).mono fun _ => .inl).trans ((setFld_frame _ _ _ _).mono fun _ h => .inr (.inl h))).trans
    ((wr_frame _ _ _).mono fun _ h => .inr (.inr h))).shown

theorem autoAdvance_shown (s : State) : Shown stageReg s s.autoAdvance := by
  unfold State.autoAdvance
  split
  · exact enterStabled_shown s
  · exact .refl _ s

theorem handoverEnd_shown (s : State) (a : Fin 4) : Shown stageReg s (s.handoverEnd a) := by
  have idle : ∀ h : BitVec 4, Shown stageReg s
      { s.setFlds .ptrStage [(F.ptrStage_BUSY, 0), (F.ptrStage_BUSY_AXIS, 0)] with handover := none, handed := h } := fun h =>
    ⟨fun r n => State.rd_setFlds_other s _ fun e => n (.inl e), rfl, rfl⟩
  unfold State.handoverEnd
  dsimp only
  split
  · exact (idle _).trans (enterStabled_shown _)
  · exact (idle _).trans (autoAdvance_shown _)

theorem handoverCheck_shown (s : State) (p : Fin 8) : Shown stageReg s (s.handoverCheck p) := by
  unfold State.handoverCheck
  split
  · dsimp only
    split
    · exact handoverEnd_shown ..
    · exact .refl _ s
  · exact .refl _ s

/-! #### Events and outcomes of a port -/

theorem portEvent_shown (s : State) (p : Fin 8) (f : Fld) : Shown (fun r => r = .soPortEvents p ∨ bookReg r) s (s.portEvent p f) := by
  have told : ∀ (t : State) (xs : List Redfish), Shown (fun r => r = .soPortEvents p ∨ bookReg r) t { t with redfish := xs } :=
    fun t xs => ⟨fun _ _ => rfl, rfl, rfl⟩
  refine Shown.trans ?_ (told _ _)
  exact (((setFld_frame s _ f 1).or (log_frame ..)).trans ((raise_frame _ _).mono fun _ => False.elim)).shown

/-- The registers that an outcome of a port writes. -/
def outcomeReg (p : Fin 8) (r : Reg) : Prop := r = .soPortDisc p ∨ r = .ptrDisc ∨ bookReg r

/-- The outcome and its cause in the port's own register. -/
def Machine.State.discSet (s : State) (p : Fin 8) (o cause : Nat) : State :=
  s.setFlds (.soPortDisc p) [(F.soPortDisc_OUTCOME, o), (F.soPortDisc_CAUSE, cause), (F.soPortDisc_CHANGED, 1)]

theorem discSet_flds (s : State) (p : Fin 8) {o cause : Nat} (ho : o < 4) (hc : cause < 16) :
    (s.discSet p o cause).fld (.soPortDisc p) F.soPortDisc_OUTCOME = o ∧
      (s.discSet p o cause).fld (.soPortDisc p) F.soPortDisc_CAUSE = cause := by
  simp only [State.discSet, State.fld, State.setFlds, State.rd_wr_same]
  exact ⟨(Fld.get_puts (by decide) o [] [_, _] rfl _).trans (Nat.mod_eq_of_lt ho),
    (Fld.get_puts (by decide) cause [_] [_] rfl _).trans (Nat.mod_eq_of_lt hc)⟩

/-- What a change of an outcome writes beside the port's own register: the porter's copy, and reports. -/
theorem copyOutcome_shown (s : State) (p : Fin 8) (o cause : Nat) : Shown (fun r => r = .ptrDisc ∨ bookReg r) s (s.copyOutcome p o cause) :=
  (((setFld_frame s _ _ _).trans (setFld_frame _ _ _ _)).mono fun _ => .inl).shown

/-- How an outcome comes to be shown: it is the old one, or it is set and then reported. -/
theorem setOutcome_cases (s : State) (p : Fin 8) (o cause : Nat) :
    (s.fld (.soPortDisc p) F.soPortDisc_OUTCOME = o ∧ s.fld (.soPortDisc p) F.soPortDisc_CAUSE = cause ∧ s.setOutcome p o cause = s) ∨
      Shown (fun r => r = .ptrDisc ∨ bookReg r) (s.discSet p o cause) (s.setOutcome p o cause) := by
  have copied := copyOutcome_shown (s.discSet p o cause) p o cause
  have raised : ∀ (t : State) (xs : List Redfish), Shown (fun r => r = .ptrDisc ∨ bookReg r) t { t.raise 258 with redfish := xs } :=
    fun t xs => ⟨fun _ _ => rfl, rfl, rfl⟩
  have logged : ∀ (t : State) (i : Nat) (data : List Byte), Shown (fun r => r = .ptrDisc ∨ bookReg r) t
      ((t.aonAdd i 1).log (portUnit p) 0x0021 0xFF data) := fun t i data =>
    (((aonAdd_frame t i 1).mono fun _ => False.elim).trans (log_frame _ _ _ _ data)).shown.mono fun _ => .inr
  unfold State.setOutcome
  dsimp only
  split
  · next same => exact .inl (by simpa using same)
  · right
    split
    · exact copied
    · split
      · exact copied.trans (logged _ _ _)
      · exact (copied.trans (logged _ _ _)).trans (raised _ _)

theorem setOutcome_shown (s : State) (p : Fin 8) (o cause : Nat) : Shown (outcomeReg p) s (s.setOutcome p o cause) := by
  rcases setOutcome_cases s p o cause with ⟨_, _, same⟩ | shown
  · rw [same]; exact .refl _ s
  · exact ((setFlds_frame s _ _).shown.mono fun _ => .inl).trans (shown.mono fun _ => .inr)

theorem setOutcome_flds (s : State) (p : Fin 8) {o cause : Nat} (ho : o < 4) (hc : cause < 16) :
    (s.setOutcome p o cause).fld (.soPortDisc p) F.soPortDisc_OUTCOME = o ∧
      (s.setOutcome p o cause).fld (.soPortDisc p) F.soPortDisc_CAUSE = cause := by
  rcases setOutcome_cases s p o cause with ⟨oldO, oldC, same⟩ | shown
  · rw [same]; exact ⟨oldO, oldC⟩
  · have other : ¬ (Reg.soPortDisc p = .ptrDisc ∨ bookReg (.soPortDisc p)) := by simp [bookReg, Reg.domain]
    rw [shown.fld _ other, shown.fld _ other]
    exact discSet_flds s p ho hc

/-- The peer's fields stay as an outcome is set. -/
theorem setOutcome_peer (s : State) (p : Fin 8) (o cause : Nat) {f : Fld}
    (h : ([F.soPortDisc_OUTCOME, F.soPortDisc_CAUSE, F.soPortDisc_CHANGED].all fun g => f.apart g) = true) :
    (s.setOutcome p o cause).fld (.soPortDisc p) f = s.fld (.soPortDisc p) f := by
  rcases setOutcome_cases s p o cause with ⟨_, _, same⟩ | shown
  · rw [same]
  · have other : ¬ (Reg.soPortDisc p = .ptrDisc ∨ bookReg (.soPortDisc p)) := by simp [bookReg, Reg.domain]
    rw [shown.fld _ other, State.discSet, State.fld_setFlds_apart]
    simpa using h

/-! #### Letters discarded where a port no longer carries them -/

/-- A discarded letter leaves the queue, and nothing else that `Shown` tells of changes but a counter. -/
theorem dropOut_bump (s : State) (o : OutLetter) (p : Fin 8) :
    let t := (s.dropOut o).bump (.soPortDowndrop p) 1
    (∀ r, r ≠ .soPortDowndrop p → t.rd r = s.rd r) ∧ t.ports = s.ports ∧ t.outQ = s.outQ.erase o := by
  have dropped : ∀ xs : List OutLetter, Shown noReg { s with outQ := xs } ({ s with outQ := xs }.release o.held) := fun xs => by
    generalize { s with outQ := xs } = u
    refine ⟨fun r _ => ?_, ?_, ?_⟩
    · rw [release_eq]; rfl
    · rw [release_eq]
    · rw [release_eq]
  have out : (∀ r, (s.dropOut o).rd r = s.rd r) ∧ (s.dropOut o).ports = s.ports ∧ (s.dropOut o).outQ = s.outQ.erase o := by
    unfold State.dropOut
    dsimp only
    split
    · exact ⟨fun r => (dropped _).regs r id, (dropped _).ports, (dropped _).outQ⟩
    · exact ⟨fun _ => rfl, rfl, rfl⟩
  obtain ⟨regs, ports, outQ⟩ := out
  have counted := (bump_frame (s.dropOut o) (.soPortDowndrop p) 1).shown
  exact ⟨fun r n => (counted.regs r n).trans (regs r), counted.ports.trans ports, counted.outQ.trans outQ⟩

/-- A purge keeps every register but a counter, the ports, and each letter that the port still carries. -/
theorem purgeOut_keeps (s : State) (p : Fin 8) :
    (∀ r, r ≠ .soPortDowndrop p → (s.purgeOut p).rd r = s.rd r) ∧ (s.purgeOut p).ports = s.ports ∧
      ∀ o ∈ s.outQ, s.carries p o.lt.cls o.src.isSome = true → o ∈ (s.purgeOut p).outQ := by
  have fold : ∀ (xs : List OutLetter) (u : State),
      let t := xs.foldl (fun s o => (s.dropOut o).bump (.soPortDowndrop p) 1) u
      (∀ r, r ≠ .soPortDowndrop p → t.rd r = u.rd r) ∧ t.ports = u.ports ∧ ∀ o ∈ u.outQ, o ∉ xs → o ∈ t.outQ := by
    intro xs
    induction xs with
    | nil => exact fun u => ⟨fun _ _ => rfl, rfl, fun _ h _ => h⟩
    | cons x xs ih =>
      intro u
      obtain ⟨regs, ports, outQ⟩ := dropOut_bump u x p
      rw [List.foldl_cons]
      obtain ⟨regs', ports', outQ'⟩ := ih ((u.dropOut x).bump (.soPortDowndrop p) 1)
      refine ⟨fun r n => (regs' r n).trans (regs r n), ports'.trans ports, fun o ho hx => outQ' o ?_ fun h => hx (.tail _ h)⟩
      rw [outQ]
      exact (List.mem_erase_of_ne (by rintro rfl; exact hx List.mem_cons_self)).mpr ho
  obtain ⟨regs, ports, outQ⟩ := fold (s.outQ.filter fun o => o.port = p && !s.carries p o.lt.cls o.src.isSome) s
  exact ⟨regs, ports, fun o ho carried => outQ o ho fun h => by simp [carried] at h⟩

/-! #### The evaluation of an identity -/

theorem judgePeer_lt (s : State) (p : Fin 8) (b : List Byte) : (s.judgePeer p b).1 < 4 ∧ (s.judgePeer p b).2 < 16 := by
  have row : ∀ (c : Prop) [Decidable c] (x y : Nat × Nat), x.1 < 4 ∧ x.2 < 16 → y.1 < 4 ∧ y.2 < 16 →
      (if c then x else y).1 < 4 ∧ (if c then x else y).2 < 16 := fun c _ x y hx hy => by
    split
    exacts [hx, hy]
  unfold State.judgePeer
  repeat refine row _ _ _ (by decide) ?_
  decide

/-- Judgement reads the plan and the chip's number. -/
theorem judgePeer_congr {s t : State} (p : Fin 8) (b : List Byte) (peer : t.rd (.ptrPlanPeer p) = s.rd (.ptrPlanPeer p))
    (plan : t.rd .ptrPlanChip = s.rd .ptrPlanChip) (chip : t.chip = s.chip) : t.judgePeer p b = s.judgePeer p b := by
  have torus : ∀ a, t.planTorus a = s.planTorus a := fun a => by simp only [State.planTorus, plan]
  have skips : t.bypassSkips p b = s.bypassSkips p b := by simp only [State.bypassSkips, torus, chip]
  simp only [State.judgePeer, State.flag_congr _ peer, State.fld_congr _ peer, State.torusWord, plan, skips]
  congr!

/-- The registers of a port that an evaluated identity writes first. -/
def Machine.State.peerSet (s : State) (p : Fin 8) (b : List Byte) : State :=
  (s.wr (.soPortPeer p) (pack [(F.soPortPeer_PEER_CHIP, (idChip b).toNat), (F.soPortPeer_PEER_PORT, (idPort b).val),
    (F.soPortPeer_SKIP_COUNT, if (s.judgePeer p b).2 = 1 then (s.bypassSkips p b).getD 0 else 0), (F.soPortPeer_VALID, 1),
    (F.soPortPeer_PEER_SERIAL_LOW, idSerial b % 2 ^ 32)])).setFlds (.soPortStatus p)
      [(F.soPortStatus_STATE, if (s.judgePeer p b).1 = 1 then 3 else 4),
       (F.soPortStatus_BYPASS_HOP, if (s.judgePeer p b).1 = 1 && (s.judgePeer p b).2 = 1 then 1 else 0)]

/-- Whether an evaluation finds another peer than the last accepted one. -/
def peerChanged (s : State) (p : Fin 8) (b : List Byte) : Bool :=
  (s.judgePeer p b).1 = 1 && (s.port p).lastPeer.any fun q => q ≠ ((idChip b).toNat, idSerial b)

/-- The event of another peer. -/
def Machine.State.peerEvent (s : State) (p : Fin 8) (changed : Bool) : State :=
  if changed then s.portEvent p F.soPortEvents_PEER_CHANGE else s

/-- The port's record after an evaluation. -/
def evaluatedPort (s : State) (p : Fin 8) (b : List Byte) : Port :=
  { s.port p with
    evaluated := true
    lastPeer := if (s.judgePeer p b).1 = 1 then some ((idChip b).toNat, idSerial b) else (s.port p).lastPeer }

theorem evaluate_eq (s : State) (p : Fin 8) (b : List Byte) : s.evaluate p b =
    ((((((s.peerSet p b).peerEvent p (peerChanged s p b)).setOutcome p (s.judgePeer p b).1 (s.judgePeer p b).2).purgeOut p).setPort p
      (evaluatedPort s p b)).handoverCheck p) := rfl

/-- The registers that an evaluation writes. -/
def evalReg (p : Fin 8) (r : Reg) : Prop :=
  r = .soPortPeer p ∨ r = .soPortStatus p ∨ r = .soPortEvents p ∨ outcomeReg p r ∨ r = .soPortDowndrop p ∨ stageReg r

theorem peerSet_shown (s : State) (p : Fin 8) (b : List Byte) :
    Shown (fun r => r = .soPortPeer p ∨ r = .soPortStatus p) s (s.peerSet p b) :=
  ((wr_frame s _ _).or (setFlds_frame _ _ _)).shown

theorem peerSet_state (s : State) (p : Fin 8) (b : List Byte) :
    (s.peerSet p b).portState p = if (s.judgePeer p b).1 = 1 then 3 else 4 := by
  have state : (if (s.judgePeer p b).1 = 1 then 3 else 4) < 8 := by split <;> decide
  rw [State.portState, State.peerSet, State.fld, State.setFlds, State.rd_wr_same]
  exact (Fld.get_puts (by decide) _ [] [_] rfl _).trans (Nat.mod_eq_of_lt state)

theorem peerEvent_shown (s : State) (p : Fin 8) (changed : Bool) :
    Shown (fun r => r = .soPortEvents p ∨ bookReg r) s (s.peerEvent p changed) := by
  unfold State.peerEvent
  split
  · exact portEvent_shown ..
  · exact .refl _ s

theorem setPort_port (s : State) (p : Fin 8) (x : Port) : (s.setPort p x).port p = x := AMap.get_set_same _ p x s.ports

/-- What an evaluation of an identity leaves. -/
structure Evaluated (p : Fin 8) (b : List Byte) (s t : State) : Prop where
  regs : ∀ r, ¬ evalReg p r → t.rd r = s.rd r
  port : t.port p = evaluatedPort s p b
  outcome : t.fld (.soPortDisc p) F.soPortDisc_OUTCOME = (s.judgePeer p b).1
  cause : t.fld (.soPortDisc p) F.soPortDisc_CAUSE = (s.judgePeer p b).2
  peer : ∀ f : Fld, ([F.soPortDisc_OUTCOME, F.soPortDisc_CAUSE, F.soPortDisc_CHANGED].all fun g => f.apart g) = true →
    t.fld (.soPortDisc p) f = s.fld (.soPortDisc p) f
  state : t.portState p = if (s.judgePeer p b).1 = 1 then 3 else 4
  outQ : ∀ o ∈ s.outQ, o.lt.cls = .mgmt → o.src = none → o ∈ t.outQ

/-- What a register of `p` other than those written last reads after the purge and the check of the handover. -/
theorem purged_rd (s : State) (p : Fin 8) (x : Port) {r : Reg} (h1 : r ≠ .soPortDowndrop p) (h2 : ¬ stageReg r) :
    (((s.purgeOut p).setPort p x).handoverCheck p).rd r = s.rd r := by
  rw [(handoverCheck_shown _ p).regs r h2]
  exact (purgeOut_keeps s p).1 r h1

theorem evaluate_evaluated (s : State) (p : Fin 8) (b : List Byte) : Evaluated p b s (s.evaluate p b) := by
  obtain ⟨ho, hc⟩ := judgePeer_lt s p b
  have before := (peerSet_shown s p b)
  have state := peerSet_state s p b
  rw [evaluate_eq]
  generalize s.peerSet p b = s1 at before state ⊢
  have event := peerEvent_shown s1 p (peerChanged s p b)
  generalize s1.peerEvent p (peerChanged s p b) = s2 at event ⊢
  have flds := setOutcome_flds s2 p ho hc
  have peer := fun f => setOutcome_peer s2 p (s.judgePeer p b).1 (s.judgePeer p b).2 (f := f)
  have outcome := setOutcome_shown s2 p (s.judgePeer p b).1 (s.judgePeer p b).2
  generalize s2.setOutcome p (s.judgePeer p b).1 (s.judgePeer p b).2 = s3 at flds peer outcome ⊢
  have rd := fun r => purged_rd s3 p (evaluatedPort s p b) (r := r)
  have rdDisc := rd (.soPortDisc p) (by simp) (by simp [stageReg])
  have rdStatus := rd (.soPortStatus p) (by simp) (by simp [stageReg])
  have disc2 : s2.rd (.soPortDisc p) = s.rd (.soPortDisc p) := by
    rw [event.regs _ (by simp [bookReg, Reg.domain]), before.regs _ (by simp)]
  have status3 : s3.rd (.soPortStatus p) = s1.rd (.soPortStatus p) := by
    rw [outcome.regs _ (by simp [outcomeReg, bookReg, Reg.domain]), event.regs _ (by simp [bookReg, Reg.domain])]
  have state3 : s3.portState p = if (s.judgePeer p b).1 = 1 then 3 else 4 := (State.fld_congr _ status3).trans state
  refine ⟨fun r n => ?_, ?_, ?_, ?_, fun f hf => ?_, ?_, fun o ho' cls src => ?_⟩
  · simp only [evalReg, not_or] at n
    obtain ⟨n1, n2, n3, n4, n5, n6⟩ := n
    have n7 : ¬ bookReg r := fun h => n4 (.inr (.inr h))
    rw [rd r n5 n6, outcome.regs r n4, event.regs r (not_or.mpr ⟨n3, n7⟩), before.regs r (not_or.mpr ⟨n1, n2⟩)]
  · have ports := (handoverCheck_shown ((s3.purgeOut p).setPort p (evaluatedPort s p b)) p).ports
    rw [State.port, ports]
    exact setPort_port _ p _
  · rw [State.fld_congr _ rdDisc]; exact flds.1
  · rw [State.fld_congr _ rdDisc]; exact flds.2
  · rw [State.fld_congr _ rdDisc, peer f hf, State.fld_congr _ disc2]
  · exact (State.fld_congr _ rdStatus).trans state3
  · rw [(handoverCheck_shown _ p).outQ]
    refine (purgeOut_keeps s3 p).2.2 o ?_ ?_
    · rw [outcome.outQ, event.outQ, before.outQ]; exact ho'
    · have up : s3.linkUp p = true := by
        rw [State.linkUp, state3]
        split <;> rfl
      simp [State.carries, up, cls, src]

/-! #### Identity letters -/

theorem tryEvaluate_ready {s : State} {p : Fin 8} {b : List Byte} (identity : (s.port p).identity = some b)
    (ready : ((s.port p).sentSeen && (s.port p).gotSeen && !(s.port p).evaluated) = true) : s.tryEvaluate p = s.evaluate p b := by
  simp only [State.tryEvaluate, identity, ready, if_true]

/-- An identity is evaluated, or the exchange waits. -/
theorem tryEvaluate_cases (s : State) (p : Fin 8) : s.tryEvaluate p = s ∨ ∃ b, s.tryEvaluate p = s.evaluate p b := by
  unfold State.tryEvaluate
  dsimp only
  split
  · split
    · exact .inr ⟨_, rfl⟩
    · exact .inl rfl
  · exact .inl rfl

/-- What the exchange has told of a port stays as its identity is evaluated. -/
structure Exchanged (p : Fin 8) (s t : State) : Prop where
  sentSeen : (t.port p).sentSeen = (s.port p).sentSeen
  gotSeen : (t.port p).gotSeen = (s.port p).gotSeen
  identity : (t.port p).identity = (s.port p).identity
  peer : ∀ f : Fld, ([F.soPortDisc_OUTCOME, F.soPortDisc_CAUSE, F.soPortDisc_CHANGED].all fun g => f.apart g) = true →
    t.fld (.soPortDisc p) f = s.fld (.soPortDisc p) f
  outQ : ∀ o ∈ s.outQ, o.lt.cls = .mgmt → o.src = none → o ∈ t.outQ

theorem tryEvaluate_exchanged (s : State) (p : Fin 8) : Exchanged p s (s.tryEvaluate p) := by
  rcases tryEvaluate_cases s p with same | ⟨b, eval⟩
  · rw [same]; exact ⟨rfl, rfl, rfl, fun _ _ => rfl, fun _ h _ _ => h⟩
  · rw [eval]
    have done := evaluate_evaluated s p b
    exact ⟨by rw [done.port]; rfl, by rw [done.port]; rfl, by rw [done.port]; rfl, done.peer, done.outQ⟩

/-- The outcome of an identity as the registers and the port show it. -/
theorem Evaluated.judged {p : Fin 8} {b : List Byte} {s u t : State} (h : Evaluated p b u t) (same : u.judgePeer p b = s.judgePeer p b) :
    (t.fld (.soPortDisc p) F.soPortDisc_OUTCOME = (s.judgePeer p b).1 ∧
      t.fld (.soPortDisc p) F.soPortDisc_CAUSE = (s.judgePeer p b).2) ∧
    t.portState p = (if (s.judgePeer p b).1 = 1 then 3 else 4) ∧ (t.port p).evaluated = true := by
  rw [← same]
  exact ⟨⟨h.outcome, h.cause⟩, h.state, by rw [h.port]; rfl⟩

/-- The state in which port `p` has sent its identity. -/
def Machine.State.identitySent (s : State) (p : Fin 8) : State :=
  (s.portSend p .mgmt 1 (s.identityBody p (s.port p).identity.isSome)).setPort p
    { s.port p with sentSeen := (s.port p).sentSeen || (s.port p).identity.isSome }

theorem identitySend_sends {s : State} {p : Fin 8} (up : s.dieUp = true) (link : s.linkUp p = true)
    (wanted : ((s.port p).sentSeen && (s.port p).gotSeen) = false) :
    exec (.identitySend p) s = .next ((s.identitySent p).tryEvaluate p) := by
  simp only [exec, execIdentitySend, up, link, wanted, Bool.not_true, Bool.or_false, Bool.false_eq_true, if_false, State.identitySent]

theorem identitySend_silent {s : State} {p : Fin 8}
    (h : s.linkUp p = false ∨ ((s.port p).sentSeen = true ∧ (s.port p).gotSeen = true)) :
    exec (.identitySend p) s = .next s := by
  have stop : (!s.dieUp || !s.linkUp p || ((s.port p).sentSeen && (s.port p).gotSeen)) = true := by
    rcases h with h | ⟨h1, h2⟩
    · rw [h]; simp
    · rw [h1, h2]; simp
  simp only [exec, execIdentitySend, stop, if_true]

/-- An identity letter that a port has received leaves the ports, the registers and the chip's number as they were. -/
theorem takenAt_identity (s : State) (p : Fin 8) {lt : Letter} (op : lt.op = 1) :
    (∀ r, (s.takenAt p lt).rd r = s.rd r) ∧ (s.takenAt p lt).ports = s.ports ∧ (s.takenAt p lt).chip = s.chip := by
  have frank : frankLetter lt = false := by simp [frankLetter, op]
  have left : ∀ t : State, (∀ r, (t.release lt).rd r = t.rd r) ∧ (t.release lt).ports = t.ports ∧ (t.release lt).chip = t.chip := fun t =>
    ⟨fun r => by rw [release_eq]; rfl, by rw [release_eq], by rw [release_eq]⟩
  simp only [State.takenAt, frank, Bool.false_eq_true, if_false]
  exact left _

/-- The state in which an identity letter's body has been noted. -/
def Machine.State.identityNoted (s : State) (p : Fin 8) (b : List Byte) : State :=
  (s.setPort p { s.port p with identity := some b, gotSeen := (s.port p).gotSeen || bitOf (natAt b 0x0F 1) 0 }).setFlds (.soPortDisc p)
    [(F.soPortDisc_PEER_STAGE, natAt b 0x0B 1), (F.soPortDisc_PEER_PLAN_GEN, natAt b 0x14 2), (F.soPortDisc_PEER_FW, natAt b 0x10 4)]

theorem identityNoted_port (s : State) (p : Fin 8) (b : List Byte) : (s.identityNoted p b).port p =
    { s.port p with identity := some b, gotSeen := (s.port p).gotSeen || bitOf (natAt b 0x0F 1) 0 } := setPort_port s p _

theorem identityNoted_rd (s : State) (p : Fin 8) (b : List Byte) {r : Reg} (h : r ≠ .soPortDisc p) :
    (s.identityNoted p b).rd r = s.rd r := by
  rw [State.identityNoted, State.rd_setFlds_other _ _ h]
  rfl

theorem natAt_lt (l : List Byte) (off n : Nat) : natAt l off n < 2 ^ (8 * n) := by
  have spelled : ∀ bs : List Byte, ofBytes bs < 2 ^ (8 * bs.length) := by
    intro bs
    induction bs with
    | nil => simp [ofBytes]
    | cons x xs ih =>
      have := x.isLt
      simp only [ofBytes, List.length_cons, Nat.mul_add, Nat.pow_add] at ih ⊢
      omega
  have length : (bytesAt l off n).length = n := by simp [bytesAt]
  have := spelled (bytesAt l off n)
  rwa [length] at this

theorem identityNoted_flds (s : State) (p : Fin 8) (b : List Byte) :
    (s.identityNoted p b).fld (.soPortDisc p) F.soPortDisc_PEER_PLAN_GEN = natAt b 0x14 2 ∧
      (s.identityNoted p b).fld (.soPortDisc p) F.soPortDisc_PEER_FW = natAt b 0x10 4 := by
  simp only [State.identityNoted, State.fld, State.setFlds, State.rd_wr_same]
  exact ⟨(Fld.get_puts (by decide) _ [_] [_] rfl _).trans (Nat.mod_eq_of_lt (natAt_lt b 0x14 2)),
    (Fld.get_puts (by decide) _ [_, _] [] rfl _).trans (Nat.mod_eq_of_lt (natAt_lt b 0x10 4))⟩

section
variable {s : State} {p : Fin 8} {lt : Letter}

theorem identityReceive_bad (up : s.dieUp = true) (link : s.linkUp p = true) (cls : lt.cls = .mgmt) (op : lt.op = 1)
    (bad : ((bytesAt lt.body 0 64).drop 0x18).any (fun y => y ≠ 0) = true) :
    exec (.identityReceive p lt) s = .next (s.takenAt p lt) := by
  simp only [exec, execIdentityReceive, up, link, cls, op, bad, Bool.not_true, Bool.or_false, bne_self_eq_false, ne_eq,
    not_true_eq_false, decide_false, Bool.false_eq_true, if_false, if_true]

theorem identityReceive_good (up : s.dieUp = true) (link : s.linkUp p = true) (cls : lt.cls = .mgmt) (op : lt.op = 1)
    (good : ((bytesAt lt.body 0 64).drop 0x18).any (fun y => y ≠ 0) = false) :
    exec (.identityReceive p lt) s = .next (((s.takenAt p lt).identityNoted p (bytesAt lt.body 0 64)).tryEvaluate p) := by
  simp only [exec, execIdentityReceive, up, link, cls, op, good, Bool.not_true, Bool.or_false, bne_self_eq_false, ne_eq,
    not_true_eq_false, decide_false, Bool.false_eq_true, if_false, State.identityNoted]

theorem identityReceive_leaves (up : s.dieUp = true) (link : s.linkUp p = true) (cls : lt.cls = .mgmt) (op : lt.op = 1)
    (good : ((bytesAt lt.body 0 64).drop 0x18).any (fun y => y ≠ 0) = false) :
    let b := bytesAt lt.body 0 64
    Leaves (exec (.identityReceive p lt) s) fun t =>
      (t.port p).identity = some b ∧ (t.port p).gotSeen = ((s.port p).gotSeen || bitOf (natAt b 0x0F 1) 0) ∧
      t.fld (.soPortDisc p) F.soPortDisc_PEER_PLAN_GEN = natAt b 0x14 2 ∧
      t.fld (.soPortDisc p) F.soPortDisc_PEER_FW = natAt b 0x10 4 ∧
      ((s.port p).sentSeen = true → ((s.port p).gotSeen || bitOf (natAt b 0x0F 1) 0) = true → (s.port p).evaluated = false →
        (t.fld (.soPortDisc p) F.soPortDisc_OUTCOME = (s.judgePeer p b).1 ∧
          t.fld (.soPortDisc p) F.soPortDisc_CAUSE = (s.judgePeer p b).2) ∧
        t.portState p = (if (s.judgePeer p b).1 = 1 then 3 else 4) ∧ (t.port p).evaluated = true) := by
  intro b
  rw [identityReceive_good up link cls op good]
  obtain ⟨rd, ports, chip⟩ := takenAt_identity s p op
  have port : (s.takenAt p lt).port p = s.port p := by rw [State.port, ports]; rfl
  have noted := identityNoted_port (s.takenAt p lt) p b
  rw [port] at noted
  have flds := identityNoted_flds (s.takenAt p lt) p b
  have same : ((s.takenAt p lt).identityNoted p b).judgePeer p b = s.judgePeer p b :=
    judgePeer_congr p b ((identityNoted_rd _ p b (by simp)).trans (rd _)) ((identityNoted_rd _ p b (by simp)).trans (rd _)) chip
  generalize (s.takenAt p lt).identityNoted p b = u at noted flds same
  have kept := tryEvaluate_exchanged u p
  refine ⟨_, rfl, ?_, ?_, ?_, ?_, fun sent got new => ?_⟩
  · rw [kept.identity, noted]
  · rw [kept.gotSeen, noted]
  · rw [kept.peer _ (by decide)]; exact flds.1
  · rw [kept.peer _ (by decide)]; exact flds.2
  · have ready : ((u.port p).sentSeen && (u.port p).gotSeen && !(u.port p).evaluated) = true := by
      rw [noted]; simp only [sent, got, new, Bool.not_false, Bool.and_true]
    rw [tryEvaluate_ready (by rw [noted]) ready]
    exact (evaluate_evaluated u p b).judged same

theorem identitySend_leaves (up : s.dieUp = true) (link : s.linkUp p = true)
    (wanted : ¬ ((s.port p).sentSeen = true ∧ (s.port p).gotSeen = true)) :
    Leaves (exec (.identitySend p) s) fun t =>
      (∃ o ∈ t.outQ, o.port = p ∧ o.lt.cls = .mgmt ∧ o.lt.op = 1 ∧ o.lt.length = 64 ∧
        o.lt.body = bytesAt (s.identityBody p (s.port p).identity.isSome) 0 64) ∧
      (t.port p).sentSeen = ((s.port p).sentSeen || (s.port p).identity.isSome) ∧
      ∀ i, (s.port p).identity = some i → (s.port p).gotSeen = true → (s.port p).evaluated = false →
        (t.fld (.soPortDisc p) F.soPortDisc_OUTCOME = (s.judgePeer p i).1 ∧
          t.fld (.soPortDisc p) F.soPortDisc_CAUSE = (s.judgePeer p i).2) ∧
        t.portState p = (if (s.judgePeer p i).1 = 1 then 3 else 4) ∧ (t.port p).evaluated = true := by
  rw [identitySend_sends up link (by simpa using wanted)]
  have port : (s.identitySent p).port p = { s.port p with sentSeen := (s.port p).sentSeen || (s.port p).identity.isSome } :=
    setPort_port _ p _
  have queued : ∃ o ∈ (s.identitySent p).outQ, o.port = p ∧ o.lt.cls = .mgmt ∧ o.src = none ∧ o.lt.op = 1 ∧ o.lt.length = 64 ∧
      o.lt.body = bytesAt (s.identityBody p (s.port p).identity.isSome) 0 64 :=
    ⟨_, List.mem_append_right _ (List.mem_singleton.mpr rfl), rfl, rfl, rfl, rfl, rfl, rfl⟩
  have same : ∀ i, (s.identitySent p).judgePeer p i = s.judgePeer p i := fun i => judgePeer_congr p i rfl rfl rfl
  generalize s.identitySent p = u at port queued same
  have kept := tryEvaluate_exchanged u p
  obtain ⟨o, ho, oport, cls, src, op, len, body⟩ := queued
  refine ⟨_, rfl, ⟨o, kept.outQ o ho cls src, oport, cls, op, len, body⟩, ?_, fun i identity got new => ?_⟩
  · rw [kept.sentSeen, port]
  · have ready : ((u.port p).sentSeen && (u.port p).gotSeen && !(u.port p).evaluated) = true := by
      rw [port]; simp [identity, got, new]
    rw [tryEvaluate_ready (by rw [port]; exact identity) ready]
    exact (evaluate_evaluated u p i).judged (same i)

end

/-! #### Outcomes without an identity -/

/-- A port without a peer's identity: its state and its outcome, and the end of a handover that it ends. -/
theorem outcome_leaves (s : State) (p : Fin 8) {x o cause : Nat} (hx : x < 8) (ho : o < 4) (hc : cause < 16) :
    let t := ((s.setPortState p x).setOutcome p o cause).handoverCheck p
    t.portState p = x ∧ t.fld (.soPortDisc p) F.soPortDisc_OUTCOME = o ∧ t.fld (.soPortDisc p) F.soPortDisc_CAUSE = cause := by
  intro t
  have checked := handoverCheck_shown ((s.setPortState p x).setOutcome p o cause) p
  have outcome := setOutcome_shown (s.setPortState p x) p o cause
  obtain ⟨shownO, shownC⟩ := setOutcome_flds (s.setPortState p x) p ho hc
  have state : (s.setPortState p x).portState p = x :=
    (State.fld_setFld s (.soPortStatus p) F.soPortStatus_STATE x (by decide)).trans (Nat.mod_eq_of_lt hx)
  refine ⟨?_, ?_, ?_⟩
  · have kept : t.rd (.soPortStatus p) = (s.setPortState p x).rd (.soPortStatus p) := by
      rw [checked.regs _ (by simp [stageReg]), outcome.regs _ (by simp [outcomeReg, bookReg, Reg.domain])]
    exact (State.fld_congr _ kept).trans state
  · rw [checked.fld _ (by simp [stageReg])]; exact shownO
  · rw [checked.fld _ (by simp [stageReg])]; exact shownC

theorem discoverySilent_ends {s : State} {p : Fin 8} (up : s.dieUp = true) (link : s.linkUp p = true)
    (none : (s.port p).identity = none) (new : (s.port p).evaluated = false) :
    exec (.discoverySilent p) s = .next (((s.setPortState p 4).setOutcome p 2 9).handoverCheck p) := by
  simp only [exec, execDiscoverySilent, up, link, none, new, Bool.not_true, Option.isSome_none, Bool.or_false, Bool.false_eq_true,
    if_false]

theorem discoverySilent_heard {s : State} {p : Fin 8} (h : (s.port p).identity ≠ none) : exec (.discoverySilent p) s = .next s := by
  have heard : (s.port p).identity.isSome = true := Option.isSome_iff_ne_none.mpr h
  simp only [exec, execDiscoverySilent, heard, Bool.or_true, Bool.true_or, if_true]

theorem discoveryMissing_ends {s : State} {p : Fin 8} (up : s.dieUp = true) (training : s.portState p = 2)
    (released : s.axisReleased (portAxis p) = true) : exec (.discoveryMissing p) s = .next
      (((s.setPortState p 5).setOutcome p 3 (if s.flag (.ptrPlanPeer p) F.ptrPlanPeer_EXPECT then 10 else 11)).handoverCheck p) := by
  simp only [exec, execDiscoveryMissing, up, training, released, decide_true, Bool.and_true, if_true, State.portAbsent]

theorem discoveryMissing_other {s : State} {p : Fin 8} (h : s.portState p ≠ 2) : exec (.discoveryMissing p) s = .next s := by
  simp only [exec, execDiscoveryMissing, h, decide_false, Bool.and_false, Bool.false_and, Bool.false_eq_true, if_false]

/-! ### The operator's plan (R333, R334, R347) -/

/-- A field that takes any value written. -/
theorem fieldAfter_free {f : Fld} (acc : f.acc = .rw ∨ f.acc = .rwl) (valid : f.valid = none) (x v : BitVec 64) :
    fieldAfter f x v = f.get v := by
  rcases acc with acc | acc <;> simp [fieldAfter, acc, valid]

theorem planPeer_free (p : Fin 8) : ∀ f ∈ (Reg.ptrPlanPeer p).fields, (f.acc = .rw ∨ f.acc = .rwl) ∧ f.valid = none := by
  simp only [Reg.fields, List.forall_mem_cons, List.not_mem_nil, false_implies, implies_true, and_true]
  decide

theorem planChip_free : ∀ f ∈ Reg.ptrPlanChip.fields, (f.acc = .rw ∨ f.acc = .rwl) ∧ f.valid = none := by decide

/-- Every field of a plan register takes the value written. -/
theorem regWrite_takes (s : State) {r : Reg} (free : ∀ f ∈ r.fields, (f.acc = .rw ∨ f.acc = .rwl) ∧ f.valid = none) (v : BitVec 64) :
    ∀ f ∈ r.fields, f.get ((s.regWrite r v).rd r) = f.get v := fun f hf => by
  rw [State.regWrite_flds s r v f hf, fieldAfter_free (free f hf).1 (free f hf).2]

section
variable {s : State} (p : Fin 8) (v : BitVec 64) (aux : s.aux = true)
include aux

theorem planPeerWrite_idle
    (h : (s.port p).identity = none ∨ s.dieUp = false ∨ s.linkUp p = false ∨ (s.port p).evaluated = false) :
    exec (.planPeerWrite p v) s = .next (s.regWrite (.ptrPlanPeer p) v) := by
  have link : (s.regWrite (.ptrPlanPeer p) v).linkUp p = s.linkUp p := by
    have status : (s.regWrite (.ptrPlanPeer p) v).portState p = s.portState p :=
      (regWrite_frame s (.ptrPlanPeer p) v).fld _ (by simp) _
    simp only [State.linkUp, status]
  have port : (s.regWrite (.ptrPlanPeer p) v).port p = s.port p := rfl
  have die : (s.regWrite (.ptrPlanPeer p) v).dieUp = s.dieUp := rfl
  simp only [exec, execPlanPeerWrite, aux, if_true, State.planPeerWrite, port, die, link]
  split
  · next b identity =>
    have off : (s.dieUp && s.linkUp p && (s.port p).evaluated) = false := by
      rcases h with h | h | h | h
      · rw [h] at identity; cases identity
      · rw [h]; rfl
      · rw [h, Bool.and_false]; rfl
      · rw [h, Bool.and_false]
    rw [off]
    rfl
  · rfl

theorem planPeerWrite_again {b : List Byte} (identity : (s.port p).identity = some b) (up : s.dieUp = true) (link : s.linkUp p = true)
    (old : (s.port p).evaluated = true) :
    exec (.planPeerWrite p v) s = .next ((s.regWrite (.ptrPlanPeer p) v).evaluate p b) := by
  have link' : (s.regWrite (.ptrPlanPeer p) v).linkUp p = s.linkUp p := by
    have status : (s.regWrite (.ptrPlanPeer p) v).portState p = s.portState p :=
      (regWrite_frame s (.ptrPlanPeer p) v).fld _ (by simp) _
    simp only [State.linkUp, status]
  have port : (s.regWrite (.ptrPlanPeer p) v).port p = s.port p := rfl
  have die : (s.regWrite (.ptrPlanPeer p) v).dieUp = s.dieUp := rfl
  simp only [exec, execPlanPeerWrite, aux, if_true, State.planPeerWrite, port, die, link', identity, up, link, old, Bool.and_self]

theorem planChipWrite_ignored (stage : s.stage ≠ 3)
    (h : placeOk v = false ∨ (s.fld .ptrBypass F.ptrBypass_HOLD ≠ 0 ∧ planPlace v ≠ planPlace (s.rd .ptrPlanChip))) :
    exec (.planChipWrite v) s = .next s := by
  simp only [exec, execPlanChipWrite, aux, if_true, State.planChipWrite, stage, if_false]
  rcases h with bad | ⟨held, moved⟩
  · simp only [bad, Bool.not_false, if_true]
  · simp only [held, moved, ne_eq, not_false_eq_true, decide_true, Bool.and_self, if_true]
    split <;> rfl

theorem planChipWrite_taken (stage : s.stage ≠ 3) (ok : placeOk v = true)
    (h : s.fld .ptrBypass F.ptrBypass_HOLD = 0 ∨ planPlace v = planPlace (s.rd .ptrPlanChip)) :
    exec (.planChipWrite v) s = .next { s.regWrite .ptrPlanChip v with
      chip := if s.dieUp then BitVec.ofNat 14 (F.ptrPlanChip_CHIP_NUM.get v) else s.chip } := by
  have free : (decide (s.fld .ptrBypass F.ptrBypass_HOLD ≠ 0) && decide (planPlace v ≠ planPlace (s.rd .ptrPlanChip))) = false := by
    rcases h with h | h <;> simp [h]
  have die : (s.regWrite .ptrPlanChip v).dieUp = s.dieUp := rfl
  have chip : (s.regWrite .ptrPlanChip v).chip = s.chip := rfl
  simp only [exec, execPlanChipWrite, aux, if_true, State.planChipWrite, stage, if_false, ok, Bool.not_true, Bool.false_eq_true, free]
  rw [← chip, ← die]
  generalize s.regWrite .ptrPlanChip v = t
  by_cases up : t.dieUp = true
  · rw [if_pos up, if_pos up]
  · rw [if_neg up, if_neg up]

end

/-! #### The plan under lock, in Stage 3 (R8) -/

/-- The chip's plan as a write in Stage 3 leaves it: its locked fields stay. -/
def Machine.State.planKept (s : State) (v : BitVec 64) : State :=
  s.wr .ptrPlanChip (writeFields false Reg.ptrPlanChip.fields (s.rd .ptrPlanChip) v)

/-- One more violation of a lock, counted for the porter too. -/
def Machine.State.lockViolated (s : State) : State :=
  (s.setFld .ptrLockViolations F.ptrLockViolations_COUNT
    (satAdd (2 ^ 48 - 1) (s.fld .ptrLockViolations F.ptrLockViolations_COUNT) 1)).aonPorter 371 1

/-- Whether two plans agree in every locked field. -/
def planLocked (v w : BitVec 64) : Bool := planPlace v = planPlace w && F.ptrPlanChip_PLAN_VALID.get v = F.ptrPlanChip_PLAN_VALID.get w

/-- The four lengths of a plan are its bits 16 to 31. -/
theorem lengths_iff (x y : Nat) : bitsOf x 16 16 = bitsOf y 16 16 ↔
    bitsOf x 16 4 = bitsOf y 16 4 ∧ bitsOf x 20 4 = bitsOf y 20 4 ∧ bitsOf x 24 4 = bitsOf y 24 4 ∧ bitsOf x 28 4 = bitsOf y 28 4 := by
  simp only [bitsOf]
  omega

theorem planLocked_iff (v w : BitVec 64) :
    planLocked v w = true ↔ ∀ f ∈ Reg.ptrPlanChip.fields, f.acc = .rwl → f.get v = f.get w := by
  have lengths := lengths_iff v.toNat w.toNat
  simp only [planLocked, planPlace, Bool.and_eq_true, decide_eq_true_eq, Prod.mk.injEq, lengths, Reg.fields, List.forall_mem_cons,
    List.not_mem_nil, false_implies, implies_true, and_true]
  simp [Fld.get, F.ptrPlanChip_CHIP_NUM, F.ptrPlanChip_X_LEN_M1, F.ptrPlanChip_Y_LEN_M1, F.ptrPlanChip_Z_LEN_M1,
    F.ptrPlanChip_W_LEN_M1, F.ptrPlanChip_PLAN_VALID, F.ptrPlanChip_PLAN_GEN, and_assoc]

theorem planChipWrite_locked {s : State} (aux : s.aux = true) (stage : s.stage = 3) (v : BitVec 64) : exec (.planChipWrite v) s = .next
    (if planLocked v (s.rd .ptrPlanChip) then s.planKept v else (s.planKept v).lockViolated) := by
  simp only [exec, execPlanChipWrite, aux, if_true, State.planChipWrite, stage, planLocked, State.planKept, State.lockViolated]
  rfl

theorem planKept_frame (s : State) (v : BitVec 64) : RegFrame (fun q => q = .ptrPlanChip) s (s.planKept v) := wr_frame ..

/-- In Stage 3 the locked fields stay, and the others take the value written. -/
theorem planKept_flds (s : State) (v : BitVec 64) : ∀ f ∈ Reg.ptrPlanChip.fields,
    f.get ((s.planKept v).rd .ptrPlanChip) = if f.acc = .rwl then f.get (s.rd .ptrPlanChip) else f.get v := fun f hf => by
  obtain ⟨acc, valid⟩ := planChip_free f hf
  rw [State.planKept, State.rd_wr_same, writeFields_get (Reg.fields_apart _) hf, fieldAfter_free acc valid]
  simp only [and_true]

theorem lockViolated_frame (s : State) : RegFrame (fun q => q = .ptrLockViolations ∨ q = .ptrAon 371) s s.lockViolated :=
  (setFld_frame s _ _ _).or (wr_frame _ _ _)

theorem lockViolated_count (s : State) : s.lockViolated.fld .ptrLockViolations F.ptrLockViolations_COUNT =
    min (2 ^ 48 - 1) (s.fld .ptrLockViolations F.ptrLockViolations_COUNT + 1) := by
  rw [State.lockViolated, (aonPorter_frame _ 371 1).fld .ptrLockViolations (by simp [bookReg, Reg.domain]),
    State.fld_setFld _ _ _ _ (by decide), satAdd]
  exact Nat.mod_eq_of_lt (Nat.lt_of_le_of_lt (Nat.min_le_left ..) (by decide))

theorem planChipWrite_sets {s : State} (aux : s.aux = true) (stage : s.stage = 3) (v : BitVec 64) :
    Sets s (exec (.planChipWrite v) s) (fun q => q = .ptrPlanChip ∨ q = .ptrLockViolations ∨ q = .ptrAon 371) fun t =>
      t.fld .ptrPlanChip F.ptrPlanChip_PLAN_GEN = F.ptrPlanChip_PLAN_GEN.get v ∧
      (∀ f ∈ Reg.ptrPlanChip.fields, f.acc = .rwl → f.get (t.rd .ptrPlanChip) = f.get (s.rd .ptrPlanChip)) ∧
      ((∀ f ∈ Reg.ptrPlanChip.fields, f.acc = .rwl → f.get v = f.get (s.rd .ptrPlanChip)) →
        t.rd .ptrLockViolations = s.rd .ptrLockViolations) ∧
      ((∃ f ∈ Reg.ptrPlanChip.fields, f.acc = .rwl ∧ f.get v ≠ f.get (s.rd .ptrPlanChip)) →
        t.fld .ptrLockViolations F.ptrLockViolations_COUNT =
          min (2 ^ 48 - 1) (s.fld .ptrLockViolations F.ptrLockViolations_COUNT + 1)) := by
  have kept := planKept_frame s v
  have flds := planKept_flds s v
  have gen : (s.planKept v).fld .ptrPlanChip F.ptrPlanChip_PLAN_GEN = F.ptrPlanChip_PLAN_GEN.get v :=
    (flds F.ptrPlanChip_PLAN_GEN (by simp [Reg.fields])).trans (if_neg (by decide))
  have locked : ∀ f ∈ Reg.ptrPlanChip.fields, f.acc = .rwl → f.get ((s.planKept v).rd .ptrPlanChip) = f.get (s.rd .ptrPlanChip) :=
    fun f hf acc => (flds f hf).trans (if_pos acc)
  have count := kept.regs .ptrLockViolations (by simp)
  rw [planChipWrite_locked aux stage]
  generalize s.planKept v = u at kept gen locked count
  split
  · next same =>
    refine RegFrame.sets (kept.mono fun _ => .inl) ⟨gen, locked, fun _ => count, ?_⟩
    rintro ⟨f, hf, acc, ne⟩
    exact absurd ((planLocked_iff _ _).mp same f hf acc) ne
  · next differ =>
    have violated := lockViolated_frame u
    have plan := violated.regs .ptrPlanChip (by simp)
    refine RegFrame.sets (kept.or violated) ⟨(State.fld_congr _ plan).trans gen, ?_, fun same => ?_, fun _ => ?_⟩
    · rw [plan]; exact locked
    · exact absurd ((planLocked_iff _ _).mpr same) differ
    · rw [lockViolated_count, State.fld_congr _ count]

/-- Settles O45: the exchange of identities, the outcomes without one, and the writes of the plan, each by its command. -/
theorem discoveryAndPlanWrites : Obligations.DiscoveryAndPlanWrites := by
  unfold Obligations.DiscoveryAndPlanWrites
  refine ⟨fun s p lt up => ?_, fun s p v aux => ?_⟩
  · dsimp only
    refine ⟨identitySend_silent, identitySend_leaves up, fun link cls op => ⟨fun bad => ?_, fun good => ?_⟩,
      fun link none new => ?_, discoverySilent_heard, fun training released => ?_, discoveryMissing_other⟩
    · exact ⟨_, identityReceive_bad up link cls op bad, (takenAt_identity s p op).2.1⟩
    · exact identityReceive_leaves up link cls op good
    · exact ⟨_, discoverySilent_ends up link none new, outcome_leaves s p (by decide) (by decide) (by decide)⟩
    · have cause : (if s.flag (.ptrPlanPeer p) F.ptrPlanPeer_EXPECT then 10 else 11) < 16 := by split <;> decide
      exact ⟨_, discoveryMissing_ends up training released, outcome_leaves s p (by decide) (by decide) cause⟩
  · dsimp only
    refine ⟨fun idle => ?_, fun b identity up link old => ?_, planChipWrite_ignored v aux, fun stage ok place => ?_,
      fun stage => planChipWrite_sets aux stage v⟩
    · rw [planPeerWrite_idle p v aux idle]
      exact (regWrite_frame s _ v).sets (regWrite_takes s (planPeer_free p) v)
    · rw [planPeerWrite_again p v aux identity up link old]
      have done := evaluate_evaluated (s.regWrite (.ptrPlanPeer p) v) p b
      refine ⟨_, rfl, ?_, done.outcome, done.cause⟩
      rw [done.regs (.ptrPlanPeer p) (by simp [evalReg, outcomeReg, bookReg, stageReg, Reg.domain])]
      exact regWrite_takes s (planPeer_free p) v
    · rw [planChipWrite_taken v aux stage ok place]
      have frame := regWrite_frame s .ptrPlanChip v
      have takes := regWrite_takes s planChip_free v
      have rest : s.regWrite .ptrPlanChip v = { s with regs := (s.regWrite .ptrPlanChip v).regs } := rfl
      generalize s.regWrite .ptrPlanChip v = u at frame takes rest
      refine ⟨_, rfl, ?_, fun r _ n => frame.regs r n, takes, rfl⟩
      rw [rest]
end Sys2Proof
end

section
/-!
PROOFS of the family 01_architecture: writes of the routing tables, plans and groups.
-/
namespace Sys2Proof

open Machine

/-! ### Routing tables and plans (R23, R24, R254, R262) -/

/-- What a write that is taken does: each field of its register takes what its access code says, and no other register changes (R8). -/
theorem regWrite_stores (s : State) (r : Reg) (x : BitVec 64) :
    Sets s (.next (s.regWrite r x)) (fun q => q = r) fun t => ∀ f ∈ r.fields, f.get (t.rd r) = fieldAfter f (s.rd r) x :=
  (regWrite_frame s r x).sets (State.regWrite_flds s r x)

/-- SRC_EPOCH of the value written names a version that the value leaves VALID (R254). -/
def namesValid (v : BitVec 64) : Prop :=
  if F.soRtCtrl_SRC_EPOCH.get v = 0 then F.soRtCtrl_VALID0.get v ≠ 0 else F.soRtCtrl_VALID1.get v ≠ 0

theorem rtCtrlWrite_named (s : State) {v : BitVec 64} (h : namesValid v) : s.rtCtrlWrite v = s.regWrite .soRtCtrl v := by
  unfold namesValid at h
  split at h <;> simp_all [State.rtCtrlWrite]

theorem rtCtrlWrite_unnamed (s : State) {v : BitVec 64} (h : ¬ namesValid v) : s.rtCtrlWrite v = s := by
  unfold namesValid at h
  split at h <;> simp_all [State.rtCtrlWrite]

theorem groupRole_iff (r : Nat) : groupRole r = true ↔ r = 1 ∨ r = 3 ∨ r = 4 ∨ r = 5 := by simp [groupRole, or_assoc]

/-- A property of the four axes, by their numbers. -/
theorem forall_axes (p : Nat → Prop) : (∀ a ∈ [0, 1, 2, 3], p a) ↔ ∀ i : Fin 4, p i.val := by
  simp [Fin.forall_fin_succ]

/-- What R23 asks of a plan, axis by axis. -/
theorem planOk_iff (v : Nat) : planOk v = true ↔
    (∀ i : Fin 4, bitsOf v (16 * i.val) 3 ≤ 5) ∧
    (∀ i j : Fin 4, i ≠ j → bitsOf v (16 * i.val) 3 ≠ 0 → bitsOf v (16 * i.val) 3 ≠ bitsOf v (16 * j.val) 3) ∧
    (∀ i : Fin 4, bitsOf v (16 * i.val) 3 = 0 → bitsOf v (16 * i.val + 5) 4 = 0) ∧
    bitsOf v 5 4 < 8 ∧ bitsOf v 21 4 < 8 ∧
    ∀ i j : Fin 4, i ≠ j → groupRole (bitsOf v (16 * i.val) 3) = true → groupRole (bitsOf v (16 * j.val) 3) = true →
      bitsOf v (16 * i.val + 3) 2 ≠ bitsOf v (16 * j.val + 3) 2 := by
  simp only [planOk, Bool.and_eq_true, List.all_eq_true, forall_axes, decide_eq_true_eq, Bool.or_eq_true, Bool.not_eq_true',
    Fin.val_inj, or_iff_not_imp_left, and_assoc]
  simp [and_assoc]

theorem axisPlanWrite_taken (s : State) {c : Fin 64} {v : BitVec 64} (new : c ∉ s.sampled) (ok : planOk v.toNat = true) :
    s.axisPlanWrite c v = s.regWrite (.ceAxisPlan c) v := by simp [State.axisPlanWrite, new, ok]

theorem axisPlanWrite_ignored (s : State) {c : Fin 64} {v : BitVec 64} (h : c ∈ s.sampled ∨ planOk v.toNat = false) :
    s.axisPlanWrite c v = s := by
  rw [State.axisPlanWrite, if_pos]
  simpa using h

/-! ### A group becomes VALID (R264 to R266) -/

theorem groupSet_taken (s : State) {c : Fin 64} {g : Fin 4} {v : BitVec 64} (on : s.globalOn = true) (new : s.grpValid c g = false)
    (ok : s.groupOk c g v = true) : s.groupSet c g v = s.regWrite (.ceGrpCtrl c g) (v ||| 1) := by simp [State.groupSet, on, new, ok]

theorem groupSet_ignored (s : State) {c : Fin 64} {g : Fin 4} {v : BitVec 64}
    (h : s.globalOn = false ∨ s.grpValid c g = true ∨ s.groupOk c g v = false) : s.groupSet c g v = s := by
  rw [State.groupSet, if_pos]
  simpa [or_assoc] using h

/-! #### Members are distinct where dropping duplicates drops none -/

theorem eraseDups_length_le {α : Type} [BEq α] [LawfulBEq α] : (l : List α) → l.eraseDups.length ≤ l.length
  | [] => by simp
  | a :: as => by
    have shorter : (as.filter fun b => !b == a).length ≤ as.length := List.length_filter_le ..
    have := eraseDups_length_le (as.filter fun b => !b == a)
    rw [List.eraseDups_cons, List.length_cons, List.length_cons]
    omega
termination_by l => l.length
decreasing_by simp only [List.length_cons]; omega

/-- Dropping duplicates leaves a list's length only where it has none. -/
theorem eraseDups_length_eq_iff {α : Type} [BEq α] [LawfulBEq α] (l : List α) : l.eraseDups.length = l.length ↔ l.Nodup := by
  induction l with
  | nil => simp
  | cons a as ih =>
    have dropped := eraseDups_length_le (as.filter fun b => !b == a)
    rw [List.eraseDups_cons, List.length_cons, List.length_cons, Nat.add_right_cancel_iff, List.nodup_cons]
    by_cases h : a ∈ as
    · have shorter : (as.filter fun b => !b == a).length < as.length := List.length_filter_lt_length_iff_exists.mpr ⟨a, h, by simp⟩
      simp only [h, not_true_eq_false, false_and, iff_false]
      omega
    · have same : (as.filter fun b => !b == a) = as := List.filter_eq_self.mpr fun b hb => by
        simpa using fun e : b = a => h (e ▸ hb)
      rw [same, ih]
      simp [h]

theorem membersDistinct_iff (s : State) (c : Fin 64) (g : Fin 4) (L : Nat) :
    s.membersDistinct c g L = true ↔ ∀ i j, i < j → j < L → s.member c g i ≠ s.member c g j := by
  rw [State.membersDistinct, decide_eq_true_eq, eraseDups_length_eq_iff, List.Nodup, List.pairwise_map, List.pairwise_iff_getElem]
  simp only [List.length_range, List.getElem_range]
  exact ⟨fun h i j hij hj => h i j (by omega) hj hij, fun h i j _ hj hij => h i j hij hj⟩

/-- A ring runs through its members in order, from each to the next one step along the axis `a` (R266). -/
def ringOk (s : State) (c : Fin 64) (g : Fin 4) (v : BitVec 64) (a : Fin 4) : Prop :=
  s.rtLen (epochVer s.srcEpoch) a = s.grpLen c g ∧ ∀ q, q < s.grpLen c g →
    s.member c g q = withCoord s.chip a (coord (s.member c g q) a) ∧
    coord (s.member c g ((q + 1) % s.grpLen c g)) a % s.grpLen c g =
      (if F.ceGrpCtrl_DIR.get v = 0 then coord (s.member c g q) a + 1 else coord (s.member c g q) a + s.grpLen c g - 1) % s.grpLen c g

/-- A tree has at most three children, and a parent on a port of its own, or is the root (R266). -/
def treeOk (s : State) (c : Fin 64) (g : Fin 4) : Prop :=
  (s.grpChildren c g).length ≤ 3 ∧ (s.flag (.ceGrpTree c g) F.ceGrpTree_ROOT = false →
    4 ≤ s.fld (.ceGrpTree c g) F.ceGrpTree_PARENT_PORT ∧
      ∀ q ∈ s.grpChildren c g, q.val ≠ s.fld (.ceGrpTree c g) F.ceGrpTree_PARENT_PORT)

/-- What R266 asks of a group whose axis is `a`. -/
theorem groupOk_iff (s : State) {c : Fin 64} {g : Fin 4} (v : BitVec 64) {a : Fin 4} (axis : s.grpAxis c g = some a) :
    s.groupOk c g v = true ↔
      F.ceGrpCtrl_POS.get v < s.grpLen c g ∧ s.member c g (F.ceGrpCtrl_POS.get v) = s.chip ∧
      (∀ i j, i < j → j < s.grpLen c g → s.member c g i ≠ s.member c g j) ∧
      s.rtShape (epochVer s.srcEpoch) a = (if F.ceGrpCtrl_SHAPE.get v = 0 then 0 else 2) ∧
      (F.ceGrpCtrl_SHAPE.get v = 0 → ringOk s c g v a) ∧ (F.ceGrpCtrl_SHAPE.get v ≠ 0 → treeOk s c g) := by
  have len : s.grpLen c g = s.planLen c a := by simp [State.grpLen, axis]
  rw [len, ← membersDistinct_iff, State.groupOk]
  simp only [axis, ringOk, treeOk, len]
  by_cases ring : F.ceGrpCtrl_SHAPE.get v = 0
  · simp [ring, forall_and, and_assoc]
  · cases root : s.flag (.ceGrpTree c g) F.ceGrpTree_ROOT <;> simp [ring, and_assoc]
    tauto
/-- A group that may become VALID has an axis, and keeps to R266 on it. -/
theorem groupOk_parts (s : State) {c : Fin 64} {g : Fin 4} (v : BitVec 64) (ok : s.groupOk c g v = true) :
    ∃ a, s.grpAxis c g = some a ∧
      F.ceGrpCtrl_POS.get v < s.grpLen c g ∧ s.member c g (F.ceGrpCtrl_POS.get v) = s.chip ∧
      (∀ i j, i < j → j < s.grpLen c g → s.member c g i ≠ s.member c g j) ∧
      s.rtShape (epochVer s.srcEpoch) a = (if F.ceGrpCtrl_SHAPE.get v = 0 then 0 else 2) ∧
      (F.ceGrpCtrl_SHAPE.get v = 0 → ringOk s c g v a) ∧ (F.ceGrpCtrl_SHAPE.get v ≠ 0 → treeOk s c g) := by
  cases axis : s.grpAxis c g with
  | none => simp [State.groupOk, axis] at ok
  | some a => exact ⟨a, rfl, (groupOk_iff s v axis).mp ok⟩

/-! ### A group leaves (R266, R280, R296) -/

theorem pumpPost_empty {s : State} (h : s.postQ = []) : s.pumpPost = s := by simp [State.pumpPost, h]

/-- The postmarks of letters that are discarded with no receipt sent for them are kept (R280, R321). -/
theorem neverPlaced_all (xs : List Staged) (s : State) : xs.foldl (fun s x => s.neverPlaced x) s =
    { s with unplaced := ((xs.filter fun x => !x.receipted).map fun x =>
        (streamOf x.letter, x.letter.postmark)).reverse ++ s.unplaced } := by
  induction xs generalizing s with
  | nil => rfl
  | cons x xs ih =>
    rw [List.foldl_cons, ih]
    cases receipted : x.receipted <;> simp [State.neverPlaced, receipted]

/-- A staged letter of a group. -/
def stagedFor (c : Fin 64) (g : Fin 4) (x : Staged) : Bool := decide (x.ctx = c) && decide ((collTgt x.letter).grp = g)

theorem stagedFor_iff {c : Fin 64} {g : Fin 4} {x : Staged} : stagedFor c g x = true ↔ x.ctx = c ∧ (collTgt x.letter).grp = g := by
  simp [stagedFor]

/-- The group's registers as it leaves. -/
def Machine.State.groupQuieted (s : State) (c : Fin 64) (g : Fin 4) (v : BitVec 64) : State :=
  (s.regWrite (.ceGrpCtrl c g) (v &&& ~~~(1 : BitVec 64))).grpQuiet c g

theorem groupQuieted_frame (s : State) (c : Fin 64) (g : Fin 4) (v : BitVec 64) :
    RegFrame (fun r => r = .ceGrpCtrl c g ∨ r = .ceGrpStatus c g) s (s.groupQuieted c g v) :=
  (regWrite_frame s _ _).or (setFlds_frame _ _ _)

/-- The fields that a group's exit returns to 0 (R296). -/
def quietFields : List (Fld × Nat) :=
  [(F.ceGrpStatus_STATE, 0), (F.ceGrpStatus_MISMATCH, 0), (F.ceGrpStatus_FENCED_PEER, 0), (F.ceGrpStatus_WAIT_ON, 0)]

/-- Bit 0 of a value of which it has been masked out. -/
theorem valid_masked (v : BitVec 64) : F.ceGrpCtrl_VALID.get (v &&& ~~~(1 : BitVec 64)) = 0 := by
  have even : (v &&& ~~~(1 : BitVec 64)).toNat.testBit 0 = false := by
    rw [BitVec.testBit_toNat, BitVec.getLsbD_and, BitVec.getLsbD_not]
    simp
  rw [Nat.testBit_zero, decide_eq_false_iff_not] at even
  show _ / 2 ^ 0 % 2 ^ 1 = 0
  omega

theorem groupQuieted_invalid (s : State) (c : Fin 64) (g : Fin 4) (v : BitVec 64) : (s.groupQuieted c g v).grpValid c g = false := by
  have written := State.regWrite_flds s (.ceGrpCtrl c g) (v &&& ~~~(1 : BitVec 64)) F.ceGrpCtrl_VALID (by simp [Reg.fields])
  have kept := (setFlds_frame (s.regWrite (.ceGrpCtrl c g) (v &&& ~~~(1 : BitVec 64))) (.ceGrpStatus c g) quietFields).fld
    (.ceGrpCtrl c g) (by simp) F.ceGrpCtrl_VALID
  rw [fieldAfter_free (.inl rfl) rfl, valid_masked] at written
  exact decide_eq_false (not_not.mpr (kept.trans written))

theorem groupQuieted_status (s : State) (c : Fin 64) (g : Fin 4) (v : BitVec 64) :
    (s.groupQuieted c g v).grpState c g = 0 ∧ (s.groupQuieted c g v).fld (.ceGrpStatus c g) F.ceGrpStatus_MISMATCH = 0 ∧
      (s.groupQuieted c g v).fld (.ceGrpStatus c g) F.ceGrpStatus_FENCED_PEER = 0 ∧
      (s.groupQuieted c g v).fld (.ceGrpStatus c g) F.ceGrpStatus_WAIT_ON = 0 := by
  have reads : ∀ (f : Fld) (before after : List (Fld × Nat)), quietFields = before ++ (f, 0) :: after → f.lo + f.w ≤ 64 →
      (after.all fun e => f.apart e.1) = true → (s.groupQuieted c g v).fld (.ceGrpStatus c g) f = 0 :=
    fun f before after e fits apart => by
    have put := Fld.get_puts fits 0 before after apart ((s.regWrite (.ceGrpCtrl c g) (v &&& ~~~(1 : BitVec 64))).rd (.ceGrpStatus c g))
    rw [← e, Nat.zero_mod] at put
    rw [State.fld, State.groupQuieted, State.grpQuiet, State.setFlds, State.rd_wr_same]
    exact put
  exact ⟨reads _ [] _ rfl (by decide) (by decide), reads _ [_] _ rfl (by decide) (by decide),
    reads _ [_, _] _ rfl (by decide) (by decide),
    reads _ [_, _, _] _ rfl (by decide) (by decide)⟩

theorem groupClear_stays (s : State) {c : Fin 64} {g : Fin 4} (v : BitVec 64) (valid : s.grpValid c g = true) (found : s.grpState c g ≠ 2)
    (busy : ∃ o ∈ s.collOps, o.ctx = c ∧ o.grp = g) : s.groupClear c g v = s := by
  rw [State.groupClear, if_pos]
  simpa [valid, found] using busy

theorem groupClear_leaves (s : State) {c : Fin 64} {g : Fin 4} (v : BitVec 64)
    (free : s.grpValid c g = false ∨ s.grpState c g = 2 ∨ ∀ o ∈ s.collOps, o.ctx = c → o.grp ≠ g) (post : s.postQ = []) :
    s.groupClear c g v = { s.groupQuieted c g v with
      unplaced := (((s.collStage.filter (stagedFor c g)).filter fun x => !x.receipted).map fun x =>
        (streamOf x.letter, x.letter.postmark)).reverse ++ s.unplaced
      collStage := s.collStage.filter fun x => !stagedFor c g x } := by
  rw [State.groupClear, if_neg]
  · dsimp only
    rw [neverPlaced_all]
    exact pumpPost_empty post
  · simp only [Bool.and_eq_true, decide_eq_true_eq, List.any_eq_true, not_and, not_exists]
    rintro ⟨valid, found⟩ o mem ctx grp
    rcases free with invalid | lost | idle
    · simp [valid] at invalid
    · exact found lost
    · exact idle o mem ctx grp

/-- What a group's exit leaves (R296). -/
theorem groupClear_effect (s : State) {c : Fin 64} {g : Fin 4} (v : BitVec 64)
    (free : s.grpValid c g = false ∨ s.grpState c g = 2 ∨ ∀ o ∈ s.collOps, o.ctx = c → o.grp ≠ g) (post : s.postQ = []) :
    s.groupClear c g v = { s with
        regs := (s.groupClear c g v).regs, collStage := (s.groupClear c g v).collStage, unplaced := (s.groupClear c g v).unplaced } ∧
      (∀ x ∈ s.collStage, x.ctx = c ∧ (collTgt x.letter).grp = g → x.receipted = false →
        (streamOf x.letter, x.letter.postmark) ∈ (s.groupClear c g v).unplaced) ∧
      ∀ x, x ∈ (s.groupClear c g v).collStage ↔ x ∈ s.collStage ∧ ¬ (x.ctx = c ∧ (collTgt x.letter).grp = g) := by
  rw [groupClear_leaves s v free post]
  refine ⟨rfl, fun x staged mine new => ?_, fun x => ?_⟩
  · refine List.mem_append_left _ (List.mem_reverse.mpr (List.mem_map.mpr ⟨x, ?_, rfl⟩))
    simp [staged, stagedFor_iff.mpr mine, new]
  · simp [← stagedFor_iff]

/-! ### The commands, while the die is out of reset -/

section
variable {s : State} (up : s.dieUp = true)
include up

theorem srcEpochWrite_up (v : BitVec 64) : exec (.srcEpochWrite v) s = .next (s.rtCtrlWrite v) := by
  simp only [exec, execSrcEpochWrite, up, if_true]

theorem rtAxisWrite_up (ver : Fin 2) (a : Fin 4) (v : BitVec 64) : exec (.rtAxisWrite ver a v) s = .next (s.rtAxisWrite ver a v) := by
  simp only [exec, execRtAxisWrite, up, if_true]

theorem axisPlanWrite_up (c : Fin 64) (v : BitVec 64) : exec (.axisPlanWrite c v) s = .next (s.axisPlanWrite c v) := by
  simp only [exec, execAxisPlanWrite, up, if_true]

theorem groupValidSet_up (c : Fin 64) (g : Fin 4) (v : BitVec 64) : exec (.groupValidSet c g v) s = .next (s.groupSet c g v) := by
  simp only [exec, execGroupValidSet, up, if_true]

theorem groupValidClear_up (c : Fin 64) (g : Fin 4) (v : BitVec 64) : exec (.groupValidClear c g v) s = .next (s.groupClear c g v) := by
  simp only [exec, execGroupValidClear, up, if_true]

end

/-- Settles O50: what each write is judged by is said once of its function, and the group's exit by its registers and its staged letters. -/
theorem routingTablesAndGroups : Obligations.RoutingTablesAndGroups := by
  unfold Obligations.RoutingTablesAndGroups
  intro s ver a c g v up
  dsimp only
  simp only [srcEpochWrite_up up, rtAxisWrite_up up, axisPlanWrite_up up, groupValidSet_up up, groupValidClear_up up, ← groupRole_iff]
  refine ⟨fun named => ?_, fun unnamed => ?_, fun valid => ?_, fun invalid => ?_, fun refused => ?_, fun new planned => ?_,
    fun on new ok => ?_, fun refused => ?_, fun valid found busy => ?_, fun free post => ?_⟩
  · rw [rtCtrlWrite_named s named]; exact regWrite_stores ..
  · rw [rtCtrlWrite_unnamed s unnamed]
  · rw [State.rtAxisWrite, if_pos valid]
  · rw [State.rtAxisWrite, if_neg (by simp [invalid])]; exact regWrite_stores ..
  · rw [axisPlanWrite_ignored s]
    exact refused.imp id fun bad => Bool.eq_false_iff.mpr fun ok => bad ((planOk_iff _).mp ok)
  · rw [axisPlanWrite_taken s new ((planOk_iff _).mpr planned)]; exact regWrite_stores ..
  · rw [groupSet_taken s on new ok]; exact regWrite_stores ..
  · rw [groupSet_ignored]
    rcases refused with off | valid | refused
    · exact .inl off
    · exact .inr (.inl valid)
    · refine .inr (.inr (Bool.eq_false_iff.mpr fun ok => ?_))
      obtain ⟨a, axis, place, self, distinct, shape, ring, tree⟩ := groupOk_parts s v ok
      rcases refused with none | short | other | ⟨i, j, hij, hj, same⟩ | ⟨x, hx, broken⟩ | ⟨isTree, broken⟩ | bad
      · simp [axis] at none
      · exact absurd place (Nat.not_lt.mpr short)
      · exact other self
      · exact distinct i j hij hj same
      · obtain rfl : a = x := Option.some.inj (axis.symm.trans hx)
        rcases broken with wrong | ⟨isRing, wrong | ⟨q, hq, wrong | wrong⟩⟩
        · exact wrong shape
        · exact wrong (ring isRing).1
        · exact wrong ((ring isRing).2 q hq).1
        · exact wrong ((ring isRing).2 q hq).2
      · rcases broken with many | ⟨p, root, rfl, low | ⟨q, mem, same⟩⟩
        · exact absurd (tree isTree).1 (Nat.not_le.mpr many)
        · exact absurd ((tree isTree).2 root).1 (Nat.not_le.mpr low)
        · exact ((tree isTree).2 root).2 q mem same
      · simp [bad] at ok
  · rw [groupClear_stays s v valid found busy]
  · obtain ⟨rest, kept, staged⟩ := groupClear_effect s v free post
    have rd : ∀ r, (s.groupClear c g v).rd r = (s.groupQuieted c g v).rd r := fun r => by rw [groupClear_leaves s v free post]; rfl
    obtain ⟨state, mismatch, fenced, waitOn⟩ := groupQuieted_status s c g v
    refine ⟨_, rfl, rest, fun x staged mine => kept x staged mine, fun r _ other => ?_, ?_, ?_, ?_, ?_, ?_, staged⟩
    · rw [rd]; exact (groupQuieted_frame s c g v).regs r other
    · exact (State.flag_congr _ (rd _)).trans (groupQuieted_invalid s c g v)
    · exact (State.fld_congr _ (rd _)).trans state
    · exact (State.fld_congr _ (rd _)).trans mismatch
    · exact (State.fld_congr _ (rd _)).trans fenced
    · exact (State.fld_congr _ (rd _)).trans waitOn

end Sys2Proof
end

section
/-!
PROOFS of the family 01_architecture: what the collective engines, the post and translation leave of the stalls.
-/
namespace Sys2Proof

open Machine

/-! ### Operations that leave the stalls -/

theorem foldl_stalls {α : Type} (f : State → α → State) (h : ∀ t x, (f t x).stalls = t.stalls) (xs : List α) (s : State) :
    (xs.foldl f s).stalls = s.stalls := by
  induction xs generalizing s with
  | nil => rfl
  | cons x xs ih => exact (ih _).trans (h s x)

theorem foldl_stalls_fst {α β : Type} (f : State × β → α → State × β) (h : ∀ p x, (f p x).1.stalls = p.1.stalls) (xs : List α)
    (p : State × β) : (xs.foldl f p).1.stalls = p.1.stalls := by
  induction xs generalizing p with
  | nil => rfl
  | cons x xs ih => exact (ih _).trans (h p x)

theorem Traced.stalls {s t : State} (h : Traced s t) : t.stalls = s.stalls := by rw [h.rest]

namespace Machine.State

@[simp] theorem bump_stalls (s : State) (r : Reg) (n : Nat) : (s.bump r n).stalls = s.stalls := by rw [(bump_frame s r n).rest]

@[simp] theorem aonAdd_stalls (s : State) (i n : Nat) : (s.aonAdd i n).stalls = s.stalls := by rw [aonAdd_eq]

/-! #### Memory (R16, R183, R190, R282) -/

@[simp] theorem acting_stalls {α : Type} (s : State) (x : Actor) (u : Uses) (f : State → State × α)
    (h : ∀ t, (f t).1.stalls = t.stalls) : (s.acting x u f).1.stalls = s.stalls := by
  unfold State.acting
  split
  · exact h s
  · exact h _

@[simp] theorem scope_stalls {α : Type} (s : State) (f : State → State × α) (h : ∀ t, (f t).1.stalls = t.stalls) :
    (s.scope f).1.stalls = s.stalls := by
  unfold State.scope
  split
  · exact h s
  · exact h _

@[simp] theorem readMem_stalls (s : State) (as : List Nat) : (s.readMem as).1.stalls = s.stalls := (readMem_access s as).stalls

@[simp] theorem readGuarded_stalls (s : State) (as : List Nat) : (s.readGuarded as).1.stalls = s.stalls := readMem_stalls ..

@[simp] theorem writeMem_stalls (s : State) (ws : List (Nat × MByte)) : (s.writeMem ws).stalls = s.stalls := by
  obtain ⟨t, access, stalls, _⟩ := writeMem_stores s ws
  exact stalls.trans access.stalls

@[simp] theorem writeGuarded_stalls (s : State) (ws : List (Nat × MByte)) : (s.writeGuarded ws).stalls = s.stalls :=
  (writeGuarded_stores s ws []).1

@[simp] theorem engineWrite_stalls (s : State) (a : Nat) (bs : List MByte) : (s.engineWrite a bs).stalls = s.stalls := by
  simp [State.engineWrite]

@[simp] theorem stageIn_stalls (s : State) (f : Frame) (lt : Letter) : (s.stageIn f lt).stalls = s.stalls := engineWrite_stalls ..

/-! #### Translation (R182 to R187) -/

@[simp] theorem pte_stalls (s : State) (a : Nat) : (s.pte a).1.stalls = s.stalls := readMem_stalls ..

/-- A case distinction between answers with the same stalls. -/
theorem ite_fst_stalls {α : Type} {s : State} {c : Prop} [Decidable c] {p q : State × α} (hp : p.1.stalls = s.stalls)
    (hq : q.1.stalls = s.stalls) : (if c then p else q).1.stalls = s.stalls := by
  split
  exacts [hp, hq]

@[simp] theorem walk_stalls (s : State) (root va : Nat) : (s.walk root va).1.stalls = s.stalls := by
  unfold State.walk
  dsimp only
  have h0 := s.aonAdd_stalls 162 1
  generalize s.aonAdd 162 1 = t at h0 ⊢
  have h1 := (t.pte_stalls (root + 8 * bitsOf va 39 9)).trans h0
  generalize t.pte (root + 8 * bitsOf va 39 9) = p at h1 ⊢
  have h2 := (p.1.pte_stalls (bitsOf p.2.1 12 36 * 2 ^ 12 + 8 * bitsOf va 30 9)).trans h1
  generalize p.1.pte (bitsOf p.2.1 12 36 * 2 ^ 12 + 8 * bitsOf va 30 9) = q at h2 ⊢
  have h3 := (q.1.pte_stalls (bitsOf q.2.1 12 36 * 2 ^ 12 + 8 * bitsOf va 21 9)).trans h2
  exact ite_fst_stalls h0 (ite_fst_stalls h1 (ite_fst_stalls h1 (ite_fst_stalls h1 (ite_fst_stalls h2 (ite_fst_stalls h2
    (ite_fst_stalls (ite_fst_stalls h2 h2) (ite_fst_stalls h2 (ite_fst_stalls h3 (ite_fst_stalls h3 (ite_fst_stalls h3 h3))))))))))

@[simp] theorem unitTakes_stalls (s : State) (source : Nat) (e : XlatEntry) : (s.unitTakes source e).stalls = s.stalls := by
  unfold State.unitTakes
  split <;> rfl

@[simp] theorem page_stalls (s : State) (c : Fin 64) (va source : Nat) : (s.page c va source).1.stalls = s.stalls := by
  simp only [State.page]
  split
  · rfl
  split
  · exact unitTakes_stalls ..
  have walked := s.walk_stalls (AMap.get (s.rd (.hstXlatRoot c)) c s.xlatRoot).toNat va
  split
  · rename_i t l h
    rw [h] at walked
    exact (unitTakes_stalls ..).trans walked
  · rename_i t e h
    rw [h] at walked
    exact walked

@[simp] theorem refuse_stalls (s : State) (c : Fin 64) (va cause : Nat) (write remote : Bool) (source : Nat) (page : Nat × Nat) :
    (s.refuse c va cause write remote source page).stalls = s.stalls := by
  simp only [State.refuse]
  split
  · rfl
  split
  · exact (log_access _ _ _ _ (by decide)).stalls.trans (bump_stalls ..)
  · exact bump_stalls ..

@[simp] theorem grantPage_stalls (s : State) (c : Fin 64) (va : Nat) (write remote : Bool) (source : Nat) :
    (s.grantPage c va write remote source).1.stalls = s.stalls := by
  have found := s.page_stalls c va source
  unfold State.grantPage
  split
  · rename_i t e h
    rw [h] at found
    exact (refuse_stalls ..).trans found
  · rename_i t l h
    rw [h] at found
    dsimp only
    split
    · exact (refuse_stalls ..).trans found
    split
    · exact (refuse_stalls ..).trans found
    · exact found

@[simp] theorem xlatAll_stalls (s : State) (c : Fin 64) (vas : List Nat) (write remote : Bool) (source : Nat) :
    (s.xlatAll c vas write remote source).1.stalls = s.stalls := by
  refine scope_stalls s _ fun t => ?_
  refine foldl_stalls_fst _ (fun p x => ?_) _ (t, [])
  exact grantPage_stalls ..

/-! #### Letters that are sent (R254, R316, R319) -/

@[simp] theorem emit_stalls (s : State) {unit : Fin 1024} (h : unit ≠ 0x3FF) (kind ctx data0 : Nat) (data1 : List Byte) :
    (s.emit unit kind ctx data0 data1).stalls = s.stalls := (emit_traced s kind ctx data0 data1 h).stalls

@[simp] theorem send_stalls (s : State) (lt : Letter) : (s.send lt).stalls = s.stalls := (send_forwarded s lt).calm.stalls

@[simp] theorem sendOn_stalls (s : State) (lt : Letter) (p : Fin 8) : (s.sendOn lt p).stalls = s.stalls :=
  ((traceHead_traced s _ true).forwarded.trans (toPort_forwarded ..)).calm.stalls

@[simp] theorem transmit_stalls (s : State) (o : Outstanding) : (s.transmit o).stalls = s.stalls := by
  unfold State.transmit
  split
  · exact sendOn_stalls ..
  · exact send_stalls ..

@[simp] theorem keep_stalls (s : State) (o : Outstanding) : (s.keep o).1.stalls = s.stalls := by
  unfold State.keep
  split
  · exact engineWrite_stalls ..
  split
  · exact stageIn_stalls ..
  · rfl

@[simp] theorem startPost_stalls (s : State) (o : Outstanding) : (s.startPost o).stalls = s.stalls :=
  (transmit_stalls _ _).trans (keep_stalls _ _)

@[simp] theorem pumpPost_stalls (s : State) : s.pumpPost.stalls = s.stalls := by
  refine foldl_stalls _ (fun t o => ?_) _ s
  split
  · split
    · exact startPost_stalls ..
    · rfl
  · rfl

@[simp] theorem post_stalls (s : State) (os : List Outstanding) : (s.post os).stalls = s.stalls := by
  unfold State.post
  split
  · rfl
  · exact pumpPost_stalls ..

@[simp] theorem receipt_stalls (s : State) (lt : Letter) (st : Status) (target : BitVec 64) : (s.receipt lt st target).stalls = s.stalls :=
  send_stalls ..

/-! #### Steps of a collective operation (R271 to R291) -/

@[simp] theorem setOp_stalls (s : State) (o : CollOp) : (s.setOp o).stalls = s.stalls := rfl

@[simp] theorem modOp_stalls (s : State) (id : Nat) (f : CollOp → CollOp) : (s.modOp id f).stalls = s.stalls := by
  unfold State.modOp
  split <;> rfl

@[simp] theorem collCount_stalls (s : State) (o : CollOp) (n : CollCount) : (s.collCount o n).stalls = s.stalls := by
  simp [State.collCount]

@[simp] theorem sourceRead_stalls (s : State) (id : Nat) (as : List (Option Nat)) : (s.sourceRead id as).1.stalls = s.stalls :=
  acting_stalls _ _ _ _ fun _ => readGuarded_stalls ..

@[simp] theorem collWrite_stalls (s : State) (as : List (Option Nat)) (bs : List MByte) : (s.collWrite as bs).stalls = s.stalls :=
  acting_stalls _ _ _ _ fun _ => writeGuarded_stalls ..

@[simp] theorem contrib_stalls (s : State) (o : CollOp) (start n : Nat) : (s.contrib o start n).1.stalls = s.stalls :=
  sourceRead_stalls ..

@[simp] theorem scaleContrib_stalls (s : State) (o : CollOp) (start n : Nat) : (s.scaleContrib o start n).1.stalls = s.stalls :=
  sourceRead_stalls ..

@[simp] theorem collPost_stalls (s : State) (o : CollOp) (it : CollItem) (c : Carrier) (dest : BitVec 14) (port : Fin 8) (vc : Fin 16)
    (fr : Option Frame) : (s.collPost o it c dest port vc fr).stalls = s.stalls := post_stalls ..

@[simp] theorem ringPost_stalls (s : State) (o : CollOp) (it : CollItem) (c : Carrier) (vc : Fin 16) (fr : Option Frame) :
    (s.ringPost o it c vc fr).stalls = s.stalls := collPost_stalls ..

@[simp] theorem treeUp_stalls (s : State) (o : CollOp) (it : CollItem) (c : Carrier) (fr : Option Frame) :
    (s.treeUp o it c fr).stalls = s.stalls := by
  unfold State.treeUp
  split
  · exact collPost_stalls ..
  · rfl

@[simp] theorem treeDown_stalls (s : State) (o : CollOp) (it : CollItem) (c : Carrier) (fr : Option Frame) :
    (s.treeDown o it c fr).stalls = s.stalls := foldl_stalls _ (fun _ _ => collPost_stalls ..) _ s

@[simp] theorem nanWritten_stalls (s : State) (cg : Fin 64 × Fin 4) (op : NanOp) (tag e : Nat) (c : Carrier) :
    (s.nanWritten cg op tag e c).stalls = s.stalls := by
  simp only [State.nanWritten, apply_ite State.stalls, bump_stalls, State.wr_stalls, State.setFld_stalls, State.setFlds_stalls, ite_self]

@[simp] theorem collResult_stalls (s : State) (o : CollOp) (it : CollItem) (c : Carrier) : (s.collResult o it c).stalls = s.stalls := by
  simp [State.collResult]

@[simp] theorem startCarrier_stalls (s : State) (o : CollOp) (it : CollItem) : (s.startCarrier o it).1.stalls = s.stalls := by
  simp [State.startCarrier]

@[simp] theorem startReduce_stalls (s : State) (id : Nat) : (s.startReduce id).stalls = s.stalls := by
  unfold State.startReduce
  split
  · rfl
  · exact foldl_stalls _ (fun t it => by simp) _ s

@[simp] theorem ringStart_stalls (s : State) (o : CollOp) : (s.ringStart o).stalls = s.stalls := by
  unfold State.ringStart
  dsimp only
  have scales : ∀ t : State, (if o.rounds then ((o.items 2).filter fun it => o.place it = 0).foldl (fun s it =>
        let (lo, n) := o.range it
        let (s, xs, p) := s.scaleContrib o lo n
        (s.modOp o.id fun o => o.mark [it]).ringPost o it (scaleCarrier xs p) 0 none) t else t).stalls = t.stalls := fun t => by
    split
    · exact foldl_stalls _ (fun _ _ => by simp) _ t
    · rfl
  have gathers : ∀ t : State, (if o.kind == .agath || o.kind == .gather then
      ((o.items 1).filter fun it => o.dist it = 0).foldl (fun s it =>
        let (lo, n) := o.range it
        let (s, own) := s.contrib o lo n
        let c : Carrier := { xs := own.xs, scales := own.scales, poison := own.poison }
        let c := c.gathered o.fmt o.pos
        let s := if o.kind == .agath then s.collResult o it c else s
        (s.modOp o.id fun o => o.mark [it]).ringPost o it c 0 none) t
    else t).stalls = t.stalls := fun t => by
    split
    · refine foldl_stalls _ (fun y it => ?_) _ t
      simp [apply_ite State.stalls]
    · rfl
  split
  · exact (startReduce_stalls ..).trans ((gathers _).trans (scales s))
  · exact (gathers _).trans (scales s)

@[simp] theorem ringReduce_stalls (s : State) (o : CollOp) (it : CollItem) (lt : Letter) (fr : Frame) :
    (s.ringReduce o it lt fr).stalls = s.stalls := by
  unfold State.ringReduce
  dsimp only
  split_ifs <;> simp

@[simp] theorem ringGather_stalls (s : State) (o : CollOp) (it : CollItem) (lt : Letter) (fr : Frame) :
    (s.ringGather o it lt fr).stalls = s.stalls := by
  unfold State.ringGather
  dsimp only
  split_ifs <;> simp

@[simp] theorem ringScale_stalls (s : State) (o : CollOp) (it : CollItem) (lt : Letter) (fr : Frame) :
    (s.ringScale o it lt fr).stalls = s.stalls := by
  unfold State.ringScale
  dsimp only
  split_ifs <;> simp

@[simp] theorem treeStep_stalls (s : State) (id : Nat) : (s.treeStep id).stalls = s.stalls := by
  unfold State.treeStep
  split
  · rfl
  rename_i o _
  dsimp only
  generalize rounds : (if o.rounds then o.items 2 else []).foldl _ s = t
  have kept : t.stalls = s.stalls := by
    rw [← rounds]
    refine foldl_stalls _ (fun y it => ?_) _ s
    split
    · split
      · rfl
      · split_ifs <;> simp
    · rfl
  split
  · exact kept
  · refine (foldl_stalls _ (fun y it => ?_) _ t).trans kept
    split
    · split
      · rfl
      · split_ifs <;> simp
    · rfl

@[simp] theorem treePartial_stalls (s : State) (o : CollOp) (it : CollItem) (child : Nat) (lt : Letter) (fr : Frame) :
    (s.treePartial o it child lt fr).stalls = s.stalls := by simp [State.treePartial]

@[simp] theorem treeDescend_stalls (s : State) (o : CollOp) (it : CollItem) (lt : Letter) (fr : Frame) :
    (s.treeDescend o it lt fr).stalls = s.stalls := by
  unfold State.treeDescend
  split <;> simp

@[simp] theorem a2aBlock_stalls (s : State) (o : CollOp) (q : Nat) : (s.a2aBlock o q).stalls = s.stalls := by simp [State.a2aBlock]

@[simp] theorem a2aStart_stalls (s : State) (o : CollOp) : (s.a2aStart o).stalls = s.stalls := by
  unfold State.a2aStart
  dsimp only
  exact (foldl_stalls _ (fun _ _ => a2aBlock_stalls ..) _ _).trans (by simp)

@[simp] theorem a2aIn_stalls (s : State) (o : CollOp) (it : CollItem) (lt : Letter) : (s.a2aIn o it lt).stalls = s.stalls := by
  simp [State.a2aIn]

/-! #### Letters taken from staging (R280, R288) -/

@[simp] theorem collMismatch_stalls (s : State) (c : Fin 64) (g : Fin 4) : (s.collMismatch c g).stalls = s.stalls := by
  simp [State.collMismatch]

@[simp] theorem neverPlaced_stalls (s : State) (g : Staged) : (s.neverPlaced g).stalls = s.stalls := by
  unfold State.neverPlaced
  split <;> rfl

@[simp] theorem collProcess_stalls (s : State) (o : CollOp) (lt : Letter) (fr : Frame) : (s.collProcess o lt fr).stalls = s.stalls := by
  simp only [State.collProcess]
  split
  · exact a2aIn_stalls ..
  split
  · split
    · exact treePartial_stalls ..
    · exact treeDescend_stalls ..
  split
  · exact ringReduce_stalls ..
  · exact ringGather_stalls ..
  · exact ringScale_stalls ..

theorem gatherIn_stalls (s : State) (g : Staged) : ∀ t ∈ s.gatherIn g, t.stalls = s.stalls := by
  intro t h
  unfold State.gatherIn at h
  dsimp only at h
  split at h
  · cases h
  split at h
  · obtain rfl := Option.some.inj h
    simp
  split at h
  · obtain rfl := Option.some.inj h
    simp
  · obtain rfl := Option.some.inj h
    simp

theorem collTry_stalls (s : State) (g : Staged) : ∀ t ∈ s.collTry g, t.stalls = s.stalls := by
  intro t h
  unfold State.collTry at h
  split at h
  · exact gatherIn_stalls s g t h
  split at h
  · cases h
  split at h
  · obtain rfl := Option.some.inj h
    simp
  split at h
  · cases h
  · obtain rfl := Option.some.inj h
    split <;> simp

@[simp] theorem pumpColl_stalls (s : State) : s.pumpColl.stalls = s.stalls := by
  refine (pumpPost_stalls _).trans (foldl_stalls _ (fun t g => ?_) _ s)
  split
  · rename_i u h
    exact collTry_stalls t g u h
  · rfl

/-! #### Operations start (R269, R284) -/

@[simp] theorem grpRefresh_stalls (s : State) (c : Fin 64) (g : Fin 4) : (s.grpRefresh c g).stalls = s.stalls := by
  unfold State.grpRefresh
  split <;> rfl

@[simp] theorem traceColl_stalls (s : State) (o : CollOp) (st : Nat) : (s.traceColl o st).stalls = s.stalls :=
  emit_stalls s (by decide) _ _ _ _

@[simp] theorem circDeliver_stalls (s : State) (c : Fin 64) (lt : Letter) (remote : Bool) :
    (s.circDeliver c lt remote).1.stalls = s.stalls :=
  ite_fst_stalls (xlatAll_stalls ..) ((bump_stalls ..).trans ((collWrite_stalls ..).trans (xlatAll_stalls ..)))

@[simp] theorem rescoped_stalls (s : State) (pages : List (Fin 64 × Nat × Nat)) (f : State → State)
    (h : ∀ t, (f t).stalls = t.stalls) : (s.rescoped pages f).stalls = s.stalls := h _

@[simp] theorem circBegin_stalls (s : State) (o : CollOp) : (s.circBegin o).stalls = s.stalls := by
  unfold State.circBegin
  split
  · rfl
  · dsimp only
    split <;> simp

@[simp] theorem opBegin_stalls (s : State) (o : CollOp) : (s.opBegin o).stalls = s.stalls := by
  unfold State.opBegin
  dsimp only
  rw [pumpColl_stalls]
  split
  · split <;> simp
  · simp
  · split <;> simp
  · split <;> simp
  · split <;> simp

end Machine.State

end Sys2Proof
end

section
/-!
PROOFS of the family 01_architecture: the ends of issued instructions.
-/
namespace Sys2Proof

open Machine

/-! ### The records in flight, by their places in the issue order (R128) -/

/-- The places in the issue order of a stall's records. -/
def seqsOf (s : State) (n : Fin 128) : List Nat := (s.stall n).flights.map (·.seq)

/-- From `s` to `t` no record has come or gone. -/
structure SameSeqs (s t : State) : Prop where
  seqs : ∀ n, seqsOf t n = seqsOf s n

theorem SameSeqs.refl (s : State) : SameSeqs s s := ⟨fun _ => rfl⟩

theorem SameSeqs.trans {s t u : State} (h : SameSeqs s t) (k : SameSeqs t u) : SameSeqs s u := ⟨fun n => (k.seqs n).trans (h.seqs n)⟩

theorem SameSeqs.of_stalls {s t : State} (h : t.stalls = s.stalls) : SameSeqs s t := ⟨fun n => by simp only [seqsOf, State.stall, h]⟩

/-- A record that has gone does not come back. -/
theorem SameSeqs.gone {s t : State} (h : SameSeqs s t) {n : Fin 128} {k : Nat} (g : k ∉ seqsOf s n) : k ∉ seqsOf t n := by
  rwa [h.seqs]

theorem SameSeqs.foldl {α : Type} (f : State → α → State) (h : ∀ t x, SameSeqs t (f t x)) (xs : List α) (s : State) :
    SameSeqs s (xs.foldl f s) := by
  induction xs generalizing s with
  | nil => exact .refl s
  | cons x xs ih => exact (h s x).trans (ih _)

theorem modStall_sameSeqs (s : State) (n : Fin 128) (f : Stall → Stall)
    (h : (f (s.stall n)).flights.map (·.seq) = (s.stall n).flights.map (·.seq)) : SameSeqs s (s.modStall n f) := by
  refine ⟨fun m => ?_⟩
  by_cases e : m = n
  · subst e
    simpa only [seqsOf, State.stall_modStall_same] using h
  · simp only [seqsOf, State.stall_modStall_other s f e]

namespace Machine.State

@[simp] theorem giveUp_stalls (s : State) (o : Outstanding) : (s.giveUp o).stalls = s.stalls := by
  unfold State.giveUp
  dsimp only
  split
  · rfl
  split <;> rfl

@[simp] theorem giveUpOwner_stalls (s : State) (w : Owner) : (s.giveUpOwner w).stalls = s.stalls :=
  foldl_stalls _ (fun _ _ => giveUp_stalls ..) _ s

/-- A record that takes a status keeps its place. -/
theorem failFlight_sameSeqs (s : State) (n : Fin 128) (seq : Nat) (st : Status) (pm : BitVec 32) :
    SameSeqs s (s.failFlight n seq st pm) := by
  unfold State.failFlight
  refine SameSeqs.trans (t := s.unqueue (.flight n seq)) (.of_stalls rfl) (modStall_sameSeqs _ _ _ ?_)
  rw [List.map_map]
  refine List.map_congr_left fun f _ => ?_
  simp only [Function.comp]
  split <;> rfl

theorem collDrop_sameSeqs (s : State) (o : CollOp) (st : Status) : SameSeqs s (s.collDrop o st) := by
  unfold State.collDrop
  refine .trans ?_ (.of_stalls (bump_stalls ..))
  refine .trans (.of_stalls ?_) (failFlight_sameSeqs ..)
  exact (traceColl_stalls ..).trans (giveUpOwner_stalls ..)

theorem startWaiting_sameSeqs (s : State) : SameSeqs s s.startWaiting := by
  refine (SameSeqs.foldl _ (fun t o => ?_) _ s).trans (.of_stalls (pumpPost_stalls _))
  split
  · exact collDrop_sameSeqs ..
  split
  · exact .of_stalls (opBegin_stalls ..)
  · exact .refl t

theorem collFinish_sameSeqs (s : State) (id : Nat) : SameSeqs s (s.collFinish id) := by
  unfold State.collFinish
  split
  · exact .refl s
  · refine .trans (.of_stalls ?_) (startWaiting_sameSeqs _)
    exact (grpRefresh_stalls ..).trans ((traceColl_stalls ..).trans (bump_stalls ..))

/-! ### What a retirement counts (R60, R92, R296) -/

@[simp] theorem watchBump_stalls (s : State) (t : Fin 16) (r : Reg) (n : Nat) : (s.watchBump t r n).stalls = s.stalls := by
  unfold State.watchBump
  split
  · rfl
  · exact bump_stalls ..

@[simp] theorem watchCount_stalls (s : State) (n : Fin 128) (i : MmaInfo) : (s.watchCount n i).stalls = s.stalls := by
  unfold State.watchCount
  dsimp only
  split
  · rfl
  split
  · exact watchBump_stalls ..
  · rfl

theorem countRetired_sameSeqs (s : State) (n : Fin 128) (f : Flight) : SameSeqs s (s.countRetired n f) := by
  unfold State.countRetired
  split
  · exact .refl s
  split
  · exact .of_stalls (by simp)
  · exact .of_stalls (by simp)
  · split
    · exact .of_stalls (bump_stalls ..)
    · exact .refl s
  · split
    · exact collFinish_sameSeqs ..
    · exact .of_stalls (bump_stalls ..)
  · exact .refl s

/-- The sample of the numerics watch takes its destination's format, and nothing else changes (R61). -/
theorem watchSettle_eq (s : State) (n : Fin 128) (d : Option (Fin 2 × Fmt × OvMode × Option Kind)) :
    s.watchSettle n d = { s with watches := (s.watchSettle n d).watches } := by
  unfold State.watchSettle
  split
  · rfl
  dsimp only
  split
  · split <;> rfl
  · rfl

end Machine.State

theorem tally_flights (t : Stall) (ten : Bool) (tc : CReg) : (t.tally ten tc).flights = t.flights := by
  unfold Stall.tally
  split <;> rfl

theorem retire_sameSeqs (s : State) (n : Fin 128) (k : Fin 4) (ten : Bool) (tc : CReg) (pc : BitVec 17) (st : Status) :
    SameSeqs s (s.retire n k ten tc pc st) := by
  refine ⟨fun m => ?_⟩
  have frame := retire_only s n k ten tc pc st (fun r => r = .stlSeqRetired n) noByte rfl (by simp) (by simp)
  by_cases e : m = n
  · subst e
    simp only [seqsOf, retire_stall, tally_flights]
  · simp only [seqsOf, frame.stalls m e]

theorem finishHalt_sameSeqs (s : State) (n : Fin 128) : SameSeqs s (s.finishHalt n) := by
  unfold State.finishHalt
  dsimp only
  split
  · split
    · exact (retire_sameSeqs ..).trans (modStall_sameSeqs _ _ _ rfl)
    · exact .refl s
  · exact .refl s

/-! ### The accesses of an instruction that ends (R16) -/

theorem racesEnd_eq (s : State) : s.racesEnd =
    { s with racing := s.racesEnd.racing, underway := s.racesEnd.underway, sourceWords := s.racesEnd.sourceWords } := by
  unfold State.racesEnd State.racesPerform
  dsimp only
  split <;> rfl

theorem racesEnd_stalls (s : State) : s.racesEnd.stalls = s.stalls := by rw [racesEnd_eq]

theorem racesEnd_rd (s : State) (r : Reg) : s.racesEnd.rd r = s.rd r := by rw [racesEnd_eq]; rfl

theorem racesEnd_mem (s : State) : s.racesEnd.mem = s.mem := by rw [racesEnd_eq]

theorem racesEnd_only (s : State) (n : Fin 128) (R : Reg → Prop) (W : Nat → Prop) : OnlyStall n R W s s.racesEnd where
  rest := by rw [racesEnd_eq]
  stalls m _ := by rw [State.stall, racesEnd_stalls]; rfl
  regs r _ _ := racesEnd_rd s r
  aon i _ _ := by rw [racesEnd_eq]
  out := .of_eq (by rw [racesEnd_eq])
  mem a _ _ := by rw [racesEnd_mem]
  races c hc := by
    obtain ⟨d, hd, e⟩ := racesEnd_words s c hc
    exact .inl ⟨d, hd, by rw [e]⟩
  top := Nat.le_of_eq (ringTop_congr (racesEnd_rd ..) (racesEnd_rd ..) (racesEnd_rd ..))

/-! ### The events that an instruction counts (R92) -/

/-- The counters of a stall's events. -/
def eventReg (n : Fin 128) (r : Reg) : Prop := ∃ e, r = StallEvent.reg n e

/-- The event that a register counts. -/
def eventOf : Reg → Option StallEvent
  | .stlCvtOverflow _ => some .cvtOverflow
  | .stlCvtUnderflow _ => some .cvtUnderflow
  | .stlCvtNanInt _ => some .cvtNanInt
  | .stlMxUnderflow _ => some .mxUnderflow
  | .stlMxClamp _ => some .mxClamp
  | .stlMmOverflow _ => some .mmOverflow
  | .stlMmUnderflow _ => some .mmUnderflow
  | .stlMmSpill _ => some .mmSpill
  | .stlMmWrap _ => some .mmWrap
  | .stbSramRsvd _ => some .reserved
  | .stlSeqCodewrite _ => some .codewrite
  | _ => none

theorem eventOf_reg (n : Fin 128) (e : StallEvent) : eventOf (e.reg n) = some e := by cases e <;> rfl

theorem eventReg_inj {n : Fin 128} {a b : StallEvent} : a.reg n = b.reg n ↔ a = b :=
  ⟨fun h => Option.some.inj ((eventOf_reg n a).symm.trans ((congrArg eventOf h).trans (eventOf_reg n b))), fun h => by rw [h]⟩

/-- A register that counts no event is no event's counter. -/
theorem not_eventReg (n : Fin 128) {r : Reg} (h : eventOf r = none) : ¬ eventReg n r := by
  rintro ⟨e, rfl⟩
  simp [eventOf_reg] at h

theorem eventReg_untraced (n : Fin 128) (e : StallEvent) : traceReg (e.reg n) = false := by cases e <;> rfl

@[simp] theorem count_stalls (s : State) (n : Fin 128) (cs : List (StallEvent × Nat)) : (s.count n cs).stalls = s.stalls :=
  foldl_stalls _ (fun _ _ => State.bump_stalls ..) cs s

theorem count_frame (s : State) (n : Fin 128) (cs : List (StallEvent × Nat)) : RegFrame (eventReg n) s (s.count n cs) := by
  induction cs generalizing s with
  | nil => exact .refl _ s
  | cons c cs ih => exact ((bump_frame s (c.1.reg n) c.2).mono fun r h => ⟨c.1, h⟩).trans (ih _)

theorem count_only (s : State) (n : Fin 128) (cs : List (StallEvent × Nat)) (R : Reg → Prop) (W : Nat → Prop)
    (h : ∀ r, eventReg n r → R r) (h1 : ¬ R .dbgTraceCtrl) (h2 : ¬ R .dbgTraceSpill) : OnlyStall n R W s (s.count n cs) := by
  induction cs generalizing s with
  | nil => exact .refl n R W s
  | cons c cs ih =>
    have other : ∀ r, eventOf r = none → c.1.reg n ≠ r := fun r hr e => not_eventReg n hr ⟨c.1, e.symm⟩
    exact OnlyStall.trans h1 h2 (bump_only s n R W c.2 (h _ ⟨c.1, rfl⟩) (other _ rfl) (other _ rfl) (other _ rfl) h1 h2) (ih _)

theorem count_counted (s : State) (n : Fin 128) (cs : List (StallEvent × Nat)) (e : StallEvent) :
    Counted s (s.count n cs) (e.reg n) ((cs.filter fun c => c.1 = e).map (·.2)).sum := by
  unfold Counted
  induction cs generalizing s with
  | nil =>
    have small : s.fld (e.reg n) F.COUNT < 2 ^ 48 := Fld.get_lt F.COUNT _
    simp only [State.count, List.foldl_nil, List.filter_nil, List.map_nil, List.sum_nil]
    omega
  | cons c cs ih =>
    have rest := ih (s.bump (c.1.reg n) c.2)
    rw [State.count, List.foldl_cons, ← State.count, rest]
    by_cases same : c.1 = e
    · rw [List.filter_cons_of_pos (by simpa using same), List.map_cons, List.sum_cons, ← same,
        bump_count _ _ _ (Fld.get_lt F.COUNT _)]
      omega
    · rw [List.filter_cons_of_neg (by simpa using same), (bump_frame s _ _).fld _ (fun h => same (eventReg_inj.mp h).symm)]

/-! ### Results that are undefined in value (R16) -/

namespace Machine

/-- The memory of an instruction with an undefined result, as it ends:
each word that it writes and no access has found performed settles. -/
def State.racesFreed (s : State) (n : Fin 128) (f : Flight) : State :=
  { s.racesSettle s.racing fun c => c.writes.any fun w => w.actor = f.actor n with raceNo := s.raceNo + 1 }

/-- Its stall: the vector register, the accumulator or the predicate that it has written is free. -/
def Stall.freedBy (t : Stall) (no : Nat) (f : Flight) : Stall :=
  match f.pWrite with
  | some w => (t.landFree no f.lands).setVP w.1 (BitVec.ofNat 256 (Config.raced no 1))
  | none => t.landFree no f.lands

/-- Its record: what it is about to write is free. -/
def Flight.freedAs (f : Flight) (no : Nat) : Flight :=
  { f with pWrite := f.pWrite.map fun w => (w.1, BitVec.ofNat 256 (Config.raced no 1))
           sWrites := f.sWrites.map fun w => (w.1, w.2.1, BitVec.ofNat 64 (Config.raced no (2 + w.1.val))) }

end Machine

theorem endFree_defined {s : State} {n : Fin 128} {f : Flight} (h : ¬ Undefined s n f) : s.endFree n f = (s, f) := by
  rw [State.endFree, if_pos]
  simpa [Undefined] using h

theorem endFree_undefined {s : State} {n : Fin 128} {f : Flight} (h : Undefined s n f) :
    s.endFree n f = ((s.racesFreed n f).modStall n fun t => t.freedBy s.raceNo f, f.freedAs s.raceNo) := by
  rw [State.endFree, if_neg (by simpa [Undefined] using h)]
  simp only [Flight.freedAs, Stall.freedBy, State.racesFreed]
  cases f.pWrite <;> rfl

/-- The bytes of the words that an instruction writes and no access has found performed. -/
def writesByte (s : State) (n : Fin 128) (f : Flight) (b : Nat) : Prop :=
  ∃ c ∈ s.racing, c.word ≤ b ∧ b < c.word + 8 ∧ ∃ w ∈ c.writes, w.actor = f.actor n

/-- Words that settle leave every byte outside them. -/
theorem read_settledWords {b : Nat} (cs : List Racing) (out : ∀ c ∈ cs, ¬ (c.word ≤ b ∧ b < c.word + 8)) (m : List Host.Cell) :
    Memory.read (cs.foldl (fun m c => (List.range 8).foldl (fun m k => Memory.write m (c.word + k) (c.final.1.getD k 0)) m) m) b =
      Memory.read m b := by
  induction cs generalizing m with
  | nil => rfl
  | cons c cs ih =>
    rw [List.foldl_cons, ih fun d hd => out d (List.mem_cons_of_mem _ hd)]
    refine Memory.read_writes_other (fun k => c.word + k) (fun k => c.final.1.getD k 0) (List.range 8) m fun k hk e => ?_
    have := List.mem_range.mp hk
    exact out c List.mem_cons_self (by omega)

theorem racesFreed_mem (s : State) (n : Fin 128) (f : Flight) {b : Nat} (h : ¬ writesByte s n f b) :
    Memory.read (s.racesFreed n f).mem b = Memory.read s.mem b := by
  refine read_settledWords _ (fun c hc inside => ?_) s.mem
  obtain ⟨mem, writes⟩ := List.mem_filter.mp hc
  obtain ⟨w, hw, actor⟩ := List.any_eq_true.mp writes
  exact h ⟨c, mem, inside.1, inside.2, w, hw, by simpa using actor⟩

theorem set_other {α : Type} {k : Nat} (v : Vector α k) {i j : Fin k} (x : α) (h : i ≠ j) : (v.set i x)[j] = v[j] :=
  Vector.getElem_set_ne i.isLt j.isLt fun e => h (Fin.ext e)

theorem landFree_eq (t : Stall) (no : Nat) (l : Option Landing) :
    t.landFree no l = { t with v := (t.landFree no l).v, acc := (t.landFree no l).acc } := by
  unfold Stall.landFree
  split <;> rfl

theorem landFree_v (t : Stall) (no : Nat) {l : Option Landing} {r : VReg} (h : l ≠ some (.vreg r)) : (t.landFree no l).v[r] = t.v[r] := by
  unfold Stall.landFree
  split
  · exact set_other _ _ fun e => h (by rw [e])
  all_goals rfl

theorem landFree_acc (t : Stall) (no : Nat) {l : Option Landing} {x : Fin 2} (clear : l ≠ some (.clear x))
    (acc : ∀ M N, l ≠ some (.acc x M N)) : (t.landFree no l).acc[x] = t.acc[x] := by
  unfold Stall.landFree
  split
  · rfl
  · exact set_other _ _ fun e => acc _ _ (by rw [e])
  · exact set_other _ _ fun e => clear (by rw [e])
  · rfl

theorem setVP_eq (t : Stall) (r : PReg) (x : BitVec 256) : t.setVP r x = { t with vp := (t.setVP r x).vp } := by
  unfold Stall.setVP
  split <;> rfl

theorem setVP_vp (t : Stall) {q r : PReg} (x : BitVec 256) (h : q ≠ r) : (t.setVP q x).vp[r] = t.vp[r] := by
  unfold Stall.setVP
  split
  · rfl
  · exact set_other _ _ h

theorem freedBy_eq (t : Stall) (no : Nat) (f : Flight) :
    t.freedBy no f = { t with v := (t.landFree no f.lands).v, vp := (t.freedBy no f).vp, acc := (t.landFree no f.lands).acc } := by
  unfold Stall.freedBy
  split
  · rw [setVP_eq, landFree_eq]
  · rw [landFree_eq]

theorem freedBy_vp (t : Stall) (no : Nat) (f : Flight) {r : PReg} (h : ∀ w, f.pWrite = some w → w.1 ≠ r) :
    (t.freedBy no f).vp[r] = t.vp[r] := by
  unfold Stall.freedBy
  split
  · next w hw => rw [setVP_vp _ _ (h w hw), landFree_eq]
  · rw [landFree_eq]

/-! ### The register writes that wait for the retire point (R127) -/

/-- A scalar write under its mask. -/
def Machine.Stall.mergeS (t : Stall) (w : SReg × BitVec 64 × BitVec 64) : Stall := t.setS w.1 (t.s[w.1] &&& ~~~w.2.1 ||| w.2.2 &&& w.2.1)

theorem mergeS_all (ws : List (SReg × BitVec 64 × BitVec 64)) (t : Stall) :
    ws.foldl Stall.mergeS t = { t with s := (ws.foldl Stall.mergeS t).s } ∧
      ∀ r : SReg, (∀ w ∈ ws, w.1 ≠ r) → (ws.foldl Stall.mergeS t).s[r] = t.s[r] := by
  induction ws generalizing t with
  | nil => exact ⟨rfl, fun _ _ => rfl⟩
  | cons w ws ih =>
    obtain ⟨rest, kept⟩ := ih (t.mergeS w)
    refine ⟨by rw [List.foldl_cons, rest]; rfl, fun r h => ?_⟩
    rw [List.foldl_cons, kept r fun x hx => h x (List.mem_cons_of_mem _ hx)]
    exact set_other _ _ (h w List.mem_cons_self)

theorem land_some {f : Flight} {w : PReg × BitVec 256} (h : f.pWrite = some w) (t : Stall) :
    t.land f = if w.1 = 0 then f.sWrites.foldl Stall.mergeS t
      else { f.sWrites.foldl Stall.mergeS t with p := (f.sWrites.foldl Stall.mergeS t).p.set w.1 w.2 } := by
  simp only [Stall.land, h]
  rfl

theorem land_none {f : Flight} (h : f.pWrite = none) (t : Stall) : t.land f = f.sWrites.foldl Stall.mergeS t := by
  simp only [Stall.land, h]
  rfl

theorem land_eq (t : Stall) (f : Flight) : t.land f = { t with s := (t.land f).s, p := (t.land f).p } := by
  have merged := (mergeS_all f.sWrites t).1
  cases h : f.pWrite with
  | none => rw [land_none h, merged]
  | some w =>
    rw [land_some h]
    split <;> rw [merged]

theorem land_c (t : Stall) (f : Flight) : (t.land f).c = t.c := by rw [land_eq]

theorem land_s (t : Stall) (f : Flight) {r : SReg} (h : ∀ w ∈ f.sWrites, w.1 ≠ r) : (t.land f).s[r] = t.s[r] := by
  have merged := (mergeS_all f.sWrites t).2 r h
  cases hp : f.pWrite with
  | none => rw [land_none hp, merged]
  | some w =>
    rw [land_some hp]
    split <;> exact merged

theorem land_p (t : Stall) (f : Flight) {r : PReg} (h : ∀ w, f.pWrite = some w → w.1 ≠ r) : (t.land f).p[r] = t.p[r] := by
  have merged := (mergeS_all f.sWrites t).1
  cases hp : f.pWrite with
  | none => rw [land_none hp, merged]
  | some w =>
    rw [land_some hp]
    split
    · rw [merged]
    · rw [merged]
      exact set_other _ _ (h w hp)

/-! ### The end of an instruction of no engine and of no kind that counts apart (R127, R128) -/

/-- Tally counters that advance, one after another. -/
def advanced (rs : List CReg) (x : Vector (BitVec 32) 64) : Vector (BitVec 32) 64 :=
  rs.foldl (fun x (r : CReg) => x.set r (x[r] + 1)) x

/-- The tally counters as a retirement leaves them. -/
def tallied (f : Flight) (x : Vector (BitVec 32) 64) : Vector (BitVec 32) 64 :=
  if f.ten then (advanced f.tallies x).set f.tc ((advanced f.tallies x)[f.tc] + 1) else advanced f.tallies x

theorem advance_all (rs : List CReg) (t : Stall) :
    rs.foldl (fun x c => x.advance c 1) t = { t with c := advanced rs t.c } := by
  induction rs generalizing t with
  | nil => rfl
  | cons r rs ih => rw [List.foldl_cons, ih]; rfl

theorem tally_eq (t : Stall) (f : Flight) :
    (f.tallies.foldl (fun x c => x.advance c 1) t).tally f.ten f.tc = { t with c := tallied f t.c } := by
  rw [advance_all, tallied, Stall.tally]
  split <;> rfl

/-- The state in which an instruction's record has gone, and its writes have landed. -/
def Machine.State.landed (s : State) (n : Fin 128) (f : Flight) : State :=
  (((s.count n f.counts).modStall n fun t => (t.drop f.seq).land f).modStall n fun t =>
    f.tallies.foldl (fun t c => t.advance c 1) t).racesEnd

theorem landed_stall (s : State) (n : Fin 128) (f : Flight) :
    (s.landed n f).stall n = f.tallies.foldl (fun t c => t.advance c 1) (((s.stall n).drop f.seq).land f) := by
  rw [State.landed, State.stall, racesEnd_stalls, ← State.stall, State.stall_modStall_same, State.stall_modStall_same, State.stall,
    count_stalls]
  rfl

theorem landed_only (s : State) (n : Fin 128) (f : Flight) (R : Reg → Prop) (W : Nat → Prop)
    (h : ∀ r, eventReg n r → R r) (h1 : ¬ R .dbgTraceCtrl) (h2 : ¬ R .dbgTraceSpill) : OnlyStall n R W s (s.landed n f) := by
  refine OnlyStall.trans h1 h2 ?_ (racesEnd_only ..)
  refine OnlyStall.trans h1 h2 ?_ (modStall_only ..)
  exact OnlyStall.trans h1 h2 (count_only s n _ R W h h1 h2) (modStall_only ..)

/-- The registers that the retirement of such an instruction writes. -/
def retireReg (n : Fin 128) (r : Reg) : Prop := r = .stlSeqRetired n ∨ eventReg n r

theorem retireReg_ring (n : Fin 128) : ¬ retireReg n .dbgTraceCtrl ∧ ¬ retireReg n .dbgTraceSpill :=
  ⟨fun h => h.elim nofun (not_eventReg n rfl), fun h => h.elim nofun (not_eventReg n rfl)⟩

/-- A plain instruction has retired: from `s`, the state in which its results are settled, to `t`. -/
structure PlainRetired (n : Fin 128) (f : Flight) (s t : State) : Prop where
  stall : t.stall n = { (((s.stall n).drop f.seq).land f) with c := tallied f (s.stall n).c, lastRetire := s.frankNs }
  only : OnlyStall n (retireReg n) noByte s t
  retired : Counted s t (.stlSeqRetired n) 1
  events : ∀ e, Counted s t (e.reg n) (eventsOf f e)

theorem landed_count (s : State) (n : Fin 128) (f : Flight) (r : Reg) : (s.landed n f).rd r = (s.count n f.counts).rd r := by
  rw [State.landed, racesEnd_rd]
  rfl

theorem plainRetired (s : State) (n : Fin 128) (f : Flight) :
    PlainRetired n f s ((s.landed n f).retire n (unitCode f.unit) f.ten f.tc f.pc f.status) := by
  obtain ⟨h1, h2⟩ := retireReg_ring n
  have before := landed_only s n f (retireReg n) noByte (fun r h => .inr h) h1 h2
  have after := retire_only (s.landed n f) n (unitCode f.unit) f.ten f.tc f.pc f.status (fun r => r = .stlSeqRetired n) noByte rfl
    (by simp) (by simp)
  refine ⟨?_, before.trans h1 h2 (after.mono (fun _ => .inl) fun _ => id), ?_, fun e => ?_⟩
  · have now : (s.landed n f).frankNs = s.frankNs := by rw [before.rest]; rfl
    have counters : (((s.stall n).drop f.seq).land f).c = (s.stall n).c := by rw [land_eq]; rfl
    rw [retire_stall, landed_stall, tally_eq, now, counters]
  · rw [Counted, retire_count, State.fld_congr _ (landed_count ..), (count_frame s n f.counts).fld _ (not_eventReg n rfl)]
  · have counted := count_counted s n f.counts e
    have kept := after.regs (e.reg n) (eventReg_untraced n e) fun h => by cases e <;> cases h
    rw [Counted, State.fld_congr _ (kept.trans (landed_count ..))]
    exact counted

/-- Settling undefined results changes of a record only what it is about to write. -/
theorem endFree_keeps (s : State) (n : Fin 128) (f : Flight) :
    (s.endFree n f).2 = { f with pWrite := (s.endFree n f).2.pWrite, sWrites := (s.endFree n f).2.sWrites } := by
  by_cases h : Undefined s n f
  · rw [endFree_undefined h]; rfl
  · rw [endFree_defined h]

theorem collOutcome_none {s : State} {f : Flight} (h : f.collOp = none) : s.collOutcome f = f := by simp [State.collOutcome, h]

theorem countRetired_plain {s : State} {n : Fin 128} {f : Flight} (h : f.kind = .plain) : s.countRetired n f = s := by
  simp [State.countRetired, h]

theorem finishHalt_none {s : State} {n : Fin 128} (h : (s.stall n).halting = none) : s.finishHalt n = s := by
  simp only [State.finishHalt, h]

/-- With no destination to settle, no operation and no kind of its own, an instruction retires as `PlainRetired` says, and no halt waits
for it. -/
theorem retireFlight_plain {s : State} {n : Fin 128} {f : Flight} (kind : f.kind = .plain) (dest : f.dest = none) (op : f.collOp = none)
    (halting : ((s.endFree n f).1.stall n).halting = none) :
    PlainRetired n (s.endFree n f).2 (s.endFree n f).1 (s.retireFlight n f) := by
  have keeps := endFree_keeps s n f
  simp only [State.retireFlight, collOutcome_none op]
  generalize s.endFree n f = p at keeps halting ⊢
  have retired := plainRetired p.1 n p.2
  have kind' : p.2.kind = .plain := by rw [keeps]; exact kind
  have dest' : p.2.dest = none := by rw [keeps]; exact dest
  rw [countRetired_plain kind', dest']
  have quiet : ((p.1.landed n p.2).retire n (unitCode p.2.unit) p.2.ten p.2.tc p.2.pc p.2.status).finishHalt n =
      (p.1.landed n p.2).retire n (unitCode p.2.unit) p.2.ten p.2.tc p.2.pc p.2.status := by
    refine finishHalt_none ?_
    rw [retired.stall, land_eq]
    exact halting
  exact (congrArg (PlainRetired n p.2 p.1) quiet).mpr retired

/-! ### The end with a fault (R128, R313) -/

/-- From `s` to `t` what a fault stops keeps its records in flight and stall `n` its tally counters; registers of `R` and the trace have
changed. -/
structure Stopping (n : Fin 128) (R : Reg → Prop) (s t : State) : Prop where
  seqs : SameSeqs s t
  tallies : (t.stall n).c = (s.stall n).c
  stopped : (s.stall n).running = false → (t.stall n).running = false
  regs : OnlyRegs R s t
  mem : ∀ a, ¬ inRing s a → Memory.read t.mem a = Memory.read s.mem a
  ctrl : t.rd .dbgTraceCtrl = s.rd .dbgTraceCtrl
  spill : t.rd .dbgTraceSpill = s.rd .dbgTraceSpill
  top : ringTop t ≤ ringTop s

theorem Calm.stopping {R : Reg → Prop} {s t : State} (h : Calm R s t) (n : Fin 128) : Stopping n R s t := by
  have stall : t.stall n = s.stall n := by simp only [State.stall, h.stalls]
  exact ⟨.of_stalls h.stalls, by rw [stall], fun k => by rw [stall, k], h.regs, h.mem, h.ctrl, h.spill, h.top⟩

theorem Stopping.refl (n : Fin 128) (R : Reg → Prop) (s : State) : Stopping n R s s := (Calm.refl R s).stopping n

theorem Stopping.ring {n : Fin 128} {R : Reg → Prop} {s t : State} (h : Stopping n R s t) {a : Nat} (k : inRing t a) : inRing s a := by
  obtain ⟨on, low, high⟩ := k
  rw [State.flag_congr _ h.ctrl] at on
  rw [State.fld_congr _ h.spill] at low high
  exact ⟨on, low, Nat.lt_of_lt_of_le high (Nat.add_le_add_left h.top _)⟩

theorem Stopping.trans {n : Fin 128} {R : Reg → Prop} {s t u : State} (h : Stopping n R s t) (k : Stopping n R t u) :
    Stopping n R s u where
  seqs := h.seqs.trans k.seqs
  tallies := k.tallies.trans h.tallies
  stopped := k.stopped ∘ h.stopped
  regs r hr n := (k.regs r hr n).trans (h.regs r hr n)
  mem a ha := (k.mem a fun hi => ha (h.ring hi)).trans (h.mem a ha)
  ctrl := k.ctrl.trans h.ctrl
  spill := k.spill.trans h.spill
  top := Nat.le_trans k.top h.top

theorem Stopping.foldl {α : Type} {n : Fin 128} {R : Reg → Prop} (f : State → α → State)
    (h : ∀ t x, Stopping n R t (f t x)) (xs : List α)
    (s : State) : Stopping n R s (xs.foldl f s) := by
  induction xs generalizing s with
  | nil => exact .refl n R s
  | cons x xs ih => exact (h s x).trans (ih _)

/-- A stall changes, but for its records, its tally counters, and whether it has stopped. -/
theorem modStall_stopping (s : State) (n m : Fin 128) (R : Reg → Prop) (f : Stall → Stall) (flights : ∀ t, (f t).flights = t.flights)
    (tallies : ∀ t, (f t).c = t.c) (stopped : ∀ t, t.running = false → (f t).running = false) : Stopping n R s (s.modStall m f) where
  seqs := modStall_sameSeqs s m f (by rw [flights])
  tallies := by
    by_cases e : n = m
    · rw [e, State.stall_modStall_same, tallies]
    · rw [State.stall_modStall_other s f e]
  stopped h := by
    by_cases e : n = m
    · subst e
      rw [State.stall_modStall_same]
      exact stopped _ h
    · rw [State.stall_modStall_other s f e, h]
  regs _ _ _ := rfl
  mem _ _ := rfl
  ctrl := rfl
  spill := rfl
  top := Nat.le_of_eq (ringTop_congr rfl rfl rfl)

theorem endRun_traced (s : State) (n : Fin 128) : Traced s (s.endRun n) := by
  unfold State.endRun State.runEnds
  split
  · split
    · exact .refl s
    · exact emit_traced _ _ _ _ _ (stallUnit_ne n 0)
  · exact .refl s

theorem stopStall_stopping (s : State) (n m : Fin 128) (R : Reg → Prop) : Stopping n R s (s.stopStall m) := by
  unfold State.stopStall
  refine Stopping.trans ?_ (modStall_stopping _ n m R _ (fun _ => rfl) (fun _ => rfl) fun _ _ => rfl)
  split
  · exact ((endRun_traced s m).calm R).stopping n
  · exact .refl n R s

theorem stopStall_running (s : State) (n : Fin 128) : ((s.stopStall n).stall n).running = false := by
  rw [State.stopStall, State.stall_modStall_same]

/-- The registers that an end with a fault writes beside those of events. -/
def faultReg (r : Reg) : Prop := (∃ q, r = .hstQpStatus q) ∨ ∃ n, r = .stlMmFault n

theorem faultReg_ring {r : Reg} (h : ringReg r) : ¬ faultReg r := by
  rintro (⟨q, rfl⟩ | ⟨n, rfl⟩) <;> simp [ringReg] at h

/-- None of them counts an event. -/
theorem faultReg_uncounted (n : Fin 128) (e : StallEvent) : ¬ faultReg (e.reg n) := by
  have event := eventOf_reg n e
  rintro (⟨q, h⟩ | ⟨m, h⟩) <;> simp [h, eventOf] at event

/-- From `s` to `t` stall `n` has stopped, and what a fault keeps is as it was. -/
structure Stopped (n : Fin 128) (s t : State) : Prop extends Stopping n faultReg s t where
  halted : (t.stall n).running = false

theorem Stopped.keeps {n : Fin 128} {s t u : State} (h : Stopped n s t) (k : Stopping n faultReg t u) : Stopped n s u :=
  ⟨h.toStopping.trans k, k.stopped h.halted⟩

theorem Stopped.after {n : Fin 128} {s t u : State} (h : Stopping n faultReg s t) (k : Stopped n t u) : Stopped n s u :=
  ⟨h.trans k.toStopping, k.halted⟩

theorem Calm.foldl {α : Type} {R : Reg → Prop} (f : State → α → State) (h : ∀ t x, Calm R t (f t x)) (xs : List α) (s : State) :
    Calm R s (xs.foldl f s) := by
  induction xs generalizing s with
  | nil => exact .refl R s
  | cons x xs ih => exact (h s x).trans (ih _)

theorem setConsign_calm (s : State) (id : Nat) (c : Consign) : Calm faultReg s (s.setConsign id c) := .same rfl rfl rfl rfl

theorem returnUnstarted_calm (s : State) (id : Nat) (c : Consign) (cause : Nat) : Calm faultReg s (s.returnUnstarted id c cause) := by
  have count : ∀ (t : State) (i n : Nat), Calm faultReg t (t.aonAdd i n) := fun t i n =>
    ((aonAdd_frame t i n).mono fun _ => False.elim).calm fun _ => faultReg_ring
  unfold State.returnUnstarted State.finalise
  dsimp only
  split
  · exact ((setConsign_calm ..).trans (count ..)).trans (count ..)
  · exact (setConsign_calm ..).trans (count ..)

theorem returnWaiting_calm (s : State) (p : Consign → Bool) (cause : Nat) : Calm faultReg s (s.returnWaiting p cause) := by
  refine Calm.foldl _ (fun t e => ?_) s.consigns s
  split
  · exact returnUnstarted_calm ..
  · exact .refl _ t

theorem stopQueue_calm (s : State) (q : Fin 256) : Calm faultReg s (s.stopQueue q) := by
  have marked := ((setFld_frame s (.hstQpStatus q) F.hstQpStatus_STOPPED 1).mono fun r h => (.inl ⟨q, h⟩ : faultReg r)).calm
    fun _ => faultReg_ring
  unfold State.stopQueue
  split
  · exact marked.trans (returnWaiting_calm ..)
  · exact .refl _ s

theorem faultStall_stops (s : State) (n : Fin 128) (k : Fin 4) (i : FaultInfo) (cls op : Nat) :
    Stopped n s (s.faultStall n k i cls op) := by
  have logged : ∀ (t : State) (event ctx : Nat) (data : List Byte), Stopping n faultReg t (t.log (stallUnit n k) event ctx data) :=
    fun t event ctx data => ((log_traced t event ctx data (stallUnit_ne n k)).calm faultReg).stopping n
  have stopped : Stopped n s (s.stopStall n) := ⟨stopStall_stopping s n n faultReg, stopStall_running s n⟩
  have others : ∀ (ms : List (Fin 128)) (t : State), Stopping n faultReg t (ms.foldl State.stopStall t) := fun ms t =>
    Stopping.foldl State.stopStall (fun t m => stopStall_stopping t n m faultReg) ms t
  unfold State.faultStall
  dsimp only
  split
  · exact stopped.keeps (logged ..)
  split
  · refine Stopped.keeps ?_ ((stopQueue_calm ..).stopping n)
    exact ((stopped.keeps (logged ..)).keeps ((setConsign_calm ..).stopping n)).keeps (others ..)
  · exact ((stopped.keeps (logged ..)).keeps ((setConsign_calm ..).stopping n)).keeps (others ..)

theorem mmFault_calm (s : State) (n : Fin 128) (st : Status) (m : MmFault) : Calm faultReg s (s.mmFault n st m) := by
  unfold State.mmFault
  dsimp only
  split
  · exact (log_traced _ _ _ _ (stallUnit_ne n 1)).calm _
  · exact ((wr_frame s (.stlMmFault n) _).mono fun r h => .inr ⟨n, h⟩).calm fun _ => faultReg_ring

/-- The state in which an instruction that faults has been counted, and its record has gone. -/
def Machine.State.dropped (s : State) (n : Fin 128) (f : Flight) : State :=
  ((s.count n f.counts).modStall n fun t => t.drop f.seq).racesEnd

theorem dropped_stall (s : State) (n : Fin 128) (f : Flight) : (s.dropped n f).stall n = (s.stall n).drop f.seq := by
  rw [State.dropped, State.stall, racesEnd_stalls, ← State.stall, State.stall_modStall_same, State.stall, count_stalls]
  rfl

theorem dropped_rd (s : State) (n : Fin 128) (f : Flight) (r : Reg) : (s.dropped n f).rd r = (s.count n f.counts).rd r := by
  rw [State.dropped, racesEnd_rd]
  rfl

theorem dropped_only (s : State) (n : Fin 128) (f : Flight) : OnlyStall n (eventReg n) noByte s (s.dropped n f) := by
  have h1 := not_eventReg n (r := .dbgTraceCtrl) rfl
  have h2 := not_eventReg n (r := .dbgTraceSpill) rfl
  refine OnlyStall.trans h1 h2 ?_ (racesEnd_only ..)
  exact OnlyStall.trans h1 h2 (count_only s n _ _ _ (fun _ => id) h1 h2) (modStall_only ..)

theorem watchSettle_calm (s : State) (n : Fin 128) (d : Option (Fin 2 × Fmt × OvMode × Option Kind)) (R : Reg → Prop) :
    Calm R s (s.watchSettle n d) := by
  rw [State.watchSettle_eq]
  exact .same rfl rfl rfl rfl

/-- Once the record has gone, the stall stops, and the fault is recorded. -/
theorem faultFlight_stops (s : State) (n : Fin 128) (f : Flight) :
    Stopped n ((s.endFree n f).1.dropped n (s.endFree n f).2) (s.faultFlight n f) := by
  unfold State.faultFlight
  dsimp only
  generalize s.endFree n f = p
  have stops : ∀ (d : State) (i : FaultInfo), Stopping n faultReg (p.1.dropped n p.2) d →
      Stopped n (p.1.dropped n p.2) ((d.watchSettle n p.2.dest).faultStall n (unitCode p.2.unit) i p.2.cls p.2.op) := fun d i before =>
    .after (before.trans ((watchSettle_calm d n p.2.dest faultReg).stopping n)) (faultStall_stops ..)
  have land : Stopping n faultReg (p.1.dropped n p.2) ((p.1.dropped n p.2).modStall n fun t => t.land p.2) :=
    modStall_stopping _ n n faultReg _ (fun t => by rw [land_eq]) (fun t => land_c t _) fun t h => by rw [land_eq]; exact h
  cases kind : p.2.kind with
  | plain => exact stops _ _ (.refl ..)
  | mma w => exact stops _ _ (.refl ..)
  | update w => exact stops _ _ (.refl ..)
  | coll g => exact stops _ _ land
  | matrix m => exact (stops _ _ (.refl ..)).keeps ((mmFault_calm ..).stopping n)

/-! ### The commands -/

section
variable {s : State} {n : Fin 128} {u : StallUnit} {i : Nat} {f : Flight} (found : ((s.stall n).unitFlights u)[i]? = some f)
include found

theorem instructionRetire_retires (may : s.mayEnd n f i = true) (ready : s.collReady f = true) (ok : statusRetires f.status = true) :
    exec (.instructionRetire n u i) s = .next (s.retireFlight n f) := by
  simp only [exec, execInstructionRetire, found, may, ready, ok, Bool.and_self, if_true]

theorem instructionRetire_stays (bad : statusRetires f.status = false) : exec (.instructionRetire n u i) s = .next s := by
  simp only [exec, execInstructionRetire, found, bad, Bool.and_false, Bool.false_eq_true, if_false]

theorem instructionFault_stays (ok : statusRetires f.status = true) : exec (.instructionFault n u i) s = .next s := by
  simp only [exec, execInstructionFault, found, ok, Bool.not_true, Bool.and_false, Bool.false_eq_true, if_false]

theorem instructionFault_faults (may : s.mayEnd n f i = true) (bad : statusRetires f.status = false) :
    exec (.instructionFault n u i) s = .next (s.faultFlight n f) := by
  simp only [exec, execInstructionFault, found, may, bad, Bool.not_false, Bool.and_self, if_true]

end

/-! ### What settling undefined results leaves (R16) -/

theorem endFree_rd (s : State) (n : Fin 128) (f : Flight) (r : Reg) : (s.endFree n f).1.rd r = s.rd r := by
  by_cases h : Undefined s n f
  · rw [endFree_undefined h]; rfl
  · rw [endFree_defined h]

theorem endFree_stall (s : State) (n : Fin 128) (f : Flight) : (s.endFree n f).1.stall n = { s.stall n with
    v := ((s.endFree n f).1.stall n).v, vp := ((s.endFree n f).1.stall n).vp, acc := ((s.endFree n f).1.stall n).acc } := by
  by_cases h : Undefined s n f
  · rw [endFree_undefined h, State.stall_modStall_same, freedBy_eq]; rfl
  · rw [endFree_defined h]

theorem endFree_mem (s : State) (n : Fin 128) (f : Flight) {b : Nat} (h : ¬ (Undefined s n f ∧ writesByte s n f b)) :
    Memory.read (s.endFree n f).1.mem b = Memory.read s.mem b := by
  by_cases free : Undefined s n f
  · rw [endFree_undefined free]
    exact racesFreed_mem s n f fun own => h ⟨free, own⟩
  · rw [endFree_defined free]

theorem endFree_ring (s : State) (n : Fin 128) (f : Flight) {b : Nat} (h : inRing (s.endFree n f).1 b) : inRing s b :=
  inRing_congr (fun r _ => endFree_rd s n f r)
    (Nat.le_of_eq (ringTop_congr (endFree_rd ..) (endFree_rd ..) (endFree_rd ..))) h

theorem endFree_counted {s t : State} {n : Fin 128} {f : Flight} {r : Reg} {k : Nat} (h : Counted (s.endFree n f).1 t r k) :
    Counted s t r k := by rwa [Counted, State.fld_congr _ (endFree_rd s n f r)] at h

theorem endFree_events (s : State) (n : Fin 128) (f : Flight) (e : StallEvent) : eventsOf (s.endFree n f).2 e = eventsOf f e := by
  rw [eventsOf, endFree_keeps]
  rfl

/-! ### A record goes (R128) -/

theorem dropped_seqs (t : Stall) (k : Nat) : k ∉ (t.drop k).flights.map (·.seq) := by simp [Stall.drop]

theorem collOutcome_seq (s : State) (f : Flight) : (s.collOutcome f).seq = f.seq := by
  unfold State.collOutcome
  split
  · split <;> rfl
  · rfl

/-- After the record of a retired instruction has gone, no record comes. -/
theorem retireFlight_seqs (s : State) (n : Fin 128) (f : Flight) : f.seq ∉ seqsOf (s.retireFlight n f) n := by
  unfold State.retireFlight
  have seq : (s.endFree n (s.collOutcome f)).2.seq = f.seq := by rw [endFree_keeps]; exact collOutcome_seq s f
  dsimp only
  generalize s.endFree n (s.collOutcome f) = p at seq ⊢
  refine (finishHalt_sameSeqs ..).gone ?_
  refine (retire_sameSeqs ..).gone ?_
  refine (SameSeqs.of_stalls (racesEnd_stalls _)).gone ?_
  refine (State.countRetired_sameSeqs ..).gone ?_
  refine ((watchSettle_calm _ n p.2.dest noReg).stopping n).seqs.gone ?_
  refine (modStall_sameSeqs _ n (fun t => p.2.tallies.foldl (fun t c => t.advance c 1) t) (by rw [advance_all])).gone ?_
  rw [seqsOf, State.stall_modStall_same, land_eq, ← seq]
  exact dropped_seqs _ _

theorem faultFlight_seqs (s : State) (n : Fin 128) (f : Flight) : f.seq ∉ seqsOf (s.faultFlight n f) n := by
  have seq : (s.endFree n f).2.seq = f.seq := by rw [endFree_keeps]
  refine (faultFlight_stops s n f).seqs.gone ?_
  rw [seqsOf, dropped_stall, ← seq]
  exact dropped_seqs _ _

/-! ### What an instruction with an undefined result leaves of its stall (R16) -/

/-- A stall of which an instruction's undefined results have changed only the registers that it writes. -/
theorem retired_free (t y L : Stall) (f g : Flight) (now : BitVec 64) (hy : y = { t with v := y.v, vp := y.vp, acc := y.acc })
    (hL : L = { y.drop f.seq with s := L.s, p := L.p }) (tally : tallied g = tallied f) :
    ({ L with c := tallied g y.c, lastRetire := now } : Stall) =
      { { ((f.tallies.foldl (fun x c => x.advance c 1) (t.drop f.seq)).tally f.ten f.tc) with lastRetire := now } with
        s := L.s, v := y.v, p := L.p, vp := y.vp, acc := y.acc } := by
  rw [tally_eq, hL, hy, tally]
  rfl

/-- A plain instruction has retired, its results undefined in value. -/
theorem plainRetired_undefined {s t : State} {n : Fin 128} {f : Flight} (undef : Undefined s n f)
    (retired : PlainRetired n (s.endFree n f).2 (s.endFree n f).1 t) :
    OnlyRegs (retireReg n) s t ∧ (∀ m, m ≠ n → t.stall m = s.stall m) ∧
      (∀ b, ¬ inRing s b → ¬ writesByte s n f b → Memory.read t.mem b = Memory.read s.mem b) ∧
      ∃ (S : Vector (BitVec 64) 32) (V : Vector (BitVec 2048) 32) (P Q : Vector (BitVec 256) 8) (A : Vector Acc 2),
        t.stall n = { { ((f.tallies.foldl (fun x c => x.advance c 1) ((s.stall n).drop f.seq)).tally f.ten f.tc) with
          lastRetire := s.frankNs } with s := S, v := V, p := P, vp := Q, acc := A } ∧
        (∀ r : SReg, (∀ w ∈ f.sWrites, w.1 ≠ r) → S[r] = (s.stall n).s[r]) ∧
        (∀ r : VReg, f.lands ≠ some (.vreg r) → V[r] = (s.stall n).v[r]) ∧
        (∀ r : PReg, (∀ w, f.pWrite = some w → w.1 ≠ r) → P[r] = (s.stall n).p[r] ∧ Q[r] = (s.stall n).vp[r]) ∧
        ∀ x : Fin 2, f.lands ≠ some (.clear x) → (∀ M N, f.lands ≠ some (.acc x M N)) → A[x] = (s.stall n).acc[x] := by
  obtain ⟨stall, only, -, -⟩ := retired
  refine ⟨fun r hr other => (only.regs r hr other).trans (endFree_rd ..),
    fun m hm => (only.stalls m hm).trans ?_, fun b ring own => ?_, ?_⟩
  · rw [endFree_undefined undef, State.stall_modStall_other _ _ hm]
    rfl
  · exact (only.mem b (fun h => ring (endFree_ring s n f h)) id).trans (endFree_mem s n f fun h => own h.2)
  rw [endFree_undefined undef, State.stall_modStall_same] at stall
  change t.stall n = { ((((s.stall n).freedBy s.raceNo f).drop f.seq).land (f.freedAs s.raceNo)) with
    c := tallied (f.freedAs s.raceNo) ((s.stall n).freedBy s.raceNo f).c, lastRetire := s.frankNs } at stall
  have free := freedBy_eq (s.stall n) s.raceNo f
  refine ⟨_, _, _, _, _, stall.trans (retired_free _ _ _ f _ _ ?_ (land_eq ..) rfl),
    fun r h => ?_, fun r h => ?_, fun r h => ⟨?_, ?_⟩,
    fun x clear acc => ?_⟩
  · rw [free]
  · refine (land_s _ _ fun w hw => ?_).trans (by rw [free]; rfl)
    obtain ⟨v, hv, rfl⟩ := List.mem_map.mp hw
    exact h v hv
  · rw [free]
    exact landFree_v _ _ h
  · refine (land_p _ _ fun w hw => ?_).trans (by rw [free]; rfl)
    obtain ⟨v, hv, rfl⟩ := Option.map_eq_some_iff.mp hw
    exact h v hv
  · exact freedBy_vp _ _ _ h
  · rw [free]
    exact landFree_acc _ _ clear acc

theorem dropped_ring {s : State} {n : Fin 128} {f : Flight} {a : Nat} (h : inRing (s.dropped n f) a) : inRing s a := by
  have frame := (count_frame s n f.counts).calm fun r hr => not_eventReg n (by rcases hr with rfl | rfl | rfl <;> rfl)
  refine frame.ring ?_
  exact inRing_congr (fun r _ => dropped_rd ..) (Nat.le_of_eq (ringTop_congr (dropped_rd ..) (dropped_rd ..) (dropped_rd ..))) h

/-- Settles O27: each end is the settling of undefined results, the going of the record,
and what is counted, each with a lemma of its own. -/
theorem unitInstructionsEnd : Obligations.UnitInstructionsEnd := by
  unfold Obligations.UnitInstructionsEnd
  intro s n u i f found may
  dsimp only
  refine ⟨fun ok kind dest op halting => ⟨_, instructionRetire_retires found may (by simp [State.collReady, op]) ok, ?_⟩,
    fun ok ready => ⟨_, instructionRetire_retires found may ready ok, ?_⟩,
    fun bad => ⟨_, instructionFault_faults found may bad, ?_⟩,
    instructionFault_stays found, fun bad _ => instructionRetire_stays found bad⟩
  · have retired := retireFlight_plain kind dest op (by rw [endFree_stall]; exact halting)
    refine ⟨endFree_counted retired.retired, fun e => endFree_events s n f e ▸ endFree_counted (retired.events e), fun defined => ?_,
      fun undef => plainRetired_undefined undef retired⟩
    rw [endFree_defined defined] at retired
    refine ⟨?_, retired.only⟩
    rw [retired.stall, tally_eq, land_c]
    rfl
  · exact fun x hx e => retireFlight_seqs s n f (List.mem_map.mpr ⟨x, hx, e⟩)
  · have stops := faultFlight_stops s n f
    refine ⟨stops.halted, stops.tallies.trans ?_, ?_, fun x hx e => faultFlight_seqs s n f (List.mem_map.mpr ⟨x, hx, e⟩), fun e => ?_,
      fun b ring own => ?_⟩
    · rw [dropped_stall, endFree_stall]
      rfl
    · have uncounted : ¬ faultReg (.stlSeqRetired n) := by rintro (⟨q, h⟩ | ⟨m, h⟩) <;> cases h
      rw [stops.regs _ rfl uncounted, dropped_rd, (count_frame ..).regs _ (not_eventReg n rfl), endFree_rd]
    · have kept := stops.regs (e.reg n) (eventReg_untraced n e) (faultReg_uncounted n e)
      refine endFree_events s n f e ▸ endFree_counted (n := n) (f := f) ?_
      rw [Counted, State.fld_congr _ (kept.trans (dropped_rd ..))]
      exact count_counted ..
    · refine (stops.mem b fun h => ring (endFree_ring s n f (dropped_ring h))).trans ?_
      exact ((dropped_only ..).mem b (fun h => ring (endFree_ring s n f h)) id).trans (endFree_mem s n f own)

end Sys2Proof
end

section
/-!
PROOFS of the family 02_number_formats: the vector engine's element-wise operations.
-/
namespace Sys2Proof

open Machine

/-! ### Issue of a VALU instruction (R125 to R127) -/

/-- A VALU instruction of a format that it takes sets its destination, whatever the guard of the whole (R125, R126). -/
theorem valu_setsV {s : State} {h : Hdr} (ready : UnitReady s h .vector .none) {op : Nat} {mn : String} {ok : Bool} (formats : ok = true)
    (vd : VReg) (f : Stall → BitVec 2048) : SetsV s h (s.valu h op mn ok vd f) op vd (f (Passed (stallOf s h))) := by
  obtain ⟨may, free⟩ := ready
  obtain ⟨t, next, issued⟩ := issueWith_regs s h .vector (4, op) .none true
    (fun s r => (s.modStall h.stall fun t => t.setV vd (f t), { r with lands := some (.vreg vd) })) may free
    (fun t => t.setV vd (f t)) (fun r => { r with lands := some (.vreg vd) }) fun _ _ => rfl
  exact ⟨t, by rw [State.valu, formats]; exact next, issued⟩

/-- The same, of what the register takes. -/
theorem valu_setsV_eq {s : State} {h : Hdr} (ready : UnitReady s h .vector .none) {op : Nat} {mn : String} {ok : Bool}
    (formats : ok = true) {vd : VReg} {f : Stall → BitVec 2048} {v : BitVec 2048} (value : f (Passed (stallOf s h)) = v) :
    SetsV s h (s.valu h op mn ok vd f) op vd v :=
  value ▸ valu_setsV ready formats vd f

/-- What a VALU instruction writes under its guard, element by element. -/
theorem valu_setsElems {s : State} {h : Hdr} (ready : UnitReady s h .vector .none) {op : Nat} {mn : String} {ok : Bool}
    (formats : ok = true) {f : Fmt} (vd : VReg) {el : Stall → Nat → Nat} {res : Nat → Nat}
    (elems : ∀ e, el (Passed (stallOf s h)) e = res e) :
    SetsElems s h (s.valu h op mn ok vd fun t => vWrite f (t.vpred h.pred) h.pneg t.v[vd] (el t)) op f vd res := by
  obtain rfl := funext elems
  exact valu_setsV ready formats vd fun t => vWrite f (t.vpred h.pred) h.pneg t.v[vd] (el t)

/-- The same of an operation on the elements of two registers. -/
theorem valu2_setsElems {s : State} {h : Hdr} (ready : UnitReady s h .vector .none) {op : Nat} {mn : String} {ok : Fmt → Bool} {f : Fmt}
    (formats : ok f = true) {vd va vb : VReg} {el : Fmt → Nat → Nat → Nat} {res : Nat → Nat}
    (elems : ∀ e, el f (vElem f (stallOf s h).v[va] e) (vElem f (stallOf s h).v[vb] e) = res e) :
    SetsElems s h (s.valu2 h op mn ok f vd va vb el) op f vd res :=
  valu_setsElems ready formats vd elems

/-! ### Elements of a register (R35) -/

theorem vElem_lt (f : Fmt) (v : BitVec 2048) (e : Nat) : vElem f v e < 2 ^ fmtWidth f := BitVec.isLt _

theorem isPlain_of_not_mx {f : Fmt} (h : isMx f = false) : isPlain f = true := by simp [isPlain, h]

theorem not_int_of_plainFloat {f : Fmt} (h : isPlainFloat f = true) : isInt f = false := by
  simp only [isPlainFloat, Bool.and_eq_true, Bool.not_eq_true'] at h
  exact h.2

/-! ### Results of arithmetic (R31, R36, R136) -/

theorem arith_float {f : Fmt} (h : isInt f = false) (fl : FVal → FVal → FVal) (ints : Nat → Nat → Nat) (a b : Nat) :
    arith f fl ints a b = rounded f (fl (decodeElem f a) (decodeElem f b)) := by
  rw [arith, h]; rfl

/-- Floating arithmetic is rounded once, integer arithmetic wraps. -/
theorem arith_eq (f : Fmt) (fl : FVal → FVal → FVal) (ints : Nat → Nat → Nat) (a b : Nat) :
    arith f fl ints a b =
      if isInt f then ints a b % 2 ^ fmtWidth f else rounded f (fl (decodeElem f a) (decodeElem f b)) := rfl

/-- Negation wraps within the width, whatever the operand's upper bits: there are none. -/
theorem elSub_eq {f : Fmt} {b : Nat} (hb : b < 2 ^ fmtWidth f) (a : Nat) :
    elSub f a b = if isInt f then (a + (2 ^ fmtWidth f - b)) % 2 ^ fmtWidth f
      else rounded f ((decodeElem f a).add (decodeElem f b).negate) := by
  rw [elSub, arith_eq, Nat.mod_eq_of_lt hb]

theorem decodeElem_signed {f : Fmt} (h : isSignedInt f = true) (a : Nat) :
    decodeElem f a = ofInt (signed (fmtWidth f) a) ∧ isInt f = true := by
  cases f <;> first | exact ⟨rfl, rfl⟩ | cases h

/-- The sign of a two's complement element, cleared or inverted. -/
theorem elAbs_signed {f : Fmt} (h : isSignedInt f = true) (a : Nat) :
    elAbs f a = unsigned (fmtWidth f) (signed (fmtWidth f) a).natAbs := by
  obtain ⟨value, int⟩ := decodeElem_signed h a
  rw [elAbs, elSign, if_pos int, value]
  rfl

theorem elNeg_signed {f : Fmt} (h : isSignedInt f = true) (a : Nat) :
    elNeg f a = unsigned (fmtWidth f) (-signed (fmtWidth f) a) := by
  obtain ⟨value, int⟩ := decodeElem_signed h a
  rw [elNeg, elSign, if_pos int, value]
  simp only [ofInt, FVal.negate]
  congr 1
  by_cases neg : signed (fmtWidth f) a < 0
  · simp only [neg, decide_true, Bool.not_true, Bool.false_eq_true, if_false]
    omega
  · simp only [neg, decide_false, Bool.not_false, if_true]
    omega

theorem elSign_float {f : Fmt} (h : isPlainFloat f = true) (g : FVal → FVal) (a : Nat) : elSign f g a = rounded f (g (decodeElem f a)) := by
  rw [elSign, not_int_of_plainFloat h]; rfl

/-- Settles O12: an instruction sets its elements; each operation is rounded once or wraps. -/
theorem vectorArithmeticResults : Obligations.VectorArithmeticResults := by
  unfold Obligations.VectorArithmeticResults
  intro s h f vd va vb vc ready
  dsimp only
  simp only [exec, execAdd, execSub, execMul, execFma, execDiv, execSqrt, execAbs, execNeg]
  have signs : isPlainFloat f = true ∨ isSignedInt f = true → (isPlainFloat f || isSignedInt f) = true := by simp
  refine ⟨fun plain => ?_, fun float => ?_, fun int => ?_, fun float => ?_⟩
  · have takes := isPlain_of_not_mx plain
    exact ⟨valu2_setsElems ready takes fun e => rfl, valu2_setsElems ready takes fun e => elSub_eq (vElem_lt ..) _,
      valu2_setsElems ready takes fun e => rfl⟩
  · exact ⟨valu_setsElems ready float vd fun e => rfl, valu2_setsElems ready float fun e => rfl,
      valu2_setsElems ready float fun e => rfl⟩
  · exact ⟨valu2_setsElems ready (signs (.inr int)) fun e => elAbs_signed int _,
      valu2_setsElems ready (signs (.inr int)) fun e => elNeg_signed int _⟩
  · exact ⟨valu2_setsElems ready (signs (.inl float)) fun e => elSign_float float _ _,
      valu2_setsElems ready (signs (.inl float)) fun e => elSign_float float _ _⟩

end Sys2Proof
end

section
/-!
PROOFS of the family 02_number_formats: selection, shifts, and the elements of a register that an operation writes.
-/
namespace Sys2Proof

open Machine

/-! ### A register from its elements (R35) -/

/-- A digit of a number in base `b` that is spelt by a list. -/
theorem foldr_digit {b : Nat} (hb : 0 < b) (xs : List Nat) (e : Nat) :
    xs.foldr (fun x acc => x % b + b * acc) 0 / b ^ e % b = xs.getD e 0 % b := by
  induction xs generalizing e with
  | nil => simp
  | cons x xs ih =>
    have low := Nat.mod_lt x hb
    cases e with
    | zero => simp [Nat.add_mul_mod_self_left]
    | succ e =>
      rw [List.foldr_cons, Nat.pow_succ', ← Nat.div_div_eq_div_mul, Nat.add_mul_div_left _ _ hb, Nat.div_eq_of_lt low, Nat.zero_add, ih,
        List.getD_cons_succ]

theorem foldr_digits_lt {b : Nat} (hb : 0 < b) (xs : List Nat) : xs.foldr (fun x acc => x % b + b * acc) 0 < b ^ xs.length := by
  induction xs with
  | nil => simp
  | cons x xs ih =>
    have low := Nat.mod_lt x hb
    rw [List.foldr_cons, List.length_cons, Nat.pow_succ']
    calc x % b + b * xs.foldr (fun x acc => x % b + b * acc) 0
        < b * (xs.foldr (fun x acc => x % b + b * acc) 0 + 1) := by rw [Nat.mul_add]; omega
      _ ≤ b * b ^ xs.length := Nat.mul_le_mul_left _ ih

theorem vElem_toNat (f : Fmt) (v : BitVec 2048) (e : Nat) : vElem f v e = v.toNat / (2 ^ fmtWidth f) ^ e % 2 ^ fmtWidth f := by
  rw [vElem, BitVec.extractLsb'_toNat, Nat.shiftRight_eq_div_pow, ← Nat.pow_mul, Nat.mul_comm]

/-- A register's elements fill it. -/
theorem elemCount_mul (f : Fmt) : fmtWidth f * elemCount f = 2048 := by cases f <;> rfl

/-- Element `e` of a register that is packed from its elements. -/
theorem vElem_vPack (f : Fmt) {xs : List Nat} (len : xs.length = elemCount f) (e : Nat) :
    vElem f (vPack (fmtWidth f) xs) e = xs.getD e 0 % 2 ^ fmtWidth f := by
  have fits := foldr_digits_lt (Nat.two_pow_pos (fmtWidth f)) xs
  rw [len, ← Nat.pow_mul, elemCount_mul] at fits
  rw [vElem_toNat, vPack, BitVec.toNat_ofNat, Nat.mod_eq_of_lt fits, foldr_digit (Nat.two_pow_pos _)]

/-- Elements of a register that is packed from a function of the element's place. -/
theorem vElem_vPack_map (f : Fmt) (el : Nat → Nat) {e : Nat} (he : e < elemCount f) :
    vElem f (vPack (fmtWidth f) ((List.range (elemCount f)).map el)) e = el e % 2 ^ fmtWidth f := by
  rw [vElem_vPack f (by simp), List.getD_eq_getElem _ _ (by simpa using he)]
  simp

/-- What an element reads after a write under a guard (R126). -/
theorem vElem_vWrite (f : Fmt) (guard : BitVec 256) (neg : Bool) (old : BitVec 2048) (el : Nat → Nat) {e : Nat} (he : e < elemCount f) :
    vElem f (vWrite f guard neg old el) e = if elemOn guard neg (elemCount f) e then el e % 2 ^ fmtWidth f else vElem f old e := by
  rw [vWrite, vElem_vPack_map f _ he]
  split
  · rfl
  · exact Nat.mod_eq_of_lt (vElem_lt ..)

/-- An arithmetic shift divides by a power of two, rounding down. -/
theorem elSra_eq (f : Fmt) (a b : Nat) :
    elSra f a b = unsigned (fmtWidth f) (signed (fmtWidth f) a / 2 ^ (b % fmtWidth f)) := by
  rw [elSra]; push_cast; rfl

theorem iota_formats {f : Fmt} (h : f = .i32 ∨ f = .u16) : (f == .i32 || f == .u16) = true := by
  rcases h with rfl | rfl <;> rfl

/-- Settles O13: each operation sets its elements as its function of `Vector` says, and a written register reads back its elements. -/
theorem vectorSelectAndShiftResults : Obligations.VectorSelectAndShiftResults := by
  unfold Obligations.VectorSelectAndShiftResults
  refine ⟨fun s h f vd va vb pc sa ready => ?_, fun f guard neg old el e he => vElem_vWrite f guard neg old el he⟩
  dsimp only
  simp only [exec, execMin, execMax, execSel, execBcast, execAnd, execOr, execXor, execShl, execShr, execSra, execIota]
  refine ⟨fun plain => ?_, fun int => ?_, fun int => ?_, fun counts => ?_⟩
  · have takes := isPlain_of_not_mx plain
    refine ⟨valu2_setsElems ready takes fun e => rfl, valu2_setsElems ready takes fun e => rfl,
      valu_setsElems ready takes vd fun e => ?_, valu_setsElems ready takes vd fun e => rfl⟩
    rw [elemOn, Bool.bne_false]
    rfl
  · exact ⟨valu2_setsElems ready int fun e => rfl, valu2_setsElems ready int fun e => rfl, valu2_setsElems ready int fun e => rfl,
      valu2_setsElems ready int fun e => rfl, valu2_setsElems ready int fun e => rfl⟩
  · exact valu2_setsElems ready int fun e => elSra_eq ..
  · exact valu_setsElems ready (iota_formats counts) vd fun e => rfl

end Sys2Proof
end

section
/-!
PROOFS of the family 02_number_formats: comparisons and reductions of the vector engine.
-/
namespace Sys2Proof

open Machine

/-! ### A predicate from its bits (R126) -/

/-- A predicate from a function of the bit's place. -/
def predOfBits (b : Nat → Bool) : BitVec 256 :=
  BitVec.ofNat 256 ((List.range 256).foldr (fun i acc => (if b i then 1 else 0) + 2 * acc) 0)

theorem predOfBits_getLsbD (b : Nat → Bool) {i : Nat} (hi : i < 256) : (predOfBits b).getLsbD i = b i := by
  have digits : (List.range 256).foldr (fun i acc => (if b i then 1 else 0) + 2 * acc) 0 =
      ((List.range 256).map fun i => (b i).toNat).foldr (fun x acc => x % 2 + 2 * acc) 0 := by
    rw [List.foldr_map]
    refine List.foldr_ext _ _ _ fun i _ acc => ?_
    cases b i <;> rfl
  have digit := foldr_digit (b := 2) (by decide) ((List.range 256).map fun i => (b i).toNat) i
  rw [← digits, List.getD_eq_getElem _ _ (by simpa using hi), List.getElem_map, List.getElem_range,
    Nat.mod_eq_of_lt (Bool.toNat_lt (b i))] at digit
  rw [predOfBits, BitVec.getLsbD_ofNat, decide_eq_true hi, Bool.true_and, Nat.testBit_eq_decide_div_mod_eq, digit]
  cases b i <;> rfl

/-- A comparison's new predicate: every bit of an element's group takes the element's result, under its guard (R126). -/
def cmpBits (t : Stall) (h : Hdr) (f : Fmt) (pd : PReg) (r : Nat → Bool) (i : Nat) : Bool :=
  if elemOn (t.vpred h.pred) h.pneg (elemCount f) (i / (256 / elemCount f)) then r (i / (256 / elemCount f))
  else (t.vpred pd).getLsbD i

/-- A comparison sets its predicate in program order; the sequencer's waits for the retire point (R127). -/
theorem vcmp_issues {s : State} {h : Hdr} (ready : UnitReady s h .vector .none) {f : Fmt} (plain : isMx f = false) (op : Nat) (mn : String)
    (pd : PReg) (va vb : VReg) (el : Fmt → Nat → Nat → Bool) {p : BitVec 256}
    (hp : p = predOfBits (cmpBits (stallOf s h) h f pd fun e => el f (vElem f (stallOf s h).v[va] e) (vElem f (stallOf s h).v[vb] e))) :
    Leaves (s.vcmp h op mn f pd va vb el) fun t => Issued s t h
      (if pd = 0 then Passed (stallOf s h) else { Passed (stallOf s h) with vp := (stallOf s h).vp.set pd p })
      { recordOf s h .vector 4 op with pWrite := some (pd, p) } noReg noByte := by
  obtain ⟨may, free⟩ := ready
  have stalls : ∀ x : State, x.stalls = (s.issued h.stall (unitCode .vector)).stalls → x.stall h.stall = Passed (stallOf s h) := fun x e => by
    rw [State.stall, e]; exact issued_stall s h.stall _
  obtain ⟨t, next, issued⟩ := issueWith_regs s h .vector (4, op) .none true
    (fun s r =>
      let t := s.stall h.stall
      let p := predOfBits (cmpBits t h f pd fun e => el f (vElem f t.v[va] e) (vElem f t.v[vb] e))
      (s.modStall h.stall fun t => t.setVP pd p, { r with pWrite := some (pd, p) })) may free
    (fun t => t.setVP pd p) (fun r => { r with pWrite := some (pd, p) }) fun x e => by
      simp only [stalls x e, hp]
      rfl
  exact ⟨t, by rw [State.vcmp, isPlain_of_not_mx plain]; exact next, issued⟩

/-- The same, bit by bit. -/
theorem vcmp_sets {s : State} {h : Hdr} (ready : UnitReady s h .vector .none) {f : Fmt} (plain : isMx f = false) (op : Nat) (mn : String)
    (pd : PReg) (va vb : VReg) (el : Fmt → Nat → Nat → Bool) :
    ∃ p : BitVec 256, (Leaves (s.vcmp h op mn f pd va vb el) fun t => Issued s t h
        (if pd = 0 then Passed (stallOf s h) else { Passed (stallOf s h) with vp := (stallOf s h).vp.set pd p })
        { recordOf s h .vector 4 op with pWrite := some (pd, p) } noReg noByte) ∧
      ∀ i, i < 256 → p.getLsbD i =
        cmpBits (stallOf s h) h f pd (fun e => el f (vElem f (stallOf s h).v[va] e) (vElem f (stallOf s h).v[vb] e)) i :=
  ⟨_, vcmp_issues ready plain op mn pd va vb el rfl, fun _ hi => predOfBits_getLsbD _ hi⟩

/-! ### Reductions (R135) -/

/-- In FP32 or INT32 the sum's addition is the format's. -/
theorem elAdd_sum {f : Fmt} (h : isPlainFloat f = true ∨ f = .i32) (p q : Nat) :
    elAdd f p q = if f = .i32 then (p + q) % 2 ^ 32 else rounded f ((decodeElem f p).add (decodeElem f q)) := by
  rcases h with float | rfl
  · have other : f ≠ .i32 := by rintro rfl; cases float
    rw [if_neg other]
    exact arith_float (not_int_of_plainFloat float) ..
  · rfl

theorem sum_formats {f : Fmt} (h : isPlainFloat f = true ∨ f = .i32) : (isPlainFloat f || f == .i32) = true := by simpa using h

/-- Settles O14: the new predicate of a comparison bit by bit, and what a reduction folds over. -/
theorem vectorCompareAndReductionResults : Obligations.VectorCompareAndReductionResults := by
  unfold Obligations.VectorCompareAndReductionResults
  refine ⟨fun s h f pd va vb ready plain => ?_, fun s h f vd va ready => ?_⟩
  · dsimp only
    simp only [exec, execCmpEq, execCmpNe, execCmpLt, execCmpLe]
    exact ⟨vcmp_sets ready plain _ _ pd va vb elEq, vcmp_sets ready plain _ _ pd va vb elNe,
      vcmp_sets ready plain _ _ pd va vb elLt, vcmp_sets ready plain _ _ pd va vb elLe⟩
  · dsimp only
    simp only [exec, execSum, execMaxr]
    refine ⟨fun takes => ?_, fun plain none => valu_setsV_eq ready (isPlain_of_not_mx plain) ?_,
      fun plain y ys some => valu_setsV_eq ready (isPlain_of_not_mx plain) ?_⟩
    · have add := funext fun p => funext fun q => elAdd_sum takes p q
      rw [← add]
      exact valu_setsV ready (sum_formats takes) vd _
    · have list : participants f (Passed (stallOf s h)) h va = [] := none
      simp only [list]
      rfl
    · have list : participants f (Passed (stallOf s h)) h va = y :: ys := some
      simp only [list]
      rfl

end Sys2Proof
end

section
/-!
PROOFS of the family 02_number_formats: rounding to the nearest code, ties to even (R30, R36).
-/
namespace Sys2Proof

open Machine

/-! ### Exact values as rationals -/

/-- A finite value as a rational number. -/
def Machine.FVal.toRat : FVal → ℚ
  | .fin n m e => (if n then -1 else 1) * (m * 2 ^ e)
  | _ => 0

theorem alignTo_toRat (n : Bool) (m : Nat) {e q : Int} (h : q ≤ e) :
    (alignTo n m e q : ℚ) = (FVal.fin n m e).toRat * 2 ^ (-q) := by
  have exact : (2 : ℚ) ^ (e - q).toNat = 2 ^ e * 2 ^ (-q) := by
    rw [← zpow_natCast, Int.toNat_of_nonneg (by omega), sub_eq_add_neg, zpow_add₀ (by norm_num)]
  cases n <;> simp [alignTo, FVal.toRat, exact, mul_assoc]

/-- The distance of two finite values in a unit that divides both. -/
theorem apart_toRat {a b : FVal} {n1 n2 : Bool} {m1 m2 : Nat} {e1 e2 q : Int} (ha : a = .fin n1 m1 e1) (hb : b = .fin n2 m2 e2)
    (h1 : q ≤ e1) (h2 : q ≤ e2) : (apart q a b : ℚ) = |a.toRat - b.toRat| * 2 ^ (-q) := by
  have unit : (0 : ℚ) < 2 ^ (-q) := by positivity
  rw [ha, hb, apart, Nat.cast_natAbs, Int.cast_abs, Int.cast_sub, alignTo_toRat _ _ h1, alignTo_toRat _ _ h2, ← sub_mul, abs_mul,
    abs_of_pos unit]

/-! ### Rounding to an integer (R36) -/

/-- The rounded quotient lies within half of the divisor, and in the middle it is even. -/
theorem rneShift_half (m d : Nat) :
    2 * |(m : ℤ) - rneShift m d * 2 ^ d| ≤ 2 ^ d ∧ (2 * |(m : ℤ) - rneShift m d * 2 ^ d| = 2 ^ d → rneShift m d % 2 = 0) := by
  have whole : (m : ℤ) = (m / 2 ^ d : ℕ) * 2 ^ d + (m % 2 ^ d : ℕ) := by exact_mod_cast (Nat.div_add_mod' m (2 ^ d)).symm
  have low : m % 2 ^ d < 2 ^ d := Nat.mod_lt m (Nat.two_pow_pos d)
  have cast : ((2 ^ d : ℕ) : ℤ) = 2 ^ d := by push_cast; rfl
  unfold rneShift
  dsimp only
  generalize m / 2 ^ d = f at *
  generalize m % 2 ^ d = r at *
  have stay : (m : ℤ) - f * 2 ^ d = r := by omega
  have up : (m : ℤ) - (f + 1 : ℕ) * 2 ^ d = -(2 ^ d - r) := by push_cast; linarith
  split
  · rw [up, abs_neg, abs_of_nonneg] <;> omega
  split
  · rcases Nat.mod_two_eq_zero_or_one f with even | odd
    · rw [even, Nat.add_zero, stay, Nat.abs_cast]; omega
    · rw [odd, up, abs_neg, abs_of_nonneg] <;> omega
  · rw [stay, Nat.abs_cast]; omega

/-- A value within half a step of a point is no nearer to any other. -/
theorem nearest_of_half {x d z : ℤ} (hd : 0 < d) (half : 2 * |x| ≤ d) :
    |x| ≤ |x - z * d| ∧ (|x| = |x - z * d| → z = 0 ∨ 2 * |x| = d) := by
  rcases lt_trichotomy z 0 with neg | rfl | pos
  · have far : z * d ≤ -d := by nlinarith
    rcases abs_cases x with ⟨e, _⟩ | ⟨e, _⟩ <;> rcases abs_cases (x - z * d) with ⟨e', _⟩ | ⟨e', _⟩ <;> omega
  · simp
  · have far : d ≤ z * d := by nlinarith
    rcases abs_cases x with ⟨e, _⟩ | ⟨e, _⟩ <;> rcases abs_cases (x - z * d) with ⟨e', _⟩ | ⟨e', _⟩ <;> omega

/-- Rounding a quotient by a power of two is nearest, and of two as near the even one. -/
theorem rneShift_nearest (m d i : Nat) :
    |(m : ℤ) - rneShift m d * 2 ^ d| ≤ |(m : ℤ) - i * 2 ^ d| ∧
      (|(m : ℤ) - rneShift m d * 2 ^ d| = |(m : ℤ) - i * 2 ^ d| → i = rneShift m d ∨ rneShift m d % 2 = 0) := by
  obtain ⟨half, tie⟩ := rneShift_half m d
  obtain ⟨near, same⟩ := nearest_of_half (z := i - rneShift m d) (by positivity) half
  have shift : (m : ℤ) - rneShift m d * 2 ^ d - (i - rneShift m d) * 2 ^ d = m - i * 2 ^ d := by ring
  rw [shift] at near same
  exact ⟨near, fun e => (same e).imp (fun z => by omega) tie⟩

/-! ### Rounding of a magnitude (R36) -/

/-- The unit in the last place that a magnitude is rounded to, and how many of it the rounded magnitude is. -/
def roundUnit (g : FloatSpec) (x : Nat) (e : Int) : Int := max g.qmin (Nat.log2 x + e - g.mb)

def roundSteps (g : FloatSpec) (x : Nat) (e : Int) : Nat :=
  if roundUnit g x e ≤ e then x * 2 ^ (e - roundUnit g x e).toNat else rneShift x (roundUnit g x e - e).toNat

theorem roundMag_eq (g : FloatSpec) {x : Nat} (h : x ≠ 0) (e : Int) :
    roundMag g x e = roundSteps g x e + (roundUnit g x e - g.qmin).toNat * 2 ^ g.mb := by rw [roundMag, if_neg h]; rfl

/-- Units of a finer grid. -/
theorem zpow_units (i : ℕ) {E Q : Int} (h : Q ≤ E) : (i : ℚ) * 2 ^ E = ((i * 2 ^ (E - Q).toNat : ℕ) : ℚ) * 2 ^ Q := by
  have split : (2 : ℚ) ^ E = 2 ^ (E - Q).toNat * 2 ^ Q := by
    rw [← zpow_natCast, ← zpow_add₀ (by norm_num), Int.toNat_of_nonneg (by omega), sub_add_cancel]
  push_cast
  rw [split, mul_assoc]

/-- Among the multiples of the unit, the rounded magnitude is nearest, and of two as near the even one. -/
theorem roundSteps_nearest (g : FloatSpec) (x : Nat) (e : Int) (i : Nat) :
    |(x * 2 ^ e : ℚ) - roundSteps g x e * 2 ^ roundUnit g x e| ≤ |(x * 2 ^ e : ℚ) - i * 2 ^ roundUnit g x e| ∧
      (|(x * 2 ^ e : ℚ) - roundSteps g x e * 2 ^ roundUnit g x e| = |(x * 2 ^ e : ℚ) - i * 2 ^ roundUnit g x e| →
        i = roundSteps g x e ∨ roundSteps g x e % 2 = 0) := by
  unfold roundSteps
  generalize roundUnit g x e = Q
  split
  · next exact =>
    rw [zpow_units x exact, sub_self, abs_zero]
    refine ⟨abs_nonneg _, fun same => .inl ?_⟩
    have zero := abs_eq_zero.mp same.symm
    rw [← sub_mul, mul_eq_zero, sub_eq_zero] at zero
    have unit : (2 : ℚ) ^ Q ≠ 0 := by positivity
    exact_mod_cast (zero.resolve_right unit).symm
  · next coarse =>
    obtain ⟨near, tie⟩ := rneShift_nearest x (Q - e).toNat i
    have unit : (0 : ℚ) < 2 ^ e := by positivity
    have scaled : ∀ j : ℕ, |(x * 2 ^ e : ℚ) - j * 2 ^ Q| = (|(x : ℤ) - j * 2 ^ (Q - e).toNat| : ℤ) * 2 ^ e := fun j => by
      rw [zpow_units j (show e ≤ Q by omega), ← sub_mul, abs_mul, abs_of_pos unit]
      push_cast
      rfl
    rw [scaled, scaled]
    refine ⟨mul_le_mul_of_nonneg_right (by exact_mod_cast near) unit.le, fun same => tie ?_⟩
    exact_mod_cast mul_right_cancel₀ unit.ne' same

/-- A magnitude lies below the next power of two, and at or above its own. -/
theorem magnitude_bounds (g : FloatSpec) {x : Nat} (h : x ≠ 0) (e : Int) :
    (x * 2 ^ e : ℚ) < 2 ^ (g.mb + 1) * 2 ^ roundUnit g x e ∧
      (g.qmin < roundUnit g x e → (2 ^ g.mb : ℚ) * 2 ^ roundUnit g x e ≤ x * 2 ^ e) := by
  have top : (x : ℚ) < 2 ^ (Nat.log2 x + 1) := by exact_mod_cast Nat.lt_log2_self
  have bottom : (2 : ℚ) ^ Nat.log2 x ≤ x := by exact_mod_cast Nat.log2_self_le h
  have unit : (0 : ℚ) < 2 ^ e := by positivity
  have join : ∀ (a : ℕ) (b : ℤ), (2 : ℚ) ^ a * 2 ^ b = 2 ^ ((a : ℤ) + b) := fun a b => by
    rw [zpow_add₀ (by norm_num), zpow_natCast]
  have least : g.qmin ≤ roundUnit g x e ∧ Nat.log2 x + e - g.mb ≤ roundUnit g x e := ⟨le_max_left .., le_max_right ..⟩
  constructor
  · calc (x * 2 ^ e : ℚ) < 2 ^ (Nat.log2 x + 1) * 2 ^ e := mul_lt_mul_of_pos_right top unit
      _ = 2 ^ (((Nat.log2 x + 1 : ℕ) : ℤ) + e) := join _ _
      _ ≤ 2 ^ (((g.mb + 1 : ℕ) : ℤ) + roundUnit g x e) := zpow_le_zpow_right₀ (by norm_num) (by push_cast; omega)
      _ = 2 ^ (g.mb + 1) * 2 ^ roundUnit g x e := (join _ _).symm
  · intro coarse
    have own : roundUnit g x e = Nat.log2 x + e - g.mb := by
      unfold roundUnit at coarse ⊢; omega
    calc (2 ^ g.mb : ℚ) * 2 ^ roundUnit g x e = 2 ^ ((g.mb : ℤ) + roundUnit g x e) := join _ _
      _ = 2 ^ ((Nat.log2 x : ℤ) + e) := by rw [own]; congr 1; omega
      _ = 2 ^ Nat.log2 x * 2 ^ e := (join _ _).symm
      _ ≤ x * 2 ^ e := mul_le_mul_of_nonneg_right bottom unit.le

/-- The rounded magnitude stays in its binade, or is the next power of two. -/
theorem roundSteps_bounds (g : FloatSpec) {x : Nat} (h : x ≠ 0) (e : Int) :
    roundSteps g x e ≤ 2 ^ (g.mb + 1) ∧ (g.qmin < roundUnit g x e → 2 ^ g.mb ≤ roundSteps g x e) := by
  obtain ⟨top, bottom⟩ := magnitude_bounds g h e
  have unit : (0 : ℚ) < 2 ^ roundUnit g x e := by positivity
  have lt : ∀ i j : ℕ, i < j → (i : ℚ) * 2 ^ roundUnit g x e < j * 2 ^ roundUnit g x e := fun i j hij =>
    mul_lt_mul_of_pos_right (by exact_mod_cast hij) unit
  constructor
  · by_contra above
    have near := (roundSteps_nearest g x e (2 ^ (g.mb + 1))).1
    have far := lt _ _ (Nat.lt_of_not_le above)
    push_cast at near far
    rw [abs_of_neg (by linarith), abs_of_neg (by linarith)] at near
    linarith
  · intro coarse
    by_contra below
    have near := (roundSteps_nearest g x e (2 ^ g.mb)).1
    have far := lt _ _ (Nat.lt_of_not_le below)
    have low := bottom coarse
    push_cast at near far
    rw [abs_of_nonneg (by linarith), abs_of_nonneg (by linarith)] at near
    linarith

/-! ### The values of codes (R30) -/

/-- The value of a magnitude's code. -/
def codeMag (g : FloatSpec) (k : Nat) : ℚ :=
  if k / 2 ^ g.mb = 0 then (k % 2 ^ g.mb : ℕ) * 2 ^ g.qmin
  else (k % 2 ^ g.mb + 2 ^ g.mb : ℕ) * 2 ^ (g.qmin + (k / 2 ^ g.mb : ℕ) - 1)

/-- The code of a rounded magnitude has its value. -/
theorem codeMag_steps (g : FloatSpec) {t d : Nat} (top : t ≤ 2 ^ (g.mb + 1)) (low : d = 0 ∨ 2 ^ g.mb ≤ t) :
    codeMag g (t + d * 2 ^ g.mb) = t * 2 ^ (g.qmin + d) := by
  have pos := Nat.two_pow_pos g.mb
  have split : ∀ a b : ℕ, b < 2 ^ g.mb → (b + a * 2 ^ g.mb) / 2 ^ g.mb = a ∧ (b + a * 2 ^ g.mb) % 2 ^ g.mb = b := fun a b hb =>
    ⟨by rw [Nat.add_mul_div_right _ _ pos, Nat.div_eq_of_lt hb, Nat.zero_add], by
      rw [Nat.add_mul_mod_self_right, Nat.mod_eq_of_lt hb]⟩
  rw [Nat.pow_succ] at top
  unfold codeMag
  rcases lt_or_ge t (2 ^ g.mb) with small | normal
  · obtain rfl : d = 0 := low.resolve_right (by omega)
    obtain ⟨ex, man⟩ := split 0 t small
    rw [ex, man, if_pos rfl]
    simp
  · obtain ⟨r, rfl⟩ := Nat.exists_eq_add_of_le normal
    rcases lt_or_ge r (2 ^ g.mb) with inside | power
    · obtain ⟨ex, man⟩ := split (d + 1) r inside
      rw [show 2 ^ g.mb + r + d * 2 ^ g.mb = r + (d + 1) * 2 ^ g.mb by ring, ex, man, if_neg (by omega), Nat.add_comm r]
      congr 2
      push_cast
      ring
    · obtain rfl : r = 2 ^ g.mb := by omega
      obtain ⟨ex, man⟩ := split (d + 2) 0 pos
      rw [show 2 ^ g.mb + 2 ^ g.mb + d * 2 ^ g.mb = 0 + (d + 2) * 2 ^ g.mb by ring, ex, man, if_neg (by omega), Nat.zero_add,
        show g.qmin + ((d + 2 : ℕ) : ℤ) - 1 = g.qmin + d + 1 by push_cast; ring, zpow_add_one₀ (by norm_num)]
      push_cast
      ring

/-- Among all values that a format has codes for, the rounded magnitude is nearest, and of two as near the one with the even code. -/
theorem roundMag_nearest (g : FloatSpec) (mb : g.mb ≠ 0) (x : Nat) (e : Int) {i : Nat} {E : Int} (hi : i < 2 ^ (g.mb + 1)) (hE : g.qmin ≤ E) :
    |(x * 2 ^ e : ℚ) - codeMag g (roundMag g x e)| ≤ |(x * 2 ^ e : ℚ) - i * 2 ^ E| ∧
      (|(x * 2 ^ e : ℚ) - codeMag g (roundMag g x e)| = |(x * 2 ^ e : ℚ) - i * 2 ^ E| →
        codeMag g (roundMag g x e) = i * 2 ^ E ∨ roundMag g x e % 2 = 0) := by
  by_cases h : x = 0
  · subst h
    have least : 0 ≤ (i : ℚ) * 2 ^ E := by positivity
    simpa [roundMag, codeMag] using least
  obtain ⟨top, bottom⟩ := roundSteps_bounds g h e
  have least : g.qmin ≤ roundUnit g x e := le_max_left ..
  have value : codeMag g (roundMag g x e) = roundSteps g x e * 2 ^ roundUnit g x e := by
    rw [roundMag_eq g h, codeMag_steps g top (by
      rcases least.lt_or_eq with coarse | fine
      · exact .inr (bottom coarse)
      · exact .inl (by omega)), Int.toNat_of_nonneg (by omega), add_sub_cancel]
  have parity : roundMag g x e % 2 = roundSteps g x e % 2 := by
    rw [roundMag_eq g h, Nat.add_mod, Nat.mul_mod, Nat.pow_mod, Nat.mod_self, Nat.zero_pow (by omega)]
    simp
  rw [value, parity]
  rcases le_or_gt (roundUnit g x e) E with multiple | finer
  · obtain ⟨near, tie⟩ := roundSteps_nearest g x e (i * 2 ^ (E - roundUnit g x e).toNat)
    rw [zpow_units i multiple]
    exact ⟨near, fun same => (tie same).imp (fun z => by rw [z]) id⟩
  · obtain ⟨-, low⟩ := magnitude_bounds g h e
    have near := (roundSteps_nearest g x e (2 ^ g.mb)).1
    have under : (i : ℚ) * 2 ^ E < 2 ^ g.mb * 2 ^ roundUnit g x e := by
      have size : (i : ℚ) < 2 ^ (g.mb + 1) := by exact_mod_cast hi
      calc (i : ℚ) * 2 ^ E < 2 ^ (g.mb + 1) * 2 ^ E := mul_lt_mul_of_pos_right size (by positivity)
        _ = 2 ^ g.mb * 2 ^ (E + 1) := by rw [zpow_add_one₀ (by norm_num), pow_succ]; ring
        _ ≤ 2 ^ g.mb * 2 ^ roundUnit g x e := by
          refine mul_le_mul_of_nonneg_left (zpow_le_zpow_right₀ (by norm_num) (by omega)) (by positivity)
    have above := low (by omega)
    push_cast at near
    have far : |(x * 2 ^ e : ℚ) - roundSteps g x e * 2 ^ roundUnit g x e| < |(x * 2 ^ e : ℚ) - i * 2 ^ E| := by
      rw [abs_of_nonneg (a := (x * 2 ^ e : ℚ) - 2 ^ g.mb * 2 ^ roundUnit g x e) (by linarith)] at near
      rw [abs_of_pos (a := (x * 2 ^ e : ℚ) - i * 2 ^ E) (by linarith)]
      linarith
    exact ⟨far.le, fun same => absurd same far.ne⟩

/-! ### Codes of a format (R30) -/

/-- What the encodings of R30 have in common: a mantissa, and a largest finite code below those of infinities and NaN. -/
structure CodesFit (g : FloatSpec) : Prop where
  mb : g.mb ≠ 0
  max : g.maxBits < 2 ^ g.eb * 2 ^ g.mb - 1
  inf : g.hasInf = true → g.maxBits < (2 ^ g.eb - 1) * 2 ^ g.mb

theorem floatSpec_fits {f : Fmt} {g : FloatSpec} (h : floatSpec f = some g) : CodesFit g := by
  cases f <;> simp only [floatSpec, Option.some.injEq, reduceCtorEq] at h <;> subst h <;> exact ⟨by decide, by decide, by decide⟩

/-- A finite code's value is a multiple of the smallest subnormal's power, of at most a mantissa's width. -/
theorem decodeFloat_fin {g : FloatSpec} {c : Nat} {n : Bool} {x : Nat} {e : Int} (h : decodeFloat g c = .fin n x e) :
    x < 2 ^ (g.mb + 1) ∧ g.qmin ≤ e := by
  have man := Nat.mod_lt c (Nat.two_pow_pos g.mb)
  rw [Nat.pow_succ]
  simp only [decodeFloat] at h
  split at h
  · split at h <;> cases h
  split at h
  · cases h
  split at h
  · cases h
    exact ⟨by omega, le_refl _⟩
  · cases h
    exact ⟨by omega, by omega⟩

/-- The fields of a signed code. -/
theorem signBit_fields (g : FloatSpec) (n : Bool) {k : Nat} (hk : k < 2 ^ g.eb * 2 ^ g.mb) :
    bitOf (g.signBit n + k) (g.eb + g.mb) = n ∧ bitsOf (g.signBit n + k) g.mb g.eb = k / 2 ^ g.mb ∧
      (g.signBit n + k) % 2 ^ g.mb = k % 2 ^ g.mb := by
  have sign : g.signBit n = n.toNat * (2 ^ g.eb * 2 ^ g.mb) := by cases n <;> simp [FloatSpec.signBit, Nat.pow_add]
  have man := Nat.two_pow_pos g.mb
  have all := Nat.mul_pos (Nat.two_pow_pos g.eb) man
  rw [sign]
  refine ⟨?_, ?_, ?_⟩
  · rw [bitOf, Nat.pow_add, Nat.add_comm, Nat.add_mul_div_right _ _ all, Nat.div_eq_of_lt hk]
    cases n <;> rfl
  · rw [bitsOf, ← Nat.mul_assoc, Nat.add_comm, Nat.add_mul_div_right _ _ man, Nat.add_mul_mod_self_right]
    exact Nat.mod_eq_of_lt (Nat.div_lt_of_lt_mul (by rw [Nat.mul_comm]; exact hk))
  · rw [← Nat.mul_assoc, Nat.add_comm, Nat.add_mul_mod_self_right]

/-- A code of at most the largest finite magnitude is finite, and has its magnitude's value. -/
theorem decodeFloat_signBit {g : FloatSpec} (fits : CodesFit g) (n : Bool) {k : Nat} (hk : k ≤ g.maxBits) :
    ∃ x e, decodeFloat g (g.signBit n + k) = .fin n x e ∧ (x * 2 ^ e : ℚ) = codeMag g k := by
  obtain ⟨-, max, inf⟩ := fits
  obtain ⟨sign, ex, man⟩ := signBit_fields g n (k := k) (by omega)
  have pos := Nat.two_pow_pos g.mb
  have whole := Nat.div_add_mod' k (2 ^ g.mb)
  simp only [decodeFloat, sign, ex, man, codeMag]
  rw [if_neg, if_neg]
  · split
    · exact ⟨_, _, rfl, rfl⟩
    · refine ⟨_, _, rfl, by push_cast; rfl⟩
  · rintro ⟨top, full⟩
    rw [top, full, Nat.sub_mul] at whole
    have := Nat.le_mul_of_pos_left (2 ^ g.mb) (Nat.two_pow_pos g.eb)
    omega
  · rintro ⟨top, has⟩
    rw [top] at whole
    have := inf has
    omega

/-- A finite value that a conversion rounds without overflow. -/
theorem toFloat_fits {g : FloatSpec} {m : OvMode} {n : Bool} {x : Nat} {e : Int} (h : (toFloat g m (.fin n x e)).ovf = false) :
    roundMag g x e ≤ g.maxBits ∧ (toFloat g m (.fin n x e)).bits = g.signBit n + roundMag g x e := by
  by_cases fits : roundMag g x e ≤ g.maxBits
  · exact ⟨fits, by simp only [toFloat, fits, if_true]⟩
  · cases m <;> simp [toFloat, fits] at h

/-- Distances of signed values from those of their magnitudes. -/
theorem signed_nearest {y k j : ℚ} (hy : 0 ≤ y) (hj : 0 ≤ j) (n n' : Bool) (odd : Prop)
    (near : |y - k| ≤ |y - j| ∧ (|y - k| = |y - j| → k = j ∨ odd)) (zero : |y - k| ≤ |y| ∧ (|y - k| = |y| → k = 0 ∨ odd)) :
    let s := fun (n : Bool) (z : ℚ) => (if n then -1 else 1) * z
    |s n y - s n k| ≤ |s n y - s n' j| ∧ (|s n y - s n k| = |s n y - s n' j| → s n k = s n' j ∨ odd) := by
  have same : ∀ z, |(if n then (-1 : ℚ) else 1) * y - (if n then -1 else 1) * z| = |y - z| := fun z => by
    rw [← mul_sub, abs_mul]
    cases n <;> simp
  dsimp only
  rw [same]
  by_cases h : n' = n
  · rw [h, same]
    exact ⟨near.1, fun e => (near.2 e).imp (fun z => by rw [z]) id⟩
  · have far : |(if n then (-1 : ℚ) else 1) * y - (if n' then -1 else 1) * j| = y + j := by
      have sum : |y + j| = y + j := abs_of_nonneg (by linarith)
      cases n with
      | false =>
        obtain rfl : n' = true := by simpa using h
        simpa using sum
      | true =>
        obtain rfl : n' = false := by simpa using h
        rw [show (if true then (-1 : ℚ) else 1) * y - (if false = true then -1 else 1) * j = -(y + j) by simp; ring, abs_neg, sum]
    rw [abs_of_nonneg hy] at zero
    rw [far]
    refine ⟨by linarith, fun e => ?_⟩
    obtain rfl : j = 0 := by linarith
    refine (zero.2 (by linarith)).imp (fun z => ?_) id
    rw [z]
    simp

/-! ### The rounded result of a conversion (R36) -/

/-- Rounding into a floating format is to the nearest code, and of two as near the even one. -/
theorem toFloat_nearest {g : FloatSpec} (fits : CodesFit g) {m : OvMode} {n : Bool} {x : Nat} {e : Int}
    (ovf : (toFloat g m (.fin n x e)).ovf = false) {c : Nat} (hc : ∃ n' x' e', decodeFloat g c = .fin n' x' e') :
    let v := FVal.fin n x e
    let a := decodeFloat g (toFloat g m v).bits
    let b := decodeFloat g c
    let q := min e (min (expOf a) (expOf b))
    (∃ n' x' e', a = .fin n' x' e') ∧ apart q v a ≤ apart q v b ∧
      (apart q v a = apart q v b → apart q a b = 0 ∨ (toFloat g m v).bits % 2 = 0) := by
  obtain ⟨n', i, E, hb⟩ := hc
  obtain ⟨hi, hE⟩ := decodeFloat_fin hb
  obtain ⟨small, bits⟩ := toFloat_fits ovf
  obtain ⟨y, d, ha, value⟩ := decodeFloat_signBit fits n small
  dsimp only
  rw [bits, ha, hb]
  have parity : (g.signBit n + roundMag g x e) % 2 = roundMag g x e % 2 := by
    have even : g.signBit n % 2 = 0 := by
      have := fits.mb
      cases n with
      | false => rfl
      | true =>
        rw [FloatSpec.signBit, if_pos rfl, Nat.pow_mod, Nat.mod_self, Nat.zero_pow (by omega)]
    omega
  refine ⟨⟨n, y, d, rfl⟩, ?_⟩
  simp only [expOf]
  generalize hq : min e (min d E) = q
  have qe : q ≤ e := hq ▸ min_le_left ..
  have qd : q ≤ d := hq ▸ (min_le_right ..).trans (min_le_left ..)
  have qE : q ≤ E := hq ▸ (min_le_right ..).trans (min_le_right ..)
  have unit : (0 : ℚ) < 2 ^ (-q) := by positivity
  have near := roundMag_nearest g fits.mb x e hi hE
  have zero := roundMag_nearest g fits.mb x e (i := 0) (Nat.two_pow_pos _) hE
  simp only [Nat.cast_zero, zero_mul, sub_zero] at zero
  rw [← value] at near zero
  have signed := signed_nearest (y := x * 2 ^ e) (k := y * 2 ^ d) (j := i * 2 ^ E) (by positivity) (by positivity) n n' _ near zero
  have va := apart_toRat (a := .fin n x e) (b := .fin n y d) rfl rfl qe qd
  have vb := apart_toRat (a := .fin n x e) (b := .fin n' i E) rfl rfl qe qE
  have ab := apart_toRat (a := .fin n y d) (b := .fin n' i E) rfl rfl qd qE
  constructor
  · have le := mul_le_mul_of_nonneg_right signed.1 unit.le
    rw [← @Nat.cast_le ℚ, va, vb]
    exact le
  · intro same
    rw [← @Nat.cast_inj ℚ, va, vb] at same
    rw [parity]
    refine (signed.2 (mul_right_cancel₀ unit.ne' same)).imp (fun z => ?_) id
    rw [← @Nat.cast_inj ℚ, ab]
    simp only [FVal.toRat, z, sub_self, abs_zero, zero_mul, Nat.cast_zero]

/-- A plain floating format converts as its encoding. -/
theorem encodeElem_float {f : Fmt} {g : FloatSpec} (h : floatSpec f = some g) (m : OvMode) (v : FVal) :
    encodeElem f m v = toFloat g m v := by
  cases f <;> simp only [floatSpec, Option.some.injEq, reduceCtorEq] at h <;> subst h <;> rfl

theorem decodeElem_float {f : Fmt} {g : FloatSpec} (h : floatSpec f = some g) (c : Nat) : decodeElem f c = decodeFloat g c := by
  cases f <;> simp only [floatSpec, Option.some.injEq, reduceCtorEq] at h <;> subst h <;> rfl

end Sys2Proof
end

section
/-!
PROOFS of the family 02_number_formats: `cvt`, its parts, its block scales and its events.
-/
namespace Sys2Proof

open Machine

/-! ### Lists of pieces and of keys -/

/-- An element of pieces of one length, put one behind the other. -/
theorem getD_flatten {α : Type} {c : Nat} (hc : 0 < c) (d : α) (ls : List (List α)) (len : ∀ l ∈ ls, l.length = c) (i : Nat) :
    ls.flatten.getD i d = (ls.getD (i / c) []).getD (i % c) d := by
  induction ls generalizing i with
  | nil => simp
  | cons l ls ih =>
    have size := len l List.mem_cons_self
    rcases lt_or_ge i c with first | later
    · rw [List.flatten_cons, List.getD_append _ _ _ _ (by omega), Nat.div_eq_of_lt first, Nat.mod_eq_of_lt first, List.getD_cons_zero]
    · obtain ⟨j, rfl⟩ := Nat.exists_eq_add_of_le later
      rw [List.flatten_cons, List.getD_append_right _ _ _ _ (by omega), size, Nat.add_sub_cancel_left,
        ih (fun x hx => len x (List.mem_cons_of_mem _ hx)), Nat.add_div_left _ hc, Nat.add_mod_left,
        List.getD_cons_succ]

theorem getD_map_range {α : Type} (g : Nat → α) (d : α) {n i : Nat} (h : i < n) : ((List.range n).map g).getD i d = g i := by
  rw [List.getD_eq_getElem _ _ (by simpa using h), List.getElem_map, List.getElem_range]

/-- Of entries that each carry the key they were made of, the one of a key. -/
theorem find_filterMap_key {β : Type} (g : Nat → Option (Nat × β)) (key : ∀ a w, g a = some w → w.1 = a) (l : List Nat) (e : Nat) :
    ((l.filterMap g).find? fun w => w.1 = e) = if e ∈ l then g e else none := by
  induction l with
  | nil => rfl
  | cons a l ih =>
    cases h : g a with
    | none =>
      rw [List.filterMap_cons_none h, ih]
      by_cases same : e = a
      · simp [same, h]
      · simp [same]
    | some w =>
      have own := key a w h
      rw [List.filterMap_cons_some h]
      by_cases same : e = a
      · rw [List.find?_cons_of_pos (by simp [own, same]), same, h]
        simp
      · rw [List.find?_cons_of_neg (by simpa [own] using Ne.symm same), ih]
        simp [same]

/-! ### The part that an instruction fills (R138) -/

/-- A register holds 64, 128 or 256 elements, by the width of its format. -/
theorem elemCount_cases (f : Fmt) :
    (fmtWidth f = 8 ∧ elemCount f = 256) ∨ (fmtWidth f = 16 ∧ elemCount f = 128) ∨ (fmtWidth f = 32 ∧ elemCount f = 64) := by
  cases f <;> simp [fmtWidth, elemCount]

theorem isMx_count {t : Fmt} (h : isMx t = true) : fmtWidth t = 8 ∧ elemCount t = 256 := by
  cases t <;> first | exact ⟨rfl, rfl⟩ | cases h

/-- A part in range lies in the wider of the two registers. -/
theorem part_fits {t f : Fmt} {part : Nat} {k : Kind} (h : cvtPartOk t f part k = true) :
    (elemCount f < elemCount t → part * elemCount f + elemCount f ≤ elemCount t) ∧
      (elemCount t < elemCount f → part * elemCount t + elemCount t ≤ elemCount f) ∧ (elemCount t = elemCount f → part = 0) := by
  simp only [cvtPartOk, Bool.and_eq_true, decide_eq_true_eq] at h
  obtain ⟨range, -⟩ := h
  rcases elemCount_cases t with ⟨wt, ct⟩ | ⟨wt, ct⟩ | ⟨wt, ct⟩ <;> rcases elemCount_cases f with ⟨wf, cf⟩ | ⟨wf, cf⟩ | ⟨wf, cf⟩ <;>
    (rw [wt, wf] at range; rw [ct, cf]; omega)

/-- A destination element in the part has a source element. -/
theorem cvtSource_lt {t f : Fmt} {part : Nat} {k : Kind} (h : cvtPartOk t f part k = true) {e i : Nat} (he : e < elemCount t)
    (source : cvtSource t f part e = some i) : i < elemCount f := by
  obtain ⟨wider, narrower, -⟩ := part_fits h
  simp only [cvtSource] at source
  split at source
  · obtain rfl := Option.some.inj source
    omega
  split at source
  · split at source
    · obtain rfl := Option.some.inj source
      omega
    · cases source
  · obtain rfl := Option.some.inj source
    have := narrower (by omega)
    omega

/-! ### Converted elements (R52, R53) -/

/-- The largest exponent of a block of source elements. -/
def blockTop (val : Nat → FVal) (b : Nat) : Option Int := blockExp ((List.range 32).map fun j => val (32 * b + j))

/-- A source element converted: rounded once, in a block of an MX target after the division by the block's scale. -/
def convOf (t : Fmt) (m : OvMode) (k : Kind) (val : Nat → FVal) (i : Nat) : Conv :=
  if isMx t then
    match blockTop val (i / 32) with
    | none => encodeMxElem t m false ((val i).scale 127)
    | some E => encodeMxElem t m (decide (127 < E - emaxElem t + headroom k))
        ((val i).scale (-(max (-127) (min 127 (E - emaxElem t + headroom k)))))
  else encodeElem t m (val i)

/-- The scale code of a block. -/
def codeOf (t : Fmt) (k : Kind) (val : Nat → FVal) (b : Nat) : Nat :=
  match blockTop val b with
  | none => 0
  | some E => (max (-127) (min 127 (E - emaxElem t + headroom k)) + 127).toNat

theorem codeOf_lt (t : Fmt) (k : Kind) (val : Nat → FVal) (b : Nat) : codeOf t k val b < 256 := by
  unfold codeOf
  split <;> omega

/-- The elements and the code of a block of 32. -/
theorem encodeBlock_eq (t : Fmt) (mx : isMx t = true) (m : OvMode) (k : Kind) (val : Nat → FVal) (b : Nat) :
    encodeBlock t m (headroom k) ((List.range 32).map fun j => val (32 * b + j)) =
      (codeOf t k val b, (List.range 32).map fun j => convOf t m k val (32 * b + j)) := by
  have block : ∀ j ∈ List.range 32, (32 * b + j) / 32 = b := fun j hj => by
    have := List.mem_range.mp hj
    omega
  unfold encodeBlock codeOf convOf
  change (match blockTop val b with | none => _ | some ex => _) = _
  simp only [mx, if_true]
  cases top : blockTop val b with
  | none =>
    dsimp only
    refine congrArg (Prod.mk _) ((List.map_map ..).trans (List.map_congr_left fun j hj => ?_))
    rw [Function.comp, block j hj, top]
  | some E =>
    dsimp only
    refine congrArg (Prod.mk _) ((List.map_map ..).trans (List.map_congr_left fun j hj => ?_))
    rw [Function.comp, block j hj, top]
    rfl

/-- A block of a list of values. -/
theorem drop_take_block (val : Nat → FVal) {n b : Nat} (h : 32 * b + 32 ≤ n) :
    (((List.range n).map val).drop (32 * b)).take 32 = (List.range 32).map fun j => val (32 * b + j) := by
  refine List.ext_getElem (by simp; omega) fun i h1 h2 => ?_
  simp

/-- A register's elements fill whole blocks. -/
theorem elemCount_blocks (f : Fmt) : 32 * (elemCount f / 32) = elemCount f := by
  rcases elemCount_cases f with ⟨-, c⟩ | ⟨-, c⟩ | ⟨-, c⟩ <;> rw [c]

theorem cvtAll_eq (t f : Fmt) (m : OvMode) (k : Kind) (v : BitVec 2048) (sc : BitVec 64) :
    cvtAll t f m k v sc =
      if isMx t then
        (((List.range (elemCount f / 32)).map fun b => (List.range 32).map fun j => convOf t m k (cvtValue f v sc) (32 * b + j)).flatten,
          (List.range (elemCount f / 32)).map (codeOf t k (cvtValue f v sc)))
      else ((List.range (elemCount f)).map (convOf t m k (cvtValue f v sc)), []) := by
  have all := elemCount_blocks f
  unfold cvtAll
  split
  · next mx =>
    have blocks : ((List.range (elemCount f / 32)).map fun b =>
        encodeBlock t m (headroom k) ((((List.range (elemCount f)).map (cvtValue f v sc)).drop (32 * b)).take 32)) =
        (List.range (elemCount f / 32)).map fun b =>
          (codeOf t k (cvtValue f v sc) b, (List.range 32).map fun j => convOf t m k (cvtValue f v sc) (32 * b + j)) :=
      List.map_congr_left fun b hb => by
        have := List.mem_range.mp hb
        rw [drop_take_block _ (by omega), encodeBlock_eq t mx]
    dsimp only
    rw [blocks, List.map_map, List.map_map]
    rfl
  · next plain =>
    refine Prod.ext ((List.map_map ..).trans (List.map_congr_left fun i _ => ?_)) rfl
    rw [convOf, if_neg plain]
    rfl

/-- Every source element has been converted. -/
theorem cvtAll_getD (t f : Fmt) (m : OvMode) (k : Kind) (v : BitVec 2048) (sc : BitVec 64) {i : Nat} (h : i < elemCount f) :
    (cvtAll t f m k v sc).1.getD i { bits := 0 } = convOf t m k (cvtValue f v sc) i := by
  have all := elemCount_blocks f
  rw [cvtAll_eq]
  split
  · dsimp only
    rw [getD_flatten (c := 32) (by decide) _ _ (by simp), getD_map_range _ _ (by omega), getD_map_range _ _ (by omega), Nat.div_add_mod]
  · exact getD_map_range _ _ h

/-! ### Bytes of a scalar register (R138) -/

/-- Bytes of which byte `b0 + i` is `x i`, for `i` below `n`. -/
def bytesFrom (b0 n : Nat) (x : Nat → Nat) : Nat := (List.range n).foldl (fun m i => m + x i * 2 ^ (8 * (b0 + i))) 0

theorem bytesFrom_succ (b0 n : Nat) (x : Nat → Nat) : bytesFrom b0 (n + 1) x = bytesFrom b0 n x + x n * 2 ^ (8 * (b0 + n)) := by
  simp [bytesFrom, List.range_succ]

theorem bytesFrom_lt (b0 n : Nat) {x : Nat → Nat} (hx : ∀ i, i < n → x i < 256) : bytesFrom b0 n x < 2 ^ (8 * (b0 + n)) := by
  induction n with
  | zero => exact Nat.two_pow_pos _
  | succ n ih =>
    have top := Nat.mul_le_mul_right (2 ^ (8 * (b0 + n))) (hx n (by omega))
    rw [Nat.succ_mul] at top
    rw [bytesFrom_succ, show 8 * (b0 + (n + 1)) = 8 + 8 * (b0 + n) by ring, Nat.pow_add 2 8]
    have := ih fun i hi => hx i (by omega)
    omega

/-- Each byte reads back. -/
theorem bytesFrom_byte (b0 n : Nat) {x : Nat → Nat} (hx : ∀ i, i < n → x i < 256) (b : Nat) :
    bytesFrom b0 n x / 2 ^ (8 * b) % 2 ^ 8 = if b0 ≤ b ∧ b < b0 + n then x (b - b0) else 0 := by
  induction n with
  | zero =>
    rw [if_neg (by omega)]
    simp [bytesFrom]
  | succ n ih =>
    have small : ∀ i, i < n → x i < 256 := fun i hi => hx i (by omega)
    have low := bytesFrom_lt b0 n small
    have byte := hx n (by omega)
    rw [bytesFrom_succ]
    rcases lt_trichotomy b (b0 + n) with below | rfl | above
    · rw [show 8 * (b0 + n) = 8 + 8 * (b0 + n - b - 1) + 8 * b by omega, Nat.pow_add, Nat.pow_add, ← Nat.mul_assoc,
        Nat.add_mul_div_right _ _ (Nat.two_pow_pos _), Nat.mul_left_comm, Nat.add_mul_mod_self_left, ih small]
      exact if_congr (by omega) rfl rfl
    · rw [Nat.add_mul_div_right _ _ (Nat.two_pow_pos _), Nat.div_eq_of_lt low, Nat.zero_add, Nat.mod_eq_of_lt (show x n < 2 ^ 8 from byte), if_pos (by omega),
        Nat.add_sub_cancel_left]
    · have all := bytesFrom_lt b0 (n + 1) hx
      rw [bytesFrom_succ] at all
      rw [Nat.div_eq_of_lt (Nat.lt_of_lt_of_le all (Nat.pow_le_pow_right (by decide) (by omega))), if_neg (by omega), Nat.zero_mod]

/-- The same of a scalar register that holds them. -/
theorem bytesFrom_word {b0 n : Nat} (fits : b0 + n ≤ 8) {x : Nat → Nat} (hx : ∀ i, i < n → x i < 256) (b : Nat) :
    (BitVec.ofNat 64 (bytesFrom b0 n x)).toNat / 2 ^ (8 * b) % 2 ^ 8 = if b0 ≤ b ∧ b < b0 + n then x (b - b0) else 0 := by
  have small : bytesFrom b0 n x < 2 ^ 64 :=
    Nat.lt_of_lt_of_le (bytesFrom_lt b0 n hx) (Nat.pow_le_pow_right (by decide) (by omega))
  rw [BitVec.toNat_ofNat, Nat.mod_eq_of_lt small, bytesFrom_byte b0 n hx]

/-! ### The instruction (R43, R138) -/

/-- The destination elements that the guard lets through, with what they are converted to. -/
def cvtWritten (st : Stall) (h : Hdr) (va : VReg) (ss : SReg) (t f : Fmt) (part : Fin 4) (m : OvMode) (k : Kind) : List (Nat × Conv) :=
  (List.range (elemCount t)).filterMap fun e =>
    if elemOn (st.vpred h.pred) h.pneg (elemCount t) e then
      (cvtSource t f part.val e).map fun i => (e, (cvtAll t f m k st.v[va] st.s[ss]).1.getD i { bits := 0 })
    else none

/-- The destination after it. -/
def cvtOut (st : Stall) (h : Hdr) (vd va : VReg) (ss : SReg) (t f : Fmt) (part : Fin 4) (m : OvMode) (k : Kind) : BitVec 2048 :=
  vPack (fmtWidth t) ((List.range (elemCount t)).map fun e =>
    match (cvtWritten st h va ss t f part m k).find? fun w => w.1 = e with
    | some w => w.2.bits
    | none => vElem t st.v[vd] e)

/-- The scale bytes that wait for the retire point. -/
def cvtScales (st : Stall) (va : VReg) (ss : SReg) (t f : Fmt) (part : Fin 4) (m : OvMode) (k : Kind) :
    List (SReg × BitVec 64 × BitVec 64) :=
  let xs := (cvtAll t f m k st.v[va] st.s[ss]).2
  let b0 := part.val * elemCount f / 32
  if isMx t then
    [(ss, BitVec.ofNat 64 (bytesFrom b0 xs.length fun _ => 0xFF), BitVec.ofNat 64 (bytesFrom b0 xs.length fun i => xs.getD i 0))]
  else []

/-- `cvt` is issued, with its destination written and its scales and its events in its record. -/
theorem cvt_issues {s : State} {h : Hdr} (ready : UnitReady s h .vector .none) {vd va : VReg} {ss : SReg} {t f : Fmt} {part : Fin 4}
    {m : OvMode} {k : Kind} (ok : wellFormed (.cvt h vd va ss t f part m k) = true) :
    Leaves (exec (.cvt h vd va ss t f part m k) s) fun u =>
      Issued s u h { Passed (stallOf s h) with v := (stallOf s h).v.set vd (cvtOut (stallOf s h) h vd va ss t f part m k) }
        { recordOf s h .vector 5 0 with
          sWrites := cvtScales (stallOf s h) va ss t f part m k, lands := some (.vreg vd)
          counts := cvtEvents (isMx t) ((cvtWritten (stallOf s h) h va ss t f part m k).map (·.2)) } noReg noByte := by
  obtain ⟨may, free⟩ := ready
  have stalls : ∀ x : State, x.stalls = (s.issued h.stall (unitCode .vector)).stalls → x.stall h.stall = Passed (stallOf s h) := fun x e => by
    rw [State.stall, e]; exact issued_stall s h.stall _
  obtain ⟨u, next, issued⟩ := issueWith_regs s h .vector (5, 0) .none true
    (fun s r =>
      let st := s.stall h.stall
      (s.modStall h.stall fun x => x.setV vd (cvtOut st h vd va ss t f part m k),
        { r with counts := cvtEvents (isMx t) ((cvtWritten st h va ss t f part m k).map (·.2)), lands := some (.vreg vd)
                 sWrites := cvtScales st va ss t f part m k })) may free
    (fun x => x.setV vd (cvtOut (stallOf s h) h vd va ss t f part m k))
    (fun r => { r with counts := cvtEvents (isMx t) ((cvtWritten (stallOf s h) h va ss t f part m k).map (·.2)), lands := some (.vreg vd)
                       sWrites := cvtScales (stallOf s h) va ss t f part m k }) fun x e => by
      simp only [stalls x e]
      rfl
  refine ⟨u, ?_, issued⟩
  simp only [wellFormed, Bool.and_eq_true] at ok
  simp only [exec, execCvt, ok, Bool.not_true, Bool.or_self, Bool.false_eq_true, if_false]
  exact next

/-- The source values of an instruction. -/
def cvtVal (st : Stall) (va : VReg) (ss : SReg) (f : Fmt) : Nat → FVal := cvtValue f st.v[va] st.s[ss]

/-- What each destination element that the guard lets through is converted to. -/
def cvtDone (st : Stall) (h : Hdr) (va : VReg) (ss : SReg) (t f : Fmt) (part : Fin 4) (m : OvMode) (k : Kind) (e : Nat) : Option Conv :=
  if elemOn (st.vpred h.pred) h.pneg (elemCount t) e then (cvtSource t f part.val e).map (convOf t m k (cvtVal st va ss f)) else none

section
variable {st : Stall} {h : Hdr} {vd va : VReg} {ss : SReg} {t f : Fmt} {part : Fin 4} {m : OvMode} {k : Kind}
  (ok : cvtPartOk t f part.val k = true)
include ok

theorem cvtWritten_eq : cvtWritten st h va ss t f part m k =
    (List.range (elemCount t)).filterMap fun e => (cvtDone st h va ss t f part m k e).map fun c => (e, c) := by
  refine List.filterMap_congr fun e he => ?_
  unfold cvtDone
  split
  · cases source : cvtSource t f part.val e with
    | none => rfl
    | some i =>
      have lt := cvtSource_lt ok (List.mem_range.mp he) source
      simp only [Option.map_some, cvtAll_getD t f m k _ _ lt]
      rfl
  · rfl

theorem cvtWritten_map : (cvtWritten st h va ss t f part m k).map (·.2) =
    (List.range (elemCount t)).filterMap (cvtDone st h va ss t f part m k) := by
  rw [cvtWritten_eq ok, List.map_filterMap]
  refine List.filterMap_congr fun e _ => ?_
  rw [Option.map_map]
  exact Option.map_id'

/-- A destination element after the instruction: converted where the part and the guard take it, else as it was (R126, R138). -/
theorem vElem_cvtOut {e : Nat} (he : e < elemCount t) : vElem t (cvtOut st h vd va ss t f part m k) e =
    match cvtDone st h va ss t f part m k e with
    | some c => c.bits % 2 ^ fmtWidth t
    | none => vElem t st.v[vd] e := by
  have keyed : ∀ (a : Nat) (w : Nat × Conv), (cvtDone st h va ss t f part m k a).map (fun c => (a, c)) = some w → w.1 = a := fun a w hw => by
    obtain ⟨c, -, rfl⟩ := Option.map_eq_some_iff.mp hw
    rfl
  rw [cvtOut, vElem_vPack_map _ _ he, cvtWritten_eq ok, find_filterMap_key _ keyed, if_pos (List.mem_range.mpr he)]
  cases cvtDone st h va ss t f part m k e with
  | none => exact Nat.mod_eq_of_lt (vElem_lt ..)
  | some c => rfl

/-- The scale bytes: the codes of the blocks that the part fills, and no other byte of the register (R138). -/
theorem cvtScales_bytes (mx : isMx t = true) : ∃ mask val, cvtScales st va ss t f part m k = [(ss, mask, val)] ∧
    ∀ b, b < 8 →
      let b0 := part.val * elemCount f / 32
      let fills := b0 ≤ b ∧ b < b0 + elemCount f / 32
      mask.toNat / 2 ^ (8 * b) % 2 ^ 8 = (if fills then 255 else 0) ∧
        val.toNat / 2 ^ (8 * b) % 2 ^ 8 = if fills then codeOf t k (cvtVal st va ss f) (b - b0) else 0 := by
  obtain ⟨wider, -, same⟩ := part_fits ok
  have count := (isMx_count mx).2
  have fits : part.val * elemCount f / 32 + elemCount f / 32 ≤ 8 := by
    have : elemCount f ≤ 256 := by rcases elemCount_cases f with ⟨-, c⟩ | ⟨-, c⟩ | ⟨-, c⟩ <;> omega
    rcases Nat.lt_or_ge (elemCount f) 256 with small | full
    · have := wider (by omega)
      omega
    · have := same (by omega)
      simp only [this]
      omega
  have codes : (cvtAll t f m k st.v[va] st.s[ss]).2 = (List.range (elemCount f / 32)).map (codeOf t k (cvtVal st va ss f)) := by
    rw [cvtAll_eq, if_pos mx]; rfl
  refine ⟨_, _, if_pos mx, fun b _ => ?_⟩
  rw [codes, List.length_map, List.length_range]
  constructor
  · exact bytesFrom_word fits (fun _ _ => by decide) b
  · have small : ∀ i, i < elemCount f / 32 →
        ((List.range (elemCount f / 32)).map (codeOf t k (cvtVal st va ss f))).getD i 0 < 256 := fun i hi => by
      rw [getD_map_range _ _ hi]
      exact codeOf_lt ..
    rw [bytesFrom_word fits small b]
    split
    · exact getD_map_range _ _ (by omega)
    · rfl

end

/-- Settles O16: the instruction's issue, its elements and its scale bytes, and the rounding of every finite result in range. -/
theorem convertResults : Obligations.ConvertResults := by
  unfold Obligations.ConvertResults
  refine ⟨fun s h vd va ss t f part m k ready ok => ?_, fun f g m n x e spec => ?_⟩
  · have part_ok : cvtPartOk t f part.val k = true := by
      simp only [wellFormed, Bool.and_eq_true] at ok
      exact ok.2
    obtain ⟨u, next, issued⟩ := cvt_issues ready ok
    rw [cvtWritten_map part_ok] at issued
    refine ⟨u, next, cvtOut (stallOf s h) h vd va ss t f part m k, cvtScales (stallOf s h) va ss t f part m k, issued,
      fun plain => if_neg (by simp [plain]), fun mx => cvtScales_bytes part_ok mx, fun e he => ?_⟩
    rw [vElem_cvtOut part_ok he]
    unfold cvtDone
    cases cvtSource t f part.val e with
    | none => simp
    | some i =>
      cases on : elemOn ((stallOf s h).vpred h.pred) h.pneg (elemCount t) e
      · simp only [Bool.false_eq_true, if_false]
        exact (if_neg (by simpa [elemOn] using on)).symm
      · simp only [if_true]
        exact (if_pos (by simpa [elemOn] using on)).symm
  · dsimp only
    intro plain ovf c _ hc
    rw [decodeElem_float spec] at hc ⊢
    rw [encodeElem_float spec] at ovf ⊢
    rw [decodeElem_float spec]
    exact toFloat_nearest (floatSpec_fits spec) ovf hc

end Sys2Proof
end

section
/-!
PROOFS of the family 02_number_formats: what an instruction of a unit that accesses memory leaves, where no error stands and no write is
under way.
-/
namespace Sys2Proof

open Machine

/-! ### Requests, where no error waits to be found -/

theorem touch_of_no_latent {s : State} (ue : s.latentUe = []) (ce : s.latentCe = []) (u : Nat) (scrub : Bool) :
    s.touch u scrub = s := by
  simp [State.touch, ue, ce]

theorem foldl_traced_of_no_latent {α : Type} (f : State → α → State)
    (step : ∀ t x, t.latentUe = [] → t.latentCe = [] → Traced t (f t x)) (xs : List α) {s : State} (ue : s.latentUe = [])
    (ce : s.latentCe = []) : Traced s (xs.foldl f s) := by
  induction xs generalizing s with
  | nil => exact .refl s
  | cons x xs ih =>
    have one := step s x ue ce
    exact one.trans (ih (by rw [one.rest]; exact ue) (by rw [one.rest]; exact ce))

/-! ### Reads -/

theorem noteReads_only (s : State) (as : List Nat) (n : Fin 128) (R : Reg → Prop) (W : Nat → Prop) :
    OnlyStall n R W s (s.noteReads as) := by
  unfold State.noteReads
  split
  · split
    · exact .refl n R W s
    · exact ⟨rfl, fun _ _ => rfl, fun _ _ _ => rfl, fun _ _ _ => rfl, .of_eq rfl, fun _ _ _ => rfl, fun c hc => .inl ⟨c, hc, rfl⟩,
        Nat.le_of_eq (ringTop_congr rfl rfl rfl)⟩
  · exact .refl n R W s

/-- A read changes the trace, its counts and what is noted of the instruction's accesses. -/
theorem readMem_only {s : State} (clean : Clean s) (as : List Nat) (n : Fin 128) (W : Nat → Prop) :
    OnlyStall n noReg W s (s.readMem as).1 := by
  have ⟨_, _, _, still⟩ := clean
  have ⟨ue, ce, _, _⟩ := noteReads_clean clean as
  simp only [State.readMem, nextAccess_still still, State.racesRead, racesPerform_none still.1]
  refine OnlyStall.trans id id (noteReads_only s as n noReg W) (Traced.only ?_ n noReg W)
  refine Traced.trans (Traced.trans ?_ (aonAdd_traced _ _ _ rfl)) (aonAdd_traced _ _ _ rfl)
  refine foldl_traced_of_no_latent _ (fun t u ue ce => ?_) _ ue ce
  have asked := request_traced t false u
  rw [touch_of_no_latent (by rw [asked.rest]; exact ue) (by rw [asked.rest]; exact ce)]
  exact asked

/-! ### Writes -/

theorem OnlyStall.clean_of_races {n : Fin 128} {R : Reg → Prop} {W : Nat → Prop} {s t : State} (h : OnlyStall n R W s t) (c : Clean s)
    (r : t.racing = []) (w : t.sourceWords = []) : Clean t := by
  obtain ⟨ue, ce, p, _⟩ := c
  exact ⟨by rw [h.rest]; exact ue, by rw [h.rest]; exact ce, by rw [h.rest]; exact p, r, w⟩

theorem foldl_sourceWords {α : Type} (f : State → α → State) (step : ∀ t x, (f t x).sourceWords = t.sourceWords) (xs : List α)
    (s : State) : (xs.foldl f s).sourceWords = s.sourceWords := by
  induction xs generalizing s with
  | nil => rfl
  | cons x xs ih => exact (ih _).trans (step s x)

theorem spread_sourceWords (s : State) (n : Fin 128) : (s.spread n).sourceWords = s.sourceWords := by
  unfold State.spread
  split
  · rfl
  · refine foldl_sourceWords _ (fun t g => ?_) _ s
    split <;> rfl

theorem racesHit_sourceWords (s : State) (ws : List (Nat × MByte)) : (s.racesHit ws).sourceWords = s.sourceWords := by
  unfold State.racesHit
  split
  · rfl
  · refine foldl_sourceWords _ (fun t x => ?_) _ s
    dsimp only
    split
    · exact spread_sourceWords _ _
    · rfl

theorem foldl_only {α : Type} (f : State → α → State) (n : Fin 128) (W : Nat → Prop) (step : ∀ t x, OnlyStall n noReg W t (f t x))
    (xs : List α) (s : State) : OnlyStall n noReg W s (xs.foldl f s) := by
  induction xs generalizing s with
  | nil => exact .refl n noReg W s
  | cons x xs ih => exact .trans id id (step s x) (ih _)

theorem racesHit_only (s : State) (ws : List (Nat × MByte)) (n : Fin 128) (W : Nat → Prop) : OnlyStall n noReg W s (s.racesHit ws) := by
  unfold State.racesHit
  split
  · exact .refl n noReg W s
  · refine foldl_only _ n W (fun t x => .trans id id (undefine_only t x n noReg W) ?_) _ s
    split
    · exact spread_only _ _ n noReg W id id
    · exact .refl n noReg W _

/-- A record of a word that no write has poisoned. -/
def Unmarked (c : Racing) : Prop := c.final.2 = false

/-- The record that a write of clean bytes makes of a word of which no write was under way. -/
theorem raceWrite_unmarked {s : State} (races : s.racing = []) (poison : s.poison = []) (w : Nat) {bs : List (Nat × MByte)}
    (bytes : ∀ b ∈ bs, b.2.2 = false) (whole : Bool) :
    Unmarked (s.raceWrite w bs whole).1 ∧ (s.raceWrite w bs whole).1.word = w := by
  have fresh : s.raceRec w =
      { word := w, base := (List.range 8).map fun k => Memory.read s.mem (w + k), mark := false, writes := [] } := by
    simp [State.raceRec, State.raceAt, races, poison]
  have none_marked : (bs.any fun x => x.2.2) = false := List.any_eq_false.mpr fun b hb => by simp [bytes b hb]
  unfold State.raceWrite
  rw [fresh]
  dsimp only
  split
  · exact ⟨rfl, rfl⟩
  · split
    · refine ⟨?_, rfl⟩
      simp [Unmarked, Racing.final, Racing.content, RaceWrite.apply, none_marked]
    · refine ⟨?_, rfl⟩
      simp [Unmarked, Racing.final, Racing.content, RaceWrite.apply, none_marked]

theorem inWord_bytes {ws : List (Nat × MByte)} (bytes : ∀ w ∈ ws, w.2.2 = false) (w : Nat) : ∀ b ∈ inWord ws w, b.2.2 = false := by
  intro b hb
  obtain ⟨x, hx, rfl⟩ := List.mem_map.mp hb
  exact bytes x (List.mem_of_mem_filter hx)

theorem unitLen_cases (a : Nat) :
    unitLen a = 8 ∧ (0xF00000000000 ≤ a ∧ a < 0xF00020000000 ∨ 0xF00040000000 ≤ a ∧ a < 0xF00080000000) ∨
      unitLen a = 64 ∧ ¬ (0xF00000000000 ≤ a ∧ a < 0xF00020000000 ∨ 0xF00040000000 ≤ a ∧ a < 0xF00080000000) := by
  unfold unitLen isStable isStall
  simp only [Bool.or_eq_true, Bool.and_eq_true, decide_eq_true_eq]
  split
  · next inside => exact .inl ⟨rfl, inside⟩
  · next outside => exact .inr ⟨rfl, outside⟩

/-- Every word of a unit of protection lies in it. -/
theorem unitOf_wordsIn {a w : Nat} (h : w ∈ wordsIn (unitOf a)) : unitOf w = unitOf a := by
  obtain ⟨k, hk, rfl⟩ := List.mem_map.mp h
  rw [List.mem_range] at hk
  unfold unitOf at *
  rcases unitLen_cases a with ⟨ea, ra⟩ | ⟨ea, ra⟩ <;> rw [ea] at hk ⊢
  · rcases unitLen_cases (a / 8 * 8) with ⟨eu, ru⟩ | ⟨eu, ru⟩ <;> rw [eu] at hk
    · rcases unitLen_cases (a / 8 * 8 + 8 * k) with ⟨ew, rw'⟩ | ⟨ew, rw'⟩ <;> rw [ew] <;> omega
    · omega
  · rcases unitLen_cases (a / 64 * 64) with ⟨eu, ru⟩ | ⟨eu, ru⟩ <;> rw [eu] at hk
    · omega
    · rcases unitLen_cases (a / 64 * 64 + 8 * k) with ⟨ew, rw'⟩ | ⟨ew, rw'⟩ <;> rw [ew] <;> omega

/-- The records after a write of clean bytes: of words of the units that it touches, and none of them marked. -/
theorem racesWrite_racing {s : State} (races : s.racing = []) (poison : s.poison = []) {ws : List (Nat × MByte)}
    (bytes : ∀ w ∈ ws, w.2.2 = false) :
    ∀ c ∈ (s.racesWrite ws).racing, Unmarked c ∧ ∃ w ∈ ws, unitOf w.1 = unitOf c.word := by
  intro c hc
  simp only [State.racesWrite, races, List.filter_nil, List.append_nil, List.mem_flatMap] at hc
  obtain ⟨u, hu, hc⟩ := hc
  obtain ⟨w, hw, rfl⟩ := List.mem_map.mp hc
  have record := raceWrite_unmarked races poison w (inWord_bytes bytes w) ((wholeUnits ws).contains u)
  refine ⟨record.1, ?_⟩
  rw [record.2]
  have touched := List.mem_of_mem_filter hu
  simp only [unitsOf, List.mem_eraseDups, List.mem_map] at touched
  obtain ⟨_, ⟨x, hx, rfl⟩, rfl⟩ := touched
  exact ⟨x, hx, (unitOf_wordsIn hw).symm⟩

theorem racesWrite_only {s : State} (races : s.racing = []) (poison : s.poison = []) {ws : List (Nat × MByte)}
    (bytes : ∀ w ∈ ws, w.2.2 = false) (n : Fin 128) {W : Nat → Prop} (within : ∀ w ∈ ws, W w.1) :
    OnlyStall n noReg W s (s.racesWrite ws) where
  rest := rfl
  stalls _ _ := rfl
  regs _ _ _ := rfl
  aon _ _ _ := rfl
  out := .of_eq rfl
  mem _ _ _ := rfl
  races c hc := by
    obtain ⟨_, w, hw, e⟩ := racesWrite_racing races poison bytes c hc
    exact .inr ⟨w.1, e, within w hw⟩
  top := Nat.le_of_eq (ringTop_congr rfl rfl rfl)

/-- The state in which a write of `xs` has requested its units, found their errors and counted them. -/
def Machine.State.writeAsked (s : State) (xs : List (Nat × MByte)) : State :=
  let us := unitsOf (xs.map (·.1))
  let part := us.filter fun u => isHbm u && u ∉ wholeUnits xs
  let found := { s with latentUe := s.latentUe.filter (· ∉ wholeUnits xs), latentCe := s.latentCe.filter (· ∉ wholeUnits xs) }
  let asked := us.foldl (fun s u => ((if u ∈ part then s.request false u else s).request true u).touch u) found
  (((asked.aonAdd 89 part.length).aonAdd 90 (us.filter isHbm).length).aonAdd 92 (us.filter isLoft).length)

/-- The poisoned units after a write of `xs` to unit `u`. -/
def Machine.State.writeMark (s : State) (xs : List (Nat × MByte)) (p : List Nat) (u : Nat) : List Nat :=
  if s.racing.any fun c => unitOf c.word = u then markUnit (unitMark s.racing u Racing.final) p u
  else poisonAfter xs (wholeUnits xs) p u

theorem writeMem_eq (s : State) (ws : List (Nat × MByte)) :
    s.writeMem ws =
      let xs := ws.filter fun w => backed w.1
      let t := s.writeReady xs
      let v := (t.racesWrite xs).writeAsked xs
      { v with mem := (t.racesKeep xs).foldl (fun m w => Memory.write m w.1 w.2.1) v.mem
               poison := (unitsOf (xs.map (·.1))).foldl (v.writeMark xs) v.poison } := rfl

theorem writeReady_only {s : State} (still : Still s) (xs : List (Nat × MByte)) (n : Fin 128) (W : Nat → Prop) :
    OnlyStall n noReg W s (s.writeReady xs) ∧ (s.writeReady xs).sourceWords = [] := by
  have ⟨races, sources⟩ := still
  have pass : s.racesPass xs = s := by
    unfold State.racesPass
    split
    · rfl
    · exact racesPerform_none races _
  rw [State.writeReady, nextAccess_still still, pass]
  exact ⟨racesHit_only s xs n W, (racesHit_sourceWords s xs).trans sources⟩

theorem writeAsked_traced {s : State} (ue : s.latentUe = []) (ce : s.latentCe = []) (xs : List (Nat × MByte)) :
    Traced s (s.writeAsked xs) := by
  have same : { s with latentUe := s.latentUe.filter (· ∉ wholeUnits xs), latentCe := s.latentCe.filter (· ∉ wholeUnits xs) } = s := by
    have left : s.latentUe.filter (· ∉ wholeUnits xs) = s.latentUe := by rw [ue]; rfl
    have right : s.latentCe.filter (· ∉ wholeUnits xs) = s.latentCe := by rw [ce]; rfl
    rw [left, right]
  simp only [State.writeAsked, same]
  refine Traced.trans (Traced.trans (Traced.trans ?_ (aonAdd_traced _ _ _ rfl)) (aonAdd_traced _ _ _ rfl)) (aonAdd_traced _ _ _ rfl)
  refine foldl_traced_of_no_latent _ (fun t u tue tce => ?_) _ ue ce
  have asked : Traced t ((if u ∈ (unitsOf (xs.map (·.1))).filter (fun u => isHbm u && u ∉ wholeUnits xs) then t.request false u
      else t).request true u) := by
    refine Traced.trans ?_ (request_traced _ true u)
    split
    · exact request_traced ..
    · exact .refl t
  rw [touch_of_no_latent (by rw [asked.rest]; exact tue) (by rw [asked.rest]; exact tce)]
  exact asked

/-- Marking units that no write poisons leaves none poisoned. -/
theorem foldl_writeMark {s : State} (unmarked : ∀ c ∈ s.racing, Unmarked c) {xs : List (Nat × MByte)}
    (bytes : ∀ w ∈ xs, w.2.2 = false) (us : List Nat) : us.foldl (s.writeMark xs) [] = [] := by
  have mark : ∀ u, unitMark s.racing u Racing.final = false := fun u =>
    List.any_eq_false.mpr fun c hc => by simp [show c.final.2 = false from unmarked c hc]
  have none : ∀ u, (xs.any fun w => unitOf w.1 = u && w.2.2) = false := fun u =>
    List.any_eq_false.mpr fun w hw => by simp [bytes w hw]
  have one : ∀ u, s.writeMark xs [] u = [] := fun u => by simp [State.writeMark, poisonAfter, mark, none, markUnit]
  induction us with
  | nil => rfl
  | cons u us ih => rw [List.foldl_cons, one, ih]

/-- Bytes written, the trace's place aside, are those that memory may have changed. -/
theorem stored_only (s : State) (xs : List (Nat × MByte)) (n : Fin 128) {W : Nat → Prop} (within : ∀ w ∈ xs, W w.1) (p : List Nat)
    (same : p = s.poison) :
    OnlyStall n noReg W s { s with mem := xs.foldl (fun m w => Memory.write m w.1 w.2.1) s.mem, poison := p } where
  rest := by rw [same]
  stalls _ _ := rfl
  regs _ _ _ := rfl
  aon _ _ _ := rfl
  out := .of_eq rfl
  mem a _ ha := Memory.read_writes_other (fun w : Nat × MByte => w.1) (fun w => w.2.1) xs s.mem fun w hw e => ha (e ▸ within w hw)
  races c hc := .inl ⟨c, hc, rfl⟩
  top := Nat.le_of_eq (ringTop_congr rfl rfl rfl)

/-- A write of clean bytes changes those bytes, the trace and its counts, and what is known of writes under way. -/
theorem writeMem_only {s : State} (clean : Clean s) {ws : List (Nat × MByte)} (bytes : ∀ w ∈ ws, w.2.2 = false) (n : Fin 128)
    {W : Nat → Prop} (within : ∀ w ∈ ws, W w.1) : OnlyStall n noReg W s (s.writeMem ws) := by
  have ⟨_, _, _, still⟩ := clean
  rw [writeMem_eq]
  dsimp only
  generalize hxs : ws.filter (fun w => backed w.1) = xs
  have sub : ∀ w ∈ xs, w ∈ ws := fun w hw => by rw [← hxs] at hw; exact List.mem_of_mem_filter hw
  have xbytes : ∀ w ∈ xs, w.2.2 = false := fun w hw => bytes w (sub w hw)
  have xwithin : ∀ w ∈ xs, W w.1 := fun w hw => within w (sub w hw)
  have ⟨ready, sources⟩ := writeReady_only still xs n W
  have races := writeReady_racing still xs
  have ⟨ue, ce, poison, _⟩ := ready.clean_of_races clean races sources
  rw [racesKeep_still races]
  generalize s.writeReady xs = t at ready races ue ce poison ⊢
  have entered := racesWrite_only races poison xbytes n xwithin
  have recs := racesWrite_racing races poison xbytes
  have asked : Traced (t.racesWrite xs) ((t.racesWrite xs).writeAsked xs) :=
    writeAsked_traced (s := t.racesWrite xs) ue ce xs
  refine .trans id id ready (.trans id id entered (.trans id id (asked.only n noReg W) (stored_only _ xs n xwithin _ ?_)))
  have unpoisoned : ((t.racesWrite xs).writeAsked xs).poison = [] := by rw [asked.rest]; exact poison
  rw [unpoisoned]
  exact foldl_writeMark (fun c hc => (recs c (by rw [asked.rest] at hc; exact hc)).1) xbytes _

/-- The same for a write by a program. -/
theorem writeOpen_only {s : State} (clean : Clean s) {ws : List (Nat × MByte)} (bytes : ∀ w ∈ ws, w.2.2 = false) (n : Fin 128)
    {W : Nat → Prop} (within : ∀ w ∈ ws, W w.1) : OnlyStall n noReg W s (s.writeOpen ws) :=
  writeMem_only clean (fun w hw => bytes w (List.mem_of_mem_filter hw)) n fun w hw => within w (List.mem_of_mem_filter hw)

theorem writeOpen_stalls (s : State) (ws : List (Nat × MByte)) : (s.writeOpen ws).stalls = s.stalls := by
  obtain ⟨t, access, stalls, _⟩ := writeMem_stores s (ws.filter fun w => (s.codeOwner w.1).isNone && (rsvdOwner w.1).isNone)
  exact stalls.trans access.stalls

/-- What a write by a program stores, where no write is under way and no trace spills to memory. -/
theorem writeOpen_mem {s : State} (still : Still s) (off : s.flag .dbgTraceCtrl F.dbgTraceCtrl_SPILL = false)
    (ws : List (Nat × MByte)) :
    (s.writeOpen ws).mem = (storedBytes s ws).foldl (fun m w => Memory.write m w.1 w.2.1) s.mem := by
  obtain ⟨t, access, _, _, _, mem⟩ := writeMem_stores s (ws.filter fun w => (s.codeOwner w.1).isNone && (rsvdOwner w.1).isNone)
  rw [State.writeOpen, mem, access.mem off, racesKeep_still (writeReady_racing still _)]
  rfl

/-! ### The issue of an instruction that accesses memory -/

/-- The state in which the effect of an issued instruction begins: the program counter has passed, and accesses are its own. -/
def effectState (s : State) (h : Hdr) (unit : StallUnit) (co : Nat × Nat) : State :=
  { s.issued h.stall (unitCode unit) with
    actor := some (.unit h.stall (some unit) (stallOf s h).nextSeq (co.1 = 9)), refusing := some [] }

theorem effectState_stall (s : State) (h : Hdr) (unit : StallUnit) (co : Nat × Nat) :
    (effectState s h unit co).stall h.stall = Passed (stallOf s h) := issued_stall ..

theorem effectState_clean {s : State} (clean : Clean s) (h : Hdr) (unit : StallUnit) (co : Nat × Nat) :
    Clean (effectState s h unit co) := by
  have traced := emit_traced s 1 (s.stall h.stall).context (s.stall h.stall).pc.toNat (s.codeWord h.stall)
    (stallUnit_ne h.stall (unitCode unit))
  exact (traced.clean clean).of_eq rfl rfl rfl rfl rfl

theorem effectState_mem {s : State} (off : s.flag .dbgTraceCtrl F.dbgTraceCtrl_SPILL = false) (h : Hdr) (unit : StallUnit)
    (co : Nat × Nat) : (effectState s h unit co).mem = s.mem :=
  (emit_access s 1 _ _ _ (stallUnit_ne h.stall (unitCode unit))).mem off

theorem effectState_spill (s : State) (h : Hdr) (unit : StallUnit) (co : Nat × Nat) :
    (effectState s h unit co).flag .dbgTraceCtrl F.dbgTraceCtrl_SPILL = s.flag .dbgTraceCtrl F.dbgTraceCtrl_SPILL :=
  State.flag_congr _ ((issued_only s h.stall (unitCode unit) noReg noByte id id).regs _ rfl id)

theorem codeOwner_congr {s t : State} (same : ∀ n, (t.stall n).running = (s.stall n).running ∧
    (t.stall n).codeBase = (s.stall n).codeBase ∧ (t.stall n).codeBytes = (s.stall n).codeBytes) (a : Nat) :
    t.codeOwner a = s.codeOwner a := by
  simp only [State.codeOwner, fun n => (same n).1, fun n => (same n).2.1, fun n => (same n).2.2]

theorem effectState_codeOwner (s : State) (h : Hdr) (unit : StallUnit) (co : Nat × Nat) (a : Nat) :
    (effectState s h unit co).codeOwner a = s.codeOwner a := by
  refine codeOwner_congr (fun n => ?_) a
  by_cases own : n = h.stall
  · subst own
    rw [effectState_stall]
    exact ⟨rfl, rfl, rfl⟩
  · have other : (effectState s h unit co).stall n = s.stall n :=
      (issued_only s h.stall (unitCode unit) noReg noByte id id).stalls n own
    rw [other]
    exact ⟨rfl, rfl, rfl⟩

/-- The actor of an instruction goes with its effect. -/
theorem OnlyStall.after_effect {s t : State} {h : Hdr} {unit : StallUnit} {co : Nat × Nat} {W : Nat → Prop}
    (k : OnlyStall h.stall noReg W (effectState s h unit co) t) :
    OnlyStall h.stall noReg W s { t with actor := s.actor, refusing := s.refusing } := by
  have issued := issued_only s h.stall (unitCode unit) noReg W id id
  refine .trans id id issued
    { rest := ?_, stalls := k.stalls, regs := k.regs, aon := k.aon, out := k.out, mem := k.mem, races := k.races, top := k.top }
  have actor : (s.issued h.stall (unitCode unit)).actor = s.actor := by rw [issued.rest]
  have refusing : (s.issued h.stall (unitCode unit)).refusing = s.refusing := by rw [issued.rest]
  rw [k.rest, ← actor, ← refusing]
  rfl

theorem spread_mem {s : State} (off : s.flag .dbgTraceCtrl F.dbgTraceCtrl_SPILL = false) (n : Fin 128) :
    (s.spread n).mem = s.mem := (spread_access s n).mem off

/-- An instruction of a unit whose effect accesses memory: taken and with its guard on, it leaves its stall and its record as the effect
says, and changes beside them what the effect changes (R124, R125). -/
theorem issue_effect {s : State} {h : Hdr} {unit : StallUnit} {co : Nat × Nat} {u : Uses} {f : State → Flight → State × Flight}
    {t : State} {r : Flight} {W : Nat → Prop} (issue : s.canIssue h.stall u = true)
    (free : s.unitFree h.stall unit (co.1 = 9) = true) (on : GuardOn s h) (uses : u ≠ .none)
    (effect : f (effectState s h unit co) (s.newFlight unit h co) = (t, r))
    (only : OnlyStall h.stall noReg W (effectState s h unit co) t) :
    ∃ v, s.issue h unit co u f = .next v ∧ Issued s v h (t.stall h.stall) r noReg W ∧ (NoRing s → v.mem = t.mem) := by
  refine ⟨({ t with actor := s.actor, refusing := s.refusing }.fly h.stall r).spread h.stall, ?_, ⟨?_, ?_⟩, fun ring => ?_⟩
  · have issued := issued_only s h.stall (unitCode unit) noReg noByte id id
    have actor : (s.issued h.stall (unitCode unit)).actor = s.actor := by rw [issued.rest]
    have refusing : (s.issued h.stall (unitCode unit)).refusing = s.refusing := by rw [issued.rest]
    have acts : (s.issued h.stall (unitCode unit)).acting
        (.unit h.stall (some unit) (s.newFlight unit h co).seq (co.1 = 9)) u (fun y => f y (s.newFlight unit h co)) =
        ({ t with actor := s.actor, refusing := s.refusing }, r) := by
      have runs : (s.issued h.stall (unitCode unit)).acting
          (.unit h.stall (some unit) (s.newFlight unit h co).seq (co.1 = 9)) u (fun y => f y (s.newFlight unit h co)) =
          ({ (f (effectState s h unit co) (s.newFlight unit h co)).1 with
            actor := (s.issued h.stall (unitCode unit)).actor, refusing := (s.issued h.stall (unitCode unit)).refusing },
            (f (effectState s h unit co) (s.newFlight unit h co)).2) := by
        unfold State.acting
        rw [if_neg uses]
        rfl
      rw [runs, effect, actor, refusing]
    rw [State.issue, show (s.stall h.stall).guard h = true from on, issueWith_next s h unit co u true f issue free]
    simp only [acts, if_true]
  · rw [spread_stall, fly_stall]
    rfl
  · exact .trans id id only.after_effect (.trans id id (modStall_only _ _ _ _ _) (spread_only _ _ _ _ _ id id))
  · refine spread_mem ?_ _
    exact (State.flag_congr _ (only.after_effect.regs _ rfl id)).trans (noRing_off ring)

end Sys2Proof
end

section
/-!
PROOFS of the family 02_number_formats: the image of an accumulator, its header and its records (R84).
-/
namespace Sys2Proof

open Machine

/-! ### Little-endian numbers -/

theorem toBytes_length (n v : Nat) : (toBytes n v).length = n := by simp [toBytes_eq]

theorem ofBytes_toBytes (n v : Nat) : ofBytes (toBytes n v) = v % 2 ^ (8 * n) := by
  induction n generalizing v with
  | zero => simp [toBytes, ofBytes, Nat.mod_one]
  | succ n ih =>
    rw [toBytes, ofBytes, ih, BitVec.toNat_ofNat, Nat.mul_succ, Nat.add_comm (8 * n) 8, Nat.pow_add, Nat.mod_mul]

theorem ofBytes_toBytes_of_lt {m n v : Nat} (small : v < 2 ^ m) (fits : m ≤ 8 * n) : ofBytes (toBytes n v) = v := by
  rw [ofBytes_toBytes]
  exact Nat.mod_eq_of_lt (small.trans_le (Nat.pow_le_pow_right (by decide) fits))

theorem getElem_bytesAt {l : List Byte} {off n k : Nat} (h : k < (bytesAt l off n).length) :
    (bytesAt l off n)[k] = l.getD (off + k) 0 := by
  simp only [bytesAt, List.getElem_map, List.getElem_range]

theorem bytesAt_eq {l : List Byte} {off n : Nat} (fits : off + n ≤ l.length) : bytesAt l off n = (l.drop off).take n := by
  refine List.ext_getElem (by simp [bytesAt]; omega) fun i hi _ => ?_
  have inside : i < n := by simpa [bytesAt] using hi
  rw [getElem_bytesAt, List.getElem_take, List.getElem_drop]
  exact List.getD_eq_getElem _ _ (by omega)

theorem take_toBytes {m n : Nat} (h : m ≤ n) (v : Nat) : (toBytes n v).take m = toBytes m v := by
  rw [toBytes_eq, toBytes_eq, ← List.map_take, List.take_range, Nat.min_eq_left h]

/-- One bit, as a digit. -/
def bit (b : Bool) : Nat := if b then 1 else 0

theorem bit_lt (b : Bool) : bit b < 2 := by cases b <;> decide

theorem bitOf_eq {x k : Nat} {b : Bool} (h : x / 2 ^ k % 2 = bit b) : bitOf x k = b := by
  rw [bitOf, h]
  cases b <;> rfl

/-! ### The record of an element -/

/-- The number that the record of an element spells. -/
def Machine.Elem.record (e : Elem) : Nat :=
  e.window.toNat + unsigned 11 e.eseen * 2 ^ 112 + e.spill % 2 ^ 20 * 2 ^ 123 + bit e.nan * 2 ^ 143 + bit e.pinf * 2 ^ 144 +
    bit e.ninf * 2 ^ 145 + bit e.poison * 2 ^ 146 + bit e.negz * 2 ^ 147

theorem Machine.Elem.image_eq (e : Elem) : e.image = toBytes 20 e.record := by
  have place : ∀ (x : Bool) (k : Nat), (if x then 2 ^ k else 0) = bit x * 2 ^ k := fun x k => by cases x <;> simp [bit]
  simp only [Elem.image, Elem.record, place]

theorem unsigned_lt (w : Nat) (i : Int) : unsigned w i < 2 ^ w := by
  unfold unsigned
  have pos : (0 : Int) < 2 ^ w := by positivity
  have := Int.emod_lt_of_pos i pos
  have := Int.emod_nonneg i pos.ne'
  zify
  omega

/-- The fields of a record, each at its bits. -/
theorem Machine.Elem.record_fields (e : Elem) : e.record < 2 ^ 160 ∧ e.record % 2 ^ 112 = e.window.toNat ∧
    e.record / 2 ^ 112 % 2 ^ 11 = unsigned 11 e.eseen ∧ e.record / 2 ^ 123 % 2 ^ 20 = e.spill % 2 ^ 20 ∧
      bitOf e.record 143 = e.nan ∧ bitOf e.record 144 = e.pinf ∧ bitOf e.record 145 = e.ninf ∧ bitOf e.record 146 = e.poison ∧
        bitOf e.record 147 = e.negz := by
  have window := e.window.isLt
  have seen := unsigned_lt 11 e.eseen
  have spill : e.spill % 2 ^ 20 < 2 ^ 20 := Nat.mod_lt _ (by decide)
  have n := bit_lt e.nan
  have p := bit_lt e.pinf
  have m := bit_lt e.ninf
  have po := bit_lt e.poison
  have z := bit_lt e.negz
  refine ⟨?_, ?_, ?_, ?_, bitOf_eq ?_, bitOf_eq ?_, bitOf_eq ?_, bitOf_eq ?_, bitOf_eq ?_⟩
  all_goals
    unfold Elem.record
    generalize bit e.nan = n', bit e.pinf = p', bit e.ninf = m', bit e.poison = po', bit e.negz = z', e.window.toNat = w,
      unsigned 11 e.eseen = u, e.spill % 2 ^ 20 = sp at *
    norm_num only at *
    omega

/-! ### The image -/

/-- The records of an accumulator's elements, one behind the other. -/
def Machine.Acc.records (a : Acc) : List (List Byte) :=
  (List.range 128).map fun i => ((List.range 128).map fun j => (a.get i j).image).flatten

theorem Machine.Acc.image_eq (a : Acc) : a.image = a.header ++ a.records.flatten := rfl

theorem Machine.Acc.header_length (a : Acc) : a.header.length = 64 := toBytes_length ..

theorem Machine.Acc.row_length (a : Acc) : ∀ l ∈ a.records, l.length = 2560 := by
  intro l hl
  obtain ⟨i, _, rfl⟩ := List.mem_map.mp hl
  rw [List.length_flatten, List.map_map, List.map_congr_left (g := fun _ => 20) fun j _ => by
    simp [Elem.image_eq, toBytes_length], List.map_const', List.sum_replicate, List.length_range, smul_eq_mul]

theorem Machine.Acc.image_length (a : Acc) : a.image.length = imageLen := by
  rw [Acc.image_eq, List.length_append, Acc.header_length, List.length_flatten,
    List.map_congr_left (g := fun _ => 2560) a.row_length, List.map_const', List.sum_replicate, smul_eq_mul, Acc.records,
    List.length_map, List.length_range, imageLen]

/-- The bytes of an element in an image. -/
theorem Machine.Acc.image_record (a : Acc) {i j : Nat} (hi : i < 128) (hj : j < 128) :
    bytesAt a.image (64 + 20 * (128 * i + j)) 20 = (a.get i j).image := by
  have rows : ∀ l ∈ (List.range 128).map fun j => (a.get i j).image, l.length = 20 := by
    intro l hl
    obtain ⟨j, _, rfl⟩ := List.mem_map.mp hl
    rw [Elem.image_eq, toBytes_length]
  refine List.ext_getElem (by simp [bytesAt, Elem.image_eq, toBytes_length]) fun k hk hk' => ?_
  have small : k < 20 := by simpa [bytesAt] using hk
  rw [← List.getD_eq_getElem _ 0 hk', getElem_bytesAt, Acc.image_eq,
    List.getD_append_right _ _ _ _ (by rw [Acc.header_length]; omega), Acc.header_length,
    getD_flatten (by decide) 0 _ a.row_length, Acc.records, getD_map_range _ _ (by omega),
    show (64 + 20 * (128 * i + j) + k - 64) / 2560 = i by omega, getD_flatten (by decide) 0 _ rows,
    getD_map_range _ _ (by omega), show (64 + 20 * (128 * i + j) + k - 64) % 2560 / 20 = j by omega,
    show (64 + 20 * (128 * i + j) + k - 64) % 2560 % 20 = k by omega]

theorem Machine.Acc.natAt_record (a : Acc) {i j : Nat} (hi : i < 128) (hj : j < 128) :
    natAt a.image (64 + 20 * (128 * i + j)) 20 = (a.get i j).record := by
  rw [natAt, a.image_record hi hj, Elem.image_eq, ofBytes_toBytes]
  exact Nat.mod_eq_of_lt (a.get i j).record_fields.1

/-- The number that the header spells. -/
def Machine.Acc.headValue (a : Acc) : Nat :=
  a.kcount + bit a.compat * 2 ^ 48 + bit (a.compat && a.int32) * 2 ^ 49 +
    ((a.ploc.map (·.1)).getD 0 % 2 ^ 25 * 2 ^ 50 + bit ((a.ploc.map (·.2)).getD false) * 2 ^ 75 + bit a.ploc.isSome * 2 ^ 76)

theorem Machine.Acc.header_eq (a : Acc) : a.header = toBytes 64 a.headValue := by
  unfold Acc.header Acc.headValue
  cases a.ploc with
  | none => cases a.compat <;> cases a.int32 <;> simp [bit]
  | some x =>
    obtain ⟨o, st⟩ := x
    cases a.compat <;> cases a.int32 <;> cases st <;> simp [bit]

theorem Machine.Acc.natAt_kcount (a : Acc) : natAt a.image 0 6 = a.kcount % 2 ^ 48 := by
  have front : bytesAt a.image 0 6 = toBytes 6 a.headValue := by
    rw [bytesAt_eq (by rw [Acc.image_length]; decide), List.drop_zero, Acc.image_eq,
      List.take_append_of_le_length (by rw [Acc.header_length]; decide), Acc.header_eq, take_toBytes (by decide)]
  rw [natAt, front, ofBytes_toBytes]
  unfold Acc.headValue
  norm_num only
  omega

/-- The fields of a header, each at its bits. -/
theorem Machine.Acc.headValue_fields (a : Acc) (k : a.kcount < 2 ^ 48) : a.headValue < 2 ^ 77 ∧ bitsOf a.headValue 0 48 = a.kcount ∧
    bitOf a.headValue 48 = a.compat ∧ bitOf a.headValue 49 = (a.compat && a.int32) ∧
      bitsOf a.headValue 50 25 = (a.ploc.map (·.1)).getD 0 % 2 ^ 25 ∧ bitOf a.headValue 75 = (a.ploc.map (·.2)).getD false ∧
        bitOf a.headValue 76 = a.ploc.isSome := by
  have c := bit_lt a.compat
  have i := bit_lt (a.compat && a.int32)
  have st := bit_lt ((a.ploc.map (·.2)).getD false)
  have p := bit_lt a.ploc.isSome
  have off : (a.ploc.map (·.1)).getD 0 % 2 ^ 25 < 2 ^ 25 := Nat.mod_lt _ (by decide)
  refine ⟨?_, ?_, bitOf_eq ?_, bitOf_eq ?_, ?_, bitOf_eq ?_, bitOf_eq ?_⟩
  all_goals
    unfold Acc.headValue
    try unfold bitsOf
    generalize bit a.compat = c', bit (a.compat && a.int32) = i', bit ((a.ploc.map (·.2)).getD false) = s', bit a.ploc.isSome = p',
      (a.ploc.map (·.1)).getD 0 % 2 ^ 25 = o, a.kcount = kc at *
    norm_num only at *
    omega

/-! ### The accumulator of an image -/

/-- The bytes of an image, none of them poisoned. -/
def Machine.Acc.clean (a : Acc) : List MByte := a.image.map fun y => (y, false)

theorem clean_unpoisoned (l : List Byte) : ((l.map fun y => ((y, false) : MByte)).any (·.2)) = false := by simp

theorem Machine.Acc.clean_header (a : Acc) (k : a.kcount < 2 ^ 48) :
    ofBytes ((a.clean.take 64).map (·.1)) = a.headValue ∧ (a.clean.take 64).any (·.2) = false := by
  have front : a.clean.take 64 = a.header.map fun y => (y, false) := by
    rw [Acc.clean, ← List.map_take, Acc.image_eq, List.take_append_of_le_length (Acc.header_length a).ge,
      List.take_of_length_le (Acc.header_length a).le]
  rw [front]
  refine ⟨?_, clean_unpoisoned _⟩
  rw [List.map_map, show ((fun x : MByte => x.1) ∘ fun y : Byte => ((y, false) : MByte)) = id from rfl, List.map_id,
    Acc.header_eq]
  exact ofBytes_toBytes_of_lt (a.headValue_fields k).1 (by decide)

theorem Machine.Acc.clean_record (a : Acc) {i j : Nat} (hi : i < 128) (hj : j < 128) :
    ofBytes (((a.clean.drop (64 + 20 * (128 * i + j))).take 20).map (·.1)) = (a.get i j).record ∧
      ((a.clean.drop (64 + 20 * (128 * i + j))).take 20).any (·.2) = false := by
  have place : (a.clean.drop (64 + 20 * (128 * i + j))).take 20 = (a.get i j).image.map fun y => (y, false) := by
    rw [Acc.clean, ← List.map_drop, ← List.map_take, ← bytesAt_eq (by rw [Acc.image_length, imageLen]; omega),
      a.image_record hi hj]
  rw [place]
  refine ⟨?_, clean_unpoisoned _⟩
  rw [List.map_map, show ((fun x : MByte => x.1) ∘ fun y : Byte => ((y, false) : MByte)) = id from rfl, List.map_id,
    Elem.image_eq, ofBytes_toBytes]
  exact Nat.mod_eq_of_lt (a.get i j).record_fields.1

theorem find_zipIdx_clean (l : List Byte) :
    ((l.map fun y => ((y, false) : MByte)).zipIdx.find? fun p => p.1.2) = none := by
  refine List.find?_eq_none.mpr fun p hp => ?_
  obtain ⟨y, _, e⟩ := List.mem_map.mp (List.fst_mem_of_mem_zipIdx hp)
  simp [← e]

/-- The header of an accumulator is found again in its image. -/
theorem Machine.Acc.ofImage_header (a : Acc) (loc : Nat → Nat × Bool) (k : a.kcount < 2 ^ 48)
    (off : ∀ o st, a.ploc = some (o, st) → o < 2 ^ 25) :
    (Acc.ofImage a.clean loc).kcount = a.kcount ∧ (Acc.ofImage a.clean loc).compat = a.compat ∧
      (Acc.ofImage a.clean loc).int32 = (a.compat && a.int32) ∧ (Acc.ofImage a.clean loc).ploc = a.ploc := by
  obtain ⟨value, good⟩ := a.clean_header k
  obtain ⟨_, count, compat, int, offset, stable, present⟩ := a.headValue_fields k
  simp only [Acc.ofImage, good, Bool.false_eq_true, if_false, value, count, compat, int, offset, stable, present]
  refine ⟨trivial, trivial, by simp, ?_⟩
  cases hp : a.ploc with
  | none => simp [Acc.clean, find_zipIdx_clean]
  | some x =>
    obtain ⟨o, st⟩ := x
    simpa using off o st hp

/-- An element of the accumulator of an image is that of its record. -/
theorem Machine.Acc.ofImage_get (a : Acc) (loc : Nat → Nat × Bool) (k : a.kcount < 2 ^ 48) {i j : Nat} (hi : i < 128) (hj : j < 128) :
    (Acc.ofImage a.clean loc).get i j = Elem.ofImage a.compat (a.get i j).record := by
  obtain ⟨value, good⟩ := a.clean_header k
  obtain ⟨record, sound⟩ := a.clean_record hi hj
  obtain ⟨_, _, compat, _⟩ := a.headValue_fields k
  unfold Acc.get
  simp only [Acc.ofImage, good, Bool.false_eq_true, if_false, value, compat, getD_map_range _ _ hi, getD_map_range _ _ hj]
  rw [record, sound, Bool.or_false, Bool.or_false]
  rfl

theorem signed_unsigned {w : Nat} (hw : 0 < w) {i : Int} (lo : -2 ^ (w - 1) ≤ i) (hi : i < 2 ^ (w - 1)) :
    signed w (unsigned w i) = i := by
  obtain ⟨v, rfl⟩ : ∃ v, w = v + 1 := ⟨w - 1, by omega⟩
  unfold signed unsigned
  have pos : (0 : Int) < 2 ^ v := by positivity
  have double : (2 : Int) ^ (v + 1) = 2 * 2 ^ v := by rw [pow_succ, mul_comm]
  have code : ((i % 2 ^ (v + 1)).toNat : Int) = i % 2 ^ (v + 1) := Int.toNat_of_nonneg (Int.emod_nonneg _ (by positivity))
  have fits : (i % 2 ^ (v + 1)).toNat < 2 ^ (v + 1) := by
    have := Int.emod_lt_of_pos i (show (0 : Int) < 2 ^ (v + 1) by positivity)
    zify
    omega
  simp only [Nat.mod_eq_of_lt fits, Nat.add_sub_cancel] at *
  rcases lt_or_ge i 0 with neg | pos'
  · have wrapped : i % 2 ^ (v + 1) = i + 2 ^ (v + 1) := by
      rw [← Int.add_emod_right]
      exact Int.emod_eq_of_lt (by omega) (by omega)
    rw [if_neg (by zify; omega)]
    omega
  · have same : i % 2 ^ (v + 1) = i := Int.emod_eq_of_lt pos' (by omega)
    rw [if_pos (by zify; omega)]
    omega

/-- An element whose fields are in range is found again in its record. -/
theorem Machine.Elem.ofImage_record {e : Elem} (lo : -1024 ≤ e.eseen) (hi : e.eseen < 1024) (spill : e.spill < 2 ^ 20) :
    Elem.ofImage false e.record = e := by
  obtain ⟨_, window, seen, sp, nan, pinf, ninf, poison, negz⟩ := e.record_fields
  have w : BitVec.ofNat 112 e.record = e.window := BitVec.eq_of_toNat_eq (by rw [BitVec.toNat_ofNat, window])
  have es : signed 11 (bitsOf e.record 112 11) = e.eseen := by
    rw [bitsOf, seen]
    exact signed_unsigned (by decide) lo hi
  have s : bitsOf e.record 123 20 = e.spill := by
    rw [bitsOf, sp]
    exact Nat.mod_eq_of_lt spill
  simp only [Elem.ofImage, w, es, s, nan, pinf, ninf, poison, negz, Bool.false_eq_true, if_false]

/-- Of an element in compatibility mode its record keeps the value and the poison. -/
theorem Machine.Elem.ofImage_compat (e : Elem) : (Elem.ofImage true e.record).window.toNat = e.window.toNat % 2 ^ 32 ∧
    (Elem.ofImage true e.record).poison = e.poison := by
  obtain ⟨_, window, _, _, _, _, _, poison, _⟩ := e.record_fields
  simp only [Elem.ofImage, if_true, Elem.compat, poison, and_true, BitVec.toNat_ofNat, bitsOf]
  rw [← window]
  norm_num only
  omega

end Sys2Proof
end

section
/-!
PROOFS of the family 02_number_formats: the readout, the save and the restore of an accumulator.
-/
namespace Sys2Proof

open Machine

/-! ### Events that an instruction counts -/

/-- How many events of a kind a list of counts holds. -/
def eventCount (cs : List (StallEvent × Nat)) (e : StallEvent) : Nat := ((cs.filter fun c => c.1 = e).map (·.2)).sum

theorem eventsOf_eq (r : Flight) (e : StallEvent) : eventsOf r e = eventCount r.counts e := rfl

theorem eventCount_append (as bs : List (StallEvent × Nat)) (e : StallEvent) :
    eventCount (as ++ bs) e = eventCount as e + eventCount bs e := by
  simp [eventCount, List.filter_append]

theorem eventCount_cons (a : StallEvent × Nat) (as : List (StallEvent × Nat)) (e : StallEvent) :
    eventCount (a :: as) e = (if a.1 = e then a.2 else 0) + eventCount as e := by
  unfold eventCount
  by_cases h : a.1 = e <;> simp [h]

theorem eventCount_nil (e : StallEvent) : eventCount [] e = 0 := rfl

theorem eventCount_rsvdEvent (as : List Nat) (e : StallEvent) :
    eventCount (rsvdEvent as) e = if e = .reserved then (if as.any fun a => (rsvdOwner a).isSome then 1 else 0) else 0 := by
  unfold rsvdEvent
  split <;> simp [eventCount_cons, eventCount_nil, eq_comm]

theorem eventCount_codeEvent (s : State) (as : List Nat) (e : StallEvent) :
    eventCount (s.codeEvent as) e = if e = .codewrite then (if as.any fun a => (s.codeOwner a).isSome then 1 else 0) else 0 := by
  unfold State.codeEvent
  split <;> simp [eventCount_cons, eventCount_nil, eq_comm]

theorem eventCount_wrapEvent (b : Bool) (e : StallEvent) :
    eventCount (wrapEvent b) e = if e = .mmWrap then (if b then 1 else 0) else 0 := by
  cases b <;> simp [wrapEvent, eventCount_cons, eventCount_nil, eq_comm]

/-! ### Addresses of a store -/

theorem backed_storeAddr (n : Fin 128) (stable : Bool) (off : Nat) : backed (storeAddr n stable off) = true := by
  have hn := n.isLt
  have ht := (stableOf n).isLt
  cases stable
  · have home : isStall (storeAddr n false off) = true := by
      simp only [isStall, storeAddr, stallBase, Bool.false_eq_true, if_false, Bool.and_eq_true, decide_eq_true_eq]
      omega
    simp [backed, home]
  · have home : isStable (storeAddr n true off) = true := by
      simp only [isStable, storeAddr, stableBase, if_true, Bool.and_eq_true, decide_eq_true_eq]
      omega
    simp [backed, home]

/-- Two offsets of a store less than its size apart go to two addresses. -/
theorem storeAddr_ne {n : Fin 128} {stable : Bool} {base i j : Nat} (hi : i < storeSize stable) (hj : j < storeSize stable)
    (same : storeAddr n stable (base + i) = storeAddr n stable (base + j)) : i = j := by
  cases stable <;> simp only [storeAddr, storeSize, if_true, Bool.false_eq_true, if_false] at * <;> omega

/-! ### Tiles written -/

/-- The bytes of a tile at their addresses. -/
def tileBytes (n : Fin 128) (d : Desc) (ws : List (Nat × MByte)) : List (Nat × MByte) := ws.map fun w => (d.addr n w.1, w.2)

theorem storedBytes_all {s : State} {ws : List (Nat × MByte)}
    (open' : ∀ w ∈ ws, s.codeOwner w.1 = none ∧ rsvdOwner w.1 = none ∧ backed w.1 = true) : storedBytes s ws = ws := by
  refine (congrArg _ (List.filter_eq_self.mpr fun w hw => ?_)).trans (List.filter_eq_self.mpr fun w hw => ?_)
  · simp [(open' w hw).1, (open' w hw).2.1]
  · exact (open' w hw).2.2

theorem writeTile_stall (s : State) (h : Hdr) (unit : StallUnit) (co : Nat × Nat) (d : Desc) (ws : List (Nat × MByte)) :
    ((effectState s h unit co).writeTile h.stall d ws).1.stall h.stall = Passed (stallOf s h) := by
  rw [← effectState_stall s h unit co]
  exact congrArg (AMap.get {} h.stall) (writeOpen_stalls (effectState s h unit co) (tileBytes h.stall d ws))

/-- What an instruction that writes a tile, and perhaps changes its stall's registers, leaves. -/
theorem issue_writes_tile {s : State} {h : Hdr} {unit : StallUnit} {co : Nat × Nat} {u : Uses} {f : State → Flight → State × Flight}
    {d : Desc} {ws : List (Nat × MByte)} {t : State} {r : Flight} (clean : Clean s) (issue : s.canIssue h.stall u = true)
    (free : s.unitFree h.stall unit (co.1 = 9) = true) (on : GuardOn s h) (uses : u ≠ .none) (bytes : ∀ w ∈ ws, w.2.2 = false)
    (effect : f (effectState s h unit co) (s.newFlight unit h co) = (t, r))
    (after : OnlyStall h.stall noReg noByte ((effectState s h unit co).writeTile h.stall d ws).1 t)
    (kept : t.mem = ((effectState s h unit co).writeTile h.stall d ws).1.mem) :
    ∃ v, s.issue h unit co u f = .next v ∧
      Issued s v h (t.stall h.stall) r noReg (fun b => ∃ w ∈ ws, b = d.addr h.stall w.1) ∧
      (NoRing s → Sound s → (ws.map fun w => d.addr h.stall w.1).Nodup →
        (∀ w ∈ ws, s.codeOwner (d.addr h.stall w.1) = none ∧ rsvdOwner (d.addr h.stall w.1) = none) →
        ∀ w ∈ ws, Memory.read v.mem (d.addr h.stall w.1) = w.2.1) := by
  have cleanE := effectState_clean clean h unit co
  have tbytes : ∀ w ∈ tileBytes h.stall d ws, w.2.2 = false := fun w hw => by
    obtain ⟨x, hx, rfl⟩ := List.mem_map.mp hw
    exact bytes x hx
  have within : ∀ w ∈ tileBytes h.stall d ws, ∃ x ∈ ws, w.1 = d.addr h.stall x.1 := fun w hw => by
    obtain ⟨x, hx, rfl⟩ := List.mem_map.mp hw
    exact ⟨x, hx, rfl⟩
  have wrote := writeOpen_only cleanE tbytes h.stall (W := fun b => ∃ w ∈ ws, b = d.addr h.stall w.1) within
  obtain ⟨v, next, issued, mem⟩ := issue_effect issue free on uses effect
    (.trans id id wrote (after.mono (fun _ => id) fun _ => False.elim))
  refine ⟨v, next, issued, fun ring sound distinct unowned w hw => ?_⟩
  have off := noRing_off ring
  have all : storedBytes (effectState s h unit co) (tileBytes h.stall d ws) = tileBytes h.stall d ws := by
    refine storedBytes_all fun x hx => ?_
    obtain ⟨y, hy, rfl⟩ := List.mem_map.mp hx
    rw [effectState_codeOwner]
    exact ⟨(unowned y hy).1, (unowned y hy).2, backed_storeAddr ..⟩
  have written : v.mem = (tileBytes h.stall d ws).foldl (fun m w => Memory.write m w.1 w.2.1) s.mem := by
    have stored := writeOpen_mem cleanE.2.2.2 ((effectState_spill ..).trans off) (tileBytes h.stall d ws)
    rw [all, effectState_mem off] at stored
    rw [mem ring, kept]
    exact stored
  rw [written]
  refine read_written (w := (d.addr h.stall w.1, w.2)) ?_ sound (List.mem_map.mpr ⟨w, hw, rfl⟩)
  rw [tileBytes, List.map_map]
  exact distinct

theorem any_tileBytes (n : Fin 128) (d : Desc) (ws : List (Nat × MByte)) (p : Nat → Bool) :
    ((tileBytes n d ws).map (·.1)).any p = ws.any fun w => p (d.addr n w.1) := by
  rw [tileBytes, List.map_map, List.any_map]
  rfl

/-- What a write of a tile counts. -/
theorem writeTile_events (s : State) (n : Fin 128) (d : Desc) (ws : List (Nat × MByte)) (e : StallEvent) :
    eventCount (s.writeTile n d ws).2 e =
      (if e = .reserved then (if ws.any fun w => (rsvdOwner (d.addr n w.1)).isSome then 1 else 0) else 0) +
        (if e = .codewrite then (if ws.any fun w => (s.codeOwner (d.addr n w.1)).isSome then 1 else 0) else 0) +
        (if e = .mmWrap then (if ws.any fun w => d.wraps w.1 then 1 else 0) else 0) := by
  have split : (s.writeTile n d ws).2 = rsvdEvent ((tileBytes n d ws).map (·.1)) ++ s.codeEvent ((tileBytes n d ws).map (·.1)) ++
    wrapEvent (ws.any fun w => d.wraps w.1) := rfl
  rw [split, eventCount_append, eventCount_append, eventCount_rsvdEvent, eventCount_codeEvent, eventCount_wrapEvent,
    any_tileBytes, any_tileBytes]

/-! ### Readout -/

/-- The record of a readout, before its first poisoned element is looked for. -/
def readoutRecord (st : Stall) (n : Fin 128) (a : Fin 2) (d : Desc) (f : Fmt) (m : OvMode) (k : Option Kind) (c : Bool) (sc : Int)
    (M N : Nat) (cs : List (StallEvent × Nat)) (r : Flight) : Flight :=
  let x := st.acc[a]
  let rows := x.readout f m k sc M N
  let spills := if x.compat then 0 else
    ((List.range M).map fun i => ((List.range N).filter fun j => (x.get i j).spill ≠ 0).length).sum
  { r with writes := [storeHome d.stable], dest := some (a, f, m, k),
           counts := mmrEvents (isMx f) x.compat (rows.map (·.1)).flatten ++ (.mmSpill, spills) :: cs,
           lands := if c then some (.clear a) else none,
           mx := some { acc := a, out := true, dst := (readoutBytes d f rows).map fun w => d.addr n w.1 } }

/-- The record of a readout. -/
def mmrRecord (st : Stall) (n : Fin 128) (a : Fin 2) (d : Desc) (f : Fmt) (m : OvMode) (k : Option Kind) (c : Bool) (sc : Int)
    (M N : Nat) (cs : List (StallEvent × Nat)) (r : Flight) : Flight :=
  let x := st.acc[a]
  let r := readoutRecord st n a d f m k c sc M N cs r
  match x.firstPoison M N with
  | none => r
  | some (i, j) => { r with status := .uncorrectable, kind := .matrix { acc := a, instr := 1, row := i, col := j, loc := x.ploc },
                            loc := match x.ploc with | some (o, st) => storeLoc st o | none => 0 }

theorem mmrRecord_fields (st : Stall) (n : Fin 128) (a : Fin 2) (d : Desc) (f : Fmt) (m : OvMode) (k : Option Kind) (c : Bool)
    (sc : Int) (M N : Nat) (cs : List (StallEvent × Nat)) (r : Flight) :
    let x := mmrRecord st n a d f m k c sc M N cs r
    (x.unit = r.unit ∧ x.seq = r.seq ∧ x.pc = r.pc ∧ x.cls = r.cls ∧ x.op = r.op ∧ x.ten = r.ten ∧ x.tc = r.tc) ∧
      x.counts = (readoutRecord st n a d f m k c sc M N cs r).counts ∧
      x.status = if (st.acc[a].firstPoison M N).isSome then .uncorrectable else r.status := by
  dsimp only [mmrRecord]
  cases st.acc[a].firstPoison M N with
  | none => exact ⟨⟨rfl, rfl, rfl, rfl, rfl, rfl, rfl⟩, rfl, rfl⟩
  | some p => exact ⟨⟨rfl, rfl, rfl, rfl, rfl, rfl, rfl⟩, rfl, rfl⟩

/-- The offset of an instruction's scalar shift. -/
def shiftOf (st : Stall) (so : Option SReg) : Int := match so with | some x => signed 8 st.s[x].toNat | none => 0

/-- The effect of a readout on a descriptor of its format. -/
def mmrEffect (h : Hdr) (a : Fin 2) (td : TReg) (f : Fmt) (m : OvMode) (k : Option Kind) (c : Bool) (so : Option SReg) (M N : Nat)
    (s : State) (r : Flight) : State × Flight :=
  let st := s.stall h.stall
  let d := Desc.of st.t[td]
  let p := s.writeTile h.stall d (readoutBytes d f (st.acc[a].readout f m k (shiftOf st so) M N))
  (if c then p.1.modStall h.stall fun t => t.setAcc a {} else p.1, mmrRecord st h.stall a d f m k c (shiftOf st so) M N p.2 r)

theorem exec_mmr {h : Hdr} {a : Fin 2} {td : TReg} {f : Fmt} {m : OvMode} {k : Option Kind} {c : Bool} {so : Option SReg}
    {m1 n1 : Fin 128} (ok : mmrOk f k n1 = true) (s : State) :
    exec (.mmr h a td f m k c so m1 n1) s =
      s.issue h .matrix (8, 0) .writes fun y r =>
        if (Desc.of (y.stall h.stall).t[td]).fmt ≠ fmtCode f then (y, r.mismatch a 1)
        else mmrEffect h a td f m k c so (m1.val + 1) (n1.val + 1) y r := by
  show execMmr h a td f m k c so m1 n1 s = _
  unfold execMmr
  rw [ok]
  refine congrArg (s.issue h .matrix (8, 0) .writes) (funext fun y => funext fun r => ?_)
  dsimp only [mmrEffect, mmrRecord]
  split
  · rfl
  · generalize hp : ((y.stall h.stall).acc[a].firstPoison (m1.val + 1) (n1.val + 1)) = p
    cases p <;> rfl

/-- What a readout counts. -/
theorem readoutRecord_events (st : Stall) (n : Fin 128) (a : Fin 2) (d : Desc) (f : Fmt) (m : OvMode) (k : Option Kind) (c : Bool)
    (sc : Int) (M N : Nat) (s : State) (ws : List (Nat × MByte)) (r : Flight) :
    let x := st.acc[a]
    let cs := ((x.readout f m k sc M N).map (·.1)).flatten
    let amount := fun p : Conv → Bool => (cs.filter p).length
    let e := eventCount (readoutRecord st n a d f m k c sc M N (s.writeTile n d ws).2 r).counts
    e .mmOverflow = amount (·.ovf) ∧ e .cvtNanInt = amount (·.nanInt) ∧ e .mxClamp = amount (·.clamp) ∧
      e .cvtOverflow = (if isMx f && !x.compat then amount (·.ovf) else 0) ∧ e .mxUnderflow = (if isMx f then amount (·.unf) else 0) ∧
      e .mmUnderflow = (if isMx f then 0 else amount (·.unf)) ∧ e .cvtUnderflow = 0 ∧
      e .mmSpill = (if x.compat then 0 else
        ((List.range M).map fun i => ((List.range N).filter fun j => (x.get i j).spill ≠ 0).length).sum) ∧
      e .mmWrap = (if ws.any fun w => d.wraps w.1 then 1 else 0) ∧
      e .reserved = (if ws.any fun w => (rsvdOwner (d.addr n w.1)).isSome then 1 else 0) ∧
      e .codewrite = if ws.any fun w => (s.codeOwner (d.addr n w.1)).isSome then 1 else 0 := by
  cases hf : isMx f <;>
    simp [readoutRecord, mmrEvents, eventCount_cons, writeTile_events, hf]

theorem readoutBytes_plain (d : Desc) (f : Fmt) (rows : List (List Conv × List Nat)) : ∀ w ∈ readoutBytes d f rows, w.2.2 = false := by
  intro w hw
  obtain ⟨l, hl, hw⟩ := List.mem_flatten.mp hw
  obtain ⟨⟨r, i⟩, _, rfl⟩ := List.mem_map.mp hl
  rcases List.mem_append.mp hw with element | scale
  · obtain ⟨x, _, rfl⟩ := List.mem_map.mp element
    rfl
  · obtain ⟨x, _, rfl⟩ := List.mem_map.mp scale
    rfl

/-- The bytes of an element of a readout, at its place in its row. -/
theorem mem_readoutBytes (d : Desc) (f : Fmt) {rows : List (List Conv × List Nat)} {i j b : Nat} {r : List Conv × List Nat} {c : Conv}
    (row : rows[i]? = some r) (element : r.1[j]? = some c) (byte : b < fmtWidth f / 8) :
    (d.byteOff i (fmtWidth f / 8 * j + b), (BitVec.ofNat 8 (c.bits / 2 ^ (8 * b)), false)) ∈ readoutBytes d f rows := by
  generalize hw : fmtWidth f / 8 = w at byte
  have hj : j < r.1.length := (List.getElem?_eq_some_iff.mp element).1
  have one : ∀ l ∈ r.1.map fun c => toBytes w c.bits, l.length = w := by
    intro l hl
    obtain ⟨c, _, rfl⟩ := List.mem_map.mp hl
    exact toBytes_length ..
  have size : (r.1.map fun c => toBytes w c.bits).flatten.length = r.1.length * w := by
    rw [List.length_flatten, List.map_congr_left one, List.map_const', List.sum_replicate, List.length_map, smul_eq_mul]
  have inside : w * j + b < (r.1.map fun c => toBytes w c.bits).flatten.length := by
    have := Nat.mul_le_mul_left w (Nat.succ_le_of_lt hj)
    rw [size, Nat.mul_comm r.1.length w]
    rw [Nat.mul_succ] at this
    omega
  have found : (r.1.map fun c => toBytes w c.bits).flatten[w * j + b]? = some (BitVec.ofNat 8 (c.bits / 2 ^ (8 * b))) := by
    have pos : 0 < w := by omega
    rw [List.getElem?_eq_getElem inside, ← List.getD_eq_getElem _ 0 inside, getD_flatten pos 0 _ one, Nat.mul_add_div pos,
      Nat.div_eq_of_lt byte, Nat.add_zero, Nat.mul_add_mod, Nat.mod_eq_of_lt byte, List.getD_eq_getElem?_getD (l := r.1.map _),
      List.getElem?_map, element, Option.map_some, Option.getD_some, toBytes_eq, getD_map_range _ _ byte]
  refine List.mem_flatten.mpr ⟨_, List.mem_map.mpr ⟨(r, i), List.mk_mem_zipIdx_iff_getElem?.mpr row, rfl⟩, ?_⟩
  refine List.mem_append_left _ (List.mem_map.mpr ⟨(_, w * j + b), List.mk_mem_zipIdx_iff_getElem?.mpr ?_, rfl⟩)
  rw [hw]
  exact found

/-- A readout into a plain format, element by element. -/
theorem readout_plain (x : Acc) {f : Fmt} (m : OvMode) (k : Option Kind) (sc : Int) {M N i j : Nat} (mx : isMx f = false)
    (hi : i < M) (hj : j < N) : ∃ r, (x.readout f m k sc M N)[i]? = some r ∧
      r.1[j]? = some (mmrElem f m sc (x.get i j).poison (x.value (x.get i j))) := by
  refine ⟨(((List.range N).map fun j => ((x.get i j).poison, x.value (x.get i j))).map fun p => mmrElem f m sc p.1 p.2, []), ?_, ?_⟩
  · unfold Acc.readout
    rw [List.getElem?_map, List.getElem?_range hi, Option.map_some, mx]
    rfl
  · rw [List.getElem?_map, List.getElem?_map, List.getElem?_range hj]
    rfl

/-- The conversions of a readout and its record are what the obligation says. -/
theorem mmr_does {s : State} {h : Hdr} {a : Fin 2} {td : TReg} {f : Fmt} {k : Option Kind} {n1 : Fin 128} (m : OvMode) (c : Bool)
    (so : Option SReg) (m1 : Fin 128) (ready : UnitReady s h .matrix .writes) (on : GuardOn s h) (clean : Clean s)
    (ok : mmrOk f k n1 = true) (fmt : (Desc.of (stallOf s h).t[td]).fmt = fmtCode f) :
    let st := stallOf s h
    let d := Desc.of st.t[td]
    let ws := readoutBytes d f (st.acc[a].readout f m k (shiftOf st so) (m1.val + 1) (n1.val + 1))
    ∃ v, exec (.mmr h a td f m k c so m1 n1) s = .next v ∧
      Issued s v h { Passed st with acc := if c then st.acc.set a {} else st.acc }
        (mmrRecord st h.stall a d f m k c (shiftOf st so) (m1.val + 1) (n1.val + 1)
          ((effectState s h .matrix (8, 0)).writeTile h.stall d ws).2 (s.newFlight .matrix h (8, 0)))
        noReg (fun b => ∃ w ∈ ws, b = d.addr h.stall w.1) ∧
      (NoRing s → Sound s → (ws.map fun w => d.addr h.stall w.1).Nodup →
        (∀ w ∈ ws, s.codeOwner (d.addr h.stall w.1) = none ∧ rsvdOwner (d.addr h.stall w.1) = none) →
        ∀ w ∈ ws, Memory.read v.mem (d.addr h.stall w.1) = w.2.1) := by
  intro st d ws
  have stall := effectState_stall s h .matrix (8, 0)
  have passed : (Desc.of (Passed (stallOf s h)).t[td]).fmt = fmtCode f := fmt
  obtain ⟨issue, free⟩ := ready
  let y := ((effectState s h .matrix (8, 0)).writeTile h.stall d ws).1
  obtain ⟨v, next, issued, bytes⟩ := issue_writes_tile (u := .writes) (f := fun y r =>
      if (Desc.of (y.stall h.stall).t[td]).fmt ≠ fmtCode f then (y, r.mismatch a 1)
      else mmrEffect h a td f m k c so (m1.val + 1) (n1.val + 1) y r)
    (d := d) (ws := ws) (t := if c then y.modStall h.stall fun t => t.setAcc a {} else y) clean issue free on (by simp)
    (readoutBytes_plain _ _ _) (by
      rw [stall, if_neg (not_not.mpr passed), mmrEffect, stall]
      rfl)
    (by
      split
      · exact modStall_only ..
      · exact .refl ..)
    (by split <;> rfl)
  refine ⟨v, (exec_mmr ok s).trans next, ?_, bytes⟩
  have left : (if c then y.modStall h.stall fun t => t.setAcc a {} else y).stall h.stall =
      { Passed st with acc := if c then st.acc.set a {} else st.acc } := by
    have same : y.stall h.stall = Passed st := writeTile_stall ..
    cases c
    · exact same
    · simp only [if_true, State.stall_modStall_same, same]
      rfl
  rw [← left]
  exact issued

/-! ### Save -/

/-- The bytes of an accumulator's image, at the offsets of a descriptor. -/
def imageBytes (d : Desc) (a : Acc) : List (Nat × MByte) := a.image.zipIdx.map fun (b, k) => (d.base + k, ((b, false) : MByte))

theorem imageBytes_plain (d : Desc) (a : Acc) : ∀ w ∈ imageBytes d a, w.2.2 = false := by
  intro w hw
  obtain ⟨x, _, rfl⟩ := List.mem_map.mp hw
  rfl

theorem imageBytes_offsets (d : Desc) (a : Acc) : (imageBytes d a).map (·.1) = (List.range imageLen).map (d.base + ·) := by
  have places : a.image.zipIdx.map Prod.snd = List.range imageLen := by
    rw [List.zipIdx_map_snd, a.image_length, List.range_eq_range']
  rw [← places, List.map_map, imageBytes, List.map_map]
  rfl

theorem mem_imageBytes (d : Desc) (a : Acc) {k : Nat} (hk : k < imageLen) :
    (d.base + k, (a.image.getD k 0, false)) ∈ imageBytes d a := by
  have inside : k < a.image.length := by rwa [a.image_length]
  refine List.mem_map.mpr ⟨(a.image.getD k 0, k), List.mk_mem_zipIdx_iff_getElem?.mpr ?_, rfl⟩
  rw [List.getElem?_eq_getElem inside, List.getD_eq_getElem _ 0 inside]

/-- The record of a save. -/
def saveRecord (st : Stall) (n : Fin 128) (a : Fin 2) (d : Desc) (cs : List (StallEvent × Nat)) (r : Flight) : Flight :=
  { r with writes := [storeHome d.stable], counts := cs, dest := some (a, .bf16, .ieee, none),
           mx := some { acc := a, out := true, dst := (imageBytes d st.acc[a]).map fun w => d.addr n w.1 } }

/-- The effect of a save. -/
def mmxStEffect (h : Hdr) (a : Fin 2) (td : TReg) (s : State) (r : Flight) : State × Flight :=
  let st := s.stall h.stall
  let d := Desc.of st.t[td]
  let p := s.writeTile h.stall d (imageBytes d st.acc[a])
  (p.1, saveRecord st h.stall a d p.2 r)

theorem exec_mmxSt (h : Hdr) (a : Fin 2) (td : TReg) (s : State) :
    exec (.mmxSt h a td) s = s.issue h .matrix (8, 1) .writes (mmxStEffect h a td) := rfl

theorem mmxSt_does {s : State} {h : Hdr} (a : Fin 2) (td : TReg) (ready : UnitReady s h .matrix .writes) (on : GuardOn s h)
    (clean : Clean s) :
    let st := stallOf s h
    let d := Desc.of st.t[td]
    ∃ v, exec (.mmxSt h a td) s = .next v ∧
      Issued s v h (Passed st) (saveRecord st h.stall a d
          ((effectState s h .matrix (8, 1)).writeTile h.stall d (imageBytes d st.acc[a])).2 (s.newFlight .matrix h (8, 1)))
        noReg (fun b => ∃ k, k < imageLen ∧ b = d.addr h.stall (d.base + k)) ∧
      (NoRing s → Sound s → (∀ k, k < imageLen → s.codeOwner (d.addr h.stall (d.base + k)) = none ∧
          rsvdOwner (d.addr h.stall (d.base + k)) = none) →
        ∀ k, k < imageLen → Memory.read v.mem (d.addr h.stall (d.base + k)) = st.acc[a].image.getD k 0) := by
  intro st d
  have stall := effectState_stall s h .matrix (8, 1)
  obtain ⟨issue, free⟩ := ready
  obtain ⟨v, next, issued, bytes⟩ := issue_writes_tile (u := .writes) (f := mmxStEffect h a td) (d := d)
    (ws := imageBytes d st.acc[a]) (t := ((effectState s h .matrix (8, 1)).writeTile h.stall d (imageBytes d st.acc[a])).1) clean issue
    free on (by simp) (imageBytes_plain _ _) (by
      rw [mmxStEffect, stall]
      rfl) (.refl ..) rfl
  have place : ∀ w ∈ imageBytes d st.acc[a], ∃ k, k < imageLen ∧ w.1 = d.base + k := fun w hw => by
    have offset := List.mem_map_of_mem (f := (·.1)) hw
    rw [imageBytes_offsets] at offset
    obtain ⟨k, hk, e⟩ := List.mem_map.mp offset
    exact ⟨k, List.mem_range.mp hk, e.symm⟩
  rw [writeTile_stall] at issued
  refine ⟨v, next, ⟨issued.stall, issued.frame.mono (fun _ => id) fun b ⟨w, hw, e⟩ => ?_⟩, fun ring sound unowned k hk => ?_⟩
  · obtain ⟨k, hk, place⟩ := place w hw
    exact ⟨k, hk, by rw [e, place]⟩
  · refine bytes ring sound ?_ (fun w hw => ?_) _ (mem_imageBytes d st.acc[a] hk)
    · have addresses : (imageBytes d st.acc[a]).map (fun w => d.addr h.stall w.1) =
          (List.range imageLen).map fun k => d.addr h.stall (d.base + k) := by
        rw [show (fun w : Nat × MByte => d.addr h.stall w.1) = d.addr h.stall ∘ (·.1) from rfl, ← List.map_map, imageBytes_offsets,
          List.map_map]
        rfl
      rw [addresses]
      have small : imageLen ≤ storeSize d.stable := by cases d.stable <;> decide
      exact List.Nodup.map_on (fun i hi j hj e => storeAddr_ne ((List.mem_range.mp hi).trans_le small)
        ((List.mem_range.mp hj).trans_le small) e) List.nodup_range
    · obtain ⟨k, hk, place⟩ := place w hw
      rw [place]
      exact unowned k hk

/-- A test of the offsets of an image. -/
theorem any_imageBytes (d : Desc) (a : Acc) (p : Nat → Bool) :
    ((imageBytes d a).any fun w => p w.1) = (List.range imageLen).any fun k => p (d.base + k) := by
  rw [show (fun w : Nat × MByte => p w.1) = p ∘ (·.1) from rfl, ← List.any_map, imageBytes_offsets, List.any_map]
  rfl

/-! ### Restore -/

/-- The offsets of an image. -/
def imageOffsets (d : Desc) : List Nat := (List.range imageLen).map (d.base + ·)

/-- The accumulator that a restore finds, of the bytes of its image. -/
def restored (d : Desc) (bs : List MByte) : Acc := Acc.ofImage bs fun k => ((d.base + k) % storeSize d.stable / 8 * 8, d.stable)

/-- The record of a restore. -/
def restoreRecord (n : Fin 128) (a : Fin 2) (d : Desc) (x : Acc) (r : Flight) : Flight :=
  { r with reads := [storeHome d.stable],
           counts := rsvdEvent ((imageOffsets d).map (d.addr n)) ++ wrapEvent ((imageOffsets d).any d.wraps),
           lands := some (.acc a 128 128), dest := if x.empty then some (a, .bf16, .ieee, none) else none,
           mx := some { acc := a, out := true } }

theorem restoreRecord_heads (n : Fin 128) (a : Fin 2) (d : Desc) (x : Acc) (r : Flight) :
    let y := restoreRecord n a d x r
    y.unit = r.unit ∧ y.seq = r.seq ∧ y.pc = r.pc ∧ y.cls = r.cls ∧ y.op = r.op ∧ y.ten = r.ten ∧ y.tc = r.tc :=
  ⟨rfl, rfl, rfl, rfl, rfl, rfl, rfl⟩

/-- The effect of a restore. -/
def mmxLdEffect (h : Hdr) (a : Fin 2) (td : TReg) (s : State) (r : Flight) : State × Flight :=
  let d := Desc.of (s.stall h.stall).t[td]
  let p := s.readGuarded ((imageOffsets d).map (d.addr h.stall))
  (p.1.modStall h.stall fun t => t.setAcc a (restored d p.2), restoreRecord h.stall a d (restored d p.2) r)

theorem exec_mmxLd (h : Hdr) (a : Fin 2) (td : TReg) (s : State) :
    exec (.mmxLd h a td) s = s.issue h .matrix (8, 2) .reads (fun y r => mmxLdEffect h a td y r) := by
  show execMmxLd h a td s = _
  simp only [execMmxLd, mmxLdEffect, imageOffsets, restoreRecord]
  delta restored
  rfl

/-- Where no error stands, no write is under way and the trace does not spill, an access finds what memory holds, and changes nothing
that a later one finds. -/
theorem readGuarded_bytes {s : State} (clean : Clean s) (off : s.flag .dbgTraceCtrl F.dbgTraceCtrl_SPILL = false) (as : List Nat) :
    (s.readGuarded as).2 = as.map s.peekG := by
  have ⟨_, _, poison, still⟩ := clean
  let t := (s.readMem (as.filter fun a => (rsvdOwner a).isNone)).1
  have ⟨_, _, tpoison, tstill⟩ := readMem_clean clean (as.filter fun a => (rsvdOwner a).isNone)
  have mem : t.mem = s.mem := (readMem_access s _).mem off
  refine List.map_congr_left fun a _ => ?_
  show t.peekG a = s.peekG a
  unfold State.peekG
  rw [peek_still tstill, peek_still still]
  unfold State.held
  rw [mem, poison, tpoison]

theorem readGuarded_only {s : State} (clean : Clean s) (as : List Nat) (n : Fin 128) (W : Nat → Prop) :
    OnlyStall n noReg W s (s.readGuarded as).1 :=
  readMem_only clean (as.filter fun a => (rsvdOwner a).isNone) n W

theorem readGuarded_stalls (s : State) (as : List Nat) : (s.readGuarded as).1.stalls = s.stalls := (readMem_access s _).stalls

/-- What an access of the instruction finds is what one finds before it. -/
theorem effectState_peekG {s : State} (clean : Clean s) (off : s.flag .dbgTraceCtrl F.dbgTraceCtrl_SPILL = false) (h : Hdr)
    (unit : StallUnit) (co : Nat × Nat) (a : Nat) : (effectState s h unit co).peekG a = s.peekG a := by
  have ⟨_, _, poison, still⟩ := clean
  have ⟨_, _, epoison, estill⟩ := effectState_clean clean h unit co
  unfold State.peekG
  rw [peek_still estill, peek_still still]
  unfold State.held
  rw [effectState_mem off, poison, epoison]

theorem setAcc_passed (st : Stall) (a : Fin 2) (x : Acc) : (Passed st).setAcc a x = { Passed st with acc := st.acc.set a x } := rfl

/-- The accumulator restored, as the bytes found at the addresses of its image. -/
theorem restored_peekG (s : State) (n : Fin 128) (d : Desc) : restored d (((imageOffsets d).map (d.addr n)).map s.peekG) =
    Acc.ofImage ((List.range imageLen).map fun k => s.peekG (d.addr n (d.base + k)))
      fun k => ((d.base + k) % storeSize d.stable / 8 * 8, d.stable) := by
  rw [restored, imageOffsets, List.map_map, List.map_map]
  exact congrArg (fun g => Acc.ofImage (List.map g (List.range imageLen)) _) (funext fun _ => rfl)

theorem mmxLd_does {s : State} {h : Hdr} (a : Fin 2) (td : TReg) (ready : UnitReady s h .matrix .reads) (on : GuardOn s h)
    (clean : Clean s) (ring : NoRing s) :
    let st := stallOf s h
    let d := Desc.of st.t[td]
    let x := restored d (((imageOffsets d).map (d.addr h.stall)).map s.peekG)
    ∃ v, exec (.mmxLd h a td) s = .next v ∧
      Issued s v h { Passed st with acc := st.acc.set a x } (restoreRecord h.stall a d x (s.newFlight .matrix h (8, 2))) noReg noByte := by
  intro st d x
  have stall := effectState_stall s h .matrix (8, 2)
  have clean' := effectState_clean clean h .matrix (8, 2)
  obtain ⟨issue, free⟩ := ready
  let as := (imageOffsets d).map (d.addr h.stall)
  let y := ((effectState s h .matrix (8, 2)).readGuarded as).1
  have found : ((effectState s h .matrix (8, 2)).readGuarded as).2 = as.map s.peekG := by
    rw [readGuarded_bytes clean' ((effectState_spill ..).trans (noRing_off ring))]
    exact List.map_congr_left fun b _ => effectState_peekG clean (noRing_off ring) h .matrix (8, 2) b
  obtain ⟨v, next, issued, _⟩ := issue_effect (u := .reads) (f := fun y r => mmxLdEffect h a td y r)
    (t := y.modStall h.stall fun t => t.setAcc a x) (r := restoreRecord h.stall a d x (s.newFlight .matrix h (8, 2))) (W := noByte) issue
    free on (by simp) (by
      have own : (Desc.of ((effectState s h .matrix (8, 2)).stall h.stall).t[td]) = d := by rw [stall]; rfl
      simp only [mmxLdEffect, own]
      rw [found])
    (.trans id id (readGuarded_only clean' as h.stall noByte) (modStall_only _ _ _ _ _))
  refine ⟨v, (exec_mmxLd h a td s).trans next, ?_⟩
  have same : y.stall h.stall = Passed st := by
    unfold State.stall at stall ⊢
    rw [← stall, show y.stalls = (effectState s h .matrix (8, 2)).stalls from readGuarded_stalls _ as]
  rw [State.stall_modStall_same, same, setAcc_passed] at issued
  exact issued

/-! ### What the statement asks -/

/-- Counts of three kinds of events, and of no other. -/
theorem three_events {count : StallEvent → Nat} {reserved code wrap : Nat}
    (sum : ∀ e, count e = (if e = .reserved then reserved else 0) + (if e = .codewrite then code else 0) +
      (if e = .mmWrap then wrap else 0)) :
    count .mmWrap = wrap ∧ count .reserved = reserved ∧ count .codewrite = code ∧
      ∀ e, e ∉ [StallEvent.mmWrap, .reserved, .codewrite] → count e = 0 := by
  refine ⟨by simp [sum], by simp [sum], by simp [sum], fun e other => ?_⟩
  simp only [List.mem_cons, List.not_mem_nil, or_false, not_or] at other
  simp [sum, other]

theorem saveRecord_events (s : State) (st : Stall) (n : Fin 128) (a : Fin 2) (d : Desc) (r : Flight) (e : StallEvent) :
    eventsOf (saveRecord st n a d (s.writeTile n d (imageBytes d st.acc[a])).2 r) e =
      (if e = .reserved then (if (List.range imageLen).any fun k => (rsvdOwner (d.addr n (d.base + k))).isSome then 1 else 0) else 0) +
      (if e = .codewrite then
        (if (List.range imageLen).any fun k => (s.codeOwner (d.addr n (d.base + k))).isSome then 1 else 0) else 0) +
      (if e = .mmWrap then (if (List.range imageLen).any fun k => d.wraps (d.base + k) then 1 else 0) else 0) := by
  refine (writeTile_events s n d _ e).trans ?_
  rw [any_imageBytes d st.acc[a] fun k => (rsvdOwner (d.addr n k)).isSome,
    any_imageBytes d st.acc[a] fun k => (s.codeOwner (d.addr n k)).isSome, any_imageBytes d st.acc[a] d.wraps]

theorem any_imageOffsets (d : Desc) (p : Nat → Bool) : (imageOffsets d).any p = (List.range imageLen).any fun k => p (d.base + k) :=
  List.any_map ..

theorem restoreRecord_events (n : Fin 128) (a : Fin 2) (d : Desc) (x : Acc) (r : Flight) (e : StallEvent) :
    eventsOf (restoreRecord n a d x r) e =
      (if e = .reserved then (if (List.range imageLen).any fun k => (rsvdOwner (d.addr n (d.base + k))).isSome then 1 else 0) else 0) +
      (if e = .codewrite then 0 else 0) +
      (if e = .mmWrap then (if (List.range imageLen).any fun k => d.wraps (d.base + k) then 1 else 0) else 0) := by
  rw [eventsOf_eq, restoreRecord, eventCount_append, eventCount_rsvdEvent, eventCount_wrapEvent, List.any_map, any_imageOffsets,
    any_imageOffsets, ite_self, Nat.add_zero]
  rfl

/-- Where the bytes of a readout into a plain format stand, its elements stand, byte by byte. -/
theorem readout_elements {mem : List Host.Cell} {n : Fin 128} {d : Desc} {f : Fmt} {m : OvMode} {k : Option Kind} {sc : Int} {x : Acc}
    {M N : Nat} (stored : ∀ w ∈ readoutBytes d f (x.readout f m k sc M N), Memory.read mem (d.addr n w.1) = w.2.1)
    (mx : isMx f = false) {i j b : Nat} (hi : i < M) (hj : j < N) (hb : b < fmtWidth f / 8) :
    (Memory.read mem (d.addr n (d.byteOff i (fmtWidth f / 8 * j + b)))).toNat =
      (mmrElem f m sc (x.get i j).poison (x.value (x.get i j))).bits / 2 ^ (8 * b) % 2 ^ 8 := by
  obtain ⟨r, row, element⟩ := readout_plain x m k sc mx hi hj
  rw [stored _ (mem_readoutBytes d f row element hb), BitVec.toNat_ofNat]

/-- Settles O20: a readout, a save and a restore as they are issued, and the image of an accumulator. -/
theorem matrixReadoutSaveAndRestore : Obligations.MatrixReadoutSaveAndRestore := by
  unfold Obligations.MatrixReadoutSaveAndRestore
  refine ⟨fun s h a td f m k c so m1 n1 ready on clean ok => ?_, fun s h a td on clean => ⟨fun ready => ?_, fun ready ring => ?_⟩,
    fun a => ⟨a.image_length, a.natAt_kcount, fun i j hi hj => ?_⟩⟩
  · intro st n d sc rows all fmt
    obtain ⟨v, next, issued, bytes⟩ := mmr_does m c so m1 ready on clean ok fmt
    obtain ⟨heads, counts, status⟩ := mmrRecord_fields st n a d f m k c (shiftOf st so) (m1.val + 1) (n1.val + 1)
      ((effectState s h .matrix (8, 0)).writeTile n d all).2 (s.newFlight .matrix h (8, 0))
    have events := readoutRecord_events st n a d f m k c (shiftOf st so) (m1.val + 1) (n1.val + 1) (effectState s h .matrix (8, 0)) all
      (s.newFlight .matrix h (8, 0))
    simp only [effectState_codeOwner] at events
    refine ⟨v, next, _, heads, status, issued, ?_, fun ring sound distinct unowned => ?_⟩
    · simp only [eventsOf_eq]
      rw [counts]
      exact events
    · have stored := bytes ring sound distinct unowned
      exact ⟨stored, fun mx i j b hi hj hb => readout_elements stored mx (Nat.lt_succ_of_le hi) (Nat.lt_succ_of_le hj) hb⟩
  · obtain ⟨v, next, issued, bytes⟩ := mmxSt_does a td ready on clean
    have events := three_events (saveRecord_events (effectState s h .matrix (8, 1)) (stallOf s h) h.stall a
      (Desc.of (stallOf s h).t[td]) (s.newFlight .matrix h (8, 1)))
    simp only [effectState_codeOwner] at events
    refine ⟨v, next, _, ⟨rfl, rfl, rfl, rfl, rfl, rfl, rfl⟩, ?_, issued, bytes⟩
    simpa only [Bool.true_and] using events
  · obtain ⟨v, next, issued⟩ := mmxLd_does a td ready on clean ring
    rw [restored_peekG] at issued
    have events := fun x =>
      three_events (restoreRecord_events h.stall a (Desc.of (stallOf s h).t[td]) x (s.newFlight .matrix h (8, 2)))
    refine ⟨v, next, _, ?_, ?_, issued⟩
    · exact restoreRecord_heads h.stall a _ _ (s.newFlight .matrix h (8, 2))
    · obtain ⟨wrap, reserved, code, other⟩ := events _
      exact ⟨wrap, reserved, by rw [code, Bool.false_and, if_neg Bool.false_ne_true], other⟩
  · intro e x
    obtain ⟨_, window, seen, spill, nan, pinf, ninf, poison, negz⟩ := e.record_fields
    have record : x = e.record := a.natAt_record hi hj
    rw [record]
    refine ⟨window, seen, spill, nan, pinf, ninf, poison, negz, fun loc k off => ?_⟩
    obtain ⟨kcount, compat, int, ploc⟩ := a.ofImage_header loc k off
    have element := a.ofImage_get loc k hi hj
    refine ⟨kcount, compat, int, ploc, fun exact' lo hi' small => ?_, fun mode => ?_⟩
    · exact element.trans (exact' ▸ Elem.ofImage_record lo hi' small)
    · rw [mode] at element
      exact ⟨(congrArg (·.window.toNat) element).trans e.ofImage_compat.1, (congrArg (·.poison) element).trans e.ofImage_compat.2⟩

end Sys2Proof
end

section
/-!
PROOFS of the family 02_number_formats: the numerics watch completes a sample.
-/
namespace Sys2Proof

open Machine

/-! ### What the watch counts in (R61 to R64) -/

/-- From `s` to `t` the watch's records are as they were, and of the registers only those of `R` have changed. -/
structure Counting (R : Reg → Prop) (s t : State) : Prop extends Calm R s t where
  watches : t.watches = s.watches

theorem Counting.refl (R : Reg → Prop) (s : State) : Counting R s s := ⟨.refl R s, rfl⟩

theorem Counting.trans {R : Reg → Prop} {s t u : State} (h : Counting R s t) (k : Counting R t u) : Counting R s u :=
  ⟨h.toCalm.trans k.toCalm, k.watches.trans h.watches⟩

theorem Counting.mono {R Q : Reg → Prop} {s t : State} (h : Counting R s t) (hr : ∀ r, R r → Q r) : Counting Q s t :=
  ⟨h.toCalm.mono hr, h.watches⟩

theorem RegFrame.counting {R : Reg → Prop} {s t : State} (h : RegFrame R s t) (n : ∀ r, ringReg r → ¬ R r) : Counting R s t :=
  ⟨h.calm n, by rw [h.rest]⟩

theorem Traced.counting {s t : State} (h : Traced s t) (R : Reg → Prop) : Counting R s t := ⟨h.calm R, by rw [h.rest]⟩

/-- The registers of a watch's shadow path. -/
def shadowReg (u : Fin 16) (r : Reg) : Prop :=
  r = .stbNwUlpSum u ∨ r = .stbNwUlpElems u ∨ r = .stbNwUlpOver u ∨ r = .stbNwUlpMax u

/-- The registers of a watch's histograms. -/
def histReg (u : Fin 16) (r : Reg) : Prop := ∃ i, r = .stbNwHistA u i ∨ r = .stbNwHistB u i ∨ r = .stbNwHistC u i

theorem shadowReg.not_ring {u : Fin 16} {r : Reg} (ring : ringReg r) : ¬ shadowReg u r := by
  rintro (rfl | rfl | rfl | rfl) <;> simp [ringReg] at ring

theorem histReg.not_ring {u : Fin 16} {r : Reg} (ring : ringReg r) : ¬ histReg u r := by
  rintro ⟨i, rfl | rfl | rfl⟩ <;> simp [ringReg] at ring

/-- A count of the watch, in a register that places no trace. -/
theorem watchBump_counting (s : State) (u : Fin 16) {r : Reg} (k : Nat) (ring : ¬ ringReg r) :
    Counting (fun q => s.watchFrozen u = false ∧ q = r) s (s.watchBump u r k) := by
  unfold State.watchBump
  split
  · exact .refl _ s
  · next thawed =>
    exact ((bump_frame s r k).counting fun q hq e => ring (e ▸ hq)).mono fun q e => ⟨by simpa using thawed, e⟩

theorem watchBump_counted {s : State} {u : Fin 16} (thawed : s.watchFrozen u = false) (r : Reg) (k : Nat) :
    Counted s (s.watchBump u r k) r k := by
  rw [State.watchBump, thawed]
  exact bump_count s r k (Fld.get_lt _ _)

theorem Counted.keep {s t u : State} {r : Reg} {k : Nat} (h : Counted s t r k) (same : u.rd r = t.rd r) : Counted s u r k :=
  (State.fld_congr _ same).trans h

theorem Counted.zero {s t : State} {r : Reg} (same : t.rd r = s.rd r) : Counted s t r 0 := by
  have small : s.fld r F.COUNT < 2 ^ 48 := Fld.get_lt _ _
  rw [Counted, State.fld_congr F.COUNT same, Nat.add_zero, Nat.min_eq_right (by omega)]

/-! ### The paths of a sample -/

/-- The places where the own operands give another rounded element than the array did. -/
def mismatches (x : WatchSample) (own out : List (List (Nat × Nat))) : List (Nat × Nat) :=
  ((List.range x.m).map fun i => (List.range x.n).map fun j => (i, j)).flatten.filter fun p =>
    (own.getD p.1 []).getD p.2 (0, 0) ≠ (out.getD p.1 []).getD p.2 (0, 0)

theorem watchUnit_ne (u : Fin 16) : (⟨0x200 + u.val, by omega⟩ : Fin 1024) ≠ 0x3FF := by
  intro e
  have := congrArg Fin.val e
  have := u.isLt
  simp at *
  omega

theorem watchOwn_counting (s : State) (u : Fin 16) (x : WatchSample) (own out : List (List (Nat × Nat))) :
    Counting (fun q => s.watchFrozen u = false ∧ q = .stbNwMismatch u) s (s.watchOwn u x own out) := by
  unfold State.watchOwn
  dsimp only
  split
  · exact .refl _ s
  · exact (watchBump_counting s u _ (by simp [ringReg])).trans ((log_traced _ _ _ _ (watchUnit_ne u)).counting _)

theorem watchOwn_counted {s : State} {u : Fin 16} (thawed : s.watchFrozen u = false) (x : WatchSample) (own out : List (List (Nat × Nat))) :
    Counted s (s.watchOwn u x own out) (.stbNwMismatch u) (mismatches x own out).length := by
  unfold State.watchOwn
  dsimp only
  split
  · next none =>
    rw [mismatches, none]
    exact .zero rfl
  · next p ps some =>
    rw [mismatches, some]
    exact (watchBump_counted thawed _ _).keep ((log_traced _ _ _ _ (watchUnit_ne u)).regs _ rfl)

theorem watchShadow_counting (s : State) (u : Fin 16) (x : WatchSample) (f : Fmt) (out : List (Nat × Nat)) (sh : List FVal) :
    Counting (fun q => s.watchFrozen u = false ∧ shadowReg u q) s (s.watchShadow u x f out sh) := by
  unfold State.watchShadow
  dsimp only
  split
  · exact .refl _ s
  · next thawed =>
    refine Counting.mono (R := shadowReg u) ?_ fun q hq => ⟨by simpa using thawed, hq⟩
    have sum : ∀ t : State, ∀ k, Counting (shadowReg u) t (t.setFld (.stbNwUlpSum u) F.COUNT k) := fun t k =>
      ((setFld_frame ..).mono fun q e => .inl e).counting fun _ => shadowReg.not_ring
    have elems : ∀ t : State, ∀ k, Counting (shadowReg u) t (t.bump (.stbNwUlpElems u) k) := fun t k =>
      ((bump_frame ..).mono fun q e => .inr (.inl e)).counting fun _ => shadowReg.not_ring
    have past : ∀ t : State, ∀ k, Counting (shadowReg u) t (t.bump (.stbNwUlpOver u) k) := fun t k =>
      ((bump_frame ..).mono fun q e => .inr (.inr (.inl e))).counting fun _ => shadowReg.not_ring
    have top : ∀ t : State, ∀ fs, Counting (shadowReg u) t (t.setFlds (.stbNwUlpMax u) fs) := fun t fs =>
      ((setFlds_frame ..).mono fun q e => .inr (.inr (.inr e))).counting fun _ => shadowReg.not_ring
    split
    · exact (((sum s _).trans (elems _ _)).trans (past _ _)).trans (top _ _)
    · exact ((sum s _).trans (elems _ _)).trans (past _ _)

theorem histAdd_counting (s : State) (u : Fin 16) {r : Fin 32 → Reg} (hist : ∀ i, histReg u (r i)) (base : Int) (vs : List FVal) :
    Counting (histReg u) s (s.histAdd r base vs) := by
  unfold State.histAdd
  dsimp only
  generalize List.finRange 32 = is
  induction is generalizing s with
  | nil => exact .refl _ s
  | cons i is ih =>
    rw [List.foldl_cons]
    refine Counting.trans ?_ (ih _)
    split
    · exact .refl _ s
    · exact ((wr_frame ..).mono fun q e => e ▸ hist i).counting fun _ => histReg.not_ring

/-! ### A sample is completed -/

/-- The watch's histograms take the values of a sample. -/
def Machine.State.histSample (s : State) (u : Fin 16) (x : WatchSample) (c : List FVal) : State :=
  ((s.histAdd (.stbNwHistA u) x.bases.1 x.histA).histAdd (.stbNwHistB u) x.bases.2.1 x.histB).histAdd (.stbNwHistC u) x.bases.2.2 c

theorem histSample_counting (s : State) (u : Fin 16) (x : WatchSample) (c : List FVal) :
    Counting (histReg u) s (s.histSample u x c) :=
  ((histAdd_counting s u (fun i => ⟨i, .inl rfl⟩) _ _).trans (histAdd_counting _ u (fun i => ⟨i, .inr (.inl rfl)⟩) _ _)).trans
    (histAdd_counting _ u (fun i => ⟨i, .inr (.inr rfl)⟩) _ _)

/-- The path of a sample: that of its shadow, or of its own operands. -/
def Machine.State.watchPath (s : State) (u : Fin 16) (x : WatchSample) (f : Fmt) (m : OvMode) (k : Option Kind) : State :=
  let out := roundGrid f m k x.kcount x.array
  match x.shadow with
  | some sh => s.watchShadow u x f out.flatten ((roundGrid .bf16 .ieee none x.kcount sh).flatten.map (roundedValue .bf16))
  | none => s.watchOwn u x (roundGrid f m k x.kcount x.own) out

theorem watchPath_counting (s : State) (u : Fin 16) (x : WatchSample) (f : Fmt) (m : OvMode) (k : Option Kind) :
    Counting (fun q => s.watchFrozen u = false ∧ (q = .stbNwMismatch u ∨ shadowReg u q)) s (s.watchPath u x f m k) := by
  unfold State.watchPath
  dsimp only
  split
  · exact (watchShadow_counting ..).mono fun q hq => ⟨hq.1, .inr hq.2⟩
  · exact (watchOwn_counting ..).mono fun q hq => ⟨hq.1, .inl hq.2⟩

theorem watchFrozen_congr {s t : State} (u : Fin 16) (same : t.rd (.stbNwCtrl u) = s.rd (.stbNwCtrl u)) :
    t.watchFrozen u = s.watchFrozen u := State.flag_congr _ same

theorem nwSampleComplete_next {s : State} {u : Fin 16} {x : WatchSample} {f : Fmt} {m : OvMode} {k : Option Kind} (up : s.dieUp = true)
    (sample : (s.watch u).sample = some x) (dest : x.dest = some (f, m, k)) : exec (.nwSampleComplete u) s = .next
      (let y := ((s.setWatch u { s.watch u with sample := none }).watchBump u (.stbNwSamples u) 1).watchPath u x f m k
       if y.watchFrozen u then y else y.histSample u x ((roundGrid f m k x.kcount x.array).flatten.map (roundedValue f))) := by
  show execNwSampleComplete u s = _
  unfold execNwSampleComplete
  simp only [sample, dest, up, Bool.not_true, Bool.false_eq_true, if_false]
  rfl

/-- What completing a sample leaves. -/
theorem nwSampleComplete_does {s : State} {u : Fin 16} {x : WatchSample} {f : Fmt} {m : OvMode} {k : Option Kind} (up : s.dieUp = true)
    (sample : (s.watch u).sample = some x) (dest : x.dest = some (f, m, k)) :
    Does s (exec (.nwSampleComplete u) s)
      (fun r => s.watchFrozen u = false ∧ (r = .stbNwSamples u ∨ (r = .stbNwMismatch u ∨ shadowReg u r) ∨ histReg u r)) fun t =>
        t.watch u = { s.watch u with sample := none } ∧
        (s.watchFrozen u = false → Counted s t (.stbNwSamples u) 1 ∧ (x.shadow = none → Counted s t (.stbNwMismatch u)
          (mismatches x (roundGrid f m k x.kcount x.own) (roundGrid f m k x.kcount x.array)).length)) := by
  rw [nwSampleComplete_next up sample dest]
  let s1 := s.setWatch u { s.watch u with sample := none }
  let s2 := s1.watchBump u (.stbNwSamples u) 1
  let s3 := s2.watchPath u x f m k
  let s4 := if s3.watchFrozen u then s3 else s3.histSample u x ((roundGrid f m k x.kcount x.array).flatten.map (roundedValue f))
  have counted := watchBump_counting s1 u (r := .stbNwSamples u) 1 (by simp [ringReg])
  have frozen2 : s2.watchFrozen u = s.watchFrozen u := watchFrozen_congr u (counted.regs _ rfl (by simp))
  have path := watchPath_counting s2 u x f m k
  rw [frozen2] at path
  have frozen3 : s3.watchFrozen u = s.watchFrozen u := (watchFrozen_congr u (path.regs _ rfl (by simp [shadowReg]))).trans frozen2
  have hist : Counting (fun q => s.watchFrozen u = false ∧ histReg u q) s3 s4 := by
    show Counting _ s3 (if s3.watchFrozen u then s3 else _)
    rw [frozen3]
    cases thawed : s.watchFrozen u
    · exact (histSample_counting ..).mono fun q hq => ⟨rfl, hq⟩
    · exact .refl _ _
  have all : Counting (fun r => s.watchFrozen u = false ∧ (r = .stbNwSamples u ∨ (r = .stbNwMismatch u ∨ shadowReg u r) ∨ histReg u r))
      s1 s4 := by
    refine .trans (counted.mono fun q hq => ⟨hq.1, .inl hq.2⟩) (.trans (path.mono fun q hq => ⟨hq.1, .inr (.inl hq.2)⟩)
      (hist.mono fun q hq => ⟨hq.1, .inr (.inr hq.2)⟩))
  have left : Calm (fun r => s.watchFrozen u = false ∧ (r = .stbNwSamples u ∨ (r = .stbNwMismatch u ∨ shadowReg u r) ∨ histReg u r))
      s s1 := .same rfl rfl rfl rfl
  refine (left.trans all.toCalm).does ⟨?_, fun thawed => ⟨?_, fun shadow => ?_⟩⟩
  · have watches : s4.watch u = s1.watch u := congrArg (AMap.get ({} : Watch) u) all.watches
    exact watches.trans (AMap.get_set_same ..)
  · have samples : Counted s s2 (.stbNwSamples u) 1 := watchBump_counted (s := s1) thawed _ 1
    refine samples.keep ((hist.regs _ rfl ?_).trans (path.regs _ rfl ?_))
    · simp [histReg]
    · simp [shadowReg]
  · have own : s3 = s2.watchOwn u x (roundGrid f m k x.kcount x.own) (roundGrid f m k x.kcount x.array) := by
      show s2.watchPath u x f m k = _
      simp only [State.watchPath, shadow]
    have found := watchOwn_counted (frozen2.trans thawed) x (roundGrid f m k x.kcount x.own) (roundGrid f m k x.kcount x.array)
    rw [← own] at found
    have before : s2.rd (.stbNwMismatch u) = s.rd (.stbNwMismatch u) := counted.regs _ rfl (by simp)
    have kept := found.keep (hist.regs _ rfl (by simp [histReg]))
    rw [Counted, State.fld_congr _ before] at kept
    exact kept

end Sys2Proof
end

section
/-!
PROOFS of the family 02_number_formats: what accesses by context leave of the registers and of the tiles.
-/
namespace Sys2Proof

open Machine

/-- The registers that an access of memory may write: those of the trace, of errors found, of the poison log and of refused pages. -/
def accessReg : Reg → Bool
  | .hbaPoisonLost | .hbaPoisonRec0 _ | .hbaPoisonRec1 _ | .hbaPoisonTail | .hbaEccUe _ | .hbaEccCe _ | .lftEccUe | .lftEccCe => true
  | .stlSramUe _ | .stlSramCe _ | .stlSramUeRec _ | .stbSramUe _ | .stbSramCe _ | .stbSramUeRec _ => true
  | .hstXlatRefused _ | .hstXlatFault _ => true
  | r => traceReg r

/-- From `s` to `t` the registers that no access writes are as they were, and so are the tiles. -/
structure AccessKeeps (s t : State) : Prop where
  regs : ∀ r, accessReg r = false → t.rd r = s.rd r
  tiles : t.tiles = s.tiles

theorem accessReg_of_traceReg {r : Reg} (h : traceReg r = true) : accessReg r = true := by
  cases r <;> first | exact h | rfl

theorem AccessKeeps.refl (s : State) : AccessKeeps s s := ⟨fun _ _ => rfl, rfl⟩

theorem AccessKeeps.trans {s t u : State} (h : AccessKeeps s t) (k : AccessKeeps t u) : AccessKeeps s u :=
  ⟨fun r hr => (k.regs r hr).trans (h.regs r hr), k.tiles.trans h.tiles⟩

theorem AccessKeeps.foldl {α : Type} (f : State → α → State) (h : ∀ t x, AccessKeeps t (f t x)) (xs : List α) (s : State) :
    AccessKeeps s (xs.foldl f s) := by
  induction xs generalizing s with
  | nil => exact .refl s
  | cons x xs ih => exact (h s x).trans (ih _)

/-- What changes no register and no tile. -/
theorem AccessKeeps.same {s t : State} (regs : t.regs = s.regs) (tiles : t.tiles = s.tiles) : AccessKeeps s t :=
  ⟨fun r _ => by simp only [State.rd, regs], tiles⟩

theorem Traced.accessKeeps {s t : State} (h : Traced s t) : AccessKeeps s t :=
  ⟨fun r hr => h.regs r (by
    by_contra on
    rw [accessReg_of_traceReg (by simpa using on)] at hr
    cases hr), by rw [h.rest]⟩

theorem RegFrame.accessKeeps {R : Reg → Prop} {s t : State} (h : RegFrame R s t) (within : ∀ r, R r → accessReg r = true) :
    AccessKeeps s t :=
  ⟨fun r hr => h.regs r fun k => absurd hr (by simp [within r k]), by rw [h.rest]⟩

theorem aonAdd_accessKeeps (s : State) (i n : Nat) : AccessKeeps s (s.aonAdd i n) := by
  rw [aonAdd_eq]
  exact .same rfl rfl

theorem bump_accessKeeps (s : State) {r : Reg} (h : accessReg r = true) (n : Nat) : AccessKeeps s (s.bump r n) :=
  (bump_frame s r n).accessKeeps fun _ e => e ▸ h

theorem wr_accessKeeps (s : State) {r : Reg} (h : accessReg r = true) (v : BitVec 64) : AccessKeeps s (s.wr r v) :=
  (wr_frame s r v).accessKeeps fun _ e => e ▸ h

/-! ### Errors found -/

theorem postPoison_accessKeeps (s : State) (u : Nat) (scrub : Bool) : AccessKeeps s (s.postPoison u scrub) := by
  have told : ∀ t : State, AccessKeeps t { t.raise 256 with redfish := (t.raise 256).redfish ++ [.poison] } := fun _ => .same rfl rfl
  simp only [State.postPoison]
  split
  · exact bump_accessKeeps s rfl 1
  · refine .trans (.trans ?_ (aonAdd_accessKeeps _ _ _)) (told _)
    exact ((wr_accessKeeps s rfl _).trans (wr_accessKeeps _ rfl _)).trans (wr_accessKeeps _ rfl _)

theorem logPoison_accessKeeps (s : State) (u : Nat) : AccessKeeps s (s.logPoison (homeUnit u) u) :=
  (log_traced s _ _ _ (homeUnit_ne u)).accessKeeps

theorem recordUe_accessKeeps (s : State) {unit : Fin 1024} (h : unit ≠ 0x3FF) {r : Reg} (hr : accessReg r = true) (off : Nat) :
    AccessKeeps s (s.recordUe unit r off) := by
  simp only [State.recordUe]
  split
  · exact (log_traced s _ _ _ h).accessKeeps
  · exact wr_accessKeeps s hr _

theorem newUe_accessKeeps (s : State) (u : Nat) (scrub : Bool) : AccessKeeps s (s.newUe u scrub) := by
  have home := homeUnit_ne u
  have poisoned : AccessKeeps s ({ s with latentUe := s.latentUe.filter (· ≠ u) }.poisonUnit u) := .same rfl rfl
  simp only [State.newUe]
  refine poisoned.trans ?_
  generalize { s with latentUe := s.latentUe.filter (· ≠ u) }.poisonUnit u = t
  split
  · exact ((bump_accessKeeps t rfl 1).trans (logPoison_accessKeeps _ u)).trans (postPoison_accessKeeps ..)
  split
  · exact ((bump_accessKeeps t rfl 1).trans (logPoison_accessKeeps _ u)).trans (postPoison_accessKeeps ..)
  split
  · exact ((bump_accessKeeps t rfl 1).trans (recordUe_accessKeeps _ home rfl _)).trans (logPoison_accessKeeps ..)
  · exact ((bump_accessKeeps t rfl 1).trans (recordUe_accessKeeps _ home rfl _)).trans (logPoison_accessKeeps ..)

theorem newCe_accessKeeps (s : State) (u : Nat) : AccessKeeps s (s.newCe u) := by
  have found : AccessKeeps s { s with latentCe := s.latentCe.filter (· ≠ u) } := .same rfl rfl
  simp only [State.newCe]
  refine found.trans ?_
  split
  · exact bump_accessKeeps _ rfl 1
  split
  · exact bump_accessKeeps _ rfl 1
  split
  · exact bump_accessKeeps _ rfl 1
  · exact bump_accessKeeps _ rfl 1

theorem touch_accessKeeps (s : State) (u : Nat) (scrub : Bool) : AccessKeeps s (s.touch u scrub) := by
  have found : AccessKeeps s (if u ∈ s.latentUe then s.newUe u scrub else s) := by
    split
    · exact newUe_accessKeeps ..
    · exact .refl s
  simp only [State.touch]
  refine found.trans ?_
  generalize (if u ∈ s.latentUe then s.newUe u scrub else s) = t
  split
  · exact newCe_accessKeeps ..
  · exact .refl t

theorem request_touch_accessKeeps (s : State) (w : Bool) (u : Nat) : AccessKeeps s ((s.request w u).touch u) :=
  (request_traced s w u).accessKeeps.trans (touch_accessKeeps ..)

/-! ### Writes under way -/

theorem nextAccess_accessKeeps (s : State) : AccessKeeps s s.nextAccess := by
  unfold State.nextAccess
  split <;> exact .same rfl rfl

theorem racesPerform_accessKeeps (s : State) (k : Racing → Nat) : AccessKeeps s (s.racesPerform k) := by
  unfold State.racesPerform
  split <;> exact .same rfl rfl

theorem noteReads_accessKeeps (s : State) (as : List Nat) : AccessKeeps s (s.noteReads as) := by
  unfold State.noteReads
  split
  · split <;> exact .same rfl rfl
  · exact .refl s

theorem spread_accessKeeps (s : State) (n : Fin 128) : AccessKeeps s (s.spread n) := by
  unfold State.spread
  split
  · exact .refl s
  · refine .foldl _ (fun t g => ?_) _ s
    split <;> exact .same rfl rfl

theorem racesHit_accessKeeps (s : State) (ws : List (Nat × MByte)) : AccessKeeps s (s.racesHit ws) := by
  unfold State.racesHit
  split
  · exact .refl s
  · refine .foldl _ (fun t x => .trans (t := t.undefine x) (.same rfl rfl) ?_) _ s
    split
    · exact spread_accessKeeps ..
    · exact .refl _

theorem writeReady_accessKeeps (s : State) (ws : List (Nat × MByte)) : AccessKeeps s (s.writeReady ws) := by
  refine .trans (.trans (nextAccess_accessKeeps s) ?_) (racesHit_accessKeeps _ ws)
  unfold State.racesPass
  split
  · exact .refl _
  · exact racesPerform_accessKeeps ..

/-! ### Accesses by physical address -/

theorem readMem_accessKeeps (s : State) (as : List Nat) : AccessKeeps s (s.readMem as).1 := by
  simp only [State.readMem]
  refine .trans (.trans ?_ (aonAdd_accessKeeps _ _ _)) (aonAdd_accessKeeps _ _ _)
  refine .trans ?_ (.foldl _ (fun t u => request_touch_accessKeeps t false u) _ _)
  exact ((nextAccess_accessKeeps s).trans (racesPerform_accessKeeps _ _)).trans (noteReads_accessKeeps _ _)

theorem writeAsked_accessKeeps (s : State) (xs : List (Nat × MByte)) : AccessKeeps s (s.writeAsked xs) := by
  simp only [State.writeAsked]
  refine .trans (.trans (.trans ?_ (aonAdd_accessKeeps _ _ _)) (aonAdd_accessKeeps _ _ _)) (aonAdd_accessKeeps _ _ _)
  refine .trans (t := { s with latentUe := s.latentUe.filter (· ∉ wholeUnits xs), latentCe := s.latentCe.filter (· ∉ wholeUnits xs) })
    (.same rfl rfl) (.foldl _ (fun t u => ?_) _ _)
  split
  · exact (request_traced t false u).accessKeeps.trans (request_touch_accessKeeps _ true u)
  · exact request_touch_accessKeeps t true u

theorem writeMem_accessKeeps (s : State) (ws : List (Nat × MByte)) : AccessKeeps s (s.writeMem ws) := by
  rw [writeMem_eq]
  let xs := ws.filter fun w => backed w.1
  have stored : ∀ (t : State) m p, AccessKeeps t { t with mem := m, poison := p } := fun _ _ _ => .same rfl rfl
  exact (writeReady_accessKeeps s xs).trans (.trans (t := (s.writeReady xs).racesWrite xs) (.same rfl rfl)
    ((writeAsked_accessKeeps _ xs).trans (stored _ _ _)))

/-! ### Translation -/

theorem scope_accessKeeps {α : Type} (s : State) (f : State → State × α) (h : ∀ t, AccessKeeps t (f t).1) : AccessKeeps s (s.scope f).1 := by
  unfold State.scope
  split
  · exact h s
  · exact .trans (t := { s with refusing := some [] }) (.same rfl rfl) (.trans (h _) (.same rfl rfl))

theorem foldl_accessKeeps_fst {α β : Type} (f : State × β → α → State × β) (h : ∀ p x, AccessKeeps p.1 (f p x).1) (xs : List α)
    (p : State × β) : AccessKeeps p.1 (xs.foldl f p).1 := by
  induction xs generalizing p with
  | nil => exact .refl _
  | cons x xs ih => exact (h p x).trans (ih _)

theorem ite_fst_accessKeeps {α : Type} {s : State} {c : Prop} [Decidable c] {p q : State × α} (hp : AccessKeeps s p.1)
    (hq : AccessKeeps s q.1) : AccessKeeps s (if c then p else q).1 := by
  split
  exacts [hp, hq]

theorem pte_accessKeeps (s : State) (a : Nat) : AccessKeeps s (s.pte a).1 := readMem_accessKeeps ..

theorem walk_accessKeeps (s : State) (root va : Nat) : AccessKeeps s (s.walk root va).1 := by
  unfold State.walk
  dsimp only
  have h0 := aonAdd_accessKeeps s 162 1
  generalize s.aonAdd 162 1 = t at h0 ⊢
  have h1 := h0.trans (pte_accessKeeps t (root + 8 * bitsOf va 39 9))
  generalize t.pte (root + 8 * bitsOf va 39 9) = p at h1 ⊢
  have h2 := h1.trans (pte_accessKeeps p.1 (bitsOf p.2.1 12 36 * 2 ^ 12 + 8 * bitsOf va 30 9))
  generalize p.1.pte (bitsOf p.2.1 12 36 * 2 ^ 12 + 8 * bitsOf va 30 9) = q at h2 ⊢
  have h3 := h2.trans (pte_accessKeeps q.1 (bitsOf q.2.1 12 36 * 2 ^ 12 + 8 * bitsOf va 21 9))
  exact ite_fst_accessKeeps h0 (ite_fst_accessKeeps h1 (ite_fst_accessKeeps h1 (ite_fst_accessKeeps h1 (ite_fst_accessKeeps h2
    (ite_fst_accessKeeps h2 (ite_fst_accessKeeps (ite_fst_accessKeeps h2 h2) (ite_fst_accessKeeps h2 (ite_fst_accessKeeps h3
      (ite_fst_accessKeeps h3 (ite_fst_accessKeeps h3 h3))))))))))

theorem unitTakes_accessKeeps (s : State) (source : Nat) (e : XlatEntry) : AccessKeeps s (s.unitTakes source e) := by
  unfold State.unitTakes
  split <;> exact .same rfl rfl

theorem page_accessKeeps (s : State) (c : Fin 64) (va source : Nat) : AccessKeeps s (s.page c va source).1 := by
  simp only [State.page]
  split
  · exact .refl s
  split
  · exact unitTakes_accessKeeps ..
  have walked := walk_accessKeeps s (AMap.get (s.rd (.hstXlatRoot c)) c s.xlatRoot).toNat va
  split
  · next t l h =>
    rw [h] at walked
    exact walked.trans (.trans (t := t.chipTakes _) (.same rfl rfl) (unitTakes_accessKeeps ..))
  · next t e h =>
    rw [h] at walked
    exact walked

theorem refuse_accessKeeps (s : State) (c : Fin 64) (va cause : Nat) (write remote : Bool) (source : Nat) (page : Nat × Nat) :
    AccessKeeps s (s.refuse c va cause write remote source page) := by
  simp only [State.refuse]
  split
  · exact .refl s
  refine .trans (.trans (t := { s with refusing := s.refusing.map fun ks => (c, page) :: ks }) (.same rfl rfl)
    (bump_accessKeeps _ (r := .hstXlatRefused c) rfl 1)) ?_
  split
  · exact (log_traced _ _ _ _ (by decide)).accessKeeps
  · exact wr_accessKeeps _ rfl _

theorem grantPage_accessKeeps (s : State) (c : Fin 64) (va : Nat) (write remote : Bool) (source : Nat) :
    AccessKeeps s (s.grantPage c va write remote source).1 := by
  have found := page_accessKeeps s c va source
  unfold State.grantPage
  split
  · next t e h =>
    rw [h] at found
    exact found.trans (refuse_accessKeeps ..)
  · next t l h =>
    rw [h] at found
    exact ite_fst_accessKeeps (found.trans (refuse_accessKeeps ..))
      (ite_fst_accessKeeps (found.trans (refuse_accessKeeps ..)) found)

theorem xlatAll_accessKeeps (s : State) (c : Fin 64) (vas : List Nat) (write remote : Bool) (source : Nat) :
    AccessKeeps s (s.xlatAll c vas write remote source).1 := by
  refine scope_accessKeeps s _ fun t => ?_
  refine foldl_accessKeeps_fst _ (fun p x => ?_) _ (t, [])
  exact grantPage_accessKeeps ..

theorem readCtx_accessKeeps (s : State) (c : Fin 64) (vas : List Nat) (source : Nat) : AccessKeeps s (s.readCtx c vas source).1 :=
  (xlatAll_accessKeeps s c vas false false source).trans (readMem_accessKeeps ..)

theorem writeCtx_accessKeeps (s : State) (c : Fin 64) (ws : List (Nat × MByte)) (source : Nat) :
    AccessKeeps s (s.writeCtx c ws source) := by
  have granted := xlatAll_accessKeeps s c (ws.map (·.1)) true false source
  unfold State.writeCtx
  generalize s.xlatAll c (ws.map (·.1)) true false source = p at granted ⊢
  exact granted.trans (writeMem_accessKeeps ..)

@[simp] theorem readCtx_stalls (s : State) (c : Fin 64) (vas : List Nat) (source : Nat) : (s.readCtx c vas source).1.stalls = s.stalls :=
  (State.readMem_stalls _ _).trans (State.xlatAll_stalls ..)

@[simp] theorem writeCtx_stalls (s : State) (c : Fin 64) (ws : List (Nat × MByte)) (source : Nat) :
    (s.writeCtx c ws source).stalls = s.stalls := by
  have granted := State.xlatAll_stalls s c (ws.map (·.1)) true false source
  unfold State.writeCtx
  generalize s.xlatAll c (ws.map (·.1)) true false source = p at granted ⊢
  exact (State.writeMem_stalls ..).trans granted

end Sys2Proof
end

section
/-!
PROOFS of the family 02_number_formats: what the update and the seal leave of the stalls, and the place of the update's record.
-/
namespace Sys2Proof

open Machine

/-! ### The seal leaves the stalls (R389 to R396) -/

namespace Machine.State

@[simp] theorem latch_stalls (s : State) (c : Fin 64) (step g source : Nat) : (s.latch c step g source).1.stalls = s.stalls :=
  (readCtx_stalls ..).trans (readCtx_stalls ..)

@[simp] theorem sealSend_stalls (s : State) (c : Fin 64) (resend : Bool) (a : Fin 4) (plus : Bool) (w m : Nat) :
    (s.sealSend c resend a plus w m).stalls = s.stalls := by
  unfold State.sealSend
  dsimp only
  generalize (if plus then s.hasPlus c a else s.hasMinus c a) = has
  split
  · rfl
  split
  · exact post_stalls ..
  · rfl

@[simp] theorem sealSendAll_stalls (s : State) (c : Fin 64) (resend : Bool) : (s.sealSendAll c resend).stalls = s.stalls :=
  foldl_stalls _ (fun _ _ => (sealSend_stalls ..).trans (sealSend_stalls ..)) _ s

@[simp] theorem shardGroups_stalls (s : State) (c : Fin 64) (step : Nat) : (s.shardGroups c step).1.stalls = s.stalls := by
  have found := readCtx_stalls s c (vaRange (entryVa (s.tableVa c) step 0) (4096 * 128)) 0x83
  unfold State.shardGroups
  dsimp only
  generalize s.readCtx c (vaRange (entryVa (s.tableVa c) step 0) (4096 * 128)) 0x83 = p at found ⊢
  exact found

@[simp] theorem partBytes_stalls (s : State) (c : Fin 64) (p : MirrorPart) : (s.partBytes c p).1.stalls = s.stalls :=
  ite_fst_stalls rfl (readCtx_stalls ..)

@[simp] theorem mirrorPump_stalls (s : State) (c : Fin 64) : (s.mirrorPump c).stalls = s.stalls := by
  unfold State.mirrorPump
  dsimp only
  split
  · rfl
  split
  · rfl
  split
  · rfl
  · exact (post_stalls ..).trans (partBytes_stalls ..)

@[simp] theorem mirrorFail_stalls (s : State) (c : Fin 64) (full : Bool) : (s.mirrorFail c full).stalls = s.stalls := by
  unfold State.mirrorFail
  dsimp only
  refine (log_traced _ _ _ _ (by decide)).stalls.trans ((aonAdd_stalls ..).trans ?_)
  split <;> rfl

/-- A relation of its own, so that what is compared is the two states and never their stalls, which the kernel would evaluate. -/
structure KeepsStalls (s t : State) : Prop where
  stalls : t.stalls = s.stalls

theorem KeepsStalls.trans {s t u : State} (first : KeepsStalls s t) (second : KeepsStalls t u) : KeepsStalls s u :=
  ⟨second.stalls.trans first.stalls⟩

theorem mirrorPump_keepsStalls (s : State) (c : Fin 64) : KeepsStalls s (s.mirrorPump c) := ⟨mirrorPump_stalls ..⟩
theorem mirrorFail_keepsStalls (s : State) (c : Fin 64) (full : Bool) : KeepsStalls s (s.mirrorFail c full) := ⟨mirrorFail_stalls ..⟩
theorem setSeal_keepsStalls (s : State) (c : Fin 64) (x : SealRec) : KeepsStalls s (s.setSeal c x) := ⟨rfl⟩

theorem keepsStalls_someArm {s : State} {arm : Fin 4 → Bool → State} (keep : ∀ a plus, KeepsStalls s (arm a plus))
    (o : Option (Fin 4 × Bool)) : KeepsStalls s (match o with | none => s | some (a, plus) => arm a plus) := by
  rcases o with - | ⟨a, plus⟩
  · exact ⟨rfl⟩
  · exact keep a plus

theorem mirrorStart_keepsStalls (s : State) (c : Fin 64) (n : Nat) : KeepsStalls s (s.mirrorStart c n) := by
  have groups : KeepsStalls s (s.shardGroups c n).1 := ⟨shardGroups_stalls ..⟩
  unfold State.mirrorStart
  generalize s.shardGroups c n = p at groups ⊢
  split
  · exact ⟨rfl⟩
  refine keepsStalls_someArm (fun a plus => ?_) _
  extract_lets gib base slot
  -- The slot's size is made a variable for good: the kernel would count the product up to it.
  clear_value gib base slot
  revert gib base slot
  refine id fun gib base slot => ?_
  obtain ⟨t, gs⟩ := p
  dsimp only at groups ⊢
  split
  · exact groups.trans (mirrorFail_keepsStalls ..)
  · exact groups.trans ((setSeal_keepsStalls ..).trans (mirrorPump_keepsStalls ..))

@[simp] theorem mirrorStart_stalls (s : State) (c : Fin 64) (n : Nat) : (s.mirrorStart c n).stalls = s.stalls :=
  (mirrorStart_keepsStalls s c n).stalls

theorem sealDo_keepsStalls (s : State) (c : Fin 64) : KeepsStalls s (s.sealDo c) := by
  have wrote (ws) : KeepsStalls s (s.writeCtx c ws 0x83) := ⟨writeCtx_stalls ..⟩
  have field (t : State) (r : Reg) (f : Fld) (v : Nat) : KeepsStalls t (t.setFld r f v) := ⟨setFld_stalls ..⟩
  have fields (t : State) (r : Reg) (l) : KeepsStalls t (t.setFlds r l) := ⟨setFlds_stalls ..⟩
  have count (t : State) : KeepsStalls t (t.aonAdd 87 1) := ⟨aonAdd_stalls ..⟩
  have pump (t : State) : KeepsStalls t t.pumpColl := ⟨pumpColl_stalls ..⟩
  unfold State.sealDo State.advanceAttempt
  exact (wrote _).trans <| (field ..).trans <| (fields ..).trans <| (count _).trans <| (fields ..).trans <|
    (setSeal_keepsStalls ..).trans <| (mirrorStart_keepsStalls ..).trans <| pump _

@[simp] theorem sealDo_stalls (s : State) (c : Fin 64) : (s.sealDo c).stalls = s.stalls := (sealDo_keepsStalls s c).stalls

@[simp] theorem mirrorTallyDo_stalls (s : State) (c : Fin 64) : (s.mirrorTallyDo c).stalls = s.stalls := pumpColl_stalls _

@[simp] theorem sealEval_stalls (s : State) (c : Fin 64) (resend : Bool) : (s.sealEval c resend).stalls = s.stalls := by
  unfold State.sealEval
  dsimp only
  split
  · rfl
  · have first : ∀ t : State, (if (t.writtenTally c).2 then (t.sealDo c).sealSendAll c false else t).stalls = t.stalls := fun t => by
      split
      · simp
      · rfl
    have second : ∀ t : State, (if (t.mirrorTally c).2 then (t.mirrorTallyDo c).sealSendAll c false else t).stalls = t.stalls := fun t => by
      split
      · simp
      · rfl
    exact (second _).trans ((first _).trans (sealSendAll_stalls ..))

@[simp] theorem latchReady_stalls (s : State) (c : Fin 64) : (s.latchReady c).stalls = s.stalls := by
  unfold State.latchReady
  split
  · rfl
  · exact sealEval_stalls ..

/-! ### The update leaves the stalls (R104 to R113) -/

@[simp] theorem opAdd_stalls (s : State) (o : CollOp) : (s.opAdd o).stalls = s.stalls := by
  unfold State.opAdd
  dsimp only
  split
  · exact opBegin_stalls ..
  · rfl

@[simp] theorem gatherStart_stalls (s : State) (n : Fin 128) (seq : Nat) (c : Fin 64) (g : Fin 4) (key : TileKey) (f : Fmt)
    (va cols M N : Nat) : (s.gatherStart n seq c g key f va cols M N).1.stalls = s.stalls :=
  (opAdd_stalls ..).trans (xlatAll_stalls ..)

@[simp] theorem gradTile_stalls (s : State) (n : Fin 128) (d : BitVec 128) (f : Fmt) (M N : Nat) :
    (s.gradTile n d f M N).1.stalls = s.stalls :=
  (readGuarded_stalls ..).trans (countRsvd_access s _).stalls

@[simp] theorem tileRead_stalls (s : State) (n : Fin 128) (c : Fin 64) (step g : Nat) (e : GroupEntry) (h : Shard) (I J : Nat)
    (desc : BitVec 128) (gfmt : Fmt) : (s.tileRead n c step g e h I J desc gfmt).1.stalls = s.stalls := by
  unfold State.tileRead
  dsimp only
  simp only [readCtx_stalls, gradTile_stalls]

@[simp] theorem tileCount_stalls (s : State) (n : Fin 128) (k : Nat) (o : TileOut) : (s.tileCount n k o).stalls = s.stalls := by
  simp [State.tileCount, State.srCount]

@[simp] theorem storeAll_stalls (s : State) (c : Fin 64) (source : Nat) (wss : List (List (Nat × MByte))) :
    (s.storeAll c source wss).stalls = s.stalls := foldl_stalls _ (fun _ _ => writeCtx_stalls ..) _ s

@[simp] theorem tilesDone_stalls (s : State) (c : Fin 64) (n : Fin 128) (h : Shard) (scratch : Nat) :
    (s.tilesDone c n h scratch).1.stalls = s.stalls := readCtx_stalls ..

@[simp] theorem foldRead_stalls (s : State) (n : Fin 128) (c : Fin 64) (step g : Nat) (e : GroupEntry) (h : Shard) :
    (s.foldRead n c step g e h).1.stalls = s.stalls := by
  unfold State.foldRead
  dsimp only
  simp only [readCtx_stalls]

end Machine.State

/-- What an update instruction makes of the state and of its record: the stalls are as they were, and the record keeps its place. -/
structure UpdateKeeps (s : State) (r : Flight) (p : State × Flight) : Prop where
  stalls : p.1.stalls = s.stalls
  seq : p.2.seq = r.seq

/-- The list of the tiles that wait to be complete stands beside the stalls. -/
theorem addTile_stalls (s : State) (fail : Bool) (x : TileRec) :
    (if fail = true then s else { s with tiles := s.tiles ++ [x] }).stalls = s.stalls := by
  split <;> rfl

theorem updTile_keeps (s : State) (n : Fin 128) (r : Flight) (c : Fin 64) (step g : Nat) (e : GroupEntry) (h : Shard) (I J : Nat)
    (desc : BitVec 128) (gfmt : Fmt) : UpdateKeeps s r (s.updTile n r c step g e h I J desc gfmt) := by
  unfold State.updTile
  have found := s.tileRead_stalls n c step g e h I J desc gfmt
  generalize s.tileRead n c step g e h I J desc gfmt = p at found ⊢
  obtain ⟨t, i⟩ := p
  dsimp only at found ⊢
  have stored := ((t.tileCount n i.nonfinite i.x.run).storeAll_stalls c n.val (tileStores e h step I J i.x.run)).trans
    ((t.tileCount_stalls n i.nonfinite i.x.run).trans found)
  generalize (t.tileCount n i.nonfinite i.x.run).storeAll c n.val (tileStores e h step I J i.x.run) = u at stored ⊢
  constructor
  case seq => dsimp only; split <;> rfl
  case stalls =>
    dsimp only
    have placed : ∀ q : State × Option TileRec, q.1.stalls = s.stalls → ∀ fail : Bool, ∀ pages : State → List (Fin 64 × Nat × Nat),
        (match q.2 with
          | some x => if fail = true then q.1 else { q.1 with tiles := q.1.tiles ++ [{ x with pages := pages q.1 }] }
          | none => q.1).stalls = s.stalls := fun q kept fail pages => by
      cases q.2 with
      | none => exact kept
      | some x => exact (addTile_stalls ..).trans kept
    refine placed _ ?_ _ fun t => t.refusing.getD []
    cases u.dataGroup c with
    | none => exact stored
    | some d =>
      dsimp only
      rw [apply_ite Prod.fst]
      split
      · exact stored
      rw [apply_ite Prod.fst]
      split
      · exact (State.bump_stalls ..).trans stored
      · exact (State.gatherStart_stalls ..).trans stored

theorem foldGroup_keeps (s : State) (n : Fin 128) (r : Flight) (c : Fin 64) (step g expected : Nat) (e : GroupEntry) (h : Shard) :
    UpdateKeeps s r (s.foldGroup n r c step g expected e h) := by
  unfold State.foldGroup
  have found := s.foldRead_stalls n c step g e h
  generalize s.foldRead n c step g e h = p at found ⊢
  obtain ⟨t, i⟩ := p
  dsimp only at found ⊢
  have stored : ((t.srCount n i.stats).writeCtx c (foldStores e step i.out) n.val).stalls = s.stalls := by
    rw [writeCtx_stalls, State.srCount, State.bump_stalls, found]
  generalize (t.srCount n i.stats).writeCtx c (foldStores e step i.out) n.val = u at stored ⊢
  cases i.bad with
  | some va => exact ⟨stored, rfl⟩
  | none =>
    dsimp only
    have read := (readCtx_stalls u c (vaRange (e.scratch + 8) 4) n.val).trans stored
    generalize u.readCtx c (vaRange (e.scratch + 8) 4) n.val = q at read ⊢
    split
    · exact ⟨read, rfl⟩
    · refine ⟨?_, rfl⟩
      dsimp only
      split
      · rw [State.latchReady_stalls, State.setFld_stalls, writeCtx_stalls]
        exact read
      · rw [State.setFld_stalls, writeCtx_stalls]
        exact read

theorem updStart_keeps (s : State) (n : Fin 128) (r : Flight) (sa sb : BitVec 64) (desc : BitVec 128) (gfmt : Fmt) :
    UpdateKeeps s r (s.updStart n r sa sb desc gfmt) := by
  unfold State.updStart
  dsimp only
  have found := s.latch_stalls (s.stall n).context (bitsOf sa.toNat 0 32) (bitsOf sa.toNat 32 12) n.val
  generalize s.latch (s.stall n).context (bitsOf sa.toNat 0 32) (bitsOf sa.toNat 32 12) n.val = p at found ⊢
  obtain ⟨t, l⟩ := p
  dsimp only at found ⊢
  cases l.bad with
  | some va => exact ⟨found, rfl⟩
  | none =>
    dsimp only
    cases updCheck l.gen (BitVec.ofNat 32 (bitsOf sa.toNat 0 32)) (t.sealed (s.stall n).context) with
    | stale => exact ⟨(State.bump_stalls ..).trans found, rfl⟩
    | wait => exact ⟨found, rfl⟩
    | go =>
      dsimp only
      have latched : (if l.expected = 0 then t.latchReady (s.stall n).context else t).stalls = s.stalls := by
        split
        · exact (State.latchReady_stalls ..).trans found
        · exact found
      generalize (if l.expected = 0 then t.latchReady (s.stall n).context else t) = u at latched ⊢
      split
      · exact ⟨(State.bump_stalls ..).trans latched, rfl⟩
      split
      · have tile := updTile_keeps u n r (s.stall n).context (bitsOf sa.toNat 0 32) (bitsOf sa.toNat 32 12) l.e
          (u.shard (s.stall n).context (bitsOf sa.toNat 32 12) l.e.flags l.e.rows l.e.cols) (bitsOf sb.toNat 0 24) (bitsOf sb.toNat 24 24)
          desc gfmt
        exact ⟨tile.stalls.trans latched, tile.seq⟩
      · exact ⟨(State.bump_stalls ..).trans latched, rfl⟩

theorem updfStart_keeps (s : State) (n : Fin 128) (r : Flight) (sa : BitVec 64) : UpdateKeeps s r (s.updfStart n r sa) := by
  unfold State.updfStart
  dsimp only
  have found := s.latch_stalls (s.stall n).context (bitsOf sa.toNat 0 32) (bitsOf sa.toNat 32 12) n.val
  generalize s.latch (s.stall n).context (bitsOf sa.toNat 0 32) (bitsOf sa.toNat 32 12) n.val = p at found ⊢
  obtain ⟨t, l⟩ := p
  dsimp only at found ⊢
  cases l.bad with
  | some va => exact ⟨found, rfl⟩
  | none =>
    dsimp only
    cases updCheck l.gen (BitVec.ofNat 32 (bitsOf sa.toNat 0 32)) (t.sealed (s.stall n).context) with
    | stale => exact ⟨(State.bump_stalls ..).trans found, rfl⟩
    | wait => exact ⟨found, rfl⟩
    | go =>
      dsimp only
      have latched : (if l.expected = 0 then t.latchReady (s.stall n).context else t).stalls = s.stalls := by
        split
        · exact (State.latchReady_stalls ..).trans found
        · exact found
      generalize (if l.expected = 0 then t.latchReady (s.stall n).context else t) = u at latched ⊢
      split
      · exact ⟨latched, rfl⟩
      · generalize u.shard (s.stall n).context (bitsOf sa.toNat 32 12) l.e.flags l.e.rows l.e.cols = h
        have done := (u.tilesDone_stalls (s.stall n).context n h l.e.scratch).trans latched
        generalize u.tilesDone (s.stall n).context n h l.e.scratch = q at done ⊢
        obtain ⟨v, ok⟩ := q
        dsimp only at done ⊢
        split
        · have fold := foldGroup_keeps v n r (s.stall n).context (bitsOf sa.toNat 0 32) (bitsOf sa.toNat 32 12) l.expected l.e h
          exact ⟨fold.stalls.trans done, fold.seq⟩
        · exact ⟨done, rfl⟩

end Sys2Proof
end

section
/-!
PROOFS of the family 02_number_formats: what ends the waits of updates, and what completes a tile.
-/
namespace Sys2Proof

open Machine

/-! ### The record of an update that goes on (R104, R112) -/

theorem runEnds_traced (s : State) (n : Fin 128) (unit : Fin 4) (cause cycles : Nat) : Traced s (s.runEnds n unit cause cycles) := by
  unfold State.runEnds
  split
  · exact .refl s
  · exact emit_traced _ _ _ _ _ (stallUnit_ne n unit)

/-- The update of the record `f` in stall `n` has gone on as `p` says, and `t` is the state after. -/
def WentOn (s : State) (n : Fin 128) (f : Flight) (p : State × Flight) (t : State) : Prop :=
  p.2.seq = f.seq ∧ OnlyRegs noReg p.1 t ∧ (∀ a, ¬ inRing p.1 a → Memory.read t.mem a = Memory.read p.1.mem a) ∧
    t.tiles = p.1.tiles ∧
    t.stall n = { s.stall n with flights := (s.stall n).flights.map fun x => if x.seq = f.seq then p.2 else x,
                                 updCycles := if (t.stall n).updWaiting.isSome then (s.stall n).updCycles else 0 } ∧
    ∀ m, m ≠ n → t.stall m = s.stall m

theorem stall_of_stalls {s t : State} (h : t.stalls = s.stalls) (n : Fin 128) : t.stall n = s.stall n := by
  simp only [State.stall, h]

theorem setFlight_stall {s y : State} (same : y.stalls = s.stalls) (n : Fin 128) {f g : Flight} (seq : g.seq = f.seq) :
    (y.setFlight n g).stall n = { s.stall n with flights := (s.stall n).flights.map fun x => if x.seq = f.seq then g else x } := by
  rw [State.setFlight, State.stall_modStall_same, stall_of_stalls same, seq]

theorem setFlight_other {s y : State} (same : y.stalls = s.stalls) {n m : Fin 128} (h : m ≠ n) (g : Flight) :
    (y.setFlight n g).stall m = s.stall m :=
  (State.stall_modStall_other _ _ h).trans (stall_of_stalls same m)

theorem endUpdRun_stall (s : State) (n : Fin 128) : (s.endUpdRun n).stall n = { s.stall n with updCycles := 0 } := by
  rw [State.endUpdRun, State.stall_modStall_same, stall_of_stalls (runEnds_traced s n 2 3 _).stalls]

theorem endUpdRun_other (s : State) {n m : Fin 128} (h : m ≠ n) : (s.endUpdRun n).stall m = s.stall m :=
  (State.stall_modStall_other _ _ h).trans (stall_of_stalls (runEnds_traced s n 2 3 _).stalls m)

/-- Whether an update waits does not depend on the cycles that it has waited. -/
theorem updCycles_of_done {st : Stall} (done : ¬ st.updWaiting.isSome = true) (k : Nat) :
    { st with updCycles := 0 } = { st with updCycles := if { st with updCycles := 0 }.updWaiting.isSome then k else 0 } := by
  rw [if_neg]
  exact done

theorem updGoesOn_wentOn {s : State} {n : Fin 128} {f g : Flight} {p : State × Flight} (keeps : UpdateKeeps s g p) (seq : g.seq = f.seq)
    (actor : Option Actor) (refusing : Option (List (Fin 64 × Nat × Nat))) :
    WentOn s n f p ({ p.1 with actor := actor, refusing := refusing }.updGoesOn n p.2) := by
  obtain ⟨y, r⟩ := p
  have place : r.seq = f.seq := keeps.seq.trans seq
  have same : { y with actor := actor, refusing := refusing }.stalls = s.stalls := keeps.stalls
  have stall := setFlight_stall same n place
  have other := fun m (h : m ≠ n) => setFlight_other same h r
  unfold State.updGoesOn
  dsimp only
  split
  · next waits =>
    refine ⟨place, fun _ _ _ => rfl, fun _ _ => rfl, rfl, ?_, other⟩
    rw [if_pos waits, stall]
  · next done =>
    have run := runEnds_traced ({ y with actor := actor, refusing := refusing }.setFlight n r) n 2 3
      (({ y with actor := actor, refusing := refusing }.setFlight n r).stall n).updCycles
    refine ⟨place, fun q hq _ => run.regs q hq, fun a ha => run.mem a ha, ?_, ?_, fun m h => (endUpdRun_other _ h).trans (other m h)⟩
    · have kept := congrArg State.tiles run.rest
      exact kept
    · rw [stall] at done
      rw [endUpdRun_stall, stall]
      exact updCycles_of_done done _

/-! ### The commands that end the waits -/

/-- The state in which an update that waited goes on. -/
def resumed (s : State) (n : Fin 128) (f : Flight) : State := { s with actor := some (updActor n f.seq), refusing := some f.refused }

/-- An update that goes on by `run` runs it in that state. -/
theorem updateEnds {s : State} {n : Fin 128} {f : Flight} {run : State → State × Flight} {o : Out}
    (command : o = .next (({ (run (resumed s n f)).1 with actor := s.actor, refusing := s.refusing } : State).updGoesOn n (run (resumed s n f)).2))
    (keeps : UpdateKeeps (resumed s n f) f.started (run (resumed s n f))) : Leaves o (WentOn s n f (run (resumed s n f))) :=
  ⟨_, command, updGoesOn_wentOn ⟨keeps.stalls, keeps.seq⟩ rfl _ _⟩

theorem acting_writes {α : Type} (s : State) (x : Actor) (run : State → State × α) :
    s.acting x .writes run = ({ (run { s with actor := some x, refusing := some [] }).1 with actor := s.actor, refusing := s.refusing },
      (run { s with actor := some x, refusing := some [] }).2) := rfl

section
variable {s : State} {n : Fin 128} {f : Flight} (up : s.dieUp = true) (runs : s.yardRuns (yardOf n) = true)
include up runs

theorem updSealWaitEnd_held {sa sb : BitVec 64} {d : BitVec 128} {gf : Fmt} (waits : (s.stall n).updWaiting = some (f, .seal sa sb d gf))
    (held : BitVec.ofNat 32 (bitsOf sa.toNat 0 32) = s.sealed (s.stall n).context + 2) : exec (.updSealWaitEnd n) s = .next s := by
  change execUpdSealWaitEnd n s = _
  simp only [execUpdSealWaitEnd, up, runs, waits, held]
  rfl

theorem updSealWaitEnd_goesOn {sa sb : BitVec 64} {d : BitVec 128} {gf : Fmt} (waits : (s.stall n).updWaiting = some (f, .seal sa sb d gf))
    (free : ¬ BitVec.ofNat 32 (bitsOf sa.toNat 0 32) = s.sealed (s.stall n).context + 2) :
    Leaves (exec (.updSealWaitEnd n) s) (WentOn s n f ((resumed s n f).updStart n f.started sa sb d gf)) := by
  refine updateEnds (run := fun t => t.updStart n f.started sa sb d gf) ?_ (updStart_keeps ..)
  change execUpdSealWaitEnd n s = _
  simp only [execUpdSealWaitEnd, up, runs, waits]
  rw [if_neg (by simp), if_neg free, acting_writes]
  dsimp only [resumed]

theorem updSealWaitEnd_foldHeld {sa : BitVec 64} (waits : (s.stall n).updWaiting = some (f, .foldSeal sa))
    (held : BitVec.ofNat 32 (bitsOf sa.toNat 0 32) = s.sealed (s.stall n).context + 2) : exec (.updSealWaitEnd n) s = .next s := by
  change execUpdSealWaitEnd n s = _
  simp only [execUpdSealWaitEnd, up, runs, waits, held]
  rfl

theorem updSealWaitEnd_foldGoesOn {sa : BitVec 64} (waits : (s.stall n).updWaiting = some (f, .foldSeal sa))
    (free : ¬ BitVec.ofNat 32 (bitsOf sa.toNat 0 32) = s.sealed (s.stall n).context + 2) :
    Leaves (exec (.updSealWaitEnd n) s) (WentOn s n f ((resumed s n f).updfStart n f.started sa)) := by
  refine updateEnds (run := fun t => t.updfStart n f.started sa) ?_ (updfStart_keeps ..)
  change execUpdSealWaitEnd n s = _
  simp only [execUpdSealWaitEnd, up, runs, waits]
  rw [if_neg (by simp), if_neg free, acting_writes]
  dsimp only [resumed]

theorem updfTilesComplete_incomplete {sa : BitVec 64} {step gr ex : Nat} {e : GroupEntry} {h : Shard}
    (waits : (s.stall n).updWaiting = some (f, .tiles sa step gr ex e h))
    (missing : ({ s with actor := some (updActor n f.seq), refusing := some f.refused }.tilesDone (s.stall n).context n h e.scratch).2 = false) :
    exec (.updfTilesComplete n) s = .next s := by
  change execUpdfTilesComplete n s = _
  simp only [execUpdfTilesComplete, up, runs, waits]
  rw [if_neg (by simp), acting_writes]
  dsimp only
  rw [missing]
  rfl

theorem updfTilesComplete_folds {sa : BitVec 64} {step gr ex : Nat} {e : GroupEntry} {h : Shard}
    (waits : (s.stall n).updWaiting = some (f, .tiles sa step gr ex e h))
    (complete : ({ s with actor := some (updActor n f.seq), refusing := some f.refused }.tilesDone (s.stall n).context n h e.scratch).2 = true) :
    Leaves (exec (.updfTilesComplete n) s) (WentOn s n f
      (((resumed s n f).tilesDone (s.stall n).context n h e.scratch).1.foldGroup n f.started (s.stall n).context step gr ex e h)) := by
  refine updateEnds (run := fun t => (t.tilesDone (s.stall n).context n h e.scratch).1.foldGroup n f.started (s.stall n).context step gr ex e h)
    ?_ ?_
  · change execUpdfTilesComplete n s = _
    simp only [execUpdfTilesComplete, up, runs, waits]
    rw [if_neg (by simp), acting_writes]
    unfold resumed
    simp only [complete, if_true]
  · have fold := foldGroup_keeps ((resumed s n f).tilesDone (s.stall n).context n h e.scratch).1 n f.started (s.stall n).context step gr ex e h
    exact ⟨fold.stalls.trans (State.tilesDone_stalls ..), fold.seq⟩

end

/-! ### Complete tiles (R110) -/

/-- The words of a tile's scratch, and then its mark, as an access of it reads them. -/
def scratchRead (s : State) (tl : TileRec) : State × List MByte := s.readCtx tl.ctx (vaRange tl.scratch 8) tl.stall.val
def markRead (s : State) (tl : TileRec) : State × List MByte := (scratchRead s tl).1.readCtx tl.ctx (vaRange tl.mark 4) tl.stall.val

/-- What marking a complete tile makes of the state, where `marked` says whether its mark already holds the attempt. -/
structure Marks (marked : Prop) (s : State) (tl : TileRec) (t : State) : Prop where
  tiles : t.tiles = s.tiles
  stalls : t.stalls = s.stalls
  again : marked → Counted s t (.stlUpdRepeat tl.stall) 1
  first : ¬ marked → t.rd (.stlUpdRepeat tl.stall) = s.rd (.stlUpdRepeat tl.stall)

/-- The scratch words of a complete tile are written, and then it is counted again, or marked. -/
theorem marks_of_write {s v : State} (read : AccessKeeps s v) (same : v.stalls = s.stalls) (tl : TileRec) (marked : Prop) [Decidable marked]
    (scratch mark : List (Nat × MByte)) :
    Marks marked s tl (if marked then (v.writeCtx tl.ctx scratch tl.stall.val).bump (.stlUpdRepeat tl.stall) 1
      else (v.writeCtx tl.ctx scratch tl.stall.val).writeCtx tl.ctx mark tl.stall.val) := by
  have kept := read.trans (writeCtx_accessKeeps v tl.ctx scratch tl.stall.val)
  have stalls := (writeCtx_stalls v tl.ctx scratch tl.stall.val).trans same
  generalize v.writeCtx tl.ctx scratch tl.stall.val = w at kept stalls ⊢
  split
  · next again =>
    refine ⟨?_, (State.bump_stalls ..).trans stalls, fun _ => ?_, fun h => absurd again h⟩
    · rw [(bump_frame w _ 1).rest]
      exact kept.tiles
    · have counted := bump_count w (.stlUpdRepeat tl.stall) 1 (Fld.get_lt _ _)
      rwa [State.fld_congr _ (kept.regs (.stlUpdRepeat tl.stall) rfl)] at counted
  · next first =>
    have marked := writeCtx_accessKeeps w tl.ctx mark tl.stall.val
    exact ⟨marked.tiles.trans kept.tiles, (writeCtx_stalls ..).trans stalls, fun h => absurd h first,
      fun _ => (marked.regs _ rfl).trans (kept.regs _ rfl)⟩

theorem Marks.scoped {marked : Prop} {s t : State} {tl : TileRec} (h : Marks marked s tl t)
    (refusing : Option (List (Fin 64 × Nat × Nat))) : Marks marked s tl { t with refusing := refusing } :=
  ⟨h.tiles, h.stalls, h.again, h.first⟩

theorem markTile_marks {s s1 : State} {tl : TileRec} (start : { s with refusing := some tl.pages } = s1) :
    Marks ((memEl 4 (markRead s1 tl).2 0).1 = s1.fld (.stlUpdProgress tl.ctx) F.stlUpdProgress_ATTEMPT) s1 tl (s.markTile tl) := by
  have read := (readCtx_accessKeeps s1 tl.ctx (vaRange tl.scratch 8) tl.stall.val).trans
    (readCtx_accessKeeps _ tl.ctx (vaRange tl.mark 4) tl.stall.val)
  have same := (readCtx_stalls (scratchRead s1 tl).1 tl.ctx (vaRange tl.mark 4) tl.stall.val).trans (readCtx_stalls ..)
  unfold State.markTile State.rescoped
  rw [start]
  refine Marks.scoped ?_ _
  unfold markRead scratchRead at *
  dsimp only
  generalize s1.readCtx tl.ctx (vaRange tl.scratch 8) tl.stall.val = p at read same ⊢
  obtain ⟨u, b⟩ := p
  dsimp only at read same ⊢
  generalize u.readCtx tl.ctx (vaRange tl.mark 4) tl.stall.val = p at read same ⊢
  obtain ⟨v, m⟩ := p
  dsimp only at read same ⊢
  exact marks_of_write read same tl _ _ _

theorem tileComplete_waits {s : State} {n : Fin 128} {seq : Nat} {tl : TileRec}
    (found : (s.tiles.find? fun x => x.stall = n && x.seq = seq) = some tl)
    (flying : ((s.stall n).flights.any fun x => x.seq = seq) = true) : exec (.tileComplete n seq) s = .next s := by
  change execTileComplete n seq s = _
  simp only [execTileComplete, found, flying]
  rw [if_pos (by simp)]

theorem tileComplete_marks {s : State} {n : Fin 128} {seq : Nat} {tl : TileRec} (up : s.dieUp = true)
    (found : (s.tiles.find? fun x => x.stall = n && x.seq = seq) = some tl)
    (retired : ((s.stall n).flights.any fun x => x.seq = seq) = false) (alone : tl.gather = none) :
    exec (.tileComplete n seq) s = .next (({ s with tiles := s.tiles.erase tl } : State).markTile tl) := by
  change execTileComplete n seq s = _
  simp only [execTileComplete, found, retired, alone, up]
  rw [if_neg (by simp)]

theorem tileComplete_leaves {s : State} {n : Fin 128} {seq : Nat} {tl : TileRec} (up : s.dieUp = true)
    (found : (s.tiles.find? fun x => x.stall = n && x.seq = seq) = some tl)
    (retired : ((s.stall n).flights.any fun x => x.seq = seq) = false) (alone : tl.gather = none) {s1 : State}
    (start : { s with tiles := s.tiles.erase tl, refusing := some tl.pages } = s1) :
    tl.stall = n ∧ Leaves (exec (.tileComplete n seq) s)
      (Marks ((memEl 4 (markRead s1 tl).2 0).1 = s1.fld (.stlUpdProgress tl.ctx) F.stlUpdProgress_ATTEMPT) s1 tl) := by
  have named := List.find?_some found
  simp only [Bool.and_eq_true, decide_eq_true_eq] at named
  exact ⟨named.1, _, tileComplete_marks up found retired alone, markTile_marks start⟩

theorem watchReg_cases {u : Fin 16} {r : Reg} (h : r = .stbNwSamples u ∨ (r = .stbNwMismatch u ∨ shadowReg u r) ∨ histReg u r) :
    r = .stbNwSamples u ∨ r = .stbNwMismatch u ∨ r = .stbNwUlpSum u ∨ r = .stbNwUlpElems u ∨ r = .stbNwUlpOver u ∨ r = .stbNwUlpMax u ∨
      ∃ i, r = .stbNwHistA u i ∨ r = .stbNwHistB u i ∨ r = .stbNwHistC u i := by
  simpa only [shadowReg, histReg, or_assoc] using h

/-- Settles O28: each end of a wait by the state in which its update goes on, whose effect leaves the stalls; a complete tile by the
registers that its accesses leave; the sample by what its paths count. -/
theorem updateWaitsAndWatchSamples : Obligations.UpdateWaitsAndWatchSamples := by
  unfold Obligations.UpdateWaitsAndWatchSamples
  refine ⟨fun s n f up runs => ?_, ?_⟩
  · intro st c held ends g s0
    rw [show s0 = resumed s n f from rfl, show g = f.started from rfl, show c = (s.stall n).context from rfl]
    refine ⟨?_, ?_, ?_, ?_⟩
    · intro sa sb d gf waits
      constructor
      · exact updSealWaitEnd_held up runs waits
      · exact updSealWaitEnd_goesOn up runs waits
    · intro sa waits
      constructor
      · exact updSealWaitEnd_foldHeld up runs waits
      · exact updSealWaitEnd_foldGoesOn up runs waits
    · intro sa step gr ex e h waits
      constructor
      · exact updfTilesComplete_incomplete up runs waits
      · exact updfTilesComplete_folds up runs waits
    · intro seq tl found _
      refine ⟨tileComplete_waits found, fun retired alone => ?_⟩
      obtain ⟨rfl, t, next, marks⟩ := tileComplete_leaves up found retired alone rfl
      exact ⟨t, next, marks.tiles, marks.stalls, marks.again, marks.first⟩
  · intro s u x f m k up sample dest
    obtain ⟨t, next, quiet, watch, counts⟩ := nwSampleComplete_does up sample dest
    exact ⟨t, next, { quiet with regs := fun r hr free => quiet.regs r hr fun h => free ⟨h.1, watchReg_cases h.2⟩ }, watch, counts⟩

end Sys2Proof
end

section
/-!
PROOFS of the family 02_number_formats: a barrier whose end stops one of the stalls that wait at it.
-/
namespace Sys2Proof

open Machine

/-- A stall that runs a program and waits at the barrier 33, where it and its team, stalls 0 and 1, have each arrived once. -/
def atBarrier (n : Fin 128) : Stall :=
  { running := true, codeBase := 0x700000, codeBytes := 64, wait := some (.barrier { stall := n } 33 1), arrivals := [(33, 1)], team := [0, 1] }

/-- Two stalls at the barrier; in stall 0 a `halt` is pending, whose header names stall 1. -/
def haltAcross : State :=
  { State.reset with aux := true, power := .good, dieUp := true
                     stalls := [(0, { atBarrier 0 with halting := some { stall := 1 } }), (1, atBarrier 1)] }

/-- What `haltAcross` meets: stall 1 runs, has no `halt` pending, and waits for the barrier's generation, in which all have arrived. -/
theorem haltAcross_waits : haltAcross.dieUp = true ∧ haltAcross.yardRuns (yardOf 1) = true ∧ (haltAcross.stall 1).running = true ∧
    (haltAcross.stall 1).halting = none ∧ (haltAcross.stall 1).wait = some (.barrier { stall := 1 } 33 1) ∧
    1 ∈ haltAcross.barrierTeam 1 33 ∧ ∀ m ∈ haltAcross.barrierTeam 1 33, 1 ≤ haltAcross.arrived m 33 := by decide

/-- Whether a stall waits after a command. -/
def waitsAfter (n : Fin 128) : Out → Bool
  | .next t => (t.stall n).wait.isSome
  | _ => false

/-- Stall 0 leaves the barrier first, and its `halt` stops stall 1, which then does not leave. -/
theorem haltAcross_stays : waitsAfter 1 (exec (.barrierGenerationComplete 1) haltAcross) = true := by decide

/-- Refutes O17: its clause of the barrier asks that no `halt` is pending in the stall whose wait is to end, and leaves the other stalls of
the team as they may be. In `haltAcross` the end of stall 0's wait retires a `halt` that stops stall 1 before its turn. -/
theorem not_loaderRefusedForms : ¬ Obligations.LoaderRefusedForms := by
  unfold Obligations.LoaderRefusedForms
  rintro ⟨-, -, ends, -⟩
  obtain ⟨die, runs, running, halting, wait, member, arrived⟩ := haltAcross_waits
  obtain ⟨waits, -⟩ := ends haltAcross 1 die runs
  obtain ⟨-, -, barrier⟩ := waits running halting { stall := 1 } rfl
  obtain ⟨t, next, freed⟩ := barrier 33 1 wait member arrived
  have stays := haltAcross_stays
  rw [next] at stays
  simp [waitsAfter, freed] at stays

end Sys2Proof
end

section
/-!
PROOFS of the family 03_matrix_engine: exact accumulation adds each product's share, in any order (R74 to R76).
-/
namespace Sys2Proof

open Machine

/-! ### One product (R75) -/

/-- A product's share of a window whose bottom is `L`: of a poisoned one, of an infinity and of NaN there is none. -/
def prodShare (L : Int) : Option FVal → Int
  | some v => floorAt L v
  | none => 0

/-- Whether a product loses nonzero bits below the window's bottom. -/
def prodSpills (L : Int) : Option FVal → Bool
  | some (.fin n m x) => decide (x < L) && decide ((if n then -(m : Int) else m) % (2 ^ (L - x).toNat : Nat) ≠ 0)
  | _ => false

/-- Whether a product leaves NEGZ as it was: the negative zeros do. -/
def keepsNegz : Option FVal → Bool
  | some (.fin n m _) => n && decide (m = 0)
  | _ => false

/-- A product adds its share and its flag. -/
theorem addProd_eq (L : Int) (e : Elem) (p : Option FVal) : e.addProd L p =
    { e with window := e.window + BitVec.ofInt 112 (prodShare L p)
             spill := if prodSpills L p then satAdd (2 ^ 20 - 1) e.spill 1 else e.spill
             nan := e.nan || decide (p = some .nan), pinf := e.pinf || decide (p = some (.inf false))
             ninf := e.ninf || decide (p = some (.inf true)), poison := e.poison || p.isNone, negz := e.negz && keepsNegz p } := by
  match p with
  | none => simp [Elem.addProd, prodShare, prodSpills, keepsNegz]
  | some .nan => simp [Elem.addProd, prodShare, prodSpills, keepsNegz, floorAt]
  | some (.inf n) => cases n <;> simp [Elem.addProd, prodShare, prodSpills, keepsNegz, floorAt]
  | some (.fin n m x) =>
    by_cases zero : m = 0
    · subst zero
      cases n <;> simp [Elem.addProd, prodShare, prodSpills, keepsNegz, floorAt]
    · simp [Elem.addProd, prodShare, prodSpills, keepsNegz, floorAt, zero]

/-- Two products can be added in either order. -/
theorem addProd_comm (L : Int) (e : Elem) (p q : Option FVal) : (e.addProd L p).addProd L q = (e.addProd L q).addProd L p := by
  have spill : (if prodSpills L q then satAdd (2 ^ 20 - 1) (if prodSpills L p then satAdd (2 ^ 20 - 1) e.spill 1 else e.spill) 1
        else if prodSpills L p then satAdd (2 ^ 20 - 1) e.spill 1 else e.spill) =
      if prodSpills L p then satAdd (2 ^ 20 - 1) (if prodSpills L q then satAdd (2 ^ 20 - 1) e.spill 1 else e.spill) 1
        else if prodSpills L q then satAdd (2 ^ 20 - 1) e.spill 1 else e.spill := by
    split <;> split <;> rfl
  simp only [addProd_eq, spill, add_right_comm, Bool.or_right_comm, Bool.and_right_comm]

/-! ### The largest exponent (R75) -/

/-- The pre-pass takes a product's exponent, if it has one. -/
def maxExp (E : Int) (p : Option FVal) : Int := (p.bind FVal.exp2).elim E (max E)

theorem prePass_eq (E : Int) (ps : List (Option FVal)) : prePass E ps = ps.foldl maxExp E := by
  refine List.foldl_ext _ _ _ fun E p _ => ?_
  unfold maxExp
  cases p.bind FVal.exp2 <;> rfl

theorem maxExp_comm (E : Int) (p q : Option FVal) : maxExp (maxExp E p) q = maxExp (maxExp E q) p := by
  unfold maxExp
  cases p.bind FVal.exp2 <;> cases q.bind FVal.exp2 <;> simp [max_right_comm]

theorem prePass_perm (E : Int) {ps qs : List (Option FVal)} (perm : ps.Perm qs) : prePass E ps = prePass E qs := by
  rw [prePass_eq, prePass_eq]
  exact perm.foldl_eq' (fun p _ q _ E => maxExp_comm E p q) E

/-- Settles O19: the pre-pass takes a maximum, and the products' shares and flags are added one by one in any order. -/
theorem exactSumOrderIndependent : Obligations.ExactSumOrderIndependent := by
  unfold Obligations.ExactSumOrderIndependent
  intro kOld kNew e ps qs perm
  unfold mmaElem
  rw [prePass_perm e.eseen perm]
  exact perm.foldl_eq' (fun p _ q _ e => addProd_comm _ e p q) _

end Sys2Proof
end

section
/-!
PROOFS of the family 03_matrix_engine: what an exact sum from a cleared element holds (R74, R75).
-/
namespace Sys2Proof

open Machine

/-! ### Exponents of elements and of products (R30, R33) -/

/-- No element's exponent is below that of FP32's subnormals. -/
theorem decodeElem_exp {f : Fmt} {x : Nat} {n : Bool} {m : Nat} {e : Int} (h : decodeElem f x = .fin n m e) : -149 ≤ e := by
  cases spec : floatSpec f with
  | some g =>
    rw [decodeElem_float spec] at h
    have least : -149 ≤ g.qmin := by
      cases f <;> simp only [floatSpec, Option.some.injEq, reduceCtorEq] at spec <;> subst spec <;> decide
    exact least.trans (decodeFloat_fin h).2
  | none =>
    cases f <;> simp only [floatSpec, reduceCtorEq] at spec
    all_goals
      simp only [decodeElem, ofInt, FVal.fin.injEq] at h
      omega

/-- The same under a block scale. -/
theorem mxValue_exp {f : Fmt} {c x : Nat} {n : Bool} {m : Nat} {e : Int} (h : mxValue f c x = .fin n m e) : -276 ≤ e := by
  unfold mxValue at h
  split at h
  · cases h
  · cases hd : decodeElem f x <;> rw [hd] at h <;> simp only [FVal.scale, FVal.fin.injEq, reduceCtorEq] at h
    have least := decodeElem_exp hd
    omega

theorem opEl_exp {s : State} {i : Fin 128} {x : Operand} {o k : Nat} {n : Bool} {m : Nat} {e : Int}
    (h : (s.opEl i x o k).v = .fin n m e) : -276 ≤ e := by
  unfold State.opEl at h
  cases scale : x.scaleOffs o k with
  | nil =>
    simp only [scale] at h
    exact le_trans (by decide) (decodeElem_exp h)
  | cons sc _ =>
    simp only [scale] at h
    exact mxValue_exp h

/-- A finite product is one of finite factors. -/
theorem mul_eq_fin {v w : FVal} {n : Bool} {m : Nat} {e : Int} (h : v.mul w = .fin n m e) :
    ∃ a k b c l d, v = .fin a k b ∧ w = .fin c l d ∧ e = b + d := by
  cases v <;> cases w <;> simp only [FVal.mul, FVal.fin.injEq, reduceCtorEq] at h
  case inf.fin => split at h <;> cases h
  case fin.inf => split at h <;> cases h
  case fin.fin => exact ⟨_, _, _, _, _, _, rfl, rfl, h.2.2.symm⟩

/-- The products of operand elements have exponents that an accumulator can tell from that of an empty one. -/
theorem opEl_mul_exp2 {s : State} {i : Fin 128} {x y : Operand} {o p k : Nat} {E : Int}
    (h : ((s.opEl i x o k).v.mul (s.opEl i y p k).v).exp2 = some E) : eEmpty ≤ E := by
  cases hp : (s.opEl i x o k).v.mul (s.opEl i y p k).v <;> rw [hp] at h
  case nan => cases h
  case inf => cases h
  case fin n m e =>
    obtain ⟨_, _, _, _, _, _, hx, hy, rfl⟩ := mul_eq_fin hp
    have left := opEl_exp hx
    have right := opEl_exp hy
    simp only [FVal.exp2] at h
    split at h
    · cases h
    · injection h with h
      unfold eEmpty
      omega

theorem isZero_or_exp2 (n : Bool) (m : Nat) (e : Int) : (FVal.fin n m e).isZero = true ∨ ∃ E, (FVal.fin n m e).exp2 = some E := by
  cases m with
  | zero => exact .inl rfl
  | succ m => exact .inr ⟨Nat.log2 (m + 1) + e, by simp [FVal.exp2]⟩

/-! ### The size of a sum (R75) -/

/-- A value whose highest bit lies in the window has a share of at most 95 bits. -/
theorem abs_floorAt_le {L : Int} {v : FVal} (top : ∀ E, v.exp2 = some E → E ≤ L + 94) : |floorAt L v| ≤ 2 ^ 95 := by
  cases v with
  | nan => simp [floorAt]
  | inf n => simp [floorAt]
  | fin n m x =>
    by_cases zero : m = 0
    · simp [floorAt, zero]
    have high : Nat.log2 m + x ≤ L + 94 := top _ (if_neg zero)
    have under : m < 2 ^ (Nat.log2 m + 1) := Nat.lt_log2_self
    have size : |if n then -(m : Int) else m| = m := by cases n <;> simp
    simp only [floorAt]
    generalize (if n then -(m : Int) else m) = v at size
    split
    · next inside =>
      rw [abs_mul, size, Nat.abs_cast]
      have shifted : m * 2 ^ (x - L).toNat ≤ 2 ^ 95 :=
        calc m * 2 ^ (x - L).toNat ≤ 2 ^ (Nat.log2 m + 1) * 2 ^ (x - L).toNat := Nat.mul_le_mul_right _ under.le
          _ = 2 ^ (Nat.log2 m + 1 + (x - L).toNat) := (Nat.pow_add ..).symm
          _ ≤ 2 ^ 95 := Nat.pow_le_pow_right (by decide) (by omega)
      exact_mod_cast shifted
    · next below =>
      have fits : m ≤ 2 ^ 95 * 2 ^ (L - x).toNat :=
        calc m ≤ 2 ^ (Nat.log2 m + 1) := under.le
          _ ≤ 2 ^ (95 + (L - x).toNat) := Nat.pow_le_pow_right (by decide) (by omega)
          _ = 2 ^ 95 * 2 ^ (L - x).toNat := Nat.pow_add ..
      have unit : (0 : Int) < (2 ^ (L - x).toNat : Nat) := by exact_mod_cast Nat.two_pow_pos _
      have bound : |v| ≤ 2 ^ 95 * (2 ^ (L - x).toNat : Nat) := by rw [size]; exact_mod_cast fits
      obtain ⟨low, up⟩ := abs_le.mp bound
      exact abs_le.mpr ⟨Int.le_ediv_of_mul_le unit (by linarith), Int.ediv_le_of_le_mul unit up⟩

theorem abs_sum_le_length_mul {xs : List Int} {b : Int} (h : ∀ x ∈ xs, |x| ≤ b) : |xs.sum| ≤ xs.length * b := by
  induction xs with
  | nil => simp
  | cons x xs ih =>
    obtain ⟨first, rest⟩ := List.forall_mem_cons.mp h
    rw [List.sum_cons, List.length_cons]
    push_cast
    linarith [abs_add_le x xs.sum, ih rest]

theorem toInt_ofInt_of_abs_lt {i : Int} (h : |i| < 2 ^ 111) : (BitVec.ofInt 112 i).toInt = i := by
  obtain ⟨low, up⟩ := abs_lt.mp h
  rw [BitVec.toInt_ofInt]
  exact Int.bmod_eq_of_le (by omega) (by omega)

/-! ### One element (R75) -/

/-- What the pre-pass finds: an exponent that none exceeds, and that the element or one of the products has. -/
theorem prePass_max (E : Int) (ps : List (Option FVal)) :
    E ≤ prePass E ps ∧ (∀ p ∈ ps, ∀ X, p.bind FVal.exp2 = some X → X ≤ prePass E ps) ∧
      (prePass E ps = E ∨ ∃ p ∈ ps, p.bind FVal.exp2 = some (prePass E ps)) := by
  rw [prePass_eq]
  induction ps generalizing E with
  | nil => simp
  | cons p ps ih =>
    obtain ⟨least, rest, reached⟩ := ih (maxExp E p)
    rw [List.foldl_cons]
    generalize ps.foldl maxExp (maxExp E p) = F at *
    cases hp : p.bind FVal.exp2 with
    | none =>
      have same : maxExp E p = E := by rw [maxExp, hp]; rfl
      rw [same] at least reached
      refine ⟨least, List.forall_mem_cons.mpr ⟨fun X h => by simp [hp] at h, rest⟩, reached.imp id fun ⟨q, hq, e⟩ => ⟨q, .tail _ hq, e⟩⟩
    | some Y =>
      have raised : maxExp E p = max E Y := by rw [maxExp, hp]; rfl
      rw [raised] at least reached
      refine ⟨(le_max_left ..).trans least, List.forall_mem_cons.mpr ⟨fun X h => ?_, rest⟩, ?_⟩
      · obtain rfl : Y = X := by simpa [hp] using h
        exact (le_max_right ..).trans least
      · rcases reached with top | ⟨q, hq, e⟩
        · rcases max_choice E Y with own | new
          · exact .inl (top.trans own)
          · exact .inr ⟨p, .head _, by rw [hp, top, new]⟩
        · exact .inr ⟨q, .tail _ hq, e⟩

/-- Of finite products whose exponents are not below an empty element's, the pre-pass finds the largest exponent, if not all are zero. -/
theorem prePass_finite {ps : List FVal} (finite : ∀ p ∈ ps, ∃ n m x, p = .fin n m x)
    (least : ∀ p ∈ ps, ∀ E, p.exp2 = some E → eEmpty ≤ E) :
    let E := prePass eEmpty (ps.map some)
    (∀ p ∈ ps, ∀ X, p.exp2 = some X → X ≤ E) ∧ ((∃ p ∈ ps, p.exp2 = some E) ∨ (E = eEmpty ∧ ∀ p ∈ ps, p.isZero = true)) := by
  intro E
  obtain ⟨-, top, reached⟩ := prePass_max eEmpty (ps.map some)
  have below : ∀ p ∈ ps, ∀ X, p.exp2 = some X → X ≤ E := fun p hp => top _ (List.mem_map_of_mem hp)
  refine ⟨below, ?_⟩
  rcases reached with empty | ⟨q, hq, hE⟩
  · by_cases zero : ∀ p ∈ ps, p.isZero = true
    · exact .inr ⟨empty, zero⟩
    · push Not at zero
      obtain ⟨p, hp, nonzero⟩ := zero
      obtain ⟨n, m, x, rfl⟩ := finite p hp
      obtain ⟨X, hX⟩ := (isZero_or_exp2 n m x).resolve_left nonzero
      have own : X = E := le_antisymm (below _ hp X hX) (empty.trans_le (least _ hp X hX))
      exact .inl ⟨_, hp, own ▸ hX⟩
  · obtain ⟨p, hp, rfl⟩ := List.mem_map.mp hq
    exact .inl ⟨p, hp, hE⟩

/-- Finite products add their shares to the window, and change no flag but NEGZ. -/
theorem foldl_addProd_finite (L : Int) (e : Elem) {ps : List FVal} (finite : ∀ p ∈ ps, ∃ n m x, p = .fin n m x) :
    let t := (ps.map some).foldl (Elem.addProd L) e
    t.window = e.window + BitVec.ofInt 112 (ps.map (floorAt L)).sum ∧ t.eseen = e.eseen ∧ t.nan = e.nan ∧ t.pinf = e.pinf ∧
      t.ninf = e.ninf ∧ t.poison = e.poison := by
  induction ps generalizing e with
  | nil => simp
  | cons p ps ih =>
    obtain ⟨⟨n, m, x, rfl⟩, rest⟩ := List.forall_mem_cons.mp finite
    obtain ⟨window, seen, nan, pinf, ninf, poison⟩ := ih (e.addProd L (some (.fin n m x))) rest
    rw [List.map_cons, List.foldl_cons, List.map_cons, List.sum_cons]
    simp only [window, seen, nan, pinf, ninf, poison]
    simp [addProd_eq, prodShare, BitVec.ofInt_add, add_assoc]

/-- A cleared element after an exact `mma` of finite products. -/
theorem mmaElem_cleared (k : Nat) {ps : List FVal} (finite : ∀ p ∈ ps, ∃ n m x, p = .fin n m x) (few : ps.length ≤ 512) :
    let el := mmaElem 0 k {} (ps.map some)
    el.nan = false ∧ el.pinf = false ∧ el.ninf = false ∧ el.poison = false ∧ el.eseen = prePass eEmpty (ps.map some) ∧
      el.window.toInt = (ps.map (floorAt (el.eseen + gap k - 94))).sum := by
  intro el
  obtain ⟨-, top, -⟩ := prePass_max eEmpty (ps.map some)
  have start : el = (ps.map some).foldl (Elem.addProd (prePass eEmpty (ps.map some) + gap k - 94))
      { eseen := prePass eEmpty (ps.map some) } := rfl
  obtain ⟨window, seen, nan, pinf, ninf, poison⟩ := foldl_addProd_finite (prePass eEmpty (ps.map some) + gap k - 94)
    { eseen := prePass eEmpty (ps.map some) } finite
  rw [← start] at window seen nan pinf ninf poison
  refine ⟨nan, pinf, ninf, poison, seen, ?_⟩
  dsimp only at seen window
  rw [window, seen, zero_add]
  refine toInt_ofInt_of_abs_lt (lt_of_le_of_lt (abs_sum_le_length_mul (b := 2 ^ 95) ?_) ?_)
  · intro x hx
    obtain ⟨p, hp, rfl⟩ := List.mem_map.mp hx
    refine abs_floorAt_le fun E hE => ?_
    have := top _ (List.mem_map_of_mem hp) E hE
    omega
  · rw [List.length_map]
    omega

end Sys2Proof
end

section
/-!
PROOFS of the family 03_matrix_engine: the compatibility order adds its products in pairs (R85).
-/
namespace Sys2Proof

open Machine

/-! ### FP32 results -/

/-- A magnitude of FP32 with its sign has 32 bits. -/
theorem f32_signBit_add_lt (n : Bool) {k : Nat} (small : k < 2 ^ 31) : f32.signBit n + k < 2 ^ 32 := by
  have sign : f32.signBit n ≤ 2 ^ 31 := by cases n <;> decide
  omega

theorem rne32_lt (v : FVal) : rne32 v < 2 ^ 32 := by
  cases v with
  | nan => decide
  | inf n => exact f32_signBit_add_lt n (k := f32.infBits) (by decide)
  | fin n m e =>
    have cases : rne32 (.fin n m e) = f32.signBit n + (if roundMag f32 m e ≤ f32.maxBits then roundMag f32 m e else f32.infBits) := by
      simp only [rne32, toFloat]
      split <;> rfl
    rw [cases]
    refine f32_signBit_add_lt n ?_
    split
    · next fits => exact fits.trans_lt (by decide)
    · decide

theorem tkaAdd_lt (int : Bool) (a b : Nat) : tkaAdd int a b < 2 ^ 32 := by
  unfold tkaAdd
  split
  · exact Nat.mod_lt _ (by decide)
  · exact rne32_lt _

/-! ### The order of the additions -/

/-- Pair `q` of the products `p`, with +0 past the last, added to a sum. -/
def tkaPair (int : Bool) (p : Nat → Nat) (sum q : Nat) : Nat := tkaAdd int sum (tkaAdd int (p (2 * q)) (p (2 * q + 1)))

theorem tkaLoop_eq (int : Bool) (acc : Nat) (ps : List Nat) :
    tkaLoop int acc ps = (List.range ((ps.length + 1) / 2)).foldl (tkaPair int fun k => ps.getD k 0) acc := by
  induction acc, ps using tkaLoop.induct int with
  | case1 acc => rfl
  | case2 acc p => simp [tkaLoop, tkaPair]
  | case3 acc p q ps ih =>
    have pairs : ((p :: q :: ps).length + 1) / 2 = (ps.length + 1) / 2 + 1 := by simp only [List.length_cons]; omega
    rw [tkaLoop, ih, pairs, List.range_succ_eq_map, List.foldl_cons, List.foldl_map]
    rfl

theorem tkaLoop_lt (int : Bool) {acc : Nat} (small : acc < 2 ^ 32) (ps : List Nat) : tkaLoop int acc ps < 2 ^ 32 := by
  induction acc, ps using tkaLoop.induct int with
  | case1 acc => exact small
  | case2 acc p => exact tkaAdd_lt ..
  | case3 acc p q ps ih => exact ih (tkaAdd_lt ..)

/-- The sum of the products `p 0` to `p (K - 1)`, in an accumulator's window. -/
theorem compat_tkaLoop (int : Bool) (K : Nat) (p : Nat → Nat) (poison : Bool) :
    (Elem.compat (tkaLoop int 0 ((List.range K).map p)) poison).window.toNat =
      (List.range ((K + 1) / 2)).foldl (tkaPair int fun k => if K ≤ k then 0 else p k) 0 := by
  have read : (fun k => ((List.range K).map p).getD k 0) = fun k => if K ≤ k then 0 else p k := by
    funext k
    split
    · next past => exact List.getD_eq_default _ _ (by simpa using past)
    · next inside => exact getD_map_range _ _ (by omega)
  have small := tkaLoop_lt int (acc := 0) (by decide) ((List.range K).map p)
  rw [Elem.compat, BitVec.toNat_ofNat, Nat.mod_eq_of_lt (by omega), tkaLoop_eq, List.length_map, List.length_range, read]

end Sys2Proof
end

section
/-!
PROOFS of the family 03_matrix_engine: `mma` and `mma.tka` as they are issued (R66, R68, R70, R72, R90).
-/
namespace Sys2Proof

open Machine

/-! ### Operands read where no error stands -/

/-- Where no write is under way, a program reads what memory holds. -/
theorem peekG_congr {s t : State} (hs : Still s) (ht : Still t) (mem : t.mem = s.mem) (poison : t.poison = s.poison) (a : Nat) :
    t.peekG a = s.peekG a := by
  unfold State.peekG
  rw [peek_still ht, peek_still hs]
  unfold State.held
  rw [mem, poison]

/-- A read changes nothing of what a program reads after it. -/
theorem readGuarded_peekG {s : State} (clean : Clean s) (off : s.flag .dbgTraceCtrl F.dbgTraceCtrl_SPILL = false) (as : List Nat)
    (a : Nat) : (s.readGuarded as).1.peekG a = s.peekG a := by
  have ⟨_, _, poison, still⟩ := clean
  have ⟨_, _, poison', still'⟩ := readMem_clean clean (as.filter fun a => (rsvdOwner a).isNone)
  exact peekG_congr still still' ((readMem_access s _).mem off) (poison'.trans poison.symm) a

/-- Operands are what a program reads at their bytes. -/
theorem opTable_congr {s t : State} (same : ∀ a, t.peekG a = s.peekG a) (n : Fin 128) (x : Operand) (len K : Nat) :
    t.opTable n x len K = s.opTable n x len K := by
  simp only [State.opTable, State.opEl, same]

/-! ### The effect -/

/-- The addresses of an operand's bytes, and then of the other's. -/
def mmaAddrs (n : Fin 128) (x y : Operand) (M N K : Nat) : List Nat :=
  (x.offs M K).map (x.d.addr n) ++ (y.offs N K).map (y.d.addr n)

/-- An accumulator after an `mma` of operands as read in `s`. -/
def mmaAfter (s : State) (n : Fin 128) (x y : Operand) (a : Acc) (z compat int : Bool) (M N K : Nat) : Acc :=
  let as := s.opTable n x M K
  let bs := s.opTable n y N K
  let p := a.prepare z compat int
  { p with ploc := p.ploc.orElse fun _ => firstBad as bs K }.mma as bs K

/-- The record `r'` is `r` with what it counts and works on; its unit, its place, its tally and its status are those of `r`. -/
def SameHead (r r' : Flight) : Prop :=
  (r'.unit = r.unit ∧ r'.seq = r.seq ∧ r'.pc = r.pc ∧ r'.cls = r.cls ∧ r'.op = r.op ∧ r'.ten = r.ten ∧ r'.tc = r.tc) ∧
    r'.status = r.status

theorem mma_mismatch {s : State} {n : Fin 128} {r : Flight} {compat : Bool} {a : Fin 2} {ta tb : TReg} {f : Fmt} {z tra trb : Bool}
    {M N K : Nat} (other : (Desc.of (s.stall n).t[ta]).fmt ≠ fmtCode f ∨ (Desc.of (s.stall n).t[tb]).fmt ≠ fmtCode f) :
    s.mma n r compat a ta tb f z tra trb M N K = (s, r.mismatch a 0) := by
  unfold State.mma
  exact if_pos ((Bool.or_eq_true _ _).mpr (other.imp decide_eq_true decide_eq_true))

/-- On descriptors of its format an `mma` reads its operands, and then changes its accumulator. -/
theorem mma_match (s : State) (n : Fin 128) (r : Flight) (compat : Bool) (a : Fin 2) {ta tb : TReg} {f : Fmt} (z tra trb : Bool)
    (M N K : Nat) (left : (Desc.of (s.stall n).t[ta]).fmt = fmtCode f) (right : (Desc.of (s.stall n).t[tb]).fmt = fmtCode f) :
    let x := operandA (s.stall n).t[ta] f tra
    let y := operandB (s.stall n).t[tb] f trb
    let v := (s.readGuarded (mmaAddrs n x y M N K)).1
    ∃ r', s.mma n r compat a ta tb f z tra trb M N K =
        (v.modStall n fun t => t.setAcc a (mmaAfter v n x y (s.stall n).acc[a] z compat (f == .i8) M N K), r') ∧ SameHead r r' ∧
      r'.counts = rsvdEvent (mmaAddrs n x y M N K) ++ wrapEvent ((x.offs M K).any x.d.wraps || (y.offs N K).any y.d.wraps) := by
  intro x y v
  have same : ¬ (decide (x.d.fmt ≠ fmtCode f) || decide (y.d.fmt ≠ fmtCode f)) = true := by
    simp [show x.d.fmt = fmtCode f from left, show y.d.fmt = fmtCode f from right]
  unfold State.mma
  exact ⟨_, if_neg same, ⟨⟨rfl, rfl, rfl, rfl, rfl, rfl, rfl⟩, rfl⟩, rfl⟩

/-- What an `mma` counts: a wrap, and an access to the reserved region. -/
theorem mma_events {r : Flight} {n : Fin 128} {x y : Operand} {M N K : Nat}
    (counts : r.counts = rsvdEvent (mmaAddrs n x y M N K) ++ wrapEvent ((x.offs M K).any x.d.wraps || (y.offs N K).any y.d.wraps)) :
    let offs := (x.offs M K).map (fun o => (x.d, o)) ++ (y.offs N K).map fun o => (y.d, o)
    eventsOf r .mmWrap = (if offs.any fun o => o.1.wraps o.2 then 1 else 0) ∧
      eventsOf r .reserved = (if offs.any fun o => (rsvdOwner (o.1.addr n o.2)).isSome then 1 else 0) ∧
      ∀ e, e ≠ .mmWrap → e ≠ .reserved → eventsOf r e = 0 := by
  have reserved : ((mmaAddrs n x y M N K).any fun b => (rsvdOwner b).isSome) =
      ((x.offs M K).map (fun o => (x.d, o)) ++ (y.offs N K).map fun o => (y.d, o)).any fun o => (rsvdOwner (o.1.addr n o.2)).isSome := by
    simp only [mmaAddrs, List.any_append, List.any_map]
    rfl
  have wrap : ((x.offs M K).any x.d.wraps || (y.offs N K).any y.d.wraps) =
      ((x.offs M K).map (fun o => (x.d, o)) ++ (y.offs N K).map fun o => (y.d, o)).any fun o => o.1.wraps o.2 := by
    simp only [List.any_append, List.any_map]
    rfl
  have sum := fun e => eventCount_append (rsvdEvent (mmaAddrs n x y M N K)) (wrapEvent ((x.offs M K).any x.d.wraps ||
    (y.offs N K).any y.d.wraps)) e
  simp only [eventCount_rsvdEvent, eventCount_wrapEvent, reserved, wrap] at sum
  simp only [eventsOf_eq, counts, wrap, sum]
  exact ⟨by simp, by simp, fun e notWrap notReserved => by simp [notWrap, notReserved]⟩

/-! ### The issue -/

/-- The effect of an `mma`, of either mode. -/
def mmaEffect (compat : Bool) (h : Hdr) (a : Fin 2) (ta tb : TReg) (f : Fmt) (z tra trb : Bool) (M N K : Nat) (s : State) (r : Flight) :
    State × Flight :=
  s.mma h.stall r compat a ta tb f z tra trb M N K

theorem mmaEffect_mismatch {s v : State} {h : Hdr} {r : Flight} {compat : Bool} {a : Fin 2} {ta tb : TReg} {f : Fmt} {z tra trb : Bool}
    {M N K : Nat} (stall : v.stall h.stall = Passed (stallOf s h))
    (other : (Desc.of (stallOf s h).t[ta]).fmt ≠ fmtCode f ∨ (Desc.of (stallOf s h).t[tb]).fmt ≠ fmtCode f) :
    mmaEffect compat h a ta tb f z tra trb M N K v r = (v, r.mismatch a 0) :=
  mma_mismatch (by rw [stall]; exact other)

theorem exec_mma {h : Hdr} {a : Fin 2} {ta tb : TReg} {f : Fmt} {z x y : Bool} {m1 n1 : Fin 128} {k1 : Fin 512} (ok : mmaOk f k1 = true)
    (s : State) : exec (.mma h a ta tb f z x y m1 n1 k1) s =
      s.issue h .matrix (7, 0) .reads (mmaEffect false h a ta tb f z x y (m1.val + 1) (n1.val + 1) (k1.val + 1)) := by
  show execMma h a ta tb f z x y m1 n1 k1 s = _
  unfold execMma
  rw [ok]
  rfl

theorem exec_mmaTka {h : Hdr} {a : Fin 2} {ta tb : TReg} {f : Fmt} {z x y : Bool} {m1 n1 : Fin 128} {k1 : Fin 512} (ok : tkaOk f = true)
    (s : State) : exec (.mmaTka h a ta tb f z x y m1 n1 k1) s =
      s.issue h .matrix (7, 0) .reads (mmaEffect true h a ta tb f z x y (m1.val + 1) (n1.val + 1) (k1.val + 1)) := by
  show execMmaTka h a ta tb f z x y m1 n1 k1 s = _
  unfold execMmaTka
  rw [ok]
  rfl

/-- An `mma` on descriptors of its format: its accumulator takes the products of its operands as `s` holds them. -/
theorem mma_does {s : State} {h : Hdr} (compat : Bool) (a : Fin 2) {ta tb : TReg} {f : Fmt} (z tra trb : Bool) (M N K : Nat)
    (ready : UnitReady s h .matrix .reads) (on : GuardOn s h) (clean : Clean s) (ring : NoRing s)
    (left : (Desc.of (stallOf s h).t[ta]).fmt = fmtCode f) (right : (Desc.of (stallOf s h).t[tb]).fmt = fmtCode f) :
    let st := stallOf s h
    let x := operandA st.t[ta] f tra
    let y := operandB st.t[tb] f trb
    Leaves (s.issue h .matrix (7, 0) .reads (mmaEffect compat h a ta tb f z tra trb M N K)) fun t =>
      ∃ r, (Heads s h .matrix 7 0 r ∧ r.status = .ok) ∧
        r.counts = rsvdEvent (mmaAddrs h.stall x y M N K) ++ wrapEvent ((x.offs M K).any x.d.wraps || (y.offs N K).any y.d.wraps) ∧
        Issued s t h { Passed st with acc := st.acc.set a (mmaAfter s h.stall x y st.acc[a] z compat (f == .i8) M N K) } r noReg noByte := by
  intro st x y
  have stall := effectState_stall s h .matrix (7, 0)
  have clean' := effectState_clean clean h .matrix (7, 0)
  have off := noRing_off ring
  have off' := (effectState_spill s h .matrix (7, 0)).trans off
  obtain ⟨issue, free⟩ := ready
  let e := effectState s h .matrix (7, 0)
  let v := (e.readGuarded (mmaAddrs h.stall x y M N K)).1
  have found : ∀ b, v.peekG b = s.peekG b := fun b =>
    (readGuarded_peekG clean' off' _ b).trans (effectState_peekG clean off h .matrix (7, 0) b)
  have after : mmaAfter v h.stall x y st.acc[a] z compat (f == .i8) M N K = mmaAfter s h.stall x y st.acc[a] z compat (f == .i8) M N K := by
    simp only [mmaAfter, opTable_congr found]
  obtain ⟨r, effect, ⟨heads, status⟩, counts⟩ := mma_match e h.stall (s.newFlight .matrix h (7, 0)) compat a (ta := ta) (tb := tb)
    (f := f) z tra trb M N K (by rw [stall]; exact left) (by rw [stall]; exact right)
  rw [stall] at effect counts
  obtain ⟨t, next, issued, -⟩ := issue_effect (u := .reads) (f := mmaEffect compat h a ta tb f z tra trb M N K) (W := noByte) issue free on
    (by simp) effect (.trans id id (readGuarded_only clean' _ h.stall noByte) (modStall_only _ _ _ _ _))
  have same : v.stall h.stall = Passed st := by
    rw [← stall]
    exact congrArg (AMap.get {} h.stall) (readGuarded_stalls e _)
  refine ⟨t, next, r, ⟨heads, status⟩, counts, ?_⟩
  rw [State.stall_modStall_same] at issued
  rw [← after, ← setAcc_passed, ← same]
  exact issued

/-- An instruction whose effect is to end with ST_FORMAT_MISMATCH. -/
theorem issue_mismatch {s : State} {h : Hdr} {cls instr : Nat} {a : Fin 2} {u : Uses} {f : State → Flight → State × Flight}
    (ready : UnitReady s h .matrix u (cls = 9)) (on : GuardOn s h) (uses : u ≠ .none)
    (effect : ∀ (y : State) (r : Flight), y.stall h.stall = Passed (stallOf s h) → f y r = (y, r.mismatch a instr)) :
    Leaves (s.issue h .matrix (cls, 0) u f) fun t => Issued s t h (Passed (stallOf s h))
      { recordOf s h .matrix cls 0 with status := .formatMismatch, kind := .matrix { acc := a, instr := instr } } noReg noByte := by
  have stall := effectState_stall s h .matrix (cls, 0)
  obtain ⟨issue, free⟩ := ready
  obtain ⟨t, next, issued, -⟩ := issue_effect issue free on uses (effect _ _ stall) (.refl h.stall noReg noByte _)
  rw [stall] at issued
  exact ⟨t, next, issued⟩

end Sys2Proof
end

section
/-!
PROOFS of the family 03_matrix_engine: the elements of an accumulator that `mma` and `mma.tka` add to, from the cleared state.
-/
namespace Sys2Proof

open Machine

/-! ### Tables of operands -/

theorem getElem?_opTable (s : State) (n : Fin 128) (x : Operand) {len o : Nat} (K : Nat) (h : o < len) :
    (s.opTable n x len K)[o]? = some ((List.range K).map (s.opEl n x o)) := by
  rw [State.opTable, List.getElem?_map, List.getElem?_range h]
  rfl

/-- Where no unit is poisoned, no operand is. -/
theorem opEl_sound {s : State} (clean : Clean s) (n : Fin 128) (x : Operand) (o k : Nat) : (s.opEl n x o k).bad = none := by
  obtain ⟨_, _, poison, still⟩ := clean
  have sound : ∀ a, (s.peekG a).2 = false := fun a => by
    unfold State.peekG
    rw [peek_still still]
    unfold State.held
    rw [poison]
    split
    · rfl
    · split <;> simp
  simp [State.opEl, sound]

/-! ### Elements inside the region -/

/-- An element that an `mma` adds to. -/
theorem mma_get (a : Acc) {as bs : List (List OpEl)} (K : Nat) {i j : Nat} (hi : i < 128) (hj : j < 128) {ra rb : List OpEl}
    (left : as[i]? = some ra) (right : bs[j]? = some rb) :
    (a.mma as bs K).get i j =
      if a.compat then
        Elem.compat (tkaLoop a.int32 ((a.get i j).window.toNat % 2 ^ 32) ((ra.zip rb).map fun p => tkaProd a.int32 p.1 p.2))
          ((a.get i j).poison || (ra.zip rb).any fun p => p.1.bad.isSome || p.2.bad.isSome)
      else mmaElem a.kcount (satAdd kMax a.kcount K) (a.get i j) ((ra.zip rb).map fun p => opProd p.1 p.2) := by
  rw [Acc.get]
  simp only [Acc.mma, Acc.mapAll, getD_map_range _ _ hi, getD_map_range _ _ hj, left, right]

/-- An element of a cleared accumulator after `mma.tka`, of operands that are not poisoned. -/
theorem mmaAfter_get_compat {s : State} (clean : Clean s) (n : Fin 128) (x y : Operand) (a : Acc) (int : Bool) {M N i j : Nat} (K : Nat)
    (hM : M ≤ 128) (hN : N ≤ 128) (hi : i < M) (hj : j < N) :
    (mmaAfter s n x y a true true int M N K).get i j =
      Elem.compat (tkaLoop int 0 ((List.range K).map fun k =>
        if int then unsigned 32 (signed 8 (s.opEl n x i k).bits * signed 8 (s.opEl n y j k).bits)
        else rne32 ((s.opEl n x i k).v.mul (s.opEl n y j k).v))) false := by
  refine (mma_get { compat := true, int32 := int, ploc := firstBad (s.opTable n x M K) (s.opTable n y N K) K } K (hi.trans_le hM)
    (hj.trans_le hN) (getElem?_opTable s n x K hi) (getElem?_opTable s n y K hj)).trans ?_
  have unpoisoned : ((List.range K).any fun _ => false) = false := List.any_eq_false.mpr (by simp)
  rw [if_pos rfl, List.zip_map', List.map_map]
  simp [Acc.get, tkaProd, Function.comp_def, opEl_sound clean, unpoisoned]

/-- An element of a cleared accumulator after an exact `mma`, of operands that are not poisoned. -/
theorem mmaAfter_get_exact {s : State} (clean : Clean s) (n : Fin 128) (x y : Operand) (a : Acc) (int : Bool) {M N K i j : Nat}
    (hM : M ≤ 128) (hN : N ≤ 128) (hK : K ≤ kMax) (hi : i < M) (hj : j < N) :
    (mmaAfter s n x y a true false int M N K).kcount = K ∧ (mmaAfter s n x y a true false int M N K).get i j =
      mmaElem 0 K {} (((List.range K).map fun k => (s.opEl n x i k).v.mul (s.opEl n y j k).v).map some) := by
  have count : satAdd kMax 0 K = K := by simp [satAdd, hK]
  refine ⟨count, (mma_get { ploc := firstBad (s.opTable n x M K) (s.opTable n y N K) K } K (hi.trans_le hM)
    (hj.trans_le hN) (getElem?_opTable s n x K hi) (getElem?_opTable s n y K hj)).trans ?_⟩
  rw [if_neg (by simp), List.zip_map', List.map_map]
  simp [Acc.get, count, opProd, Function.comp_def, opEl_sound clean]

/-! ### What the statement asks -/

/-- After `mma.tka`: the products, added in pairs in the order of K. -/
theorem mmaAfter_compat {s : State} (clean : Clean s) (n : Fin 128) (x y : Operand) (a : Acc) (int : Bool) {M N K i j : Nat}
    (hM : M ≤ 128) (hN : N ≤ 128) (hi : i < M) (hj : j < N) :
    let b := mmaAfter s n x y a true true int M N K
    b.compat = true ∧ b.int32 = int ∧ (b.get i j).poison = false ∧ (b.get i j).window.toNat =
      (List.range ((K + 1) / 2)).foldl (tkaPair int fun k => if K ≤ k then 0 else
        if int then unsigned 32 (signed 8 (s.opEl n x i k).bits * signed 8 (s.opEl n y j k).bits)
        else rne32 ((s.opEl n x i k).v.mul (s.opEl n y j k).v)) 0 := by
  intro b
  rw [mmaAfter_get_compat clean n x y a int K hM hN hi hj]
  exact ⟨rfl, rfl, rfl, compat_tkaLoop ..⟩

/-- After an exact `mma` whose products are finite: the sum of their shares, and their largest exponent. -/
theorem mmaAfter_exact {s : State} (clean : Clean s) (n : Fin 128) (x y : Operand) (a : Acc) (int : Bool) {M N K i j : Nat}
    (hM : M ≤ 128) (hN : N ≤ 128) (hK : K ≤ 512) (hi : i < M) (hj : j < N) :
    let b := mmaAfter s n x y a true false int M N K
    let prod := fun k => (s.opEl n x i k).v.mul (s.opEl n y j k).v
    let el := b.get i j
    (∀ k, k < K → ∃ n v e, prod k = .fin n v e) →
    b.kcount = K ∧ el.nan = false ∧ el.pinf = false ∧ el.ninf = false ∧ el.poison = false ∧
      el.window.toInt = ((List.range K).map fun k => floorAt (el.eseen + gap K - 94) (prod k)).sum ∧
      (∀ k, k < K → ∀ E, (prod k).exp2 = some E → E ≤ el.eseen) ∧
      ((∃ k, k < K ∧ (prod k).exp2 = some el.eseen) ∨ (el.eseen = -1024 ∧ ∀ k, k < K → (prod k).isZero = true)) := by
  intro b prod el finite
  obtain ⟨count, element⟩ := mmaAfter_get_exact clean n x y a int hM hN (hK.trans (by decide)) hi hj
  have each : ∀ P : FVal → Prop, (∀ p ∈ (List.range K).map prod, P p) ↔ ∀ k, k < K → P (prod k) := fun P => by simp
  have finite := (each fun p => ∃ n v e, p = .fin n v e).mpr finite
  obtain ⟨nan, pinf, ninf, poison, seen, window⟩ := mmaElem_cleared K finite (by simpa using hK)
  obtain ⟨top, reached⟩ := prePass_finite finite ((each fun p => ∀ E, p.exp2 = some E → eEmpty ≤ E).mpr fun k _ E => opEl_mul_exp2)
  rw [← element] at nan pinf ninf poison seen window
  rw [← seen] at top reached
  rw [each fun p => p.isZero = true] at reached
  refine ⟨count, nan, pinf, ninf, poison, ?_, (each _).mp top, reached.imp_left fun ⟨p, hp, hE⟩ => ?_⟩
  · rw [List.map_map] at window
    exact window
  · obtain ⟨k, hk, rfl⟩ := List.mem_map.mp hp
    exact ⟨k, List.mem_range.mp hk, hE⟩

/-- Settles O18: an `mma` in either mode, on descriptors of its format and on others, and the elements that it adds to. -/
theorem matrixMultiplyAccumulates : Obligations.MatrixMultiplyAccumulates := by
  unfold Obligations.MatrixMultiplyAccumulates
  refine ⟨fun s h a ta tb f z x y m1 n1 k1 ready on clean ring => ?_, fun s h a ta tb f z x y m1 n1 k1 m k so on => ?_⟩
  · intro st K as bs x' y' offs events after left right
    have does := fun compat => mma_does compat a z x y (m1.val + 1) (n1.val + 1) K ready on clean ring left right
    have rows : m1.val + 1 ≤ 128 := m1.isLt
    have cols : n1.val + 1 ≤ 128 := n1.isLt
    refine ⟨fun ok => ?_, fun ok => ?_, fun ok clear i j hi hj => ?_, fun ok clear i j hi hj => ?_⟩
    · obtain ⟨t, next, r, ⟨heads, status⟩, counts, issued⟩ := does false
      exact ⟨t, (exec_mma ok s).trans next, r, heads, status, mma_events counts, issued⟩
    · obtain ⟨t, next, r, ⟨heads, status⟩, counts, issued⟩ := does true
      exact ⟨t, (exec_mmaTka ok s).trans next, r, heads, status, mma_events counts, issued⟩
    · subst clear
      exact mmaAfter_compat clean h.stall x' y' st.acc[a] (f == .i8) rows cols (Nat.lt_succ_of_le hi) (Nat.lt_succ_of_le hj)
    · subst clear
      exact mmaAfter_exact clean h.stall x' y' st.acc[a] (f == .i8) rows cols k1.isLt (Nat.lt_succ_of_le hi) (Nat.lt_succ_of_le hj)
  · intro st does
    refine ⟨fun other ready => ⟨fun ok => ?_, fun ok => ?_⟩, fun other ready ok => ?_⟩
    · rw [exec_mma ok]
      exact issue_mismatch ready on (by simp) fun _ _ stall => mmaEffect_mismatch stall other
    · rw [exec_mmaTka ok]
      exact issue_mismatch ready on (by simp) fun _ _ stall => mmaEffect_mismatch stall other
    · rw [exec_mmr ok]
      exact issue_mismatch ready on (by simp) fun y r stall => if_pos (by rw [stall]; exact other)

end Sys2Proof
end

section
/-!
PROOFS of the family 04_parameter_update: a fold that completes its step where the job is this chip alone, so that the step is sealed with it.
-/
namespace Sys2Proof

open Machine

/-! ### The last fold of a step (R106, R114, R388) -/

/-- Context 0 is ACTIVE, its job has one chip, and it has sealed no step. Half 0 of its group table, at address 0, holds step 0, which expects
one fold; group 0 has one row and one column, statistics at 0x3000 and a scratch region at 0x2000, which says that its one tile is complete
in attempt 1. Stall 0 runs a program of the context, and its registers are zero: they name group 0 in step 0. -/
def lastFold : State :=
  { State.reset with aux := true, power := .good, dieUp := true
                     stalls := [(0, { running := true, codeBase := 0x700000, codeBytes := 64 })]
                     regs := [(.hstCtxStatus 0, F.hstCtxStatus_STATE.put 0 1)]
                     xlat := [{ ctx := 0, page := 0, big := false, pa := 0, w := true, rmt := true }]
                     mem := [(0x4, 1), (0x1008, 1), (0x100C, 1), (0x1059, 0x30), (0x1069, 0x20), (0x2000, 1), (0x2004, 1)] }

/-- The header of an `updf` of stall 0. -/
def lastFoldHdr : Hdr := { stall := 0 }

theorem lastFold_ready : UnitReady lastFold lastFoldHdr .vector .writes true ∧ GuardOn lastFold lastFoldHdr :=
  ⟨⟨(by decide : lastFold.canIssue 0 .writes = true), (by decide : lastFold.unitFree 0 .vector true = true)⟩,
    (by decide : (lastFold.stall 0).guard lastFoldHdr = true)⟩

/-- FOLDS_DONE and SEALED_STEP of context 0. -/
def foldsAndSealed (s : State) : Nat × BitVec 32 := (s.fld (.stlUpdProgress 0) F.stlUpdProgress_FOLDS_DONE, s.sealed 0)

/-- The same after a command. -/
def foldsAndSealedAfter : Out → Option (Nat × BitVec 32)
  | .next t => some (foldsAndSealed t)
  | _ => none

/-- The `updf` seals step 0, and FOLDS_DONE is 0 after it as it was before. -/
theorem lastFold_seals : foldsAndSealed lastFold = (0, 0xFFFFFFFF) ∧
    foldsAndSealedAfter (exec (.updf lastFoldHdr 0) lastFold) = some (0, 0) := by decide

/-- The statement has FOLDS_DONE count one more in `lastFold`: the `updf` passes its checks on a group that is trained, the shard's tile is
complete, no word is poisoned, and this attempt has not folded the group. -/
theorem lastFold_counts (outcomes : Obligations.UpdateInstructionOutcomes) :
    Leaves (exec (.updf lastFoldHdr 0) lastFold) fun t => (foldsAndSealed t).1 = (foldsAndSealed lastFold).1 + 1 := by
  obtain ⟨ready, on⟩ := lastFold_ready
  obtain ⟨-, -, -, -, runs⟩ := outcomes lastFold lastFoldHdr 0 0 0 .bf16 ready on (by decide)
  -- No table word is poisoned, the checks say go, the group is not idle, and a fold is expected.
  obtain ⟨-, -, shard⟩ := runs (by decide) (by decide) (by decide) (by decide)
  -- The shard has tiles, and they are complete.
  obtain ⟨-, complete⟩ := shard (by decide)
  obtain ⟨t, next, r, -, ⟨-, -, unpoisoned⟩, -⟩ := complete (by decide)
  obtain ⟨-, counted, -⟩ := unpoisoned (by decide)
  -- FOLD_ATTEMPT does not hold the attempt yet.
  rw [if_neg (by decide)] at counted
  exact ⟨t, next, counted⟩

/-- Refutes O21: its clause of a fold whose words are not poisoned has FOLDS_DONE count one more, whether or not the step is ready with it.
In `lastFold` the fold is the last that the step expects, with which the context is READY; the job has no other chip, so the seal follows at
once, and it advances the attempt, which returns FOLDS_DONE to 0. -/
theorem not_updateInstructionOutcomes : ¬ Obligations.UpdateInstructionOutcomes := by
  intro outcomes
  obtain ⟨t, next, counted⟩ := lastFold_counts outcomes
  obtain ⟨before, after⟩ := lastFold_seals
  rw [next] at after
  have sealed : foldsAndSealed t = (0, 0) := Option.some.inj after
  rw [sealed, before] at counted
  exact absurd counted (by decide)

end Sys2Proof
end

section
/-!
PROOFS of the family 05_instruction_set: the sequencer's instructions that change registers of their own stall alone (R127 to R132).
-/
namespace Sys2Proof

open Machine

/-! ### The effect on the stall -/

/-- An instruction of the sequencer that may issue, with its guard on, leaves its stall as its effect says. -/
theorem seqRegs_does {s : State} {h : Hdr} (ready : Ready s h .none) (on : GuardOn s h) {f : Stall → Stall} {st : Stall}
    (effect : f (Passed (stallOf s h)) = st) : SeqDoes s h (s.seqRegs h f) st := by
  obtain ⟨t, next, retired⟩ := seqRegs_next s h f ready
  rw [if_pos (show (stallOf s h).guard h = true from on), effect] at retired
  exact ⟨t, next, retired⟩

/-- With its guard off it only passes (R125). -/
theorem seqRegs_off {s : State} {h : Hdr} (ready : Ready s h .none) (off : ¬ GuardOn s h) (f : Stall → Stall) :
    SeqDoes s h (s.seqRegs h f) (Passed (stallOf s h)) := by
  obtain ⟨t, next, retired⟩ := seqRegs_next s h f ready
  rw [if_neg (show ¬ (stallOf s h).guard h = true from off)] at retired
  exact ⟨t, next, retired⟩

/-- What an instruction of the sequencer has changed when it retires, where its effect leaves the count of retirements to that (R127,
R128). -/
theorem Retired.of_effect {s x : State} {h : Hdr} {st : Stall} {R : Reg → Prop} {W : Nat → Prop} (only : OnlyStall h.stall R W s x)
    (stall : x.stall h.stall = st) (count : ¬ R (.stlSeqRetired h.stall)) (ctrl : ¬ R .dbgTraceCtrl) (spill : ¬ R .dbgTraceSpill)
    (k : Fin 4) (pc : BitVec 17) : Retired s (x.retire h.stall k h.ten h.tc pc) h st R W := by
  have now : x.frankNs = s.frankNs := by rw [only.rest]; rfl
  have ctrl' : ¬ (Reg.dbgTraceCtrl = .stlSeqRetired h.stall ∨ R .dbgTraceCtrl) := by simp [ctrl]
  have spill' : ¬ (Reg.dbgTraceSpill = .stlSeqRetired h.stall ∨ R .dbgTraceSpill) := by simp [spill]
  refine ⟨by rw [retire_stall, stall, now], ?_, .trans ctrl' spill' (only.mono (fun _ => .inr) fun _ => id)
    (retire_only _ _ _ _ _ _ _ _ _ (.inl rfl) ctrl' spill')⟩
  rw [retire_count, State.fld_congr F.COUNT (only.regs _ rfl count)]

theorem setsS_of {s : State} {h : Hdr} (ready : Ready s h .none) (on : GuardOn s h) {sd : SReg} {g : Stall → BitVec 64} {x : BitVec 64}
    (result : g (Passed (stallOf s h)) = x) : SetsS s h (s.seqRegs h fun t => t.setS sd (g t)) sd x :=
  seqRegs_does ready on (by rw [result]; rfl)

theorem setsP_of {s : State} {h : Hdr} (ready : Ready s h .none) (on : GuardOn s h) {pd : PReg} {g : Stall → BitVec 256}
    {x : BitVec 256} (result : g (Passed (stallOf s h)) = x) : SetsP s h (s.seqRegs h fun t => t.setP pd (g t)) pd x :=
  seqRegs_does ready on (by rw [result]; rfl)

theorem setsT_of {s : State} {h : Hdr} (ready : Ready s h .none) (on : GuardOn s h) {td : TReg} {g : Stall → BitVec 128}
    {x : BitVec 128} (result : g (Passed (stallOf s h)) = x) : SetsT s h (s.seqRegs h fun t => t.setT td (g t)) td x :=
  seqRegs_does ready on (by rw [result]; rfl)

/-! ### Results of SALU (R130) -/

theorem mul_eq_ofNat (a b : BitVec 64) : a * b = BitVec.ofNat 64 (a.toNat * b.toNat) := by
  apply BitVec.eq_of_toNat_eq
  rw [BitVec.toNat_mul, BitVec.toNat_ofNat]

/-- The minimum and the maximum by an order that two equal operands do not tell apart. -/
theorem opMin_eq (a b : BitVec 64) : opMin a b = if a.toInt ≤ b.toInt then a else b := by
  rw [opMin, BitVec.slt_eq_decide]
  by_cases same : a = b
  · simp [same]
  · have apart : a.toInt ≠ b.toInt := fun e => same (BitVec.eq_of_toInt_eq e)
    simp only [decide_eq_true_eq, show a.toInt ≤ b.toInt ↔ a.toInt < b.toInt by omega]

theorem opMax_eq (a b : BitVec 64) : opMax a b = if a.toInt ≤ b.toInt then b else a := by
  rw [opMax, BitVec.slt_eq_decide]
  by_cases same : a = b
  · simp [same]
  · have apart : a.toInt ≠ b.toInt := fun e => same (BitVec.eq_of_toInt_eq e)
    simp only [decide_eq_true_eq, show a.toInt ≤ b.toInt ↔ a.toInt < b.toInt by omega]

theorem opMinu_eq (a b : BitVec 64) : opMinu a b = if a.toNat ≤ b.toNat then a else b := by
  rw [opMinu, BitVec.ult_eq_decide]
  by_cases same : a = b
  · simp [same]
  · have apart : a.toNat ≠ b.toNat := fun e => same (BitVec.eq_of_toNat_eq e)
    simp only [decide_eq_true_eq, show a.toNat ≤ b.toNat ↔ a.toNat < b.toNat by omega]

theorem opMaxu_eq (a b : BitVec 64) : opMaxu a b = if a.toNat ≤ b.toNat then b else a := by
  rw [opMaxu, BitVec.ult_eq_decide]
  by_cases same : a = b
  · simp [same]
  · have apart : a.toNat ≠ b.toNat := fun e => same (BitVec.eq_of_toNat_eq e)
    simp only [decide_eq_true_eq, show a.toNat ≤ b.toNat ↔ a.toNat < b.toNat by omega]

/-- Settles O8: each operation sets its register to its function of the operands, and the functions are those of the statement. -/
theorem scalarResults : Obligations.ScalarResults := by
  refine ⟨fun s h sd sa sb ready on => ?_, fun s h pd pa pb sa sb ready on => ?_⟩
  · have sets {g : Stall → BitVec 64} {x : BitVec 64} (result : g (Passed (stallOf s h)) = x) := setsS_of ready on (sd := sd) result
    exact ⟨sets rfl, sets rfl, sets (mul_eq_ofNat _ _), sets rfl, sets rfl, sets rfl, sets rfl, sets rfl, sets rfl,
      sets (opMin_eq _ _), sets (opMax_eq _ _), sets (opMinu_eq _ _), sets (opMaxu_eq _ _)⟩
  · have sets {g : Stall → BitVec 256} {x : BitVec 256} (result : g (Passed (stallOf s h)) = x) := setsP_of ready on (pd := pd) result
    refine ⟨sets ?_, sets ?_, sets ?_, sets rfl, sets rfl, sets rfl, sets rfl⟩
    · exact congrArg predFill (Bool.beq_eq_decide_eq _ _)
    · exact congrArg predFill BitVec.slt_eq_decide
    · exact congrArg predFill BitVec.ult_eq_decide

/-! ### Immediates and items (R130) -/

/-- `lih` puts the immediate above the low half of its register. -/
theorem lih_eq (imm : BitVec 33) (x : BitVec 64) :
    (imm.setWidth 32 ++ x.setWidth 32 : BitVec 64) = BitVec.ofNat 64 (x.toNat % 2 ^ 32 + imm.toNat % 2 ^ 32 * 2 ^ 32) := by
  apply BitVec.eq_of_toNat_eq
  rw [BitVec.toNat_append, BitVec.toNat_setWidth, BitVec.toNat_setWidth, BitVec.toNat_ofNat,
    ← Nat.shiftLeft_add_eq_or_of_lt (Nat.mod_lt _ (Nat.two_pow_pos 32)), Nat.shiftLeft_eq]
  omega

/-! ### Descriptors (R132) -/

/-- A number of 128 bits by four fields of 18, 18, 21 and 71 bits. -/
theorem descFields (v : Nat) : v = v % 2 ^ 18 + v / 2 ^ 18 % 2 ^ 18 * 2 ^ 18 + v / 2 ^ 36 % 2 ^ 21 * 2 ^ 36 + v / 2 ^ 57 * 2 ^ 57 := by
  have second : v / 2 ^ 36 = v / 2 ^ 18 / 2 ^ 18 := by rw [Nat.div_div_eq_div_mul, ← Nat.pow_add]
  have third : v / 2 ^ 57 = v / 2 ^ 36 / 2 ^ 21 := by rw [Nat.div_div_eq_div_mul, ← Nat.pow_add]
  have low := Nat.div_add_mod v (2 ^ 18)
  have middle := Nat.div_add_mod (v / 2 ^ 18) (2 ^ 18)
  have high := Nat.div_add_mod (v / 2 ^ 36) (2 ^ 21)
  rw [← second] at middle
  rw [← third] at high
  generalize v / 2 ^ 57 = e at *
  generalize v / 2 ^ 36 % 2 ^ 21 = c at *
  generalize v / 2 ^ 36 = y at *
  generalize v / 2 ^ 18 % 2 ^ 18 = b at *
  generalize v / 2 ^ 18 = x at *
  generalize v % 2 ^ 18 = a at *
  omega

/-- The fields of a number that is made of such fields. -/
theorem descFields_get {a b c : Nat} (e : Nat) (ha : a < 2 ^ 18) (hb : b < 2 ^ 18) (hc : c < 2 ^ 21) :
    let v := a + b * 2 ^ 18 + c * 2 ^ 36 + e * 2 ^ 57
    v % 2 ^ 18 = a ∧ v / 2 ^ 36 % 2 ^ 21 = c ∧ v / 2 ^ 18 % 2 ^ 18 = b ∧ v / 2 ^ 57 = e := by
  refine ⟨by omega, by omega, by omega, by omega⟩

/-- What `tdadd` makes of a descriptor, field by field. -/
theorem descAdd_toNat (d : BitVec 128) (x : BitVec 64) : (descAdd d x).toNat =
    (d.toNat % 2 ^ 18 + x.toNat % 2 ^ 18) % 2 ^ 18 + d.toNat / 2 ^ 18 % 2 ^ 18 * 2 ^ 18 +
      (d.toNat / 2 ^ 36 % 2 ^ 21 + x.toNat / 2 ^ 18 % 2 ^ 21) % 2 ^ 21 * 2 ^ 36 + d.toNat / 2 ^ 57 * 2 ^ 57 := by
  have fields := descFields d.toNat
  have top : d.toNat / 2 ^ 57 < 2 ^ 71 := Nat.div_lt_of_lt_mul (by rw [← Nat.pow_add]; exact d.isLt)
  have low : (d.toNat % 2 ^ 18 + x.toNat % 2 ^ 18) % 2 ^ 18 < 2 ^ 18 := Nat.mod_lt _ (Nat.two_pow_pos 18)
  have second : d.toNat / 2 ^ 18 % 2 ^ 18 < 2 ^ 18 := Nat.mod_lt _ (Nat.two_pow_pos 18)
  have scale : (d.toNat / 2 ^ 36 % 2 ^ 21 + x.toNat / 2 ^ 18 % 2 ^ 21) % 2 ^ 21 < 2 ^ 21 := Nat.mod_lt _ (Nat.two_pow_pos 21)
  simp only [descAdd, bitsOf, BitVec.toNat_ofNat, Nat.pow_zero, Nat.div_one]
  generalize (d.toNat % 2 ^ 18 + x.toNat % 2 ^ 18) % 2 ^ 18 = a' at *
  generalize (d.toNat / 2 ^ 36 % 2 ^ 21 + x.toNat / 2 ^ 18 % 2 ^ 21) % 2 ^ 21 = c' at *
  generalize d.toNat / 2 ^ 57 = e at *
  generalize d.toNat / 2 ^ 36 % 2 ^ 21 = c at *
  generalize d.toNat / 2 ^ 18 % 2 ^ 18 = b at *
  generalize d.toNat % 2 ^ 18 = a at *
  rw [Nat.mod_eq_of_lt (by omega)]
  omega

theorem descAdd_fields (d : BitVec 128) (x : BitVec 64) :
    (descAdd d x).toNat % 2 ^ 18 = (d.toNat + x.toNat) % 2 ^ 18 ∧
    (descAdd d x).toNat / 2 ^ 36 % 2 ^ 21 = (d.toNat / 2 ^ 36 + x.toNat / 2 ^ 18) % 2 ^ 21 ∧
    (descAdd d x).toNat / 2 ^ 18 % 2 ^ 18 = d.toNat / 2 ^ 18 % 2 ^ 18 ∧ (descAdd d x).toNat / 2 ^ 57 = d.toNat / 2 ^ 57 := by
  rw [descAdd_toNat, Nat.add_mod d.toNat, Nat.add_mod (d.toNat / 2 ^ 36)]
  exact descFields_get _ (Nat.mod_lt _ (Nat.two_pow_pos 18)) (Nat.mod_lt _ (Nat.two_pow_pos 18)) (Nat.mod_lt _ (Nat.two_pow_pos 21))

/-- The two words of a descriptor. -/
theorem descWord_eq (d : BitVec 128) (w : Bool) : descWord d w = d.extractLsb' (if w then 64 else 0) 64 := by cases w <;> rfl

/-! ### Branches and `halt` (R129, R130, R174) -/

/-- A branch counts from the branch itself, though the program counter has passed it. -/
theorem branch_passed (t : Stall) (off : BitVec 32) : (Passed t).branch off = { t with pc := t.pc + off.setWidth 17 } := by
  simp [Stall.branch, Passed]

/-- What `loop` does to its stall. -/
def loopOn (sa : SReg) (off : BitVec 32) (t : Stall) : Stall :=
  if t.s[sa] - 1 = 0 then t.setS sa (t.s[sa] - 1) else (t.setS sa (t.s[sa] - 1)).branch off

theorem exec_loop (h : Hdr) (sa : SReg) (off : BitVec 32) (s : State) : exec (.loop h sa off) s = s.seqRegs h (loopOn sa off) := rfl

theorem loop_passed (t : Stall) (sa : SReg) (off : BitVec 32) : loopOn sa off (Passed t) =
      { t with s := t.s.set sa (t.s[sa] - 1), pc := if t.s[sa] - 1 = 0 then t.pc + 1 else t.pc + off.setWidth 17 } := by
  rw [loopOn, show (Passed t).s = t.s from rfl]
  split
  · rfl
  · simp [Stall.branch, Passed, Stall.setS]

theorem canIssue_running {s : State} {n : Fin 128} {u : Uses} (h : s.canIssue n u = true) : (s.stall n).running = true := by
  simp only [State.canIssue, Bool.and_eq_true] at h
  exact h.1.1.1.2

/-- A `halt` as it is issued, before it is known whether it retires. -/
def Machine.State.haltIssued (s : State) (h : Hdr) : State := (s.issued h.stall 0).modStall h.stall fun t => { t with halting := some h }

theorem exec_halt {s : State} {h : Hdr} (ready : Ready s h .none) (on : GuardOn s h) :
    exec (.halt h) s = .next ((s.haltIssued h).finishHalt h.stall) := by
  have go : (s.stall h.stall).guard h = true := on
  change execHalt h s = _
  rw [execHalt, if_pos (show s.canIssue h.stall .none = true from ready)]
  simp only [go, Bool.not_true, Bool.false_eq_true, if_false]
  rfl

theorem haltIssued_stall (s : State) (h : Hdr) : (s.haltIssued h).stall h.stall = { Passed (stallOf s h) with halting := some h } := by
  rw [State.haltIssued, State.stall_modStall_same, issued_stall]
  rfl

theorem haltIssued_only (s : State) (h : Hdr) : OnlyStall h.stall noReg noByte s (s.haltIssued h) :=
  .trans id id (issued_only s h.stall 0 noReg noByte id id) (modStall_only _ _ _ _ _)

/-- With nothing in flight a `halt` retires, and the stall stops. -/
theorem halt_stops {s : State} {h : Hdr} (ready : Ready s h .none) (on : GuardOn s h) (flights : (stallOf s h).flights = [])
    (wait : (stallOf s h).wait = none) :
    SeqDoes s h (exec (.halt h) s) { Passed (stallOf s h) with running := false, halting := none } := by
  have running : (stallOf s h).running = true := canIssue_running ready
  have ends : (s.haltIssued h).finishHalt h.stall = (s.haltIssued h).halted h := by
    simp [State.finishHalt, haltIssued_stall, Passed, running, flights, wait]
  have only := haltIssued_only s h
  have now : (s.haltIssued h).frankNs = s.frankNs := by rw [only.rest]; rfl
  rw [exec_halt ready on, ends]
  refine ⟨_, rfl, ?_, ?_, ?_⟩
  · rw [State.halted, State.stall_modStall_same, retire_stall, haltIssued_stall, now]
    unfold Stall.tally
    split <;> rfl
  · refine (retire_count _ _ _ _ _ _ _).trans ?_
    rw [State.fld_congr F.COUNT (only.regs _ rfl id)]
  · exact .trans (by simp [noReg]) (by simp [noReg]) (only.mono (fun _ => False.elim) fun _ => id)
      (.trans (by simp [noReg]) (by simp [noReg]) (retire_only _ _ _ _ _ _ _ _ _ (.inl rfl) (by simp [noReg]) (by simp [noReg]))
        (modStall_only _ _ _ _ _))

/-- With something in flight it holds issue. -/
theorem halt_holds {s : State} {h : Hdr} (ready : Ready s h .none) (on : GuardOn s h)
    (busy : (stallOf s h).flights ≠ [] ∨ (stallOf s h).wait ≠ none) : Leaves (exec (.halt h) s) fun t =>
      t.stall h.stall = { Passed (stallOf s h) with halting := some h } ∧ OnlyStall h.stall noReg noByte s t := by
  have waits : (s.haltIssued h).finishHalt h.stall = s.haltIssued h := by
    rcases busy with busy | busy <;> simp [State.finishHalt, haltIssued_stall, Passed, busy]
  rw [exec_halt ready on, waits]
  exact ⟨_, rfl, haltIssued_stall s h, haltIssued_only s h⟩

theorem sget_of {s : State} {h : Hdr} (ready : Ready s h .none) (on : GuardOn s h) {sd : SReg} {item : BitVec 33} {x : BitVec 64}
    (shows : s.sgetItem h.stall item = some x) : SetsS s h (exec (.sget h sd item) s) sd x := by
  have run : exec (.sget h sd item) s = s.seqRegs h fun t => t.setS sd x := by
    change execSget h sd item s = _
    rw [execSget, shows]
  rw [run]
  exact setsS_of ready on rfl

/-- Settles O9: registers and descriptors by their new values, control flow by the new program counter, and `halt` by whether anything is
in flight. -/
theorem immediatesDescriptorsAndControlFlow : Obligations.ImmediatesDescriptorsAndControlFlow := by
  refine ⟨fun s h sd sa pd imm ready on => ?_, fun s h sd sa sb td w ready on => ?_, fun s h sa off ready on => ?_⟩
  · have sets {g : Stall → BitVec 64} {x : BitVec 64} (result : g (Passed (stallOf s h)) = x) := setsS_of ready on (sd := sd) result
    refine ⟨sets rfl, sets rfl, sets rfl, sets rfl, sets rfl, sets rfl, sets rfl, setsP_of ready on ?_, sets rfl, sets (lih_eq _ _),
      sget_of ready on rfl, sget_of ready on rfl, sget_of ready on ?_, sget_of ready on rfl, sget_of ready on rfl⟩
    · exact congrArg predFill BitVec.slt_eq_decide
    · exact congrArg some (BitVec.eq_of_toNat_eq (by rw [BitVec.toNat_setWidth, BitVec.toNat_ofNat]))
  · exact ⟨setsT_of ready on rfl, setsS_of ready on (descWord_eq _ _), _, setsT_of ready on rfl, descAdd_fields _ _⟩
  · exact ⟨seqRegs_does ready on rfl, seqRegs_does ready on (branch_passed _ _),
      exec_loop h sa off s ▸ seqRegs_does ready on (loop_passed _ _ _),      halt_stops ready on, halt_holds ready on⟩

end Sys2Proof
end

section
/-!
PROOFS of the family 05_instruction_set: instructions that are guarded off (R125).
-/
namespace Sys2Proof

open Machine

/-! ### In the sequencer and the sync unit -/

/-- An instruction that is not held by a pending fence though it writes is held by none. -/
theorem canIssue_of_writes {s : State} {n : Fin 128} (h : s.canIssue n .writes = true) (u : Uses) : s.canIssue n u = true := by
  simp only [State.canIssue, Bool.and_eq_true] at h ⊢
  refine ⟨h.1, ?_⟩
  have held := h.2
  split <;> simp_all

/-- An instruction that has no effect passes, and retires. -/
theorem passes (s : State) (h : Hdr) (pc : BitVec 17) :
    SeqDoes s h (.next ((s.issued h.stall 0).retire h.stall 0 h.ten h.tc pc)) (Passed (stallOf s h)) :=
  ⟨_, rfl, .of_effect (issued_only s h.stall 0 noReg noByte id id) (issued_stall ..) id id id 0 pc⟩

theorem sequencer_off {s : State} {h : Hdr} {u : Uses} (ready : s.canIssue h.stall u = true) (off : ¬ GuardOn s h) (f : State → State) :
    SeqDoes s h (s.sequencer h u f) (Passed (stallOf s h)) := by
  have go : (s.stall h.stall).guard h = false := Bool.eq_false_iff.mpr off
  simp only [State.sequencer, if_pos ready, go, Bool.false_eq_true, if_false]
  exact passes s h _

theorem syncUnit_off {s : State} {h : Hdr} (ready : Ready s h .sync) (off : ¬ GuardOn s h) (f : State → State) :
    SeqDoes s h (s.syncUnit h f) (Passed (stallOf s h)) := by
  have go : (s.stall h.stall).guard h = false := Bool.eq_false_iff.mpr off
  simp only [State.syncUnit, if_pos (show s.canIssue h.stall .sync = true from ready), go, Bool.false_eq_true, if_false]
  exact passes s h _

theorem halt_off {s : State} {h : Hdr} (ready : Ready s h .none) (off : ¬ GuardOn s h) :
    SeqDoes s h (exec (.halt h) s) (Passed (stallOf s h)) := by
  have go : (s.stall h.stall).guard h = false := Bool.eq_false_iff.mpr off
  change SeqDoes s h (execHalt h s) _
  simp only [execHalt, if_pos (show s.canIssue h.stall .none = true from ready), go, Bool.not_false, if_true]
  exact passes s h _

theorem sld_off {s : State} {h : Hdr} (ready : Ready s h .reads) (off : ¬ GuardOn s h) (b : Bool) (sd sa : SReg) (imm : BitVec 32) :
    SeqDoes s h (exec (.sld h b sd sa imm) s) (Passed (stallOf s h)) := by
  have go : (s.stall h.stall).guard h = false := Bool.eq_false_iff.mpr off
  change SeqDoes s h (execSld h b sd sa imm s) _
  simp only [execSld, if_pos (show s.canIssue h.stall .reads = true from ready), go, Bool.not_false, if_true]
  exact passes s h _

theorem sget_off {s : State} {h : Hdr} (ready : Ready s h .none) (off : ¬ GuardOn s h) (sd : SReg) {item : BitVec 33}
    (listed : item.toNat < 5) : SeqDoes s h (exec (.sget h sd item) s) (Passed (stallOf s h)) := by
  obtain ⟨x, shows⟩ : ∃ x, s.sgetItem h.stall item = some x := by
    unfold State.sgetItem
    split
    · exact ⟨_, rfl⟩
    · exact ⟨_, rfl⟩
    · exact ⟨_, rfl⟩
    · exact ⟨_, rfl⟩
    · exact ⟨_, rfl⟩
    · next h0 h1 h2 h3 h4 => exact absurd listed (by simp only [imp_false] at h0 h1 h2 h3 h4; omega)
  have run : exec (.sget h sd item) s = s.seqRegs h fun t => t.setS sd x := by
    change execSget h sd item s = _
    rw [execSget, shows]
  rw [run]
  exact seqRegs_off ready off _

/-! ### In a unit -/

/-- A unit takes an instruction that is guarded off, and will retire it in its turn. -/
theorem passedBy {s : State} {h : Hdr} {unit : StallUnit} {u : Uses} {cls op : Nat} {c : Instr} (off : ¬ GuardOn s h)
    (f : State → Flight → State × Flight) (issues : exec c s = s.issue h unit (cls, op) u f) : PassedBy s h unit u cls op c := by
  intro ready
  have go : (s.stall h.stall).guard h = false := Bool.eq_false_iff.mpr off
  rw [issues, State.issue, go, issueWith_next s h unit (cls, op) u false f ready.1 ready.2]
  refine ⟨_, rfl, ?_, ?_⟩
  · simp only [Bool.false_eq_true, if_false]
    rw [spread_stall, fly_stall, issued_stall]
    rfl
  · simp only [Bool.false_eq_true, if_false]
    exact .trans id id (.trans id id (issued_only _ _ _ _ _ id id) (modStall_only _ _ _ _ _)) (spread_only _ _ _ _ _ id id)

theorem exec_upd {h : Hdr} {sa sb : SReg} {tg : TReg} {f : Fmt} (ok : updOk f = true) (s : State) :
    exec (.upd h sa sb tg f) s = s.issue h .vector (9, 0) .writes fun y r =>
      y.updStart h.stall { r with kind := .update none } (y.stall h.stall).s[sa] (y.stall h.stall).s[sb] (y.stall h.stall).t[tg] f := by
  change execUpd h sa sb tg f s = _
  rw [execUpd, ok]
  rfl

theorem coll_off {s : State} {h : Hdr} {c : Instr} (off : ¬ GuardOn s h) (k : CollKind) {g : Fin 4} {x : State → Stall → CollOp → CollOp}
    {f : State → Flight → Fin 64 → State × Flight} (meaning : exec c s = s.coll h k g x f) : PassedBy s h .mover .writes 13 k.op c :=
  passedBy off _ (meaning.trans (State.coll.eq_1 s h k g x f))

/-- Settles O11: the sequencer and the sync unit retire what is guarded off at once, and the units take it. -/
theorem guardedOffSequencer : Obligations.GuardedOffSequencer := by
  refine ⟨fun s h sd sa sb pd pa pb td b i j item none writes off listed c hc => ?_, fun s h cn v sa scope grp evt ready off c hc => ?_,
    fun s h dsp ssp sa sb sc sd se v i a td ts f x y z m1 n1 k1 m k so nctr g off => ?_⟩
  · have regs (f : Stall → Stall) : SeqDoes s h (s.seqRegs h f) (Passed (stallOf s h)) := seqRegs_off none off f
    revert c
    simp only [List.forall_mem_cons]
    exact ⟨regs _, regs _, regs _, halt_off none off, regs _, regs _, regs _, regs _, regs _, regs _, regs _, regs _,
      regs _, regs _, regs _, regs _, regs _, regs _, regs _, regs _, regs _, regs _, regs _, regs _, regs _, regs _,
      regs _, regs _, regs _, regs _, regs _, regs _, regs _, regs _, sget_off none off sd listed, sld_off
      (canIssue_of_writes writes .reads) off b sd sa i, sequencer_off writes off _, regs _, regs _, regs _, by simp⟩
  · have sync (f : State → State) : SeqDoes s h (s.syncUnit h f) (Passed (stallOf s h)) := syncUnit_off ready off f
    revert c
    simp only [List.forall_mem_cons]
    exact ⟨(sync _ : SeqDoes s h (execTadd h cn v s) _), (sync _ : SeqDoes s h (execTset h cn v s) _),
      (sync _ : SeqDoes s h (execTwait h cn v s) _), (sync _ : SeqDoes s h (execTwaits h cn sa s) _),
      (sync _ : SeqDoes s h (s.fence h .acq scope grp) _), (sync _ : SeqDoes s h (s.fence h .rel scope grp) _),
      (sync _ : SeqDoes s h (s.fence h .full scope grp) _), (sync _ : SeqDoes s h (execEwait h evt s) _), by simp⟩
  · have direct {unit : StallUnit} {u : Uses} {cls op : Nat} {c : Instr} (o : Out) {f : State → Flight → State × Flight}
        (meaning : exec c s = o) (issues : o = s.issue h unit (cls, op) u f) : PassedBy s h unit u cls op c :=
      passedBy off f (meaning.trans issues)
    exact ⟨direct (execVld h x v sa i s) rfl rfl, direct (execVst h x v sa i s) rfl rfl, fun ok => passedBy off _ (exec_mma ok s),
      fun ok => passedBy off _ (exec_mmaTka ok s), fun ok => passedBy off _ (exec_mmr ok s), passedBy off _ (exec_mmxSt h a td s),
      passedBy off _ (exec_mmxLd h a td s), fun ok => passedBy off _ (exec_upd ok s), direct (execUpdf h sa s) rfl rfl,
      direct (execDmCopy h dsp ssp sd sa sb s) rfl rfl, direct (execDmLd2 h ssp td sa sb s) rfl rfl,
      direct (execDmSt2 h dsp sd ts sb s) rfl rfl, direct (execDmTt h td ts sa s) rfl rfl, direct (execDmFill h dsp sd sa sb s) rfl rfl,
      direct (execSlotBind h sa sb sc sd nctr x s) rfl rfl, direct (execSlotFree h sa s) rfl rfl,
      direct (execSlotSend h ssp sa sb sc sd se s) rfl rfl, direct (execSlotStat h sd sa s) rfl rfl,
      coll_off off .reduce (State.collLayout.eq_1 s h .reduce g sa sb sc), coll_off off .rscat (State.collLayout.eq_1 s h .rscat g sa sb sc),
      coll_off off .agath (State.collLayout.eq_1 s h .agath g sa sb sc), coll_off off .a2a (execCollA2a.eq_1 h g sa sb sc s),
      coll_off off .circ (execCollCirc.eq_1 h g sa sb sc s), coll_off off .tree (State.collLayout.eq_1 s h .tree g sa sb sc),
      coll_off off .wgtile (execCollWgtile.eq_1 h g sa sb sc td s)⟩

end Sys2Proof
end

section
/-!
PROOFS of the family 05_instruction_set: the sync unit (R156 to R169).
-/
namespace Sys2Proof

open Machine

/-! ### What an instruction of the sync unit finds -/

theorem syncUnit_on {s : State} {h : Hdr} (ready : Ready s h .sync) (on : GuardOn s h) (f : State → State) :
    s.syncUnit h f = .next (f (s.issued h.stall 0)) := by
  have go : (s.stall h.stall).guard h = true := on
  simp only [State.syncUnit, if_pos (show s.canIssue h.stall .sync = true from ready), go, if_true]

theorem canIssue_halting {s : State} {n : Fin 128} {u : Uses} (h : s.canIssue n u = true) : (s.stall n).halting = none := by
  simp only [State.canIssue, Bool.and_eq_true, Option.isNone_iff_eq_none] at h
  exact h.1.2

/-- What a fence waits for depends on the stall's instructions and context, on the operations and letters outstanding, and on the registers
of its groups. -/
theorem fenceHeld_congr {s t : State} {n : Fin 128} (flights : (t.stall n).flights = (s.stall n).flights)
    (context : (t.stall n).context = (s.stall n).context) (ops : t.collOps = s.collOps) (queue : t.postQ = s.postQ)
    (out : t.outstanding = s.outstanding) (regs : ∀ r, traceReg r = false → t.rd r = s.rd r) (k : FenceKind) (scope : FenceScope)
    (grp : Fin 4) (upTo : Nat) : t.fenceHeld n k scope grp upTo = s.fenceHeld n k scope grp upTo := by
  have plan (c : Fin 64) : t.rd (.ceAxisPlan c) = s.rd (.ceAxisPlan c) := regs _ rfl
  have group (c : Fin 64) (g : Fin 4) : t.rd (.ceGrpCtrl c g) = s.rd (.ceGrpCtrl c g) := regs _ rfl
  have members (c : Fin 64) (g : Fin 4) (r : Fin 4) : t.rd (.ceGrpMember c g r) = s.rd (.ceGrpMember c g r) := regs _ rfl
  have owes (w : Owner) : t.owes w = s.owes w := by simp only [State.owes, queue, out]
  have done (o : CollOp) : t.opDone o = s.opDone o := by simp only [State.opDone, owes]
  have axis (c : Fin 64) : t.grpAxis c grp = s.grpAxis c grp := by simp only [State.grpAxis, State.planRole, State.planGroup, plan]; rfl
  have len (c : Fin 64) : t.grpLen c grp = s.grpLen c grp := by simp only [State.grpLen, State.planLen, axis, plan]
  have member (c : Fin 64) : t.member c grp = s.member c grp := funext fun q => by simp only [State.member, members]
  have chips (c : Fin 64) : t.grpChips c grp = s.grpChips c grp := by
    simp only [State.grpChips, State.grpValid, State.flag, State.fld, group, axis, len, member]; rfl
  simp only [State.fenceHeld, flights, context, ops, chips, owes, done]

theorem issued_fenceHeld (s : State) (n : Fin 128) (k : FenceKind) (scope : FenceScope) (grp : Fin 4) (upTo : Nat) :
    (s.issued n 0).fenceHeld n k scope grp upTo = s.fenceHeld n k scope grp upTo := by
  have only := issued_only s n 0 noReg noByte id id
  refine fenceHeld_congr (by rw [issued_stall]; rfl) (by rw [issued_stall]; rfl) ?_ ?_ ?_ (fun r hr => only.regs r hr id) k scope grp upTo
  · rw [only.rest]
  · rw [only.rest]
  · rw [only.rest]

/-- A register that has counted events, and that nothing else has changed. -/
theorem counted_of_bump {s x t : State} {r : Reg} (before : x.rd r = s.rd r) (k : Nat) (after : t.rd r = (x.bump r k).rd r) :
    Counted s t r k := by
  rw [Counted, State.fld_congr F.COUNT after, bump_count _ _ _ (Fld.get_lt _ _), State.fld_congr F.COUNT before]

/-! ### Counter writes, waits and fences as they are issued -/

/-- The stall of an instruction that begins to wait. -/
theorem beginWait_stall {s x : State} {h : Hdr} (only : OnlyStall h.stall noReg noByte s x) {st : Stall}
    (stall : x.stall h.stall = st) (pc : st.pc = (stallOf s h).pc + 1) (w : Wait) :
    OnlyStall h.stall noReg noByte s (x.beginWait h.stall w) ∧ (x.beginWait h.stall w).stall h.stall =
      { st with wait := some w, waitPc := (stallOf s h).pc, waitSince := s.stampNow, waitCycles := 0 } := by
  have now : x.stampNow = s.stampNow := by rw [only.rest]; rfl
  refine ⟨.trans id id only (modStall_only _ _ _ _ _), ?_⟩
  rw [State.beginWait, State.stall_modStall_same, stall, now, pc, BitVec.add_sub_cancel]

/-- A counter written and a wait that is met retire at once. -/
theorem retireSync_retired {s x : State} {h : Hdr} {st : Stall} (only : OnlyStall h.stall noReg noByte s x)
    (stall : x.stall h.stall = st) : Retired s (x.retireSync h) h st noReg noByte := .of_effect only stall id id id 0 _

theorem writesCounter {s : State} {h : Hdr} (ready : Ready s h .sync) (on : GuardOn s h) (f : Stall → Stall) :
    SeqDoes s h (s.syncUnit h fun s => (s.modStall h.stall f).retireSync h) (f (Passed (stallOf s h))) := by
  rw [syncUnit_on ready on]
  refine ⟨_, rfl, retireSync_retired (.trans id id (issued_only _ _ _ _ _ id id) (modStall_only _ _ _ _ _)) ?_⟩
  rw [State.stall_modStall_same, issued_stall]
  rfl

section
variable {s : State} {h : Hdr} (ready : Ready s h .sync) (on : GuardOn s h)
include ready on

/-- A tally wait on a target that may depend on the stall's registers (R158). -/
theorem tallyWait_met (cn : CReg) {x : BitVec 32} {target : Stall → BitVec 32} (same : target (Passed (stallOf s h)) = x)
    (met : ((stallOf s h).c[cn] - x).toNat < 2 ^ 31) :
    SeqDoes s h (s.syncUnit h fun s => s.tallyWait h cn (target (s.stall h.stall))) (Passed (stallOf s h)) := by
  rw [syncUnit_on ready on, issued_stall, show target (Passed (s.stall h.stall)) = x from same]
  have reached : tallyMet ((s.issued h.stall 0).stall h.stall).c[cn] x = true := by
    rw [issued_stall]; exact decide_eq_true met
  rw [State.tallyWait, if_pos reached]
  exact ⟨_, rfl, retireSync_retired (issued_only _ _ _ _ _ id id) (issued_stall ..)⟩

theorem tallyWait_waits (cn : CReg) {x : BitVec 32} {target : Stall → BitVec 32} (same : target (Passed (stallOf s h)) = x)
    (unmet : ¬ ((stallOf s h).c[cn] - x).toNat < 2 ^ 31) :
    Leaves (s.syncUnit h fun s => s.tallyWait h cn (target (s.stall h.stall))) fun t => OnlyStall h.stall noReg noByte s t ∧
      t.stall h.stall = { Passed (stallOf s h) with
        wait := some (.tally h cn x), waitPc := (stallOf s h).pc, waitSince := s.stampNow, waitCycles := 0 } := by
  rw [syncUnit_on ready on, issued_stall, show target (Passed (s.stall h.stall)) = x from same]
  have short : ¬ tallyMet ((s.issued h.stall 0).stall h.stall).c[cn] x = true := by
    rw [issued_stall]; exact fun e => unmet (of_decide_eq_true e)
  rw [State.tallyWait, if_neg short]
  exact ⟨_, rfl, beginWait_stall (issued_only _ _ _ _ _ id id) (issued_stall ..) rfl _⟩

theorem fence_waits {k : FenceKind} {scope : FenceScope} {grp : Fin 4} (held : s.fenceHeld h.stall k scope grp (stallOf s h).nextSeq = true) :
    Leaves (s.fence h k scope grp) fun t => OnlyStall h.stall noReg noByte s t ∧
      t.stall h.stall = { Passed (stallOf s h) with
        wait := some (.fence h k scope grp (stallOf s h).nextSeq), waitPc := (stallOf s h).pc, waitSince := s.stampNow, waitCycles := 0 } := by
  have upTo : ((s.issued h.stall 0).stall h.stall).nextSeq = (stallOf s h).nextSeq := by rw [issued_stall]; rfl
  rw [State.fence, syncUnit_on ready on]
  simp only [upTo, issued_fenceHeld, held, if_true]
  exact ⟨_, rfl, beginWait_stall (issued_only _ _ _ _ _ id id) (issued_stall ..) rfl _⟩

theorem fence_retires {k : FenceKind} {scope : FenceScope} {grp : Fin 4}
    (free : s.fenceHeld h.stall k scope grp (stallOf s h).nextSeq = false) :
    Leaves (s.fence h k scope grp) fun t =>
      Retired s t h (Passed (stallOf s h)) (fun r => r = .stlSyncFences h.stall) noByte ∧ Counted s t (.stlSyncFences h.stall) 1 := by
  have upTo : ((s.issued h.stall 0).stall h.stall).nextSeq = (stallOf s h).nextSeq := by rw [issued_stall]; rfl
  rw [State.fence, syncUnit_on ready on]
  simp only [upTo, issued_fenceHeld, free, Bool.false_eq_true, if_false]
  have only : OnlyStall h.stall (fun r => r = .stlSyncFences h.stall) noByte s ((s.issued h.stall 0).bump (.stlSyncFences h.stall) 1) :=
    .trans (by simp) (by simp) (issued_only _ _ _ _ _ (by simp) (by simp))
      (bump_only _ _ _ _ 1 rfl (by simp) (by simp) (by simp) (by simp) (by simp))
  have stall : ((s.issued h.stall 0).bump (.stlSyncFences h.stall) 1).stall h.stall = Passed (stallOf s h) := by
    rw [State.stall, State.bump_stalls]; exact issued_stall ..
  have retired : Retired s (((s.issued h.stall 0).bump (.stlSyncFences h.stall) 1).retireSync h) h (Passed (stallOf s h))
      (fun r => r = .stlSyncFences h.stall) noByte := .of_effect only stall (by simp) (by simp) (by simp) 0 _
  have running : ((((s.issued h.stall 0).bump (.stlSyncFences h.stall) 1).retireSync h).stall h.stall).halting = none := by
    rw [retired.stall]
    exact (show _ = (stallOf s h).halting by unfold Stall.tally; split <;> rfl).trans (canIssue_halting ready)
  rw [State.fenceDone, finishHalt_none running]
  refine ⟨_, rfl, retired, ?_⟩
  refine counted_of_bump ((issued_only s h.stall 0 noReg noByte id id).regs _ rfl id) 1 ?_
  exact (retire_only _ h.stall 0 h.ten h.tc _ .ok (fun r => r = .stlSeqRetired h.stall) noByte rfl (by simp) (by simp)).regs
    (.stlSyncFences h.stall) rfl (by simp)

/-- `ewait` counts its arrival, and waits for the generation of that arrival (R167). -/
theorem ewait_waits (evt : Fin 64) : Leaves (exec (.ewait h evt) s) fun t => OnlyStall h.stall noReg noByte s t ∧
    t.stall h.stall = { Passed (stallOf s h) with
      arrivals := AMap.set evt (AMap.get 0 evt (stallOf s h).arrivals + 1) (stallOf s h).arrivals,
      wait := some (.barrier h evt (AMap.get 0 evt (stallOf s h).arrivals + 1)), waitPc := (stallOf s h).pc,
      waitSince := s.stampNow, waitCycles := 0 } := by
  change Leaves (execEwait h evt s) _
  have arrived : (s.issued h.stall 0).arrived h.stall evt = AMap.get 0 evt (stallOf s h).arrivals := by
    rw [State.arrived, issued_stall]; rfl
  rw [execEwait, syncUnit_on ready on, arrived]
  have stall : ((s.issued h.stall 0).modStall h.stall fun t =>
      { t with arrivals := AMap.set evt (AMap.get 0 evt (stallOf s h).arrivals + 1) t.arrivals }).stall h.stall =
      { Passed (stallOf s h) with
        arrivals := AMap.set evt (AMap.get 0 evt (stallOf s h).arrivals + 1) (stallOf s h).arrivals } := by
    rw [State.stall_modStall_same, issued_stall]
    rfl
  obtain ⟨only, waits⟩ := beginWait_stall (.trans id id (issued_only s _ 0 _ _ id id) (modStall_only _ _ _ _ _)) stall rfl
    (.barrier h evt (AMap.get 0 evt (stallOf s h).arrivals + 1))
  exact ⟨_, rfl, only, waits⟩

end

/-! ### The ends of waits -/

/-- The end of a wait, where no `halt` is pending: the instruction that waited retires, and nothing else has changed since `s`. -/
theorem endWait_ends {s x : State} {n : Fin 128} {R : Reg → Prop} (h : Hdr) (only : OnlyStall n R noByte s x)
    (stall : x.stall n = s.stall n) (count : ¬ R (.stlSeqRetired n)) (ctrl : ¬ R .dbgTraceCtrl) (spill : ¬ R .dbgTraceSpill)
    (halting : (s.stall n).halting = none) :
    (x.endWait n h).stall n = { { s.stall n with wait := none, waitCycles := 0 }.tally h.ten h.tc with lastRetire := s.frankNs } ∧
      Counted s (x.endWait n h) (.stlSeqRetired n) 1 ∧ OnlyStall n (fun r => r = .stlSeqRetired n ∨ R r) noByte s (x.endWait n h) := by
  have run := endRun_traced x n
  have retired := Retired.of_effect (h := { h with stall := n })
    (.trans ctrl spill (.trans ctrl spill only (run.only n R noByte))
      (modStall_only _ n R noByte fun t => { t with wait := none, waitCycles := 0 }))
    (by rw [State.stall_modStall_same, run.stall, stall]) count ctrl spill 0 (x.stall n).waitPc
  have stays : (((x.endRun n).modStall n fun t => { t with wait := none, waitCycles := 0 }).retire n 0 h.ten h.tc
      (x.stall n).waitPc).stall n = { { s.stall n with wait := none, waitCycles := 0 }.tally h.ten h.tc with lastRetire := s.frankNs } :=
    retired.stall
  have none_halting : ((((x.endRun n).modStall n fun t => { t with wait := none, waitCycles := 0 }).retire n 0 h.ten h.tc
      (x.stall n).waitPc).stall n).halting = none := by
    rw [stays]
    exact (show _ = (s.stall n).halting by unfold Stall.tally; split <;> rfl).trans halting
  rw [State.endWait, finishHalt_none none_halting]
  exact ⟨stays, retired.count, retired.frame⟩

theorem endFence_ends {s : State} {n : Fin 128} (h : Hdr) (halting : (s.stall n).halting = none) :
    (s.endFence n h).stall n = { { s.stall n with wait := none, waitCycles := 0 }.tally h.ten h.tc with lastRetire := s.frankNs } ∧
      Counted s (s.endFence n h) (.stlSeqRetired n) 1 ∧
      OnlyStall n (fun r => r = .stlSeqRetired n ∨ r = .stlSyncFences n) noByte s (s.endFence n h) :=
  endWait_ends h (bump_only s n _ noByte 1 rfl (by simp) (by simp) (by simp) (by simp) (by simp))
    (by rw [State.stall, State.bump_stalls]; rfl) (by simp) (by simp) (by simp) halting

section
variable {s : State} {n : Fin 128} (up : s.dieUp = true) (running : (s.stall n).running = true) (yard : s.yardRuns (yardOf n) = true)
include up running yard

theorem exec_tallyWaitSatisfied {h : Hdr} {cn : CReg} {target : BitVec 32} (wait : (s.stall n).wait = some (.tally h cn target)) :
    exec (.tallyWaitSatisfied n) s = .next (if tallyMet (s.stall n).c[cn] target then s.endWait n h else s) := by
  change execTallyWaitSatisfied n s = _
  simp [execTallyWaitSatisfied, up, running, yard, wait]

theorem exec_fenceRetire {h : Hdr} {k : FenceKind} {scope : FenceScope} {grp : Fin 4} {u : Nat}
    (wait : (s.stall n).wait = some (.fence h k scope grp u)) :
    exec (.fenceRetire n) s = .next (if s.fenceHeld n k scope grp u then s else s.endFence n h) := by
  change execFenceRetire n s = _
  simp [execFenceRetire, up, running, yard, wait]

end

/-! ### The end of a barrier's generation (R167) -/

theorem exec_barrierGenerationComplete {s : State} {n : Fin 128} {h : Hdr} {evt : Fin 64} {g : Nat} (up : s.dieUp = true)
    (yard : s.yardRuns (yardOf n) = true) (wait : (s.stall n).wait = some (.barrier h evt g)) :
    exec (.barrierGenerationComplete n) s = .next (if (s.barrierTeam n evt).all fun m => decide (g ≤ s.arrived m evt)
      then (s.barrierTeam n evt).foldl (fun s m => s.endBarrier evt g m) s else s) := by
  change execBarrierGenerationComplete n s = _
  simp [execBarrierGenerationComplete, up, yard, wait]

/-- A stall's wait at a barrier ends with generation `g`. -/
def BarrierEnds (s : State) (evt : Fin 64) (g : Nat) (m : Fin 128) : Prop :=
  (s.stall m).running = true ∧ ∃ h k, (s.stall m).wait = some (.barrier h evt k) ∧ k ≤ g

/-- From `s` to `t` waits at a barrier have ended in the stalls that `P` names, and beside these only their counters and what the trace
unit changes have changed. -/
structure WaitsEnd (P : Fin 128 → Prop) (s t : State) : Prop where
  stalls : ∀ m, ¬ P m → t.stall m = s.stall m
  regs : OnlyRegs (fun r => ∃ m, P m ∧ (r = .stlSeqRetired m ∨ r = .stlSyncArrivals m)) s t
  mem : ∀ a, ¬ inRing s a → Memory.read t.mem a = Memory.read s.mem a
  top : ringTop t ≤ ringTop s
  now : t.frankNs = s.frankNs

theorem WaitsEnd.refl (P : Fin 128 → Prop) (s : State) : WaitsEnd P s s :=
  ⟨fun _ _ => rfl, fun _ _ _ => rfl, fun _ _ => rfl, Nat.le_refl _, rfl⟩

theorem WaitsEnd.trans {P : Fin 128 → Prop} {s t u : State} (h : WaitsEnd P s t) (k : WaitsEnd P t u) : WaitsEnd P s u where
  stalls m hm := (k.stalls m hm).trans (h.stalls m hm)
  regs r hr hn := (k.regs r hr hn).trans (h.regs r hr hn)
  mem a ha := by
    have ctrl := State.flag_congr (s := s) (t := t) F.dbgTraceCtrl_SPILL (h.regs .dbgTraceCtrl rfl (by simp))
    have spill := State.fld_congr (s := s) (t := t) F.dbgTraceSpill_BASE (h.regs .dbgTraceSpill rfl (by simp))
    have top := h.top
    refine (k.mem a fun ⟨on, lo, hi⟩ => ha ⟨ctrl ▸ on, spill ▸ lo, ?_⟩).trans (h.mem a ha)
    rw [spill] at hi
    omega
  top := Nat.le_trans k.top h.top
  now := k.now.trans h.now

theorem WaitsEnd.mono {P Q : Fin 128 → Prop} {s t : State} (h : WaitsEnd P s t) (within : ∀ m, P m → Q m) : WaitsEnd Q s t where
  stalls m hm := h.stalls m fun p => hm (within m p)
  regs r hr hn := h.regs r hr fun ⟨m, p, e⟩ => hn ⟨m, within m p, e⟩
  mem := h.mem
  top := h.top
  now := h.now

/-- The counters of one stall are another's. -/
theorem WaitsEnd.count {P : Fin 128 → Prop} {s t : State} (h : WaitsEnd P s t) {m : Fin 128} (other : ¬ P m) :
    t.rd (.stlSeqRetired m) = s.rd (.stlSeqRetired m) ∧ t.rd (.stlSyncArrivals m) = s.rd (.stlSyncArrivals m) := by
  constructor <;> refine h.regs _ rfl fun ⟨q, p, e⟩ => other ?_ <;> rcases e with e | e <;> cases e <;> exact p

/-- What the end of its wait has made of a participant. -/
def BarrierEnded (s t : State) (h : Hdr) (m : Fin 128) : Prop :=
  t.stall m = { { s.stall m with wait := none, waitCycles := 0 }.tally h.ten h.tc with lastRetire := s.frankNs } ∧
    Counted s t (.stlSeqRetired m) 1 ∧ Counted s t (.stlSyncArrivals m) 1

/-- One participant's wait: it ends, or nothing changes. -/
theorem endBarrier_ends {s : State} {evt : Fin 64} {g : Nat} {m : Fin 128} (halting : (s.stall m).halting = none) :
    WaitsEnd (fun q => q = m ∧ BarrierEnds s evt g m) s (s.endBarrier evt g m) ∧
      ∀ h k, (s.stall m).running = true → (s.stall m).wait = some (.barrier h evt k) → k ≤ g →
        BarrierEnded s (s.endBarrier evt g m) h m := by
  have runs : ∀ h k, (s.stall m).running = true → (s.stall m).wait = some (.barrier h evt k) → k ≤ g →
      s.endBarrier evt g m = (s.bump (.stlSyncArrivals m) 1).endWait m h := by
    intro h k running wait le
    simp [State.endBarrier, wait, running, le]
  by_cases ends : BarrierEnds s evt g m
  · obtain ⟨running, h, k, wait, le⟩ := id ends
    have arrival : OnlyStall m (fun r => r = .stlSyncArrivals m) noByte s (s.bump (.stlSyncArrivals m) 1) :=
      bump_only s m _ noByte 1 rfl (by simp) (by simp) (by simp) (by simp) (by simp)
    obtain ⟨stall, counted, only⟩ := endWait_ends h arrival (by rw [State.stall, State.bump_stalls]; rfl) (by simp) (by simp) (by simp)
      halting
    rw [runs h k running wait le]
    refine ⟨⟨fun q hq => only.stalls q fun e => hq ⟨e, ends⟩, fun r hr hn => only.regs r hr fun e => hn ⟨m, ⟨rfl, ends⟩, e⟩,
      fun a ha => only.mem a ha id, only.top, by rw [only.rest]; rfl⟩, fun h' k' _ wait' _ => ?_⟩
    obtain ⟨rfl, -, -⟩ := Wait.barrier.inj (Option.some.inj (wait.symm.trans wait'))
    have started : ((s.bump (.stlSyncArrivals m) 1).stall m) = s.stall m := by rw [State.stall, State.bump_stalls]; rfl
    have rest := (endWait_ends h (.refl m noReg noByte (s.bump (.stlSyncArrivals m) 1)) rfl id id id (by rw [started]; exact halting)).2.2
    exact ⟨stall, counted, counted_of_bump rfl 1 (rest.regs _ rfl (by simp [noReg]))⟩
  · have stays : s.endBarrier evt g m = s := by
      unfold State.endBarrier
      split
      · next h e k wait =>
        refine if_neg fun c => ends ?_
        simp only [Bool.and_eq_true, decide_eq_true_eq] at c
        obtain ⟨⟨rfl, le⟩, running⟩ := c
        exact ⟨running, h, k, wait, le⟩
      · rfl
    rw [stays]
    exact ⟨.refl _ s, fun h k running wait le => absurd ⟨running, h, k, wait, le⟩ ends⟩

/-- The waits of a list of stalls, each once. -/
theorem foldl_endBarrier (evt : Fin 64) (g : Nat) (ms : List (Fin 128)) (s : State) (once : ms.Nodup)
    (halting : ∀ m ∈ ms, (s.stall m).halting = none) :
    WaitsEnd (fun m => m ∈ ms ∧ BarrierEnds s evt g m) s (ms.foldl (fun s m => s.endBarrier evt g m) s) ∧
      ∀ m h k, m ∈ ms → (s.stall m).running = true → (s.stall m).wait = some (.barrier h evt k) → k ≤ g →
        BarrierEnded s (ms.foldl (fun s m => s.endBarrier evt g m) s) h m := by
  induction ms generalizing s with
  | nil => exact ⟨.refl _ s, by simp⟩
  | cons m ms ih =>
    obtain ⟨out, once⟩ := List.nodup_cons.mp once
    obtain ⟨first, ended⟩ := endBarrier_ends (evt := evt) (g := g) (halting m List.mem_cons_self)
    have others : ∀ q, q ≠ m → (s.endBarrier evt g m).stall q = s.stall q := fun q ne => first.stalls q fun e => ne e.1
    have apart : ∀ q ∈ ms, q ≠ m := fun q hq e => out (e ▸ hq)
    obtain ⟨rest, restEnded⟩ := ih (s.endBarrier evt g m) once fun q hq => by
      rw [others q (apart q hq)]; exact halting q (List.mem_cons_of_mem _ hq)
    rw [List.foldl_cons]
    generalize s.endBarrier evt g m = x at *
    refine ⟨(first.mono fun q hq => ⟨List.mem_cons.mpr (.inl hq.1), hq.1 ▸ hq.2⟩).trans (rest.mono fun q hq => ?_),
      fun q h k hq running wait le => ?_⟩
    · have ends := hq.2
      rw [BarrierEnds, others q (apart q hq.1)] at ends
      exact ⟨List.mem_cons_of_mem _ hq.1, ends⟩
    · rcases List.mem_cons.mp hq with rfl | hq
      · have kept := rest.count (fun e => out e.1)
        obtain ⟨stall, retired, arrivals⟩ := ended h k running wait le
        exact ⟨(rest.stalls q fun e => out e.1).trans stall, retired.keep kept.1, arrivals.keep kept.2⟩
      · have same := others q (apart q hq)
        obtain ⟨stall, retired, arrivals⟩ := restEnded q h k hq (by rw [same]; exact running) (by rw [same]; exact wait) le
        have before := first.count (m := q) fun e => apart q hq e.1
        refine ⟨by rw [stall, same, first.now], ?_, ?_⟩
        · rw [Counted, ← State.fld_congr F.COUNT before.1]; exact retired
        · rw [Counted, ← State.fld_congr F.COUNT before.2]; exact arrivals

/-- Settles O25: each instruction as it is issued, by whether it has to wait; and each end of a wait. -/
theorem syncUnitResultsAndWaits : Obligations.SyncUnitResultsAndWaits := by
  refine ⟨fun s h cn v sa scope grp evt ready on => ?_, fun s n h up running yard halting own => ?_⟩
  · refine ⟨writesCounter ready on _, writesCounter ready on _, tallyWait_met ready on cn (target := fun _ => v) rfl,
      tallyWait_waits ready on cn (target := fun _ => v) rfl, tallyWait_met ready on cn (target := fun t => t.s[sa].setWidth 32) ?_,
      tallyWait_waits ready on cn (target := fun t => t.s[sa].setWidth 32) ?_, ?_, ewait_waits ready on evt⟩
    · exact BitVec.eq_of_toNat_eq (by rw [BitVec.toNat_setWidth, BitVec.toNat_ofNat]; rfl)
    · exact BitVec.eq_of_toNat_eq (by rw [BitVec.toNat_setWidth, BitVec.toNat_ofNat]; rfl)
    · simp only [List.forall_mem_cons]
      exact ⟨⟨fence_waits ready on, fence_retires ready on⟩, ⟨fence_waits ready on, fence_retires ready on⟩,
        ⟨fence_waits ready on, fence_retires ready on⟩, by simp⟩
  · subst own
    refine ⟨fun cn target wait => ?_, fun k scope grp u wait => ?_, fun evt g wait => ?_⟩
    · rw [exec_tallyWaitSatisfied up running yard wait]
      refine ⟨fun met => ?_, fun unmet => by rw [unmet]; rfl⟩
      obtain ⟨stall, counted, only⟩ := endWait_ends h (.refl h.stall noReg noByte s) rfl id id id halting
      rw [met, if_pos rfl]
      exact ⟨_, rfl, stall, counted, only⟩
    · rw [exec_fenceRetire up running yard wait]
      refine ⟨fun free => ?_, fun held => by rw [held]; rfl⟩
      rw [free]
      exact ⟨_, rfl, endFence_ends h halting⟩
    · rw [exec_barrierGenerationComplete up yard wait]
      refine ⟨fun ⟨m, hm, lt⟩ => ?_, fun all once halts => ?_⟩
      · rw [if_neg]
        exact fun every => Nat.not_le.mpr lt (of_decide_eq_true (List.all_eq_true.mp every m hm))
      · rw [if_pos (List.all_eq_true.mpr fun m hm => decide_eq_true (all m hm))]
        obtain ⟨ends, ended⟩ := foldl_endBarrier evt g _ s once halts
        exact ⟨_, rfl, fun m h' k hm running wait le => ended m h' k hm running wait le,
          fun m hm => ends.stalls m hm, ends.regs, ends.mem⟩

end Sys2Proof
end

section
/-!
PROOFS of the family 05_instruction_set: addresses of the stores (R71, R130, R139, R148, R190).
-/
namespace Sys2Proof

open Machine

/-- The chip physical address at which a stall's own store begins, or its stable's. -/
def storeBase (n : Fin 128) (stable : Bool) : Nat := if stable then stableBase (stableOf n) else stallBase n

theorem storeAddr_of_lt {n : Fin 128} {stable : Bool} {off : Nat} (small : off < storeSize stable) :
    storeAddr n stable off = storeBase n stable + off := by
  cases stable <;> simp only [storeSize, Bool.false_eq_true, if_true, if_false] at small <;>
    simp only [storeAddr, storeBase, Bool.false_eq_true, if_true, if_false, Nat.mod_eq_of_lt small]

/-- The reserved region is that of the stable (R190). -/
theorem rsvdOwner_storeAddr (n : Fin 128) (stable : Bool) (off : Nat) : rsvdOwner (storeAddr n stable off) =
    if stable = true ∧ 0x1C00000 ≤ off % 0x2000000 then some (stableOf n) else none := by
  have hn := n.isLt
  have ht : (stableOf n).val < 16 := (stableOf n).isLt
  cases stable
  · have far : ¬ storeAddr n false off < 0xF00020000000 := by
      simp only [storeAddr, stallBase, Bool.false_eq_true, if_false]
      omega
    simp [rsvdOwner, isStable, far]
  · have small : off % 0x2000000 < 0x2000000 := Nat.mod_lt _ (by decide)
    simp only [storeAddr, stableBase, if_true]
    generalize off % 0x2000000 = r at small
    have home : isStable (0xF00000000000 + 0x2000000 * (stableOf n).val + r) = true := by
      simp only [isStable, Bool.and_eq_true, decide_eq_true_eq]
      omega
    have inside : (0xF00000000000 + 0x2000000 * (stableOf n).val + r - 0xF00000000000) % 0x2000000 = r := by omega
    have which : (0xF00000000000 + 0x2000000 * (stableOf n).val + r - 0xF00000000000) / 0x2000000 = (stableOf n).val := by omega
    have same : Fin.ofNat 16 (stableOf n).val = stableOf n := Fin.ext (Nat.mod_eq_of_lt ht)
    simp only [rsvdOwner, home, inside, which, same, Bool.true_and, decide_eq_true_eq, true_and]

/-- Code lies in a stall's own store: that of the program it runs (R148). -/
theorem codeOwner_storeAddr (s : State) (n : Fin 128) (stable : Bool) (off : Nat) : s.codeOwner (storeAddr n stable off) =
    if stable = false ∧ (s.stall n).running = true ∧ (s.stall n).codeBase ≤ off % 0x800000 ∧
        off % 0x800000 < (s.stall n).codeBase + (s.stall n).codeBytes then some n else none := by
  have hn := n.isLt
  have ht : (stableOf n).val < 16 := (stableOf n).isLt
  cases stable
  · have small : off % 0x800000 < 0x800000 := Nat.mod_lt _ (by decide)
    simp only [storeAddr, stallBase, Bool.false_eq_true, if_false]
    generalize off % 0x800000 = r at small
    have home : isStall (0xF00040000000 + 0x800000 * n.val + r) = true := by
      simp only [isStall, Bool.and_eq_true, decide_eq_true_eq]
      omega
    have inside : (0xF00040000000 + 0x800000 * n.val + r - 0xF00040000000) % 0x800000 = r := by omega
    have which : Fin.ofNat 128 ((0xF00040000000 + 0x800000 * n.val + r - 0xF00040000000) / 0x800000) = n := by
      refine Fin.ext ?_
      rw [Fin.val_ofNat]
      omega
    simp only [State.codeOwner, home, inside, which, if_true, true_and, Bool.and_eq_true, decide_eq_true_eq, and_assoc]
  · have near : ¬ 0xF00040000000 ≤ storeAddr n true off := by
      simp only [storeAddr, stableBase, if_true]
      omega
    simp [State.codeOwner, isStall, near]

/-- An aligned word of a store is a unit of its error protection (R191). -/
theorem unitOf_storeAddr {n : Fin 128} {stable : Bool} {off k : Nat} (aligned : off % 8 = 0) (within : k < 8) :
    unitOf (storeAddr n stable (off + k)) = storeAddr n stable off := by
  have hn := n.isLt
  have ht : (stableOf n).val < 16 := (stableOf n).isLt
  have len : unitLen (storeAddr n stable (off + k)) = 8 := by
    cases stable <;>
      simp only [unitLen, isStable, isStall, storeAddr, stallBase, stableBase, Bool.false_eq_true, if_true, if_false,
        Bool.or_eq_true, Bool.and_eq_true, decide_eq_true_eq, ite_eq_left_iff] <;> omega
  rw [unitOf, len]
  cases stable <;> simp only [storeAddr, stallBase, stableBase, Bool.false_eq_true, if_true, if_false] <;> omega

/-! ### The word of an `sld` or `sst` -/

/-- The address of the word. -/
def wordAt (h : Hdr) (stable : Bool) (x : BitVec 64) (imm : BitVec 32) : Nat := storeBase h.stall stable + smemOff stable x imm

theorem smemOff_fits (stable : Bool) (x : BitVec 64) (imm : BitVec 32) :
    smemOff stable x imm % 8 = 0 ∧ smemOff stable x imm + 8 ≤ storeSize stable := by
  unfold smemOff
  generalize (x + imm32 imm).toNat = y
  cases stable <;> simp only [storeSize, Bool.false_eq_true, if_true, if_false] <;> omega

section
variable {n : Fin 128} {stable : Bool} {x : BitVec 64} {imm : BitVec 32} {a : Nat}

theorem smemAddrs_eq : smemAddrs n stable x imm = (List.range 8).map (storeBase n stable + smemOff stable x imm + ·) := by
  refine List.map_congr_left fun k hk => ?_
  have := (smemOff_fits stable x imm).2
  rw [storeAddr_of_lt (by rw [List.mem_range] at hk; omega), Nat.add_assoc]

/-- A byte of the word, as an address of its store. -/
theorem mem_smemAddrs (h : a ∈ smemAddrs n stable x imm) : ∃ k, k < 8 ∧ a = storeAddr n stable (smemOff stable x imm + k) := by
  obtain ⟨k, hk, rfl⟩ := List.mem_map.mp h
  exact ⟨k, List.mem_range.mp hk, rfl⟩

theorem smemAddrs_backed (h : a ∈ smemAddrs n stable x imm) : backed a = true := by
  obtain ⟨k, -, rfl⟩ := mem_smemAddrs h
  exact backed_storeAddr ..

/-- Below the reserved region none of the word is reserved, and else all of it (R190). -/
theorem smemAddrs_open (h : a ∈ smemAddrs n stable x imm) (below : stable = true → smemOff stable x imm < 0x1C00000) :
    rsvdOwner a = none := by
  obtain ⟨k, hk, rfl⟩ := mem_smemAddrs h
  have ⟨aligned, fits⟩ := smemOff_fits stable x imm
  refine (rsvdOwner_storeAddr ..).trans (if_neg fun ⟨own, high⟩ => ?_)
  have := below own
  simp only [own, storeSize, if_true] at *
  omega

theorem smemAddrs_reserved (h : a ∈ smemAddrs n true x imm) (high : 0x1C00000 ≤ smemOff true x imm) :
    rsvdOwner a = some (stableOf n) := by
  obtain ⟨k, hk, rfl⟩ := mem_smemAddrs h
  have ⟨_, fits⟩ := smemOff_fits true x imm
  simp only [storeSize, if_true] at fits
  exact (rsvdOwner_storeAddr ..).trans (if_pos ⟨rfl, by omega⟩)

end

end Sys2Proof
end

section
/-!
PROOFS of the family 05_instruction_set: `sld` and `sst` (R130, R148, R190, R191).
-/
namespace Sys2Proof

open Machine

/-! ### Reads where no error waits to be found -/

/-- No unit holds an error that has not been found yet, and no write is under way; some may be poisoned. -/
def Found (s : State) : Prop := s.latentUe = [] ∧ s.latentCe = [] ∧ Still s

theorem Clean.found {s : State} (h : Clean s) : Found s := ⟨h.1, h.2.1, h.2.2.2⟩

theorem Found.of_eq {s t : State} (h : Found s) (ue : t.latentUe = s.latentUe) (ce : t.latentCe = s.latentCe)
    (r : t.racing = s.racing) (w : t.sourceWords = s.sourceWords) : Found t :=
  ⟨ue.trans h.1, ce.trans h.2.1, r.trans h.2.2.1, w.trans h.2.2.2⟩

theorem Traced.found {s t : State} (h : Traced s t) (k : Found s) : Found t :=
  k.of_eq (by rw [h.rest]) (by rw [h.rest]) (by rw [h.rest]) (by rw [h.rest])

theorem RegFrame.found {R : Reg → Prop} {s t : State} (h : RegFrame R s t) (k : Found s) : Found t :=
  k.of_eq (by rw [h.rest]) (by rw [h.rest]) (by rw [h.rest]) (by rw [h.rest])

theorem noteReads_found {s : State} (h : Found s) (as : List Nat) : Found (s.noteReads as) := by
  unfold State.noteReads
  split
  · split
    · exact h
    · exact h.of_eq rfl rfl rfl rfl
  · exact h

theorem noteReads_poison (s : State) (as : List Nat) : (s.noteReads as).poison = s.poison := by
  unfold State.noteReads
  split
  · split <;> rfl
  · rfl

theorem issued_found {s : State} (h : Found s) (n : Fin 128) (k : Fin 4) : Found (s.issued n k) := by
  have traced := emit_traced s 1 (s.stall n).context (s.stall n).pc.toNat (s.codeWord n) (stallUnit_ne n k)
  exact (traced.found h).of_eq rfl rfl rfl rfl

theorem issued_poison (s : State) (n : Fin 128) (k : Fin 4) : (s.issued n k).poison = s.poison := by
  rw [(issued_only s n k noReg noByte id id).rest]

/-- A read changes the trace and its counts, beside what it notes of the instruction that reads. -/
theorem readMem_noted {s : State} (found : Found s) (as : List Nat) : Traced (s.noteReads as) (s.readMem as).1 := by
  have ⟨ue, ce, _⟩ := noteReads_found found as
  simp only [State.readMem, nextAccess_still found.2.2, State.racesRead, racesPerform_none found.2.2.1]
  refine Traced.trans (Traced.trans ?_ (aonAdd_traced _ _ _ rfl)) (aonAdd_traced _ _ _ rfl)
  refine foldl_traced_of_no_latent _ (fun t u ue ce => ?_) _ ue ce
  have asked := request_traced t false u
  rw [touch_of_no_latent (by rw [asked.rest]; exact ue) (by rw [asked.rest]; exact ce)]
  exact asked

/-- A read by a program changes nothing but that, and finds what memory holds then. -/
theorem readGuarded_finds {s : State} (found : Found s) (as : List Nat) (n : Fin 128) :
    let t := (s.readGuarded as).1
    OnlyStall n noReg noByte s t ∧ t.stall n = s.stall n ∧ t.consigns = s.consigns ∧ (s.readGuarded as).2 = as.map fun a =>
      if (rsvdOwner a).isSome || !backed a then (0, false) else (Memory.read t.mem a, decide (unitOf a ∈ s.poison)) := by
  intro t
  have traced := readMem_noted found (as.filter fun a => (rsvdOwner a).isNone)
  have only : OnlyStall n noReg noByte s t := .trans id id (noteReads_only ..) (traced.only ..)
  have still : Still t := (traced.found (noteReads_found found _)).2.2
  have poison : t.poison = s.poison := by
    rw [show t.poison = (s.noteReads _).poison by rw [show t = (s.readMem _).1 from rfl, traced.rest], noteReads_poison]
  have stall : t.stall n = s.stall n := by rw [State.stall, show t.stalls = s.stalls from readGuarded_stalls s as, ← State.stall]
  refine ⟨only, stall, by rw [only.rest], List.map_congr_left fun a _ => ?_⟩
  show t.peekG a = _
  unfold State.peekG
  rw [peek_still still, State.held, poison]
  cases rsvdOwner a <;> cases backed a <;> rfl

/-! ### Events of the reserved region and of code -/

theorem eraseDups_same {α : Type} [DecidableEq α] {xs : List α} {x : α} (all : ∀ y ∈ xs, y = x) (some : xs ≠ []) :
    xs.eraseDups = [x] := by
  cases xs with
  | nil => exact absurd rfl some
  | cons y ys =>
    have gone : (ys.filter fun z => !z == y) = [] := List.filter_eq_nil_iff.mpr fun z hz => by
      simp [all z (List.mem_cons_of_mem y hz), all y List.mem_cons_self]
    rw [List.eraseDups_cons, gone, all y List.mem_cons_self]
    rfl

theorem countRsvd_open {as : List Nat} (s : State) (h : ∀ a ∈ as, rsvdOwner a = none) : s.countRsvd as = s := by
  rw [State.countRsvd, List.filterMap_eq_nil_iff.mpr h]
  rfl

theorem countRsvd_one {as : List Nat} {t : Fin 16} (s : State) (h : ∀ a ∈ as, rsvdOwner a = some t) (some : as ≠ []) :
    s.countRsvd as = s.bump (.stbSramRsvd t) 1 := by
  rw [State.countRsvd, eraseDups_same (x := t) _ _]
  · rfl
  · intro y hy
    obtain ⟨a, ha, e⟩ := List.mem_filterMap.mp hy
    exact (Option.some.inj ((h a ha).symm.trans e)).symm
  · obtain ⟨a, ha⟩ := List.exists_mem_of_ne_nil as some
    exact List.ne_nil_of_mem (List.mem_filterMap.mpr ⟨a, ha, h a ha⟩)

/-! ### `sld` -/

/-- The state in which an `sld` has read its word, and what it has found. -/
def sldRead (s : State) (h : Hdr) (b : Bool) (x : BitVec 64) (imm : BitVec 32) : State × List MByte :=
  ((s.issued h.stall 0).countRsvd (smemAddrs h.stall b x imm)).readGuarded (smemAddrs h.stall b x imm)

section
variable {s : State} {h : Hdr} (ready : Ready s h .reads) (on : GuardOn s h)
include ready on

theorem exec_sld (b : Bool) (sd sa : SReg) (imm : BitVec 32) :
    let st := stallOf s h
    let p := sldRead s h b st.s[sa] imm
    exec (.sld h b sd sa imm) s =
      if p.2.any (·.2) then
        .next (p.1.faultStall h.stall 0 { stall := h.stall, pc := st.pc, status := .uncorrectable,
                                          loc := storeLoc b (smemOff b st.s[sa] imm) } 3 0)
      else .next ((p.1.modStall h.stall fun t => t.setS sd (BitVec.ofNat 64 (ofBytes (p.2.map (·.1))))).retire h.stall 0 h.ten h.tc st.pc) := by
  have go : (s.stall h.stall).guard h = true := on
  intro st p
  change execSld h b sd sa imm s = _
  simp only [execSld, if_pos (show s.canIssue h.stall .reads = true from ready), go, Bool.not_true, Bool.false_eq_true, if_false]
  rfl

/-- An `sld` that finds no poison loads the bytes that it finds. -/
theorem sld_loads {R : Reg → Prop} {b : Bool} {sd sa : SReg} {imm : BitVec 32}
    (only : OnlyStall h.stall R noByte s (sldRead s h b (stallOf s h).s[sa] imm).1)
    (stall : (sldRead s h b (stallOf s h).s[sa] imm).1.stall h.stall = Passed (stallOf s h))
    (count : ¬ R (.stlSeqRetired h.stall)) (ctrl : ¬ R .dbgTraceCtrl) (spill : ¬ R .dbgTraceSpill)
    {bs : List Byte} (found : (sldRead s h b (stallOf s h).s[sa] imm).2 = plain bs) :
    Leaves (exec (.sld h b sd sa imm) s) fun t =>
      Retired s t h { Passed (stallOf s h) with s := (stallOf s h).s.set sd (BitVec.ofNat 64 (ofBytes bs)) } R noByte ∧
        ∀ r, traceReg r = false → r ≠ .stlSeqRetired h.stall → t.rd r = (sldRead s h b (stallOf s h).s[sa] imm).1.rd r := by
  have clean : (plain bs).any (·.2) = false := by simp [plain]
  have bytes : (plain bs).map (·.1) = bs := by simp [plain, Function.comp_def]
  let u := (sldRead s h b (stallOf s h).s[sa] imm).1.modStall h.stall fun t => t.setS sd (BitVec.ofNat 64 (ofBytes bs))
  refine ⟨u.retire h.stall 0 h.ten h.tc (stallOf s h).pc, (exec_sld ready on b sd sa imm).trans ?_,
    .of_effect (.trans ctrl spill only (modStall_only ..)) ?_ count ctrl spill 0 _, fun r untraced other => ?_⟩
  · simp only [found, clean, bytes, Bool.false_eq_true, if_false]
    rfl
  · rw [State.stall_modStall_same, stall]
    rfl
  · exact (retire_only u h.stall 0 h.ten h.tc _ .ok (fun r => r = .stlSeqRetired h.stall) noByte rfl (by simp) (by simp)).regs r
      untraced other

end

theorem ofBytes_lt (bs : List Byte) : ofBytes bs < 2 ^ (8 * bs.length) := by
  induction bs with
  | nil => exact Nat.one_pos
  | cons b bs ih =>
    have := b.isLt
    rw [ofBytes, List.length_cons, Nat.mul_succ, Nat.pow_add]
    omega

theorem ofBytes_byte {bs : List Byte} {k : Nat} (h : k < bs.length) : ofBytes bs / 2 ^ (8 * k) % 2 ^ 8 = bs[k].toNat := by
  induction bs generalizing k with
  | nil => cases h
  | cons b bs ih =>
    have small := b.isLt
    cases k with
    | zero =>
      simp only [ofBytes, Nat.mul_zero, Nat.pow_zero, Nat.div_one, List.getElem_cons_zero]
      omega
    | succ k =>
      have rest : (b.toNat + 256 * ofBytes bs) / 2 ^ 8 = ofBytes bs := by omega
      rw [ofBytes, Nat.mul_succ, Nat.add_comm (8 * k), Nat.pow_add, ← Nat.div_div_eq_div_mul, rest]
      exact ih (Nat.lt_of_succ_lt_succ h)

/-- Below the reserved region an `sld` finds the bytes of its word, with its mark. -/
theorem sldRead_open {s : State} (found : Found s) {h : Hdr} {b : Bool} {x : BitVec 64} {imm : BitVec 32}
    (below : b = true → smemOff b x imm < 0x1C00000) :
    let t := (sldRead s h b x imm).1
    OnlyStall h.stall noReg noByte s t ∧ t.stall h.stall = Passed (stallOf s h) ∧ t.consigns = s.consigns ∧
      (sldRead s h b x imm).2 = (List.range 8).map fun k =>
        (Memory.read t.mem (wordAt h b x imm + k), decide (wordAt h b x imm ∈ s.poison)) := by
  intro t
  have now := issued_found found h.stall 0
  have unreserved : (s.issued h.stall 0).countRsvd (smemAddrs h.stall b x imm) = s.issued h.stall 0 :=
    countRsvd_open _ fun a ha => smemAddrs_open ha below
  have issued := issued_only s h.stall 0 noReg noByte id id
  have read := readGuarded_finds now (smemAddrs h.stall b x imm) h.stall
  have split : sldRead s h b x imm = (s.issued h.stall 0).readGuarded (smemAddrs h.stall b x imm) := by rw [sldRead, unreserved]
  rw [← split, issued_poison] at read
  obtain ⟨only, stall, consigns, bytes⟩ := read
  refine ⟨.trans id id issued only, stall.trans (issued_stall ..), consigns.trans (by rw [issued.rest]), bytes.trans ?_⟩
  rw [smemAddrs, storeRange, List.map_map]
  refine List.map_congr_left fun k hk => ?_
  have ⟨aligned, fits⟩ := smemOff_fits b x imm
  have within := List.mem_range.mp hk
  have here : storeAddr h.stall b (smemOff b x imm + k) = wordAt h b x imm + k := by
    rw [storeAddr_of_lt (by omega), wordAt, Nat.add_assoc]
  have open' := smemAddrs_open (n := h.stall) (x := x) (imm := imm) (List.mem_map_of_mem hk) below
  have unit : unitOf (storeAddr h.stall b (smemOff b x imm + k)) = wordAt h b x imm := by
    rw [unitOf_storeAddr aligned within, storeAddr_of_lt (by omega)]
    rfl
  have memory := backed_storeAddr h.stall b (smemOff b x imm + k)
  rw [here] at open' unit memory
  simp only [Function.comp, here, open', unit, memory, Option.isSome_none, Bool.not_true, Bool.or_self, Bool.false_eq_true, if_false]
  rfl

/-- In the reserved region it finds zeros, and counts once (R190). -/
theorem sldRead_reserved {s : State} (found : Found s) {h : Hdr} {x : BitVec 64} {imm : BitVec 32}
    (high : 0x1C00000 ≤ smemOff true x imm) :
    let t := (sldRead s h true x imm).1
    OnlyStall h.stall (fun r => r = .stbSramRsvd (stableOf h.stall)) noByte s t ∧ t.stall h.stall = Passed (stallOf s h) ∧
      Counted s t (.stbSramRsvd (stableOf h.stall)) 1 ∧ (sldRead s h true x imm).2 = plain (List.replicate 8 0) := by
  intro t
  have now := issued_found found h.stall 0
  have issued := issued_only s h.stall 0 (fun r => r = .stbSramRsvd (stableOf h.stall)) noByte (by simp) (by simp)
  have once : (s.issued h.stall 0).countRsvd (smemAddrs h.stall true x imm) =
      (s.issued h.stall 0).bump (.stbSramRsvd (stableOf h.stall)) 1 :=
    countRsvd_one _ (fun a ha => smemAddrs_reserved ha high) (List.ne_nil_of_mem (List.mem_map_of_mem (List.mem_range.mpr (show 0 < 8 by decide))))
  have frame := bump_frame (s.issued h.stall 0) (.stbSramRsvd (stableOf h.stall)) 1
  have bumped := bump_only (s.issued h.stall 0) h.stall (fun r => r = .stbSramRsvd (stableOf h.stall)) noByte 1 rfl (by simp) (by simp)
    (by simp) (by simp) (by simp)
  have read := readGuarded_finds (frame.found now) (smemAddrs h.stall true x imm) h.stall
  have split : sldRead s h true x imm = ((s.issued h.stall 0).bump (.stbSramRsvd (stableOf h.stall)) 1).readGuarded
      (smemAddrs h.stall true x imm) := by rw [sldRead, once]
  rw [← split] at read
  obtain ⟨only, stall, -, bytes⟩ := read
  refine ⟨.trans (by simp) (by simp) (.trans (by simp) (by simp) issued bumped) (only.mono (fun _ => False.elim) fun _ => id), ?_, ?_,
    bytes.trans ?_⟩
  · rw [stall, State.stall, State.bump_stalls]
    exact issued_stall ..
  · refine counted_of_bump (x := s.issued h.stall 0) ?_ 1 (only.regs _ rfl id)
    exact (issued_only s h.stall 0 noReg noByte id id).regs _ rfl id
  · refine (List.map_congr_left fun a ha => if_pos ?_).trans (List.map_const' ..)
    simp [smemAddrs_reserved ha high]

end Sys2Proof
end

section
/-!
PROOFS of the family 05_instruction_set: consignments as they are found by their numbers, and the outcome of a fault (R311, R313).
-/
namespace Sys2Proof

open Machine

/-! ### Consignments by number -/

theorem AMap.find?_set_same {α β : Type} [DecidableEq α] (k : α) (v : β) (m : AMap α β) :
    (AMap.set k v m).find? (fun e => e.1 = k) = some (k, v) := by
  induction m with
  | nil => simp [AMap.set]
  | cons e m ih =>
    obtain ⟨k', v'⟩ := e
    unfold AMap.set
    split
    · simp
    · next other => rw [List.find?_cons_of_neg (by simpa using other), ih]

theorem AMap.find?_set_other {α β : Type} [DecidableEq α] {k k' : α} (v : β) (m : AMap α β) (h : k' ≠ k) :
    (AMap.set k v m).find? (fun e => e.1 = k') = m.find? fun e => e.1 = k' := by
  induction m with
  | nil => simp [AMap.set, Ne.symm h]
  | cons e m ih =>
    obtain ⟨k2, v2⟩ := e
    unfold AMap.set
    split
    · next same =>
      subst same
      rw [List.find?_cons_of_neg (by simpa using Ne.symm h), List.find?_cons_of_neg (by simpa using Ne.symm h)]
    · by_cases hit : k2 = k'
      · rw [List.find?_cons_of_pos (by simpa using hit), List.find?_cons_of_pos (by simpa using hit)]
      · rw [List.find?_cons_of_neg (by simpa using hit), List.find?_cons_of_neg (by simpa using hit), ih]

theorem AMap.mem_set {α β : Type} [DecidableEq α] {k : α} {v : β} {m : AMap α β} {e : α × β} (h : e ∈ AMap.set k v m) :
    e = (k, v) ∨ e ∈ m := by
  induction m with
  | nil => exact .inl (List.mem_singleton.mp h)
  | cons x m ih =>
    obtain ⟨k', v'⟩ := x
    unfold AMap.set at h
    split at h
    · exact (List.mem_cons.mp h).imp_right (List.mem_cons_of_mem _)
    · rcases List.mem_cons.mp h with rfl | h
      · exact .inr List.mem_cons_self
      · exact (ih h).imp_right (List.mem_cons_of_mem _)

theorem consignAt_congr {s t : State} (h : t.consigns = s.consigns) (id : Nat) : consignAt t id = consignAt s id := by
  rw [consignAt, h, ← consignAt]

theorem consignAt_eq {s : State} {id : Nat} {c : Consign} (h : consignAt s id = some c) :
    (s.consigns.find? fun e => e.1 = id) = some (id, c) := by
  obtain ⟨e, found, rfl⟩ := Option.map_eq_some_iff.mp h
  have key := List.find?_some found
  simp only [decide_eq_true_eq] at key
  rw [found, ← key]

@[simp] theorem consignAt_setConsign (s : State) (id : Nat) (c : Consign) : consignAt (s.setConsign id c) id = some c := by
  rw [consignAt, State.setConsign, AMap.find?_set_same]
  rfl

theorem consignAt_setConsign_other (s : State) {id id' : Nat} (c : Consign) (h : id' ≠ id) :
    consignAt (s.setConsign id c) id' = consignAt s id' := by
  rw [consignAt, State.setConsign, AMap.find?_set_other _ _ h, ← consignAt]

theorem aonAdd_consigns (s : State) (i k : Nat) : (s.aonAdd i k).consigns = s.consigns := by rw [aonAdd_eq]

theorem finalise_consigns (s : State) (id : Nat) (c : Consign) : (s.finalise id c).consigns =
    (s.setConsign id { c with phase := .final, frankEnd := c.retiredAt.getD s.frankNs }).consigns := by
  unfold State.finalise
  dsimp only
  split
  · rw [aonAdd_consigns, aonAdd_consigns]
  · rw [aonAdd_consigns]

/-- Returning waiting consignments leaves those as they are whose number no waiting one has. -/
theorem consignAt_returnWaiting {s : State} {id : Nat} (started : ∀ x, (id, x) ∈ s.consigns → x.phase ≠ .waiting) (p : Consign → Bool)
    (cause : Nat) : consignAt (s.returnWaiting p cause) id = consignAt s id := by
  have each : ∀ (es : List (Nat × Consign)) (t : State), (∀ x, (id, x) ∈ es → x.phase ≠ .waiting) →
      consignAt (es.foldl (fun s e => if e.2.phase == .waiting && p e.2 then s.returnUnstarted e.1 e.2 cause else s) t) id =
        consignAt t id := by
    intro es
    induction es with
    | nil => exact fun _ _ => rfl
    | cons e es ih =>
      intro t started
      rw [List.foldl_cons, ih _ fun x hx => started x (List.mem_cons_of_mem e hx)]
      split
      · next waits =>
        have other : id ≠ e.1 := fun same => by
          simp only [Bool.and_eq_true, beq_iff_eq] at waits
          exact started e.2 (by rw [same]; exact List.mem_cons_self) waits.1
        rw [State.returnUnstarted, consignAt_congr (finalise_consigns ..), consignAt_setConsign_other _ _ other]
      · rfl
  exact each s.consigns s started

theorem consignAt_stopQueue {s : State} {id : Nat} (started : ∀ x, (id, x) ∈ s.consigns → x.phase ≠ .waiting) (q : Fin 256) :
    consignAt (s.stopQueue q) id = consignAt s id := by
  unfold State.stopQueue
  split
  · have kept : (s.setFld (.hstQpStatus q) F.hstQpStatus_STOPPED 1).consigns = s.consigns := by rw [(setFld_frame ..).rest]
    rw [consignAt_returnWaiting (by rw [kept]; exact started), consignAt_congr kept]
  · rfl

/-! ### A fault -/

theorem stopStall_consigns (s : State) (n : Fin 128) : (s.stopStall n).consigns = s.consigns := by
  unfold State.stopStall
  split
  · rw [show ((s.endRun n).modStall n _).consigns = (s.endRun n).consigns from rfl, (endRun_traced s n).rest]
  · rfl

theorem stopStall_stall (s : State) (n : Fin 128) : (s.stopStall n).stall n = { s.stall n with running := false } := by
  unfold State.stopStall
  rw [State.stall_modStall_same]
  split
  · rw [(endRun_traced s n).stall]
  · rfl

/-- A stall that has stopped stays as it is while stalls are stopped. -/
theorem stopStall_stopped {s : State} {n : Fin 128} (h : (s.stall n).running = false) (m : Fin 128) :
    (s.stopStall m).stall n = s.stall n := by
  by_cases same : n = m
  · subst same
    rw [stopStall_stall, ← h]
  · unfold State.stopStall
    rw [State.stall_modStall_other _ _ same]
    split
    · rw [(endRun_traced s m).stall]
    · rfl

theorem foldl_stopStall (ms : List (Fin 128)) (s : State) : (ms.foldl State.stopStall s).consigns = s.consigns ∧
    ∀ n, (s.stall n).running = false → (ms.foldl State.stopStall s).stall n = s.stall n := by
  induction ms generalizing s with
  | nil => exact ⟨rfl, fun _ _ => rfl⟩
  | cons m ms ih =>
    obtain ⟨consigns, stalls⟩ := ih (s.stopStall m)
    refine ⟨consigns.trans (stopStall_consigns s m), fun n h => ?_⟩
    have same := stopStall_stopped h m
    exact (stalls n (by rw [same]; exact h)).trans same

/-- The state in which a stall has stopped on a fault and has logged it. -/
def faultLogged (s : State) (n : Fin 128) (k : Fin 4) (i : FaultInfo) (cls op : Nat) : State :=
  (s.stopStall n).log (stallUnit n k) 0x0010 (s.stall n).context
    (toBytes 1 i.status.code ++ toBytes 4 i.pc.toNat ++ toBytes 1 cls ++ toBytes 1 op)

theorem faultLogged_traced (s : State) (n : Fin 128) (k : Fin 4) (i : FaultInfo) (cls op : Nat) :
    Traced (s.stopStall n) (faultLogged s n k i cls op) := log_traced _ _ _ _ (stallUnit_ne n k)

theorem faultLogged_stall (s : State) (n : Fin 128) (k : Fin 4) (i : FaultInfo) (cls op : Nat) :
    (faultLogged s n k i cls op).stall n = { s.stall n with running := false } := by
  rw [(faultLogged_traced ..).stall, stopStall_stall]

theorem faultLogged_consigns (s : State) (n : Fin 128) (k : Fin 4) (i : FaultInfo) (cls op : Nat) :
    (faultLogged s n k i cls op).consigns = s.consigns := by
  rw [(faultLogged_traced ..).rest]
  exact stopStall_consigns s n

theorem faultStall_eq (s : State) (n : Fin 128) (k : Fin 4) (i : FaultInfo) (cls op : Nat) :
    s.faultStall n k i cls op =
      match (faultLogged s n k i cls op).consigns.find? fun e => e.1 = (s.stall n).consignment with
      | none => faultLogged s n k i cls op
      | some (id, c) =>
        let best := c.ended.isNone && n ∉ c.faulted && FaultInfo.before { i with stamp := s.stampNow } c.fault
        let t := c.stalls.foldl State.stopStall ((faultLogged s n k i cls op).setConsign id
          { c with faulted := if n ∈ c.faulted then c.faulted else c.faulted ++ [n]
                   fault := if best then some { i with stamp := s.stampNow } else c.fault })
        if c.fault.isNone && c.ended.isNone then t.stopQueue c.qp else t := rfl

/-- The stall of a fault stops, and is else as it was. -/
theorem faultStall_stall (s : State) (n : Fin 128) (k : Fin 4) (i : FaultInfo) (cls op : Nat) :
    (s.faultStall n k i cls op).stall n = { s.stall n with running := false } := by
  have logged := faultLogged_stall s n k i cls op
  rw [faultStall_eq]
  split
  · exact logged
  · next id c _ =>
    dsimp only
    have stopped : ∀ c' : Consign, (c.stalls.foldl State.stopStall ((faultLogged s n k i cls op).setConsign id c')).stall n =
        { s.stall n with running := false } := fun c' => by
      have own : ((faultLogged s n k i cls op).setConsign id c').stall n = { s.stall n with running := false } := logged
      rw [(foldl_stopStall ..).2 n (by rw [own]), own]
    split
    · rw [State.stall, (stopQueue_calm ..).stalls]
      exact stopped _
    · exact stopped _

/-- The first fault of a consignment that nothing has ended is the one that it reports. -/
theorem faultStall_consign {s : State} {n : Fin 128} {c : Consign} (at' : consignAt s (s.stall n).consignment = some c)
    (started : ∀ x, ((s.stall n).consignment, x) ∈ s.consigns → x.phase ≠ .waiting) (fault : c.fault = none) (ended : c.ended = none)
    (new : n ∉ c.faulted) (k : Fin 4) (i : FaultInfo) (cls op : Nat) :
    ∃ d, consignAt (s.faultStall n k i cls op) (s.stall n).consignment = some d ∧ d.fault = some { i with stamp := s.stampNow } := by
  have logged := faultLogged_consigns s n k i cls op
  have found := consignAt_eq at'
  have waits : c.phase ≠ .waiting := started c (List.mem_of_find?_eq_some found)
  simp only [faultStall_eq, logged, found, fault, ended, Option.isNone_none, Bool.and_self, if_true]
  refine ⟨_, (consignAt_stopQueue (fun x hx => ?_) c.qp).trans
    ((consignAt_congr (foldl_stopStall ..).1 _).trans (consignAt_setConsign ..)),
    by simp [new, FaultInfo.before]⟩
  rw [(foldl_stopStall ..).1] at hx
  rcases AMap.mem_set hx with same | member
  · obtain ⟨-, rfl⟩ := Prod.mk.inj same
    exact waits
  · rw [logged] at member
    exact started x member

end Sys2Proof
end

section
/-!
PROOFS of the family 05_instruction_set: `sst`, and what `sld` and `sst` leave (R127, R130, R148, R190 to R192).
-/
namespace Sys2Proof

open Machine

/-! ### An instruction of the sequencer that accesses memory -/

/-- The state in which the effect of an instruction of the sequencer begins: the program counter has passed, and accesses are its own. -/
def seqState (s : State) (h : Hdr) : State :=
  { s.issued h.stall 0 with actor := some (.unit h.stall none 0 false), refusing := some [] }

theorem seqState_stall (s : State) (h : Hdr) : (seqState s h).stall h.stall = Passed (stallOf s h) := issued_stall ..

theorem seqState_clean {s : State} (clean : Clean s) (h : Hdr) : Clean (seqState s h) := by
  have traced := emit_traced s 1 (s.stall h.stall).context (s.stall h.stall).pc.toNat (s.codeWord h.stall) (stallUnit_ne h.stall 0)
  exact (traced.clean clean).of_eq rfl rfl rfl rfl rfl

theorem seqState_found {s : State} (found : Found s) (h : Hdr) : Found (seqState s h) :=
  (issued_found found h.stall 0).of_eq rfl rfl rfl rfl

theorem seqState_codeOwner (s : State) (h : Hdr) (a : Nat) : (seqState s h).codeOwner a = s.codeOwner a := by
  refine codeOwner_congr (fun n => ?_) a
  by_cases own : n = h.stall
  · subst own
    rw [seqState_stall]
    exact ⟨rfl, rfl, rfl⟩
  · have other : (seqState s h).stall n = s.stall n := (issued_only s h.stall 0 noReg noByte id id).stalls n own
    rw [other]
    exact ⟨rfl, rfl, rfl⟩

theorem seqState_mem {s : State} (off : s.flag .dbgTraceCtrl F.dbgTraceCtrl_SPILL = false) (h : Hdr) : (seqState s h).mem = s.mem :=
  (emit_access s 1 _ _ _ (stallUnit_ne h.stall 0)).mem off

theorem seqState_rd (s : State) (h : Hdr) {r : Reg} (untraced : traceReg r = false) : (seqState s h).rd r = s.rd r :=
  (issued_only s h.stall 0 noReg noByte id id).regs r untraced id

theorem OnlyStall.ring {n : Fin 128} {R : Reg → Prop} {W : Nat → Prop} {s t : State} (h : OnlyStall n R W s t) (ctrl : ¬ R .dbgTraceCtrl)
    (spill : ¬ R .dbgTraceSpill) {a : Nat} (k : inRing t a) : inRing s a := by
  obtain ⟨on, low, high⟩ := k
  have flag := State.flag_congr (s := s) (t := t) F.dbgTraceCtrl_SPILL (h.regs .dbgTraceCtrl rfl ctrl)
  have base := State.fld_congr (s := s) (t := t) F.dbgTraceSpill_BASE (h.regs .dbgTraceSpill rfl spill)
  rw [flag] at on
  rw [base] at low high
  exact ⟨on, low, high.trans_le (Nat.add_le_add_left h.top _)⟩

/-- The actor of an instruction goes with its effect. -/
theorem OnlyStall.acted {n : Fin 128} {R : Reg → Prop} {W : Nat → Prop} {s t : State} {x : Option Actor}
    {pages : Option (List (Fin 64 × Nat × Nat))} (k : OnlyStall n R W { s with actor := x, refusing := pages } t) :
    OnlyStall n R W s { t with actor := s.actor, refusing := s.refusing } :=
  { rest := by rw [k.rest], stalls := k.stalls, regs := k.regs, aon := k.aon, out := k.out, mem := k.mem, races := k.races, top := k.top }

theorem OnlyStall.after_seq {s t : State} {h : Hdr} {R : Reg → Prop} {W : Nat → Prop} (k : OnlyStall h.stall R W (seqState s h) t)
    (ctrl : ¬ R .dbgTraceCtrl) (spill : ¬ R .dbgTraceSpill) :
    OnlyStall h.stall R W s { t with actor := s.actor, refusing := s.refusing } := by
  have issued := issued_only s h.stall 0 R W ctrl spill
  have after := OnlyStall.acted k
  have actor : (s.issued h.stall 0).actor = s.actor := by rw [issued.rest]
  have refusing : (s.issued h.stall 0).refusing = s.refusing := by rw [issued.rest]
  rw [actor, refusing] at after
  exact .trans ctrl spill issued after

theorem sequencer_next {s : State} {h : Hdr} {u : Uses} {f : State → State} (ready : s.canIssue h.stall u = true) (on : GuardOn s h)
    (uses : u ≠ .none) : s.sequencer h u f =
      .next (State.retire { f (seqState s h) with actor := s.actor, refusing := s.refusing } h.stall 0 h.ten h.tc (stallOf s h).pc) := by
  have go : (s.stall h.stall).guard h = true := on
  have issued := issued_only s h.stall 0 noReg noByte id id
  have actor : (s.issued h.stall 0).actor = s.actor := by rw [issued.rest]
  have refusing : (s.issued h.stall 0).refusing = s.refusing := by rw [issued.rest]
  simp only [State.sequencer, if_pos ready, go, if_true, State.acting, if_neg uses, actor, refusing]
  rfl

/-- An instruction of the sequencer that may issue, with its guard on, leaves what its effect does, and retires. -/
theorem sequencer_effect {s t : State} {h : Hdr} {u : Uses} {f : State → State} {R : Reg → Prop} {W : Nat → Prop}
    (ready : s.canIssue h.stall u = true) (on : GuardOn s h) (uses : u ≠ .none) (effect : f (seqState s h) = t)
    (only : OnlyStall h.stall R W (seqState s h) t) (count : ¬ R (.stlSeqRetired h.stall)) (ctrl : ¬ R .dbgTraceCtrl)
    (spill : ¬ R .dbgTraceSpill) :
    Leaves (s.sequencer h u f) fun v => Retired s v h (t.stall h.stall) R W ∧
      (∀ a, ¬ inRing s a → Memory.read v.mem a = Memory.read t.mem a) ∧
      ∀ r, traceReg r = false → r ≠ .stlSeqRetired h.stall → v.rd r = t.rd r := by
  have after := only.after_seq ctrl spill
  have ended := retire_only { t with actor := s.actor, refusing := s.refusing } h.stall 0 h.ten h.tc (stallOf s h).pc .ok
    (fun r => r = .stlSeqRetired h.stall) noByte rfl (by simp) (by simp)
  refine ⟨_, (sequencer_next ready on uses).trans (by rw [effect]), .of_effect after rfl count ctrl spill 0 _, fun a ring => ?_,
    fun r untraced other => ended.regs r untraced other⟩
  exact ended.mem a (fun inside => ring (after.ring ctrl spill inside)) id

/-! ### `sst` -/

/-- The effect of an `sst`. -/
def sstEffect (h : Hdr) (b : Bool) (sd sa : SReg) (imm : BitVec 32) (s : State) : State :=
  (s.countRsvd (smemAddrs h.stall b (s.stall h.stall).s[sa] imm)).writeGuarded
    ((smemAddrs h.stall b (s.stall h.stall).s[sa] imm).zip (plain (toBytes 8 (s.stall h.stall).s[sd].toNat)))

theorem exec_sst (h : Hdr) (b : Bool) (sd sa : SReg) (imm : BitVec 32) (s : State) :
    exec (.sst h b sd sa imm) s = s.sequencer h .writes (sstEffect h b sd sa imm) := rfl

theorem sstEffect_seqState (s : State) (h : Hdr) (b : Bool) (sd sa : SReg) (imm : BitVec 32) :
    sstEffect h b sd sa imm (seqState s h) =
      ((seqState s h).countRsvd (smemAddrs h.stall b (stallOf s h).s[sa] imm)).writeGuarded
        (bytesOf (wordAt h b (stallOf s h).s[sa] imm) 8 (stallOf s h).s[sd].toNat) := by
  have own : ((seqState s h).stall h.stall).s = (stallOf s h).s := by rw [seqState_stall]; rfl
  rw [sstEffect, own, ← zip_toBytes, wordAt, ← smemAddrs_eq]

theorem bytesOf_addrs (addr size v : Nat) : (bytesOf addr size v).map (·.1) = (List.range size).map (addr + ·) := by
  rw [bytesOf, List.map_map]
  rfl

/-- A write that no running program's code discards counts nothing. -/
theorem writeGuarded_open {s : State} {ws : List (Nat × MByte)} (h : ∀ w ∈ ws, s.codeOwner w.1 = none) :
    s.writeGuarded ws = s.writeOpen ws := by
  rw [State.writeGuarded, List.filterMap_eq_nil_iff.mpr h]
  rfl

theorem racesHit_nil (s : State) : s.racesHit [] = s := by
  have apart : (s.underway.reads.filter fun r =>
      r.1.unordered s.actor && !s.underway.undef.contains r.1 && r.2.any (wordsOf []).contains) = [] :=
    List.filter_eq_nil_iff.mpr fun r _ => by simp [wordsOf]
  unfold State.racesHit
  split
  · rfl
  · simp only [apart]
    rfl

theorem racesWrite_nil (s : State) : s.racesWrite [] = s := by
  have kept : (s.racing.filter fun c => !([] : List Nat).contains (unitOf c.word)) = s.racing :=
    List.filter_eq_self.mpr fun c _ => rfl
  have sources : (if s.actor = some .engine then []
      else s.collOps.flatMap fun o => (wordsOf (([] : List (Nat × MByte)).filter fun x => some x.1 ∈ o.src.els ++ o.src.scales)).map
        fun w => ({ op := o.id, word := w, old := (List.range 8).map fun k => s.held (w + k) } : SourceWord)) = [] := by
    split
    · rfl
    · exact List.flatMap_eq_nil_iff.mpr fun o _ => rfl
  have none : unitsOf (([] : List (Nat × MByte)).map (·.1)) = [] := rfl
  unfold State.racesWrite
  rw [sources, none]
  simp only [List.filter_nil, List.flatMap_nil, List.nil_append, List.append_nil, kept]

theorem writeMem_nil {s : State} (still : Still s) : s.writeMem [] = s := by
  have ⟨races, sources⟩ := still
  have ready : s.writeReady [] = s := by
    rw [State.writeReady, nextAccess_still still, State.racesPass, racesPerform_none races, ite_self, racesHit_nil]
  have asked : s.writeAsked [] = s := by
    have same : ∀ p : List Nat, p.filter (· ∉ wholeUnits []) = p := fun p => List.filter_eq_self.mpr fun _ _ => rfl
    simp only [State.writeAsked, same]
    rfl
  rw [writeMem_eq]
  simp only [List.filter_nil, ready, racesWrite_nil, asked, racesKeep_still races]
  rfl

/-- A write that running programs' code and reserved regions discard whole changes nothing but what it counts. -/
theorem writeGuarded_code {s : State} (still : Still s) {ws : List (Nat × MByte)} {n : Fin 128} (h : ∀ w ∈ ws, s.codeOwner w.1 = some n)
    (some : ws ≠ []) : s.writeGuarded ws = s.bump (.stlSeqCodewrite n) 1 := by
  have discarded : (ws.filter fun w => (s.codeOwner w.1).isNone && (rsvdOwner w.1).isNone) = [] :=
    List.filter_eq_nil_iff.mpr fun w hw => by simp [h w hw]
  have owners : (ws.filterMap fun w => s.codeOwner w.1).eraseDups = [n] := by
    refine eraseDups_same (fun y hy => ?_) ?_
    · obtain ⟨w, hw, e⟩ := List.mem_filterMap.mp hy
      exact (Option.some.inj ((h w hw).symm.trans e)).symm
    · obtain ⟨w, hw⟩ := List.exists_mem_of_ne_nil ws some
      exact List.ne_nil_of_mem (List.mem_filterMap.mpr ⟨w, hw, h w hw⟩)
  rw [State.writeGuarded, State.writeOpen, discarded, owners, writeMem_nil still]
  rfl

section
variable {s : State} {h : Hdr} {sd sa : SReg} {imm : BitVec 32} (ready : Ready s h .writes) (on : GuardOn s h)
include ready on

/-- Outside code and the reserved region an `sst` stores its word. -/
theorem sst_stores (clean : Clean s) {b : Bool} (below : b = true → smemOff b (stallOf s h).s[sa] imm < 0x1C00000)
    (unowned : ∀ k, k < 8 → s.codeOwner (wordAt h b (stallOf s h).s[sa] imm + k) = none) :
    let base := wordAt h b (stallOf s h).s[sa] imm
    Leaves (exec (.sst h b sd sa imm) s) fun t => Retired s t h (Passed (stallOf s h)) noReg (fun a => base ≤ a ∧ a < base + 8) ∧
      (NoRing s → Sound s → ∀ k, k < 8 →
        (Memory.read t.mem (base + k)).toNat = (stallOf s h).s[sd].toNat / 2 ^ (8 * k) % 2 ^ 8) := by
  intro base
  have clean' := seqState_clean clean h
  have place : ∀ w ∈ bytesOf base 8 (stallOf s h).s[sd].toNat, ∃ k, k < 8 ∧ w = (base + k,
      BitVec.ofNat 8 ((stallOf s h).s[sd].toNat / 2 ^ (8 * k)), false) := fun w hw => by
    obtain ⟨k, hk, rfl⟩ := List.mem_map.mp hw
    exact ⟨k, List.mem_range.mp hk, rfl⟩
  have member : ∀ k, k < 8 → base + k ∈ smemAddrs h.stall b (stallOf s h).s[sa] imm := fun k hk => by
    rw [smemAddrs_eq]
    exact List.mem_map_of_mem (List.mem_range.mpr hk)
  have effect : sstEffect h b sd sa imm (seqState s h) = (seqState s h).writeOpen (bytesOf base 8 (stallOf s h).s[sd].toNat) := by
    rw [sstEffect_seqState, countRsvd_open _ fun a ha => smemAddrs_open ha below, writeGuarded_open fun w hw => ?_]
    obtain ⟨k, hk, rfl⟩ := place w hw
    exact (seqState_codeOwner ..).trans (unowned k hk)
  have wrote := writeOpen_only clean' (ws := bytesOf base 8 (stallOf s h).s[sd].toNat) (W := fun a => base ≤ a ∧ a < base + 8)
    (fun w hw => by obtain ⟨k, -, rfl⟩ := place w hw; rfl) h.stall
    (fun w hw => by
      obtain ⟨k, hk, rfl⟩ := place w hw
      show base ≤ base + k ∧ base + k < base + 8
      omega)
  obtain ⟨t, next, retired, mem, -⟩ := sequencer_effect ready on (by simp) effect wrote id id id
  refine ⟨t, (exec_sst ..).trans next, ?_, fun ring sound k hk => ?_⟩
  · have own : ((seqState s h).writeOpen (bytesOf base 8 (stallOf s h).s[sd].toNat)).stall h.stall = Passed (stallOf s h) := by
      rw [State.stall, writeOpen_stalls]
      exact seqState_stall s h
    rw [own] at retired
    exact retired
  · have off := noRing_off ring
    have all : storedBytes (seqState s h) (bytesOf base 8 (stallOf s h).s[sd].toNat) = bytesOf base 8 (stallOf s h).s[sd].toNat := by
      refine storedBytes_all fun w hw => ?_
      obtain ⟨k, hk, rfl⟩ := place w hw
      exact ⟨(seqState_codeOwner ..).trans (unowned k hk), smemAddrs_open (member k hk) below, smemAddrs_backed (member k hk)⟩
    have stored := writeOpen_mem clean'.2.2.2 ((State.flag_congr _ (seqState_rd s h rfl)).trans off)
      (bytesOf base 8 (stallOf s h).s[sd].toNat)
    rw [all, seqState_mem off] at stored
    have distinct : ((bytesOf base 8 (stallOf s h).s[sd].toNat).map (·.1)).Nodup := by
      rw [bytesOf_addrs]
      exact List.nodup_range.map fun i j e => by simpa using e
    have written := read_written distinct sound (List.mem_map_of_mem (List.mem_range.mpr hk))
    rw [mem _ (ring _), stored, written, BitVec.toNat_ofNat]

/-- A program does not write its own code: an `sst` there counts once (R148). -/
theorem sst_code (found : Found s) (low : (stallOf s h).codeBase ≤ smemOff false (stallOf s h).s[sa] imm)
    (high : smemOff false (stallOf s h).s[sa] imm + 8 ≤ (stallOf s h).codeBase + (stallOf s h).codeBytes) :
    Leaves (exec (.sst h false sd sa imm) s) fun t =>
      Retired s t h (Passed (stallOf s h)) (fun r => r = .stlSeqCodewrite h.stall) noByte ∧ Counted s t (.stlSeqCodewrite h.stall) 1 := by
  have ⟨aligned, fits⟩ := smemOff_fits false (stallOf s h).s[sa] imm
  have own : ∀ w ∈ bytesOf (wordAt h false (stallOf s h).s[sa] imm) 8 (stallOf s h).s[sd].toNat,
      (seqState s h).codeOwner w.1 = some h.stall := fun w hw => by
    obtain ⟨k, hk, rfl⟩ := List.mem_map.mp hw
    rw [List.mem_range] at hk
    have here : wordAt h false (stallOf s h).s[sa] imm + k = storeAddr h.stall false (smemOff false (stallOf s h).s[sa] imm + k) := by
      rw [storeAddr_of_lt (by omega), wordAt, Nat.add_assoc]
    have small : (smemOff false (stallOf s h).s[sa] imm + k) % 0x800000 = smemOff false (stallOf s h).s[sa] imm + k :=
      Nat.mod_eq_of_lt (by simp only [storeSize, Bool.false_eq_true, if_false] at fits; omega)
    rw [seqState_codeOwner, here, codeOwner_storeAddr, small]
    refine if_pos ⟨rfl, canIssue_running ready, ?_⟩
    unfold stallOf at low high ⊢
    omega
  have effect : sstEffect h false sd sa imm (seqState s h) = (seqState s h).bump (.stlSeqCodewrite h.stall) 1 := by
    rw [sstEffect_seqState, countRsvd_open _ fun a ha => smemAddrs_open ha (by simp),
      writeGuarded_code (seqState_found found h).2.2 own (List.ne_nil_of_mem (List.mem_map_of_mem (List.mem_range.mpr (show 0 < 8 by decide))))]
  obtain ⟨t, next, retired, -, regs⟩ := sequencer_effect ready on (by simp) effect
    (bump_only _ h.stall (fun r => r = .stlSeqCodewrite h.stall) noByte 1 rfl (by simp) (by simp) (by simp) (by simp) (by simp))
    (by simp) (by simp) (by simp)
  rw [State.stall, State.bump_stalls, ← State.stall, seqState_stall] at retired
  exact ⟨t, (exec_sst ..).trans next, retired, counted_of_bump (seqState_rd s h rfl) 1 (regs _ rfl (by simp))⟩

end

/-! ### What the statement asks -/

/-- An `sld` below the reserved region, where no unit is poisoned, loads its word. -/
theorem sld_sets {s : State} {h : Hdr} {sd sa : SReg} {imm : BitVec 32} (ready : Ready s h .reads) (on : GuardOn s h) (clean : Clean s)
    {b : Bool} (below : b = true → smemOff b (stallOf s h).s[sa] imm < 0x1C00000) :
    ∃ x : BitVec 64, SetsS s h (exec (.sld h b sd sa imm) s) sd x ∧ (NoRing s → ∀ k, k < 8 →
      x.toNat / 2 ^ (8 * k) % 2 ^ 8 = (Memory.read s.mem (wordAt h b (stallOf s h).s[sa] imm + k)).toNat) := by
  obtain ⟨only, stall, -, found⟩ := sldRead_open clean.found (h := h) (x := (stallOf s h).s[sa]) (imm := imm) below
  let bs := (List.range 8).map fun k =>
    Memory.read (sldRead s h b (stallOf s h).s[sa] imm).1.mem (wordAt h b (stallOf s h).s[sa] imm + k)
  have bytes : (sldRead s h b (stallOf s h).s[sa] imm).2 = plain bs := by
    rw [found, clean.2.2.1, plain, List.map_map]
    rfl
  obtain ⟨t, next, retired, -⟩ := sld_loads ready on (sd := sd) only stall id id id bytes
  refine ⟨_, ⟨t, next, retired⟩, fun ring k hk => ?_⟩
  have within : k < bs.length := by simpa [bs] using hk
  have small : ofBytes bs < 2 ^ 64 := ofBytes_lt bs
  rw [BitVec.toNat_ofNat, Nat.mod_eq_of_lt small, ofBytes_byte within, ← only.mem _ (ring _) id]
  simp [bs]

/-- An `sld` of a poisoned word ends with a fault. -/
theorem sld_faults {s : State} {h : Hdr} {sd sa : SReg} {imm : BitVec 32} (ready : Ready s h .reads) (on : GuardOn s h) (found : Found s)
    {b : Bool} (below : b = true → smemOff b (stallOf s h).s[sa] imm < 0x1C00000)
    (poisoned : wordAt h b (stallOf s h).s[sa] imm ∈ s.poison) :
    let x := (sldRead s h b (stallOf s h).s[sa] imm).1
    exec (.sld h b sd sa imm) s = .next (x.faultStall h.stall 0
        { stall := h.stall, pc := (stallOf s h).pc, status := .uncorrectable, loc := storeLoc b (smemOff b (stallOf s h).s[sa] imm) } 3 0) ∧
      x.stall h.stall = Passed (stallOf s h) ∧ x.rd (.stlSeqRetired h.stall) = s.rd (.stlSeqRetired h.stall) ∧ x.consigns = s.consigns := by
  intro x
  obtain ⟨only, stall, consigns, bytes⟩ := sldRead_open found (h := h) (x := (stallOf s h).s[sa]) (imm := imm) below
  refine ⟨(exec_sld ready on b sd sa imm).trans (if_pos ?_), stall, only.regs _ rfl id, consigns⟩
  rw [bytes]
  exact List.any_eq_true.mpr ⟨_, List.mem_map_of_mem (List.mem_range.mpr (show 0 < 8 by decide)), by simpa using poisoned⟩

/-- Settles O10: what a word's read finds decides what an `sld` leaves, and its addresses what an `sst` stores. -/
theorem scalarLoadAndStore : Obligations.ScalarLoadAndStore := by
  refine ⟨fun s h b sd sa imm on clean => ?_, fun s h sd sa imm on ue ce still => ?_⟩
  · intro st off base below
    exact ⟨fun ready => sld_sets ready on clean below, fun ready unowned => sst_stores ready on clean below unowned⟩
  · have found : Found s := ⟨ue, ce, still⟩
    intro st off
    refine ⟨fun b ready below poisoned => ?_, fun ready high => ?_, fun ready low high => sst_code ready on found low high⟩
    · have below' : b = true → smemOff b (stallOf s h).s[sa] imm < 0x1C00000 := fun e => by subst e; exact below rfl
      obtain ⟨next, stall, count, consigns⟩ := sld_faults (sd := sd) ready on found below' poisoned
      refine ⟨_, next, by rw [faultStall_stall, stall], ?_, fun c at' started fault ended new => ?_⟩
      · refine ((faultStall_stops ..).regs _ rfl fun own => ?_).trans count
        rcases own with ⟨_, own⟩ | ⟨_, own⟩ <;> cases own
      · have member : ((sldRead s h b st.s[sa] imm).1.stall h.stall).consignment = st.consignment := by rw [stall]; rfl
        obtain ⟨d, outcome, reported⟩ := faultStall_consign (n := h.stall) (c := c) (s := (sldRead s h b st.s[sa] imm).1)
          (by rw [member, consignAt_congr consigns]; exact at') (by rw [member, consigns]; exact started) fault ended new 0
          { stall := h.stall, pc := st.pc, status := .uncorrectable, loc := storeLoc b (smemOff b st.s[sa] imm) } 3 0
        rw [member] at outcome
        exact ⟨d, _, outcome, reported, rfl, rfl, rfl, rfl⟩
    · obtain ⟨only, stall, counted, bytes⟩ := sldRead_reserved found (h := h) high
      obtain ⟨t, next, retired, regs⟩ := sld_loads ready on (sd := sd) only stall (by simp) (by simp) (by simp) bytes
      exact ⟨t, next, retired, counted.keep (regs _ rfl (by simp))⟩

end Sys2Proof
end

section
/-!
PROOFS of the family 05_instruction_set: `vld` and `vst` (R139, R148, R156, R190).
-/
namespace Sys2Proof

open Machine

theorem storeAddr_eq (n : Fin 128) (stable : Bool) (off : Nat) :
    storeAddr n stable off = storeBase n stable + off % storeSize stable := by cases stable <;> rfl

/-- Whether an offset lies in the reserved region (R190). -/
def inReserved (stable : Bool) (off : Nat) : Bool := stable && decide (0x1C00000 ≤ off % storeSize stable)

theorem rsvdOwner_isSome (n : Fin 128) (stable : Bool) (off : Nat) : (rsvdOwner (storeAddr n stable off)).isSome = inReserved stable off := by
  rw [rsvdOwner_storeAddr]
  cases stable
  · rfl
  · by_cases high : 0x1C00000 ≤ off % 0x2000000 <;> simp [inReserved, storeSize, high]

theorem any_storeRange (n : Fin 128) (stable : Bool) (off len : Nat) (p : Nat → Bool) :
    (storeRange n stable off len).any p = (List.range len).any fun k => p (storeAddr n stable (off + k)) := by
  rw [storeRange, List.any_map]
  rfl

theorem storeRange_nodup {n : Fin 128} {stable : Bool} {len : Nat} (fits : len ≤ storeSize stable) (off : Nat) :
    (storeRange n stable off len).Nodup :=
  List.Nodup.map_on (fun _ hi _ hj same => storeAddr_ne ((List.mem_range.mp hi).trans_le fits) ((List.mem_range.mp hj).trans_le fits) same)
    List.nodup_range

/-- Bytes put at addresses, as a list of writes. -/
theorem zip_map_toBytes {n : Nat} (f : Nat → Nat) (v : Nat) : ((List.range n).map f).zip (plain (toBytes n v)) =
    (List.range n).map fun k => (f k, BitVec.ofNat 8 (v / 2 ^ (8 * k)), false) := by
  rw [toBytes_eq, plain, List.map_map, List.zip_map']
  rfl

/-- The event of an access to the reserved region, by its offsets. -/
theorem rsvdEvent_storeRange (n : Fin 128) (stable : Bool) (off len : Nat) : rsvdEvent (storeRange n stable off len) =
    if (List.range len).any fun k => inReserved stable (off + k) then [(.reserved, 1)] else [] := by
  rw [rsvdEvent, any_storeRange]
  simp only [rsvdOwner_isSome]

theorem codeEvent_storeRange (s : State) (n : Fin 128) (stable : Bool) (off len : Nat) : s.codeEvent (storeRange n stable off len) =
    if (List.range len).any fun k => (s.codeOwner (storeAddr n stable (off + k))).isSome then [(.codewrite, 1)] else [] := by
  rw [State.codeEvent, any_storeRange]

/-! ### `vld` -/

/-- The effect of a `vld`. -/
def vldEffect (h : Hdr) (b : Bool) (v : VReg) (sa : SReg) (imm : BitVec 32) (s : State) (r : Flight) : State × Flight :=
  let off := vmemOff b (s.stall h.stall).s[sa] imm
  let p := s.readGuarded (storeRange h.stall b off 256)
  let r := { r with reads := [storeHome b], counts := rsvdEvent (storeRange h.stall b off 256) }
  match (List.range 256).find? fun k => (p.2.getD k (0, false)).2 with
  | some k => (p.1, { r with status := .uncorrectable, loc := storeLoc b ((off + k) % storeSize b) })
  | none => (p.1.modStall h.stall fun t => t.setV v (BitVec.ofNat 2048 (ofBytes (p.2.map (·.1)))), { r with lands := some (.vreg v) })

theorem exec_vld (h : Hdr) (b : Bool) (v : VReg) (sa : SReg) (imm : BitVec 32) (s : State) :
    exec (.vld h b v sa imm) s = s.issue h .vector (6, 0) .reads (vldEffect h b v sa imm) := by
  show execVld h b v sa imm s = _
  unfold execVld vldEffect vmemAddrs
  rfl

/-- The record of a `vld` of an offset. -/
def vldRecord (s : State) (h : Hdr) (b : Bool) (v : VReg) (off : Nat) : Flight :=
  { recordOf s h .vector 6 0 with
    reads := [storeHome b], lands := some (.vreg v)
    counts := if (List.range 256).any fun k => inReserved b (off + k) then [(.reserved, 1)] else [] }

/-- A `vld` that finds no poison loads the bytes that it finds. -/
theorem vldEffect_loads {s y : State} {h : Hdr} {b : Bool} {sa : SReg} {imm : BitVec 32} {x : SReg → BitVec 64}
    (own : (y.stall h.stall).s[sa] = x sa) {bs : List Byte}
    (found : (y.readGuarded (storeRange h.stall b (vmemOff b (x sa) imm) 256)).2 = plain bs) (v : VReg) :
    vldEffect h b v sa imm y (s.newFlight .vector h (6, 0)) =
      ((y.readGuarded (storeRange h.stall b (vmemOff b (x sa) imm) 256)).1.modStall h.stall fun t =>
        t.setV v (BitVec.ofNat 2048 (ofBytes bs)), vldRecord s h b v (vmemOff b (x sa) imm)) := by
  have clean : (List.range 256).find? (fun k => ((plain bs).getD k (0, false)).2) = none :=
    List.find?_eq_none.mpr fun k _ => by
      by_cases inside : k < bs.length <;> simp [plain, inside]
  have bytes : (plain bs).map (·.1) = bs := by simp [plain, Function.comp_def]
  simp only [vldEffect, own, found, clean, bytes, rsvdEvent_storeRange]
  rfl

section
variable {s : State} {h : Hdr} {b : Bool} {v : VReg} {sa : SReg} {imm : BitVec 32} (on : GuardOn s h) (clean : Clean s)
include on clean

/-- A `vld` loads what it finds: zeros in the reserved region, and elsewhere what memory holds. -/
theorem vld_loads (ready : UnitReady s h .vector .reads) :
    let off := vmemOff b (stallOf s h).s[sa] imm
    ∃ x : BitVec 2048,
      (Leaves (exec (.vld h b v sa imm) s) fun t =>
        Issued s t h { Passed (stallOf s h) with v := (stallOf s h).v.set v x } (vldRecord s h b v off) noReg noByte) ∧
      (NoRing s → ∀ k, k < 256 → x.toNat / 2 ^ (8 * k) % 2 ^ 8 =
        if inReserved b (off + k) then 0 else (Memory.read s.mem (storeAddr h.stall b (off + k))).toNat) := by
  intro off
  let e := effectState s h .vector (6, 0)
  have clean' : Clean e := effectState_clean clean h .vector (6, 0)
  have own : (e.stall h.stall).s[sa] = (stallOf s h).s[sa] := by rw [show e.stall h.stall = Passed (stallOf s h) from effectState_stall ..]; rfl
  obtain ⟨only, stall, -, found⟩ := readGuarded_finds clean'.found (storeRange h.stall b off 256) h.stall
  let bs := (List.range 256).map fun k => if inReserved b (off + k) then 0
    else Memory.read (e.readGuarded (storeRange h.stall b off 256)).1.mem (storeAddr h.stall b (off + k))
  have bytes : (e.readGuarded (storeRange h.stall b off 256)).2 = plain bs := by
    rw [found, storeRange, plain, List.map_map, List.map_map]
    refine List.map_congr_left fun k _ => ?_
    simp only [Function.comp, rsvdOwner_isSome, backed_storeAddr, clean'.2.2.1, Bool.not_true, Bool.or_false]
    split <;> rfl
  obtain ⟨t, next, issued, -⟩ := issue_effect ready.1 ready.2 on (by simp) (vldEffect_loads (x := fun a => (stallOf s h).s[a]) own bytes v)
    (.trans id id only (modStall_only ..))
  rw [State.stall_modStall_same, stall, effectState_stall] at issued
  refine ⟨BitVec.ofNat 2048 (ofBytes bs), ⟨t, (exec_vld ..).trans next, issued⟩, fun ring k hk => ?_⟩
  have within : k < bs.length := by simpa [bs] using hk
  have small : ofBytes bs < 2 ^ 2048 := (ofBytes_lt bs).trans_eq (congrArg (2 ^ ·) (by simp [bs]))
  have kept := OnlyStall.trans id id (issued_only s h.stall 2 noReg noByte id id) only.acted
  have whole : (BitVec.ofNat 2048 (ofBytes bs)).toNat = ofBytes bs := (BitVec.toNat_ofNat ..).trans (Nat.mod_eq_of_lt small)
  rw [whole, ofBytes_byte within, List.getElem_map, List.getElem_range]
  split
  · rfl
  · rw [← kept.mem _ (ring _) id]

end

/-! ### `vst` -/

/-- The bytes that a `vst` writes, at their addresses. -/
def vstBytes (h : Hdr) (b : Bool) (off : Nat) (v : BitVec 2048) : List (Nat × MByte) :=
  (List.range 256).map fun k => (storeAddr h.stall b (off + k), BitVec.ofNat 8 (v.toNat / 2 ^ (8 * k)), false)

/-- The effect of a `vst`. -/
def vstEffect (h : Hdr) (b : Bool) (v : VReg) (sa : SReg) (imm : BitVec 32) (s : State) (r : Flight) : State × Flight :=
  let t := s.stall h.stall
  let as := storeRange h.stall b (vmemOff b t.s[sa] imm) 256
  (s.writeOpen (as.zip (plain (toBytes 256 t.v[v].toNat))), { r with writes := [storeHome b], counts := rsvdEvent as ++ s.codeEvent as })

theorem exec_vst (h : Hdr) (b : Bool) (v : VReg) (sa : SReg) (imm : BitVec 32) (s : State) :
    exec (.vst h b v sa imm) s = s.issue h .vector (6, 1) .writes (vstEffect h b v sa imm) := by
  show execVst h b v sa imm s = _
  unfold execVst vstEffect vmemAddrs
  rfl

/-- The record of a `vst` to an offset. -/
def vstRecord (s : State) (h : Hdr) (b : Bool) (off : Nat) : Flight :=
  { recordOf s h .vector 6 1 with
    writes := [storeHome b]
    counts := (if (List.range 256).any fun k => inReserved b (off + k) then [(.reserved, 1)] else []) ++
      (if (List.range 256).any fun k => (s.codeOwner (storeAddr h.stall b (off + k))).isSome then [(.codewrite, 1)] else []) }

theorem vstEffect_writes (s : State) (h : Hdr) (b : Bool) (v : VReg) (sa : SReg) (imm : BitVec 32) :
    vstEffect h b v sa imm (effectState s h .vector (6, 1)) (s.newFlight .vector h (6, 1)) =
      ((effectState s h .vector (6, 1)).writeOpen (vstBytes h b (vmemOff b (stallOf s h).s[sa] imm) (stallOf s h).v[v]),
        vstRecord s h b (vmemOff b (stallOf s h).s[sa] imm)) := by
  have scalars : ((effectState s h .vector (6, 1)).stall h.stall).s = (stallOf s h).s := by rw [effectState_stall]; rfl
  have vectors : ((effectState s h .vector (6, 1)).stall h.stall).v = (stallOf s h).v := by rw [effectState_stall]; rfl
  simp only [vstEffect, scalars, vectors, storeRange, zip_map_toBytes]
  rw [← storeRange, rsvdEvent_storeRange, codeEvent_storeRange]
  simp only [effectState_codeOwner]
  rfl

section
variable {s : State} {h : Hdr} {b : Bool} {v : VReg} {sa : SReg} {imm : BitVec 32} (on : GuardOn s h) (clean : Clean s)
include on clean

/-- A `vst` stores its register, but for what reserved regions and running programs' code discard. -/
theorem vst_stores (ready : UnitReady s h .vector .writes) :
    let off := vmemOff b (stallOf s h).s[sa] imm
    let at' := fun k => storeAddr h.stall b (off + k)
    Leaves (exec (.vst h b v sa imm) s) fun t =>
      Issued s t h (Passed (stallOf s h)) (vstRecord s h b off) noReg
        (fun a => ∃ k, k < 256 ∧ a = at' k ∧ inReserved b (off + k) = false ∧ (s.codeOwner (at' k)).isSome = false) ∧
      (NoRing s → Sound s → ∀ k, k < 256 → inReserved b (off + k) = false → (s.codeOwner (at' k)).isSome = false →
        (Memory.read t.mem (at' k)).toNat = (stallOf s h).v[v].toNat / 2 ^ (8 * k) % 2 ^ 8) := by
  intro off at'
  let e := effectState s h .vector (6, 1)
  have clean' : Clean e := effectState_clean clean h .vector (6, 1)
  let ws := vstBytes h b off (stallOf s h).v[v]
  have open' : ∀ k, ((e.codeOwner (at' k)).isNone && (rsvdOwner (at' k)).isNone) = true ↔
      inReserved b (off + k) = false ∧ (s.codeOwner (at' k)).isSome = false := fun k => by
    have reserved := rsvdOwner_isSome h.stall b (off + k)
    rw [show e.codeOwner (at' k) = s.codeOwner (at' k) from effectState_codeOwner .., ← reserved]
    cases s.codeOwner (at' k) <;> cases rsvdOwner (storeAddr h.stall b (off + k)) <;> simp
  have place : ∀ w ∈ ws, ∃ k, k < 256 ∧ w = (at' k, BitVec.ofNat 8 ((stallOf s h).v[v].toNat / 2 ^ (8 * k)), false) := fun w hw => by
    obtain ⟨k, hk, rfl⟩ := List.mem_map.mp hw
    exact ⟨k, List.mem_range.mp hk, rfl⟩
  have wrote : OnlyStall h.stall noReg (fun a => ∃ k, k < 256 ∧ a = at' k ∧ inReserved b (off + k) = false ∧
      (s.codeOwner (at' k)).isSome = false) e (e.writeOpen ws) := by
    refine writeMem_only clean' (fun w hw => ?_) h.stall fun w hw => ?_
    · obtain ⟨k, -, rfl⟩ := place w (List.mem_filter.mp hw).1
      rfl
    · obtain ⟨k, hk, rfl⟩ := place w (List.mem_filter.mp hw).1
      exact ⟨k, hk, rfl, (open' k).mp (List.mem_filter.mp hw).2⟩
  obtain ⟨t, next, issued, mem⟩ := issue_effect ready.1 ready.2 on (by simp) (vstEffect_writes s h b v sa imm) wrote
  have own : (e.writeOpen ws).stall h.stall = Passed (stallOf s h) := by
    rw [State.stall, writeOpen_stalls]
    exact effectState_stall s h .vector (6, 1)
  rw [own] at issued
  refine ⟨t, (exec_vst ..).trans next, issued, fun ring sound k hk unreserved unowned => ?_⟩
  have off' := noRing_off ring
  have stored := writeOpen_mem clean'.2.2.2 ((effectState_spill ..).trans off') ws
  have distinct : ((storedBytes e ws).map (·.1)).Nodup := by
    have all : (ws.map (·.1)).Nodup := by
      rw [show ws.map (·.1) = storeRange h.stall b off 256 from List.map_map]
      exact storeRange_nodup (by cases b <;> decide) off
    exact all.sublist ((List.filter_sublist.trans List.filter_sublist).map _)
  have member : (at' k, BitVec.ofNat 8 ((stallOf s h).v[v].toNat / 2 ^ (8 * k)), false) ∈ storedBytes e ws :=
    List.mem_filter.mpr ⟨List.mem_filter.mpr ⟨List.mem_map_of_mem (List.mem_range.mpr hk), (open' k).mpr ⟨unreserved, unowned⟩⟩,
      backed_storeAddr ..⟩
  have written := read_written distinct sound member
  rw [mem ring, stored, effectState_mem off', written, BitVec.toNat_ofNat]

end

/-- Settles O15: a guarded-off one passes by, and the others load and store the bytes of their addresses. -/
theorem vectorLoadAndStore : Obligations.VectorLoadAndStore := by
  intro s h b v sa imm st off at'
  have place : ∀ k, at' k = storeAddr h.stall b (off + k) := fun k => (storeAddr_eq ..).symm
  refine ⟨fun off => ⟨passedBy off _ (exec_vld ..), passedBy off _ (exec_vst ..)⟩, fun on clean => ⟨fun ready => ?_, fun ready => ?_⟩⟩
  · simp only [place]
    exact vld_loads on clean ready
  · simp only [place]
    exact vst_stores on clean ready

end Sys2Proof
end

section
/-!
PROOFS of the family 05_instruction_set: a move whose own letters leave its results undefined in value (R16, R140, R144, R319).
-/
namespace Sys2Proof

open Machine Tests

/-- A BULK letter of context 0 that waits in the post, one byte long. -/
def queuedLetter : Outstanding :=
  { key := ⟨1, .bulk, 0⟩, owner := .other, ctx := 0,
    letter := { dest := 1, src := 0, cls := .bulk, jobTag := 0, length := 1, body := [0] } }

/-- The first byte of context 0's copy store, at 2^25, is 0 or 1; the context's page 0 lies there; and a letter waits in the post. -/
def copyStoreMapped (b : Bool) : State :=
  { regs (regs2 1 0) [(.hstLoadRec1 0, 1)] with
    mem := Memory.write [] (2 ^ 25) (BitVec.ofBool b |>.setWidth 8), xlat := [⟨0, 0, false, 2 ^ 25, false, false⟩], postQ := [queuedLetter] }

/-- `slot.send` of the byte at address 0 of the context, to slot 0 of chip 1. -/
def sendOne : Instr := .slotSend h0 .g 0 1 0 1 0

/-- The value that the model gives the first byte of a letter whose results are undefined. -/
def freeByte : Byte := BitVec.ofNat 8 (Config.raced 1 (2 ^ 80 + ((1 * 64 + LClass.slot.code) * 2 ^ 32 + 0) * 4096 + 0))

/-- The instruction is issued, with its guard on, and the trace does not spill. -/
theorem sendOne_ready (b : Bool) : UnitReady (copyStoreMapped b) h0 .mover .writes ∧ GuardOn (copyStoreMapped b) h0 ∧
    (copyStoreMapped b).flag .dbgTraceCtrl F.dbgTraceCtrl_SPILL = false ∧
    (copyStoreMapped b).fld (.hstLoadRec1 0) F.hstLoadRec1_SLOT_COUNT ≠ 0 := by
  unfold UnitReady Ready GuardOn
  revert b
  decide

/-- The bytes that it reads. -/
theorem sendOne_reads (b : Bool) : (((moverState (copyStoreMapped b) h0).countRsvd
      ((copyStoreMapped b).side 0 .g 0 1).storeAddrs).resolve 0 0 false [(copyStoreMapped b).side 0 .g 0 1]).2 =
    [.mem [some (2 ^ 25)]] := by
  revert b
  decide

theorem copyStoreMapped_sound (b : Bool) : Clean (copyStoreMapped b) ∧ NoRing (copyStoreMapped b) ∧ Sound (copyStoreMapped b) ∧
    readAt (copyStoreMapped b) (some (2 ^ 25)) = (BitVec.ofBool b).setWidth 8 := by
  refine ⟨⟨rfl, rfl, rfl, rfl, rfl⟩, fun _ ⟨on, _⟩ => ?_, Memory.write_wf _ _ rfl, Memory.read_write_same rfl ..⟩
  rw [(sendOne_ready b).2.2.1] at on
  cases on

set_option maxRecDepth 10000 in
/-- The waiting letter starts first. Kept in the copy store, it overlaps what `slot.send` reads, whose letter then carries a free value,
whatever the byte is. -/
theorem sendOne_letters (b : Bool) : after (exec sendOne (copyStoreMapped b)) (fun t =>
      (t.postQ.map (·.owner), t.outstanding.map fun x => (x.owner, x.letter.body))) =
    some ([], [(.other, [0]), (.flight 0 0, [freeByte])]) := by
  cases b
  · rfl
  · rfl

/-- What the statement says of that letter: it carries the byte. -/
theorem freeByte_eq (claim : Obligations.LocalMovesCopyBytes) (b : Bool) : freeByte = (BitVec.ofBool b).setWidth 8 := by
  obtain ⟨ready, on, -, slots⟩ := sendOne_ready b
  obtain ⟨clean, ring, sound, held⟩ := copyStoreMapped_sound b
  obtain ⟨-, -, -, -, -, sends⟩ := claim.2 (copyStoreMapped b) h0 .g .g 0 1 0 1 0 0 0 0 0 ready on clean ring sound
  obtain ⟨t, next, r, -, ⟨letters, -⟩, -⟩ := sends (show (1 : BitVec 64).toNat % 2 ^ 32 ≠ 0 by decide) slots
  obtain ⟨x, sent, owner, -, -, -, -, length, -, bytes⟩ := letters [some (2 ^ 25)] (sendOne_reads b) 0
    (show 4096 * 0 < (1 : BitVec 64).toNat % 2 ^ 32 by decide)
  have one : 0 < x.letter.length := by
    rw [length]
    show 0 < min 4096 ((1 : BitVec 64).toNat % 2 ^ 32 - 4096 * 0)
    decide
  have carried : x.letter.body.getD 0 0 = (BitVec.ofBool b).setWidth 8 := (bytes (by decide) rfl 0 one).trans held
  have left := sendOne_letters b
  rw [sendOne, next] at left
  obtain ⟨queue, out⟩ := Prod.mk.inj (Option.some.inj left)
  rw [List.map_eq_nil_iff.mp queue] at sent
  have found := List.mem_map_of_mem (f := fun x : Outstanding => (x.owner, x.letter.body)) (sent.resolve_left List.not_mem_nil)
  rw [out, owner] at found
  have body : x.letter.body = [freeByte] := by
    simp only [List.mem_cons, Prod.mk.injEq, reduceCtorEq, false_and, false_or, List.not_mem_nil, or_false] at found
    exact found.2
  rw [← carried, body]
  rfl

/-- Refutes O23: nothing is undefined as `slot.send` is issued, but a letter of its context that waits starts first, and the copy store that
keeps it (R319) overlaps what the instruction reads, so that the results of the instruction become undefined in value (R16). -/
theorem not_localMovesCopyBytes : ¬ Obligations.LocalMovesCopyBytes := fun claim =>
  absurd ((freeByte_eq claim false).symm.trans (freeByte_eq claim true)) (by decide)

end Sys2Proof
end

section
/-!
PROOFS of the family 05_instruction_set: the data mover's instructions as they are issued (R124, R140, R141, R144).
-/
namespace Sys2Proof

open Machine

/-! ### The stalls are no affair of a move -/

namespace Machine.State

theorem countRsvd_stalls (s : State) (as : List Nat) : (s.countRsvd as).stalls = s.stalls := (countRsvd_access s as).stalls

theorem refuseRange_stalls (s : State) (c : Fin 64) (x len : Nat) (write : Bool) (source : Nat) :
    (s.refuseRange c x len write source).stalls = s.stalls := foldl_stalls _ (fun _ _ => refuse_stalls ..) _ s

theorem resolve_stalls (s : State) (c : Fin 64) (n : Fin 128) (write : Bool) (xs : List Sym) :
    (s.resolve c n write xs).1.stalls = s.stalls := by
  unfold State.resolve
  dsimp only
  refine scope_stalls s _ fun t => ?_
  exact (foldl_stalls _ (fun _ _ => refuseRange_stalls ..) _ _).trans (xlatAll_stalls ..)

theorem moveSides_stalls (s : State) (h : Hdr) (rows : List (Sym × Sym × Nat)) : (s.moveSides h rows).1.stalls = s.stalls :=
  (resolve_stalls ..).trans ((resolve_stalls ..).trans (countRsvd_stalls ..))

theorem move_stalls (s : State) (h : Hdr) (r : Flight) (rows : List (Sym × Sym × Nat)) : (s.move h r rows).1.stalls = s.stalls :=
  (post_stalls ..).trans ((writeGuarded_stalls ..).trans ((readGuarded_stalls ..).trans (moveSides_stalls ..)))

end Machine.State

/-! ### The effects -/

/-- What an effect leaves: the stalls as they were, and a record of the same head. -/
structure EffectKeeps (s : State) (r : Flight) (p : State × Flight) : Prop where
  stalls : p.1.stalls = s.stalls
  head : SameHead r p.2

theorem EffectKeeps.refl (s : State) (r : Flight) : EffectKeeps s r (s, r) := ⟨rfl, ⟨rfl, rfl, rfl, rfl, rfl, rfl, rfl⟩, rfl⟩

theorem EffectKeeps.ite {s : State} {r : Flight} {p q : State × Flight} {c : Prop} [Decidable c] (yes : EffectKeeps s r p)
    (no : EffectKeeps s r q) : EffectKeeps s r (if c then p else q) := by
  split
  · exact yes
  · exact no

theorem move_keeps (s : State) (h : Hdr) (r : Flight) (rows : List (Sym × Sym × Nat)) : EffectKeeps s r (s.move h r rows) :=
  ⟨State.move_stalls .., ⟨rfl, rfl, rfl, rfl, rfl, rfl, rfl⟩, rfl⟩

/-- The state after an instruction of a unit with the given effect, and its record. -/
def flown (s : State) (h : Hdr) (p : State × Flight) : State :=
  (State.fly { p.1 with actor := s.actor, refusing := s.refusing } h.stall p.2).spread h.stall

theorem issue_next {s : State} {h : Hdr} {unit : StallUnit} {co : Nat × Nat} {u : Uses} {f : State → Flight → State × Flight}
    (issue : s.canIssue h.stall u = true) (free : s.unitFree h.stall unit (co.1 = 9) = true) (on : GuardOn s h) (uses : u ≠ .none) :
    s.issue h unit co u f = .next (flown s h (f (effectState s h unit co) (s.newFlight unit h co))) := by
  have issued := issued_only s h.stall (unitCode unit) noReg noByte id id
  have actor : (s.issued h.stall (unitCode unit)).actor = s.actor := by rw [issued.rest]
  have refusing : (s.issued h.stall (unitCode unit)).refusing = s.refusing := by rw [issued.rest]
  rw [State.issue, show (s.stall h.stall).guard h = true from on, issueWith_next s h unit co u true f issue free, flown, ← actor, ← refusing]
  simp only [State.acting, if_neg uses, if_true]
  rfl

theorem flown_stall {s : State} {h : Hdr} {p : State × Flight} {n : Fin 128} : (flown s h p).stall n =
    if n = h.stall then { p.1.stall n with flights := (p.1.stall n).flights ++ [p.2], nextSeq := (p.1.stall n).nextSeq + 1 }
    else p.1.stall n := by
  rw [flown, spread_stall]
  split
  · next own =>
    subst own
    exact fly_stall ..
  · next other => exact State.stall_modStall_other _ _ other

/-- An instruction whose effect keeps the stalls is issued, and of the stalls only its own changes, by the program counter and by its
record. -/
theorem issuesWith_of {s : State} {h : Hdr} {unit : StallUnit} {cls op : Nat} {u : Uses} {f : State → Flight → State × Flight}
    (issue : s.canIssue h.stall u = true) (free : s.unitFree h.stall unit (cls = 9) = true) (on : GuardOn s h) (uses : u ≠ .none)
    (keeps : ∀ e r, EffectKeeps e r (f e r)) {P : State → Flight → Prop}
    (holds : let p := f (effectState s h unit (cls, op)) (s.newFlight unit h (cls, op)); P (flown s h p) p.2) :
    IssuesWith s h unit cls op (s.issue h unit (cls, op) u f) P := by
  refine ⟨_, issue_next issue free on uses, _, ?_, holds, ?_, fun m other => ?_⟩
  · obtain ⟨⟨unit, seq, pc, cls, op, ten, tc⟩, -⟩ := (keeps (effectState s h unit (cls, op)) (s.newFlight unit h (cls, op))).head
    exact ⟨unit, seq, pc, cls, op, ten, tc⟩
  all_goals have ⟨stalls, ⟨_, seq, _⟩, _⟩ := keeps (effectState s h unit (cls, op)) (s.newFlight unit h (cls, op))
  · rw [flown_stall, if_pos rfl, State.stall, stalls, ← State.stall, effectState_stall, seq]
    rfl
  · rw [flown_stall, if_neg other, State.stall, stalls, ← State.stall]
    exact (issued_only s h.stall (unitCode unit) noReg noByte id id).stalls m other

/-- The same where the effect is none. -/
theorem issued_of_idle {s : State} {h : Hdr} {unit : StallUnit} {cls op : Nat} {u : Uses} {f : State → Flight → State × Flight}
    (issue : s.canIssue h.stall u = true) (free : s.unitFree h.stall unit (cls = 9) = true) (on : GuardOn s h) (uses : u ≠ .none)
    (idle : ∀ e : State, e.stall h.stall = Passed (stallOf s h) → ∀ r, f e r = (e, r)) :
    Leaves (s.issue h unit (cls, op) u f) fun t => Issued s t h (Passed (stallOf s h)) (recordOf s h unit cls op) noReg noByte := by
  obtain ⟨t, next, issued, -⟩ := issue_effect (W := noByte) (co := (cls, op)) issue free on uses (idle _ (effectState_stall ..) _) (.refl ..)
  rw [effectState_stall] at issued
  exact ⟨t, next, issued⟩

theorem idleOrMove_keeps (e : State) (h : Hdr) (r : Flight) (c : Prop) [Decidable c] (rows : List (Sym × Sym × Nat)) :
    EffectKeeps e r (if c then (e, r) else e.move h r rows) := .ite (.refl e r) (move_keeps e h r rows)

/-- An effect whose record names the homes of what it reads and writes keeps its head. -/
theorem EffectKeeps.of_stalls {e t : State} {r : Flight} (stalls : t.stalls = e.stalls) (reads writes : List Home) :
    EffectKeeps e r (t, { r with reads := reads, writes := writes }) := ⟨stalls, ⟨rfl, rfl, rfl, rfl, rfl, rfl, rfl⟩, rfl⟩

/-- The effect of a `dm.fill` of `len` bytes to a side. -/
def fillEffect (n : Fin 128) (c : Fin 64) (x : Sym) (bs : List MByte) (s : State) (r : Flight) : State × Flight :=
  let r := { r with writes := x.home }
  let (s, ds) := (s.countRsvd x.storeAddrs).resolve c n true [x]
  match ds with
  | [.remote chip va] => (s.post (s.bulk c (.flight n r.seq) chip .bulk va bs), r)
  | [.mem as] => (s.writeGuarded ((as.zip bs).filterMap fun e => e.1.map fun a => (a, e.2)), r)
  | _ => (s, r)

/-- The effect of a `slot.send` of `len` bytes from a side to a place on a chip. -/
def sendEffect (n : Fin 128) (c : Fin 64) (x : Sym) (len : Nat) (chip : BitVec 14) (target : Nat) (home : List Home) (s : State)
    (r : Flight) : State × Flight :=
  let own := Owner.flight n r.seq
  let r := { r with reads := x.home, writes := home }
  let (s, xs) := (s.countRsvd x.storeAddrs).resolve c n false [x]
  match xs with
  | [.mem as] =>
    let (s, _) := s.readGuarded (as.filterMap id)
    let bs := as.map fun a => match a with
      | some a => s.peekG a
      | none => (0, false)
    (s.post (s.bulk c own chip .slot target bs), r)
  | [.remote chip' va] => (s.post (s.requests c own chip' va len fun off _ => .remote chip .slot (target + off * 4096)), r)
  | _ => (s, r)

theorem fillEffect_keeps (n : Fin 128) (c : Fin 64) (x : Sym) (bs : List MByte) (e : State) (r : Flight) :
    EffectKeeps e r (fillEffect n c x bs e r) := by
  have found : ((e.countRsvd x.storeAddrs).resolve c n true [x]).1.stalls = e.stalls :=
    (State.resolve_stalls ..).trans (State.countRsvd_stalls ..)
  unfold fillEffect
  generalize (e.countRsvd x.storeAddrs).resolve c n true [x] = p at found
  dsimp only
  split
  · exact .of_stalls (reads := r.reads) ((State.post_stalls ..).trans found) _
  · exact .of_stalls (reads := r.reads) ((State.writeGuarded_stalls ..).trans found) _
  · exact .of_stalls (reads := r.reads) found _

theorem sendEffect_keeps (n : Fin 128) (c : Fin 64) (x : Sym) (len : Nat) (chip : BitVec 14) (target : Nat) (home : List Home)
    (e : State) (r : Flight) : EffectKeeps e r (sendEffect n c x len chip target home e r) := by
  have found : ((e.countRsvd x.storeAddrs).resolve c n false [x]).1.stalls = e.stalls :=
    (State.resolve_stalls ..).trans (State.countRsvd_stalls ..)
  unfold sendEffect
  generalize (e.countRsvd x.storeAddrs).resolve c n false [x] = p at found
  dsimp only
  split
  · exact .of_stalls ((State.post_stalls ..).trans ((State.readGuarded_stalls ..).trans found)) ..
  · exact .of_stalls ((State.post_stalls ..).trans found) ..
  · exact .of_stalls found ..

theorem exec_dmCopy (h : Hdr) (dsp ssp : Space) (sd ss sn : SReg) (s : State) :
    exec (.dmCopy h dsp ssp sd ss sn) s = s.issue h .mover (10, 0) .writes fun s r =>
      let t := s.stall h.stall
      if moveLen t.s[sn] = 0 then (s, r)
      else s.move h r [(s.side h.stall ssp t.s[ss] (moveLen t.s[sn]), s.side h.stall dsp t.s[sd] (moveLen t.s[sn]), moveLen t.s[sn])] := rfl

theorem exec_dmLd2 (h : Hdr) (ssp : Space) (td : TReg) (ss sn : SReg) (s : State) :
    exec (.dmLd2 h ssp td ss sn) s = s.issue h .mover (10, 1) .writes fun s r =>
      let t := s.stall h.stall
      let sh := Shape.of t.s[sn]
      if sh.rowBytes = 0 || sh.rows = 0 then (s, r)
      else s.move h r ((List.range sh.rows).map fun i => (s.side h.stall ssp (rowAt t.s[ss] sh.gpitch i) sh.rowBytes,
        tileRow h.stall (Desc.of t.t[td]) i sh.rowBytes, sh.rowBytes)) := rfl

theorem exec_dmSt2 (h : Hdr) (dsp : Space) (sd : SReg) (ts : TReg) (sn : SReg) (s : State) :
    exec (.dmSt2 h dsp sd ts sn) s = s.issue h .mover (10, 2) .writes fun s r =>
      let t := s.stall h.stall
      let sh := Shape.of t.s[sn]
      if sh.rowBytes = 0 || sh.rows = 0 then (s, r)
      else s.move h r ((List.range sh.rows).map fun i => (tileRow h.stall (Desc.of t.t[ts]) i sh.rowBytes,
        s.side h.stall dsp (rowAt t.s[sd] sh.gpitch i) sh.rowBytes, sh.rowBytes)) := rfl

theorem exec_dmTt (h : Hdr) (td ts : TReg) (sn : SReg) (s : State) :
    exec (.dmTt h td ts sn) s = s.issue h .mover (10, 3) .writes fun s r =>
      let t := s.stall h.stall
      let sh := Shape.of t.s[sn]
      if sh.rowBytes = 0 || sh.rows = 0 then (s, r)
      else s.move h r ((List.range sh.rows).map fun i => (tileRow h.stall (Desc.of t.t[ts]) i sh.rowBytes,
        tileRow h.stall (Desc.of t.t[td]) i sh.rowBytes, sh.rowBytes)) := rfl

theorem exec_dmFill (h : Hdr) (dsp : Space) (sd ss sn : SReg) (s : State) :
    exec (.dmFill h dsp sd ss sn) s = s.issue h .mover (10, 4) .writes fun s r =>
      let t := s.stall h.stall
      if moveLen t.s[sn] = 0 then (s, r)
      else fillEffect h.stall t.context (s.side h.stall dsp t.s[sd] (moveLen t.s[sn]))
        ((List.range (moveLen t.s[sn])).map fun k => (((toBytes 8 t.s[ss].toNat).getD (k % 8) 0, false) : MByte)) s r := by
  show execDmFill h dsp sd ss sn s = _
  unfold execDmFill fillEffect
  rfl

theorem exec_slotSend (h : Hdr) (ssp : Space) (sa sb sc sd se : SReg) (s : State) :
    exec (.slotSend h ssp sa sb sc sd se) s = s.issue h .mover (11, 2) .writes fun s r =>
      let t := s.stall h.stall
      let len := bitsOf t.s[sd].toNat 0 32
      let chip := BitVec.ofNat 14 t.s[sb].toNat
      let slot := bitsOf t.s[sa].toNat 0 12
      if s.fld (.hstLoadRec1 t.context) F.hstLoadRec1_SLOT_COUNT = 0 || len = 0 then (s, r)
      else sendEffect h.stall t.context (s.side h.stall ssp t.s[sc] len) len chip (slot + bitsOf t.s[se].toNat 0 32 * 4096)
        (s.stashHome h.stall chip slot) s r := by
  show execSlotSend h ssp sa sb sc sd se s = _
  unfold execSlotSend sendEffect
  rfl

/-! ### What the statement asks -/

section
variable {s : State} {h : Hdr} (ready : UnitReady s h .mover .writes) (on : GuardOn s h)
include ready on

theorem mover_issues (dsp ssp : Space) (sd ss sn sa sb sc se : SReg) (td ts : TReg) :
    IssuesWith s h .mover 10 0 (exec (.dmCopy h dsp ssp sd ss sn) s) (fun _ r => r.status = .ok) ∧
    IssuesWith s h .mover 10 1 (exec (.dmLd2 h ssp td ss sn) s) (fun _ r => r.status = .ok) ∧
    IssuesWith s h .mover 10 2 (exec (.dmSt2 h dsp sd ts sn) s) (fun _ r => r.status = .ok) ∧
    IssuesWith s h .mover 10 3 (exec (.dmTt h td ts sn) s) (fun _ r => r.status = .ok) ∧
    IssuesWith s h .mover 10 4 (exec (.dmFill h dsp sd ss sn) s) (fun _ r => r.status = .ok) ∧
    IssuesWith s h .mover 11 2 (exec (.slotSend h ssp sa sb sc sd se) s) (fun _ r => r.status = .ok) := by
  have issues {cls op : Nat} {f : State → Flight → State × Flight} (other : decide (cls = 9) = false)
      (keeps : ∀ e r, EffectKeeps e r (f e r)) :
      IssuesWith s h .mover cls op (s.issue h .mover (cls, op) .writes f) fun _ r => r.status = .ok :=
    issuesWith_of ready.1 (by rw [other]; exact ready.2) on (by simp) keeps (keeps ..).head.2
  rw [exec_dmCopy, exec_dmLd2, exec_dmSt2, exec_dmTt, exec_dmFill, exec_slotSend]
  exact ⟨issues rfl fun e r => idleOrMove_keeps .., issues rfl fun e r => idleOrMove_keeps ..,
    issues rfl fun e r => idleOrMove_keeps .., issues rfl fun e r => idleOrMove_keeps ..,
    issues rfl fun e r => .ite (.refl e r) (fillEffect_keeps ..), issues rfl fun e r => .ite (.refl e r) (sendEffect_keeps ..)⟩

/-- A length of 0 has no effect, nor has a row of less than 16 bytes, or no row (R140, R141, R144). -/
theorem mover_idles (dsp ssp : Space) (sd ss sn sa sb sc se : SReg) (td ts : TReg) :
    let x := (stallOf s h).s[sn].toNat
    let does := fun (o : Out) (cls op : Nat) => Leaves o fun t =>
      Issued s t h (Passed (stallOf s h)) (recordOf s h .mover cls op) noReg noByte
    (x % 2 ^ 40 = 0 → does (exec (.dmCopy h dsp ssp sd ss sn) s) 10 0 ∧ does (exec (.dmFill h dsp sd ss sn) s) 10 4) ∧
    (x % 2 ^ 16 < 16 ∨ x / 2 ^ 16 % 2 ^ 16 = 0 → does (exec (.dmLd2 h ssp td ss sn) s) 10 1 ∧
      does (exec (.dmSt2 h dsp sd ts sn) s) 10 2 ∧ does (exec (.dmTt h td ts sn) s) 10 3) ∧
    ((stallOf s h).s[sd].toNat % 2 ^ 32 = 0 → does (exec (.slotSend h ssp sa sb sc sd se) s) 11 2) := by
  have idles {cls op : Nat} {f : State → Flight → State × Flight} (other : decide (cls = 9) = false)
      (idle : ∀ e : State, e.stall h.stall = Passed (stallOf s h) → ∀ r, f e r = (e, r)) :
      Leaves (s.issue h .mover (cls, op) .writes f) fun t =>
        Issued s t h (Passed (stallOf s h)) (recordOf s h .mover cls op) noReg noByte :=
    issued_of_idle ready.1 (by rw [other]; exact ready.2) on (by simp) idle
  rw [exec_dmCopy, exec_dmLd2, exec_dmSt2, exec_dmTt, exec_dmFill, exec_slotSend]
  have scalars : ∀ {e : State}, e.stall h.stall = Passed (stallOf s h) → (e.stall h.stall).s = (stallOf s h).s := fun own => by
    rw [own]
    rfl
  refine ⟨fun zero => ?_, fun zero => ?_, fun zero => ?_⟩
  · have len : moveLen (stallOf s h).s[sn] = 0 := by simpa [moveLen, bitsOf] using zero
    exact ⟨idles rfl fun e own r => if_pos (by rw [scalars own]; exact len), idles rfl fun e own r => if_pos (by rw [scalars own]; exact len)⟩
  · have none : ((Shape.of (stallOf s h).s[sn]).rowBytes = 0 || (Shape.of (stallOf s h).s[sn]).rows = 0) = true := by
      simp only [Shape.of, bitsOf, Nat.pow_zero, Nat.div_one, Bool.or_eq_true, decide_eq_true_eq]
      omega
    exact ⟨idles rfl fun e own r => if_pos (by rw [scalars own]; exact none), idles rfl fun e own r => if_pos (by rw [scalars own]; exact none),
      idles rfl fun e own r => if_pos (by rw [scalars own]; exact none)⟩
  · refine idles rfl fun e own r => if_pos ?_
    have len : bitsOf (stallOf s h).s[sd].toNat 0 32 = 0 := by simpa [bitsOf] using zero
    rw [scalars own, len]
    exact Bool.or_true _

end

/-- Settles O22: an effect of the mover keeps the stalls, and of nothing does nothing. -/
theorem dataMoverIssues : Obligations.DataMoverIssues :=
  ⟨fun _ _ dsp ssp sd ss sn sa sb sc se td ts ready on => mover_issues ready on dsp ssp sd ss sn sa sb sc se td ts,
    fun _ _ dsp ssp sd ss sn sa sb sc se td ts ready on => mover_idles ready on dsp ssp sd ss sn sa sb sc se td ts⟩

end Sys2Proof
end

section
/-!
PROOFS of the family 05_instruction_set: the slot table (R143, R144, R146).
-/
namespace Sys2Proof

open Machine

/-! ### An instruction of a unit that accesses no memory -/

/-- Where the effect changes registers of `R` alone, the instruction is issued with the effect's record, and registers read what the
effect leaves. -/
theorem issue_registers {s : State} {h : Hdr} {unit : StallUnit} {co : Nat × Nat} {f : State → Flight → State × Flight} {t : State}
    {r : Flight} {R : Reg → Prop} (issue : s.canIssue h.stall .none = true) (free : s.unitFree h.stall unit (co.1 = 9) = true)
    (on : GuardOn s h) (ctrl : ¬ R .dbgTraceCtrl) (spill : ¬ R .dbgTraceSpill)
    (effect : f (s.issued h.stall (unitCode unit)) (s.newFlight unit h co) = (t, r))
    (only : OnlyStall h.stall R noByte (s.issued h.stall (unitCode unit)) t)
    (stall : t.stall h.stall = (s.issued h.stall (unitCode unit)).stall h.stall) :
    Leaves (s.issue h unit co .none f) fun v => Issued s v h (Passed (stallOf s h)) r R noByte ∧
      ∀ q, traceReg q = false → v.rd q = t.rd q := by
  refine ⟨(t.fly h.stall r).spread h.stall, ?_, ⟨?_, ?_⟩, fun q untraced => ?_⟩
  · rw [State.issue, show (s.stall h.stall).guard h = true from on, issueWith_next s h unit co .none true f issue free]
    simp only [State.acting, if_true, effect]
  · rw [spread_stall, fly_stall, stall, issued_stall]
    rfl
  · exact .trans ctrl spill (issued_only _ _ _ _ _ ctrl spill) (.trans ctrl spill only
      (.trans ctrl spill (modStall_only _ _ _ _ _) (spread_only _ _ _ _ _ ctrl spill)))
  · exact (spread_only (t.fly h.stall r) h.stall h.stall noReg noByte id id).regs q untraced id

/-! ### The table -/

/-- The words of a slot's entry that an instruction writes. -/
def slotReg (j : Fin 4096) (r : Reg) : Prop := r = .soSlot j 0 ∨ r = .soSlot j 1 ∨ r = .soSlot j 2

theorem slotReg_only {s : State} {n : Fin 128} {R : Reg → Prop} {j : Fin 4096} (within : ∀ r, slotReg j r → R r) {w : Fin 4}
    (own : slotReg j (.soSlot j w)) (v : BitVec 64) : OnlyStall n R noByte s (s.wr (.soSlot j w) v) :=
  wr_only s n R noByte v (within _ own) (by simp) (by simp) (by simp)

theorem slotOf_congr {s t : State} {c : Fin 64} (same : t.rd (.hstLoadRec1 c) = s.rd (.hstLoadRec1 c)) (k : Nat) :
    t.slotOf c k = s.slotOf c k := by
  simp only [State.slotOf, State.fld, same]
  rfl

theorem slotUnitOk_congr {s t : State} (same : t.ctxStables = s.ctxStables) (c : Fin 64) (space unit : Nat) :
    t.slotUnitOk c space unit = s.slotUnitOk c space unit := by
  simp only [State.slotUnitOk, same]

theorem issued_slotUnitOk (s : State) (h : Hdr) (c : Fin 64) (space unit : Nat) :
    (s.issued h.stall 3).slotUnitOk c space unit = s.slotUnitOk c space unit :=
  slotUnitOk_congr (by rw [(issued_only s h.stall 3 noReg noByte id id).rest]) ..

/-- An unbound slot is empty. -/
theorem slotUnbind_fields (s : State) (j : Fin 4096) : (s.slotUnbind j).slotBound j = false ∧
    (s.slotUnbind j).fld (.soSlot j 0) SlotF.full = 0 ∧ (s.slotUnbind j).fld (.soSlot j 2) SlotF.arrived = 0 := by
  have first : (s.slotUnbind j).rd (.soSlot j 0) = (s.setFlds (.soSlot j 0) [(SlotF.bound, 0), (SlotF.full, 0)]).rd (.soSlot j 0) :=
    State.rd_setFld_other _ _ _ (by simp)
  have words : (s.setFlds (.soSlot j 0) [(SlotF.bound, 0), (SlotF.full, 0)]).rd (.soSlot j 0) =
      SlotF.full.put (SlotF.bound.put (s.rd (.soSlot j 0)) 0) 0 := State.rd_wr_same ..
  refine ⟨?_, ?_, State.fld_setFld _ _ _ _ (by decide)⟩
  · have bound : (s.slotUnbind j).fld (.soSlot j 0) SlotF.bound = 0 := by
      rw [State.fld, first, words, Fld.get_put_apart (by decide), Fld.get_put _ (by decide)]
      rfl
    rw [State.slotBound, State.flag, bound]
    rfl
  · rw [State.fld, first, words, Fld.get_put _ (by decide)]
    rfl

theorem slotUnbind_only (s : State) (n : Fin 128) {R : Reg → Prop} {j : Fin 4096} (within : ∀ r, slotReg j r → R r)
    (ctrl : ¬ R .dbgTraceCtrl) (spill : ¬ R .dbgTraceSpill) : OnlyStall n R noByte s (s.slotUnbind j) :=
  .trans ctrl spill (slotReg_only within (.inl rfl) _) (slotReg_only within (.inr (.inr rfl)) _)

/-- A slot's entry as `slot.bind` writes it. -/
def bindSlot (s : State) (h : Hdr) (j : Fin 4096) (base size space unit expect : Nat) (c : Fin 64) (nctr : CReg) (nen : Bool) : State :=
  ((s.wr (.soSlot j 0) (pack [(SlotF.base, base), (SlotF.space, space), (SlotF.unit, unit), (SlotF.bound, 1),
        (SlotF.full, if expect = 0 then 1 else 0)])).wr (.soSlot j 1) (pack [(SlotF.size, size), (SlotF.expect, expect)])).wr (.soSlot j 2)
    (pack [(SlotF.arrived, 0), (SlotF.bstall, h.stall.val), (SlotF.nctr, nctr.val), (SlotF.nen, if nen then 1 else 0),
      (SlotF.context, c.val)])

theorem bindSlot_only (s : State) (h : Hdr) (j : Fin 4096) (base size space unit expect : Nat) (c : Fin 64) (nctr : CReg) (nen : Bool) :
    OnlyStall h.stall (slotReg j) noByte s (bindSlot s h j base size space unit expect c nctr nen) := by
  have ctrl : ¬ slotReg j .dbgTraceCtrl := by simp [slotReg]
  have spill : ¬ slotReg j .dbgTraceSpill := by simp [slotReg]
  exact .trans ctrl spill (.trans ctrl spill (slotReg_only (fun _ => id) (.inl rfl) _) (slotReg_only (fun _ => id) (.inr (.inl rfl)) _))
    (slotReg_only (fun _ => id) (.inr (.inr rfl)) _)

theorem bindSlot_fields (s : State) (h : Hdr) (j : Fin 4096) (base size space unit expect : Nat) (c : Fin 64) (nctr : CReg) (nen : Bool) :
    let t := bindSlot s h j base size space unit expect c nctr nen
    t.slotBound j = true ∧ t.fld (.soSlot j 0) SlotF.base = base % 2 ^ 48 ∧ t.fld (.soSlot j 1) SlotF.size = size % 2 ^ 32 ∧
      t.fld (.soSlot j 1) SlotF.expect = expect % 2 ^ 32 ∧ t.fld (.soSlot j 2) SlotF.arrived = 0 ∧
      t.fld (.soSlot j 2) SlotF.bstall = h.stall.val ∧ t.fld (.soSlot j 2) SlotF.nctr = nctr.val := by
  intro t
  have word0 : t.rd (.soSlot j 0) = pack [(SlotF.base, base), (SlotF.space, space), (SlotF.unit, unit), (SlotF.bound, 1),
      (SlotF.full, if expect = 0 then 1 else 0)] :=
    (State.rd_wr_other _ _ (by simp)).trans ((State.rd_wr_other _ _ (by simp)).trans (State.rd_wr_same ..))
  have word1 : t.rd (.soSlot j 1) = pack [(SlotF.size, size), (SlotF.expect, expect)] :=
    (State.rd_wr_other _ _ (by simp)).trans (State.rd_wr_same ..)
  have word2 : t.rd (.soSlot j 2) = pack [(SlotF.arrived, 0), (SlotF.bstall, h.stall.val), (SlotF.nctr, nctr.val),
      (SlotF.nen, if nen then 1 else 0), (SlotF.context, c.val)] := State.rd_wr_same ..
  have bound : t.fld (.soSlot j 0) SlotF.bound = 1 := by
    rw [State.fld, word0]
    exact Fld.get_puts (by decide) 1 [(SlotF.base, base), (SlotF.space, space), (SlotF.unit, unit)] [(SlotF.full, _)] (by rfl) 0
  refine ⟨by rw [State.slotBound, State.flag, bound]; rfl, ?_, ?_, ?_, ?_, ?_, ?_⟩
  · rw [State.fld, word0]
    exact Fld.get_puts (by decide) base [] [(SlotF.space, space), (SlotF.unit, unit), (SlotF.bound, 1), (SlotF.full, _)] (by rfl) 0
  · rw [State.fld, word1]
    exact Fld.get_puts (by decide) size [] [(SlotF.expect, expect)] (by rfl) 0
  · rw [State.fld, word1]
    exact Fld.get_puts (by decide) expect [(SlotF.size, size)] [] (by rfl) 0
  · rw [State.fld, word2]
    exact Fld.get_puts (by decide) 0 [] [(SlotF.bstall, _), (SlotF.nctr, _), (SlotF.nen, _), (SlotF.context, _)] (by rfl) 0
  · rw [State.fld, word2]
    exact (Fld.get_puts (by decide) h.stall.val [(SlotF.arrived, 0)] [(SlotF.nctr, _), (SlotF.nen, _), (SlotF.context, _)]
      (by rfl) 0).trans (Nat.mod_eq_of_lt h.stall.isLt)
  · rw [State.fld, word2]
    exact (Fld.get_puts (by decide) nctr.val [(SlotF.arrived, 0), (SlotF.bstall, _)] [(SlotF.nen, _), (SlotF.context, _)]
      (by rfl) 0).trans (Nat.mod_eq_of_lt nctr.isLt)

/-! ### The instructions -/

/-- An effect on the slot that a register names in its context's range; none where the range is empty (R143). -/
def onSlot (h : Hdr) (sa : SReg) (g : Fin 4096 → State → Flight → State × Flight) (s : State) (r : Flight) : State × Flight :=
  match s.slotOf (s.stall h.stall).context (s.stall h.stall).s[sa].toNat with
  | none => (s, r)
  | some j => g j s r

/-- What `slot.bind` does to a slot. -/
def bindEffect (h : Hdr) (sb sc sd : SReg) (nctr : CReg) (nen : Bool) (j : Fin 4096) (s : State) (r : Flight) : State × Flight :=
  let t := s.stall h.stall
  let cw := t.s[sc].toNat
  let expect := bitsOf t.s[sd].toNat 0 32
  if !s.slotUnitOk t.context (bitsOf cw 32 2) (bitsOf cw 34 7) then ((s.slotUnbind j).bump .soSlotBadbind 1, r)
  else (bindSlot s h j (bitsOf t.s[sb].toNat 0 48) (bitsOf cw 0 32) (bitsOf cw 32 2) (bitsOf cw 34 7) expect t.context nctr nen,
    if expect = 0 && nen then { r with tallies := [nctr] } else r)

/-- What `slot.stat` takes of a slot. -/
def statEffect (sd : SReg) (j : Fin 4096) (s : State) (r : Flight) : State × Flight :=
  (s, { r with sWrites := [(sd, BitVec.allOnes 64, BitVec.ofNat 64 (s.fld (.soSlot j 0) SlotF.bound +
    s.fld (.soSlot j 0) SlotF.full * 2 + s.fld (.soSlot j 2) SlotF.arrived * 2 ^ 32))] })

theorem exec_slotBind (h : Hdr) (sa sb sc sd : SReg) (nctr : CReg) (nen : Bool) (s : State) :
    exec (.slotBind h sa sb sc sd nctr nen) s = s.issue h .mover (11, 0) .none (onSlot h sa (bindEffect h sb sc sd nctr nen)) := rfl

theorem exec_slotFree (h : Hdr) (sa : SReg) (s : State) :
    exec (.slotFree h sa) s = s.issue h .mover (11, 1) .none (onSlot h sa fun j s r => (s.slotUnbind j, r)) := rfl

theorem exec_slotStat (h : Hdr) (sd sa : SReg) (s : State) :
    exec (.slotStat h sd sa) s = s.issue h .mover (11, 3) .none (onSlot h sa (statEffect sd)) := rfl

theorem bindEffect_eq {h : Hdr} {x : State} {t : Stall} (own : x.stall h.stall = Passed t) (sb sc sd : SReg) (nctr : CReg) (nen : Bool)
    (j : Fin 4096) (r : Flight) : bindEffect h sb sc sd nctr nen j x r =
      if !x.slotUnitOk t.context (bitsOf t.s[sc].toNat 32 2) (bitsOf t.s[sc].toNat 34 7) then
        ((x.slotUnbind j).bump .soSlotBadbind 1, r)
      else (bindSlot x h j (bitsOf t.s[sb].toNat 0 48) (bitsOf t.s[sc].toNat 0 32) (bitsOf t.s[sc].toNat 32 2)
          (bitsOf t.s[sc].toNat 34 7) (bitsOf t.s[sd].toNat 0 32) t.context nctr nen,
        if bitsOf t.s[sd].toNat 0 32 = 0 && nen then { r with tallies := [nctr] } else r) := by
  unfold bindEffect
  rw [own]
  rfl

/-- A binding that expects no byte advances its counter, if NEN is 1 (R144). -/
theorem bindRecord_tallies {r : Flight} (none : r.tallies = []) (nctr : CReg) (nen : Bool) (v : Nat) :
    (if bitsOf v 0 32 = 0 && nen then { r with tallies := [nctr] } else r).tallies = if v % 2 ^ 32 = 0 ∧ nen = true then [nctr] else [] := by
  rw [show bitsOf v 0 32 = v % 2 ^ 32 by simp [bitsOf]]
  by_cases full : v % 2 ^ 32 = 0 ∧ nen = true
  · rw [if_pos full, if_pos (by simp only [full.1, full.2]; rfl)]
  · rw [if_neg full, if_neg (by simpa using full)]
    exact none

section
variable {s : State} {h : Hdr} (ready : UnitReady s h .mover .none) (on : GuardOn s h) {sa : SReg} {op : Nat}
  {g : Fin 4096 → State → Flight → State × Flight}

/-- What an instruction of the SLOT class finds as it is issued. -/
theorem onSlot_issued (r : Flight) : onSlot h sa g (s.issued h.stall 3) r =
    match s.slotOf (stallOf s h).context (stallOf s h).s[sa].toNat with
    | none => (s.issued h.stall 3, r)
    | some j => g j (s.issued h.stall 3) r := by
  have own : (s.issued h.stall 3).stall h.stall = Passed (stallOf s h) := issued_stall ..
  unfold onSlot
  rw [own, slotOf_congr ((issued_only s h.stall 3 noReg noByte id id).regs _ rfl id)]
  rfl

include ready on

/-- In an empty range it has no effect. -/
theorem slot_idles (empty : s.fld (.hstLoadRec1 (stallOf s h).context) F.hstLoadRec1_SLOT_COUNT = 0) :
    Leaves (s.issue h .mover (11, op) .none (onSlot h sa g)) fun t =>
      ∃ r, Heads s h .mover 11 op r ∧ r = recordOf s h .mover 11 op ∧ Issued s t h (Passed (stallOf s h)) r noReg noByte := by
  have none : s.slotOf (stallOf s h).context (stallOf s h).s[sa].toNat = none := if_pos empty
  obtain ⟨t, next, issued, -⟩ := issue_registers (R := noReg) (co := (11, op)) ready.1 ready.2 on id id
    (show onSlot h sa g (s.issued h.stall 3) (s.newFlight .mover h (11, op)) = (s.issued h.stall 3, s.newFlight .mover h (11, op)) by
      rw [onSlot_issued, none]) (.refl ..) rfl
  exact ⟨t, next, _, ⟨rfl, rfl, rfl, rfl, rfl, rfl, rfl⟩, rfl, issued⟩

/-- Else it has its effect on its slot. -/
theorem slot_acts {j : Fin 4096} (names : s.slotOf (stallOf s h).context (stallOf s h).s[sa].toNat = some j) {t : State} {r : Flight}
    {R : Reg → Prop} (ctrl : ¬ R .dbgTraceCtrl) (spill : ¬ R .dbgTraceSpill)
    (effect : g j (s.issued h.stall 3) (s.newFlight .mover h (11, op)) = (t, r))
    (only : OnlyStall h.stall R noByte (s.issued h.stall 3) t) (stall : t.stall h.stall = (s.issued h.stall 3).stall h.stall) :
    Leaves (s.issue h .mover (11, op) .none (onSlot h sa g)) fun v => Issued s v h (Passed (stallOf s h)) r R noByte ∧
      ∀ q, traceReg q = false → v.rd q = t.rd q :=
  issue_registers (co := (11, op)) ready.1 ready.2 on ctrl spill
    (show onSlot h sa g (s.issued h.stall 3) (s.newFlight .mover h (11, op)) = (t, r) by rw [onSlot_issued, names]; exact effect)
    only stall

variable {sb sc sd : SReg} {nctr : CReg} {nen : Bool} {j : Fin 4096}
  (names : s.slotOf (stallOf s h).context (stallOf s h).s[sa].toNat = some j)
include names

/-- A binding that the context may have writes the slot's entry (R144). -/
theorem slotBind_binds
    (ok : s.slotUnitOk (stallOf s h).context (bitsOf (stallOf s h).s[sc].toNat 32 2) (bitsOf (stallOf s h).s[sc].toNat 34 7) = true) :
    Leaves (exec (.slotBind h sa sb sc sd nctr nen) s) fun t => ∃ r, Heads s h .mover 11 0 r ∧ (
      (t.slotBound j = true ∧ t.fld (.soSlot j 0) SlotF.base = (stallOf s h).s[sb].toNat % 2 ^ 48 ∧
      t.fld (.soSlot j 1) SlotF.size = (stallOf s h).s[sc].toNat % 2 ^ 32 ∧
      t.fld (.soSlot j 1) SlotF.expect = (stallOf s h).s[sd].toNat % 2 ^ 32 ∧
      t.fld (.soSlot j 2) SlotF.arrived = 0 ∧ t.fld (.soSlot j 2) SlotF.bstall = h.stall.val ∧
      t.fld (.soSlot j 2) SlotF.nctr = nctr.val ∧
      r.tallies = if (stallOf s h).s[sd].toNat % 2 ^ 32 = 0 ∧ nen = true then [nctr] else [])) ∧
      Issued s t h (Passed (stallOf s h)) r (slotReg j) noByte := by
  have allowed := (issued_slotUnitOk s h (stallOf s h).context (bitsOf (stallOf s h).s[sc].toNat 32 2)
    (bitsOf (stallOf s h).s[sc].toNat 34 7)).trans ok
  obtain ⟨t, next, issued, regs⟩ := slot_acts ready on names (by simp [slotReg]) (by simp [slotReg])
    ((bindEffect_eq (issued_stall s h.stall 3) sb sc sd nctr nen j _).trans (if_neg (by rw [stallOf] at allowed; rw [allowed]; simp)))
    (bindSlot_only ..) rfl
  obtain ⟨bound, base, size, expect, arrived, bstall, tally⟩ := bindSlot_fields (s.issued h.stall 3) h j
    (bitsOf (stallOf s h).s[sb].toNat 0 48) (bitsOf (stallOf s h).s[sc].toNat 0 32) (bitsOf (stallOf s h).s[sc].toNat 32 2)
    (bitsOf (stallOf s h).s[sc].toNat 34 7) (bitsOf (stallOf s h).s[sd].toNat 0 32) (stallOf s h).context nctr nen
  have kept (w : Fin 4) (f : Fld) := State.fld_congr f (regs (.soSlot j w) rfl)
  have low : ∀ v w : Nat, bitsOf v 0 w % 2 ^ w = v % 2 ^ w := fun v w => by simp [bitsOf]
  refine ⟨t, (exec_slotBind ..).trans next, _, ?_, ⟨?_, (kept ..).trans (base.trans (low ..)), (kept ..).trans (size.trans (low ..)),
    (kept ..).trans (expect.trans (low ..)), (kept ..).trans arrived, (kept ..).trans bstall, (kept ..).trans tally, ?_⟩, issued⟩
  · split <;> exact ⟨rfl, rfl, rfl, rfl, rfl, rfl, rfl⟩
  · exact (State.flag_congr _ (regs (.soSlot j 0) rfl)).trans bound
  · exact bindRecord_tallies rfl nctr nen _

/-- One that it may not have unbinds the slot, and is counted (R144). -/
theorem slotBind_refuses
    (bad : s.slotUnitOk (stallOf s h).context (bitsOf (stallOf s h).s[sc].toNat 32 2) (bitsOf (stallOf s h).s[sc].toNat 34 7) = false) :
    Leaves (exec (.slotBind h sa sb sc sd nctr nen) s) fun t => ∃ r, Heads s h .mover 11 0 r ∧
      (t.slotBound j = false ∧ t.fld (.soSlot j 2) SlotF.arrived = 0 ∧ Counted s t .soSlotBadbind 1) ∧
      Issued s t h (Passed (stallOf s h)) r (fun r => slotReg j r ∨ r = .soSlotBadbind) noByte := by
  have refused := (issued_slotUnitOk s h (stallOf s h).context (bitsOf (stallOf s h).s[sc].toNat 32 2)
    (bitsOf (stallOf s h).s[sc].toNat 34 7)).trans bad
  have ctrl : ¬ (slotReg j .dbgTraceCtrl ∨ Reg.dbgTraceCtrl = .soSlotBadbind) := by simp [slotReg]
  have spill : ¬ (slotReg j .dbgTraceSpill ∨ Reg.dbgTraceSpill = .soSlotBadbind) := by simp [slotReg]
  have only : OnlyStall h.stall (fun r => slotReg j r ∨ r = .soSlotBadbind) noByte (s.issued h.stall 3)
      (((s.issued h.stall 3).slotUnbind j).bump .soSlotBadbind 1) :=
    .trans ctrl spill (slotUnbind_only _ _ (fun _ => .inl) ctrl spill)
      (bump_only _ _ _ _ 1 (.inr rfl) (by simp) (by simp) (by simp) ctrl spill)
  obtain ⟨t, next, issued, regs⟩ := slot_acts ready on names ctrl spill
    ((bindEffect_eq (issued_stall s h.stall 3) sb sc sd nctr nen j _).trans (if_pos (by rw [stallOf] at refused; rw [refused]; rfl)))
    only (by rw [State.stall, State.bump_stalls]; rfl)
  obtain ⟨bound, -, arrived⟩ := slotUnbind_fields (s.issued h.stall 3) j
  have word (w : Fin 4) : t.rd (.soSlot j w) = ((s.issued h.stall 3).slotUnbind j).rd (.soSlot j w) :=
    (regs _ rfl).trans ((bump_frame ..).regs _ (by simp))
  have before : ((s.issued h.stall 3).slotUnbind j).rd .soSlotBadbind = s.rd .soSlotBadbind :=
    ((slotUnbind_only _ h.stall (fun _ => id) (by simp [slotReg]) (by simp [slotReg])).regs _ rfl (by simp [slotReg])).trans
      ((issued_only s h.stall 3 noReg noByte id id).regs _ rfl id)
  exact ⟨t, (exec_slotBind ..).trans next, _, ⟨rfl, rfl, rfl, rfl, rfl, rfl, rfl⟩, ⟨(State.flag_congr _ (word 0)).trans bound,
    (State.fld_congr _ (word 2)).trans arrived, counted_of_bump before 1 (regs _ rfl)⟩, issued⟩

theorem slotFree_unbinds : Leaves (exec (.slotFree h sa) s) fun t => ∃ r, Heads s h .mover 11 1 r ∧
    (t.slotBound j = false ∧ t.fld (.soSlot j 0) SlotF.full = 0 ∧ t.fld (.soSlot j 2) SlotF.arrived = 0) ∧
    Issued s t h (Passed (stallOf s h)) r (slotReg j) noByte := by
  obtain ⟨t, next, issued, regs⟩ := slot_acts (g := fun j s r => (s.slotUnbind j, r)) ready on names (by simp [slotReg])
    (by simp [slotReg]) rfl (slotUnbind_only _ _ (fun _ => id) (by simp [slotReg]) (by simp [slotReg])) rfl
  obtain ⟨bound, full, arrived⟩ := slotUnbind_fields (s.issued h.stall 3) j
  have kept (w : Fin 4) (f : Fld) := State.fld_congr f (regs (.soSlot j w) rfl)
  exact ⟨t, (exec_slotFree ..).trans next, _, ⟨rfl, rfl, rfl, rfl, rfl, rfl, rfl⟩,
    ⟨(State.flag_congr _ (regs (.soSlot j 0) rfl)).trans bound, (kept ..).trans full, (kept ..).trans arrived⟩, issued⟩

theorem slotStat_takes : Leaves (exec (.slotStat h sd sa) s) fun t => ∃ r, Heads s h .mover 11 3 r ∧
    r.sWrites = [(sd, BitVec.allOnes 64, BitVec.ofNat 64 (s.fld (.soSlot j 0) SlotF.bound + s.fld (.soSlot j 0) SlotF.full * 2 +
      s.fld (.soSlot j 2) SlotF.arrived * 2 ^ 32))] ∧ Issued s t h (Passed (stallOf s h)) r noReg noByte := by
  obtain ⟨t, next, issued, -⟩ := slot_acts (g := statEffect sd) (R := noReg) ready on names id id rfl (.refl ..) rfl
  have kept (w : Fin 4) (f : Fld) := State.fld_congr f ((issued_only s h.stall 3 noReg noByte id id).regs (.soSlot j w) rfl id)
  exact ⟨t, (exec_slotStat ..).trans next, _, ⟨rfl, rfl, rfl, rfl, rfl, rfl, rfl⟩, by rw [← kept 0 SlotF.bound, ← kept 0 SlotF.full, ← kept 2 SlotF.arrived], issued⟩

end

/-- Settles O24: in an empty range nothing happens, and else the slot's entry takes what the instruction gives it. -/
theorem slotTableInstructions : Obligations.SlotTableInstructions := by
  intro s h sa sb sc sd nctr nen ready on st rec1 count j cw ok slot does
  have names (some : count ≠ 0) : s.slotOf (stallOf s h).context (stallOf s h).s[sa].toNat = Option.some j := if_neg some
  refine ⟨fun empty => ⟨?_, ?_, ?_⟩,
    fun some yes => slotBind_binds ready on (names some) yes, fun some no => slotBind_refuses ready on (names some) no,
    fun some => slotFree_unbinds ready on (names some), fun some => slotStat_takes ready on (names some)⟩
  · exact exec_slotBind h sa sb sc sd nctr nen s ▸ slot_idles ready on empty
  · exact exec_slotFree h sa s ▸ slot_idles ready on empty
  · exact exec_slotStat h sd sa s ▸ slot_idles ready on empty

end Sys2Proof
end

section
/-!
PROOFS of the family 05_instruction_set: BAR2, the host link and its transfers (R178, R297 to R301).
-/
namespace Sys2Proof

open Machine

/-! ### A read leaves what is to be sent to the host -/

theorem bump_hostOut (s : State) (r : Reg) (n : Nat) : (s.bump r n).hostOut = s.hostOut := by rw [(bump_frame s r n).rest]

theorem log_hostOut (s : State) (unit : Fin 1024) (event ctx : Nat) (data : List Byte) :
    (s.log unit event ctx data).hostOut = s.hostOut := by rw [(log_frame s unit event ctx data).rest]

theorem postPoison_hostOut (s : State) (u : Nat) (scrub : Bool) : (s.postPoison u scrub).hostOut = s.hostOut := by
  simp only [State.postPoison]
  split
  · exact bump_hostOut ..
  · show (State.aonAdd _ _ _).hostOut = _
    rw [aonAdd_eq]
    rfl

theorem recordUe_hostOut (s : State) (unit : Fin 1024) (r : Reg) (off : Nat) : (s.recordUe unit r off).hostOut = s.hostOut := by
  unfold State.recordUe
  split
  · exact log_hostOut ..
  · rfl

theorem newUe_hostOut (s : State) (u : Nat) (scrub : Bool) : (s.newUe u scrub).hostOut = s.hostOut := by
  simp only [State.newUe, State.logPoison, apply_ite State.hostOut, postPoison_hostOut, log_hostOut, recordUe_hostOut, bump_hostOut]
  simp only [ite_self]
  rfl

theorem newCe_hostOut (s : State) (u : Nat) : (s.newCe u).hostOut = s.hostOut := by
  simp only [State.newCe, apply_ite State.hostOut, bump_hostOut, ite_self]

theorem touch_hostOut (s : State) (u : Nat) (scrub : Bool) : (s.touch u scrub).hostOut = s.hostOut := by
  simp only [State.touch, apply_ite State.hostOut, newUe_hostOut, newCe_hostOut, ite_self]

theorem readMem_hostOut (s : State) (as : List Nat) : (s.readMem as).1.hostOut = s.hostOut := by
  have units (us : List Nat) (s : State) : (us.foldl (fun s u => (s.request false u).touch u) s).hostOut = s.hostOut := by
    induction us generalizing s with
    | nil => rfl
    | cons u us ih => rw [List.foldl_cons, ih, touch_hostOut, (request_traced s false u).rest]
  have noted (s : State) : (s.noteReads as).hostOut = s.hostOut := by
    unfold State.noteReads
    split
    · split <;> rfl
    · rfl
  have passed (s : State) (k : Racing → Nat) : (s.racesPerform k).hostOut = s.hostOut := by unfold State.racesPerform; split <;> rfl
  have next : s.nextAccess.hostOut = s.hostOut := by unfold State.nextAccess; split <;> rfl
  simp only [State.readMem]
  rw [aonAdd_eq, aonAdd_eq]
  exact (units ..).trans ((noted _).trans ((passed ..).trans next))

/-! ### BAR2 -/

/-- The addresses of an access through BAR2 (R178, R298). -/
def bar2Addr (s : State) (off : BitVec 36) (k : Nat) : Nat := s.fld .hstBar2Win F.hstBar2Win_WIN * 2 ^ 36 + (off.toNat + k) % 2 ^ 36

theorem bar2Addr_inj {s : State} {off : BitVec 36} {i j : Nat} (hi : i < 2 ^ 36) (hj : j < 2 ^ 36)
    (same : bar2Addr s off i = bar2Addr s off j) : i = j := by
  simp only [bar2Addr] at same
  omega

/-- The bytes that a write through BAR2 carries. -/
def bar2Data (len : Nat) (data : List MByte) : List MByte := (List.range len).map fun i => data.getD i (0, false)

theorem exec_bar2Write {s : State} (up : s.dieUp = true) (off : BitVec 36) (len : Nat) (data : List MByte) :
    exec (.bar2Access off true len data) s =
      .next (((s.hostData (bar2Data len data)).writeGuarded ((List.range len).map fun k => (bar2Addr s off k, data.getD k (0, false)))).countRsvd
        ((List.range len).map (bar2Addr s off))) := by
  rw [← List.zip_map']
  show Host.Outcome.next _ = _
  simp only [up, Bool.not_true, Bool.false_eq_true, if_false, if_true]
  rfl

theorem exec_bar2Read {s : State} (up : s.dieUp = true) (off : BitVec 36) (len : Nat) (data : List MByte) :
    exec (.bar2Access off false len data) s = .next ((s.readMem ((List.range len).map (bar2Addr s off))).1.hostReply
      (s.readMem ((List.range len).map (bar2Addr s off))).2) := by
  show Host.Outcome.next _ = _
  simp only [up, Bool.not_true, Bool.false_eq_true, if_false]
  rfl

/-- What arrives from the host is counted, and shows in the Advanced Error Reporting where it is poisoned. -/
theorem hostData_eq (s : State) (bs : List MByte) : s.hostData bs =
    { s with linkRx := s.linkRx + bs.length, aonDie := (s.hostRecv bs.length).aonDie, aer := (s.hostData bs).aer } := by
  unfold State.hostData
  rw [hostRecv_eq]
  dsimp only
  split <;> rfl

/-- A write through BAR2. -/
theorem bar2Write_stores {s : State} (up : s.dieUp = true) (off : BitVec 36) (len : Nat) (data : List MByte) :
    Leaves (exec (.bar2Access off true len data) s) fun t => t.stalls = s.stalls ∧ t.linkRx = s.linkRx + len ∧
      (NoRing s → (∀ a, (∀ k, k < len → a ≠ bar2Addr s off k) → Memory.read t.mem a = Memory.read s.mem a) ∧
        (Sound s → Still s → len ≤ 2 ^ 36 → ∀ k, k < len → Memory.read t.mem (bar2Addr s off k) =
          if backed (bar2Addr s off k) && (s.codeOwner (bar2Addr s off k)).isNone && (rsvdOwner (bar2Addr s off k)).isNone
          then (data.getD k (0, false)).1 else Memory.read s.mem (bar2Addr s off k))) := by
  refine ⟨_, exec_bar2Write up off len data, ?_⟩
  obtain ⟨stalls, linkRx, stores⟩ := writeGuarded_stores (s.hostData (bar2Data len data))
    ((List.range len).map fun k => (bar2Addr s off k, data.getD k (0, false))) ((List.range len).map (bar2Addr s off))
  rw [hostData_eq] at stalls linkRx stores ⊢
  refine ⟨stalls, linkRx.trans (by simp [bar2Data]), fun ring => ?_⟩
  obtain ⟨xs, sub, all, mem⟩ := stores ring
  refine ⟨fun a out => ?_, fun sound still short k hk => ?_⟩
  · rw [mem]
    refine read_unwritten _ fun w hw same => ?_
    obtain ⟨k, hk, rfl⟩ := List.mem_map.mp (mem_storedBytes.mp (sub w hw)).1
    exact out k (List.mem_range.mp hk) same.symm
  · have distinct : (((List.range len).map fun k => (bar2Addr s off k, data.getD k (0, false))).map (·.1)).Nodup := by
      rw [List.map_map]
      exact List.Nodup.map_on (fun i hi j hj same => bar2Addr_inj ((List.mem_range.mp hi).trans_le short)
        ((List.mem_range.mp hj).trans_le short) same) List.nodup_range
    have own : (bar2Addr s off k, data.getD k (0, false)) ∈ (List.range len).map fun k => (bar2Addr s off k, data.getD k (0, false)) :=
      List.mem_map.mpr ⟨k, List.mem_range.mpr hk, rfl⟩
    rw [mem, all still]
    split
    · next stored => exact read_written (storedBytes_nodup _ distinct) sound (mem_storedBytes.mpr ⟨own, stored⟩)
    · next kept =>
      refine read_unwritten _ fun w hw same => kept ?_
      rw [← same]
      exact (mem_storedBytes.mp hw).2

/-- A read through BAR2. -/
theorem bar2Read_answers {s : State} (up : s.dieUp = true) (off : BitVec 36) (len : Nat) (data : List MByte) :
    Leaves (exec (.bar2Access off false len data) s) fun t => t.stalls = s.stalls ∧ t.linkTx = s.linkTx + len ∧
      (NoRing s → t.mem = s.mem) ∧ ∃ bs, t.hostOut = s.hostOut ++ replies bs ∧ bs.length = len ∧
      (NoRing s → Clean s → ∀ k, k < len →
        bs.getD k (0, true) = (if backed (bar2Addr s off k) then Memory.read s.mem (bar2Addr s off k) else 0, false)) := by
  have access := readMem_access s ((List.range len).map (bar2Addr s off))
  have length : (s.readMem ((List.range len).map (bar2Addr s off))).2.length = len := by
    rw [readMem_length, List.length_map, List.length_range]
  refine ⟨_, exec_bar2Read up off len data, ?_⟩
  rw [hostReply_eq]
  refine ⟨access.stalls, ?_, fun ring => access.mem (noRing_off ring), _, congrArg (· ++ _) (readMem_hostOut ..), length,
    fun ring clean k hk => ?_⟩
  · rw [length]
    exact congrArg (· + len) access.linkTx
  · rw [readMem_bytes clean (noRing_off ring), List.map_map, List.getD_eq_getElem _ _ (by simpa using hk)]
    simp

/-! ### The host link's training -/

theorem linkStatus_sets {s : State} (v : BitVec 64) :
    Sets s (.next (s.wr .hstLinkStatus v)) (fun q => q = .hstLinkStatus) fun t => t.rd .hstLinkStatus = v :=
  (wr_frame s .hstLinkStatus v).sets (State.rd_wr_same ..)

/-- A field put above all that a register holds so far. -/
theorem put_above {f : Fld} {v : BitVec 64} {n x : Nat} (holds : v = BitVec.ofNat 64 n) (below : n < 2 ^ f.lo) (small : x < 2 ^ f.w)
    (within : f.lo + f.w ≤ 64) : f.put v x = BitVec.ofNat 64 (n + x * 2 ^ f.lo) := by
  have whole : n < 2 ^ 64 := below.trans_le (Nat.pow_le_pow_right (by decide) (by omega))
  have word : v.toNat = n := by rw [holds, BitVec.toNat_ofNat, Nat.mod_eq_of_lt whole]
  have empty : f.get v = 0 := by rw [Fld.get, word, bitsOf, Nat.div_eq_of_lt below, Nat.zero_mod]
  rw [Fld.put, word, empty, Nat.zero_mul, Nat.sub_zero, Nat.mod_eq_of_lt small]

/-- HST_LINK_STATUS of a link that has trained. -/
theorem pack_linkStatus {w r : Nat} (hw : w < 2 ^ 5) (hr : r < 2 ^ 3) {flit degraded : Nat} (hf : flit < 2) (hd : degraded < 2) :
    pack [(F.hstLinkStatus_WIDTH, w), (F.hstLinkStatus_RATE, r), (F.hstLinkStatus_FLIT, flit), (F.hstLinkStatus_DEGRADED, degraded)] =
      BitVec.ofNat 64 (w + r * 2 ^ 5 + flit * 2 ^ 8 + degraded * 2 ^ 9) := by
  have width := put_above (f := F.hstLinkStatus_WIDTH) (v := 0) rfl (by decide) hw (by decide)
  have rate := put_above (f := F.hstLinkStatus_RATE) width (by simp [F.hstLinkStatus_WIDTH, F.hstLinkStatus_RATE]; omega) hr (by decide)
  have mode := put_above (f := F.hstLinkStatus_FLIT) rate
    (by simp [F.hstLinkStatus_WIDTH, F.hstLinkStatus_RATE, F.hstLinkStatus_FLIT]; omega) hf (by decide)
  refine (put_above (f := F.hstLinkStatus_DEGRADED) mode ?_ hd (by decide)).trans ?_
  · simp [F.hstLinkStatus_WIDTH, F.hstLinkStatus_RATE, F.hstLinkStatus_FLIT, F.hstLinkStatus_DEGRADED]
    omega
  · simp [F.hstLinkStatus_WIDTH, F.hstLinkStatus_RATE, F.hstLinkStatus_FLIT, F.hstLinkStatus_DEGRADED]

theorem linkOk_iff (w : BitVec 5) (r : BitVec 3) (fl : Bool) :
    linkOk (some (w, r, fl)) = true ↔ (w = 1 ∨ w = 2 ∨ w = 4 ∨ w = 8 ∨ w = 16) ∧ r.toNat ≤ 5 := by
  simp [linkOk, or_assoc]

theorem exec_linkDown {s : State} (up : s.dieUp = true) : exec (.hostLinkTraining none) s = .next (s.wr .hstLinkStatus 0) := by
  show Host.Outcome.next (if !s.dieUp then s else s.wr .hstLinkStatus 0) = _
  rw [up]
  rfl

theorem exec_linkUp {s : State} (up : s.dieUp = true) {w : BitVec 5} {r : BitVec 3} {fl : Bool}
    (width : w = 1 ∨ w = 2 ∨ w = 4 ∨ w = 8 ∨ w = 16) (rate : r.toNat ≤ 5) :
    exec (.hostLinkTraining (some (w, r, fl))) s = .next (s.wr .hstLinkStatus (BitVec.ofNat 64 (w.toNat + r.toNat * 2 ^ 5 +
      (if fl then 2 ^ 8 else 0) + (if w = 16 ∧ r = 5 then 0 else 2 ^ 9)))) := by
  have ok := (linkOk_iff w r fl).mpr ⟨width, rate⟩
  show (if !linkOk _ then _ else Host.Outcome.next (if !s.dieUp then s else s.wr _ (pack [(F.hstLinkStatus_WIDTH, w.toNat),
    (F.hstLinkStatus_RATE, r.toNat), (F.hstLinkStatus_FLIT, _), (F.hstLinkStatus_DEGRADED, _)]))) = _
  rw [ok, up, pack_linkStatus w.isLt r.isLt (by split <;> decide) (by split <;> decide)]
  simp only [Bool.not_true, Bool.false_eq_true, if_false, Bool.and_eq_true, decide_eq_true_eq, ite_mul, Nat.zero_mul, Nat.one_mul]

theorem exec_linkRefused (s : State) (w : BitVec 5) (r : BitVec 3) (fl : Bool)
    (bad : ¬ (w = 1 ∨ w = 2 ∨ w = 4 ∨ w = 8 ∨ w = 16) ∨ 5 < r.toNat) :
    exec (.hostLinkTraining (some (w, r, fl))) s = .fault (.illFormed "HOST_LINK_TRAINING") := by
  have refused : linkOk (some (w, r, fl)) = false := by
    rw [← Bool.not_eq_true, linkOk_iff]
    exact fun ok => bad.elim (· ok.1) (Nat.not_lt.mpr ok.2)
  show (if !linkOk _ then _ else _) = _
  rw [refused]
  rfl

/-! ### The transfers of the host link -/

/-- Where the `k`-th of the transfers begins: at a multiple of the greatest size, or at the first byte. -/
def spanStart (size a k : Nat) : Nat := size * k - a % size

/-- The `k`-th of the transfers, if there is one. -/
def spanAt (size a len k : Nat) : Option (Nat × Nat) :=
  if spanStart size a k < min len (spanStart size a (k + 1)) then
    some (spanStart size a k, min len (spanStart size a (k + 1)) - spanStart size a k)
  else none

theorem spans_eq (size a len : Nat) : spans size a len = (List.range (len / size + 2)).filterMap (spanAt size a len) := rfl

theorem spanStart_le_succ (size a k : Nat) : spanStart size a k ≤ spanStart size a (k + 1) :=
  Nat.sub_le_sub_right (Nat.mul_le_mul_left _ (Nat.le_succ k)) _

/-- The bytes of the first transfers, in their order. -/
theorem spans_join (size a len n : Nat) : (((List.range n).filterMap (spanAt size a len)).flatMap fun p => List.range' p.1 p.2) =
    List.range (min len (spanStart size a n)) := by
  induction n with
  | zero => simp [spanStart]
  | succ n ih =>
    have grows := spanStart_le_succ size a n
    rw [List.range_succ, List.filterMap_append, List.flatMap_append, ih]
    by_cases more : spanStart size a n < min len (spanStart size a (n + 1))
    · have cut : [n].filterMap (spanAt size a len) = [(spanStart size a n, min len (spanStart size a (n + 1)) - spanStart size a n)] := by
        simp only [List.filterMap_cons, List.filterMap_nil, spanAt, if_pos more]
      rw [cut, List.flatMap_singleton, Nat.min_eq_right (by omega), List.range_eq_range', List.range_eq_range']
      have joined := List.range'_append_1 (s := 0) (m := spanStart size a n)
        (n := min len (spanStart size a (n + 1)) - spanStart size a n)
      rwa [Nat.zero_add, Nat.add_sub_cancel' more.le] at joined
    · have cut : [n].filterMap (spanAt size a len) = [] := by
        simp only [List.filterMap_cons, List.filterMap_nil, spanAt, if_neg more]
      rw [cut, List.flatMap_nil, List.append_nil]
      congr 1
      omega

/-- A transfer lies between two multiples of the greatest size. -/
theorem spanAt_within {size : Nat} (pos : 0 < size) {a len k : Nat} {p : Nat × Nat} (at' : spanAt size a len k = some p) :
    0 < p.2 ∧ p.2 ≤ size ∧ (a + p.1 + p.2 - 1) / size = (a + p.1) / size := by
  unfold spanAt at at'
  split at at'
  · next more =>
    cases at'
    have split' := Nat.div_add_mod a size
    have low := Nat.mod_lt a pos
    have after : size * (k + 1) = size * k + size := Nat.mul_succ ..
    have place : size * (a / size + k) = size * (a / size) + size * k := Nat.mul_add ..
    have inside (x : Nat) (from' : size * (a / size + k) ≤ x) (before : x < size * (a / size + k) + size) : x / size = a / size + k := by
      refine Nat.div_eq_of_lt_le (by rwa [Nat.mul_comm]) ?_
      rwa [Nat.mul_comm, Nat.mul_succ]
    simp only [spanStart] at more ⊢
    refine ⟨by omega, by omega, ?_⟩
    exact (inside _ (by omega) (by omega)).trans (inside _ (by omega) (by omega)).symm
  · cases at'

/-- The transfers are all the bytes. -/
theorem spans_bytes {size : Nat} (pos : 0 < size) (a len : Nat) :
    ((spans size a len).flatMap fun p => List.range' p.1 p.2) = List.range len := by
  rw [spans_eq, spans_join]
  congr 1
  have all := Nat.lt_mul_div_succ len pos
  have low := Nat.mod_lt a pos
  have after : size * (len / size + 2) = size * (len / size + 1) + size := Nat.mul_succ ..
  simp only [spanStart]
  omega

/-- Settles O30: bytes by the addresses of the window, the link's register, and the transfers one by one. -/
theorem bar2AccessesAndLink : Obligations.Bar2AccessesAndLink := by
  refine ⟨fun s off len data up => ⟨bar2Write_stores up off len data, bar2Read_answers up off len data⟩, fun s w r fl up => ?_,
    fun size a len pos => ⟨spans_bytes pos a len, fun p hp => ?_⟩⟩
  · refine ⟨exec_linkDown up ▸ linkStatus_sets 0, fun width rate => ?_, fun bad => exec_linkRefused s w r fl bad⟩
    rw [exec_linkUp up width rate]
    exact linkStatus_sets _
  · obtain ⟨k, -, at'⟩ := List.mem_filterMap.mp hp
    exact spanAt_within pos at'

end Sys2Proof
end

section
/-!
PROOFS of the family 05_instruction_set: clearances of letters that name no context (R249, R280, R322).
-/
namespace Sys2Proof

open Machine Tests

/-- The clearance of a stream of COLL letters, whose job tag no context has. -/
def strayClearance : Letter := { dest := 0, src := 1, cls := .coll, jobTag := 8, op := 0x3F }

/-- It is counted as a letter of no context, and as one of no group (R280). -/
theorem strayClearance_counts : after (exec (.clearanceReceive strayClearance) host0) (fun t => (t.rd .soNocontext, t.rd .ceNogroup)) =
    some (1, 1) ∧ host0.rd .ceNogroup = 0 := by decide

/-- Refutes O53: a clearance may be one of a stream of COLL letters, and where it names no context, the counter of letters without a group
counts it too, as it does every such letter (R280; log entry 86). -/
theorem not_receiptsTimersAndClearance : ¬ Obligations.ReceiptsTimersAndClearance := by
  intro claim
  obtain ⟨-, -, -, -, -, -, clearance⟩ := claim host0 strayClearance ⟨0, .coll, 0⟩ 0 (by decide) (by decide)
  obtain ⟨-, lost, -⟩ := clearance rfl
  obtain ⟨t, next, quiet, -⟩ := lost (by decide) (by decide)
  have kept : t.rd .ceNogroup = host0.rd .ceNogroup := quiet.regs .ceNogroup rfl (by simp [strayClearance, dropReg])
  obtain ⟨counts, none⟩ := strayClearance_counts
  rw [next] at counts
  have counted : t.rd .ceNogroup = 1 := congrArg Prod.snd (Option.some.inj counts)
  rw [counted, none] at kept
  exact absurd kept (by decide)

end Sys2Proof
end

section
/-!
PROOFS of the family 05_instruction_set: what an access to memory leaves as it was, whoever makes it (R16, R183, R190 to R200).
-/
namespace Sys2Proof

open Machine

/-- The registers that an access may write, the counters of discarded writes and of reserved regions among them. -/
def visitReg : Reg → Bool
  | .stlSeqCodewrite _ | .stbSramRsvd _ => true
  | r => accessReg r

theorem visitReg_of_accessReg {r : Reg} (h : accessReg r = true) : visitReg r = true := by
  cases r <;> first | rfl | exact h

/-- From `s` to `t` nothing has changed but bytes of `W` and what an access to memory changes beside them: errors found, what is known of
writes under way, cached translations, pages refused, and the trace. -/
structure Visited (W : Nat → Prop) (s t : State) : Prop where
  rest : t =
    { s with regs := t.regs, mem := t.mem, poison := t.poison, latentUe := t.latentUe, latentCe := t.latentCe, racing := t.racing,
             underway := t.underway, sourceWords := t.sourceWords, raceNo := t.raceNo, aonDie := t.aonDie, xlat := t.xlat,
             xlatUnits := t.xlatUnits, xlatNo := t.xlatNo, refusing := t.refusing, outQ := t.outQ, trace := t.trace,
             memReqs := t.memReqs, irqs := t.irqs, msixPend := t.msixPend, redfish := t.redfish }
  regs : ∀ r, visitReg r = false → t.rd r = s.rd r
  out : DiagOnly s t
  mem : ∀ a, ¬ inRing s a → ¬ W a → Memory.read t.mem a = Memory.read s.mem a
  top : ringTop t ≤ ringTop s

namespace Visited

variable {W : Nat → Prop} {s t u : State}

theorem ring (h : Visited W s t) {a : Nat} (inside : inRing t a) : inRing s a := by
  obtain ⟨on, low, high⟩ := inside
  rw [State.flag_congr _ (h.regs .dbgTraceCtrl rfl)] at on
  rw [State.fld_congr _ (h.regs .dbgTraceSpill rfl)] at low high
  exact ⟨on, low, high.trans_le (Nat.add_le_add_left h.top _)⟩

theorem refl (W : Nat → Prop) (s : State) : Visited W s s := ⟨rfl, fun _ _ => rfl, .refl s, fun _ _ _ => rfl, Nat.le_refl _⟩

theorem trans (h : Visited W s t) (k : Visited W t u) : Visited W s u where
  rest := by rw [k.rest, h.rest]
  regs r hr := (k.regs r hr).trans (h.regs r hr)
  out := h.out.trans k.out
  mem a out at' := (k.mem a (fun inside => out (h.ring inside)) at').trans (h.mem a out at')
  top := k.top.trans h.top

theorem mono {V : Nat → Prop} (h : Visited W s t) (within : ∀ a, W a → V a) : Visited V s t :=
  { h with mem := fun a out at' => h.mem a out fun w => at' (within a w) }

theorem foldl {α : Type} (f : State → α → State) (h : ∀ t x, Visited W t (f t x)) (xs : List α) (s : State) :
    Visited W s (xs.foldl f s) := by
  induction xs generalizing s with
  | nil => exact .refl W s
  | cons x xs ih => exact (h s x).trans (ih _)

end Visited

/-- A visit that changes no register and no byte. -/
theorem visited_same {W : Nat → Prop} {s t : State} (rest : t =
    { s with poison := t.poison, latentUe := t.latentUe, latentCe := t.latentCe, racing := t.racing, underway := t.underway,
             sourceWords := t.sourceWords, raceNo := t.raceNo, aonDie := t.aonDie, xlat := t.xlat, xlatUnits := t.xlatUnits,
             xlatNo := t.xlatNo, refusing := t.refusing, memReqs := t.memReqs }) : Visited W s t where
  rest := by rw [rest]
  regs r _ := by rw [rest]; rfl
  out := .of_eq (by rw [rest])
  mem a _ _ := by rw [rest]
  top := Nat.le_of_eq (by rw [rest]; rfl)

theorem Traced.visited {s t : State} (h : Traced s t) (W : Nat → Prop) : Visited W s t where
  rest := by rw [h.rest]
  regs r hr := h.regs r (by
    by_contra on
    rw [visitReg_of_accessReg (accessReg_of_traceReg (by simpa using on))] at hr
    cases hr)
  out := h.out
  mem a out _ := h.mem a out
  top := h.top

theorem RegFrame.visited {R : Reg → Prop} {s t : State} (h : RegFrame R s t) (W : Nat → Prop)
    (links : t.linkRx = s.linkRx ∧ t.linkTx = s.linkTx) (within : ∀ r, R r → visitReg r = true) (ring : ¬ R .dbgTraceStatus) :
    Visited W s t where
  rest := by rw [h.rest, links.1, links.2]
  regs r hr := h.regs r fun k => by rw [within r k] at hr; cases hr
  out := .of_eq (by rw [h.rest])
  mem a _ _ := by rw [h.rest]
  top := Nat.le_of_eq (ringTop_congr (h.regs _ fun k => absurd (within _ k) (by decide)) (h.regs _ fun k => absurd (within _ k) (by decide))
    (h.regs _ ring))

theorem aonAdd_visited (s : State) (W : Nat → Prop) (i n : Nat) : Visited W s (s.aonAdd i n) := visited_same (by rw [aonAdd_eq])

theorem bump_visited (s : State) (W : Nat → Prop) {r : Reg} (h : visitReg r = true) (ring : r ≠ .dbgTraceStatus) (n : Nat) :
    Visited W s (s.bump r n) := by
  refine (bump_frame s r n).visited W ?_ (fun _ e => e ▸ h) fun e => ring e.symm
  simp only [State.bump]
  split
  · rw [aonAdd_eq]
    exact ⟨rfl, rfl⟩
  · exact ⟨rfl, rfl⟩

theorem wr_visited (s : State) (W : Nat → Prop) {r : Reg} (h : visitReg r = true) (ring : r ≠ .dbgTraceStatus) (v : BitVec 64) :
    Visited W s (s.wr r v) :=
  (wr_frame s r v).visited W ⟨rfl, rfl⟩ (fun _ e => e ▸ h) fun e => ring e.symm

/-! ### Errors found -/

theorem postPoison_visited (s : State) (W : Nat → Prop) (u : Nat) (scrub : Bool) : Visited W s (s.postPoison u scrub) := by
  have told (t : State) : Visited W t { t.raise 256 with redfish := (t.raise 256).redfish ++ [.poison] } :=
    ⟨rfl, fun _ _ => rfl, .of_eq rfl, fun _ _ _ => rfl, Nat.le_refl _⟩
  simp only [State.postPoison]
  split
  · exact bump_visited s W rfl (by simp) 1
  · refine .trans (.trans ?_ (aonAdd_visited _ W _ _)) (told _)
    exact ((wr_visited s W rfl (by simp) _).trans (wr_visited _ W rfl (by simp) _)).trans (wr_visited _ W rfl (by simp) _)

theorem logPoison_visited (s : State) (W : Nat → Prop) (u : Nat) : Visited W s (s.logPoison (homeUnit u) u) :=
  (log_traced s _ _ _ (homeUnit_ne u)).visited W

theorem recordUe_visited (s : State) (W : Nat → Prop) {unit : Fin 1024} (h : unit ≠ 0x3FF) {r : Reg} (hr : visitReg r = true)
    (ring : r ≠ .dbgTraceStatus) (off : Nat) : Visited W s (s.recordUe unit r off) := by
  simp only [State.recordUe]
  split
  · exact (log_traced s _ _ _ h).visited W
  · exact wr_visited s W hr ring _

theorem newUe_visited (s : State) (W : Nat → Prop) (u : Nat) (scrub : Bool) : Visited W s (s.newUe u scrub) := by
  have home := homeUnit_ne u
  have poisoned : Visited W s ({ s with latentUe := s.latentUe.filter (· ≠ u) }.poisonUnit u) := visited_same rfl
  have store (t : State) {r q : Reg} (hr : visitReg r = true) (hq : visitReg q = true) (nr : r ≠ .dbgTraceStatus)
      (nq : q ≠ .dbgTraceStatus) (off : Nat) : Visited W t (((t.bump r 1).recordUe (homeUnit u) q off).logPoison (homeUnit u) u) :=
    ((bump_visited t W hr nr 1).trans (recordUe_visited _ W home hq nq off)).trans (logPoison_visited _ W u)
  have stack (t : State) {r : Reg} (hr : visitReg r = true) (nr : r ≠ .dbgTraceStatus) :
      Visited W t (((t.bump r 1).logPoison (homeUnit u) u).postPoison u scrub) :=
    ((bump_visited t W hr nr 1).trans (logPoison_visited _ W u)).trans (postPoison_visited ..)
  simp only [State.newUe]
  refine poisoned.trans ?_
  generalize { s with latentUe := s.latentUe.filter (· ≠ u) }.poisonUnit u = t
  split
  · exact stack t rfl (by simp)
  split
  · exact stack t rfl (by simp)
  split
  · exact store t rfl rfl (by simp) (by simp) _
  · exact store t rfl rfl (by simp) (by simp) _

theorem newCe_visited (s : State) (W : Nat → Prop) (u : Nat) : Visited W s (s.newCe u) := by
  have found : Visited W s { s with latentCe := s.latentCe.filter (· ≠ u) } := visited_same rfl
  simp only [State.newCe]
  refine found.trans ?_
  split
  · exact bump_visited _ W rfl (by simp) 1
  split
  · exact bump_visited _ W rfl (by simp) 1
  split
  · exact bump_visited _ W rfl (by simp) 1
  · exact bump_visited _ W rfl (by simp) 1

theorem touch_visited (s : State) (W : Nat → Prop) (u : Nat) (scrub : Bool) : Visited W s (s.touch u scrub) := by
  have found : Visited W s (if u ∈ s.latentUe then s.newUe u scrub else s) := by
    split
    · exact newUe_visited ..
    · exact .refl W s
  simp only [State.touch]
  refine found.trans ?_
  generalize (if u ∈ s.latentUe then s.newUe u scrub else s) = t
  split
  · exact newCe_visited ..
  · exact .refl W t

/-! ### Writes under way -/

theorem nextAccess_visited (s : State) (W : Nat → Prop) : Visited W s s.nextAccess := by
  unfold State.nextAccess
  split <;> exact visited_same rfl

theorem racesPerform_visited (s : State) (W : Nat → Prop) (k : Racing → Nat) : Visited W s (s.racesPerform k) := by
  unfold State.racesPerform
  split <;> exact visited_same rfl

theorem noteReads_visited (s : State) (W : Nat → Prop) (as : List Nat) : Visited W s (s.noteReads as) := by
  unfold State.noteReads
  split
  · split <;> exact visited_same rfl
  · exact .refl W s

theorem spread_visited (s : State) (W : Nat → Prop) (n : Fin 128) : Visited W s (s.spread n) := by
  unfold State.spread
  split
  · exact .refl W s
  · refine .foldl _ (fun t g => ?_) _ s
    split <;> exact visited_same rfl

theorem racesHit_visited (s : State) (W : Nat → Prop) (ws : List (Nat × MByte)) : Visited W s (s.racesHit ws) := by
  unfold State.racesHit
  split
  · exact .refl W s
  · refine .foldl _ (fun t x => .trans (t := t.undefine x) (visited_same rfl) ?_) _ s
    split
    · exact spread_visited ..
    · exact .refl W _

theorem writeReady_visited (s : State) (W : Nat → Prop) (ws : List (Nat × MByte)) : Visited W s (s.writeReady ws) := by
  refine .trans (.trans (nextAccess_visited s W) ?_) (racesHit_visited _ W ws)
  unfold State.racesPass
  split
  · exact .refl W _
  · exact racesPerform_visited ..

/-! ### Reads -/

/-- From `s` to `t` memory has been read, or nothing of it accessed: no write is newly under way, and no error is found where none is. -/
structure Looks (s t : State) : Prop extends Visited noByte s t where
  kept : s.flag .dbgTraceCtrl F.dbgTraceCtrl_SPILL = false → t.mem = s.mem
  still : Still s → Still t
  clean : Clean s → Clean t

namespace Looks

variable {s t u : State}

theorem refl (s : State) : Looks s s := ⟨.refl _ s, fun _ => rfl, id, id⟩

theorem trans (h : Looks s t) (k : Looks t u) : Looks s u :=
  ⟨h.toVisited.trans k.toVisited, fun off => (k.kept ((State.flag_congr _ (h.regs .dbgTraceCtrl rfl)).trans off)).trans (h.kept off),
    fun c => k.still (h.still c), fun c => k.clean (h.clean c)⟩

theorem foldl {α : Type} (f : State → α → State) (h : ∀ t x, Looks t (f t x)) (xs : List α) (s : State) : Looks s (xs.foldl f s) := by
  induction xs generalizing s with
  | nil => exact .refl s
  | cons x xs ih => exact (h s x).trans (ih _)

theorem foldl_fst {α β : Type} (f : State × β → α → State × β) (h : ∀ p x, Looks p.1 (f p x).1) (xs : List α) (p : State × β) :
    Looks p.1 (xs.foldl f p).1 := by
  induction xs generalizing p with
  | nil => exact .refl _
  | cons x xs ih => exact (h p x).trans (ih _)

theorem ite_fst {α : Type} {c : Prop} [Decidable c] {p q : State × α} (hp : Looks s p.1) (hq : Looks s q.1) :
    Looks s (if c then p else q).1 := by
  split
  exacts [hp, hq]

end Looks

theorem Traced.looks {s t : State} (h : Traced s t) (a : Access s t) : Looks s t :=
  ⟨h.visited _, a.mem, fun ⟨r, w⟩ => ⟨by rw [h.rest]; exact r, by rw [h.rest]; exact w⟩, h.clean⟩

/-- What neither memory nor what is known of it has changed. -/
theorem looks_same {s t : State} (visited : Visited noByte s t) (mem : t.mem = s.mem) (ue : t.latentUe = s.latentUe)
    (ce : t.latentCe = s.latentCe) (p : t.poison = s.poison) (r : t.racing = s.racing) (w : t.sourceWords = s.sourceWords) : Looks s t :=
  ⟨visited, fun _ => mem, fun ⟨hr, hw⟩ => ⟨r.trans hr, w.trans hw⟩, fun c => c.of_eq ue ce p r w⟩

theorem aonAdd_looks (s : State) (i n : Nat) : Looks s (s.aonAdd i n) := by
  refine looks_same (aonAdd_visited ..) ?_ ?_ ?_ ?_ ?_ ?_ <;> rw [aonAdd_eq]

theorem request_looks (s : State) (w : Bool) (u : Nat) : Looks s (s.request w u) := (request_traced s w u).looks (request_access s w u)

theorem newUe_races (s : State) (u : Nat) (scrub : Bool) (none : s.racing = []) :
    (s.newUe u scrub).racing = [] ∧ (s.newUe u scrub).sourceWords = s.sourceWords := by
  have logged (t : State) (unit : Fin 1024) (e c : Nat) (d : List Byte) : (t.log unit e c d).racing = t.racing ∧
      (t.log unit e c d).sourceWords = t.sourceWords := by rw [(log_frame t unit e c d).rest]; exact ⟨rfl, rfl⟩
  have counted (t : State) (r : Reg) (n : Nat) : (t.bump r n).racing = t.racing ∧ (t.bump r n).sourceWords = t.sourceWords := by
    rw [(bump_frame t r n).rest]; exact ⟨rfl, rfl⟩
  have posted (t : State) : (t.postPoison u scrub).racing = t.racing ∧ (t.postPoison u scrub).sourceWords = t.sourceWords := by
    simp only [State.postPoison]
    split
    · exact counted ..
    · show (State.aonAdd _ _ _).racing = _ ∧ (State.aonAdd _ _ _).sourceWords = _
      rw [aonAdd_eq]
      exact ⟨rfl, rfl⟩
  have recorded (t : State) (unit : Fin 1024) (r : Reg) (off : Nat) : (t.recordUe unit r off).racing = t.racing ∧
      (t.recordUe unit r off).sourceWords = t.sourceWords := by
    unfold State.recordUe
    split
    · exact logged ..
    · exact ⟨rfl, rfl⟩
  have poisoned : ({ s with latentUe := s.latentUe.filter (· ≠ u) }.poisonUnit u).racing = [] ∧
      ({ s with latentUe := s.latentUe.filter (· ≠ u) }.poisonUnit u).sourceWords = s.sourceWords := by
    simp [State.poisonUnit, none]
  simp only [State.newUe, State.logPoison, apply_ite State.racing, apply_ite State.sourceWords, posted, logged, recorded, counted, ite_self]
  exact poisoned

theorem touch_looks (s : State) (u : Nat) (scrub : Bool) : Looks s (s.touch u scrub) where
  toVisited := touch_visited ..
  kept := (touch_access ..).mem
  still := fun ⟨r, w⟩ => by
    have found : (if u ∈ s.latentUe then s.newUe u scrub else s).racing = [] ∧
        (if u ∈ s.latentUe then s.newUe u scrub else s).sourceWords = [] := by
      split
      · obtain ⟨races, sources⟩ := newUe_races s u scrub r
        exact ⟨races, sources.trans w⟩
      · exact ⟨r, w⟩
    have corrected (t : State) : (t.newCe u).racing = t.racing ∧ (t.newCe u).sourceWords = t.sourceWords := by
      have counted (t : State) (r : Reg) (n : Nat) : (t.bump r n).racing = t.racing ∧ (t.bump r n).sourceWords = t.sourceWords := by
        rw [(bump_frame t r n).rest]; exact ⟨rfl, rfl⟩
      simp only [State.newCe, apply_ite State.racing, apply_ite State.sourceWords, counted, ite_self, and_self]
    simp only [State.touch, Still, apply_ite State.racing, apply_ite State.sourceWords, corrected, ite_self] at found ⊢
    exact found
  clean := fun c => by rw [c.touch]; exact c

theorem nextAccess_looks (s : State) : Looks s s.nextAccess := by
  refine looks_same (nextAccess_visited s _) ?_ ?_ ?_ ?_ ?_ ?_ <;> unfold State.nextAccess <;> split <;> rfl

theorem racesPerform_looks (s : State) (k : Racing → Nat) : Looks s (s.racesPerform k) where
  toVisited := racesPerform_visited ..
  kept := (racesPerform_access ..).mem
  still := fun h => by rw [racesPerform_none h.1]; exact h
  clean := fun h => by obtain ⟨_, _, _, still⟩ := id h; rw [racesPerform_none still.1]; exact h

theorem noteReads_looks (s : State) (as : List Nat) : Looks s (s.noteReads as) := by
  have same : (s.noteReads as).mem = s.mem ∧ (s.noteReads as).latentUe = s.latentUe ∧ (s.noteReads as).latentCe = s.latentCe ∧
      (s.noteReads as).poison = s.poison ∧ (s.noteReads as).racing = s.racing ∧ (s.noteReads as).sourceWords = s.sourceWords := by
    unfold State.noteReads
    split
    · split <;> exact ⟨rfl, rfl, rfl, rfl, rfl, rfl⟩
    · exact ⟨rfl, rfl, rfl, rfl, rfl, rfl⟩
  obtain ⟨mem, ue, ce, p, r, w⟩ := same
  exact looks_same (noteReads_visited ..) mem ue ce p r w

theorem readMem_looks (s : State) (as : List Nat) : Looks s (s.readMem as).1 := by
  simp only [State.readMem]
  refine .trans (.trans ?_ (aonAdd_looks _ _ _)) (aonAdd_looks _ _ _)
  refine .trans ?_ (.foldl _ (fun t u => (request_looks t false u).trans (touch_looks ..)) _ _)
  exact ((nextAccess_looks s).trans (racesPerform_looks _ _)).trans (noteReads_looks _ _)

theorem readGuarded_looks (s : State) (as : List Nat) : Looks s (s.readGuarded as).1 := readMem_looks ..

/-! ### Translation -/

theorem scope_looks {α : Type} (s : State) (f : State → State × α) (h : ∀ t, Looks t (f t).1) : Looks s (s.scope f).1 := by
  have refuses (t : State) (ps : Option (List (Fin 64 × Nat × Nat))) : Looks t { t with refusing := ps } :=
    looks_same (visited_same rfl) rfl rfl rfl rfl rfl rfl
  unfold State.scope
  split
  · exact h s
  · exact (refuses s (some [])).trans ((h _).trans (refuses _ none))

theorem pte_looks (s : State) (a : Nat) : Looks s (s.pte a).1 := readMem_looks ..

theorem walk_looks (s : State) (root va : Nat) : Looks s (s.walk root va).1 := by
  unfold State.walk
  dsimp only
  have h0 := aonAdd_looks s 162 1
  generalize s.aonAdd 162 1 = t at h0 ⊢
  have h1 := h0.trans (pte_looks t (root + 8 * bitsOf va 39 9))
  generalize t.pte (root + 8 * bitsOf va 39 9) = p at h1 ⊢
  have h2 := h1.trans (pte_looks p.1 (bitsOf p.2.1 12 36 * 2 ^ 12 + 8 * bitsOf va 30 9))
  generalize p.1.pte (bitsOf p.2.1 12 36 * 2 ^ 12 + 8 * bitsOf va 30 9) = q at h2 ⊢
  have h3 := h2.trans (pte_looks q.1 (bitsOf q.2.1 12 36 * 2 ^ 12 + 8 * bitsOf va 21 9))
  exact .ite_fst h0 (.ite_fst h1 (.ite_fst h1 (.ite_fst h1 (.ite_fst h2 (.ite_fst h2 (.ite_fst (.ite_fst h2 h2) (.ite_fst h2
    (.ite_fst h3 (.ite_fst h3 (.ite_fst h3 h3))))))))))

theorem unitTakes_looks (s : State) (source : Nat) (e : XlatEntry) : Looks s (s.unitTakes source e) := by
  unfold State.unitTakes
  split
  · exact looks_same (visited_same rfl) rfl rfl rfl rfl rfl rfl
  · exact .refl s

theorem chipTakes_looks (s : State) (e : XlatEntry) : Looks s (s.chipTakes e) :=
  looks_same (visited_same rfl) rfl rfl rfl rfl rfl rfl

theorem page_looks (s : State) (c : Fin 64) (va source : Nat) : Looks s (s.page c va source).1 := by
  simp only [State.page]
  split
  · exact .refl s
  split
  · exact unitTakes_looks ..
  have walked := walk_looks s (AMap.get (s.rd (.hstXlatRoot c)) c s.xlatRoot).toNat va
  split
  · next t l h =>
    rw [h] at walked
    exact walked.trans ((chipTakes_looks ..).trans (unitTakes_looks ..))
  · next t e h =>
    rw [h] at walked
    exact walked

theorem wr_looks (s : State) {r : Reg} (h : visitReg r = true) (ring : r ≠ .dbgTraceStatus) (v : BitVec 64) : Looks s (s.wr r v) :=
  looks_same (wr_visited s _ h ring v) rfl rfl rfl rfl rfl rfl

theorem bump_looks (s : State) {r : Reg} (h : visitReg r = true) (ring : r ≠ .dbgTraceStatus) (n : Nat) : Looks s (s.bump r n) := by
  refine looks_same (bump_visited s _ h ring n) ?_ ?_ ?_ ?_ ?_ ?_ <;> rw [(bump_frame s r n).rest]

theorem log_looks (s : State) {unit : Fin 1024} (event ctx : Nat) (data : List Byte) (h : unit ≠ 0x3FF) :
    Looks s (s.log unit event ctx data) := (log_traced s event ctx data h).looks (log_access s event ctx data h)

theorem refuse_looks (s : State) (c : Fin 64) (va cause : Nat) (write remote : Bool) (source : Nat) (page : Nat × Nat) :
    Looks s (s.refuse c va cause write remote source page) := by
  have noted : Looks s { s with refusing := s.refusing.map fun ks => (c, page) :: ks } :=
    looks_same (visited_same rfl) rfl rfl rfl rfl rfl rfl
  simp only [State.refuse]
  split
  · exact .refl s
  refine .trans (noted.trans (bump_looks _ (r := .hstXlatRefused c) rfl (by simp) 1)) ?_
  split
  · exact log_looks _ _ _ _ (by decide)
  · exact wr_looks _ rfl (by simp) _

theorem grantPage_looks (s : State) (c : Fin 64) (va : Nat) (write remote : Bool) (source : Nat) :
    Looks s (s.grantPage c va write remote source).1 := by
  have found := page_looks s c va source
  unfold State.grantPage
  split
  · next t e h =>
    rw [h] at found
    exact found.trans (refuse_looks ..)
  · next t l h =>
    rw [h] at found
    exact .ite_fst (found.trans (refuse_looks ..)) (.ite_fst (found.trans (refuse_looks ..)) found)

theorem xlatAll_looks (s : State) (c : Fin 64) (vas : List Nat) (write remote : Bool) (source : Nat) :
    Looks s (s.xlatAll c vas write remote source).1 := by
  refine scope_looks s _ fun t => ?_
  refine Looks.foldl_fst _ (fun p x => ?_) _ (t, [])
  exact grantPage_looks ..

theorem xlatAll_length (s : State) (c : Fin 64) (vas : List Nat) (write remote : Bool) (source : Nat) :
    (s.xlatAll c vas write remote source).2.length = vas.length := by
  unfold State.xlatAll State.scope
  split <;> simp

theorem readCtx_looks (s : State) (c : Fin 64) (vas : List Nat) (source : Nat) : Looks s (s.readCtx c vas source).1 :=
  (xlatAll_looks s c vas false false source).trans (readMem_looks ..)

/-! ### Writes -/

theorem writeAsked_visited (s : State) (W : Nat → Prop) (xs : List (Nat × MByte)) : Visited W s (s.writeAsked xs) := by
  simp only [State.writeAsked]
  refine .trans (.trans (.trans ?_ (aonAdd_visited _ W _ _)) (aonAdd_visited _ W _ _)) (aonAdd_visited _ W _ _)
  refine .trans (t := { s with latentUe := s.latentUe.filter (· ∉ wholeUnits xs), latentCe := s.latentCe.filter (· ∉ wholeUnits xs) })
    (visited_same rfl) (.foldl _ (fun t u => ?_) _ _)
  refine .trans (.trans ?_ ((request_traced _ true u).visited W)) (touch_visited ..)
  split
  · exact (request_traced t false u).visited W
  · exact .refl W t

theorem stored_visited (s : State) {W : Nat → Prop} (xs : List (Nat × MByte)) (within : ∀ w ∈ xs, W w.1) (p : List Nat) :
    Visited W s { s with mem := xs.foldl (fun m w => Memory.write m w.1 w.2.1) s.mem, poison := p } where
  rest := rfl
  regs _ _ := rfl
  out := .of_eq rfl
  mem _ _ out := read_unwritten _ fun w hw same => out (same ▸ within w hw)
  top := Nat.le_of_eq (ringTop_congr rfl rfl rfl)

theorem writeMem_visited (s : State) {W : Nat → Prop} {ws : List (Nat × MByte)} (within : ∀ w ∈ ws, W w.1) :
    Visited W s (s.writeMem ws) := by
  rw [writeMem_eq]
  dsimp only
  generalize hxs : ws.filter (fun w => backed w.1) = xs
  have own (t : State) : ∀ w ∈ t.racesKeep xs, W w.1 := fun w hw =>
    within w (List.mem_of_mem_filter (hxs ▸ racesKeep_subset t xs w hw))
  have entered (t : State) : Visited W t (t.racesWrite xs) := visited_same rfl
  exact (writeReady_visited s W xs).trans ((entered _).trans ((writeAsked_visited _ W xs).trans (stored_visited _ _ (own _) _)))

theorem countRsvd_visited (s : State) (W : Nat → Prop) (as : List Nat) : Visited W s (s.countRsvd as) :=
  .foldl _ (fun t _ => bump_visited t W rfl (by simp) 1) _ s

theorem writeGuarded_visited (s : State) {W : Nat → Prop} {ws : List (Nat × MByte)} (within : ∀ w ∈ ws, W w.1) :
    Visited W s (s.writeGuarded ws) :=
  (writeMem_visited s fun w hw => within w (List.mem_of_mem_filter hw)).trans
    (.foldl _ (fun t _ => bump_visited t W rfl (by simp) 1) _ _)

theorem writeCtx_visited (s : State) (c : Fin 64) (ws : List (Nat × MByte)) (source : Nat) :
    Visited (fun _ => True) s (s.writeCtx c ws source) := by
  have granted := (xlatAll_looks s c (ws.map (·.1)) true false source).toVisited.mono fun _ _ => trivial
  unfold State.writeCtx
  generalize s.xlatAll c (ws.map (·.1)) true false source = p at granted ⊢
  exact granted.trans (writeMem_visited _ fun _ _ => trivial)

end Sys2Proof
end

section
/-!
PROOFS of the family 05_instruction_set: bulk and slot letters at their destination (R145, R170, R249, R261, R317 to R321).
-/
namespace Sys2Proof

open Machine

/-! ### Memory and the trace's ring over several changes -/

/-- Of the bytes outside the trace's ring, only those of `W` have changed, and the ring has not grown. -/
def Spares (W : Nat → Prop) (s t : State) : Prop :=
  (∀ a, ¬ inRing s a → ¬ W a → Memory.read t.mem a = Memory.read s.mem a) ∧ ∀ a, inRing t a → inRing s a

theorem Spares.trans {W : Nat → Prop} {s t u : State} (h : Spares W s t) (k : Spares W t u) : Spares W s u :=
  ⟨fun a out at' => (k.1 a (fun inside => out (h.2 a inside)) at').trans (h.1 a out at'), fun a inside => h.2 a (k.2 a inside)⟩

theorem Visited.spares {W : Nat → Prop} {s t : State} (h : Visited W s t) : Spares W s t := ⟨h.mem, fun _ => h.ring⟩

theorem Calm.spares {R : Reg → Prop} {s t : State} (h : Calm R s t) (W : Nat → Prop) : Spares W s t :=
  ⟨fun a out _ => h.mem a out, fun _ => h.ring⟩

theorem Spares.noRing {W : Nat → Prop} {s t : State} (h : Spares W s t) (ring : NoRing s) : NoRing t := fun a inside => ring a (h.2 a inside)

/-! ### A letter is taken from the inbox -/

theorem taken_access (s : State) (lt : Letter) : Access s (s.taken lt) := by
  rw [taken_eq]
  have left : Access s (s.inboxLeft lt) := by
    rw [inboxLeft_eq]
    exact ⟨rfl, rfl, rfl, rfl, rfl, fun _ => rfl⟩
  exact left.trans (emit_access _ _ _ _ _ (by decide))

theorem taken_rd (s : State) (lt : Letter) {r : Reg} (h : traceReg r = false) : (s.taken lt).rd r = s.rd r :=
  (taken_calm s lt noReg).regs r h id

theorem taken_recvStreams (s : State) (lt : Letter) : (s.taken lt).recvStreams = s.recvStreams := by rw [taken_office]

theorem taken_still {s : State} (h : Still s) (lt : Letter) : Still (s.taken lt) := by
  obtain ⟨races, sources⟩ := h
  exact ⟨by rw [taken_office]; exact races, by rw [taken_office]; exact sources⟩

theorem ctxOfTag_congr {s t : State} (status : ∀ c, t.rd (.hstCtxStatus c) = s.rd (.hstCtxStatus c))
    (ctrl : ∀ c, t.rd (.hstCtxCtrl c) = s.rd (.hstCtxCtrl c)) (tag : BitVec 16) : t.ctxOfTag tag = s.ctxOfTag tag := by
  simp only [State.ctxOfTag, State.ctxState, State.jobTag, State.fld, status, ctrl]
  congr!

theorem taken_globalOn (s : State) (lt : Letter) : (s.taken lt).globalOn = s.globalOn := by
  simp only [State.globalOn, State.stage, State.quarantined, State.flag, State.fld, taken_rd s lt (r := .ptrStage) rfl]
  congr!

theorem taken_ctxOfTag (s : State) (lt : Letter) (tag : BitVec 16) : (s.taken lt).ctxOfTag tag = s.ctxOfTag tag :=
  ctxOfTag_congr (fun _ => taken_rd s lt rfl) (fun _ => taken_rd s lt rfl) tag

theorem taken_fenced (s : State) (lt : Letter) (c : Fin 64) : (s.taken lt).fenced c = s.fenced c := by
  simp only [State.fenced, taken_rd s lt (r := .soCtxFence) rfl, taken_rd s lt (r := .soCtxResetting) rfl]

theorem taken_recvStream (s : State) (lt : Letter) (k : StreamKey) : (s.taken lt).recvStream k = s.recvStream k := by
  simp only [State.recvStream, taken_recvStreams]

/-! ### Receipts -/

theorem receipt_forwarded (s : State) (lt : Letter) (st : Status) (target : BitVec 64) : Forwarded s (s.receipt lt st target) :=
  send_forwarded ..

/-- The receipt of a letter. -/
def receiptLetter (chip : BitVec 14) (lt : Letter) (st : Status) (target : BitVec 64) : Letter :=
  { dest := lt.src, src := chip, cls := .receipt, jobTag := lt.jobTag, op := BitVec.ofNat 6 lt.cls.code,
    status := BitVec.ofNat 8 st.code, refPostmark := lt.postmark, target }

theorem receipt_eq (s : State) (lt : Letter) (st : Status) (target : BitVec 64) :
    s.receipt lt st target = s.send (receiptLetter s.chip lt st target) := rfl

/-- A receipt waits where the routing tables take it, as they stood before. -/
theorem receipt_receipted {s u : State} (chip : u.chip = s.chip) (regs : ∀ r, routeReg r = true → u.rd r = s.rd r) (lt : Letter)
    (st : Status) (target : BitVec 64) : Receipted s (u.receipt lt st target) lt st target := by
  intro p routed
  obtain ⟨o, queued, port, vc, hops, letter⟩ := send_queues u (lt := receiptLetter u.chip lt st target) (routesTo_congr chip regs routed)
  refine ⟨o, queued, port, ?_⟩
  rw [letter]
  exact ⟨rfl, rfl, chip, rfl, rfl, rfl, rfl, rfl⟩

/-! ### Postmarks -/

/-- A postmark that has been recorded is a duplicate (R320). -/
theorem record_dup {r : RecvStream} {p : BitVec 32} (new : r.judge p = .new) : (r.record p).judge p = .dup := by
  have self : newer32 p p = false := by simp [newer32]
  by_cases ahead : newer32 p r.h = true
  · rw [RecvStream.record, if_pos ahead, RecvStream.judge]
    simp [self]
  · have place : (r.h - p).toNat < 4096 := by
      by_contra far
      rw [RecvStream.judge, if_neg ahead] at new
      simp only [if_neg far] at new
      cases new
    have bit : (1#4096 <<< (r.h - p).toNat).getLsbD (r.h - p).toNat = true := by
      rw [BitVec.getLsbD_shiftLeft, decide_eq_true place, Nat.sub_self]
      simp
    rw [RecvStream.record, if_neg ahead, RecvStream.judge]
    simp only [if_neg ahead, if_pos place, BitVec.getLsbD_or, bit, Bool.or_true, if_true]

theorem recvStream_record (s : State) (lt : Letter) :
    (s.record lt).recvStream (streamOf lt) = (s.recvStream (streamOf lt)).record lt.postmark := AMap.get_set_same ..

/-! ### A registered letter (R249, R261, R320) -/

section
variable {u : State} {lt : Letter} {lost : List Reg} {held : Bool} {place : State → Fin 64 → State × Bool}

theorem postIn_off (off : u.globalOn = false) : u.postIn lt lost held place = u.bump .soNocontext 1 := by
  rw [State.postIn, off]
  rfl

variable (on : u.globalOn = true)
include on

theorem postIn_lost (none : u.ctxOfTag lt.jobTag = none) : u.postIn lt lost held place = u.bumpAll lost := by
  simp only [State.postIn, on, none, Bool.not_true, Bool.false_eq_true, if_false]

variable {c : Fin 64} (some : u.ctxOfTag lt.jobTag = some c)
include some

theorem postIn_fenced (fenced : u.fenced c = true) : u.postIn lt lost held place = (u.bump .soRefusedFenced 1).receipt lt .fenced := by
  simp only [State.postIn, on, some, fenced, Bool.not_true, Bool.false_eq_true, if_false, if_true]

variable (open' : u.fenced c = false)
include open'

theorem postIn_stale (verdict : (u.recvStream (streamOf lt)).judge lt.postmark = .stale) :
    u.postIn lt lost held place = u.bump .soPostStale 1 := by
  simp only [State.postIn, on, some, open', verdict, Bool.not_true, Bool.false_eq_true, if_false]

theorem postIn_dup (verdict : (u.recvStream (streamOf lt)).judge lt.postmark = .dup) :
    u.postIn lt lost false place = (u.bump .soPostDups 1).receipt lt .ok := by
  simp only [State.postIn, on, some, open', verdict, Bool.not_true, Bool.false_eq_true, if_false]

theorem postIn_new (verdict : (u.recvStream (streamOf lt)).judge lt.postmark = .new) :
    u.postIn lt lost held place = if (place (u.record lt) c).2 then (place (u.record lt) c).1
      else { (place (u.record lt) c).1 with recvStreams := u.recvStreams } := by
  simp only [State.postIn, on, some, open', verdict, Bool.not_true, Bool.false_eq_true, if_false]

end

/-- How a bulk or a slot letter is placed. -/
def placing (lt : Letter) (s : State) (c : Fin 64) : State × Bool := if lt.cls = .slot then s.slotIn lt c else s.bulkPlace lt c

section
variable {s : State} (up : s.dieUp = true) {lt : Letter} (kind : (lt.cls = .bulk ∧ lt.op ≠ 1) ∨ lt.cls = .slot) (post : lt.op ≠ 0x3F)
include up kind post

theorem exec_registered : exec (.registeredLetterReceive lt) s = .next ((s.taken lt).postIn lt (lostCounters lt.cls) false (placing lt)) := by
  show Host.Outcome.next (if s.dieUp && (lt.cls == .bulk || lt.cls == .slot) then (s.taken lt).registeredIn lt else s) = _
  have clear : isClear lt = false := decide_eq_false post
  unfold State.registeredIn
  rw [up, clear]
  rcases kind with ⟨bulk, plain⟩ | slot
  · have way : placing lt = fun s c => s.bulkPlace lt c := by
      funext s c
      rw [placing, bulk]
      rfl
    rw [way, bulk]
    show Host.Outcome.next (if lt.op = 1 then _ else _) = _
    rw [if_neg plain]
  · have way : placing lt = fun s c => s.slotIn lt c := by
      funext s c
      rw [placing, slot]
      rfl
    rw [way, slot]
    rfl

omit up kind post in
/-- A letter that is only counted. -/
theorem counts_of_bump {r : Reg} (plain : traceReg r = false) (ring : ¬ ringReg r)
    (counted : exec (.registeredLetterReceive lt) s = .next ((s.taken lt).bump r 1)) :
    CountsLetter s (exec (.registeredLetterReceive lt) s) r fun t => QueuesAfter t s.outQ := by
  rw [counted]
  have bumped := bump_frame (s.taken lt) r 1
  refine Calm.does (((taken_calm s lt _).trans ((bumped.mono fun q own => .inl own).calm fun q hq own => ?_))) ⟨?_, ?_, ?_⟩
  · rcases own with rfl | drop
    · exact ring hq
    · exact dropReg.not_ring hq drop
  · exact counted_of_bump (taken_rd s lt plain) 1 rfl
  · rw [bumped.rest]
    exact taken_recvStreams ..
  · rw [bumped.rest]
    exact taken_outQ ..

omit up kind post in
/-- A letter that is counted and receipted. -/
theorem counts_and_receipts {r : Reg} (plain : traceReg r = false) (ring : ¬ ringReg r) (route : routeReg r = false) (st : Status)
    (drop : ¬ dropReg r)
    (counted : exec (.registeredLetterReceive lt) s = .next (((s.taken lt).bump r 1).receipt lt st)) :
    CountsLetter s (exec (.registeredLetterReceive lt) s) r fun t => Receipted s t lt st 0 := by
  rw [counted]
  have bumped := bump_frame (s.taken lt) r 1
  have sent := receipt_forwarded ((s.taken lt).bump r 1) lt st 0
  refine Calm.does ((taken_calm s lt _).trans (((bumped.mono fun q own => .inl own).calm fun q hq own => ?_).trans
    (sent.calm.mono fun _ => .inr))) ⟨?_, ?_, ?_⟩
  · rcases own with rfl | drop
    · exact ring hq
    · exact dropReg.not_ring hq drop
  · exact counted_of_bump (taken_rd s lt plain) 1 (sent.calm.regs r plain drop)
  · rw [sent.office, bumped.rest]
    exact taken_recvStreams ..
  · refine receipt_receipted ?_ (fun q hq => ?_) lt st 0
    · rw [bumped.rest, taken_office]
    · exact (bumped.regs q fun own => by rw [own, route] at hq; cases hq).trans (taken_rd s lt (routeReg_untraced hq))

end

/-! ### Bulk letters (R170, R183) -/

/-- The bytes of a bulk letter, at the addresses of its pages. -/
def bulkWrites (lt : Letter) (ps : List (Option Nat)) : List (Nat × MByte) :=
  (ps.zip (markedBody lt)).filterMap fun e => e.1.map fun a => (a, e.2)

theorem mem_bulkWrites {lt : Letter} {ps : List (Option Nat)} {w : Nat × MByte} :
    w ∈ bulkWrites lt ps ↔ ∃ k : Nat, ps[k]? = some (some w.1) ∧ (markedBody lt)[k]? = some w.2 := by
  obtain ⟨a, b⟩ := w
  rw [bulkWrites, List.mem_filterMap]
  constructor
  · rintro ⟨⟨p, x⟩, both, at'⟩
    obtain ⟨a', rfl, same⟩ := Option.map_eq_some_iff.mp at'
    obtain ⟨rfl, rfl⟩ := Prod.mk.inj same
    obtain ⟨k, hk⟩ := List.mem_iff_getElem?.mp both
    exact ⟨k, List.getElem?_zip_eq_some.mp hk⟩
  · rintro ⟨k, both⟩
    exact ⟨(some a, b), List.mem_iff_getElem?.mpr ⟨k, List.getElem?_zip_eq_some.mpr both⟩, rfl⟩

theorem bulkWrites_nodup {lt : Letter} {ps : List (Option Nat)} (lengths : ps.length = lt.length) (distinct : ps.Nodup) :
    ((bulkWrites lt ps).map (·.1)).Nodup := by
  have places : (bulkWrites lt ps).map (·.1) = ((ps.zip (markedBody lt)).map (·.1)).filterMap id := by
    simp only [bulkWrites, List.map_filterMap, List.filterMap_map]
    congr 1
    funext e
    rcases e with ⟨- | a, b⟩ <;> rfl
  rw [places, List.map_fst_zip (by simp [markedBody, lengths])]
  exact distinct.filterMap fun a b x ha hb => by
    simp only [id, Option.mem_def] at ha hb
    rw [ha, hb]

/-- A bulk letter whose pages are granted. -/
theorem bulkPlace_eq (v : State) (lt : Letter) (c : Fin 64) :
    let p := v.xlatAll c ((List.range lt.length).map (lt.target.toNat % 2 ^ 48 + ·)) true true 0x81
    v.bulkPlace lt c = if none ∈ p.2 then (p.1, false) else ((p.1.writeGuarded (bulkWrites lt p.2)).receipt lt .ok, true) := by
  intro p
  have refused : p.2.any Option.isNone = decide (none ∈ p.2) := by
    rw [← Bool.coe_iff_coe]
    simp
  unfold State.bulkPlace
  show (if p.2.any Option.isNone then _ else _) = _
  rw [refused]
  simp only [decide_eq_true_eq]
  rfl

/-- Bytes at the addresses of a letter's pages, as they are stored (R148, R190). -/
theorem bulkWrites_placed {s p t : State} {lt : Letter} {ps : List (Option Nat)} (owners : ∀ a, p.codeOwner a = s.codeOwner a)
    (kept : s.flag .dbgTraceCtrl F.dbgTraceCtrl_SPILL = false → p.mem = s.mem)
    (still : Still s → Still p) (before : Spares (fun a => some a ∈ ps) s p)
    (after : Spares noByte (p.writeGuarded (bulkWrites lt ps)) t) (lengths : ps.length = lt.length) :
    Placed s t ps ((markedBody lt).map (·.1)) := by
  have written : Visited (fun a => some a ∈ ps) p (p.writeGuarded (bulkWrites lt ps)) :=
    writeGuarded_visited p fun w hw => by
      obtain ⟨k, place, -⟩ := mem_bulkWrites.mp hw
      exact List.mem_of_getElem? place
  have spares := before.trans (written.spares.trans ⟨fun a out at' => after.1 a out id, after.2⟩)
  refine ⟨fun a out _ at' => spares.1 a out at', fun ring sound quiet distinct k a hk place _ => ?_⟩
  have noRing : NoRing p := before.noRing ring
  obtain ⟨-, -, stores⟩ := writeGuarded_stores p (bulkWrites lt ps) []
  obtain ⟨xs, -, all, mem⟩ := stores noRing
  have same : p.mem = s.mem := kept (noRing_off ring)
  have final : Memory.read t.mem a = Memory.read (p.writeGuarded (bulkWrites lt ps)).mem a :=
    after.1 a (written.spares.noRing noRing a) id
  rw [List.length_map] at hk
  have own : (a, (markedBody lt)[k]) ∈ bulkWrites lt ps := mem_bulkWrites.mpr ⟨k, place, List.getElem?_eq_getElem hk⟩
  rw [final]
  show Memory.read ((p.writeGuarded (bulkWrites lt ps)).countRsvd []).mem a = _
  rw [mem, all (still quiet), same, ← owners]
  split
  · next stored =>
    rw [List.getD_eq_getElem _ _ (by simpa using hk), List.getElem_map]
    exact read_written (w := (a, (markedBody lt)[k])) (storedBytes_nodup p (bulkWrites_nodup lengths distinct)) sound (mem_storedBytes.mpr ⟨own, stored⟩)
  · next lost =>
    refine read_unwritten _ fun w hw e => lost ?_
    rw [← e]
    exact (mem_storedBytes.mp hw).2

/-! ### What has been recorded and accessed for a letter -/

theorem routeReg_unvisited {r : Reg} (h : routeReg r = true) : visitReg r = false := by
  cases r <;> first | rfl | cases h

theorem untraced_of_unvisited {r : Reg} (h : visitReg r = false) : traceReg r = false := by
  by_contra traced
  rw [visitReg_of_accessReg (accessReg_of_traceReg (by simpa using traced))] at h
  cases h

section
variable {s p : State} {lt : Letter} {W : Nat → Prop} (h : Visited W ((s.taken lt).record lt) p)
include h

theorem recorded_rd {r : Reg} (plain : visitReg r = false) : p.rd r = s.rd r :=
  (h.regs r plain).trans (taken_rd s lt (untraced_of_unvisited plain))

theorem recorded_stalls : p.stalls = s.stalls := by
  rw [h.rest]
  exact (taken_calm s lt noReg).stalls

theorem recorded_codeOwner (a : Nat) : p.codeOwner a = s.codeOwner a :=
  codeOwner_congr (fun n => by simp only [State.stall, recorded_stalls h, and_self]) a

theorem recorded_outQ : QueuesAfter p s.outQ := DiagOnly.trans (s := s) (t := s.taken lt) (taken_outQ s lt) h.out

theorem recorded_spares : Spares W s p :=
  ((taken_calm s lt noReg).spares W).trans (Spares.trans (t := (s.taken lt).record lt) ⟨fun _ _ _ => rfl, fun _ => id⟩ h.spares)

/-- A letter that has been recorded, placed and receipted. -/
theorem recorded_done (new : (s.recvStream (streamOf lt)).judge lt.postmark = .new) {q : State} (chip : q.chip = p.chip)
    (streams : q.recvStreams = p.recvStreams) (regs : ∀ r, routeReg r = true → q.rd r = p.rd r) :
    Receipted s (q.receipt lt .ok) lt .ok 0 ∧ ((q.receipt lt .ok).recvStream (streamOf lt)).judge lt.postmark = .dup := by
  have own : p.chip = s.chip := by rw [h.rest]; show (s.taken lt).chip = _; rw [taken_office]
  refine ⟨receipt_receipted (chip.trans own) (fun r hr => (regs r hr).trans (recorded_rd h (routeReg_unvisited hr))) lt .ok 0, ?_⟩
  have kept : (q.receipt lt .ok).recvStreams = ((s.taken lt).record lt).recvStreams := by
    rw [(receipt_forwarded q lt .ok 0).office, h.rest] at *
    exact streams
  have stream : (q.receipt lt .ok).recvStream (streamOf lt) = (s.recvStream (streamOf lt)).record lt.postmark := by
    rw [State.recvStream, kept, ← State.recvStream, recvStream_record, taken_recvStream]
  rw [stream]
  exact record_dup new

end

section
variable {s : State} (up : s.dieUp = true) {lt : Letter} (post : lt.op ≠ 0x3F) (on : s.globalOn = true) {c : Fin 64}
  (tag : s.ctxOfTag lt.jobTag = some c) (open' : s.fenced c = false)
  (new : (s.recvStream (streamOf lt)).judge lt.postmark = .new)
include up post on tag open' new

/-- A new letter that has been placed, as its class says. -/
theorem exec_registered_placed (kind : (lt.cls = .bulk ∧ lt.op ≠ 1) ∨ lt.cls = .slot) {t : State}
    (placed : placing lt ((s.taken lt).record lt) c = (t, true)) : exec (.registeredLetterReceive lt) s = .next t := by
  rw [exec_registered up kind post, postIn_new ((taken_globalOn s lt).trans on) ((taken_ctxOfTag s lt _).trans tag)
    ((taken_fenced s lt c).trans open') (by rw [taken_recvStream]; exact new), placed]
  rfl

/-- One that could not be placed leaves no record. -/
theorem exec_registered_unplaced (kind : (lt.cls = .bulk ∧ lt.op ≠ 1) ∨ lt.cls = .slot) {t : State}
    (unplaced : placing lt ((s.taken lt).record lt) c = (t, false)) :
    exec (.registeredLetterReceive lt) s = .next { t with recvStreams := s.recvStreams } := by
  rw [exec_registered up kind post, postIn_new ((taken_globalOn s lt).trans on) ((taken_ctxOfTag s lt _).trans tag)
    ((taken_fenced s lt c).trans open') (by rw [taken_recvStream]; exact new), unplaced, taken_recvStreams]
  rfl

/-- A new bulk letter. -/
theorem bulk_placed (bulk : lt.cls = .bulk) (plain : lt.op ≠ 1) :
    let o := exec (.registeredLetterReceive lt) s
    let ps := grants ((s.taken lt).record lt) c (lt.target.toNat % 2 ^ 48) lt.length true
    (none ∈ ps → Leaves o fun t => t.recvStreams = s.recvStreams ∧ QueuesAfter t s.outQ ∧ t.stalls = s.stalls ∧ Placed s t [] []) ∧
    (none ∉ ps → Leaves o fun t => (Receipted s t lt .ok 0 ∧ (t.recvStream (streamOf lt)).judge lt.postmark = .dup) ∧
      t.stalls = s.stalls ∧ Placed s t ps ((markedBody lt).map (·.1))) := by
  intro o ps
  have place : placing lt ((s.taken lt).record lt) c = ((s.taken lt).record lt).bulkPlace lt c := by rw [placing, bulk]; rfl
  rw [bulkPlace_eq] at place
  have looks := xlatAll_looks ((s.taken lt).record lt) c ((List.range lt.length).map (lt.target.toNat % 2 ^ 48 + ·)) true true 0x81
  have lengths := xlatAll_length ((s.taken lt).record lt) c ((List.range lt.length).map (lt.target.toNat % 2 ^ 48 + ·)) true true 0x81
  rw [List.length_map, List.length_range] at lengths
  change (ps : List (Option Nat)).length = lt.length at lengths
  generalize hp : ((s.taken lt).record lt).xlatAll c ((List.range lt.length).map (lt.target.toNat % 2 ^ 48 + ·)) true true 0x81 = p
    at place looks
  have pages : ps = p.2 := congrArg Prod.snd hp
  rw [← pages] at place
  have before := recorded_spares looks.toVisited
  have stalls := recorded_stalls looks.toVisited
  have queued := recorded_outQ looks.toVisited
  constructor
  · intro refused
    rw [if_pos refused] at place
    exact ⟨_, exec_registered_unplaced up post on tag open' new (.inl ⟨bulk, plain⟩) place, rfl, queued, stalls,
      fun a out _ _ => before.1 a out id, fun _ _ _ _ k a hk => absurd hk (by simp)⟩
  · intro granted
    rw [if_neg granted] at place
    have written : Visited (fun _ => True) p.1 (p.1.writeGuarded (bulkWrites lt ps)) := writeGuarded_visited _ fun _ _ => trivial
    have sent := receipt_forwarded (p.1.writeGuarded (bulkWrites lt ps)) lt .ok 0
    refine ⟨_, exec_registered_placed up post on tag open' new (.inl ⟨bulk, plain⟩) place, recorded_done looks.toVisited new (by rw [written.rest]) (by rw [written.rest])
      (fun r hr => written.regs r (routeReg_unvisited hr)), ?_, ?_⟩
    · rw [sent.calm.stalls, written.rest]
      exact stalls
    · refine bulkWrites_placed (recorded_codeOwner looks.toVisited) (fun off => ?_) (fun still => looks.still ?_)
        ⟨fun a out _ => before.1 a out id, before.2⟩ (sent.calm.spares _) lengths
      · exact (looks.kept ((State.flag_congr _ (taken_rd s lt (r := .dbgTraceCtrl) rfl)).trans off)).trans ((taken_access s lt).mem off)
      · exact taken_still still lt

end

/-! ### Slot letters (R145) -/

/-- The bytes of a slot letter have been written to its stash. -/
def slotWritten (s : State) (c : Fin 64) (j : Fin 4096) (off : Nat) (bs : List MByte) : State :=
  let base := s.fld (.soSlot j 0) SlotF.base + off
  let unit := s.fld (.soSlot j 0) SlotF.unit
  let idx := List.range bs.length
  match s.fld (.soSlot j 0) SlotF.space with
    | 0 =>
      let (s, ps) := s.xlatAll c (idx.map (base + ·)) true false 0x82
      s.writeMem ((ps.zip bs).filterMap fun (e : Option Nat × MByte) => e.1.map fun a => (a, e.2))
    | 1 => s.writeGuarded ((idx.map fun k => stallBase (Fin.ofNat 128 unit) + (base + k) % 0x800000).zip bs)
    | _ =>
      let as := idx.map fun k => stableBase (Fin.ofNat 16 unit) + (base + k) % 0x2000000
      (s.countRsvd as).writeGuarded (as.zip bs)

/-- `n` bytes have arrived in a slot. -/
def slotArrived (s : State) (j : Fin 4096) (n : Nat) : State :=
  s.setFld (.soSlot j 2) SlotF.arrived (satAdd (2 ^ 32 - 1) (s.fld (.soSlot j 2) SlotF.arrived) n)

/-- The slot is full for the first time: its stall's counter advances, if NEN is 1 and the program runs. -/
def slotFilled (s : State) (j : Fin 4096) : State :=
  let s := s.setFld (.soSlot j 0) SlotF.full 1
  let n : Fin 128 := Fin.ofNat 128 (s.fld (.soSlot j 2) SlotF.bstall)
  if s.flag (.soSlot j 2) SlotF.nen && (s.stall n).running then
    s.modStall n fun t => t.advance (Fin.ofNat 64 (s.fld (.soSlot j 2) SlotF.nctr)) 1
  else s

theorem slotPlace_eq (s : State) (c : Fin 64) (j : Fin 4096) (off : Nat) (bs : List MByte) {x : State}
    (written : slotWritten s c j off bs = x) : s.slotPlace c j off bs =
    if x.fld (.soSlot j 1) SlotF.expect ≤ satAdd (2 ^ 32 - 1) (x.fld (.soSlot j 2) SlotF.arrived) bs.length &&
        !x.flag (.soSlot j 0) SlotF.full then slotFilled (slotArrived x j bs.length) j
    else slotArrived x j bs.length := by
  have e : (slotArrived x j bs.length).fld (.soSlot j 1) SlotF.expect = x.fld (.soSlot j 1) SlotF.expect :=
    State.fld_congr _ (State.rd_setFld_other _ _ _ (by simp))
  have f : (slotArrived x j bs.length).flag (.soSlot j 0) SlotF.full = x.flag (.soSlot j 0) SlotF.full :=
    State.flag_congr _ (State.rd_setFld_other _ _ _ (by simp))
  rw [← e, ← f, ← written]
  rfl

theorem slotWritten_visited (s : State) (c : Fin 64) (j : Fin 4096) (off : Nat) (bs : List MByte) :
    Visited (fun _ => True) s (slotWritten s c j off bs) := by
  unfold slotWritten
  extract_lets base unit idx
  split
  · have granted := (xlatAll_looks s c (idx.map (base + ·)) true false 0x82).toVisited.mono fun _ _ => trivial
    generalize s.xlatAll c (idx.map (base + ·)) true false 0x82 = p at granted ⊢
    exact granted.trans (writeMem_visited _ fun _ _ => trivial)
  · exact writeGuarded_visited s fun _ _ => trivial
  · exact (countRsvd_visited ..).trans (writeGuarded_visited _ fun _ _ => trivial)

/-- From `s` to `t` bytes have arrived in a slot, which may have filled it and advanced its stall's counter. -/
structure Fills (s t : State) (j : Fin 4096) (len : Nat) : Prop where
  arrived : t.fld (.soSlot j 2) SlotF.arrived = min (2 ^ 32 - 1) (s.fld (.soSlot j 2) SlotF.arrived + len)
  full : s.fld (.soSlot j 1) SlotF.expect ≤ min (2 ^ 32 - 1) (s.fld (.soSlot j 2) SlotF.arrived + len) ∧
      s.flag (.soSlot j 0) SlotF.full = false →
    t.flag (.soSlot j 0) SlotF.full = true ∧
    (s.flag (.soSlot j 2) SlotF.nen = true → (s.stall (Fin.ofNat 128 (s.fld (.soSlot j 2) SlotF.bstall))).running = true →
      t.stall (Fin.ofNat 128 (s.fld (.soSlot j 2) SlotF.bstall)) =
        (s.stall (Fin.ofNat 128 (s.fld (.soSlot j 2) SlotF.bstall))).advance (Fin.ofNat 64 (s.fld (.soSlot j 2) SlotF.nctr)) 1 ∧
      ∀ m, m ≠ Fin.ofNat 128 (s.fld (.soSlot j 2) SlotF.bstall) → t.stall m = s.stall m)
  quiet : ¬ (s.fld (.soSlot j 1) SlotF.expect ≤ min (2 ^ 32 - 1) (s.fld (.soSlot j 2) SlotF.arrived + len) ∧
      s.flag (.soSlot j 0) SlotF.full = false) ∨ s.flag (.soSlot j 2) SlotF.nen = false ∨
      (s.stall (Fin.ofNat 128 (s.fld (.soSlot j 2) SlotF.bstall))).running = false → t.stalls = s.stalls

theorem Fills.congr {s x y t : State} {j : Fin 4096} {n : Nat} (h : Fills x y j n)
    (before : ∀ w, x.rd (.soSlot j w) = s.rd (.soSlot j w)) (stalls : x.stalls = s.stalls)
    (after : ∀ w, t.rd (.soSlot j w) = y.rd (.soSlot j w)) (same : t.stalls = y.stalls) : Fills s t j n := by
  have fields (w : Fin 4) (f : Fld) : x.fld (.soSlot j w) f = s.fld (.soSlot j w) f := State.fld_congr f (before w)
  have flags (w : Fin 4) (f : Fld) : x.flag (.soSlot j w) f = s.flag (.soSlot j w) f := State.flag_congr f (before w)
  have stall (m : Fin 128) : x.stall m = s.stall m := by simp only [State.stall, stalls]
  have stallAfter (m : Fin 128) : y.stall m = t.stall m := by simp only [State.stall, same]
  obtain ⟨arrived, full, quiet⟩ := h
  simp only [fields, flags, stall, stallAfter, stalls] at arrived full quiet
  refine ⟨(State.fld_congr _ (after 2)).trans arrived, fun fills => ?_, fun why => same.trans (quiet why)⟩
  rw [State.flag_congr _ (after 0)]
  exact full fills

theorem slotArrived_arrived (s : State) (j : Fin 4096) (n : Nat) :
    (slotArrived s j n).fld (.soSlot j 2) SlotF.arrived = min (2 ^ 32 - 1) (s.fld (.soSlot j 2) SlotF.arrived + n) := by
  have least : min (2 ^ 32 - 1) (s.fld (.soSlot j 2) SlotF.arrived + n) < 2 ^ 32 := by omega
  unfold slotArrived satAdd
  generalize min (2 ^ 32 - 1) (s.fld (.soSlot j 2) SlotF.arrived + n) = v at least ⊢
  rw [State.fld_setFld _ _ _ _ (by decide)]
  exact Nat.mod_eq_of_lt least

theorem slotArrived_apart (s : State) (j : Fin 4096) (n : Nat) {f : Fld} (apart : f.apart SlotF.arrived = true) :
    (slotArrived s j n).fld (.soSlot j 2) f = s.fld (.soSlot j 2) f := by
  unfold slotArrived
  generalize satAdd _ _ _ = v
  exact State.fld_setFld_apart _ _ apart _

theorem slotArrived_other (s : State) (j : Fin 4096) (n : Nat) {r : Reg} (other : r ≠ .soSlot j 2) :
    (slotArrived s j n).rd r = s.rd r := State.rd_setFld_other _ _ _ other

/-- The state in which a slot has just been filled, before its stall's counter advances. -/
theorem slotFilled_fills (s : State) (j : Fin 4096) :
    ((slotFilled s j).chip = s.chip ∧ (slotFilled s j).recvStreams = s.recvStreams ∧
      ∀ r, r ≠ .soSlot j 0 → (slotFilled s j).rd r = s.rd r) ∧ (slotFilled s j).flag (.soSlot j 0) SlotF.full = true ∧
    (s.flag (.soSlot j 2) SlotF.nen = true → (s.stall (Fin.ofNat 128 (s.fld (.soSlot j 2) SlotF.bstall))).running = true →
      (slotFilled s j).stall (Fin.ofNat 128 (s.fld (.soSlot j 2) SlotF.bstall)) =
        (s.stall (Fin.ofNat 128 (s.fld (.soSlot j 2) SlotF.bstall))).advance (Fin.ofNat 64 (s.fld (.soSlot j 2) SlotF.nctr)) 1 ∧
      ∀ m, m ≠ Fin.ofNat 128 (s.fld (.soSlot j 2) SlotF.bstall) → (slotFilled s j).stall m = s.stall m) ∧
    (s.flag (.soSlot j 2) SlotF.nen = false ∨ (s.stall (Fin.ofNat 128 (s.fld (.soSlot j 2) SlotF.bstall))).running = false →
      (slotFilled s j).stalls = s.stalls) := by
  have word : (s.setFld (.soSlot j 0) SlotF.full 1).rd (.soSlot j 2) = s.rd (.soSlot j 2) := State.rd_setFld_other _ _ _ (by simp)
  have field (f : Fld) := State.fld_congr f word
  have full : (s.setFld (.soSlot j 0) SlotF.full 1).flag (.soSlot j 0) SlotF.full = true := by
    rw [State.flag, State.fld_setFld _ _ _ _ (by decide)]
    rfl
  have other (r : Reg) (h : r ≠ .soSlot j 0) : (s.setFld (.soSlot j 0) SlotF.full 1).rd r = s.rd r := State.rd_setFld_other _ _ _ h
  have form : slotFilled s j = if s.flag (.soSlot j 2) SlotF.nen &&
      (s.stall (Fin.ofNat 128 (s.fld (.soSlot j 2) SlotF.bstall))).running then
        (s.setFld (.soSlot j 0) SlotF.full 1).modStall (Fin.ofNat 128 (s.fld (.soSlot j 2) SlotF.bstall)) fun t =>
          t.advance (Fin.ofNat 64 (s.fld (.soSlot j 2) SlotF.nctr)) 1
      else s.setFld (.soSlot j 0) SlotF.full 1 := by
    rw [← field SlotF.bstall, ← field SlotF.nctr, ← State.flag_congr SlotF.nen word]
    rfl
  rw [form]
  split
  · next goes =>
    obtain ⟨nen, running⟩ := Bool.and_eq_true_iff.mp goes
    refine ⟨⟨rfl, rfl, other⟩, full, fun _ _ => ⟨State.stall_modStall_same .., fun m hm => State.stall_modStall_other _ _ hm⟩, ?_⟩
    rintro (off | off)
    · rw [nen] at off; cases off
    · rw [running] at off; cases off
  · next stays =>
    exact ⟨⟨rfl, rfl, other⟩, full, fun nen running => absurd (Bool.and_eq_true_iff.mpr ⟨nen, running⟩) stays, fun _ => rfl⟩

/-- What the arrival of bytes in a slot changes. -/
theorem slotPlace_fills {s x : State} {c : Fin 64} {j : Fin 4096} {off : Nat} {bs : List MByte} (written : slotWritten s c j off bs = x) :
    ((s.slotPlace c j off bs).chip = x.chip ∧ (s.slotPlace c j off bs).recvStreams = x.recvStreams ∧
      ∀ r, (∀ w, r ≠ .soSlot j w) → (s.slotPlace c j off bs).rd r = x.rd r) ∧ Fills x (s.slotPlace c j off bs) j bs.length := by
  have arrived := slotArrived_arrived x j bs.length
  have apart (f : Fld) (h : f.apart SlotF.arrived = true) := slotArrived_apart x j bs.length h
  have other (r : Reg) (h : r ≠ .soSlot j 2) := slotArrived_other x j bs.length h
  have nen : (slotArrived x j bs.length).flag (.soSlot j 2) SlotF.nen = x.flag (.soSlot j 2) SlotF.nen := by
    rw [State.flag, State.flag, apart _ (by decide)]
  have sat : satAdd (2 ^ 32 - 1) (x.fld (.soSlot j 2) SlotF.arrived) bs.length =
      min (2 ^ 32 - 1) (x.fld (.soSlot j 2) SlotF.arrived + bs.length) := rfl
  rw [slotPlace_eq s c j off bs written, sat]
  split
  · next fills =>
    obtain ⟨⟨chip, streams, regs⟩, full, counts, stays⟩ := slotFilled_fills (slotArrived x j bs.length) j
    rw [apart SlotF.bstall (by decide)] at counts stays
    rw [apart SlotF.nctr (by decide), nen] at counts
    rw [nen] at stays
    have first : x.fld (.soSlot j 1) SlotF.expect ≤ min (2 ^ 32 - 1) (x.fld (.soSlot j 2) SlotF.arrived + bs.length) ∧
        x.flag (.soSlot j 0) SlotF.full = false := by simpa using fills
    exact ⟨⟨chip, streams, fun r own => (regs r (own 0)).trans (other r (own 2))⟩,
      (State.fld_congr _ (regs _ (by simp))).trans arrived, fun _ => ⟨full, counts⟩,
      fun why => stays (why.resolve_left fun no => no first)⟩
  · next stays =>
    refine ⟨⟨rfl, rfl, fun r own => other r (own 2)⟩, arrived, fun fills => absurd ?_ stays, fun _ => rfl⟩
    simpa using fills

/-- The two ways in which a slot letter is not placeable. -/
theorem slotCheck_error {s : State} {c : Fin 64} {slot off len : Nat} {r : Reg} (h : s.slotCheck c slot off len = .error r) :
    r = .soSlotUnbound ∨ r = .soSlotOverrun := by
  unfold State.slotCheck at h
  split at h
  · exact .inl (Except.error.inj h).symm
  split at h
  · exact .inl (Except.error.inj h).symm
  split at h
  · exact .inr (Except.error.inj h).symm
  · cases h

theorem slotCheck_congr {s t : State} {c : Fin 64} (rec1 : t.rd (.hstLoadRec1 c) = s.rd (.hstLoadRec1 c))
    (slots : ∀ j w, t.rd (.soSlot j w) = s.rd (.soSlot j w)) (slot off len : Nat) : t.slotCheck c slot off len = s.slotCheck c slot off len := by
  simp only [State.slotCheck, slotOf_congr rec1, State.slotBound, State.flag, State.fld, slots]
  rfl

/-- What R145 says of a slot letter: its slot, and its offset in the stash, are fields of TARGET. -/
def letterCheck (s : State) (lt : Letter) (c : Fin 64) : Except Reg (Fin 4096) :=
  s.slotCheck c (lt.target.toNat % 2 ^ 12) (lt.target.toNat / 2 ^ 12 % 2 ^ 32) lt.length

theorem slotIn_eq (v : State) (lt : Letter) (c : Fin 64) {e : Except Reg (Fin 4096)} (check : letterCheck v lt c = e) :
    v.slotIn lt c = match (motive := Except Reg (Fin 4096) → State × Bool) e with
      | .error r => (v.bump r 1, false)
      | .ok j => ((v.slotPlace c j (lt.target.toNat / 2 ^ 12 % 2 ^ 32) (markedBody lt)).receipt lt .ok, true) := by
  have low : bitsOf lt.target.toNat 0 12 = lt.target.toNat % 2 ^ 12 := by simp [bitsOf]
  have high : bitsOf lt.target.toNat 12 32 = lt.target.toNat / 2 ^ 12 % 2 ^ 32 := rfl
  unfold letterCheck at check
  unfold State.slotIn
  dsimp only
  cases e <;> simp only [low, high, check]

theorem placing_slot {lt : Letter} (slot : lt.cls = .slot) (v : State) (c : Fin 64) : placing lt v c = v.slotIn lt c := if_pos slot

theorem letterCheck_recorded (s : State) (lt : Letter) (c : Fin 64) : letterCheck ((s.taken lt).record lt) lt c = letterCheck s lt c := by
  have same (r : Reg) (plain : traceReg r = false) : ((s.taken lt).record lt).rd r = s.rd r := taken_rd s lt plain
  exact slotCheck_congr (same _ rfl) (fun _ _ => same _ rfl) _ _ _

section
variable {s : State} (up : s.dieUp = true) {lt : Letter} (post : lt.op ≠ 0x3F) (on : s.globalOn = true) {c : Fin 64}
  (tag : s.ctxOfTag lt.jobTag = some c) (open' : s.fenced c = false)
  (new : (s.recvStream (streamOf lt)).judge lt.postmark = .new) (slot : lt.cls = .slot)
include up post on tag open' new slot

omit up post on tag open' new slot in
/-- A letter that leaves no record and is only counted. -/
theorem unrecorded_bump (u : State) (lt : Letter) (r : Reg) :
    { (u.record lt).bump r 1 with recvStreams := u.recvStreams } = u.bump r 1 := by
  have count : (u.record lt).fld r F.COUNT = u.fld r F.COUNT := rfl
  unfold State.bump
  rw [count]
  generalize satAdd (2 ^ 48 - 1) (u.fld r F.COUNT) 1 = x
  cases r.aon <;> rfl

/-- A slot letter that is not placeable is counted. -/
theorem slot_refused {r : Reg}
    (check : letterCheck s lt c = .error r) :
    CountsLetter s (exec (.registeredLetterReceive lt) s) r fun t => QueuesAfter t s.outQ := by
  have place := (placing_slot slot _ c).trans (slotIn_eq _ lt c ((letterCheck_recorded s lt c).trans check))
  have next := exec_registered_unplaced up post on tag open' new (.inr slot) place
  rw [← taken_recvStreams s lt, unrecorded_bump] at next
  rcases slotCheck_error check with rfl | rfl
  · exact counts_of_bump rfl (by simp [ringReg]) next
  · exact counts_of_bump rfl (by simp [ringReg]) next

/-- A slot letter that has been placed. -/
theorem slot_placed {j : Fin 4096}
    (check : letterCheck s lt c = .ok j) :
    Leaves (exec (.registeredLetterReceive lt) s) fun t =>
      (Receipted s t lt .ok 0 ∧ (t.recvStream (streamOf lt)).judge lt.postmark = .dup) ∧ Fills s t j lt.length := by
  have place := (placing_slot slot _ c).trans (slotIn_eq _ lt c ((letterCheck_recorded s lt c).trans check))
  refine ⟨_, exec_registered_placed up post on tag open' new (.inr slot) place, ?_⟩
  have visited := slotWritten_visited ((s.taken lt).record lt) c j (lt.target.toNat / 2 ^ 12 % 2 ^ 32) (markedBody lt)
  generalize hx : slotWritten ((s.taken lt).record lt) c j (lt.target.toNat / 2 ^ 12 % 2 ^ 32) (markedBody lt) = x at visited
  have fills := slotPlace_fills hx
  rw [show (markedBody lt).length = lt.length by simp [markedBody]] at fills
  generalize ((s.taken lt).record lt).slotPlace c j (lt.target.toNat / 2 ^ 12 % 2 ^ 32) (markedBody lt) = y at fills
  obtain ⟨⟨chip, streams, regs⟩, fills⟩ := fills
  have sent := receipt_forwarded y lt .ok 0
  exact ⟨recorded_done visited new chip streams fun r hr => regs r fun w own => (by rw [own] at hr; cases hr),
    fills.congr (fun w => recorded_rd visited rfl) (recorded_stalls visited) (fun w => sent.calm.regs _ rfl (by simp [dropReg]))
      sent.calm.stalls⟩

end

/-! ### Held duplicates (R321) -/

theorem heldDuplicate_waits {s : State} {lt : Letter} (waits : lt ∉ s.heldDups ∨ s.stillPlacing lt = true) : exec (.duplicateReceipt lt) s = .next s := by
  show Host.Outcome.next (if !s.dieUp || !s.heldDups.contains lt || s.stillPlacing lt then s else _) = _
  rw [if_pos]
  rcases waits with other | placing
  · simp [other]
  · simp [placing]

/-- The receipt of a held duplicate, once its original has its own. -/
theorem heldDuplicate_receipted {s : State} (up : s.dieUp = true) {lt : Letter} (mine : lt ∈ s.heldDups) (placed : s.stillPlacing lt = false) (alone : s.circOf lt = none) :
    Leaves (exec (.duplicateReceipt lt) s) fun t =>
      t.heldDups = s.heldDups.erase lt ∧ Receipted s t lt .ok 0 ∧ t.stalls = s.stalls ∧ Placed s t [] [] := by
  have next : exec (.duplicateReceipt lt) s = .next ({ s with heldDups := s.heldDups.erase lt }.receipt lt .ok) := by
    show Host.Outcome.next (if !s.dieUp || !s.heldDups.contains lt || s.stillPlacing lt then s
      else match State.circOf { s with heldDups := s.heldDups.erase lt } lt with
        | some x => _
        | none => _) = _
    rw [if_neg (by simp [up, mine, placed]), show State.circOf { s with heldDups := s.heldDups.erase lt } lt = none from alone]
  have sent := receipt_forwarded { s with heldDups := s.heldDups.erase lt } lt .ok 0
  have receipted : Receipted s (State.receipt { s with heldDups := s.heldDups.erase lt } lt .ok) lt .ok 0 :=
    @receipt_receipted s { s with heldDups := s.heldDups.erase lt } rfl (fun _ _ => rfl) lt .ok 0
  refine ⟨_, next, ?_, receipted, sent.calm.stalls, fun a out _ _ => sent.calm.mem a out, fun _ _ _ _ k a hk => absurd hk (by simp)⟩
  rw [sent.office]

/-- Settles O51: a letter is judged by its context, its fence and its postmark, and a new one placed as its class says. -/
theorem registeredLetters : Obligations.RegisteredLetters := by
  intro s lt up kind post o k same verdict done
  have place := exec_registered up kind post
  have taken (on : s.globalOn = true) : (s.taken lt).globalOn = true := (taken_globalOn s lt).trans on
  have owned {c : Fin 64} (tag : s.ctxOfTag lt.jobTag = some c) : (s.taken lt).ctxOfTag lt.jobTag = some c :=
    (taken_ctxOfTag s lt _).trans tag
  have unfenced {c : Fin 64} (open' : s.fenced c = false) : (s.taken lt).fenced c = false := (taken_fenced s lt c).trans open'
  have judged {x : PostIn} (v : verdict = x) : ((s.taken lt).recvStream (streamOf lt)).judge lt.postmark = x := by
    rw [taken_recvStream]
    exact v
  refine ⟨fun off => ?_, fun on none => ?_, fun on c tag => ⟨fun fenced => ?_, fun open' stale => ?_, fun open' dup => ?_,
    fun open' new bulk => bulk_placed up post on tag open' new bulk (kind.elim And.right fun slot => absurd (bulk.symm.trans slot) (by simp)),
    fun open' new slot => ⟨fun r check => slot_refused up post on tag open' new slot check, fun j check => ?_⟩⟩, ?_, ?_⟩
  · exact counts_of_bump rfl (by simp [ringReg]) (place.trans (by rw [postIn_off ((taken_globalOn s lt).trans off)]))
  · rw [postIn_lost (taken on) ((taken_ctxOfTag s lt _).trans none)] at place
    rcases kind with ⟨bulk, -⟩ | slot
    · rw [bulk] at place ⊢
      exact counts_of_bump rfl (by simp [ringReg]) place
    · rw [slot] at place ⊢
      exact counts_of_bump rfl (by simp [ringReg]) place
  · exact counts_and_receipts rfl (by simp [ringReg]) rfl .fenced (by simp [dropReg])
      (place.trans (by rw [postIn_fenced (taken on) (owned tag) ((taken_fenced s lt c).trans fenced)]))
  · exact counts_of_bump rfl (by simp [ringReg])
      (place.trans (by rw [postIn_stale (taken on) (owned tag) (unfenced open') (judged stale)]))
  · exact counts_and_receipts rfl (by simp [ringReg]) rfl .ok (by simp [dropReg])
      (place.trans (by rw [postIn_dup (taken on) (owned tag) (unfenced open') (judged dup)]))
  · obtain ⟨t, next, settled, arrived, full, quiet⟩ := slot_placed up post on tag open' new slot check
    refine ⟨t, next, settled, arrived, full, fun why => quiet why⟩
  · intro mine placed alone
    exact heldDuplicate_receipted up mine placed alone
  · exact heldDuplicate_waits

end Sys2Proof
end

section
/-!
PROOFS of the family 05_instruction_set: what leaves the slot table, the groups' tables and the stables' reservations, and what leaves
the consignments and the copies of the DMA engine too.
-/
namespace Sys2Proof

open Machine

/-- The registers of the slot table (R144) and of the groups' tables (R262). -/
@[reducible] def deskReg : Reg → Bool
  | .soSlot _ _ | .ceGrpCtrl _ _ | .ceGrpTree _ _ | .ceGrpMember _ _ _ => true
  | _ => false

/-- What stands on the sorting office's desk: the slot table and the groups' tables, the stables' reservations, and, where `jobs` says so,
the consignments and the copies of the DMA engine. -/
structure Desk where
  regs : Reg → BitVec 64
  stables : AMap (Fin 64) (List (Fin 16))
  consigns : AMap Nat Consign
  dma : List DmaCopy

def Machine.State.desk (s : State) (jobs : Bool) : Desk where
  regs r := if deskReg r = true then s.rd r else 0
  stables := s.ctxStables
  consigns := if jobs = true then s.consigns else []
  dma := if jobs = true then s.dma else []

/-- `P` of what stands on the desk. A function of the model that leaves the desk alone leaves any such `P` as it was. -/
def OnDesk (jobs : Bool) (P : Desk → Prop) (s : State) : Prop := P (s.desk jobs)

/-- The desk as `s` has it. -/
def asOf (jobs : Bool) (s : State) (d : Desk) : Prop := d = s.desk jobs

variable {jobs : Bool} {P : Desk → Prop} {s t : State}

theorem desk_congr (regs : ∀ r, deskReg r = true → t.rd r = s.rd r) (stables : t.ctxStables = s.ctxStables)
    (consigns : t.consigns = s.consigns) (dma : t.dma = s.dma) : t.desk jobs = s.desk jobs := by
  have all : (fun r => if deskReg r = true then t.rd r else 0) = fun r => if deskReg r = true then s.rd r else 0 := by
    funext r
    split
    · exact regs r ‹_›
    · rfl
  simp only [State.desk, all, stables, consigns, dma]

theorem onDesk_of_eq (same : t.desk jobs = s.desk jobs) : OnDesk jobs P t ↔ OnDesk jobs P s := by
  unfold OnDesk
  rw [same]

theorem OnDesk.rd (h : OnDesk jobs (asOf jobs s) t) {r : Reg} (mine : deskReg r = true) : t.rd r = s.rd r := by
  have same := congrArg (fun d => d.regs r) h
  simpa [State.desk, mine] using same

theorem OnDesk.stables (h : OnDesk jobs (asOf jobs s) t) : t.ctxStables = s.ctxStables := congrArg Desk.stables h
theorem OnDesk.consigns (h : OnDesk true (asOf true s) t) : t.consigns = s.consigns := congrArg Desk.consigns h
theorem OnDesk.dma (h : OnDesk true (asOf true s) t) : t.dma = s.dma := congrArg Desk.dma h

@[simp] theorem onDesk_self : OnDesk jobs (asOf jobs s) s := rfl

/-- A record written with other fields. -/
@[simp] theorem onDesk_mk x0 x1 x2 x3 x4 x5 x6 x7 x8 x9 x10 x11 x12 x13 x14 x15 x16 x17 x18 x19 x20 x21 x22 x23 x24 x25 x26 x27 x28 x29
    x30 x31 x32 x33 x34 x35 x36 x37 x38 x39 x40 x41 x42 x43 x44 x45 x46 x47 x48 x49 x50 x51 x52 x53 x54 x55 x56 x57 x58 x59 x60 x61 x62
    x63 x64 x65 x66 x67 x68 x69 x70 x71 x72 x73 x74 x75 x76 x77 x78 x79 x80 x81 x82 x83 x84 x85 x86 x87 x88 x89 x90 x91 x92 x93 x94 x95 :
        OnDesk jobs P (State.mk x0 t.regs x1 x2 x3 x4 x5 x6 x7 x8 x9 x10 x11 x12 x13 x14 x15 x16 x17 x18 x19 t.ctxStables t.consigns x20
    x21 t.dma x22 x23 x24 x25 x26 x27 x28 x29 x30 x31 x32 x33 x34 x35 x36 x37 x38 x39 x40 x41 x42 x43 x44 x45 x46 x47 x48 x49 x50 x51 x52
    x53 x54 x55 x56 x57 x58 x59 x60 x61 x62 x63 x64 x65 x66 x67 x68 x69 x70 x71 x72 x73 x74 x75 x76 x77 x78 x79 x80 x81 x82 x83 x84 x85
    x86 x87 x88 x89 x90 x91 x92 x93 x94 x95) ↔ OnDesk jobs P t :=
  .rfl

/-- A record written with other fields, the consignments and the copies among them. -/
@[simp] theorem onDesk_mk_jobs x0 x1 x2 x3 x4 x5 x6 x7 x8 x9 x10 x11 x12 x13 x14 x15 x16 x17 x18 x19 x20 x21 x22 x23 x24 x25 x26 x27 x28
    x29 x30 x31 x32 x33 x34 x35 x36 x37 x38 x39 x40 x41 x42 x43 x44 x45 x46 x47 x48 x49 x50 x51 x52 x53 x54 x55 x56 x57 x58 x59 x60 x61
    x62 x63 x64 x65 x66 x67 x68 x69 x70 x71 x72 x73 x74 x75 x76 x77 x78 x79 x80 x81 x82 x83 x84 x85 x86 x87 x88 x89 x90 x91 x92 x93 x94
    x95 cs ds :
        OnDesk false P (State.mk x0 t.regs x1 x2 x3 x4 x5 x6 x7 x8 x9 x10 x11 x12 x13 x14 x15 x16 x17 x18 x19 t.ctxStables cs x20 x21 ds
    x22 x23 x24 x25 x26 x27 x28 x29 x30 x31 x32 x33 x34 x35 x36 x37 x38 x39 x40 x41 x42 x43 x44 x45 x46 x47 x48 x49 x50 x51 x52 x53 x54
    x55 x56 x57 x58 x59 x60 x61 x62 x63 x64 x65 x66 x67 x68 x69 x70 x71 x72 x73 x74 x75 x76 x77 x78 x79 x80 x81 x82 x83 x84 x85 x86 x87
    x88 x89 x90 x91 x92 x93 x94 x95) ↔ OnDesk false P t :=
  .rfl

@[simp] theorem onDesk_ite {c : Prop} [Decidable c] {s t : State} :
    OnDesk jobs P (if c then s else t) ↔ if c then OnDesk jobs P s else OnDesk jobs P t := by
  split <;> rfl

@[simp] theorem onDesk_ite_fst {α : Type} {c : Prop} [Decidable c] {p q : State × α} :
    OnDesk jobs P (if c then p else q).1 ↔ if c then OnDesk jobs P p.1 else OnDesk jobs P q.1 := by
  split <;> rfl

@[simp] theorem onDesk_foldl {α : Type} {f : State → α → State} (h : ∀ t x, OnDesk jobs P (f t x) ↔ OnDesk jobs P t) (xs : List α) (s : State) :
    OnDesk jobs P (xs.foldl f s) ↔ OnDesk jobs P s := by
  induction xs generalizing s with
  | nil => rfl
  | cons x xs ih => exact (ih _).trans (h s x)

theorem RegFrame.desk {R : Reg → Prop} (h : RegFrame R s t) (away : ∀ r, R r → deskReg r = false) : OnDesk jobs P t ↔ OnDesk jobs P s :=
  onDesk_of_eq (desk_congr (fun r hr => h.regs r fun k => by rw [away r k] at hr; cases hr) (by rw [h.rest]) (by rw [h.rest]) (by rw [h.rest]))

theorem Visited.desk {W : Nat → Prop} (h : Visited W s t) : OnDesk jobs P t ↔ OnDesk jobs P s :=
  onDesk_of_eq (desk_congr (fun r hr => h.regs r (by revert hr; cases r <;> intro hr <;> first | rfl | cases hr))
    (by rw [h.rest]) (by rw [h.rest]) (by rw [h.rest]))

theorem Forwarded.desk (h : Forwarded s t) : OnDesk jobs P t ↔ OnDesk jobs P s :=
  onDesk_of_eq (desk_congr (fun r hr => h.calm.regs r (by revert hr; cases r <;> intro hr <;> first | rfl | cases hr)
    (by revert hr; cases r <;> simp [dropReg])) (by rw [h.office]) (by rw [h.office]) (by rw [h.office]))

namespace Machine.State

variable (s : State)

@[simp] theorem wr_desk {r : Reg} (h : deskReg r = false) (v : BitVec 64) : OnDesk jobs P (s.wr r v) ↔ OnDesk jobs P s :=
  (wr_frame s r v).desk fun _ e => e ▸ h
@[simp] theorem setFld_desk {r : Reg} (h : deskReg r = false) (f : Fld) (x : Nat) : OnDesk jobs P (s.setFld r f x) ↔ OnDesk jobs P s :=
  wr_desk s h _
@[simp] theorem setFlds_desk {r : Reg} (h : deskReg r = false) (fs : List (Fld × Nat)) : OnDesk jobs P (s.setFlds r fs) ↔ OnDesk jobs P s :=
  wr_desk s h _
@[simp] theorem regWrite_desk {r : Reg} (h : deskReg r = false) (v : BitVec 64) : OnDesk jobs P (s.regWrite r v) ↔ OnDesk jobs P s :=
  wr_desk s h _
@[simp] theorem bump_desk {r : Reg} (h : deskReg r = false) (n : Nat) : OnDesk jobs P (s.bump r n) ↔ OnDesk jobs P s :=
  (bump_frame s r n).desk fun _ e => e ▸ h
@[simp] theorem aonAdd_desk (i n : Nat) : OnDesk jobs P (s.aonAdd i n) ↔ OnDesk jobs P s :=
  (aonAdd_frame s i n).desk fun _ e => e.elim
@[simp] theorem raise_desk (v : Nat) : OnDesk jobs P (s.raise v) ↔ OnDesk jobs P s := (raise_frame s v).desk fun _ e => e.elim
@[simp] theorem setStall_desk (n : Fin 128) (x : Stall) : OnDesk jobs P (s.setStall n x) ↔ OnDesk jobs P s := by
  simp [State.setStall]
@[simp] theorem modStall_desk (n : Fin 128) (f : Stall → Stall) : OnDesk jobs P (s.modStall n f) ↔ OnDesk jobs P s := setStall_desk ..
@[simp] theorem setConsign_desk (i : Nat) (c : Consign) : OnDesk false P (s.setConsign i c) ↔ OnDesk false P s := by
  simp [State.setConsign]
theorem bookReg_away {r : Reg} (h : bookReg r) : deskReg r = false := by
  rcases h with dom | ⟨i, rfl⟩
  · cases r <;> first | rfl | cases dom
  · rfl
@[simp] theorem log_desk (unit : Fin 1024) (event ctx : Nat) (data : List Byte) : OnDesk jobs P (s.log unit event ctx data) ↔ OnDesk jobs P s :=
  (log_frame s unit event ctx data).desk fun _ => bookReg_away

end Machine.State

end Sys2Proof
end

section
/-!
PROOFS of the family 05_instruction_set: the operations of the model that leave the desk as it is, in the order of the model's files.
Most are a chain of operations that do so: `simp` takes them off the end one by one.
-/
namespace Sys2Proof

open Machine

variable {jobs : Bool} {P : Desk → Prop}

namespace Machine.State

/-! #### Ops -/

@[simp] theorem aonPorter_desk (s : State) (i : Fin 512) (n : Nat) : OnDesk jobs P (s.aonPorter i n) ↔ OnDesk jobs P s := by
  simp [State.aonPorter]
@[simp] theorem tracePut_desk (s : State) (rec : List Byte) : OnDesk jobs P (s.tracePut rec) ↔ OnDesk jobs P s := by
  simp [State.tracePut]
@[simp] theorem trigData_desk (s : State) (source : Nat) : OnDesk jobs P (s.trigData source) ↔ OnDesk jobs P s := by
  simp [State.trigData]
@[simp] theorem trigLog_desk (s : State) (source : Nat) : OnDesk jobs P (s.trigLog source) ↔ OnDesk jobs P s := by
  unfold State.trigLog
  dsimp only
  split <;> simp
@[simp] theorem trigMerge_desk (s : State) (source : Nat) : OnDesk jobs P (s.trigMerge source) ↔ OnDesk jobs P s := by
  simp [State.trigMerge]
@[simp] theorem traceTrigger_desk (s : State) (unit : Fin 1024) (source : Nat) (stamp : List Byte) (remote : Option TrigOrigin) :
    OnDesk jobs P (s.traceTrigger unit source stamp remote) ↔ OnDesk jobs P s := by
  unfold State.traceTrigger
  split <;> simp [↓onDesk_ite, ↓log_desk, ↓onDesk_foldl, ↓aonAdd_desk, ↓onDesk_mk]
@[simp] theorem ringIn_desk (s : State) (unit : Fin 1024) (rec : List Byte) : OnDesk jobs P (s.ringIn unit rec) ↔ OnDesk jobs P s := by
  unfold State.ringIn
  dsimp only
  (repeat' split) <;> simp
@[simp] theorem setTraceQ_desk (s : State) (unit : Fin 1024) (q : List (List Byte)) :
    OnDesk jobs P (s.setTraceQ unit q) ↔ OnDesk jobs P s := by
  simp [State.setTraceQ]
@[simp] theorem traceTake_desk (unit : Fin 1024) (n : Nat) (s : State) : OnDesk jobs P (s.traceTake unit n) ↔ OnDesk jobs P s := by
  induction n generalizing s with
  | zero => rfl
  | succ n ih =>
    unfold State.traceTake
    split
    · rfl
    · simp [↓ih]
@[simp] theorem traceMarkDrops_desk (s : State) (unit : Fin 1024) : OnDesk jobs P (s.traceMarkDrops unit) ↔ OnDesk jobs P s := by
  unfold State.traceMarkDrops
  split <;> simp
@[simp] theorem traceEmpty_desk (s : State) (unit : Fin 1024) : OnDesk jobs P (s.traceEmpty unit) ↔ OnDesk jobs P s := by
  simp [State.traceEmpty]
@[simp] theorem trigger_desk (s : State) (unit : Fin 1024) (source : Nat) (remote : Option TrigOrigin) :
    OnDesk jobs P (s.trigger unit source remote) ↔ OnDesk jobs P s := by
  simp [State.trigger]
@[simp] theorem traceServe_desk (s : State) (unit : Fin 1024) : OnDesk jobs P (s.traceServe unit) ↔ OnDesk jobs P s := by
  simp [State.traceServe]
@[simp] theorem traceQueue_desk (s : State) (unit : Fin 1024) (rec : List Byte) :
    OnDesk jobs P (s.traceQueue unit rec) ↔ OnDesk jobs P s := by
  simp [State.traceQueue]
@[simp] theorem emit_desk (s : State) (unit : Fin 1024) (kind ctx data0 : Nat) (data1 : List Byte) :
    OnDesk jobs P (s.emit unit kind ctx data0 data1) ↔ OnDesk jobs P s := by
  simp [State.emit]
@[simp] theorem count_desk (s : State) (n : Fin 128) (cs : List (StallEvent × Nat)) : OnDesk jobs P (s.count n cs) ↔ OnDesk jobs P s :=
  (count_frame s n cs).desk fun _ ⟨e, here⟩ => by rw [here]; cases e <;> rfl
@[simp] theorem issued_desk (s : State) (n : Fin 128) (k : Fin 4) : OnDesk jobs P (s.issued n k) ↔ OnDesk jobs P s := by
  simp [State.issued]
@[simp] theorem retire_desk (s : State) (n : Fin 128) (k : Fin 4) (ten : Bool) (tc : CReg) (pc : BitVec 17) (st : Status := .ok) :
    OnDesk jobs P (s.retire n k ten tc pc st) ↔ OnDesk jobs P s := by
  simp [State.retire]
@[simp] theorem acting_desk {α : Type} (s : State) (x : Actor) (u : Uses) (f : State → State × α) (hf : ∀ t, OnDesk jobs P (f t).1 ↔
    OnDesk jobs P t) : OnDesk jobs P (State.acting s x u f).1 ↔ OnDesk jobs P s := by
  simp [State.acting, ↓hf]
@[simp] theorem scope_desk {α : Type} (s : State) (f : State → State × α) (hf : ∀ t, OnDesk jobs P (f t).1 ↔ OnDesk jobs P t) :
    OnDesk jobs P (State.scope s f).1 ↔ OnDesk jobs P s := by
  simp [State.scope, ↓hf]
@[simp] theorem rescoped_desk (s : State) (pages : List (Fin 64 × Nat × Nat)) (f : State → State) (hf : ∀ t, OnDesk jobs P (f t) ↔
    OnDesk jobs P t) : OnDesk jobs P (s.rescoped pages f) ↔ OnDesk jobs P s := by
  simp [State.rescoped, ↓hf]
@[simp] theorem scoped_desk (s : State) (f : State → State) (hf : ∀ t, OnDesk jobs P (f t) ↔ OnDesk jobs P t) :
    OnDesk jobs P (s.scoped f) ↔ OnDesk jobs P s := by
  simp [State.scoped, ↓hf]
@[simp] theorem fly_desk (s : State) (n : Fin 128) (f : Flight) : OnDesk jobs P (s.fly n f) ↔ OnDesk jobs P s := by simp [State.fly]
@[simp] theorem runEnds_desk (s : State) (n : Fin 128) (unit : Fin 4) (cause cycles : Nat) :
    OnDesk jobs P (s.runEnds n unit cause cycles) ↔ OnDesk jobs P s := by
  simp [State.runEnds]
@[simp] theorem endRun_desk (s : State) (n : Fin 128) : OnDesk jobs P (s.endRun n) ↔ OnDesk jobs P s := by
  unfold State.endRun
  split <;> simp
@[simp] theorem endUpdRun_desk (s : State) (n : Fin 128) : OnDesk jobs P (s.endUpdRun n) ↔ OnDesk jobs P s := by simp [State.endUpdRun]
@[simp] theorem spread_desk (s : State) (n : Fin 128) : OnDesk jobs P (s.spread n) ↔ OnDesk jobs P s :=
  (spread_visited _ (fun _ => True) ..).desk
@[simp] theorem stopStall_desk (s : State) (n : Fin 128) : OnDesk jobs P (s.stopStall n) ↔ OnDesk jobs P s := by simp [State.stopStall]
@[simp] theorem finalise_desk (s : State) (id : Nat) (c : Consign) : OnDesk false P (s.finalise id c) ↔ OnDesk false P s := by
  simp [State.finalise]
@[simp] theorem returnUnstarted_desk (s : State) (id : Nat) (c : Consign) (cause : Nat) :
    OnDesk false P (s.returnUnstarted id c cause) ↔ OnDesk false P s := by
  simp [State.returnUnstarted]
@[simp] theorem returnWaiting_desk (s : State) (p : Consign → Bool) (cause : Nat) :
    OnDesk false P (s.returnWaiting p cause) ↔ OnDesk false P s := by
  simp [State.returnWaiting]
@[simp] theorem stopQueue_desk (s : State) (q : Fin 256) : OnDesk false P (s.stopQueue q) ↔ OnDesk false P s := by
  simp [State.stopQueue]
@[simp] theorem faultStall_desk (s : State) (n : Fin 128) (k : Fin 4) (i : FaultInfo) (cls op : Nat) :
    OnDesk false P (s.faultStall n k i cls op) ↔ OnDesk false P s := by
  unfold State.faultStall
  dsimp only
  split <;> simp

/-! #### MemOps -/

@[simp] theorem racesPerform_desk (s : State) (k : Racing → Nat) : OnDesk jobs P (s.racesPerform k) ↔ OnDesk jobs P s :=
  (racesPerform_visited _ (fun _ => True) ..).desk
@[simp] theorem racesEnd_desk (s : State) : OnDesk jobs P (s.racesEnd) ↔ OnDesk jobs P s := by simp [State.racesEnd]
@[simp] theorem racesSettle_desk (s : State) (cs : List Racing) (hit : Racing → Bool) :
    OnDesk jobs P (s.racesSettle cs hit) ↔ OnDesk jobs P s := by
  simp [State.racesSettle]
@[simp] theorem racesUndo_desk (s : State) (gone : Actor → Nat → Bool) : OnDesk jobs P (s.racesUndo gone) ↔ OnDesk jobs P s := by
  simp [State.racesUndo]
@[simp] theorem poisonUnit_desk (s : State) (u : Nat) : OnDesk jobs P (s.poisonUnit u) ↔ OnDesk jobs P s := by simp [State.poisonUnit]
@[simp] theorem postPoison_desk (s : State) (a : Nat) (scrub : Bool) : OnDesk jobs P (s.postPoison a scrub) ↔ OnDesk jobs P s :=
  (postPoison_visited _ (fun _ => True) ..).desk
@[simp] theorem logUnrecorded_desk (s : State) (unit : Fin 1024) (ctx : Nat) (st : Status) (reg : Nat) :
    OnDesk jobs P (s.logUnrecorded unit ctx st reg) ↔ OnDesk jobs P s := by
  simp [State.logUnrecorded]
@[simp] theorem logPoison_desk (s : State) (unit : Fin 1024) (u : Nat) : OnDesk jobs P (s.logPoison unit u) ↔ OnDesk jobs P s := by
  simp [State.logPoison]
@[simp] theorem touch_desk (s : State) (u : Nat) (scrub : Bool := false) : OnDesk jobs P (s.touch u scrub) ↔ OnDesk jobs P s :=
  (touch_visited _ (fun _ => True) ..).desk
@[simp] theorem readMem_desk (s : State) (as : List Nat) : OnDesk jobs P (s.readMem as).1 ↔ OnDesk jobs P s :=
  (readMem_looks ..).toVisited.desk
@[simp] theorem writeMem_desk (s : State) (ws : List (Nat × MByte)) : OnDesk jobs P (s.writeMem ws) ↔ OnDesk jobs P s :=
  (writeMem_visited s (W := fun _ => True) fun _ _ => trivial).desk
@[simp] theorem clearRange_desk (s : State) (lo hi : Nat) : OnDesk jobs P (s.clearRange lo hi) ↔ OnDesk jobs P s := by
  simp [State.clearRange]
@[simp] theorem clearStores_desk (s : State) (t : Fin 16) : OnDesk jobs P (s.clearStores t) ↔ OnDesk jobs P s := by
  simp [State.clearStores]
@[simp] theorem countRsvd_desk (s : State) (as : List Nat) : OnDesk jobs P (s.countRsvd as) ↔ OnDesk jobs P s :=
  (countRsvd_visited _ (fun _ => True) ..).desk
@[simp] theorem writeOpen_desk (s : State) (ws : List (Nat × MByte)) : OnDesk jobs P (s.writeOpen ws) ↔ OnDesk jobs P s := by
  simp [State.writeOpen]
@[simp] theorem writeGuarded_desk (s : State) (ws : List (Nat × MByte)) : OnDesk jobs P (s.writeGuarded ws) ↔ OnDesk jobs P s := by
  simp [State.writeGuarded]
@[simp] theorem readGuarded_desk (s : State) (as : List Nat) : OnDesk jobs P (s.readGuarded as).1 ↔ OnDesk jobs P s :=
  (readGuarded_looks ..).toVisited.desk
@[simp] theorem xlatDiscard_desk (s : State) (c : Fin 64) : OnDesk jobs P (s.xlatDiscard c) ↔ OnDesk jobs P s := by
  simp [State.xlatDiscard]
@[simp] theorem refuse_desk (s : State) (c : Fin 64) (va cause : Nat) (write remote : Bool) (source : Nat) (page : Nat × Nat := (21, va
    / 2 ^ 21)) : OnDesk jobs P (s.refuse c va cause write remote source page) ↔ OnDesk jobs P s :=
  (refuse_looks ..).toVisited.desk
@[simp] theorem refuseRange_desk (s : State) (c : Fin 64) (x len : Nat) (write : Bool) (source : Nat) :
    OnDesk jobs P (s.refuseRange c x len write source) ↔ OnDesk jobs P s := by
  simp [State.refuseRange]
@[simp] theorem xlatAll_desk (s : State) (c : Fin 64) (vas : List Nat) (write remote : Bool) (source : Nat) :
    OnDesk jobs P (s.xlatAll c vas write remote source).1 ↔ OnDesk jobs P s :=
  (xlatAll_looks ..).toVisited.desk
@[simp] theorem readCtx_desk (s : State) (c : Fin 64) (vas : List Nat) (source : Nat) :
    OnDesk jobs P (s.readCtx c vas source).1 ↔ OnDesk jobs P s :=
  (readCtx_looks ..).toVisited.desk
@[simp] theorem writeCtx_desk (s : State) (c : Fin 64) (ws : List (Nat × MByte)) (source : Nat) :
    OnDesk jobs P (s.writeCtx c ws source) ↔ OnDesk jobs P s :=
  (writeCtx_visited s c ws source).desk

/-! #### Routing -/

@[simp] theorem toPort_desk (s : State) (lt : Letter) (p : Fin 8) (vc : Fin 16) (src : Option (Fin 8)) :
    OnDesk jobs P (s.toPort lt p vc src) ↔ OnDesk jobs P s :=
  (toPort_forwarded ..).desk
@[simp] theorem forward_desk (s : State) (lt : Letter) (arrived : Option (Fin 8)) :
    OnDesk jobs P (s.forward lt arrived) ↔ OnDesk jobs P s :=
  (forward_forwarded ..).desk
@[simp] theorem traceHead_desk (s : State) (unit : Fin 1024) (lt : Letter) (sent : Bool) :
    OnDesk jobs P (s.traceHead unit lt sent) ↔ OnDesk jobs P s := by
  simp [State.traceHead]
@[simp] theorem send_desk (s : State) (lt : Letter) : OnDesk jobs P (s.send lt) ↔ OnDesk jobs P s := (send_forwarded ..).desk
@[simp] theorem sendOn_desk (s : State) (lt : Letter) (p : Fin 8) : OnDesk jobs P (s.sendOn lt p) ↔ OnDesk jobs P s := by
  simp [State.sendOn]
@[simp] theorem setSend_desk (s : State) (k : StreamKey) (x : SendStream) : OnDesk jobs P (s.setSend k x) ↔ OnDesk jobs P s := by
  simp [State.setSend]
@[simp] theorem transmit_desk (s : State) (o : Outstanding) : OnDesk jobs P (s.transmit o) ↔ OnDesk jobs P s := by
  unfold State.transmit
  split <;> simp
@[simp] theorem circRecall_desk (s : State) (x : Circ) : OnDesk jobs P (s.circRecall x) ↔ OnDesk jobs P s := by simp [State.circRecall]
@[simp] theorem engineWrite_desk (s : State) (a : Nat) (bs : List MByte) : OnDesk jobs P (s.engineWrite a bs) ↔ OnDesk jobs P s := by
  simp [State.engineWrite]
@[simp] theorem stageIn_desk (s : State) (f : Frame) (lt : Letter) : OnDesk jobs P (s.stageIn f lt) ↔ OnDesk jobs P s := by
  simp [State.stageIn]
@[simp] theorem keep_desk (s : State) (o : Outstanding) : OnDesk jobs P (s.keep o).1 ↔ OnDesk jobs P s := by
  unfold State.keep
  (repeat' split) <;> simp
@[simp] theorem startPost_desk (s : State) (o : Outstanding) : OnDesk jobs P (s.startPost o) ↔ OnDesk jobs P s := by
  simp [State.startPost]
@[simp] theorem pumpPost_desk (s : State) : OnDesk jobs P s.pumpPost ↔ OnDesk jobs P s :=
  onDesk_foldl (fun t o => by split <;> simp) _ _
@[simp] theorem post_desk (s : State) (os : List Outstanding) : OnDesk jobs P (s.post os) ↔ OnDesk jobs P s := by simp [State.post]

/-! #### Scalar -/

@[simp] theorem halted_desk (s : State) (h : Hdr) : OnDesk jobs P (s.halted h) ↔ OnDesk jobs P s := by simp [State.halted]
@[simp] theorem finishHalt_desk (s : State) (n : Fin 128) : OnDesk jobs P (s.finishHalt n) ↔ OnDesk jobs P s := by
  unfold State.finishHalt
  dsimp only
  split <;> simp

/-! #### Mover -/

@[simp] theorem resolve_desk (s : State) (c : Fin 64) (n : Fin 128) (write : Bool) (xs : List Sym) :
    OnDesk jobs P (s.resolve c n write xs).1 ↔ OnDesk jobs P s := by
  simp [State.resolve]
@[simp] theorem moveSides_desk (s : State) (h : Hdr) (rows : List (Sym × Sym × Nat)) :
    OnDesk jobs P (s.moveSides h rows).1 ↔ OnDesk jobs P s := by
  simp [State.moveSides]
@[simp] theorem move_desk (s : State) (h : Hdr) (r : Flight) (rows : List (Sym × Sym × Nat)) :
    OnDesk jobs P (s.move h r rows).1 ↔ OnDesk jobs P s := by
  simp [State.move]

/-! #### Matrix -/

@[simp] theorem mma_desk (s : State) (n : Fin 128) (r : Flight) (compat : Bool) (acc : Fin 2) (ta tb : TReg) (fmt : Fmt) (z tra trb :
    Bool) (M N K : Nat) : OnDesk jobs P (s.mma n r compat acc ta tb fmt z tra trb M N K).1 ↔ OnDesk jobs P s := by
  simp [State.mma]
@[simp] theorem writeTile_desk (s : State) (n : Fin 128) (d : Desc) (ws : List (Nat × MByte)) :
    OnDesk jobs P (s.writeTile n d ws).1 ↔ OnDesk jobs P s := by
  simp [State.writeTile]

/-! #### Post -/

@[simp] theorem receipt_desk (s : State) (lt : Letter) (st : Status) (target : BitVec 64 := 0) :
    OnDesk jobs P (s.receipt lt st target) ↔ OnDesk jobs P s := by
  simp [State.receipt]
@[simp] theorem record_desk (s : State) (lt : Letter) : OnDesk jobs P (s.record lt) ↔ OnDesk jobs P s := by simp [State.record]
@[simp] theorem bumpAll_desk (s : State) {rs : List Reg} (away : ∀ r ∈ rs, deskReg r = false) :
    OnDesk jobs P (s.bumpAll rs) ↔ OnDesk jobs P s := by
  induction rs generalizing s with
  | nil => rfl
  | cons r rs ih => exact (ih (s.bump r 1) fun q hq => away q (List.mem_cons_of_mem r hq)).trans (bump_desk s (away r List.mem_cons_self) 1)
theorem lostCounters_away (c : LClass) : ∀ r ∈ lostCounters c, deskReg r = false := by
  cases c <;> simp [lostCounters]
@[simp] theorem postIn_desk (s : State) (lt : Letter) {lost : List Reg} (away : ∀ r ∈ lost, deskReg r = false) (held : Bool)
    (place : State → Fin 64 → State × Bool) (hplace : ∀ t c, OnDesk jobs P (place t c).1 ↔ OnDesk jobs P t) :
    OnDesk jobs P (s.postIn lt lost held place) ↔ OnDesk jobs P s := by
  unfold State.postIn
  split
  · simp
  split
  · exact bumpAll_desk s away
  split
  · simp
  split
  · simp
  · simp
  · simp [↓hplace]
@[simp] theorem freedMore_desk (s : State) (k : Fin 8 × Fin 16) (n : Nat) : OnDesk jobs P (s.freedMore k n) ↔ OnDesk jobs P s := by
  simp [State.freedMore]
@[simp] theorem release_desk (s : State) (lt : Letter) : OnDesk jobs P (s.release lt) ↔ OnDesk jobs P s := by
  unfold State.release
  split <;> simp
@[simp] theorem taken_desk (s : State) (lt : Letter) : OnDesk jobs P (s.taken lt) ↔ OnDesk jobs P s := by simp [State.taken]
@[simp] theorem giveUp_desk (s : State) (o : Outstanding) : OnDesk false P (s.giveUp o) ↔ OnDesk false P s := by
  unfold State.giveUp
  dsimp only
  (repeat' split) <;> simp
@[simp] theorem unqueue_desk (s : State) (w : Owner) : OnDesk jobs P (s.unqueue w) ↔ OnDesk jobs P s := by simp [State.unqueue]
@[simp] theorem giveUpOwner_desk (s : State) (w : Owner) : OnDesk false P (s.giveUpOwner w) ↔ OnDesk false P s := by
  simp [State.giveUpOwner]
@[simp] theorem failFlight_desk (s : State) (n : Fin 128) (seq : Nat) (st : Status) (pm : BitVec 32 := 0) :
    OnDesk jobs P (s.failFlight n seq st pm) ↔ OnDesk jobs P s := by
  simp [State.failFlight]

/-! #### Coll -/

@[simp] theorem setOp_desk (s : State) (o : CollOp) : OnDesk jobs P (s.setOp o) ↔ OnDesk jobs P s := by simp [State.setOp]
@[simp] theorem collCount_desk (s : State) (o : CollOp) (n : CollCount) : OnDesk jobs P (s.collCount o n) ↔ OnDesk jobs P s := by
  simp [State.collCount]
@[simp] theorem collAddrs_desk (s : State) (c : Fin 64) (n : Fin 128) (x : BitVec 64) (len : Nat) (write : Bool) :
    OnDesk jobs P (s.collAddrs c n x len write).1 ↔ OnDesk jobs P s := by
  unfold State.collAddrs
  (repeat' split) <;> simp
@[simp] theorem collBuf_desk (s : State) (c : Fin 64) (n : Fin 128) (x : BitVec 64) (f : Fmt) (base cnt : Nat) (write : Bool) :
    OnDesk jobs P (s.collBuf c n x f base cnt write).1 ↔ OnDesk jobs P s := by
  simp [State.collBuf]
@[simp] theorem collRead_desk (s : State) (as : List (Option Nat)) : OnDesk jobs P (s.collRead as).1 ↔ OnDesk jobs P s := by
  simp [State.collRead]
@[simp] theorem sourceRead_desk (s : State) (id : Nat) (as : List (Option Nat)) :
    OnDesk jobs P (s.sourceRead id as).1 ↔ OnDesk jobs P s := by
  simp [State.sourceRead]
@[simp] theorem collWrite_desk (s : State) (as : List (Option Nat)) (bs : List MByte) :
    OnDesk jobs P (s.collWrite as bs) ↔ OnDesk jobs P s := by
  simp [State.collWrite]
@[simp] theorem ownBytes_desk (s : State) (o : CollOp) (start n : Nat) : OnDesk jobs P (s.ownBytes o start n).1 ↔ OnDesk jobs P s := by
  simp [State.ownBytes]
@[simp] theorem contrib_desk (s : State) (o : CollOp) (start n : Nat) : OnDesk jobs P (s.contrib o start n).1 ↔ OnDesk jobs P s := by
  simp [State.contrib]
@[simp] theorem scaleContrib_desk (s : State) (o : CollOp) (start n : Nat) :
    OnDesk jobs P (s.scaleContrib o start n).1 ↔ OnDesk jobs P s := by
  simp [State.scaleContrib]
@[simp] theorem collPost_desk (s : State) (o : CollOp) (it : CollItem) (c : Carrier) (dest : BitVec 14) (port : Fin 8) (vc : Fin 16) (fr
    : Option Frame) : OnDesk jobs P (s.collPost o it c dest port vc fr) ↔ OnDesk jobs P s := by
  simp [State.collPost]
@[simp] theorem ringPost_desk (s : State) (o : CollOp) (it : CollItem) (c : Carrier) (vc : Fin 16) (fr : Option Frame) :
    OnDesk jobs P (s.ringPost o it c vc fr) ↔ OnDesk jobs P s := by
  simp [State.ringPost]
@[simp] theorem treeUp_desk (s : State) (o : CollOp) (it : CollItem) (c : Carrier) (fr : Option Frame) :
    OnDesk jobs P (s.treeUp o it c fr) ↔ OnDesk jobs P s := by
  unfold State.treeUp
  split <;> simp
@[simp] theorem treeDown_desk (s : State) (o : CollOp) (it : CollItem) (c : Carrier) (fr : Option Frame) :
    OnDesk jobs P (s.treeDown o it c fr) ↔ OnDesk jobs P s := by
  simp [State.treeDown]
@[simp] theorem modOp_desk (s : State) (id : Nat) (f : CollOp → CollOp) : OnDesk jobs P (s.modOp id f) ↔ OnDesk jobs P s := by
  unfold State.modOp
  split <;> simp
@[simp] theorem nanWritten_desk (s : State) (cg : Fin 64 × Fin 4) (op : NanOp) (tag e : Nat) (c : Carrier) :
    OnDesk jobs P (s.nanWritten cg op tag e c) ↔ OnDesk jobs P s := by
  unfold State.nanWritten
  split <;> simp [↓onDesk_ite, ↓onDesk_mk]
@[simp] theorem collResult_desk (s : State) (o : CollOp) (it : CollItem) (c : Carrier) :
    OnDesk jobs P (s.collResult o it c) ↔ OnDesk jobs P s := by
  simp [State.collResult]
@[simp] theorem startCarrier_desk (s : State) (o : CollOp) (it : CollItem) :
    OnDesk jobs P (s.startCarrier o it).1 ↔ OnDesk jobs P s := by
  simp [State.startCarrier]
@[simp] theorem startReduce_desk (s : State) (id : Nat) : OnDesk jobs P (s.startReduce id) ↔ OnDesk jobs P s := by
  unfold State.startReduce
  split <;> simp
@[simp] theorem ringStart_desk (s : State) (o : CollOp) : OnDesk jobs P (s.ringStart o) ↔ OnDesk jobs P s := by simp [State.ringStart]
@[simp] theorem ringReduce_desk (s : State) (o : CollOp) (it : CollItem) (lt : Letter) (fr : Frame) :
    OnDesk jobs P (s.ringReduce o it lt fr) ↔ OnDesk jobs P s := by
  simp [State.ringReduce]
@[simp] theorem ringGather_desk (s : State) (o : CollOp) (it : CollItem) (lt : Letter) (fr : Frame) :
    OnDesk jobs P (s.ringGather o it lt fr) ↔ OnDesk jobs P s := by
  simp [State.ringGather]
@[simp] theorem ringScale_desk (s : State) (o : CollOp) (it : CollItem) (lt : Letter) (fr : Frame) :
    OnDesk jobs P (s.ringScale o it lt fr) ↔ OnDesk jobs P s := by
  simp [State.ringScale]
@[simp] theorem treeStep_desk (s : State) (id : Nat) : OnDesk jobs P (s.treeStep id) ↔ OnDesk jobs P s := by
  unfold State.treeStep
  split
  · rfl
  dsimp only
  split
  · exact onDesk_foldl (fun t it => by split <;> simp) _ _
  · exact (onDesk_foldl (fun t it => by split <;> simp) _ _).trans (onDesk_foldl (fun t it => by split <;> simp) _ _)
@[simp] theorem treePartial_desk (s : State) (o : CollOp) (it : CollItem) (child : Nat) (lt : Letter) (fr : Frame) :
    OnDesk jobs P (s.treePartial o it child lt fr) ↔ OnDesk jobs P s := by
  simp [State.treePartial]
@[simp] theorem treeDescend_desk (s : State) (o : CollOp) (it : CollItem) (lt : Letter) (fr : Frame) :
    OnDesk jobs P (s.treeDescend o it lt fr) ↔ OnDesk jobs P s := by
  simp [State.treeDescend]
@[simp] theorem a2aBlock_desk (s : State) (o : CollOp) (q : Nat) : OnDesk jobs P (s.a2aBlock o q) ↔ OnDesk jobs P s := by
  simp [State.a2aBlock]
@[simp] theorem a2aStart_desk (s : State) (o : CollOp) : OnDesk jobs P (s.a2aStart o) ↔ OnDesk jobs P s := by simp [State.a2aStart]
@[simp] theorem a2aIn_desk (s : State) (o : CollOp) (it : CollItem) (lt : Letter) :
    OnDesk jobs P (s.a2aIn o it lt) ↔ OnDesk jobs P s := by
  simp [State.a2aIn]
@[simp] theorem collMismatch_desk (s : State) (c : Fin 64) (g : Fin 4) : OnDesk jobs P (s.collMismatch c g) ↔ OnDesk jobs P s := by
  simp [State.collMismatch]
@[simp] theorem neverPlaced_desk (s : State) (g : Staged) : OnDesk jobs P (s.neverPlaced g) ↔ OnDesk jobs P s := by
  simp [State.neverPlaced]
@[simp] theorem collProcess_desk (s : State) (o : CollOp) (lt : Letter) (fr : Frame) :
    OnDesk jobs P (s.collProcess o lt fr) ↔ OnDesk jobs P s := by
  unfold State.collProcess
  dsimp only
  (repeat' split) <;> simp
theorem gatherIn_desk {s t : State} {g : Staged} (taken : s.gatherIn g = some t) : OnDesk jobs P t ↔ OnDesk jobs P s := by
  have paged := xlatAll_desk (jobs := jobs) (P := P) s g.ctx (gatherVas g.letter).1 true true 0x81
  unfold State.gatherIn at taken
  dsimp only at taken
  split at taken
  · cases taken
  generalize s.xlatAll g.ctx (gatherVas g.letter).1 true true 0x81 = p at paged taken
  split at taken
  · cases taken
    simp [↓paged]
  split at taken
  · cases taken
    simp [↓paged]
  · cases taken
    simp [↓paged]
theorem collTry_desk {s t : State} {g : Staged} (taken : s.collTry g = some t) : OnDesk jobs P t ↔ OnDesk jobs P s := by
  unfold State.collTry at taken
  split at taken
  · exact gatherIn_desk taken
  split at taken
  · cases taken
  split at taken
  · cases taken
    simp
  split at taken
  · cases taken
  · cases taken
    simp
@[simp] theorem pumpColl_desk (s : State) : OnDesk jobs P s.pumpColl ↔ OnDesk jobs P s :=
  (pumpPost_desk _).trans (onDesk_foldl (fun t g => by
    split
    · simp [↓collTry_desk ‹_›]
    · rfl) _ _)
@[simp] theorem notePm_desk (s : State) (c : Fin 64) (g : Fin 4) (lt : Letter) : OnDesk jobs P (s.notePm c g lt) ↔ OnDesk jobs P s :=
  onDesk_foldl (fun t w => by split <;> simp) _ _
@[simp] theorem collArrive_desk (s : State) (lt : Letter) (c : Fin 64) : OnDesk jobs P (s.collArrive lt c).1 ↔ OnDesk jobs P s := by
  unfold State.collArrive
  dsimp only
  (repeat' split) <;> simp
@[simp] theorem circDeliver_desk (s : State) (c : Fin 64) (lt : Letter) (remote : Bool) :
    OnDesk jobs P (s.circDeliver c lt remote).1 ↔ OnDesk jobs P s := by
  simp [State.circDeliver]
@[simp] theorem circBegin_desk (s : State) (o : CollOp) : OnDesk jobs P (s.circBegin o) ↔ OnDesk jobs P s := by
  unfold State.circBegin
  split <;> simp
@[simp] theorem grpQuiet_desk (s : State) (c : Fin 64) (g : Fin 4) : OnDesk jobs P (s.grpQuiet c g) ↔ OnDesk jobs P s := by
  simp [State.grpQuiet]
@[simp] theorem grpRefresh_desk (s : State) (c : Fin 64) (g : Fin 4) : OnDesk jobs P (s.grpRefresh c g) ↔ OnDesk jobs P s := by
  simp [State.grpRefresh]
@[simp] theorem traceColl_desk (s : State) (o : CollOp) (st : Nat) : OnDesk jobs P (s.traceColl o st) ↔ OnDesk jobs P s := by
  simp [State.traceColl]
@[simp] theorem collDrop_desk (s : State) (o : CollOp) (st : Status) : OnDesk false P (s.collDrop o st) ↔ OnDesk false P s := by
  simp [State.collDrop]
@[simp] theorem collIssued_desk (s : State) (c : Fin 64) (g : Fin 4) (tag : Nat) :
    OnDesk jobs P (s.collIssued c g tag) ↔ OnDesk jobs P s := by
  simp [State.collIssued]
@[simp] theorem collAlone_desk (s : State) (o : CollOp) (st : Status) : OnDesk jobs P (s.collAlone o st) ↔ OnDesk jobs P s := by
  simp [State.collAlone]
@[simp] theorem opBegin_desk (s : State) (o : CollOp) : OnDesk jobs P (s.opBegin o) ↔ OnDesk jobs P s := by
  unfold State.opBegin
  dsimp only
  split <;> simp
@[simp] theorem startWaiting_desk (s : State) : OnDesk false P (s.startWaiting) ↔ OnDesk false P s := by simp [State.startWaiting]
@[simp] theorem collLost_desk (s : State) (o : CollOp) (st : Status) (waitOn : Nat) :
    OnDesk false P (s.collLost o st waitOn) ↔ OnDesk false P s := by
  simp [State.collLost]
@[simp] theorem collFinish_desk (s : State) (id : Nat) : OnDesk false P (s.collFinish id) ↔ OnDesk false P s := by
  unfold State.collFinish
  split <;> simp
@[simp] theorem opAdd_desk (s : State) (o : CollOp) : OnDesk jobs P (s.opAdd o) ↔ OnDesk jobs P s := by simp [State.opAdd]
@[simp] theorem collUnusable_desk (s : State) (r : Flight) (o : CollOp) : OnDesk jobs P (s.collUnusable r o).1 ↔ OnDesk jobs P s := by
  simp [State.collUnusable]
@[simp] theorem copyBuf_desk (s : State) (a b : CollBuf) : OnDesk jobs P (s.copyBuf a b).1 ↔ OnDesk jobs P s := by simp [State.copyBuf]
@[simp] theorem nanCopied_desk (s : State) (o : CollOp) (bs : List MByte) : OnDesk jobs P (s.nanCopied o bs) ↔ OnDesk jobs P s := by
  simp [State.nanCopied]
@[simp] theorem collCopy_desk (s : State) (o : CollOp) : OnDesk jobs P (s.collCopy o) ↔ OnDesk jobs P s := by simp [State.collCopy]

/-! #### Sync -/

@[simp] theorem endWait_desk (s : State) (n : Fin 128) (h : Hdr) : OnDesk jobs P (s.endWait n h) ↔ OnDesk jobs P s := by
  simp [State.endWait]
@[simp] theorem retireSync_desk (s : State) (h : Hdr) : OnDesk jobs P (s.retireSync h) ↔ OnDesk jobs P s := by simp [State.retireSync]
@[simp] theorem beginWait_desk (s : State) (n : Fin 128) (w : Wait) : OnDesk jobs P (s.beginWait n w) ↔ OnDesk jobs P s := by
  simp [State.beginWait]
@[simp] theorem tallyWait_desk (s : State) (h : Hdr) (cn : CReg) (target : BitVec 32) :
    OnDesk jobs P (s.tallyWait h cn target) ↔ OnDesk jobs P s := by
  simp [State.tallyWait]
@[simp] theorem endFence_desk (s : State) (n : Fin 128) (h : Hdr) : OnDesk jobs P (s.endFence n h) ↔ OnDesk jobs P s := by
  simp [State.endFence]
@[simp] theorem fenceDone_desk (s : State) (h : Hdr) : OnDesk jobs P (s.fenceDone h) ↔ OnDesk jobs P s := by simp [State.fenceDone]
@[simp] theorem endBarrier_desk (s : State) (evt : Fin 64) (k : Nat) (m : Fin 128) :
    OnDesk jobs P (s.endBarrier evt k m) ↔ OnDesk jobs P s := by
  unfold State.endBarrier
  split <;> simp

/-! #### Views -/

@[simp] theorem readReg_desk (s : State) (r : Reg) : OnDesk jobs P (s.readReg r).1 ↔ OnDesk jobs P s := by simp [State.readReg]

/-! #### Yards -/

@[simp] theorem setYard_desk (s : State) (y : Fin 4) (x : Yard) : OnDesk jobs P (s.setYard y x) ↔ OnDesk jobs P s := by
  simp [State.setYard]
@[simp] theorem yardRecord_desk (s : State) (y : Fin 4) (event reason : Nat) (data : List Byte) :
    OnDesk jobs P (s.yardRecord y event reason data) ↔ OnDesk jobs P s := by
  simp [State.yardRecord]
@[simp] theorem yardStop_desk (s : State) (y : Fin 4) (reason : Nat) : OnDesk jobs P (s.yardStop y reason) ↔ OnDesk jobs P s := by
  simp [State.yardStop]
@[simp] theorem yardResume_desk (s : State) (y : Fin 4) (reason : Nat) : OnDesk jobs P (s.yardResume y reason) ↔ OnDesk jobs P s := by
  simp [State.yardResume]
@[simp] theorem haltWrite_desk (s : State) (y : Fin 4) (on : Bool) : OnDesk jobs P (s.haltWrite y on) ↔ OnDesk jobs P s := by
  simp [State.haltWrite]
@[simp] theorem yardShow_desk (s : State) (y : Fin 4) : OnDesk jobs P (s.yardShow y) ↔ OnDesk jobs P s := by simp [State.yardShow]
@[simp] theorem neighbourCheck_desk (s : State) (mv tc : Vector Nat 4) : OnDesk jobs P (s.neighbourCheck mv tc) ↔ OnDesk jobs P s := by
  simp [State.neighbourCheck]
@[simp] theorem stretchTick_desk (s : State) (y : Fin 4) (n : Nat) : OnDesk jobs P (s.stretchTick y n) ↔ OnDesk jobs P s := by
  simp [State.stretchTick]
@[simp] theorem syncTick_desk (s : State) (m : Fin 128) (n : Nat) : OnDesk jobs P (s.syncTick m n) ↔ OnDesk jobs P s := by
  unfold State.syncTick
  dsimp only
  split <;> simp
@[simp] theorem updTick_desk (s : State) (m : Fin 128) (n : Nat) : OnDesk jobs P (s.updTick m n) ↔ OnDesk jobs P s := by
  simp [State.updTick]
@[simp] theorem waitTick_desk (s : State) (y : Fin 4) (n : Nat) : OnDesk jobs P (s.waitTick y n) ↔ OnDesk jobs P s := by
  simp [State.waitTick]
@[simp] theorem yardTick_desk (s : State) (y : Fin 4) : OnDesk jobs P (s.yardTick y) ↔ OnDesk jobs P s := by simp [State.yardTick]

/-! #### Die -/

@[simp] theorem aonCollect_desk (s : State) : OnDesk jobs P (s.aonCollect) ↔ OnDesk jobs P s := by simp [State.aonCollect]
@[simp] theorem aonReadIf_desk (s : State) (answered : Bool) : OnDesk jobs P (s.aonReadIf answered) ↔ OnDesk jobs P s := by
  simp [State.aonReadIf]
@[simp] theorem aonRead_desk (s : State) : OnDesk jobs P (s.aonRead) ↔ OnDesk jobs P s := by simp [State.aonRead]
@[simp] theorem porterLog_desk (s : State) (event cause engine : Nat) :
    OnDesk jobs P (s.porterLog event cause engine) ↔ OnDesk jobs P s := by
  simp [State.porterLog]
@[simp] theorem tell_desk (s : State) (event data : Nat) : OnDesk jobs P (s.tell event data) ↔ OnDesk jobs P s := by simp [State.tell]
@[simp] theorem mainStart_desk (s : State) : OnDesk jobs P (s.mainStart) ↔ OnDesk jobs P s := by simp [State.mainStart]
@[simp] theorem railsRise_desk (s : State) : OnDesk jobs P (s.railsRise) ↔ OnDesk jobs P s := by simp [State.railsRise]
@[simp] theorem railsFall_desk (s : State) : OnDesk jobs P (s.railsFall) ↔ OnDesk jobs P s := by simp [State.railsFall]
@[simp] theorem railStep_desk (s : State) : OnDesk jobs P (s.railStep) ↔ OnDesk jobs P s := by
  unfold State.railStep
  split <;> simp
@[simp] theorem resetRecord_desk (s : State) (cause engine : Nat) : OnDesk jobs P (s.resetRecord cause engine) ↔ OnDesk jobs P s := by
  simp [State.resetRecord]
@[simp] theorem countReset_desk (s : State) : OnDesk jobs P (s.countReset) ↔ OnDesk jobs P s := by simp [State.countReset]
@[simp] theorem clearOos_desk (s : State) : OnDesk jobs P (s.clearOos) ↔ OnDesk jobs P s := by simp [State.clearOos]
@[simp] theorem clearFences_desk (s : State) : OnDesk jobs P (s.clearFences) ↔ OnDesk jobs P s := by simp [State.clearFences]
@[simp] theorem clearHistory_desk (s : State) : OnDesk jobs P (s.clearHistory) ↔ OnDesk jobs P s := by simp [State.clearHistory]
@[simp] theorem escCtrlWrite_desk (s : State) (v : BitVec 64) : OnDesk jobs P (s.escCtrlWrite v) ↔ OnDesk jobs P s := by
  simp [State.escCtrlWrite]

/-! #### CollTile -/

@[simp] theorem circReceipt_desk (s : State) (x : Circ) : OnDesk jobs P (s.circReceipt x) ↔ OnDesk jobs P s := by
  simp [State.circReceipt]
@[simp] theorem circTake_desk (s : State) (lt : Letter) (c : Fin 64) (refuse : Bool) :
    OnDesk jobs P (s.circTake lt c refuse) ↔ OnDesk jobs P s := by
  unfold State.circTake
  dsimp only
  (repeat' split) <;> simp
@[simp] theorem circAgain_desk (s : State) (x : Circ) (lt : Letter) : OnDesk jobs P (s.circAgain x lt) ↔ OnDesk jobs P s := by
  simp [State.circAgain]
@[simp] theorem circPast_desk (s : State) (lt : Letter) : OnDesk jobs P (s.circPast lt) ↔ OnDesk jobs P s := by simp [State.circPast]
@[simp] theorem circLate_desk (s : State) (x : Circ) (lt : Letter) : OnDesk jobs P (s.circLate x lt) ↔ OnDesk jobs P s := by
  have gave := circDeliver_desk (jobs := jobs) (P := P) s x.ctx lt true
  unfold State.circLate
  generalize s.circDeliver x.ctx lt true = p at gave ⊢
  obtain ⟨t, ok⟩ := p
  cases ok
  · exact gave
  · simp [↓gave]
@[simp] theorem circRefuse_desk (s : State) (lt : Letter) (placed : Bool) (y0 : Option Circ) :
    OnDesk jobs P (s.circRefuse lt placed y0) ↔ OnDesk jobs P s := by
  unfold State.circRefuse
  split <;> simp
@[simp] theorem circIn_desk (s : State) (lt : Letter) (c : Fin 64) : OnDesk jobs P (s.circIn lt c) ↔ OnDesk jobs P s := by
  unfold State.circIn
  dsimp only
  (repeat' split) <;> simp
@[simp] theorem latch_desk (s : State) (c : Fin 64) (step g source : Nat) :
    OnDesk jobs P (s.latch c step g source).1 ↔ OnDesk jobs P s := by
  simp [State.latch]
@[simp] theorem tileEntry_desk (s : State) (c : Fin 64) (step g : Nat) : OnDesk jobs P (s.tileEntry c step g).1 ↔ OnDesk jobs P s := by
  simp [State.tileEntry]
@[simp] theorem gatherStart_desk (s : State) (n : Fin 128) (seq : Nat) (c : Fin 64) (g : Fin 4) (key : TileKey) (f : Fmt) (va cols M N :
    Nat) : OnDesk jobs P (s.gatherStart n seq c g key f va cols M N).1 ↔ OnDesk jobs P s := by
  simp [State.gatherStart]

/-! #### Seal -/

@[simp] theorem advanceAttempt_desk (s : State) (c : Fin 64) : OnDesk jobs P (s.advanceAttempt c) ↔ OnDesk jobs P s := by
  simp [State.advanceAttempt]
@[simp] theorem setSeal_desk (s : State) (c : Fin 64) (x : SealRec) : OnDesk jobs P (s.setSeal c x) ↔ OnDesk jobs P s := by
  simp [State.setSeal]
@[simp] theorem sealSend_desk (s : State) (c : Fin 64) (resend : Bool) (a : Fin 4) (plus : Bool) (w m : Nat) :
    OnDesk jobs P (s.sealSend c resend a plus w m) ↔ OnDesk jobs P s := by
  simp [State.sealSend]
@[simp] theorem sealSendAll_desk (s : State) (c : Fin 64) (resend : Bool) :
    OnDesk jobs P (s.sealSendAll c resend) ↔ OnDesk jobs P s := by
  simp [State.sealSendAll]
@[simp] theorem shardGroups_desk (s : State) (c : Fin 64) (step : Nat) : OnDesk jobs P (s.shardGroups c step).1 ↔ OnDesk jobs P s := by
  simp [State.shardGroups]
@[simp] theorem partBytes_desk (s : State) (c : Fin 64) (p : MirrorPart) : OnDesk jobs P (s.partBytes c p).1 ↔ OnDesk jobs P s := by
  simp [State.partBytes]
@[simp] theorem mirrorPump_desk (s : State) (c : Fin 64) : OnDesk jobs P (s.mirrorPump c) ↔ OnDesk jobs P s := by
  unfold State.mirrorPump
  dsimp only
  (repeat' split) <;> simp
@[simp] theorem mirrorFail_desk (s : State) (c : Fin 64) (full : Bool) : OnDesk jobs P (s.mirrorFail c full) ↔ OnDesk jobs P s := by
  simp [State.mirrorFail]
theorem onDesk_someArm {s : State} {arm : Fin 4 → Bool → State} (keep : ∀ a plus, OnDesk jobs P (arm a plus) ↔ OnDesk jobs P s)
    (o : Option (Fin 4 × Bool)) : OnDesk jobs P (match o with | none => s | some (a, plus) => arm a plus) ↔ OnDesk jobs P s := by
  rcases o with - | ⟨a, plus⟩
  · rfl
  · exact keep a plus
@[simp] theorem mirrorStart_desk (s : State) (c : Fin 64) (n : Nat) : OnDesk jobs P (s.mirrorStart c n) ↔ OnDesk jobs P s := by
  have groups := shardGroups_desk (jobs := jobs) (P := P) s c n
  unfold State.mirrorStart
  generalize s.shardGroups c n = p at groups ⊢
  split
  · rfl
  refine onDesk_someArm (fun a plus => ?_) _
  extract_lets gib base slot
  -- The slot's size is made a variable for good: the kernel would count the product up to it.
  clear_value gib base slot
  revert gib base slot
  refine id fun gib base slot => ?_
  obtain ⟨t, gs⟩ := p
  dsimp only at groups ⊢
  split <;> simp [↓groups]
@[simp] theorem sealDo_desk (s : State) (c : Fin 64) : OnDesk jobs P (s.sealDo c) ↔ OnDesk jobs P s := by simp [State.sealDo]
@[simp] theorem mirrorTallyDo_desk (s : State) (c : Fin 64) : OnDesk jobs P (s.mirrorTallyDo c) ↔ OnDesk jobs P s := by
  simp [State.mirrorTallyDo]
@[simp] theorem sealEval_desk (s : State) (c : Fin 64) (resend : Bool) : OnDesk jobs P (s.sealEval c resend) ↔ OnDesk jobs P s := by
  simp [State.sealEval]
@[simp] theorem latchReady_desk (s : State) (c : Fin 64) : OnDesk jobs P (s.latchReady c) ↔ OnDesk jobs P s := by
  simp [State.latchReady]
@[simp] theorem readyIfNone_desk (s : State) (c : Fin 64) : OnDesk jobs P (s.readyIfNone c) ↔ OnDesk jobs P s := by
  simp [State.readyIfNone]
@[simp] theorem sealTake_desk (s : State) (c : Fin 64) (lt : Letter) : OnDesk jobs P (s.sealTake c lt) ↔ OnDesk jobs P s := by
  simp [State.sealTake]
@[simp] theorem sealIn_desk (s : State) (lt : Letter) : OnDesk jobs P (s.sealIn lt) ↔ OnDesk jobs P s := by simp [State.sealIn]
@[simp] theorem revert_desk (s : State) (c : Fin 64) (tr : BitVec 16) : OnDesk jobs P (s.revert c tr) ↔ OnDesk jobs P s := by
  simp [State.revert]
@[simp] theorem remirror_desk (s : State) (c : Fin 64) : OnDesk jobs P (s.remirror c) ↔ OnDesk jobs P s := by simp [State.remirror]
@[simp] theorem sealCmd_desk (s : State) (c : Fin 64) (v : BitVec 64) : OnDesk jobs P (s.sealCmd c v) ↔ OnDesk jobs P s := by
  simp [State.sealCmd]

/-! #### HostQueue -/

@[simp] theorem hostRecv_desk (s : State) (n : Nat) : OnDesk jobs P (s.hostRecv n) ↔ OnDesk jobs P s := by simp [State.hostRecv]
@[simp] theorem hostSent_desk (s : State) (n : Nat) : OnDesk jobs P (s.hostSent n) ↔ OnDesk jobs P s := by simp [State.hostSent]
@[simp] theorem hostWrite_desk (s : State) (a : Nat) (bs : List MByte) (relaxed : Bool) :
    OnDesk jobs P (s.hostWrite a bs relaxed) ↔ OnDesk jobs P s := by
  simp [State.hostWrite]
@[simp] theorem hostRead_desk (s : State) (a len : Nat) : OnDesk jobs P (s.hostRead a len) ↔ OnDesk jobs P s := by simp [State.hostRead]
@[simp] theorem hostData_desk (s : State) (bs : List MByte) : OnDesk jobs P (s.hostData bs) ↔ OnDesk jobs P s := by
  simp [State.hostData]
@[simp] theorem hostReply_desk (s : State) (bs : List MByte) : OnDesk jobs P (s.hostReply bs) ↔ OnDesk jobs P s := by
  simp [State.hostReply]
@[simp] theorem hostReg_desk (s : State) (f : State → State) (hf : ∀ t, OnDesk jobs P (f t) ↔ OnDesk jobs P t) :
    OnDesk jobs P (s.hostReg f) ↔ OnDesk jobs P s := by
  simp [State.hostReg, ↓hf]
@[simp] theorem fetchErr_desk (s : State) (q : Fin 256) : OnDesk jobs P (s.fetchErr q) ↔ OnDesk jobs P s := by simp [State.fetchErr]
@[simp] theorem qpEnable_desk (s : State) (q : Fin 256) (v : BitVec 64) : OnDesk jobs P (s.qpEnable q v) ↔ OnDesk jobs P s := by
  unfold State.qpEnable
  dsimp only
  split <;> simp [↓setFld_desk, ↓onDesk_mk]
@[simp] theorem qpClose_desk (s : State) (q : Fin 256) : OnDesk false P (s.qpClose q) ↔ OnDesk false P s := by simp [State.qpClose]
@[simp] theorem qpDisable_desk (s : State) (q : Fin 256) (v : BitVec 64) : OnDesk false P (s.qpDisable q v) ↔ OnDesk false P s := by
  simp [State.qpDisable]
@[simp] theorem qpCtrlWrite_desk (s : State) (q : Fin 256) (v : BitVec 64) : OnDesk false P (s.qpCtrlWrite q v) ↔ OnDesk false P s := by
  simp [State.qpCtrlWrite]
@[simp] theorem qpBaseWrite_desk (s : State) (q : Fin 256) {r : Reg} (away : deskReg r = false) (v : BitVec 64) :
    OnDesk jobs P (s.qpBaseWrite q r v) ↔ OnDesk jobs P s := by
  simp [State.qpBaseWrite, away]
@[simp] theorem sqTailWrite_desk (s : State) (q : Fin 256) (i : Nat) (ok : PcieOk) :
    OnDesk jobs P (s.sqTailWrite q i ok) ↔ OnDesk jobs P s := by
  simp [State.sqTailWrite]
@[simp] theorem cqHeadWrite_desk (s : State) (q : Fin 256) (i : Nat) : OnDesk jobs P (s.cqHeadWrite q i) ↔ OnDesk jobs P s := by
  simp [State.cqHeadWrite]
@[simp] theorem firstSample_desk (s : State) (c : Fin 64) : OnDesk jobs P (s.firstSample c) ↔ OnDesk jobs P s := by
  unfold State.firstSample
  split <;> simp [↓onDesk_mk]
@[simp] theorem dmaMove_desk (s : State) (d : DmaCopy) (n : Nat) : OnDesk jobs P (s.dmaMove d n).1 ↔ OnDesk jobs P s := by
  simp [State.dmaMove]
@[simp] theorem dmaSome_desk (s : State) (d : DmaCopy) : OnDesk false P (s.dmaSome d).1 ↔ OnDesk false P s := by simp [State.dmaSome]
@[simp] theorem dmaStart_desk (s : State) (id : Nat) (c : Consign) (data : List MByte) :
    OnDesk false P (s.dmaStart id c data) ↔ OnDesk false P s := by
  simp [State.dmaStart]
@[simp] theorem dmaDrop_desk (s : State) (id : Nat) : OnDesk false P (s.dmaDrop id) ↔ OnDesk false P s := by simp [State.dmaDrop]
@[simp] theorem dmaStop_desk (s : State) (id : Nat) : OnDesk false P (s.dmaStop id) ↔ OnDesk false P s := by
  unfold State.dmaStop
  split
  · simp
  · rfl
@[simp] theorem noteRetired_desk (s : State) : OnDesk false P (s.noteRetired) ↔ OnDesk false P s := by simp [State.noteRetired]
@[simp] theorem signal_desk (s : State) (q : Fin 256) : OnDesk jobs P (s.signal q) ↔ OnDesk jobs P s := by simp [State.signal]
@[simp] theorem coalesce_desk (s : State) (q : Fin 256) (irq : Bool) : OnDesk jobs P (s.coalesce q irq) ↔ OnDesk jobs P s := by
  simp [State.coalesce]
@[simp] theorem endColls_desk (s : State) (ns : List (Fin 128)) : OnDesk false P (s.endColls ns) ↔ OnDesk false P s :=
  onDesk_foldl (fun t o => by
    split
    · simp
    · rfl) _ _
@[simp] theorem abortConsign_desk (s : State) (id : Nat) (c : Consign) : OnDesk false P (s.abortConsign id c).1 ↔ OnDesk false P s := by
  unfold State.abortConsign
  split <;> simp
@[simp] theorem abortWrite_desk (s : State) (q : Fin 256) (v : BitVec 64) : OnDesk false P (s.abortWrite q v) ↔ OnDesk false P s := by
  unfold State.abortWrite
  dsimp only
  (repeat' split) <;> simp

/-! #### Update -/

@[simp] theorem gradTile_desk (s : State) (n : Fin 128) (d : BitVec 128) (f : Fmt) (M N : Nat) :
    OnDesk jobs P (s.gradTile n d f M N).1 ↔ OnDesk jobs P s := by
  simp [State.gradTile]
@[simp] theorem srCount_desk (s : State) (n : Fin 128) (cs : List Conv) : OnDesk jobs P (s.srCount n cs) ↔ OnDesk jobs P s := by
  simp [State.srCount]
@[simp] theorem tileRead_desk (s : State) (n : Fin 128) (c : Fin 64) (step g : Nat) (e : GroupEntry) (h : Shard) (I J : Nat) (desc :
    BitVec 128) (gfmt : Fmt) : OnDesk jobs P (s.tileRead n c step g e h I J desc gfmt).1 ↔ OnDesk jobs P s := by
  simp [State.tileRead]
@[simp] theorem tileCount_desk (s : State) (n : Fin 128) (nonfinite : Nat) (o : TileOut) :
    OnDesk jobs P (s.tileCount n nonfinite o) ↔ OnDesk jobs P s := by
  simp [State.tileCount]
@[simp] theorem storeAll_desk (s : State) (c : Fin 64) (source : Nat) (wss : List (List (Nat × MByte))) :
    OnDesk jobs P (s.storeAll c source wss) ↔ OnDesk jobs P s := by
  simp [State.storeAll]
@[simp] theorem updTile_desk (s : State) (n : Fin 128) (r : Flight) (c : Fin 64) (step g : Nat) (e : GroupEntry) (h : Shard) (I J : Nat)
    (desc : BitVec 128) (gfmt : Fmt) : OnDesk jobs P (s.updTile n r c step g e h I J desc gfmt).1 ↔ OnDesk jobs P s := by
  unfold State.updTile
  dsimp only
  (repeat' split) <;> simp
@[simp] theorem updStart_desk (s : State) (n : Fin 128) (r : Flight) (sa sb : BitVec 64) (desc : BitVec 128) (gfmt : Fmt) :
    OnDesk jobs P (s.updStart n r sa sb desc gfmt).1 ↔ OnDesk jobs P s := by
  unfold State.updStart
  dsimp only
  (repeat' split) <;> simp
@[simp] theorem tilesDone_desk (s : State) (c : Fin 64) (n : Fin 128) (h : Shard) (scratch : Nat) :
    OnDesk jobs P (s.tilesDone c n h scratch).1 ↔ OnDesk jobs P s := by
  simp [State.tilesDone]
@[simp] theorem foldRead_desk (s : State) (n : Fin 128) (c : Fin 64) (step g : Nat) (e : GroupEntry) (h : Shard) :
    OnDesk jobs P (s.foldRead n c step g e h).1 ↔ OnDesk jobs P s := by
  simp [State.foldRead]
@[simp] theorem foldGroup_desk (s : State) (n : Fin 128) (r : Flight) (c : Fin 64) (step g expected : Nat) (e : GroupEntry) (h : Shard)
    : OnDesk jobs P (s.foldGroup n r c step g expected e h).1 ↔ OnDesk jobs P s := by
  unfold State.foldGroup
  dsimp only
  split <;> simp
@[simp] theorem updfStart_desk (s : State) (n : Fin 128) (r : Flight) (sa : BitVec 64) :
    OnDesk jobs P (s.updfStart n r sa).1 ↔ OnDesk jobs P s := by
  unfold State.updfStart
  dsimp only
  (repeat' split) <;> simp
@[simp] theorem setFlight_desk (s : State) (n : Fin 128) (f : Flight) : OnDesk jobs P (s.setFlight n f) ↔ OnDesk jobs P s := by
  simp [State.setFlight]
@[simp] theorem updGoesOn_desk (s : State) (n : Fin 128) (f : Flight) : OnDesk jobs P (s.updGoesOn n f) ↔ OnDesk jobs P s := by
  simp [State.updGoesOn]
@[simp] theorem markTile_desk (s : State) (t : TileRec) : OnDesk jobs P (s.markTile t) ↔ OnDesk jobs P s := by simp [State.markTile]

/-! #### Watch -/

@[simp] theorem setWatch_desk (s : State) (t : Fin 16) (w : Watch) : OnDesk jobs P (s.setWatch t w) ↔ OnDesk jobs P s := by
  simp [State.setWatch]
@[simp] theorem watchBump_desk (s : State) (t : Fin 16) {r : Reg} (away : deskReg r = false) (n : Nat) :
    OnDesk jobs P (s.watchBump t r n) ↔ OnDesk jobs P s := by
  simp [State.watchBump, away]
@[simp] theorem watchCount_desk (s : State) (n : Fin 128) (i : MmaInfo) : OnDesk jobs P (s.watchCount n i) ↔ OnDesk jobs P s := by
  unfold State.watchCount
  dsimp only
  (repeat' split) <;> simp
@[simp] theorem watchSettle_desk (s : State) (n : Fin 128) (d : Option (Fin 2 × Fmt × OvMode × Option Kind)) :
    OnDesk jobs P (s.watchSettle n d) ↔ OnDesk jobs P s := by
  unfold State.watchSettle
  dsimp only
  (repeat' split) <;> simp
@[simp] theorem histAdd_desk (s : State) {r : Fin 32 → Reg} (away : ∀ i, deskReg (r i) = false) (base : Int) (vs : List FVal) :
    OnDesk jobs P (s.histAdd r base vs) ↔ OnDesk jobs P s :=
  onDesk_foldl (fun t i => by simp [away i]) _ _
@[simp] theorem watchOwn_desk (s : State) (t : Fin 16) (x : WatchSample) (own out : List (List (Nat × Nat))) :
    OnDesk jobs P (s.watchOwn t x own out) ↔ OnDesk jobs P s := by
  unfold State.watchOwn
  dsimp only
  split <;> simp
@[simp] theorem watchShadow_desk (s : State) (t : Fin 16) (x : WatchSample) (f : Fmt) (out : List (Nat × Nat)) (sh : List FVal) :
    OnDesk jobs P (s.watchShadow t x f out sh) ↔ OnDesk jobs P s := by
  simp [State.watchShadow]

/-! #### Loader -/

@[simp] theorem loadBytes_desk (s : State) (base off : Nat) (bs : List Byte) :
    OnDesk jobs P (s.loadBytes base off bs) ↔ OnDesk jobs P s := by
  simp [State.loadBytes]
@[simp] theorem writeSections_desk (s : State) (ts : List (Fin 16)) (h : ImgHeader) (b : List Byte) (xs : List Sect) :
    OnDesk jobs P (s.writeSections ts h b xs) ↔ OnDesk jobs P s := by
  simp [State.writeSections]
@[simp] theorem loadRecord_desk (s : State) (c : Fin 64) (st : Status) (f : LoadRefusal) :
    OnDesk jobs P (s.loadRecord c st f) ↔ OnDesk jobs P s := by
  simp [State.loadRecord]
@[simp] theorem startProgram_desk (s : State) (n : Fin 128) (c : Fin 64) (id rank count : Nat) (team : List (Fin 128)) (argBlock : Nat)
    (p : Program) : OnDesk jobs P (s.startProgram n c id rank count team argBlock p) ↔ OnDesk jobs P s := by
  simp [State.startProgram]
@[simp] theorem startImage_desk (s : State) (id : Nat) (x : Consign) (ts : List (Fin 16)) (im : ImageRec) :
    OnDesk false P (s.startImage id x ts im) ↔ OnDesk false P s := by
  simp [State.startImage]

/-! #### Contexts -/

@[simp] theorem attribPush_desk (s : State) (e : Nat) : OnDesk jobs P (s.attribPush e) ↔ OnDesk jobs P s := by simp [State.attribPush]
@[simp] theorem takeCapture_desk (s : State) (c : Fin 64) (cause engine : Nat) (mask : BitVec 64) :
    OnDesk jobs P (s.takeCapture c cause engine mask) ↔ OnDesk jobs P s := by
  simp [State.takeCapture]
@[simp] theorem discard_desk (s : State) (n : Fin 128) : OnDesk jobs P (s.discard n) ↔ OnDesk jobs P s := by simp [State.discard]
@[simp] theorem refuseCmd_desk (s : State) (c : Fin 64) (cause : Nat) : OnDesk jobs P (s.refuseCmd c cause) ↔ OnDesk jobs P s := by
  simp [State.refuseCmd]
@[simp] theorem resetEnd_desk (s : State) (c : Fin 64) (x : CtxReset) : OnDesk false P (s.resetEnd c x) ↔ OnDesk false P s := by
  simp [State.resetEnd]
@[simp] theorem ctxResume_desk (s : State) (c : Fin 64) : OnDesk jobs P (s.ctxResume c) ↔ OnDesk jobs P s := by
  unfold State.ctxResume
  dsimp only
  split <;> simp
@[simp] theorem forget_desk (s : State) (c : Fin 64) : OnDesk jobs P (s.forget c) ↔ OnDesk jobs P s := by simp [State.forget]
@[simp] theorem loadsStarted_desk (s : State) (c : Fin 64) (h : Hang) : OnDesk false P (s.loadsStarted c h) ↔ OnDesk false P s := by
  simp [State.loadsStarted]
@[simp] theorem reachLevel_desk (s : State) (c : Fin 64) (level : Nat) : OnDesk jobs P (s.reachLevel c level) ↔ OnDesk jobs P s := by
  simp [State.reachLevel]
@[simp] theorem engineReset_desk (s : State) (c : Fin 64) (e : Nat) : OnDesk false P (s.engineReset c e) ↔ OnDesk false P s := by
  unfold State.engineReset
  split <;> simp
@[simp] theorem xlatStart_desk (s : State) (c : Fin 64) : OnDesk jobs P (s.xlatStart c) ↔ OnDesk jobs P s := by
  unfold State.xlatStart
  simp [↓onDesk_mk]
@[simp] theorem xlatRootWrite_desk (s : State) (c : Fin 64) (v : BitVec 64) :
    OnDesk jobs P (s.xlatRootWrite c v) ↔ OnDesk jobs P s := by
  simp [State.xlatRootWrite]

/-! #### Stages -/

@[simp] theorem cmdResult_desk (s : State) (cmd res : Nat) : OnDesk jobs P (s.cmdResult cmd res) ↔ OnDesk jobs P s := by
  simp [State.cmdResult]
@[simp] theorem mainOn_desk (s : State) : OnDesk jobs P (s.mainOn) ↔ OnDesk jobs P s := by simp [State.mainOn]
@[simp] theorem enterStabled_desk (s : State) : OnDesk jobs P (s.enterStabled) ↔ OnDesk jobs P s := by
  unfold State.enterStabled
  simp [↓onDesk_mk]
@[simp] theorem advanceCmd_desk (s : State) : OnDesk jobs P (s.advanceCmd) ↔ OnDesk jobs P s := by simp [State.advanceCmd]
@[simp] theorem autoAdvance_desk (s : State) : OnDesk jobs P (s.autoAdvance) ↔ OnDesk jobs P s := by simp [State.autoAdvance]
@[simp] theorem startCtrlWrite_desk (s : State) (v : BitVec 64) : OnDesk jobs P (s.startCtrlWrite v) ↔ OnDesk jobs P s := by
  simp [State.startCtrlWrite]
@[simp] theorem handoverEnd_desk (s : State) (a : Fin 4) : OnDesk jobs P (s.handoverEnd a) ↔ OnDesk jobs P s := by
  unfold State.handoverEnd
  dsimp only
  split <;> simp [↓enterStabled_desk, ↓autoAdvance_desk, ↓onDesk_mk]
@[simp] theorem testUe_desk (s : State) (u : Nat) : OnDesk jobs P (s.testUe u) ↔ OnDesk jobs P s := by simp [State.testUe]
@[simp] theorem flushLetter_desk (s : State) (global : Bool) (lt : Letter) :
    OnDesk jobs P (s.flushLetter global lt) ↔ OnDesk jobs P s := by
  have counted (rs) (away : ∀ r ∈ rs, deskReg r = false) := (bumpAll_desk (jobs := jobs) (P := P) (s.taken lt) away).trans (taken_desk s lt)
  unfold State.flushLetter
  split
  · cases global
    · exact counted _ (by simp)
    · exact counted _ (lostCounters_away _)
  · rfl
@[simp] theorem enterHarnessed_desk (s : State) (quarantine : Bool) :
    OnDesk false P (s.enterHarnessed quarantine) ↔ OnDesk false P s := by
  simp [State.enterHarnessed]
@[simp] theorem harnessCmd_desk (s : State) (quarantine : Bool) : OnDesk false P (s.harnessCmd quarantine) ↔ OnDesk false P s := by
  simp [State.harnessCmd]

/-! #### Ports -/

@[simp] theorem setPort_desk (s : State) (p : Fin 8) (x : Port) : OnDesk jobs P (s.setPort p x) ↔ OnDesk jobs P s := by
  simp [State.setPort]
@[simp] theorem setPortState_desk (s : State) (p : Fin 8) (x : Nat) : OnDesk jobs P (s.setPortState p x) ↔ OnDesk jobs P s := by
  simp [State.setPortState]
@[simp] theorem portEvent_desk (s : State) (p : Fin 8) (f : Fld) : OnDesk jobs P (s.portEvent p f) ↔ OnDesk jobs P s := by
  simp [State.portEvent]
@[simp] theorem copyOutcome_desk (s : State) (p : Fin 8) (o cause : Nat) :
    OnDesk jobs P (s.copyOutcome p o cause) ↔ OnDesk jobs P s := by
  simp [State.copyOutcome]
@[simp] theorem setOutcome_desk (s : State) (p : Fin 8) (o cause : Nat) : OnDesk jobs P (s.setOutcome p o cause) ↔ OnDesk jobs P s := by
  simp [State.setOutcome]
@[simp] theorem portAbsent_desk (s : State) (p : Fin 8) : OnDesk jobs P (s.portAbsent p) ↔ OnDesk jobs P s := by simp [State.portAbsent]
@[simp] theorem dropOut_desk (s : State) (o : OutLetter) : OnDesk jobs P (s.dropOut o) ↔ OnDesk jobs P s := by simp [State.dropOut]
@[simp] theorem purgeOut_desk (s : State) (p : Fin 8) : OnDesk jobs P (s.purgeOut p) ↔ OnDesk jobs P s := by simp [State.purgeOut]
@[simp] theorem linkClear_desk (s : State) (p : Fin 8) : OnDesk jobs P (s.linkClear p) ↔ OnDesk jobs P s := by
  unfold State.linkClear
  dsimp only
  split <;> simp [↓onDesk_mk]
@[simp] theorem portLeave_desk (s : State) (p : Fin 8) (next : Nat) (t : Training) :
    OnDesk jobs P (s.portLeave p next t) ↔ OnDesk jobs P s := by
  simp [State.portLeave]
@[simp] theorem linkCmd_desk (s : State) (p : Fin 8) (cmd : Nat) (strands : BitVec 4) (at' : BitVec 8) :
    OnDesk jobs P (s.linkCmd p cmd strands at') ↔ OnDesk jobs P s := by
  simp [State.linkCmd]
@[simp] theorem portDown_desk (s : State) (p : Fin 8) : OnDesk jobs P (s.portDown p) ↔ OnDesk jobs P s := by simp [State.portDown]
@[simp] theorem portDownSend_desk (s : State) (p : Fin 8) : OnDesk jobs P (s.portDownSend p) ↔ OnDesk jobs P s := by
  simp [State.portDownSend]
@[simp] theorem setTraining_desk (s : State) (p : Fin 8) (t : Training) : OnDesk jobs P (s.setTraining p t) ↔ OnDesk jobs P s := by
  simp [State.setTraining]
@[simp] theorem trainFail_desk (s : State) (p : Fin 8) : OnDesk jobs P (s.trainFail p) ↔ OnDesk jobs P s := by simp [State.trainFail]
@[simp] theorem noStrand_desk (s : State) (p : Fin 8) (half : Bool) : OnDesk jobs P (s.noStrand p half) ↔ OnDesk jobs P s := by
  simp [State.noStrand]
@[simp] theorem laneMapped_desk (s : State) (p : Fin 8) (st : BitVec 4) (m : LaneMap) :
    OnDesk jobs P (s.laneMapped p st m) ↔ OnDesk jobs P s := by
  simp [State.laneMapped]
@[simp] theorem lanesLock_desk (s : State) (p : Fin 8) (st : BitVec 4) : OnDesk jobs P (s.lanesLock p st) ↔ OnDesk jobs P s := by
  simp [State.lanesLock]
@[simp] theorem lanesUp_desk (s : State) (p : Fin 8) (st : BitVec 4) (m : LaneMap) :
    OnDesk jobs P (s.lanesUp p st m) ↔ OnDesk jobs P s := by
  simp [State.lanesUp]
@[simp] theorem turned_desk (s : State) (p : Fin 8) (q : BitVec 8) : OnDesk jobs P (s.turned p q) ↔ OnDesk jobs P s := by
  simp [State.turned]
@[simp] theorem restoreTrained_desk (s : State) (p : Fin 8) (st : BitVec 4) (m : LaneMap) :
    OnDesk jobs P (s.restoreTrained p st m) ↔ OnDesk jobs P s := by
  simp [State.restoreTrained]
@[simp] theorem portStart_desk (s : State) (p : Fin 8) : OnDesk jobs P (s.portStart p) ↔ OnDesk jobs P s := by simp [State.portStart]
@[simp] theorem disableWrite_desk (s : State) (p : Fin 8) (on : Bool) : OnDesk jobs P (s.disableWrite p on) ↔ OnDesk jobs P s := by
  simp [State.disableWrite]
@[simp] theorem retrain_desk (s : State) (p : Fin 8) : OnDesk jobs P (s.retrain p) ↔ OnDesk jobs P s := by simp [State.retrain]
@[simp] theorem laneFail_desk (s : State) (p : Fin 8) (l : Fin 48) (since : Option (BitVec 8)) :
    OnDesk jobs P (s.laneFail p l since) ↔ OnDesk jobs P s := by
  simp [State.laneFail]
@[simp] theorem dropIn_desk (s : State) (p : Fin 8) (strands : BitVec 4) (at' : BitVec 8) :
    OnDesk jobs P (s.dropIn p strands at') ↔ OnDesk jobs P s := by
  simp [State.dropIn]
@[simp] theorem dropAckIn_desk (s : State) (p : Fin 8) (strands : BitVec 4) (at' : BitVec 8) :
    OnDesk jobs P (s.dropAckIn p strands at') ↔ OnDesk jobs P s := by
  unfold State.dropAckIn
  dsimp only
  split <;> simp
@[simp] theorem restoreWrite_desk (s : State) (p : Fin 8) (m : BitVec 4) : OnDesk jobs P (s.restoreWrite p m) ↔ OnDesk jobs P s := by
  simp [State.restoreWrite]
@[simp] theorem addStrands_desk (s : State) (p : Fin 8) (m : BitVec 4) : OnDesk jobs P (s.addStrands p m) ↔ OnDesk jobs P s := by
  simp [State.addStrands]
@[simp] theorem addAgreed_desk (s : State) (p : Fin 8) (m : BitVec 4) (at' : BitVec 8) :
    OnDesk jobs P (s.addAgreed p m at') ↔ OnDesk jobs P s := by
  simp [State.addAgreed]
@[simp] theorem addDue_desk (s : State) (p : Fin 8) : OnDesk jobs P (s.addDue p) ↔ OnDesk jobs P s := by simp [State.addDue]
@[simp] theorem restoreIn_desk (s : State) (p : Fin 8) (m : BitVec 4) (at' : BitVec 8) :
    OnDesk jobs P (s.restoreIn p m at') ↔ OnDesk jobs P s := by
  simp [State.restoreIn]
@[simp] theorem restoreAckIn_desk (s : State) (p : Fin 8) (m : BitVec 4) (at' : BitVec 8) :
    OnDesk jobs P (s.restoreAckIn p m at') ↔ OnDesk jobs P s := by
  simp [State.restoreAckIn]
@[simp] theorem linkCmdIn_desk (s : State) (p : Fin 8) (c : Nat) : OnDesk jobs P (s.linkCmdIn p c) ↔ OnDesk jobs P s := by
  unfold State.linkCmdIn
  split <;> simp
@[simp] theorem portTick_desk (s : State) (p : Fin 8) : OnDesk jobs P (s.portTick p) ↔ OnDesk jobs P s := by simp [State.portTick]

/-! #### Frames -/

@[simp] theorem setTx_desk (s : State) (p : Fin 8) (vc : Fin 16) (t : TxVc) : OnDesk jobs P (s.setTx p vc t) ↔ OnDesk jobs P s := by
  simp [State.setTx]
@[simp] theorem creditError_desk (s : State) (p : Fin 8) : OnDesk jobs P (s.creditError p) ↔ OnDesk jobs P s := by
  simp [State.creditError]
@[simp] theorem creditWord_desk (s : State) (p : Fin 8) (ctl : Nat) : OnDesk jobs P (s.creditWord p ctl) ↔ OnDesk jobs P s := by
  simp [State.creditWord]
@[simp] theorem deliverFrames_desk (s : State) (p : Fin 8) (fseq : BitVec 8) :
    OnDesk jobs P (s.deliverFrames p fseq) ↔ OnDesk jobs P s := by
  simp [State.deliverFrames]
@[simp] theorem deliverAll_desk (s : State) (p : Fin 8) : OnDesk jobs P (s.deliverAll p) ↔ OnDesk jobs P s := by simp [State.deliverAll]
@[simp] theorem countFec_desk (s : State) (p : Fin 8) (l : Fin 48) (corr unc : Nat) :
    OnDesk jobs P (s.countFec p l corr unc) ↔ OnDesk jobs P s := by
  simp [State.countFec]
@[simp] theorem markSeen_desk (s : State) (p : Fin 8) (l : Fin 48) (q : BitVec 8) (found : Bool) :
    OnDesk jobs P (s.markSeen p l q found) ↔ OnDesk jobs P s := by
  simp [State.markSeen]

/-! #### Letters -/

@[simp] theorem stampIn_desk (s : State) (p : Fin 8) (lt : Letter) (began : Nat) :
    OnDesk jobs P (s.stampIn p lt began) ↔ OnDesk jobs P s := by
  simp [State.stampIn]
@[simp] theorem letterIn_desk (s : State) (p : Fin 8) (lt : Letter) : OnDesk jobs P (s.letterIn p lt) ↔ OnDesk jobs P s := by
  simp [State.letterIn]
@[simp] theorem headIn_desk (s : State) (p : Fin 8) : OnDesk jobs P (s.headIn p) ↔ OnDesk jobs P s := by
  unfold State.headIn
  dsimp only
  split <;> simp
@[simp] theorem stampOut_desk (s : State) (p : Fin 8) (lt : Letter) : OnDesk jobs P (s.stampOut p lt).1 ↔ OnDesk jobs P s := by
  unfold State.stampOut
  (repeat' split) <;> simp
@[simp] theorem timerStarts_desk (s : State) (q : OutLetter) : OnDesk jobs P (s.timerStarts q) ↔ OnDesk jobs P s := by
  simp [State.timerStarts]
@[simp] theorem startOut_desk (s : State) (p : Fin 8) (bad : Option (Option Nat)) :
    OnDesk jobs P (s.startOut p bad) ↔ OnDesk jobs P s := by
  unfold State.startOut
  dsimp only
  (repeat' split) <;> simp
@[simp] theorem takenAt_desk (s : State) (p : Fin 8) (lt : Letter) : OnDesk jobs P (s.takenAt p lt) ↔ OnDesk jobs P s := by
  simp [State.takenAt]
@[simp] theorem deadInbox_desk (s : State) : OnDesk jobs P (s.deadInbox) ↔ OnDesk jobs P s := by
  unfold State.deadInbox
  split <;> simp
@[simp] theorem deadAt_desk (s : State) (k : Nat) : OnDesk jobs P (s.deadAt k) ↔ OnDesk jobs P s := by
  unfold State.deadAt
  dsimp only
  split <;> simp
@[simp] theorem startLocal_desk (s : State) (y0 : Option (Option Nat)) : OnDesk jobs P (s.startLocal y0) ↔ OnDesk jobs P s := by
  unfold State.startLocal
  split <;> simp
@[simp] theorem portSend_desk (s : State) (p : Fin 8) (cls : LClass) (op : BitVec 6) (body : List Byte) :
    OnDesk jobs P (s.portSend p cls op body) ↔ OnDesk jobs P s := by
  simp [State.portSend]

/-! #### Discovery -/

@[simp] theorem handoverCheck_desk (s : State) (p : Fin 8) : OnDesk jobs P (s.handoverCheck p) ↔ OnDesk jobs P s := by
  unfold State.handoverCheck
  split <;> simp
@[simp] theorem evaluate_desk (s : State) (p : Fin 8) (b : List Byte) : OnDesk jobs P (s.evaluate p b) ↔ OnDesk jobs P s := by
  simp [State.evaluate]
@[simp] theorem tryEvaluate_desk (s : State) (p : Fin 8) : OnDesk jobs P (s.tryEvaluate p) ↔ OnDesk jobs P s := by
  unfold State.tryEvaluate
  dsimp only
  split <;> simp
@[simp] theorem planPeerWrite_desk (s : State) (p : Fin 8) (v : BitVec 64) : OnDesk jobs P (s.planPeerWrite p v) ↔ OnDesk jobs P s := by
  unfold State.planPeerWrite
  dsimp only
  split <;> simp
@[simp] theorem planChipWrite_desk (s : State) (v : BitVec 64) : OnDesk jobs P (s.planChipWrite v) ↔ OnDesk jobs P s := by
  simp [State.planChipWrite]

/-! #### Bypass -/

@[simp] theorem holdDrop_desk (s : State) (a : Fin 4) : OnDesk jobs P (s.holdDrop a) ↔ OnDesk jobs P s := by simp [State.holdDrop]
@[simp] theorem portTrain_desk (s : State) (p : Fin 8) : OnDesk jobs P (s.portTrain p) ↔ OnDesk jobs P s := by simp [State.portTrain]
@[simp] theorem grantCmd_desk (s : State) (a : Fin 4) : OnDesk jobs P (s.grantCmd a) ↔ OnDesk jobs P s := by simp [State.grantCmd]
@[simp] theorem handoverFail_desk (s : State) (a : Fin 4) : OnDesk jobs P (s.handoverFail a) ↔ OnDesk jobs P s := by
  simp [State.handoverFail]
@[simp] theorem loopPorts_desk (s : State) (a : Fin 4) : OnDesk jobs P (s.loopPorts a) ↔ OnDesk jobs P s := by simp [State.loopPorts]
@[simp] theorem engaged_desk (s : State) (a : Fin 4) : OnDesk jobs P (s.engaged a) ↔ OnDesk jobs P s := by simp [State.engaged]
@[simp] theorem elementReached_desk (s : State) (a : Fin 4) : OnDesk jobs P (s.elementReached a) ↔ OnDesk jobs P s := by
  simp [State.elementReached]
@[simp] theorem openPorts_desk (s : State) (a : Fin 4) : OnDesk jobs P (s.openPorts a) ↔ OnDesk jobs P s := by simp [State.openPorts]
@[simp] theorem elementAstray_desk (s : State) (a : Fin 4) : OnDesk jobs P (s.elementAstray a) ↔ OnDesk jobs P s := by
  simp [State.elementAstray]
@[simp] theorem letGo_desk (s : State) (a : Fin 4) : OnDesk jobs P (s.letGo a) ↔ OnDesk jobs P s := by simp [State.letGo]
@[simp] theorem forceWrite_desk (s : State) (a : Fin 4) (on : Bool) : OnDesk jobs P (s.forceWrite a on) ↔ OnDesk jobs P s := by
  simp [State.forceWrite]

/-! #### Delivery -/

@[simp] theorem circForget_desk (s : State) (gone : Circ → Bool) : OnDesk false P (s.circForget gone) ↔ OnDesk false P s := by
  simp [State.circForget]
@[simp] theorem clearIn_desk (s : State) (lt : Letter) : OnDesk false P (s.clearIn lt) ↔ OnDesk false P s := by
  unfold State.clearIn
  split
  · simp
  split
  · exact bumpAll_desk s (lostCounters_away _)
  · dsimp only
    split <;> simp
@[simp] theorem bulkPlace_desk (s : State) (lt : Letter) (c : Fin 64) : OnDesk jobs P (s.bulkPlace lt c).1 ↔ OnDesk jobs P s := by
  simp [State.bulkPlace]
@[simp] theorem collIn_desk (s : State) (lt : Letter) : OnDesk false P (s.collIn lt) ↔ OnDesk false P s := by
  unfold State.collIn
  split
  · simp
  · exact postIn_desk s lt (lostCounters_away _) _ _ fun t c => collArrive_desk ..
@[simp] theorem settle_desk (s : State) (o : Outstanding) : OnDesk jobs P (s.settle o) ↔ OnDesk jobs P s := by simp [State.settle]
@[simp] theorem grpFenced_desk (s : State) (c : Fin 64) (g : Fin 4) (who : Nat) :
    OnDesk false P (s.grpFenced c g who) ↔ OnDesk false P s := by
  simp [State.grpFenced]
@[simp] theorem letterFailed_desk (s : State) (o : Outstanding) (st : Status) :
    OnDesk false P (s.letterFailed o st) ↔ OnDesk false P s := by
  unfold State.letterFailed
  dsimp only
  (repeat' split) <;> simp
@[simp] theorem circChild_desk (s : State) (o : Outstanding) (lt : Letter) : OnDesk jobs P (s.circChild o lt) ↔ OnDesk jobs P s := by
  unfold State.circChild
  split <;> simp
@[simp] theorem letterDone_desk (s : State) (o : Outstanding) : OnDesk jobs P (s.letterDone o) ↔ OnDesk jobs P s := by
  unfold State.letterDone
  (repeat' split) <;> simp
@[simp] theorem cleared_desk (s : State) (k : StreamKey) : OnDesk false P (s.cleared k) ↔ OnDesk false P s := by simp [State.cleared]
@[simp] theorem axisPlanWrite_desk (s : State) (c : Fin 64) (v : BitVec 64) :
    OnDesk jobs P (s.axisPlanWrite c v) ↔ OnDesk jobs P s := by
  simp [State.axisPlanWrite]

/-! #### Frank -/

@[simp] theorem frankTick_desk (s : State) : OnDesk jobs P (s.frankTick) ↔ OnDesk jobs P s := by simp [State.frankTick]
@[simp] theorem badExchange_desk (s : State) (p : Fin 8) : OnDesk jobs P (s.badExchange p) ↔ OnDesk jobs P s := by
  simp [State.badExchange]
@[simp] theorem frankStep_desk (s : State) (p : Fin 8) (ahead : Int) : OnDesk jobs P (s.frankStep p ahead) ↔ OnDesk jobs P s := by
  simp [State.frankStep]
@[simp] theorem frankLock_desk (s : State) (vs used : List (Fin 8 × FrValid)) :
    OnDesk jobs P (s.frankLock vs used) ↔ OnDesk jobs P s := by
  simp [State.frankLock]
@[simp] theorem steerInterval_desk (s : State) : OnDesk jobs P (s.steerInterval) ↔ OnDesk jobs P s := by
  unfold State.steerInterval
  dsimp only
  split <;> simp [↓onDesk_ite, ↓setFld_desk, ↓frankStep_desk, ↓frankLock_desk, ↓onDesk_mk]

/-! #### Porter -/

@[simp] theorem powerStep_desk (s : State) (p e : Nat) : OnDesk jobs P (s.powerStep p e) ↔ OnDesk jobs P s := by simp [State.powerStep]
@[simp] theorem showPower_desk (s : State) (m : PowerSample) : OnDesk jobs P (s.showPower m) ↔ OnDesk jobs P s := by
  simp [State.showPower]
@[simp] theorem thermalStep_desk (s : State) (tc : Vector Nat 4) : OnDesk jobs P (s.thermalStep tc) ↔ OnDesk jobs P s := by
  simp [State.thermalStep]
@[simp] theorem aonClear_desk (s : State) : OnDesk jobs P s.aonClear ↔ OnDesk jobs P s :=
  onDesk_of_eq (desk_congr (fun r hr => (AMap.get_filter (fun q : Reg => match q with | .ptrAon i => (i = 400 || i = 405 : Bool) | _ => true)
    r.reset r s.regs).trans (by cases r <;> first | rfl | cases hr)) rfl rfl rfl)
@[simp] theorem retiredDataWrite_desk (s : State) (v : BitVec 64) : OnDesk jobs P (s.retiredDataWrite v) ↔ OnDesk jobs P s := by
  simp [State.retiredDataWrite]
@[simp] theorem retiredIdxWrite_desk (s : State) (v : BitVec 64) : OnDesk jobs P (s.retiredIdxWrite v) ↔ OnDesk jobs P s := by
  simp [State.retiredIdxWrite]

/-! #### Hbm -/

@[simp] theorem scrubBegin_desk (s : State) (m : Option (Fin 8)) : OnDesk jobs P (s.scrubBegin m) ↔ OnDesk jobs P s := by
  unfold State.scrubBegin
  split
  · rfl
  · cases m <;> simp [↓onDesk_mk, scrubReg]
@[simp] theorem reportPages_desk (s : State) (us : List Nat) : OnDesk jobs P (s.reportPages us) ↔ OnDesk jobs P s :=
  onDesk_foldl (fun t pg => by split <;> simp) _ _

/-! #### Retire -/

@[simp] theorem endFree_desk (s : State) (n : Fin 128) (f : Flight) : OnDesk jobs P (s.endFree n f).1 ↔ OnDesk jobs P s := by
  simp [State.endFree]
@[simp] theorem countRetired_desk (s : State) (n : Fin 128) (f : Flight) : OnDesk false P (s.countRetired n f) ↔ OnDesk false P s := by
  unfold State.countRetired
  (repeat' split) <;> simp
@[simp] theorem retireFlight_desk (s : State) (n : Fin 128) (f : Flight) : OnDesk false P (s.retireFlight n f) ↔ OnDesk false P s := by
  simp [State.retireFlight]
@[simp] theorem mmFault_desk (s : State) (n : Fin 128) (st : Status) (m : MmFault) :
    OnDesk jobs P (s.mmFault n st m) ↔ OnDesk jobs P s := by
  simp [State.mmFault]
@[simp] theorem faultFlight_desk (s : State) (n : Fin 128) (f : Flight) : OnDesk false P (s.faultFlight n f) ↔ OnDesk false P s := by
  unfold State.faultFlight
  dsimp only
  (repeat' split) <;> simp

/-! #### Traces -/

@[simp] theorem traceEnable_desk (s : State) : OnDesk jobs P (s.traceEnable) ↔ OnDesk jobs P s := by
  unfold State.traceEnable
  split <;> simp [↓onDesk_mk]
@[simp] theorem traceArm_desk (s : State) : OnDesk jobs P (s.traceArm) ↔ OnDesk jobs P s := by simp [State.traceArm]
@[simp] theorem trigNow_desk (s : State) : OnDesk jobs P (s.trigNow) ↔ OnDesk jobs P s := by simp [State.trigNow]
@[simp] theorem traceCtrlWrite_desk (s : State) (v : BitVec 64) : OnDesk jobs P (s.traceCtrlWrite v) ↔ OnDesk jobs P s := by
  simp [State.traceCtrlWrite]
@[simp] theorem traceMark_desk (s : State) (x : BitVec 32) : OnDesk jobs P (s.traceMark x) ↔ OnDesk jobs P s := by
  simp [State.traceMark]

/-! #### Writes -/

@[simp] theorem rtCtrlWrite_desk (s : State) (v : BitVec 64) : OnDesk jobs P (s.rtCtrlWrite v) ↔ OnDesk jobs P s := by
  simp [State.rtCtrlWrite]
@[simp] theorem rtAxisWrite_desk (s : State) (ver : Fin 2) (a : Fin 4) (v : BitVec 64) :
    OnDesk jobs P (s.rtAxisWrite ver a v) ↔ OnDesk jobs P s := by
  simp [State.rtAxisWrite]
@[simp] theorem bypassWrite_desk (s : State) (v : BitVec 64) : OnDesk jobs P (s.bypassWrite v) ↔ OnDesk jobs P s := by
  simp [State.bypassWrite]
@[simp] theorem portCtrlWrite_desk (s : State) (p : Fin 8) (v : BitVec 64) : OnDesk jobs P (s.portCtrlWrite p v) ↔ OnDesk jobs P s := by
  simp [State.portCtrlWrite]
@[simp] theorem scrubWrite_desk (s : State) (m : Option (Fin 8)) (v : BitVec 64) :
    OnDesk jobs P (s.scrubWrite m v) ↔ OnDesk jobs P s := by
  cases m <;> simp [State.scrubWrite, scrubReg]
@[simp] theorem yardCtrlWrite_desk (s : State) (y : Fin 4) (v : BitVec 64) : OnDesk jobs P (s.yardCtrlWrite y v) ↔ OnDesk jobs P s := by
  simp [State.yardCtrlWrite]
@[simp] theorem sampledWrite_desk (s : State) (c : Fin 64) {r : Reg} (away : deskReg r = false) (v : BitVec 64) :
    OnDesk jobs P (s.sampledWrite c r v) ↔ OnDesk jobs P s := by
  simp [State.sampledWrite, away]
@[simp] theorem mirrorWrite_desk (s : State) (c : Fin 64) (v : BitVec 64) : OnDesk jobs P (s.mirrorWrite c v) ↔ OnDesk jobs P s := by
  simp [State.mirrorWrite]
@[simp] theorem readAt_desk (s : State) (a : Nat) : OnDesk jobs P (s.readAt a).1 ↔ OnDesk jobs P s := by
  unfold State.readAt
  split <;> simp
@[simp] theorem msixWrite_desk (s : State) (v : Fin 260) (addr size : Nat) (x : BitVec 64) :
    OnDesk jobs P (s.msixWrite v addr size x) ↔ OnDesk jobs P s := by
  simp [State.msixWrite]
@[simp] theorem configWrite_desk (s : State) (a : Nat) (v : BitVec 64) : OnDesk jobs P (s.configWrite a v) ↔ OnDesk jobs P s := by
  simp [State.configWrite]
@[simp] theorem barErr_desk (s : State) : OnDesk jobs P (s.barErr) ↔ OnDesk jobs P s := by simp [State.barErr]
@[simp] theorem mgmtRead_desk (s : State) (addr size : Nat) : OnDesk jobs P (s.mgmtRead addr size).1 ↔ OnDesk jobs P s := by
  unfold State.mgmtRead
  dsimp only
  split <;> simp
@[simp] theorem porterReply_desk (s : State) (bs : List MByte) : OnDesk jobs P (s.porterReply bs) ↔ OnDesk jobs P s := by
  simp [State.porterReply]
@[simp] theorem mgmtAsk_desk (s : State) (dest : BitVec 14) (write : Bool) (addr : Nat) (v : BitVec 64) :
    OnDesk jobs P (s.mgmtAsk dest write addr v) ↔ OnDesk jobs P s := by
  simp [State.mgmtAsk]

/-! #### Idle -/

@[simp] theorem traceTick_desk (s : State) : OnDesk jobs P (s.traceTick) ↔ OnDesk jobs P s := by simp [State.traceTick]
@[simp] theorem postTick_desk (s : State) : OnDesk jobs P (s.postTick) ↔ OnDesk jobs P s := by simp [State.postTick]
@[simp] theorem tick_desk (s : State) : OnDesk jobs P (s.tick) ↔ OnDesk jobs P s := by simp [State.tick]

end Machine.State

end Sys2Proof
end

section
/-!
PROOFS of the family 05_instruction_set: the commands that leave the desk as it is, in the order of the model's files.
-/
namespace Sys2Proof

open Machine

variable {P : Desk → Prop}

/-- Where a command ends, `P` of what stands on the desk. -/
def LeavesDesk (P : Desk → Prop) (o : Machine.Out) : Prop := ∀ t, o = .next t → OnDesk false P t

@[simp] theorem leavesDesk_next {t : State} : LeavesDesk P (.next t) ↔ OnDesk false P t := ⟨fun h => h t rfl, fun h _ e => by cases e; exact h⟩
@[simp] theorem leavesDesk_fault (f : Fault) : LeavesDesk P (.fault f) := fun _ e => by cases e
@[simp] theorem leavesDesk_refused (f : Refusal) : LeavesDesk P (.refused f) := fun _ e => by cases e
@[simp] theorem leavesDesk_ite {c : Prop} [Decidable c] {o p : Machine.Out} :
    LeavesDesk P (if c then o else p) ↔ if c then LeavesDesk P o else LeavesDesk P p := by
  split <;> rfl

namespace Machine.State

/-! #### Ops -/

@[simp] theorem sequencer_desk (s : State) (h : Hdr) (u : Uses) (f : State → State) (hf : ∀ t, OnDesk false (asOf false s) (f t) ↔
    OnDesk false (asOf false s) t) : LeavesDesk (asOf false s) (s.sequencer h u f) := by
  simp [State.sequencer, ↓hf]
@[simp] theorem seqRegs_desk (s : State) (h : Hdr) (f : Stall → Stall) : LeavesDesk (asOf false s) (s.seqRegs h f) := by
  simp [State.seqRegs]
theorem acting_of {α : Type} {s : State} (h : OnDesk jobs P s) (x : Actor) (u : Uses) {f : State → State × α}
    (hf : ∀ t, OnDesk jobs P t → OnDesk jobs P (f t).1) : OnDesk jobs P (s.acting x u f).1 := by
  unfold State.acting
  split
  · exact hf s h
  · simp [↓hf _ ((onDesk_mk ..).2 h)]

theorem issueWith_of {s : State} (h0 : OnDesk false P s) (h : Hdr) (unit : StallUnit) (co : Nat × Nat) (u : Uses) (go : Bool)
    {f : State → Flight → State × Flight} (hf : ∀ t r, OnDesk false P t → OnDesk false P (f t r).1) :
    LeavesDesk P (s.issueWith h unit co u go f) := by
  have issued := (issued_desk s h.stall (unitCode unit)).2 h0
  unfold State.issueWith
  cases go
  · simp [↓issued, ↓h0]
  · simp [↓acting_of issued _ _ (hf · _), ↓h0]

@[simp] theorem issueWith_desk (s : State) (h : Hdr) (unit : StallUnit) (co : Nat × Nat) (u : Uses) (go : Bool)
    {f : State → Flight → State × Flight} (hf : ∀ t r, OnDesk false (asOf false s) (f t r).1 ↔ OnDesk false (asOf false s) t) :
    LeavesDesk (asOf false s) (s.issueWith h unit co u go f) :=
  issueWith_of onDesk_self h unit co u go fun t r => (hf t r).2
theorem issue_of {s : State} (h0 : OnDesk false P s) (h : Hdr) (unit : StallUnit) (co : Nat × Nat) (u : Uses)
    {f : State → Flight → State × Flight} (hf : ∀ t r, OnDesk false P t → OnDesk false P (f t r).1) :
    LeavesDesk P (s.issue h unit co u f) :=
  issueWith_of h0 h unit co u _ hf

@[simp] theorem issue_desk (s : State) (h : Hdr) (unit : StallUnit) (co : Nat × Nat) (u : Uses)
    {f : State → Flight → State × Flight} (hf : ∀ t r, OnDesk false (asOf false s) (f t r).1 ↔ OnDesk false (asOf false s) t) :
    LeavesDesk (asOf false s) (s.issue h unit co u f) :=
  issueWith_desk s h unit co u _ hf

/-! #### Scalar -/

@[simp] theorem execNop_desk (h : Hdr) (s : State) : LeavesDesk (asOf false s) (execNop h s) := by simp [execNop]
@[simp] theorem execBr_desk (h : Hdr) (off : BitVec 32) (s : State) : LeavesDesk (asOf false s) (execBr h off s) := by simp [execBr]
@[simp] theorem execLoop_desk (h : Hdr) (sa : SReg) (off : BitVec 32) (s : State) :
    LeavesDesk (asOf false s) (execLoop h sa off s) := by
  simp [execLoop]
@[simp] theorem execHalt_desk (h : Hdr) (s : State) : LeavesDesk (asOf false s) (execHalt h s) := by simp [execHalt]
@[simp] theorem salu_desk (s : State) (h : Hdr) (sd sa sb : SReg) (op : BitVec 64 → BitVec 64 → BitVec 64) :
    LeavesDesk (asOf false s) (s.salu h sd sa sb op) := by
  simp [State.salu]
@[simp] theorem scmp_desk (s : State) (h : Hdr) (pd : PReg) (sa sb : SReg) (op : BitVec 64 → BitVec 64 → Bool) :
    LeavesDesk (asOf false s) (s.scmp h pd sa sb op) := by
  simp [State.scmp]
@[simp] theorem plogic_desk (s : State) (h : Hdr) (pd pa pb : PReg) (op : BitVec 256 → BitVec 256 → BitVec 256) :
    LeavesDesk (asOf false s) (s.plogic h pd pa pb op) := by
  simp [State.plogic]
@[simp] theorem execSadd_desk (h : Hdr) (sd sa sb : SReg) (s : State) : LeavesDesk (asOf false s) (execSadd h sd sa sb s) := by
  simp [execSadd]
@[simp] theorem execSsub_desk (h : Hdr) (sd sa sb : SReg) (s : State) : LeavesDesk (asOf false s) (execSsub h sd sa sb s) := by
  simp [execSsub]
@[simp] theorem execSmul_desk (h : Hdr) (sd sa sb : SReg) (s : State) : LeavesDesk (asOf false s) (execSmul h sd sa sb s) := by
  simp [execSmul]
@[simp] theorem execSand_desk (h : Hdr) (sd sa sb : SReg) (s : State) : LeavesDesk (asOf false s) (execSand h sd sa sb s) := by
  simp [execSand]
@[simp] theorem execSor_desk (h : Hdr) (sd sa sb : SReg) (s : State) : LeavesDesk (asOf false s) (execSor h sd sa sb s) := by
  simp [execSor]
@[simp] theorem execSxor_desk (h : Hdr) (sd sa sb : SReg) (s : State) : LeavesDesk (asOf false s) (execSxor h sd sa sb s) := by
  simp [execSxor]
@[simp] theorem execSshl_desk (h : Hdr) (sd sa sb : SReg) (s : State) : LeavesDesk (asOf false s) (execSshl h sd sa sb s) := by
  simp [execSshl]
@[simp] theorem execSshr_desk (h : Hdr) (sd sa sb : SReg) (s : State) : LeavesDesk (asOf false s) (execSshr h sd sa sb s) := by
  simp [execSshr]
@[simp] theorem execSsra_desk (h : Hdr) (sd sa sb : SReg) (s : State) : LeavesDesk (asOf false s) (execSsra h sd sa sb s) := by
  simp [execSsra]
@[simp] theorem execSmin_desk (h : Hdr) (sd sa sb : SReg) (s : State) : LeavesDesk (asOf false s) (execSmin h sd sa sb s) := by
  simp [execSmin]
@[simp] theorem execSmax_desk (h : Hdr) (sd sa sb : SReg) (s : State) : LeavesDesk (asOf false s) (execSmax h sd sa sb s) := by
  simp [execSmax]
@[simp] theorem execSminu_desk (h : Hdr) (sd sa sb : SReg) (s : State) : LeavesDesk (asOf false s) (execSminu h sd sa sb s) := by
  simp [execSminu]
@[simp] theorem execSmaxu_desk (h : Hdr) (sd sa sb : SReg) (s : State) : LeavesDesk (asOf false s) (execSmaxu h sd sa sb s) := by
  simp [execSmaxu]
@[simp] theorem execScmpEq_desk (h : Hdr) (pd : PReg) (sa sb : SReg) (s : State) :
    LeavesDesk (asOf false s) (execScmpEq h pd sa sb s) := by
  simp [execScmpEq]
@[simp] theorem execScmpLt_desk (h : Hdr) (pd : PReg) (sa sb : SReg) (s : State) :
    LeavesDesk (asOf false s) (execScmpLt h pd sa sb s) := by
  simp [execScmpLt]
@[simp] theorem execScmpLtu_desk (h : Hdr) (pd : PReg) (sa sb : SReg) (s : State) :
    LeavesDesk (asOf false s) (execScmpLtu h pd sa sb s) := by
  simp [execScmpLtu]
@[simp] theorem execPand_desk (h : Hdr) (pd pa pb : PReg) (s : State) : LeavesDesk (asOf false s) (execPand h pd pa pb s) := by
  simp [execPand]
@[simp] theorem execPor_desk (h : Hdr) (pd pa pb : PReg) (s : State) : LeavesDesk (asOf false s) (execPor h pd pa pb s) := by
  simp [execPor]
@[simp] theorem execPxor_desk (h : Hdr) (pd pa pb : PReg) (s : State) : LeavesDesk (asOf false s) (execPxor h pd pa pb s) := by
  simp [execPxor]
@[simp] theorem execPnot_desk (h : Hdr) (pd pa : PReg) (s : State) : LeavesDesk (asOf false s) (execPnot h pd pa s) := by
  simp [execPnot]
@[simp] theorem simm_desk (s : State) (h : Hdr) (sd sa : SReg) (imm : BitVec 33) (op : BitVec 64 → BitVec 64 → BitVec 64) :
    LeavesDesk (asOf false s) (s.simm h sd sa imm op) := by
  simp [State.simm]
@[simp] theorem execSaddi_desk (h : Hdr) (sd sa : SReg) (imm : BitVec 33) (s : State) :
    LeavesDesk (asOf false s) (execSaddi h sd sa imm s) := by
  simp [execSaddi]
@[simp] theorem execSandi_desk (h : Hdr) (sd sa : SReg) (imm : BitVec 33) (s : State) :
    LeavesDesk (asOf false s) (execSandi h sd sa imm s) := by
  simp [execSandi]
@[simp] theorem execSori_desk (h : Hdr) (sd sa : SReg) (imm : BitVec 33) (s : State) :
    LeavesDesk (asOf false s) (execSori h sd sa imm s) := by
  simp [execSori]
@[simp] theorem execSxori_desk (h : Hdr) (sd sa : SReg) (imm : BitVec 33) (s : State) :
    LeavesDesk (asOf false s) (execSxori h sd sa imm s) := by
  simp [execSxori]
@[simp] theorem execSshli_desk (h : Hdr) (sd sa : SReg) (imm : BitVec 33) (s : State) :
    LeavesDesk (asOf false s) (execSshli h sd sa imm s) := by
  simp [execSshli]
@[simp] theorem execSshri_desk (h : Hdr) (sd sa : SReg) (imm : BitVec 33) (s : State) :
    LeavesDesk (asOf false s) (execSshri h sd sa imm s) := by
  simp [execSshri]
@[simp] theorem execSsrai_desk (h : Hdr) (sd sa : SReg) (imm : BitVec 33) (s : State) :
    LeavesDesk (asOf false s) (execSsrai h sd sa imm s) := by
  simp [execSsrai]
@[simp] theorem execScmpiLt_desk (h : Hdr) (pd : PReg) (sa : SReg) (imm : BitVec 33) (s : State) :
    LeavesDesk (asOf false s) (execScmpiLt h pd sa imm s) := by
  simp [execScmpiLt]
@[simp] theorem execLi_desk (h : Hdr) (sd : SReg) (imm : BitVec 33) (s : State) : LeavesDesk (asOf false s) (execLi h sd imm s) := by
  simp [execLi]
@[simp] theorem execLih_desk (h : Hdr) (sd : SReg) (imm : BitVec 33) (s : State) : LeavesDesk (asOf false s) (execLih h sd imm s) := by
  simp [execLih]
@[simp] theorem execSget_desk (h : Hdr) (sd : SReg) (item : BitVec 33) (s : State) :
    LeavesDesk (asOf false s) (execSget h sd item s) := by
  unfold execSget
  split <;> simp
@[simp] theorem execSld_desk (h : Hdr) (stable : Bool) (sd sa : SReg) (imm : BitVec 32) (s : State) :
    LeavesDesk (asOf false s) (execSld h stable sd sa imm s) := by
  simp [execSld]
@[simp] theorem execSst_desk (h : Hdr) (stable : Bool) (sd sa : SReg) (imm : BitVec 32) (s : State) :
    LeavesDesk (asOf false s) (execSst h stable sd sa imm s) := by
  simp [execSst]
@[simp] theorem execTdl_desk (h : Hdr) (td : TReg) (sa sb : SReg) (s : State) : LeavesDesk (asOf false s) (execTdl h td sa sb s) := by
  simp [execTdl]
@[simp] theorem execTds_desk (h : Hdr) (sd : SReg) (td : TReg) (word : Bool) (s : State) :
    LeavesDesk (asOf false s) (execTds h sd td word s) := by
  simp [execTds]
@[simp] theorem execTdadd_desk (h : Hdr) (td : TReg) (sa : SReg) (s : State) : LeavesDesk (asOf false s) (execTdadd h td sa s) := by
  simp [execTdadd]

/-! #### Vector -/

@[simp] theorem valu_desk (s : State) (h : Hdr) (op : Nat) (mn : String) (ok : Bool) (vd : VReg) (f : Stall → BitVec 2048) :
    LeavesDesk (asOf false s) (s.valu h op mn ok vd f) := by
  simp [State.valu]
@[simp] theorem valu2_desk (s : State) (h : Hdr) (op : Nat) (mn : String) (ok : Fmt → Bool) (fmt : Fmt) (vd va vb : VReg) (el : Fmt →
    Nat → Nat → Nat) : LeavesDesk (asOf false s) (s.valu2 h op mn ok fmt vd va vb el) := by
  simp [State.valu2]
@[simp] theorem vcmp_desk (s : State) (h : Hdr) (op : Nat) (mn : String) (fmt : Fmt) (pd : PReg) (va vb : VReg) (el : Fmt → Nat → Nat →
    Bool) : LeavesDesk (asOf false s) (s.vcmp h op mn fmt pd va vb el) := by
  simp [State.vcmp]
@[simp] theorem execAdd_desk (h : Hdr) (fmt : Fmt) (vd va vb : VReg) (s : State) :
    LeavesDesk (asOf false s) (execAdd h fmt vd va vb s) := by
  simp [execAdd]
@[simp] theorem execSub_desk (h : Hdr) (fmt : Fmt) (vd va vb : VReg) (s : State) :
    LeavesDesk (asOf false s) (execSub h fmt vd va vb s) := by
  simp [execSub]
@[simp] theorem execMul_desk (h : Hdr) (fmt : Fmt) (vd va vb : VReg) (s : State) :
    LeavesDesk (asOf false s) (execMul h fmt vd va vb s) := by
  simp [execMul]
@[simp] theorem execFma_desk (h : Hdr) (fmt : Fmt) (vd va vb vc : VReg) (s : State) :
    LeavesDesk (asOf false s) (execFma h fmt vd va vb vc s) := by
  simp [execFma]
@[simp] theorem execMin_desk (h : Hdr) (fmt : Fmt) (vd va vb : VReg) (s : State) :
    LeavesDesk (asOf false s) (execMin h fmt vd va vb s) := by
  simp [execMin]
@[simp] theorem execMax_desk (h : Hdr) (fmt : Fmt) (vd va vb : VReg) (s : State) :
    LeavesDesk (asOf false s) (execMax h fmt vd va vb s) := by
  simp [execMax]
@[simp] theorem execAbs_desk (h : Hdr) (fmt : Fmt) (vd va : VReg) (s : State) : LeavesDesk (asOf false s) (execAbs h fmt vd va s) := by
  simp [execAbs]
@[simp] theorem execNeg_desk (h : Hdr) (fmt : Fmt) (vd va : VReg) (s : State) : LeavesDesk (asOf false s) (execNeg h fmt vd va s) := by
  simp [execNeg]
@[simp] theorem execDiv_desk (h : Hdr) (fmt : Fmt) (vd va vb : VReg) (s : State) :
    LeavesDesk (asOf false s) (execDiv h fmt vd va vb s) := by
  simp [execDiv]
@[simp] theorem execSqrt_desk (h : Hdr) (fmt : Fmt) (vd va : VReg) (s : State) :
    LeavesDesk (asOf false s) (execSqrt h fmt vd va s) := by
  simp [execSqrt]
@[simp] theorem execCmpEq_desk (h : Hdr) (fmt : Fmt) (pd : PReg) (va vb : VReg) (s : State) :
    LeavesDesk (asOf false s) (execCmpEq h fmt pd va vb s) := by
  simp [execCmpEq]
@[simp] theorem execCmpNe_desk (h : Hdr) (fmt : Fmt) (pd : PReg) (va vb : VReg) (s : State) :
    LeavesDesk (asOf false s) (execCmpNe h fmt pd va vb s) := by
  simp [execCmpNe]
@[simp] theorem execCmpLt_desk (h : Hdr) (fmt : Fmt) (pd : PReg) (va vb : VReg) (s : State) :
    LeavesDesk (asOf false s) (execCmpLt h fmt pd va vb s) := by
  simp [execCmpLt]
@[simp] theorem execCmpLe_desk (h : Hdr) (fmt : Fmt) (pd : PReg) (va vb : VReg) (s : State) :
    LeavesDesk (asOf false s) (execCmpLe h fmt pd va vb s) := by
  simp [execCmpLe]
@[simp] theorem execSel_desk (h : Hdr) (fmt : Fmt) (vd va vb : VReg) (pc : PReg) (s : State) :
    LeavesDesk (asOf false s) (execSel h fmt vd va vb pc s) := by
  simp [execSel]
@[simp] theorem execAnd_desk (h : Hdr) (fmt : Fmt) (vd va vb : VReg) (s : State) :
    LeavesDesk (asOf false s) (execAnd h fmt vd va vb s) := by
  simp [execAnd]
@[simp] theorem execOr_desk (h : Hdr) (fmt : Fmt) (vd va vb : VReg) (s : State) :
    LeavesDesk (asOf false s) (execOr h fmt vd va vb s) := by
  simp [execOr]
@[simp] theorem execXor_desk (h : Hdr) (fmt : Fmt) (vd va vb : VReg) (s : State) :
    LeavesDesk (asOf false s) (execXor h fmt vd va vb s) := by
  simp [execXor]
@[simp] theorem execShl_desk (h : Hdr) (fmt : Fmt) (vd va vb : VReg) (s : State) :
    LeavesDesk (asOf false s) (execShl h fmt vd va vb s) := by
  simp [execShl]
@[simp] theorem execShr_desk (h : Hdr) (fmt : Fmt) (vd va vb : VReg) (s : State) :
    LeavesDesk (asOf false s) (execShr h fmt vd va vb s) := by
  simp [execShr]
@[simp] theorem execSra_desk (h : Hdr) (fmt : Fmt) (vd va vb : VReg) (s : State) :
    LeavesDesk (asOf false s) (execSra h fmt vd va vb s) := by
  simp [execSra]
@[simp] theorem execSum_desk (h : Hdr) (fmt : Fmt) (vd va : VReg) (s : State) : LeavesDesk (asOf false s) (execSum h fmt vd va s) := by
  simp [execSum]
@[simp] theorem execMaxr_desk (h : Hdr) (fmt : Fmt) (vd va : VReg) (s : State) :
    LeavesDesk (asOf false s) (execMaxr h fmt vd va s) := by
  simp [execMaxr]
@[simp] theorem execBcast_desk (h : Hdr) (fmt : Fmt) (vd : VReg) (sa : SReg) (s : State) :
    LeavesDesk (asOf false s) (execBcast h fmt vd sa s) := by
  simp [execBcast]
@[simp] theorem execIota_desk (h : Hdr) (fmt : Fmt) (vd : VReg) (s : State) : LeavesDesk (asOf false s) (execIota h fmt vd s) := by
  simp [execIota]
@[simp] theorem execVld_desk (h : Hdr) (stable : Bool) (vd : VReg) (sa : SReg) (imm : BitVec 32) (s : State) :
    LeavesDesk (asOf false s) (execVld h stable vd sa imm s) := by
  refine issue_desk s h _ _ _ fun t r => ?_
  dsimp only
  split <;> simp
@[simp] theorem execVst_desk (h : Hdr) (stable : Bool) (vd : VReg) (sa : SReg) (imm : BitVec 32) (s : State) :
    LeavesDesk (asOf false s) (execVst h stable vd sa imm s) := by
  simp [execVst]

/-! #### Mover -/

@[simp] theorem execDmCopy_desk (h : Hdr) (dsp ssp : Space) (sd ss sn : SReg) (s : State) :
    LeavesDesk (asOf false s) (execDmCopy h dsp ssp sd ss sn s) := by
  simp [execDmCopy]
@[simp] theorem execDmLd2_desk (h : Hdr) (ssp : Space) (td : TReg) (ss sn : SReg) (s : State) :
    LeavesDesk (asOf false s) (execDmLd2 h ssp td ss sn s) := by
  simp [execDmLd2]
@[simp] theorem execDmSt2_desk (h : Hdr) (dsp : Space) (sd : SReg) (ts : TReg) (sn : SReg) (s : State) :
    LeavesDesk (asOf false s) (execDmSt2 h dsp sd ts sn s) := by
  simp [execDmSt2]
@[simp] theorem execDmTt_desk (h : Hdr) (td ts : TReg) (sn : SReg) (s : State) : LeavesDesk (asOf false s) (execDmTt h td ts sn s) := by
  simp [execDmTt]
@[simp] theorem execDmFill_desk (h : Hdr) (dsp : Space) (sd ss sn : SReg) (s : State) :
    LeavesDesk (asOf false s) (execDmFill h dsp sd ss sn s) := by
  refine issue_desk s h _ _ _ fun t r => ?_
  dsimp only
  split
  · rfl
  · split <;> simp

/-! #### Slots -/

@[simp] theorem execSlotSend_desk (h : Hdr) (ssp : Space) (sa sb sc sd se : SReg) (s : State) :
    LeavesDesk (asOf false s) (execSlotSend h ssp sa sb sc sd se s) := by
  refine issue_desk s h _ _ _ fun t r => ?_
  dsimp only
  split
  · rfl
  · split <;> simp
@[simp] theorem execSlotStat_desk (h : Hdr) (sd sa : SReg) (s : State) : LeavesDesk (asOf false s) (execSlotStat h sd sa s) :=
  issue_desk s h _ _ _ fun t r => by
    dsimp only
    split <;> rfl

/-! #### Matrix -/

@[simp] theorem execMma_desk (h : Hdr) (acc : Fin 2) (ta tb : TReg) (fmt : Fmt) (z tra trb : Bool) (m1 n1 : Fin 128) (k1 : Fin 512) (s :
    State) : LeavesDesk (asOf false s) (execMma h acc ta tb fmt z tra trb m1 n1 k1 s) := by
  simp [execMma]
@[simp] theorem execMmaTka_desk (h : Hdr) (acc : Fin 2) (ta tb : TReg) (fmt : Fmt) (z tra trb : Bool) (m1 n1 : Fin 128) (k1 : Fin 512)
    (s : State) : LeavesDesk (asOf false s) (execMmaTka h acc ta tb fmt z tra trb m1 n1 k1 s) := by
  simp [execMmaTka]
@[simp] theorem execMmr_desk (h : Hdr) (acc : Fin 2) (td : TReg) (fmt : Fmt) (mode : OvMode) (kind : Option Kind) (clr : Bool)
    (ss : Option SReg) (m1 n1 : Fin 128) (s : State) : LeavesDesk (asOf false s) (execMmr h acc td fmt mode kind clr ss m1 n1 s) := by
  unfold execMmr
  split
  · simp
  · refine issue_desk s h _ _ _ fun t r => ?_
    dsimp only
    split
    · rfl
    · split <;> simp
@[simp] theorem execMmxSt_desk (h : Hdr) (acc : Fin 2) (td : TReg) (s : State) : LeavesDesk (asOf false s) (execMmxSt h acc td s) := by
  simp [execMmxSt]
@[simp] theorem execMmxLd_desk (h : Hdr) (acc : Fin 2) (td : TReg) (s : State) : LeavesDesk (asOf false s) (execMmxLd h acc td s) := by
  simp [execMmxLd]

/-! #### Coll -/

@[simp] theorem coll_desk (s : State) (h : Hdr) (k : CollKind) (g : Fin 4) (x : State → Stall → CollOp → CollOp) (f : State → Flight →
    Fin 64 → State × Flight) (hf : ∀ t x0 x1, OnDesk false (asOf false s) (f t x0 x1).1 ↔ OnDesk false (asOf false s) t) : LeavesDesk
    (asOf false s) (s.coll h k g x f) := by
  simp [State.coll, ↓hf]
@[simp] theorem collLayout_desk (s : State) (h : Hdr) (k : CollKind) (g : Fin 4) (sa sb sc : SReg) :
    LeavesDesk (asOf false s) (s.collLayout h k g sa sb sc) := by
  simp [State.collLayout]
@[simp] theorem execCollReduce_desk (h : Hdr) (grp : Fin 4) (sa sb sc : SReg) (s : State) :
    LeavesDesk (asOf false s) (execCollReduce h grp sa sb sc s) := by
  simp [execCollReduce]
@[simp] theorem execCollRscat_desk (h : Hdr) (grp : Fin 4) (sa sb sc : SReg) (s : State) :
    LeavesDesk (asOf false s) (execCollRscat h grp sa sb sc s) := by
  simp [execCollRscat]
@[simp] theorem execCollAgath_desk (h : Hdr) (grp : Fin 4) (sa sb sc : SReg) (s : State) :
    LeavesDesk (asOf false s) (execCollAgath h grp sa sb sc s) := by
  simp [execCollAgath]
@[simp] theorem execCollTree_desk (h : Hdr) (grp : Fin 4) (sa sb sc : SReg) (s : State) :
    LeavesDesk (asOf false s) (execCollTree h grp sa sb sc s) := by
  simp [execCollTree]
@[simp] theorem execCollA2a_desk (h : Hdr) (grp : Fin 4) (sa sb sc : SReg) (s : State) :
    LeavesDesk (asOf false s) (execCollA2a h grp sa sb sc s) := by
  simp [execCollA2a]

/-! #### Sync -/

@[simp] theorem syncUnit_desk (s : State) (h : Hdr) (f : State → State) (hf : ∀ t, OnDesk false (asOf false s) (f t) ↔ OnDesk false
    (asOf false s) t) : LeavesDesk (asOf false s) (s.syncUnit h f) := by
  simp [State.syncUnit, ↓hf]
@[simp] theorem execTadd_desk (h : Hdr) (cn : CReg) (v : BitVec 32) (s : State) : LeavesDesk (asOf false s) (execTadd h cn v s) := by
  simp [execTadd]
@[simp] theorem execTset_desk (h : Hdr) (cn : CReg) (v : BitVec 32) (s : State) : LeavesDesk (asOf false s) (execTset h cn v s) := by
  simp [execTset]
@[simp] theorem execTwait_desk (h : Hdr) (cn : CReg) (target : BitVec 32) (s : State) :
    LeavesDesk (asOf false s) (execTwait h cn target s) := by
  simp [execTwait]
@[simp] theorem execTwaits_desk (h : Hdr) (cn : CReg) (sa : SReg) (s : State) : LeavesDesk (asOf false s) (execTwaits h cn sa s) := by
  simp [execTwaits]
@[simp] theorem execTallyWaitSatisfied_desk (n : Fin 128) (s : State) : LeavesDesk (asOf false s) (execTallyWaitSatisfied n s) := by
  unfold execTallyWaitSatisfied
  (repeat' split) <;> simp
@[simp] theorem fence_desk (s : State) (h : Hdr) (kind : FenceKind) (scope : FenceScope) (grp : Fin 4) :
    LeavesDesk (asOf false s) (s.fence h kind scope grp) := by
  simp [State.fence]
@[simp] theorem execFenceAcq_desk (h : Hdr) (scope : FenceScope) (grp : Fin 4) (s : State) :
    LeavesDesk (asOf false s) (execFenceAcq h scope grp s) := by
  simp [execFenceAcq]
@[simp] theorem execFenceRel_desk (h : Hdr) (scope : FenceScope) (grp : Fin 4) (s : State) :
    LeavesDesk (asOf false s) (execFenceRel h scope grp s) := by
  simp [execFenceRel]
@[simp] theorem execFenceFull_desk (h : Hdr) (scope : FenceScope) (grp : Fin 4) (s : State) :
    LeavesDesk (asOf false s) (execFenceFull h scope grp s) := by
  simp [execFenceFull]
@[simp] theorem execFenceRetire_desk (n : Fin 128) (s : State) : LeavesDesk (asOf false s) (execFenceRetire n s) := by
  unfold execFenceRetire
  (repeat' split) <;> simp
@[simp] theorem execEwait_desk (h : Hdr) (evt : Fin 64) (s : State) : LeavesDesk (asOf false s) (execEwait h evt s) := by
  simp [execEwait]
@[simp] theorem execBarrierGenerationComplete_desk (n : Fin 128) (s : State) :
    LeavesDesk (asOf false s) (execBarrierGenerationComplete n s) := by
  unfold execBarrierGenerationComplete
  (repeat' split) <;> simp

/-! #### Yards -/

@[simp] theorem execIdleGateStop_desk (y : Fin 4) (s : State) : LeavesDesk (asOf false s) (execIdleGateStop y s) := by
  simp [execIdleGateStop]
@[simp] theorem execIdleGateResume_desk (y : Fin 4) (s : State) : LeavesDesk (asOf false s) (execIdleGateResume y s) := by
  simp [execIdleGateResume]
@[simp] theorem execHaltWrite_desk (y : Fin 4) (on : Bool) (s : State) : LeavesDesk (asOf false s) (execHaltWrite y on s) := by
  simp [execHaltWrite]
@[simp] theorem execFrequencyStep_desk (y : Fin 4) (s : State) : LeavesDesk (asOf false s) (execFrequencyStep y s) := by
  simp [execFrequencyStep]
@[simp] theorem execYardNeighbourCheck_desk (mv tc : Vector Nat 4) (s : State) :
    LeavesDesk (asOf false s) (execYardNeighbourCheck mv tc s) := by
  simp [execYardNeighbourCheck]
@[simp] theorem execDroopStretch_desk (y : Fin 4) (pct : Fin 13) (s : State) :
    LeavesDesk (asOf false s) (execDroopStretch y pct s) := by
  simp [execDroopStretch]
@[simp] theorem execDroopRecovery_desk (y : Fin 4) (s : State) : LeavesDesk (asOf false s) (execDroopRecovery y s) := by
  simp [execDroopRecovery]

/-! #### Die -/

@[simp] theorem execPowerCycleReapply_desk (s : State) : LeavesDesk (asOf false s) (execPowerCycleReapply s) := by
  simp [execPowerCycleReapply]
@[simp] theorem execClearOos_desk (s : State) : LeavesDesk (asOf false s) (execClearOos s) := by simp [execClearOos]
@[simp] theorem execClearFences_desk (s : State) : LeavesDesk (asOf false s) (execClearFences s) := by simp [execClearFences]
@[simp] theorem execClearHistory_desk (s : State) : LeavesDesk (asOf false s) (execClearHistory s) := by simp [execClearHistory]

/-! #### Convert -/

@[simp] theorem execCvt_desk (h : Hdr) (vd va : VReg) (ss : SReg) (tfmt sfmt : Fmt) (part : Fin 4) (mode : OvMode) (kind : Kind) (s :
    State) : LeavesDesk (asOf false s) (execCvt h vd va ss tfmt sfmt part mode kind s) := by
  simp [execCvt]

/-! #### CollTile -/

@[simp] theorem execCollCirc_desk (h : Hdr) (grp : Fin 4) (sa sb sc : SReg) (s : State) :
    LeavesDesk (asOf false s) (execCollCirc h grp sa sb sc s) := by
  simp [execCollCirc]
@[simp] theorem execCircularReceive_desk (lt : Letter) (s : State) : LeavesDesk (asOf false s) (execCircularReceive lt s) := by
  unfold execCircularReceive
  (repeat' split) <;> simp
@[simp] theorem execCircularReceiptSend_desk (id : Nat) (s : State) : LeavesDesk (asOf false s) (execCircularReceiptSend id s) := by
  unfold execCircularReceiptSend
  split <;> simp
@[simp] theorem execCollWgtile_desk (h : Hdr) (grp : Fin 4) (sa sb _sc : SReg) (td : TReg) (s : State) :
    LeavesDesk (asOf false s) (execCollWgtile h grp sa sb _sc td s) := by
  simp [execCollWgtile]

/-! #### Seal -/

@[simp] theorem execSealLetterReceive_desk (lt : Letter) (s : State) : LeavesDesk (asOf false s) (execSealLetterReceive lt s) := by
  simp [execSealLetterReceive]
@[simp] theorem execSealResendTimer_desk (c : Fin 64) (s : State) : LeavesDesk (asOf false s) (execSealResendTimer c s) := by
  simp [execSealResendTimer]
@[simp] theorem execMirrorComplete_desk (c : Fin 64) (s : State) : LeavesDesk (asOf false s) (execMirrorComplete c s) := by
  unfold execMirrorComplete
  dsimp only
  split <;> simp
@[simp] theorem execStepTimerExpiry_desk (c : Fin 64) (s : State) : LeavesDesk (asOf false s) (execStepTimerExpiry c s) := by
  simp [execStepTimerExpiry]
@[simp] theorem execRevert_desk (c : Fin 64) (tr : BitVec 16) (s : State) : LeavesDesk (asOf false s) (execRevert c tr s) := by
  simp [execRevert]
@[simp] theorem execRemirror_desk (c : Fin 64) (s : State) : LeavesDesk (asOf false s) (execRemirror c s) := by simp [execRemirror]

/-! #### HostQueue -/

@[simp] theorem execBar2Access_desk (off : BitVec 36) (write : Bool) (len : Nat) (data : List MByte) (s : State) :
    LeavesDesk (asOf false s) (execBar2Access off write len data s) := by
  simp [execBar2Access]
@[simp] theorem execQpEnable_desk (q : Fin 256) (v : BitVec 64) (s : State) : LeavesDesk (asOf false s) (execQpEnable q v s) := by
  simp [execQpEnable]
@[simp] theorem execQpDisable_desk (q : Fin 256) (v : BitVec 64) (s : State) : LeavesDesk (asOf false s) (execQpDisable q v s) := by
  simp [execQpDisable]
@[simp] theorem execSqTailWrite_desk (q : Fin 256) (i : BitVec 16) (ok : PcieOk) (s : State) :
    LeavesDesk (asOf false s) (execSqTailWrite q i ok s) := by
  simp [execSqTailWrite]
@[simp] theorem execCqHeadWrite_desk (q : Fin 256) (i : BitVec 16) (s : State) : LeavesDesk (asOf false s) (execCqHeadWrite q i s) := by
  simp [execCqHeadWrite]
@[simp] theorem execStoppedClear_desk (q : Fin 256) (s : State) : LeavesDesk (asOf false s) (execStoppedClear q s) := by
  simp [execStoppedClear]
@[simp] theorem execFetchErrClear_desk (q : Fin 256) (s : State) : LeavesDesk (asOf false s) (execFetchErrClear q s) := by
  simp [execFetchErrClear]
@[simp] theorem execSqEntryAccept_desk (q : Fin 256) (e : BitVec 512) (ok : PcieOk) (s : State) :
    LeavesDesk (asOf false s) (execSqEntryAccept q e ok s) := by
  simp [execSqEntryAccept]
@[simp] theorem execNopConsignment_desk (q : Fin 256) (i : BitVec 16) (s : State) :
    LeavesDesk (asOf false s) (execNopConsignment q i s) := by
  unfold execNopConsignment
  split <;> simp
@[simp] theorem execCopyIn_desk (q : Fin 256) (i : BitVec 16) (data : List MByte) (s : State) :
    LeavesDesk (asOf false s) (execCopyIn q i data s) := by
  unfold execCopyIn
  split <;> simp
@[simp] theorem execCopyOut_desk (q : Fin 256) (i : BitVec 16) (s : State) : LeavesDesk (asOf false s) (execCopyOut q i s) := by
  unfold execCopyOut
  split <;> simp
@[simp] theorem execCopyComplete_desk (q : Fin 256) (i : BitVec 16) (s : State) :
    LeavesDesk (asOf false s) (execCopyComplete q i s) := by
  unfold execCopyComplete
  (repeat' split) <;> simp
@[simp] theorem execConsignmentComplete_desk (q : Fin 256) (i : BitVec 16) (s : State) :
    LeavesDesk (asOf false s) (execConsignmentComplete q i s) := by
  unfold execConsignmentComplete
  split <;> simp
@[simp] theorem execCompletionPost_desk (q : Fin 256) (ok : PcieOk) (s : State) :
    LeavesDesk (asOf false s) (execCompletionPost q ok s) := by
  unfold execCompletionPost
  split <;> simp [↓leavesDesk_next, ↓onDesk_ite, ↓coalesce_desk, ↓setFld_desk, ↓onDesk_mk_jobs]
@[simp] theorem execIrqDelayExpiry_desk (q : Fin 256) (s : State) : LeavesDesk (asOf false s) (execIrqDelayExpiry q s) := by
  simp [execIrqDelayExpiry]
@[simp] theorem execAbort_desk (q : Fin 256) (i : BitVec 16) (s : State) : LeavesDesk (asOf false s) (execAbort q i s) := by
  simp [execAbort]

/-! #### Update -/

@[simp] theorem execUpd_desk (h : Hdr) (sa sb : SReg) (tg : TReg) (gfmt : Fmt) (s : State) :
    LeavesDesk (asOf false s) (execUpd h sa sb tg gfmt s) := by
  simp [execUpd]
@[simp] theorem execUpdf_desk (h : Hdr) (sa : SReg) (s : State) : LeavesDesk (asOf false s) (execUpdf h sa s) := by simp [execUpdf]
@[simp] theorem execUpdSealWaitEnd_desk (n : Fin 128) (s : State) : LeavesDesk (asOf false s) (execUpdSealWaitEnd n s) := by
  unfold execUpdSealWaitEnd
  dsimp only
  (repeat' split) <;> simp
@[simp] theorem execUpdfTilesComplete_desk (n : Fin 128) (s : State) : LeavesDesk (asOf false s) (execUpdfTilesComplete n s) := by
  unfold execUpdfTilesComplete
  dsimp only
  (repeat' split) <;> simp
@[simp] theorem execTileComplete_desk (n : Fin 128) (seq : Nat) (s : State) : LeavesDesk (asOf false s) (execTileComplete n seq s) := by
  unfold execTileComplete
  (repeat' split) <;> simp

/-! #### Watch -/

@[simp] theorem execNwSampleComplete_desk (t : Fin 16) (s : State) : LeavesDesk (asOf false s) (execNwSampleComplete t s) := by
  unfold execNwSampleComplete
  dsimp only
  (repeat' split) <;> simp

/-! #### Contexts -/

@[simp] theorem execStableResetEnd_desk (t : Fin 16) (s : State) : LeavesDesk (asOf false s) (execStableResetEnd t s) := by
  simp [execStableResetEnd]
@[simp] theorem execStart_desk (c : Fin 64) (s : State) : LeavesDesk (asOf false s) (execStart c s) := by simp [execStart]
@[simp] theorem execXlatInvalDone_desk (c : Fin 64) (s : State) : LeavesDesk (asOf false s) (execXlatInvalDone c s) := by
  simp [execXlatInvalDone]

/-! #### Stages -/

@[simp] theorem execAuxPowerGood_desk (s : State) : LeavesDesk (asOf false s) (execAuxPowerGood s) := by simp [execAuxPowerGood]
@[simp] theorem execFirmwareVerified_desk (s : State) : LeavesDesk (asOf false s) (execFirmwareVerified s) := by
  unfold execFirmwareVerified
  (repeat' split) <;> simp [↓leavesDesk_next, ↓onDesk_ite, ↓mainStart_desk, ↓onDesk_mk]
@[simp] theorem execFirmwareBundleUpload_desk (slot : Fin 2) (bundle : List Byte) (s : State) :
    LeavesDesk (asOf false s) (execFirmwareBundleUpload slot bundle s) := by
  simp [execFirmwareBundleUpload]
@[simp] theorem execSpdmRequest_desk (s : State) : LeavesDesk (asOf false s) (execSpdmRequest s) := by
  unfold execSpdmRequest
  split <;> simp
@[simp] theorem execMainOn_desk (s : State) : LeavesDesk (asOf false s) (execMainOn s) := by simp [execMainOn]
@[simp] theorem execMainPowerGood_desk (s : State) : LeavesDesk (asOf false s) (execMainPowerGood s) := by simp [execMainPowerGood]
@[simp] theorem execAdvance_desk (s : State) : LeavesDesk (asOf false s) (execAdvance s) := by simp [execAdvance]
@[simp] theorem execMemTestDone_desk (hbmFail : BitVec 8) (loftFail stableOff : BitVec 16) (ues : List Nat) (s : State) :
    LeavesDesk (asOf false s) (execMemTestDone hbmFail loftFail stableOff ues s) := by
  simp [execMemTestDone]
@[simp] theorem execHarness_desk (s : State) : LeavesDesk (asOf false s) (execHarness s) := by simp [execHarness]
@[simp] theorem execQuarantine_desk (s : State) : LeavesDesk (asOf false s) (execQuarantine s) := by simp [execQuarantine]

/-! #### Ports -/

@[simp] theorem execSignalDetect_desk (p : Fin 8) (s : State) : LeavesDesk (asOf false s) (execSignalDetect p s) := by
  simp [execSignalDetect]
@[simp] theorem execTrainingStepTimeout_desk (p : Fin 8) (bad : Option (BitVec 4)) (s : State) :
    LeavesDesk (asOf false s) (execTrainingStepTimeout p bad s) := by
  unfold execTrainingStepTimeout
  split <;> simp
@[simp] theorem execPortUp_desk (p : Fin 8) (peer : BitVec 4) (peerHalf plain : Bool) (m : LaneMap) (s : State) :
    LeavesDesk (asOf false s) (execPortUp p peer peerHalf plain m s) := by
  unfold execPortUp
  (repeat' split) <;> simp
@[simp] theorem execTrainingRetry_desk (p : Fin 8) (s : State) : LeavesDesk (asOf false s) (execTrainingRetry p s) := by
  simp [execTrainingRetry]
@[simp] theorem execDisable_desk (p : Fin 8) (on : Bool) (s : State) : LeavesDesk (asOf false s) (execDisable p on s) := by
  simp [execDisable]
@[simp] theorem execRetrain_desk (p : Fin 8) (s : State) : LeavesDesk (asOf false s) (execRetrain p s) := by simp [execRetrain]
@[simp] theorem execDown_desk (p : Fin 8) (s : State) : LeavesDesk (asOf false s) (execDown p s) := by simp [execDown]
@[simp] theorem execLightLoss_desk (p : Fin 8) (s : State) : LeavesDesk (asOf false s) (execLightLoss p s) := by simp [execLightLoss]
@[simp] theorem execLightSteady_desk (p : Fin 8) (s : State) : LeavesDesk (asOf false s) (execLightSteady p s) := by
  simp [execLightSteady]
@[simp] theorem execAbsentTimeout_desk (p : Fin 8) (s : State) : LeavesDesk (asOf false s) (execAbsentTimeout p s) := by
  simp [execAbsentTimeout]
@[simp] theorem execLaneErrorWindow_desk (p : Fin 8) (s : State) : LeavesDesk (asOf false s) (execLaneErrorWindow p s) := by
  simp [execLaneErrorWindow]
@[simp] theorem execDrop_desk (p : Fin 8) (strands : BitVec 4) (at' : BitVec 8) (s : State) :
    LeavesDesk (asOf false s) (execDrop p strands at' s) := by
  simp [execDrop]
@[simp] theorem execDropAck_desk (p : Fin 8) (strands : BitVec 4) (at' : BitVec 8) (s : State) :
    LeavesDesk (asOf false s) (execDropAck p strands at' s) := by
  simp [execDropAck]
@[simp] theorem execDropAckTimeout_desk (p : Fin 8) (s : State) : LeavesDesk (asOf false s) (execDropAckTimeout p s) := by
  unfold execDropAckTimeout
  split <;> simp
@[simp] theorem execStrandDropAtFseq_desk (p : Fin 8) (s : State) : LeavesDesk (asOf false s) (execStrandDropAtFseq p s) := by
  unfold execStrandDropAtFseq
  split <;> simp
@[simp] theorem execRestore_desk (p : Fin 8) (m : BitVec 4) (s : State) : LeavesDesk (asOf false s) (execRestore p m s) := by
  simp [execRestore]
@[simp] theorem execRestoreLinkCommand_desk (p : Fin 8) (m : BitVec 4) (at' : BitVec 8) (s : State) :
    LeavesDesk (asOf false s) (execRestoreLinkCommand p m at' s) := by
  simp [execRestoreLinkCommand]
@[simp] theorem execRestoreAck_desk (p : Fin 8) (m : BitVec 4) (at' : BitVec 8) (s : State) :
    LeavesDesk (asOf false s) (execRestoreAck p m at' s) := by
  simp [execRestoreAck]
@[simp] theorem execRestoreTimeout_desk (p : Fin 8) (s : State) : LeavesDesk (asOf false s) (execRestoreTimeout p s) := by
  simp [execRestoreTimeout]

/-! #### Frames -/

@[simp] theorem execLaneFrameReceive_desk (p : Fin 8) (k : Fin 48) (fseq : BitVec 8) (frame : Option (List Byte)) (s : State) :
    LeavesDesk (asOf false s) (execLaneFrameReceive p k fseq frame s) := by
  unfold execLaneFrameReceive
  dsimp only
  (repeat' split) <;> simp

/-! #### Letters -/

@[simp] theorem execLetterHeadReceive_desk (p : Fin 8) (s : State) : LeavesDesk (asOf false s) (execLetterHeadReceive p s) := by
  unfold execLetterHeadReceive
  dsimp only
  (repeat' split) <;> simp
@[simp] theorem execResyncLimit_desk (p : Fin 8) (s : State) : LeavesDesk (asOf false s) (execResyncLimit p s) := by
  unfold execResyncLimit
  split <;> simp
@[simp] theorem execLetterStart_desk (p : Option (Fin 8)) (bad : Option (Option Nat)) (s : State) :
    LeavesDesk (asOf false s) (execLetterStart p bad s) := by
  unfold execLetterStart
  split <;> simp

/-! #### Discovery -/

@[simp] theorem execIdentitySend_desk (p : Fin 8) (s : State) : LeavesDesk (asOf false s) (execIdentitySend p s) := by
  simp [execIdentitySend]
@[simp] theorem execIdentityReceive_desk (p : Fin 8) (lt : Letter) (s : State) :
    LeavesDesk (asOf false s) (execIdentityReceive p lt s) := by
  simp [execIdentityReceive]
@[simp] theorem execDiscoverySilent_desk (p : Fin 8) (s : State) : LeavesDesk (asOf false s) (execDiscoverySilent p s) := by
  simp [execDiscoverySilent]
@[simp] theorem execDiscoveryMissing_desk (p : Fin 8) (s : State) : LeavesDesk (asOf false s) (execDiscoveryMissing p s) := by
  simp [execDiscoveryMissing]
@[simp] theorem execPlanPeerWrite_desk (p : Fin 8) (v : BitVec 64) (s : State) :
    LeavesDesk (asOf false s) (execPlanPeerWrite p v s) := by
  simp [execPlanPeerWrite]
@[simp] theorem execPlanChipWrite_desk (v : BitVec 64) (s : State) : LeavesDesk (asOf false s) (execPlanChipWrite v s) := by
  simp [execPlanChipWrite]

/-! #### Bypass -/

@[simp] theorem execGrant_desk (a : Fin 4) (s : State) : LeavesDesk (asOf false s) (execGrant a s) := by simp [execGrant]
@[simp] theorem execHandoverLoopTrained_desk (a : Fin 4) (plus minus : BitVec 4) (s : State) :
    LeavesDesk (asOf false s) (execHandoverLoopTrained a plus minus s) := by
  unfold execHandoverLoopTrained
  split <;> simp [↓leavesDesk_next, ↓onDesk_ite, ↓onDesk_mk, ↓lanesLock_desk, ↓setFld_desk]
@[simp] theorem execHandoverTimeout_desk (a : Fin 4) (s : State) : LeavesDesk (asOf false s) (execHandoverTimeout a s) := by
  unfold execHandoverTimeout
  split <;> simp
@[simp] theorem execPorterHoldPoll_desk (s : State) : LeavesDesk (asOf false s) (execPorterHoldPoll s) := by simp [execPorterHoldPoll]
@[simp] theorem execBypassElementSettles_desk (a : Fin 4) (s : State) : LeavesDesk (asOf false s) (execBypassElementSettles a s) := by
  simp [execBypassElementSettles]
@[simp] theorem execBypassPositionCheck_desk (a : Fin 4) (ok : Bool) (s : State) :
    LeavesDesk (asOf false s) (execBypassPositionCheck a ok s) := by
  simp [execBypassPositionCheck]
@[simp] theorem execForce_desk (a : Fin 4) (on : Bool) (s : State) : LeavesDesk (asOf false s) (execForce a on s) := by simp [execForce]
@[simp] theorem execDieLeavesReset_desk (s : State) : LeavesDesk (asOf false s) (execDieLeavesReset s) := by simp [execDieLeavesReset]

/-! #### Delivery -/

@[simp] theorem execClearanceReceive_desk (lt : Letter) (s : State) : LeavesDesk (asOf false s) (execClearanceReceive lt s) := by
  simp [execClearanceReceive]
@[simp] theorem execCollLetterReceive_desk (lt : Letter) (s : State) : LeavesDesk (asOf false s) (execCollLetterReceive lt s) := by
  simp [execCollLetterReceive]
@[simp] theorem execDuplicateReceipt_desk (lt : Letter) (s : State) : LeavesDesk (asOf false s) (execDuplicateReceipt lt s) := by
  unfold execDuplicateReceipt
  dsimp only
  (repeat' split) <;> simp
@[simp] theorem execRequestReceive_desk (lt : Letter) (s : State) : LeavesDesk (asOf false s) (execRequestReceive lt s) := by
  unfold execRequestReceive
  dsimp only
  (repeat' split) <;> simp
@[simp] theorem execResponseReceive_desk (lt : Letter) (s : State) : LeavesDesk (asOf false s) (execResponseReceive lt s) := by
  unfold execResponseReceive
  dsimp only
  (repeat' split) <;> simp
@[simp] theorem execReceiptReceive_desk (lt : Letter) (s : State) : LeavesDesk (asOf false s) (execReceiptReceive lt s) := by
  unfold execReceiptReceive
  dsimp only
  (repeat' split) <;> simp
@[simp] theorem execDeliveryTimerExpiry_desk (k : StreamKey) (pm : BitVec 32) (s : State) :
    LeavesDesk (asOf false s) (execDeliveryTimerExpiry k pm s) := by
  unfold execDeliveryTimerExpiry
  dsimp only
  (repeat' split) <;> simp
@[simp] theorem execClearanceSend_desk (k : StreamKey) (s : State) : LeavesDesk (asOf false s) (execClearanceSend k s) := by
  simp [execClearanceSend]
@[simp] theorem execCollWatchdogExpiry_desk (op : Nat) (waitOn : Fin 8) (s : State) :
    LeavesDesk (asOf false s) (execCollWatchdogExpiry op waitOn s) := by
  unfold execCollWatchdogExpiry
  split <;> simp
@[simp] theorem execAxisPlanWrite_desk (c : Fin 64) (v : BitVec 64) (s : State) :
    LeavesDesk (asOf false s) (execAxisPlanWrite c v s) := by
  simp [execAxisPlanWrite]

/-! #### Frank -/

@[simp] theorem execFrankingExchangeStart_desk (p : Fin 8) (ago : Nat) (s : State) :
    LeavesDesk (asOf false s) (execFrankingExchangeStart p ago s) := by
  simp [execFrankingExchangeStart]
@[simp] theorem execFrSync_desk (p : Fin 8) (lt : Letter) (ago sent : Nat) (s : State) :
    LeavesDesk (asOf false s) (execFrSync p lt ago sent s) := by
  simp [execFrSync]
@[simp] theorem execFrReply_desk (p : Fin 8) (lt : Letter) (ago : Nat) (s : State) :
    LeavesDesk (asOf false s) (execFrReply p lt ago s) := by
  unfold execFrReply
  dsimp only
  (repeat' split) <;> simp
@[simp] theorem execExchangeTimeout_desk (p : Fin 8) (s : State) : LeavesDesk (asOf false s) (execExchangeTimeout p s) := by
  simp [execExchangeTimeout]
@[simp] theorem execSteeringInterval_desk (s : State) : LeavesDesk (asOf false s) (execSteeringInterval s) := by
  simp [execSteeringInterval]
@[simp] theorem execClkFrNowRead_desk (s : State) : LeavesDesk (asOf false s) (execClkFrNowRead s) := by simp [execClkFrNowRead]
@[simp] theorem execFrankingStateCopy_desk (s : State) : LeavesDesk (asOf false s) (execFrankingStateCopy s) := by
  simp [execFrankingStateCopy]

/-! #### Porter -/

@[simp] theorem execYardThermalCheck_desk (tc : Vector Nat 4) (s : State) : LeavesDesk (asOf false s) (execYardThermalCheck tc s) := by
  simp [execYardThermalCheck]
@[simp] theorem execLoftThermalThrottle_desk (k : Fin 16) (t : Nat) (s : State) :
    LeavesDesk (asOf false s) (execLoftThermalThrottle k t s) := by
  simp [execLoftThermalThrottle]
@[simp] theorem execAonCollection_desk (s : State) : LeavesDesk (asOf false s) (execAonCollection s) := by simp [execAonCollection]
@[simp] theorem execClear_desk (s : State) : LeavesDesk (asOf false s) (execClear s) := by simp [execClear]
@[simp] theorem execRetiredDataWrite_desk (v : BitVec 64) (s : State) : LeavesDesk (asOf false s) (execRetiredDataWrite v s) := by
  simp [execRetiredDataWrite]
@[simp] theorem execRetiredIdxWrite_desk (v : BitVec 64) (s : State) : LeavesDesk (asOf false s) (execRetiredIdxWrite v s) := by
  simp [execRetiredIdxWrite]
@[simp] theorem execRetiredCommitDone_desk (s : State) : LeavesDesk (asOf false s) (execRetiredCommitDone s) := by
  simp [execRetiredCommitDone]

/-! #### Hbm -/

@[simp] theorem execRefreshTempSample_desk (k : Fin 8) (t cyc : Nat) (s : State) :
    LeavesDesk (asOf false s) (execRefreshTempSample k t cyc s) := by
  simp [execRefreshTempSample]
@[simp] theorem execScrubPassStart_desk (m : Option (Fin 8)) (s : State) : LeavesDesk (asOf false s) (execScrubPassStart m s) := by
  simp [execScrubPassStart]
@[simp] theorem execPassNow_desk (m : Option (Fin 8)) (s : State) : LeavesDesk (asOf false s) (execPassNow m s) := by simp [execPassNow]
@[simp] theorem execScrubPassEnd_desk (m : Option (Fin 8)) (s : State) : LeavesDesk (asOf false s) (execScrubPassEnd m s) := by
  unfold execScrubPassEnd
  refine leavesDesk_next.2 ?_
  split
  · simp
  · dsimp only
    rw [onDesk_mk]
    cases m <;> simp [scrubReg]

/-! #### Retire -/

@[simp] theorem execInstructionRetire_desk (n : Fin 128) (u : StallUnit) (idx : Nat) (s : State) :
    LeavesDesk (asOf false s) (execInstructionRetire n u idx s) := by
  unfold execInstructionRetire
  split <;> simp
@[simp] theorem execInstructionFault_desk (n : Fin 128) (u : StallUnit) (idx : Nat) (s : State) :
    LeavesDesk (asOf false s) (execInstructionFault n u idx s) := by
  unfold execInstructionFault
  split <;> simp

/-! #### Traces -/

@[simp] theorem execEnable_desk (s : State) : LeavesDesk (asOf false s) (execEnable s) := by simp [execEnable]
@[simp] theorem execArm_desk (s : State) : LeavesDesk (asOf false s) (execArm s) := by simp [execArm]
@[simp] theorem execTrigNow_desk (s : State) : LeavesDesk (asOf false s) (execTrigNow s) := by simp [execTrigNow]
@[simp] theorem execTraceMark_desk (x : BitVec 32) (s : State) : LeavesDesk (asOf false s) (execTraceMark x s) := by
  simp [execTraceMark]
@[simp] theorem execTraceFreeze_desk (s : State) : LeavesDesk (asOf false s) (execTraceFreeze s) := by simp [execTraceFreeze]
@[simp] theorem execRemoteTrigger_desk (p : Fin 8) (lt : Letter) (s : State) :
    LeavesDesk (asOf false s) (execRemoteTrigger p lt s) := by
  simp [execRemoteTrigger]

/-! #### Writes -/

@[simp] theorem execSrcEpochWrite_desk (v : BitVec 64) (s : State) : LeavesDesk (asOf false s) (execSrcEpochWrite v s) := by
  simp [execSrcEpochWrite]
@[simp] theorem execRtAxisWrite_desk (ver : Fin 2) (a : Fin 4) (v : BitVec 64) (s : State) :
    LeavesDesk (asOf false s) (execRtAxisWrite ver a v s) := by
  simp [execRtAxisWrite]
@[simp] theorem execRegRead_desk (lt : Letter) (s : State) : LeavesDesk (asOf false s) (execRegRead lt s) := by simp [execRegRead]
@[simp] theorem execRegReply_desk (lt : Letter) (s : State) : LeavesDesk (asOf false s) (execRegReply lt s) := by
  unfold execRegReply
  dsimp only
  (repeat' split) <;> simp
@[simp] theorem execRegRequestRetry_desk (dest : BitVec 14) (pm : BitVec 32) (s : State) :
    LeavesDesk (asOf false s) (execRegRequestRetry dest pm s) := by
  unfold execRegRequestRetry
  split <;> simp
@[simp] theorem execHostLinkTraining_desk (link : Option (BitVec 5 × BitVec 3 × Bool)) (s : State) :
    LeavesDesk (asOf false s) (execHostLinkTraining link s) := by
  simp [execHostLinkTraining]

end Machine.State

end Sys2Proof
end

section
/-!
PROOFS of the family 05_instruction_set: every step keeps the tables in order (R144, R146, R152, R262 to R266).
-/
namespace Sys2Proof

open Machine

/-- Tables in order, as they stand on the desk. -/
structure DeskSound (d : Desk) : Prop where
  slots : ∀ j, SlotF.bound.get (d.regs (.soSlot j 0)) = 0 →
    SlotF.full.get (d.regs (.soSlot j 0)) = 0 ∧ SlotF.arrived.get (d.regs (.soSlot j 2)) = 0
  stables : ∀ x ∈ d.stables, ∀ y ∈ d.stables, x.1 ≠ y.1 → ∀ t ∈ x.2, t ∉ y.2

theorem deskSound_iff {jobs : Bool} {s : State} : DeskSound (s.desk jobs) ↔ TableSound s := by
  have word (j : Fin 4096) (w : Fin 4) : (s.desk jobs).regs (.soSlot j w) = s.rd (.soSlot j w) := by
    simp [State.desk]
  have unbound (j : Fin 4096) : s.slotBound j = false ↔ SlotF.bound.get ((s.desk jobs).regs (.soSlot j 0)) = 0 := by
    rw [word]
    exact decide_eq_false_iff_not.trans not_not
  constructor
  · exact fun ⟨slots, stables⟩ => ⟨fun j none => by
      have empty := slots j ((unbound j).1 none)
      rwa [word, word] at empty, stables⟩
  · exact fun ⟨slots, stables⟩ => ⟨fun j none => by
      rw [word, word]
      exact slots j ((unbound j).2 none), stables⟩

/-- From desk `a` on tables in order stay so, and whatever group is valid has the table that it has on `a`. -/
structure Settled (a d : Desk) : Prop where
  sound : DeskSound a → DeskSound d
  groups : ∀ c g, F.ceGrpCtrl_VALID.get (d.regs (.ceGrpCtrl c g)) ≠ 0 → d.regs (.ceGrpCtrl c g) = a.regs (.ceGrpCtrl c g) ∧
    d.regs (.ceGrpTree c g) = a.regs (.ceGrpTree c g) ∧ ∀ r, d.regs (.ceGrpMember c g r) = a.regs (.ceGrpMember c g r)

/-- The registers of a group's table. -/
def tableReg (c : Fin 64) (g : Fin 4) (r : Reg) : Prop := r = .ceGrpCtrl c g ∨ r = .ceGrpTree c g ∨ ∃ k, r = .ceGrpMember c g k

theorem tableReg_desk {c : Fin 64} {g : Fin 4} {r : Reg} (h : tableReg c g r) : deskReg r = true := by
  rcases h with rfl | rfl | ⟨k, rfl⟩ <;> rfl

variable {a : Desk} {s t u : State}

theorem settled_iff : OnDesk false (Settled a) t ↔ (DeskSound a → TableSound t) ∧
    ∀ c g, t.grpValid c g = true → ∀ r, tableReg c g r → t.rd r = a.regs r := by
  have reg {r : Reg} (mine : deskReg r = true) : (t.desk false).regs r = t.rd r := by
    simp [State.desk, mine]
  have valid (c : Fin 64) (g : Fin 4) :
      t.grpValid c g = true ↔ F.ceGrpCtrl_VALID.get ((t.desk false).regs (.ceGrpCtrl c g)) ≠ 0 := by
    rw [reg rfl]
    exact decide_eq_true_iff
  constructor
  · rintro ⟨sound, groups⟩
    refine ⟨fun k => deskSound_iff.1 (sound k), fun c g on r mine => ?_⟩
    obtain ⟨ctrl, tree, member⟩ := groups c g ((valid c g).1 on)
    rw [← reg (tableReg_desk mine)]
    rcases mine with rfl | rfl | ⟨k, rfl⟩
    exacts [ctrl, tree, member k]
  · rintro ⟨sound, groups⟩
    refine ⟨fun k => deskSound_iff.2 (sound k), fun c g on => ?_⟩
    have table := groups c g ((valid c g).2 on)
    refine ⟨?_, ?_, fun k => ?_⟩
    · exact (reg rfl).trans (table _ (.inl rfl))
    · exact (reg rfl).trans (table _ (.inr (.inl rfl)))
    · exact (reg rfl).trans (table _ (.inr (.inr ⟨k, rfl⟩)))

theorem settled_self : OnDesk false (Settled (s.desk false)) s := ⟨id, fun _ _ _ => ⟨rfl, rfl, fun _ => rfl⟩⟩

theorem settled_of_asOf (h : OnDesk false (asOf false s) t) : OnDesk false (Settled (s.desk false)) t := by
  unfold OnDesk asOf at h
  unfold OnDesk
  rw [h]
  exact settled_self

theorem settled_foldl {α : Type} {f : State → α → State} (h : ∀ t x, OnDesk false (Settled a) t → OnDesk false (Settled a) (f t x))
    (xs : List α) (t : State) (k : OnDesk false (Settled a) t) : OnDesk false (Settled a) (xs.foldl f t) := by
  induction xs generalizing t with
  | nil => exact k
  | cons x xs ih => exact ih _ (h t x k)

/-! ### Slots (R144 to R146) -/

/-- A change of one slot's words, after which it is empty where it is not bound. -/
theorem settled_slot (h : OnDesk false (Settled a) t) (j : Fin 4096) (stables : u.ctxStables = t.ctxStables)
    (others : ∀ r, (∀ w, r ≠ .soSlot j w) → u.rd r = t.rd r)
    (empty : (t.slotBound j = false → t.fld (.soSlot j 0) SlotF.full = 0 ∧ t.fld (.soSlot j 2) SlotF.arrived = 0) →
      u.slotBound j = false → u.fld (.soSlot j 0) SlotF.full = 0 ∧ u.fld (.soSlot j 2) SlotF.arrived = 0) :
    OnDesk false (Settled a) u := by
  obtain ⟨sound, groups⟩ := settled_iff.1 h
  refine settled_iff.2 ⟨fun k => ⟨fun i none => ?_, ?_⟩, fun c g on r mine => ?_⟩
  · by_cases same : i = j
    · subst same
      exact empty ((sound k).slots i) none
    · have word (w : Fin 4) : u.rd (.soSlot i w) = t.rd (.soSlot i w) := others _ fun v => by simp [same]
      rw [State.slotBound, State.flag_congr _ (word 0)] at none
      rw [State.fld_congr _ (word 0), State.fld_congr _ (word 2)]
      exact (sound k).slots i none
  · rw [stables]
    exact (sound k).stables
  · have same {q : Reg} (mine : tableReg c g q) : u.rd q = t.rd q :=
      others q fun w e => by rcases mine with rfl | rfl | ⟨k, rfl⟩ <;> cases e
    rw [State.grpValid, State.flag_congr _ (same (.inl rfl))] at on
    exact (same mine).trans (groups c g on r mine)

theorem slotUnbind_settled (h : OnDesk false (Settled a) t) (j : Fin 4096) : OnDesk false (Settled a) (t.slotUnbind j) := by
  obtain ⟨_, full, arrived⟩ := slotUnbind_fields t j
  refine settled_slot h j rfl (fun r own => ?_) fun _ _ => ⟨full, arrived⟩
  exact (State.rd_setFld_other _ _ _ (own 2)).trans (State.rd_wr_other _ _ (own 0))

theorem bindSlot_settled (h : OnDesk false (Settled a) t) (hd : Hdr) (j : Fin 4096) (base size space unit expect : Nat) (c : Fin 64)
    (nctr : CReg) (nen : Bool) : OnDesk false (Settled a) (bindSlot t hd j base size space unit expect c nctr nen) := by
  obtain ⟨bound, _⟩ := bindSlot_fields t hd j base size space unit expect c nctr nen
  refine settled_slot h j rfl (fun r own => ?_) fun _ none => ?_
  · exact (State.rd_wr_other _ _ (own 2)).trans ((State.rd_wr_other _ _ (own 1)).trans (State.rd_wr_other _ _ (own 0)))
  · rw [bound] at none
    cases none

theorem ownSlots_settled (h : OnDesk false (Settled a) t) (base n ctx : Nat) : OnDesk false (Settled a) (t.ownSlots base n ctx) := by
  refine settled_foldl (fun t k h => ?_) _ t h
  refine settled_slot h (Fin.ofNat 4096 (base + k)) rfl (fun r own => State.rd_setFld_other _ _ _ (own 2)) fun empty none => ?_
  have word (f : Fld) : (t.setFld (.soSlot (Fin.ofNat 4096 (base + k)) 2) SlotF.context ctx).fld (.soSlot (Fin.ofNat 4096 (base + k)) 0) f =
      t.fld (.soSlot (Fin.ofNat 4096 (base + k)) 0) f := State.fld_congr f (State.rd_setFld_other _ _ _ (by simp))
  rw [State.slotBound, State.flag, word] at none
  rw [word, State.fld_setFld_apart _ _ (by decide)]
  exact empty none

theorem slotFilled_bound (s : State) (j : Fin 4096) : (slotFilled s j).fld (.soSlot j 0) SlotF.bound = s.fld (.soSlot j 0) SlotF.bound := by
  have filled : (s.setFld (.soSlot j 0) SlotF.full 1).fld (.soSlot j 0) SlotF.bound = s.fld (.soSlot j 0) SlotF.bound :=
    State.fld_setFld_apart _ _ (by decide) _
  unfold slotFilled
  dsimp only
  split
  · exact filled
  · exact filled

theorem slotPlace_bound (s : State) (c : Fin 64) (j : Fin 4096) (off : Nat) (bs : List MByte) :
    (s.slotPlace c j off bs).slotBound j = (slotWritten s c j off bs).slotBound j := by
  have arrived : (slotArrived (slotWritten s c j off bs) j bs.length).fld (.soSlot j 0) SlotF.bound =
      (slotWritten s c j off bs).fld (.soSlot j 0) SlotF.bound := State.fld_congr _ (slotArrived_other _ j _ (by simp))
  rw [State.slotBound, State.slotBound, State.flag, State.flag, ← arrived, slotPlace_eq s c j off bs rfl]
  split
  · rw [slotFilled_bound]
  · rfl

/-- Bytes arrive in a bound slot. -/
theorem slotPlace_settled (h : OnDesk false (Settled a) t) {j : Fin 4096} (bound : t.slotBound j = true) (c : Fin 64) (off : Nat)
    (bs : List MByte) : OnDesk false (Settled a) (t.slotPlace c j off bs) := by
  have visited := slotWritten_visited t c j off bs
  obtain ⟨⟨_, _, others⟩, _⟩ := slotPlace_fills (s := t) (c := c) (j := j) (off := off) (bs := bs) rfl
  refine settled_slot (visited.desk.2 h) j ?_ others fun _ none => ?_
  · rw [slotPlace_eq t c j off bs rfl]
    split
    · unfold slotFilled
      dsimp only
      split <;> rfl
    · rfl
  · rw [slotPlace_bound, State.slotBound, State.flag_congr _ (visited.regs _ rfl)] at none
    rw [State.slotBound] at bound
    rw [bound] at none
    cases none

theorem settled_trans (h : OnDesk false (Settled a) s) (k : OnDesk false (asOf false s) t) : OnDesk false (Settled a) t := by
  unfold OnDesk asOf at k
  unfold OnDesk
  rwa [k]

theorem AMap.exists_of_mem_get {α β : Type} [DecidableEq α] {k : α} {m : AMap α (List β)} {x : β} (h : x ∈ AMap.get [] k m) :
    ∃ e ∈ m, e.1 = k ∧ x ∈ e.2 := by
  induction m with
  | nil => cases h
  | cons e m ih =>
    rw [AMap.get] at h
    split at h
    · next same => exact ⟨e, List.mem_cons_self, same, h⟩
    · obtain ⟨e', there, found⟩ := ih h
      exact ⟨e', List.mem_cons_of_mem _ there, found⟩

theorem slotCheck_bound {s : State} {c : Fin 64} {slot off len : Nat} {j : Fin 4096} (h : s.slotCheck c slot off len = .ok j) :
    s.slotBound j = true := by
  unfold State.slotCheck at h
  split at h
  · cases h
  split at h
  · cases h
  split at h
  · cases h
  · next free _ =>
    cases h
    simpa using free

theorem slotIn_settled (h : OnDesk false (Settled a) t) (lt : Letter) (c : Fin 64) : OnDesk false (Settled a) (t.slotIn lt c).1 := by
  cases check : letterCheck t lt c with
  | error r =>
    have away : deskReg r = false := by
      rcases slotCheck_error check with rfl | rfl <;> rfl
    rw [slotIn_eq t lt c check]
    simp [away, h]
  | ok j =>
    rw [slotIn_eq t lt c check]
    simp [slotPlace_settled h (slotCheck_bound check)]

theorem postIn_settled (h : OnDesk false (Settled a) t) (lt : Letter) {lost : List Reg} (away : ∀ r ∈ lost, deskReg r = false) (held : Bool)
    (place : State → Fin 64 → State × Bool)
    (placed : ∀ t c, OnDesk false (Settled a) t → OnDesk false (Settled a) (place t c).1) :
    OnDesk false (Settled a) (t.postIn lt lost held place) := by
  unfold State.postIn
  split
  · simp [h]
  split
  · exact (State.bumpAll_desk t away).2 h
  split
  · simp [h]
  split
  · simp [h]
  · simp [h]
  · simp [placed _ _ ((State.record_desk t lt).2 h)]

theorem registeredIn_settled (h : OnDesk false (Settled a) t) (lt : Letter) : OnDesk false (Settled a) (t.registeredIn lt) := by
  unfold State.registeredIn
  split
  · simp [h]
  split
  · split
    · simp [h]
    · exact postIn_settled h lt (State.lostCounters_away _) _ _ fun u c k => by simp [k]
  · exact postIn_settled h lt (State.lostCounters_away _) _ _ fun u c k => slotIn_settled k lt c
  · exact h

/-! ### Reservations (R152) -/

/-- A context reserves stables: of those it has, and of those that no context has. -/
theorem settled_reserve (h : OnDesk false (Settled a) t) {c : Fin 64} {set : List (Fin 16)}
    (mine : ∀ x ∈ set, x ∈ t.reserved c ∨ ∀ e ∈ t.ctxStables, x ∉ e.2) :
    OnDesk false (Settled a) { t with ctxStables := AMap.set c set t.ctxStables } := by
  obtain ⟨sound, groups⟩ := settled_iff.1 h
  refine settled_iff.2 ⟨fun k => ⟨(sound k).slots, ?_⟩, groups⟩
  have apart (x) (here : x ∈ t.ctxStables) (other : x.1 ≠ c) (n : Fin 16) (taken : n ∈ set) : n ∉ x.2 := by
    rcases mine n taken with held | free
    · obtain ⟨e, there, key, has⟩ := AMap.exists_of_mem_get held
      exact (sound k).stables e there x here (by rw [key]; exact Ne.symm other) n has
    · exact free x here
  intro x hx y hy differ n inx iny
  rcases AMap.mem_set hx with rfl | hx <;> rcases AMap.mem_set hy with rfl | hy
  · exact differ rfl
  · exact apart y hy (Ne.symm differ) n inx iny
  · exact apart x hx differ n iny inx
  · exact (sound k).stables x hx y hy differ n inx iny

theorem stablesFor_free {s : State} {c : Fin 64} {k : Nat} {x : Fin 16} (gained : x ∈ s.stablesFor c k) (new : x ∉ s.reserved c) :
    ∀ e ∈ s.ctxStables, x ∉ e.2 := by
  have either := (List.mem_filter.1 gained).2
  rcases List.mem_append.1 (by simpa using either) with held | free
  · exact absurd (List.mem_filter.1 held).1 new
  · have free := (List.mem_filter.1 (List.mem_of_mem_take free)).2
    simp only [State.stableFree, Bool.and_eq_true, Bool.not_eq_true', List.any_eq_false, decide_eq_true_eq] at free
    exact free.1.1

theorem reserve_settled (h : OnDesk false (Settled a) t) (c : Fin 64) (x : ImgHeader) : OnDesk false (Settled a) (t.reserve c x) := by
  unfold State.reserve
  extract_lets gained u set v r w
  have cleared : OnDesk false (asOf false t) u := by simp [u]
  have reserved : u.reserved c = t.reserved c := by rw [State.reserved, State.reserved, cleared.stables]
  have kept : OnDesk false (Settled a) v := by
    refine settled_reserve (settled_trans h cleared) fun n taken => ?_
    rcases List.mem_append.1 (of_decide_eq_true (List.mem_filter.1 taken).2) with held | new
    · exact .inl held
    · obtain ⟨found, free⟩ := List.mem_filter.1 new
      rw [cleared.stables]
      exact .inr (stablesFor_free found (by simpa using free))
  have noted : OnDesk false (Settled a) w := (State.setFld_desk v rfl _ _).2 kept
  split
  · exact noted
  · exact ownSlots_settled ((State.setFlds_desk w rfl _).2 noted) ..

/-! ### Registers that return to their reset values (R303, R304) -/

theorem soSlot_reset (j : Fin 4096) (w : Fin 4) : (Reg.soSlot j w).reset = 0 := rfl

theorem ctrl_reset (c : Fin 64) (g : Fin 4) : F.ceGrpCtrl_VALID.get (Reg.ceGrpCtrl c g).reset = 0 := by
  rw [show (Reg.ceGrpCtrl c g).reset = Reg.reset (.ceGrpCtrl 0 0) from rfl]
  decide

theorem resetRegs_rd (rs : List Reg) (s : State) (r : Reg) : (s.resetRegs rs).rd r = if r ∈ rs then r.reset else s.rd r := by
  unfold State.resetRegs
  induction rs generalizing s with
  | nil => rfl
  | cons q rs ih =>
    rw [List.foldl_cons, ih]
    by_cases same : r = q
    · subst same
      simp [State.rd_wr_same]
    · simp [same, State.rd_wr_other]

theorem resetRegs_stables (rs : List Reg) (s : State) : (s.resetRegs rs).ctxStables = s.ctxStables := by
  unfold State.resetRegs
  induction rs generalizing s with
  | nil => rfl
  | cons q rs ih => exact ih _

/-- Registers return to their reset values, no slot's among them, and of a group's table all or none. -/
theorem resetRegs_settled (h : OnDesk false (Settled a) t) {rs : List Reg} (noSlot : ∀ j w, Reg.soSlot j w ∉ rs)
    (whole : ∀ c g r, tableReg c g r → r ∈ rs → Reg.ceGrpCtrl c g ∈ rs) : OnDesk false (Settled a) (t.resetRegs rs) := by
  obtain ⟨sound, groups⟩ := settled_iff.1 h
  have stables : (t.resetRegs rs).ctxStables = t.ctxStables := resetRegs_stables rs t
  refine settled_iff.2 ⟨fun k => ⟨fun j none => ?_, ?_⟩, fun c g on r mine => ?_⟩
  · have word (w : Fin 4) : (t.resetRegs rs).rd (.soSlot j w) = t.rd (.soSlot j w) := by rw [resetRegs_rd, if_neg (noSlot j w)]
    rw [State.slotBound, State.flag_congr _ (word 0)] at none
    rw [State.fld_congr _ (word 0), State.fld_congr _ (word 2)]
    exact (sound k).slots j none
  · rw [stables]
    exact (sound k).stables
  · have kept : Reg.ceGrpCtrl c g ∉ rs := fun there => by
      rw [State.grpValid, State.flag, State.fld, resetRegs_rd, if_pos there, ctrl_reset] at on
      simp at on
    have same {q : Reg} (mine : tableReg c g q) : (t.resetRegs rs).rd q = t.rd q := by
      rw [resetRegs_rd, if_neg fun there => kept (whole c g q mine there)]
    rw [State.grpValid, State.flag_congr _ (same (.inl rfl))] at on
    exact (same mine).trans (groups c g on r mine)

/-! ### A die that goes down (R315, R330) -/

/-- Tables as at reset. -/
theorem settled_of_blank (regs : ∀ r, deskReg r = true → t.rd r = r.reset) (stables : t.ctxStables = []) : OnDesk false (Settled a) t := by
  refine settled_iff.2 ⟨fun _ => ⟨fun j _ => ?_, ?_⟩, fun c g on => ?_⟩
  · rw [State.fld, State.fld, regs _ rfl, regs _ rfl, soSlot_reset, soSlot_reset]
    exact ⟨rfl, rfl⟩
  · rw [stables]
    simp
  · rw [State.grpValid, State.flag, State.fld, regs _ rfl, ctrl_reset] at on
    simp at on

theorem deskReg_die {r : Reg} (mine : deskReg r = true) : r.outlivesDie = false := by
  cases r <;> first | rfl | cases mine

@[simp] theorem dieDown_settled : OnDesk false (Settled a) t.dieDown :=
  settled_of_blank (fun r mine => by rw [dieDown_rd, deskReg_die mine]; rfl) rfl

@[simp] theorem mainRemove_settled : OnDesk false (Settled a) t.mainRemove := by
  have wiped : OnDesk false (Settled a) { t.dieDown with regs := t.dieDown.regs.filter fun e => e.1.outlivesMain } :=
    settled_of_blank (fun r mine => by
      have off : t.dieDown.rd r = r.reset := by rw [dieDown_rd, deskReg_die mine]; rfl
      exact (AMap.get_filter Reg.outlivesMain r.reset r t.dieDown.regs).trans (by split; exacts [off, rfl])) rfl
  unfold State.mainRemove
  refine (State.setFld_desk _ rfl _ _).2 ((State.setFlds_desk _ rfl _).2 ?_)
  exact wiped

@[simp] theorem dieLost_settled : OnDesk false (Settled a) t.dieLost := by simp [State.dieLost]
@[simp] theorem dieClear_settled : OnDesk false (Settled a) t.dieClear := by simp [State.dieClear]
@[simp] theorem outOfService_settled (cause : Nat) : OnDesk false (Settled a) (t.outOfService cause) := by simp [State.outOfService]
@[simp] theorem dieReset_settled (cause engine : Nat) : OnDesk false (Settled a) (t.dieReset cause engine) := by simp [State.dieReset]
@[simp] theorem powerCycle_settled : OnDesk false (Settled a) t.powerCycle := by simp [State.powerCycle]

theorem mainOff_settled (h : OnDesk false (Settled a) t) : OnDesk false (Settled a) t.mainOff := by simp [State.mainOff, h]

theorem tripRead_settled (h : OnDesk false (Settled a) t) (cause : Nat) (read : State → State) :
    OnDesk false (Settled a) (t.tripRead cause read) := by simp [State.tripRead, h]

theorem fenceStall_settled (h : OnDesk false (Settled a) t) (n : Fin 128) : OnDesk false (Settled a) (t.fenceStall n) := by
  unfold State.fenceStall
  split
  · exact h
  split
  · simp [h]
  · simp [h]

/-- The state in which a hang has been charged to an engine: the third in ten minutes fences a stall, or resets the die (R385 to R387). -/
def charged (s : State) (e : Nat) : State :=
  let s := s.attribPush e
  if s.attribCount e < 3 then s
  else if h : e < 128 then s.fenceStall ⟨e, h⟩
  else if s.dieUp then s.dieReset 2 e
  else s

theorem charged_settled (h : OnDesk false (Settled a) t) (e : Nat) : OnDesk false (Settled a) (charged t e) := by
  have pushed := (State.attribPush_desk t e).2 h
  unfold charged
  dsimp only
  split
  · exact pushed
  split
  · exact fenceStall_settled pushed _
  split
  · simp
  · exact pushed

theorem onDesk_of_fst {α : Type} {P : Desk → Prop} {p : State × α} {u : State} {y : α} (split : p = (u, y)) (h : OnDesk false P p.1) :
    OnDesk false P u := by
  rwa [split] at h

theorem load_settled (h : OnDesk false (Settled a) t) (c : Fin 64) (id : ImageId) (b : List Byte) :
    OnDesk false (Settled a) (t.load c id b).1 := by
  have reserved := reserve_settled h c (ImgHeader.of b)
  unfold State.load
  dsimp only
  split
  · simp [h]
  split
  · simp [h]
  · simp [reserved]

theorem run_settled (h : OnDesk false (Settled a) t) (id : Nat) (x : Consign) : OnDesk false (Settled a) (t.run id x) := by
  have read (as : List Nat) (u : State) (k : OnDesk false (Settled a) u) := (State.readCtx_desk u x.ctx as 0x83).2 k
  unfold State.run
  dsimp only
  split
  · split
    · exact h
    · simp [h]
  split
  · exact h
  split
  · next u f done =>
    have kept := onDesk_of_fst done (load_settled (read _ _ (read _ t h)) _ _ _)
    simp [kept]
  · next u done =>
    have kept := onDesk_of_fst done (load_settled (read _ _ (read _ t h)) _ _ _)
    split
    · simp [kept]
    · exact kept

/-! ### Contexts (R302 to R304) -/

theorem quiesce_settled (h : OnDesk false (Settled a) t) (c : Fin 64) : OnDesk false (Settled a) (t.quiesce c) := by
  unfold State.quiesce
  refine settled_foldl (fun u k h => ?_) _ _ (by simp [h])
  dsimp only
  split
  · exact slotUnbind_settled h _
  · exact h

theorem resetBegin_settled (h : OnDesk false (Settled a) t) (c : Fin 64) (st cause engine : Nat) (mask : BitVec 64) :
    OnDesk false (Settled a) (t.resetBegin c st cause engine mask) := by
  unfold State.resetBegin
  dsimp only
  rw [onDesk_mk]
  refine quiesce_settled ?_ c
  simp [h]

theorem ctxReset_settled (h : OnDesk false (Settled a) t) (c : Fin 64) (cause engine : Nat) (mask : BitVec 64) :
    OnDesk false (Settled a) (t.ctxReset c cause engine mask) := by
  unfold State.ctxReset
  split
  · exact resetBegin_settled h ..
  · simp [h]

theorem destroyBegin_settled (h : OnDesk false (Settled a) t) (c : Fin 64) : OnDesk false (Settled a) (t.destroyBegin c) :=
  (State.returnWaiting_desk ..).2 <| (onDesk_foldl (fun u q => by simp) _ _).2 <| (State.setSeal_desk ..).2 <| resetBegin_settled h ..

theorem resetCmd_settled (h : OnDesk false (Settled a) t) (c : Fin 64) : OnDesk false (Settled a) (t.resetCmd c) := by
  unfold State.resetCmd
  split
  · exact ctxReset_settled h ..
  · exact h
  · simp [h]

theorem destroyCmd_settled (h : OnDesk false (Settled a) t) (c : Fin 64) : OnDesk false (Settled a) (t.destroyCmd c) := by
  unfold State.destroyCmd
  split
  · exact destroyBegin_settled h c
  · simp [h]
  · simp [h]

theorem grpRegs_noSlot (c : Fin 64) (j : Fin 4096) (w : Fin 4) : Reg.soSlot j w ∉ grpRegs c := by
  simp [grpRegs]

/-- A group's table stands whole among its context's registers. -/
theorem grpRegs_whole (c' : Fin 64) (c : Fin 64) (g : Fin 4) (r : Reg) (mine : tableReg c g r) (here : r ∈ grpRegs c') :
    Reg.ceGrpCtrl c g ∈ grpRegs c' := by
  rcases mine with rfl | rfl | ⟨k, rfl⟩ <;> simpa [grpRegs, eq_comm] using here

theorem createCmd_settled (h : OnDesk false (Settled a) t) (c : Fin 64) : OnDesk false (Settled a) (t.createCmd c) := by
  have reset : OnDesk false (Settled a) ((t.forget c).resetRegs (ctxRegs c ++ grpRegs c)) :=
    resetRegs_settled ((State.forget_desk t c).2 h)
      (fun j w => by simp [ctxRegs, grpRegs_noSlot])
      fun c' g r mine here => by
        rcases List.mem_append.1 here with own | group
        · rcases mine with rfl | rfl | ⟨k, rfl⟩ <;> simp [ctxRegs] at own
        · exact List.mem_append_right _ (grpRegs_whole c c' g r mine group)
  simp [State.createCmd, h, reset]

theorem ctxCtrlWrite_settled (h : OnDesk false (Settled a) t) (c : Fin 64) (v : BitVec 64) :
    OnDesk false (Settled a) (t.ctxCtrlWrite c v) := by
  have tagged : OnDesk false (Settled a)
      (if t.ctxState c = 0 then t.setFld (.hstCtxCtrl c) F.hstCtxCtrl_JOB_TAG (F.hstCtxCtrl_JOB_TAG.get v) else t) := by simp [h]
  have on {p : Prop} [Decidable p] {f : State → State} (keeps : ∀ u, OnDesk false (Settled a) u → OnDesk false (Settled a) (f u)) (u : State)
      (k : OnDesk false (Settled a) u) : OnDesk false (Settled a) (if p then f u else u) := by
    split
    exacts [keeps u k, k]
  exact on (f := fun u => u.resetCmd c) (fun u k => resetCmd_settled k c) _ <|
    on (f := fun u => u.destroyCmd c) (fun u k => destroyCmd_settled k c) _ <|
    on (f := fun u => u.createCmd c) (fun u k => createCmd_settled k c) _ tagged

theorem stableReset_settled (h : OnDesk false (Settled a) t) (n : Fin 16) (e : Nat) : OnDesk false (Settled a) (t.stableReset n e) := by
  have stopped : OnDesk false (Settled a) (t.noteRetired.yardStop ⟨n.val / 4, by omega⟩ 2) := by simp [h]
  have reset := settled_foldl (f := fun s c => s.ctxReset c 4 e 0) (fun u c k => ctxReset_settled k c 4 e 0) (t.stableCtxs n) _ stopped
  unfold State.stableReset
  dsimp only
  rw [onDesk_mk]
  exact (State.log_desk ..).2 <| (State.setWatch_desk ..).2 <| (State.racesEnd_desk ..).2 <| (onDesk_foldl (fun u m => by simp) _ _).2 <|
    (onDesk_foldl (fun u c => by simp) _ _).2 reset

/-! ### The groups' tables (R264 to R266) -/

theorem groupClear_settled (h : OnDesk false (Settled a) t) (c : Fin 64) (g : Fin 4) (v : BitVec 64) :
    OnDesk false (Settled a) (t.groupClear c g v) := by
  obtain ⟨sound, groups⟩ := settled_iff.1 h
  have frame := groupQuieted_frame t c g v
  have regs (r : Reg) (mine : deskReg r = true) (other : r ≠ .ceGrpCtrl c g) : (t.groupQuieted c g v).rd r = t.rd r :=
    frame.regs r fun k => by rcases k with rfl | rfl; exacts [other rfl, by cases mine]
  have word (j : Fin 4096) (w : Fin 4) := regs (.soSlot j w) rfl (by simp)
  have quieted : OnDesk false (Settled a) (t.groupQuieted c g v) := by
    refine settled_iff.2 ⟨fun k => ⟨fun j none => ?_, ?_⟩, fun c' g' on r mine => ?_⟩
    · rw [State.slotBound, State.flag_congr _ (word j 0)] at none
      rw [State.fld_congr _ (word j 0), State.fld_congr _ (word j 2)]
      exact (sound k).slots j none
    · rw [frame.rest]
      exact (sound k).stables
    · have other : Reg.ceGrpCtrl c' g' ≠ .ceGrpCtrl c g := fun same => by
        cases same
        rw [groupQuieted_invalid] at on
        cases on
      have same {q : Reg} (mine : tableReg c' g' q) : (t.groupQuieted c g v).rd q = t.rd q :=
        regs q (tableReg_desk mine) fun e => by rcases mine with rfl | rfl | ⟨k, rfl⟩ <;> first | exact other e | cases e
      rw [State.grpValid, State.flag_congr _ (same (.inl rfl))] at on
      exact (same mine).trans (groups c' g' on r mine)
  unfold State.groupClear
  split
  · exact h
  · refine (State.pumpPost_desk _).2 ((onDesk_mk ..).2 ((onDesk_foldl (fun u x => by simp) _ _).2 ?_))
    exact quieted

/-- A register of a group that is not valid, but the one that makes it so. -/
theorem invalid_settled (h : OnDesk false (Settled a) t) {c : Fin 64} {g : Fin 4} (off : t.grpValid c g = false) {r : Reg}
    (mine : tableReg c g r) (other : r ≠ .ceGrpCtrl c g) (v : BitVec 64) : OnDesk false (Settled a) (t.regWrite r v) := by
  obtain ⟨sound, groups⟩ := settled_iff.1 h
  have word (j : Fin 4096) (w : Fin 4) : (t.regWrite r v).rd (.soSlot j w) = t.rd (.soSlot j w) :=
    State.rd_wr_other _ _ fun e => by rcases mine with rfl | rfl | ⟨k, rfl⟩ <;> cases e
  have ctrl (c' : Fin 64) (g' : Fin 4) : (t.regWrite r v).rd (.ceGrpCtrl c' g') = t.rd (.ceGrpCtrl c' g') :=
    State.rd_wr_other _ _ fun e => by rcases mine with rfl | rfl | ⟨k, rfl⟩ <;> first | exact other rfl | cases e
  refine settled_iff.2 ⟨fun k => ⟨fun j none => ?_, (sound k).stables⟩, fun c' g' on q here => ?_⟩
  · rw [State.slotBound, State.flag_congr _ (word j 0)] at none
    rw [State.fld_congr _ (word j 0), State.fld_congr _ (word j 2)]
    exact (sound k).slots j none
  · rw [State.grpValid, State.flag_congr _ (ctrl c' g')] at on
    have apart : q ≠ r := fun e => by
      subst e
      have both : c' = c ∧ g' = g := by
        rcases mine with rfl | rfl | ⟨k, rfl⟩ <;> simpa [tableReg, eq_comm] using here
      obtain ⟨rfl, rfl⟩ := both
      rw [State.grpValid, on] at off
      cases off
    rw [State.regWrite, State.rd_wr_other _ _ apart]
    exact groups c' g' on q here

/-- No write of the host's or the operator's changes a slot's words, which are read-only (R8). -/
theorem slotWrite_desk (t : State) (j : Fin 4096) (w : Fin 4) (v : BitVec 64) {P : Desk → Prop} :
    OnDesk false P (t.regWrite (.soSlot j w) v) ↔ OnDesk false P t := by
  refine onDesk_of_eq (desk_congr (fun r _ => ?_) rfl rfl rfl)
  by_cases same : r = .soSlot j w
  · subst same
    rw [State.regWrite, State.rd_wr_same]
    rfl
  · exact State.rd_wr_other _ _ same

theorem stageCmd_settled (h : OnDesk false (Settled a) t) (v : BitVec 64) : OnDesk false (Settled a) (t.stageCmd v) := by
  unfold State.stageCmd
  split
  · simp [h]
  · exact mainOff_settled h
  · simp [h]
  · simp [h]
  · simp [h]
  · simp [h]
  · exact h

theorem invalidTable_settled (h : OnDesk false (Settled a) t) {c : Fin 64} {g : Fin 4} {r : Reg} (mine : tableReg c g r)
    (other : r ≠ .ceGrpCtrl c g) (v : BitVec 64) : OnDesk false (Settled a) (if t.grpValid c g then t else t.regWrite r v) := by
  split
  · exact h
  · next off => exact invalid_settled h (by simpa using off) mine other v

theorem store_settled (h : OnDesk false (Settled a) t) {r : Reg} (other : ∀ c g, r ≠ .ceGrpCtrl c g) (v : BitVec 64) :
    OnDesk false (Settled a) (t.store r v) := by
  have when {p : Prop} [Decidable p] {u : State} (k : OnDesk false (Settled a) u) : OnDesk false (Settled a) (if p then u else t) := by
    split
    exacts [k, h]
  cases r
  case ceGrpCtrl c g => exact absurd rfl (other c g)
  case ceGrpTree c g => exact invalidTable_settled h (.inr (.inl rfl)) (by simp) v
  case ceGrpMember c g k => exact invalidTable_settled h (.inr (.inr ⟨k, rfl⟩)) (by simp) v
  case soSlot j w => exact (slotWrite_desk t j w v).2 h
  case ptrStageCmd => exact stageCmd_settled h v
  case hstCtxCtrl c => exact ctxCtrlWrite_settled h c v
  case ptrStartCtrl => exact (State.startCtrlWrite_desk t v).2 h
  case ptrPlanChip => exact (State.planChipWrite_desk t v).2 h
  case ptrPlanPeer p => exact (State.planPeerWrite_desk t p v).2 h
  case ptrRetiredIdx => exact (State.retiredIdxWrite_desk t v).2 h
  case ptrRetiredData => exact (State.retiredDataWrite_desk t v).2 h
  case ptrBypass => exact (State.bypassWrite_desk t v).2 h
  case ptrEscCtrl => exact (State.escCtrlWrite_desk t v).2 h
  case ptrAonCtrl => exact when ((State.aonClear_desk t).2 h)
  case ceAxisPlan c => exact (State.axisPlanWrite_desk t c v).2 h
  case stlSrSeed c => exact (State.sampledWrite_desk t c rfl v).2 h
  case stlUpdTable c => exact (State.sampledWrite_desk t c rfl v).2 h
  case stlUpdSealed c => exact (State.sampledWrite_desk t c rfl v).2 h
  case hstXlatRoot c => exact (State.xlatRootWrite_desk t c v).2 h
  case hstXlatInval c => exact when ((State.xlatStart_desk t c).2 h)
  case hstCtxPost c => exact when ((State.regWrite_desk t rfl v).2 h)
  case hstCtxSeal c => exact (State.sampledWrite_desk t c rfl v).2 h
  case hstCtxMirror c => exact (State.mirrorWrite_desk t c v).2 h
  case hstCtxSealCmd c => exact (State.sealCmd_desk t c v).2 h
  case hbaScrub k => exact (State.scrubWrite_desk t (some k) v).2 h
  case lftScrub => exact (State.scrubWrite_desk t none v).2 h
  case soPortCtrl p => exact (State.portCtrlWrite_desk t p v).2 h
  case soRtCtrl => exact (State.rtCtrlWrite_desk t v).2 h
  case soRtAxis ver x => exact (State.rtAxisWrite_desk t ver x v).2 h
  case hstQpCtrl q => exact (State.qpCtrlWrite_desk t q v).2 h
  case hstQpSqBase q => exact (State.qpBaseWrite_desk t q rfl v).2 h
  case hstQpCqBase q => exact (State.qpBaseWrite_desk t q rfl v).2 h
  case hstQpAccAddr q => exact (State.qpBaseWrite_desk t q rfl v).2 h
  case hstQpSqTail q => exact (State.sqTailWrite_desk t q _ _).2 h
  case hstQpCqHead q => exact (State.cqHeadWrite_desk t q _).2 h
  case hstQpAbort q => exact (State.abortWrite_desk t q v).2 h
  case clkYardCtrl y => exact (State.yardCtrlWrite_desk t y v).2 h
  case dbgTraceCtrl => exact (State.traceCtrlWrite_desk t v).2 h
  case dbgTraceMark => exact (State.traceMark_desk t _).2 h
  all_goals exact (State.regWrite_desk t rfl v).2 h

/-! ### What a step keeps -/

/-- From `s` to `t` tables in order stay so, and a group that is valid in both has one table in both. -/
structure Ordered (s t : State) : Prop where
  sound : TableSound s → TableSound t
  groups : ∀ c g, s.grpValid c g = true → t.grpValid c g = true → ∀ r, tableReg c g r → t.rd r = s.rd r

theorem ordered_of_settled (h : OnDesk false (Settled (s.desk false)) t) : Ordered s t := by
  obtain ⟨sound, groups⟩ := settled_iff.1 h
  refine ⟨fun k => sound (deskSound_iff.2 k), fun c g _ on r mine => (groups c g on r mine).trans ?_⟩
  simp [State.desk, tableReg_desk mine]

theorem Ordered.after (h : Ordered s t) (k : OnDesk false (asOf false t) u) : Ordered s u := by
  obtain ⟨sound, groups⟩ := h
  have kept := ordered_of_settled (settled_of_asOf k)
  refine ⟨fun x => kept.sound (sound x), fun c g before on r mine => ?_⟩
  have same {q : Reg} (mine : tableReg c g q) : u.rd q = t.rd q := k.rd (tableReg_desk mine)
  rw [State.grpValid, State.flag_congr _ (same (.inl rfl))] at on
  exact (same mine).trans (groups c g before on r mine)

theorem Ordered.before (h : OnDesk false (asOf false s) t) (k : Ordered t u) : Ordered s u := by
  have same {c : Fin 64} {g : Fin 4} {q : Reg} (mine : tableReg c g q) : t.rd q = s.rd q := h.rd (tableReg_desk mine)
  refine ⟨fun x => k.sound ((ordered_of_settled (settled_of_asOf h)).sound x), fun c g before on r mine => ?_⟩
  rw [State.grpValid, ← State.flag_congr _ (same (.inl rfl))] at before
  exact (k.groups c g before on r mine).trans (same mine)

theorem Ordered.refl (s : State) : Ordered s s := ⟨id, fun _ _ _ _ _ _ => rfl⟩

theorem groupSet_ordered (s : State) (c : Fin 64) (g : Fin 4) (v : BitVec 64) : Ordered s (s.groupSet c g v) := by
  unfold State.groupSet
  split
  · exact .refl s
  next new =>
    have off : s.grpValid c g = false := by
      simp only [Bool.or_eq_true, not_or, Bool.not_eq_true] at new
      exact new.1.2
    have word (j : Fin 4096) (w : Fin 4) : (s.regWrite (.ceGrpCtrl c g) (v ||| 1)).rd (.soSlot j w) = s.rd (.soSlot j w) :=
      State.rd_wr_other _ _ (by simp)
    refine ⟨fun k => ⟨fun j none => ?_, k.stables⟩, fun c' g' before _ r mine => State.rd_wr_other _ _ fun e => ?_⟩
    · rw [State.slotBound, State.flag_congr _ (word j 0)] at none
      rw [State.fld_congr _ (word j 0), State.fld_congr _ (word j 2)]
      exact k.slots j none
    · subst e
      have same : c = c' ∧ g = g' := by simpa [tableReg] using mine
      obtain ⟨rfl, rfl⟩ := same
      rw [off] at before
      cases before

theorem store_ordered (s : State) (r : Reg) (v : BitVec 64) : Ordered s (s.store r v) := by
  by_cases ctrl : ∃ c g, r = .ceGrpCtrl c g
  · obtain ⟨c, g, rfl⟩ := ctrl
    show Ordered s (s.grpCtrlWrite c g v)
    unfold State.grpCtrlWrite
    split
    · exact groupSet_ordered s c g v
    · exact ordered_of_settled (groupClear_settled settled_self c g v)
  · exact ordered_of_settled (store_settled settled_self (fun c g e => ctrl ⟨c, g, e⟩) v)

theorem mgmtWrite_ordered (s : State) (addr size : Nat) (v : BitVec 64) : Ordered s (s.mgmtWrite addr size v) := by
  unfold State.mgmtWrite
  split
  · exact Ordered.after (.refl s) (by simp)
  · split
    · exact store_ordered ..
    · exact .refl s
  · exact .refl s

theorem bar0Access_ordered (s : State) (addr size : Nat) (v : Option (BitVec 64)) : Ordered s (s.bar0Access addr size v) := by
  unfold State.bar0Access
  dsimp only
  split
  · exact .refl s
  cases v with
  | some v =>
    dsimp only
    split
    · exact .before (by simp) (mgmtWrite_ordered ..)
    · exact .after (.refl s) (by simp)
  | none => exact .after (.refl s) (by simp)

theorem porterAccess_ordered (s : State) (addr size : Nat) (v : Option (BitVec 64)) : Ordered s (s.porterAccess addr size v) := by
  unfold State.porterAccess
  split
  · exact .refl s
  split
  · cases v with
    | some v => exact mgmtWrite_ordered ..
    | none => exact .after (.refl s) (by simp)
  split
  · exact .refl s
  · cases v <;> exact .after (.refl s) (by simp)

/-! ### The commands -/

/-- Where a command ends, the tables are in order after `s`. -/
structure Orders (s : State) (o : Machine.Out) : Prop where
  ends : ∀ t, o = .next t → Ordered s t

theorem orders_next (h : Ordered s t) : Orders s (.next t) := ⟨fun _ e => by cases e; exact h⟩

theorem orders_of_leaves {o : Machine.Out} (h : LeavesDesk (asOf false s) o) : Orders s o :=
  ⟨fun t e => ordered_of_settled (settled_of_asOf (h t e))⟩

theorem orders_of_settles {o : Machine.Out} (h : LeavesDesk (Settled (s.desk false)) o) : Orders s o :=
  ⟨fun t e => ordered_of_settled (h t e)⟩

theorem onSlot_settled (h : Hdr) (sa : SReg) {f : Fin 4096 → State → Flight → State × Flight}
    (hf : ∀ j t r, OnDesk false (Settled a) t → OnDesk false (Settled a) (f j t r).1) (t : State) (r : Flight)
    (k : OnDesk false (Settled a) t) : OnDesk false (Settled a) (onSlot h sa f t r).1 := by
  unfold onSlot
  split
  · exact k
  · exact hf _ t r k

theorem slotBind_orders (h : Hdr) (sa sb sc sd : SReg) (nctr : CReg) (nen : Bool) (s : State) :
    Orders s (exec (.slotBind h sa sb sc sd nctr nen) s) := by
  rw [exec_slotBind]
  refine orders_of_settles (State.issue_of settled_self h _ _ _ (onSlot_settled h sa fun j t r k => ?_))
  unfold bindEffect
  dsimp only
  split
  · simp [slotUnbind_settled k j]
  · exact bindSlot_settled k ..

theorem slotFree_orders (h : Hdr) (sa : SReg) (s : State) : Orders s (exec (.slotFree h sa) s) := by
  rw [exec_slotFree]
  exact orders_of_settles (State.issue_of settled_self h _ _ _ (onSlot_settled h sa fun j t r k => slotUnbind_settled k j))

theorem run_orders (q : Fin 256) (i : BitVec 16) (s : State) : Orders s (exec (.run q i) s) := by
  refine orders_next (ordered_of_settled ?_)
  split
  · exact settled_self
  split
  · exact settled_self
  next id x _ _ =>
    show OnDesk false (Settled (s.desk false)) (s.scope fun s => (s.run id x, ())).1
    unfold State.scope
    split
    · exact run_settled settled_self id x
    · simp only [↓onDesk_mk]
      exact run_settled ((onDesk_mk ..).2 settled_self) id x

theorem contextResetComplete_orders (c : Fin 64) (s : State) : Orders s (exec (.contextResetComplete c) s) := by
  refine orders_next (ordered_of_settled ?_)
  split
  · exact settled_self
  next x _ =>
    have ended : OnDesk false (Settled (s.desk false)) (s.resetEnd c x) := by simp [settled_self]
    split
    · exact settled_self
    dsimp only
    split
    · exact ended
    split
    · exact destroyBegin_settled (by simp [settled_self]) c
    · simp [settled_self]

theorem ctxCtrl_orders (s : State) (c : Fin 64) (v : BitVec 64) : Ordered s (if s.dieUp then s.ctxCtrlWrite c v else s) := by
  split
  · exact ordered_of_settled (ctxCtrlWrite_settled settled_self c v)
  · exact .refl s

theorem settled_unreserve (h : OnDesk false (Settled a) t) (c : Fin 64) :
    OnDesk false (Settled a) { t with ctxStables := AMap.del c t.ctxStables } := by
  obtain ⟨sound, groups⟩ := settled_iff.1 h
  refine settled_iff.2 ⟨fun k => ⟨(sound k).slots, fun x hx y hy => ?_⟩, groups⟩
  exact (sound k).stables x (List.mem_of_mem_filter hx) y (List.mem_of_mem_filter hy)

theorem destroyComplete_orders (c : Fin 64) (s : State) : Orders s (exec (.destroyComplete c) s) := by
  refine orders_next (ordered_of_settled ?_)
  split
  · exact settled_self
  extract_lets u v w x y
  have freed : OnDesk false (Settled (s.desk false)) u := ownSlots_settled settled_self ..
  have reset : OnDesk false (Settled (s.desk false)) w := by
    refine resetRegs_settled ?_ (fun j k => by simp [grpRegs_noSlot]) fun c' g r mine here => ?_
    · simp [v, freed]
    · rcases List.mem_append.1 here with own | group
      · rcases mine with rfl | rfl | ⟨k, rfl⟩ <;> simp at own
      · exact List.mem_append_right _ (grpRegs_whole c c' g r mine group)
  exact (State.raise_desk ..).2 ((State.wr_desk _ rfl _).2 ((State.setFld_desk _ rfl _ _).2 (settled_unreserve reset c)))

theorem hangDetect_orders (c : Fin 64) (e : Fin 256) (stuck : Hang) (s : State) : Orders s (exec (.hangDetect c e stuck) s) := by
  refine orders_next (ordered_of_settled ?_)
  split
  · exact settled_self
  extract_lets who mask u v set w x
  have started : OnDesk false (Settled (s.desk false)) w := by simp [w, v, u, settled_self]
  have reset : OnDesk false (Settled (s.desk false)) x :=
    settled_foldl (fun t d k => ctxReset_settled (by simp [k]) d _ _ _) _ _ started
  split
  · exact reset
  · exact settled_foldl (fun t _ k => charged_settled k _) _ _ reset

theorem quiesceWatchdogExpiry_orders (c : Fin 64) (e : Fin 256) (s : State) : Orders s (exec (.quiesceWatchdogExpiry c e) s) := by
  refine orders_next (ordered_of_settled ?_)
  split
  · exact settled_self
  split
  · exact settled_self
  split
  · exact charged_settled (charged_settled (by simp [settled_self]) _) _
  · simp

theorem engineResetWatchdogExpiry_orders (e : Fin 256) (yard : Bool) (s : State) :
    Orders s (exec (.engineResetWatchdogExpiry e yard) s) := by
  refine orders_next (ordered_of_settled ?_)
  split
  · exact settled_self
  split
  · dsimp only
    split
    · exact (State.aonAdd_desk ..).2 (settled_foldl (fun u n k => stableReset_settled k n _) _ _ settled_self)
    · exact (State.aonAdd_desk ..).2 (stableReset_settled settled_self ..)
  · simp

theorem regWrite_orders (lt : Letter) (s : State) : Orders s (exec (.regWrite lt) s) := by
  refine orders_next ?_
  dsimp only
  split
  · exact .refl s
  split
  · exact .after (.refl s) (by simp)
  split
  · exact .after (.refl s) (by simp)
  split
  · exact .after (.refl s) (by simp)
  · exact .before (by simp) <|
      .after (mgmtWrite_ordered (s.taken lt) (lt.target.toNat % 2 ^ 48) 8 (BitVec.ofNat 64 (natAt lt.body 0 8))) (by simp)

theorem registerWrite_orders (m : MgmtAddr) (size : Nat) (v : Option (BitVec 64)) (s : State) :
    Orders s (exec (.registerWrite m size v) s) := by
  refine orders_next ?_
  split
  · split
    · exact bar0Access_ordered ..
    · exact .refl s
  · split
    · exact porterAccess_ordered ..
    · exact .refl s
  · split
    · exact porterAccess_ordered ..
    · exact .refl s
  · split
    · exact .refl s
    · cases v <;> exact .after (.refl s) (by simp)

theorem dieReset_orders {s : State} {p : Prop} [Decidable p] (cause engine : Nat) : Orders s (.next (if p then s.dieReset cause engine else s)) := by
  refine orders_next (ordered_of_settled ?_)
  split
  · simp
  · exact settled_self

/-- Of the tables nothing is kept without power. -/
theorem nonVolatile_desk (s : State) {r : Reg} (mine : deskReg r = true) : AMap.get r.reset r s.nonVolatile = r.reset := by
  have other (q : Reg) (away : deskReg q = false) : q ≠ r := fun e => by
    rw [e, mine] at away
    cases away
  simp [State.nonVolatile, AMap.get, other .ptrStallFenceLo rfl, other .ptrStallFenceHi rfl, other .ptrEscStatus rfl,
    other .ptrRetiredIdx rfl]

theorem protectionTrip_orders (cause : Fin 11) (s : State) : Orders s (exec (.protectionTrip cause) s) := by
  show Orders s (if cause = 0 then .fault (.illFormed "PROTECTION_TRIP") else .next (if s.aux then s.trip cause.val else s))
  split
  · exact ⟨fun _ e => by cases e⟩
  · refine orders_next (ordered_of_settled ?_)
    split
    · exact tripRead_settled settled_self ..
    · exact settled_self

theorem extraction_orders (missed : Bool) (s : State) : Orders s (exec (.extraction missed) s) := by
  refine orders_next (ordered_of_settled ?_)
  split
  · exact settled_self
  · exact (onDesk_mk ..).2 (tripRead_settled settled_self ..)

theorem powerControlEval_orders (m : PowerSample) (s : State) : Orders s (exec (.powerControlEval m) s) := by
  refine orders_next (ordered_of_settled ?_)
  split
  · exact settled_self
  extract_lets u v e floor w x
  have shown : OnDesk false (Settled (s.desk false)) u := by simp [u, settled_self]
  have tripped : OnDesk false (Settled (s.desk false)) v := by
    simp only [v]
    split
    · exact tripRead_settled shown ..
    · exact shown
  simp [x, w, tripped]

theorem exec_orders (i : Instr) (s : State) : Orders s (exec i s) := by
  cases i
  case slotBind => exact slotBind_orders ..
  case slotFree => exact slotFree_orders ..
  case run => exact run_orders ..
  case contextResetComplete => exact contextResetComplete_orders ..
  case create => exact orders_next (ctxCtrl_orders ..)
  case destroy => exact orders_next (ctxCtrl_orders ..)
  case reset => exact orders_next (ctxCtrl_orders ..)
  case destroyComplete => exact destroyComplete_orders ..
  case hangDetect => exact hangDetect_orders ..
  case quiesceWatchdogExpiry => exact quiesceWatchdogExpiry_orders ..
  case engineResetWatchdogExpiry => exact engineResetWatchdogExpiry_orders ..
  case regWrite => exact regWrite_orders ..
  case registerWrite => exact registerWrite_orders ..
  case operatorDieReset => exact dieReset_orders ..
  case pcieHotReset => exact dieReset_orders ..
  case perstAssert => exact dieReset_orders ..
  case dieResetWatchdogExpiry =>
    refine orders_next (ordered_of_settled ?_)
    split
    · simp
    · exact settled_self
  case powerCycleWatchdogExpiry =>
    refine orders_next (ordered_of_settled ?_)
    split
    · exact settled_self
    · simp
  case stableResetWatchdogExpiry =>
    refine orders_next (ordered_of_settled ?_)
    split
    · split
      · simp
      · exact settled_self
    · exact settled_self
  case auxLoss =>
    refine orders_next (ordered_of_settled ?_)
    split
    · exact settled_self
    · exact settled_of_blank (fun r mine => nonVolatile_desk s mine) rfl
  case powerGoodTimeout =>
    refine orders_next (ordered_of_settled ?_)
    split
    · simp
    · exact settled_self
  case mainOff =>
    refine orders_next (ordered_of_settled ?_)
    split
    · exact mainOff_settled settled_self
    · exact settled_self
  case protectionTrip => exact protectionTrip_orders ..
  case extraction => exact extraction_orders ..
  case powerControlEval => exact powerControlEval_orders ..
  case registeredLetterReceive lt =>
    refine orders_next (ordered_of_settled ?_)
    split
    · exact registeredIn_settled (by simp [settled_self]) lt
    · exact settled_self
  case groupValidSet =>
    refine orders_next ?_
    split
    · exact groupSet_ordered ..
    · exact .refl s
  case groupValidClear =>
    refine orders_next (ordered_of_settled ?_)
    split
    · exact groupClear_settled settled_self ..
    · exact settled_self
  all_goals exact orders_of_leaves (by simp [exec])

/-- Settles O6: whatever a step changes of the tables it changes as one of their own operations does: a slot is emptied where it is
unbound, a stable is given to one context, and a valid group's table is written by nothing. -/
theorem stepKeepsTables : Obligations.StepKeepsTables := by
  have steps (s t : State) (next : step s = .next t) : Ordered s t := by
    unfold step at next
    split at next
    · cases next
      exact .after (.refl s) (by simp)
    · next c cs _ => exact .before (t := { s with pending := cs }) (by simp) ((exec_orders c _).ends t next)
  refine ⟨fun s t sound next => (steps s t next).sound sound, fun s t c g next before on => ?_⟩
  have table := (steps s t next).groups c g before on
  exact ⟨table _ (.inl rfl), table _ (.inr (.inl rfl)), fun r => table _ (.inr (.inr ⟨r, rfl⟩))⟩

end Sys2Proof
end

section
/-!
PROOFS of the family 05_instruction_set: consignments start and end, and the copies of the host DMA engine (R309 to R314; log entries 45,
104 and 110).
-/
namespace Sys2Proof

open Machine

/-! ### What an access leaves alone -/

theorem Visited.hostOut {W : Nat → Prop} {s t : State} (h : Visited W s t) : t.hostOut = s.hostOut := by rw [h.rest]

theorem Visited.linkRx {W : Nat → Prop} {s t : State} (h : Visited W s t) : t.linkRx = s.linkRx := by rw [h.rest]

theorem Visited.stalls {W : Nat → Prop} {s t : State} (h : Visited W s t) : t.stalls = s.stalls := by rw [h.rest]

/-! ### A consignment becomes final -/

theorem finalise_eq (s : State) (id : Nat) (c : Consign) : s.finalise id c =
    { s with consigns := (s.finalise id c).consigns, aonDie := (s.finalise id c).aonDie } := by
  unfold State.finalise
  dsimp only
  split
  · rw [aonAdd_eq (State.aonAdd _ _ _), aonAdd_eq (State.setConsign _ _ _)]
    rfl
  · rw [aonAdd_eq (State.setConsign _ _ _)]
    rfl

theorem finalise_stalls (s : State) (id : Nat) (c : Consign) : (s.finalise id c).stalls = s.stalls := by rw [finalise_eq]

theorem consignAt_finalise (s : State) (id : Nat) (c : Consign) : consignAt (s.finalise id c) id =
    some { c with phase := .final, frankEnd := c.retiredAt.getD s.frankNs } := by
  rw [consignAt_congr (finalise_consigns ..), consignAt_setConsign]

theorem readyIfNone_stalls (s : State) (c : Fin 64) : (s.readyIfNone c).stalls = s.stalls := by
  unfold State.readyIfNone
  dsimp only
  split
  · rfl
  split
  · rw [State.latchReady_stalls, (readCtx_looks ..).stalls]
  · exact (readCtx_looks ..).stalls

theorem readyIfNone_jobs (s : State) (c : Fin 64) : OnDesk true (asOf true s) (s.readyIfNone c) := by simp

theorem readyIfNone_written {s : State} {c : Fin 64} (h : s.mineWritten c = true) : s.readyIfNone c = s := if_pos h

/-- A consignment that becomes final, with what follows of it for its context's header (R391), has ended as it says. -/
theorem final_ended (s : State) (id : Nat) (c : Consign) (ctx : Fin 64) :
    Ended ((s.finalise id c).readyIfNone ctx) id c.status c.detail :=
  ⟨_, (consignAt_congr (readyIfNone_jobs ..).consigns id).trans (consignAt_finalise ..), rfl, rfl, rfl⟩

theorem final_stalls (s : State) (id : Nat) (c : Consign) (ctx : Fin 64) :
    ((s.finalise id c).readyIfNone ctx).stalls = s.stalls := (readyIfNone_stalls ..).trans (finalise_stalls ..)

theorem final_dma (s : State) (id : Nat) (c : Consign) (ctx : Fin 64) : ((s.finalise id c).readyIfNone ctx).dma = s.dma :=
  (readyIfNone_jobs ..).dma.trans (by rw [finalise_eq])

/-! ### Who may start -/

section
variable {s : State} {q : Fin 256} {i : BitVec 16} {id : Nat} {c : Consign} (found : s.findConsign q i = some (id, c))
include found

theorem exec_nop : exec (.nopConsignment q i) s =
    .next (if c.opcode = 0 && s.mayStartConsign id c then (s.finalise id c).readyIfNone c.ctx else s) := by
  show Host.Outcome.next _ = _
  rw [found]

theorem exec_copyIn (data : List MByte) : exec (.copyIn q i data) s =
    .next (if c.opcode = 2 && s.mayStartConsign id c then s.dmaStart id c data else s) := by
  show Host.Outcome.next _ = _
  rw [found]

theorem exec_copyOut : exec (.copyOut q i) s =
    .next (if c.opcode = 3 && s.mayStartConsign id c then s.dmaStart id c [] else s) := by
  show Host.Outcome.next _ = _
  rw [found]

theorem exec_runConsign : exec (.run q i) s =
    .next (if c.opcode ≠ 1 || !s.mayStartConsign id c then s else s.scoped fun s => s.run id c) := by
  show Host.Outcome.next _ = _
  rw [found]

/-- One that may not start stays. -/
theorem consign_waits (data : List MByte) (waits : s.mayStartConsign id c = false) : exec (.nopConsignment q i) s = .next s ∧
    exec (.copyIn q i data) s = .next s ∧ exec (.copyOut q i) s = .next s ∧ exec (.run q i) s = .next s := by
  rw [exec_nop found, exec_copyIn found, exec_copyOut found, exec_runConsign found]
  simp [waits]

/-- A NOP ends at once (R309). -/
theorem nop_ends (may : s.mayStartConsign id c = true) (nop : c.opcode = 0) : Leaves (exec (.nopConsignment q i) s) fun t =>
    Ended t id c.status c.detail ∧ t.stalls = s.stalls :=
  ⟨_, (exec_nop found).trans (congrArg Host.Outcome.next (if_pos (by simp [may, nop]))), final_ended .., final_stalls ..⟩

end

/-! ### Bytes that a copy moves -/

/-- The trace spills to no more addresses than it did. -/
theorem Visited.noRing {W : Nat → Prop} {s t : State} (h : Visited W s t) (ring : NoRing s) : NoRing t := fun a inside =>
  ring a (h.ring inside)

/-- A write stores its bytes, each at its address, where no write is under way. -/
theorem writeMem_written {s : State} (ring : NoRing s) (sound : Sound s) (still : Still s) {ws : List (Nat × MByte)}
    (distinct : (ws.map (·.1)).Nodup) {w : Nat × MByte} (mine : w ∈ ws) (there : backed w.1 = true) :
    Memory.read (s.writeMem ws).mem w.1 = w.2.1 := by
  obtain ⟨t, access, -, -, -, mem⟩ := writeMem_stores s ws
  rw [mem, access.mem (noRing_off ring), racesKeep_still (writeReady_racing still _)]
  exact read_written (distinct.sublist (List.filter_sublist.map _)) sound (List.mem_filter.mpr ⟨mine, there⟩)

/-- What the DMA engine finds of a byte that it reads where no error stands. -/
theorem peek_clean {s : State} (clean : Clean s) {a : Nat} (there : backed a = true) : s.peek a = (Memory.read s.mem a, false) := by
  obtain ⟨-, -, poison, still⟩ := clean
  rw [peek_still still, State.held, poison]
  simp [there]

namespace Machine.DmaCopy

/-- The bytes of a copy that its moving up to the first `n` moves. -/
def part (d : DmaCopy) (n : Nat) : List (Option Nat × MByte) := (d.bytes.take n).drop d.done

theorem mem_part {d : DmaCopy} {n : Nat} {x : Option Nat × MByte} :
    x ∈ d.part n ↔ ∃ k, d.done ≤ k ∧ k < n ∧ d.bytes[k]? = some x := by
  rw [part, List.mem_iff_getElem?]
  constructor
  · rintro ⟨j, hj⟩
    rw [List.getElem?_drop, List.getElem?_take] at hj
    split at hj
    · exact ⟨d.done + j, Nat.le_add_right .., ‹_›, hj⟩
    · cases hj
  · rintro ⟨k, low, high, at'⟩
    refine ⟨k - d.done, ?_⟩
    rw [List.getElem?_drop, List.getElem?_take, Nat.add_sub_cancel' low, if_pos high, at']

/-- What a copy from the host stores: the bytes of pages that were granted. -/
def stores (d : DmaCopy) (n : Nat) : List (Nat × MByte) := (d.part n).filterMap fun b => b.1.map fun a => (a, b.2)

theorem mem_stores {d : DmaCopy} {n a : Nat} {x : MByte} : (a, x) ∈ d.stores n ↔ (some a, x) ∈ d.part n := by
  rw [stores, List.mem_filterMap]
  constructor
  · rintro ⟨⟨p, y⟩, mem, at'⟩
    obtain ⟨b, rfl, same⟩ := Option.map_eq_some_iff.mp at'
    obtain ⟨rfl, rfl⟩ := Prod.mk.inj same
    exact mem
  · exact fun mem => ⟨_, mem, rfl⟩

theorem stores_nodup {d : DmaCopy} (n : Nat) (distinct : (d.bytes.map Prod.fst).Nodup) : ((d.stores n).map (·.1)).Nodup := by
  have some_only : (d.stores n).map (·.1) = ((d.part n).map Prod.fst).filterMap (fun p => p) := by
    rw [stores, List.map_filterMap, List.filterMap_map]
    congr 1
    funext b
    simp [Option.map_map, Function.comp_def]
  rw [some_only]
  refine List.Nodup.filterMap (fun a b x ha hb => ha.trans hb.symm) (distinct.sublist ?_)
  exact ((List.drop_sublist _ _).trans (List.take_sublist _ _)).map _

end Machine.DmaCopy

theorem dmaMove_copy (s : State) (d : DmaCopy) (n : Nat) : (s.dmaMove d n).2 = { d with done := max d.done n } := by
  unfold State.dmaMove
  dsimp only
  split
  · rfl
  · split <;> rfl

theorem dmaMove_in {d : DmaCopy} (into : d.out = false) (s : State) (n : Nat) : (s.dmaMove d n).1 =
    if d.part n = [] then s else (s.hostData ((d.part n).map (·.2))).writeMem (d.stores n) := by
  unfold State.dmaMove
  simp only [into, List.isEmpty_iff, Bool.false_eq_true, if_false, DmaCopy.part, DmaCopy.stores, apply_ite Prod.fst]
  rfl

theorem dmaMove_out {d : DmaCopy} (out : d.out = true) (s : State) (n : Nat) : (s.dmaMove d n).1 =
    if d.part n = [] then s
    else (s.readMem ((d.part n).filterMap (·.1))).1.hostWrite (d.host + d.done)
      ((d.part n).map fun b => match b.1 with | some a => (s.readMem ((d.part n).filterMap (·.1))).1.peek a | none => (0, false)) true := by
  unfold State.dmaMove
  simp only [out, List.isEmpty_iff, if_true, DmaCopy.part, apply_ite Prod.fst]
  rfl

/-- A copy from the host moves bytes: they are counted, and stored at their addresses, and no other byte changes. -/
structure MovedIn (s t : State) (d : DmaCopy) (n : Nat) : Prop where
  stalls : t.stalls = s.stalls
  hostOut : t.hostOut = s.hostOut
  linkRx : t.linkRx = s.linkRx + (d.part n).length
  regs : ∀ r, visitReg r = false → t.rd r = s.rd r
  mem : NoRing s → ∀ a, (∀ x ∈ d.stores n, x.1 ≠ a) → Memory.read t.mem a = Memory.read s.mem a
  bytes : NoRing s → Sound s → Still s → (d.bytes.map Prod.fst).Nodup → ∀ x ∈ d.stores n, backed x.1 = true →
    Memory.read t.mem x.1 = x.2.1

theorem dmaMove_movedIn {d : DmaCopy} (into : d.out = false) (s : State) (n : Nat) : MovedIn s (s.dmaMove d n).1 d n := by
  rw [dmaMove_in into]
  split
  · next none =>
    have nothing : d.stores n = [] := by rw [DmaCopy.stores, none]; rfl
    exact ⟨rfl, rfl, by rw [none]; rfl, fun _ _ => rfl, fun _ _ _ => rfl, fun _ _ _ _ x hx => by rw [nothing] at hx; cases hx⟩
  · have visit := writeMem_visited (s.hostData ((d.part n).map (·.2))) (W := fun a => ∃ x ∈ d.stores n, x.1 = a) (ws := d.stores n)
      fun w hw => ⟨w, hw, rfl⟩
    have written := fun ring sound still (distinct : ((d.stores n).map (·.1)).Nodup) (w : Nat × MByte) =>
      writeMem_written (s := s.hostData ((d.part n).map (·.2))) ring sound still distinct (w := w)
    rw [hostData_eq] at visit written ⊢
    refine ⟨visit.stalls, visit.hostOut, visit.linkRx.trans (by simp), fun r hr => visit.regs r hr, fun ring a apart => ?_,
      fun ring sound still distinct x hx there => written ring sound still (DmaCopy.stores_nodup n distinct) x hx there⟩
    exact visit.mem a (ring a) fun ⟨x, hx, same⟩ => apart x hx same

/-- A write to the host's memory is cut into transfers (R297; log entry 110). -/
def hostWrites (a : Nat) (bs : List MByte) : List HostMsg :=
  (spans 512 a bs.length).map fun p => HostMsg.write (a + p.1) ((bs.drop p.1).take p.2) true

theorem hostWrite_eq (s : State) (a : Nat) (bs : List MByte) : s.hostWrite a bs true =
    { s with hostOut := s.hostOut ++ hostWrites a bs, linkTx := s.linkTx + bs.length, aonDie := (s.hostWrite a bs true).aonDie } := by
  unfold State.hostWrite State.hostSent
  rw [aonAdd_eq]
  rfl

/-- A copy to the host moves bytes: they leave in its writes, and memory stays. -/
structure MovedOut (s t : State) (d : DmaCopy) (n : Nat) : Prop where
  stalls : t.stalls = s.stalls
  mem : NoRing s → t.mem = s.mem
  nothing : d.part n = [] → t.hostOut = s.hostOut
  writes : d.part n ≠ [] → ∃ bs : List MByte, bs.length = (d.part n).length ∧ t.hostOut = s.hostOut ++ hostWrites (d.host + d.done) bs ∧
    (NoRing s → Clean s → ∀ k a x, (d.part n)[k]? = some (some a, x) → backed a = true →
      bs.getD k (0, true) = (Memory.read s.mem a, false))

theorem dmaMove_movedOut {d : DmaCopy} (out : d.out = true) (s : State) (n : Nat) : MovedOut s (s.dmaMove d n).1 d n := by
  rw [dmaMove_out out]
  split
  · next none => exact ⟨rfl, fun _ => rfl, fun _ => rfl, fun some => absurd none some⟩
  · next some =>
    have look := readMem_looks s ((d.part n).filterMap (·.1))
    generalize (s.readMem ((d.part n).filterMap (·.1))).1 = t at look ⊢
    rw [hostWrite_eq]
    refine ⟨look.stalls, fun ring => look.kept (noRing_off ring), fun none => absurd none some, fun _ => ⟨_, List.length_map _,
      congrArg (· ++ _) look.hostOut, fun ring clean k a x at' there => ?_⟩⟩
    rw [List.getD_eq_getElem?_getD, List.getElem?_map, at', ← look.kept (noRing_off ring)]
    exact peek_clean (look.clean clean) there

/-! ### A copy goes on to a boundary -/

/-- How far a copy goes on, by Config. -/
def dmaTo (s : State) (d : DmaCopy) : Nat :=
  d.upTo ((d.start % 64 + d.done) / 64 + Config.dmaUnits s.raceNo % (d.units - (d.start % 64 + d.done) / 64 + 1))

/-- The consignment of a copy that has written its last byte notes when. -/
def noteMoved (id : Nat) (d : DmaCopy) (now : BitVec 64) (e : Nat × Consign) : Nat × Consign :=
  if e.1 = id && d.moved && e.2.retiredAt.isNone then (e.1, { e.2 with retiredAt := some now }) else e

theorem noteMoved_key (id : Nat) (d : DmaCopy) (now : BitVec 64) (e : Nat × Consign) : (noteMoved id d now e).1 = e.1 := by
  unfold noteMoved
  split <;> rfl

theorem noteMoved_phase (id : Nat) (d : DmaCopy) (now : BitVec 64) (e : Nat × Consign) : (noteMoved id d now e).2.phase = e.2.phase := by
  unfold noteMoved
  split <;> rfl

/-- The state in which a copy moves on: Config has been asked once more. -/
def dmaAsked (s : State) : State := { s with raceNo := s.raceNo + 1 }

/-- The state in which a copy that has moved its first bytes has joined those of the DMA engine. -/
def joined (t : State) (id : Nat) (d : DmaCopy) : State :=
  { t with consigns := t.consigns.map (noteMoved id d t.frankNs), dma := t.dma ++ [d] }

section
variable (t : State) (id : Nat) (d : DmaCopy)
@[simp] theorem joined_stalls : (joined t id d).stalls = t.stalls := rfl
@[simp] theorem joined_dma : (joined t id d).dma = t.dma ++ [d] := rfl
@[simp] theorem joined_consigns : (joined t id d).consigns = t.consigns.map (noteMoved id d t.frankNs) := rfl
@[simp] theorem joined_hostOut : (joined t id d).hostOut = t.hostOut := rfl
@[simp] theorem joined_linkRx : (joined t id d).linkRx = t.linkRx := rfl
@[simp] theorem joined_mem : (joined t id d).mem = t.mem := rfl
end

theorem dmaSome_joins (s : State) (d : DmaCopy) :
    { (s.dmaSome d).1 with dma := (s.dmaSome d).1.dma ++ [(s.dmaSome d).2] } =
      joined ((dmaAsked s).dmaMove d (dmaTo s d)).1 d.id (s.dmaSome d).2 := rfl

theorem dmaSome_copy (s : State) (d : DmaCopy) : (s.dmaSome d).2 = { d with done := max d.done (dmaTo s d) } := dmaMove_copy ..

/-- Consignments whose records have changed, but for their numbers. -/
theorem consignAt_map {s t : State} {f : Nat × Consign → Nat × Consign} (changed : t.consigns = s.consigns.map f)
    (key : ∀ e, (f e).1 = e.1) {id : Nat} {c : Consign} (at' : consignAt s id = some c) : consignAt t id = some (f (id, c)).2 := by
  rw [consignAt, changed, List.find?_map, show ((fun e : Nat × Consign => decide (e.1 = id)) ∘ f) = fun e => decide (e.1 = id) from
    funext fun e => by simp [key], consignAt_eq at']
  rfl

/-- A copy goes as far as one of its boundaries, or to its end. -/
theorem dmaTo_boundary (s : State) (d : DmaCopy) : dmaTo s d ≤ d.bytes.length ∧
    (dmaTo s d = 0 ∨ dmaTo s d = d.bytes.length ∨ (d.start + dmaTo s d) % 64 = 0) := by
  unfold dmaTo DmaCopy.upTo
  generalize (d.start % 64 + d.done) / 64 + _ = k
  omega

/-! ### A copy starts -/

/-- The copy of a consignment as it joins the DMA engine. -/
def newCopy (id : Nat) (c : Consign) (ps : List (Option Nat)) (data : List MByte) : DmaCopy :=
  { id := id, out := c.opcode = 3, host := c.addrA, start := c.addrB, bytes := ps.zipIdx.map fun (p, k) => (p, data.getD k (0, false)) }

theorem newCopy_places (id : Nat) (c : Consign) (ps : List (Option Nat)) (data : List MByte) :
    (newCopy id c ps data).bytes.map Prod.fst = ps := by
  rw [newCopy, List.map_map]
  exact List.zipIdx_map_fst 0 ps

theorem newCopy_length (id : Nat) (c : Consign) (ps : List (Option Nat)) (data : List MByte) :
    (newCopy id c ps data).bytes.length = ps.length := by simp [newCopy]

theorem newCopy_byte (id : Nat) (c : Consign) (ps : List (Option Nat)) (data : List MByte) (k : Nat) :
    (newCopy id c ps data).bytes[k]? = ps[k]?.map fun p => (p, data.getD k (0, false)) := by
  simp [newCopy, List.getElem?_zipIdx, Option.map_map, Function.comp_def]

/-- The state in which a copy's pages have been translated. -/
def copyGranted (s : State) (id : Nat) (c : Consign) : State × List (Option Nat) :=
  (s.setConsign id { c with phase := .started, startedAt := s.stampNow }).xlatAll c.ctx c.range (c.opcode ≠ 3) false 0x84

/-- The state in which a copy moves its first bytes. -/
def copyAsked (s : State) (id : Nat) (c : Consign) : State :=
  if c.opcode = 3 then (copyGranted s id c).1 else (copyGranted s id c).1.hostRead c.addrA c.length

theorem dmaStart_eq (s : State) (id : Nat) (c : Consign) (data : List MByte) : s.dmaStart id c data =
    let p := (copyAsked s id c).dmaSome (newCopy id c (copyGranted s id c).2 data)
    { p.1 with dma := p.1.dma ++ [p.2] } := by
  unfold State.dmaStart copyAsked copyGranted newCopy
  simp only [decide_not]

/-- A copy that has been accepted by the DMA engine, and has moved nothing yet. -/
structure CopyAsked (s t : State) (id : Nat) (c : Consign) : Prop where
  stalls : t.stalls = s.stalls
  dma : t.dma = s.dma
  consign : ∃ x, consignAt t id = some x ∧ x.phase = .started
  hostOut : t.hostOut = s.hostOut ++
    if c.opcode = 3 then [] else (spans 4096 c.addrA c.length).map fun p => HostMsg.read (c.addrA + p.1) p.2
  linkRx : t.linkRx = s.linkRx
  ring : NoRing s → NoRing t
  mem : NoRing s → t.mem = s.mem
  still : Still s → Still t
  clean : Clean s → Clean t

theorem copyAsked_asked (s : State) (id : Nat) (c : Consign) : CopyAsked s (copyAsked s id c) id c := by
  have look := xlatAll_looks (s.setConsign id { c with phase := .started, startedAt := s.stampNow }) c.ctx c.range (c.opcode ≠ 3) false 0x84
  have jobs : OnDesk true (asOf true (s.setConsign id { c with phase := .started, startedAt := s.stampNow })) (copyGranted s id c).1 :=
    (State.xlatAll_desk ..).mpr onDesk_self
  have granted : CopyAsked s (copyGranted s id c).1 id { c with opcode := 3 } :=
    ⟨look.stalls, jobs.dma, ⟨_, (consignAt_congr jobs.consigns id).trans (consignAt_setConsign ..), rfl⟩,
      look.hostOut.trans (List.append_nil _).symm, look.linkRx, look.noRing, fun ring => look.kept (noRing_off ring), look.still, look.clean⟩
  unfold copyAsked
  split
  · next out => exact { granted with hostOut := by rw [granted.hostOut, if_pos out, if_pos rfl] }
  · next into =>
    exact { granted with hostOut := by rw [State.hostRead, granted.hostOut, if_pos rfl, if_neg into, List.append_nil] }

/-- A copy that has started: where its bytes go, how far it is, and what it leaves alone. -/
structure CopyStarted (s t : State) (id : Nat) (c : Consign) (d : DmaCopy) : Prop where
  stalls : t.stalls = s.stalls
  dma : t.dma = s.dma ++ [d]
  consign : ∃ x, consignAt t id = some x ∧ x.phase = .started
  short : d.done ≤ d.bytes.length
  boundary : d.done = 0 ∨ d.done = d.bytes.length ∨ (c.addrB + d.done) % 64 = 0

section
variable (s : State) (id : Nat) (c : Consign) (data : List MByte)

/-- The copy as it stands after its first bytes. -/
def startedCopy : DmaCopy := ((copyAsked s id c).dmaSome (newCopy id c (copyGranted s id c).2 data)).2

theorem startedCopy_eq : startedCopy s id c data = { newCopy id c (copyGranted s id c).2 data with
    done := dmaTo (copyAsked s id c) (newCopy id c (copyGranted s id c).2 data) } := by
  rw [startedCopy, dmaSome_copy]
  exact congrArg _ (Nat.zero_max _)

/-- The state in which its first bytes have been moved. -/
def copyMoved : State :=
  ((dmaAsked (copyAsked s id c)).dmaMove (newCopy id c (copyGranted s id c).2 data) (startedCopy s id c data).done).1

theorem dmaStart_moved : s.dmaStart id c data = joined (copyMoved s id c data) id (startedCopy s id c data) := by
  have goes : (startedCopy s id c data).done = dmaTo (copyAsked s id c) (newCopy id c (copyGranted s id c).2 data) := by
    rw [startedCopy_eq]
  rw [dmaStart_eq, copyMoved, goes]
  exact dmaSome_joins ..

theorem dmaStart_started (stalls : (copyMoved s id c data).stalls = (copyAsked s id c).stalls) :
    CopyStarted s (s.dmaStart id c data) id c (startedCopy s id c data) := by
  have asked := copyAsked_asked s id c
  have jobs : OnDesk true (asOf true (dmaAsked (copyAsked s id c))) (copyMoved s id c data) :=
    (State.dmaMove_desk ..).mpr onDesk_self
  obtain ⟨x, at', phase⟩ := asked.consign
  have boundary := dmaTo_boundary (copyAsked s id c) (newCopy id c (copyGranted s id c).2 data)
  have joins := dmaStart_moved s id c data
  generalize s.dmaStart id c data = u at joins ⊢
  refine ⟨?_, ?_, ⟨_, ?_, (noteMoved_phase id (startedCopy s id c data) (copyMoved s id c data).frankNs (id, x)).trans phase⟩, ?_, ?_⟩
  · rw [joins, joined_stalls]
    exact stalls.trans asked.stalls
  · rw [joins, joined_dma, jobs.dma]
    exact congrArg (· ++ _) asked.dma
  · exact consignAt_map (s := copyMoved s id c data) (by rw [joins, joined_consigns]) (noteMoved_key _ _ _)
      ((consignAt_congr jobs.consigns id).trans at')
  · rw [startedCopy_eq]
    exact boundary.1
  · rw [startedCopy_eq]
    exact boundary.2

end

section
variable {s : State} {id : Nat} {c : Consign} (data : List MByte)

theorem startedCopy_part : (newCopy id c (copyGranted s id c).2 data).part (startedCopy s id c data).done =
    (newCopy id c (copyGranted s id c).2 data).bytes.take (startedCopy s id c data).done := rfl

theorem startedCopy_part_length : ((newCopy id c (copyGranted s id c).2 data).part (startedCopy s id c data).done).length =
    (startedCopy s id c data).done := by
  rw [startedCopy_part, List.length_take, startedCopy_eq]
  exact Nat.min_eq_left (dmaTo_boundary _ _).1

theorem startedCopy_getElem? {k : Nat} (low : k < (startedCopy s id c data).done) :
    ((newCopy id c (copyGranted s id c).2 data).part (startedCopy s id c data).done)[k]? =
      (copyGranted s id c).2[k]?.map fun p => (p, data.getD k (0, false)) := by
  rw [startedCopy_part, List.getElem?_take_of_lt low, newCopy_byte]

/-- A copy from the host has started. -/
theorem copyIn_starts (into : c.opcode ≠ 3) :
    CopyStarted s (s.dmaStart id c data) id c (startedCopy s id c data) ∧
    (s.dmaStart id c data).hostOut = s.hostOut ++ (spans 4096 c.addrA c.length).map (fun p => HostMsg.read (c.addrA + p.1) p.2) ∧
    (s.dmaStart id c data).linkRx = s.linkRx + (startedCopy s id c data).done ∧
    (NoRing s → ∀ a, (∀ k, k < (startedCopy s id c data).done → (copyGranted s id c).2[k]? ≠ some (some a)) →
      Memory.read (s.dmaStart id c data).mem a = Memory.read s.mem a) ∧
    (NoRing s → Sound s → Still s → (copyGranted s id c).2.Nodup → ∀ k a, k < (startedCopy s id c data).done →
      (copyGranted s id c).2[k]? = some (some a) → backed a = true →
      Memory.read (s.dmaStart id c data).mem a = (data.getD k (0, false)).1) := by
  have asked := copyAsked_asked s id c
  have moved := dmaMove_movedIn (d := newCopy id c (copyGranted s id c).2 data) (decide_eq_false into)
    (dmaAsked (copyAsked s id c)) (startedCopy s id c data).done
  refine ⟨dmaStart_started s id c data moved.stalls, ?_⟩
  simp only [dmaStart_moved, joined_hostOut, joined_linkRx, joined_mem]
  refine ⟨moved.hostOut.trans (asked.hostOut.trans (by rw [if_neg into])), moved.linkRx.trans ?_, fun ring a apart => ?_,
    fun ring sound still distinct k a low at' there => ?_⟩
  · rw [startedCopy_part_length]
    exact congrArg (· + _) asked.linkRx
  · refine (moved.mem (asked.ring ring) a fun x hx same => ?_).trans (congrArg (Memory.read · a) (asked.mem ring))
    subst same
    obtain ⟨k, -, low, at'⟩ := DmaCopy.mem_part.mp (DmaCopy.mem_stores.mp hx)
    rw [newCopy_byte] at at'
    obtain ⟨p, at', place⟩ := Option.map_eq_some_iff.mp at'
    exact apart k low (at'.trans (congrArg some (Prod.mk.inj place).1))
  · refine moved.bytes (asked.ring ring) ?_ (asked.still still) ?_ (a, data.getD k (0, false)) (DmaCopy.mem_stores.mpr ?_) there
    · rw [Sound, show (dmaAsked (copyAsked s id c)).mem = s.mem from asked.mem ring]
      exact sound
    · rw [newCopy_places]
      exact distinct
    · refine DmaCopy.mem_part.mpr ⟨k, Nat.zero_le _, low, ?_⟩
      rw [newCopy_byte, at']
      rfl

/-- A copy to the host has started. -/
theorem copyOut_starts (out : c.opcode = 3) :
    CopyStarted s (s.dmaStart id c data) id c (startedCopy s id c data) ∧
    (NoRing s → (s.dmaStart id c data).mem = s.mem) ∧
    ((startedCopy s id c data).done = 0 → (s.dmaStart id c data).hostOut = s.hostOut) ∧
    ((startedCopy s id c data).done ≠ 0 → ∃ bs : List MByte, bs.length = (startedCopy s id c data).done ∧
      (s.dmaStart id c data).hostOut = s.hostOut ++ hostWrites c.addrA bs ∧
      (NoRing s → Clean s → ∀ k a, k < (startedCopy s id c data).done → (copyGranted s id c).2[k]? = some (some a) → backed a = true →
        bs.getD k (0, true) = (Memory.read s.mem a, false))) := by
  have asked := copyAsked_asked s id c
  have moved := dmaMove_movedOut (d := newCopy id c (copyGranted s id c).2 data) (decide_eq_true out)
    (dmaAsked (copyAsked s id c)) (startedCopy s id c data).done
  have sent : (copyAsked s id c).hostOut = s.hostOut := by rw [asked.hostOut, if_pos out, List.append_nil]
  have none_iff : (newCopy id c (copyGranted s id c).2 data).part (startedCopy s id c data).done = [] ↔ (startedCopy s id c data).done = 0 := by
    rw [← List.length_eq_zero_iff, startedCopy_part_length]
  refine ⟨dmaStart_started s id c data moved.stalls, ?_⟩
  simp only [dmaStart_moved, joined_hostOut, joined_mem]
  refine ⟨fun ring => (moved.mem (asked.ring ring)).trans (asked.mem ring), fun none => (moved.nothing (none_iff.mpr none)).trans sent,
    fun some => ?_⟩
  obtain ⟨bs, length, writes, bytes⟩ := moved.writes (none_iff.not.mpr some)
  refine ⟨bs, length.trans (startedCopy_part_length data), writes.trans (congrArg (· ++ _) sent), fun ring clean k a low at' there => ?_⟩
  have byte := bytes (asked.ring ring) (asked.clean clean) k a (data.getD k (0, false))
    (by rw [startedCopy_getElem? data low, at']; rfl) there
  rw [byte, show (dmaAsked (copyAsked s id c)).mem = s.mem from asked.mem ring]

end

end Sys2Proof
end

section
/-!
PROOFS of the family 05_instruction_set: consignments that run and that end (R122, R123, R310 to R314).
-/
namespace Sys2Proof

open Machine

/-! ### Copies, as they are asked for and as they end -/

section
variable {s : State} {q : Fin 256} {i : BitVec 16} {id : Nat} {c : Consign} (found : s.findConsign q i = some (id, c))
include found

/-- A copy that may start does so (R183, R310; log entries 45, 104 and 110). -/
theorem copy_starts (data : List MByte) (may : s.mayStartConsign id c = true) (copies : c.opcode = 2 ∨ c.opcode = 3) :
    let out := decide (c.opcode = 3)
    let s1 := s.setConsign id { c with phase := .started, startedAt := s.stampNow }
    let ps := (s1.xlatAll c.ctx c.range (!out) false 0x84).2
    Leaves (exec (if out then .copyOut q i else .copyIn q i data) s) fun t =>
      (∃ x, consignAt t id = some x ∧ x.phase = .started) ∧ t.stalls = s.stalls ∧
      ∃ d, t.dma = s.dma ++ [d] ∧ d.id = id ∧ d.out = out ∧ d.host = c.addrA ∧ d.start = c.addrB ∧ d.bytes.map Prod.fst = ps ∧
        d.done ≤ c.length ∧ (d.done = 0 ∨ d.done = c.length ∨ (c.addrB + d.done) % 64 = 0) ∧
        (NoRing s → ∀ a, (out = true ∨ ∀ k, k < d.done → ps[k]? ≠ some (some a)) → Memory.read t.mem a = Memory.read s.mem a) ∧
        (out = false → t.hostOut = s.hostOut ++ (spans 4096 c.addrA c.length).map (fun p => HostMsg.read (c.addrA + p.1) p.2) ∧
          t.linkRx = s.linkRx + d.done ∧
          (NoRing s → Sound s → Still s → ps.Nodup → ∀ k a, k < d.done → ps[k]? = some (some a) → backed a = true →
            Memory.read t.mem a = (data.getD k (0, false)).1)) ∧
        (out = true → d.done = 0 → t.hostOut = s.hostOut) ∧
        (out = true → d.done ≠ 0 → ∃ bs : List MByte, bs.length = d.done ∧ t.hostOut = s.hostOut ++
            ((spans 512 c.addrA bs.length).map fun p => HostMsg.write (c.addrA + p.1) ((bs.drop p.1).take p.2) true) ∧
          (NoRing s → Clean s → ∀ k a, k < d.done → ps[k]? = some (some a) → backed a = true →
            bs.getD k (0, true) = (Memory.read s.mem a, false))) := by
  intro out s1 ps
  have places : ps = (copyGranted s id c).2 := by
    rw [copyGranted, decide_not]
  have length : (copyGranted s id c).2.length = c.length := by
    rw [copyGranted, xlatAll_length, Consign.range, List.length_map, List.length_range]
  have copy (data : List MByte) : (startedCopy s id c data).id = id ∧ (startedCopy s id c data).out = out ∧
      (startedCopy s id c data).host = c.addrA ∧ (startedCopy s id c data).start = c.addrB ∧
      (startedCopy s id c data).bytes.map Prod.fst = (copyGranted s id c).2 ∧ (startedCopy s id c data).bytes.length = c.length := by
    rw [startedCopy_eq]
    exact ⟨rfl, rfl, rfl, rfl, newCopy_places id c _ data, (newCopy_length id c _ data).trans length⟩
  rw [places]
  by_cases isOut : c.opcode = 3
  · obtain ⟨started, mem, none, writes⟩ := copyOut_starts (s := s) (id := id) [] isOut
    obtain ⟨own, dir, host, start, bytes, all⟩ := copy []
    refine ⟨s.dmaStart id c [], ?_, started.consign, started.stalls, _, started.dma, own, dir, host, start, bytes,
      all ▸ started.short, all ▸ started.boundary, fun ring a _ => by rw [mem ring], fun into => ?_, fun _ => none, fun _ => writes⟩
    · rw [if_pos (decide_eq_true isOut), exec_copyOut found, if_pos (by simp [isOut, may])]
    · exact absurd isOut (of_decide_eq_false into)
  · obtain ⟨started, host', rx, apart, stored⟩ := copyIn_starts (s := s) (id := id) data isOut
    obtain ⟨own, dir, host, start, bytes, all⟩ := copy data
    refine ⟨s.dmaStart id c data, ?_, started.consign, started.stalls, _, started.dma, own, dir, host, start, bytes,
      all ▸ started.short, all ▸ started.boundary, fun ring a away => ?_, fun _ => ⟨host', rx, stored⟩,
      fun out => absurd (of_decide_eq_true out) isOut, fun out => absurd (of_decide_eq_true out) isOut⟩
    · rw [show out = false from decide_eq_false isOut, if_neg (by decide), exec_copyIn found, if_pos (by simp [copies.resolve_right isOut, may])]
    · exact apart ring a (away.resolve_left fun out => isOut (of_decide_eq_true out))

theorem exec_copyEnd {d : DmaCopy} (up : s.dieUp = true) (copies : s.dmaOf id = some d) (started : c.phase = .started) :
    exec (.copyComplete q i) s =
      .next ((((s.dmaMove d d.bytes.length).1.dmaDrop id).finalise id c).readyIfNone c.ctx) := by
  show Host.Outcome.next _ = _
  rw [found]
  simp only [copies, up, started]
  rfl

/-- A copy writes its last byte, and its consignment is final (R310, R314). -/
theorem copy_ends {d : DmaCopy} (up : s.dieUp = true) (copies : s.dmaOf id = some d) (started : c.phase = .started) :
    Leaves (exec (.copyComplete q i) s) fun t =>
      t.dma = s.dma.filter (fun x => x.id ≠ id) ∧ t.stalls = s.stalls ∧ Ended t id c.status c.detail ∧
      (d.out = false → NoRing s → s.mineWritten c.ctx = true →
        (∀ a, (∀ k, d.done ≤ k → d.bytes[k]?.map Prod.fst ≠ some (some a)) → Memory.read t.mem a = Memory.read s.mem a) ∧
        (Sound s → Still s → (d.bytes.map Prod.fst).Nodup → ∀ k a x, d.done ≤ k → d.bytes[k]? = some (some a, x) →
          backed a = true → Memory.read t.mem a = x.1)) := by
  refine ⟨_, exec_copyEnd found up copies started, ?_, ?_, final_ended .., fun into ring written => ?_⟩
  · have jobs : OnDesk true (asOf true s) (s.dmaMove d d.bytes.length).1 := (State.dmaMove_desk ..).mpr onDesk_self
    rw [final_dma, State.dmaDrop, jobs.dma]
  · rw [final_stalls]
    cases direction : d.out
    · exact (dmaMove_movedIn direction s _).stalls
    · exact (dmaMove_movedOut direction s _).stalls
  · have moved := dmaMove_movedIn into s d.bytes.length
    have ready : (((s.dmaMove d d.bytes.length).1.dmaDrop id).finalise id c).mineWritten c.ctx = true := by
      rw [finalise_eq]
      exact (State.flag_congr _ (moved.regs _ rfl)).trans written
    have mem : (((s.dmaMove d d.bytes.length).1.dmaDrop id).finalise id c).mem = (s.dmaMove d d.bytes.length).1.mem := by
      rw [finalise_eq]
      rfl
    rw [readyIfNone_written ready, mem]
    refine ⟨fun a apart => moved.mem ring a fun x hx same => ?_, fun sound still distinct k a x from' at' there => ?_⟩
    · subst same
      obtain ⟨k, from', -, at'⟩ := DmaCopy.mem_part.mp (DmaCopy.mem_stores.mp hx)
      exact apart k from' (by rw [at']; rfl)
    · refine moved.bytes ring sound still distinct (a, x) (DmaCopy.mem_stores.mpr (DmaCopy.mem_part.mpr ⟨k, from', ?_, at'⟩)) there
      exact (List.getElem?_eq_some_iff.mp at').1

/-! ### A started consignment -/

/-- Whether a started consignment may become final (R123, R174, R313, R378). -/
def mayEnd (s : State) (id : Nat) (c : Consign) : Bool :=
  s.dieUp && c.phase == .started && (s.dmaOf id).isNone && s.stallsDone c && s.settled c && s.updatesDone c && s.receiptsIn c &&
    s.mayFinish c.ctx

/-- A consignment as it becomes final. -/
def endedAs (s : State) (id : Nat) (c : Consign) : Consign :=
  { c.outcome with unresolved := !c.streams.isEmpty
                   retiredAt := if s.retired id c then some (c.retiredAt.getD (s.lastHalt c)) else none }

theorem exec_consignmentComplete : exec (.consignmentComplete q i) s = .next (if mayEnd s id c then
    (((s.gathersOf c).foldl (fun s o => s.collFinish o.id) s).finalise id (endedAs s id c)).readyIfNone c.ctx else s) := by
  show Host.Outcome.next _ = _
  rw [found]
  rfl

theorem consignment_ends (may : mayEnd s id c = true) : Leaves (exec (.consignmentComplete q i) s) fun t =>
    (s.gathersOf c = [] → t.stalls = s.stalls) ∧ Ended t id c.outcome.status c.outcome.detail := by
  refine ⟨_, (exec_consignmentComplete found).trans (congrArg _ (if_pos may)), fun none => ?_, final_ended ..⟩
  rw [final_stalls, none]
  rfl

theorem consignment_waits (not : mayEnd s id c = false) : exec (.consignmentComplete q i) s = .next s := by
  rw [exec_consignmentComplete found, not]
  rfl

end

/-- A consignment that something ended reports that; else it reports its fault, and else what it says (R311, R313). -/
theorem outcome_reports (c : Consign) :
    (∀ x, c.ended = some x → c.outcome.status = x ∧ c.outcome.detail = 0) ∧
    (∀ y, c.ended = none → c.fault = some y → c.outcome.status = y.status ∧ c.outcome.detail = y.detail) ∧
    (c.ended = none → c.fault = none → c.outcome = c) := by
  unfold Consign.outcome
  exact ⟨fun x ended => by rw [ended]; exact ⟨rfl, rfl⟩, fun y none fault => by rw [none, fault]; exact ⟨rfl, rfl⟩,
    fun none sound => by rw [none, sound]⟩

/-! ### Programs start (R122, R123) -/

/-- What a stall that starts a program holds. -/
structure Begun (chip : BitVec 14) (id : Nat) (x : Consign) (count k : Nat) (u : Stall) : Prop where
  running : u.running = true
  pc : u.pc = 0
  context : u.context = x.ctx
  rank : u.rank.val = k % 128
  stalls : u.nStalls = count
  consignment : u.consignment = id
  args : u.s[0] = BitVec.ofNat 64 x.addrB
  own : u.s[1] = BitVec.ofNat 64 k
  all : u.s[2] = BitVec.ofNat 64 count
  chip : u.s[3] = chip.setWidth 64
  flights : u.flights = []
  wait : u.wait = none

/-- A program starts on one stall, and no other stall, no consignment and not the chip's number changes. -/
structure Starts (s t : State) (n : Fin 128) : Prop where
  chip : t.chip = s.chip
  consigns : t.consigns = s.consigns
  others : ∀ m, m ≠ n → t.stall m = s.stall m

theorem watchSettle_kept (s : State) (n : Fin 128) (d : Option (Fin 2 × Fmt × OvMode × Option Kind)) :
    (s.watchSettle n d).chip = s.chip ∧ (s.watchSettle n d).stalls = s.stalls := by
  rw [State.watchSettle_eq]
  exact ⟨rfl, rfl⟩

theorem startProgram_starts (s : State) (n : Fin 128) (x : Consign) (id rank count : Nat) (team : List (Fin 128)) (p : Program) :
    Starts s (s.startProgram n x.ctx id rank count team x.addrB p) n ∧
      Begun s.chip id x count rank ((s.startProgram n x.ctx id rank count team x.addrB p).stall n) := by
  have jobs : OnDesk true (asOf true s) (s.startProgram n x.ctx id rank count team x.addrB p) :=
    (State.startProgram_desk ..).mpr onDesk_self
  refine ⟨⟨?_, jobs.consigns, fun m other => ?_⟩, ?_⟩
  all_goals
    unfold State.startProgram
    obtain ⟨chip1, stalls1⟩ := watchSettle_kept s n (some (0, .bf16, .ieee, none))
    obtain ⟨chip2, stalls2⟩ := watchSettle_kept (s.watchSettle n (some (0, .bf16, .ieee, none))) n (some (1, .bf16, .ieee, none))
    generalize (s.watchSettle n (some (0, .bf16, .ieee, none))).watchSettle n (some (1, .bf16, .ieee, none)) = w at chip2 stalls2 ⊢
    dsimp only
  · rw [racesEnd_eq]
    exact chip2.trans chip1
  · rw [State.stall, racesEnd_stalls, ← State.stall, State.stall_setStall_other _ _ other, State.stall, stalls2, stalls1, ← State.stall]
  · rw [State.stall, racesEnd_stalls, ← State.stall, State.stall_setStall_same, chip2, chip1]
    exact ⟨rfl, rfl, rfl, rfl, rfl, rfl, rfl, rfl, rfl, rfl, rfl, rfl⟩

/-- The stalls of a program's ranks are distinct (R123). -/
theorem rankStall_inj {ts : List (Fin 16)} (distinct : ts.Nodup) {j k : Nat} (hj : j < 8 * ts.length) (hk : k < 8 * ts.length)
    (same : rankStall ts j = rankStall ts k) : j = k := by
  have jt : j / 8 < ts.length := by omega
  have kt : k / 8 < ts.length := by omega
  have place {r : Nat} (rt : r / 8 < ts.length) : (rankStall ts r).val = 8 * (ts[r / 8]).val + r % 8 := by
    rw [rankStall, List.getD_eq_getElem _ _ rt]
    exact Nat.mod_eq_of_lt (by have := (ts[r / 8]).isLt; omega)
  have eq := congrArg Fin.val same
  rw [place jt, place kt] at eq
  have stables : j / 8 = k / 8 := (List.Nodup.getElem_inj_iff distinct).mp (Fin.ext (by omega))
  omega

/-- Programs start one after another, each on its rank's stall. -/
theorem startAll (ts : List (Fin 16)) (distinct : ts.Nodup) (f : State → Nat → State) (P : Nat → Stall → Prop) {s : State}
    (step : ∀ t k, t.chip = s.chip → Starts t (f t k) (rankStall ts k) ∧ P k ((f t k).stall (rankStall ts k))) {n : Nat}
    (fits : n ≤ 8 * ts.length) :
    ((List.range n).foldl f s).chip = s.chip ∧ ((List.range n).foldl f s).consigns = s.consigns ∧
      ∀ k, k < n → P k (((List.range n).foldl f s).stall (rankStall ts k)) := by
  induction n with
  | zero => exact ⟨rfl, rfl, fun k hk => absurd hk (Nat.not_lt_zero k)⟩
  | succ n ih =>
    obtain ⟨chip, consigns, all⟩ := ih (by omega)
    rw [List.range_succ, List.foldl_append, List.foldl_cons, List.foldl_nil]
    obtain ⟨starts, begun⟩ := step _ n chip
    refine ⟨starts.chip.trans chip, starts.consigns.trans consigns, fun k hk => ?_⟩
    by_cases last : k = n
    · exact last ▸ begun
    · rw [starts.others _ fun same => last (rankStall_inj distinct (by omega) (by omega) same)]
      exact all k (by omega)

/-- An image's programs start, each on its stall. -/
theorem startImage_begins (s : State) (id : Nat) (x : Consign) {im : ImageRec} (distinct : im.stables.Nodup)
    (whole : im.nStalls = 8 * im.stables.length) : (∃ y, consignAt (s.startImage id x im.stables im) id = some y ∧ y.phase = .started) ∧
      ∀ k, k < im.nStalls → Begun s.chip id x im.nStalls k ((s.startImage id x im.stables im).stall (rankStall im.stables k)) := by
  obtain ⟨-, consigns, all⟩ := startAll im.stables distinct
    (fun s r => s.startProgram (rankStall im.stables r) x.ctx id r im.nStalls ((List.range im.nStalls).map (rankStall im.stables)) x.addrB
      (im.programs.getD (im.map.getD r 0) {}))
    (Begun s.chip id x im.nStalls)
    (s := s.noteRetired.setConsign id
      { x with phase := .started, stalls := (List.range im.nStalls).map (rankStall im.stables), startedAt := s.stampNow })
    (fun t k same => by
      have starts := startProgram_starts t (rankStall im.stables k) x id k im.nStalls ((List.range im.nStalls).map (rankStall im.stables))
        (im.programs.getD (im.map.getD k 0) {})
      rw [show t.chip = s.chip from same] at starts
      exact starts) (Nat.le_of_eq whole)
  exact ⟨⟨_, (consignAt_congr consigns id).trans (consignAt_setConsign ..), rfl⟩, all⟩

/-! ### A RUN -/

/-- The states in which a command's refused pages are counted as one access's, and after it (R183). -/
def scopeOpen (s : State) : State := { s with refusing := some [] }

def scopeClosed (s : State) : State := { s with refusing := none }

theorem Ended.closed {s : State} {id : Nat} {st : Status} {n : Nat} (h : Ended s id st n) : Ended (scopeClosed s) id st n := h
theorem scopeClosed_stalls (s : State) : (scopeClosed s).stalls = s.stalls := rfl

theorem scoped_open {s : State} (outside : s.refusing = none) (f : State → State) : s.scoped f = scopeClosed (f (scopeOpen s)) := by
  unfold State.scoped State.scope
  rw [outside]
  rfl

/-- The first bytes that a RUN names, and the image that they are the header of. -/
def runBytes (c : Consign) (n : Nat) : List Nat := (List.range n).map fun k => (c.addrA + k) % 2 ^ 48
def runHeader (s : State) (c : Consign) : ImgHeader := .of ((s.readCtx c.ctx (runBytes c 256) 0x83).2.map (·.1))
def runImage (s : State) (c : Consign) : ImageId := ⟨c.ctx, c.addrA, (runHeader s c).crc⟩

/-- The bytes of the whole image, which are read where the stables do not hold it. -/
def runWhole (s : State) (c : Consign) : State × List MByte :=
  (s.readCtx c.ctx (runBytes c 256) 0x83).1.readCtx c.ctx (runBytes c (max 256 (runHeader s c).imageBytes)) 0x83

section
variable {s : State} (id : Nat) {c : Consign}

theorem run_loaded {im : ImageRec} (loaded : s.loaded (runImage s c) = some im) : s.run id c =
    if im.stables.any s.stableBusy then s
    else (s.readCtx c.ctx (runBytes c 256) 0x83).1.startImage id c im.stables im := by
  unfold State.run
  dsimp only
  split
  · next im' found =>
    obtain rfl : im = im' := Option.some.inj (loaded.symm.trans found)
    rfl
  · next none => exact absurd (loaded.symm.trans none) (by simp)

theorem run_refused (new : s.loaded (runImage s c) = none)
    (free : ((s.usable c.ctx).take ((runHeader s c).stalls / 8)).any s.stableBusy = false) {f : LoadRefusal}
    (refused : ((runWhole s c).1.load c.ctx (runImage s c) ((runWhole s c).2.map (·.1))).2 = some f) : s.run id c =
    (((runWhole s c).1.load c.ctx (runImage s c) ((runWhole s c).2.map (·.1))).1.finalise id
      { c with status := .refusedFit, detail := f.reason }).readyIfNone c.ctx := by
  unfold State.run
  dsimp only
  split
  · next im found => exact absurd (new.symm.trans found) (by simp)
  · rw [if_neg (by rw [Bool.not_eq_true]; exact free)]
    split
    · next t x load =>
      obtain rfl : f = x := Option.some.inj (refused.symm.trans (congrArg Prod.snd load))
      exact congrArg (fun t => (State.finalise t id _).readyIfNone c.ctx) (congrArg Prod.fst load).symm
    · next t load => exact absurd (refused.symm.trans (congrArg Prod.snd load)) (by simp)

end

theorem runWhole_stalls (s : State) (c : Consign) : (runWhole s c).1.stalls = s.stalls := by
  rw [runWhole, (readCtx_looks ..).stalls, (readCtx_looks ..).stalls]

theorem loadRecord_stalls (s : State) (c : Fin 64) (st : Status) (f : LoadRefusal) : (s.loadRecord c st f).stalls = s.stalls := by
  rw [State.loadRecord, (setFlds_frame ..).rest]

/-- A load that is refused leaves but its record (R152). -/
theorem load_refused (s : State) (c : Fin 64) (img : ImageId) (b : List Byte) {f : LoadRefusal} (refused : (s.load c img b).2 = some f) :
    (s.load c img b).1 = s.loadRecord c .refusedFit f := by
  unfold State.load at refused ⊢
  dsimp only at refused ⊢
  split at refused
  · cases refused
    rfl
  · split at refused
    · cases refused
      rfl
    · cases refused

section
variable {s : State} {q : Fin 256} {i : BitVec 16} {id : Nat} {c : Consign} (found : s.findConsign q i = some (id, c))
  (may : s.mayStartConsign id c = true) (op : c.opcode = 1) (outside : s.refusing = none)
include found may op outside

theorem exec_mayRun : exec (.run q i) s = .next (scopeClosed ((scopeOpen s).run id c)) := by
  rw [exec_runConsign found, if_neg (by simp [op, may]), scoped_open outside]

/-- A RUN of an image that its stables hold starts a program on each of its stalls (R122, R123, R310). -/
theorem run_starts {im : ImageRec} (loaded : s.loaded (runImage (scopeOpen s) c) = some im) (free : im.stables.any s.stableBusy = false)
    (whole : im.nStalls = 8 * im.stables.length) (few : im.stables.length ≤ 16) (distinct : im.stables.Nodup) :
    Leaves (exec (.run q i) s) fun t => (∃ x, consignAt t id = some x ∧ x.phase = .started) ∧ ∀ k, k < im.nStalls →
      let n := rankStall im.stables k
      let u := t.stall n
      u.running = true ∧ u.pc = 0 ∧ u.context = c.ctx ∧ u.rank.val = k ∧ u.nStalls = im.nStalls ∧ u.consignment = id ∧
        u.s[0] = BitVec.ofNat 64 c.addrB ∧ u.s[1] = BitVec.ofNat 64 k ∧ u.s[2] = BitVec.ofNat 64 im.nStalls ∧
        u.s[3] = s.chip.setWidth 64 ∧ u.flights = [] ∧ u.wait = none := by
  have look := readCtx_looks (scopeOpen s) c.ctx (runBytes c 256) 0x83
  have chip : ((scopeOpen s).readCtx c.ctx (runBytes c 256) 0x83).1.chip = s.chip := by
    rw [look.rest]
    rfl
  obtain ⟨started, begun⟩ := startImage_begins ((scopeOpen s).readCtx c.ctx (runBytes c 256) 0x83).1 id c distinct whole
  rw [chip] at begun
  refine ⟨_, exec_mayRun found may op outside, ?_⟩
  have idle : im.stables.any (scopeOpen s).stableBusy = false := free
  rw [run_loaded id (s := scopeOpen s) loaded, idle]
  refine ⟨started, fun k hk => ?_⟩
  have b := begun k hk
  exact ⟨b.running, b.pc, b.context, b.rank.trans (Nat.mod_eq_of_lt (by omega)), b.stalls, b.consignment, b.args, b.own, b.all, b.chip,
    b.flights, b.wait⟩

/-- A RUN whose image is refused ends with ST_REFUSED_FIT (R149 to R152). -/
theorem run_refuses (new : s.loaded (runImage (scopeOpen s) c) = none)
    (free : ((s.usable c.ctx).take ((runHeader (scopeOpen s) c).stalls / 8)).any s.stableBusy = false) {x : LoadRefusal}
    (refused : ((runWhole (scopeOpen s) c).1.load c.ctx (runImage (scopeOpen s) c) ((runWhole (scopeOpen s) c).2.map (·.1))).2 = some x) :
    Leaves (exec (.run q i) s) fun t => Ended t id .refusedFit x.reason ∧ t.stalls = s.stalls := by
  refine ⟨_, exec_mayRun found may op outside, ?_⟩
  rw [run_refused id (s := scopeOpen s) new free refused]
  refine ⟨(final_ended _ id { c with status := .refusedFit, detail := x.reason } c.ctx).closed, ?_⟩
  rw [scopeClosed_stalls, final_stalls, load_refused _ _ _ _ refused, loadRecord_stalls, runWhole_stalls]
  rfl

/-- A RUN waits while its image's stables have work (R310). -/
theorem run_waits {im : ImageRec} (loaded : s.loaded (runImage (scopeOpen s) c) = some im) (busy : im.stables.any s.stableBusy = true) :
    exec (.run q i) s = .next s := by
  have works : im.stables.any (scopeOpen s).stableBusy = true := busy
  rw [exec_mayRun found may op outside, run_loaded id (s := scopeOpen s) loaded, works, if_pos rfl, scopeOpen, scopeClosed, ← outside]

end

/-- Settles O33: each command by what it does to the consignment that it names. -/
theorem consignmentsStartAndEnd : Obligations.ConsignmentsStartAndEnd := by
  intro s q i data id c found may isRun
  refine ⟨consign_waits found data, fun may nop ok => ?_, copy_starts found data, fun d => copy_ends found,
    fun up copies started stalls letters updates receipts reset => ?_, fun up started blocked => consignment_waits found ?_,
    fun may op outside => ⟨fun im => run_starts found may op outside, fun new free x => run_refuses found may op outside new free,
      fun ⟨im, loaded, busy⟩ => run_waits found may op outside loaded busy⟩⟩
  · rw [← ok]
    exact nop_ends found may nop
  · obtain ⟨t, next, kept, ended⟩ := consignment_ends found (by simp [mayEnd, up, copies, started, stalls, letters, updates, receipts, reset])
    refine ⟨t, next, kept, ?_⟩
    obtain ⟨other, fault, sound⟩ := outcome_reports c
    cases hended : c.ended with
    | some x =>
      obtain ⟨status, detail⟩ := other x hended
      rw [status, detail] at ended
      exact ended
    | none =>
      cases hfault : c.fault with
      | some y =>
        obtain ⟨status, detail⟩ := fault y hended hfault
        rw [status, detail] at ended
        exact ended
      | none =>
        rw [sound hended hfault] at ended
        exact ended
  · rcases blocked with h | h | h | h | h <;> simp [mayEnd, h]

end Sys2Proof
end
